-- ==== Sys2Proof/Word.lean ====
section
/-! DEFINITION. The word types of the KZ9 (spec/00_scope.md R3, R4) and the plain-data map that holds registers,
tiles and scratchpads. -/

namespace Sys2Proof

/-- One byte (R3). -/
abbrev Byte := BitVec 8

/-- A 32-bit word (R3): a vector register, an operand-file entry, a lane mask, `fmt`. -/
abbrev Word := BitVec 32

/-- A 64-bit word: a uniform register, a program counter, an instruction word, a virtual address. -/
abbrev DWord := BitVec 64

/-- A sparse array of `w`-bit cells as plain data: keys strictly rising, no cell equal to zero; an unlisted key
reads as zero. -/
abbrev Cells (w : Nat) := List (Nat × BitVec w)

end Sys2Proof
end

