-- ==== Sys2Proof/Syntax.lean ====
section
/-! DEFINITION. The instruction words of Ewezer E1 (spec/05_encoding_and_assembly.md) and the device's own steps: one
constructor per row of spec/opcode_table.json. -/

namespace Sys2Proof

/-- Scheduling-control version (R115). -/
inductive Ver where
  | portable | fixed
  deriving DecidableEq, Repr

/-- The header every instruction word carries (R111); `sp` holds the mask word of a safe point (R109, R122). -/
structure Hdr where
  ver : Ver
  sw : Bool
  sp : Option DWord
  uni : Bool
  gn : Bool
  gp : BitVec 3
  deriving DecidableEq, Repr

/-- A register operand field read as a source (R71): vector, operand file, latch, uniform, short constant. -/
inductive Src where
  | v (i : BitVec 8) | o (i : BitVec 4) | l (i : BitVec 1) | s (i : BitVec 7) | k (n : BitVec 7)
  deriving DecidableEq, Repr

/-- A register operand field as a destination (R73): vector, operand file, latch only, and level 0b11, which names
both `v[i]` and `o[i mod 16]` with UNI = 0 and `s[i]` with UNI = 1 (R74). -/
inductive Dst where
  | v (i : BitVec 8) | o (i : BitVec 4) | l | hi (i : BitVec 8)
  deriving DecidableEq, Repr

/-- A predicate selector (R145). -/
structure PSel where
  k : Bool
  neg : Bool
  idx : BitVec 3
  deriving DecidableEq, Repr

/-- TYPE codes (R129). -/
inductive Ty where
  | i8 | i16 | i32 | i64 | n8 | n16 | n32 | n64 | b8 | b16 | b32 | b64
  | f32 | f16 | bf16 | t8 | t6 | e4m3 | e5m2 | e2m1 | e8
  deriving DecidableEq, Repr

/-- RMOD of a MOD field (R188). -/
inductive RMod where
  | fmt | rne | rz | rup | rdn
  deriving DecidableEq, Repr

/-- A MOD field (R188). -/
structure FMod where
  fz : Bool
  st : Bool
  rm : RMod
  deriving DecidableEq, Repr

/-- Memory orders (R131). -/
inductive Order where
  | rlx | acq | rel | ar | sc
  deriving DecidableEq, Repr

/-- Scopes (R131, R252). -/
inductive Scope where
  | team | bough | crown | dev | sys
  deriving DecidableEq, Repr

/-- Request types (R230). -/
inductive Rt where
  | own | wt | si | uc
  deriving DecidableEq, Repr

/-- VOTE variants writing a predicate (R163). -/
inductive VoteOp where
  | all | any | same
  deriving DecidableEq, Repr

/-- SHFL variants (R165). -/
inductive ShflOp where
  | pick | back | ahead | flip
  deriving DecidableEq, Repr

/-- PLOP variants (R166). -/
inductive PlopOp where
  | and | or | xor | mov
  deriving DecidableEq, Repr

/-- LDU widths (R289). -/
inductive LduW where
  | n8 | n16 | n32 | b64 | i8 | i16 | i32
  deriving DecidableEq, Repr

/-- Atomic operations (R313). -/
inductive AtomOp where
  | add | min | max | and | or | xor | exch | inc | dec
  deriving DecidableEq, Repr

/-- MWAIT widths (R323). -/
inductive MwW where
  | n32 | b64 | seq
  deriving DecidableEq, Repr

/-- MWAIT conditions (R323). -/
inductive MwCond where
  | eq | ne | geu | ltu
  deriving DecidableEq, Repr

/-- Engine queue codes (R318, R443). -/
inductive Queue where
  | mat | cpy | dec | sto | root | ring
  deriving DecidableEq, Repr

/-- One source, type and variant (F0). -/
structure Op1 where
  h : Hdr
  d : Dst
  a : Src
  ty : Ty
  sub : BitVec 2
  deriving DecidableEq, Repr

/-- Two sources, type and variant (F0). -/
structure Op2 where
  h : Hdr
  d : Dst
  a : Src
  b : Src
  ty : Ty
  sub : BitVec 2
  deriving DecidableEq, Repr

/-- Three sources, type and variant (F0). -/
structure Op3 where
  h : Hdr
  d : Dst
  a : Src
  b : Src
  c : Src
  ty : Ty
  sub : BitVec 2
  deriving DecidableEq, Repr

/-- A comparison into a predicate (R173, R195): SUB 0 writes, 1 ANDs, 2 ORs. -/
structure CmpOp where
  h : Hdr
  d : PSel
  a : Src
  b : Src
  cond : BitVec 3
  ty : Ty
  sub : BitVec 2
  deriving DecidableEq, Repr

/-- One floating source under a MOD field (R191, R197, R202). -/
structure FOp1 where
  h : Hdr
  d : Dst
  a : Src
  m : FMod
  ty : Ty
  deriving DecidableEq, Repr

/-- Two sources under a MOD field (R191, R202, R212). -/
structure FOp2 where
  h : Hdr
  d : Dst
  a : Src
  b : Src
  m : FMod
  ty : Ty
  deriving DecidableEq, Repr

/-- A conversion under a MOD field (R207). -/
structure CvtOp where
  h : Hdr
  d : Dst
  a : Src
  m : FMod
  dty : Ty
  sty : Ty
  deriving DecidableEq, Repr

/-- A per-lane access: LD, ST, LDS, STS (R289, R294). -/
structure MemOp where
  h : Hdr
  data : BitVec 8
  addr : BitVec 6
  ord : Order
  scp : Scope
  rcd : BitVec 12
  off : BitVec 16
  deriving DecidableEq, Repr

/-- A uniform load (R289). -/
structure LduOp where
  h : Hdr
  data : BitVec 7
  addr : BitVec 6
  ord : Order
  scp : Scope
  w : LduW
  off : BitVec 16
  deriving DecidableEq, Repr

/-- WUNMAP, WFLUSH, WSTAT (R301). -/
structure WinOp where
  h : Hdr
  data : BitVec 7
  addr : BitVec 6
  deriving DecidableEq, Repr

/-- CLEAN and INVAL (R309). -/
structure MaintOp where
  h : Hdr
  addr : BitVec 6
  scp : Scope
  off : BitVec 16
  deriving DecidableEq, Repr

/-- ATOM and RED (R312). -/
structure AtomFields where
  h : Hdr
  data : BitVec 8
  addr : BitVec 6
  ord : Order
  scp : Scope
  spl : Bool
  op : AtomOp
  ty : Ty
  off : BitVec 16
  deriving DecidableEq, Repr

/-- MWAIT (R323). -/
structure MwaitOp where
  h : Hdr
  data : BitVec 8
  addr : BitVec 6
  scp : Scope
  w : MwW
  cond : MwCond
  off : BitVec 16
  deriving DecidableEq, Repr

/-- TBINIT, TBARR, TBWAIT (R328). -/
structure TbOp where
  h : Hdr
  data : BitVec 7
  addr : BitVec 6
  ord : Order
  scp : Scope
  off : BitVec 16
  deriving DecidableEq, Repr

/-- CINIT (R366). -/
structure CinitOp where
  h : Hdr
  cd : BitVec 4
  addr : Src
  ppos : Src
  pd : BitVec 3
  deriving DecidableEq, Repr

/-- CDESC (R366). -/
structure CdescOp where
  h : Hdr
  cd : BitVec 4
  ca : BitVec 4
  pd : BitVec 3
  deriving DecidableEq, Repr

/-- CISEC and CUNION (R366). -/
structure CmergeOp where
  h : Hdr
  ca : BitVec 4
  cb : BitVec 4
  step : Bool
  pd : BitVec 3
  deriving DecidableEq, Repr

/-- CCRD, CPOS, CVAL (R366). -/
structure CreadOp where
  h : Hdr
  ca : BitVec 4
  d : Dst
  deriving DecidableEq, Repr

/-- TLD and TST (R392). -/
structure TileMem where
  h : Hdr
  t : BitVec 4
  addr : Src
  stride : BitVec 12
  cnt : Src
  all : Bool
  deriving DecidableEq, Repr

/-- MMA and MMAS (R392); `ts` is the scale tile of MMAS. -/
structure MmaOp where
  h : Hdr
  ad : BitVec 4
  ta : BitVec 4
  tb : BitVec 4
  ts : BitVec 4
  rows : Src
  all : Bool
  deriving DecidableEq, Repr

/-- ARD and AWR (R392): vector register, accumulator, upper half, column, n − 1. -/
structure AccMove where
  h : Hdr
  v : BitVec 8
  acc : BitVec 4
  hi : Bool
  col : BitVec 6
  n1 : BitVec 4
  deriving DecidableEq, Repr

/-- An engine command (R443). -/
structure EngOp where
  h : Hdr
  sb : BitVec 7
  d : Dst
  disp : Option DWord
  deriving DecidableEq, Repr

/-- A ring instruction (R451). -/
structure RingOp where
  h : Hdr
  d : Dst
  sb : BitVec 7
  ring : BitVec 4
  n1 : BitVec 10
  deriving DecidableEq, Repr

/-- An engine that queue entries run on, one to a unit of the package (R7): the copy and the decompression engine of a crown, the root
die of a stack, the storage engine and the peer engine of the port die. -/
inductive EngineId where
  | copy (crown : Nat) | decomp (crown : Nat) | root (stack : Nat) | storage | peer
  deriving DecidableEq, Repr

/-- An agent of R491: a core, a bough atomic unit, an engine, a home (an L2 slice, numbered through the device, R15). -/
inductive AgentId where
  | core (n : Nat) | bough (n : Nat) | engine (e : EngineId) | home (n : Nat)
  deriving DecidableEq, Repr

/-- The agent that a write comes from, with the incarnation number its message carries (R492). -/
structure Sender where
  agent : Nat
  inc : BitVec 8
  deriving DecidableEq, Repr

/-- The agent that a home still awaits an answer from, and for how many nanoseconds (R491). -/
structure Unanswered where
  agent : AgentId
  waited : Nat
  deriving DecidableEq, Repr

/-- Where an uncorrectable error lies (R251, R491). Numbers name a core, a sector, a team, a line, an L2 slice through the device. -/
inductive ErrAt where
  | cleanCopy (core sector : Nat)
  | dirtyL1 (core sector : Nat)
  | dirtyWindow (core index sector : Nat)
  | teamArray (team : Nat)
  | dram (sector : Nat)
  | directory (line : Nat)
  | sliceUnit (slice : Nat)
  | agent (a : AgentId)
  deriving DecidableEq, Repr

/-- One constructor per row of spec/opcode_table.json: the instructions of Ewezer E1, then the device's own steps,
which carry no instruction word. A step that something outside the device starts takes its data from the arrivals that
the state holds. -/
inductive Instr where
  -- control and group, f06
  | nop (h : Hdr)
  | bra (h : Hdr) (any : Bool) (off : BitVec 24)
  | bru (h : Hdr) (off : BitVec 24)
  | brx (h : Hdr) (a : Src)
  | call (h : Hdr) (link : BitVec 7) (off : BitVec 24)
  | callx (h : Hdr) (link : BitVec 7) (a : Src)
  | ret (h : Hdr) (link : BitVec 7)
  | dvg (h : Hdr) (p : BitVec 3) (neg : Bool) (off : BitVec 24)
  | cvg (h : Hdr)
  | exit (h : Hdr)
  | yield (h : Hdr)
  | spawn (h : Hdr) (a : BitVec 8) (cnt : BitVec 3) (off : BitVec 24)
  | regroup (h : Hdr) (pd : BitVec 3) (mask : DWord)
  | vote (h : Hdr) (op : VoteOp) (d : PSel) (a : PSel)
  | voteMask (h : Hdr) (below : Bool) (d : Dst) (a : PSel)
  | elect (h : Hdr) (d : PSel)
  | shfl (h : Hdr) (op : ShflOp) (wrap : Bool) (ty : Ty) (d : Dst) (a : Src) (b : Src)
  | matchL (h : Hdr) (ty : Ty) (d : Dst) (a : Src)
  | plop (h : Hdr) (op : PlopOp) (d : PSel) (a : PSel) (b : PSel)
  | setfmtImm (h : Hdr) (imm : BitVec 24)
  | setfmtReg (h : Hdr) (a : Src)
  | getfmt (h : Hdr) (d : Dst)
  | sreg (h : Hdr) (d : Dst) (num : BitVec 24)
  -- integer, f06
  | iadd (x : Op2)
  | iadd3 (x : Op3)
  | isub (x : Op2)
  | ineg (x : Op1)
  | iabs (x : Op1)
  | imul (x : Op2)
  | imulh (x : Op2)
  | imad (x : Op3)
  | idiv (x : Op2)
  | irem (x : Op2)
  | imin (x : Op2)
  | imax (x : Op2)
  | icmp (x : CmpOp)
  | isel (h : Hdr) (d : Dst) (a b : Src) (sel : PSel) (ty : Ty)
  | and (x : Op2)
  | or (x : Op2)
  | xor (x : Op2)
  | not (x : Op1)
  | andn (x : Op2)
  | shl (x : Op2)
  | shr (x : Op2)
  | sar (x : Op2)
  | rol (x : Op2)
  | popc (x : Op1)
  | clz (x : Op1)
  | ctz (x : Op1)
  | brev (x : Op1)
  | bfx (x : Op2)
  | bfi (x : Op3)
  | perm (x : Op3)
  | lea (x : Op3)
  | mov (x : Op1)
  | movi (h : Hdr) (d : Dst) (sub : BitVec 3) (imm : BitVec 24)
  | ldi (h : Hdr) (d : Dst) (sub : BitVec 3) (imm : DWord)
  | cvti (h : Hdr) (d : Dst) (a : Src) (dty sty : Ty) (sub : BitVec 2)
  -- floating point and conversion, f07
  | fadd (x : FOp2)
  | fsub (x : FOp2)
  | fmul (x : FOp2)
  | fma (x : Op3)
  | fmin (x : Op2)
  | fmax (x : Op2)
  | fcmp (x : CmpOp)
  | fneg (x : Op1)
  | fabs (x : Op1)
  | frcp (x : FOp1)
  | frsq (x : FOp1)
  | fsqrt (x : FOp1)
  | fdiv (x : FOp2)
  | fex2 (x : FOp1)
  | flg2 (x : FOp1)
  | fsin (x : FOp1)
  | fcos (x : FOp1)
  | ftanh (x : FOp1)
  | fcls (x : Op1)
  | fscl (x : FOp2)
  | frnd (x : FOp1)
  | fcvt (x : CvtOp)
  | fcvti (x : CvtOp)
  | icvtf (x : CvtOp)
  | hadd2 (x : FOp2)
  | hmul2 (x : FOp2)
  | hfma2 (x : Op3)
  | dot4 (x : Op3)
  -- memory, windows, atomics, synchronisation, f11
  | ldOwn (x : MemOp)
  | ldWt (x : MemOp)
  | ldSi (x : MemOp)
  | ldUc (x : MemOp)
  | stOwn (x : MemOp)
  | stWt (x : MemOp)
  | stSi (x : MemOp)
  | stUc (x : MemOp)
  | lduOwn (x : LduOp)
  | lduWt (x : LduOp)
  | lduSi (x : LduOp)
  | lduUc (x : LduOp)
  | lds (x : MemOp)
  | sts (x : MemOp)
  | pref (h : Hdr) (addr : BitVec 6) (home : Bool) (n : BitVec 4) (off : BitVec 16)
  | zsect (h : Hdr) (addr : BitVec 6) (ord : Order) (scp : Scope) (off : BitVec 16)
  | wmap (h : Hdr) (data : BitVec 7) (addr : BitVec 6) (scp : Scope) (zero : Bool) (ft : Rt) (off : BitVec 16)
  | wunmap (x : WinOp)
  | wflush (x : WinOp)
  | winv (x : WinOp) (discard : Bool)
  | wstat (x : WinOp)
  | clean (x : MaintOp)
  | inval (x : MaintOp)
  | atom (x : AtomFields)
  | atomcas (x : AtomFields)
  | red (x : AtomFields)
  | fence (h : Hdr) (ord : Order) (scp : Scope)
  | qfence (h : Hdr) (set : BitVec 6)
  | barTeam (h : Hdr) (id : BitVec 4)
  | barRole (h : Hdr) (id : BitVec 4)
  | bbar (h : Hdr) (id : BitVec 4) (cnt : Src)
  | mwait (x : MwaitOp)
  | tbinit (x : TbOp)
  | tbarr (x : TbOp)
  | tbwait (x : TbOp)
  -- cursors, f14
  | cinit (x : CinitOp)
  | cinitApp (x : CinitOp)
  | cnext (h : Hdr) (ca : BitVec 4) (pd : BitVec 3)
  | cseek (h : Hdr) (ca : BitVec 4) (t : Src) (pd : BitVec 3)
  | cdesc (x : CdescOp)
  | cdescApp (x : CdescOp)
  | cisec (x : CmergeOp)
  | cunion (x : CmergeOp)
  | ccrd (x : CreadOp)
  | cpos (x : CreadOp)
  | cval (x : CreadOp)
  | cstv (h : Hdr) (ca : BitVec 4) (a : Src)
  | capp (h : Hdr) (ca : BitVec 4) (crd val : Src)
  | cfin (h : Hdr) (ca : BitVec 4)
  | cdone (h : Hdr) (ca : BitVec 4) (pd : BitVec 3)
  | cmov (h : Hdr) (cd ca : BitVec 4)
  | csave (h : Hdr) (ca : BitVec 4) (base : Src) (off : BitVec 10)
  | crest (h : Hdr) (cd : BitVec 4) (base : Src) (off : BitVec 10)
  | cpref (h : Hdr) (ca : BitVec 4) (n : BitVec 4)
  -- tiles and matrix, f15
  | tld (x : TileMem)
  | tst (x : TileMem)
  | tzero (h : Hdr) (t : BitVec 4)
  | tasm (h : Hdr) (t ca : BitVec 4) (k0 : Src) (hi : Bool) (w16 : Bool)
  | mma (x : MmaOp)
  | mmas (x : MmaOp)
  | aclr (h : Hdr) (acc : BitVec 4)
  | ard (x : AccMove)
  | awr (x : AccMove)
  | acvt (h : Hdr) (t acc : BitVec 4) (part : BitVec 2) (ty : Ty)
  | mfence (h : Hdr) (d : Dst)
  | mwaitb (h : Hdr) (a : Src) (all : Bool)
  -- engines, rings and system, f18
  | cpy (h : Hdr) (sb : BitVec 7) (d : Dst) (mask : DWord)
  | cpyt (x : EngOp)
  | cpyc (x : EngOp)
  | csum (x : EngOp)
  | decq (x : EngOp)
  | stq (x : EngOp)
  | netq (x : EngOp)
  | topk (x : EngOp)
  | rmv (x : EngOp)
  | qstat (h : Hdr) (d : Dst) (q : Queue)
  | launch (x : EngOp) (q : BitVec 10)
  | mbxw (h : Hdr) (m : BitVec 5) (a : Src)
  | mbxr (h : Hdr) (m : BitVec 5) (d : Dst)
  | mbxp (h : Hdr) (m : BitVec 5) (d : Dst) (full : PSel)
  | rres (x : RingOp)
  | rpub (x : RingOp)
  | rtake (x : RingOp)
  | rrel (x : RingOp)
  | rinvIndex (h : Hdr) (a : Src)
  | rinvAll (h : Hdr)
  | rinvLevel (h : Hdr) (a : Src)
  | trap (h : Hdr) (code : BitVec 12)
  | brk (h : Hdr) (code : BitVec 12)
  | tlbiPage (h : Hdr) (va ctx : Src)
  | tlbiCtx (h : Hdr) (ctx : Src)
  | tlbiPart (h : Hdr)
  | ssetRngstate (h : Hdr) (a : Src)
  | ssetTrapvec (h : Hdr) (a : Src)
  | waitt (h : Hdr) (d : Dst) (a : Src)
  -- the device's own steps: spawning, regrouping, scheduling
  | binTimerExpiry (core bin : Nat)
  | binLaunchDeferred (core bin : Nat)
  | spawnResume (gid : Nat)
  | regroupMigrate (host donor : Nat)
  | regroupTimeout (gid : Nat)
  | stallExchange (gid : Nat)
  | emptySlotFill (core slice : Nat)
  | pendingAgeExpiry (gid : Nat)
  | teamPlace (grid core : Nat)
  | teamEnd (tid : Nat)
  | gridEnd (grid : Nat)
  | splitDrain (core grid : Nat)
  | splitReconfigure (core : Nat)
  | mailboxWake (tid m : Nat)
  | loadDataReturn (gid : Nat)
  | pageWalk (core part ctx : Nat) (va : DWord) (write fetch : Bool)
  | homeWrite (x : Sender) (sector : Nat) (mask : BitVec 64) (data : BitVec 512)
  | forcedPublish (core : Nat)
  | rdcSweep (crown : Nat)
  | scrubDram (crown corrected : Nat)
  | scrubSram (crown corrected : Nat)
  | uncorrectableError (loc : ErrAt)
  | mwaitRetest (gid : Nat)
  | mwaitOverflowExpiry (gid : Nat)
  | bbarEntryFree (gid : Nat)
  | captureEntryFree (gid : Nat)
  | codebookTableArrival (core grid index block : Nat) (stalled : Nat)
  -- queues and engines
  | tldPerform (core : Nat)
  | tstPerform (core : Nat)
  | tasmPerform (core : Nat)
  | mmaExecute (core : Nat)
  | acvtPerform (core : Nat)
  | matrixEntryRetire (core : Nat)
  | mwaitbWake (gid : Nat)
  | cpyPerform (core : Nat)
  | cpytPerform (core : Nat)
  | cpycPerform (core : Nat)
  | csumPerform (core : Nat)
  | decqPerform (core : Nat)
  | stqSubmit (core : Nat)
  | nvmeCompletion (entry : Nat) (sct : BitVec 3) (sc : BitVec 8)
  | netqPerform (core : Nat)
  | netqAck (entry : Nat) (nak : Bool) (data : List Byte)
  | rdmaAckTimeout (entry : Nat)
  | topkPerform (core : Nat)
  | rmvPerform (core : Nat)
  | ringEntryPerform (core : Nat)
  | engineEntryPark (core : Nat) (q : Queue)
  -- launch queues, faults, pre-emption
  | launchQueueTailWrite (q : Nat)
  | blockEligible (grid : Nat)
  | priorityAging (grid : Nat)
  | budgetOverrun (tid : Nat)
  | faultRecordWrite (part : Nat)
  | faultAction (part : Nat) (rec : Nat)
  | preemptRequest (tid : Nat)
  | hardPreempt (gid : Nat)
  | teamSave (tid : Nat)
  | teamResume (tid core : Nat)
  | agentTimeout (x : Unanswered)
  | staleMessageDrop (a : AgentId) (incarnation : BitVec 8) (addr : Nat)
  | deviceFatal (unit : BitVec 32)
  | waittDeadlineReached (gid : Nat)
  | unassignedOpcode (w : DWord)
  -- what reaches the device from outside: its data stand at the head of the state's arrivals
  | seedImageWrite
  | frameReceive
  | rdmaWriteInbound
  | rdmaReadInbound
  | rdmaAtomicInbound
  | rdmaSendInbound
  | rdmaSignalInbound
  | rdmaUnsupportedInbound
  | targetBufAccess
  | nvmeConnectionLost
  | readUnitMap
  | writePartitionRecord
  | bindVf
  | writeLaunchQueueRecord
  | writeRegistrationEntry
  | writeBinding
  | loadKey
  | seedMake
  | seedRestore
  | counterStatement
  | readDump
  | setPowerCap
  | resetAndReadmitUnit
  | reserveTimedCapacity
  | mgmtUnknownCode
  | resetRelease
  | resetAssert
  | powerLoss
  | thermalWarning
  | thermtrip
  deriving DecidableEq, Repr

end Sys2Proof
end

