-- ==== Sys2Proof/WellFormed.lean ====
section
/-! DEFINITION. Which instructions the manual accepts, as far as the instruction's own words decide it: one named
reason per refusal. What depends on the group (an allocation, `fmt`, a kernel's bins) is checked when it issues. -/

namespace Sys2Proof

/-- Why a word sequence is no instruction (R113). -/
inductive Illegal where
  /-- VER 0b10 or 0b11 (R115). -/
  | version
  /-- UNI outside what the entry accepts (R133). -/
  | uniform
  /-- A guard outside what the entry accepts (R34, R144, R282, R385). -/
  | guard
  /-- A register operand field that names nothing (R71, R73, R74). -/
  | operand
  /-- A short constant where none is accepted (R71, R128). -/
  | constant
  /-- An odd index for a 64-bit value (R70). -/
  | oddPair
  /-- A TYPE outside the entry's list (R129). -/
  | type
  /-- A SUB, CSUB, OP, COND or option value outside the entry's list. -/
  | variant
  /-- A predicate selector outside R145. -/
  | selector
  /-- An order or scope not accepted (R131). -/
  | order
  /-- A special-register number not accepted (R171, R458, R473). -/
  | register
  /-- A number outside its range (accumulator selector, element count, read count). -/
  | range
  /-- A mask word that sets a bit it may not set (R52, R123, R460). -/
  | maskWord
  /-- A reserved field that is not zero (R128). -/
  | reserved
  /-- Fewer words than the instruction has (R109). -/
  | truncated
  deriving DecidableEq, Repr

/-- The check `c` with its reason. -/
def need (c : Bool) (r : Illegal) : Option Illegal := if c then none else some r

/-- Width in bits of a type's value (R129, R187). -/
def Ty.bits : Ty → Nat
  | .i8 | .n8 | .b8 | .t8 | .e4m3 | .e5m2 | .e8 => 8
  | .i16 | .n16 | .b16 | .f16 | .bf16 => 16
  | .i32 | .n32 | .b32 | .f32 => 32
  | .i64 | .n64 | .b64 => 64
  | .t6 => 6
  | .e2m1 => 4

/-- Signed integer types. -/
def Ty.isI : Ty → Bool
  | .i8 | .i16 | .i32 | .i64 => true
  | _ => false

/-- Unsigned integer types. -/
def Ty.isN : Ty → Bool
  | .n8 | .n16 | .n32 | .n64 => true
  | _ => false

/-- Plain-bits types. -/
def Ty.isB : Ty → Bool
  | .b8 | .b16 | .b32 | .b64 => true
  | _ => false

/-- Integer types of R173's columns "i, n". -/
def Ty.isInt (t : Ty) : Bool := t.isI || t.isN

/-- A 64-bit type. -/
def Ty.wide (t : Ty) : Bool := t.bits == 64

/-- `.b32` or `.b64`. -/
def Ty.isB3264 (t : Ty) : Bool := t == .b32 || t == .b64

/-- The arithmetic types of R191. -/
def Ty.isArith (t : Ty) : Bool := t == .f32 || t == .f16 || t == .bf16

/-- The types of FCVTI's source and ICVTF's destination (R207). -/
def Ty.isFloat (t : Ty) : Bool :=
  t.isArith || t == .t8 || t == .t6 || t == .e4m3 || t == .e5m2 || t == .e2m1

/-- The types of FCVT and FCLS (R202, R207). -/
def Ty.isFloatE8 (t : Ty) : Bool := t.isFloat || t == .e8

/-- A source operand: a pair has an even index, a constant stands only where accepted (R70, R71, R128). -/
def Src.check (wide const : Bool) : Src → Option Illegal
  | .v i => need (!wide || !i.getLsbD 0) .oddPair
  | .o i => need (!wide || !i.getLsbD 0) .oddPair
  | .l _ => none
  | .s _ => none
  | .k _ => need const .constant

/-- A destination operand (R73, R74). -/
def Dst.check (uni wide : Bool) (d : Dst) : Option Illegal :=
  if uni then
    match d with
    | .hi i => need (!i.getLsbD 7) .operand
    | _ => some .operand
  else
    match d with
    | .v i => need (!wide || !i.getLsbD 0) .oddPair
    | .o i => need (!wide || !i.getLsbD 0) .oddPair
    | .l => none
    | .hi i => need (!wide || !i.getLsbD 0) .oddPair

/-- A destination selector: K is UNI, N is zero, g0–g3 only (R145). -/
def PSel.checkDst (uni : Bool) (p : PSel) : Option Illegal :=
  need (p.k == uni && !p.neg && !(p.k && p.idx.getLsbD 2)) .selector

/-- A source selector (R145). -/
def PSel.checkSrc (p : PSel) : Option Illegal := need (!(p.k && p.idx.getLsbD 2)) .selector

/-- The safe-point mask word sets no reserved bit (R123). -/
def Hdr.checkMask (h : Hdr) : Option Illegal :=
  match h.sp with
  | some m => need (!m.getLsbD 39) .maskWord
  | none => none

/-- UNI = 0 with any guard. -/
def Hdr.lane (h : Hdr) : Option Illegal := h.checkMask <|> need (!h.uni) .uniform

/-- UNI = 0 without a guard. -/
def Hdr.bare (h : Hdr) : Option Illegal := h.lane <|> need (h.gp == 7 && !h.gn) .guard

/-- UNI = 0 or 1; a uniform guard names g0–g3 or always (R34). -/
def Hdr.both (h : Hdr) : Option Illegal :=
  h.checkMask <|> need (!h.uni || !h.gp.getLsbD 2 || h.gp == 7) .guard

/-- UNI = 1. -/
def Hdr.unif (h : Hdr) : Option Illegal := h.both <|> need h.uni .uniform

/-- One source (R173, R194, R202): which types, highest SUB, a 32-bit result whatever the type. -/
def Op1.check (x : Op1) (t : Ty → Bool) (maxSub : Nat) (narrowD : Bool) : Option Illegal :=
  x.h.both <|> need (t x.ty) .type <|> need (x.sub.toNat ≤ maxSub) .variant
    <|> x.d.check x.h.uni (x.ty.wide && !narrowD) <|> x.a.check x.ty.wide false

/-- Two sources; `ctl`: the second is a count or control word of 32 bits (R174). -/
def Op2.check (x : Op2) (t : Ty → Bool) (maxSub : Nat) (ctl : Bool) : Option Illegal :=
  x.h.both <|> need (t x.ty) .type <|> need (x.sub.toNat ≤ maxSub) .variant
    <|> x.d.check x.h.uni x.ty.wide <|> x.a.check x.ty.wide false <|> x.b.check (x.ty.wide && !ctl) true

/-- Three sources; `ctl`: the third is a count, control or selector word of 32 bits (R174). -/
def Op3.check (x : Op3) (t : Ty → Bool) (maxSub : Nat) (ctl : Bool) : Option Illegal :=
  x.h.both <|> need (t x.ty) .type <|> need (x.sub.toNat ≤ maxSub) .variant
    <|> x.d.check x.h.uni x.ty.wide <|> x.a.check x.ty.wide false <|> x.b.check x.ty.wide true
    <|> x.c.check (x.ty.wide && !ctl) true

/-- IDIV and IREM: `.floor` only with an `.i` type (R173). -/
def Op2.checkDiv (x : Op2) : Option Illegal :=
  x.check Ty.isInt 1 false <|> need (x.sub == 0 || x.ty.isI) .variant

/-- Comparisons (R177, R195). -/
def CmpOp.check (x : CmpOp) (t : Ty → Bool) (condOk : Bool) : Option Illegal :=
  x.h.both <|> need (t x.ty) .type <|> need (x.sub.toNat ≤ 2 && condOk) .variant
    <|> x.d.checkDst x.h.uni <|> x.a.check x.ty.wide false <|> x.b.check x.ty.wide true

/-- One floating source under MOD (R191, R197, R202). -/
def FOp1.check (x : FOp1) : Option Illegal :=
  x.h.both <|> need x.ty.isArith .type <|> x.d.check x.h.uni false <|> x.a.check false false

/-- Two sources under MOD (R191, R202, R212). -/
def FOp2.check (x : FOp2) (t : Ty → Bool) : Option Illegal :=
  x.h.both <|> need (t x.ty) .type <|> x.d.check x.h.uni false <|> x.a.check false false <|> x.b.check false true

/-- Conversions (R207). -/
def CvtOp.check (x : CvtOp) (td ts : Ty → Bool) : Option Illegal :=
  x.h.both <|> need (td x.dty && ts x.sty) .type <|> x.d.check x.h.uni x.dty.wide <|> x.a.check x.sty.wide false

/-- Orders a load accepts (R289). -/
def Order.load (o : Order) : Bool := o == .rlx || o == .acq || o == .sc

/-- Orders a store accepts (R289). -/
def Order.store (o : Order) : Bool := o == .rlx || o == .rel || o == .sc

/-- A per-lane load. -/
def MemOp.checkLd (x : MemOp) : Option Illegal := x.h.lane <|> need x.ord.load .order

/-- A per-lane store. -/
def MemOp.checkSt (x : MemOp) : Option Illegal := x.h.lane <|> need x.ord.store .order

/-- LDU (R289). -/
def LduOp.check (x : LduOp) : Option Illegal := x.h.unif <|> need x.ord.load .order

/-- CLEAN and INVAL (R309). -/
def MaintOp.check (x : MaintOp) : Option Illegal := x.h.unif <|> need (x.scp != .sys) .order

/-- Types an atomic operation accepts (R313). -/
def AtomOp.accepts (o : AtomOp) (t : Ty) : Bool :=
  match o with
  | .add | .min | .max => t == .i32 || t == .i64 || t == .n32 || t == .n64 || t == .f32
  | .and | .or | .xor | .exch => t.isB3264
  | .inc | .dec => t == .n32 || t == .n64

/-- ATOM, ATOMCAS and RED (R312, R316). -/
def AtomFields.check (x : AtomFields) (tyOk : Bool) : Option Illegal :=
  x.h.lane <|> need tyOk .type <|> need (!x.spl || x.scp == .team) .order
    <|> need (!x.ty.wide || !x.data.getLsbD 0) .oddPair

/-- MWAIT (R323, R327). -/
def MwaitOp.check (x : MwaitOp) : Option Illegal :=
  x.h.both <|> need (!x.h.uni || !x.data.getLsbD 7) .operand
    <|> need (x.h.uni || x.w == .n32 || !x.data.getLsbD 0) .oddPair

/-- TBINIT, TBARR, TBWAIT (R328). -/
def TbOp.check (x : TbOp) (ok : Order → Bool) : Option Illegal := x.h.unif <|> need (ok x.ord) .order

/-- TLD and TST (R392): VB is zero with `.all`. -/
def TileMem.check (x : TileMem) : Option Illegal :=
  x.h.both <|> x.addr.check true false <|> x.cnt.check false true <|> need (!x.all || x.cnt == .v 0) .reserved

/-- MMA and MMAS (R392). -/
def MmaOp.check (x : MmaOp) : Option Illegal :=
  x.h.bare <|> need (!x.ad.getLsbD 3) .range <|> x.rows.check false true
    <|> need (!x.all || x.rows == .v 0) .reserved

/-- ARD and AWR (R392, R400). -/
def AccMove.check (x : AccMove) : Option Illegal :=
  x.h.lane <|> need (!x.acc.getLsbD 3 && x.col.toNat + x.n1.toNat + 1 ≤ 64) .range

/-- Types and parts of ACVT (R401). -/
def acvtAccepts (t : Ty) (part : BitVec 2) : Bool :=
  match t with
  | .e2m1 => part == 0
  | .i8 | .e4m3 | .e5m2 | .t8 | .t6 => part.toNat ≤ 1
  | .bf16 | .f16 => true
  | _ => false

/-- An engine command (R442, R443). -/
def EngOp.check (x : EngOp) : Option Illegal := x.h.both <|> x.d.check x.h.uni true

/-- A ring instruction (R442, R451); RRES and RTAKE name no base. -/
def RingOp.check (x : RingOp) (base : Bool) : Option Illegal :=
  x.h.both <|> x.d.check x.h.uni true <|> need (base || x.sb == 0) .reserved

/-- A special register SREG reads and whether it has 64 bits (R171, R458, R473). -/
def sregWide (n : Nat) : Option Bool :=
  if n ≤ 0x008 then some false
  else if n == 0x010 then some false
  else if n == 0x011 || n == 0x012 then some true
  else if n == 0x013 || n == 0x014 then some false
  else if n == 0x015 then some true
  else if 0x020 ≤ n && n ≤ 0x023 then some true
  else if 0x030 ≤ n && n ≤ 0x033 then some true
  else none

/-- An instruction's first breach of the manual, if any: what its own words decide. The device's own steps breach
nothing. -/
def Instr.illegal : Instr → Option Illegal
  | .nop h => h.checkMask
  | .bra h _ _ => h.lane
  | .bru h _ => h.unif
  | .brx h a => h.bare <|> a.check true false
  | .call h _ _ => h.bare
  | .callx h _ a => h.bare <|> a.check true false
  | .ret h _ => h.bare
  | .dvg h _ _ _ => h.bare
  | .cvg h => h.bare
  | .exit h => h.lane
  | .yield h => h.bare
  | .spawn h _ cnt _ => h.lane <|> need (cnt.toNat ≤ 4) .variant
  | .regroup h _ mask => h.bare <|> need (mask &&& 0xFFF0FF8000000000#64 == 0) .maskWord
  | .vote h _ d a => h.lane <|> d.checkDst h.uni <|> a.checkSrc
  | .voteMask h below d a => h.both <|> need (!(below && h.uni)) .uniform <|> d.check h.uni false <|> a.checkSrc
  | .elect h d => h.lane <|> d.checkDst h.uni
  | .shfl h op wrap ty d a b =>
    h.lane <|> need ty.isB3264 .type <|> need (!wrap || op == .back || op == .ahead) .variant
      <|> d.check h.uni ty.wide <|> a.check ty.wide false <|> b.check false true
  | .matchL h ty d a => h.lane <|> need ty.isB3264 .type <|> d.check h.uni false <|> a.check ty.wide false
  | .plop h op d a b =>
    h.both <|> d.checkDst h.uni <|> a.checkSrc <|> b.checkSrc
      <|> need (op != .mov || b == ⟨false, false, 0⟩) .reserved
  | .setfmtImm h _ => h.both
  | .setfmtReg h a => h.both <|> a.check false false
  | .getfmt h d => h.both <|> d.check h.uni false
  | .sreg h d num =>
    h.both <|>
      match sregWide num.toNat with
      | some w => d.check h.uni w
      | none => some .register
  | .iadd x => x.check Ty.isInt 1 false
  | .iadd3 x => x.check Ty.isInt 1 false
  | .isub x => x.check Ty.isInt 1 false
  | .ineg x => x.check Ty.isInt 1 false
  | .iabs x => x.check Ty.isI 1 false
  | .imul x => x.check Ty.isInt 1 false
  | .imulh x => x.check Ty.isInt 0 false
  | .imad x => x.check Ty.isInt 1 false
  | .idiv x => x.checkDiv
  | .irem x => x.checkDiv
  | .imin x => x.check Ty.isInt 0 false
  | .imax x => x.check Ty.isInt 0 false
  | .icmp x =>
    x.check (fun t => t.isInt || t.isB) (decide (x.cond.toNat ≤ 5) && (!x.ty.isB || decide (x.cond.toNat ≤ 1)))
  | .isel h d a b sel ty =>
    h.both <|> need ty.isB3264 .type <|> d.check h.uni ty.wide <|> a.check ty.wide false <|> b.check ty.wide true
      <|> sel.checkSrc
  | .and x => x.check Ty.isB3264 0 false
  | .or x => x.check Ty.isB3264 0 false
  | .xor x => x.check Ty.isB3264 0 false
  | .not x => x.check Ty.isB3264 0 false
  | .andn x => x.check Ty.isB3264 0 false
  | .shl x => x.check Ty.isB3264 0 true
  | .shr x => x.check Ty.isB3264 0 true
  | .sar x => x.check (fun t => t == .i32 || t == .i64) 0 true
  | .rol x => x.check Ty.isB3264 0 true
  | .popc x => x.check Ty.isB3264 0 true
  | .clz x => x.check Ty.isB3264 0 true
  | .ctz x => x.check Ty.isB3264 0 true
  | .brev x => x.check Ty.isB3264 0 false
  | .bfx x => x.check (fun t => t == .i32 || t == .n32 || t == .i64 || t == .n64) 0 true
  | .bfi x => x.check Ty.isB3264 0 true
  | .perm x => x.check (· == .b32) 0 true
  | .lea x =>
    x.h.both <|> need (x.ty == .i32 || x.ty == .n32 || x.ty == .i64 || x.ty == .n64) .type
      <|> need (x.sub == 0) .variant <|> x.d.check x.h.uni true <|> x.a.check true false
      <|> x.b.check x.ty.wide true <|> x.c.check false true
  | .mov x => x.check Ty.isB3264 0 false
  | .movi h d sub _ => h.both <|> need (sub.toNat ≤ 3) .variant <|> d.check h.uni (sub.toNat ≥ 2)
  | .ldi h d sub imm =>
    h.both <|> need (sub.toNat ≤ 1) .variant <|> d.check h.uni (sub == 1)
      <|> need (sub == 1 || imm.toNat < 2 ^ 32) .reserved
  | .cvti h d a dty sty sub =>
    h.both <|> need (dty.isInt && sty.isInt) .type <|> need (sub.toNat ≤ 1) .variant
      <|> d.check h.uni dty.wide <|> a.check sty.wide false
  | .fadd x => x.check Ty.isArith
  | .fsub x => x.check Ty.isArith
  | .fmul x => x.check Ty.isArith
  | .fma x => x.check Ty.isArith 3 false
  | .fmin x => x.check Ty.isArith 0 false
  | .fmax x => x.check Ty.isArith 0 false
  | .fcmp x => x.check Ty.isArith true
  | .fneg x => x.check Ty.isArith 0 false
  | .fabs x => x.check Ty.isArith 0 false
  | .frcp x => x.check
  | .frsq x => x.check
  | .fsqrt x => x.check
  | .fdiv x => x.check Ty.isArith
  | .fex2 x => x.check
  | .flg2 x => x.check
  | .fsin x => x.check
  | .fcos x => x.check
  | .ftanh x => x.check
  | .fcls x => x.check Ty.isFloatE8 0 false
  | .fscl x => x.check Ty.isArith
  | .frnd x => x.check
  | .fcvt x => x.check Ty.isFloatE8 Ty.isFloatE8
  | .fcvti x => x.check Ty.isInt Ty.isFloat
  | .icvtf x => x.check Ty.isFloat Ty.isInt
  | .hadd2 x => x.check (fun t => t == .f16 || t == .bf16)
  | .hmul2 x => x.check (fun t => t == .f16 || t == .bf16)
  | .hfma2 x => x.check (fun t => t == .f16 || t == .bf16) 3 false
  | .dot4 x =>
    x.check (fun t => t == .i8 || t == .n8 || t == .e4m3 || t == .e5m2 || t == .t8)
      (if x.ty == .i8 || x.ty == .n8 then 1 else 3) false
  | .ldOwn x => x.checkLd
  | .ldWt x => x.checkLd
  | .ldSi x => x.checkLd
  | .ldUc x => x.checkLd
  | .stOwn x => x.checkSt
  | .stWt x => x.checkSt
  | .stSi x => x.checkSt
  | .stUc x => x.checkSt
  | .lduOwn x => x.check
  | .lduWt x => x.check
  | .lduSi x => x.check
  | .lduUc x => x.check
  | .lds x => x.checkLd
  | .sts x => x.checkSt
  | .pref h _ _ n _ => h.lane <|> need (n != 0) .range
  | .zsect h _ ord _ _ => h.lane <|> need (ord == .rlx || ord == .rel) .order
  | .wmap h _ _ _ _ _ _ => h.unif
  | .wunmap x => x.h.unif
  | .wflush x => x.h.unif
  | .winv x _ => x.h.unif
  | .wstat x => x.h.unif
  | .clean x => x.check
  | .inval x => x.check
  | .atom x => x.check (x.op.accepts x.ty)
  | .atomcas x => x.check x.ty.isB3264 <|> need (x.op == .add) .variant
  | .red x => x.check (x.op.accepts x.ty) <|> need (x.op != .exch) .variant <|> need (x.ord == .rlx || x.ord == .rel) .order
  | .fence h ord _ => h.lane <|> need (ord != .rlx) .order
  | .qfence h set => h.both <|> need (set != 0) .range
  | .barTeam h _ => h.lane
  | .barRole h _ => h.lane
  | .bbar h _ cnt => h.lane <|> cnt.check false false
  | .mwait x => x.check
  | .tbinit x => x.check (fun o => o == .rlx || o == .rel)
  | .tbarr x => x.check (· == .rel)
  | .tbwait x => x.check (· == .acq)
  | .cinit x => x.h.lane <|> x.addr.check true false <|> x.ppos.check false true
  | .cinitApp x => x.h.lane <|> x.addr.check true false <|> x.ppos.check false true
  | .cnext h _ _ => h.lane
  | .cseek h _ t _ => h.lane <|> t.check false true
  | .cdesc x => x.h.lane
  | .cdescApp x => x.h.lane
  | .cisec x => x.h.lane
  | .cunion x => x.h.lane
  | .ccrd x => x.h.lane <|> x.d.check false false
  | .cpos x => x.h.lane <|> x.d.check false true
  | .cval x => x.h.lane <|> x.d.check false false
  | .cstv h _ a => h.lane <|> a.check false true
  | .capp h _ crd val => h.lane <|> crd.check false false <|> val.check false true
  | .cfin h _ => h.lane
  | .cdone h _ _ => h.lane
  | .cmov h _ _ => h.lane
  | .csave h _ base _ => h.lane <|> base.check true false
  | .crest h _ base _ => h.lane <|> base.check true false
  | .cpref h _ n => h.lane <|> need (1 ≤ n.toNat && n.toNat ≤ 8) .range
  | .tld x => x.check
  | .tst x => x.check
  | .tzero h _ => h.both
  | .tasm h _ _ k0 _ _ => h.lane <|> k0.check false true
  | .mma x => x.check <|> need (x.ts == 0) .reserved
  | .mmas x => x.check
  | .aclr h acc => h.both <|> need (!acc.getLsbD 3) .range
  | .ard x => x.check
  | .awr x => x.check
  | .acvt h _ acc part ty => h.both <|> need (!acc.getLsbD 3) .range <|> need (acvtAccepts ty part) .type
  | .mfence h d => h.both <|> d.check h.uni false
  | .mwaitb h a all => h.both <|> a.check false false <|> need (!all || a == .v 0) .reserved
  | .cpy h _ d mask => h.both <|> d.check h.uni true <|> need (mask &&& 0x03FFFFFFFFFFFFFF#64 == 0) .maskWord
  | .cpyt x => x.check
  | .cpyc x => x.check
  | .csum x => x.check
  | .decq x => x.check
  | .stq x => x.check
  | .netq x => x.check
  | .topk x => x.check
  | .rmv x => x.check
  | .qstat h d _ => h.both <|> d.check h.uni true
  | .launch x _ => x.check
  | .mbxw h _ a => h.both <|> a.check false false
  | .mbxr h _ d => h.both <|> d.check h.uni false
  | .mbxp h _ d full => h.both <|> d.check h.uni false <|> full.checkDst h.uni
  | .rres x => x.check false
  | .rpub x => x.check true
  | .rtake x => x.check false
  | .rrel x => x.check true
  | .rinvIndex h a => h.both <|> a.check false false
  | .rinvAll h => h.both
  | .rinvLevel h a => h.both <|> a.check true false
  | .trap h _ => h.lane
  | .brk h _ => h.lane
  | .tlbiPage h va ctx => h.both <|> va.check true false <|> ctx.check false true
  | .tlbiCtx h ctx => h.both <|> ctx.check false true
  | .tlbiPart h => h.both
  | .ssetRngstate h a => h.lane <|> a.check false false
  | .ssetTrapvec h a => h.both <|> a.check true false
  | .waitt h d a => h.both <|> d.check h.uni true <|> a.check true false
  | .binTimerExpiry _ _ => none
  | .binLaunchDeferred _ _ => none
  | .spawnResume _ => none
  | .regroupMigrate _ _ => none
  | .regroupTimeout _ => none
  | .stallExchange _ => none
  | .emptySlotFill _ _ => none
  | .pendingAgeExpiry _ => none
  | .teamPlace _ _ => none
  | .teamEnd _ => none
  | .gridEnd _ => none
  | .splitDrain _ _ => none
  | .splitReconfigure _ => none
  | .mailboxWake _ _ => none
  | .loadDataReturn _ => none
  | .pageWalk _ _ _ _ _ _ => none
  | .homeWrite _ _ _ _ => none
  | .forcedPublish _ => none
  | .rdcSweep _ => none
  | .scrubDram _ _ => none
  | .scrubSram _ _ => none
  | .uncorrectableError _ => none
  | .mwaitRetest _ => none
  | .mwaitOverflowExpiry _ => none
  | .bbarEntryFree _ => none
  | .captureEntryFree _ => none
  | .codebookTableArrival _ _ _ _ _ => none
  | .tldPerform _ => none
  | .tstPerform _ => none
  | .tasmPerform _ => none
  | .mmaExecute _ => none
  | .acvtPerform _ => none
  | .matrixEntryRetire _ => none
  | .mwaitbWake _ => none
  | .cpyPerform _ => none
  | .cpytPerform _ => none
  | .cpycPerform _ => none
  | .csumPerform _ => none
  | .decqPerform _ => none
  | .stqSubmit _ => none
  | .nvmeCompletion _ _ _ => none
  | .netqPerform _ => none
  | .netqAck _ _ _ => none
  | .rdmaAckTimeout _ => none
  | .topkPerform _ => none
  | .rmvPerform _ => none
  | .ringEntryPerform _ => none
  | .engineEntryPark _ _ => none
  | .launchQueueTailWrite _ => none
  | .blockEligible _ => none
  | .priorityAging _ => none
  | .budgetOverrun _ => none
  | .faultRecordWrite _ => none
  | .faultAction _ _ => none
  | .preemptRequest _ => none
  | .hardPreempt _ => none
  | .teamSave _ => none
  | .teamResume _ _ => none
  | .agentTimeout _ => none
  | .staleMessageDrop _ _ _ => none
  | .deviceFatal _ => none
  | .waittDeadlineReached _ => none
  | .seedImageWrite => none
  | .frameReceive => none
  | .rdmaWriteInbound => none
  | .rdmaReadInbound => none
  | .rdmaAtomicInbound => none
  | .rdmaSendInbound => none
  | .rdmaSignalInbound => none
  | .rdmaUnsupportedInbound => none
  | .targetBufAccess => none
  | .nvmeConnectionLost => none
  | .readUnitMap => none
  | .writePartitionRecord => none
  | .bindVf => none
  | .writeLaunchQueueRecord => none
  | .writeRegistrationEntry => none
  | .writeBinding => none
  | .loadKey => none
  | .seedMake => none
  | .seedRestore => none
  | .counterStatement => none
  | .readDump => none
  | .setPowerCap => none
  | .resetAndReadmitUnit => none
  | .reserveTimedCapacity => none
  | .mgmtUnknownCode => none
  | .resetRelease => none
  | .resetAssert => none
  | .powerLoss => none
  | .thermalWarning => none
  | .thermtrip => none
  | .unassignedOpcode _ => none

/-- The instruction is one the manual accepts. -/
def Instr.wellFormed (i : Instr) : Bool := i.illegal == none

end Sys2Proof
end

