-- ==== Sys2Proof/Decode.lean ====
section
/-! DEFINITION. Instruction words to instructions and back (spec/05_encoding_and_assembly.md R109–R133): the fields
of the eight formats, a decoder that refuses by name, and an encoder. -/

namespace Sys2Proof

/-! ### Formats (R125) -/

/-- F0, ALU. -/
structure F0 where
  dst : BitVec 10
  sa : BitVec 10
  sb : BitVec 10
  sc : BitVec 10
  ty : BitVec 5
  sub : BitVec 2
  deriving DecidableEq, Repr

/-- F1, register and immediate. -/
structure F1 where
  dst : BitVec 10
  sa : BitVec 10
  sub : BitVec 3
  imm : BitVec 24
  deriving DecidableEq, Repr

/-- F2, memory. -/
structure F2 where
  data : BitVec 8
  addr : BitVec 6
  so : BitVec 5
  rcd : BitVec 12
  off : BitVec 16
  deriving DecidableEq, Repr

/-- F3, branch. -/
structure F3 where
  x : BitVec 23
  off : BitVec 24
  deriving DecidableEq, Repr

/-- F4, cursor. -/
structure F4 where
  cd : BitVec 4
  ca : BitVec 4
  cb : BitVec 4
  va : BitVec 10
  vb : BitVec 10
  pd : BitVec 3
  sub : BitVec 2
  imm : BitVec 10
  deriving DecidableEq, Repr

/-- F5, matrix and tile. -/
structure F5 where
  xd : BitVec 4
  xa : BitVec 4
  xb : BitVec 4
  va : BitVec 10
  vb : BitVec 10
  sub : BitVec 3
  imm : BitVec 12
  deriving DecidableEq, Repr

/-- F6, engine. -/
structure F6 where
  sb : BitVec 7
  dst : BitVec 10
  dx : BitVec 1
  sub : BitVec 3
  imm : BitVec 14
  low : BitVec 12
  deriving DecidableEq, Repr

/-- F7, system. -/
structure F7 where
  dst : BitVec 10
  sa : BitVec 10
  sb : BitVec 10
  sub : BitVec 5
  imm : BitVec 12
  deriving DecidableEq, Repr

/-- Bits [46:0] of an F0 word. -/
def F0.pack (f : F0) : BitVec 47 := f.dst ++ f.sa ++ f.sb ++ f.sc ++ f.ty ++ f.sub

/-- Bits [46:0] of an F1 word. -/
def F1.pack (f : F1) : BitVec 47 := f.dst ++ f.sa ++ f.sub ++ f.imm

/-- Bits [46:0] of an F2 word. -/
def F2.pack (f : F2) : BitVec 47 := f.data ++ f.addr ++ f.so ++ f.rcd ++ f.off

/-- Bits [46:0] of an F3 word. -/
def F3.pack (f : F3) : BitVec 47 := f.x ++ f.off

/-- Bits [46:0] of an F4 word. -/
def F4.pack (f : F4) : BitVec 47 := f.cd ++ f.ca ++ f.cb ++ f.va ++ f.vb ++ f.pd ++ f.sub ++ f.imm

/-- Bits [46:0] of an F5 word. -/
def F5.pack (f : F5) : BitVec 47 := f.xd ++ f.xa ++ f.xb ++ f.va ++ f.vb ++ f.sub ++ f.imm

/-- Bits [46:0] of an F6 word. -/
def F6.pack (f : F6) : BitVec 47 := f.sb ++ f.dst ++ f.dx ++ f.sub ++ f.imm ++ f.low

/-- Bits [46:0] of an F7 word. -/
def F7.pack (f : F7) : BitVec 47 := f.dst ++ f.sa ++ f.sb ++ f.sub ++ f.imm

/-- The fields of an F0 word. -/
def F0.unpack (b : BitVec 47) : F0 :=
  ⟨b.extractLsb' 37 10, b.extractLsb' 27 10, b.extractLsb' 17 10, b.extractLsb' 7 10, b.extractLsb' 2 5,
    b.extractLsb' 0 2⟩

/-- The fields of an F1 word. -/
def F1.unpack (b : BitVec 47) : F1 :=
  ⟨b.extractLsb' 37 10, b.extractLsb' 27 10, b.extractLsb' 24 3, b.extractLsb' 0 24⟩

/-- The fields of an F2 word. -/
def F2.unpack (b : BitVec 47) : F2 :=
  ⟨b.extractLsb' 39 8, b.extractLsb' 33 6, b.extractLsb' 28 5, b.extractLsb' 16 12, b.extractLsb' 0 16⟩

/-- The fields of an F3 word. -/
def F3.unpack (b : BitVec 47) : F3 := ⟨b.extractLsb' 24 23, b.extractLsb' 0 24⟩

/-- The fields of an F4 word. -/
def F4.unpack (b : BitVec 47) : F4 :=
  ⟨b.extractLsb' 43 4, b.extractLsb' 39 4, b.extractLsb' 35 4, b.extractLsb' 25 10, b.extractLsb' 15 10,
    b.extractLsb' 12 3, b.extractLsb' 10 2, b.extractLsb' 0 10⟩

/-- The fields of an F5 word. -/
def F5.unpack (b : BitVec 47) : F5 :=
  ⟨b.extractLsb' 43 4, b.extractLsb' 39 4, b.extractLsb' 35 4, b.extractLsb' 25 10, b.extractLsb' 15 10,
    b.extractLsb' 12 3, b.extractLsb' 0 12⟩

/-- The fields of an F6 word. -/
def F6.unpack (b : BitVec 47) : F6 :=
  ⟨b.extractLsb' 40 7, b.extractLsb' 30 10, b.extractLsb' 29 1, b.extractLsb' 26 3, b.extractLsb' 12 14,
    b.extractLsb' 0 12⟩

/-- The fields of an F7 word. -/
def F7.unpack (b : BitVec 47) : F7 :=
  ⟨b.extractLsb' 37 10, b.extractLsb' 27 10, b.extractLsb' 17 10, b.extractLsb' 12 5, b.extractLsb' 0 12⟩

/-! ### Fields -/

/-- One bit as a Bool. -/
def bit0 (b : BitVec 1) : Bool := b == 1

/-- A Bool as one bit. -/
def ofBit (b : Bool) : BitVec 1 := if b then 1 else 0

/-- A source field (R71). -/
def Src.enc : Src → BitVec 10
  | .v i => 0b00#2 ++ i
  | .o i => 0b010000#6 ++ i
  | .l i => 0b100000000#9 ++ i
  | .s i => 0b110#3 ++ i
  | .k n => 0b111#3 ++ n

/-- Reading a source field (R71). -/
def Src.dec (b : BitVec 10) : Except Illegal Src :=
  let i := b.extractLsb' 0 8
  match (b.extractLsb' 8 2).toNat with
  | 0 => .ok (.v i)
  | 1 => if i.extractLsb' 4 4 = 0 then .ok (.o (b.extractLsb' 0 4)) else .error .operand
  | 2 => if i.extractLsb' 1 7 = 0 then .ok (.l (b.extractLsb' 0 1)) else .error .operand
  | _ => if i.extractLsb' 7 1 = 0 then .ok (.s (b.extractLsb' 0 7)) else .ok (.k (b.extractLsb' 0 7))

/-- A destination field (R73, R74). -/
def Dst.enc : Dst → BitVec 10
  | .v i => 0b00#2 ++ i
  | .o i => 0b010000#6 ++ i
  | .l => 0b1000000000#10
  | .hi i => 0b11#2 ++ i

/-- Reading a destination field (R73, R74). -/
def Dst.dec (b : BitVec 10) : Except Illegal Dst :=
  let i := b.extractLsb' 0 8
  match (b.extractLsb' 8 2).toNat with
  | 0 => .ok (.v i)
  | 1 => if i.extractLsb' 4 4 = 0 then .ok (.o (b.extractLsb' 0 4)) else .error .operand
  | 2 => if i = 0 then .ok .l else .error .operand
  | _ => .ok (.hi i)

/-- A predicate selector (R145). -/
def PSel.enc (p : PSel) : BitVec 10 := 0#5 ++ ofBit p.k ++ ofBit p.neg ++ p.idx

/-- Reading a predicate selector (R145). -/
def PSel.dec (b : BitVec 10) : Except Illegal PSel :=
  if b.extractLsb' 5 5 = 0 then
    .ok ⟨bit0 (b.extractLsb' 4 1), bit0 (b.extractLsb' 3 1), b.extractLsb' 0 3⟩
  else .error .selector

/-- TYPE codes (R129). -/
def Ty.enc : Ty → BitVec 5
  | .i8 => 0x00 | .i16 => 0x01 | .i32 => 0x02 | .i64 => 0x03 | .n8 => 0x04 | .n16 => 0x05 | .n32 => 0x06
  | .n64 => 0x07 | .b8 => 0x08 | .b16 => 0x09 | .b32 => 0x0A | .b64 => 0x0B | .f32 => 0x0C | .f16 => 0x0D
  | .bf16 => 0x0E | .t8 => 0x0F | .t6 => 0x10 | .e4m3 => 0x11 | .e5m2 => 0x12 | .e2m1 => 0x13 | .e8 => 0x14

/-- Reading a TYPE code (R129). -/
def Ty.dec (b : BitVec 5) : Except Illegal Ty :=
  match b.toNat with
  | 0x00 => .ok .i8 | 0x01 => .ok .i16 | 0x02 => .ok .i32 | 0x03 => .ok .i64 | 0x04 => .ok .n8 | 0x05 => .ok .n16
  | 0x06 => .ok .n32 | 0x07 => .ok .n64 | 0x08 => .ok .b8 | 0x09 => .ok .b16 | 0x0A => .ok .b32 | 0x0B => .ok .b64
  | 0x0C => .ok .f32 | 0x0D => .ok .f16 | 0x0E => .ok .bf16 | 0x0F => .ok .t8 | 0x10 => .ok .t6 | 0x11 => .ok .e4m3
  | 0x12 => .ok .e5m2 | 0x13 => .ok .e2m1 | 0x14 => .ok .e8 | _ => .error .type

/-- RMOD (R188). -/
def RMod.enc : RMod → BitVec 3
  | .fmt => 0 | .rne => 1 | .rz => 2 | .rup => 3 | .rdn => 4

/-- A MOD field (R188). -/
def FMod.enc (m : FMod) : BitVec 10 := 0#4 ++ ofBit m.fz ++ ofBit m.st ++ 0#1 ++ m.rm.enc

/-- Reading RMOD (R188). -/
def RMod.dec (b : BitVec 3) : Except Illegal RMod :=
  match b.toNat with
  | 0 => .ok .fmt | 1 => .ok .rne | 2 => .ok .rz | 3 => .ok .rup | 4 => .ok .rdn | _ => .error .variant

/-- Reading a MOD field (R188). -/
def FMod.dec (b : BitVec 10) : Except Illegal FMod :=
  (RMod.dec (b.extractLsb' 0 3)).map fun r => ⟨bit0 (b.extractLsb' 5 1), bit0 (b.extractLsb' 4 1), r⟩

/-- Order codes (R131). -/
def Order.code : Order → Nat
  | .rlx => 0 | .acq => 1 | .rel => 2 | .ar => 3 | .sc => 4

/-- Scope codes (R131). -/
def Scope.code : Scope → Nat
  | .team => 0 | .bough => 1 | .crown => 2 | .dev => 3 | .sys => 4

/-- SO: order × 5 + scope (R131). -/
def encSO (o : Order) (s : Scope) : BitVec 5 := BitVec.ofNat 5 (o.code * 5 + s.code)

/-- An order code. -/
def Order.ofCode : Nat → Order
  | 0 => .rlx | 1 => .acq | 2 => .rel | 3 => .ar | _ => .sc

/-- A scope code. -/
def Scope.ofCode : Nat → Scope
  | 0 => .team | 1 => .bough | 2 => .crown | 3 => .dev | _ => .sys

/-- Reading SO (R131). -/
def decSO (b : BitVec 5) : Except Illegal (Order × Scope) :=
  if b.toNat < 25 then .ok (.ofCode (b.toNat / 5), .ofCode (b.toNat % 5)) else .error .order

/-- Request types as FTYPE holds them (R301). -/
def Rt.enc : Rt → BitVec 2
  | .own => 0 | .wt => 1 | .si => 2 | .uc => 3

/-- Reading FTYPE (R301). -/
def Rt.dec (b : BitVec 2) : Rt :=
  match b.toNat with
  | 0 => .own | 1 => .wt | 2 => .si | _ => .uc

/-- LDU widths (R289). -/
def LduW.enc : LduW → BitVec 3
  | .n8 => 0 | .n16 => 1 | .n32 => 2 | .b64 => 3 | .i8 => 4 | .i16 => 5 | .i32 => 6

/-- Reading an LDU width (R289). -/
def LduW.dec (b : BitVec 3) : Except Illegal LduW :=
  match b.toNat with
  | 0 => .ok .n8 | 1 => .ok .n16 | 2 => .ok .n32 | 3 => .ok .b64 | 4 => .ok .i8 | 5 => .ok .i16 | 6 => .ok .i32
  | _ => .error .variant

/-- OP of an atomic (R313). -/
def AtomOp.enc : AtomOp → BitVec 4
  | .add => 0 | .min => 1 | .max => 2 | .and => 3 | .or => 4 | .xor => 5 | .exch => 6 | .inc => 7 | .dec => 8

/-- Reading OP of an atomic (R313). -/
def AtomOp.decode (b : BitVec 4) : Except Illegal AtomOp :=
  match b.toNat with
  | 0 => .ok .add | 1 => .ok .min | 2 => .ok .max | 3 => .ok .and | 4 => .ok .or | 5 => .ok .xor | 6 => .ok .exch
  | 7 => .ok .inc | 8 => .ok .dec | _ => .error .variant

/-- W of MWAIT (R323). -/
def MwW.enc : MwW → BitVec 2
  | .n32 => 0 | .b64 => 1 | .seq => 2

/-- Reading W of MWAIT (R323). -/
def MwW.dec (b : BitVec 2) : Except Illegal MwW :=
  match b.toNat with
  | 0 => .ok .n32 | 1 => .ok .b64 | 2 => .ok .seq | _ => .error .variant

/-- COND of MWAIT (R323). -/
def MwCond.enc : MwCond → BitVec 3
  | .eq => 0 | .ne => 1 | .geu => 2 | .ltu => 3

/-- Reading COND of MWAIT (R323). -/
def MwCond.dec (b : BitVec 3) : Except Illegal MwCond :=
  match b.toNat with
  | 0 => .ok .eq | 1 => .ok .ne | 2 => .ok .geu | 3 => .ok .ltu | _ => .error .variant

/-- Queue codes (R443). -/
def Queue.enc : Queue → BitVec 3
  | .mat => 0 | .cpy => 1 | .dec => 2 | .sto => 3 | .root => 4 | .ring => 5

/-- Reading a queue code (R443). -/
def Queue.decode (b : BitVec 3) : Except Illegal Queue :=
  match b.toNat with
  | 0 => .ok .mat | 1 => .ok .cpy | 2 => .ok .dec | 3 => .ok .sto | 4 => .ok .root | 5 => .ok .ring
  | _ => .error .variant

/-- SUB of VOTE (R162). -/
def VoteOp.enc : VoteOp → BitVec 2
  | .all => 0 | .any => 1 | .same => 2

/-- SUB of SHFL (R162). -/
def ShflOp.enc : ShflOp → BitVec 2
  | .pick => 0 | .back => 1 | .ahead => 2 | .flip => 3

/-- Reading SUB of SHFL (R162). -/
def ShflOp.dec (b : BitVec 2) : ShflOp :=
  match b.toNat with
  | 0 => .pick | 1 => .back | 2 => .ahead | _ => .flip

/-- SUB of PLOP (R162). -/
def PlopOp.enc : PlopOp → BitVec 2
  | .and => 0 | .or => 1 | .xor => 2 | .mov => 3

/-- Reading SUB of PLOP (R162). -/
def PlopOp.dec (b : BitVec 2) : PlopOp :=
  match b.toNat with
  | 0 => .and | 1 => .or | 2 => .xor | _ => .mov

/-! ### Shapes: encoding -/

/-- Body of an instruction with one source. -/
def Op1.body (x : Op1) : BitVec 47 := F0.pack ⟨x.d.enc, x.a.enc, 0, 0, x.ty.enc, x.sub⟩

/-- Body of an instruction with two sources. -/
def Op2.body (x : Op2) : BitVec 47 := F0.pack ⟨x.d.enc, x.a.enc, x.b.enc, 0, x.ty.enc, x.sub⟩

/-- Body of an instruction with three sources. -/
def Op3.body (x : Op3) : BitVec 47 := F0.pack ⟨x.d.enc, x.a.enc, x.b.enc, x.c.enc, x.ty.enc, x.sub⟩

/-- Body of a comparison. -/
def CmpOp.body (x : CmpOp) : BitVec 47 := F0.pack ⟨x.d.enc, x.a.enc, x.b.enc, 0#7 ++ x.cond, x.ty.enc, x.sub⟩

/-- Body of one floating source with MOD in SB. -/
def FOp1.body (x : FOp1) : BitVec 47 := F0.pack ⟨x.d.enc, x.a.enc, x.m.enc, 0, x.ty.enc, 0⟩

/-- Body of two sources with MOD in SC. -/
def FOp2.body (x : FOp2) : BitVec 47 := F0.pack ⟨x.d.enc, x.a.enc, x.b.enc, x.m.enc, x.ty.enc, 0⟩

/-- Body of a conversion (R130). -/
def CvtOp.body (x : CvtOp) : BitVec 47 := F0.pack ⟨x.d.enc, x.a.enc, x.m.enc, 0#5 ++ x.sty.enc, x.dty.enc, 0⟩

/-- Body of a per-lane access. -/
def MemOp.body (x : MemOp) : BitVec 47 := F2.pack ⟨x.data, x.addr, encSO x.ord x.scp, x.rcd, x.off⟩

/-- Body of LDU. -/
def LduOp.body (x : LduOp) : BitVec 47 :=
  F2.pack ⟨0#1 ++ x.data, x.addr, encSO x.ord x.scp, 0#9 ++ x.w.enc, x.off⟩

/-- Body of WUNMAP, WFLUSH, WINV, WSTAT. -/
def WinOp.body (x : WinOp) (opt : BitVec 12) : BitVec 47 := F2.pack ⟨0#1 ++ x.data, x.addr, 0, opt, 0⟩

/-- Body of CLEAN and INVAL. -/
def MaintOp.body (x : MaintOp) : BitVec 47 := F2.pack ⟨0, x.addr, encSO .rlx x.scp, 0, x.off⟩

/-- Body of an atomic. -/
def AtomFields.body (x : AtomFields) : BitVec 47 :=
  F2.pack ⟨x.data, x.addr, encSO x.ord x.scp, ofBit x.spl ++ 0#2 ++ x.op.enc ++ x.ty.enc, x.off⟩

/-- Body of MWAIT. -/
def MwaitOp.body (x : MwaitOp) : BitVec 47 :=
  F2.pack ⟨x.data, x.addr, encSO .acq x.scp, 0#7 ++ x.w.enc ++ x.cond.enc, x.off⟩

/-- Body of a transaction-barrier instruction. -/
def TbOp.body (x : TbOp) : BitVec 47 := F2.pack ⟨0#1 ++ x.data, x.addr, encSO x.ord x.scp, 0, x.off⟩

/-- Body of CINIT. -/
def CinitOp.body (x : CinitOp) (sub : BitVec 2) : BitVec 47 :=
  F4.pack ⟨x.cd, 0, 0, x.addr.enc, x.ppos.enc, x.pd, sub, 0⟩

/-- Body of CDESC. -/
def CdescOp.body (x : CdescOp) (sub : BitVec 2) : BitVec 47 := F4.pack ⟨x.cd, x.ca, 0, 0, 0, x.pd, sub, 0⟩

/-- Body of CISEC and CUNION. -/
def CmergeOp.body (x : CmergeOp) (sub : BitVec 2) : BitVec 47 :=
  F4.pack ⟨0, x.ca, x.cb, 0, 0, x.pd, sub, 0#9 ++ ofBit x.step⟩

/-- Body of CCRD, CPOS, CVAL. -/
def CreadOp.body (x : CreadOp) : BitVec 47 := F4.pack ⟨0, x.ca, 0, x.d.enc, 0, 7, 0, 0⟩

/-- Body of TLD (`ld`) and TST. -/
def TileMem.body (x : TileMem) (ld : Bool) : BitVec 47 :=
  F5.pack ⟨if ld then x.t else 0, if ld then 0 else x.t, 0, x.addr.enc, x.cnt.enc, 0#2 ++ ofBit x.all, x.stride⟩

/-- Body of MMA and MMAS. -/
def MmaOp.body (x : MmaOp) : BitVec 47 :=
  F5.pack ⟨x.ad, x.ta, x.tb, 0, x.rows.enc, 0#2 ++ ofBit x.all, 0#8 ++ x.ts⟩

/-- Body of ARD (`rd`) and AWR. -/
def AccMove.body (x : AccMove) (rd : Bool) : BitVec 47 :=
  F5.pack ⟨if rd then 0 else x.acc, if rd then x.acc else 0, 0, 0#2 ++ x.v, 0, 0#2 ++ ofBit x.hi,
    0#2 ++ x.n1 ++ x.col⟩

/-- Body of an engine command, IMM14 as given. -/
def EngOp.body (x : EngOp) (imm : BitVec 14) : BitVec 47 :=
  F6.pack ⟨x.sb, x.d.enc, ofBit x.disp.isSome, 0, imm, 0⟩

/-- Body of a ring instruction. -/
def RingOp.body (x : RingOp) : BitVec 47 := F6.pack ⟨x.sb, x.d.enc, 0, 0, x.n1 ++ x.ring, 0⟩

/-- The body of an F7 word with no operands. -/
def bare7 : BitVec 47 := F7.pack ⟨0, 0, 0, 0, 0⟩

/-- Header, opcode, body and extension word of an instruction; none for the device's own steps. -/
def Instr.parts : Instr → Option (Hdr × BitVec 8 × BitVec 47 × Option DWord)
  | .nop h => some (h, 0x00, bare7, none)
  | .bra h any off => some (h, 0x01, F3.pack ⟨0#1 ++ ofBit any ++ 0#21, off⟩, none)
  | .bru h off => some (h, 0x02, F3.pack ⟨0, off⟩, none)
  | .brx h a => some (h, 0x03, F0.pack ⟨0, a.enc, 0, 0, 0, 0⟩, none)
  | .call h link off => some (h, 0x04, F3.pack ⟨link ++ 0#16, off⟩, none)
  | .callx h link a => some (h, 0x05, F0.pack ⟨0#3 ++ link, a.enc, 0, 0, 0, 0⟩, none)
  | .ret h link => some (h, 0x06, F7.pack ⟨0, 0#3 ++ link, 0, 0, 0⟩, none)
  | .dvg h p neg off => some (h, 0x07, F3.pack ⟨p ++ ofBit neg ++ 0#19, off⟩, none)
  | .cvg h => some (h, 0x08, bare7, none)
  | .exit h => some (h, 0x09, bare7, none)
  | .yield h => some (h, 0x0A, bare7, none)
  | .spawn h a cnt off => some (h, 0x0B, F3.pack ⟨a ++ cnt ++ 0#12, off⟩, none)
  | .regroup h pd mask => some (h, 0x0C, F7.pack ⟨0, 0, 0, 0, 0#9 ++ pd⟩, some mask)
  | .vote h op d a => some (h, 0x0D, F0.pack ⟨d.enc, a.enc, 0, 0, 0, op.enc⟩, none)
  | .voteMask h below d a => some (h, 0x0D, F0.pack ⟨d.enc, a.enc, 0#9 ++ ofBit below, 0, 0, 3⟩, none)
  | .elect h d => some (h, 0x0E, F0.pack ⟨d.enc, 0, 0, 0, 0, 0⟩, none)
  | .shfl h op wrap ty d a b =>
    some (h, 0x0F, F0.pack ⟨d.enc, a.enc, b.enc, 0#9 ++ ofBit wrap, ty.enc, op.enc⟩, none)
  | .matchL h ty d a => some (h, 0x10, F0.pack ⟨d.enc, a.enc, 0, 0, ty.enc, 0⟩, none)
  | .plop h op d a b => some (h, 0x11, F0.pack ⟨d.enc, a.enc, b.enc, 0, 0, op.enc⟩, none)
  | .setfmtImm h imm => some (h, 0x12, F1.pack ⟨0, 0, 0, imm⟩, none)
  | .setfmtReg h a => some (h, 0x12, F1.pack ⟨0, a.enc, 1, 0⟩, none)
  | .getfmt h d => some (h, 0x13, F0.pack ⟨d.enc, 0, 0, 0, 0, 0⟩, none)
  | .sreg h d num => some (h, 0x14, F1.pack ⟨d.enc, 0, 0, num⟩, none)
  | .iadd x => some (x.h, 0x20, x.body, none)
  | .iadd3 x => some (x.h, 0x21, x.body, none)
  | .isub x => some (x.h, 0x22, x.body, none)
  | .ineg x => some (x.h, 0x23, x.body, none)
  | .iabs x => some (x.h, 0x24, x.body, none)
  | .imul x => some (x.h, 0x25, x.body, none)
  | .imulh x => some (x.h, 0x26, x.body, none)
  | .imad x => some (x.h, 0x27, x.body, none)
  | .idiv x => some (x.h, 0x28, x.body, none)
  | .irem x => some (x.h, 0x29, x.body, none)
  | .imin x => some (x.h, 0x2A, x.body, none)
  | .imax x => some (x.h, 0x2B, x.body, none)
  | .icmp x => some (x.h, 0x2C, x.body, none)
  | .isel h d a b sel ty => some (h, 0x2D, F0.pack ⟨d.enc, a.enc, b.enc, sel.enc, ty.enc, 0⟩, none)
  | .and x => some (x.h, 0x2E, x.body, none)
  | .or x => some (x.h, 0x2F, x.body, none)
  | .xor x => some (x.h, 0x30, x.body, none)
  | .not x => some (x.h, 0x31, x.body, none)
  | .andn x => some (x.h, 0x32, x.body, none)
  | .shl x => some (x.h, 0x33, x.body, none)
  | .shr x => some (x.h, 0x34, x.body, none)
  | .sar x => some (x.h, 0x35, x.body, none)
  | .rol x => some (x.h, 0x36, x.body, none)
  | .popc x => some (x.h, 0x37, x.body, none)
  | .clz x => some (x.h, 0x38, x.body, none)
  | .ctz x => some (x.h, 0x39, x.body, none)
  | .brev x => some (x.h, 0x3A, x.body, none)
  | .bfx x => some (x.h, 0x3B, x.body, none)
  | .bfi x => some (x.h, 0x3C, x.body, none)
  | .perm x => some (x.h, 0x3D, x.body, none)
  | .lea x => some (x.h, 0x3E, x.body, none)
  | .mov x => some (x.h, 0x3F, x.body, none)
  | .movi h d sub imm => some (h, 0x40, F1.pack ⟨d.enc, 0, sub, imm⟩, none)
  | .ldi h d sub imm => some (h, 0x41, F1.pack ⟨d.enc, 0, sub, 0⟩, some imm)
  | .cvti h d a dty sty sub => some (h, 0x42, F0.pack ⟨d.enc, a.enc, 0, 0#5 ++ sty.enc, dty.enc, sub⟩, none)
  | .fadd x => some (x.h, 0x50, x.body, none)
  | .fsub x => some (x.h, 0x51, x.body, none)
  | .fmul x => some (x.h, 0x52, x.body, none)
  | .fma x => some (x.h, 0x53, x.body, none)
  | .fmin x => some (x.h, 0x54, x.body, none)
  | .fmax x => some (x.h, 0x55, x.body, none)
  | .fcmp x => some (x.h, 0x56, x.body, none)
  | .fneg x => some (x.h, 0x57, x.body, none)
  | .fabs x => some (x.h, 0x58, x.body, none)
  | .frcp x => some (x.h, 0x59, x.body, none)
  | .frsq x => some (x.h, 0x5A, x.body, none)
  | .fsqrt x => some (x.h, 0x5B, x.body, none)
  | .fdiv x => some (x.h, 0x5C, x.body, none)
  | .fex2 x => some (x.h, 0x5D, x.body, none)
  | .flg2 x => some (x.h, 0x5E, x.body, none)
  | .fsin x => some (x.h, 0x5F, x.body, none)
  | .fcos x => some (x.h, 0x60, x.body, none)
  | .ftanh x => some (x.h, 0x61, x.body, none)
  | .fcls x => some (x.h, 0x62, x.body, none)
  | .fscl x => some (x.h, 0x63, x.body, none)
  | .frnd x => some (x.h, 0x64, x.body, none)
  | .fcvt x => some (x.h, 0x65, x.body, none)
  | .fcvti x => some (x.h, 0x66, x.body, none)
  | .icvtf x => some (x.h, 0x67, x.body, none)
  | .hadd2 x => some (x.h, 0x68, x.body, none)
  | .hmul2 x => some (x.h, 0x69, x.body, none)
  | .hfma2 x => some (x.h, 0x6A, x.body, none)
  | .dot4 x => some (x.h, 0x6B, x.body, none)
  | .ldOwn x => some (x.h, 0x70, x.body, none)
  | .ldWt x => some (x.h, 0x71, x.body, none)
  | .ldSi x => some (x.h, 0x72, x.body, none)
  | .ldUc x => some (x.h, 0x73, x.body, none)
  | .stOwn x => some (x.h, 0x74, x.body, none)
  | .stWt x => some (x.h, 0x75, x.body, none)
  | .stSi x => some (x.h, 0x76, x.body, none)
  | .stUc x => some (x.h, 0x77, x.body, none)
  | .lduOwn x => some (x.h, 0x78, x.body, none)
  | .lduWt x => some (x.h, 0x79, x.body, none)
  | .lduSi x => some (x.h, 0x7A, x.body, none)
  | .lduUc x => some (x.h, 0x7B, x.body, none)
  | .lds x => some (x.h, 0x7C, x.body, none)
  | .sts x => some (x.h, 0x7D, x.body, none)
  | .pref h addr home n off => some (h, 0x7E, F2.pack ⟨0, addr, 0, 0#7 ++ ofBit home ++ n, off⟩, none)
  | .zsect h addr ord scp off => some (h, 0x7F, F2.pack ⟨0, addr, encSO ord scp, 0, off⟩, none)
  | .wmap h data addr scp zero ft off =>
    some (h, 0x80, F2.pack ⟨0#1 ++ data, addr, encSO .rlx scp, 0#9 ++ ft.enc ++ ofBit zero, off⟩, none)
  | .wunmap x => some (x.h, 0x81, x.body 0, none)
  | .wflush x => some (x.h, 0x82, x.body 0, none)
  | .winv x discard => some (x.h, 0x83, x.body (0#11 ++ ofBit discard), none)
  | .wstat x => some (x.h, 0x84, x.body 0, none)
  | .clean x => some (x.h, 0x85, x.body, none)
  | .inval x => some (x.h, 0x86, x.body, none)
  | .atom x => some (x.h, 0x90, x.body, none)
  | .atomcas x => some (x.h, 0x91, x.body, none)
  | .red x => some (x.h, 0x92, x.body, none)
  | .fence h ord scp => some (h, 0x93, F2.pack ⟨0, 0, encSO ord scp, 0, 0⟩, none)
  | .qfence h set => some (h, 0x94, F1.pack ⟨0, 0, 0, 0#18 ++ set⟩, none)
  | .barTeam h id => some (h, 0x95, F1.pack ⟨0, 0, 0, 0#20 ++ id⟩, none)
  | .barRole h id => some (h, 0x95, F1.pack ⟨0, 0, 1, 0#20 ++ id⟩, none)
  | .bbar h id cnt => some (h, 0x96, F1.pack ⟨0, cnt.enc, 0, 0#20 ++ id⟩, none)
  | .mwait x => some (x.h, 0x97, x.body, none)
  | .tbinit x => some (x.h, 0x98, x.body, none)
  | .tbarr x => some (x.h, 0x99, x.body, none)
  | .tbwait x => some (x.h, 0x9A, x.body, none)
  | .cinit x => some (x.h, 0xA0, x.body 0, none)
  | .cinitApp x => some (x.h, 0xA0, x.body 1, none)
  | .cnext h ca pd => some (h, 0xA1, F4.pack ⟨0, ca, 0, 0, 0, pd, 0, 0⟩, none)
  | .cseek h ca t pd => some (h, 0xA2, F4.pack ⟨0, ca, 0, 0, t.enc, pd, 0, 0⟩, none)
  | .cdesc x => some (x.h, 0xA3, x.body 0, none)
  | .cdescApp x => some (x.h, 0xA3, x.body 1, none)
  | .cisec x => some (x.h, 0xA4, x.body 0, none)
  | .cunion x => some (x.h, 0xA4, x.body 1, none)
  | .ccrd x => some (x.h, 0xA5, x.body, none)
  | .cpos x => some (x.h, 0xA6, x.body, none)
  | .cval x => some (x.h, 0xA7, x.body, none)
  | .cstv h ca a => some (h, 0xA8, F4.pack ⟨0, ca, 0, 0, a.enc, 7, 0, 0⟩, none)
  | .capp h ca crd val => some (h, 0xA9, F4.pack ⟨0, ca, 0, crd.enc, val.enc, 7, 0, 0⟩, none)
  | .cfin h ca => some (h, 0xAA, F4.pack ⟨0, ca, 0, 0, 0, 7, 0, 0⟩, none)
  | .cdone h ca pd => some (h, 0xAB, F4.pack ⟨0, ca, 0, 0, 0, pd, 0, 0⟩, none)
  | .cmov h cd ca => some (h, 0xAC, F4.pack ⟨cd, ca, 0, 0, 0, 7, 0, 0⟩, none)
  | .csave h ca base off => some (h, 0xAD, F4.pack ⟨0, ca, 0, base.enc, 0, 7, 0, off⟩, none)
  | .crest h cd base off => some (h, 0xAE, F4.pack ⟨cd, 0, 0, base.enc, 0, 7, 0, off⟩, none)
  | .cpref h ca n => some (h, 0xAF, F4.pack ⟨0, ca, 0, 0, 0, 7, 0, 0#6 ++ n⟩, none)
  | .tld x => some (x.h, 0xB0, x.body true, none)
  | .tst x => some (x.h, 0xB1, x.body false, none)
  | .tzero h t => some (h, 0xB2, F5.pack ⟨t, 0, 0, 0, 0, 0, 0⟩, none)
  | .tasm h t ca k0 hi w16 =>
    some (h, 0xB3, F5.pack ⟨t, ca, 0, 0, k0.enc, 0#2 ++ ofBit hi, 0#11 ++ ofBit w16⟩, none)
  | .mma x => some (x.h, 0xB4, x.body, none)
  | .mmas x => some (x.h, 0xB5, x.body, none)
  | .aclr h acc => some (h, 0xB6, F5.pack ⟨acc, 0, 0, 0, 0, 0, 0⟩, none)
  | .ard x => some (x.h, 0xB7, x.body true, none)
  | .awr x => some (x.h, 0xB8, x.body false, none)
  | .acvt h t acc part ty => some (h, 0xB9, F5.pack ⟨t, acc, 0, 0, 0, 0, 0#5 ++ ty.enc ++ part⟩, none)
  | .mfence h d => some (h, 0xBA, F5.pack ⟨0, 0, 0, d.enc, 0, 0, 0⟩, none)
  | .mwaitb h a all => some (h, 0xBB, F5.pack ⟨0, 0, 0, a.enc, 0, 0#2 ++ ofBit all, 0⟩, none)
  | .cpy h sb d mask => some (h, 0xC0, F6.pack ⟨sb, d.enc, 0, 0, 0, 0⟩, some mask)
  | .cpyt x => some (x.h, 0xC1, x.body 0, x.disp)
  | .cpyc x => some (x.h, 0xC2, x.body 0, x.disp)
  | .csum x => some (x.h, 0xC3, x.body 0, x.disp)
  | .decq x => some (x.h, 0xC4, x.body 0, x.disp)
  | .stq x => some (x.h, 0xC5, x.body 0, x.disp)
  | .netq x => some (x.h, 0xC6, x.body 0, x.disp)
  | .topk x => some (x.h, 0xC7, x.body 0, x.disp)
  | .rmv x => some (x.h, 0xC8, x.body 0, x.disp)
  | .qstat h d q => some (h, 0xC9, F6.pack ⟨0, d.enc, 0, 0, 0#11 ++ q.enc, 0⟩, none)
  | .launch x q => some (x.h, 0xCA, x.body (0#4 ++ q), x.disp)
  | .mbxw h m a => some (h, 0xD0, F1.pack ⟨0, a.enc, 0, 0#19 ++ m⟩, none)
  | .mbxr h m d => some (h, 0xD1, F1.pack ⟨d.enc, 0, 0, 0#19 ++ m⟩, none)
  | .mbxp h m d full => some (h, 0xD2, F1.pack ⟨d.enc, 0, 0, 0#9 ++ full.enc ++ m⟩, none)
  | .rres x => some (x.h, 0xD3, x.body, none)
  | .rpub x => some (x.h, 0xD4, x.body, none)
  | .rtake x => some (x.h, 0xD5, x.body, none)
  | .rrel x => some (x.h, 0xD6, x.body, none)
  | .rinvIndex h a => some (h, 0xE0, F7.pack ⟨0, a.enc, 0, 0, 0⟩, none)
  | .rinvAll h => some (h, 0xE0, F7.pack ⟨0, 0, 0, 1, 0⟩, none)
  | .rinvLevel h a => some (h, 0xE0, F7.pack ⟨0, a.enc, 0, 2, 0⟩, none)
  | .trap h code => some (h, 0xE1, F7.pack ⟨0, 0, 0, 0, code⟩, none)
  | .brk h code => some (h, 0xE2, F7.pack ⟨0, 0, 0, 0, code⟩, none)
  | .tlbiPage h va ctx => some (h, 0xE3, F7.pack ⟨0, va.enc, ctx.enc, 0, 0⟩, none)
  | .tlbiCtx h ctx => some (h, 0xE3, F7.pack ⟨0, 0, ctx.enc, 1, 0⟩, none)
  | .tlbiPart h => some (h, 0xE3, F7.pack ⟨0, 0, 0, 2, 0⟩, none)
  | .ssetRngstate h a => some (h, 0xE4, F7.pack ⟨0, a.enc, 0, 0, 0x013⟩, none)
  | .ssetTrapvec h a => some (h, 0xE4, F7.pack ⟨0, a.enc, 0, 0, 0x030⟩, none)
  | .waitt h d a => some (h, 0xE5, F7.pack ⟨d.enc, a.enc, 0, 0, 0⟩, none)
  | .binTimerExpiry _ _ => none
  | .binLaunchDeferred _ _ => none
  | .spawnResume _ => none
  | .regroupMigrate _ _ => none
  | .regroupTimeout _ => none
  | .stallExchange _ => none
  | .emptySlotFill _ _ => none
  | .pendingAgeExpiry _ => none
  | .teamPlace _ _ => none
  | .teamEnd _ => none
  | .gridEnd _ => none
  | .splitDrain _ _ => none
  | .splitReconfigure _ => none
  | .mailboxWake _ _ => none
  | .loadDataReturn _ => none
  | .pageWalk _ _ _ _ _ _ => none
  | .homeWrite _ _ _ _ => none
  | .forcedPublish _ => none
  | .rdcSweep _ => none
  | .scrubDram _ _ => none
  | .scrubSram _ _ => none
  | .uncorrectableError _ => none
  | .mwaitRetest _ => none
  | .mwaitOverflowExpiry _ => none
  | .bbarEntryFree _ => none
  | .captureEntryFree _ => none
  | .codebookTableArrival _ _ _ _ _ => none
  | .tldPerform _ => none
  | .tstPerform _ => none
  | .tasmPerform _ => none
  | .mmaExecute _ => none
  | .acvtPerform _ => none
  | .matrixEntryRetire _ => none
  | .mwaitbWake _ => none
  | .cpyPerform _ => none
  | .cpytPerform _ => none
  | .cpycPerform _ => none
  | .csumPerform _ => none
  | .decqPerform _ => none
  | .stqSubmit _ => none
  | .nvmeCompletion _ _ _ => none
  | .netqPerform _ => none
  | .netqAck _ _ _ => none
  | .rdmaAckTimeout _ => none
  | .topkPerform _ => none
  | .rmvPerform _ => none
  | .ringEntryPerform _ => none
  | .engineEntryPark _ _ => none
  | .launchQueueTailWrite _ => none
  | .blockEligible _ => none
  | .priorityAging _ => none
  | .budgetOverrun _ => none
  | .faultRecordWrite _ => none
  | .faultAction _ _ => none
  | .preemptRequest _ => none
  | .hardPreempt _ => none
  | .teamSave _ => none
  | .teamResume _ _ => none
  | .agentTimeout _ => none
  | .staleMessageDrop _ _ _ => none
  | .deviceFatal _ => none
  | .waittDeadlineReached _ => none
  | .seedImageWrite => none
  | .frameReceive => none
  | .rdmaWriteInbound => none
  | .rdmaReadInbound => none
  | .rdmaAtomicInbound => none
  | .rdmaSendInbound => none
  | .rdmaSignalInbound => none
  | .rdmaUnsupportedInbound => none
  | .targetBufAccess => none
  | .nvmeConnectionLost => none
  | .readUnitMap => none
  | .writePartitionRecord => none
  | .bindVf => none
  | .writeLaunchQueueRecord => none
  | .writeRegistrationEntry => none
  | .writeBinding => none
  | .loadKey => none
  | .seedMake => none
  | .seedRestore => none
  | .counterStatement => none
  | .readDump => none
  | .setPowerCap => none
  | .resetAndReadmitUnit => none
  | .reserveTimedCapacity => none
  | .mgmtUnknownCode => none
  | .resetRelease => none
  | .resetAssert => none
  | .powerLoss => none
  | .thermalWarning => none
  | .thermtrip => none
  | .unassignedOpcode _ => none

/-- An instruction word: header, opcode, body (R111). -/
def packWord (h : Hdr) (opc : BitVec 8) (body : BitVec 47) : DWord :=
  (match h.ver with | .portable => 0#2 | .fixed => 1#2) ++ ofBit h.sw ++ ofBit h.sp.isSome ++ ofBit h.uni
    ++ ofBit h.gn ++ h.gp ++ opc ++ body

/-- The words of an instruction, in the order of R109; the device's own steps have none. -/
def encode (i : Instr) : List DWord :=
  match i.parts with
  | some (h, opc, body, ext) => packWord h opc body :: (ext.toList ++ h.sp.toList)
  | none =>
    match i with
    | .unassignedOpcode w => [w]
    | _ => []

/-! ### Decoding -/

/-- The opcode of a word (R111). -/
def opcodeOf (w : DWord) : Nat := (w.extractLsb' 47 8).toNat

/-- Opcodes without an instruction (R133). -/
def isUnassigned (o : Nat) : Bool :=
  (0x15 ≤ o && o ≤ 0x1F) || (0x43 ≤ o && o ≤ 0x4F) || (0x6C ≤ o && o ≤ 0x6F) || (0x87 ≤ o && o ≤ 0x8F)
    || (0x9B ≤ o && o ≤ 0x9F) || (0xBC ≤ o && o ≤ 0xBF) || (0xCB ≤ o && o ≤ 0xCF) || (0xD7 ≤ o && o ≤ 0xDF)
    || 0xE6 ≤ o

/-- Whether an extension word follows (R110). -/
def hasExt (w : DWord) : Bool :=
  let o := opcodeOf w
  o == 0x0C || o == 0x41 || o == 0xC0
    || (((0xC1 ≤ o && o ≤ 0xCA) || (0xD3 ≤ o && o ≤ 0xD6)) && w.getLsbD 29)

/-- How many words the instruction has whose first word is `w` (R109). DESIGN CHOICE (log 71): a word with an unassigned opcode is one
word whatever its SP bit, so that a handler which skips it resumes after 8 bytes. -/
def wordCount (w : DWord) : Nat :=
  if isUnassigned (opcodeOf w) then 1 else 1 + (if hasExt w then 1 else 0) + (if w.getLsbD 60 then 1 else 0)

/-- The header of a word, with the mask word that follows it when SP = 1. -/
def Hdr.dec (w : DWord) (mask : DWord) : Except Illegal Hdr :=
  let rest (v : Ver) : Except Illegal Hdr :=
    .ok ⟨v, w.getLsbD 61, if w.getLsbD 60 then some mask else none, w.getLsbD 59, w.getLsbD 58, w.extractLsb' 55 3⟩
  match (w.extractLsb' 62 2).toNat with
  | 0 => rest .portable
  | 1 => rest .fixed
  | _ => .error .version

/-- One source and a type. -/
def decOp1 (k : Op1 → Instr) (h : Hdr) (b : BitVec 47) : Except Illegal Instr := do
  let f := F0.unpack b
  return k ⟨h, ← Dst.dec f.dst, ← Src.dec f.sa, ← Ty.dec f.ty, f.sub⟩

/-- Two sources and a type. -/
def decOp2 (k : Op2 → Instr) (h : Hdr) (b : BitVec 47) : Except Illegal Instr := do
  let f := F0.unpack b
  return k ⟨h, ← Dst.dec f.dst, ← Src.dec f.sa, ← Src.dec f.sb, ← Ty.dec f.ty, f.sub⟩

/-- Three sources and a type. -/
def decOp3 (k : Op3 → Instr) (h : Hdr) (b : BitVec 47) : Except Illegal Instr := do
  let f := F0.unpack b
  return k ⟨h, ← Dst.dec f.dst, ← Src.dec f.sa, ← Src.dec f.sb, ← Src.dec f.sc, ← Ty.dec f.ty, f.sub⟩

/-- A comparison. -/
def decCmp (k : CmpOp → Instr) (h : Hdr) (b : BitVec 47) : Except Illegal Instr := do
  let f := F0.unpack b
  return k ⟨h, ← PSel.dec f.dst, ← Src.dec f.sa, ← Src.dec f.sb, f.sc.extractLsb' 0 3, ← Ty.dec f.ty, f.sub⟩

/-- One floating source with MOD in SB. -/
def decFOp1 (k : FOp1 → Instr) (h : Hdr) (b : BitVec 47) : Except Illegal Instr := do
  let f := F0.unpack b
  return k ⟨h, ← Dst.dec f.dst, ← Src.dec f.sa, ← FMod.dec f.sb, ← Ty.dec f.ty⟩

/-- Two sources with MOD in SC. -/
def decFOp2 (k : FOp2 → Instr) (h : Hdr) (b : BitVec 47) : Except Illegal Instr := do
  let f := F0.unpack b
  return k ⟨h, ← Dst.dec f.dst, ← Src.dec f.sa, ← Src.dec f.sb, ← FMod.dec f.sc, ← Ty.dec f.ty⟩

/-- A conversion with MOD in SB and the source type in SC (R130). -/
def decCvt (k : CvtOp → Instr) (h : Hdr) (b : BitVec 47) : Except Illegal Instr := do
  let f := F0.unpack b
  return k ⟨h, ← Dst.dec f.dst, ← Src.dec f.sa, ← FMod.dec f.sb, ← Ty.dec f.ty, ← Ty.dec (f.sc.extractLsb' 0 5)⟩

/-- A per-lane access. -/
def decMem (k : MemOp → Instr) (h : Hdr) (b : BitVec 47) : Except Illegal Instr := do
  let f := F2.unpack b
  let so ← decSO f.so
  return k ⟨h, f.data, f.addr, so.1, so.2, f.rcd, f.off⟩

/-- A uniform load. -/
def decLdu (k : LduOp → Instr) (h : Hdr) (b : BitVec 47) : Except Illegal Instr := do
  let f := F2.unpack b
  let so ← decSO f.so
  return k ⟨h, f.data.extractLsb' 0 7, f.addr, so.1, so.2, ← LduW.dec (f.rcd.extractLsb' 0 3), f.off⟩

/-- WUNMAP, WFLUSH, WINV, WSTAT. -/
def decWin (k : WinOp → F2 → Instr) (h : Hdr) (b : BitVec 47) : Except Illegal Instr :=
  let f := F2.unpack b
  .ok (k ⟨h, f.data.extractLsb' 0 7, f.addr⟩ f)

/-- CLEAN and INVAL. -/
def decMaint (k : MaintOp → Instr) (h : Hdr) (b : BitVec 47) : Except Illegal Instr := do
  let f := F2.unpack b
  let so ← decSO f.so
  return k ⟨h, f.addr, so.2, f.off⟩

/-- An atomic. -/
def decAtom (k : AtomFields → Instr) (h : Hdr) (b : BitVec 47) : Except Illegal Instr := do
  let f := F2.unpack b
  let so ← decSO f.so
  return k ⟨h, f.data, f.addr, so.1, so.2, f.rcd.getLsbD 11, ← AtomOp.decode (f.rcd.extractLsb' 5 4),
    ← Ty.dec (f.rcd.extractLsb' 0 5), f.off⟩

/-- A transaction-barrier instruction. -/
def decTb (k : TbOp → Instr) (h : Hdr) (b : BitVec 47) : Except Illegal Instr := do
  let f := F2.unpack b
  let so ← decSO f.so
  return k ⟨h, f.data.extractLsb' 0 7, f.addr, so.1, so.2, f.off⟩

/-- TLD and TST. -/
def decTileMem (k : TileMem → Instr) (ld : Bool) (h : Hdr) (b : BitVec 47) : Except Illegal Instr := do
  let f := F5.unpack b
  return k ⟨h, if ld then f.xd else f.xa, ← Src.dec f.va, f.imm, ← Src.dec f.vb, f.sub.getLsbD 0⟩

/-- MMA and MMAS. -/
def decMma (k : MmaOp → Instr) (h : Hdr) (b : BitVec 47) : Except Illegal Instr := do
  let f := F5.unpack b
  return k ⟨h, f.xd, f.xa, f.xb, f.imm.extractLsb' 0 4, ← Src.dec f.vb, f.sub.getLsbD 0⟩

/-- ARD and AWR. -/
def decAccMove (k : AccMove → Instr) (rd : Bool) (h : Hdr) (b : BitVec 47) : Except Illegal Instr :=
  let f := F5.unpack b
  .ok (k ⟨h, f.va.extractLsb' 0 8, if rd then f.xa else f.xd, f.sub.getLsbD 0, f.imm.extractLsb' 0 6,
    f.imm.extractLsb' 6 4⟩)

/-- An engine command. -/
def decEng (k : EngOp → Instr) (h : Hdr) (b : BitVec 47) (ext : DWord) : Except Illegal Instr := do
  let f := F6.unpack b
  return k ⟨h, f.sb, ← Dst.dec f.dst, if f.dx = 1 then some ext else none⟩

/-- A ring instruction. -/
def decRing (k : RingOp → Instr) (h : Hdr) (b : BitVec 47) : Except Illegal Instr := do
  let f := F6.unpack b
  return k ⟨h, ← Dst.dec f.dst, f.sb, f.imm.extractLsb' 0 4, f.imm.extractLsb' 4 10⟩

/-- Opcodes 0x00–0x14 (R147, R152, R157, R162, R168). -/
def decControl (o : Nat) (h : Hdr) (b : BitVec 47) (ext : DWord) : Except Illegal Instr :=
  let f0 := F0.unpack b
  let f1 := F1.unpack b
  let f3 := F3.unpack b
  let f7 := F7.unpack b
  match o with
  | 0x00 => .ok (.nop h)
  | 0x01 =>
    match (f3.x.extractLsb' 21 2).toNat with
    | 0 => .ok (.bra h false f3.off)
    | 1 => .ok (.bra h true f3.off)
    | _ => .error .variant
  | 0x02 => .ok (.bru h f3.off)
  | 0x03 => do return .brx h (← Src.dec f0.sa)
  | 0x04 => .ok (.call h (f3.x.extractLsb' 16 7) f3.off)
  | 0x05 => do return .callx h (f0.dst.extractLsb' 0 7) (← Src.dec f0.sa)
  | 0x06 => .ok (.ret h (f7.sa.extractLsb' 0 7))
  | 0x07 => .ok (.dvg h (f3.x.extractLsb' 20 3) (f3.x.getLsbD 19) f3.off)
  | 0x08 => .ok (.cvg h)
  | 0x09 => .ok (.exit h)
  | 0x0A => .ok (.yield h)
  | 0x0B => .ok (.spawn h (f3.x.extractLsb' 15 8) (f3.x.extractLsb' 12 3) f3.off)
  | 0x0C => .ok (.regroup h (f7.imm.extractLsb' 0 3) ext)
  | 0x0D =>
    match f0.sub.toNat with
    | 0 => do return .vote h .all (← PSel.dec f0.dst) (← PSel.dec f0.sa)
    | 1 => do return .vote h .any (← PSel.dec f0.dst) (← PSel.dec f0.sa)
    | 2 => do return .vote h .same (← PSel.dec f0.dst) (← PSel.dec f0.sa)
    | _ => do return .voteMask h (f0.sb.getLsbD 0) (← Dst.dec f0.dst) (← PSel.dec f0.sa)
  | 0x0E => do return .elect h (← PSel.dec f0.dst)
  | 0x0F => do
    return .shfl h (.dec f0.sub) (f0.sc.getLsbD 0) (← Ty.dec f0.ty) (← Dst.dec f0.dst) (← Src.dec f0.sa)
      (← Src.dec f0.sb)
  | 0x10 => do return .matchL h (← Ty.dec f0.ty) (← Dst.dec f0.dst) (← Src.dec f0.sa)
  | 0x11 => do return .plop h (.dec f0.sub) (← PSel.dec f0.dst) (← PSel.dec f0.sa) (← PSel.dec f0.sb)
  | 0x12 =>
    match f1.sub.toNat with
    | 0 => .ok (.setfmtImm h f1.imm)
    | 1 => do return .setfmtReg h (← Src.dec f1.sa)
    | _ => .error .variant
  | 0x13 => do return .getfmt h (← Dst.dec f0.dst)
  | _ => do return .sreg h (← Dst.dec f1.dst) f1.imm

/-- Opcodes 0x20–0x42 (R173). -/
def decInteger (o : Nat) (h : Hdr) (b : BitVec 47) (ext : DWord) : Except Illegal Instr :=
  let f0 := F0.unpack b
  let f1 := F1.unpack b
  match o with
  | 0x20 => decOp2 .iadd h b
  | 0x21 => decOp3 .iadd3 h b
  | 0x22 => decOp2 .isub h b
  | 0x23 => decOp1 .ineg h b
  | 0x24 => decOp1 .iabs h b
  | 0x25 => decOp2 .imul h b
  | 0x26 => decOp2 .imulh h b
  | 0x27 => decOp3 .imad h b
  | 0x28 => decOp2 .idiv h b
  | 0x29 => decOp2 .irem h b
  | 0x2A => decOp2 .imin h b
  | 0x2B => decOp2 .imax h b
  | 0x2C => decCmp .icmp h b
  | 0x2D => do
    return .isel h (← Dst.dec f0.dst) (← Src.dec f0.sa) (← Src.dec f0.sb) (← PSel.dec f0.sc) (← Ty.dec f0.ty)
  | 0x2E => decOp2 .and h b
  | 0x2F => decOp2 .or h b
  | 0x30 => decOp2 .xor h b
  | 0x31 => decOp1 .not h b
  | 0x32 => decOp2 .andn h b
  | 0x33 => decOp2 .shl h b
  | 0x34 => decOp2 .shr h b
  | 0x35 => decOp2 .sar h b
  | 0x36 => decOp2 .rol h b
  | 0x37 => decOp1 .popc h b
  | 0x38 => decOp1 .clz h b
  | 0x39 => decOp1 .ctz h b
  | 0x3A => decOp1 .brev h b
  | 0x3B => decOp2 .bfx h b
  | 0x3C => decOp3 .bfi h b
  | 0x3D => decOp3 .perm h b
  | 0x3E => decOp3 .lea h b
  | 0x3F => decOp1 .mov h b
  | 0x40 => do return .movi h (← Dst.dec f1.dst) f1.sub f1.imm
  | 0x41 => do return .ldi h (← Dst.dec f1.dst) f1.sub ext
  | _ => do
    return .cvti h (← Dst.dec f0.dst) (← Src.dec f0.sa) (← Ty.dec f0.ty) (← Ty.dec (f0.sc.extractLsb' 0 5)) f0.sub

/-- Opcodes 0x50–0x6B (R191–R212). -/
def decFloating (o : Nat) (h : Hdr) (b : BitVec 47) : Except Illegal Instr :=
  match o with
  | 0x50 => decFOp2 .fadd h b
  | 0x51 => decFOp2 .fsub h b
  | 0x52 => decFOp2 .fmul h b
  | 0x53 => decOp3 .fma h b
  | 0x54 => decOp2 .fmin h b
  | 0x55 => decOp2 .fmax h b
  | 0x56 => decCmp .fcmp h b
  | 0x57 => decOp1 .fneg h b
  | 0x58 => decOp1 .fabs h b
  | 0x59 => decFOp1 .frcp h b
  | 0x5A => decFOp1 .frsq h b
  | 0x5B => decFOp1 .fsqrt h b
  | 0x5C => decFOp2 .fdiv h b
  | 0x5D => decFOp1 .fex2 h b
  | 0x5E => decFOp1 .flg2 h b
  | 0x5F => decFOp1 .fsin h b
  | 0x60 => decFOp1 .fcos h b
  | 0x61 => decFOp1 .ftanh h b
  | 0x62 => decOp1 .fcls h b
  | 0x63 => decFOp2 .fscl h b
  | 0x64 => decFOp1 .frnd h b
  | 0x65 => decCvt .fcvt h b
  | 0x66 => decCvt .fcvti h b
  | 0x67 => decCvt .icvtf h b
  | 0x68 => decFOp2 .hadd2 h b
  | 0x69 => decFOp2 .hmul2 h b
  | 0x6A => decOp3 .hfma2 h b
  | _ => decOp3 .dot4 h b

/-- Opcodes 0x70–0x86 (R289–R309). -/
def decMemory (o : Nat) (h : Hdr) (b : BitVec 47) : Except Illegal Instr :=
  let f := F2.unpack b
  match o with
  | 0x70 => decMem .ldOwn h b
  | 0x71 => decMem .ldWt h b
  | 0x72 => decMem .ldSi h b
  | 0x73 => decMem .ldUc h b
  | 0x74 => decMem .stOwn h b
  | 0x75 => decMem .stWt h b
  | 0x76 => decMem .stSi h b
  | 0x77 => decMem .stUc h b
  | 0x78 => decLdu .lduOwn h b
  | 0x79 => decLdu .lduWt h b
  | 0x7A => decLdu .lduSi h b
  | 0x7B => decLdu .lduUc h b
  | 0x7C => decMem .lds h b
  | 0x7D => decMem .sts h b
  | 0x7E => .ok (.pref h f.addr (f.rcd.getLsbD 4) (f.rcd.extractLsb' 0 4) f.off)
  | 0x7F => do
    let so ← decSO f.so
    return .zsect h f.addr so.1 so.2 f.off
  | 0x80 => do
    let so ← decSO f.so
    return .wmap h (f.data.extractLsb' 0 7) f.addr so.2 (f.rcd.getLsbD 0) (.dec (f.rcd.extractLsb' 1 2)) f.off
  | 0x81 => decWin (fun x _ => .wunmap x) h b
  | 0x82 => decWin (fun x _ => .wflush x) h b
  | 0x83 => decWin (fun x f => .winv x (f.rcd.getLsbD 0)) h b
  | 0x84 => decWin (fun x _ => .wstat x) h b
  | 0x85 => decMaint .clean h b
  | _ => decMaint .inval h b

/-- Opcodes 0x90–0x9A (R312–R328). -/
def decSync (o : Nat) (h : Hdr) (b : BitVec 47) : Except Illegal Instr :=
  let f := F2.unpack b
  let f1 := F1.unpack b
  match o with
  | 0x90 => decAtom .atom h b
  | 0x91 => decAtom .atomcas h b
  | 0x92 => decAtom .red h b
  | 0x93 => do
    let so ← decSO f.so
    return .fence h so.1 so.2
  | 0x94 => .ok (.qfence h (f1.imm.extractLsb' 0 6))
  | 0x95 =>
    match f1.sub.toNat with
    | 0 => .ok (.barTeam h (f1.imm.extractLsb' 0 4))
    | 1 => .ok (.barRole h (f1.imm.extractLsb' 0 4))
    | _ => .error .variant
  | 0x96 => do return .bbar h (f1.imm.extractLsb' 0 4) (← Src.dec f1.sa)
  | 0x97 => do
    let so ← decSO f.so
    return .mwait ⟨h, f.data, f.addr, so.2, ← MwW.dec (f.rcd.extractLsb' 3 2), ← MwCond.dec (f.rcd.extractLsb' 0 3),
      f.off⟩
  | 0x98 => decTb .tbinit h b
  | 0x99 => decTb .tbarr h b
  | _ => decTb .tbwait h b

/-- Opcodes 0xA0–0xAF (R366). -/
def decCursor (o : Nat) (h : Hdr) (b : BitVec 47) : Except Illegal Instr :=
  let f := F4.unpack b
  match o with
  | 0xA0 =>
    match f.sub.toNat with
    | 0 => do return .cinit ⟨h, f.cd, ← Src.dec f.va, ← Src.dec f.vb, f.pd⟩
    | 1 => do return .cinitApp ⟨h, f.cd, ← Src.dec f.va, ← Src.dec f.vb, f.pd⟩
    | _ => .error .variant
  | 0xA1 => .ok (.cnext h f.ca f.pd)
  | 0xA2 => do return .cseek h f.ca (← Src.dec f.vb) f.pd
  | 0xA3 =>
    match f.sub.toNat with
    | 0 => .ok (.cdesc ⟨h, f.cd, f.ca, f.pd⟩)
    | 1 => .ok (.cdescApp ⟨h, f.cd, f.ca, f.pd⟩)
    | _ => .error .variant
  | 0xA4 =>
    match f.sub.toNat with
    | 0 => .ok (.cisec ⟨h, f.ca, f.cb, f.imm.getLsbD 0, f.pd⟩)
    | 1 => .ok (.cunion ⟨h, f.ca, f.cb, f.imm.getLsbD 0, f.pd⟩)
    | _ => .error .variant
  | 0xA5 => do return .ccrd ⟨h, f.ca, ← Dst.dec f.va⟩
  | 0xA6 => do return .cpos ⟨h, f.ca, ← Dst.dec f.va⟩
  | 0xA7 => do return .cval ⟨h, f.ca, ← Dst.dec f.va⟩
  | 0xA8 => do return .cstv h f.ca (← Src.dec f.vb)
  | 0xA9 => do return .capp h f.ca (← Src.dec f.va) (← Src.dec f.vb)
  | 0xAA => .ok (.cfin h f.ca)
  | 0xAB => .ok (.cdone h f.ca f.pd)
  | 0xAC => .ok (.cmov h f.cd f.ca)
  | 0xAD => do return .csave h f.ca (← Src.dec f.va) f.imm
  | 0xAE => do return .crest h f.cd (← Src.dec f.va) f.imm
  | _ => .ok (.cpref h f.ca (f.imm.extractLsb' 0 4))

/-- Opcodes 0xB0–0xBB (R392). -/
def decMatrix (o : Nat) (h : Hdr) (b : BitVec 47) : Except Illegal Instr :=
  let f := F5.unpack b
  match o with
  | 0xB0 => decTileMem .tld true h b
  | 0xB1 => decTileMem .tst false h b
  | 0xB2 => .ok (.tzero h f.xd)
  | 0xB3 => do return .tasm h f.xd f.xa (← Src.dec f.vb) (f.sub.getLsbD 0) (f.imm.getLsbD 0)
  | 0xB4 => decMma .mma h b
  | 0xB5 => decMma .mmas h b
  | 0xB6 => .ok (.aclr h f.xd)
  | 0xB7 => decAccMove .ard true h b
  | 0xB8 => decAccMove .awr false h b
  | 0xB9 => do return .acvt h f.xd f.xa (f.imm.extractLsb' 0 2) (← Ty.dec (f.imm.extractLsb' 2 5))
  | 0xBA => do return .mfence h (← Dst.dec f.va)
  | _ => do return .mwaitb h (← Src.dec f.va) (f.sub.getLsbD 0)

/-- Opcodes 0xC0–0xD6 (R331, R443, R451). -/
def decEngine (o : Nat) (h : Hdr) (b : BitVec 47) (ext : DWord) : Except Illegal Instr :=
  let f := F6.unpack b
  let f1 := F1.unpack b
  match o with
  | 0xC0 => do return .cpy h f.sb (← Dst.dec f.dst) ext
  | 0xC1 => decEng .cpyt h b ext
  | 0xC2 => decEng .cpyc h b ext
  | 0xC3 => decEng .csum h b ext
  | 0xC4 => decEng .decq h b ext
  | 0xC5 => decEng .stq h b ext
  | 0xC6 => decEng .netq h b ext
  | 0xC7 => decEng .topk h b ext
  | 0xC8 => decEng .rmv h b ext
  | 0xC9 => do return .qstat h (← Dst.dec f.dst) (← Queue.decode (f.imm.extractLsb' 0 3))
  | 0xCA => decEng (fun x => .launch x (f.imm.extractLsb' 0 10)) h b ext
  | 0xD0 => do return .mbxw h (f1.imm.extractLsb' 0 5) (← Src.dec f1.sa)
  | 0xD1 => do return .mbxr h (f1.imm.extractLsb' 0 5) (← Dst.dec f1.dst)
  | 0xD2 => do return .mbxp h (f1.imm.extractLsb' 0 5) (← Dst.dec f1.dst) (← PSel.dec (f1.imm.extractLsb' 5 10))
  | 0xD3 => decRing .rres h b
  | 0xD4 => decRing .rpub h b
  | 0xD5 => decRing .rtake h b
  | _ => decRing .rrel h b

/-- Opcodes 0xE0–0xE5 (R454, R458). -/
def decSystem (o : Nat) (h : Hdr) (b : BitVec 47) : Except Illegal Instr :=
  let f := F7.unpack b
  match o with
  | 0xE0 =>
    match f.sub.toNat with
    | 0 => do return .rinvIndex h (← Src.dec f.sa)
    | 1 => .ok (.rinvAll h)
    | 2 => do return .rinvLevel h (← Src.dec f.sa)
    | _ => .error .variant
  | 0xE1 => .ok (.trap h f.imm)
  | 0xE2 => .ok (.brk h f.imm)
  | 0xE3 =>
    match f.sub.toNat with
    | 0 => do return .tlbiPage h (← Src.dec f.sa) (← Src.dec f.sb)
    | 1 => do return .tlbiCtx h (← Src.dec f.sb)
    | 2 => .ok (.tlbiPart h)
    | _ => .error .variant
  | 0xE4 =>
    if f.imm = 0x013 then do return .ssetRngstate h (← Src.dec f.sa)
    else if f.imm = 0x030 then do return .ssetTrapvec h (← Src.dec f.sa)
    else .error .register
  | _ => do return .waitt h (← Dst.dec f.dst) (← Src.dec f.sa)

/-- The fields of an assigned opcode, reserved fields not yet looked at (R132). -/
def parse (o : Nat) (h : Hdr) (b : BitVec 47) (ext : DWord) : Except Illegal Instr :=
  if o < 0x20 then decControl o h b ext
  else if o < 0x50 then decInteger o h b ext
  else if o < 0x70 then decFloating o h b
  else if o < 0x90 then decMemory o h b
  else if o < 0xA0 then decSync o h b
  else if o < 0xB0 then decCursor o h b
  else if o < 0xC0 then decMatrix o h b
  else if o < 0xE0 then decEngine o h b ext
  else decSystem o h b

/-- Whether an instruction is taken as read from `ws`: it breaches nothing and its own words are `ws`, so that every
field it does not assign was zero (R128). -/
def accept (ws : List DWord) (i : Instr) : Except Illegal Instr :=
  match i.illegal with
  | some e => .error e
  | none => if encode i = ws then .ok i else .error .reserved

/-- The instruction that the words of one instruction hold (R109–R133). -/
def decodeWords (ws : List DWord) : Except Illegal Instr :=
  match ws with
  | [] => .error .truncated
  | w :: more =>
    if isUnassigned (opcodeOf w) then .ok (.unassignedOpcode w)
    else if more.length + 1 < wordCount w then .error .truncated
    else
      let ext := if hasExt w then more.headD 0 else 0
      let mask := if hasExt w then (more.drop 1).headD 0 else more.headD 0
      match Hdr.dec w mask with
      | .error e => .error e
      | .ok h =>
        match parse (opcodeOf w) h (w.extractLsb' 0 47) ext with
        | .error e => .error e
        | .ok i => accept (ws.take (wordCount w)) i

/-! ### Bytes (R4) -/

/-- Eight bytes, the first at the lowest address, as a word (R4). -/
def wordOfBytes (b : List Byte) : DWord :=
  BitVec.ofNat 64 ((b.take 8).foldr (fun x acc => x.toNat + 256 * acc) 0)

/-- A word's eight bytes in memory order (R4). -/
def bytesOfWord (w : DWord) : List Byte := (List.range 8).map fun k => w.extractLsb' (8 * k) 8

/-- The words in a byte sequence. -/
def wordsOfBytes : Nat → List Byte → List DWord
  | 0, _ => []
  | n + 1, b => if b.length < 8 then [] else wordOfBytes b :: wordsOfBytes n (b.drop 8)

/-- The instruction at the head of a byte sequence, with the bytes after it. -/
def decodeBytes (b : List Byte) : Except Illegal (Instr × List Byte) :=
  match wordsOfBytes 3 b with
  | [] => .error .truncated
  | w :: more =>
    match decodeWords ((w :: more).take (wordCount w)) with
    | .ok i => .ok (i, b.drop (8 * wordCount w))
    | .error e => .error e

/-- The three words, bits above `nbits` zero, that a number read as one instruction lays out (R109). -/
def tableWords (nbits w : Nat) : List DWord :=
  let v := w % 2 ^ nbits
  [BitVec.ofNat 64 v, BitVec.ofNat 64 (v / 2 ^ 64), BitVec.ofNat 64 (v / 2 ^ 128)]

/-- The instruction the decoder reads from an instruction whose bits are `w`, bit 0 the least significant bit of the
first word. -/
def decodeTableWord (nbits w : Nat) : Option Instr :=
  match decodeBytes ((tableWords nbits w).flatMap bytesOfWord) with
  | .ok (i, _) => some i
  | .error _ => none

end Sys2Proof
end

