-- ==== Sys2Proof/Config.lean ====
section
/-! DEFINITION. Free values: what the manual leaves open, as constants without a body, so that nothing proved here
depends on a value of theirs. Each is named in a row of notes/assumptions. -/

namespace Sys2Proof

/-- Log 5. Whether a cached copy (TLB, record cache, codebook buffer, metadata cache, untracked L1 word, remote-data
cache, instruction cache) is still held when the n-th question is asked (R114, R224, R226, R243, R337, R342). -/
opaque Config.keep : Nat → Bool

/-- Log 70. Whether a core is among the capacity offered to best-effort work under a cap of so many watts, or under a thermal
warning (R20, R521). -/
opaque Config.capOffers : (watts core : Nat) → Bool

/-- Log 6. Which member of the set of R198 a special function returns: a fixed function of the function's number, the
type code, the source bits and the effective mode, saturation and flush (R200). -/
opaque Config.special : (op ty src mode : Nat) → Nat

/-- Log 21. The sign that R103 adds to a zero sum when products of both signs share the largest magnitude, for a row of A
and a column of B. -/
opaque Config.wideTie : (a b : List Nat) → Bool

/-- Log 12. Which slice's bytes end up where slices of one CPY overlap (R428): the order of the slices. -/
opaque Config.sliceOrder : Nat → Nat

/-- Log 13. Whether a signature of 4,627 bytes over a message verifies under ML-DSA-87 for the key with the given
SHA3-512 digest (R495, R498, R519). -/
opaque Config.mlDsaVerify : (keyDigest message signature : List Byte) → Bool

/-- Log 13. The ML-DSA-87 signature made by the device's identity key. -/
opaque Config.mlDsaSign : List Byte → List Byte

/-- Log 13. The unwrapped key material of a wrapped key under an ML-KEM-1024 session, when it unwraps (R486, R518). -/
opaque Config.kemUnwrap : (session wrapped : List Byte) → Option (List Byte)

/-- Log 13. The shared secret of an ML-KEM-1024 session, when the session yields one (R499). -/
opaque Config.kemShared : (session : List Byte) → Option (List Byte)

/-- Log 13. The device secret (R496), the digest of the device's public key and of the running Fawaile (R495). -/
opaque Config.deviceSecret : List Byte

/-- Log 13. SHA3-512 of the device's ML-DSA-87 public key (R495). -/
opaque Config.deviceIdentity : List Byte

/-- Log 13. SHA3-512 of the Fawaile image that runs before a reset of the model's own run has read one (R495, R519). -/
opaque Config.fawaileDigest : List Byte

/-- Log 13. SHA3-512 of the ML-DSA-87 public key fused in the device, which Fawaile images are signed under (R519). -/
opaque Config.fusedKey : List Byte

/-- Log 13. The 12-byte nonce of the n-th sealing under AES-256-GCM (R495, R496, R499). -/
opaque Config.nonce : Nat → List Byte

/-- Log 13. The nonce with which the security engine attests in the session of the request that it answers n-th (R498, R499). -/
opaque Config.challenge : Nat → List Byte

/-- Log 36. Fawaile's log as a dump carries it (R503). -/
opaque Config.fawaileLog : Nat → List Byte

end Sys2Proof
end

