-- ==== Sys2Proof/Machine/State.lean ====
section
/-! DEFINITION. The state of the device as plain data: every register, queue, table and memory the manual names, what
a step can end in, and the state after reset. -/

namespace Sys2Proof.Machine

/-- A table of records by number, numbers rising. -/
abbrev Tab (α : Type) := List (Nat × α)

/-! ### Groups (R27–R40, R69) -/

/-- A place a result is written to (R116): vector register, operand file, latch, uniform register, lane predicate,
uniform predicate, cursor, and the level record a cursor has captured: its 64 bytes, and above them bits 63–6 of its address (R357). -/
inductive Place where
  | v (i : Nat) | o (i : Nat) | l (i : Nat) | s (i : Nat) | p (i : Nat) | g (i : Nat) | c (i : Nat) | cap (i : Nat)
  deriving DecidableEq, Repr

/-- A result that has not replaced the value its place held (R116–R120): `due` is the cycle from which it is due, none
for a result due only at a switch marker; `old` is what a latch slot shows until then (R75); `owed` names the ring entry
that is still to give the value (R452). `beat` is the cycle in which the beat that wrote it issued, and `lat` the cycles after
which it has returned (R35, R117, R120). -/
structure Pend where
  place : Place
  lane : Nat
  val : Nat
  old : Option Nat
  uni : Bool
  var : Bool
  beat : Nat
  lat : Nat
  due : Option Nat
  owed : Option Nat
  deriving DecidableEq, Repr

/-- An entry of a reconvergence stack (R56). -/
structure Frame where
  pc : DWord
  mask : Word
  fmt : Word
  deriving DecidableEq, Repr

/-- What an MWAIT or a TBWAIT tests and writes (R323, R324, R328, R329): `lanes` holds lane, physical address, whether
the page keeps codec lines, and comparand; for TBWAIT (`phase`) the address is the barrier's phase and the comparand the
token. -/
structure WatchTest where
  phase : Bool
  w : MwW
  cond : MwCond
  scp : Scope
  uni : Bool
  ver : Ver
  data : Nat
  lanes : List (Nat × Nat × Bool × Nat)
  deriving DecidableEq, Repr

/-- A fault as an instruction finds it (R463, R472): class, cause, code, lanes, and each lane's faulting address. -/
structure Raise where
  cls : Nat
  cause : Nat
  code : Nat
  lanes : Word
  addrs : List (Nat × DWord)
  deriving DecidableEq, Repr

/-- Why a group does not issue (R38, R285). -/
inductive Wait where
  /-- It may issue. -/
  | none
  /-- A mailbox that is empty: what the read is to write, and where (R77, R332). -/
  | mbxRead (m : Nat) (uni : Bool) (ver : Ver) (d : Dst) (lanes : List Nat)
  /-- A mailbox that is full, and the value to write (R77, R332). -/
  | mbxWrite (m : Nat) (val : Word)
  /-- Arrived at a team or role barrier (R320). -/
  | bar (role : Bool) (n : Nat)
  /-- Waits for the phase in progress of a barrier it is not counted in (R320). -/
  | barLate (role : Bool) (n : Nat)
  /-- Arrived at a bough barrier (R321). -/
  | bbar (n : Nat)
  /-- Waits for a free bough-barrier entry (R321). -/
  | bbarFull (n : Nat)
  /-- MWAIT or TBWAIT with watches on sectors (R324, R329). -/
  | watch (sectors : List Nat) (t : WatchTest)
  /-- MWAIT or TBWAIT without monitor entries, until a cycle (R326). -/
  | overflow (till : Nat) (t : WatchTest)
  /-- At a REGROUP rendezvous, with the predicate and the mask word of the instruction (R50, R160). -/
  | regroup (pd : Nat) (mask : DWord)
  /-- SPAWN with lanes not yet placed, by entry address (R44, R47). -/
  | spawn (entry : DWord)
  /-- Paired at a REGROUP rendezvous: waits until both groups' outstanding results have returned and no queue entry names
  either (R52, R405); then the donor's lanes move to the host. -/
  | paired (host donor pd : Nat) (mask : DWord)
  /-- A queue with every slot held, or a queue entry that still names a tile or accumulator (R386, R388, R444): no stall
  of R38. -/
  | slot
  /-- MWAITB until every batch of the group up to this one, counted from 0, has retired (R403). -/
  | batch (n : Nat)
  /-- WAITT for a deadline: what the completion is to write, and where (R459). -/
  | deadline (t : Nat) (uni : Bool) (d : Dst) (lanes : List Nat)
  /-- A recoverable fault awaiting its ACTION (R222, R470); the number is the fault's. -/
  | fault (n : Nat)
  /-- A breakpoint awaiting its ACTION (R456). -/
  | brk (n : Nat)
  /-- A free capture entry (R357). -/
  | capture
  /-- A fault that the team's handler takes once every result the group awaits of a ring entry is due (R472). -/
  | trap (r : Raise)
  /-- Stopped (R476, R477): with the mask word of its safe point, or hard. -/
  | stopped (mask : Option DWord)
  deriving DecidableEq, Repr

/-- A lane in a spawn bin: position and argument registers (R44, R45). -/
structure BinLane where
  pos : Nat
  args : List Word
  deriving DecidableEq, Repr

/-- A resident group. -/
structure Group where
  team : Nat
  core : Nat
  /-- The issue slice whose active set holds the group; none in the pending set (R36, R37). -/
  slice : Option Nat
  role : Nat
  gnum : Nat
  pc : DWord
  mask : Word
  live : Word
  stack : List Frame
  fmt : Word
  v : Cells 32
  o : Cells 32
  l : Cells 64
  s : Cells 64
  p : Cells 1
  g : Cells 1
  c : Cells 256
  cap : Cells 570
  tiles : Cells 8
  acc : Cells 32
  orig : Cells 5
  rng : Cells 32
  trapinfo : DWord
  trappc : DWord
  trapaddr : Cells 64
  pend : List Pend
  /-- Batches the group has closed (R402): NEXT is this count modulo 2³² − 1, plus 1. -/
  nextBatch : Nat
  /-- VER and mask word of the instruction issued last (R83, R285), and those of the one issued before it. -/
  lastVer : Nat
  prevVer : Nat
  lastMask : Option DWord
  prevMask : Option DWord
  /-- An instruction with SP = 1 has issued since a stop was requested (R476). -/
  stopDue : Bool
  /-- The cycles by which every fixed and every variable result issued so far has returned, and those of accesses that
  missed L1 (R38, R116, R117, R120; log 15). -/
  fixedBack : Nat
  lateBack : Nat
  missBack : Nat
  /-- The cycle by which the uniform results have returned that the data side may not pass the group's latest uniform fence, barrier,
  release, acquire or marker before (R35). -/
  passFrom : Nat
  /-- The cycle from which it has issued all beats of its instructions, or left its last wait (R32, R36). -/
  freeAt : Nat
  wait : Wait
  waitSince : Nat
  waitSeq : Nat
  /-- Bytes of the instruction the group waits in. -/
  parkLen : Nat
  /-- A watched sector was written since the last test (R324). -/
  poked : Bool
  /-- The lanes of a SPAWN not yet placed, with what they carry (R47). -/
  spawnLeft : List BinLane
  /-- The WAITT or SPAWN in which a stop found the group: executed again against the same deadline, with the lanes not yet placed
  (R459, R476). -/
  redo : Wait
  /-- The instruction whose beats issue, when a beat put off reads its sources anew (R119): its words, lanes of a beat, and how many
  results were outstanding before it. -/
  beatWords : List DWord
  beatLanes : Nat
  beatPend : Nat
  /-- Cycle at which it entered an active set, entered the pending set, became ready, last stalled (R36–R39). -/
  age : Nat
  pendSince : Nat
  readySince : Nat
  lastStall : Nat
  /-- Per lane: the scope of a release owed by the next store, scope code + 1, and the sectors of the last load (R254). -/
  relOwed : Cells 3
  lastLoad : Tab (List Nat)
  deriving DecidableEq, Repr

/-! ### Memory system (R216–R251, R264–R266, R337–R348) -/

/-- State of a sector copy in an L1 or a bough atomic unit (R230). -/
inductive SectorState where
  | shared | owned | untracked
  deriving DecidableEq, Repr

/-- A sector copy: agent 0–255 the L1 of that core, 256 + b the atomic unit of bough b (R229, R230, R234). `codec` is the flag of the
line it came from (R345); copies with one `ver` other than 0 were fetched as one version of their line, and not written since
(R348). -/
structure Copy where
  agent : Nat
  sector : Nat
  st : SectorState
  data : BitVec 512
  valid : BitVec 16
  dirty : BitVec 16
  reads : Nat
  limit : Nat
  tag : BitVec 16
  codec : Bool
  ver : Nat
  /-- The key material of the translation that its last access came under: its words go home under it (R486). -/
  key : List Byte
  deriving DecidableEq, Repr

/-- A leaf of a walk (R221). -/
structure Leaf where
  frame : BitVec 32
  shift : Nat
  key : BitVec 13
  cmp : Bool
  sa : Bool
  rt : Rt
  w : Bool
  x : Bool
  deriving DecidableEq, Repr

/-- A TLB entry: unit 0–255 the L1 TLB of that core, 256 + b the L2 TLB of bough b (R224). -/
structure TlbEntry where
  unit : Nat
  part : Nat
  ctx : Nat
  page : Nat
  leaf : Leaf
  deriving DecidableEq, Repr

/-- A window binding (R235–R240); `pages` holds the captured leaf of each 64 KiB page, none for one to be translated at
its first access after a resume. V and D hold one bit per word, 16 words a key; `given` the V bits that zero-no-fill mode gave and
that still stand (R237). -/
structure Window where
  core : Nat
  index : Nat
  team : Nat
  off : Nat
  base : DWord
  len : Nat
  zero : Bool
  ft : Rt
  scp : Scope
  pages : Tab Leaf
  vbits : Cells 16
  dbits : Cells 16
  given : Cells 16
  deriving DecidableEq, Repr

/-- An entry of a crown's remote-data cache (R242, R243), with the flag and the version of its line (R345, R348). -/
structure RdcEntry where
  crown : Nat
  sector : Nat
  tag : BitVec 16
  gen : Nat
  data : BitVec 512
  codec : Bool
  ver : Nat
  deriving DecidableEq, Repr

/-- What a core held dirty when it performed a narrow release: words of its sector copies by sector, and of its windows by index,
global base and sector of the window (R265). -/
structure HeldDirty where
  copies : List (Nat × BitVec 16)
  wins : List (Nat × Nat × Nat × BitVec 16)
  deriving DecidableEq, Repr

/-- A narrow-release mark at a sector's home (R264), with what the marking release left unpublished. -/
structure Mark where
  core : Nat
  sector : Nat
  scp : Scope
  inst : Nat
  dirty : HeldDirty
  deriving DecidableEq, Repr

/-- The narrow epoch of a core: its latest narrow release (R264). -/
structure Epoch where
  scp : Scope
  inst : Nat
  dirty : HeldDirty
  deriving DecidableEq, Repr

/-- A copy in a core's record cache, codebook buffer, metadata cache or instruction cache, by kind, owner and number
(R114, R227, R337, R342, R357). -/
structure HeldBytes where
  core : Nat
  kind : Nat
  owner : Nat
  num : Nat
  sub : Nat
  bytes : List Byte
  deriving DecidableEq, Repr

/-- A discarded write to a poisoned sector, an unrecoverable loss, or a stamp that its codec line cannot take, whose context is still
to end (R347, R489–R491); the core whose write it was, and its team's number where one team is known to have written (R467). -/
structure Lost where
  part : Nat
  ctx : Nat
  cls : Nat
  cause : Nat
  pa : Nat
  core : Nat
  team : Option Nat
  deriving DecidableEq, Repr

/-- What a line held, and its codec flag, before a write that came while a grid ran (R114). -/
structure OldLine where
  line : Nat
  bytes : List Byte
  codec : Bool
  deriving DecidableEq, Repr

/-- Memory and every copy of it. -/
structure Mem where
  /-- DRAM as the homes hold it: bytes by physical address, unlisted bytes zero (log 1). A 64 KiB frame is held as the key material
  of its last access reads it: every other material's view follows from that one by the cipher (R486, log 73). -/
  dram : List Host.Cell
  /-- That key material by frame; an unlisted frame is held as plaintext. -/
  pageKeys : Tab (List Byte)
  /-- Owner tag of each sector at home (R251). -/
  tags : Cells 16
  poison : List Nat
  /-- Lines whose codec flag is set (R345). -/
  codec : List Nat
  copies : List Copy
  tlbs : List TlbEntry
  windows : List Window
  rdc : List RdcEntry
  gens : Tab Nat
  floors : Tab Nat
  marks : List Mark
  epochs : Tab Epoch
  held : List HeldBytes
  lost : List Lost
  /-- What lines held before the writes made while grids run, oldest first (R114). -/
  olds : List OldLine
  deriving DecidableEq, Repr

/-! ### Engine queues (R271, R386–R390, R426–R453) -/

/-- A captured translation of an 8-byte datum (R445): physical address and the leaf it came from. -/
structure Phys where
  pa : Nat
  leaf : Leaf
  deriving DecidableEq, Repr

/-- Where an engine entry stands (R427, R516). -/
inductive EntryState where
  /-- Not started. -/
  | waiting
  /-- Started; waits for a peer, a target or further pages. -/
  | started
  /-- Parked on a translation fault; the number is the fault's. -/
  | parked (n : Nat)
  /-- Stopped at a page that does not translate: address and cause (R427, R468). -/
  | faulting (va : DWord) (cause : Nat)
  /-- Performed; the stamp with this status stands before earlier stamps and is still to be written. -/
  | done (status : BitVec 16)
  deriving DecidableEq, Repr

/-- One slice of a copy (R428). -/
structure CopySlice where
  gid : Nat
  block : List Byte
  deriving DecidableEq, Repr

/-- A QFENCE, or a CPY's mask word, still in force: queue set and the first entry number after it (R274, R447). -/
structure QFence where
  set : BitVec 6
  after : Nat
  deriving DecidableEq, Repr

/-- An entry of a copy, decompression, storage or root queue (R426, R444, R445). `opc` is the opcode; `waits` what the
mask words of a CPY wait for (R447); `slices` a CPY's slices, `expect` how many it waits for, `counted` the groups counted that have not
arrived (R428, R448); `pos` how far the payload has been performed, `buf` the bytes it has produced and not yet written, `result` its
status once all are produced; `snap` the bytes of a storage write's snapshot, as far as they are taken (R276); `since` the cycle an outstanding request was sent
at. `grid`, `index` and `grp` name the enqueuing group in records (R467). -/
structure Entry where
  id : Nat
  opc : Nat
  team : Nat
  gid : Nat
  ctx : Nat
  part : Nat
  block : List Byte
  stamp : Phys
  waits : List QFence
  role : Option Nat
  slices : List CopySlice
  counted : List Nat
  malformed : Bool
  st : EntryState
  pos : List Nat
  buf : Tab Byte
  result : Option (BitVec 16)
  snap : List (Option Byte)
  retries : Nat
  since : Nat
  grid : Nat
  index : Nat
  grp : Nat
  deriving DecidableEq, Repr

/-- A ring-queue entry (R452): operation 0 RRES, 1 RPUB, 2 RTAKE, 3 RREL, with the address of its instruction (R461); `asked` the number
of its arrival at the ring's slice, once it has asked there (R421). -/
structure RingEntry where
  id : Nat
  op : Nat
  team : Nat
  gid : Nat
  pc : DWord
  word : DWord
  ring : Nat
  first : Nat
  n : Nat
  asked : Option Nat
  deriving DecidableEq, Repr

/-- What a matrix-queue entry does (R386–R401). -/
inductive MatOp where
  | tld (t : Nat) (addr : DWord) (stride : Int) (count : Nat)
  | tst (t : Nat) (addr : DWord) (stride : Int) (count : Nat)
  | tasm (t : Nat) (hi : Bool) (cells : List Byte) (lanes : Word)
  | mma (a ta tb : Nat) (ts : Option Nat) (rows : Nat) (live : BitVec 64)
  | acvt (t a part : Nat) (ty : Ty)
  deriving DecidableEq, Repr

/-- A matrix-queue entry (R386, R390): the instruction's word, the pages it captured, its `fmt`, its batch counted from 0;
`finish` the cycle from which an entry that has performed retires, `terms` what it then adds to the term counters
(R108). -/
structure MatEntry where
  id : Nat
  team : Nat
  gid : Nat
  role : Nat
  word : DWord
  op : MatOp
  fmt : Word
  batch : Nat
  pages : Tab Leaf
  finish : Option Nat
  terms : List Nat
  /-- Of a TASM, the k0 it was issued with (R395, R483). -/
  k0 : DWord
  deriving DecidableEq, Repr

/-! ### Cores (R12, R44–R49, R65–R67) -/

/-- A spawn bin that holds lanes (R44–R47); `till` is the cycle its timer expires, none once a waiting launch has
closed it; `left` what is left of a timer that has frozen, as its team stops (R49, R478). -/
structure Bin where
  team : Nat
  role : Nat
  entry : DWord
  lanes : List BinLane
  till : Option Nat
  left : Option Nat
  deriving DecidableEq, Repr

/-- A heartwood split in granules (R65). -/
structure Split where
  regs : Nat
  scratch : Nat
  l1 : Nat
  deriving DecidableEq, Repr

/-- A group that has retired while it still awaited results: its registers stay allocated until they have returned (R155);
`regs` is its role's vector registers, `till` the cycle by which all but ring results have returned. -/
structure Leaving where
  gid : Nat
  regs : Nat
  till : Nat
  deriving DecidableEq, Repr

/-- A core. -/
structure Core where
  split : Split
  /-- The split it drains for, and the cycle its reconfiguration ends (R66, R67). -/
  drain : Option Split
  reconf : Option Nat
  termc : List DWord
  cbstall : DWord
  /-- Cycle at which the term array may start its next instruction (R107). -/
  arrayFree : Nat
  /-- Cycle until which each issue slice issues beats (R36). -/
  busy : List Nat
  bins : Tab Bin
  mat : List MatEntry
  /-- Groups that have retired while matrix entries of theirs have not (R43, R60). -/
  ghosts : Tab Group
  /-- Retired groups whose registers are not yet free (R155). -/
  leaving : List Leaving
  cpy : List Entry
  dec : List Entry
  sto : List Entry
  root : List Entry
  ring : List RingEntry
  fences : List QFence
  /-- Incarnation number and whether the unit is declared dead (R491–R493). -/
  incarnation : BitVec 8
  dead : Bool
  deriving DecidableEq, Repr

/-! ### Teams and grids (R27, R28, R143, R407–R424) -/

/-- A role of a kernel (R28, R143). -/
structure Role where
  groups : Nat
  regs : Nat
  curs : Nat
  tiles : Nat
  accs : Nat
  deriving DecidableEq, Repr

/-- A spawn entry of a kernel: offset from the first instruction, timer (R143). -/
structure BinDecl where
  off : Nat
  timer : Nat
  deriving DecidableEq, Repr

/-- A kernel descriptor (R143). -/
structure Kernel where
  entry : DWord
  split : Split
  roles : List Role
  scratch : Nat
  bins : List BinDecl
  deriving DecidableEq, Repr

/-- A barrier of a team or role in one phase: groups counted, groups arrived, groups that wait for the phase to
end because they are not counted in it (R320). -/
structure Barrier where
  phase : Nat
  counted : List Nat
  arrived : List Nat
  late : List Nat
  deriving DecidableEq, Repr

/-- What the save slot of a saved team does not hold: the numbers its groups had, in the order of the slot's directory,
of each saved queue entry what R483 gives its record no place for, the places that await a saved ring entry's result,
by group, what a FENCE or a load of its lanes has left each group to do (R254), and of a WAITT or SPAWN that a group executes
again the wait it stood in, its length and the lanes not yet placed (R459, R476; log 33). -/
structure Kept where
  gids : List Nat
  pends : List (Nat × Pend)
  fenced : List (Nat × Cells 3 × Tab (List Nat))
  redo : List (Nat × Wait × Nat × List BinLane)
  entries : List Entry
  mat : List MatEntry
  ring : List RingEntry
  fences : List QFence
  deriving DecidableEq, Repr

/-- Nothing kept. -/
def Kept.none : Kept := ⟨[], [], [], [], [], [], [], []⟩

/-- Where a placed team stands. -/
inductive TeamState where
  | running
  /-- A stop was requested at this cycle (R475–R477). -/
  | stopping (since : Nat)
  /-- Saved; waits to resume (R478, R479). -/
  | saved
  deriving DecidableEq, Repr

/-- A team that has been placed and has not ended. -/
structure Team where
  grid : Nat
  index : Nat
  core : Nat
  rows : Nat
  alloc : Nat
  scratch : Cells 8
  mbx : Cells 32
  mbxFull : Word
  trapvec : DWord
  /-- Team barrier n at key n, role r's barrier n at 16(r + 1) + n. -/
  bars : Tab Barrier
  placedAt : Nat
  order : Nat
  slot : Nat
  st : TeamState
  kept : Kept
  deriving DecidableEq, Repr

/-- What an unplaced team starts with in record mode (R416). -/
structure TeamMap where
  expert : Word
  first : Word
  rows : Nat
  param : Word
  deriving DecidableEq, Repr

/-- A stage ring (R418–R421): published and released slots beyond PUB and REL. -/
structure Ring where
  lead : Nat
  num : Nat
  base : DWord
  /-- Crown that holds the slot array (R420). -/
  crown : Nat
  size : Nat
  count : Nat
  producer : Nat
  consumer : Nat
  res : Word
  pub : Word
  take : Word
  rel : Word
  published : List Nat
  released : List Nat
  deriving DecidableEq, Repr

/-- Stages of a block's life (R409–R412). -/
inductive GridState where
  /-- Read, waits unmet or held back by an earlier block. -/
  | read
  /-- Eligible, with teams to place. -/
  | eligible
  /-- Ended or refused, the stamp written. -/
  | ended
  deriving DecidableEq, Repr

/-- A launch block the scheduler has read, with its kernel once eligible (R409–R424). A pipeline launch has one grid
per stage, `stage` its number, `lead` the grid that carries the stamp. -/
structure Grid where
  queue : Nat
  block : List Byte
  blockAddr : DWord
  seq : Nat
  part : Nat
  ctx : Nat
  st : GridState
  /-- Stamp waits: physical address, value, and the leaf of the translation (R346, R410). -/
  waits : List (Nat × Nat × Leaf)
  eligibleAt : Nat
  /-- Priority level, and the cycle from which the next 10 ms with unplaced teams count (R414). -/
  level : Nat
  agedAt : Nat
  kernel : Kernel
  teams : Nat
  maps : List TeamMap
  mapPhys : Tab Leaf
  placed : Nat
  endedTeams : Nat
  stage : Option Nat
  lead : Nat
  /-- Cores a stage asks for, the cores it was given, and on the lead grid the rings of a launch not yet placed (R418–R420). -/
  wanted : Nat
  cores : List Nat
  plan : List Ring
  /-- Absolute deadline of a timed launch (R423). -/
  deadline : Option Nat
  /-- The end of the booking of a timed launch: bookings of a partition follow one another (R423). -/
  booking : Option Nat
  /-- DRAM and codec flags as they were when the launch was accepted: what its instruction fetches may still return (R114). -/
  code : List Host.Cell
  codeLines : List Nat
  /-- How many earlier contents of lines (`Mem.olds`) are older than the launch (R114). -/
  oldsFrom : Nat
  /-- On the lead grid of a launch: the first overrun or fault, its `%time` and team, which decides the stamp, and how many teams
  overran (R424, R464). -/
  outcome : Option (Nat × Nat × BitVec 16)
  overruns : Nat
  deriving DecidableEq, Repr

/-- A bough-barrier entry (R321). -/
structure BoughBar where
  bough : Nat
  grid : Nat
  num : Nat
  expect : Nat
  arrived : List Nat
  deriving DecidableEq, Repr

/-- A launch-queue record (R407). -/
structure QueueBody where
  base : DWord
  tailA : DWord
  headA : DWord
  size : Nat
  enabled : Bool
  timed : Bool
  vf : Nat
  deriving DecidableEq, Repr

/-- The scheduler's watch on a queue's tail word (R408): where the word lies, and whether it is to be read again. -/
structure TailWatch where
  pa : Nat
  due : Bool
  deriving DecidableEq, Repr

/-! ### Faults (R466–R470) -/

/-- A fault record not yet written, or awaiting its ACTION. `await` names what an ACTION acts on. -/
inductive FaultOf where
  | group (gid : Nat) | engine (core : Nat) (entry : Nat) | brk (gid : Nat) | none
  deriving DecidableEq, Repr

/-- A fault record (R467); `num` is the number the model gives the fault, shared by its continuation records. -/
structure FaultRec where
  num : Nat
  part : Nat
  cls : Nat
  cause : Nat
  flags : Nat
  ctx : Nat
  core : Nat
  lq : Nat
  code : Nat
  team : Nat
  pc : DWord
  addr : DWord
  lanes : Word
  grp : Nat
  nrec : Nat
  time : Nat
  awaits : FaultOf
  /-- Where the record was written, once it was (physical address). -/
  at_ : Option Nat
  deriving DecidableEq, Repr

/-! ### Partitions and the world outside (R484–R521) -/

/-- The body of a partition record as a management request carries it (R484). -/
structure PartBody where
  quads : BitVec 64
  granules : BitVec 64
  keyLo : Nat
  keyN : Nat
  plain : Bool
  fqBase : Nat
  fqSize : Nat
  fqHead : Nat
  fqTail : Nat
  fqStamp : Nat
  poolBase : Nat
  slotLog : Nat
  slots : Nat
  serviceQ : Nat
  /-- The overflow interval of MWAIT, where system software gives one (R326). -/
  ovf : Option Nat
  debug : Bool
  meas : List Byte
  csKey : List Byte
  deriving DecidableEq, Repr

/-- A context of a partition (R485, R464). -/
structure Context where
  root : Nat
  enabled : Bool
  ended : Bool
  deriving DecidableEq, Repr

/-- A registration entry (R508). -/
structure RegBody where
  base : DWord
  len : DWord
  tag : BitVec 20
  read : Bool
  write : Bool
  atomic : Bool
  signal : Bool
  valid : Bool
  deriving DecidableEq, Repr

/-- A receive ring (R511). -/
structure RecvRing where
  base : DWord
  slotSize : Nat
  count : Nat
  tailA : DWord
  headA : DWord
  deriving DecidableEq, Repr

/-- What a virtual function is known by on a port where it is enabled (R506). -/
structure PortId where
  mac : BitVec 48
  ip4 : BitVec 32
  ip6 : BitVec 128
  deriving DecidableEq, Repr

/-- A virtual function (R485, R506–R511): the ports it is enabled on beside port 0, which it always is, with its addresses there; the
queue pairs that remote endpoints hold with it. -/
structure Vf where
  part : Nat
  ctx : Nat
  regs : Tab RegBody
  recv : Option RecvRing
  errors : Nat
  ids : Tab PortId
  qps : List Nat
  deriving DecidableEq, Repr

/-- A peer binding (R513) or a namespace binding (R515). -/
inductive BindBody where
  | peer (addr : BitVec 128) (qp rkey : Word) (port vf prio : Nat) (valid : Bool)
  | ns (addr : BitVec 128) (nsid : Word) (lbaLog port depth : Nat) (size : DWord) (valid wcache : Bool)
  deriving DecidableEq, Repr

/-- A partition (R17, R484–R488). `binds` holds peer binding n at n and namespace binding n at 256 + n; `failed` the
peer bindings in the error state (R514); `frozen` a seed in progress (R494); `keys` the two 256-bit keys of each loaded key ID
(R486). -/
structure Partition where
  body : PartBody
  ctxs : Tab Context
  keys : Tab (List Byte)
  binds : Tab BindBody
  failed : List Nat
  written : Nat
  /-- The partition ends once its engine entries have written their stamps (R488). -/
  ending : Bool
  slotsUsed : List Nat
  frozen : Bool
  deriving DecidableEq, Repr

/-- A lineage entry: IDLE, BOUND to a partition, MOVED (R497). -/
inductive LineageState where
  | idle | bound (part : Nat) | moved
  deriving DecidableEq, Repr

/-- An entry of the live lineage table (R497), with the measurement that its newest seed's key is made of (R496, R499). -/
structure Lineage where
  id : BitVec 128
  counter : Nat
  st : LineageState
  meas : List Byte
  deriving DecidableEq, Repr

/-- Timed reservations of a partition and its latest booking (R422, R423). -/
structure Timed where
  cores : List Nat
  share : Nat
  slots : Nat
  bookedTo : Nat
  deriving DecidableEq, Repr

/-- Device states (R520). -/
inductive DeviceState where
  | off | reset | ready | run | halt
  deriving DecidableEq, Repr

/-- Who sends a management request (R518). -/
inductive ReqFrom where
  | host | board | other
  deriving DecidableEq, Repr

/-- The body of a management request (R518). -/
inductive Request where
  | readUnitMap
  | writePartition (part : Nat) (body : Option PartBody)
  | bindVf (vf part ctx : Nat) (root : Nat) (recv : Option RecvRing)
  | writeQueue (q : Nat) (body : QueueBody)
  | writeReg (vf idx : Nat) (body : RegBody)
  | writeBinding (part idx : Nat) (body : BindBody)
  | loadKey (part key : Nat) (session wrapped : List Byte)
  | seedMake (part : Nat) (lineage : BitVec 128) (buf : Option Nat) (endPart : Bool)
  | seedRestore (part : Nat) (image statement session : List Byte)
  | counterStatement (lineage : BitVec 128) (peer nonce session : List Byte)
  | readDump
  | setPowerCap (watts : Nat)
  | resetUnit (a : AgentId)
  | reserveTimed (part : Nat) (cores : List Nat) (share slots : Nat)
  | unknown (code : BitVec 16)
  deriving DecidableEq, Repr

/-- Log 80. The body of a management request as its bytes hold it, for a code of R518: the manual gives no layout; none where the length
does not match the code or a reserved field is not zero. -/
opaque requestBody : (code : Nat) → (body : List Byte) → Option Request

/-- The Fawaile image that boot flash holds, and its signature (R519). -/
structure Flash where
  image : List Byte
  signature : List Byte
  deriving DecidableEq, Repr

/-- What changes about the ports outside frames (R504–R507): a link trains or goes down, Fawaile sets the priorities of the host, peer,
storage and management classes, a virtual function is enabled on a port or not, a remote endpoint's queue pair with it connects. -/
inductive PortEvent where
  | link (port : Nat) (up : Bool)
  | classes (prio : List (BitVec 3))
  | enable (vf port : Nat) (id : Option PortId)
  | connect (port vf qp : Nat)
  deriving DecidableEq, Repr

/-- What reaches the device from outside, oldest first in the state's arrivals (R505–R519). `message` is a request as its 256 bytes,
`request` one as Fawaile has read it: `wellLen` says that its length matches its code and its reserved fields are zero. An RDMA request
names the port it comes by. `event` is a step of the device's own that the world
brings about: a shelf's completion, a peer's acknowledgement, an error found, a scrub, system software's wish (log 9). -/
inductive Arrival where
  | frame (port len : Nat) (fcsOk : Bool)
  | port (x : PortEvent)
  | rdmaWrite (port vf qp : Nat) (rkey : Word) (va : DWord) (data : List Byte)
  | rdmaRead (port vf qp : Nat) (rkey : Word) (va : DWord) (len : Nat)
  | rdmaAtomic (port vf qp : Nat) (rkey : Word) (va : DWord) (cas : Bool) (cmp val : DWord)
  | rdmaSend (port vf qp : Nat) (data : List Byte)
  | rdmaSignal (port vf qp : Nat) (rkey : Word) (va : DWord) (imm : Word)
  | rdmaUnsupported (port vf qp : Nat)
  | target (core entry : Nat) (write : Bool) (off : Nat) (data : List Byte) (len : Nat)
  | nvmeLost (part nsb : Nat)
  | message (src : ReqFrom) (bytes : List Byte)
  | request (src : ReqFrom) (tag : BitVec 16) (wellLen : Bool) (body : Request)
  | resetRelease (cores granules ports : List Nat) (share : Option (List Nat)) (timeout : Option Nat) (flash : Flash)
  | resetAssert
  | i3c (scl sda : Bool)
  | powerLoss
  | thermal
  | thermtrip
  | event (i : Instr)
  deriving DecidableEq, Repr

/-- What the device sends out, newest last (R505–R521); what an engine sends names the port it leaves by (R506). -/
inductive Reply where
  | ack (vf qp : Nat)
  | readData (vf qp : Nat) (data : List Byte)
  | atomicOld (vf qp : Nat) (old : DWord)
  | nakAccess (vf qp : Nat)
  | nakInvalid (vf qp : Nat)
  | nakOperation (vf qp : Nat)
  | target (core entry : Nat) (ok : Bool) (data : List Byte)
  | send (port part peer op : Nat) (remote : DWord) (data : List Byte)
  | nvme (port core entry op : Nat) (slba : DWord) (blocks : Nat) (fua : Bool)
  | response (tag : BitVec 16) (status : Nat) (data : List Byte)
  | dump (data : List Byte)
  | unitMap (data : List Byte)
  deriving DecidableEq, Repr

/-- Outstanding work of the security engine (R494). -/
structure SeedJob where
  part : Nat
  lineage : BitVec 128
  buf : Option Nat
  endPart : Bool
  tag : BitVec 16
  deriving DecidableEq, Repr

/-- A message dropped under R492. -/
structure Dropped where
  time : Nat
  agent : Nat
  incarnation : BitVec 8
  addr : Nat
  deriving DecidableEq, Repr

/-- A step of the device's own that what has just happened makes the next one (log 9): a queue's tail word has been written, an
entry has met a page fault, a mailbox has changed. -/
inductive Todo where
  | launchQueueTailWrite (q : Nat)
  | engineEntryPark (core : Nat) (q : Queue)
  | mailboxWake (tid m : Nat)
  deriving DecidableEq, Repr

/-- The whole device. -/
structure State where
  /-- Cycles of the 2.1 GHz clock since reset (R18, R19). -/
  cycle : Nat
  mem : Mem
  cores : Tab Core
  groups : Tab Group
  teams : Tab Team
  grids : Tab Grid
  queues : Tab QueueBody
  tails : Tab TailWatch
  rings : List Ring
  boughBars : List BoughBar
  /-- Core and slice of each slot that a YIELD or a WAITT has freed and that is not filled yet (R150, R459). -/
  freed : List (Nat × Nat)
  parts : Tab Partition
  vfs : Tab Vf
  timed : Tab Timed
  faults : List FaultRec
  /-- The number that the next group, team, grid, entry, wait or fault gets. -/
  nextId : Nat
  /-- Per launch queue, the number of its latest turn (R413). -/
  turns : Tab Nat
  /-- Census (R21, R25): inactive cores, granules and ports; granules of the remote-data-cache share (R242). -/
  offCores : List Nat
  offGranules : List Nat
  offPorts : List Nat
  rdcShare : List Nat
  /-- Other agents' incarnation numbers and dead marks (R491): 256 + b a bough unit, 512 + n a home, 1024 + n an
  engine. -/
  agents : Tab (BitVec 8)
  deadAgents : List Nat
  /-- The agent timeout in µs (R491). -/
  agentTimeout : Nat
  corrected : Tab Nat
  uncorrected : Tab Nat
  dropped : List Dropped
  /-- Dropped messages counted by crown (R492). -/
  droppedCount : Tab Nat
  frameDrops : Tab Nat
  /-- Active ports whose link is down (R504), and the priorities of the host, peer, storage and management classes (R505). -/
  linksDown : List Nat
  classPrio : List (BitVec 3)
  lineages : List Lineage
  seed : Option SeedJob
  dumpMem : Option Nat
  /-- The newest fault records that have been written, each with its number (R467, R503). -/
  lastFaults : List (Nat × FaultRec)
  powerCap : Nat
  /-- A thermal warning is in effect (R521). -/
  hot : Bool
  device : DeviceState
  pwrok : Bool
  resetN : Bool
  alertN : Bool
  thermtripN : Bool
  i3cScl : Bool
  i3cSda : Bool
  /-- The measurement of the Fawaile image that the last reset read; none before a reset of the model's own run (R519, log 13). -/
  fawaile : Option (List Byte)
  arrivals : List Arrival
  replies : List Reply
  /-- The model's own: events delivered next (log 9), the group whose instruction runs, the counter of free values
  (log 4). -/
  agenda : List Todo
  cur : Option Nat
  fresh : Nat
  deriving DecidableEq, Repr

/-! ### Outcomes -/

/-- What the machine stops with. -/
inductive Fault where
  /-- Raised by a meaning of an instruction word when the state names no resident group whose instruction runs: exec
  was asked about no issue at all. Safe: a claim about a run that issues instructions is not affected. -/
  | noGroup
  deriving DecidableEq, Repr

/-- What the model gives no meaning. -/
inductive Refusal where
  /-- Raised by exec for an instruction not modelled yet. Safe: nothing can be proved about what it does. -/
  | notModelled (mnemonic : String)
  deriving DecidableEq, Repr

/-! ### Reset (R18–R25, R65, R108, R244, R519) -/

/-- A core at the end of reset: default split (R65), counters zero (R108, R343). -/
def Core.reset : Core where
  split := ⟨8, 12, 4⟩
  drain := none
  reconf := none
  termc := [0, 0, 0, 0]
  cbstall := 0
  arrayFree := 0
  busy := [0, 0, 0, 0]
  bins := []
  mat := []
  ghosts := []
  leaving := []
  cpy := []
  dec := []
  sto := []
  root := []
  ring := []
  fences := []
  incarnation := 0
  dead := false

/-- Memory at the end of reset: nothing listed, nothing cached. -/
def Mem.reset : Mem where
  dram := []
  pageKeys := []
  tags := []
  poison := []
  codec := []
  copies := []
  tlbs := []
  windows := []
  rdc := []
  gens := []
  floors := []
  marks := []
  epochs := []
  held := []
  lost := []
  olds := []

/-- The device at the end of reset: READY, no partition, no work; a core's unlisted record is `Core.reset`, a crown's
unlisted generation and a core's unlisted floor are 1. The remote-data-cache share is the highest channel group of
each crown (R242). -/
def State.reset : State where
  cycle := 0
  mem := Mem.reset
  cores := []
  groups := []
  teams := []
  grids := []
  queues := []
  tails := []
  rings := []
  boughBars := []
  freed := []
  parts := []
  vfs := []
  timed := []
  faults := []
  nextId := 1
  turns := []
  offCores := []
  offGranules := []
  offPorts := []
  rdcShare := [15, 31, 47, 63]
  agents := []
  deadAgents := []
  agentTimeout := 50
  corrected := []
  uncorrected := []
  dropped := []
  droppedCount := []
  frameDrops := []
  linksDown := []
  classPrio := [0, 0, 0, 0]
  lineages := []
  seed := none
  dumpMem := none
  lastFaults := []
  powerCap := 2800
  hot := false
  device := .ready
  pwrok := true
  resetN := true
  alertN := true
  thermtripN := true
  i3cScl := true
  i3cSda := true
  fawaile := none
  arrivals := []
  replies := []
  agenda := []
  cur := none
  fresh := 0

end Sys2Proof.Machine
end

