-- ==== Sys2Proof/Machine/Cells.lean ====
section
/-! DEFINITION. Reading and writing the plain-data arrays and tables of the state, and small number helpers that use
structural recursion alone. -/

namespace Sys2Proof.Machine

/-- The cell at `k`; an unlisted cell is zero. -/
def cget {w : Nat} : Cells w → Nat → BitVec w
  | [], _ => 0
  | (a, b) :: r, k => if a = k then b else cget r k

/-- Lists a cell at its place among the keys, instead of the one listed there. -/
def cput {w : Nat} : Cells w → Nat → BitVec w → Cells w
  | [], k, v => [(k, v)]
  | (a, b) :: r, k, v => if k < a then (k, v) :: (a, b) :: r else if k = a then (k, v) :: r else (a, b) :: cput r k v

/-- Writes the cell at `k`; zero removes it. -/
def cset {w : Nat} (c : Cells w) (k : Nat) (v : BitVec w) : Cells w :=
  if v = 0 then c.filter fun e => e.1 != k else cput c k v

/-- Every key lies above `lo`, keys rise strictly, no cell is zero. -/
def cwfFrom {w : Nat} : Nat → Cells w → Bool
  | _, [] => true
  | lo, (a, b) :: r => decide (lo ≤ a) && b != 0 && cwfFrom (a + 1) r

/-- The canonical form: keys strictly rising, no cell zero. -/
def cwf {w : Nat} (c : Cells w) : Bool := cwfFrom 0 c

/-- Writes cells `k`, `k + 1`, … -/
def csetMany {w : Nat} : Cells w → Nat → List (BitVec w) → Cells w
  | c, _, [] => c
  | c, k, v :: r => csetMany (cset c k v) (k + 1) r

/-- Cells `k` … `k + n − 1`. -/
def crange {w : Nat} : Cells w → Nat → Nat → List (BitVec w)
  | _, _, 0 => []
  | c, k, n + 1 => cget c k :: crange c (k + 1) n

/-- Keeps the cells whose key satisfies `p`. -/
def ckeep {w : Nat} (c : Cells w) (p : Nat → Bool) : Cells w := c.filter fun e => p e.1

/-- The record at `k`. -/
def tget {α : Type} : Tab α → Nat → Option α
  | [], _ => none
  | (a, b) :: r, k => if a = k then some b else tget r k

/-- Writes the record at `k`, keeping numbers rising. -/
def tset {α : Type} : Tab α → Nat → α → Tab α
  | [], k, v => [(k, v)]
  | (a, b) :: r, k, v => if k < a then (k, v) :: (a, b) :: r else if k = a then (k, v) :: r else (a, b) :: tset r k v

/-- Removes the record at `k`. -/
def tdel {α : Type} (t : Tab α) (k : Nat) : Tab α := t.filter fun e => e.1 != k

/-- Applies `f` to every record. -/
def tmap {α : Type} (t : Tab α) (f : Nat → α → α) : Tab α := t.map fun e => (e.1, f e.1 e.2)

/-- Numbers 0 … n − 1 that satisfy `p`. -/
def below (n : Nat) (p : Nat → Bool) : List Nat := (List.range n).filter p

/-- Drops repeats, keeping first occurrences. -/
def distinct {α : Type} [DecidableEq α] : List α → List α
  | [] => []
  | a :: r => a :: (distinct r).filter (· ≠ a)

/-- Keeps, of the members that satisfy `p`, the first `n`. -/
def keepFirst {α : Type} (p : α → Bool) : Nat → List α → List α
  | _, [] => []
  | 0, a :: r => if p a then keepFirst p 0 r else a :: keepFirst p 0 r
  | n + 1, a :: r => if p a then a :: keepFirst p n r else a :: keepFirst p (n + 1) r

/-- Changes the first member that satisfies `p`. -/
def mapFirst {α : Type} (p : α → Bool) (f : α → α) : List α → List α
  | [] => []
  | a :: r => if p a then f a :: r else a :: mapFirst p f r

/-- Inserts into a list kept in the order `le`. -/
def insertBy {α : Type} (le : α → α → Bool) (a : α) : List α → List α
  | [] => [a]
  | b :: r => if le a b then a :: b :: r else b :: insertBy le a r

/-- A stable sort. -/
def sortBy {α : Type} (le : α → α → Bool) : List α → List α
  | [] => []
  | a :: r => insertBy le a (sortBy le r)

/-- Sign-extended value of the low `w` bits. -/
def sextInt (w v : Nat) : Int :=
  let u := v % 2 ^ w
  if u < 2 ^ (w - 1) then (u : Int) else (u : Int) - (2 ^ w : Nat)

/-- The low `w` bits of an integer, as a natural number. -/
def truncInt (w : Nat) (x : Int) : Nat := (x % ((2 ^ w : Nat) : Int)).toNat

/-- Little-endian bytes as a number (R4). -/
def leNat : List Byte → Nat
  | [] => 0
  | b :: r => b.toNat + 256 * leNat r

/-- `n` little-endian bytes of a number (R4). -/
def leBytes : Nat → Nat → List Byte
  | 0, _ => []
  | n + 1, v => BitVec.ofNat 8 v :: leBytes n (v / 256)

/-- A little-endian field of a byte list. -/
def field (b : List Byte) (off n : Nat) : Nat := leNat ((b.drop off).take n)

/-- Number of one bits below bit `w`. -/
def popNat (w v : Nat) : Nat := ((List.range w).filter v.testBit).length

/-- The integer square root of a number below 2^(2 n): one binary digit at a time. -/
def isqrtBits : Nat → Nat → Nat → Nat
  | 0, _, r => r
  | n + 1, v, r => isqrtBits n v (if (r + 2 ^ n) * (r + 2 ^ n) ≤ v then r + 2 ^ n else r)

/-- The integer square root. -/
def isqrt (v : Nat) : Nat := isqrtBits (v.log2 / 2 + 1) v 0

end Sys2Proof.Machine
end

