-- ==== Sys2Proof/Machine/Cipher.lean ====
section
/-! DEFINITION. The ciphers and the hash that the manual names: AES-256 (FIPS 197), its modes XTS (IEEE 1619) and GCM (SP 800-38D), and
SHA3-512 (FIPS 202), from those standards (spec/20_faults_preemption_security.md R484–R499; log 13). -/

namespace Sys2Proof.Machine

/-! ### AES-256 -/

/-- The S-box as one number, entry i in bits 8i to 8i + 7: its eight parts of 32 entries. -/
def sboxParts : List Nat :=
  [0xc072a49cafa2d4adf04759fa7dc982ca76abd7fe2b670130c56f6bf27b777c63,
   0x75b227ebe28012079a059618c323c7041531d871f1e5a534ccf73f362693fdb7,
   0xcf584c4a39becb6a5bb1fc20ed00d153842fe329b3d63b52a05a6e1b1a2c8309,
   0xd2f3ff1021dab6bcf5389d928f40a351a89f3c507f02f94585334d43fbaaefd0,
   0xdb0b5ede14b8ee4688902a22dc4f816073195d643d7ea7c41744975fec130ccd,
   0x08ae7a65eaf4566ca94ed58d6d37c8e779e4959162acd3c25c2406490a3a32e0,
   0x9e1dc186b95735610ef6034866b53e708a8bbd4b1f74dde8c6b4a61c2e2578ba,
   0x16bb54b00f2d99416842e6bf0d89a18cdf2855cee9871e9b948ed9691198f8e1]

/-- The inverse S-box, in the same form. -/
def invSboxParts : List Nat :=
  [0xcbe9dec444438e3487ff2f9b8239e37cfbd7f3819ea340bf38a53630d56a0952,
   0x25d18b6d49a25b76b224d92866a12e084ec3fa420b954cee3d23c2a632947b54,
   0x849d8da75746155edab9edfd5048706c92b6655dcc5ca4d41698688664f6f872,
   0x6b8a130103bdafc1020f3fca8f1e2cd00645b3b80558e4f70ad3bc8c00abd890,
   0x6edf751ce837f9e28535ade72274ac9673e6b4f0cecff297eadc674f4111913a,
   0xf45acd78fec0db9a2079d2c64b3e56fc1bbe18aa0e62b76f89c5291d711af147,
   0xef9cc9939f7ae52d0d4ab519a97f51605fec8027591012b131c7078833a8dd1f,
   0x7d0c2155631469e126d677ba7e042b17619953833cbbebc8b0f52aae4d3be0a0]

/-- An entry of such a table. -/
def boxAt (parts : List Nat) (x : Byte) : Byte :=
  BitVec.ofNat 8 (parts.getD (x.toNat / 32) 0 / 2 ^ (8 * (x.toNat % 32)))

/-- The S-box (FIPS 197 section 5.1.1). -/
def subByte (x : Byte) : Byte := boxAt sboxParts x

/-- Its inverse (FIPS 197 section 5.3.2). -/
def invSubByte (x : Byte) : Byte := boxAt invSboxParts x

/-- Multiplication by x in the field of AES. -/
def xtime (b : Byte) : Byte := if b.getLsbD 7 then (b <<< 1) ^^^ 0x1B else b <<< 1

/-- Multiplication in the field of AES by a factor of four bits. -/
def gfMul (n : Nat) (b : Byte) : Byte :=
  let b2 := xtime b
  let b4 := xtime b2
  (if n.testBit 0 then b else 0) ^^^ (if n.testBit 1 then b2 else 0) ^^^ (if n.testBit 2 then b4 else 0)
    ^^^ (if n.testBit 3 then xtime b4 else 0)

/-- Two byte strings added in the field, byte by byte. -/
def xorBytes (a b : List Byte) : List Byte := a.zipWith (· ^^^ ·) b

/-- One column times the circulant matrix of a row of factors (FIPS 197 sections 5.1.3, 5.3.3). -/
def mixColumn (m : List Nat) (col : List Byte) : List Byte :=
  (List.range 4).map fun r => (List.range 4).foldl (fun acc k => acc ^^^ gfMul (m.getD ((k + 4 - r) % 4) 0) (col.getD k 0)) 0

/-- The columns of a block. -/
def columns (b : List Byte) : List (List Byte) := (List.range 4).map fun c => (b.drop (4 * c)).take 4

/-- MixColumns. -/
def mixColumns (b : List Byte) : List Byte := (columns b).flatMap (mixColumn [2, 3, 1, 1])

/-- InvMixColumns. -/
def invMixColumns (b : List Byte) : List Byte := (columns b).flatMap (mixColumn [14, 11, 13, 9])

/-- ShiftRows. -/
def shiftRows (b : List Byte) : List Byte := (List.range 16).map fun i => b.getD ((i + 4 * (i % 4)) % 16) 0

/-- InvShiftRows. -/
def invShiftRows (b : List Byte) : List Byte := (List.range 16).map fun i => b.getD ((i + 12 * (i % 4)) % 16) 0

/-- The words of the key schedule, newest first, extended by one: `n` words are there, `rcon` is the next round constant (FIPS 197
section 5.2). -/
def scheduleStep (n : Nat) (ws : List (List Byte)) : List Byte :=
  let last := ws.getD 0 []
  let old := ws.getD 7 []
  if n % 8 = 0 then
    let turned := (last.drop 1 ++ last.take 1).map subByte
    xorBytes old (xorBytes turned [BitVec.ofNat 8 (2 ^ (n / 8 - 1)), 0, 0, 0])
  else if n % 8 = 4 then xorBytes old (last.map subByte)
  else xorBytes old last

/-- `m` further words of the key schedule. -/
def scheduleFrom : Nat → Nat → List (List Byte) → List (List Byte)
  | 0, _, ws => ws
  | m + 1, n, ws => scheduleFrom m (n + 1) (scheduleStep n ws :: ws)

/-- The 15 round keys of a 32-byte key. -/
def roundKeys (key : List Byte) : List (List Byte) :=
  let first := (List.range 8).map fun i => ((key.drop (4 * i)).take 4)
  let ws := (scheduleFrom 52 8 first.reverse).reverse
  (List.range 15).map fun r => ((ws.drop (4 * r)).take 4).flatMap id

/-- AES-256 of a block (FIPS 197 section 5.1). -/
def aesEnc (key block : List Byte) : List Byte :=
  let ks := roundKeys key
  let b := xorBytes block (ks.getD 0 [])
  let b := (List.range 13).foldl (fun b i => xorBytes (mixColumns (shiftRows (b.map subByte))) (ks.getD (i + 1) [])) b
  xorBytes (shiftRows (b.map subByte)) (ks.getD 14 [])

/-- The inverse cipher (FIPS 197 section 5.3). -/
def aesDec (key block : List Byte) : List Byte :=
  let ks := roundKeys key
  let b := xorBytes block (ks.getD 14 [])
  let b := (List.range 13).foldl
    (fun b i => invMixColumns (xorBytes ((invShiftRows b).map invSubByte) (ks.getD (13 - i) []))) b
  xorBytes ((invShiftRows b).map invSubByte) (ks.getD 0 [])

/-! ### Numbers as bytes, most significant first -/

/-- Bytes of a number, most significant first. -/
def bytesBe (n x : Nat) : List Byte := (leBytes n x).reverse

/-- The number of bytes, most significant first. -/
def natBe (b : List Byte) : Nat := leNat b.reverse

/-! ### XTS: one 64-byte data unit (R486) -/

/-- The tweak of the next block (IEEE 1619 section 5.2). -/
def tweakNext (t : Nat) : Nat := if t / 2 ^ 127 % 2 = 1 then (2 * t % 2 ^ 128) ^^^ 0x87 else 2 * t

/-- The four blocks of a data unit, from a tweak on. -/
def xtsBlocks (f : List Byte → List Byte) : Nat → Nat → List Byte → List Byte
  | 0, _, _ => []
  | n + 1, t, b =>
    let tb := leBytes 16 t
    xorBytes (f (xorBytes (b.take 16) tb)) tb ++ xtsBlocks f n (tweakNext t) (b.drop 16)

/-- A sector's first tweak: its number PA[47:6], enciphered under the second key. -/
def xtsTweak (key : List Byte) (sector : Nat) : Nat := leNat (aesEnc (key.drop 32) (leBytes 16 sector))

/-- AES-256-XTS of a sector under two 32-byte keys; no key leaves it as it is (R486). -/
def xtsEnc (key : List Byte) (sector : Nat) (b : List Byte) : List Byte :=
  if key.isEmpty then b else xtsBlocks (aesEnc (key.take 32)) 4 (xtsTweak key sector) b

/-- The inverse. -/
def xtsDec (key : List Byte) (sector : Nat) (b : List Byte) : List Byte :=
  if key.isEmpty then b else xtsBlocks (aesDec (key.take 32)) 4 (xtsTweak key sector) b

/-- What one key material reads of a sector that reads as `d` under another (R486). -/
def xtsRead (old new : List Byte) (sector : Nat) (d : BitVec 512) : BitVec 512 :=
  BitVec.ofNat 512 (leNat (xtsDec new sector (xtsEnc old sector (leBytes 64 d.toNat))))

/-! ### GCM -/

/-- A product in the field of GHASH, both factors as numbers whose most significant bit is the first (SP 800-38D section 6.3). -/
def ghashMul (x y : Nat) : Nat :=
  ((List.range 128).foldl
    (fun (a : Nat × Nat) i =>
      (if x.testBit (127 - i) then a.1 ^^^ a.2 else a.1, if a.2 % 2 = 1 then (a.2 / 2) ^^^ (0xE1 * 2 ^ 120) else a.2 / 2))
    (0, y)).1

/-- GHASH over n blocks (SP 800-38D section 6.4). -/
def ghashFrom (h : Nat) : Nat → Nat → List Byte → Nat
  | 0, y, _ => y
  | n + 1, y, b => ghashFrom h n (ghashMul (y ^^^ natBe (b.take 16)) h) (b.drop 16)

/-- Bytes filled with zeros to whole blocks. -/
def padBlocks (b : List Byte) : List Byte := b ++ List.replicate ((16 - b.length % 16) % 16) 0

/-- The key stream of counter mode applied to bytes, n blocks from a counter block on (SP 800-38D section 6.5). -/
def ctrFrom (key nonce : List Byte) : Nat → Nat → List Byte → List Byte
  | 0, _, _ => []
  | n + 1, c, b =>
    xorBytes (b.take 16) (aesEnc key (nonce ++ bytesBe 4 c)) ++ ctrFrom key nonce n (c + 1) (b.drop 16)

/-- Counter mode over bytes; the counter of the first block is 2. -/
def gcmStream (key nonce b : List Byte) : List Byte := ctrFrom key nonce ((b.length + 15) / 16) 2 b

/-- The tag of GCM for a 12-byte nonce (SP 800-38D section 7.1). -/
def gcmTag (key nonce aad cipher : List Byte) : List Byte :=
  let h := natBe (aesEnc key (List.replicate 16 0))
  let text := padBlocks aad ++ padBlocks cipher ++ bytesBe 8 (8 * aad.length) ++ bytesBe 8 (8 * cipher.length)
  xorBytes (aesEnc key (nonce ++ bytesBe 4 1)) (bytesBe 16 (ghashFrom h (text.length / 16) 0 text))

/-- AES-256-GCM: ciphertext and 16-byte tag. -/
def gcmSeal (key nonce aad plain : List Byte) : List Byte × List Byte :=
  let c := gcmStream key nonce plain
  (c, gcmTag key nonce aad c)

/-- AES-256-GCM: the plain text, when the tag verifies. -/
def gcmOpen (key nonce aad cipher tag : List Byte) : Option (List Byte) :=
  if gcmTag key nonce aad cipher = tag then some (gcmStream key nonce cipher) else none

/-! ### SHA3-512 -/

/-- Rotation of a 64-bit lane to the left. -/
def rotl (n : Nat) (x : BitVec 64) : BitVec 64 := x.rotateLeft n

/-- Lane (x, y) of a state of 25 lanes. -/
def laneAt (a : List (BitVec 64)) (x y : Nat) : BitVec 64 := a.getD (x % 5 + 5 * (y % 5)) 0

/-- A state from its lanes. -/
def lanesOf25 (f : Nat → Nat → BitVec 64) : List (BitVec 64) := (List.range 25).map fun i => f (i % 5) (i / 5)

/-- The offsets of rho, lane by lane (FIPS 202 section 3.2.2). -/
def rhoOffsets : List Nat :=
  [0, 1, 62, 28, 27, 36, 44, 6, 55, 20, 3, 10, 43, 25, 39, 41, 45, 15, 21, 8, 18, 2, 61, 56, 14]

/-- The round constants of iota (FIPS 202 section 3.2.5). -/
def iotaConstants : List (BitVec 64) :=
  [0x0000000000000001, 0x0000000000008082, 0x800000000000808A, 0x8000000080008000, 0x000000000000808B, 0x0000000080000001,
   0x8000000080008081, 0x8000000000008009, 0x000000000000008A, 0x0000000000000088, 0x0000000080008009, 0x000000008000000A,
   0x000000008000808B, 0x800000000000008B, 0x8000000000008089, 0x8000000000008003, 0x8000000000008002, 0x8000000000000080,
   0x000000000000800A, 0x800000008000000A, 0x8000000080008081, 0x8000000000008080, 0x0000000080000001, 0x8000000080008008]

/-- One round of Keccak-f (FIPS 202 section 3.3). -/
def keccakRound (a : List (BitVec 64)) (rc : BitVec 64) : List (BitVec 64) :=
  let c := (List.range 5).map fun x => (List.range 5).foldl (fun acc y => acc ^^^ laneAt a x y) 0
  let d := (List.range 5).map fun x => c.getD ((x + 4) % 5) 0 ^^^ rotl 1 (c.getD ((x + 1) % 5) 0)
  let a := lanesOf25 fun x y => laneAt a x y ^^^ d.getD x 0
  let b := lanesOf25 fun x y =>
    let i := (x + 3 * y) % 5
    rotl (rhoOffsets.getD (i + 5 * x) 0) (laneAt a i x)
  (lanesOf25 fun x y => laneAt b x y ^^^ (~~~(laneAt b (x + 1) y) &&& laneAt b (x + 2) y)).modify 0 (· ^^^ rc)

/-- Keccak-f[1600]. -/
def keccakF (a : List (BitVec 64)) : List (BitVec 64) := iotaConstants.foldl keccakRound a

/-- n blocks of 72 bytes absorbed. -/
def absorb : Nat → List (BitVec 64) → List Byte → List (BitVec 64)
  | 0, a, _ => a
  | n + 1, a, b =>
    absorb n (keccakF (a.zipIdx.map fun x => x.1 ^^^ BitVec.ofNat 64 (leNat (((b.take 72).drop (8 * x.2)).take 8)))) (b.drop 72)

/-- The message with the suffix and the padding of SHA3 at a rate of 72 bytes (FIPS 202 sections 6.1, B.2). -/
def sha3Pad (b : List Byte) : List Byte :=
  let n := 72 - b.length % 72
  if n = 1 then b ++ [0x86] else b ++ [0x06] ++ List.replicate (n - 2) 0 ++ [0x80]

/-- SHA3-512 (R484, R495–R499). -/
def sha3 (b : List Byte) : List Byte :=
  let p := sha3Pad b
  ((absorb (p.length / 72) (List.replicate 25 0) p).take 8).flatMap fun x => leBytes 8 x.toNat

end Sys2Proof.Machine
end

