-- ==== Sys2Proof/Machine/Streams.lean ====
section
/-! DEFINITION. Byte-stream transforms: the sparse-block codec (R344), the checks of R349, raw Deflate (RFC 1951, log
14) and LZ4 blocks (R434, R435). -/

namespace Sys2Proof.Machine

/-! ### The sparse-block codec (R344) -/

/-- Bytes of a 256-byte line, given as words. -/
def wordsOf (b : List Byte) (n : Nat) : List Nat := (List.range n).map fun i => field b (4 * i) 4

/-- Codec form of 64 words; none when more than 62 are non-zero. -/
def codecEncode (ws : List Nat) : Option (List Byte) :=
  let nz := ws.filter (· != 0)
  if nz.length > 62 then none
  else
    let bm := (ws.zipIdx.foldl (fun acc e => if e.1 != 0 then acc + 2 ^ e.2 else acc) 0)
    some ((leBytes 8 bm ++ nz.flatMap (leBytes 4)) ++ List.replicate (248 - 4 * nz.length) 0)

/-- The 64 expanded words of a stored line; none where R346 raises BAD_BLOCK. -/
def codecDecode (flag : Bool) (line : List Byte) : Option (List Nat) :=
  if !flag then (if line.all (· == 0) then some (List.replicate 64 0) else none)
  else
    let bm := field line 0 8
    let n := popNat 64 bm
    if n > 62 then none
    else if (line.drop (8 + 4 * n)).all (· == 0) then
      some ((List.range 64).map fun i => if bm.testBit i then field line (8 + 4 * popNat i bm) 4 else 0)
    else none

/-! ### Checks (R349) -/

/-- One byte's eight steps. -/
def crcSteps (q : Nat) : Nat → Nat → Nat
  | 0, c => c
  | n + 1, c => crcSteps q n (if c % 2 = 1 then c / 2 ^^^ q else c / 2)

/-- The check of `w` bits with reflected constant `q` over bytes from a seed. -/
def crcOf (w q seed : Nat) (b : List Byte) : Nat :=
  let ones := 2 ^ w - 1
  (b.foldl (fun c d => crcSteps q 8 (c ^^^ d.toNat)) (seed ^^^ ones)) ^^^ ones

/-- CRC-32C. -/
def crc32c (seed : Nat) (b : List Byte) : Nat := crcOf 32 0x82F63B78 seed b

/-- CRC-64 of the NVM command set's guard. -/
def crc64 (seed : Nat) (b : List Byte) : Nat := crcOf 64 0x9A6C9329AC4BC9B5 seed b

/-! ### Decompression (R434, R435) -/

/-- Output of a decompression, newest byte first, and its length. -/
structure OutBuf where
  rev : List Byte
  len : Nat
  deriving DecidableEq, Repr

/-- How a decoding ended: whole, malformed (R435), or past the capacity. -/
inductive StreamEnd where
  | good | malformed | capacity
  deriving DecidableEq, Repr

/-- Appends a byte. -/
def OutBuf.put (o : OutBuf) (b : Byte) : OutBuf := ⟨b :: o.rev, o.len + 1⟩

/-- Copies `n` bytes from `dist` back, one at a time. -/
def OutBuf.copy (o : OutBuf) (dist : Nat) : Nat → OutBuf
  | 0 => o
  | n + 1 => (o.put (o.rev.getD (dist - 1) 0)).copy dist n

/-- Number `n` bits of a Deflate bit position, least significant first; none past the end. -/
def takeBits (b : List Nat) : Nat → Option (Nat × List Nat)
  | 0 => some (0, b)
  | n + 1 =>
    match b with
    | [] => none
    | x :: r => (takeBits r n).map fun (v, r') => (x + 2 * v, r')

/-- The bits of bytes, least significant bit of each byte first. -/
def bitsOf (b : List Byte) : List Nat :=
  b.flatMap fun x => (List.range 8).map fun i => if x.getLsbD i then 1 else 0

/-- A canonical Huffman code: for each length 1–15, the symbols of that length in order. -/
abbrev Huff := List (List Nat)

/-- The code of a list of lengths (RFC 1951 3.2.2). -/
def huffOf (lens : List Nat) : Huff :=
  (List.range 15).map fun l => (lens.zipIdx.filter fun e => e.1 = l + 1).map (·.2)

/-- Codes left over at the longest length: 0 for a complete code, negative when oversubscribed. -/
def huffLeft (h : Huff) : Int := h.foldl (fun left s => 2 * left - s.length) 1

/-- Decodes one symbol: `code` and `first` as RFC 1951 numbers codes of each length. -/
def huffSym : Huff → List Nat → Nat → Nat → Option (Nat × List Nat)
  | [], _, _, _ => none
  | s :: h, b, code, first =>
    match b with
    | [] => none
    | x :: r =>
      let code := 2 * code + x
      let first := 2 * first
      if code < first + s.length then some (s.getD (code - first) 0, r)
      else huffSym h r code (first + s.length)

/-- Base and extra bits of length codes 257–285. -/
def lenTable : List (Nat × Nat) :=
  [(3, 0), (4, 0), (5, 0), (6, 0), (7, 0), (8, 0), (9, 0), (10, 0), (11, 1), (13, 1), (15, 1), (17, 1), (19, 2), (23, 2),
   (27, 2), (31, 2), (35, 3), (43, 3), (51, 3), (59, 3), (67, 4), (83, 4), (99, 4), (115, 4), (131, 5), (163, 5),
   (195, 5), (227, 5), (258, 0)]

/-- Base and extra bits of distance codes 0–29. -/
def distTable : List (Nat × Nat) :=
  [(1, 0), (2, 0), (3, 0), (4, 0), (5, 1), (7, 1), (9, 2), (13, 2), (17, 3), (25, 3), (33, 4), (49, 4), (65, 5), (97, 5),
   (129, 6), (193, 6), (257, 7), (385, 7), (513, 8), (769, 8), (1025, 9), (1537, 9), (2049, 10), (3073, 10), (4097, 11),
   (6145, 11), (8193, 12), (12289, 12), (16385, 13), (24577, 13)]

/-- Symbols of one compressed block; `fuel` exceeds the input's bits. -/
def inflateSyms (cap : Nat) (hl hd : Huff) : Nat → List Nat → OutBuf → OutBuf × StreamEnd × List Nat
  | 0, b, o => (o, .malformed, b)
  | fuel + 1, b, o =>
    if o.len > cap then (o, .capacity, b)
    else
      match huffSym hl b 0 0 with
      | none => (o, .malformed, b)
      | some (sym, b1) =>
        if sym < 256 then inflateSyms cap hl hd fuel b1 (o.put (BitVec.ofNat 8 sym))
        else if sym = 256 then (o, .good, b1)
        else if sym > 285 then (o, .malformed, b1)
        else
          let le := lenTable.getD (sym - 257) (0, 0)
          match takeBits b1 le.2 with
          | none => (o, .malformed, b1)
          | some (lx, b2) =>
            match huffSym hd b2 0 0 with
            | none => (o, .malformed, b2)
            | some (ds, b3) =>
              if ds > 29 then (o, .malformed, b3)
              else
                let de := distTable.getD ds (0, 0)
                match takeBits b3 de.2 with
                | none => (o, .malformed, b3)
                | some (dx, b4) =>
                  let dist := de.1 + dx
                  if dist > o.len then (o, .malformed, b4)
                  else inflateSyms cap hl hd fuel b4 (o.copy dist (le.1 + lx))

/-- Code lengths of a dynamic block (RFC 1951 3.2.7): `want` lengths, newest first in `acc`. -/
def readLens (hc : Huff) : Nat → Nat → List Nat → List Nat → Option (List Nat × List Nat)
  | 0, _, _, _ => none
  | fuel + 1, want, acc, b =>
    if acc.length = want then some (acc.reverse, b)
    else if acc.length > want then none
    else
      match huffSym hc b 0 0 with
      | none => none
      | some (sym, b1) =>
        if sym < 16 then readLens hc fuel want (sym :: acc) b1
        else if sym = 16 then
          match acc, takeBits b1 2 with
          | p :: _, some (n, b2) => readLens hc fuel want (List.replicate (3 + n) p ++ acc) b2
          | _, _ => none
        else
          match takeBits b1 (if sym = 17 then 3 else 7) with
          | some (n, b2) => readLens hc fuel want (List.replicate ((if sym = 17 then 3 else 11) + n) 0 ++ acc) b2
          | none => none

/-- The order in which the lengths of the code-length code stand. -/
def clOrder : List Nat := [16, 17, 18, 0, 8, 7, 9, 6, 10, 5, 11, 4, 12, 3, 13, 2, 14, 1, 15]

/-- The two codes of a dynamic block; none where RFC 1951 calls the block invalid. A block may give 31 or 32 distance codes, of which
the last two name no distance (RFC 1951 3.2.6, 3.2.7). DESIGN CHOICE (log 14): a literal or code-length code that is not complete, of a
single one-bit code too, makes the block invalid. -/
def dynCodes (b : List Nat) : Option (Huff × Huff × List Nat) :=
  match takeBits b 14 with
  | none => none
  | some (h, b1) =>
    let nl := h % 32 + 257
    let nd := h / 32 % 32 + 1
    let nc := h / 1024 + 4
    if nl > 286 then none
    else
      match takeBits b1 (3 * nc) with
      | none => none
      | some (cl, b2) =>
        let lens := (List.range 19).map fun s =>
          match clOrder.findIdx? (· == s) with
          | some i => if i < nc then cl / 8 ^ i % 8 else 0
          | none => 0
        let hc := huffOf lens
        if huffLeft hc ≠ 0 then none
        else
          match readLens hc 400 (nl + nd) [] b2 with
          | none => none
          | some (ls, b3) =>
            let ll := ls.take nl
            let ld := ls.drop nl
            let hl := huffOf ll
            let hd := huffOf ld
            -- an incomplete code is valid only when it has a single code of one bit
            let okL := huffLeft hl = 0
            let okD := huffLeft hd = 0 ∨ (ld.filter (· ≠ 0) = [1]) ∨ (ld.all (· == 0))
            if ll.getD 256 0 = 0 ∨ ¬okL ∨ ¬okD then none else some (hl, hd, b3)

/-- The codes of a fixed block (RFC 1951 3.2.6). -/
def fixedLit : Huff :=
  huffOf (List.replicate 144 8 ++ List.replicate 112 9 ++ List.replicate 24 7 ++ List.replicate 8 8)

/-- Deflate blocks; bits are consumed with their count so that stored blocks align. -/
def inflateBlocks (cap : Nat) (total : Nat) : Nat → List Nat → OutBuf → OutBuf × StreamEnd
  | 0, _, o => (o, .malformed)
  | fuel + 1, b, o =>
    match takeBits b 3 with
    | none => (o, .malformed)
    | some (hdr, b1) =>
      let goOn (o' : OutBuf) (e : StreamEnd) (r : List Nat) : OutBuf × StreamEnd :=
        match e with
        | .good => if o'.len > cap then (o', .capacity) else if hdr % 2 = 1 then (o', .good)
          else inflateBlocks cap total fuel r o'
        | _ => (o', e)
      match hdr / 2 with
      | 0 =>
        let used := total - b1.length
        let b2 := b1.drop ((8 - used % 8) % 8)
        match takeBits b2 32 with
        | none => (o, .malformed)
        | some (ln, b3) =>
          let n := ln % 65536
          if n + ln / 65536 ≠ 65535 then (o, .malformed)
          else
            let have_ := min n (b3.length / 8)
            let o' := (List.range have_).foldl
              (fun (acc : OutBuf × List Nat) _ =>
                match takeBits acc.2 8 with
                | some (v, r) => (acc.1.put (BitVec.ofNat 8 v), r)
                | none => acc) (o, b3)
            if have_ < n then (o'.1, if o'.1.len > cap then .capacity else .malformed) else goOn o'.1 .good o'.2
      | 1 =>
        let (o', e, r) := inflateSyms cap fixedLit (huffOf (List.replicate 32 5)) (b1.length + 1) b1 o
        goOn o' e r
      | 2 =>
        match dynCodes b1 with
        | none => (o, .malformed)
        | some (hl, hd, b2) =>
          let (o', e, r) := inflateSyms cap hl hd (b2.length + 1) b2 o
          goOn o' e r
      | _ => (o, .malformed)

/-- Raw Deflate: the bytes produced, in order, and how it ended. -/
def inflate (cap : Nat) (src : List Byte) : List Byte × StreamEnd :=
  let bits := bitsOf src
  let (o, e) := inflateBlocks cap bits.length (bits.length + 1) bits ⟨[], 0⟩
  (o.rev.reverse, if o.len > cap then .capacity else e)

/-- An LZ4 length: 15 in the token adds bytes until one below 255. -/
def lz4Len : List Byte → Nat → Option (Nat × List Byte)
  | [], _ => none
  | x :: r, n => if x = 255 then lz4Len r (n + 255) else some (n + x.toNat, r)

/-- LZ4 sequences; `fuel` exceeds the input's bytes. -/
def lz4Seqs (cap : Nat) : Nat → List Byte → OutBuf → OutBuf × StreamEnd
  | 0, _, o => (o, .malformed)
  | fuel + 1, b, o =>
    if o.len > cap then (o, .capacity)
    else
      match b with
      | [] => (o, .malformed)
      | t :: r =>
        let lit := t.toNat / 16
        match (if lit = 15 then lz4Len r 15 else some (lit, r)) with
        | none => (o, .malformed)
        | some (n, r1) =>
          let o1 := (r1.take n).foldl OutBuf.put o
          if r1.length < n then (o1, .malformed)
          else
            let r2 := r1.drop n
            match r2 with
            | [] => (o1, .good)
            | [_] => (o1, .malformed)
            | x :: y :: r3 =>
              let off := x.toNat + 256 * y.toNat
              let ml := t.toNat % 16
              match (if ml = 15 then lz4Len r3 15 else some (ml, r3)) with
              | none => (o1, .malformed)
              | some (m, r4) =>
                if off = 0 ∨ off > o1.len then (o1, .malformed)
                else if r4 = [] then
                  -- the last sequence carries a match (R435)
                  (o1, .malformed)
                else lz4Seqs cap fuel r4 (o1.copy off (m + 4))

/-- An LZ4 block: the bytes produced, in order, and how it ended. -/
def lz4 (cap : Nat) (src : List Byte) : List Byte × StreamEnd :=
  let (o, e) := lz4Seqs cap (src.length + 1) src ⟨[], 0⟩
  (o.rev.reverse, if o.len > cap then .capacity else e)

end Sys2Proof.Machine
end

