-- ==== Sys2Proof/Machine/Mem.lean ====
section
/-! DEFINITION. The memory system (spec/09_memory_hierarchy.md, spec/10_consistency_model.md): homes, sector copies,
translation, windows' home side, the remote-data cache, poison, codec lines, and the local effects of releases and
acquires. Every write to DRAM goes through `dramWrite`. -/

namespace Sys2Proof.Machine

/-! ### Small accessors -/

/-- The core `k`; an unlisted core is as reset left it. -/
def getCore (s : State) (k : Nat) : Core := (tget s.cores k).getD Core.reset

/-- Writes core `k`. -/
def setCore (s : State) (k : Nat) (c : Core) : State := { s with cores := tset s.cores k c }

/-- Group `gid`. -/
def getGroup (s : State) (gid : Nat) : Option Group := tget s.groups gid

/-- Writes group `gid`. -/
def setGroup (s : State) (gid : Nat) (g : Group) : State := { s with groups := tset s.groups gid g }

/-- Team `tid`. -/
def getTeam (s : State) (tid : Nat) : Option Team := tget s.teams tid

/-- Writes team `tid`. -/
def setTeam (s : State) (tid : Nat) (t : Team) : State := { s with teams := tset s.teams tid t }

/-- Writes the memory system. -/
def setMem (s : State) (m : Mem) : State := { s with mem := m }

/-- A fresh number, in order of asking. -/
def takeId (s : State) : State × Nat := ({ s with nextId := s.nextId + 1 }, s.nextId)

/-- Crown of a core (R10). -/
def crownOf (k : Nat) : Nat := k / 64

/-- Bough of a core, numbered through the device (R10). -/
def boughOf (k : Nat) : Nat := k / 8

/-- `%time` in nanoseconds: 2.1 cycles each (R18, R19). -/
def timeOf (s : State) : Nat := s.cycle * 10 / 21

/-- Whether a cached copy is still held, asked afresh (log 5). -/
def drawKeep (s : State) : State × Bool := ({ s with fresh := s.fresh + 1 }, Config.keep s.fresh)

/-- Who makes an access: core, team, partition, context. -/
structure Who where
  core : Nat
  team : Nat
  part : Nat
  ctx : Nat
  deriving DecidableEq, Repr

/-- The owner tag of R251. -/
def Who.tag (w : Who) : BitVec 16 := BitVec.ofNat 16 (w.part * 1024 + w.ctx)

/-! ### Sector data -/

/-- Bits of the bytes a byte mask names. -/
def byteBits (bm : BitVec 64) : BitVec 512 :=
  BitVec.ofNat 512 ((List.range 64).foldl (fun acc i => if bm.getLsbD i then acc + 0xFF * 2 ^ (8 * i) else acc) 0)

/-- The byte mask of a word mask. -/
def wordBytes (wm : BitVec 16) : BitVec 64 :=
  BitVec.ofNat 64 ((List.range 16).foldl (fun acc i => if wm.getLsbD i then acc + 0xF * 2 ^ (4 * i) else acc) 0)

/-- The words a byte mask touches. -/
def wordsTouched (bm : BitVec 64) : BitVec 16 :=
  BitVec.ofNat 16 ((List.range 16).foldl (fun acc i => if bm.extractLsb' (4 * i) 4 != 0 then acc + 2 ^ i else acc) 0)

/-- The words a byte mask covers whole. -/
def wordsWhole (bm : BitVec 64) : BitVec 16 :=
  BitVec.ofNat 16 ((List.range 16).foldl (fun acc i => if bm.extractLsb' (4 * i) 4 == 0xF then acc + 2 ^ i else acc) 0)

/-- `new` where the mask says, `old` elsewhere. -/
def mergeBytes (old new : BitVec 512) (bm : BitVec 64) : BitVec 512 :=
  let b := byteBits bm
  (new &&& b) ||| (old &&& ~~~b)

/-- Byte `i` of a sector's data. -/
def byteOf (d : BitVec 512) (i : Nat) : Byte := d.extractLsb' (8 * i) 8

/-- Bytes `lo` … `lo + n − 1` of a sector's data. -/
def bytesAt (d : BitVec 512) (lo n : Nat) : List Byte := (List.range n).map fun i => byteOf d (lo + i)

/-- Sector data with bytes placed from `lo`, and their mask. -/
def placeBytes (lo : Nat) (b : List Byte) : BitVec 512 × BitVec 64 :=
  (BitVec.ofNat 512 (leNat b * 2 ^ (8 * lo)), BitVec.ofNat 64 ((2 ^ b.length - 1) * 2 ^ lo))

/-! ### Homes -/

/-- What DRAM holds of a sector. -/
def homeData (s : State) (σ : Nat) : BitVec 512 := BitVec.ofNat 512 (leNat (crange s.mem.dram (64 * σ) 64))

/-- Bytes of DRAM written under a byte mask: the one place where memory changes. -/
def dramWrite (dram : List Host.Cell) (σ : Nat) (bm : BitVec 64) (d : BitVec 512) : List Host.Cell :=
  (List.range 64).foldl
    (fun acc i => if bm.getLsbD i then cset (w := 8) acc (64 * σ + i) (byteOf d i) else acc) dram

/-- The material that a partition's key ID stands for: none for key 0, and for an ID without a loaded key (R486). -/
def keyOf (s : State) (part key : Nat) : List Byte :=
  match tget s.parts part with
  | some p => if key = 0 then [] else (tget p.keys key).getD []
  | none => []

/-- The material of the key with which the device reaches page tables, the fault queue and save slots (R484, R487). -/
def keyLoOf (s : State) (part : Nat) : List Byte :=
  match tget s.parts part with
  | some p => keyOf s part p.body.keyLo
  | none => []

/-- A frame's DRAM as another key material reads it (R486). -/
def rekeyData (old new : List Byte) (frame : Nat) (dram : List Host.Cell) : List Host.Cell :=
  (List.range 1024).foldl
    (fun d i =>
      let σ := 1024 * frame + i
      dramWrite d σ (BitVec.allOnes 64) (xtsRead old new σ (BitVec.ofNat 512 (leNat (crange d (64 * σ) 64))))) dram

/-- An access with a key material reaches a frame (R486). DESIGN CHOICE (log 73): a frame in which nothing is listed reads zero under
every key. -/
def rekeyFrame (s : State) (frame : Nat) (k : List Byte) : State :=
  let old := (tget s.mem.pageKeys frame).getD []
  if old = k then s
  else
    let keys := if k.isEmpty then tdel s.mem.pageKeys frame else tset s.mem.pageKeys frame k
    let dram := if s.mem.dram.any fun c => c.1 / 65536 == frame then rekeyData old k frame s.mem.dram else s.mem.dram
    { s with mem := { s.mem with pageKeys := keys, dram := dram } }

/-- The device's own access to n bytes of a partition, with the key KEYLO (R484, R487). -/
def rekeyOwn (s : State) (part pa n : Nat) : State :=
  (List.range ((pa + n - 1) / 65536 + 1 - pa / 65536)).foldl (fun s i => rekeyFrame s (pa / 65536 + i) (keyLoOf s part)) s

/-- The key material that a sector's frame is held as read with. -/
def frameKey (s : State) (σ : Nat) : List Byte := (tget s.mem.pageKeys (σ / 1024)).getD []

/-- What is done to a sector's home under another key material; other accesses go on as the frame is held (R486). -/
def underKey (s : State) (σ : Nat) (k : List Byte) (f : State → State) : State :=
  rekeyFrame (f (rekeyFrame s (σ / 1024) k)) (σ / 1024) (frameKey s σ)

/-- What the device's agents see of a sector: the owner's data, else the home's (R230, R231). -/
def sectorNow (s : State) (σ : Nat) : BitVec 512 :=
  match s.mem.copies.find? fun c => c.sector == σ && c.st == .owned with
  | some c => c.data
  | none => homeData s σ

/-- A line is about to be written: while a grid runs, what it holds is noted, since the grid may still fetch it (R114). -/
def noteOld (s : State) (σ : Nat) : State :=
  let line := σ / 4
  if s.grids.any fun g => g.2.st == .eligible then
    { s with mem := { s.mem with olds := s.mem.olds ++
        [⟨line, (List.range 4).flatMap fun i => bytesAt (sectorNow s (4 * line + i)) 0 64, s.mem.codec.contains line⟩] } }
  else s

/-- The partition that an address of DRAM is assigned to. -/
def ownerOf (s : State) (pa : Nat) : Nat :=
  match s.parts.find? fun p => p.2.body.granules.getLsbD (pa / 2 ^ 34) with
  | some p => p.1
  | none => 0

/-- An access through a translation captured earlier reaches its frame with the translation's key (R486). -/
def reachKept (s : State) (part : Nat) (l : Leaf) (pa : Nat) : State := rekeyFrame s (pa / 65536) (keyOf s part l.key.toNat)

/-- A group that watches a sector is to test again (R325). -/
def pokeGroup (σ : Nat) (g : Group) : Group :=
  match g.wait with
  | .watch l _ => if l.contains σ then { g with poked := true } else g
  | _ => g

/-- The scheduler is to read a tail word in a sector again (R408). -/
def pokeTail (σ : Nat) (t : TailWatch) : TailWatch := if t.pa / 64 = σ then { t with due := true } else t

/-- A write to a sector at its home reaches those that watch it (R325, R408). -/
def pokeWatchers (s : State) (σ : Nat) : State :=
  { s with groups := tmap s.groups fun _ g => pokeGroup σ g, tails := tmap s.tails fun _ t => pokeTail σ t }

/-- Sets or clears a number in a list kept without repeats. -/
def setIn (l : List Nat) (n : Nat) (on : Bool) : List Nat :=
  if on then (if l.contains n then l else n :: l) else l.filter (· != n)

/-- A write as the home performs it: bytes, owner tag, codec flag, watches (R231, R251, R325, R345). -/
def rawHome (s : State) (σ : Nat) (bm : BitVec 64) (d : BitVec 512) (tag : BitVec 16) (codec : Bool) : State :=
  let s := noteOld s σ
  pokeWatchers
    { s with mem := { s.mem with
        dram := dramWrite s.mem.dram σ bm d
        tags := cset s.mem.tags σ tag
        codec := setIn s.mem.codec (σ / 4) codec } } σ

/-- Sectors that a waiting group or the scheduler watches, so that ownership is not granted (R325, R408, R410). -/
def watched (s : State) (σ : Nat) : Bool :=
  (s.groups.any fun e =>
    match e.2.wait with
    | .watch l _ => l.contains σ
    | _ => false)
  || (s.tails.any fun t => t.2.pa / 64 == σ && match tget s.queues t.1 with | some q => q.enabled | none => false)
  || s.grids.any fun g => g.2.st == .read && g.2.waits.any fun w => if w.2.2.cmp then w.1 / 256 == σ / 4 else w.1 / 64 == σ

/-- The copy that an agent holds of a sector. -/
def copyOf (s : State) (agent σ : Nat) : Option Copy := s.mem.copies.find? fun c => c.agent == agent && c.sector == σ

/-- Drops an agent's copy of a sector. -/
def dropCopy (s : State) (agent σ : Nat) : State :=
  { s with mem := { s.mem with copies := s.mem.copies.filter fun c => !(c.agent == agent && c.sector == σ) } }

/-- Writes an agent's copy of a sector, held as the sector's frame is read now (R486). -/
def putCopy (s : State) (c : Copy) : State :=
  let c := { c with key := frameKey s c.sector }
  let s := dropCopy (if c.st = .owned && c.dirty != 0 then noteOld s c.sector else s) c.agent c.sector
  { s with mem := { s.mem with copies := c :: s.mem.copies } }

/-- The sectors of a window that lie in a physical sector: one for each captured page on its frame. -/
def windowSectors (w : Window) (σ : Nat) : List Nat :=
  w.pages.filterMap fun e =>
    if (e.2.frame.toNat * 65536 + e.1 * 65536 % 2 ^ e.2.shift) / 65536 = σ / 1024 then
      let va := e.1 * 65536 + σ % 1024 * 64
      if w.base.toNat ≤ va ∧ va < w.base.toNat + w.len then some ((va - w.base.toNat) / 64) else none
    else none

/-- V cleared on the clean words named of one sector of a tracked window, but those that zero-no-fill mode gave (R237, R238). -/
def invalidateAt (wm : BitVec 16) (w : Window) (i : Nat) : Window :=
  { w with vbits := cset w.vbits i (cget w.vbits i &&& ~~~(wm &&& ~~~(cget w.dbits i) &&& ~~~(cget w.given i))) }

/-- V cleared on the clean words named of one tracked window (R238). -/
def invalidateWindow (σ : Nat) (wm : BitVec 16) (keep : Option (Nat × Nat)) (w : Window) : Window :=
  if w.ft != .own || keep == some (w.core, w.index) then w else (windowSectors w σ).foldl (invalidateAt wm) w

/-- A write or a grant of ownership at home clears V on the clean words it names of every tracked window (R231, R238),
the window `keep` itself excepted. -/
def invalidateWindows (s : State) (σ : Nat) (wm : BitVec 16) (keep : Option (Nat × Nat)) : State :=
  { s with mem := { s.mem with windows := s.mem.windows.map (invalidateWindow σ wm keep) } }

/-- Sets or clears a sector's poison. -/
def setPoison (s : State) (σ : Nat) (on : Bool) : State := { s with mem := { s.mem with poison := setIn s.mem.poison σ on } }

/-- An owned dirty sector written back whole, under the key of its copy (R228, R230, R486); the write clears its poison (R490). -/
def backWhole (s : State) (c : Copy) : State :=
  underKey s c.sector c.key fun s => rawHome (setPoison s c.sector false) c.sector (BitVec.allOnes 64) c.data c.tag false

/-- The owner's dirty sector written back at home, and the owner left without a copy (R230, R231). -/
def recallOwner (s : State) (σ : Nat) : State :=
  match s.mem.copies.find? (fun c => c.sector == σ && c.st == .owned) with
  | none => s
  | some c =>
    let s := dropCopy s c.agent σ
    if c.dirty = 0 then s else backWhole s c

/-- Drops every tracked copy of a sector (R231). -/
def dropTracked (s : State) (σ : Nat) : State :=
  { s with mem := { s.mem with copies := s.mem.copies.filter fun c => !(c.sector == σ && c.st != .untracked) } }

/-- A crown's remote-data cache drops a sector (R243). -/
def rdcDrop (s : State) (crown σ : Nat) : State :=
  { s with mem := { s.mem with rdc := s.mem.rdc.filter fun e => !(e.crown == crown && e.sector == σ) } }

/-- Every remote-data cache drops a sector (engine and host writes, R243, R310). -/
def rdcDropAll (s : State) (σ : Nat) : State :=
  { s with mem := { s.mem with rdc := s.mem.rdc.filter fun e => e.sector != σ } }

/-- Crown that homes a sector (R14, R15). -/
def crownAt (σ : Nat) : Nat := σ * 64 / 2 ^ 38

/-- The home slice of a physical address, numbered through the device: 48 to a crown (R15). -/
def homeSlice (pa : Nat) : Nat :=
  let h := (pa / 2 ^ 8 % 4096) ^^^ (pa / 2 ^ 20 % 4096) ^^^ (pa / 2 ^ 32 % 64)
  3 * (pa / 2 ^ 34) + h % 3

/-- A loss noted: the context ends in the next step (R489–R491). -/
def noteLost (s : State) (l : Lost) : State := { s with mem := { s.mem with lost := s.mem.lost ++ [l] } }

/-- The loss of a discarded write (R490): of a core, and of a team where it is known that the team wrote (R467). -/
def lostWrite (tag : BitVec 16) (σ : Nat) (core : Nat) (team : Option Nat) : Lost :=
  ⟨tag.toNat / 1024, tag.toNat % 1024, 15, 2, 64 * σ, core, team⟩

/-- The number that stands for no core: the scheduler's and the port die's (R467). -/
def noCore : Nat := 0xFFFF

/-- What a crown's remote-data cache holds of a line homed elsewhere is dropped when the crown stores to it, or when a lane of it has
seen the home's contents, so that none goes back (R243, R258). -/
def rdcPass (s : State) (crown σ : Nat) : State := if crown = crownAt σ then s else rdcDrop s crown σ

/-- Kind number of the metadata cache's copies (R227). -/
def heldMeta : Nat := 2

/-- A core's metadata cache drops a sector (R227): a cursor write of the core has touched it, or the core has come to hold a value of
it that a copy may not go back behind (R258). -/
def metaPass (s : State) (core σ : Nat) : State :=
  { s with mem := { s.mem with held := s.mem.held.filter fun e => !(e.core == core && e.kind == heldMeta && e.num == σ) } }

/-- A core passes by the copies that its crown and its metadata cache hold of a sector: they drop it (R227, R243, R258). -/
def corePass (s : State) (core σ : Nat) : State := metaPass (rdcPass s (crownOf core) σ) core σ

/-- A write that reaches a home (R231, R490): recalls, invalidations, then the bytes. A write to a poisoned sector that
does not cover it whole is discarded and its context is lost. `keep`: the window that writes back. -/
def homeWrite (s : State) (crown σ : Nat) (bm : BitVec 64) (d : BitVec 512) (tag : BitVec 16) (codec : Bool)
    (keep : Option (Nat × Nat)) : State :=
  if bm = 0 then s
  else if s.mem.poison.contains σ && bm != BitVec.allOnes 64 then noteLost s (lostWrite tag σ noCore none)
  else
    let s := recallOwner s σ
    let s := invalidateWindows (dropTracked s σ) σ (wordsTouched bm) keep
    rawHome (rdcPass (setPoison s σ false) crown σ) σ bm d tag codec

/-- Crown of an agent that holds copies. -/
def agentCrown (a : Nat) : Nat := if a < 256 then crownOf a else (a - 256) / 8

/-- The losses noted since an earlier state, of which no core is known yet, are those of a core's write, and of a team's where one is
known to have written (R467). -/
def claim (before : State) (core : Nat) (team : Option Nat) (s : State) : State :=
  let n := before.mem.lost.length
  let mine (l : Lost) : Lost := if l.core = noCore ∧ core < 256 then { l with core := core, team := team } else l
  { s with mem := { s.mem with lost := s.mem.lost.take n ++ (s.mem.lost.drop n).map mine } }

/-- Dirty words of an untracked copy, those of a mask, pushed home under the key of the copy; the copy keeps its data (R230, R265,
R486). -/
def pushWords (s : State) (c : Copy) (wm : BitVec 16) : State :=
  claim s c.agent none <| underKey s c.sector c.key fun s =>
    homeWrite (putCopy s { c with dirty := c.dirty &&& ~~~wm }) (agentCrown c.agent) c.sector (wordBytes (c.dirty &&& wm)) c.data c.tag
      false none

/-- An untracked copy's dirty words pushed home, or an owned dirty sector written back whole; the copy keeps its data and is clean
(R230). -/
def pushCopy (s : State) (c : Copy) : State :=
  if c.dirty = 0 then s
  else
    match c.st with
    | .untracked => pushWords s c (BitVec.allOnes 16)
    | _ => backWhole (putCopy s { c with dirty := 0 }) c

/-- Pushes an agent's dirty words of a sector and drops the copy (R232). -/
def evict (s : State) (agent σ : Nat) : State :=
  match copyOf s agent σ with
  | some c => dropCopy (pushCopy s c) agent σ
  | none => s

/-- An L1 may evict an untracked copy at any time: for each one of the sector it is asked whether it is still held
(R230, log 5). -/
def settle (s : State) (σ : Nat) : State :=
  (s.mem.copies.filter fun c => c.sector == σ && c.st == .untracked).foldl
    (fun s c =>
      let (s, k) := drawKeep s
      if k then s else evict s c.agent σ) s

/-- A core's next read of a sector goes to its home: its own copy goes there first, so that its earlier stores are seen, and its crown
and its metadata cache drop theirs (R232, R258). -/
def clearWay (s : State) (core σ : Nat) : State := corePass (evict (settle s σ) core σ) core σ

/-- Lines of an L1 data cache of `l1` granules (R12, R226). -/
def l1Lines (l1 : Nat) : Nat := 512 * l1

/-- A copy enters its agent's cache; an L1 that then holds more lines than it has room for evicts its oldest line (R226). -/
def fillCopy (s : State) (c : Copy) : State :=
  let s := putCopy s c
  let mine := distinct ((s.mem.copies.filter fun x => x.agent == c.agent).map (·.sector / 4))
  if c.agent ≥ 256 ∨ mine.length ≤ l1Lines (getCore s c.agent).split.l1 then s
  else
    match mine.getLast? with
    | some line => (List.range 4).foldl (fun s i => evict s c.agent (4 * line + i)) s
    | none => s

/-- What a home answers to an uncached read: the owner's words recalled (R231). -/
def homeRead (s : State) (σ : Nat) : State × BitVec 512 :=
  let s := recallOwner (settle s σ) σ
  (s, homeData s σ)

/-! ### Translation (R216–R225, R16, R487) -/

/-- Why an access by address fails: a cause of R468, a poisoned sector, or a line no codec form (R346). -/
inductive XErr where
  | page (cause : Nat)
  | lost (pa : Nat)
  | bad
  deriving DecidableEq, Repr

/-- Kinds of access to a page. -/
inductive Kind where
  | read | write | fetch
  deriving DecidableEq, Repr

/-- Canonical addresses (R216). -/
def canonical (va : DWord) : Bool :=
  let top := va.toNat / 2 ^ 56
  top == 0 || top == 255

/-- Whether a physical address is DRAM of an active channel group of the partition (R16). Nothing is addressed to a dead home (R493);
DESIGN CHOICE (log 49): what it homes is out of reach as an inactive group's is. -/
def isDram (s : State) (part pa : Nat) : Bool :=
  decide (pa < 2 ^ 40) && !s.offGranules.contains (pa / 2 ^ 34) && !s.deadAgents.contains (512 + homeSlice pa)
    && match tget s.parts part with
      | some p => p.body.granules.getLsbD (pa / 2 ^ 34)
      | none => false

/-- The KEY check (R487). -/
def keyOk (s : State) (part key : Nat) : Bool :=
  match tget s.parts part with
  | some p =>
    if key = 0 then p.body.plain
    else decide (p.body.keyLo ≤ key) && decide (key < p.body.keyLo + p.body.keyN) && (tget p.keys key).isSome
  | none => false

/-- An 8-byte uncached read at home (R221). -/
def homeRead64 (s : State) (pa : Nat) : State × Nat :=
  let (s, d) := homeRead s (pa / 64)
  (s, d.toNat / 2 ^ (8 * (pa % 64)) % 2 ^ 64)

/-- A bit of a page-table entry. -/
def pteBits (pte lo n : Nat) : Nat := pte / 2 ^ lo % 2 ^ n

/-- Whether a page-table entry is malformed at its level (R221). -/
def pteMalformed (pte lvl : Nat) : Bool :=
  let leaf := pteBits pte 3 1 == 1
  let frame := pteBits pte 6 32
  pteBits pte 38 8 != 0 || pteBits pte 4 2 != 0 || decide (pteBits pte 47 2 ≥ 2)
    || (leaf && lvl == 3) || (!leaf && lvl == 0)
    || (!leaf && (pteBits pte 62 2 != 0 || pteBits pte 49 13 != 0 || pteBits pte 47 2 != 0 || pteBits pte 46 1 != 0
          || pteBits pte 2 1 != 0 || pteBits pte 1 1 != 0))
    || (leaf && lvl == 1 && frame % 2 ^ 12 != 0) || (leaf && lvl == 2 && frame % 2 ^ 24 != 0)

/-- The level's index of an address (R219). -/
def pteIndex (va : DWord) (lvl : Nat) : Nat :=
  let v := va.toNat
  match lvl with
  | 3 => v / 2 ^ 52 % 32
  | 2 => v / 2 ^ 40 % 4096
  | 1 => v / 2 ^ 28 % 4096
  | _ => v / 2 ^ 16 % 4096

/-- The leaf a page-table entry holds. -/
def leafOf (pte lvl : Nat) : Leaf where
  frame := BitVec.ofNat 32 (pteBits pte 6 32)
  shift := match lvl with | 2 => 40 | 1 => 28 | _ => 16
  key := BitVec.ofNat 13 (pteBits pte 49 13)
  cmp := pteBits pte 47 2 == 1
  sa := pteBits pte 46 1 == 1
  rt := match pteBits pte 62 2 with | 0 => .own | 1 => .wt | 2 => .si | _ => .uc
  w := pteBits pte 1 1 == 1
  x := pteBits pte 2 1 == 1

/-- The walk from level `lvl − 1` down with the table at `t` (R221), each read with the key KEYLO (R487). DESIGN CHOICE (log 69): an entry whose table is no DRAM of the
partition is malformed, as R221 lists it, where R16 has NOT_DRAM for the address of a table. -/
def walk (part : Nat) (va : DWord) : Nat → State → Nat → State × Except XErr Leaf
  | 0, s, _ => (s, .error (.page 3))
  | lvl + 1, s, t =>
    let pa := t + pteIndex va lvl * 8
    if s.mem.poison.contains (pa / 64) then (s, .error (.lost pa))
    else
      let (s, pte) := homeRead64 (rekeyFrame s (pa / 65536) (keyLoOf s part)) pa
      if pte % 2 = 0 then (s, .error (.page 2))
      else if pteMalformed pte lvl then (s, .error (.page 3))
      else if pteBits pte 3 1 = 1 then (s, .ok (leafOf pte lvl))
      else if !isDram s part (pteBits pte 6 32 * 65536) then (s, .error (.page 3))
      else walk part va lvl s (pteBits pte 6 32 * 65536)

/-- A walk from a context's root: a root that is no DRAM of the partition is NOT_DRAM (R16, R219, R221). -/
def walkRoot (s : State) (part : Nat) (va : DWord) (root : Nat) : State × Except XErr Leaf :=
  if isDram s part root then walk part va 4 s root else (s, .error (.page 6))

/-- Physical address under a leaf (R221). -/
def leafPa (l : Leaf) (va : DWord) : Nat := l.frame.toNat * 65536 + va.toNat % 2 ^ l.shift

/-- Permission, DRAM and key checks, in that order (R221, R468, R487). -/
def leafCheck (s : State) (part : Nat) (k : Kind) (l : Leaf) (va : DWord) : Except XErr Leaf :=
  if k = .write ∧ !l.w then .error (.page 4)
  else if k = .fetch ∧ !l.x then .error (.page 5)
  else if !isDram s part (leafPa l va) then .error (.page 6)
  else if !keyOk s part l.key.toNat then .error (.page 7)
  else .ok l

/-- An access goes through a leaf of its partition: the frame it reaches is read with the leaf's key (R486). -/
def reach (s : State) (part : Nat) (va : DWord) (l : Leaf) : State := rekeyFrame s (leafPa l va / 65536) (keyOf s part l.key.toNat)

/-- A leaf whose checks pass is reached with its key; one whose checks fail is not. -/
def checkLeaf (s : State) (part : Nat) (k : Kind) (l : Leaf) (va : DWord) : State × Except XErr Leaf :=
  match leafCheck s part k l va with
  | .ok l => (reach s part va l, .ok l)
  | .error e => (s, .error e)

/-- Installs a translation in the core's and the bough's TLB, 128 and 4,096 entries at most (R224). -/
def installTlb (s : State) (core part ctx : Nat) (va : DWord) (l : Leaf) : State :=
  let page := va.toNat / 2 ^ l.shift
  let one (u cap : Nat) (ts : List TlbEntry) : List TlbEntry :=
    let e : TlbEntry := ⟨u, part, ctx, page, l⟩
    if ts.contains e then ts
    else
      let mine := ts.filter fun t => t.unit == u
      e :: (if mine.length < cap then ts
            else match mine.getLast? with
              | some old => ts.filter (· != old)
              | none => ts)
  -- the scheduler, whose number is no core's, keeps none
  if core ≥ 256 then s
  else { s with mem := { s.mem with tlbs := one core 128 (one (256 + boughOf core) 4096 s.mem.tlbs) } }

/-- The cached translations of an address that the TLBs may answer with, in order; each is asked for (R224, R225). -/
def tlbLookup : List TlbEntry → State → State × Option Leaf
  | [], s => (s, none)
  | e :: r, s =>
    let (s, k) := drawKeep s
    if k then (s, some e.leaf) else tlbLookup r s

/-- A translation (R221, R224, R487), and the leaf found for the page, which its checks may refuse. -/
def translateLeaf (s : State) (w : Who) (va : DWord) (k : Kind) : State × Except XErr Leaf × Option Leaf :=
  if !canonical va then (s, .error (.page 1), none)
  else
    let hits := s.mem.tlbs.filter fun e =>
      (e.unit == w.core || e.unit == 256 + boughOf w.core) && e.part == w.part && e.ctx == w.ctx
        && e.page == va.toNat / 2 ^ e.leaf.shift
    let (s, hit) := tlbLookup hits s
    match hit with
    | some l =>
      let (s, r) := checkLeaf s w.part k l va
      (s, r, some l)
    | none =>
      match (tget s.parts w.part).bind fun p => tget p.ctxs w.ctx with
      | none => (s, .error (.page 2), none)
      | some c =>
        let (s, r) := walkRoot s w.part va c.root
        match r with
        | .error e => (s, .error e, none)
        | .ok l =>
          match checkLeaf s w.part k l va with
          | (s, .error e) => (s, .error e, some l)
          | (s, .ok l) => (installTlb s w.core w.part w.ctx va l, .ok l, some l)

/-- A translation (R221, R224, R487). -/
def translate (s : State) (w : Who) (va : DWord) (k : Kind) : State × Except XErr Leaf :=
  let r := translateLeaf s w va k
  (r.1, r.2.1)

/-- The 64 KiB page of an address, with the leaf or the error its translation gave. -/
abbrev PageMap := List (Nat × Except XErr Leaf)

/-- One translation per distinct page, in order (R222, R348). -/
def translatePages (w : Who) (k : Kind) : List Nat → State → PageMap → State × PageMap
  | [], s, acc => (s, acc.reverse)
  | p :: r, s, acc =>
    let (s, x) := translate s w (BitVec.ofNat 64 (p * 65536)) k
    translatePages w k r s ((p, x) :: acc)

/-- What a page map says of an address. -/
def PageMap.look (m : PageMap) (va : DWord) : Except XErr Leaf :=
  match m.find? fun e => e.1 == va.toNat / 65536 with
  | some e => e.2
  | none => .error (.page 2)

/-! ### Request types (R230–R234) -/

/-- The request type an access is performed under: .uc on a system-atomic page (R233). -/
def effRt (l : Leaf) (rt : Rt) : Rt := if l.sa then .uc else rt

/-- Whether a line's codec flag is set at its home (R345). -/
def codecAt (s : State) (σ : Nat) : Bool := s.mem.codec.contains (σ / 4)

/-- The entry of a core's crown that a remote load may be served by (R243, R244). -/
def rdcFind (s : State) (w : Who) (σ : Nat) : Option RdcEntry :=
  let floor := (tget s.mem.floors w.core).getD 1
  s.mem.rdc.find? fun e => e.crown == crownOf w.core && e.sector == σ && e.tag == w.tag && decide (floor ≤ e.gen)

/-- An entry filled in a crown's remote-data cache, when it has a share (R242, R243). -/
def rdcFill (s : State) (w : Who) (σ ver : Nat) (d : BitVec 512) : State :=
  let crown := crownOf w.core
  let s := rdcDrop s crown σ
  if (s.rdcShare.filter fun g => g / 16 == crown).isEmpty then s
  else { s with mem := { s.mem with rdc := ⟨crown, σ, w.tag, (tget s.mem.gens crown).getD 1, d, codecAt s σ, ver⟩ :: s.mem.rdc } }

/-- Fetches a sector for an untracked fill: from the crown's remote-data cache when the line is homed on another crown and an entry
is valid for the core, else from its home (R230, R243, R244). Answers the line's codec flag too. -/
def fetchUntracked (s : State) (w : Who) (σ : Nat) : State × BitVec 512 × Bool :=
  let s := metaPass s w.core σ
  let far (s : State) : State × BitVec 512 × Bool :=
    let (s, d) := homeRead s σ
    (rdcFill s w σ 0 d, d, codecAt s σ)
  if crownAt σ = crownOf w.core then
    let (s, d) := homeRead s σ
    (s, d, codecAt s σ)
  else
    match rdcFind s w σ with
    | some e =>
      let (s, k) := drawKeep s
      if k then (s, e.data, e.codec) else far s
    | none => far s

/-- A sector as a load of the core sees it (R230, R232); `limit` is the expected read count a fill carries (R234). A copy of which
only some words are valid keeps those that are dirty and takes the others from one fetch, so that no datum is torn (R262). -/
def loadSector (s : State) (w : Who) (rt : Rt) (σ limit : Nat) : State × BitVec 512 :=
  let s := settle s σ
  let here := copyOf s w.core σ
  match rt with
  | .uc => homeRead (corePass (evict s w.core σ) w.core σ) σ
  | .own =>
    let fill (s : State) : State × BitVec 512 :=
      let (s, d) := homeRead (corePass (evict s w.core σ) w.core σ) σ
      (fillCopy s ⟨w.core, σ, .shared, d, BitVec.allOnes 16, 0, 0, limit, w.tag, codecAt s σ, 0, []⟩, d)
    match here with
    | some c => if c.st != .untracked then (s, c.data) else fill s
    | none => fill s
  | _ =>
    let fill (s : State) : State × BitVec 512 :=
      let (s, d, f) := fetchUntracked s w σ
      (fillCopy s ⟨w.core, σ, .untracked, d, BitVec.allOnes 16, 0, 0, limit, w.tag, f, 0, []⟩, d)
    match here with
    | some c =>
      if c.st == .untracked && (rt == .si || c.dirty == 0) then
        if c.valid == BitVec.allOnes 16 then (s, c.data)
        else
          let (s, d, f) := fetchUntracked s w σ
          let d := mergeBytes d c.data (wordBytes c.dirty)
          (putCopy s { c with data := d, valid := BitVec.allOnes 16, tag := w.tag, codec := c.codec && f, ver := 0 }, d)
      else fill (evict s w.core σ)
    | none => fill s

/-- Counts one load instruction for a sector and drops it when its expected read count is reached (R234). -/
def countRead (s : State) (core σ : Nat) : State :=
  match copyOf s core σ with
  | some c =>
    if c.limit ≥ 15 ∨ c.st = .owned ∨ c.dirty ≠ 0 then s
    else if c.reads + 1 ≥ c.limit then dropCopy s core σ
    else putCopy s { c with reads := c.reads + 1 }
  | none => s

/-- Marks a sector that a core in a narrow epoch holds owned and writes (R264). -/
def markSector (s : State) (core σ : Nat) : State :=
  match tget s.mem.epochs core with
  | some e =>
    let m : Mark := ⟨core, σ, e.scp, e.inst, e.dirty⟩
    { s with mem := { s.mem with marks := m :: s.mem.marks.filter fun x => !(x.core == core && x.sector == σ) } }
  | none => s

/-- A store of a core leaves no copy of the line in its L1 with the codec flag, nor as a fetched version (R345, R348). -/
def plainLine (s : State) (core σ : Nat) : State :=
  { s with mem := { s.mem with copies := s.mem.copies.map fun c =>
      if c.agent == core && c.sector / 4 == σ / 4 then { c with codec := false, ver := 0 } else c } }

/-- The copy that an agent holds owned of a sector. -/
def ownedCopy (s : State) (agent σ : Nat) : Option Copy := (copyOf s agent σ).filter fun c => c.st == .owned

/-- An agent gains a sector owned: every other agent's copy goes, and the agent's is clean (R230, R231, R238). -/
def gainOwned (s : State) (w : Who) (agent σ : Nat) : State :=
  let s := recallOwner (evict s agent σ) σ
  let c : Copy := ⟨agent, σ, .owned, homeData s σ, BitVec.allOnes 16, 0, 0, 15, w.tag, codecAt s σ, 0, []⟩
  fillCopy (invalidateWindows (dropTracked s σ) σ (BitVec.allOnes 16) none) c

/-- A write into a sector that an agent holds owned; its line keeps no codec flag (R230, R345). -/
def writeOwned (s : State) (w : Who) (agent σ : Nat) (bm : BitVec 64) (d : BitVec 512) : State :=
  match ownedCopy s agent σ with
  | some c =>
    let s := putCopy s { c with
      data := mergeBytes c.data d bm, dirty := c.dirty ||| wordsTouched bm, limit := 15, tag := w.tag, codec := false }
    { s with mem := { s.mem with codec := setIn s.mem.codec (σ / 4) false } }
  | none => s

/-- A .own store: the core gains the sector owned and writes it (R230). While it is watched the home performs the store, and a
request for a poisoned sector is discarded (R325, R490). -/
def storeOwn (s : State) (w : Who) (σ : Nat) (bm : BitVec 64) (d : BitVec 512) : State :=
  if watched s σ then homeWrite (evict s w.core σ) (crownOf w.core) σ bm d w.tag false none
  else if (ownedCopy s w.core σ).isSome then markSector (writeOwned s w w.core σ bm d) w.core σ
  else if s.mem.poison.contains σ then noteLost s (lostWrite w.tag σ w.core (some w.team))
  else markSector (writeOwned (gainOwned s w w.core σ) w w.core σ bm d) w.core σ

/-- A .si store into the core's untracked copy, if it holds one (R230). DESIGN CHOICE (log 69): a word stored in part that the copy
does not hold takes its other bytes from a fetch of the sector; from a poisoned sector there is none, and the store is discarded. -/
def storeSi (s : State) (w : Who) (σ : Nat) (bm : BitVec 64) (d : BitVec 512) (c : Option Copy) : State :=
  let have_ : BitVec 16 := match c with | some c => c.valid | none => 0
  let old : BitVec 512 := match c with | some c => c.data | none => 0
  let dirty : BitVec 16 := match c with | some c => c.dirty | none => 0
  let put (s : State) (old : BitVec 512) (valid : BitVec 16) : State :=
    fillCopy s ⟨w.core, σ, .untracked, mergeBytes old d bm, valid ||| wordsTouched bm, dirty ||| wordsTouched bm, 0, 15, w.tag, false, 0, []⟩
  if wordsTouched bm &&& ~~~(wordsWhole bm) &&& ~~~have_ = 0 then put s old have_
  else if s.mem.poison.contains σ then noteLost s (lostWrite w.tag σ w.core (some w.team))
  else
    let (s, f, _) := fetchUntracked s w σ
    put s (mergeBytes f old (wordBytes dirty)) (BitVec.allOnes 16)

/-- A .wt or .uc store (R230, R232): in a sector the core owns it is performed locally and written home at once, and the sector stays
owned and clean; else it goes to home, a present clean copy updated under .wt. -/
def storeThrough (s : State) (w : Who) (rt : Rt) (σ : Nat) (bm : BitVec 64) (d : BitVec 512) : State :=
  let atHome (s : State) : State := homeWrite s (crownOf w.core) σ bm d w.tag false none
  match copyOf s w.core σ with
  | some c =>
    if c.st == .owned then
      let c' := { c with data := mergeBytes c.data d bm, dirty := 0, tag := w.tag }
      markSector (backWhole (putCopy s c') c') w.core σ
    else if rt == .wt && c.st == .untracked && c.dirty == 0 then
      atHome (putCopy s { c with data := mergeBytes c.data d bm, limit := 15, tag := w.tag })
    else atHome (evict s w.core σ)
  | none => atHome s

/-- A store of a core to one sector (R230, R232, R325); the crown's remote-data cache drops it (R243). -/
def storeSector (s : State) (w : Who) (rt : Rt) (σ : Nat) (bm : BitVec 64) (d : BitVec 512) : State :=
  claim s w.core (some w.team) <|
  let s := metaPass (plainLine (settle s σ) w.core σ) w.core σ
  match rt with
  | .own => storeOwn (corePass s w.core σ) w σ bm d
  | .si =>
    match copyOf s w.core σ with
    | some c => if c.st == .untracked then storeSi s w σ bm d (some c) else storeSi (evict s w.core σ) w σ bm d none
    | none => storeSi s w σ bm d none
  | rt => storeThrough (corePass s w.core σ) w rt σ bm d

/-! ### Codec lines (R344–R348) -/

/-- The four sectors of a line. -/
def lineSectors (line : Nat) : List Nat := (List.range 4).map fun i => 4 * line + i

/-- The bytes of a line as its home holds them. -/
def lineData (s : State) (line : Nat) : List Byte := (lineSectors line).flatMap fun σ => bytesAt (homeData s σ) 0 64

/-- Homes' view of a whole line: one version, read after every recall (R231, R348). -/
def homeLine (s : State) (line : Nat) : State × List Byte :=
  let s := (lineSectors line).foldl settle s
  let s := (lineSectors line).foldl recallOwner s
  (s, lineData s line)

/-- A number for a fetched version of a line. -/
def freshVer (s : State) : State × Nat := ({ s with fresh := s.fresh + 1 }, s.fresh + 1)

/-- The core's untracked copies of a line, when they are one version of it (R348). -/
def lineCopies (s : State) (core line : Nat) : Option (List Copy) :=
  let l := (lineSectors line).filterMap (copyOf s core)
  match l with
  | c :: _ =>
    if l.length = 4 ∧ c.ver ≠ 0 ∧ l.all fun x => x.st == .untracked && x.ver == c.ver && x.valid == BitVec.allOnes 16 then some l
    else none
  | [] => none

/-- The entries of a remote-data cache that serve a line, when they are one version of it (R243, R348). -/
def lineEntries (s : State) (w : Who) (line : Nat) : Option (List RdcEntry) :=
  let l := (lineSectors line).filterMap (rdcFind s w)
  match l with
  | e :: _ =>
    if crownAt (4 * line) ≠ crownOf w.core ∧ l.length = 4 ∧ e.ver ≠ 0 ∧ l.all fun x => x.ver == e.ver then some l else none
  | [] => none

/-- A line fetched whole for untracked copies: one version, from the remote-data cache or from home (R243, R346, R348). -/
def fetchLine (s : State) (w : Who) (line : Nat) : State × List Byte × Bool × Nat :=
  let far (s : State) : State × List Byte × Bool × Nat :=
    let (s, b) := homeLine s line
    let (s, v) := freshVer s
    let flag := s.mem.codec.contains line
    if crownAt (4 * line) = crownOf w.core then (s, b, flag, v)
    else ((lineSectors line).foldl (fun s σ => rdcFill s w σ v (homeData s σ)) s, b, flag, v)
  match lineEntries s w line with
  | some l =>
    let (s, k) := drawKeep s
    if k then (s, l.flatMap (fun e => bytesAt e.data 0 64), l.all (·.codec), (l.headD ⟨0, 0, 0, 0, 0, false, 0⟩).ver) else far s
  | none => far s

/-- A whole line as an access of the core fetches its stored form under a request type, with its codec flag: one version, in one
fetch (R345, R346, R348). -/
def loadLine (s : State) (w : Who) (rt : Rt) (line limit : Nat) : State × List Byte × Bool :=
  let drop (s : State) : State := (lineSectors line).foldl (fun s σ => evict s w.core σ) s
  let pass (s : State) : State := (lineSectors line).foldl (fun s σ => corePass s w.core σ) s
  let fill (st : SectorState) (b : List Byte) (flag : Bool) (v : Nat) (s : State) : State :=
    (lineSectors line).foldl (fun s σ => fillCopy s
      ⟨w.core, σ, st, BitVec.ofNat 512 (leNat ((b.drop (64 * (σ % 4))).take 64)), BitVec.allOnes 16, 0, 0, limit, w.tag, flag, v, []⟩) s
  match rt with
  | .uc =>
    let (s, b) := homeLine (pass (drop s)) line
    (s, b, s.mem.codec.contains line)
  | .own =>
    let (s, b) := homeLine (pass (drop s)) line
    let flag := s.mem.codec.contains line
    (fill .shared b flag 0 s, b, flag)
  | _ =>
    let s := (lineSectors line).foldl settle s
    match lineCopies s w.core line with
    | some l => (s, l.flatMap (fun c => bytesAt c.data 0 64), l.all (·.codec))
    | none =>
      let (s, b, flag, v) := fetchLine (drop s) w line
      (fill .untracked b flag v s, b, flag)

/-- Writes a whole line at its home in one step, with the flag (R347). -/
def putLine (s : State) (crown line : Nat) (b : List Byte) (tag : BitVec 16) (codec : Bool) : State :=
  (List.range 4).foldl
    (fun s i =>
      homeWrite s crown (4 * line + i) (BitVec.allOnes 64) (BitVec.ofNat 512 (leNat ((b.drop (64 * i)).take 64))) tag codec
        none) s

/-- The bytes of an expanded line with some replaced. -/
def patch (b : List Byte) (off : Nat) (new : List Byte) : List Byte := b.take off ++ new ++ b.drop (off + new.length)

/-- The stored form of a line with some of its expanded bytes replaced; none where the line is no codec line or would not fit (R346,
R347). -/
def codecPatched (flag : Bool) (old : List Byte) (patches : List (Nat × List Byte)) : Option (List Byte) :=
  (codecDecode flag old).bind fun ws =>
    codecEncode (wordsOf (patches.foldl (fun b p => patch b p.1 p.2) (ws.flatMap (leBytes 4))) 64)

/-- A poisoned sector of a line (R489). -/
def linePoison (s : State) (line : Nat) : Option Nat := (lineSectors line).find? fun σ => s.mem.poison.contains σ

/-- The expanded bytes of a line at its home (R346). -/
def homeExpanded (s : State) (line : Nat) : State × Except XErr (List Byte) :=
  match linePoison s line with
  | some σ => (s, .error (.lost (64 * σ)))
  | none =>
    let (s, b) := homeLine s line
    match codecDecode (s.mem.codec.contains line) b with
    | some ws => (s, .ok (ws.flatMap (leBytes 4)))
    | none => (s, .error .bad)

/-! ### Windows at home (R237–R241) -/

/-- Window `index` of a core. -/
def windowOf (s : State) (core index : Nat) : Option Window :=
  s.mem.windows.find? fun w => w.core == core && w.index == index

/-- Writes a window. -/
def putWindow (s : State) (w : Window) : State :=
  { s with mem := { s.mem with windows := s.mem.windows.map fun x =>
      if x.core == w.core && x.index == w.index then w else x } }

/-- The window of a team on a core that serves a global address (R218). -/
def windowAt (s : State) (core team : Nat) (va : DWord) : Option Window :=
  s.mem.windows.find? fun w =>
    w.core == core && w.team == team && decide (w.base.toNat ≤ va.toNat) && decide (va.toNat < w.base.toNat + w.len)

/-- The captured leaf of the page of a window's sector. -/
def windowLeaf (w : Window) (i : Nat) : Option Leaf := tget w.pages ((w.base.toNat + 64 * i) / 65536)

/-- The physical sector of a window's sector. -/
def windowPhys (w : Window) (i : Nat) : Option Nat :=
  (windowLeaf w i).map fun l => leafPa l (BitVec.ofNat 64 (w.base.toNat + 64 * i)) / 64

/-- Whether a window's sector lies on a codec page, which only a late capture can bring (R240, R303, R346). -/
def windowCmp (w : Window) (i : Nat) : Bool := (windowLeaf w i).any (·.cmp)

/-- The scratchpad's bytes of a window's sector. -/
def windowData (t : Team) (w : Window) (i : Nat) : BitVec 512 :=
  BitVec.ofNat 512 (leNat (crange t.scratch (w.off + 64 * i) 64))

/-- Writes bytes of a scratchpad. -/
def scratchPut (t : Team) (off : Nat) (b : List Byte) : Team := { t with scratch := csetMany t.scratch off b }

/-- The owner tag of a team's writes (R251). -/
def teamTag (s : State) (t : Team) : BitVec 16 :=
  match tget s.grids t.grid with
  | some g => BitVec.ofNat 16 (g.part * 1024 + g.ctx)
  | none => 0

/-- The key material of the page that a window's sector lies in (R486). -/
def windowKey (s : State) (w : Window) (t : Team) (i : Nat) : List Byte :=
  match windowLeaf w i with
  | some l => keyOf s ((teamTag s t).toNat / 1024) l.key.toNat
  | none => []

/-- A sector's part of the expanded view of its line (R346); `other` where there is no such view. -/
def windowExpanded (s : State) (core σ : Nat) (other : BitVec 512) : State × BitVec 512 :=
  match homeExpanded ((lineSectors (σ / 4)).foldl (fun s x => evict s core x) s) (σ / 4) with
  | (s, .ok b) => (s, BitVec.ofNat 512 (leNat ((b.drop (64 * (σ % 4))).take 64)))
  | (s, .error _) => (s, other)

/-- Words of a sector written into the expanded view of its line (R347); a write that the line cannot take is lost. -/
def expandedWrite (s : State) (core team σ : Nat) (words : BitVec 16) (d : BitVec 512) (tag : BitVec 16) : State :=
  match linePoison s (σ / 4) with
  | some p => noteLost s (lostWrite tag p core (some team))
  | none =>
    let (s, old) := homeLine ((lineSectors (σ / 4)).foldl (fun s x => evict s core x) s) (σ / 4)
    let patches := (below 16 words.getLsbD).map fun j => (64 * (σ % 4) + 4 * j, bytesAt d (4 * j) 4)
    match codecPatched (s.mem.codec.contains (σ / 4)) old patches with
    | some enc => putLine s (crownOf core) (σ / 4) enc tag true
    | none => noteLost s { lostWrite tag σ core (some team) with cls := 8, cause := 0 }

/-- Fills the words of a window's sector that have V = 0 from home (R237). What the core holds of the sector elsewhere goes, so that no
lane goes back behind what it has seen by the window (R258). -/
def windowFill (s : State) (w : Window) (i : Nat) : State :=
  match windowPhys w i, getTeam s w.team with
  | some σ, some t =>
    let s := rekeyFrame (corePass (evict s w.core σ) w.core σ) (σ / 1024) (windowKey s w t i)
    let (s, d) := if windowCmp w i then windowExpanded s w.core σ (windowData t w i) else homeRead s σ
    let v := cget w.vbits i
    let nd := mergeBytes d (windowData t w i) (wordBytes v)
    let s := setTeam s w.team (scratchPut t (w.off + 64 * i) (bytesAt nd 0 64))
    putWindow s { w with vbits := cset w.vbits i (BitVec.allOnes 16) }
  | _, _ => s

/-- Writes back the dirty words named of a window's sector, one write with a word mask; V stays, D clears (R239). What the core holds of
the sector elsewhere goes, so that no lane goes back behind the words written (R227, R258). With `spare` a poisoned sector's words are
left (R464, R465). -/
def windowBackWords (spare : Bool) (s : State) (core index i : Nat) (wm : BitVec 16) : State :=
  match windowOf s core index with
  | none => s
  | some w =>
    match windowPhys w i, getTeam s w.team with
    | some σ, some t =>
      let dirty := cget w.dbits i &&& wm
      if dirty = 0 then s
      else
        let s := putWindow s { w with dbits := cset w.dbits i (cget w.dbits i &&& ~~~wm) }
        if spare && s.mem.poison.contains σ then s
        else
          claim s core (some w.team) <| underKey (metaPass (evict s core σ) core σ) σ (windowKey s w t i) fun s =>
            if windowCmp w i then expandedWrite s core w.team σ dirty (windowData t w i) (teamTag s t)
            else homeWrite s (crownOf core) σ (wordBytes dirty) (windowData t w i) (teamTag s t) false (some (core, index))
    | _, _ => s

/-- Writes back the dirty words of a window's sector (R239). -/
def windowBack (spare : Bool) (s : State) (core index i : Nat) : State := windowBackWords spare s core index i (BitVec.allOnes 16)

/-- Writes back every dirty sector of a window (R239). -/
def windowFlush (spare : Bool) (s : State) (core index : Nat) : State :=
  match windowOf s core index with
  | none => s
  | some w => (w.dbits.map (·.1)).foldl (fun s i => windowBack spare s core index i) s

/-! ### Releases and acquires: local effects (R230, R238, R239, R244, R264, R265) -/

/-- The scope instance a team on a core belongs to (R252). -/
def scopeInst (sc : Scope) (core team : Nat) : Nat :=
  match sc with
  | .team => team
  | .bough => boughOf core
  | .crown => crownOf core
  | _ => 0

/-- Order of scopes (R252). -/
def scopeLe (a b : Scope) : Bool :=
  let n : Scope → Nat := fun x => match x with | .team => 0 | .bough => 1 | .crown => 2 | .dev => 3 | .sys => 4
  decide (n a ≤ n b)

/-- Pushes a core's dirty-untracked words (R230); with `spare` poisoned sectors are left. -/
def pushDirty (spare : Bool) (s : State) (core : Nat) : State :=
  (s.mem.copies.filter fun c => c.agent == core && c.st == .untracked && c.dirty != 0).foldl
    (fun s c => if spare && s.mem.poison.contains c.sector then putCopy s { c with dirty := 0 } else pushCopy s c) s

/-- Flushes the windows of a team whose scope a release reaches (R239). -/
def flushWindows (spare : Bool) (s : State) (core team : Nat) (sc : Scope) : State :=
  (s.mem.windows.filter fun w => w.core == core && w.team == team && scopeLe w.scp sc).foldl
    (fun s w => windowFlush spare s core w.index) s

/-- What a core holds dirty: in its L1 and in its windows (R265). -/
def heldDirty (s : State) (core : Nat) : HeldDirty where
  copies := (s.mem.copies.filter fun c => c.agent == core && c.dirty != 0).map fun c => (c.sector, c.dirty)
  wins := (s.mem.windows.filter fun w => w.core == core).flatMap fun w => w.dbits.map fun d => (w.index, w.base.toNat, d.1, d.2)

/-- A core enters or renews its narrow epoch, or a release at .dev or .sys closes it; marks at homes stay until a forced publish
(R264). -/
def epochRelease (s : State) (core team : Nat) (sc : Scope) : State :=
  if scopeLe .dev sc then { s with mem := { s.mem with epochs := tdel s.mem.epochs core } }
  else { s with mem := { s.mem with epochs := tset s.mem.epochs core ⟨sc, scopeInst sc core team, heldDirty s core⟩ } }

/-- The local effects of a release by a team on a core (R230, R239, R264). -/
def releaseAt (s : State) (core team : Nat) (sc : Scope) : State :=
  let s := if scopeLe .bough sc then pushDirty false s core else s
  epochRelease (flushWindows false s core team sc) core team sc

/-- gen(c) and the floor of a core advance (R244, R245). -/
def floorAdvance (s : State) (core : Nat) : State :=
  let c := crownOf core
  let g := (tget s.mem.gens c).getD 1
  if g + 1 > 0xFFFF then
    { s with mem := { s.mem with
        gens := tset s.mem.gens c 1
        floors := s.mem.floors.filter fun e => crownOf e.1 != c
        rdc := s.mem.rdc.filter fun e => e.crown != c } }
  else { s with mem := { s.mem with gens := tset s.mem.gens c (g + 1), floors := tset s.mem.floors core (g + 1) } }

/-- Clears V on the clean words of a window; none keeps what zero-no-fill mode gave it (R237, R238). -/
def windowClearClean (w : Window) : Window :=
  { w with
    vbits := w.vbits.foldl (fun acc e => cset acc e.1 (e.2 &&& cget w.dbits e.1)) w.vbits
    given := w.given.foldl (fun acc e => cset acc e.1 (e.2 &&& cget w.dbits e.1)) w.given }

/-- The local effects of an acquire by a team on a core (R227, R230, R238, R244). -/
def acquireAt (s : State) (core team : Nat) (sc : Scope) : State :=
  let s :=
    if scopeLe .bough sc then
      { s with mem := { s.mem with
          copies := (s.mem.copies.map fun c =>
            if c.agent == core && c.st == .untracked then { c with valid := c.dirty } else c).filter
              fun c => !(c.agent == core && c.st == .untracked && c.valid == 0)
          held := s.mem.held.filter fun h => !(h.core == core && h.kind == 2) } }
    else s
  let s := { s with mem := { s.mem with windows := s.mem.windows.map fun w =>
      if w.core == core && w.team == team && w.ft != .own && scopeLe w.scp sc then windowClearClean w else w } }
  if scopeLe .dev sc then floorAdvance s core else s

/-- What is left dirty of what a core held at a marking release goes home (R265): owned sectors whole, of untracked copies and of
windows the words held then. -/
def publishHeld (s : State) (k : Nat) (h : HeldDirty) : State :=
  let s := h.copies.foldl
    (fun s x =>
      match copyOf s k x.1 with
      | some c => if c.dirty = 0 then s else if c.st == .untracked then pushWords s c x.2 else pushCopy s c
      | none => s) s
  h.wins.foldl
    (fun s x =>
      match windowOf s k x.1 with
      | some w => if w.base.toNat = x.2.1 then windowBackWords false s k x.1 x.2.2.1 x.2.2.2 else s
      | none => s) s

/-- The core of a mark publishes what it held dirty at the marking release, closes its epoch, and its marks clear (R265). -/
def publishMark (s : State) (m : Mark) : State :=
  let s := publishHeld s m.core m.dirty
  { s with mem := { s.mem with
      epochs := tdel s.mem.epochs m.core
      marks := s.mem.marks.filter fun x => x.core != m.core } }

/-- An acquire that reaches the home of a sector marked from outside the marked instance forces every such core to publish first
(R265); `inst` gives the acquiring agent's instance of a scope, none for an agent that belongs to none (R252). -/
def forcePublishBy (s : State) (inst : Scope → Option Nat) (σ : Nat) : State :=
  (s.mem.marks.filter fun m => m.sector == σ && inst m.scp != some m.inst).foldl publishMark s

/-- A forced publish by an acquire of a lane of a team (R265). -/
def forcePublish (s : State) (core team σ : Nat) : State := forcePublishBy s (fun sc => some (scopeInst sc core team)) σ

/-- A forced publish by an acquire of an agent in no narrow scope: the scheduler or a remote party (R252, R265). -/
def forcePublishFar (s : State) (σ : Nat) : State := forcePublishBy s (fun _ => none) σ

end Sys2Proof.Machine
end

