-- ==== Sys2Proof/Machine/Operands.lean ====
section
/-! DEFINITION. Registers, operand fields and results: what a read sees before a result is due (R115–R120), the latches
(R75), every operand form (R71–R74, R174, R187), lanes that take part (R33) and beats (R32). -/

namespace Sys2Proof.Machine

/-! ### Places -/

/-- Key of a per-lane place in its array. -/
def laneKey (i lane : Nat) : Nat := i * 32 + lane

/-- The value a place held before its outstanding results. -/
def placeBase (g : Group) (p : Place) (lane : Nat) : Nat :=
  match p with
  | .v i => (cget g.v (laneKey i lane)).toNat
  | .o i => (cget g.o (laneKey i lane)).toNat
  | .l i => (cget g.l (laneKey i lane)).toNat
  | .s i => (cget g.s i).toNat
  | .p i => (cget g.p (laneKey i lane)).toNat
  | .g i => (cget g.g i).toNat
  | .c i => (cget g.c (laneKey i lane)).toNat
  | .cap i => (cget g.cap (laneKey i lane)).toNat

/-- Replaces the value of a place; p7 discards writes (R70). -/
def setBase (g : Group) (p : Place) (lane val : Nat) : Group :=
  match p with
  | .v i => { g with v := cset g.v (laneKey i lane) (BitVec.ofNat 32 val) }
  | .o i => { g with o := cset g.o (laneKey i lane) (BitVec.ofNat 32 val) }
  | .l i => { g with l := cset g.l (laneKey i lane) (BitVec.ofNat 64 val) }
  | .s i => { g with s := cset g.s i (BitVec.ofNat 64 val) }
  | .p i => if i = 7 then g else { g with p := cset g.p (laneKey i lane) (BitVec.ofNat 1 val) }
  | .g i => { g with g := cset g.g i (BitVec.ofNat 1 val) }
  | .c i => { g with c := cset g.c (laneKey i lane) (BitVec.ofNat 256 val) }
  | .cap i => { g with cap := cset g.cap (laneKey i lane) (BitVec.ofNat 570 val) }

/-- Same place in the same lane. -/
def Pend.at (e : Pend) (p : Place) (lane : Nat) : Bool := e.place == p && e.lane == lane

/-- Whether a read sees a result: it is due, or it was made on the other side of the group (R35, R119). -/
def Pend.seen (e : Pend) (uni : Bool) (now : Nat) : Bool :=
  e.uni != uni || match e.due with | some d => decide (d ≤ now) | none => false

/-- A read of a place at a cycle, from one side of the group (R75, R119). The newest result stands first. -/
def readPlace (g : Group) (p : Place) (lane : Nat) (uni : Bool) (now : Nat) : Nat :=
  match p with
  | .p 7 => 1
  | .l _ =>
    match g.pend.find? (·.at p lane) with
    | some e => if e.seen uni now then e.val else e.old.getD (placeBase g p lane)
    | none => placeBase g p lane
  | _ =>
    match g.pend.find? fun e => e.at p lane && e.seen uni now with
    | some e => e.val
    | none => placeBase g p lane

/-- The newest result of a place, due or not; a value that stands there is one that was due long ago. -/
def newestPend (g : Group) (p : Place) (lane : Nat) : Pend :=
  (g.pend.find? (·.at p lane)).getD ⟨p, lane, placeBase g p lane, none, false, false, 0, 0, some 0, none⟩

/-- The newest value written to a place, due or not, when it is due and what still owes it. -/
def newestAt (g : Group) (p : Place) (lane : Nat) : Nat × Option Nat × Option Nat :=
  let e := newestPend g p lane
  (e.val, e.due, e.owed)

/-- Moves results that are due at a cycle into their places, oldest first; a due result replaces every older one of its
place (R119). -/
def retireDue (g : Group) (now : Nat) : Group :=
  g.pend.reverse.foldl
    (fun g e =>
      match e.due with
      | some d =>
        if d ≤ now then
          let g := setBase g e.place e.lane e.val
          { g with pend := g.pend.filter fun x => !x.at e.place e.lane }
        else { g with pend := e :: g.pend }
      | none => { g with pend := e :: g.pend }) { g with pend := [] }

/-- Makes the outstanding results that `which` selects due now (R120). -/
def commitIf (g : Group) (now : Nat) (which : Pend → Bool) : Group :=
  retireDue { g with pend := g.pend.map fun e => if which e && e.owed.isNone then { e with due := some now } else e } now

/-- Makes every outstanding result due (R120: REGROUP, a save, a hard pre-emption; R456, R472). -/
def commitAll (g : Group) (now : Nat) : Group := commitIf g now fun _ => true

/-- How a result becomes due (R116–R118). -/
inductive Cls where
  /-- Interlocked: at once. -/
  | inter
  /-- Fixed: after its latency under VER 0b01, else at a marker. -/
  | fixed (latency : Nat)
  /-- Variable: at a marker. -/
  | variable
  /-- Variable, of a ring entry that has not been performed (R452). -/
  | owed (id : Nat)
  deriving DecidableEq, Repr

/-- The cycle a result written at `at_` is due. -/
def Cls.due (c : Cls) (ver : Ver) (at_ : Nat) : Option Nat :=
  match c, ver with
  | .inter, _ => some 0
  | .fixed n, .fixed => some (at_ + n)
  | _, _ => none

/-- Cycles after which a result has returned (R117); a variable one's are noted when its instruction has issued. -/
def Cls.lat : Cls → Nat
  | .fixed n => n
  | _ => 0

/-- Whether a result is of the variable class. -/
def Cls.isVar : Cls → Bool
  | .variable | .owed _ => true
  | _ => false

/-- The ring entry that owes a result. -/
def Cls.owes : Cls → Option Nat
  | .owed id => some id
  | _ => none

/-- Writes a place; an interlocked result replaces the value at once and hides every older one (R116). -/
def writePlace (g : Group) (c : Cls) (ver : Ver) (uni : Bool) (at_ : Nat) (p : Place) (lane val : Nat) : Group :=
  match c with
  | .inter =>
    let g := setBase g p lane val
    { g with pend := g.pend.filter fun e => !e.at p lane }
  | _ => { g with pend := ⟨p, lane, val, none, uni, c.isVar, at_, c.lat, c.due ver at_, c.owes⟩ :: g.pend }

/-- A ring entry's value reaches the places that await it (R452): the odd register of a pair takes the upper half. -/
def payRing (g : Group) (id : Nat) (v : Nat) : Group :=
  let one (e : Pend) : Pend :=
    if e.owed == some id then
      match e.place with
      | .v i | .o i => { e with val := v / 2 ^ (32 * (i % 2)) % 2 ^ 32, owed := none }
      | _ => { e with val := v % 2 ^ 64, owed := none }
    else e
  { g with pend := g.pend.map one }

/-- A new latch value: the previous l0 becomes l1, the new result l0; each slot shows what it held until its result is
due. The result moved to l1 keeps its class, and returns and is due when it would have been (R75, log 11). -/
def pushLatch (g : Group) (c : Cls) (ver : Ver) (at_ lane val : Nat) : Group :=
  let moved := newestPend g (.l 0) lane
  let see0 := readPlace g (.l 0) lane false at_
  let see1 := readPlace g (.l 1) lane false at_
  let one : Pend := { moved with place := .l 1, old := some see1 }
  let zero : Pend := ⟨.l 0, lane, val, some see0, false, c.isVar, at_, c.lat, c.due ver at_, c.owes⟩
  { g with pend := zero :: one :: g.pend }

/-! ### Lanes and beats (R32, R33, R34) -/

/-- Lanes whose position is enabled. -/
def enabledLanes (g : Group) : List Nat := below 32 g.mask.getLsbD

/-- The lowest-numbered enabled lane (R74). -/
def lowestEnabled (g : Group) : Option Nat := (enabledLanes g).head?

/-- Lanes per beat of an operation width (R32). -/
inductive Width where
  | w32 | packed | w64
  deriving DecidableEq, Repr

/-- Lanes in one beat. -/
def Width.lanes : Width → Nat
  | .w32 => 16
  | .packed => 32
  | .w64 => 8

/-- Beats before the one that carries a lane, skipped beats uncounted. -/
def beatOffset (w : Width) (part : List Nat) (lane : Nat) : Nat :=
  (below (lane / w.lanes) fun b => part.any fun i => i / w.lanes == b).length

/-- Beats that carry a lane taking part. -/
def beatCount (w : Width) (part : List Nat) : Nat :=
  (below 4 fun b => part.any fun i => i / w.lanes == b).length

/-- A lane's guard (R112), as the beat at a cycle reads it. -/
def laneGuard (g : Group) (h : Hdr) (now lane : Nat) : Bool :=
  (readPlace g (.p h.gp.toNat) lane false now == 1) != h.gn

/-- The lanes that take part, beat by beat: a beat reads its lanes' guards in its own cycle, and one in which no lane
takes part uses no cycle (R33). -/
def beatsFrom (g : Group) (h : Hdr) (w : Width) : Nat → Nat → Nat → List Nat
  | 0, _, _ => []
  | n + 1, b, now =>
    let lanes := (enabledLanes g).filter fun i => i / w.lanes == b && laneGuard g h now i
    lanes ++ beatsFrom g h w n (b + 1) (if lanes.isEmpty then now else now + 1)

/-- Lanes that take part in an instruction with UNI = 0, rising (R33). -/
def takingPart (g : Group) (h : Hdr) (w : Width) (now : Nat) : List Nat := beatsFrom g h w 4 0 now

/-- The uniform guard (R34). -/
def uniGuard (g : Group) (h : Hdr) (now : Nat) : Bool :=
  if h.gp = 7 then !h.gn else (readPlace g (.g (h.gp.toNat % 4)) 0 true now == 1) != h.gn

/-! ### Sources (R71, R72, R74, R174) -/

/-- The two halves of a 64-bit register value. -/
def pairNat (lo hi : Nat) : Nat := lo % 2 ^ 32 + 2 ^ 32 * (hi % 2 ^ 32)

/-- The bits a source field holds in a lane: 64 of a pair, latch or uniform register when `wide`, else 32; constants
are not read here. -/
def readRaw (g : Group) (lane : Nat) (uni : Bool) (now : Nat) (wide : Bool) (s : Src) : Nat :=
  match s with
  | .v i =>
    let lo := readPlace g (.v i.toNat) lane uni now
    if wide then pairNat lo (readPlace g (.v (i.toNat + 1)) lane uni now) else lo
  | .o i =>
    let lo := readPlace g (.o i.toNat) lane uni now
    if wide then pairNat lo (readPlace g (.o (i.toNat + 1)) lane uni now) else lo
  | .l i =>
    let v := readPlace g (.l i.toNat) lane uni now
    if wide then v else v % 2 ^ 32
  | .s i =>
    let v := readPlace g (.s i.toNat) 0 uni now
    if wide then v else v % 2 ^ 32
  | .k _ => 0

/-- A short constant as an integer (R72). -/
def constInt (n : BitVec 7) : Int := sextInt 7 n.toNat

/-- A source read per lane; an instruction with UNI = 1 reads per-lane levels in the lowest-numbered enabled lane, zero
when there is none (R74). A constant reads as its `w`-bit two's complement. -/
def readSrc (g : Group) (h : Hdr) (lane now : Nat) (w : Nat) (s : Src) : Nat :=
  match s with
  | .k n => truncInt w (constInt n)
  | .s _ => readRaw g 0 h.uni now (w == 64) s % 2 ^ w
  | _ =>
    if h.uni then
      match lowestEnabled g with
      | some l => readRaw g l true now (w == 64) s % 2 ^ w
      | none => 0
    else readRaw g lane false now (w == 64) s % 2 ^ w

/-- A source read under an integer type, as the integer it stands for (R174). -/
def readInt (g : Group) (h : Hdr) (lane now : Nat) (t : Ty) (s : Src) : Int :=
  let v := readSrc g h lane now t.bits s
  if t.isI then sextInt t.bits v else v

/-! ### Selectors (R145) -/

/-- A source selector in a lane. -/
def readSel (g : Group) (h : Hdr) (lane now : Nat) (p : PSel) : Bool :=
  let raw : Bool :=
    if p.k then readPlace g (.g p.idx.toNat) 0 h.uni now == 1
    else if h.uni then
      match lowestEnabled g with
      | some l => readPlace g (.p p.idx.toNat) l true now == 1
      | none => false
    else readPlace g (.p p.idx.toNat) lane false now == 1
  raw != p.neg

/-! ### Destinations (R70, R73–R75) -/

/-- Writes a per-lane value to a data-side destination, and the latches. -/
def writeLane (g : Group) (c : Cls) (ver : Ver) (at_ : Nat) (d : Dst) (wide : Bool) (lane val : Nat) : Group :=
  let put (g : Group) (p : Nat → Place) (i : Nat) : Group :=
    if wide then
      writePlace (writePlace g c ver false at_ (p i) lane (val % 2 ^ 32)) c ver false at_ (p (i + 1)) lane
        (val / 2 ^ 32 % 2 ^ 32)
    else writePlace g c ver false at_ (p i) lane (val % 2 ^ 32)
  let g :=
    match d with
    | .v i => put g .v i.toNat
    | .o i => put g .o i.toNat
    | .l => g
    | .hi i => put (put g .v i.toNat) .o (i.toNat % 16)
  pushLatch g c ver at_ lane (if wide then val % 2 ^ 64 else val % 2 ^ 32)

/-- The uniform register a destination field names (R74). -/
def dstSreg : Dst → Nat
  | .hi i => i.toNat % 128
  | _ => 0

/-- Writes a uniform result (R74, R174). -/
def writeUni (g : Group) (c : Cls) (ver : Ver) (at_ : Nat) (d : Dst) (val : Nat) : Group :=
  writePlace g c ver true at_ (.s (dstSreg d)) 0 (val % 2 ^ 64)

/-- Writes a destination selector in a lane, or the uniform predicate (R145). -/
def writeSel (g : Group) (h : Hdr) (c : Cls) (at_ : Nat) (p : PSel) (lane : Nat) (b : Bool) : Group :=
  let v := if b then 1 else 0
  if p.k then writePlace g c h.ver true at_ (.g p.idx.toNat) 0 v
  else if p.idx = 7 then g
  else writePlace g c h.ver false at_ (.p p.idx.toNat) lane v

/-! ### Allocation (R29) -/

/-- A role record of a group. -/
def roleOf (s : State) (g : Group) : Role :=
  match (getTeam s g.team).bind fun t => tget s.grids t.grid with
  | some gr => gr.kernel.roles.getD g.role ⟨1, 8, 0, 0, 0⟩
  | none => ⟨1, 8, 0, 0, 0⟩

/-- A source lies in the role's allocation. -/
def srcInRole (r : Role) (wide : Bool) : Src → Bool
  | .v i => decide (i.toNat + (if wide then 1 else 0) < r.regs)
  | _ => true

/-- A destination lies in the role's allocation. -/
def dstInRole (r : Role) (uni wide : Bool) : Dst → Bool
  | .v i => decide (i.toNat + (if wide then 1 else 0) < r.regs)
  | .hi i => uni || decide (i.toNat + (if wide then 1 else 0) < r.regs)
  | _ => true

/-- The safe-point mask word names only what the role holds (R123). -/
def maskInRole (r : Role) (m : DWord) : Bool :=
  ((List.range 32).all fun b => !m.getLsbD b || decide (8 * b + 8 ≤ r.regs))
    && ((List.range 4).all fun b => !m.getLsbD (48 + b) || decide (4 * b + 4 ≤ r.curs))
    && ((List.range 8).all fun b => !m.getLsbD (40 + b) || decide (2 * b + 2 ≤ r.tiles))
    && ((List.range 4).all fun b => !m.getLsbD (52 + b) || decide (2 * b + 1 ≤ r.accs))

end Sys2Proof.Machine
end

