-- ==== Sys2Proof/Machine/Bytes.lean ====
section
/-! DEFINITION. Reading and writing bytes by address for engines, walkers and the scheduler, the engine queues of a core
(spec/10_consistency_model.md R271–R275), and the snapshots of storage writes (R276). -/

namespace Sys2Proof.Machine

/-! ### Bytes by address -/

/-- Bytes of DRAM as homes answer them; true when a sector read is poisoned. -/
def physRead (s : State) (pa n : Nat) : State × List Byte × Bool :=
  let first := pa / 64
  let last := (pa + n - 1) / 64
  if n = 0 then (s, [], false)
  else
    let (s, all, bad) := (List.range (last - first + 1)).foldl
      (fun (acc : State × List Byte × Bool) i =>
        let σ := first + i
        let (s, d) := homeRead acc.1 σ
        (s, acc.2.1 ++ bytesAt d 0 64, acc.2.2 || s.mem.poison.contains σ)) (s, [], false)
    (s, (all.drop (pa - 64 * first)).take n, bad)

/-- Writes bytes at homes, one write for each sector (R490). -/
def physWrite (s : State) (crown pa : Nat) (b : List Byte) (tag : BitVec 16) : State :=
  if b.isEmpty then s
  else
    let first := pa / 64
    let last := (pa + b.length - 1) / 64
    (List.range (last - first + 1)).foldl
      (fun s i =>
        let σ := first + i
        let lo := if i = 0 then pa % 64 else 0
        let skip := if i = 0 then 0 else 64 * σ - pa
        let (d, bm) := placeBytes lo ((b.drop skip).take (64 - lo))
        rdcDropAll (homeWrite s crown σ bm d tag false none) σ) s

/-- The pages that n bytes from an address touch. -/
def pagesOf (va : DWord) (n : Nat) : List Nat :=
  if n = 0 then []
  else
    let a := va.toNat / 65536
    let b := (va.toNat + n - 1) / 65536
    (List.range (b - a + 1)).map fun i => (a + i) % 2 ^ 48

/-- Splits n bytes from an address at sector boundaries: address, offset, length. -/
def sectorPieces (va : DWord) (n : Nat) : List (DWord × Nat × Nat) :=
  if n = 0 then []
  else
    let first := va.toNat / 64
    let last := (va.toNat + n - 1) / 64
    (List.range (last - first + 1)).map fun i =>
      let lo := if i = 0 then va.toNat else 64 * (first + i)
      let hi := min (va.toNat + n) (64 * (first + i + 1))
      (BitVec.ofNat 64 lo, lo - va.toNat, hi - lo)

/-- The first address in a page of a run of addresses (R467). -/
def firstIn (base : DWord) (page : Nat) : DWord := if base.toNat / 65536 = page then base else BitVec.ofNat 64 (page * 65536)

/-- The first page of a page map that failed, with its error. -/
def firstBad (m : PageMap) : Option (Nat × XErr) :=
  m.findSome? fun e => match e.2 with | .error x => some (e.1, x) | .ok _ => none

/-- Reads bytes through a page map, as the expanded view on a codec page; `lines` holds the lines already fetched, each of which is
fetched once (R346, R348). -/
def mappedReadWith (m : PageMap) : List (DWord × Nat × Nat) → List (Nat × List Byte) → State → List Byte →
    State × Except XErr (List Byte)
  | [], _, s, acc => (s, .ok acc)
  | (va, _, n) :: r, lines, s, acc =>
    match m.look va with
    | .error e => (s, .error e)
    | .ok l =>
      let pa := leafPa l va
      if l.cmp then
        match lines.find? fun e => e.1 == pa / 256 with
        | some e => mappedReadWith m r lines s (acc ++ ((e.2.drop (pa % 256)).take n))
        | none =>
          match homeExpanded s (pa / 256) with
          | (s, .error e) => (s, .error e)
          | (s, .ok b) => mappedReadWith m r ((pa / 256, b) :: lines) s (acc ++ ((b.drop (pa % 256)).take n))
      else if s.mem.poison.contains (pa / 64) then (s, .error (.lost pa))
      else
        let (s, b, _) := physRead s pa n
        mappedReadWith m r lines s (acc ++ b)

/-- Reads bytes through a page map. -/
def mappedRead (m : PageMap) (l : List (DWord × Nat × Nat)) (s : State) (acc : List Byte) : State × Except XErr (List Byte) :=
  mappedReadWith m l [] s acc

/-- A codec store at home (R347): false when the line would not fit or is no codec line. A line that holds a poisoned sector takes no
store, and the write is lost (R490). -/
def codecStore (s : State) (crown pa : Nat) (b : List Byte) (tag : BitVec 16) : State × Bool :=
  let line := pa / 256
  match linePoison s line with
  | some σ => (noteLost s (lostWrite tag σ noCore none), true)
  | none =>
    let (s, old) := homeLine s line
    match codecPatched (s.mem.codec.contains line) old [(pa % 256, b)] with
    | none => (s, false)
    | some enc => (putLine s crown line enc tag true, true)

/-- The core that an agent writes for passes by what it holds of a line, so that its lanes find the bytes written (R257); the scheduler
holds nothing. -/
def makeWay (s : State) (core line : Nat) : State :=
  if core < 256 then (lineSectors line).foldl (fun s σ => corePass (evict s core σ) core σ) s else s

/-- Writes bytes through a page map, each page under its translation's key (R486). -/
def mappedWrite (m : PageMap) (w : Who) (b : List Byte) : List (DWord × Nat × Nat) → State → State × Option XErr
  | [], s => (s, none)
  | (va, off, n) :: r, s0 =>
    match m.look va with
    | .error e => (s0, some e)
    | .ok l =>
      let pa := leafPa l va
      let part := (b.drop off).take n
      let s := makeWay (reachKept s0 w.part l pa) w.core (pa / 256)
      if l.cmp then
        let (s, ok) := codecStore s (crownOf w.core) pa part w.tag
        if ok then mappedWrite m w b r (claim s0 w.core (some w.team) s) else (s, some .bad)
      else mappedWrite m w b r (claim s0 w.core (some w.team) (physWrite s (crownOf w.core) pa part w.tag))

/-- Reads n bytes at a virtual address at homes: the error names the first address in the failing page. -/
def virtRead (s : State) (w : Who) (va : DWord) (n : Nat) : State × Except (DWord × XErr) (List Byte) :=
  let (s, m) := translatePages w .read (pagesOf va n) s []
  match firstBad m with
  | some (p, e) => (s, .error (firstIn va p, e))
  | none =>
    let (s, r) := mappedRead m (sectorPieces va n) s []
    match r with
    | .ok b => (s, .ok b)
    | .error e => (s, .error (va, e))

/-- Writes bytes at a virtual address at homes. -/
def virtWrite (s : State) (w : Who) (va : DWord) (b : List Byte) : State × Option (DWord × XErr) :=
  let (s, m) := translatePages w .write (pagesOf va b.length) s []
  match firstBad m with
  | some (p, e) => (s, some (firstIn va p, e))
  | none =>
    let (s, r) := mappedWrite m w b (sectorPieces va b.length) s
    (s, r.map fun e => (va, e))

/-- An acquire at .sys of an agent in no narrow scope, over n bytes: sectors marked are published first (R252, R265). -/
def publishRange (s : State) (w : Who) (va : DWord) (n : Nat) : State :=
  let (s, m) := translatePages w .read (pagesOf va n) s []
  (sectorPieces va n).foldl
    (fun s x => match m.look x.1 with | .ok l => forcePublishFar s (leafPa l x.1 / 64) | .error _ => s) s

/-- The scheduler's accesses under a context (R522): no core's TLB holds their translations. -/
def scheduler (part ctx : Nat) : Who := ⟨4096, 0, part, ctx⟩

/-- Translates a datum for the scheduler or an engine and keeps the physical address (R445). -/
def capture (s : State) (w : Who) (va : DWord) (k : Kind) : State × Except XErr Phys :=
  let (s, r) := translate s w va k
  match r with
  | .ok l => (s, .ok ⟨leafPa l va, l⟩)
  | .error e => (s, .error e)

/-! ### The queues of a core (R271, R274, R443) -/

/-- A core's queue of engine entries. -/
def entriesOf (c : Core) (q : Queue) : List Entry :=
  match q with
  | .cpy => c.cpy
  | .dec => c.dec
  | .sto => c.sto
  | .root => c.root
  | _ => []

/-- Writes a core's queue of engine entries. -/
def setEntries (c : Core) (q : Queue) (l : List Entry) : Core :=
  match q with
  | .cpy => { c with cpy := l }
  | .dec => { c with dec := l }
  | .sto => { c with sto := l }
  | .root => { c with root := l }
  | _ => c

/-- The four queues whose entries write stamps. -/
def stampQueues : List Queue := [.cpy, .dec, .sto, .root]

/-- Queue code (R443). -/
def queueNum : Queue → Nat
  | .mat => 0 | .cpy => 1 | .dec => 2 | .sto => 3 | .root => 4 | .ring => 5

/-- Every queue of a core. -/
def allQueues : List Queue := [.mat, .cpy, .dec, .sto, .root, .ring]

/-- The entry numbers that a queue holds, oldest first. -/
def queueIds (c : Core) (q : Queue) : List Nat :=
  match q with
  | .mat => c.mat.map (·.id)
  | .ring => c.ring.map (·.id)
  | _ => (entriesOf c q).map (·.id)

/-- Whether a queue set names a queue (R318). -/
def inSet (set : BitVec 6) (q : Queue) : Bool := set.getLsbD (queueNum q)

/-- Whether an entry enqueued before number `n` stands in a queue of a set. -/
def holdsBefore (c : Core) (set : BitVec 6) (n : Nat) : Bool :=
  allQueues.any fun q => inSet set q && (queueIds c q).any fun i => decide (i < n)

/-- Whether the QFENCEs of a core let an entry start (R274). -/
def fencesAllow (c : Core) (q : Queue) (id : Nat) : Bool :=
  c.fences.all fun f => !inSet f.set q || decide (id < f.after) || !holdsBefore c f.set f.after

/-! ### Agents (R7, R491–R493) -/

/-- The number an engine has among the agents (R7). -/
def engineNum : EngineId → Nat
  | .copy c => 1024 + c
  | .decomp c => 1028 + c
  | .storage => 1032
  | .peer => 1033
  | .root s => 1040 + s

/-- The number an agent has among the copies and the incarnations. -/
def agentNum : AgentId → Nat
  | .core n => n
  | .bough n => 256 + n
  | .home n => 512 + n
  | .engine e => engineNum e

/-- The accesses of an entry are made under its enqueuing context (R427). -/
def entryWho (core : Nat) (e : Entry) : Who := ⟨core, e.team, e.part, e.ctx⟩

/-- The engine of a core's entries of an opcode, but for the root dies' (R7, R428–R437). -/
def engineOf (core opc : Nat) : Option EngineId :=
  if opc ≤ 0xC3 then some (.copy (crownOf core))
  else if opc = 0xC4 then some (.decomp (crownOf core))
  else if opc = 0xC5 then some .storage
  else if opc = 0xC6 then some .peer
  else none

/-- The engine that an entry runs on: for a root queue's the root die of the stack that holds its large operand (R438). -/
def entryEngine (s : State) (core : Nat) (e : Entry) : Option EngineId :=
  if e.opc < 0xC7 then engineOf core e.opc
  else
    let va := BitVec.ofNat 64 (field e.block 0x10 8)
    match (translate s (entryWho core e) va .read).2 with
    | .ok l => some (.root (leafPa l va / 2 ^ 36))
    | .error _ => none

/-- Whether an engine is dead, and takes no entry (R493). -/
def engineDead (s : State) (e : Option EngineId) : Bool :=
  match e with
  | some e => s.deadAgents.contains (engineNum e)
  | none => false

/-- Whether an entry of a queue stands before an engine that is dead. -/
def engineShut (s : State) (core : Nat) (e : Entry) : Bool :=
  !s.deadAgents.isEmpty && engineDead s (entryEngine s core e)

/-! ### Command blocks and storage commands (R426, R436, R515) -/

/-- OP of a block's header. -/
def blockOp (b : List Byte) : Nat := field b 0x0F 1

/-- Bytes of a block from `off` on are zero. -/
def zeroBytes (b : List Byte) (off n : Nat) : Bool := field b off n == 0

/-- A block's header is within its limits: reserved bits, the scope code, OP up to `top` (R426). -/
def headerOk (b : List Byte) (top : Nat) : Bool :=
  let m := field b 0x0E 1
  decide (m % 8 ≤ 4) && decide (m / 8 = 0) && decide (blockOp b ≤ top)

/-- STQ's body (R436). -/
def stqOk (b : List Byte) : Bool :=
  headerOk b 2 && decide (field b 0x10 8 % 64 = 0) && (blockOp b != 0 || zeroBytes b 0x10 8)
    && decide (field b 0x24 1 ≤ if blockOp b = 1 then 1 else 0) && zeroBytes b 0x25 27

/-- Where a storage command names a binding that is bound: its LBA size in bits, whether it caches writes, its size in
LBAs (R515). -/
def nsBinding (s : State) (part nsb : Nat) : Option (Nat × Bool × Nat) :=
  match (tget s.parts part).bind fun p => tget p.binds (256 + nsb) with
  | some (.ns _ _ lba _ _ size valid wc) => if valid ∧ nsb < 256 then some (lba, wc, size.toNat) else none
  | _ => none

/-- Transfer length of a storage command with LBAs of 2^lba bytes. -/
def stqBytes (b : List Byte) (lba : Nat) : Nat := if blockOp b = 0 then 0 else (field b 0x22 2 + 1) * 2 ^ lba

/-! ### Snapshots of storage writes (R271, R276) -/

/-- The state's own contents of a sector: the owner's copy over memory. -/
def coherentData (s : State) (σ : Nat) : BitVec 512 :=
  match s.mem.copies.find? fun c => c.sector == σ && c.st == .owned with
  | some c => mergeBytes (homeData s σ) c.data (wordBytes c.dirty)
  | none => homeData s σ

/-- A core's view of a sector: what it holds dirty in its L1 over the state's own contents (R232). -/
def coreView (s : State) (core σ : Nat) : BitVec 512 :=
  match copyOf s core σ with
  | some c => mergeBytes (coherentData s σ) c.data (wordBytes c.dirty)
  | none => coherentData s σ

/-- A byte of a window that is dirty (R239). -/
def windowByte (s : State) (w : Who) (va : DWord) : Option Byte :=
  match windowAt s w.core w.team va, getTeam s w.team with
  | some b, some t =>
    let off := va.toNat - b.base.toNat
    if (cget b.dbits (off / 64)).getLsbD (off % 64 / 4) then some (cget t.scratch (b.off + off)) else none
  | _, _ => none

/-- A byte of memory through a page map as a team on a core has left it: in its window, in the expanded view of a codec page, or in
its core's view of the sector; none where the page does not translate. -/
def viewByte (s : State) (w : Who) (m : PageMap) (va : DWord) : Option Byte :=
  match m.look va with
  | .error _ => none
  | .ok l =>
    let pa := leafPa l va
    match windowByte s w va with
    | some b => some b
    | none =>
      if l.cmp then
        match (homeExpanded s (pa / 256)).2 with
        | .ok b => b[pa % 256]?
        | .error _ => none
      else (bytesAt (coreView s w.core (pa / 64)) (pa % 64) 1).head?

/-- The QFENCEs of a core make a later storage write wait for an entry (R274). -/
def fencedAfter (c : Core) (q : Queue) (id : Nat) (x : Entry) : Bool :=
  c.fences.any fun f => inSet f.set q && inSet f.set .sto && decide (id < f.after) && decide (f.after ≤ x.id)

/-- The buffer of a storage write that has not been submitted: its address and its length (R276, R436). -/
def snapBuf (s : State) (e : Entry) : Option (Nat × Nat) :=
  if e.opc == 0xC5 && e.st == .waiting && stqOk e.block && blockOp e.block == 1 then
    (nsBinding s e.part (field e.block 0x20 2)).bind fun b =>
      if stqBytes e.block b.1 ≤ 2 ^ 20 then some (field e.block 0x10 8, stqBytes e.block b.1) else none
  else none


/-- Before an entry is enqueued or starts, its core pushes its dirty-untracked words and the dirty words of the team's windows (R272). -/
def pushForEntry (s : State) (core team : Nat) : State := flushWindows false (pushDirty false s core) core team .sys

/-- A byte of a snapshot after memory changed: what comes after the storage write leaves it the byte it found; what it must see
replaces the byte it took (R271, R276). -/
def snapByte (later : Bool) (have_ old new : Option Byte) : Option Byte :=
  if old = new then have_ else if later then have_.orElse fun _ => old else have_.map fun b => new.getD b

/-- A storage write after memory changed from `s0` to `s1`, by what is enqueued or performed after it (`later`), or by what it must see. -/
def noteChange (s0 s1 : State) (core : Nat) (later : Bool) (e : Entry) : Entry :=
  match snapBuf s1 e with
  | none => e
  | some (base, n) =>
    let w := entryWho core e
    let m := (translatePages w .read (pagesOf (BitVec.ofNat 64 base) n) s0 []).2
    { e with snap := (List.range n).map fun i =>
        let va := BitVec.ofNat 64 (base + i)
        snapByte later (e.snap.getD i none) (viewByte s0 w m va) (viewByte s1 w m va) }

/-- A group's instruction changed memory: the storage writes that it had enqueued before keep what they found (R276). -/
def noteGroup (s0 : State) (core gid : Nat) (s1 : State) : State :=
  let c := getCore s1 core
  if c.sto.isEmpty then s1
  else
    let note (x : Entry) : Entry := if x.gid = gid ∧ x.id < s0.nextId then noteChange s0 s1 core true x else x
    setCore s1 core { c with sto := c.sto.map note }

/-- An entry of a queue wrote memory: the storage writes enqueued before it keep what they found; those after it in its queue, and
those that a QFENCE holds back for it, see what it wrote (R271, R276). -/
def noteEntry (s0 : State) (core : Nat) (q : Queue) (id : Nat) (s1 : State) : State :=
  let c := getCore s1 core
  if c.sto.isEmpty then s1
  else
    let note (x : Entry) : Entry :=
      if x.id < id then noteChange s0 s1 core true x
      else if id < x.id ∧ (q = .sto ∨ fencedAfter c q id x) then noteChange s0 s1 core false x
      else x
    setCore s1 core { c with sto := c.sto.map note }

/-- Takes what a snapshot of n bytes still lacks (R276). -/
def snapRest (s : State) (w : Who) (base n : Nat) (snap : List (Option Byte)) : State × Except (DWord × XErr) (List (Option Byte)) :=
  let have_ := (List.range n).map fun i => snap.getD i none
  if have_.all Option.isSome then (s, .ok have_)
  else
    let (s, r) := virtRead s w (BitVec.ofNat 64 base) n
    match r with
    | .ok d => (s, .ok (List.zipWith (fun (x : Option Byte) y => x.orElse fun _ => some y) have_ d))
    | .error e => (s, .error e)

/-- A storage write takes its snapshot when it may start (R276); what does not translate is taken as it is submitted. -/
def takeSnap (s : State) (core : Nat) (e : Entry) : State × Entry :=
  if fencesAllow (getCore s core) .sto e.id then
    match snapBuf s e with
    | some (base, n) =>
      let (s, r) := snapRest (pushForEntry s core e.team) (entryWho core e) base n e.snap
      match r with
      | .ok l => (s, { e with snap := l })
      | .error _ => (s, e)
    | none => (s, e)
  else (s, e)

/-- Something left a queue of a core: the storage writes that a QFENCE held back for it take their snapshots (R276). -/
def takeSnaps (s : State) (core : Nat) : State :=
  (getCore s core).sto.foldl
    (fun s e =>
      let (s, e') := takeSnap s core e
      let c := getCore s core
      setCore s core { c with sto := c.sto.map fun x => if x.id == e.id then e' else x }) s

end Sys2Proof.Machine
end

