-- ==== Sys2Proof/Machine/Ops.lean ====
section
/-! DEFINITION. Operations that meanings share: stamps, fault records, taking a fault (spec/20_faults_preemption_security.md R462–R474) with the return from
a handler beside it, the end of a context and of a team, and the frame of one issued instruction. -/

namespace Sys2Proof.Machine

/-- Outcome of a step. -/
abbrev Out := Host.Outcome State Fault Refusal

/-! ### Stamps (R275, R412, R425) -/

/-- A completion status (R425). -/
def statusOf (code detail : Nat) : BitVec 16 := BitVec.ofNat 16 (code * 4096 + min detail 4095)

/-- A stamp word (R275). -/
def stampWord (status : BitVec 16) (seq : Nat) : Nat := status.toNat * 2 ^ 48 + seq % 2 ^ 48

/-- Writes a stamp through a captured translation (R275, R346): on a codec page into the expanded view; one that its line cannot take
ends the context with BAD_BLOCK (R347). -/
def physStamp (s : State) (crown part ctx : Nat) (p : Phys) (word : Nat) : State :=
  let tag := BitVec.ofNat 16 (part * 1024 + ctx)
  let s := reachKept s part p.leaf p.pa
  if p.leaf.cmp then
    let (s, ok) := codecStore s crown p.pa (leBytes 8 word) tag
    if ok then s else noteLost s ⟨part, ctx, 8, 0, p.pa, noCore, none⟩
  else physWrite s crown p.pa (leBytes 8 word) tag

/-- Writes an engine entry's stamp through the translation it captured (R445). -/
def stampEntry (s : State) (core : Nat) (e : Entry) (status : BitVec 16) : State :=
  claim s core (some e.team) (physStamp s (crownOf core) e.part e.ctx e.stamp (stampWord status (field e.block 8 6)))

/-- Writes the stamps of the entries at a queue's head that are done, in order (R271). -/
def drainDone (core : Nat) (q : Queue) : List Entry → State → State × List Entry
  | [], s => (s, [])
  | e :: r, s =>
    match e.st with
    | .done st => drainDone core q r (noteEntry s core q e.id (stampEntry s core e st))
    | _ => (s, e :: r)

/-- A group that waits for a slot of one of its core's queues, or for an entry that names its tile, tries again. -/
def wakeSlot (s : State) (core : Nat) (g : Group) : Group :=
  if g.core == core && g.wait == .slot then
    { g with wait := .none, readySince := s.cycle, freeAt := max g.freeAt s.cycle, lastVer := g.prevVer, lastMask := g.prevMask, stopDue := false }
  else g

/-- Something left a queue of a core (R276, R386, R388, R444). -/
def wakeSlots (s : State) (core : Nat) : State :=
  let s := takeSnaps s core
  { s with groups := tmap s.groups fun _ g => wakeSlot s core g }

/-- Writes stamps due in one queue of a core, whose entries then leave it. -/
def drainQueue (s : State) (core : Nat) (q : Queue) : State :=
  let old := entriesOf (getCore s core) q
  let (s, l) := drainDone core q old s
  let c := getCore s core
  if l.length = old.length then s
  else wakeSlots (setCore s core (setEntries c q ((entriesOf c q).drop (old.length - l.length)))) core

/-- The completion stamp of a grid's launch (R412); nothing when STAMP does not translate as a write or is no multiple
of 16, and then false. -/
def stampGrid (s : State) (g : Grid) (status : BitVec 16) : State × Bool :=
  let a := field g.block 0x68 8
  if a % 16 ≠ 0 then (s, false)
  else
    let (s, r) := capture s (scheduler g.part g.ctx) (BitVec.ofNat 64 a) .write
    match r with
    | .ok p =>
      (physStamp s (p.pa / 2 ^ 38) g.part g.ctx p (stampWord status g.seq), true)
    | .error _ => (s, false)

/-! ### Fault records (R463–R469) -/

/-- Appends a record for the fault queue; it is written when its turn comes and space is free (R469). -/
def record (s : State) (r : FaultRec) : State := { s with faults := s.faults ++ [r] }

/-- A record with nothing in it but its class and place. -/
def blankRec (s : State) (part ctx cls : Nat) : FaultRec where
  num := 0
  part := part
  cls := cls
  cause := 0
  flags := 0
  ctx := ctx
  core := 0xFFFF
  lq := 0xFFFF
  code := 0
  team := 0
  pc := 0
  addr := 0
  lanes := 0
  grp := 0
  nrec := 0
  time := timeOf s
  awaits := .none
  at_ := none

/-- The grid of a group. -/
def gridOf (s : State) (g : Group) : Option Grid := (getTeam s g.team).bind fun t => tget s.grids t.grid

/-- Who a group's accesses are made by. -/
def whoOf (s : State) (g : Group) : Who :=
  match gridOf s g with
  | some gr => ⟨g.core, g.team, gr.part, gr.ctx⟩
  | none => ⟨g.core, g.team, 0, 0⟩

/-- The record of a fault of a group's instruction. -/
def groupRec (s : State) (g : Group) (cls : Nat) : FaultRec :=
  let w := whoOf s g
  { blankRec s w.part w.ctx cls with
    core := g.core
    lq := match gridOf s g with | some gr => gr.queue | none => 0xFFFF
    team := match getTeam s g.team with | some t => t.index | none => 0
    pc := g.pc
    grp := g.gnum % 32 + 32 * (g.role % 4) }

/-- A record of which the core, and the team where it is known, of what was lost are named (R467). -/
def recOf (s : State) (r : FaultRec) (core : Nat) (tid : Option Nat) : FaultRec :=
  let r := { r with core := if core < 256 then core else noCore }
  match tid.bind (getTeam s) with
  | some t => { r with team := t.index, lq := match tget s.grids t.grid with | some g => g.queue | none => 0xFFFF }
  | none => r

/-- Classes a handler may catch (R463). -/
def catchable (cls : Nat) : Bool := [2, 3, 4, 6, 9, 10, 11].contains cls

/-! ### Barriers (R320) -/

/-- Resident groups of a team, or of one of its roles. -/
def residents (s : State) (tid : Nat) (role : Option Nat) : List Nat :=
  (s.groups.filter fun e => e.2.team == tid && match role with | some r => e.2.role == r | none => true).map (·.1)

/-- The group continues at the next instruction. -/
def advance (g : Group) (len : Nat) : Group := { g with pc := g.pc + BitVec.ofNat 64 len }

/-- A long-latency stall of a parked group (R38, R357); `stalled` adds that of a group which awaits results. -/
def longStall (s : State) (g : Group) : Bool :=
  match g.wait with
  | .watch _ t | .overflow _ t => !t.phase || decide (g.waitSince + 64 < s.cycle)
  | .mbxRead _ _ _ _ _ | .mbxWrite _ _ | .batch _ | .capture => true
  | .bar _ _ | .barLate _ _ | .bbar _ | .bbarFull _ | .regroup _ _ | .paired _ _ _ _ | .spawn _ =>
    decide (g.waitSince + 64 < s.cycle)
  | _ => false

/-- A group that waited is ready. -/
def awake (s : State) (g : Group) : Group :=
  { g with wait := .none, readySince := s.cycle, freeAt := max g.freeAt s.cycle,
           lastStall := if longStall s g then s.cycle else g.lastStall }

/-- A group leaves a wait and stands after its instruction. -/
def leaveWait (s : State) (gid : Nat) : State :=
  match getGroup s gid with
  | some g => setGroup s gid (advance (awake s g) g.parkLen)
  | none => s

/-- A group stands before the instruction it waited in, as if that had not issued. -/
def unissued (s : State) (g : Group) : Group := { awake s g with lastVer := g.prevVer, lastMask := g.prevMask, stopDue := false }

/-- A group leaves a wait and stands before its instruction, to execute it again. -/
def retryWait (s : State) (gid : Nat) : State :=
  match getGroup s gid with
  | some g => setGroup s gid (unissued s g)
  | none => s

/-- Completes the phase of a barrier whose counted groups have all arrived: they depart, each with an acquire, and the
late ones open the next phase (R255, R320). -/
def settleBarrier (s : State) (tid key : Nat) : State :=
  match (getTeam s tid).bind fun t => (tget t.bars key).map fun b => (t, b) with
  | none => s
  | some (t, b) =>
    if !b.arrived.isEmpty && b.counted.all (b.arrived.contains ·) then
      let role := if key < 16 then none else some (key / 16 - 1)
      let next : Barrier := ⟨b.phase + 1, if b.late.isEmpty then [] else residents s tid role, b.late, []⟩
      let s := setTeam s tid { t with bars := tset t.bars key next }
      let s := b.arrived.foldl (fun s gid => leaveWait s gid) s
      acquireAt s t.core tid .team
    else s

/-- A retiring group is no longer counted by the team's barriers (R320). -/
def leaveBarriers (s : State) (tid gid : Nat) : State :=
  match getTeam s tid with
  | none => s
  | some t =>
    let t' := { t with bars := tmap t.bars fun _ b =>
      { b with counted := b.counted.filter (· != gid), arrived := b.arrived.filter (· != gid),
               late := b.late.filter (· != gid) } }
    (t'.bars.map (·.1)).foldl (fun s k => settleBarrier s tid k) (setTeam s tid t')

/-- A retiring group leaves the copies that wait for its slice (R448). -/
def leaveCopies (s : State) (core gid : Nat) : State :=
  let c := getCore s core
  setCore s core { c with cpy := c.cpy.map fun e => { e with counted := e.counted.filter (· != gid) } }

/-- Whether a retired group still awaits results (R155). -/
def Leaving.waits (c : Core) (now : Nat) (l : Leaving) : Bool := decide (now < l.till) || c.ring.any fun e => e.gid == l.gid

/-- A group leaves a core: its registers stay allocated while it awaits results (R155). -/
def leaveCore (s : State) (gid : Nat) (g : Group) : State :=
  let c := getCore s g.core
  let l : Leaving := ⟨gid, (roleOf s g).regs, max g.fixedBack (max g.lateBack g.missBack)⟩
  setCore s g.core { c with leaving := (l :: c.leaving).filter fun x => x.waits c s.cycle }

/-- What is left of a bin's timer: nothing of one that a waiting launch has closed (R49). -/
def Bin.remaining (now : Nat) (b : Bin) : Nat :=
  b.left.getD (match b.till with | some t => t - now | none => 0)

/-- Once every group of a team that is to stop has stopped, its bins' timers freeze (R478). -/
def freezeBins (s : State) (tid : Nat) : State :=
  match getTeam s tid with
  | none => s
  | some t =>
    let all := s.groups.all fun e => e.2.team != tid || match e.2.wait with | .stopped _ => true | _ => false
    match t.st, all with
    | .stopping _, true =>
      let c := getCore s t.core
      let freeze (b : Bin) : Bin := if b.team = tid then { b with left := some (b.remaining s.cycle) } else b
      setCore s t.core { c with bins := tmap c.bins fun _ b => freeze b }
    | _, _ => s

/-- A group retires (R53, R58, R60, R155): it is removed; its engine and matrix entries go on. -/
def retireGroup (s : State) (gid : Nat) : State :=
  match getGroup s gid with
  | none => s
  | some g =>
    let s := leaveCore s gid g
    let s := { s with groups := tdel s.groups gid }
    let c := getCore s g.core
    let s := if c.mat.any (·.gid == gid) then setCore s g.core { c with ghosts := tset c.ghosts gid g } else s
    freezeBins (leaveCopies (leaveBarriers s g.team gid) g.core gid) g.team

/-! ### Ending teams and contexts (R464, R465) -/

/-- Writes back and drops the windows of a team (R60, R239). -/
def dropWindows (spare : Bool) (s : State) (tid : Nat) : State :=
  let s := (s.mem.windows.filter fun w => w.team == tid).foldl (fun s w => windowFlush spare s w.core w.index) s
  { s with mem := { s.mem with windows := s.mem.windows.filter fun w => w.team != tid } }

/-- The entries of a queue that `mine` selects and that have not started are to write `status`; one parked on a
translation fault writes FAULT, detail 1 (R427, R464). -/
def cancelEntries (mine : Entry → Bool) (l : List Entry) : List Entry :=
  l.map fun e =>
    if mine e then
      match e.st with
      | .waiting => { e with st := .done (statusOf 4 0) }
      | .parked _ | .faulting _ _ => { e with st := .done (statusOf 2 1) }
      | _ => e
    else e

/-- Cancels what `mine`, `mineM` and `mineR` select in every queue of a core (R427, R464, R465). -/
def cancelCore (mine : Entry → Bool) (mineM : MatEntry → Bool) (mineR : RingEntry → Bool) (s : State) (k : Nat) : State :=
  let c := getCore s k
  let c := { c with
    cpy := cancelEntries mine c.cpy
    dec := cancelEntries mine c.dec
    sto := cancelEntries mine c.sto
    root := cancelEntries mine c.root
    mat := c.mat.filter fun e => e.finish.isSome || !mineM e
    ring := c.ring.filter fun e => !mineR e }
  stampQueues.foldl (fun s q => drainQueue s k q) (setCore s k c)

/-- The cores with a record in the state. -/
def listedCores (s : State) : List Nat := s.cores.map (·.1)

/-- Groups leave the bough barriers at which they have arrived: as if they had not, so that an entry which loses its last arrival is
free (R285, R321). -/
def leaveBough (gone : Nat → Bool) (l : List BoughBar) : List BoughBar :=
  (l.filter fun b => b.arrived.isEmpty || !b.arrived.all gone).map fun b => { b with arrived := b.arrived.filter fun n => !gone n }

/-- Removes a team: its groups, bins, mailboxes, scratchpad, barrier places and save slot go (R465). -/
def removeTeam (s : State) (tid : Nat) : State :=
  match getTeam s tid with
  | none => s
  | some t =>
    let c := getCore s t.core
    let s := setCore s t.core { c with bins := c.bins.filter fun b => b.2.team != tid }
    let s := { s with
      groups := s.groups.filter fun e => e.2.team != tid
      boughBars := leaveBough (fun gid => s.groups.any fun e => e.1 == gid && e.2.team == tid) s.boughBars
      teams := tdel s.teams tid }
    match tget s.grids t.grid with
    | some g =>
      match tget s.parts g.part with
      | some p => { s with parts := tset s.parts g.part { p with slotsUsed := p.slotsUsed.filter (· != t.slot) } }
      | none => s
    | none => s

/-- The teams of a context. -/
def teamsOf (s : State) (part ctx : Nat) : List Nat :=
  (s.teams.filter fun e =>
    match tget s.grids e.2.grid with
    | some g => g.part == part && g.ctx == ctx
    | none => false).map (·.1)

/-- The launch queues bound to a context (R485). -/
def queueCtx (s : State) (q : QueueBody) : Option (Nat × Nat) := (tget s.vfs q.vf).map fun v => (v.part, v.ctx)

/-- Refuses a block that cannot be stamped by a LAUNCH_REFUSED record (R411). -/
def refusedRecord (s : State) (g : Grid) (detail : Nat) : State :=
  record s { blankRec s g.part g.ctx 19 with lq := g.queue, addr := g.blockAddr, code := detail }

/-- Whether a launch, named by its lead grid, has not ended: a pipeline's has a grid for each stage (R418). -/
def launchOpen (s : State) (lead : Nat) : Bool := s.grids.any fun e => e.2.lead == lead && e.2.st != .ended

/-- What a launch's stamp says of an overrun or fault that befell it, if one did: the detail of OVERRUN is the number of teams that
overran (R424). -/
def Grid.ending (g : Grid) : Option (BitVec 16) :=
  g.outcome.map fun o => if o.2.2.toNat / 4096 = 3 then statusOf 3 g.overruns else o.2.2

/-- An overrun or fault befalls a launch, named by its lead grid: the first in `%time` decides, and among equal times that of the lower
team (R424). -/
def Grid.befall (g : Grid) (time team : Nat) (st : BitVec 16) : Grid :=
  match g.outcome with
  | some o => if time < o.1 ∨ (time = o.1 ∧ team < o.2.1) then { g with outcome := some (time, team, st) } else g
  | none => { g with outcome := some (time, team, st) }

/-- Ends one grid of a context that ends: a block not yet eligible writes CANCELLED, or a record; a running grid writes
FAULT and the class, unless an overrun came first (R424, R464 steps 4 and 5). -/
def endGrid (r : FaultRec) (s : State) (gid : Nat) : State :=
  match tget s.grids gid with
  | none => s
  | some g =>
    if !launchOpen s g.lead then s
    else
      let s := { s with grids := tset s.grids gid { g with st := .ended } }
      if g.lead ≠ gid then s
      else if g.st = .read then
        let (s, ok) := stampGrid s g (statusOf 4 0)
        if ok then s else refusedRecord s g 3
      else (stampGrid s g (((g.befall r.time r.team (statusOf 2 r.cls)).ending).getD (statusOf 2 r.cls))).1

/-- Disables a queue bound to a context (R464 step 4). -/
def disableQueue (s : State) (part ctx : Nat) (q : QueueBody) : QueueBody :=
  if queueCtx s q == some (part, ctx) then { q with enabled := false } else q

/-- A recoverable fault of a context that ended is not serviced. -/
def forgetFault (part ctx : Nat) (f : FaultRec) : FaultRec :=
  if f.part == part && f.ctx == ctx then { f with awaits := .none } else f

/-- Cores that hold dirty words of a partition's memory: a copy's tag names the context that wrote it last, so that every context of the
partition counts. -/
def dirtyCores (s : State) (part : Nat) : List Nat :=
  distinct ((s.mem.copies.filter fun c => c.dirty != 0 && c.tag.toNat / 1024 == part && decide (c.agent < 256)).map (·.agent))

/-- The entries that a saved team took with it have not started: each writes CANCELLED (R464). -/
def cancelKept (s : State) (tid : Nat) : State :=
  match getTeam s tid with
  | some t => t.kept.entries.foldl (fun s e => stampEntry s t.core e (statusOf 4 0)) s
  | none => s

/-- A context ends (R464); `r` is the record that goes to the fault queue. -/
def endContext (s : State) (r : FaultRec) : State :=
  let part := r.part
  let ctx := r.ctx
  match (tget s.parts part).bind fun p => (tget p.ctxs ctx).map fun c => (p, c) with
  | none => s
  | some (p, c) =>
    if c.ended then s
    else
      let s := { s with parts := tset s.parts part { p with ctxs := tset p.ctxs ctx { c with ended := true } } }
      let tids := teamsOf s part ctx
      let cores := distinct (tids.filterMap fun t => (getTeam s t).map (·.core))
      -- 1 and 2: groups stop; windows and dirty-untracked words are written back
      let s := tids.foldl (fun s t => dropWindows true s t) s
      let cores := distinct (cores ++ dirtyCores s part)
      let s := cores.foldl (fun s k => pushDirty true s k) s
      -- 3: queue entries
      let s := (listedCores s).foldl (fun s k => cancelCore (fun e => e.part == part && e.ctx == ctx)
        (fun e => tids.contains e.team) (fun e => tids.contains e.team) s k) s
      let s := tids.foldl cancelKept s
      let s := tids.foldl (fun s t => removeTeam s t) s
      -- 4: launch queues
      let s := { s with queues := tmap s.queues fun _ q => disableQueue s part ctx q }
      -- 4 and 5: grids
      let gids := (s.grids.filter fun e => e.2.part == part && e.2.ctx == ctx).map (·.1)
      let s := gids.foldl (fun s g => endGrid r s g) s
      let s := { s with
        rings := s.rings.filter fun x => !gids.contains x.lead
        boughBars := s.boughBars.filter fun b => !gids.contains b.grid }
      -- pending recoverable faults of the context are never serviced
      let s := { s with faults := s.faults.map (forgetFault part ctx) }
      -- 6
      record s { r with flags := r.flags ||| 4 }

/-- A team ends while its grid continues (R465). -/
def endTeam (s : State) (tid cls : Nat) : State :=
  match getTeam s tid with
  | none => s
  | some t =>
    match tget s.grids t.grid with
    | none => s
    | some g =>
      let s := (residents s tid none).foldl (fun s gid => leaveCopies s t.core gid) s
      let s := pushDirty true (dropWindows true s tid) t.core
      let s := cancelCore (fun e => e.team == tid) (fun e => e.team == tid) (fun e => e.team == tid) s t.core
      let s := removeTeam s tid
      let s := { s with grids := tset s.grids t.grid { g with endedTeams := g.endedTeams + 1 } }
      record s { blankRec s g.part g.ctx cls with core := t.core, lq := g.queue, team := t.index }

/-! ### Ending a partition (R488) -/

/-- Whether a partition has engine entries that have still to write their stamps. -/
def partBusy (s : State) (part : Nat) : Bool :=
  s.cores.any fun c => stampQueues.any fun q => (entriesOf c.2 q).any fun e => e.part == part

/-- A partition's granules zeroed, with every copy of their sectors and every translation of the partition gone. -/
def zeroGranules (m : Mem) (part : Nat) (own : Nat → Bool) : Mem :=
  { m with
    dram := ckeep (w := 8) m.dram fun a => !own (a / 2 ^ 34)
    pageKeys := m.pageKeys.filter fun e => !own (e.1 / 2 ^ 18)
    tags := ckeep m.tags fun σ => !own (σ / 2 ^ 28)
    poison := m.poison.filter fun σ => !own (σ / 2 ^ 28)
    codec := m.codec.filter fun l => !own (l / 2 ^ 26)
    copies := m.copies.filter fun c => !own (c.sector / 2 ^ 28)
    tlbs := m.tlbs.filter fun e => e.part != part
    rdc := m.rdc.filter fun e => !own (e.sector / 2 ^ 28)
    marks := m.marks.filter fun e => !own (e.sector / 2 ^ 28)
    held := m.held.filter fun e => e.kind != 2 || !own (e.num / 2 ^ 28)
    lost := m.lost.filter fun l => l.part != part }

/-- A lineage bound to a partition that ends is IDLE (log 35). -/
def freeLineage (part : Nat) (l : Lineage) : Lineage := if l.st = .bound part then { l with st := .idle } else l

/-- Steps 3 to 5 of R488: keys unloaded, granules zeroed, everything freed. -/
def closePartition (s : State) (part : Nat) : State :=
  match tget s.parts part with
  | none => s
  | some p =>
    let mine (q : QueueBody) : Bool := match tget s.vfs q.vf with | some v => v.part == part | none => false
    let parts := tdel s.parts part
    { s with
      mem := zeroGranules s.mem part fun g => decide (g < 64) && p.body.granules.getLsbD g
      parts := parts
      queues := s.queues.filter fun q => !mine q.2
      vfs := s.vfs.filter fun v => v.2.part != part
      timed := tdel s.timed part
      grids := s.grids.filter fun g => g.2.part != part
      faults := s.faults.filter fun f => f.part != part
      lastFaults := s.lastFaults.filter fun f => f.2.part != part
      lineages := s.lineages.map (freeLineage part)
      device := if parts.isEmpty && s.device == .run then .ready else s.device }

/-- Closes every ending partition whose entries have written their stamps. -/
def closeQuiet (s : State) : State :=
  (s.parts.filter fun p => p.2.ending && !partBusy s p.1).foldl (fun s p => closePartition s p.1) s

/-- A partition ends (R488): its contexts end now, and the rest follows when its entries have written their stamps. -/
def endPartition (s : State) (part cls : Nat) : State :=
  match tget s.parts part with
  | none => s
  | some p =>
    let s := p.ctxs.foldl (fun s c => endContext s (blankRec s part c.1 cls)) s
    let s := match tget s.parts part with
      | some p => { s with parts := tset s.parts part { p with ending := true } }
      | none => s
    closeQuiet s

/-! ### Taking a fault and returning from a handler (R471–R474) -/

/-- ACTIVE of `%trapinfo` (R473). -/
def trapActive (g : Group) : Bool := g.trapinfo.getLsbD 28

/-- `%trapinfo` as a handler finds it (R473). -/
def trapInfo (r : Raise) (depth : Nat) : DWord :=
  BitVec.ofNat 64 (r.cls % 256 + r.cause % 256 * 2 ^ 8 + r.code % 4096 * 2 ^ 16 + 2 ^ 28 + depth % 32 * 2 ^ 29)

/-- Entry of the team's handler (R472): the results of the group are due, the resume address, mask and `fmt` go on the
reconvergence stack, the trap registers are written, the faulting lanes are enabled and the handler is next. -/
def enterHandler (s : State) (gid : Nat) (g : Group) (len : Nat) (r : Raise) (handler : DWord) : State :=
  let g1 := commitAll g s.cycle
  let resume := if r.cls = 2 then g.pc else g.pc + BitVec.ofNat 64 len
  setGroup s gid { g1 with
    stack := ⟨resume, g.mask, g.fmt⟩ :: g.stack
    trapinfo := trapInfo r g.stack.length
    trappc := g.pc
    trapaddr := r.addrs.foldl (fun acc e => cset acc e.1 e.2) []
    mask := r.lanes
    pc := handler
    wait := .none }

/-- ACTIVE clears when the stack depth has returned to DEPTH (R474). -/
def clearActive (g : Group) : Group :=
  if trapActive g && decide (g.stack.length ≤ g.trapinfo.toNat / 2 ^ 29 % 32) then
    { g with trapinfo := g.trapinfo &&& ~~~(BitVec.ofNat 64 (2 ^ 28)) }
  else g

/-- The record of a precise fault (R467). -/
def raiseRec (s : State) (g : Group) (r : Raise) : FaultRec :=
  { groupRec s g r.cls with
    cause := if r.cls = 15 then r.cause else 0
    flags := 1
    code := if r.cls = 3 then r.code else 0
    addr := match r.addrs with | (_, a) :: _ => a | [] => 0
    lanes := r.lanes }

/-- A ring entry of the group has not been performed. -/
def ringOwes (s : State) (gid : Nat) (g : Group) : Bool := (getCore s g.core).ring.any fun e => e.gid == gid

/-- The handler of a group's team. -/
def handlerOf (s : State) (g : Group) : DWord := match getTeam s g.team with | some t => t.trapvec | none => 0

/-- The handler is entered once every outstanding result of the group is due (R472): while a ring entry owes one, the group waits
before the faulting instruction. -/
def takeTrap (s : State) (gid : Nat) (g : Group) (len : Nat) (r : Raise) : State :=
  if ringOwes s gid g then setGroup s gid { g with wait := .trap r, waitSince := s.cycle, parkLen := len }
  else enterHandler s gid g len r (handlerOf s g)

/-- A fault of a group's instruction that is no page fault (R462, R463, R471): a handler, the fault queue, or the end of
the context. `len` is the instruction's length in bytes. -/
def raise (s : State) (gid : Nat) (g : Group) (len : Nat) (r : Raise) : State :=
  if catchable r.cls && handlerOf s g != 0 then
    if trapActive g || decide (g.stack.length ≥ 32) then endContext s (raiseRec s g r)
    else takeTrap s gid g len r
  else if r.cls = 2 then
    let (s, n) := takeId s
    let s := setGroup s gid { g with wait := .fault n, waitSince := s.cycle, parkLen := len }
    record s { raiseRec s g r with num := n, flags := 3, awaits := .group gid }
  else endContext s (raiseRec s g r)

/-- The record of one faulting page (R468). -/
def pageRec (s : State) (g : Group) (n total i : Nat) (more : Bool) (x : Nat × Nat × Word) (awaits : FaultOf) : FaultRec :=
  { groupRec s g 1 with
    num := n
    cause := x.2.1
    flags := 1 + (if i = 0 then 2 + (if more then 32 else 0) else 8)
    addr := BitVec.ofNat 64 x.1
    lanes := x.2.2
    nrec := if i = 0 then total - 1 else 0
    awaits := if i = 0 then awaits else .none }

/-- A page fault of a group's instruction (R222, R468): the group parks before it and one record for each faulting page,
64 at most, goes to the fault queue. `pages`: the first faulting address in the page, cause, lanes. -/
def pageFault (s : State) (gid : Nat) (g : Group) (len : Nat) (pages : List (Nat × Nat × Word)) : State :=
  let (s, n) := takeId s
  let s := setGroup s gid { g with wait := .fault n, waitSince := s.cycle, parkLen := len }
  let named := pages.take 64
  (named.zipIdx).foldl
    (fun s x => record s (pageRec s g n named.length x.2 (decide (pages.length > 64)) x.1 (.group gid))) s

/-- ILLEGAL_ENCODING, found once for the group: F is the current mask (R113, R472). -/
def raiseIllegal (s : State) (gid : Nat) (g : Group) (len : Nat) : State := raise s gid g len ⟨4, 0, 0, g.mask, []⟩

/-! ### The frame of an issued instruction -/

/-- Bytes of an instruction (R109). -/
def instrLen (h : Hdr) (ext : Bool) : Nat := 8 + (if ext then 8 else 0) + (if h.sp.isSome then 8 else 0)

/-- Whether a group's team is asked to stop (R475). -/
def teamStopping (s : State) (g : Group) : Bool :=
  match getTeam s g.team with
  | some t => match t.st with | .stopping _ => true | _ => false
  | none => false

/-- The results of a group as its next instruction reads its sources (R116, R120): those that are due have replaced their places, and
a switch marker has waited for those in its scope. -/
def openPend (g : Group) (now : Nat) (sw : Bool) (ver : Ver) : Group :=
  let g := retireDue g now
  if sw then commitIf g now fun e => match ver with | .portable => true | .fixed => e.var else g

/-- What an issue does before its effect (R83, R116, R120): results that are due have replaced their places, a switch
marker has waited for the results in its scope, the header is remembered. -/
def openIssue (s : State) (g : Group) (h : Hdr) : Group :=
  let g := openPend g s.cycle h.sw h.ver
  { g with
    lastVer := match h.ver with | .portable => 0 | .fixed => 1
    prevVer := g.lastVer
    lastMask := h.sp
    prevMask := g.lastMask
    stopDue := h.sp.isSome && teamStopping s g }

/-- The issue slice is busy for the beats of the instruction (R32, R36). -/
def occupy (s : State) (g : Group) (beats : Nat) : State :=
  match g.slice with
  | none => s
  | some i =>
    let c := getCore s g.core
    setCore s g.core { c with busy := c.busy.set i (s.cycle + max 1 beats) }

/-- An instruction of the group whose turn it is: `body` gives the state after it from the group as the issue opened it.
A mask word that names what the role does not hold is illegal (R123). -/
def issue (s : State) (h : Hdr) (ext : Bool) (body : State → Nat → Group → State) : Out :=
  match s.cur with
  | none => .fault .noGroup
  | some gid =>
    match getGroup s gid with
    | none => .fault .noGroup
    | some g0 =>
      let g := openIssue s g0 h
      let s1 := setGroup s gid g
      let ok := match h.sp with | some m => maskInRole (roleOf s g) m | none => true
      if ok then .next (body s1 gid g) else .next (raiseIllegal s1 gid g (instrLen h ext))

/-- The group parks before its instruction. -/
def park (s : State) (gid : Nat) (g : Group) (len : Nat) (w : Wait) : State :=
  let (s, n) := takeId s
  setGroup s gid { g with wait := w, waitSince := s.cycle, waitSeq := n, parkLen := len }

/-- The group stands after its instruction, which took `beats` cycles of its slice. -/
def finish (s : State) (gid : Nat) (g : Group) (beats len : Nat) : State := setGroup (occupy s g beats) gid (advance g len)

/-- A word that raises ILLEGAL_ENCODING before any header of it counts: results that are due have replaced their places, and no
safe point lies after it (R113, R121). -/
def openIllegal (s : State) (g : Group) : Group :=
  { retireDue g s.cycle with prevVer := g.lastVer, lastMask := none, prevMask := g.lastMask, stopDue := false }

/-- Beats of an instruction of a width; one cycle when it is uniform or no lane takes part (R32, R33, R34). -/
def beatsOf (g : Group) (h : Hdr) (w : Width) (now : Nat) : Nat := if h.uni then 1 else beatCount w (takingPart g h w now)

/-- Sources and destination lie in the role's allocation (R29). -/
def operandsOk (r : Role) (h : Hdr) (srcs : List (Src × Bool)) (d : Dst) (dw : Bool) : Bool :=
  (srcs.all fun x => srcInRole r x.2 x.1) && dstInRole r h.uni dw d

/-- The results of a data-side instruction, each written in the cycle of its lane's beat (R118). -/
def writeLanes (c : Cls) (ver : Ver) (w : Width) (part : List Nat) (now : Nat) (d : Dst) (dw : Bool) (val : Nat → Nat)
    (g : Group) : Group :=
  part.foldl (fun acc i => writeLane acc c ver (now + beatOffset w part i) d dw i (val i)) g

/-- An instruction of opcodes 0x00–0x6F that writes a value: with UNI = 0 `f g part lane cycle` in each lane that takes
part, with UNI = 1 once when the uniform guard holds (R33, R34, R118, R174). -/
def dataOp (s : State) (h : Hdr) (ext : Bool) (w : Width) (latency : Nat) (srcs : List (Src × Bool)) (d : Dst) (dw : Bool)
    (f : Group → List Nat → Nat → Nat → Nat) : Out :=
  issue s h ext fun s gid g =>
    if !operandsOk (roleOf s g) h srcs d dw then raiseIllegal s gid g (instrLen h ext)
    else if h.uni then
      let g' := if uniGuard g h s.cycle then writeUni g (.fixed latency) h.ver s.cycle d (f g [] 0 s.cycle) else g
      finish s gid g' 1 (instrLen h ext)
    else
      let part := takingPart g h w s.cycle
      let g' := writeLanes (.fixed latency) h.ver w part s.cycle d dw
        (fun i => f g part i (s.cycle + beatOffset w part i)) g
      finish s gid g' (beatCount w part) (instrLen h ext)

/-- An instruction of opcodes 0x00–0x6F that writes a predicate. -/
def predOp (s : State) (h : Hdr) (w : Width) (latency : Nat) (srcs : List (Src × Bool)) (d : PSel)
    (f : Group → List Nat → Nat → Nat → Bool) : Out :=
  issue s h false fun s gid g =>
    if !(srcs.all fun x => srcInRole (roleOf s g) x.2 x.1) then raiseIllegal s gid g (instrLen h false)
    else if h.uni then
      let g' := if uniGuard g h s.cycle then writeSel g h (.fixed latency) s.cycle d 0 (f g [] 0 s.cycle) else g
      finish s gid g' 1 (instrLen h false)
    else
      let part := takingPart g h w s.cycle
      let g' := part.foldl (fun acc i =>
        writeSel acc h (.fixed latency) (s.cycle + beatOffset w part i) d i
          (f g part i (s.cycle + beatOffset w part i))) g
      finish s gid g' (beatCount w part) (instrLen h false)

/-- The width of an operation from whether it touches a 64-bit value (R32). -/
def widthOf (wide : Bool) : Width := if wide then .w64 else .w32

/-- The mask of a list of lanes. -/
def maskOf (l : List Nat) : Word := BitVec.ofNat 32 (l.foldl (fun acc i => acc + 2 ^ i) 0)

end Sys2Proof.Machine
end

