-- ==== Sys2Proof/Machine/Reads.lean ====
section
/-! DEFINITION. The registers that an instruction reads, by place: what decides whether it waits for results of the other
side of its group (spec/02_execution_model.md R35, spec/05_encoding_and_assembly.md R119). -/

namespace Sys2Proof

open Machine

/-- The places of a source: both registers of a pair (R70, R71). -/
def srcPlaces (wide : Bool) : Src → List Place
  | .v i => .v i.toNat :: if wide then [.v (i.toNat + 1)] else []
  | .o i => .o i.toNat :: if wide then [.o (i.toNat + 1)] else []
  | .l i => [.l i.toNat]
  | .s i => [.s i.toNat]
  | .k _ => []

/-- The place of a selector (R145). -/
def selPlaces (p : PSel) : List Place := [if p.k then .g p.idx.toNat else .p p.idx.toNat]

/-- The place of a guard (R34, R112); the number 7 names none. -/
def guardPlaces (h : Hdr) : List Place :=
  if h.gp = 7 then [] else [if h.uni then .g (h.gp.toNat % 4) else .p h.gp.toNat]

/-- Vector registers from `a`. -/
def vecPlaces (a n : Nat) : List Place := (List.range n).map fun k => .v (a + k)

/-- The address register of a per-lane access: 32 bits for the scratchpad, else a pair (R283). -/
def lanePlaces (addr : BitVec 6) (spad : Bool) : List Place := vecPlaces (2 * addr.toNat) (if spad then 1 else 2)

/-- Uniform registers from `a`. -/
def uniPlaces (a n : Nat) : List Place := (List.range n).map fun k => .s (a + k)

/-- A cursor, with the record it captured. -/
def curPlaces (c : BitVec 4) : List Place := [.c c.toNat, .cap c.toNat]

/-- Operands of instructions with one, two and three sources of the instruction's type. -/
def Op1.reads (x : Op1) : List Place := guardPlaces x.h ++ srcPlaces x.ty.wide x.a
/-- Two sources. -/
def Op2.reads (x : Op2) : List Place := guardPlaces x.h ++ srcPlaces x.ty.wide x.a ++ srcPlaces x.ty.wide x.b
/-- A source of the type and a 32-bit control. -/
def Op2.readsCtl (x : Op2) : List Place := guardPlaces x.h ++ srcPlaces x.ty.wide x.a ++ srcPlaces false x.b
/-- Three sources. -/
def Op3.reads (x : Op3) : List Place :=
  guardPlaces x.h ++ srcPlaces x.ty.wide x.a ++ srcPlaces x.ty.wide x.b ++ srcPlaces x.ty.wide x.c
/-- Two sources of the type and a 32-bit control. -/
def Op3.readsCtl (x : Op3) : List Place :=
  guardPlaces x.h ++ srcPlaces x.ty.wide x.a ++ srcPlaces x.ty.wide x.b ++ srcPlaces false x.c
/-- Three 32-bit sources. -/
def Op3.readsNarrow (x : Op3) : List Place :=
  guardPlaces x.h ++ srcPlaces false x.a ++ srcPlaces false x.b ++ srcPlaces false x.c
/-- A comparison; one that combines reads its destination (R177, R195). -/
def CmpOp.reads (x : CmpOp) : List Place :=
  guardPlaces x.h ++ srcPlaces x.ty.wide x.a ++ srcPlaces x.ty.wide x.b ++ if x.sub = 0 then [] else selPlaces x.d
/-- One floating source. -/
def FOp1.reads (x : FOp1) : List Place := guardPlaces x.h ++ srcPlaces false x.a
/-- Two floating sources. -/
def FOp2.reads (x : FOp2) : List Place := guardPlaces x.h ++ srcPlaces false x.a ++ srcPlaces false x.b
/-- A conversion's source. -/
def CvtOp.reads (x : CvtOp) : List Place := guardPlaces x.h ++ srcPlaces x.sty.wide x.a
/-- A load's address. -/
def MemOp.readsLd (x : MemOp) (spad : Bool) : List Place := guardPlaces x.h ++ lanePlaces x.addr spad
/-- A store's address and data: as many registers as a record may take from the one named (R336). -/
def MemOp.readsSt (x : MemOp) (spad : Bool) : List Place :=
  guardPlaces x.h ++ lanePlaces x.addr spad ++ vecPlaces x.data.toNat 32
/-- A uniform load's address. -/
def LduOp.reads (x : LduOp) : List Place := guardPlaces x.h ++ uniPlaces x.addr.toNat 1
/-- A window instruction's binding. -/
def WinOp.reads (x : WinOp) : List Place := guardPlaces x.h ++ uniPlaces x.addr.toNat 1
/-- The range of CLEAN and INVAL. -/
def MaintOp.reads (x : MaintOp) : List Place := guardPlaces x.h ++ uniPlaces x.addr.toNat 2
/-- An atomic's address and `n` operands. -/
def AtomFields.reads (x : AtomFields) (n : Nat) : List Place :=
  guardPlaces x.h ++ lanePlaces x.addr x.spl ++ vecPlaces x.data.toNat (if x.ty.wide then 2 * n else n)
/-- MWAIT's address and comparand. -/
def MwaitOp.reads (x : MwaitOp) : List Place :=
  guardPlaces x.h ++
    if x.h.uni then uniPlaces x.addr.toNat 1 ++ uniPlaces x.data.toNat 1
    else lanePlaces x.addr false ++ vecPlaces x.data.toNat (if x.w = .n32 then 1 else 2)
/-- A transaction barrier's address and count or token. -/
def TbOp.reads (x : TbOp) : List Place := guardPlaces x.h ++ uniPlaces x.addr.toNat 1 ++ uniPlaces x.data.toNat 1
/-- A tile's address and count. -/
def TileMem.reads (x : TileMem) : List Place :=
  guardPlaces x.h ++ srcPlaces true x.addr ++ if x.all then [] else srcPlaces false x.cnt
/-- The row count of a matrix instruction. -/
def MmaOp.reads (x : MmaOp) : List Place := guardPlaces x.h ++ if x.all then [] else srcPlaces false x.rows
/-- The block address of an engine instruction. -/
def EngOp.reads (x : EngOp) : List Place := guardPlaces x.h ++ uniPlaces x.sb.toNat 1
/-- A ring instruction's first counter value. -/
def RingOp.reads (x : RingOp) : List Place := guardPlaces x.h ++ uniPlaces x.sb.toNat 1

/-- The register places that an instruction reads, its guard among them; a device's own step reads none. -/
def Instr.reads : Instr → List Place
  | .nop _ | .cvg _ | .yield _ | .regroup _ _ _ | .unassignedOpcode _ => []
  | .bra h _ _ | .bru h _ | .exit h | .elect h _ | .setfmtImm h _ | .getfmt h _ | .sreg h _ _ | .movi h _ _ _ | .ldi h _ _ _
  | .fence h _ _ | .qfence h _ | .barTeam h _ | .barRole h _ | .tzero h _ | .aclr h _ | .acvt h _ _ _ _ | .mfence h _
  | .qstat h _ _ | .mbxr h _ _ | .mbxp h _ _ _ | .rinvAll h | .trap h _ | .brk h _ | .tlbiPart h => guardPlaces h
  | .call _ _ _ => []
  | .brx _ a => srcPlaces true a
  | .callx _ _ a => srcPlaces true a
  | .ret _ link => uniPlaces link.toNat 1
  | .dvg _ p _ _ => [.p p.toNat]
  | .spawn h a cnt _ => guardPlaces h ++ vecPlaces a.toNat cnt.toNat
  | .vote h _ _ a | .voteMask h _ _ a => guardPlaces h ++ selPlaces a
  | .shfl h _ _ ty _ a b => guardPlaces h ++ srcPlaces ty.wide a ++ srcPlaces false b
  | .matchL h ty _ a => guardPlaces h ++ srcPlaces ty.wide a
  | .plop h op _ a b => guardPlaces h ++ selPlaces a ++ if op = .mov then [] else selPlaces b
  | .setfmtReg h a | .bbar h _ a | .mbxw h _ a | .rinvIndex h a | .tlbiCtx h a | .ssetRngstate h a => guardPlaces h ++ srcPlaces false a
  | .rinvLevel h a | .ssetTrapvec h a | .waitt h _ a => guardPlaces h ++ srcPlaces true a
  | .tlbiPage h va ctx => guardPlaces h ++ srcPlaces true va ++ srcPlaces false ctx
  | .mwaitb h a all => guardPlaces h ++ if all then [] else srcPlaces false a
  | .ineg x | .iabs x | .not x | .popc x | .clz x | .ctz x | .brev x | .mov x | .fneg x | .fabs x | .fcls x => x.reads
  | .iadd x | .isub x | .imul x | .imulh x | .idiv x | .irem x | .imin x | .imax x | .and x | .or x | .xor x | .andn x
  | .fmin x | .fmax x => x.reads
  | .shl x | .shr x | .sar x | .rol x | .bfx x => x.readsCtl
  | .iadd3 x | .imad x => x.reads
  | .bfi x => x.readsCtl
  | .perm x | .fma x | .hfma2 x | .dot4 x => x.readsNarrow
  | .lea x => guardPlaces x.h ++ srcPlaces true x.a ++ srcPlaces x.ty.wide x.b ++ srcPlaces false x.c
  | .icmp x | .fcmp x => x.reads
  | .isel h _ a b sel ty => guardPlaces h ++ srcPlaces ty.wide a ++ srcPlaces ty.wide b ++ selPlaces sel
  | .cvti h _ a _ sty _ => guardPlaces h ++ srcPlaces sty.wide a
  | .frcp x | .frsq x | .fsqrt x | .fex2 x | .flg2 x | .fsin x | .fcos x | .ftanh x | .frnd x => x.reads
  | .fadd x | .fsub x | .fmul x | .fdiv x | .fscl x | .hadd2 x | .hmul2 x => x.reads
  | .fcvt x | .fcvti x | .icvtf x => x.reads
  | .ldOwn x | .ldWt x | .ldSi x | .ldUc x => x.readsLd false
  | .lds x => x.readsLd true
  | .stOwn x | .stWt x | .stSi x | .stUc x => x.readsSt false
  | .sts x => x.readsSt true
  | .lduOwn x | .lduWt x | .lduSi x | .lduUc x => x.reads
  | .pref h addr _ _ _ | .zsect h addr _ _ _ => guardPlaces h ++ lanePlaces addr false
  | .wmap h _ addr _ _ _ _ => guardPlaces h ++ uniPlaces addr.toNat 2
  | .wunmap x | .wflush x | .winv x _ | .wstat x => x.reads
  | .clean x | .inval x => x.reads
  | .atom x | .red x => x.reads 1
  | .atomcas x => x.reads 2
  | .mwait x => x.reads
  | .tbinit x | .tbarr x | .tbwait x => x.reads
  | .cinit x | .cinitApp x => guardPlaces x.h ++ srcPlaces true x.addr ++ srcPlaces false x.ppos
  | .cnext h ca _ | .cfin h ca | .cdone h ca _ | .cpref h ca _ => guardPlaces h ++ curPlaces ca
  | .cseek h ca t _ => guardPlaces h ++ curPlaces ca ++ srcPlaces false t
  | .cdesc x | .cdescApp x => guardPlaces x.h ++ curPlaces x.ca
  | .cisec x | .cunion x => guardPlaces x.h ++ curPlaces x.ca ++ curPlaces x.cb
  | .ccrd x | .cpos x | .cval x => guardPlaces x.h ++ curPlaces x.ca
  | .cstv h ca a => guardPlaces h ++ curPlaces ca ++ srcPlaces true a
  | .capp h ca crd val => guardPlaces h ++ curPlaces ca ++ srcPlaces false crd ++ srcPlaces true val
  | .cmov h _ ca => guardPlaces h ++ curPlaces ca
  | .csave h ca base _ => guardPlaces h ++ curPlaces ca ++ srcPlaces true base
  | .crest h _ base _ => guardPlaces h ++ srcPlaces true base
  | .tld x | .tst x => x.reads
  | .tasm h _ ca k0 _ _ => guardPlaces h ++ curPlaces ca ++ srcPlaces false k0
  | .mma x | .mmas x => x.reads
  | .ard x => guardPlaces x.h
  | .awr x => guardPlaces x.h ++ vecPlaces x.v.toNat (x.n1.toNat + 1)
  | .cpy h sb _ _ => guardPlaces h ++ uniPlaces sb.toNat 1
  | .cpyt x | .cpyc x | .csum x | .decq x | .stq x | .netq x | .topk x | .rmv x => x.reads
  | .launch x _ => x.reads
  | .rres x | .rtake x => guardPlaces x.h
  | .rpub x | .rrel x => x.reads
  | .binTimerExpiry _ _ | .binLaunchDeferred _ _ | .spawnResume _ | .regroupMigrate _ _ | .regroupTimeout _
  | .stallExchange _ | .emptySlotFill _ _ | .pendingAgeExpiry _ | .teamPlace _ _ | .teamEnd _ | .gridEnd _
  | .splitDrain _ _ | .splitReconfigure _ | .mailboxWake _ _ | .loadDataReturn _ | .pageWalk _ _ _ _ _ _
  | .homeWrite _ _ _ _ | .forcedPublish _ | .rdcSweep _ | .scrubDram _ _ | .scrubSram _ _ | .uncorrectableError _
  | .mwaitRetest _ | .mwaitOverflowExpiry _ | .bbarEntryFree _ | .captureEntryFree _ | .codebookTableArrival _ _ _ _ _
  | .tldPerform _ | .tstPerform _ | .tasmPerform _ | .mmaExecute _ | .acvtPerform _ | .matrixEntryRetire _
  | .mwaitbWake _ | .cpyPerform _ | .cpytPerform _ | .cpycPerform _ | .csumPerform _ | .decqPerform _ | .stqSubmit _
  | .nvmeCompletion _ _ _ | .netqPerform _ | .netqAck _ _ _ | .rdmaAckTimeout _ | .topkPerform _ | .rmvPerform _
  | .ringEntryPerform _ | .engineEntryPark _ _ | .launchQueueTailWrite _ | .blockEligible _ | .priorityAging _
  | .budgetOverrun _ | .faultRecordWrite _ | .faultAction _ _ | .preemptRequest _ | .hardPreempt _ | .teamSave _
  | .teamResume _ _ | .agentTimeout _ | .staleMessageDrop _ _ _ | .deviceFatal _ | .waittDeadlineReached _
  | .seedImageWrite | .frameReceive | .rdmaWriteInbound | .rdmaReadInbound | .rdmaAtomicInbound | .rdmaSendInbound
  | .rdmaSignalInbound | .rdmaUnsupportedInbound | .targetBufAccess | .nvmeConnectionLost | .readUnitMap
  | .writePartitionRecord | .bindVf | .writeLaunchQueueRecord | .writeRegistrationEntry | .writeBinding | .loadKey
  | .seedMake | .seedRestore | .counterStatement | .readDump | .setPowerCap | .resetAndReadmitUnit
  | .reserveTimedCapacity | .mgmtUnknownCode | .resetRelease | .resetAssert | .powerLoss | .thermalWarning | .thermtrip => []

/-- Whether an order makes an access a release or an acquire (R254). -/
def Order.syncs (o : Order) : Bool := o != .rlx

/-- The instructions that neither side of a group passes before the other has come to them: fences, barriers, releases, acquires,
MWAIT, DVG, CVG, EXIT, REGROUP and SPAWN (R35, R254, R255). -/
def Instr.isSync : Instr → Bool
  | .fence _ _ _ | .barTeam _ _ | .barRole _ _ | .bbar _ _ _ | .mwait _ | .dvg _ _ _ _ | .cvg _ | .exit _ | .regroup _ _ _
  | .spawn _ _ _ _ | .mbxw _ _ _ | .mbxr _ _ _ | .mbxp _ _ _ _ | .tbarr _ | .tbwait _ => true
  | .ldOwn x | .ldWt x | .ldSi x | .ldUc x | .stOwn x | .stWt x | .stSi x | .stUc x => x.ord.syncs
  | .lduOwn x | .lduWt x | .lduSi x | .lduUc x => x.ord.syncs
  | .atom x | .red x | .atomcas x => x.ord.syncs
  | .tbinit x => x.ord.syncs
  | .cpy _ _ _ _ | .cpyt _ | .cpyc _ | .csum _ | .decq _ | .stq _ | .netq _ | .topk _ | .rmv _
  | .rres _ | .rpub _ | .rtake _ | .rrel _ => true
  | _ => false

/-- Lanes of a beat of an operation on values of one width (R32). -/
def lanesOf (wide : Bool) : Nat := if wide then 8 else 16

/-- Lanes of a beat of an instruction whose lanes each read their own sources in their own beat (R32, R119); 0 of every other. -/
def Instr.beatLanes : Instr → Nat
  | .ineg x | .iabs x | .not x | .popc x | .clz x | .ctz x | .brev x | .mov x | .fneg x | .fabs x | .fcls x => lanesOf x.ty.wide
  | .iadd x | .isub x | .imul x | .imulh x | .idiv x | .irem x | .imin x | .imax x | .and x | .or x | .xor x | .andn x
  | .shl x | .shr x | .sar x | .rol x | .bfx x | .fmin x | .fmax x => lanesOf x.ty.wide
  | .iadd3 x | .imad x | .bfi x => lanesOf x.ty.wide
  | .lea _ => 8
  | .icmp x => lanesOf x.ty.wide
  | .isel _ _ _ _ _ ty => lanesOf ty.wide
  | .cvti _ _ _ dty sty _ => lanesOf (dty.wide || sty.wide)
  | .fcvti x => lanesOf x.dty.wide
  | .icvtf x => lanesOf x.sty.wide
  | .perm _ | .fma _ | .dot4 _ | .fcmp _ | .fcvt _ | .fadd _ | .fsub _ | .fmul _ | .fdiv _ | .fscl _ | .frcp _ | .frsq _ | .fsqrt _
  | .fex2 _ | .flg2 _ | .fsin _ | .fcos _ | .ftanh _ | .frnd _ | .plop _ _ _ _ _ => 16
  | .movi _ _ sub _ => lanesOf (sub.toNat ≥ 2)
  | .ldi _ _ sub _ => lanesOf (sub == 1)
  | .hadd2 _ | .hmul2 _ | .hfma2 _ => 32
  | _ => 0

end Sys2Proof
end

