-- ==== Sys2Proof/Machine/Fetch.lean ====
section
/-! DEFINITION. Fetching an instruction's words (R109, R114), choosing the group that issues (R36), and laying a program's
first instruction out for a run (log 10). -/

namespace Sys2Proof.Machine

/-- Kind number of a held instruction word (R114). -/
def heldCode : Nat := 1

/-- An 8-byte word of memory through a leaf, as the expanded view on a codec page (R346). -/
def wordAt (s : State) (l : Leaf) (pa : Nat) : State × Except XErr (List Byte) :=
  if l.cmp then
    match homeExpanded s (pa / 256) with
    | (s, .ok b) => (s, .ok ((b.drop (pa % 256)).take 8))
    | (s, .error e) => (s, .error e)
  else if s.mem.poison.contains (pa / 64) then (s, .error (.lost pa))
  else
    let (s, b, _) := physRead s pa 8
    (s, .ok b)

/-- Words that a core's instruction cache holds: 128 KiB (R12). -/
def codeCap : Nat := 16384

/-- Whether a held copy is an instruction word of a core. -/
def isHeldCode (core : Nat) (e : HeldBytes) : Bool := e.kind == heldCode && e.core == core

/-- A word of a line, as the line's bytes and its codec flag give it under a leaf; none where they are no codec line. -/
def lineWord (l : Leaf) (flag : Bool) (line : List Byte) (pa : Nat) : Option (List Byte) :=
  if l.cmp then (codecDecode flag line).map fun ws => ((ws.flatMap (leBytes 4)).drop (pa % 256)).take 8
  else some ((line.drop (pa % 256)).take 8)

/-- A word as memory held it when the grid's launch was accepted, and before each write since: what a fetch may still return once the
word has been rewritten (R114). -/
def oldWords (s : State) (grid : Nat) (l : Leaf) (pa : Nat) : List (List Byte) :=
  match tget s.grids grid with
  | none => []
  | some g =>
    let line := pa / 256
    (lineWord l (g.codeLines.contains line) (crange (w := 8) g.code (256 * line) 256) pa).toList
      ++ ((s.mem.olds.drop g.oldsFrom).filter fun o => o.line == line).filterMap fun o => lineWord l o.codec o.bytes pa

/-- The first of some old contents of a word that is still returned, each asked for; else the word's contents now (R114). -/
def oldOrNow (now : List Byte) : List (List Byte) → State → State × List Byte
  | [], s => (s, now)
  | b :: r, s =>
    if b = now then oldOrNow now r s
    else
      let (s, k) := drawKeep s
      if k then (s, b) else oldOrNow now r s

/-- A word as a grid fetches it on a core: what it holds now, or, once it has been rewritten while the grid runs, what the core
fetched first or what one of the writes found (R114). A word fetched for the first time is kept. -/
def heldWord (s : State) (core grid pa : Nat) (olds : List (List Byte)) (now : List Byte) : State × List Byte :=
  match s.mem.held.find? fun e => isHeldCode core e && e.owner == grid && e.num == pa with
  | some e => oldOrNow now (e.bytes :: olds) s
  | none =>
    oldOrNow now olds { s with mem := { s.mem with
      held := ⟨core, heldCode, grid, pa, 0, now⟩ :: keepFirst (isHeldCode core) (codeCap - 1) s.mem.held } }

/-- One instruction word of a group, through translation with the execute permission (R114). -/
def fetchWord (s : State) (g : Group) (va : DWord) : State × Except XErr DWord :=
  let grid := match getTeam s g.team with | some t => t.grid | none => 0
  let (s, r) := translate s (whoOf s g) va .fetch
  match r with
  | .error e => (s, .error e)
  | .ok l =>
    let pa := leafPa l va
    match wordAt s l pa with
    | (s, .error e) => (s, .error e)
    | (s, .ok now) =>
        let (s, b) := heldWord s g.core grid pa (oldWords s grid l pa) now
        (s, .ok (wordOfBytes b))

/-- `n` further words of an instruction; a word that cannot be fetched ends with its address. -/
def fetchMore (g : Group) : Nat → State → DWord → List DWord → State × Except (DWord × XErr) (List DWord)
  | 0, s, _, acc => (s, .ok acc)
  | n + 1, s, va, acc =>
    let (s, r) := fetchWord s g va
    match r with
    | .error e => (s, .error (va, e))
    | .ok w => fetchMore g n s (va + 8) (acc ++ [w])

/-- The words of the instruction at a group's program counter (R109, R114). -/
def fetchInstr (s : State) (g : Group) : State × Except (DWord × XErr) (List DWord) :=
  let (s, r) := fetchWord s g g.pc
  match r with
  | .error e => (s, .error (g.pc, e))
  | .ok w => fetchMore g (wordCount w - 1) s (g.pc + 8) [w]

/-- A failed fetch (R114, R222, R346, R489): a page fault parks the group; a lost or malformed line ends the context. -/
def fetchFault (s : State) (gid : Nat) (g : Group) (va : DWord) (e : XErr) : State :=
  match e with
  | .page c => pageFault s gid { g with prevVer := g.lastVer, prevMask := g.lastMask } 0 [(va.toNat, c, g.mask)]
  | .lost pa => raise s gid g 0 ⟨15, 1, 0, g.mask, [(0, BitVec.ofNat 64 pa)]⟩
  | .bad => raise s gid g 0 ⟨8, 0, 0, g.mask, [(0, va)]⟩

/-- A group of a team asked to stop stands where it stops (R476): after a safe point, at a wait, or inside a handler, where it
is stopped at once whatever it waits for. A wait whose condition was met before is let complete (R285). -/
def atStop (s : State) (g : Group) : Bool :=
  teamStopping s g &&
    match g.wait with
    | .none => g.stopDue || trapActive g
    | .watch _ _ => !g.poked
    | .overflow _ _ | .bar _ _ | .barLate _ _ | .bbar _ | .bbarFull _ | .mbxRead _ _ _ _ _ | .mbxWrite _ _
    | .deadline _ _ _ _ | .fault _ | .brk _ => true
    | .regroup _ _ | .paired _ _ _ _ | .spawn _ | .slot | .batch _ | .capture | .trap _ => trapActive g
    | .stopped _ => false

/-- Opcodes with variable results (R116). -/
def returnsLate (o : Nat) : Bool :=
  (0x70 ≤ o && o ≤ 0x73) || (0x78 ≤ o && o ≤ 0x7C) || o == 0x80 || o == 0x84 || o == 0x90 || o == 0x91 || o == 0x97
    || (0xA0 ≤ o && o ≤ 0xAF) || (0xC0 ≤ o && o ≤ 0xCA) || (0xD1 ≤ o && o ≤ 0xD4)

/-- Opcodes whose access never ends in L1: uncached loads and value-returning atomics (R230, R246). -/
def passesL1 (o : Nat) : Bool := o == 0x73 || o == 0x7B || o == 0x90 || o == 0x91

/-- After how many cycles variable results return: DESIGN CHOICE (log 15), the spec gives no figure. -/
def lateLatency : Nat := 32

/-- After how many cycles those of an access that misses L1 return: DESIGN CHOICE (log 15). -/
def missLatency : Nat := 400

/-! ### Readiness (R35, R36, R38, R120) -/

/-- What a group's next instruction waits for: whether it is a switch marker, the cycle by which the results it waits for have
returned, that by which those of accesses that missed L1 among them have (R38), and whether a ring entry still owes one. -/
structure Hold where
  marker : Bool
  till : Nat
  miss : Nat
  owed : Bool
  deriving DecidableEq, Repr

/-- Nothing to wait for. -/
def Hold.nothing : Hold := ⟨false, 0, 0, false⟩

/-- The cycle by which results have returned. -/
def backOf (l : List Pend) (from_ : Nat) : Nat := l.foldl (fun a e => max a (e.beat + e.lat)) from_

/-- The cycle by which the results in a switch marker's scope have returned (R120). -/
def markerTill (g : Group) (h : Bool × Bool) : Nat :=
  if !h.1 then 0 else if h.2 then g.lateBack else max g.fixedBack g.lateBack

/-- SW, and whether VER is not 0, of an instruction's first word (R111). -/
def markBits (w : DWord) : Bool × Bool := (w.getLsbD 61, w.getLsbD 62 || w.getLsbD 63)

/-- Results of the other side of the group that a read of the given places meets: a uniform instruction reads per-lane places in
the lowest enabled lane, `.mask` of VOTE in every one (R35, R74, R163). -/
def crossReads (g : Group) (uni every : Bool) (places : List Place) : List Pend :=
  g.pend.filter fun e => e.uni != uni && places.contains e.place && (!uni || every || lowestEnabled g == some e.lane)

/-- Whether VOTE reads every enabled lane (R163). -/
def readsEvery (i : Instr) : Bool :=
  match i with
  | .vote _ _ _ _ | .voteMask _ _ _ _ => true
  | _ => false

/-- Whether a group's partition has debugging enabled (R456, R484). -/
def debugOn (s : State) (g : Group) : Bool :=
  match tget s.parts (whoOf s g).part with
  | some p => p.body.debug
  | none => false

/-- Whether an instruction makes every outstanding result due before it completes, so that it awaits those still owed: REGROUP
that finds entries on the stack, TRAP and BRK that take effect (R50, R120, R160, R456). -/
def endsResults (s : State) (g : Group) (i : Instr) : Bool :=
  match i with
  | .regroup _ _ _ => !g.stack.isEmpty
  | .trap h _ => !(takingPart g h .w32 s.cycle).isEmpty
  | .brk h _ => debugOn s g && !(takingPart g h .w32 s.cycle).isEmpty
  | _ => false

/-- Uniform results that an instruction awaits since the data side does not pass it while they are outstanding: those of every
fence, barrier, release, acquire, MWAIT, marker, DVG, CVG, EXIT, REGROUP and SPAWN of the data side (R35). -/
def passed (g : Group) (w : DWord) (i : Instr) : List Pend :=
  if !w.getLsbD 59 && (i.isSync || (markBits w).1) then g.pend.filter (·.uni) else []

/-- The wait of a decoded instruction. A uniform fence, barrier, release or acquire waits for a uniform result that a ring entry owes, as
one of the data side does (log 17). -/
def holdFor (s : State) (gid : Nat) (g : Group) (w : DWord) (i : Instr) : Hold :=
  let uni := w.getLsbD 59
  let on := crossReads g uni (readsEvery i) i.reads ++ passed g w i
  let mark := markBits w
  { marker := mark.1
    till := backOf on (max (markerTill g mark) (if uni then 0 else g.passFrom))
    miss := backOf (on.filter (·.lat == missLatency)) (if mark.1 then g.missBack else 0)
    owed := on.any (·.owed.isSome) || (uni && i.isSync && g.pend.any fun e => e.uni && e.owed.isSome)
      || ((mark.1 || endsResults s g i) && ringOwes s gid g) }

/-- What the instruction at a group's program counter waits for before it issues; one that cannot be fetched or decoded waits for
nothing. -/
def holdOf (s : State) (gid : Nat) (g : Group) : Hold :=
  if g.pend.isEmpty && decide (g.fixedBack ≤ s.cycle) && decide (g.lateBack ≤ s.cycle) && decide (g.passFrom ≤ s.cycle)
      && !ringOwes s gid g then .nothing
  else
    match (fetchInstr s g).2 with
    | .error _ => .nothing
    | .ok ws =>
      match Sys2Proof.decodeWords ws with
      | .ok i => holdFor s gid g (ws.headD 0) i
      | .error _ => .nothing

/-- The group's next instruction may not issue yet under R35 or its VER rules. -/
def awaits (s : State) (gid : Nat) (g : Group) : Bool :=
  let h := holdOf s gid g
  decide (s.cycle < h.till) || h.owed

/-- A group that is not parked, and whose next instruction may issue (R36). -/
def standsReady (s : State) (gid : Nat) (g : Group) : Bool := g.wait == .none && !atStop s g && !awaits s gid g

/-- A long-latency stall (R38): a parked group's, or that of a group which awaits a result of an access that misses L1, or has been for
more than 64 cycles at a switch marker. -/
def stalled (s : State) (gid : Nat) (g : Group) : Bool :=
  longStall s g
    || (g.wait == .none && awaits s gid g &&
      (decide (s.cycle < (holdOf s gid g).miss) || ((holdOf s gid g).marker && decide (g.freeAt + 64 < s.cycle))))

/-- The order in which ready groups of one slice issue (R36), after core and slice. -/
def issueKey (s : State) (g : Group) : List Nat :=
  let order := match getTeam s g.team with | some t => t.order | none => 0
  [g.core, g.slice.getD 0, g.age, order, g.role, g.gnum]

/-- Lexicographic order of number lists. -/
def lexLe : List Nat → List Nat → Bool
  | [], _ => true
  | _ :: _, [] => false
  | a :: r, b :: t => if a < b then true else if b < a then false else lexLe r t

/-- The groups of a slice that have beats still to issue (R32, R36). -/
def beating (s : State) (core i : Nat) : List (Nat × Group) :=
  s.groups.filter fun e => e.2.core == core && e.2.slice == some i && decide (s.cycle < e.2.freeAt)

/-- The slice issues for a group in this cycle: it is free, or the beats it still has to issue are of younger groups (R36). -/
def sliceTakes (s : State) (g : Group) (i : Nat) : Bool :=
  let l := beating s g.core i
  decide ((getCore s g.core).busy.getD i 0 ≤ s.cycle)
    || (!l.isEmpty && l.all fun e => !lexLe (issueKey s e.2) (issueKey s g))

/-- A group that may issue now: in an active set, ready, its own beats out, its slice free for it (R36). -/
def mayIssue (s : State) (gid : Nat) (g : Group) : Bool :=
  (match g.slice with
    | some i => decide (g.freeAt ≤ s.cycle) && sliceTakes s g i
    | none => false) && standsReady s gid g

/-- The order in which the issue ports are served in one cycle: the lower core first, so that of faults of one cycle that end a context the
lower core's decides (R464); the ports of a core with timed work by its deadline, before other work (R422). -/
def portKey (s : State) (g : Group) : List Nat :=
  g.core :: (match (gridOf s g).bind (·.deadline) with | some t => t | none => 2 ^ 64) :: issueKey s g

/-- The first of a list of groups by a key. -/
def firstGroup (key : Group → List Nat) : List (Nat × Group) → Option (Nat × Group)
  | [] => none
  | e :: r =>
    match firstGroup key r with
    | none => some e
    | some f => if lexLe (key e.2) (key f.2) then some e else some f

/-- Whether two groups share an issue slice. -/
def sameSlice (a b : Group) : Bool := a.core == b.core && a.slice == b.slice

/-- The groups that may issue of which each is the first of its slice (R36). -/
def heads (s : State) : List (Nat × Group) :=
  let l := s.groups.filter fun e => mayIssue s e.1 e.2
  l.filter fun e => l.all fun f => !sameSlice e.2 f.2 || lexLe (issueKey s e.2) (issueKey s f.2)

/-- The group that issues next, if one may (R36, R422). -/
def readyGroup (s : State) : Option (Nat × Group) := firstGroup (portKey s) (heads s)

/-- The context of a discarded write, or of a loss nobody can repair, ends with DATA_LOST; that of a stamp its codec line could not take
with BAD_BLOCK (R347, R489–R491). -/
def endLost (s : State) (l : Lost) : State :=
  endContext s { recOf s (blankRec s l.part l.ctx l.cls) l.core l.team with cause := l.cause, addr := BitVec.ofNat 64 l.pa }

/-- One cycle passes (R18); a partition that was ending and has grown quiet is closed (R488). -/
def tick (s : State) : State := closeQuiet { s with cycle := s.cycle + 1 }

/-! ### Laying out a program's first instruction (log 10) -/

/-- The kernel that `withFetchWord` launches: one role with every register it may have. -/
def probeKernel : Kernel := ⟨0x100000, ⟨8, 12, 4⟩, [⟨1, 256, 16, 16, 8⟩], 4096, []⟩

/-- The seed of a lane's generator (R95). -/
def rngSeed (index role gnum orig : Nat) : Word :=
  let x : Word := BitVec.ofNat 32 (index * 4096 + role * 1024 + gnum * 32 + orig) ^^^ 0x6D2B79F5
  if x = 0 then 1 else x

/-- A group as R31, R36, R37, R48 and R95 start it. -/
def newGroup (team index core role gnum : Nat) (slice : Option Nat) (pc : DWord) (live : Word) (block : DWord) (now : Nat) :
    Group where
  team := team
  core := core
  slice := slice
  role := role
  gnum := gnum
  pc := pc
  mask := live
  live := live
  stack := []
  fmt := 0
  v := []
  o := []
  l := []
  s := cset [] 0 block
  p := []
  g := []
  c := []
  cap := []
  tiles := []
  acc := []
  orig := (List.range 32).foldl (fun acc i => cset acc i (BitVec.ofNat 5 i)) []
  rng := (List.range 32).foldl (fun acc i => cset acc i (rngSeed index role (gnum % 32) i)) []
  trapinfo := 0
  trappc := 0
  trapaddr := []
  pend := []
  nextBatch := 0
  lastVer := 0
  prevVer := 0
  lastMask := none
  prevMask := none
  stopDue := false
  fixedBack := 0
  lateBack := 0
  missBack := 0
  passFrom := 0
  freeAt := 0
  wait := .none
  waitSince := 0
  waitSeq := 0
  parkLen := 0
  poked := false
  spawnLeft := []
  redo := .none
  beatWords := []
  beatLanes := 0
  beatPend := 0
  age := now
  pendSince := now
  readySince := now
  lastStall := now
  relOwed := []
  lastLoad := []

/-- Partition 0 with context 0 and the plain key, its page tables at 0x10000. -/
def probePartition : Partition where
  body := ⟨1, 1, 0, 0, true, 0, 4, 0, 0, 0, 0, 0, 0, 0, none, false, [], []⟩
  ctxs := [(0, ⟨0x10000, true, false⟩)]
  keys := []
  binds := []
  failed := []
  written := 0
  ending := false
  slotsUsed := []
  frozen := false

/-- Page tables that map the page of 0x100000 to the page frame 0x50000, writable and executable (R219–R221). -/
def probeTables : List (Nat × DWord) :=
  [(0x10000, 0x81), (0x20000, 0xC1), (0x30000, 0x101), (0x40080, 0x14F)]

/-- Bytes at a physical address. -/
def layBytes (dram : List Host.Cell) (pa : Nat) (b : List Byte) : List Host.Cell := csetMany (w := 8) dram pa b

/-- One grid of one team. -/
def probeGrid : Grid where
  queue := 0
  block := []
  blockAddr := 0
  seq := 1
  part := 0
  ctx := 0
  st := .eligible
  waits := []
  eligibleAt := 0
  level := 0
  agedAt := 0
  kernel := probeKernel
  teams := 1
  maps := []
  mapPhys := []
  placed := 1
  endedTeams := 0
  stage := none
  lead := 0
  wanted := 0
  cores := []
  plan := []
  deadline := none
  booking := none
  code := []
  codeLines := []
  oldsFrom := 0
  outcome := none
  overruns := 0

/-- Its team on core 0. -/
def probeTeam (now : Nat) : Team where
  grid := 0
  index := 0
  core := 0
  rows := 0
  alloc := 4096
  scratch := []
  mbx := []
  mbxFull := 0
  trapvec := 0
  bars := []
  placedAt := now
  order := 0
  slot := 0
  st := .running
  kept := .none

/-- The machine about to issue the instruction whose words are given: one group of one team on core 0, its program
counter at 0x100000, the words there, as its launch found them (R114), and nothing that comes before it. -/
def layProgram (s : State) (ws : List DWord) : State :=
  let dram := probeTables.foldl (fun d e => layBytes d e.1 (bytesOfWord e.2)) s.mem.dram
  let dram := layBytes dram 0x50000 (ws.flatMap bytesOfWord)
  { s with
    mem := { Mem.reset with dram := dram }
    cores := tset s.cores 0 Core.reset
    parts := [(0, probePartition)]
    offGranules := []
    device := .run
    grids := [(0, { probeGrid with code := dram })]
    teams := [(0, probeTeam s.cycle)]
    groups := [(0, newGroup 0 0 0 0 0 (some 0) 0x100000 0xFFFFFFFF 0 s.cycle)]
    agenda := [] }

end Sys2Proof.Machine
end

