-- ==== Sys2Proof/Machine/Float.lean ====
section
/-! DEFINITION. Number formats and rounding (spec/04_registers_and_numbers.md R85–R96): values are exact, every
rounding happens once. -/

namespace Sys2Proof.Machine

/-- An exact value: NaN (and NaR), a signed infinity, or ± m × 2^e. -/
inductive FVal where
  | nan
  | inf (neg : Bool)
  | fin (neg : Bool) (m : Nat) (e : Int)
  deriving DecidableEq, Repr

/-- Rounding modes of R92 but sr. -/
inductive RM where
  | rne | rz | rup | rdn
  deriving DecidableEq, Repr

/-- Exponent bits, fraction bits and bias of the formats of R85. -/
def ieeeShape : Ty → Option (Nat × Nat × Nat)
  | .f32 => some (8, 23, 127)
  | .f16 => some (5, 10, 15)
  | .bf16 => some (8, 7, 127)
  | .e4m3 => some (4, 3, 7)
  | .e5m2 => some (5, 2, 15)
  | .e2m1 => some (2, 1, 1)
  | _ => none

/-- Magnitude code of the largest finite value (R85). -/
def maxCode : Ty → Nat
  | .f32 => 0x7F7FFFFF
  | .f16 => 0x7BFF
  | .bf16 => 0x7F7F
  | .e4m3 => 0x7E
  | .e5m2 => 0x7B
  | .e2m1 => 0x7
  | .t8 => 0x7F
  | .t6 => 0x1F
  | _ => 0xFE

/-- The code of NaN, NaR, or what stands for them (R87, R93). -/
def nanCode : Ty → Nat
  | .f32 => 0x7FC00000
  | .f16 => 0x7E00
  | .bf16 => 0x7FC0
  | .e4m3 => 0x7F
  | .e5m2 => 0x7E
  | .e2m1 => 0
  | .t8 => 0x80
  | .t6 => 0x20
  | _ => 0xFF

/-- Length of the run of bits equal to `b` downward from bit `i − 1`. -/
def runLen (x : Nat) (b : Bool) : Nat → Nat
  | 0 => 0
  | i + 1 => if x.testBit i = b then runLen x b i + 1 else 0

/-- Decode of a tapered code of `n` bits (R89). -/
def decodeTaper (n code : Nat) : FVal :=
  let c := code % 2 ^ n
  if c = 0 then .fin false 0 0
  else if c = 2 ^ (n - 1) then .nan
  else
    let neg := c.testBit (n - 1)
    let x := if neg then 2 ^ n - c else c
    let b := x.testBit (n - 2)
    let run := runLen x b (n - 1)
    let k : Int := if b then (run : Int) - 1 else -(run : Int)
    -- bits left under the terminating bit
    let left := n - 1 - run - 1
    let e : Nat := if left = 0 then 0 else (if x.testBit (left - 1) then 1 else 0)
    let w := left - 1
    let f := x % 2 ^ w
    .fin neg (2 ^ w + f) (2 * k + e - w)

/-- The value of a code (R85, R88, R89). -/
def fdecode (t : Ty) (code : Nat) : FVal :=
  match t with
  | .t8 => decodeTaper 8 code
  | .t6 => decodeTaper 6 code
  | .e8 => if code % 256 = 255 then .nan else .fin false 1 ((code % 256 : Nat) - 127)
  | _ =>
    match ieeeShape t with
    | none => .nan
    | some (eb, fb, bias) =>
      let neg := code.testBit (eb + fb)
      let ex := code / 2 ^ fb % 2 ^ eb
      let fr := code % 2 ^ fb
      let top := ex = 2 ^ eb - 1
      if t = .e4m3 ∧ top ∧ fr = 7 then .nan
      else if t ≠ .e4m3 ∧ t ≠ .e2m1 ∧ top then (if fr = 0 then .inf neg else .nan)
      else if ex = 0 then .fin neg fr (1 - (bias : Int) - fb)
      else .fin neg (2 ^ fb + fr) ((ex : Int) - bias - fb)

/-- Flush of a BF16 subnormal to zero of its sign, on the code (R86). -/
def flushCode (t : Ty) (f : Bool) (code : Nat) : Nat :=
  if f && t == .bf16 && code / 128 % 256 == 0 then code / 32768 * 32768 else code

/-- A source's value under a flush (R190). -/
def fread (t : Ty) (f : Bool) (code : Nat) : FVal := fdecode t (flushCode t f code)

/-- Compares magnitudes m1 × 2^e1 and m2 × 2^e2. -/
def magCmp (m1 : Nat) (e1 : Int) (m2 : Nat) (e2 : Int) : Ordering :=
  if e1 ≥ e2 then compare (m1 * 2 ^ (e1 - e2).toNat) m2 else compare m1 (m2 * 2 ^ (e2 - e1).toNat)

/-- The position of the leading bit of m × 2^e. -/
def leadOf (m : Nat) (e : Int) : Int := (m.log2 : Int) + e

/-- Whether a mode takes the neighbour farther from zero, given the sign, whether the nearer one is odd, and how the
remainder compares with half a step (none: nothing was lost). -/
def roundsAway (m : RM) (neg odd : Bool) (rem : Option Ordering) : Bool :=
  match rem with
  | none => false
  | some o =>
    match m with
    | .rz => false
    | .rup => !neg
    | .rdn => neg
    | .rne => o == .gt || (o == .eq && odd)

/-- The magnitude of m × 2^e in an IEEE layout: the code nearer zero as though the exponent had no upper limit, with
the remainder and the shift it was lost by. -/
def ieeeTrunc (fb bias m : Nat) (e : Int) : Nat × Nat × Nat :=
  let qmin : Int := 1 - (bias : Int) - fb
  let q := max (leadOf m e - fb) qmin
  let base := (q - qmin).toNat * 2 ^ fb
  if e ≥ q then (base + m * 2 ^ (e - q).toNat, 0, 0)
  else
    let sh := min (q - e).toNat (m.log2 + 30)
    (base + m / 2 ^ sh, m % 2 ^ sh, sh)

/-- The tapered code nearer zero, at least 1, of a magnitude not below the smallest: the number of positive codes whose
value does not exceed it (R89, R92). -/
def taperTrunc (n m : Nat) (e : Int) : Nat :=
  (below (2 ^ (n - 1)) fun c =>
    c != 0 &&
      match decodeTaper n c with
      | .fin _ cm ce => magCmp cm ce m e != .gt
      | _ => false).length

/-- Magnitude of a positive tapered code as a multiple of 2^−16. -/
def taperUnits (n c : Nat) : Nat :=
  match decodeTaper n c with
  | .fin _ m e => m * 2 ^ (e + 16).toNat
  | _ => 0

/-- m × 2^e in units of 2^−48, for comparing with tapered magnitudes; far smaller values than the tapered range are
not passed here. -/
def unitsOf (m : Nat) (e : Int) : Nat × Nat :=
  if e + 48 ≥ 0 then (m * 2 ^ (e + 48).toNat, 1) else (m, 2 ^ (-(e + 48)).toNat)

/-- Sign bit of a format with a signed zero. -/
def signBit (t : Ty) (neg : Bool) : Nat := if neg then 2 ^ (t.bits - 1) else 0

/-- A tapered code with a sign. -/
def taperSigned (n : Nat) (neg : Bool) (c : Nat) : Nat := if neg then 2 ^ n - c else c

/-- Overflow of a finite value (R93). -/
def overflowCode (t : Ty) (m : RM) (sat neg : Bool) : Nat :=
  let big := signBit t neg + maxCode t
  let toInf := match m with
    | .rne => true
    | .rz => false
    | .rup => !neg
    | .rdn => neg
  if sat || !toInf then big
  else
    match t with
    | .e4m3 => nanCode t
    | .e2m1 => big
    | _ => signBit t neg + maxCode t + 1

/-- `round` of a finite non-zero magnitude into T8 or T6 (R92, R93). -/
def roundTaper (n : Nat) (m : RM) (neg : Bool) (x : Nat) (e : Int) : Nat :=
  let top := 2 ^ (n - 1) - 1
  if leadOf x e > 20 then taperSigned n neg top
  else if leadOf x e < -20 then taperSigned n neg 1
  else
    let c := taperTrunc n x e
    if c = 0 then taperSigned n neg 1
    else if c = top then taperSigned n neg top
    else
      let lo := taperUnits n c
      let hi := taperUnits n (c + 1)
      let (un, ud) := unitsOf x e
      -- twice the distance above lo against the step, both in units of 2^−48
      let d := un - lo * 2 ^ 32 * ud
      let rem := if d = 0 then none else some (compare (2 * d) ((hi - lo) * 2 ^ 32 * ud))
      taperSigned n neg (if roundsAway m neg (c % 2 = 1) rem then c + 1 else c)

/-- `round` of a positive magnitude into E8M0 (R93). -/
def roundE8 (m : RM) (sat : Bool) (x : Nat) (e : Int) : Nat :=
  let k := leadOf x e
  if k < -127 then 0
  else
    let half := compare (2 * x) (3 * 2 ^ x.log2)
    let rem := if x = 2 ^ x.log2 then none else some half
    if k ≥ 128 then (match m with | .rz | .rdn => 0xFE | _ => if sat then 0xFE else 0xFF)
    else
      let c := (k + 127).toNat
      let r := if roundsAway m false (c % 2 = 1) rem then c + 1 else c
      if r = 255 ∧ sat then 0xFE else r

/-- `round(x, f, m)` with or without sat, as a code (R92, R93). -/
def fround (t : Ty) (m : RM) (sat : Bool) (x : FVal) : Nat :=
  match x with
  | .nan => nanCode t
  | .inf neg =>
    match t with
    | .e4m3 => if sat then signBit t neg + maxCode t else nanCode t
    | .e2m1 => signBit t neg + maxCode t
    | .t8 | .t6 => nanCode t
    | .e8 => if sat && !neg then 0xFE else 0xFF
    | _ => signBit t neg + maxCode t + (if sat then 0 else 1)
  | .fin neg 0 _ =>
    match t with
    | .t8 | .t6 => 0
    | .e8 => 0xFF
    | _ => signBit t neg
  | .fin neg (k + 1) e =>
    match t with
    | .t8 => roundTaper 8 m neg (k + 1) e
    | .t6 => roundTaper 6 m neg (k + 1) e
    | .e8 => if neg then 0xFF else roundE8 m sat (k + 1) e
    | _ =>
      match ieeeShape t with
      | none => 0
      | some (_, fb, bias) =>
        let (c, rem, sh) := ieeeTrunc fb bias (k + 1) e
        let r := if rem = 0 then none else some (compare (2 * rem) (2 ^ sh))
        let c := if roundsAway m neg (c % 2 = 1) r then c + 1 else c
        if c > maxCode t then overflowCode t m sat neg else signBit t neg + c

/-- A rounding with the flush of a BF16 result (R86, R190). -/
def froundF (t : Ty) (m : RM) (sat f : Bool) (x : FVal) : Nat := flushCode t f (fround t m sat x)

/-- One step of a lane's generator (R95). -/
def rngStep (x : Word) : Word :=
  let x := x ^^^ (x <<< 13)
  let x := x ^^^ (x >>> 17)
  x ^^^ (x <<< 5)

/-- Rounding under sr: the code and the generator state after it (R96). -/
def froundSr (t : Ty) (sat : Bool) (s : Word) (x : FVal) : Nat × Word :=
  match x with
  | .fin neg (k + 1) e =>
    let s' := rngStep s
    let pick (lo hi t24 : Nat) : Nat := if (s'.toNat / 256) < t24 then hi else lo
    match t with
    | .t8 | .t6 =>
      let n := t.bits
      let top := 2 ^ (n - 1) - 1
      if leadOf (k + 1) e > 20 then (taperSigned n neg top, s)
      else if leadOf (k + 1) e < -20 then (taperSigned n neg 1, s)
      else
        let c := taperTrunc n (k + 1) e
        if c = 0 then (taperSigned n neg 1, s)
        else if c = top then (taperSigned n neg top, s)
        else
          let lo := taperUnits n c
          let hi := taperUnits n (c + 1)
          let (un, ud) := unitsOf (k + 1) e
          let d := un - lo * 2 ^ 32 * ud
          if d = 0 then (taperSigned n neg c, s)
          else (taperSigned n neg (pick c (c + 1) (d * 2 ^ 24 / ((hi - lo) * 2 ^ 32 * ud))), s')
    | _ =>
      match ieeeShape t with
      | none => (fround t .rz sat x, s)
      | some (_, fb, bias) =>
        let (c, rem, sh) := ieeeTrunc fb bias (k + 1) e
        if c > maxCode t ∨ (c = maxCode t ∧ rem ≠ 0) then (signBit t neg + maxCode t, s)
        else if rem = 0 then (signBit t neg + c, s)
        else (signBit t neg + pick c (c + 1) (rem * 2 ^ 24 / 2 ^ sh), s')
  | _ => (fround t .rz sat x, s)

/-! ### Exact arithmetic (R192) -/

/-- Sign of an exact zero sum of values of unlike signs (R192). -/
def zeroNeg (m : RM) : Bool := m == .rdn

/-- The signed mantissa at exponent `e`, which does not exceed the value's own. -/
def mantAt (neg : Bool) (m : Nat) (e0 e : Int) : Int :=
  let v : Int := (m * 2 ^ (e0 - e).toNat : Nat)
  if neg then -v else v

/-- a + b. -/
def fadd (m : RM) : FVal → FVal → FVal
  | .nan, _ => .nan
  | _, .nan => .nan
  | .inf a, .inf b => if a = b then .inf a else .nan
  | .inf a, _ => .inf a
  | _, .inf b => .inf b
  | .fin na ma ea, .fin nb mb eb =>
    if ma = 0 ∧ mb = 0 then .fin (if na = nb then na else zeroNeg m) 0 0
    else if ma = 0 then .fin nb mb eb
    else if mb = 0 then .fin na ma ea
    else
      let e := min ea eb
      let s := mantAt na ma ea e + mantAt nb mb eb e
      if s = 0 then .fin (zeroNeg m) 0 0 else .fin (decide (s < 0)) s.natAbs e

/-- −a. -/
def fneg : FVal → FVal
  | .nan => .nan
  | .inf a => .inf !a
  | .fin n m e => .fin (!n) m e

/-- a × b. -/
def fmul : FVal → FVal → FVal
  | .nan, _ => .nan
  | _, .nan => .nan
  | .inf a, .inf b => .inf (a != b)
  | .inf a, .fin b mb _ => if mb = 0 then .nan else .inf (a != b)
  | .fin a ma _, .inf b => if ma = 0 then .nan else .inf (a != b)
  | .fin a ma ea, .fin b mb eb => .fin (a != b) (ma * mb) (ea + eb)

/-- a × b + c, with 0 × ∞ NaN whatever c is (R192). -/
def ffma (m : RM) (a b c : FVal) : FVal := fadd m (fmul a b) c

/-- a / b: the quotient to more bits than any format holds, its last bit set when something was lost below it. -/
def fdivide : FVal → FVal → FVal
  | .nan, _ => .nan
  | _, .nan => .nan
  | .inf _, .inf _ => .nan
  | .inf a, .fin b _ _ => .inf (a != b)
  | .fin a _ _, .inf b => .fin (a != b) 0 0
  | .fin a ma ea, .fin b mb eb =>
    if mb = 0 then (if ma = 0 then .nan else .inf (a != b))
    else if ma = 0 then .fin (a != b) 0 0
    else
      let k := 66 + mb.log2 - ma.log2
      let n := ma * 2 ^ k
      .fin (a != b) (2 * (n / mb) + (if n % mb = 0 then 0 else 1)) (ea - eb - k - 1)

/-- √a, to more bits than any format holds, its last bit set when something was lost below it. -/
def fsqrtV : FVal → FVal
  | .nan => .nan
  | .inf neg => if neg then .nan else .inf false
  | .fin neg m e =>
    if m = 0 then .fin neg 0 0
    else if neg then .nan
    else
      let k : Nat := 2 * 40 + (if e % 2 = 0 then 0 else 1)
      let n := m * 2 ^ k
      let r := isqrt n
      .fin false (2 * r + (if r * r = n then 0 else 1)) ((e - k) / 2 - 1)

/-- Order of two values that are no NaN; −0 equals +0. -/
def fcompare : FVal → FVal → Ordering
  | .inf a, .inf b => if a = b then .eq else if a then .lt else .gt
  | .inf a, _ => if a then .lt else .gt
  | _, .inf b => if b then .gt else .lt
  | .fin na ma ea, .fin nb mb eb =>
    if ma = 0 ∧ mb = 0 then .eq
    else
      let e := min ea eb
      compare (mantAt na ma ea e) (mantAt nb mb eb e)
  | _, _ => .eq

/-- Whether a value is NaN. -/
def FVal.isNan : FVal → Bool
  | .nan => true
  | _ => false

/-- Whether a value is finite. -/
def FVal.isFin : FVal → Bool
  | .fin _ _ _ => true
  | _ => false

/-- The integer that a mode chooses for a finite value (R205). -/
def toIntegral (md : RM) (neg : Bool) (m : Nat) (e : Int) : Int :=
  let q : Nat :=
    if e ≥ 0 then m * 2 ^ e.toNat
    else
      let sh := min (-e).toNat (m.log2 + 3)
      let r := m % 2 ^ sh
      let c := m / 2 ^ sh
      if roundsAway md neg (c % 2 = 1) (if r = 0 then none else some (compare (2 * r) (2 ^ sh))) then c + 1 else c
  if neg then -(q : Int) else q

/-- Value of a narrow code or an integer as R82's tables use it: an exact integer. -/
def fint (x : Int) : FVal := .fin (decide (x < 0)) x.natAbs 0


/-- Exact sum of a list from `x` on (R192: cancelling terms and zeros of unlike sign give +0, −0 under rdn). -/
def fsum (m : RM) (x : FVal) (l : List FVal) : FVal := l.foldl (fadd m) x

end Sys2Proof.Machine
end

