-- ==== Sys2Proof/Machine/Flags.lean ====
section
/-! DEFINITION. Every predicate computation: comparison conditions (R173, R195), how a comparison combines with its
destination (R173), votes (R163), predicate logic (R166), and classification (R196). -/

namespace Sys2Proof.Machine

/-- ICMP's condition on two integers (R173): eq, ne, lt, le, gt, ge. -/
def icmpHolds (cond : Nat) (a b : Int) : Bool :=
  match cond with
  | 0 => a == b
  | 1 => a != b
  | 2 => decide (a < b)
  | 3 => decide (a ≤ b)
  | 4 => decide (b < a)
  | _ => decide (b ≤ a)

/-- How a comparison's outcome meets the old predicate (R173): SUB 0 writes, 1 ANDs, 2 ORs. -/
def combine (sub : Nat) (old new : Bool) : Bool :=
  match sub with
  | 0 => new
  | 1 => old && new
  | _ => old || new

/-- PLOP (R166). -/
def plopBit (op : PlopOp) (a b : Bool) : Bool :=
  match op with
  | .and => a && b
  | .or => a || b
  | .xor => a != b
  | .mov => a

/-- VOTE over the values of the lanes that take part (R163). -/
def voteBit (op : VoteOp) (vals : List Bool) : Bool :=
  match op with
  | .all => vals.all id
  | .any => vals.any id
  | .same => vals.all id || !vals.any id

/-- FCMP's condition (R195). -/
def fcmpHolds (cond : Nat) (a b : FVal) : Bool :=
  if a.isNan || b.isNan then cond == 1 || cond == 6
  else
    match cond with
    | 0 => fcompare a b == .eq
    | 1 => fcompare a b != .eq
    | 2 => fcompare a b == .lt
    | 3 => fcompare a b != .gt
    | 4 => fcompare a b == .gt
    | 5 => fcompare a b != .lt
    | 6 => false
    | _ => true

/-- FCLS: the bit of a code's class (R203). -/
def classBit (t : Ty) (code : Nat) : Nat :=
  match t with
  | .t8 | .t6 => if code = nanCode t then 10 else if code = 0 then 4 else if code ≥ 2 ^ (t.bits - 1) then 1 else 6
  | .e8 => if code = 0xFF then 8 else 6
  | _ =>
    match ieeeShape t with
    | none => 8
    | some (_, fb, _) =>
      let neg := decide (code ≥ 2 ^ (t.bits - 1))
      let mag := code % 2 ^ (t.bits - 1)
      match fdecode t code with
      | .nan => if t == .e4m3 || t == .e5m2 then 8 else if code.testBit (fb - 1) then 8 else 9
      | .inf _ => if neg then 0 else 7
      | .fin _ _ _ =>
        if mag = 0 then (if neg then 3 else 4)
        else if mag / 2 ^ fb = 0 then (if neg then 2 else 5)
        else if neg then 1 else 6

/-! ### Rounding controls (R79, R188, R189) -/

/-- Rounding mode, saturation and flush of one instruction. -/
structure Mode where
  m : RM
  s : Bool
  f : Bool
  deriving DecidableEq, Repr

/-- RM of `fmt`. -/
def fmtRm (fmt : Word) : RM :=
  match (fmt.extractLsb' 18 3).toNat with
  | 0 => .rne | 1 => .rz | 2 => .rup | _ => .rdn

/-- SAT of `fmt`. -/
def fmtSat (fmt : Word) : Bool := fmt.getLsbD 17

/-- FTZ of `fmt`. -/
def fmtFtz (fmt : Word) : Bool := fmt.getLsbD 16

/-- The mode a MOD field gives (R188). -/
def modeOf (fmt : Word) (x : FMod) : Mode :=
  let f := fmtFtz fmt || x.fz
  match x.rm with
  | .fmt => ⟨fmtRm fmt, fmtSat fmt || x.st, f⟩
  | .rne => ⟨.rne, x.st, f⟩
  | .rz => ⟨.rz, x.st, f⟩
  | .rup => ⟨.rup, x.st, f⟩
  | .rdn => ⟨.rdn, x.st, f⟩

/-- The mode that SUB gives FMA, HFMA2 and DOT4 (R189). -/
def modeSub (fmt : Word) (sub : BitVec 2) : Mode :=
  match sub.toNat with
  | 0 => ⟨fmtRm fmt, fmtSat fmt, fmtFtz fmt⟩
  | 1 => ⟨fmtRm fmt, true, fmtFtz fmt⟩
  | 2 => ⟨.rz, false, fmtFtz fmt⟩
  | _ => ⟨.rne, false, fmtFtz fmt⟩

end Sys2Proof.Machine
end

