-- ==== Sys2Proof/Machine/Integer.lean ====
section
/-! DEFINITION. The integer instructions (spec/06_isa_control_and_integer.md R173–R184). -/

namespace Sys2Proof.Machine

/-! ### Exact results -/

/-- lo(T) and hi(T) (R175). -/
def loOf (t : Ty) : Int := if t.isI then -((2 ^ (t.bits - 1) : Nat) : Int) else 0

/-- The greatest value of an integer type (R175). -/
def hiOf (t : Ty) : Int := if t.isI then ((2 ^ (t.bits - 1) : Nat) : Int) - 1 else ((2 ^ t.bits : Nat) : Int) - 1

/-- Saturation to a type (R175). -/
def clampTo (t : Ty) (x : Int) : Int := min (max x (loOf t)) (hiOf t)

/-- What a destination receives of an exact result, extended to 64 bits (R174). -/
def extResult (t : Ty) (x : Int) : Nat :=
  let v := truncInt t.bits x
  if t.isI then truncInt 64 (sextInt t.bits v) else v

/-- A result with or without `.sat` (R175). -/
def satResult (t : Ty) (sat : Bool) (x : Int) : Nat := extResult t (if sat then clampTo t x else x)

/-- Quotient of IDIV (R176). -/
def idivQ (t : Ty) (floor : Bool) (a b : Int) : Int :=
  if b = 0 then (if t.isI then -1 else ((2 ^ t.bits : Nat) : Int) - 1)
  else if floor then Int.fdiv a b else Int.tdiv a b

/-- Remainder of IREM (R176). -/
def iremR (t : Ty) (floor : Bool) (a b : Int) : Int := if b = 0 then a else a - idivQ t floor a b * b

/-- CLZ of the low `w` bits (R178). -/
def clzNat (w a : Nat) : Nat := if a % 2 ^ w = 0 then w else w - 1 - (a % 2 ^ w).log2

/-- CTZ of the low `w` bits (R178). -/
def ctzNat : Nat → Nat → Nat
  | 0, _ => 0
  | w + 1, a => if a % 2 = 1 then 0 else 1 + ctzNat w (a / 2)

/-- BREV of the low `w` bits (R178). -/
def brevNat (w a : Nat) : Nat := (List.range w).foldl (fun acc k => if a.testBit k then acc + 2 ^ (w - 1 - k) else acc) 0

/-- ROL (R178). -/
def rolNat (w a n : Nat) : Nat := (a * 2 ^ (n % w)) % 2 ^ w + a / 2 ^ (w - n % w)

/-- The two fields of a control word (R179). -/
def ctlPos (c : Nat) : Nat := c % 256

/-- Length field, at most the width (R179). -/
def ctlLen (w c : Nat) : Nat := min (c / 256 % 256) w

/-- BFX (R179). -/
def bfxInt (t : Ty) (a : Int) (c : Nat) : Int :=
  let len := ctlLen t.bits c
  if len = 0 then 0
  else
    let x := ((a / ((2 ^ ctlPos c : Nat) : Int)) % ((2 ^ len : Nat) : Int)).toNat
    if t.isI then sextInt len x else x

/-- BFI (R179). -/
def bfiNat (w a b c : Nat) : Nat :=
  let m := ((2 ^ ctlLen w c - 1) * 2 ^ ctlPos c) % 2 ^ w
  (a &&& (2 ^ w - 1 - m)) ||| ((b * 2 ^ ctlPos c) % 2 ^ w &&& m)

/-- PERM (R180). -/
def permNat (a b sel : Nat) : Nat :=
  (List.range 4).foldl (fun acc k =>
    let nib := sel / 2 ^ (4 * k) % 16
    if nib ≥ 8 then acc else acc + (a + 2 ^ 32 * b) / 2 ^ (8 * nib) % 256 * 2 ^ (8 * k)) 0

/-! ### Shapes -/

/-- One integer source, type T in and out. -/
def intOp1 (s : State) (x : Op1) (latency : Nat) (f : Int → Int) : Out :=
  dataOp s x.h false (widthOf x.ty.wide) latency [(x.a, x.ty.wide)] x.d x.ty.wide fun g _ i t =>
    satResult x.ty (x.sub == 1) (f (readInt g x.h i t x.ty x.a))

/-- Two integer sources; `sat` tells whether SUB 1 saturates. -/
def intOp2 (s : State) (x : Op2) (latency : Nat) (sat : Bool) (f : Int → Int → Int) : Out :=
  dataOp s x.h false (widthOf x.ty.wide) latency [(x.a, x.ty.wide), (x.b, x.ty.wide)] x.d x.ty.wide fun g _ i t =>
    satResult x.ty (sat && x.sub == 1) (f (readInt g x.h i t x.ty x.a) (readInt g x.h i t x.ty x.b))

/-- Three integer sources. -/
def intOp3 (s : State) (x : Op3) (latency : Nat) (f : Int → Int → Int → Int) : Out :=
  dataOp s x.h false (widthOf x.ty.wide) latency [(x.a, x.ty.wide), (x.b, x.ty.wide), (x.c, x.ty.wide)] x.d x.ty.wide
    fun g _ i t =>
      satResult x.ty (x.sub == 1) (f (readInt g x.h i t x.ty x.a) (readInt g x.h i t x.ty x.b) (readInt g x.h i t x.ty x.c))

/-- Two bit-pattern sources of one width. -/
def bitOp2 (s : State) (x : Op2) (f : Nat → Nat → Nat) : Out :=
  dataOp s x.h false (widthOf x.ty.wide) 4 [(x.a, x.ty.wide), (x.b, x.ty.wide)] x.d x.ty.wide fun g _ i t =>
    f (readSrc g x.h i t x.ty.bits x.a) (readSrc g x.h i t x.ty.bits x.b) % 2 ^ x.ty.bits

/-- A source in the type and a 32-bit count or control (R174, R178). -/
def countOp (s : State) (x : Op2) (latency : Nat) (f : Int → Nat → Int) : Out :=
  dataOp s x.h false (widthOf x.ty.wide) latency [(x.a, x.ty.wide), (x.b, false)] x.d x.ty.wide fun g _ i t =>
    extResult x.ty (f (readInt g x.h i t x.ty x.a) (readSrc g x.h i t 32 x.b))

/-- A count of a source's bits, written as `.n32` (R178). -/
def bitCount (s : State) (x : Op1) (f : Nat → Nat → Nat) : Out :=
  dataOp s x.h false (widthOf x.ty.wide) 6 [(x.a, x.ty.wide)] x.d false fun g _ i t =>
    f x.ty.bits (readSrc g x.h i t x.ty.bits x.a)

/-! ### Meanings -/

/-- IADD (R173, R175). -/
def execIadd (x : Op2) (s : State) : Out := intOp2 s x 4 true fun a b => a + b

/-- IADD3 (R173, R175). -/
def execIadd3 (x : Op3) (s : State) : Out := intOp3 s x 4 fun a b c => a + b + c

/-- ISUB (R173, R175). -/
def execIsub (x : Op2) (s : State) : Out := intOp2 s x 4 true fun a b => a - b

/-- INEG (R173, R175). -/
def execIneg (x : Op1) (s : State) : Out := intOp1 s x 4 fun a => -a

/-- IABS (R173, R175). -/
def execIabs (x : Op1) (s : State) : Out := intOp1 s x 4 fun a => a.natAbs

/-- IMUL (R173, R175). -/
def execImul (x : Op2) (s : State) : Out := intOp2 s x 6 true fun a b => a * b

/-- IMULH (R173). -/
def execImulh (x : Op2) (s : State) : Out := intOp2 s x 6 false fun a b => Int.fdiv (a * b) ((2 ^ x.ty.bits : Nat) : Int)

/-- IMAD (R173, R175). -/
def execImad (x : Op3) (s : State) : Out := intOp3 s x 6 fun a b c => a * b + c

/-- IDIV (R176). -/
def execIdiv (x : Op2) (s : State) : Out := intOp2 s x 24 false fun a b => idivQ x.ty (x.sub == 1) a b

/-- IREM (R176). -/
def execIrem (x : Op2) (s : State) : Out := intOp2 s x 24 false fun a b => iremR x.ty (x.sub == 1) a b

/-- IMIN (R173). -/
def execImin (x : Op2) (s : State) : Out := intOp2 s x 4 false fun a b => min a b

/-- IMAX (R173). -/
def execImax (x : Op2) (s : State) : Out := intOp2 s x 4 false fun a b => max a b

/-- ICMP (R177). -/
def execIcmp (x : CmpOp) (s : State) : Out :=
  predOp s x.h (widthOf x.ty.wide) 4 [(x.a, x.ty.wide), (x.b, x.ty.wide)] x.d fun g _ i t =>
    combine x.sub.toNat (readSel g x.h i t x.d)
      (icmpHolds x.cond.toNat (readInt g x.h i t x.ty x.a) (readInt g x.h i t x.ty x.b))

/-- ISEL (R177). -/
def execIsel (h : Hdr) (d : Dst) (a b : Src) (sel : PSel) (ty : Ty) (s : State) : Out :=
  dataOp s h false (widthOf ty.wide) 4 [(a, ty.wide), (b, ty.wide)] d ty.wide fun g _ i t =>
    if readSel g h i t sel then readSrc g h i t ty.bits a else readSrc g h i t ty.bits b

/-- AND (R173). -/
def execAnd (x : Op2) (s : State) : Out := bitOp2 s x fun a b => a &&& b

/-- OR (R173). -/
def execOr (x : Op2) (s : State) : Out := bitOp2 s x fun a b => a ||| b

/-- XOR (R173). -/
def execXor (x : Op2) (s : State) : Out := bitOp2 s x fun a b => a ^^^ b

/-- NOT (R173). -/
def execNot (x : Op1) (s : State) : Out :=
  dataOp s x.h false (widthOf x.ty.wide) 4 [(x.a, x.ty.wide)] x.d x.ty.wide fun g _ i t =>
    2 ^ x.ty.bits - 1 - readSrc g x.h i t x.ty.bits x.a

/-- ANDN (R173). -/
def execAndn (x : Op2) (s : State) : Out := bitOp2 s x fun a b => a &&& (2 ^ x.ty.bits - 1 - b)

/-- SHL (R178). -/
def execShl (x : Op2) (s : State) : Out := countOp s x 4 fun a n => if n ≥ x.ty.bits then 0 else a * ((2 ^ n : Nat) : Int)

/-- SHR (R178). -/
def execShr (x : Op2) (s : State) : Out :=
  countOp s x 4 fun a n => if n ≥ x.ty.bits then 0 else Int.fdiv a ((2 ^ n : Nat) : Int)

/-- SAR (R178). -/
def execSar (x : Op2) (s : State) : Out := countOp s x 4 fun a n => Int.fdiv a ((2 ^ min n x.ty.bits : Nat) : Int)

/-- ROL (R178). -/
def execRol (x : Op2) (s : State) : Out := countOp s x 4 fun a n => rolNat x.ty.bits a.toNat n

/-- POPC (R178). -/
def execPopc (x : Op1) (s : State) : Out := bitCount s x popNat

/-- CLZ (R178). -/
def execClz (x : Op1) (s : State) : Out := bitCount s x clzNat

/-- CTZ (R178). -/
def execCtz (x : Op1) (s : State) : Out := bitCount s x ctzNat

/-- BREV (R178). -/
def execBrev (x : Op1) (s : State) : Out :=
  dataOp s x.h false (widthOf x.ty.wide) 6 [(x.a, x.ty.wide)] x.d x.ty.wide fun g _ i t =>
    brevNat x.ty.bits (readSrc g x.h i t x.ty.bits x.a)

/-- BFX (R179). -/
def execBfx (x : Op2) (s : State) : Out := countOp s x 6 fun a c => bfxInt x.ty a c

/-- BFI (R179). -/
def execBfi (x : Op3) (s : State) : Out :=
  dataOp s x.h false (widthOf x.ty.wide) 6 [(x.a, x.ty.wide), (x.b, x.ty.wide), (x.c, false)] x.d x.ty.wide fun g _ i t =>
    bfiNat x.ty.bits (readSrc g x.h i t x.ty.bits x.a) (readSrc g x.h i t x.ty.bits x.b) (readSrc g x.h i t 32 x.c)

/-- PERM (R180). -/
def execPerm (x : Op3) (s : State) : Out :=
  dataOp s x.h false .w32 6 [(x.a, false), (x.b, false), (x.c, false)] x.d false fun g _ i t =>
    permNat (readSrc g x.h i t 32 x.a) (readSrc g x.h i t 32 x.b) (readSrc g x.h i t 32 x.c)

/-- LEA (R181). -/
def execLea (x : Op3) (s : State) : Out :=
  dataOp s x.h false .w64 4 [(x.a, true), (x.b, x.ty.wide), (x.c, false)] x.d true fun g _ i t =>
    truncInt 64 ((readSrc g x.h i t 64 x.a : Int)
      + readInt g x.h i t x.ty x.b * ((2 ^ (readSrc g x.h i t 32 x.c % 64) : Nat) : Int))

/-- MOV (R181). -/
def execMov (x : Op1) (s : State) : Out :=
  dataOp s x.h false (widthOf x.ty.wide) 4 [(x.a, x.ty.wide)] x.d x.ty.wide fun g _ i t =>
    readSrc g x.h i t x.ty.bits x.a

/-- The value of a MOVI (R182), extended to 64 bits. -/
def moviVal (sub : BitVec 3) (imm : BitVec 24) : Nat :=
  if sub.toNat % 2 = 0 then truncInt 64 (sextInt 24 imm.toNat) else imm.toNat

/-- MOVI (R182). -/
def execMovi (h : Hdr) (d : Dst) (sub : BitVec 3) (imm : BitVec 24) (s : State) : Out :=
  dataOp s h false (widthOf (sub.toNat ≥ 2)) 4 [] d (sub.toNat ≥ 2) fun _ _ _ _ => moviVal sub imm

/-- LDI (R182). -/
def execLdi (h : Hdr) (d : Dst) (sub : BitVec 3) (imm : DWord) (s : State) : Out :=
  dataOp s h true (widthOf (sub == 1)) 4 [] d (sub == 1) fun _ _ _ _ => imm.toNat

/-- CVTI (R183). -/
def execCvti (h : Hdr) (d : Dst) (a : Src) (dty sty : Ty) (sub : BitVec 2) (s : State) : Out :=
  dataOp s h false (widthOf (dty.wide || sty.wide)) 6 [(a, sty.wide)] d dty.wide fun g _ i t =>
    satResult dty (sub == 1) (readInt g h i t sty a)

end Sys2Proof.Machine
end

