-- ==== Sys2Proof/Machine/Special.lean ====
section
/-! DEFINITION. The special functions (spec/07_isa_vector_float.md R197–R200). The manual fixes a set of results for
each source; which member is returned is a free value (log 6). Real functions are computed in fixed point, with an error below
2^−90. -/

namespace Sys2Proof.Machine

/-- The special functions. -/
inductive SpecFn where
  | rcp | rsq | ex2 | lg2 | sin | cos | tanh
  deriving DecidableEq, Repr

/-- The number a free value is asked for under. -/
def SpecFn.num : SpecFn → Nat
  | .rcp => 0 | .rsq => 1 | .ex2 => 2 | .lg2 => 3 | .sin => 4 | .cos => 5 | .tanh => 6

/-- Bits of fraction in the fixed-point enclosures. -/
def fxBits : Nat := 128

/-- 2^(2^−n) for n = 1, 2, …: repeated square roots of 2. -/
def rootsOfTwo : Nat → Nat → List Nat
  | 0, _ => []
  | n + 1, c =>
    let r := isqrt (c * 2 ^ fxBits)
    r :: rootsOfTwo n r

/-- 2^f for f = frac / 2^fxBits in [0, 1), by its leading 96 bits. -/
def exp2Frac (frac : Nat) : Nat :=
  ((rootsOfTwo 96 (2 * 2 ^ fxBits)).foldl
    (fun (acc : Nat × Nat) r =>
      (if frac.testBit acc.2 then acc.1 * r / 2 ^ fxBits else acc.1, acc.2 - 1)) (2 ^ fxBits, fxBits - 1)).1

/-- log₂ of m / 2^fxBits for m / 2^fxBits in [1, 2): `n` bits of it, most significant first, by repeated squaring. -/
def log2Frac : Nat → Nat → Nat → Nat
  | 0, _, acc => acc
  | n + 1, m, acc =>
    let sq := m * m / 2 ^ fxBits
    if sq ≥ 2 * 2 ^ fxBits then log2Frac n (sq / 2) (2 * acc + 1) else log2Frac n sq (2 * acc)

/-- π × 2^128, rounded down. -/
def piFx : Nat := 0x3243F6A8885A308D313198A2E03707344

/-- Terms of the series of sine (from x) or cosine (from 1) in fixed point: `k` is the index of the last term. -/
def trigTerms : Nat → Int → Int → Nat → Int
  | 0, _, _, _ => 0
  | n + 1, x2, term, k =>
    term + trigTerms n x2 (-(term * x2 / (2 ^ fxBits : Nat)) / ((k + 1) * (k + 2) : Nat)) (k + 2)

/-- sin or cos of x / 2^fxBits in fixed point, after reduction modulo 2π. -/
def trigFx (isCos : Bool) (x : Int) : Int :=
  let twoPi : Int := (2 * piFx : Nat)
  let r := x % twoPi
  let r := if r > (piFx : Int) then r - twoPi else r
  let x2 := r * r / (2 ^ fxBits : Nat)
  if isCos then trigTerms 40 x2 (2 ^ fxBits : Nat) 0 else trigTerms 40 x2 r 1

/-- 2^x in fixed point for x / 2^fxBits with |x| below 2^7. -/
def exp2Fx (x : Int) : Nat :=
  let one : Int := (2 ^ fxBits : Nat)
  let n := x / one
  let f := exp2Frac (x % one).toNat
  if n ≥ 0 then f * 2 ^ n.toNat else f / 2 ^ (-n).toNat

/-- log₂ e × 2^128. -/
def log2eFx : Nat := 0x171547652B82FE1777D0FFDA0D23A7D12

/-- tanh of x / 2^fxBits in fixed point. -/
def tanhFx (x : Int) : Int :=
  let one : Int := (2 ^ fxBits : Nat)
  if x > 32 * one then one
  else if x < -(32 * one) then -one
  else
    let t : Int := exp2Fx (2 * x * (log2eFx : Nat) / one)
    (t - one) * one / (t + one)

/-- A finite value in fixed point. -/
def toFx (neg : Bool) (m : Nat) (e : Int) : Int :=
  let v : Nat := if e + fxBits ≥ 0 then m * 2 ^ (e + fxBits).toNat else m / 2 ^ (-(e + fxBits)).toNat
  if neg then -(v : Int) else v

/-- A finite value in fixed point, rounded down. -/
def floorFx (neg : Bool) (m : Nat) (e : Int) : Int :=
  if e + fxBits ≥ 0 then toFx neg m e
  else (if neg then -(m : Int) else (m : Int)) / (2 ^ (-(e + fxBits)).toNat : Nat)

/-- A fixed-point value, exactly. -/
def fxVal (v : Int) : FVal := .fin (decide (v < 0)) v.natAbs (-fxBits)

/-- A value nearer zero than m 2^e by one part in 2^60. For a magnitude below 2^-28, sine and tanh lie on the same side of every bound
as this value for the source itself, and cosine as this value for 1 (R198). -/
def justInside (neg : Bool) (m : Nat) (e : Int) : FVal := .fin neg (m * (2 ^ 60 - 1)) (e - 60)

/-- Whether an FP32 code is a finite number within 2^`tol` of the value `v`. -/
def withinAbs (v : FVal) (tol : Int) (c : Nat) : Bool :=
  match fadd .rne (fdecode .f32 c) (fneg v) with
  | .fin _ m e => magCmp m e 1 tol != .gt
  | _ => false

/-- Whether an FP32 code is within 2 ulp of an exact value, the ulp being the distance of the two FP32 values that
bracket it (R198). -/
def within2ulp (v : FVal) (c : Nat) : Bool :=
  let lo := fround .f32 .rz false v
  let ulp := fadd .rne (fdecode .f32 (lo + 1)) (fneg (fdecode .f32 lo))
  match fadd .rne (fdecode .f32 c) (fneg v), ulp with
  | .fin _ m e, .fin _ mu eu => magCmp m e mu (eu + 1) != .gt
  | _, _ => false

/-- The code asked for, when the set holds it, else the fallback (log 6). -/
def pickIn (ok : Nat → Bool) (asked fallback : Nat) : Nat := if ok (asked % 2 ^ 32) then asked % 2 ^ 32 else fallback

/-- One of the two FP32 values that bracket an exact value known to more bits than FP32 holds, or that value itself
when it is exact; `asked` picks the upper one when odd. -/
def pickBracket (asked : Nat) (x : FVal) : Nat :=
  let lo := fround .f32 .rz false x
  let hi := match x with
    | .fin neg _ _ => fround .f32 (if neg then .rdn else .rup) false x
    | _ => lo
  if asked % 2 = 1 then hi else lo

/-- y of R198 as an FP32 code, and whether R199's table gives it. `a` is the source widened to FP32. -/
def specY (fn : SpecFn) (asked : Nat) (a : FVal) : Nat × Bool :=
  let nanr := (nanCode .f32, true)
  let pinf := 0x7F800000
  let one := 0x3F800000
  match fn, a with
  | _, .nan => nanr
  | .rcp, .inf neg => (signBit .f32 neg, true)
  | .rcp, .fin neg m e =>
    if m = 0 then (signBit .f32 neg + pinf, true)
    else
      let q := fdivide (.fin false 1 0) (.fin neg m e)
      -- beyond the FP32 range the result is an infinity (R199)
      (if m = 2 ^ m.log2 then (fround .f32 .rne false q, false)
       else
        let big := fround .f32 .rz false q % 2 ^ 31 = maxCode .f32
        (if big then (if leadOf m e < -128 then signBit .f32 neg + pinf else pickBracket asked q)
         else pickBracket asked q, false))
  | .rsq, .inf neg => if neg then nanr else (0, true)
  | .rsq, .fin neg m e =>
    if m = 0 then (signBit .f32 neg + pinf, true)
    else if neg then nanr
    else
      -- 1 / √(m 2^e): the square root of 2^200 / (m 2^odd), the last bit sticky
      let odd : Nat := if e % 2 = 0 then 0 else 1
      let n := 2 ^ 200 / (m * 2 ^ odd)
      let r := isqrt n
      let exact := r * r * (m * 2 ^ odd) = 2 ^ 200
      (pickBracket asked (.fin false (2 * r + (if exact then 0 else 1)) (-100 - (e - odd) / 2 - 1)), false)
  | .ex2, .inf neg => if neg then (0, true) else (pinf, true)
  | .ex2, .fin neg m e =>
    if m = 0 then (one, true)
    else if leadOf m e ≥ 8 ∨ (!neg && magCmp m e 128 0 != .lt) then (if neg then 0 else pinf, false)
    else if neg && magCmp m e 150 0 == .gt then (0, true)
    else if (e ≥ 0 ∨ m % 2 ^ (-e).toNat = 0) ∧ -149 ≤ toIntegral .rz neg m e then
      let n : Int := toIntegral .rz neg m e
      (fround .f32 .rne false (.fin false 1 n), false)
    else
      -- 2^a lies above its fixed-point value, by less than that can show
      let x := floorFx neg m e
      let w : Int := (2 ^ fxBits : Nat)
      let v : FVal := .fin false (2 * exp2Frac (x % w).toNat + 1) (x / w - fxBits - 1)
      (pickIn (within2ulp v) asked (fround .f32 .rne false v), false)
  | .lg2, .inf neg => if neg then nanr else (pinf, true)
  | .lg2, .fin neg m e =>
    if m = 0 then (0xFF800000, true)
    else if neg then nanr
    else
      let l := leadOf m e
      if m = 2 ^ m.log2 then (fround .f32 .rne false (fint l), false)
      else
        let mant := m * 2 ^ (fxBits - m.log2)
        let f := log2Frac 90 mant 0 * 2 ^ (fxBits - 90)
        let v : Int := l * (2 ^ fxBits : Nat) + f
        let x := fxVal v
        let near := fround .f32 .rne false x
        let ok : Nat → Bool :=
          if magCmp m e 1 (-1) != .lt && magCmp m e 2 0 != .gt then withinAbs x (-22)
          else within2ulp x
        (pickIn ok asked near, false)
  | .sin, .inf _ => nanr
  | .cos, .inf _ => nanr
  | .sin, .fin neg m e =>
    if m = 0 then (signBit .f32 neg, true)
    else if magCmp m e (2 ^ 20) 0 == .gt then
      (pickIn (fun y => decide (y % 2 ^ 31 ≤ one)) asked 0, false)
    else
      let v := if leadOf m e < -28 then justInside neg m e else fxVal (trigFx false (toFx neg m e))
      (pickIn (withinAbs v (-21)) asked (fround .f32 .rne false v), false)
  | .cos, .fin neg m e =>
    if m = 0 then (one, true)
    else if magCmp m e (2 ^ 20) 0 == .gt then
      (pickIn (fun y => decide (y % 2 ^ 31 ≤ one)) asked 0, false)
    else
      let v := if leadOf m e < -28 then justInside false 1 0 else fxVal (trigFx true (toFx neg m e))
      (pickIn (withinAbs v (-21)) asked (fround .f32 .rne false v), false)
  | .tanh, .inf neg => (signBit .f32 neg + one, true)
  | .tanh, .fin neg m e =>
    if m = 0 then (signBit .f32 neg, true)
    else
      -- beyond 2^5 tanh differs from ±1 by less than 2^-92
      let v := if leadOf m e < -28 then justInside neg m e
        else if leadOf m e ≥ 5 then justInside neg 1 0
        else fxVal (tanhFx (toFx neg m e))
      (pickIn (fun y => withinAbs v (-21) y && decide (y % 2 ^ 31 ≤ one)) asked (fround .f32 .rne false v), false)

/-- A special function's result (R198): y, on which for `.f32` the effective mode has no bearing, its infinity from a finite source saturated when s = 1, then narrowed. -/
def specResult (fn : SpecFn) (t : Ty) (m : RM) (s f : Bool) (src : Nat) : Nat :=
  let mode :=
    if t = .f32 then 0
    else (match m with | .rne => 0 | .rz => 1 | .rup => 2 | .rdn => 3) + (if s then 4 else 0) + (if f then 8 else 0)
  let asked := Config.special fn.num (match t with | .f32 => 0 | .f16 => 1 | _ => 2) (src % 2 ^ t.bits) mode
  let (y, table) := specY fn asked (fread t f src)
  let isInf := y % 2 ^ 31 = 0x7F800000
  if isInf ∧ table then fround t .rne false (fdecode .f32 y)
  else
    let y := if isInf ∧ s then y - 1 else y
    if t = .f32 then y else froundF t m s f (fdecode .f32 y)

end Sys2Proof.Machine
end

