-- ==== Sys2Proof/Machine/Floating.lean ====
section
/-! DEFINITION. The floating-point arithmetic, special-function, classification, packed and dot-product instructions
(spec/07_isa_vector_float.md R188–R206, R212–R215). -/

namespace Sys2Proof.Machine

/-! ### Reading and writing -/

/-- The code a floating source holds in its type; a short constant is its integer value, converted exactly (R72). -/
def readCode (g : Group) (h : Hdr) (lane now : Nat) (t : Ty) (x : Src) : Nat :=
  match x with
  | .k n => fround t .rne false (fint (constInt n))
  | _ => readSrc g h lane now t.bits x

/-- A floating source as a value, BF16 subnormals flushed when f = 1 (R190). -/
def readVal (g : Group) (h : Hdr) (lane now : Nat) (t : Ty) (f : Bool) (x : Src) : FVal := fread t f (readCode g h lane now t x)

/-- Two sources of one type under a MOD field. -/
def floatOp2 (s : State) (x : FOp2) (latency : Nat) (op : RM → FVal → FVal → FVal) : Out :=
  dataOp s x.h false .w32 latency [(x.a, false), (x.b, false)] x.d false fun g _ i t =>
    let c := modeOf g.fmt x.m
    froundF x.ty c.m c.s c.f (op c.m (readVal g x.h i t x.ty c.f x.a) (readVal g x.h i t x.ty c.f x.b))

/-- A special function (R198, R200). -/
def specOp (s : State) (x : FOp1) (fn : SpecFn) : Out :=
  dataOp s x.h false .w32 16 [(x.a, false)] x.d false fun g _ i t =>
    let c := modeOf g.fmt x.m
    specResult fn x.ty c.m c.s c.f (readCode g x.h i t x.ty x.a)

/-- A change of the sign bit alone (R194). -/
def signOp (s : State) (x : Op1) (f : Nat → Nat → Nat) : Out :=
  dataOp s x.h false .w32 6 [(x.a, false)] x.d false fun g _ i t =>
    f (2 ^ (x.ty.bits - 1)) (readCode g x.h i t x.ty x.a)

/-- The lesser or the greater of two codes (R193): `pickB a b` says that b is chosen of two values. -/
def extremum (t : Ty) (a b : Nat) (pickB : Ordering → Bool) : Nat :=
  let va := fdecode t a
  let vb := fdecode t b
  if va.isNan && vb.isNan then nanCode t
  else if va.isNan then b
  else if vb.isNan then a
  else
    let o := match fcompare va vb with
      | .eq => compare (b / 2 ^ (t.bits - 1)) (a / 2 ^ (t.bits - 1))
      | o => o
    if pickB o then b else a

/-- FMIN and FMAX (R193). -/
def extremumOp (s : State) (x : Op2) (pickB : Ordering → Bool) : Out :=
  dataOp s x.h false .w32 6 [(x.a, false), (x.b, false)] x.d false fun g _ i t =>
    let f := fmtFtz g.fmt
    extremum x.ty (flushCode x.ty f (readCode g x.h i t x.ty x.a)) (flushCode x.ty f (readCode g x.h i t x.ty x.b)) pickB

/-! ### Meanings -/

/-- FADD (R192). -/
def execFadd (x : FOp2) (s : State) : Out := floatOp2 s x 6 fadd

/-- FSUB (R192). -/
def execFsub (x : FOp2) (s : State) : Out := floatOp2 s x 6 fun m a b => fadd m a (fneg b)

/-- FMUL (R192). -/
def execFmul (x : FOp2) (s : State) : Out := floatOp2 s x 6 fun _ a b => fmul a b

/-- FMA (R189, R192). -/
def execFma (x : Op3) (s : State) : Out :=
  dataOp s x.h false .w32 6 [(x.a, false), (x.b, false), (x.c, false)] x.d false fun g _ i t =>
    let c := modeSub g.fmt x.sub
    let v := readVal g x.h i t x.ty c.f
    froundF x.ty c.m c.s c.f (ffma c.m (v x.a) (v x.b) (v x.c))

/-- FMIN (R193). -/
def execFmin (x : Op2) (s : State) : Out := extremumOp s x fun o => o == .gt

/-- FMAX (R193). -/
def execFmax (x : Op2) (s : State) : Out := extremumOp s x fun o => o == .lt

/-- FCMP (R195). -/
def execFcmp (x : CmpOp) (s : State) : Out :=
  predOp s x.h .w32 6 [(x.a, false), (x.b, false)] x.d fun g _ i t =>
    let f := fmtFtz g.fmt
    combine x.sub.toNat (readSel g x.h i t x.d)
      (fcmpHolds x.cond.toNat (readVal g x.h i t x.ty f x.a) (readVal g x.h i t x.ty f x.b))

/-- FNEG (R194). -/
def execFneg (x : Op1) (s : State) : Out := signOp s x fun top v => v ^^^ top

/-- FABS (R194). -/
def execFabs (x : Op1) (s : State) : Out := signOp s x fun top v => v % top

/-- FRCP (R197–R199). -/
def execFrcp (x : FOp1) (s : State) : Out := specOp s x .rcp

/-- FRSQ (R197–R199). -/
def execFrsq (x : FOp1) (s : State) : Out := specOp s x .rsq

/-- FSQRT (R192). -/
def execFsqrt (x : FOp1) (s : State) : Out :=
  dataOp s x.h false .w32 16 [(x.a, false)] x.d false fun g _ i t =>
    let c := modeOf g.fmt x.m
    froundF x.ty c.m c.s c.f (fsqrtV (readVal g x.h i t x.ty c.f x.a))

/-- FDIV (R192). -/
def execFdiv (x : FOp2) (s : State) : Out := floatOp2 s x 24 fun _ a b => fdivide a b

/-- FEX2 (R197–R199). -/
def execFex2 (x : FOp1) (s : State) : Out := specOp s x .ex2

/-- FLG2 (R197–R199). -/
def execFlg2 (x : FOp1) (s : State) : Out := specOp s x .lg2

/-- FSIN (R197–R199). -/
def execFsin (x : FOp1) (s : State) : Out := specOp s x .sin

/-- FCOS (R197–R199). -/
def execFcos (x : FOp1) (s : State) : Out := specOp s x .cos

/-- FTANH (R197–R199). -/
def execFtanh (x : FOp1) (s : State) : Out := specOp s x .tanh

/-- FCLS (R203). -/
def execFcls (x : Op1) (s : State) : Out :=
  dataOp s x.h false .w32 6 [(x.a, false)] x.d false fun g _ i t =>
    2 ^ classBit x.ty (readCode g x.h i t x.ty x.a)

/-- a × 2ⁿ (R204). -/
def scaleVal (a : FVal) (n : Int) : FVal :=
  match a with
  | .fin neg m e => .fin neg m (e + n)
  | v => v

/-- The scale amount of FSCL brought to where it can still matter: every format's range lies within 2^±400. -/
def clampScale (n : Int) : Int := max (-1000) (min n 1000)

/-- FSCL (R204). -/
def execFscl (x : FOp2) (s : State) : Out :=
  dataOp s x.h false .w32 6 [(x.a, false), (x.b, false)] x.d false fun g _ i t =>
    let c := modeOf g.fmt x.m
    froundF x.ty c.m c.s c.f
      (scaleVal (readVal g x.h i t x.ty c.f x.a) (clampScale (sextInt 32 (readSrc g x.h i t 32 x.b))))

/-- A value rounded to an integral one, its sign kept (R205). -/
def integralVal (m : RM) (a : FVal) : FVal :=
  match a with
  | .fin neg k e => .fin neg (toIntegral m neg k e).natAbs 0
  | v => v

/-- FRND (R205). -/
def execFrnd (x : FOp1) (s : State) : Out :=
  dataOp s x.h false .w32 6 [(x.a, false)] x.d false fun g _ i t =>
    let c := modeOf g.fmt x.m
    froundF x.ty .rne false c.f (integralVal c.m (readVal g x.h i t x.ty c.f x.a))

/-! ### Packed pairs and DOT4 -/

/-- Half `k` of a packed source, as a code; a constant stands in both halves (R72, R213). -/
def readHalf (g : Group) (h : Hdr) (lane now : Nat) (t : Ty) (x : Src) (k : Nat) : Nat :=
  match x with
  | .k _ => readCode g h lane now t x
  | _ => readSrc g h lane now 32 x / 2 ^ (16 * k) % 2 ^ 16

/-- A packed operation of halves (R213). -/
def packedOp (s : State) (h : Hdr) (d : Dst) (srcs : List Src) (f : Group → Nat → Nat → Nat → Nat) : Out :=
  dataOp s h false .packed 6 (srcs.map fun x => (x, false)) d false fun g _ i t => f g i t 0 + 2 ^ 16 * f g i t 1

/-- HADD2 (R213). -/
def execHadd2 (x : FOp2) (s : State) : Out :=
  packedOp s x.h x.d [x.a, x.b] fun g i t k =>
    let c := modeOf g.fmt x.m
    froundF x.ty c.m c.s c.f
      (fadd c.m (fread x.ty c.f (readHalf g x.h i t x.ty x.a k)) (fread x.ty c.f (readHalf g x.h i t x.ty x.b k)))

/-- HMUL2 (R213). -/
def execHmul2 (x : FOp2) (s : State) : Out :=
  packedOp s x.h x.d [x.a, x.b] fun g i t k =>
    let c := modeOf g.fmt x.m
    froundF x.ty c.m c.s c.f
      (fmul (fread x.ty c.f (readHalf g x.h i t x.ty x.a k)) (fread x.ty c.f (readHalf g x.h i t x.ty x.b k)))

/-- HFMA2 (R189, R213). -/
def execHfma2 (x : Op3) (s : State) : Out :=
  packedOp s x.h x.d [x.a, x.b, x.c] fun g i t k =>
    let c := modeSub g.fmt x.sub
    let v := fun (y : Src) => fread x.ty c.f (readHalf g x.h i t x.ty y k)
    froundF x.ty c.m c.s c.f (ffma c.m (v x.a) (v x.b) (v x.c))

/-- Element `k` of a DOT4 source; a constant stands in each of the four places (R72, R214). -/
def readElem (g : Group) (h : Hdr) (lane now : Nat) (t : Ty) (x : Src) (k : Nat) : Nat :=
  match x with
  | .k n => if t.isInt then truncInt 8 (constInt n) else fround t .rne true (fint (constInt n))
  | _ => readSrc g h lane now 32 x / 2 ^ (8 * k) % 256

/-- DOT4 on integers (R214). -/
def dotInt (t : Ty) (sat : Bool) (c : Int) (a b : List Nat) : Nat :=
  let val : Nat → Int := fun v => if t.isI then sextInt 8 v else v
  let x := (a.zip b).foldl (fun acc p => acc + val p.1 * val p.2) c
  truncInt 32 (if sat then clampTo .i32 x else x)

/-- DOT4 on floating elements (R214). -/
def dotFloat (t : Ty) (m : RM) (s : Bool) (c : FVal) (a b : List Nat) : Nat :=
  fround .f32 m s (fsum m c ((a.zip b).map fun p => fmul (fdecode t p.1) (fdecode t p.2)))

/-- DOT4 (R189, R214). -/
def execDot4 (x : Op3) (s : State) : Out :=
  dataOp s x.h false .w32 8 [(x.a, false), (x.b, false), (x.c, false)] x.d false fun g _ i t =>
    let c := modeSub g.fmt x.sub
    let a := (List.range 4).map (readElem g x.h i t x.ty x.a)
    let b := (List.range 4).map (readElem g x.h i t x.ty x.b)
    if x.ty.isInt then dotInt x.ty c.s (sextInt 32 (readSrc g x.h i t 32 x.c)) a b
    else dotFloat x.ty c.m c.s (readVal g x.h i t .f32 c.f x.c) a b

end Sys2Proof.Machine
end

