-- ==== Sys2Proof/Machine/Records.lean ====
section
/-! DEFINITION. Buffer records and the conversion stage (spec/13_transforms_on_the_move.md R334–R343): layout, legality,
footprints, and the conversions of loads and stores. -/

namespace Sys2Proof.Machine

/-- A buffer record (R334). -/
structure Rec where
  ctl : Nat
  saddr : DWord
  cbt : DWord
  raddr : DWord
  org : DWord
  deriving DecidableEq, Repr

/-- The record held in 40 bytes. -/
def Rec.ofBytes (b : List Byte) : Rec :=
  ⟨field b 0 8, BitVec.ofNat 64 (field b 8 8), BitVec.ofNat 64 (field b 16 8), BitVec.ofNat 64 (field b 24 8),
   BitVec.ofNat 64 (field b 32 8)⟩

/-- Record index 0 (R284, R334). -/
def Rec.zero : Rec := ⟨0, 0, 0, 0, 0⟩

/-- A field of the control word. -/
def Rec.bits (r : Rec) (lo n : Nat) : Nat := r.ctl / 2 ^ lo % 2 ^ n

/-- ENC. -/
def Rec.enc (r : Rec) : Nat := r.bits 0 4
/-- Elements per lane. -/
def Rec.ec (r : Rec) : Nat := r.bits 16 5 + 1
/-- Read count of R234. -/
def Rec.rdc (r : Rec) : Nat := if r.bits 21 4 = 0 then 15 else r.bits 21 4
/-- Element step of the interleave. -/
def Rec.step (r : Rec) : Nat := if r.enc = 4 then 1 else 2 ^ r.bits 25 3
/-- Scale mode. -/
def Rec.scm (r : Rec) : Nat := r.bits 28 2
/-- Scale block exponent. -/
def Rec.sbl (r : Rec) : Nat := r.bits 30 4
/-- Codebook block exponent. -/
def Rec.cbl (r : Rec) : Nat := r.bits 34 4
/-- SAT. -/
def Rec.sat (r : Rec) : Bool := r.bits 38 1 == 1
/-- SRND. -/
def Rec.srnd (r : Rec) : Nat := r.bits 39 3
/-- RES. -/
def Rec.res (r : Rec) : Bool := r.bits 42 1 == 1
/-- The type of a 5-bit code. -/
def tyCode (n : Nat) : Option Ty := match Ty.dec (BitVec.ofNat 5 n) with | .ok t => some t | .error _ => none
/-- Storage format. -/
def Rec.sfmt (r : Rec) : Option Ty := tyCode (r.bits 6 5)
/-- Register format. -/
def Rec.rfmt (r : Rec) : Option Ty := tyCode (r.bits 11 5)
/-- Residue format. -/
def Rec.resfmt (r : Rec) : Option Ty := tyCode (r.bits 43 5)
/-- Bits of a codebook index. -/
def Rec.iw (r : Rec) : Nat := if r.enc = 2 then 3 else 4
/-- SW; a reserved format has the width 32 (DESIGN CHOICE, log 87). -/
def Rec.sw (r : Rec) : Nat := (r.sfmt.getD .b32).bits
/-- RS; a reserved format has the width 32, which N of R335 follows (DESIGN CHOICE, log 87). -/
def Rec.rs (r : Rec) : Nat := (r.rfmt.getD .b32).bits

/-- Whether an encoding passes whole words. -/
def Rec.raw (r : Rec) : Bool := r.enc == 0 || r.enc == 4

/-- Registers per lane (R335). -/
def Rec.regs (r : Rec) : Nat := if r.raw then r.ec else (r.ec * r.rs + 31) / 32

/-- Register formats of floating elements. -/
def regFloat : List Ty := [.f32, .f16, .bf16, .t8, .e4m3, .e5m2]

/-- Storage formats of floating elements. -/
def stoFloat : List Ty := [.f32, .f16, .bf16, .t8, .t6, .e4m3, .e5m2, .e2m1]

/-- Integer element formats. -/
def eltInt : List Ty := [.i8, .n8, .i16, .n16, .i32, .n32]

/-- Whether an optional type stands in a list. -/
def tyIn (t : Option Ty) (l : List Ty) : Bool := match t with | some t => l.contains t | none => false

/-- Whether a record can be used by a load (`st` false) or store, from the scratchpad when `spad` (R336, R296); the
page's CMP is looked at with the access. -/
def Rec.usable (r : Rec) (st spad : Bool) : Bool :=
  let encOk := decide (r.enc ≤ 4) && decide (r.scm ≤ 2) && decide (r.srnd ≤ 5) && r.bits 48 16 == 0 && r.bits 4 2 == 0
  let rawOk := !r.raw || (decide (r.ec ≤ 8) && r.bits 6 5 == 0 && r.bits 11 5 == 0 && r.scm == 0 && !r.sat && r.srnd == 0
    && !r.res)
  let pairOk := (tyIn r.sfmt stoFloat && tyIn r.rfmt regFloat) || (tyIn r.sfmt eltInt && tyIn r.rfmt eltInt)
  let elemOk := r.enc != 1 || (pairOk && r.ec * r.sw % 8 == 0 && !(r.step != 1 && decide (r.sw < 8)) && decide (r.regs ≤ 8))
  let scaleOk := r.scm == 0 || (r.enc == 1 && tyIn r.sfmt stoFloat && decide (4 ≤ r.sbl) && decide (r.sbl ≤ 10))
  let cb := r.enc == 2 || r.enc == 3
  let cbOk := !cb || (tyIn r.rfmt regFloat && decide (5 ≤ r.cbl) && decide (r.cbl ≤ 10) && r.step == 1 && !r.res
    && decide (r.regs ≤ 8))
  let resOk := !r.res || (tyIn r.resfmt regFloat && r.enc == 1)
  let whereOk := decide (r.enc ≤ 1) || (!st && !spad)
  encOk && rawOk && elemOk && scaleOk && cbOk && resOk && whereOk

/-! ### Where the bytes lie (R335, R338, R341) -/

/-- An address moved by an integer. -/
def moveAddr (a : DWord) (n : Int) : DWord := a + BitVec.ofInt 64 n

/-- The byte runs of a lane's elements, in order: distance from the lane's address, length. -/
def Rec.runs (r : Rec) : List (Nat × Nat) :=
  if r.raw then
    if r.step = 1 then [(0, 4 * r.ec)] else (List.range r.ec).map fun e => (e * r.step * 4, 4)
  else if r.step = 1 then [(0, r.ec * r.sw / 8)]
  else (List.range r.ec).map fun e => (e * r.step * (r.sw / 8), r.sw / 8)

/-- Number of an element of a lane from ORG (R338). -/
def Rec.elemIndex (r : Rec) (ea : DWord) (e : Nat) : Int :=
  Int.fdiv (((ea.toNat : Int) - r.org.toNat) * 8 + e * r.step * r.sw) r.sw

/-- Width in bytes of a scale. -/
def Rec.scaleBytes (r : Rec) : Nat := if r.scm = 1 then 1 else 2

/-- Address of an element's scale (R338). -/
def Rec.scaleAddr (r : Rec) (ea : DWord) (e : Nat) : DWord :=
  moveAddr r.saddr (Int.fdiv (r.elemIndex ea e) ((2 ^ r.sbl : Nat) : Int) * r.scaleBytes)

/-- Number of a lane's first codebook element (R341). -/
def Rec.firstIndex (r : Rec) (ea : DWord) : Int := Int.fdiv (((ea.toNat : Int) - r.org.toNat) * 8) r.rs

/-- The bytes that hold a lane's indices: address and length (R341). -/
def Rec.streamRun (r : Rec) (ea : DWord) : DWord × Nat :=
  let lo := r.firstIndex ea * r.iw
  let hi := lo + r.ec * r.iw
  let b := Int.fdiv lo 8
  (moveAddr r.org b, (Int.fdiv (hi + 7) 8 - b).toNat)

/-- The index of an element in the bytes of `streamRun` (R341). -/
def Rec.indexOf (r : Rec) (ea : DWord) (e : Nat) (b : List Byte) : Nat :=
  let lo := r.firstIndex ea * r.iw
  leNat b / 2 ^ ((lo - Int.fdiv lo 8 * 8).toNat + e * r.iw) % 2 ^ r.iw

/-- The codebook block of an element (R341). -/
def Rec.blockOf (r : Rec) (ea : DWord) (e : Nat) : Int := Int.fdiv (r.firstIndex ea + e) ((2 ^ r.cbl : Nat) : Int)

/-- Bytes of one codebook table. -/
def Rec.tableBytes (r : Rec) : Nat := 2 ^ r.iw * r.rs / 8

/-- Address of a block's table (R341). -/
def Rec.tableAddr (r : Rec) (b : Int) : DWord := moveAddr r.cbt (b * r.tableBytes)

/-- Address of an element's residue (R339). -/
def Rec.resAddr (r : Rec) (ea : DWord) (e : Nat) : DWord :=
  moveAddr r.raddr (r.elemIndex ea e * ((r.resfmt.getD .f32).bits / 8 : Nat))

/-! ### Conversion (R335, R338, R339) -/

/-- Elements of `w` bits packed into 32-bit registers (R335). -/
def packElems (w : Nat) (l : List Nat) : Nat := l.foldr (fun x acc => x % 2 ^ w + 2 ^ w * acc) 0

/-- Register `k` of a packed run. -/
def regOf (run k : Nat) : Nat := run / 2 ^ (32 * k) % 2 ^ 32

/-- An element of storage: `w` bits from bit `i × w` of a byte run. -/
def elemBits (b : List Byte) (w i : Nat) : Nat := leNat b / 2 ^ (i * w) % 2 ^ w

/-- A scale's value, read exactly (R338). -/
def Rec.scaleVal (r : Rec) (b : List Byte) : FVal := fdecode (if r.scm = 1 then .e8 else .bf16) (leNat b)

/-- One loaded element (R338): `scale` is present under a scale mode. -/
def Rec.loadElem (r : Rec) (ftz : Bool) (code : Nat) (scale : Option FVal) : Nat :=
  match r.sfmt, r.rfmt with
  | some sf, some rf =>
    if rf.isInt then
      satResult rf r.sat (if sf.isI then sextInt sf.bits code else (code : Int)) % 2 ^ rf.bits
    else
      let x := fread sf ftz code
      let x := match scale with | some v => fmul x v | none => x
      froundF rf .rne r.sat ftz x
  | _, _ => 0

/-- The value a store rounds (R339): NaN under a scale that is NaN, infinite or zero. -/
def scaledDown (x : FVal) (scale : Option FVal) : FVal :=
  match scale with
  | none => x
  | some (.fin _ 0 _) => .nan
  | some (.fin n m e) => fdivide x (.fin n m e)
  | some _ => .nan

/-- A store's rounding mode; none for stochastic rounding (R334). -/
def Rec.roundMode (r : Rec) (fmt : Word) : Option RM :=
  match r.srnd with
  | 0 => some (fmtRm fmt) | 1 => some .rne | 2 => some .rz | 3 => some .rup | 4 => some .rdn | _ => none

/-- The residue of a stored element (R339): x − value(stored), from the element and its scale, exactly; a difference of zero takes the
sign of R92, -0 when both values are zeros of that sign and +0 else (log 54). -/
def residueVal (elem : FVal) (scale : Option FVal) (stored : FVal) : FVal :=
  if !(scaledDown elem scale).isFin || !stored.isFin then .fin false 0 0
  else
    match scale with
    | none => fadd .rne elem (fneg stored)
    | some v =>
      match fadd .rne elem (fneg (fmul stored v)), stored with
      | .fin _ 0 _, .fin _ 0 _ => fadd .rne (scaledDown elem scale) (fneg stored)
      | .fin _ 0 _, _ => .fin false 0 0
      | d, _ => fdivide d v

/-- One stored element (R339): its code, the residue's code, rounded under rne with sat, and the generator's state after it. -/
def Rec.storeElem (r : Rec) (fmt : Word) (rng : Word) (elem : Nat) (scale : Option FVal) : Nat × Nat × Word :=
  match r.sfmt, r.rfmt with
  | some sf, some rf =>
    let resid (ftz : Bool) (x : FVal) : Nat := froundF (r.resfmt.getD .f32) .rne true ftz x
    if rf.isInt then
      let x : Int := if rf.isI then sextInt rf.bits elem else (elem : Int)
      let code := satResult sf r.sat x % 2 ^ sf.bits
      let d := x - (if sf.isI then sextInt sf.bits code else (code : Int))
      (code, resid (fmtFtz fmt) (.fin (decide (d < 0)) d.natAbs 0), rng)
    else
      let ftz := fmtFtz fmt
      let v := fread rf ftz elem
      let x := scaledDown v scale
      let (code, rng') := match r.roundMode fmt with
        | some m => (froundF sf m r.sat ftz x, rng)
        | none =>
          let (c, g) := froundSr sf r.sat rng x
          (flushCode sf ftz c, g)
      (code, resid ftz (residueVal v scale (fdecode sf code)), rng')
  | _, _ => (0, 0, rng)

end Sys2Proof.Machine
end

