-- ==== Sys2Proof/Machine/Reach.lean ====
section
/-! DEFINITION. How an instruction of a group reaches bytes: global addresses through windows or translation, scratchpad
offsets through windows or directly, all checks before any access (spec/11_isa_memory_and_sync.md R282–R296). -/

namespace Sys2Proof.Machine

/-- Where bytes lie: a global address, or an offset of the team's scratchpad allocation (R217, R283). -/
inductive Loc where
  | glob (va : DWord) | spad (off : Nat)
  deriving DecidableEq, Repr

/-- A place some bytes on. -/
def Loc.shift : Loc → Nat → Loc
  | .glob va, k => .glob (va + BitVec.ofNat 64 k)
  | .spad o, k => .spad (o + k)

/-- Offset in its sector. -/
def Loc.low : Loc → Nat
  | .glob va => va.toNat % 64
  | .spad o => o % 64

/-- The number of a place itself: a global address, or a scratchpad offset. -/
def Loc.number : Loc → DWord
  | .glob va => va
  | .spad o => BitVec.ofNat 64 o

/-- A run of bytes one lane names: request type none means the page's own (R233); `exp` reads through the codec of a
record (R335). -/
structure Item where
  lane : Nat
  loc : Loc
  n : Nat
  rt : Option Rt
  exp : Bool
  deriving DecidableEq, Repr

/-- Splits a run at sector boundaries; the fuel is its length. -/
def splitItem : Nat → Item → List Item
  | 0, _ => []
  | fuel + 1, x =>
    if x.n = 0 then []
    else
      let room := 64 - x.loc.low
      if x.n ≤ room then [x]
      else { x with n := room } :: splitItem fuel { x with loc := x.loc.shift room, n := x.n - room }

/-- A scratchpad offset inside a binding of the team stands for the corresponding global address (R241, R295). -/
def bindLoc (s : State) (w : Who) : Loc → Loc
  | .glob va => .glob va
  | .spad o =>
    match s.mem.windows.find? fun b =>
        b.core == w.core && b.team == w.team && decide (b.off ≤ o) && decide (o < b.off + b.len) with
    | some b => .glob (b.base + BitVec.ofNat 64 (o - b.off))
    | none => .spad o

/-- A run at the place it acts on. -/
def throughBinding (s : State) (w : Who) (x : Item) : Item := { x with loc := bindLoc s w x.loc }

/-- The pieces of a run, each within one sector. -/
def piecesOf (s : State) (w : Who) (x : Item) : List Item := (splitItem (x.n / 64 + 2) x).map (throughBinding s w)

/-- A sector as an instruction names it. -/
structure Sec where
  glob : Bool
  num : Nat
  rt : Option Rt
  exp : Bool
  deriving DecidableEq, Repr

/-- The sector of a piece. -/
def Item.sec (x : Item) : Sec :=
  match x.loc with
  | .glob va => ⟨true, va.toNat / 64, x.rt, x.exp⟩
  | .spad o => ⟨false, o / 64, none, false⟩

/-- The byte mask of a piece in its sector. -/
def Item.mask (x : Item) : BitVec 64 := BitVec.ofNat 64 ((2 ^ x.n - 1) * 2 ^ x.loc.low)

/-- The global address of a sector. -/
def Sec.va (c : Sec) : DWord := BitVec.ofNat 64 (64 * c.num)

/-- The page of a sector. -/
def Sec.page (c : Sec) : Nat := c.num / 1024

/-- Lanes that name a page. -/
def pageLanes (ps : List Item) (page : Nat) : Word :=
  maskOf (distinct ((ps.filter fun x => x.sec.glob && x.sec.page == page).map (·.lane)))

/-- The first address in a page that is accessed (R467, R468). -/
def pageFirst (ps : List Item) (page : Nat) : Nat :=
  match ps.find? fun x => x.sec.glob && x.sec.page == page with
  | some x => match x.loc with | .glob va => va.toNat | .spad _ => page * 65536
  | none => page * 65536

/-- The window that serves a sector for the team. -/
def secWindow (s : State) (w : Who) (c : Sec) : Option Window := if c.glob then windowAt s w.core w.team c.va else none

/-- Number of a sector in its window. -/
def winSector (b : Window) (c : Sec) : Nat := c.num - b.base.toNat / 64

/-! ### Checks: every translation before any access (R222, R236, R240, R287) -/

/-- What must be translated for a sector: its page, and the kind of access; nothing for a window with that page's
translation captured. -/
def secNeed (s : State) (w : Who) (k : Kind) (c : Sec) : Option (Nat × Kind) :=
  if !c.glob then none
  else
    match secWindow s w c with
    | none => some (c.page, k)
    | some b =>
      if (tget b.pages c.page).isSome then none else some (c.page, if b.zero then .write else .read)

/-- Windows of the team without a translation of the page take it (R240). -/
def captureLate (s : State) (w : Who) (page : Nat) (l : Leaf) : State :=
  let one := fun (b : Window) =>
    if b.core == w.core && b.team == w.team && (tget b.pages page).isNone
        && decide (b.base.toNat / 65536 ≤ page) && decide (page ≤ (b.base.toNat + b.len - 1) / 65536)
    then { b with pages := tset b.pages page l } else b
  { s with mem := { s.mem with windows := s.mem.windows.map one } }

/-- The translation of one page for an instruction: the leaf that it found before, else a translation (R222, R348). -/
def translateNeed (w : Who) (known : Tab Leaf) (p : Nat) (k : Kind) (s : State) : State × Except XErr Leaf × Option Leaf :=
  match tget known p with
  | some l =>
    let (s, r) := checkLeaf s w.part k l (BitVec.ofNat 64 (p * 65536))
    (s, r, some l)
  | none => translateLeaf s w (BitVec.ofNat 64 (p * 65536)) k

/-- Translates the pages needed, in order; answers also the leaves found, those whose checks fail among them. -/
def translateNeeds (w : Who) (known : Tab Leaf) : List (Nat × Kind) → State → PageMap → Tab Leaf → State × PageMap × Tab Leaf
  | [], s, m, ls => (s, m.reverse, ls)
  | (p, k) :: r, s, m, ls =>
    let (s, x, l) := translateNeed w known p k s
    let s := match x with | .ok l => captureLate s w p l | .error _ => s
    translateNeeds w known r s ((p, x) :: m) (match l with | some l => (p, l) :: ls | none => ls)

/-- Why an access is not performed. -/
inductive Trouble where
  | pages (l : List (Nat × Nat × Word))
  | raise (r : Raise)
  deriving DecidableEq, Repr

/-- Lanes that name a sector. -/
def secLanes (ps : List Item) (c : Sec) : List Nat := distinct ((ps.filter fun x => x.sec == c).map (·.lane))

/-- DATA_LOST with cause 1 (R489). -/
def lostRaise (lanes : List Nat) (pa : Nat) : Raise := ⟨15, 1, 0, maskOf lanes, lanes.map fun i => (i, BitVec.ofNat 64 pa)⟩

/-- A page of a window captured without W that a store names: NO_WRITE (R236). -/
def noWrite (s : State) (w : Who) (k : Kind) (c : Sec) : Bool :=
  k == .write &&
    match (secWindow s w c).bind fun b => tget b.pages c.page with
    | some l => !l.w
    | none => false

/-- What the translations of an access gave: its page map, the leaves found, the translation faults. -/
structure Checked where
  map : PageMap
  leaves : Tab Leaf
  bad : List (Nat × Nat × Word)

/-- All translations of an access by an instruction that has already found the leaves `known`, and the translation faults found
(R222, R348, R468). -/
def checkAccessKnown (s : State) (w : Who) (k : Kind) (known : Tab Leaf) (ps : List Item) : State × Checked :=
  let secs := distinct (ps.map Item.sec)
  let (s, m, ls) := translateNeeds w known (distinct (secs.filterMap (secNeed s w k))) s [] []
  let bad := distinct (secs.filterMap fun c =>
    if !c.glob then none
    else if noWrite s w k c then some (c.page, 4)
    else
      match m.find? fun e => e.1 == c.page with
      | some (_, .error (.page cause)) => some (c.page, cause)
      | _ => none)
  (s, ⟨m, ls, bad.map fun e => (pageFirst ps e.1, e.2, pageLanes ps e.1)⟩)

/-- All translations of an access, and the translation faults found (R222, R468). -/
def checkAccess (s : State) (w : Who) (k : Kind) (ps : List Item) : State × Checked := checkAccessKnown s w k [] ps

/-- A walk that read a poisoned sector (R489). -/
def walkLost (m : PageMap) : Option Nat :=
  m.findSome? fun e => match e.2 with | .error (.lost pa) => some pa | _ => none

/-! ### Reading -/

/-- Whether an access to a sector would read it, poisoned, at its home (R489). -/
def readsPoison (s : State) (core : Nat) (rt : Rt) (σ : Nat) : Bool :=
  s.mem.poison.contains σ &&
    match copyOf s core σ, rt with
    | _, .uc => true
    | some c, .own => c.st == .untracked
    | some c, _ => c.st != .untracked || c.valid != BitVec.allOnes 16
    | none, _ => true

/-- Whether a fetch of a whole line would read a poisoned sector at its home (R489). -/
def linePoisoned (s : State) (w : Who) (rt : Rt) (line : Nat) : Option Nat :=
  match rt, lineCopies s w.core line with
  | .wt, some _ | .si, some _ => none
  | _, _ => linePoison s line

/-- The sector `k` of an expanded line. -/
def expandedSector (ws : List Nat) (k : Nat) : BitVec 512 :=
  BitVec.ofNat 512 (leNat (((ws.drop (16 * k)).take 16).flatMap (leBytes 4)))

/-- Lines that an instruction has fetched and expanded: each is fetched once (R346, R348). -/
abbrev Lines := List (Nat × List Nat)

/-- The expanded words of a line as an instruction fetches it (R346). -/
def fetchWords (s : State) (w : Who) (rt : Rt) (line limit : Nat) : State × Except XErr (List Nat) :=
  match linePoisoned s w rt line with
  | some σ => (s, .error (.lost (64 * σ)))
  | none =>
    let (s, b, flag) := loadLine s w rt line limit
    match codecDecode flag b with
    | some ws => (s, .ok ws)
    | none => (s, .error .bad)

/-- One sector of memory through a leaf, under a request type (R230, R346, R489). -/
def leafSector (s : State) (w : Who) (l : Leaf) (rt : Rt) (exp : Bool) (limit : Nat) (acq : Bool) (lines : Lines) (va : DWord) :
    State × Lines × Except XErr (BitVec 512) :=
  let pa := leafPa l va
  let rt := effRt l rt
  let s := if acq then forcePublish s w.core w.team (pa / 64) else s
  if l.cmp || exp then
    match lines.find? fun e => e.1 == pa / 256 with
    | some e => (s, lines, .ok (expandedSector e.2 (pa / 64 % 4)))
    | none =>
      match fetchWords s w rt (pa / 256) limit with
      | (s, .ok ws) => (s, (pa / 256, ws) :: lines, .ok (expandedSector ws (pa / 64 % 4)))
      | (s, .error e) => (s, lines, .error e)
  else if readsPoison s w.core rt (pa / 64) then (s, lines, .error (.lost pa))
  else
    let (s, d) := loadSector s w rt (pa / 64) limit
    (s, lines, .ok d)

/-- Why a window's sector cannot be filled from home: poison, or on a codec page a line that is no codec line (R346, R489). -/
def fillError (s : State) (b : Window) (i σ : Nat) : Option XErr :=
  if windowCmp b i then
    match (homeExpanded s (σ / 4)).2 with
    | .error e => some e
    | .ok _ => none
  else if s.mem.poison.contains σ then some (.lost (64 * σ))
  else none

/-- One sector of a window: filled from home when a word asked for is not valid (R237); the fill of an acquiring access forces a
publish first (R265). -/
def windowSectorRead (s : State) (b : Window) (i : Nat) (words : BitVec 16) (acq : Bool) : State × Except XErr (BitVec 512) :=
  let data (s : State) : BitVec 512 := match getTeam s b.team with | some t => windowData t b i | none => 0
  if words &&& ~~~(cget b.vbits i) = 0 then (s, .ok (data s))
  else
    match windowPhys b i with
    | none => (s, .ok (data s))
    | some σ =>
      let s := if acq then forcePublish s b.core b.team σ else s
      match fillError s b i σ with
      | some e => (s, .error e)
      | none =>
        let s := windowFill s ((windowOf s b.core b.index).getD b) i
        (s, .ok (data s))

/-- One sector as an instruction of the group reads it. DESIGN CHOICE (log 88): an address in a window of the team is served by the window
under every encoding, so that ENC 4 reads the window's words as they stand. -/
def readSec (s : State) (w : Who) (m : PageMap) (limit : Nat) (acq : Bool) (lines : Lines) (c : Sec) (words : BitVec 16) :
    State × Lines × Except XErr (BitVec 512) :=
  if !c.glob then
    (s, lines, .ok (match getTeam s w.team with
      | some t => BitVec.ofNat 512 (leNat (crange t.scratch (64 * c.num) 64))
      | none => 0))
  else
    match secWindow s w c with
    | some b =>
      let (s, r) := windowSectorRead s b (winSector b c) words acq
      (s, lines, r)
    | none =>
      match m.look c.va with
      | .error e => (s, lines, .error e)
      | .ok l => leafSector s w l (c.rt.getD l.rt) c.exp limit acq lines c.va

/-- The words of a sector that the pieces name. -/
def secWords (ps : List Item) (c : Sec) : BitVec 16 :=
  ps.foldl (fun acc x => if x.sec == c then acc ||| wordsTouched x.mask else acc) 0

/-- Reads sectors in order; the first that fails ends the access. -/
def readSecs (w : Who) (m : PageMap) (limit : Nat) (acq : Bool) (ps : List Item) :
    List Sec → Lines → State → List (Sec × BitVec 512) → State × Except (Sec × XErr) (List (Sec × BitVec 512))
  | [], _, s, acc => (s, .ok acc)
  | c :: r, lines, s, acc =>
    let (s, lines, x) := readSec s w m limit acq lines c (secWords ps c)
    match x with
    | .error e => (s, .error (c, e))
    | .ok d => readSecs w m limit acq ps r lines s ((c, d) :: acc)

/-- The physical sectors that a named sector reads through L1: those of its whole line when it is expanded. -/
def physSecs (s : State) (w : Who) (m : PageMap) (c : Sec) : List Nat :=
  if c.glob && (secWindow s w c).isNone then
    match m.look c.va with
    | .ok l => if l.cmp || c.exp then lineSectors (leafPa l c.va / 256) else [leafPa l c.va / 64]
    | .error _ => []
  else []

/-- Counts the load once at each sector it read through L1 (R234). -/
def countSecs (w : Who) (m : PageMap) (secs : List Sec) (s : State) : State :=
  (distinct (secs.flatMap (physSecs s w m))).foldl (fun s σ => countRead s w.core σ) s

/-- The bytes of a piece in the sectors read. -/
def pieceBytes (got : List (Sec × BitVec 512)) (x : Item) : List Byte :=
  match got.find? fun e => e.1 == x.sec with
  | some (_, d) => bytesAt d x.loc.low x.n
  | none => []

/-- The address that a record gives for an error of a sector. -/
def errAddr (c : Sec) : XErr → DWord
  | .lost pa => BitVec.ofNat 64 pa
  | _ => c.va

/-- What an error of a sector raises, in every lane that meets the same error; `all` holds the sectors that fail. -/
def secTrouble (ps : List Item) (c : Sec) (e : XErr) (all : List (Sec × XErr)) : Trouble :=
  let alike := all.filter fun x => match e, x.2 with | .lost _, .lost _ => true | .bad, .bad => true | _, _ => false
  let lanes := sortBy (fun a b => decide (a ≤ b)) (distinct (alike.flatMap fun x => secLanes ps x.1))
  let addr (i : Nat) : DWord :=
    match alike.find? fun x => (secLanes ps x.1).contains i with | some x => errAddr x.1 x.2 | none => c.va
  match e with
  | .page cause => .pages [(pageFirst ps c.page, cause, maskOf (secLanes ps c))]
  | .lost _ => .raise ⟨15, 1, 0, maskOf lanes, lanes.map fun i => (i, addr i)⟩
  | .bad => .raise ⟨8, 0, 0, maskOf lanes, lanes.map fun i => (i, addr i)⟩

/-- The sectors of an access that cannot be read, with the error of each. -/
def failingSecs (s : State) (w : Who) (m : PageMap) (limit : Nat) (acq : Bool) (ps : List Item) (secs : List Sec) :
    List (Sec × XErr) :=
  secs.filterMap fun c =>
    match (readSec s w m limit acq [] c (secWords ps c)).2.2 with
    | .error e => some (c, e)
    | .ok _ => none

/-- Lanes that name a page whose walk read a poisoned sector (R489). -/
def walkLanes (ps : List Item) (m : PageMap) : List Nat :=
  distinct ((ps.filter fun x => x.sec.glob && m.any fun e => e.1 == x.sec.page &&
    match e.2 with | .error (.lost _) => true | _ => false).map (·.lane))

/-- What the checks of an access found, if they stop it (R222, R489). -/
def Checked.stops (k : Checked) (ps : List Item) : Option Trouble :=
  if !k.bad.isEmpty then some (.pages k.bad)
  else (walkLost k.map).map fun pa => .raise (lostRaise (walkLanes ps k.map) pa)

/-- Reads runs whose pieces have been translated: poison and codec lines, then bytes (R287, R290). -/
def readMapped (s : State) (w : Who) (m : PageMap) (limit : Nat) (acq : Bool) (split : List (List Item)) :
    State × Except Trouble (List (List Byte)) :=
  let ps := split.flatten
  let secs := distinct (ps.map Item.sec)
  let (s, r) := readSecs w m limit acq ps secs [] s []
  match r with
  | .error (c, e) => (s, .error (secTrouble ps c e (failingSecs s w m limit acq ps secs)))
  | .ok got => (countSecs w m secs s, .ok (split.map fun l => l.flatMap (pieceBytes got)))

/-- Reads the runs named, in order: translations first, then `before`, then poison and codec lines, then bytes (R222, R287, R290).
Answers the translations too. -/
def readChecked (s : State) (w : Who) (limit : Nat) (acq : Bool) (before : State → State) (items : List Item) :
    State × PageMap × Except Trouble (List (List Byte)) :=
  let split := items.map (piecesOf s w)
  let (s, k) := checkAccess s w .read split.flatten
  match k.stops split.flatten with
  | some t => (s, k.map, .error t)
  | none =>
    let (s, r) := readMapped (before s) w k.map limit acq split
    (s, k.map, r)

/-- Reads the runs named (R222, R287, R290). -/
def readItems (s : State) (w : Who) (limit : Nat) (acq : Bool) (items : List Item) :
    State × Except Trouble (List (List Byte)) :=
  let r := readChecked s w limit acq id items
  (r.1, r.2.2)

/-- The physical sectors that each lane's pieces lie in, as a later FENCE takes them (R254). -/
def laneSectors (s : State) (w : Who) (m : PageMap) (ps : List Item) : Tab (List Nat) :=
  let sec (c : Sec) : List Nat :=
    if !c.glob then []
    else
      match secWindow s w c with
      | some b => (windowPhys b (winSector b c)).toList
      | none => match m.look c.va with | .ok l => [leafPa l c.va / 64] | .error _ => []
  (distinct (ps.map (·.lane))).map fun i => (i, distinct ((ps.filter fun x => x.lane == i).flatMap fun x => sec x.sec))

/-! ### Writing -/

/-- The bytes and mask that pieces put into their sector, later pieces over earlier ones (R288). -/
def piecesData (ps : List (Item × List Byte)) : BitVec 512 × BitVec 64 :=
  ps.foldl (fun acc x =>
    let (d, bm) := placeBytes x.1.loc.low x.2
    (mergeBytes acc.1 d bm, acc.2 ||| bm)) (0, 0)

/-- A store to one sector of a window (R237): a word stored in part that is not valid is filled first. The metadata cache drops the sector,
whatever instruction writes (R227, R258). -/
def windowSectorWrite (s : State) (b : Window) (i : Nat) (d : BitVec 512) (bm : BitVec 64) : State :=
  let part := wordsTouched bm &&& ~~~(wordsWhole bm) &&& ~~~(cget b.vbits i)
  let s := if part = 0 then s else windowFill s b i
  let s := match windowPhys b i with | some σ => metaPass s b.core σ | none => s
  match windowOf s b.core b.index, getTeam s b.team with
  | some b, some t =>
    let nd := mergeBytes (windowData t b i) d bm
    let s := setTeam s b.team (scratchPut t (b.off + 64 * i) (bytesAt nd 0 64))
    putWindow s { b with
      vbits := cset b.vbits i (cget b.vbits i ||| wordsTouched bm)
      dbits := cset b.dbits i (cget b.dbits i ||| wordsTouched bm) }
  | _, _ => s

/-- The sector of a codec page a piece lies in belongs to a line; its pieces change that line together (R347): false when
the merged line does not fit or the line is no codec line. -/
def codecMerge (s : State) (w : Who) (line : Nat) (patches : List (Nat × List Byte)) : State × Bool :=
  match linePoison s line with
  | some σ => (noteLost s (lostWrite w.tag σ w.core (some w.team)), true)
  | none =>
    let s := (lineSectors line).foldl (fun s σ => corePass (evict s w.core σ) w.core σ) s
    let (s, old) := homeLine s line
    match codecPatched (s.mem.codec.contains line) old patches with
    | none => (s, false)
    | some enc => (putLine s (crownOf w.core) line enc w.tag true, true)

/-- Where a piece of a store goes: a sector of the scratchpad, of a window, of memory under a request type, or a codec line. -/
inductive Target where
  | spad (n : Nat) | win (index i : Nat) | line (n : Nat) | phys (σ : Nat)
  deriving DecidableEq, Repr

/-- The target of a piece, with its request type: two addresses of one sector have one target (R288). -/
def targetOf (s : State) (w : Who) (m : PageMap) (x : Item) : Option (Target × Rt) :=
  let c := x.sec
  if !c.glob then some (.spad c.num, .own)
  else
    match secWindow s w c with
    | some b => some (.win b.index (winSector b c), .own)
    | none =>
      match m.look c.va with
      | .error _ => none
      | .ok l => if l.cmp then some (.line (leafPa l c.va / 256), .uc) else some (.phys (leafPa l c.va / 64), effRt l (c.rt.getD l.rt))

/-- A piece of a store with its target. -/
structure Put where
  dest : Target
  rt : Rt
  low : Nat
  item : Item
  bytes : List Byte

/-- The pieces of a store with their targets, in lane order; `low` is the place in a codec line. -/
def putsOf (s : State) (w : Who) (m : PageMap) (ps : List (Item × List Byte)) : List Put :=
  ps.filterMap fun x => (targetOf s w m x.1).map fun t => ⟨t.1, t.2, 64 * (x.1.sec.num % 4) + x.1.loc.low, x.1, x.2⟩

/-- Writes what a store's pieces hold to one target; false for a codec line that cannot take it. -/
def writeTarget (s : State) (w : Who) (t : Target) (mine : List Put) : State × Bool :=
  let (d, bm) := piecesData (mine.map fun x => (x.item, x.bytes))
  match t with
  | .spad n =>
    (match getTeam s w.team with
      | some t =>
        let old := BitVec.ofNat 512 (leNat (crange t.scratch (64 * n) 64))
        setTeam s w.team (scratchPut t (64 * n) (bytesAt (mergeBytes old d bm) 0 64))
      | none => s, true)
  | .win index i =>
    (match windowOf s w.core index with
      | some b => windowSectorWrite s b i d bm
      | none => s, true)
  | .line n => codecMerge s w n (mine.map fun x => (x.low, x.bytes))
  | .phys σ => (storeSector s w (mine.foldl (fun _ x => x.rt) .own) σ bm d, true)

/-- Writes targets in order; false as soon as a codec line cannot take its bytes. -/
def writeTargets (w : Who) (ps : List Put) : List Target → State → State × Bool
  | [], s => (s, true)
  | t :: r, s =>
    let (s, ok) := writeTarget s w t (ps.filter fun x => x.dest == t)
    if ok then writeTargets w ps r s else (s, false)

/-- A window sector that a partial store would fill from a poisoned sector (R237, R489). -/
def fillsPoison (s : State) (w : Who) (ps : List (Item × List Byte)) (c : Sec) : Option Nat :=
  match secWindow s w c with
  | none => none
  | some b =>
    let i := winSector b c
    let bm := (piecesData (ps.filter fun x => x.1.sec == c)).2
    if wordsTouched bm &&& ~~~(wordsWhole bm) &&& ~~~(cget b.vbits i) = 0 then none
    else
      match windowPhys b i with
      | some σ => if s.mem.poison.contains σ then some (64 * σ) else none
      | none => none

/-- The pieces of runs with the bytes each is to hold. -/
def splitWrites (s : State) (w : Who) (items : List (Item × List Byte)) : List (Item × List Byte) :=
  items.flatMap fun x =>
    ((piecesOf s w x.1).foldl (fun (acc : List (Item × List Byte) × List Byte) p =>
      (acc.1 ++ [(p, acc.2.take p.n)], acc.2.drop p.n)) ([], x.2)).1

/-- Outcome of a checked write. -/
inductive Wrote where
  | done | codec | trouble (t : Trouble)
  deriving DecidableEq, Repr

/-- Performs a write whose pieces have been translated: `before` is done first (a release's local effects). -/
def writeMapped (s : State) (w : Who) (m : PageMap) (before : State → State) (ps : List (Item × List Byte)) : State × Wrote :=
  let secs := distinct (ps.map (·.1.sec))
  match secs.filterMap fun c => (fillsPoison s w ps c).map fun pa => (c, XErr.lost pa) with
  | (c, e) :: r => (s, .trouble (secTrouble (ps.map (·.1)) c e ((c, e) :: r)))
  | [] =>
    let s := before s
    let puts := putsOf s w m ps
    let (s, ok) := writeTargets w puts (distinct (puts.map (·.dest))) s
    (s, if ok then .done else .codec)

/-- Checks a write's translations and then performs it. -/
def writeItems (s : State) (w : Who) (before : State → State) (items : List (Item × List Byte)) : State × Wrote :=
  let ps := splitWrites s w items
  let (s, k) := checkAccess s w .write (ps.map (·.1))
  match k.stops (ps.map (·.1)) with
  | some t => (s, .trouble t)
  | none => writeMapped s w k.map before ps

/-- Takes what stopped an access. -/
def takeTrouble (s : State) (gid : Nat) (g : Group) (len : Nat) (t : Trouble) : State :=
  match t with
  | .pages l => pageFault s gid g len l
  | .raise r => raise s gid g len r

/-! ### Records and their cache (R336, R337) -/

/-- Kind numbers of held records and codebook tables. -/
def heldRecord : Nat := 3
/-- Kind number of held codebook tables. -/
def heldTable : Nat := 4

/-- A held copy. -/
def findHeld (s : State) (core kind owner num sub : Nat) : Option (List Byte) :=
  (s.mem.held.find? fun e => e.core == core && e.kind == kind && e.owner == owner && e.num == num && e.sub == sub).map (·.bytes)

/-- The set of the metadata cache that a sector's line falls in: 128 KiB in lines of 256 bytes and eight ways make 64 sets (R12, R228).
DESIGN CHOICE (log 5): the line's number modulo 64. -/
def metaSet (σ : Nat) : Nat := σ / 4 % 64

/-- What is left of a core's metadata cache as a sector enters: its set holds the sector's line and the seven others entered last. -/
def metaRoom (core σ : Nat) (held : List HeldBytes) : List HeldBytes :=
  let mine (x : HeldBytes) : Bool := x.core == core && x.kind == heldMeta && metaSet x.num == metaSet σ
  let lines := (distinct ((held.filter mine).map (·.num / 4))).filter (· ≠ σ / 4)
  held.filter fun x => !mine x || x.num / 4 == σ / 4 || (lines.take 7).contains (x.num / 4)

/-- Keeps a copy, in place of an older one, and within its cache's size: 32 codebook tables (R342), the sets of the metadata cache (R12).
The record cache has no size in the spec. -/
def putHeld (s : State) (e : HeldBytes) : State :=
  let rest := s.mem.held.filter fun x =>
    !(x.core == e.core && x.kind == e.kind && x.owner == e.owner && x.num == e.num && x.sub == e.sub)
  let rest := if e.kind = heldTable then keepFirst (fun x => x.core == e.core && x.kind == e.kind) 31 rest
    else if e.kind = heldMeta then metaRoom e.core e.num rest
    else rest
  { s with mem := { s.mem with held := e :: rest } }

/-- The grid a group belongs to, by number. -/
def gridIdOf (s : State) (g : Group) : Nat := match getTeam s g.team with | some t => t.grid | none => 0

/-- The pages of a record that fault, each with its cause (R468). -/
def recordPages (m : PageMap) (va : DWord) (lanes : Word) : List (Nat × Nat × Word) :=
  m.filterMap fun e => match e.2 with | .error (.page c) => some ((firstIn va e.1).toNat, c, lanes) | _ => none

/-- The version of record `n` that an instruction uses: the held one while the cache keeps it, else memory's, read at
home (R337); an index at or beyond the table's count is BAD_RECORD (R336). -/
def fetchRecord (s : State) (g : Group) (n : Nat) (lanes : Word) : State × Except Trouble Rec :=
  if n = 0 then (s, .ok Rec.zero)
  else
    match gridOf s g with
    | none => (s, .error (.raise ⟨7, 0, 0, lanes, []⟩))
    | some gr =>
      if n ≥ field gr.block 0x14 4 then (s, .error (.raise ⟨7, 0, 0, lanes, []⟩))
      else
        let grid := gridIdOf s g
        let read (s : State) : State × Except Trouble Rec :=
          let va := BitVec.ofNat 64 (field gr.block 0x18 8 + 40 * n)
          let (s, m) := translatePages (whoOf s g) .read (pagesOf va 40) s []
          let bad := recordPages m va lanes
          if !bad.isEmpty then (s, .error (.pages bad))
          else
            let (s, r) := mappedRead m (sectorPieces va 40) s []
            match r with
            | .error (.lost pa) => (s, .error (.raise ⟨15, 1, 0, lanes, [(0, BitVec.ofNat 64 pa)]⟩))
            | .error _ => (s, .error (.raise ⟨8, 0, 0, lanes, [(0, va)]⟩))
            | .ok b => (putHeld s ⟨g.core, heldRecord, grid, n, 0, b⟩, .ok (Rec.ofBytes b))
        match findHeld s g.core heldRecord grid n 0 with
        | some b =>
          let (s, k) := drawKeep s
          if k then (s, .ok (Rec.ofBytes b)) else read s
        | none => read s

/-- Little-endian value at a location of a sector's data. -/
def sectorValue (d : BitVec 512) (lo n : Nat) : Nat := leNat (bytesAt d lo n)

end Sys2Proof.Machine
end

