-- ==== Sys2Proof/Machine/Access.lean ====
section
/-! DEFINITION. Loads, stores, scratchpad accesses, prefetch and sector zeroing
(spec/11_isa_memory_and_sync.md R289–R300). -/

namespace Sys2Proof.Machine

/-! ### Addresses and orders (R254, R283) -/

/-- An offset field, sign-extended. -/
def offWord (off : BitVec 16) : DWord := off.signExtend 64

/-- A lane's global effective address (R283). -/
def laneAddr (g : Group) (addr : BitVec 6) (off : BitVec 16) (lane now : Nat) : DWord :=
  BitVec.ofNat 64 (pairNat (readPlace g (.v (2 * addr.toNat)) lane false now)
    (readPlace g (.v (2 * addr.toNat + 1)) lane false now)) + offWord off

/-- A lane's scratchpad-local offset (R283). -/
def laneOffset (g : Group) (addr : BitVec 6) (off : BitVec 16) (lane now : Nat) : Nat :=
  (readPlace g (.v (2 * addr.toNat)) lane false now + (offWord off).toNat) % 2 ^ 32

/-- The address of a uniform form (R283). -/
def uniAddr (g : Group) (addr : BitVec 6) (off : BitVec 16) (now : Nat) : DWord :=
  BitVec.ofNat 64 (readPlace g (.s addr.toNat) 0 true now) + offWord off

end Sys2Proof.Machine

namespace Sys2Proof

/-- Whether an order acquires (R254). -/
def Order.isAcq : Order → Bool
  | .acq | .ar | .sc => true
  | _ => false

/-- Whether an order releases (R254). -/
def Order.isRel : Order → Bool
  | .rel | .ar | .sc => true
  | _ => false

end Sys2Proof

namespace Sys2Proof.Machine

/-- The scope with a number (R252). -/
def scopeOfNum : Nat → Scope
  | 0 => .team | 1 => .bough | 2 => .crown | 3 => .dev | _ => .sys

/-- The number of a scope (R252). -/
def scopeNum : Scope → Nat
  | .team => 0 | .bough => 1 | .crown => 2 | .dev => 3 | .sys => 4

/-- The widest release that a store of some lanes owes an earlier FENCE (R254). -/
def owedScope (g : Group) (lanes : List Nat) : Option Scope :=
  let m := lanes.foldl (fun a i => max a (cget g.relOwed i).toNat) 0
  if m = 0 then none else some (scopeOfNum (m - 1))

/-- The lanes owe no release any more. -/
def payOwed (g : Group) (lanes : List Nat) : Group :=
  { g with relOwed := lanes.foldl (fun acc i => cset acc i 0) g.relOwed }

/-- The releases performed with a store: the one its order names and the one its lanes owe (R254). -/
def storeReleases (g : Group) (ord : Order) (scp : Scope) (lanes : List Nat) (s : State) : State :=
  let s := match owedScope g lanes with | some o => releaseAt s g.core g.team o | none => s
  if ord.isRel then releaseAt s g.core g.team scp else s

/-- The local effects of an acquiring load. -/
def loadAcquire (g : Group) (ord : Order) (scp : Scope) (s : State) : State :=
  if ord.isAcq then acquireAt s g.core g.team scp else s

/-- Before a .sc load: copies that could hide an earlier .sc store of another lane are gone (R263). -/
def scLoad (g : Group) (ord : Order) (scp : Scope) (s : State) : State :=
  if ord = .sc then acquireAt s g.core g.team scp else s

/-- After a .sc store: what it left dirty on the core is published to its scope, for every later .sc load (R263). -/
def scStore (g : Group) (ord : Order) (scp : Scope) (s : State) : State :=
  if ord = .sc then releaseAt s g.core g.team scp else s

/-- The lanes that a last load is remembered for, with its sectors (R254). -/
def noteLoad (g : Group) (l : Tab (List Nat)) : Group :=
  { g with lastLoad := l.foldl (fun acc x => tset acc x.1 x.2) g.lastLoad }

/-- The live lanes of a group: a uniform instruction is in the program order of each (R253). -/
def liveLanes (g : Group) : List Nat := below 32 g.live.getLsbD

/-! ### Per-lane loads (R284, R290, R295, R338–R342) -/

/-- An instruction's access: lanes in order, each with its address. -/
abbrev LaneLocs := List (Nat × Loc)

/-- The same, each with the address that element numbers are counted from: the global address, that of the binding for an offset
inside one, else the offset (R295, R338, log 20). -/
abbrev NumLocs := List (Nat × Loc × DWord)

/-- A lane's address with what its elements are numbered from. -/
def numLoc (s : State) (w : Who) (x : Nat × Loc) : Nat × Loc × DWord := (x.1, x.2, (bindLoc s w x.2).number)

/-- The team's scratchpad allocation in bytes (R42). -/
def allocOf (s : State) (tid : Nat) : Nat := match getTeam s tid with | some t => t.alloc | none => 0

/-- Lanes whose scratchpad access reaches beyond the allocation (R217). -/
def beyondAlloc (s : State) (tid : Nat) (locs : LaneLocs) (span : Nat) : LaneLocs :=
  locs.filter fun x => match x.2 with | .spad o => decide (o + span > allocOf s tid) | .glob _ => false

/-- Bytes from a lane's address to the end of its footprint. -/
def Rec.span (r : Rec) : Nat := r.runs.foldl (fun a x => max a (x.1 + x.2)) 0

/-- SCRATCH_BOUNDS (R217). -/
def boundsRaise (l : LaneLocs) : Raise := ⟨9, 0, 0, maskOf (l.map (·.1)), l.map fun x => (x.1, x.2.number)⟩

/-- The runs of a lane's elements. -/
def elemItems (r : Rec) (rt : Option Rt) (x : Nat × Loc × DWord) : List Item :=
  if r.enc = 2 || r.enc = 3 then
    let (a, n) := r.streamRun x.2.2
    [⟨x.1, .glob a, n, none, false⟩]
  else r.runs.map fun e => ⟨x.1, x.2.1.shift e.1, e.2, rt, r.enc == 4⟩

/-- The runs of a lane's scales. -/
def scaleItems (r : Rec) (x : Nat × Loc × DWord) : List Item :=
  if r.scm = 0 then []
  else (List.range r.ec).map fun e => ⟨x.1, .glob (r.scaleAddr x.2.2 e), r.scaleBytes, none, false⟩

/-- The codebook blocks that the lanes name, each with its lanes (R341). -/
def blocksOf (r : Rec) (locs : NumLocs) : List (Int × Nat) :=
  if r.enc = 2 || r.enc = 3 then
    distinct (locs.flatMap fun x => (List.range r.ec).map fun e => (r.blockOf x.2.2 e, x.1))
  else []

/-- Number under which a block's table is held. -/
def blockKey (b : Int) : Nat := truncInt 64 b

/-- Tables still held, each asked for once (R342). -/
def heldTables (g : Group) (grid n : Nat) : List Int → State → List (Int × List Byte) → State × List (Int × List Byte)
  | [], s, acc => (s, acc)
  | b :: r, s, acc =>
    match findHeld s g.core heldTable grid n (blockKey b) with
    | none => heldTables g grid n r s acc
    | some t =>
      let (s, k) := drawKeep s
      heldTables g grid n r s (if k then (b, t) :: acc else acc)

/-- The registers a lane receives, as one run of bits (R335). -/
def laneRun (r : Rec) (ftz : Bool) (ea : DWord) (bytes : List (List Byte)) (scales : List (List Byte))
    (tables : List (Int × List Byte)) : Nat :=
  if r.raw then leNat bytes.flatten
  else if r.enc = 1 then
    packElems r.rs ((List.range r.ec).map fun e =>
      let code := if r.step = 1 then elemBits (bytes.headD []) r.sw e else leNat (bytes.getD e [])
      r.loadElem ftz code (if r.scm = 0 then none else some (r.scaleVal (scales.getD e []))))
  else
    packElems r.rs ((List.range r.ec).map fun e =>
      let i := r.indexOf ea e bytes.flatten
      match tables.find? fun t => t.1 == r.blockOf ea e with
      | some (_, t) => field t (i * r.rs / 8) (r.rs / 8)
      | none => 0)

/-- Consecutive groups of `n` members. -/
def chunks {α : Type} (n : Nat) : Nat → List α → List (List α)
  | 0, _ => []
  | k + 1, l => l.take n :: chunks n k (l.drop n)

/-- BAD_RECORD (R336). -/
def badRecord (lanes : List Nat) : Raise := ⟨7, 0, 0, maskOf lanes, []⟩

/-- The runs of a load: elements, scales, and the tables it has to fetch. -/
structure LoadPlan where
  elems : List (List Item)
  scales : List (List Item)
  tables : List (Int × List Item)

/-- All runs, in the order in which they are read. -/
def LoadPlan.items (p : LoadPlan) : List Item := p.elems.flatten ++ p.scales.flatten ++ p.tables.flatMap (·.2)

/-- The runs of a load that has the held tables (R338, R341, R342). -/
def loadPlan (r : Rec) (rt : Option Rt) (held : List (Int × List Byte)) (locs : NumLocs) : LoadPlan where
  elems := locs.map (elemItems r rt)
  scales := locs.map (scaleItems r)
  tables :=
    let blocks := blocksOf r locs
    let missing := (distinct (blocks.map (·.1))).filter fun b => !held.any fun t => t.1 == b
    missing.map fun b => (b, (blocks.filter fun x => x.1 == b).map fun x => ⟨x.2, .glob (r.tableAddr b), r.tableBytes, none, false⟩)

/-- What the runs read give each lane, and the tables fetched (R335, R338, R341). -/
def loadValues (r : Rec) (ftz : Bool) (p : LoadPlan) (held : List (Int × List Byte)) (locs : NumLocs)
    (bytes : List (List Byte)) : List (Nat × Nat) × List (Int × List Byte) :=
  let ne := (p.elems.headD []).length
  let ns := (p.scales.headD []).length
  let k := locs.length
  let eb := chunks ne k bytes
  let sb := chunks ns k (bytes.drop (ne * k))
  let new := (p.tables.foldl (fun (acc : List (Int × List Byte) × List (List Byte)) x =>
    (acc.1 ++ [(x.1, acc.2.headD [])], acc.2.drop x.2.length)) ([], bytes.drop (ne * k + ns * k))).1
  ((locs.zip (eb.zip sb)).map fun x => (x.1.1, laneRun r ftz x.1.2.2 x.2.1 x.2.2 (new ++ held)), new)

/-- What each lane of a load receives, and the sectors it read, or what stops it: every translation and byte of the instruction's
elements, scales, indices and tables, under one translation of each page (R290, R338, R341, R348). A page with CMP = 0b01 under a
codec record is BAD_RECORD (R336). `before` is done between the checks and the reads. -/
def loadRuns (s : State) (g : Group) (rt : Option Rt) (acq : Bool) (before : State → State) (n : Nat) (r : Rec) (locs : NumLocs) :
    State × Except Trouble (List (Nat × Nat) × Tab (List Nat)) :=
  let w := whoOf s g
  let grid := gridIdOf s g
  let (s, held) := heldTables g grid n (distinct ((blocksOf r locs).map (·.1))) s []
  let p := loadPlan r rt held locs
  let split := p.items.map (piecesOf s w)
  let (s, k) := checkAccess s w .read split.flatten
  if r.enc = 4 ∧ k.leaves.any fun e => e.2.cmp then (s, .error (.raise (badRecord (locs.map (·.1)))))
  else
    match k.stops split.flatten with
    | some t => (s, .error t)
    | none =>
      let (s, got) := readMapped (before s) w k.map r.rdc acq split
      match got with
      | .error t => (s, .error t)
      | .ok bytes =>
        let (runs, new) := loadValues r (fmtFtz g.fmt) p held locs bytes
        let s := new.foldl (fun s t => putHeld s ⟨g.core, heldTable, grid, n, blockKey t.1, t.2⟩) s
        (s, .ok (runs, laneSectors s w k.map split.flatten))

/-- Writes a load's registers: the first is the latch's value (R75). -/
def writeRun (h : Hdr) (now : Nat) (part : List Nat) (data n : Nat) (g : Group) (x : Nat × Nat) : Group :=
  let t := now + beatOffset .w32 part x.1
  let g := (List.range (n - 1)).foldl (fun g k =>
    writePlace g .variable h.ver false t (.v (data + k + 1)) x.1 (regOf x.2 (k + 1))) g
  writeLane g .variable h.ver t (.v (BitVec.ofNat 8 data)) false x.1 (regOf x.2 0)

/-- The addresses of a per-lane access, each read in the cycle of its lane's beat. -/
def laneLocs (g : Group) (addr : BitVec 6) (off : BitVec 16) (spad : Bool) (part : List Nat) (now : Nat) : LaneLocs :=
  part.map fun i =>
    let t := now + beatOffset .w32 part i
    (i, if spad then .spad (laneOffset g addr off i t) else .glob (laneAddr g addr off i t))

/-- LD and LDS (R284, R287, R290, R295). The record is fetched, and its register range looked at, whatever the guard (R113, R337);
with no lane taking part nothing else is done (R33). -/
def loadOp (s : State) (x : MemOp) (rt : Option Rt) (spad : Bool) : Out :=
  issue s x.h false fun s gid g =>
    let len := instrLen x.h false
    let regs := (roleOf s g).regs
    let data := x.data.toNat
    if data ≥ regs ∨ 2 * x.addr.toNat + (if spad then 0 else 1) ≥ regs then raiseIllegal s gid g len
    else
      let part := takingPart g x.h .w32 s.cycle
      let (s, fr) := fetchRecord s g x.rcd.toNat (maskOf part)
      match fr with
      | .error t => if part.isEmpty then finish s gid g 1 len else takeTrouble (occupy s g (beatCount .w32 part)) gid g len t
      | .ok r =>
        if data + r.regs > regs ∧ r.enc ≤ 4 then raiseIllegal s gid g len
        else if part.isEmpty then finish s gid g 1 len
        else
          let s := occupy s g (beatCount .w32 part)
          if !r.usable false spad then raise s gid g len (badRecord part)
          else
            let locs := laneLocs g x.addr x.off spad part s.cycle
            let out := beyondAlloc s g.team locs r.span
            if !out.isEmpty then raise s gid g len (boundsRaise out)
            else
              let nums := locs.map (numLoc s (whoOf s g))
              let (s, got) := loadRuns s g rt x.ord.isAcq (scLoad g x.ord x.scp) x.rcd.toNat r nums
              match got with
              | .error t => takeTrouble s gid g len t
              | .ok (runs, secs) =>
                let g' := noteLoad (runs.foldl (writeRun x.h s.cycle part data r.regs) g) secs
                loadAcquire g x.ord x.scp (setGroup s gid (advance g' len))

/-! ### Per-lane stores (R291, R295, R339) -/

/-- A register element of a packed run (R335). -/
def runElem (rs run e : Nat) : Nat := run / 2 ^ (rs * e) % 2 ^ rs

/-- What one lane of an element-encoded store writes, with the generator's state after it (R339). -/
def storeLane (r : Rec) (fmt : Word) (rt : Option Rt) (run : Nat) (scales : List (List Byte)) (x : Nat × Loc × DWord) (rng : Word) :
    List (Item × List Byte) × Word :=
  let step := (List.range r.ec).foldl
    (fun (acc : List (Nat × Nat) × Word) e =>
      let (code, res, g) := r.storeElem fmt acc.2 (runElem r.rs run e)
        (if r.scm = 0 then none else some (r.scaleVal (scales.getD e [])))
      (acc.1 ++ [(code, res)], g)) ([], rng)
  let codes := step.1.map (·.1)
  let main :=
    if r.step = 1 then [((⟨x.1, x.2.1, r.ec * r.sw / 8, rt, false⟩ : Item), leBytes (r.ec * r.sw / 8) (packElems r.sw codes))]
    else ((r.runs).zip codes).map fun e => ((⟨x.1, x.2.1.shift e.1.1, e.1.2, rt, false⟩ : Item), leBytes e.1.2 e.2)
  let width := (r.resfmt.getD .f32).bits / 8
  let resid :=
    if r.res then (step.1.zipIdx).map fun e =>
      ((⟨x.1, .glob (r.resAddr x.2.2 e.2), width, rt, false⟩ : Item), leBytes width e.1.2)
    else []
  (main ++ resid, step.2)

/-- What all lanes of a store write, and their generators after it. -/
def storeLanes (r : Rec) (g : Group) (rt : Option Rt) (runs : List (Nat × Nat)) (scales : List (List (List Byte)))
    (locs : NumLocs) : List (Item × List Byte) × Cells 32 :=
  (locs.zip (runs.zip scales)).foldl
    (fun (acc : List (Item × List Byte) × Cells 32) x =>
      if r.raw then
        (acc.1 ++ ((r.runs).zipIdx).map (fun e =>
          ((⟨x.1.1, x.1.2.1.shift e.1.1, e.1.2, rt, false⟩ : Item),
            leBytes e.1.2 (x.2.1.2 / 2 ^ (32 * e.2)))), acc.2)
      else
        let (l, rng) := storeLane r g.fmt rt x.2.1.2 x.2.2 x.1 (cget g.rng x.1.1)
        (acc.1 ++ l, cset acc.2 x.1.1 rng)) ([], g.rng)

/-- BAD_BLOCK of a store, which is not precise (R347). -/
def storeBadBlock (s : State) (g : Group) : State := endContext s (groupRec s g 8)

/-- The checks of a store: the destinations of every lane as writes and its scales as reads, before any access, under one translation of
a page that both name (R222, R287, R338, R348). -/
def checkStore (s : State) (w : Who) (dest : List Item) (scales : List Item) : State × Checked × Checked × Option Trouble :=
  let (s, kw) := checkAccess s w .write dest
  let (s, kr) := checkAccessKnown s w .read kw.leaves scales
  let bad := kw.bad ++ kr.bad.filter fun e => !kw.bad.any fun x => x.1 / 65536 == e.1 / 65536
  let stop := if !bad.isEmpty then some (.pages bad) else (kw.stops dest).or (kr.stops scales)
  (s, kw, kr, stop)

/-- A store whose lanes have their addresses and registers: all translations, then the scales, which are loads of the instruction (R234,
R254), then the bytes (R222, R287, R339). -/
def storeRuns (s : State) (gid : Nat) (g : Group) (len : Nat) (x : MemOp) (rt : Option Rt) (r : Rec) (part : List Nat)
    (runs : List (Nat × Nat)) (locs : NumLocs) : State :=
  let w := whoOf s g
  let scales := locs.map (scaleItems r)
  let split := scales.flatten.map (piecesOf s w)
  let dest := ((storeLanes r g rt runs (locs.map fun _ => []) locs).1.map (·.1)).flatMap (piecesOf s w)
  let (s, kw, kr, stop) := checkStore s w dest split.flatten
  match stop with
  | some t => takeTrouble s gid g len t
  | none =>
    let (s, got) := readMapped s w kr.map r.rdc false split
    match got with
    | .error t => takeTrouble s gid g len t
    | .ok bytes =>
      let g := noteLoad g (laneSectors s w kr.map split.flatten)
      let (items, rng) := storeLanes r g rt runs (chunks (scales.headD []).length locs.length bytes) locs
      let (s, res) := writeMapped s w kw.map (storeReleases g x.ord x.scp part) (splitWrites s w items)
      match res with
      | .trouble t => takeTrouble s gid g len t
      | .codec => storeBadBlock s g
      | .done => scStore g x.ord x.scp (setGroup s gid (advance (payOwed { g with rng := rng } part) len))

/-- ST and STS (R284, R287, R291, R295). The record is fetched, and its register range looked at, whatever the guard (R113, R337). -/
def storeOp (s : State) (x : MemOp) (rt : Option Rt) (spad : Bool) : Out :=
  issue s x.h false fun s gid g =>
    let len := instrLen x.h false
    let regs := (roleOf s g).regs
    let data := x.data.toNat
    if data ≥ regs ∨ 2 * x.addr.toNat + (if spad then 0 else 1) ≥ regs then raiseIllegal s gid g len
    else
      let part := takingPart g x.h .w32 s.cycle
      let (s, fr) := fetchRecord s g x.rcd.toNat (maskOf part)
      match fr with
      | .error t => if part.isEmpty then finish s gid g 1 len else takeTrouble (occupy s g (beatCount .w32 part)) gid g len t
      | .ok r =>
        if data + r.regs > regs ∧ r.enc ≤ 4 then raiseIllegal s gid g len
        else if part.isEmpty then finish s gid g 1 len
        else
          let s := occupy s g (beatCount .w32 part)
          if !r.usable true spad then raise s gid g len (badRecord part)
          else
            let locs := laneLocs g x.addr x.off spad part s.cycle
            let out := beyondAlloc s g.team locs r.span
            if !out.isEmpty then raise s gid g len (boundsRaise out)
            else
              let runs := part.map fun i => (i, packElems 32 ((List.range r.regs).map fun k =>
                readPlace g (.v (data + k)) i false (s.cycle + beatOffset .w32 part i)))
              storeRuns s gid g len x rt r part runs (locs.map (numLoc s (whoOf s g)))

/-! ### Meanings -/

/-- LD.own (R230, R290). -/
def execLdOwn (x : MemOp) (s : State) : Out := loadOp s x (some .own) false
/-- LD.wt (R230, R290). -/
def execLdWt (x : MemOp) (s : State) : Out := loadOp s x (some .wt) false
/-- LD.si (R230, R290). -/
def execLdSi (x : MemOp) (s : State) : Out := loadOp s x (some .si) false
/-- LD.uc (R230, R290). -/
def execLdUc (x : MemOp) (s : State) : Out := loadOp s x (some .uc) false
/-- ST.own (R230, R291). -/
def execStOwn (x : MemOp) (s : State) : Out := storeOp s x (some .own) false
/-- ST.wt (R230, R291). -/
def execStWt (x : MemOp) (s : State) : Out := storeOp s x (some .wt) false
/-- ST.si (R230, R291). -/
def execStSi (x : MemOp) (s : State) : Out := storeOp s x (some .si) false
/-- ST.uc (R230, R291). -/
def execStUc (x : MemOp) (s : State) : Out := storeOp s x (some .uc) false
/-- LDS (R295). -/
def execLds (x : MemOp) (s : State) : Out := loadOp s x none true
/-- STS (R295). -/
def execSts (x : MemOp) (s : State) : Out := storeOp s x none true

/-- Bytes of an LDU width (R289). -/
def lduBytes : LduW → Nat
  | .n8 | .i8 => 1
  | .n16 | .i16 => 2
  | .n32 | .i32 => 4
  | .b64 => 8

/-- A loaded value extended under its width (R292). -/
def lduValue (w : LduW) (v : Nat) : Nat :=
  match w with
  | .i8 => truncInt 64 (sextInt 8 v)
  | .i16 => truncInt 64 (sextInt 16 v)
  | .i32 => truncInt 64 (sextInt 32 v)
  | _ => v

/-- The lanes a fault of a once-per-group condition names are the current mask (R472). -/
def Trouble.forGroup (g : Group) : Trouble → Trouble
  | .pages l => .pages (l.map fun e => (e.1, e.2.1, g.mask))
  | .raise r => .raise { r with lanes := g.mask, addrs := match r.addrs with
      | (_, a) :: _ => (enabledLanes g).map fun i => (i, a)
      | [] => [] }

/-- LDU (R292). -/
def lduOp (s : State) (x : LduOp) (rt : Rt) : Out :=
  issue s x.h false fun s gid g =>
    let len := instrLen x.h false
    if !uniGuard g x.h s.cycle then finish s gid g 1 len
    else
      let s := occupy s g 1
      let ea := uniAddr g x.addr x.off s.cycle
      let items : List Item := [⟨0, .glob ea, lduBytes x.w, some rt, false⟩]
      let (s, m, got) := readChecked s (whoOf s g) 15 x.ord.isAcq (scLoad g x.ord x.scp) items
      match got with
      | .error t => takeTrouble s gid g len (t.forGroup g)
      | .ok b =>
        let g' := writePlace g .variable x.h.ver true s.cycle (.s x.data.toNat) 0 (lduValue x.w (leNat b.flatten))
        let secs := (laneSectors s (whoOf s g) m (items.flatMap (piecesOf s (whoOf s g)))).flatMap (·.2)
        let g' := noteLoad g' ((liveLanes g).map fun i => (i, secs))
        loadAcquire g x.ord x.scp (setGroup s gid (advance g' len))

/-- LDU.own (R292). -/
def execLduOwn (x : LduOp) (s : State) : Out := lduOp s x .own
/-- LDU.wt (R292). -/
def execLduWt (x : LduOp) (s : State) : Out := lduOp s x .wt
/-- LDU.si (R292). -/
def execLduSi (x : LduOp) (s : State) : Out := lduOp s x .si
/-- LDU.uc (R292). -/
def execLduUc (x : LduOp) (s : State) : Out := lduOp s x .uc

/-- One lane's prefetch into L1 or a window (R298): nothing on any failure. -/
def prefLane (s : State) (g : Group) (n : Nat) (va : DWord) : State :=
  let w := whoOf s g
  let c : Sec := ⟨true, va.toNat / 64, none, false⟩
  match secWindow s w c with
  | some b =>
    let (s, k) := checkAccess s w .read [⟨0, .glob va, 1, none, false⟩]
    match k.map with
    | [(_, .error _)] => s
    | _ => (windowSectorRead s ((windowOf s b.core b.index).getD b) (winSector b c) (BitVec.allOnes 16) false).1
  | none =>
    let (s, r) := translate s w va .read
    match r with
    | .error _ => s
    | .ok l =>
      let rt := effRt l l.rt
      let σ := leafPa l va / 64
      if rt == .uc then s
      else if l.cmp then
        -- the stored form of the line (R347)
        if (linePoisoned s w rt (σ / 4)).isSome then s else (loadLine s w rt (σ / 4) n).1
      else if readsPoison s w.core rt σ then s
      else (loadSector s w rt σ n).1

/-- PREF (R298): a sector made resident in its home slice is no state of the model. -/
def execPref (h : Hdr) (addr : BitVec 6) (home : Bool) (n : BitVec 4) (off : BitVec 16) (s : State) : Out :=
  issue s h false fun s gid g =>
    let len := instrLen h false
    if 2 * addr.toNat + 1 ≥ (roleOf s g).regs then raiseIllegal s gid g len
    else
      let part := takingPart g h .w32 s.cycle
      let s' := part.foldl (fun s i =>
        let va := laneAddr g addr off i (s.cycle + beatOffset .w32 part i)
        if home then (translate s (whoOf s g) va .read).1 else prefLane s g n.toNat va) s
      finish s' gid g (beatCount .w32 part) len

/-- Zero in every byte of a sector, as one store at home (R299). -/
def zeroSector (s : State) (w : Who) (m : PageMap) (va : DWord) : State :=
  let c : Sec := ⟨true, va.toNat / 64, none, false⟩
  match secWindow s w c with
  | some b => windowSectorWrite s b (winSector b c) 0 (BitVec.allOnes 64)
  | none =>
    match m.look va with
    | .error _ => s
    | .ok l =>
      let σ := leafPa l va / 64
      homeWrite (metaPass (dropCopy s w.core σ) w.core σ) (crownOf w.core) σ (BitVec.allOnes 64) 0 w.tag false none

/-- The leaf of the page of an address, as an access found it, whether or not its checks let the access through (R247, R300). -/
def leafSeen (k : Checked) (va : DWord) : Option Leaf := tget k.leaves (va.toNat / 65536)

/-- ZSECT (R287, R299, R300). -/
def execZsect (h : Hdr) (addr : BitVec 6) (ord : Order) (scp : Scope) (off : BitVec 16) (s : State) : Out :=
  issue s h false fun s gid g =>
    let len := instrLen h false
    if 2 * addr.toNat + 1 ≥ (roleOf s g).regs then raiseIllegal s gid g len
    else
      let part := takingPart g h .w32 s.cycle
      if part.isEmpty then finish s gid g 1 len
      else
        let s := occupy s g (beatCount .w32 part)
        let w := whoOf s g
        let eas := part.map fun i => (i, laneAddr g addr off i (s.cycle + beatOffset .w32 part i))
        let items := eas.map fun x => (⟨x.1, .glob (x.2 &&& ~~~63#64), 64, none, false⟩ : Item)
        let (s, k) := checkAccess s w .write items
        -- R287: class 3 before class 4, so the leaf counts even where its checks fail
        let refused := eas.filter fun x =>
          (secWindow s w ⟨true, x.2.toNat / 64, none, false⟩).isNone &&
            match leafSeen k x.2 with | some l => l.sa || l.cmp | none => false
        let odd := eas.filter fun x => x.2.toNat % 64 != 0
        if !odd.isEmpty then raise s gid g len ⟨10, 0, 0, maskOf (odd.map (·.1)), odd⟩
        else if !refused.isEmpty then raise s gid g len ⟨11, 0, 0, maskOf (refused.map (·.1)), refused⟩
        else
          match k.stops items with
          | some t => takeTrouble s gid g len t
          | none =>
            let s := storeReleases g ord scp part s
            let s := eas.foldl (fun s x => zeroSector s w k.map x.2) s
            setGroup s gid (advance (payOwed g part) len)

end Sys2Proof.Machine
end

