-- ==== Sys2Proof/Machine/Atomics.lean ====
section
/-! DEFINITION. Atomics (spec/11_isa_memory_and_sync.md R312–R316, spec/09_memory_hierarchy.md R246, R247). -/

namespace Sys2Proof.Machine

/-! ### Operations (R313–R315) -/

/-- The new value of an operation in type `t`, on bits (R313, R315). -/
def atomNew (op : AtomOp) (t : Ty) (old b : Nat) : Nat :=
  let int := fun (v : Nat) => if t.isI then sextInt t.bits v else (v : Int)
  match op with
  | .add =>
    if t == .f32 then fround .f32 .rne false (fadd .rne (fdecode .f32 old) (fdecode .f32 b)) else (old + b) % 2 ^ t.bits
  | .min => if t == .f32 then extremum .f32 old b (· == .gt) else if int old ≤ int b then old else b
  | .max => if t == .f32 then extremum .f32 old b (· == .lt) else if int b ≤ int old then old else b
  | .and => old &&& b
  | .or => old ||| b
  | .xor => old ^^^ b
  | .exch => b
  | .inc => if old ≥ b then 0 else (old + 1) % 2 ^ t.bits
  | .dec => if old = 0 ∨ old > b then b else old - 1

/-- What one lane's operation does: the location's new value, none when nothing is written (R314). -/
inductive AtomAct where
  | modify (op : AtomOp) (b : Nat)
  | cas (cmp new : Nat)
  deriving DecidableEq, Repr

/-- The new value of one lane's operation. -/
def AtomAct.run (a : AtomAct) (t : Ty) (old : Nat) : Option Nat :=
  match a with
  | .modify op b => some (atomNew op t old b)
  | .cas cmp new => if old = cmp then some new else none

/-! ### Places (R246) -/

/-- The unit that performs a lane's operation. -/
inductive AtomPlace where
  | bank | l1 | bough | home
  deriving DecidableEq, Repr

/-- Where an atomic executes (R246): `bank` for scratchpad and windowed addresses. -/
def atomPlace (scp : Scope) (sa red : Bool) : AtomPlace :=
  if sa then .home
  else
    match scp with
    | .team => .l1
    | .bough => .bough
    | _ => if red then .home else .l1

/-- An agent takes a sector owned for an operation, which then reads it there (R246); a sector that is watched is granted to nobody, and
is read at home (R325). Nothing is addressed to a dead atomic unit (R493); DESIGN CHOICE (log 49): home performs in its place. -/
def takeOwned (s : State) (w : Who) (agent σ : Nat) : State × BitVec 512 :=
  if watched s σ || s.deadAgents.contains agent then homeRead s σ
  else
    let s := if (ownedCopy s agent σ).isSome then s else gainOwned s w agent σ
    match ownedCopy s agent σ with
    | some c => (s, c.data)
    | none => homeRead s σ

/-- The number of a bough's atomic unit among the agents. -/
def boughAgent (core : Nat) : Nat := 256 + boughOf core

/-- What the performing unit reads of a sector, which L1 and the bough's unit first take owned whether or not a write follows (R246). The
core's own copy in L1 goes home first when it is not L1 that performs (R232), so that a lane's earlier stores are seen. -/
def atomRead (s : State) (w : Who) (p : AtomPlace) (σ : Nat) : State × BitVec 512 :=
  match p with
  | .l1 =>
    let s := settle s σ
    let s := if (ownedCopy s w.core σ).isSome then s else evict s w.core σ
    takeOwned (corePass s w.core σ) w w.core σ
  | .bough => takeOwned (clearWay s w.core σ) w (boughAgent w.core) σ
  | _ => homeRead (clearWay s w.core σ) σ

/-- The performing unit's write. -/
def atomWrite (s : State) (w : Who) (p : AtomPlace) (σ : Nat) (bm : BitVec 64) (d : BitVec 512) : State :=
  match p with
  | .l1 => storeSector s w .own σ bm d
  | .bough =>
    let s := corePass s w.core σ
    if (ownedCopy s (boughAgent w.core) σ).isSome && !watched s σ then writeOwned s w (boughAgent w.core) σ bm d
    else homeWrite s (crownOf w.core) σ bm d w.tag false none
  | _ => homeWrite s (crownOf w.core) σ bm d w.tag false none

/-- Fields of an atomic that every lane shares. -/
structure AtomShape where
  ty : Ty
  ord : Order
  scp : Scope
  red : Bool
  deriving DecidableEq, Repr

/-- One lane's indivisible read-modify-write (R314): `pre` is the release to be performed before a write. Answers the old
value and whether a write was made. -/
def atomLane (w : Who) (m : PageMap) (sh : AtomShape) (pre : State → State) (s : State) (loc : Loc) (act : AtomAct) :
    State × Nat × Bool :=
  let n := sh.ty.bits / 8
  let x := throughBinding s w ⟨0, loc, n, none, false⟩
  let c := x.sec
  let lo := x.loc.low
  if !c.glob then
    let d : BitVec 512 := match getTeam s w.team with
      | some t => BitVec.ofNat 512 (leNat (crange t.scratch (64 * c.num) 64))
      | none => 0
    let old := sectorValue d lo n
    match act.run sh.ty old with
    | none => (s, old, false)
    | some new =>
      let s := pre s
      (match getTeam s w.team with
        | some t => setTeam s w.team (scratchPut t (64 * c.num + lo) (leBytes n new))
        | none => s, old, true)
  else
    match secWindow s w c with
    | some b =>
      let i := winSector b c
      let (s, r) := windowSectorRead s b i (wordsTouched x.mask) sh.ord.isAcq
      let d : BitVec 512 := match r with | .ok d => d | .error _ => 0
      let old := sectorValue d lo n
      match act.run sh.ty old with
      | none => (s, old, false)
      | some new =>
        let s := pre s
        let (nd, bm) := placeBytes lo (leBytes n new)
        (match windowOf s b.core b.index with
          | some b => windowSectorWrite s b i nd bm
          | none => s, old, true)
    | none =>
      match m.look c.va with
      | .error _ => (s, 0, false)
      | .ok l =>
        let σ := leafPa l c.va / 64
        let p := atomPlace sh.scp l.sa sh.red
        let s := if sh.ord.isAcq then forcePublish s w.core w.team σ else s
        let (s, d) := atomRead s w p σ
        let old := sectorValue d lo n
        match act.run sh.ty old with
        | none => (s, old, false)
        | some new =>
          let (nd, bm) := placeBytes lo (leBytes n new)
          (atomWrite (pre s) w p σ bm nd, old, true)

/-- All lanes' operations, in ascending `%laneid` (R288). -/
def atomLanes (w : Who) (m : PageMap) (sh : AtomShape) (pre : Nat → State → State) :
    List (Nat × Loc × AtomAct) → State → List (Nat × Nat × Bool) → State × List (Nat × Nat × Bool)
  | [], s, acc => (s, acc.reverse)
  | (i, loc, act) :: r, s, acc =>
    let (s, old, wrote) := atomLane w m sh (pre i) s loc act
    atomLanes w m sh pre r s ((i, old, wrote) :: acc)

/-- The conditions of R247 on an address: in a window of the team under a wider scope, on a codec page, or .sys on a page that is not
system-atomic. A leaf counts even where its checks fail, since ATOMIC_SCOPE comes before translation faults (R287). -/
def scopeBad (s : State) (w : Who) (leaf : DWord → Option Leaf) (scp : Scope) (va : DWord) : Bool :=
  match secWindow s w ⟨true, va.toNat / 64, none, false⟩ with
  | some _ => scp != .team
  | none =>
    match leaf va with
    | some l => l.cmp || (scp == .sys && !l.sa)
    | none => false

/-- The lanes that R247 stops. -/
def scopeLanes (s : State) (w : Who) (k : Checked) (scp : Scope) (locs : LaneLocs) : LaneLocs :=
  locs.filter fun x => match x.2 with | .spad _ => false | .glob va => scopeBad s w (leafSeen k) scp va

/-- Whether the performing unit would read a poisoned sector at its home (R489). -/
def placeLost (s : State) (w : Who) (p : AtomPlace) (σ : Nat) : Bool :=
  match p with
  | .l1 => readsPoison s w.core .own σ
  | .bough => s.mem.poison.contains σ && ((copyOf s (256 + boughOf w.core) σ).filter fun c => c.st == .owned).isNone
  | _ => s.mem.poison.contains σ

/-- A poisoned sector that an atomic would read (R489): in a window only when a word it names has to be filled (R237). -/
def atomLost (s : State) (w : Who) (m : PageMap) (sh : AtomShape) (x : Nat × Loc) : Option Nat :=
  let it := throughBinding s w ⟨x.1, x.2, sh.ty.bits / 8, none, false⟩
  let c := it.sec
  if !c.glob then none
  else
    match secWindow s w c with
    | some b =>
      let i := winSector b c
      if wordsTouched it.mask &&& ~~~(cget b.vbits i) = 0 then none
      else (windowPhys b i).bind fun σ => if s.mem.poison.contains σ then some (64 * σ) else none
    | none =>
      match m.look c.va with
      | .ok l => if placeLost s w (atomPlace sh.scp l.sa sh.red) (leafPa l c.va / 64) then some (leafPa l c.va) else none
      | .error _ => none

/-- The checks of an atomic in the order of R287 and R316, and then its operations: `after` gives the group from what the
lanes read. -/
def atomAccess (s : State) (gid : Nat) (g : Group) (len : Nat) (sh : AtomShape) (ops : List (Nat × Loc × AtomAct))
    (after : Group → List (Nat × Nat × Bool) → Group) : State :=
  let w := whoOf s g
  let n := sh.ty.bits / 8
  let locs : LaneLocs := ops.map fun x => (x.1, x.2.1)
  let out := beyondAlloc s g.team locs n
  let odd := locs.filter fun x => x.2.number.toNat % n != 0
  if !odd.isEmpty then raise s gid g len ⟨10, 0, 0, maskOf (odd.map (·.1)), odd.map fun x => (x.1, x.2.number)⟩
  else if !out.isEmpty then raise s gid g len (boundsRaise out)
  else
    let items := locs.map fun x => throughBinding s w ⟨x.1, x.2, n, none, false⟩
    let (s, k) := checkAccess s w .write items
    let scope := scopeLanes s w k sh.scp locs
    if !scope.isEmpty then raise s gid g len ⟨11, 0, 0, maskOf (scope.map (·.1)), scope.map fun x => (x.1, x.2.number)⟩
    else
      match k.stops items with
      | some t => takeTrouble s gid g len t
      | none =>
        let lost := locs.filterMap fun x => (atomLost s w k.map sh x).map fun pa => (x.1, BitVec.ofNat 64 pa)
        if !lost.isEmpty then raise s gid g len ⟨15, 1, 0, maskOf (lost.map (·.1)), lost⟩
        else
          let pre := fun (i : Nat) (s : State) => storeReleases g sh.ord sh.scp [i] s
          let (s, olds) := atomLanes w k.map sh pre ops (scLoad g sh.ord sh.scp s) []
          let wrote := (olds.filter fun x => x.2.2).map (·.1)
          let g' := noteLoad (payOwed (after g olds) wrote) (laneSectors s w k.map items)
          let s := loadAcquire g sh.ord sh.scp (setGroup s gid (advance g' len))
          -- with no lane written it is a load only (R314)
          if wrote.isEmpty then s else scStore g sh.ord sh.scp s

/-- A register value of a lane: one register or a pair. -/
def dataValue (g : Group) (data lane now : Nat) (wide : Bool) : Nat :=
  let lo := readPlace g (.v data) lane false now
  if wide then pairNat lo (readPlace g (.v (data + 1)) lane false now) else lo

/-- ATOM, ATOMCAS and RED (R312–R316): `regs` registers from DATA on are named. -/
def atomOp (s : State) (x : AtomFields) (regs : Nat) (red : Bool) (act : Group → Nat → Nat → AtomAct) : Out :=
  issue s x.h false fun s gid g =>
    let len := instrLen x.h false
    let alloc := (roleOf s g).regs
    let wide := x.ty.wide
    if x.data.toNat + regs > alloc ∨ 2 * x.addr.toNat + (if x.spl then 0 else 1) ≥ alloc then raiseIllegal s gid g len
    else
      let part := takingPart g x.h .w32 s.cycle
      if part.isEmpty then finish s gid g 1 len
      else
        let at_ := fun i => s.cycle + beatOffset .w32 part i
        let ops := part.map fun i =>
          (i, if x.spl then Loc.spad (laneOffset g x.addr x.off i (at_ i)) else .glob (laneAddr g x.addr x.off i (at_ i)),
            act g i (at_ i))
        atomAccess (occupy s g (beatCount .w32 part)) gid g len ⟨x.ty, x.ord, x.scp, red⟩ ops fun g olds =>
          if red then g
          else olds.foldl (fun g o => writeLane g .variable x.h.ver (at_ o.1) (.v x.data) wide o.1 o.2.1) g

/-- ATOM (R314). -/
def execAtom (x : AtomFields) (s : State) : Out :=
  atomOp s x (if x.ty.wide then 2 else 1) false fun g i t => .modify x.op (dataValue g x.data.toNat i t x.ty.wide)

/-- ATOMCAS (R312, R314). -/
def execAtomcas (x : AtomFields) (s : State) : Out :=
  atomOp s x (if x.ty.wide then 4 else 2) false fun g i t =>
    let step := if x.ty.wide then 2 else 1
    .cas (dataValue g x.data.toNat i t x.ty.wide) (dataValue g (x.data.toNat + step) i t x.ty.wide)

/-- RED (R314). -/
def execRed (x : AtomFields) (s : State) : Out :=
  atomOp s x (if x.ty.wide then 2 else 1) true fun g i t => .modify x.op (dataValue g x.data.toNat i t x.ty.wide)

end Sys2Proof.Machine
end

