-- ==== Sys2Proof/Machine/Control.lean ====
section
/-! DEFINITION. Control transfer, divergence and exit (spec/06_isa_control_and_integer.md R146–R156,
spec/02_execution_model.md R56–R60). -/

namespace Sys2Proof.Machine

/-- An F3 target (R126). -/
def relTarget (pc : DWord) (off : BitVec 24) : DWord := pc + off.signExtend 64 * 8

/-- The group continues at an address after the beats of its instruction (R32). -/
def jump (s : State) (gid : Nat) (g : Group) (beats : Nat) (pc : DWord) : State :=
  setGroup (occupy s g beats) gid { g with pc := pc }

/-- NOP (R150). -/
def execNop (h : Hdr) (s : State) : Out := 
  issue s h false fun s gid g => finish s gid g (beatsOf g h .w32 s.cycle) (instrLen h false)

/-- BRA (R148). -/
def execBra (h : Hdr) (any : Bool) (off : BitVec 24) (s : State) : Out :=
  issue s h false fun s gid g =>
    let part := takingPart g h .w32 s.cycle
    let taken := if any then !part.isEmpty else decide (part = enabledLanes g)
    let beats := beatCount .w32 part
    if taken then jump s gid g beats (relTarget g.pc off) else finish s gid g beats (instrLen h false)

/-- BRU (R148). -/
def execBru (h : Hdr) (off : BitVec 24) (s : State) : Out :=
  issue s h false fun s gid g =>
    if uniGuard g h s.cycle then jump s gid g 1 (relTarget g.pc off) else finish s gid g 1 (instrLen h false)

/-- A register-supplied target, as it reads in the lowest-numbered enabled lane (R149). -/
def readTarget (g : Group) (h : Hdr) (now : Nat) (a : Src) : DWord :=
  match a, lowestEnabled g with
  | .s _, _ => BitVec.ofNat 64 (readSrc g h 0 now 64 a)
  | _, some i => BitVec.ofNat 64 (readSrc g h i now 64 a)
  | _, none => 0

/-- Writes a link register: fixed class, latency 4 (R149). -/
def writeLink (g : Group) (h : Hdr) (now : Nat) (link : BitVec 7) (v : DWord) : Group :=
  writePlace g (.fixed 4) h.ver false now (.s link.toNat) 0 v.toNat

/-- A transfer to an address held in a register: illegal when its low three bits are not zero (R126). The 64-bit target makes
it an operation of four beats (R32, log 17). -/
def jumpTo (s : State) (gid : Nat) (g : Group) (h : Hdr) (t : DWord) (link : Option (BitVec 7)) : State :=
  if t.extractLsb' 0 3 ≠ 0 then raiseIllegal s gid g (instrLen h false)
  else
    let g := match link with
      | some l => writeLink g h s.cycle l (g.pc + BitVec.ofNat 64 (instrLen h false))
      | none => g
    jump s gid g (beatsOf g h .w64 s.cycle) t

/-- BRX (R149). -/
def execBrx (h : Hdr) (a : Src) (s : State) : Out :=
  issue s h false fun s gid g =>
    if srcInRole (roleOf s g) true a then jumpTo s gid g h (readTarget g h s.cycle a) none
    else raiseIllegal s gid g (instrLen h false)

/-- CALL (R149). -/
def execCall (h : Hdr) (link : BitVec 7) (off : BitVec 24) (s : State) : Out :=
  issue s h false fun s gid g =>
    jump s gid (writeLink g h s.cycle link (g.pc + BitVec.ofNat 64 (instrLen h false))) (beatsOf g h .w64 s.cycle)
      (relTarget g.pc off)

/-- CALLX (R149): the source is read before the link is written. -/
def execCallx (h : Hdr) (link : BitVec 7) (a : Src) (s : State) : Out :=
  issue s h false fun s gid g =>
    if srcInRole (roleOf s g) true a then jumpTo s gid g h (readTarget g h s.cycle a) (some link)
    else raiseIllegal s gid g (instrLen h false)

/-- RET (R149). -/
def execRet (h : Hdr) (link : BitVec 7) (s : State) : Out :=
  issue s h false fun s gid g =>
    jumpTo s gid g h (BitVec.ofNat 64 (readPlace g (.s link.toNat) 0 false s.cycle)) none

/-- STACK_OVERFLOW (R57). -/
def raiseStack (s : State) (gid : Nat) (g : Group) (len : Nat) : State := raise s gid g len ⟨12, 0, 0, g.mask, []⟩

/-- The lanes DVG enables: each lane's predicate is read in the cycle of its beat (R119, R153). -/
def dvgLanes (g : Group) (h : Hdr) (p : BitVec 3) (neg : Bool) (now : Nat) : List Nat :=
  let part := takingPart g h .w32 now
  part.filter fun i => (readPlace g (.p p.toNat) i false (now + beatOffset .w32 part i) == 1) != neg

/-- DVG (R153). -/
def execDvg (h : Hdr) (p : BitVec 3) (neg : Bool) (off : BitVec 24) (s : State) : Out :=
  issue s h false fun s gid g =>
    if g.stack.length ≥ 32 then raiseStack s gid g (instrLen h false)
    else
      let sel := dvgLanes g h p neg s.cycle
      let beats := beatsOf g h .w32 s.cycle
      let point := relTarget g.pc off
      if sel.isEmpty then jump s gid g beats point
      else finish s gid { g with stack := ⟨point, g.mask, g.fmt⟩ :: g.stack, mask := maskOf sel } beats (instrLen h false)

/-- Pops entries until the restored mask holds a live lane or the stack is empty (R58, R154). -/
def popFrames (g : Group) : List Frame → Group
  | [] => { g with stack := [] }
  | e :: r =>
    if e.mask &&& g.live = 0 ∧ !r.isEmpty then popFrames g r
    else { g with stack := r, mask := e.mask &&& g.live, fmt := e.fmt, pc := e.pc }

/-- CVG (R154); a handler's end clears ACTIVE (R474). -/
def execCvg (h : Hdr) (s : State) : Out :=
  issue s h false fun s gid g =>
    if g.stack.isEmpty then raiseStack s gid g (instrLen h false)
    else setGroup (occupy s g (beatsOf g h .w32 s.cycle)) gid (clearActive (popFrames g g.stack))

/-- EXIT (R59, R155). -/
def execExit (h : Hdr) (s : State) : Out :=
  issue s h false fun s gid g =>
    let part := takingPart g h .w32 s.cycle
    let out := maskOf part
    let g := { g with
      live := g.live &&& ~~~out
      mask := g.mask &&& ~~~out
      stack := g.stack.map fun e => ⟨e.pc, e.mask &&& ~~~out, e.fmt⟩ }
    let s := occupy s g (beatCount .w32 part)
    if g.live = 0 then retireGroup (setGroup s gid g) gid
    else if g.mask = 0 ∧ !g.stack.isEmpty then setGroup s gid (clearActive (popFrames g g.stack))
    else setGroup s gid (advance g (instrLen h false))

/-- YIELD (R150): the group goes to the pending set, ready. -/
def execYield (h : Hdr) (s : State) : Out :=
  issue s h false fun s gid g =>
    let g' := { advance g (instrLen h false) with
      slice := none, pendSince := s.cycle, readySince := s.cycle, lastStall := s.cycle }
    setGroup (occupy s g (beatsOf g h .w32 s.cycle)) gid g'

end Sys2Proof.Machine
end

