-- ==== Sys2Proof/Machine/Convert.lean ====
section
/-! DEFINITION. The conversion instructions (spec/07_isa_vector_float.md R207–R211). -/

namespace Sys2Proof.Machine

/-- FCVT (R208). DESIGN CHOICE (log 86): with one format as source and target and s = 1, an infinity gives the largest value of its sign,
as R93 rounds it, though R208 does not list it among its three exceptions. -/
def execFcvt (x : CvtOp) (s : State) : Out :=
  dataOp s x.h false .w32 6 [(x.a, false)] x.d false fun g _ i t =>
    let c := modeOf g.fmt x.m
    froundF x.dty c.m c.s c.f (readVal g x.h i t x.sty c.f x.a)

/-- A value converted to an integer type: always clamped (R209). -/
def toInt (d : Ty) (m : RM) (a : FVal) : Int :=
  match a with
  | .nan => 0
  | .inf neg => if neg then loOf d else hiOf d
  | .fin neg k e => clampTo d (toIntegral m neg k e)

/-- FCVTI (R209). DESIGN CHOICE (log 77): with UNI = 1 a result of a signed type is sign-extended to 64 bits, as R209 writes it under
R174, where R185 has every result of the chapter zero-extended. -/
def execFcvti (x : CvtOp) (s : State) : Out :=
  dataOp s x.h false (widthOf x.dty.wide) 6 [(x.a, false)] x.d x.dty.wide fun g _ i t =>
    let c := modeOf g.fmt x.m
    extResult x.dty (toInt x.dty c.m (readVal g x.h i t x.sty c.f x.a))

/-- ICVTF (R210). -/
def execIcvtf (x : CvtOp) (s : State) : Out :=
  dataOp s x.h false (widthOf x.sty.wide) 6 [(x.a, x.sty.wide)] x.d false fun g _ i t =>
    let c := modeOf g.fmt x.m
    froundF x.dty c.m c.s c.f (fint (readInt g x.h i t x.sty x.a))

end Sys2Proof.Machine
end

