-- ==== Sys2Proof/Machine/GroupOps.lean ====
section
/-! DEFINITION. Spawning, regrouping, group operations, the format register and the special registers
(spec/06_isa_control_and_integer.md R157–R172, spec/02_execution_model.md R41–R55). -/

namespace Sys2Proof.Machine

/-! ### Room on a core (R41, R43, R47) -/

/-- Roles of groups that retired while matrix entries of theirs have not (R43). -/
def lingering (s : State) (core : Nat) : List Role := (getCore s core).ghosts.map fun e => roleOf s e.2

/-- Resident groups of a core. -/
def groupsOn (s : State) (core : Nat) : List (Nat × Group) := s.groups.filter fun e => e.2.core == core

/-- Bytes of vector registers that retired groups of a core still hold, since results they await have not returned (R155). -/
def leavingRegs (s : State) (core : Nat) : Nat :=
  let c := getCore s core
  (c.leaving.filter (Leaving.waits c s.cycle)).foldl (fun a l => a + 128 * l.regs) 0

/-- Whether a core has room for further groups of the given roles (R41, R47, R155). -/
def roomFor (s : State) (core : Nat) (new : List Role) : Bool :=
  let here := (groupsOn s core).map fun e => roleOf s e.2
  let ghosts := lingering s core
  let sum (l : List Role) (f : Role → Nat) : Nat := l.foldl (fun a r => a + f r) 0
  decide (sum (here ++ new) (fun r => 128 * r.regs) + leavingRegs s core ≤ (getCore s core).split.regs * 131072)
    && decide (sum (here ++ ghosts ++ new) (·.tiles) ≤ 128)
    && decide (sum (here ++ ghosts ++ new) (·.accs) ≤ 32)
    && decide (here.length + new.length ≤ 64)

/-! ### Bins (R44–R48) -/

/-- The kernel of a team. -/
def kernelOf (s : State) (tid : Nat) : Kernel :=
  match (getTeam s tid).bind fun t => tget s.grids t.grid with
  | some g => g.kernel
  | none => ⟨0, ⟨8, 12, 4⟩, [], 0, []⟩

/-- Whether a bin's timer has expired: one that has frozen does not (R46, R49). -/
def Bin.expired (now : Nat) (b : Bin) : Bool :=
  b.left.isNone && match b.till with | some t => decide (t ≤ now) | none => false

/-- Whether a bin waits for room to launch (R47). -/
def Bin.deferred (b : Bin) : Bool := b.left.isNone && b.till.isNone

/-- Whether a bin's launch can proceed (R47). -/
def mayLaunch (s : State) (core : Nat) (b : Bin) : Bool :=
  decide ((residents s b.team none).length < 32)
    && roomFor s core [(kernelOf s b.team).roles.getD b.role ⟨1, 8, 0, 0, 0⟩]

/-- The least number from `n` on that no list member equals. -/
def leastFree (used : List Nat) : Nat → Nat → Nat
  | 0, n => n
  | k + 1, n => if used.contains n then leastFree used k (n + 1) else n

/-- Vector registers that a spawned lane starts with (R48). -/
def spawnRegs (l : List BinLane) : Cells 32 :=
  l.foldl (fun acc b => (b.args.zipIdx).foldl (fun acc a => cset acc (laneKey a.2 b.pos) a.1) acc) []

/-- A bin launches its group: an acquire at .team comes first (R48, R159). DESIGN CHOICE (log 68): a role all of whose numbers up to
31 are held takes the next number, of which `%groupid` shows the low five bits; the spec names none. -/
def launchBin (s : State) (core num : Nat) (b : Bin) : State :=
  match getTeam s b.team with
  | none => s
  | some t =>
    let role := (kernelOf s b.team).roles.getD b.role ⟨1, 8, 0, 0, 0⟩
    let used := (s.groups.filter fun e => e.2.team == b.team && e.2.role == b.role).map fun e => e.2.gnum
    let gnum := leastFree used 32 role.groups
    let block : DWord := match tget s.grids t.grid with | some g => g.blockAddr | none => 0
    let live := maskOf (b.lanes.map (·.pos))
    let g := { newGroup b.team t.index core b.role gnum none b.entry live block s.cycle with
      v := spawnRegs b.lanes }
    let c := getCore s core
    let (s, gid) := takeId (setCore s core { c with bins := tdel c.bins num })
    acquireAt (setGroup s gid g) core b.team .team

/-- A bin that is to launch does so, or closes its timer and waits (R46, R47). -/
def tryLaunch (s : State) (core num : Nat) : State :=
  match tget (getCore s core).bins num with
  | none => s
  | some b =>
    if mayLaunch s core b then launchBin s core num b
    else
      let c := getCore s core
      setCore s core { c with bins := tset c.bins num { b with till := none } }

/-- Bins whose timers have expired launch with the lanes they held before (R46). -/
def expireBins (s : State) (core : Nat) : State :=
  ((getCore s core).bins.filter fun b => b.2.expired s.cycle).foldl
    (fun s b => tryLaunch s core b.1) s

/-- Timer of a bin entry of a kernel; none when the address is no bin entry (R143, R158). -/
def binTimer (k : Kernel) (entry : DWord) : Option Nat :=
  (k.bins.find? fun b => k.entry + BitVec.ofNat 64 b.off == entry).map (·.timer)

/-- One spawning lane enters a bin, if one takes it (R44–R47). -/
def placeSpawn (s : State) (core team role : Nat) (entry : DWord) (args : List Word) : Option State :=
  let c := getCore s core
  match c.bins.find? fun b => b.2.team == team && b.2.role == role && b.2.entry == entry with
  | some (n, b) =>
    if b.lanes.length ≥ 32 then none
    else
      let s := setCore s core { c with bins := tset c.bins n { b with lanes := b.lanes ++ [⟨leastFree (b.lanes.map (·.pos)) 32 0, args⟩] } }
      some (if b.lanes.length + 1 = 32 then tryLaunch s core n else s)
  | none =>
    let n := leastFree (c.bins.map (·.1)) 16 0
    if n ≥ 16 then none
    else
      let timer := (binTimer (kernelOf s team) entry).getD 1024
      some (setCore s core { c with bins := tset c.bins n ⟨team, role, entry, [⟨0, args⟩], some (s.cycle + timer), none⟩ })

/-- The parked SPAWNs of a core, in the order in which they issued (R45). -/
def parkedSpawns (s : State) (core : Nat) : List (Nat × Group) :=
  sortBy (fun a b => decide (a.2.waitSeq ≤ b.2.waitSeq))
    (s.groups.filter fun e => e.2.core == core && match e.2.wait with | .spawn _ => true | _ => false)

/-- One lane of the first of some parked SPAWNs that has a lane which fits enters its bin; its last lane completes the SPAWN. -/
def placeFirst (core : Nat) : List (Nat × Group) → State → Option State
  | [], _ => none
  | (gid, g) :: r, s =>
    match g.wait, g.spawnLeft with
    | .spawn entry, l :: left =>
      match placeSpawn s core g.team g.role entry l.args with
      | some s =>
        let s := setGroup s gid { g with spawnLeft := left }
        some (if left.isEmpty then leaveWait s gid else s)
      | none => placeFirst core r s
    | _, _ => placeFirst core r s

/-- The SPAWNs that parked on a core before the one with number `seq` place what fits, each time the earliest that can; the fuel is the
number of their lanes. -/
def placeEarlier (core seq : Nat) : Nat → State → State
  | 0, s => s
  | n + 1, s =>
    match placeFirst core ((parkedSpawns s core).filter fun e => decide (e.2.waitSeq < seq)) s with
    | some s => placeEarlier core seq n s
    | none => s

/-- Lanes of the SPAWNs that parked on a core before the one with number `seq`. -/
def earlierLanes (s : State) (core seq : Nat) : Nat :=
  ((parkedSpawns s core).filter fun e => decide (e.2.waitSeq < seq)).foldl (fun a e => a + e.2.spawnLeft.length) 0

/-- Spawning lanes enter in order until one does not fit; the rest are left (R45, R47). When a bin launches in between, SPAWNs of the
core that parked before the one with number `seq` come first. -/
def placeSpawns (core team role : Nat) (entry : DWord) (seq : Nat) : List BinLane → State → State × List BinLane
  | [], s => (s, [])
  | l :: r, s =>
    let bins := (getCore s core).bins.length
    match placeSpawn s core team role entry l.args with
    | some s =>
      let s := if (getCore s core).bins.length < bins then placeEarlier core seq (earlierLanes s core seq) s else s
      placeSpawns core team role entry seq r s
    | none => (s, l :: r)

/-- The lanes of one parked SPAWN that fit now enter their bin; with none left the SPAWN completes (R44, R47). -/
def resumeSpawn (s : State) (gid : Nat) : State :=
  match getGroup s gid with
  | none => s
  | some g =>
    match g.wait with
    | .spawn entry =>
      let (s, left) := placeSpawns g.core g.team g.role entry g.waitSeq g.spawnLeft s
      let s := setGroup s gid { g with spawnLeft := left }
      if left.isEmpty then leaveWait s gid else s
    | _ => s

/-- Bins whose timers have expired launch, and the parked SPAWNs of a core place what fits, in the order in which they issued
(R45–R47). -/
def resumeSpawns (s : State) (core : Nat) : State :=
  let s := expireBins s core
  ((parkedSpawns s core).map (·.1)).foldl resumeSpawn s

/-- SPAWN (R158, R159): lanes of earlier SPAWNs of the core enter before its own (R45). -/
def execSpawn (h : Hdr) (a : BitVec 8) (cnt : BitVec 3) (off : BitVec 24) (s : State) : Out :=
  issue s h false fun s gid g =>
    let len := instrLen h false
    let entry := g.pc + off.signExtend 64 * 8
    if (binTimer (kernelOf s g.team) entry).isNone
        || (decide (cnt ≠ 0) && decide (a.toNat + cnt.toNat > (roleOf s g).regs)) then raiseIllegal s gid g len
    else
      let part := takingPart g h .w32 s.cycle
      if part.isEmpty then finish s gid g 1 len
      else
        let lanes := part.map fun i => (⟨i, (List.range cnt.toNat).map fun k =>
          BitVec.ofNat 32 (readPlace g (.v (a.toNat + k)) i false (s.cycle + beatOffset .w32 part i))⟩ : BinLane)
        let s := releaseAt (resumeSpawns s g.core) g.core g.team .team
        let (s, left) := placeSpawns g.core g.team g.role entry s.nextId lanes s
        if left.isEmpty then finish s gid g (beatCount .w32 part) len
        else park (occupy s g (beatCount .w32 part)) gid { g with spawnLeft := left } len (.spawn entry)

/-- SPAWN_RESUME: the parked SPAWNs of the group's core place the lanes that fit now, the earliest issued first (R44, R45, R47). -/
def execSpawnResume (gid : Nat) (s : State) : Out :=
  match getGroup s gid with
  | none => .next s
  | some g =>
    match g.wait with
    | .spawn _ => .next (resumeSpawns s g.core)
    | _ => .next s

/-! ### REGROUP (R50–R55) -/

/-- REGROUP's cycles of waiting (R50). -/
def regroupWindow : Nat := 256

/-- The earliest group waiting at the same rendezvous that the arriving group may pair with (R51). -/
def regroupPartner (s : State) (gid : Nat) (g : Group) (pd : Nat) (mask : DWord) : Option (Nat × Group) :=
  let fits := s.groups.filter fun e =>
    e.1 != gid && e.2.team == g.team && e.2.role == g.role && e.2.pc == g.pc && e.2.wait == .regroup pd mask
      && decide (s.cycle < e.2.waitSince + regroupWindow)
      && decide (popNat 32 e.2.live.toNat + popNat 32 g.live.toNat ≤ 32)
      && decide ((roleOf s g).accs = 0)
  match fits with
  | [] => none
  | e :: r => some (r.foldl (fun b x => if x.2.waitSeq < b.2.waitSeq then x else b) e)

/-- The p-result of REGROUP in every live lane: interlocked (R160). -/
def writeRegroup (g : Group) (pd : Nat) (v : Nat) : Group :=
  (below 32 g.live.getLsbD).foldl (fun g i => setBase g (.p pd) i v) g

/-- Two groups are paired: each waits until the outstanding results of both have returned (R52). -/
def pairUp (s : State) (host donor pd : Nat) (mask : DWord) : State :=
  match getGroup s host, getGroup s donor with
  | some gh, some gd =>
    setGroup (setGroup s host { gh with wait := .paired host donor pd mask }) donor
      { gd with wait := .paired host donor pd mask }
  | _, _ => s

/-- REGROUP (R50–R53, R160). -/
def execRegroup (h : Hdr) (pd : BitVec 3) (mask : DWord) (s : State) : Out :=
  issue s h true fun s gid g =>
    let len := instrLen h true
    if !maskInRole (roleOf s g) mask then raiseIllegal s gid g len
    else
      let g := commitAll g s.cycle
      let beats := beatsOf g h .w32 s.cycle
      if !g.stack.isEmpty then finish s gid (writeRegroup g pd.toNat 0) beats len
      else
        let partner := regroupPartner s gid g pd.toNat mask
        let s := park (occupy s g beats) gid g len (.regroup pd.toNat mask)
        match partner with
        | none => s
        | some (y, gy) =>
          let host := if popNat 32 g.live.toNat > popNat 32 gy.live.toNat then gid else y
          pairUp s host (if host = gid then y else gid) pd.toNat mask

/-- The outstanding results of a group have returned, and no queue entry names it (R52, R405). -/
def resultsBack (s : State) (gid : Nat) (g : Group) : Bool :=
  decide (g.fixedBack ≤ s.cycle) && decide (g.lateBack ≤ s.cycle) && !ringOwes s gid g
    && !(getCore s g.core).mat.any fun e => e.gid == gid

/-- A pair whose migration may be performed (R52). -/
def pairReady (s : State) (host donor : Nat) : Bool :=
  match getGroup s host, getGroup s donor with
  | some gh, some gd => resultsBack s host gh && resultsBack s donor gd
  | _, _ => false

/-- One lane's cells moved into a position of another array, those named; the position's other cells are cleared
(R52). -/
def moveLane {w : Nat} (src dst : Cells w) (frm dest : Nat) (named : Nat → Bool) : Cells w :=
  (src.filter fun e => e.1 % 32 == frm && named (e.1 / 32)).foldr (fun e acc => cset acc (e.1 / 32 * 32 + dest) e.2)
    (ckeep dst fun k => k % 32 != dest)

/-- One donated lane takes a position of the host (R52). -/
def moveInto (mask : DWord) (donor : Group) (host : Group) (x : Nat × Nat) : Group :=
  let blk := fun (lo per : Nat) (i : Nat) => mask.getLsbD (lo + i / per)
  { host with
    v := moveLane donor.v host.v x.1 x.2 (blk 0 8)
    p := moveLane donor.p host.p x.1 x.2 fun i => mask.getLsbD (32 + i)
    c := moveLane donor.c host.c x.1 x.2 (blk 48 4)
    cap := moveLane donor.cap host.cap x.1 x.2 (blk 48 4)
    orig := cset host.orig x.2 (cget donor.orig x.1)
    rng := cset host.rng x.2 (cget donor.rng x.1)
    trapaddr := cset host.trapaddr x.2 0
    relOwed := cset host.relOwed x.2 (cget donor.relOwed x.1)
    lastLoad := match tget donor.lastLoad x.1 with | some l => tset host.lastLoad x.2 l | none => tdel host.lastLoad x.2 }

/-- The host with the donor's lanes in its exited positions, in order (R52, R53). -/
def takeLanes (mask : DWord) (pd : Nat) (gh gd : Group) : Group :=
  let pairs := (below 32 gd.live.getLsbD).zip (below 32 fun i => !gh.live.getLsbD i)
  let g := pairs.foldl (moveInto mask gd) { gh with o := [], l := [] }
  let live := gh.live ||| maskOf (pairs.map (·.2))
  writeRegroup { g with live := live, mask := live } pd 1

/-- REGROUP_MIGRATE: once both groups' results have returned, the donor's lanes move to the host's exited positions, and the donor
retires (R52, R53, R405). -/
def execRegroupMigrate (host donor : Nat) (s : State) : Out :=
  match getGroup s host, getGroup s donor with
  | some gh, some gd =>
    if gh.wait == gd.wait && pairReady s host donor then
      match gh.wait with
      | .paired h d pd mask =>
        if h = host ∧ d = donor then
          let g := takeLanes mask pd (commitAll gh s.cycle) (commitAll gd s.cycle)
          .next (retireGroup (leaveWait (setGroup s host g) host) donor)
        else .next s
      | _ => .next s
    else .next s
  | _, _ => .next s

/-! ### Group operations (R162–R166) -/

/-- A selector as it reads in one lane, whatever the side (R163). -/
def selInLane (g : Group) (uni : Bool) (lane now : Nat) (p : PSel) : Bool :=
  (if p.k then readPlace g (.g p.idx.toNat) 0 uni now == 1 else readPlace g (.p p.idx.toNat) lane uni now == 1) != p.neg

/-- The lanes of a list in which a selector holds, each read in the cycle of its beat. -/
def holdsIn (g : Group) (part : List Nat) (now : Nat) (p : PSel) : List Nat :=
  part.filter fun i => selInLane g false i (now + beatOffset .w32 part i) p

/-- VOTE into a predicate (R163). -/
def execVote (h : Hdr) (op : VoteOp) (d a : PSel) (s : State) : Out :=
  predOp s h .w32 8 [] d fun g part _ _ =>
    voteBit op (part.map fun i => selInLane g false i (s.cycle + beatOffset .w32 part i) a)

/-- VOTE `.mask` (R163). -/
def execVoteMask (h : Hdr) (below : Bool) (d : Dst) (a : PSel) (s : State) : Out :=
  dataOp s h false .w32 8 [] d false fun g part i _ =>
    if h.uni then (maskOf ((enabledLanes g).filter fun j => selInLane g true j s.cycle a)).toNat
    else
      let m := (maskOf (holdsIn g part s.cycle a)).toNat
      if below then m % 2 ^ i else m

/-- ELECT (R164). -/
def execElect (h : Hdr) (d : PSel) (s : State) : Out :=
  predOp s h .w32 8 [] d fun _ part i _ => part.head? == some i

/-- The lane SHFL reads from (R165). -/
def shflLane (op : ShflOp) (wrap : Bool) (i b : Nat) : Int :=
  let j : Int := match op with
    | .pick => ((b % 32 : Nat) : Int)
    | .back => (i : Int) - b
    | .ahead => (i : Int) + b
    | .flip => ((i ^^^ (b % 32) : Nat) : Int)
  if wrap then j % 32 else j

/-- SHFL (R165). -/
def execShfl (h : Hdr) (op : ShflOp) (wrap : Bool) (ty : Ty) (d : Dst) (a b : Src) (s : State) : Out :=
  dataOp s h false (widthOf ty.wide) 8 [(a, ty.wide), (b, false)] d ty.wide fun g part i t =>
    let src := fun k => readSrc g h k (s.cycle + beatOffset (widthOf ty.wide) part k) ty.bits a
    let j := shflLane op wrap i (readSrc g h i t 32 b)
    if 0 ≤ j ∧ j ≤ 31 ∧ part.contains j.toNat then src j.toNat else src i

/-- MATCH (R164). -/
def execMatchL (h : Hdr) (ty : Ty) (d : Dst) (a : Src) (s : State) : Out :=
  dataOp s h false (widthOf ty.wide) 8 [(a, ty.wide)] d false fun g part i _ =>
    let src := fun k => readSrc g h k (s.cycle + beatOffset (widthOf ty.wide) part k) ty.bits a
    (maskOf (part.filter fun j => src j == src i)).toNat

/-- PLOP (R166). -/
def execPlop (h : Hdr) (op : PlopOp) (d a b : PSel) (s : State) : Out :=
  predOp s h .w32 4 [] d fun g _ i t => plopBit op (readSel g h i t a) (readSel g h i t b)

/-! ### `fmt` (R168–R170) -/

/-- Whether a value may be written to `fmt` (R79–R81): FP16 is a code that MMA refuses for A (R100), not a reserved one. -/
def fmtLegal (v : Word) : Bool :=
  decide ((v.extractLsb' 28 4).toNat ≤ 7) && decide ((v.extractLsb' 24 4).toNat ≤ 7)
    && decide ((v.extractLsb' 21 2).toNat ≤ 1) && decide ((v.extractLsb' 18 3).toNat ≤ 3) && v.extractLsb' 0 16 == 0

/-- SETFMT, the value given by the lane it is read in (R169): legal values alone are written (R81). It takes the beats of a 32-bit
operation (R32). -/
def setfmtWith (s : State) (h : Hdr) (srcs : List (Src × Bool)) (val : Group → Nat → Nat → Word) : Out :=
  issue s h false fun s gid g =>
    let len := instrLen h false
    if !(srcs.all fun x => srcInRole (roleOf s g) x.2 x.1) then raiseIllegal s gid g len
    else
      let part := takingPart g h .w32 s.cycle
      let lane : Option Nat := if h.uni then (if uniGuard g h s.cycle then some 0 else none) else part.head?
      match lane with
      | none => finish s gid g 1 len
      | some i =>
        let v := val g i s.cycle
        if fmtLegal v then finish s gid { g with fmt := v } (beatsOf g h .w32 s.cycle) len else raiseIllegal s gid g len

/-- SETFMT with an immediate (R169). -/
def execSetfmtImm (h : Hdr) (imm : BitVec 24) (s : State) : Out :=
  setfmtWith s h [] fun _ _ _ => BitVec.ofNat 32 (imm.toNat * 256)

/-- SETFMT from a source (R169). -/
def execSetfmtReg (h : Hdr) (a : Src) (s : State) : Out :=
  setfmtWith s h [(a, false)] fun g i t => BitVec.ofNat 32 (readSrc g h i t 32 a)

/-- GETFMT (R170). -/
def execGetfmt (h : Hdr) (d : Dst) (s : State) : Out :=
  dataOp s h false .w32 4 [] d false fun g _ _ _ => g.fmt.toNat

/-! ### Special registers (R25, R30, R171, R458, R473) -/

/-- Cores of a partition that are active (R21, R484). -/
def activeCores (s : State) (p : Partition) : List Nat :=
  below 256 fun k => p.body.quads.getLsbD (k / 4) && !s.offCores.contains k

/-- `%census` as counted over cores and granules (R25, log 3). -/
def censusOf (s : State) (cores granules : List Nat) : Nat :=
  let ports := (List.range 9).foldl (fun a n => if s.offPorts.contains n then a else a + 2 ^ n) 0
  let crowns := (List.range 4).foldl
    (fun a c => if (below 64 fun k => !s.offCores.contains (64 * c + k)).isEmpty then a else a + 2 ^ c) 0
  let boughs := (below 32 fun b => cores.any fun k => k / 8 == b).length
  ports * 2 ^ 48 + crowns * 2 ^ 40 + 3 * granules.length * 2 ^ 32 + boughs * 2 ^ 26 + 32 * granules.length * 2 ^ 14
    + cores.length

/-- `%census` of a partition's groups. -/
def censusPart (s : State) (part : Nat) : Nat :=
  match tget s.parts part with
  | none => 0
  | some p => censusOf s (activeCores s p) (below 64 fun g => p.body.granules.getLsbD g && !s.offGranules.contains g)

/-- `%census` as the management core reads it. -/
def censusWhole (s : State) : Nat :=
  censusOf s (below 256 fun k => !s.offCores.contains k) (below 64 fun g => !s.offGranules.contains g)

/-- A special register as it reads in a lane; `lane` is none when no lane is enabled (R170, R171). -/
def sregRead (s : State) (g : Group) (num : Nat) (lane : Option Nat) : Nat :=
  let team := getTeam s g.team
  let core := getCore s g.core
  match num with
  | 0x000 => lane.getD 0
  | 0x001 => match lane with | some i => (cget g.orig i).toNat | none => 0
  | 0x002 => g.gnum % 32
  | 0x003 => g.role % 4
  | 0x004 => match team with | some t => t.index % 2 ^ 32 | none => 0
  | 0x005 => g.mask.toNat
  | 0x006 => g.live.toNat
  | 0x007 => (roleOf s g).groups
  | 0x008 => match gridOf s g with | some gr => gr.teams % 2 ^ 32 | none => 0
  | 0x010 => g.core % 256
  | 0x011 => censusPart s (whoOf s g).part
  | 0x012 => timeOf s % 2 ^ 64
  | 0x013 => match lane with | some i => (cget g.rng i).toNat | none => 0
  | 0x014 => match team with | some t => t.rows % 2 ^ 32 | none => 0
  | 0x015 => core.cbstall.toNat
  | 0x020 => (core.termc.getD 0 0).toNat
  | 0x021 => (core.termc.getD 1 0).toNat
  | 0x022 => (core.termc.getD 2 0).toNat
  | 0x023 => (core.termc.getD 3 0).toNat
  | 0x030 => match team with | some t => t.trapvec.toNat | none => 0
  | 0x031 => g.trapinfo.toNat
  | 0x032 => g.trappc.toNat
  | 0x033 => match lane with | some i => (cget g.trapaddr i).toNat | none => 0
  | _ => 0

/-- SREG (R170, R171, R473). -/
def execSreg (h : Hdr) (d : Dst) (num : BitVec 24) (s : State) : Out :=
  let wide := (sregWide num.toNat).getD false
  dataOp s h false (widthOf wide) 4 [] d wide fun g _ i _ =>
    sregRead s g num.toNat (if h.uni then lowestEnabled g else some i)

end Sys2Proof.Machine
end

