-- ==== Sys2Proof/Machine/Cursor.lean ====
section
/-! DEFINITION. Cursors: level records, stepping, seeking, merging, appending (spec/14_isa_cursors.md R351–R380). -/

namespace Sys2Proof.Machine

/-! ### Cursor state and level records (R351–R355) -/

/-- A cursor's fields (R355). -/
structure Cur where
  kind : Nat
  valid : Bool
  done : Bool
  append : Bool
  raddr : DWord
  pos : Nat
  lo : Nat
  hi : Nat
  crd : Nat
  aux : Nat
  deriving DecidableEq, Repr

/-- An invalid cursor (R31). -/
def Cur.none : Cur := ⟨0, false, false, false, 0, 0, 0, 0, 0, 0⟩

/-- The 256 bits of a cursor (R355). -/
def Cur.pack (c : Cur) : Nat :=
  c.kind % 8 + (if c.valid then 8 else 0) + (if c.done then 16 else 0) + (if c.append then 32 else 0)
    + c.raddr.toNat / 64 * 64 + c.pos % 2 ^ 48 * 2 ^ 64 + c.lo % 2 ^ 48 * 2 ^ 112 + c.hi % 2 ^ 48 * 2 ^ 160
    + c.crd % 2 ^ 32 * 2 ^ 208 + c.aux % 2 ^ 16 * 2 ^ 240

/-- The cursor of 256 bits (R355). -/
def Cur.unpack (v : Nat) : Cur :=
  let f := fun lo n => v / 2 ^ lo % 2 ^ n
  ⟨f 0 3, v.testBit 3, v.testBit 4, v.testBit 5, BitVec.ofNat 64 (f 6 58 * 64), f 64 48, f 112 48, f 160 48, f 208 32, f 240 16⟩

/-- A level record (R351, R352). -/
structure Lvl where
  ctl : Nat
  posa : Nat
  crda : Nat
  auxa : Nat
  val : Nat
  child : Nat
  heapdir : Nat
  rsv : Nat
  deriving DecidableEq, Repr

/-- The record of 64 bytes, as one number. -/
def Lvl.ofNat (v : Nat) : Lvl :=
  let f := fun k => v / 2 ^ (64 * k) % 2 ^ 64
  ⟨f 0, f 1, f 2, f 3, f 4, f 5, f 6, f 7⟩

/-- A field of the control word. -/
def Lvl.bits (l : Lvl) (lo n : Nat) : Nat := l.ctl / 2 ^ lo % 2 ^ n
/-- KIND. -/
def Lvl.kind (l : Lvl) : Nat := l.bits 0 3
/-- EXT. -/
def Lvl.ext (l : Lvl) : Nat := l.bits 32 32
/-- APP. -/
def Lvl.app (l : Lvl) : Bool := l.bits 7 1 == 1
/-- ORD. -/
def Lvl.ord (l : Lvl) : Bool := l.bits 5 1 == 1
/-- Coordinate width in bytes. -/
def Lvl.cw (l : Lvl) : Nat := if l.bits 17 2 = 0 then 2 else 4
/-- Value width in bytes; 0 for a refused format. -/
def Lvl.vw (l : Lvl) : Nat := match tyCode (l.bits 27 5) with | some t => t.bits / 8 | none => 0
/-- Block length. -/
def Lvl.blk (l : Lvl) : Nat := 2 ^ l.bits 19 4
/-- HEAP. -/
def Lvl.heap (l : Lvl) : Nat := l.bits 23 4
/-- Slots of a chunk (R372). -/
def Lvl.slots (l : Lvl) : Nat := 4072 / (l.cw + l.vw)

/-- Whether VFMT is accepted (R353). -/
def Lvl.fmtOk (l : Lvl) : Bool :=
  match tyCode (l.bits 27 5) with
  | some t => t.bits % 8 == 0
  | none => false

/-- Whether a captured record is legal (R354). DESIGN CHOICE (log 84): HEAP of a level with APP = 0, and CW of a dense or bitmap level,
may hold anything; the fields that a kind does not use are the record's addresses and BLK. -/
def Lvl.legal (l : Lvl) : Bool :=
  let k := l.kind
  let usesP := k != 0
  let usesC := k != 0 && k != 2
  let usesA := k == 2 || k == 4
  let usesV := !l.app
  decide (k ≤ 5) && decide (l.bits 17 2 ≤ 1) && l.bits 8 9 == 0 && l.bits 3 2 == 0 && l.rsv == 0 && l.ext != 0 && l.fmtOk
    && !(k == 3 && l.ord) && !(l.app && (k != 1 || l.child != 0))
    && !(k == 5 && decide (l.bits 19 4 > 10)) && !(k != 5 && l.bits 19 4 != 0)
    && (usesP || l.posa == 0) && (usesC || l.crda == 0) && (usesA || l.auxa == 0) && (usesV || l.val == 0)
    && (l.app || l.heapdir == 0)
    && l.posa % (if l.app then 16 else 8) == 0
    && l.crda % (if l.app then 4096 else l.cw) == 0
    && l.auxa % (if k == 2 then 8 else 2) == 0
    && l.val % l.vw == 0 && l.heapdir % 64 == 0

/-- Whether a cursor is ordered (R356). -/
def ordered (l : Lvl) : Bool := l.kind == 0 || l.kind == 2 || (l.kind != 3 && !l.app && l.ord)

/-! ### Reading for walkers (R227, R357, R361, R362) -/

/-- What a lane's cursor operation finds, in the classes of R380. -/
inductive CErr where
  | illegal
  | level
  | state
  | mis (va : DWord)
  | scope (va : DWord)
  | page (page cause : Nat)
  | bad (va : DWord)
  | exhausted (va : DWord)
  | lost (pa : Nat)
  deriving DecidableEq, Repr

/-- The order of a class (R380). DESIGN CHOICE (log 83): a codec line that cannot be expanded stands after the translation faults of
order 5 and before HEAP_EXHAUSTED of order 6, as R380 does not list BAD_BLOCK. -/
def CErr.rank : CErr → Nat
  | .illegal => 0 | .level => 2 | .state => 3 | .mis _ => 4 | .scope _ => 4 | .page _ _ => 5 | .bad _ => 6 | .exhausted _ => 7 | .lost _ => 8

/-- A record that a cursor of a lane has recaptured (R357). -/
structure Recapture where
  lane : Nat
  cur : Nat
  rcd : Nat
  now : Nat
  deriving DecidableEq, Repr

/-- A walker at work on one instruction: the device, who asks, the grid, the translations, records and codec lines of the
instruction, what its cursors have recaptured, the lane it works for, and the sectors of each lane's last read (R254). -/
structure Walker where
  s : State
  w : Who
  grid : Nat
  pages : PageMap
  recs : List (DWord × Nat)
  lines : Lines
  kept : List Recapture
  lane : Nat
  reads : Tab (List Nat)

/-- A walker that has done nothing yet. -/
def Walker.start (s : State) (g : Group) : Walker := ⟨s, whoOf s g, gridIdOf s g, [], [], [], [], 0, []⟩

/-- The leaves that the instruction has found. -/
def Walker.leaves (k : Walker) : Tab Leaf :=
  k.pages.filterMap fun e => match e.2 with | .ok l => some (e.1, l) | .error _ => none

/-- A walker's operation. -/
abbrev Wm := ExceptT CErr (StateM Walker)

/-- An operation's result or its error. -/
def tryWalk {α : Type} (m : Wm α) : Wm (Except CErr α) := tryCatch (do return .ok (← m)) fun e => pure (.error e)

/-- CURSOR_STATE is taken before any error of the operation but those of an earlier order (R380). -/
def stateUnless {α : Type} (ok : Bool) (m : Wm α) : Wm α := do
  match ← tryWalk m with
  | .ok a => if ok then pure a else throw .state
  | .error e => throw (if ok || e.rank < CErr.state.rank then e else .state)

/-- The error of the earliest order among those found in one lane (R380). -/
def firstErr (l : List (Option CErr)) : Option CErr :=
  (l.filterMap id).foldl (fun m e => match m with | some f => if e.rank < f.rank then some e else some f | none => some e) none

/-- The error of an operation, if it has one. -/
def errOf {α : Type} : Except CErr α → Option CErr
  | .ok _ => none
  | .error e => some e

/-- Two operations that need nothing of each other: both are performed, and the error of the earlier order is taken (R380). -/
def bothWalk {α β : Type} (m : Wm α) (n : Wm β) : Wm (α × β) := do
  let a ← tryWalk m
  let b ← tryWalk n
  match a, b with
  | .ok a, .ok b => pure (a, b)
  | .ok _, .error e => throw e
  | .error e, .ok _ => throw e
  | .error e, .error f => throw (if f.rank < e.rank then f else e)

/-- A sector read at home for a walker; none when it is poisoned there (R362, R489). -/
def walkHome (s : State) (core σ : Nat) : State × Option (BitVec 512) :=
  if s.mem.poison.contains σ then (s, none)
  else
    let (s, d) := homeRead (clearWay s core σ) σ
    (s, some d)

/-- A sector through the metadata cache: a copy that differs from memory may be returned while it is held (R227); none when the sector
is poisoned at home and no copy answers. -/
def metaSector (s : State) (core σ : Nat) : State × Option (BitVec 512) :=
  let fresh (s : State) : State × Option (BitVec 512) :=
    match walkHome s core σ with
    | (s, some d) => (putHeld s ⟨core, heldMeta, 0, σ, 0, bytesAt d 0 64⟩, some d)
    | x => x
  match findHeld s core heldMeta 0 σ 0 with
  | none => fresh s
  | some b =>
    let d : BitVec 512 := BitVec.ofNat 512 (leNat b)
    if d = coherentData s σ ∧ !s.mem.poison.contains σ then (s, some d)
    else
      let (s, k) := drawKeep s
      if k then (s, some d) else fresh s

/-- The error of an access that a walker makes at an address. -/
def walkErr (va : DWord) : XErr → CErr
  | .page c => .page va.toNat c
  | .lost pa => .lost pa
  | .bad => .bad va

/-- A translation of the instruction: each page once (R348). -/
def walkPage (va : DWord) : Wm Leaf := do
  let k ← get
  match k.pages.find? fun e => e.1 == va.toNat / 65536 with
  | some (_, .ok l) => pure l
  | some (_, .error e) => throw (walkErr va e)
  | none =>
    let (s, r) := translate k.s k.w va .read
    set { k with s := s, pages := (va.toNat / 65536, r) :: k.pages }
    match r with
    | .ok l => pure l
    | .error e => throw (walkErr va e)

/-- Bytes within one sector of a window of the team (R218, R240). -/
def walkWindow (b : Window) (va : DWord) (n : Nat) : Wm (List Byte) := do
  let c : Sec := ⟨true, va.toNat / 64, none, false⟩
  let b ← if (tget b.pages c.page).isSome then pure b else do
    let l ← walkPage va
    let k ← get
    let s := captureLate k.s k.w c.page l
    set { k with s := s }
    pure ((windowOf s b.core b.index).getD b)
  let k ← get
  let (s, r) := windowSectorRead k.s b (winSector b c) (wordsTouched (placeBytes (va.toNat % 64) (List.replicate n 0)).2) false
  set { k with s := s }
  match r with
  | .ok d => pure (bytesAt d (va.toNat % 64) n)
  | .error e => throw (walkErr va e)

/-- Bytes within one codec line, in its expanded view: each line is fetched once (R346, R348, R362). -/
def walkLine (pa : Nat) (va : DWord) (n : Nat) : Wm (List Byte) := do
  let k ← get
  let bytes (ws : List Nat) : List Byte := ((ws.flatMap (leBytes 4)).drop (pa % 256)).take n
  match k.lines.find? fun e => e.1 == pa / 256 with
  | some e => pure (bytes e.2)
  | none =>
    let (s, r) := fetchWords k.s k.w .uc (pa / 256) 15
    match r with
    | .ok ws =>
      set { k with s := s, lines := (pa / 256, ws) :: k.lines }
      pure (bytes ws)
    | .error e =>
      set { k with s := s }
      throw (walkErr va e)

/-- Bytes within one sector, as a walker reads them: through a window, the expanded view, at home on an SA page, else through the
metadata cache (R227, R233, R362). -/
def walkPiece (va : DWord) (n : Nat) : Wm (List Byte) := do
  let k ← get
  match secWindow k.s k.w ⟨true, va.toNat / 64, none, false⟩ with
  | some b => walkWindow b va n
  | none =>
    let l ← walkPage va
    let k ← get
    let pa := leafPa l va
    if l.cmp then walkLine pa va n
    else
      let (s, d) := if l.sa then walkHome k.s k.w.core (pa / 64) else metaSector k.s k.w.core (pa / 64)
      set { k with s := s }
      match d with
      | some d => pure (bytesAt d (pa % 64) n)
      | none => throw (.lost pa)

/-- The physical sector of an address that the walker has read (R254). -/
def Walker.sectorOf (k : Walker) (va : DWord) : List Nat :=
  let c : Sec := ⟨true, va.toNat / 64, none, false⟩
  match secWindow k.s k.w c with
  | some b => (windowPhys b (winSector b c)).toList
  | none => match tget k.leaves c.page with | some l => [leafPa l va / 64] | none => []

/-- What the lane now at work reads at these addresses is its last load (R253, R254). -/
def noteWalk (vas : List DWord) : Wm Unit :=
  modify fun k => { k with reads := tset k.reads k.lane (distinct (vas.flatMap k.sectorOf)) }

/-- `n` bytes, at most 64, as a number. -/
def walkRead (a : Nat) (n : Nat) : Wm Nat := do
  let va : DWord := BitVec.ofNat 64 a
  let room := 64 - va.toNat % 64
  if n ≤ room then
    let x ← walkPiece va n
    noteWalk [va]
    return leNat x
  else
    let vb := va + BitVec.ofNat 64 room
    let (x, y) ← bothWalk (walkPiece va room) (walkPiece vb (n - room))
    noteWalk [va, vb]
    return leNat (x ++ y)

/-- Kind number of held level records. -/
def heldLevel : Nat := 5

/-- The 64 bytes of a level record: one version for the instruction, through the record cache (R357). -/
def walkRecord (ra : DWord) : Wm Nat := do
  let k ← get
  match k.recs.find? fun e => e.1 == ra with
  | some (_, v) => pure v
  | none =>
    let take (v : Nat) : Wm Nat := do
      let k ← get
      set { k with s := putHeld k.s ⟨k.w.core, heldLevel, k.grid, ra.toNat, 0, leBytes 64 v⟩, recs := (ra, v) :: k.recs }
      pure v
    match findHeld k.s k.w.core heldLevel k.grid ra.toNat 0 with
    | none => do take (← walkRead ra.toNat 64)
    | some b =>
      let (s, keep) := drawKeep k.s
      set { k with s := s }
      if keep then take (leNat b) else do take (← walkRead ra.toNat 64)

/-- Captures a record: its bytes, and its address above them (R354, R357). -/
def captureRecord (ra : DWord) : Wm Nat := do
  if ra.toNat % 64 ≠ 0 then throw .level
  let v ← walkRecord ra
  if (Lvl.ofNat v).legal then pure (v % 2 ^ 512 + ra.toNat / 64 * 2 ^ 512) else throw .level

/-! ### Kinds (R358, R359, R372) -/

/-- P[i] (R353). -/
def readP (l : Lvl) (i : Nat) : Wm Nat := return (← walkRead (l.posa + 8 * i) 8) % 2 ^ 48

/-- C[i] (R353). -/
def readC (l : Lvl) (i : Nat) : Wm Nat := walkRead (l.crda + i * l.cw) l.cw

/-- Length of run i (R353). -/
def readRun (l : Lvl) (i : Nat) : Wm Nat := return (← walkRead (l.auxa + 2 * i) 2) + 1

/-- All ones of the coordinate width: an empty slot. -/
def Lvl.emptyKey (l : Lvl) : Nat := 2 ^ (8 * l.cw) - 1

/-- Address of a chunk of an appendable level (R372). -/
def chunkAddr (l : Lvl) (pos : Nat) : Nat := l.crda + pos / 1024 * 4096

/-- Address of a slot's coordinate. -/
def slotCrd (l : Lvl) (pos : Nat) : Nat := chunkAddr l pos + 16 + pos % 1024 * l.cw

/-- Address of a slot's value. -/
def slotVal (l : Lvl) (pos : Nat) : Nat := chunkAddr l pos + 16 + (l.slots * l.cw + 7) / 8 * 8 + pos % 1024 * l.vw

/-- The state of a cursor that has become done (R358). -/
def setDone (l : Lvl) (c : Cur) : Cur := { c with done := true, pos := c.hi, aux := 0, crd := l.ext }

/-- The lowest set bit of a number from bit `b` on, below 64. -/
def bitFrom (v : Nat) : Nat → Nat → Option Nat
  | 0, _ => none
  | n + 1, b => if v.testBit b then some b else bitFrom v n (b + 1)

/-- The lowest set bit ≥ c and < EXT of a bitmap row, one 64-bit word at a time (R358). -/
def nextBit (l : Lvl) (row : Nat) : Nat → Nat → Wm (Option Nat)
  | 0, _ => pure none
  | fuel + 1, c => do
    if c ≥ l.ext then return none
    let words := (l.ext + 63) / 64
    let v ← walkRead (l.auxa + 8 * (row * words + c / 64)) 8
    match bitFrom v (64 - c % 64) (c % 64) with
    | some b => return (if c / 64 * 64 + b < l.ext then some (c / 64 * 64 + b) else none)
    | none => nextBit l row fuel (c / 64 * 64 + 64)

/-- The lowest slot from `s` on, below HI, that is not empty (R358). -/
def nextSlot (l : Lvl) (hi : Nat) : Nat → Nat → Wm (Option (Nat × Nat))
  | 0, _ => pure none
  | fuel + 1, s => do
    if s ≥ hi then return none
    let c ← readC l s
    if c = l.emptyKey then nextSlot l hi fuel (s + 1) else return some (s, c)

/-- Positions from one to another, going up in 48 bits (R355). -/
def ahead (a b : Nat) : Nat := (b + 2 ^ 48 - a % 2 ^ 48) % 2 ^ 48

/-- Fuel that no walk exhausts: more steps than elements of any fibre. -/
def walkFuel : Nat := 2 ^ 80

/-- The cursor stands at an element of its kind at POS with AUX 0, or is done at HI (R358). -/
def standAt (l : Lvl) (c : Cur) : Wm Cur := do
  if c.pos = c.hi then return setDone l c
  match l.kind with
  | 0 => return { c with crd := ahead c.lo c.pos % 2 ^ 32 }
  | 1 =>
    let x ← if l.app then walkRead (slotCrd l c.pos) l.cw else readC l c.pos
    return { c with crd := x % 2 ^ 32 }
  | 3 =>
    match ← nextSlot l c.hi walkFuel c.pos with
    | some (s, x) => return { c with pos := s, crd := x % 2 ^ 32 }
    | none => return setDone l c
  | 4 => return { c with crd := ((← readC l c.pos) + c.aux) % 2 ^ 32 }
  | _ => return { c with crd := ((← readC l c.pos) * l.blk + c.aux) % 2 ^ 32 }

/-- Entry at the first element of the fibre of parent p (R358, R359, R372). -/
def enterFibre (l : Lvl) (ra : DWord) (p : Nat) : Wm Cur := do
  let base : Cur := ⟨l.kind, true, false, false, ra, 0, 0, 0, 0, 0⟩
  if l.kind = 0 then
    let lo := p * l.ext % 2 ^ 48
    standAt l { base with lo := lo, hi := (lo + l.ext) % 2 ^ 48, pos := lo }
  else if l.app then
    let (lo, hi) ← bothWalk (readP l (2 * p)) (readP l (2 * p + 1))
    standAt l { base with lo := lo, hi := hi, pos := lo }
  else
    let (lo, hi) ← bothWalk (readP l p) (readP l (p + 1))
    let hi := max lo hi
    if l.kind = 2 then
      let c := { base with lo := p % 2 ^ 48, hi := hi, pos := lo }
      if lo = hi then return setDone l c
      match ← nextBit l p walkFuel 0 with
      | some b => return { c with crd := b }
      | none => return setDone l c
    else standAt l { base with lo := lo, hi := hi, pos := lo }

/-- CNEXT (R358, R369, R372). DESIGN CHOICE (log 82): a LINK whose position is HI does not make the cursor done, as R372 tests HI before
it follows LINK. -/
def stepCursor (l : Lvl) (c : Cur) : Wm Cur := do
  if c.done then return c
  let p1 := (c.pos + 1) % 2 ^ 48
  match l.kind with
  | 2 =>
    if p1 = c.hi then return setDone l c
    match ← nextBit l c.lo walkFuel (c.crd + 1) with
    | some b => return { c with pos := p1, crd := b }
    | none => return setDone l c
  | 4 =>
    if c.aux + 1 < (← readRun l c.pos) then
      return { c with aux := c.aux + 1, crd := ((← readC l c.pos) + c.aux + 1) % 2 ^ 32 }
    standAt l { c with pos := p1, aux := 0 }
  | 5 =>
    if c.aux + 1 < l.blk then
      return { c with aux := c.aux + 1, crd := ((← readC l c.pos) * l.blk + c.aux + 1) % 2 ^ 32 }
    standAt l { c with pos := p1, aux := 0 }
  | _ =>
    if l.app && p1 != c.hi && p1 % 1024 == l.slots then
      let next := (← walkRead (chunkAddr l c.pos) 8) % 2 ^ 48
      return { c with pos := next, crd := (← walkRead (slotCrd l next) l.cw) % 2 ^ 32 }
    standAt l { c with pos := p1 }

/-- The seek of a compressed fibre: steps while POS < HI and C[POS] < t (R358). -/
def seekCrd (l : Lvl) (t : Nat) : Nat → Cur → Wm Cur
  | 0, c => pure c
  | fuel + 1, c => do
    if c.pos ≥ c.hi then return c
    let x ← readC l c.pos
    if x ≥ t then return { c with crd := x % 2 ^ 32 }
    if c.pos + 1 = c.hi then return setDone l c
    seekCrd l t fuel { c with pos := c.pos + 1 }

/-- The seek of a bitmap fibre from bit `b` on: the lowest set bit at or above `t`, POS advancing by the set bits passed (R358). -/
def seekBits (l : Lvl) (t : Nat) : Nat → Nat → Cur → Wm Cur
  | 0, _, c => pure c
  | fuel + 1, b, c => do
    match ← nextBit l c.lo walkFuel b with
    | none => return setDone l c
    | some b =>
      if b ≥ t then return { c with crd := b }
      if (c.pos + 1) % 2 ^ 48 = c.hi then return setDone l c
      seekBits l t fuel (b + 1) { c with pos := (c.pos + 1) % 2 ^ 48 }

/-- The forward scan of a seek within runs and blocks (R358, R359). -/
def seekLoop (l : Lvl) (t : Nat) : Nat → Cur → Wm Cur
  | 0, c => pure c
  | fuel + 1, c => do
    if c.done || decide (c.crd ≥ t) then return c
    seekLoop l t fuel (← stepCursor l c)

/-- CSEEK (R358, R369). -/
def seekCursor (l : Lvl) (c : Cur) (t : Nat) : Wm Cur := do
  if c.done then return c
  match l.kind with
  | 0 =>
    let here := if c.lo ≤ c.hi ∧ c.pos < c.lo then 0 else ahead c.lo c.pos
    let ext := ahead c.lo c.hi
    let there := max here t
    return (if here ≤ ext ∧ ext ≤ there then setDone l c
      else { c with pos := (c.lo + there) % 2 ^ 48, crd := there % 2 ^ 32 })
  | 1 => seekCrd l t walkFuel c
  | 2 => seekBits l t walkFuel c.crd c
  | _ => seekLoop l t walkFuel c

/-- Value position (R358). -/
def vpos (l : Lvl) (c : Cur) : Nat := if l.kind = 5 then c.pos * l.blk + c.aux else c.pos

/-- Address of the element's value (R371, R372). -/
def valueAddr (l : Lvl) (c : Cur) : DWord :=
  BitVec.ofNat 64 (if l.app then slotVal l c.pos else l.val + vpos l c * l.vw)

/-! ### Merging (R360, R370) -/

/-- The probe of a hashed fibre from slot `s` on (R360). -/
def probeLoop (l : Lvl) (lo hi c : Nat) : Nat → Nat → Wm (Option Nat)
  | 0, _ => pure none
  | n + 1, s => do
    let x ← readC l s
    if x = c % 2 ^ (8 * l.cw) then return some s
    if x = l.emptyKey then return none
    probeLoop l lo hi c n (if (s + 1) % 2 ^ 48 = hi then lo else (s + 1) % 2 ^ 48)

/-- The probe (R360). -/
def probe (l : Lvl) (c : Cur) (crd : Nat) : Wm (Option Nat) :=
  let n := ahead c.lo c.hi
  if n = 0 then pure none else probeLoop l c.lo c.hi crd n ((c.lo + crd * 0x9E3779B1 % 2 ^ 32 % n) % 2 ^ 48)

/-- The loop of CISEC (R370). -/
def isecLoop (la lb : Lvl) : Nat → Cur → Cur → Wm (Cur × Cur)
  | 0, a, b => pure (a, b)
  | fuel + 1, a, b => do
    let hashed := lb.kind == 3
    if a.done || (!hashed && b.done) then return (setDone la a, if hashed then b else setDone lb b)
    else if hashed then
      match ← probe lb b a.crd with
      | some s => return (a, { b with pos := s, crd := a.crd })
      | none => isecLoop la lb fuel (← stepCursor la a) b
    else if a.crd = b.crd then return (a, b)
    else if a.crd < b.crd then isecLoop la lb fuel (← seekCursor la a b.crd) b
    else isecLoop la lb fuel a (← seekCursor lb b a.crd)

/-- CISEC (R370): a hashed CB is left unchanged when no probe hits. -/
def isec (la lb : Lvl) (step : Bool) (a b : Cur) : Wm (Cur × Cur) := do
  let (a', b') ← bothWalk (if step then stepCursor la a else pure a) (if step && lb.kind != 3 then stepCursor lb b else pure b)
  isecLoop la lb walkFuel a' b'

/-- CUNION (R370). -/
def union (la lb : Lvl) (step : Bool) (a b : Cur) : Wm (Cur × Cur) := do
  if !step || (a.done && b.done) then return (a, b)
  let u := if a.done then b.crd else if b.done then a.crd else min a.crd b.crd
  bothWalk (if !a.done && a.crd == u then stepCursor la a else pure a) (if !b.done && b.crd == u then stepCursor lb b else pure b)

/-! ### The frame of a cursor instruction (R363, R365, R380) -/

/-- What one lane's operation gives: cursors written with their captured records, a flag, a register value, bytes to be
written. -/
structure LaneOut where
  curs : List (Nat × Nat × Nat)
  flag : Bool
  val : Nat
  wide : Bool
  writes : List (DWord × List Byte)
  deriving DecidableEq, Repr

/-- Nothing written. -/
def LaneOut.empty : LaneOut := ⟨[], false, 0, false, []⟩

/-- One lane's reading of its group. -/
structure LaneCtx where
  g : Group
  h : Hdr
  lane : Nat
  now : Nat

/-- The cursor a lane holds. -/
def LaneCtx.cur (x : LaneCtx) (i : Nat) : Cur := Cur.unpack (readPlace x.g (.c i) x.lane false x.now)

/-- A lane's source. -/
def LaneCtx.src (x : LaneCtx) (bits : Nat) (a : Src) : Nat := readSrc x.g x.h x.lane x.now bits a

/-- A valid cursor's record: the captured one, else recaptured, and kept (R357). -/
def LaneCtx.record (x : LaneCtx) (i : Nat) (c : Cur) : Wm Nat := do
  let v := readPlace x.g (.cap i) x.lane false x.now
  if v ≠ 0 then return v
  let v ← captureRecord c.raddr
  let k ← get
  set { k with kept := ⟨x.lane, i, v, x.now⟩ :: k.kept }
  return v

/-- A valid cursor with its record, and what `early` finds in the level: the errors of `early` of an earlier order are taken before a
mode that is not `ok` and before a recaptured record of another KIND (R378, R380). -/
def LaneCtx.taken {α : Type} (x : LaneCtx) (i : Nat) (ok : Cur → Bool) (early : Lvl → Wm α) : Wm (Cur × Nat × α) := do
  let c := x.cur i
  if !c.valid then throw .state
  stateUnless (ok c) do
    let v ← x.record i c
    let a ← stateUnless ((Lvl.ofNat v).kind == c.kind) (early (Lvl.ofNat v))
    return (c, v, a)

/-- A source cursor in read mode with its record, and what `early` finds (R380). -/
def LaneCtx.readWith (x : LaneCtx) (i : Nat) (early : Lvl → Wm Unit) : Wm (Cur × Nat) := do
  let (c, v, _) ← x.taken i (fun c => !c.append) early
  return (c, v)

/-- A source cursor in read mode with its record (R380). -/
def LaneCtx.readCur (x : LaneCtx) (i : Nat) : Wm (Cur × Nat) := x.readWith i fun _ => pure ()

/-- An append cursor with its record, and what `early` finds (R380). -/
def LaneCtx.appWith (x : LaneCtx) (i : Nat) (early : Lvl → Wm Unit) : Wm (Cur × Nat) := do
  let (c, v, _) ← x.taken i (fun c => c.append) early
  return (c, v)

/-- An append cursor with its record (R380). -/
def LaneCtx.appCur (x : LaneCtx) (i : Nat) : Wm (Cur × Nat) := x.appWith i fun _ => pure ()

/-- A condition of order 1 or 2 is met (R380). -/
def throwIf (b : Bool) (e : CErr) : Wm Unit := do if b then throw e

/-- Every lane's operation, in order; the walker goes on after a lane's error (R380), and remembers each lane's last read (R254). -/
def runLanes (f : Nat → Wm LaneOut) : List Nat → Walker → List (Nat × Except CErr LaneOut) →
    Walker × List (Nat × Except CErr LaneOut)
  | [], k, acc => (k, acc.reverse)
  | i :: r, k, acc =>
    let (x, k) := ((f i).run { k with lane := i } : Except CErr LaneOut × Walker)
    runLanes f r k ((i, x) :: acc)

/-- The errors of lanes. -/
def laneErrors (l : List (Nat × Except CErr LaneOut)) : List (Nat × CErr) :=
  l.filterMap fun x => match x.2 with | .error e => some (x.1, e) | .ok _ => none

/-- The first class of R380 among the lanes' errors, as it is taken; every outstanding result of the group is due first
when the group parks (R363). -/
def takeCErr (s : State) (gid : Nat) (g : Group) (len : Nat) (errs : List (Nat × CErr)) : State :=
  let best := errs.foldl (fun m e => min m e.2.rank) 99
  let mine := errs.filter fun e => e.2.rank == best
  let lanes := maskOf (mine.map (·.1))
  let at_ (f : CErr → DWord) : List (Nat × DWord) := mine.map fun e => (e.1, f e.2)
  let gc := commitAll g s.cycle
  match mine with
  | [] => s
  | (_, e) :: _ =>
    match e with
    | .illegal => raiseIllegal s gid g len
    | .level => raise s gid g len ⟨5, 0, 0, lanes, []⟩
    | .state => raise s gid g len ⟨6, 0, 0, lanes, []⟩
    | .mis _ => raise s gid g len ⟨10, 0, 0, lanes, at_ fun e => match e with | .mis v => v | .scope v => v | _ => 0⟩
    | .scope _ => raise s gid g len ⟨11, 0, 0, lanes, at_ fun e => match e with | .mis v => v | .scope v => v | _ => 0⟩
    | .page _ _ =>
      let all := mine.filterMap fun e => match e.2 with | .page a c => some (e.1, a, c) | _ => none
      let ps := distinct (all.map fun e => (e.2.1 / 65536, e.2.2))
      pageFault s gid gc len (ps.map fun p =>
        let here := all.filter fun e => e.2.1 / 65536 == p.1 && e.2.2 == p.2
        ((here.map fun e => e.2.1).headD (p.1 * 65536), p.2, maskOf (here.map (·.1))))
    | .bad _ => raise s gid g len ⟨8, 0, 0, lanes, at_ fun e => match e with | .bad v => v | _ => 0⟩
    | .exhausted _ => raise s gid gc len ⟨2, 0, 0, lanes, at_ fun e => match e with | .exhausted v => v | _ => 0⟩
    | .lost _ => raise s gid g len ⟨15, 1, 0, lanes, at_ fun e => match e with | .lost pa => BitVec.ofNat 64 pa | _ => 0⟩

/-- The captured records that the cursors of a core pin, each by its grid, address and bytes (R357). -/
def pinned (s : State) (core : Nat) : Nat :=
  (distinct ((groupsOn s core).flatMap fun e =>
    let grid := gridIdOf s e.2
    (e.2.cap.map fun c => (grid, c.2.toNat))
      ++ (e.2.pend.filterMap fun p => match p.place with | .cap _ => if p.val = 0 then none else some (grid, p.val) | _ => none))).length

/-- Whether a core's capture entries hold what its groups pin once the group is as given (R357). -/
def capturesFit (s : State) (gid : Nat) (g : Group) : Bool := decide (pinned (setGroup s gid g) g.core ≤ 512)

/-- A recaptured record joins its cursor where the cursor's value stands, without a result of its own (R357). -/
def keepRecord (g : Group) (r : Recapture) : Group :=
  let here (e : Pend) : Bool := e.at (.cap r.cur) r.lane && e.seen false r.now
  if g.pend.any here then { g with pend := mapFirst here (fun e => { e with val := r.rcd }) g.pend }
  else setBase g (.cap r.cur) r.lane r.rcd

/-- One lane's results are written: cursors, the flag, and a register under `d` (R363, R75). -/
def writeLaneOut (h : Hdr) (pd : BitVec 3) (d : Option Dst) (now : Nat) (part : List Nat) (g : Group) (x : Nat × LaneOut) :
    Group :=
  let t := now + beatOffset .w32 part x.1
  let g := x.2.curs.foldl (fun g c =>
    writePlace (writePlace g .variable h.ver false t (.c c.1) x.1 c.2.1) .variable h.ver false t (.cap c.1) x.1 c.2.2) g
  let g := writeSel g h .variable t ⟨false, false, pd⟩ x.1 x.2.flag
  match d with
  | some d => writeLane g .variable h.ver t d x.2.wide x.1 x.2.val
  | none => g

/-- The results of the lanes that met no error. -/
def laneOks (l : List (Nat × Except CErr LaneOut)) : List (Nat × LaneOut) :=
  l.filterMap fun x => match x.2 with | .ok o => some (x.1, o) | .error _ => none

/-- What lanes write, as .wt writes (R362). -/
def laneWrites (oks : List (Nat × LaneOut)) : List (Item × List Byte) :=
  oks.flatMap fun x => x.2.writes.map fun w => ((⟨x.1, .glob w.1, w.2.length, some .wt, false⟩ : Item), w.2)

/-- The errors that the translations of an access found, lane by lane (R380). -/
def pageErrs (k : Checked) (ps : List Item) : List (Nat × CErr) :=
  (k.bad.flatMap fun b => (below 32 b.2.2.getLsbD).map fun i => (i, .page b.1 b.2.1))
    ++ match walkLost k.map with
      | some pa => (walkLanes ps k.map).map fun i => (i, .lost pa)
      | none => []

/-- A cursor instruction: every lane's operation, then its writes, then its results (R362, R363, R380); it parks when the records
captured do not fit (R357). -/
def cursorOp (s : State) (h : Hdr) (curs : List (BitVec 4)) (srcs : List (Src × Bool)) (d : Option Dst) (pd : BitVec 3)
    (wide : Group → List Nat → Bool) (f : LaneCtx → Wm LaneOut) : Out :=
  issue s h false fun s gid g =>
    let len := instrLen h false
    let r := roleOf s g
    let part := takingPart g h .w32 s.cycle
    if !(curs.all fun c => decide (c.toNat < r.curs)) || !(srcs.all fun x => srcInRole r x.2 x.1)
        || !(match d with | some d => dstInRole r false (wide g part) d | none => true) then raiseIllegal s gid g len
    else if part.isEmpty then finish s gid g 1 len
    else
      let s := occupy s g (beatCount .w32 part)
      let (k, outs) := runLanes (fun i => f ⟨g, h, i, s.cycle + beatOffset .w32 part i⟩) part (Walker.start s g) []
      let oks := laneOks outs
      let w := whoOf s g
      let ps := splitWrites k.s w (laneWrites oks)
      let (s, chk) := checkAccessKnown k.s w .write k.leaves (ps.map (·.1))
      let errs := laneErrors outs ++ pageErrs chk (ps.map (·.1))
      let g' := noteLoad (oks.foldl (writeLaneOut h pd d s.cycle part) (k.kept.foldl keepRecord g)) k.reads
      if !errs.isEmpty then takeCErr s gid g len errs
      else if !capturesFit s gid g' then park s gid g len .capture
      else
        let wrote := (oks.filter fun x => !x.2.writes.isEmpty).map (·.1)
        let (s, res) := writeMapped s w chk.map (storeReleases g .rlx .team wrote) ps
        match res with
        | .trouble t => takeTrouble s gid g len t
        | .codec => storeBadBlock s g
        | .done => setGroup s gid (advance (payOwed g' wrote) len)

/-! ### Reads of cursor instructions through L1 (R362) -/

/-- The lanes' errors that stopped an access. -/
def troubleErrs (lanes : List Nat) : Trouble → List (Nat × CErr)
  | .pages l => l.flatMap fun b => (below 32 b.2.2.getLsbD).map fun i => (i, .page b.1 b.2.1)
  | .raise r =>
    (lanes.filter fun i => r.lanes.getLsbD i).map fun i =>
      let a : DWord := match r.addrs.find? fun e => e.1 == i with | some e => e.2 | none => 0
      (i, if r.cls = 15 then .lost a.toNat else .bad a)

/-- Reads one run a lane, each through L1 under its page's request type; a lane whose run cannot be read is left out and the others are
read again. -/
def readLanes (w : Who) (m : PageMap) : Nat → List (Nat × List Item) → State → List (Nat × CErr) →
    State × List (Nat × CErr) × List (Nat × List Byte)
  | 0, _, s, errs => (s, errs, [])
  | fuel + 1, split, s, errs =>
    match readMapped s w m 15 false (split.map (·.2)) with
    | (s, .ok bytes) => (s, errs, (split.map (·.1)).zip bytes)
    | (s, .error t) =>
      let bad := troubleErrs (split.map (·.1)) t
      if bad.isEmpty then (s, errs, [])
      else readLanes w m fuel (split.filter fun x => !(bad.any fun e => e.1 == x.1)) s (errs ++ bad)

/-- One run a lane, read for a cursor instruction: the errors of lanes, the bytes of the others, and the sectors read (R254, R362,
R380). -/
def laneReads (s : State) (w : Who) (known : Tab Leaf) (items : List Item) :
    State × List (Nat × CErr) × List (Nat × List Byte) × Tab (List Nat) :=
  let split := items.map fun x => (x.lane, piecesOf s w x)
  let ps := split.flatMap (·.2)
  let (s, chk) := checkAccessKnown s w .read known ps
  let errs := pageErrs chk ps
  let (s, errs, got) := readLanes w chk.map (split.length + 1) (split.filter fun x => !(errs.any fun e => e.1 == x.1)) s errs
  (s, errs, got, laneSectors s w chk.map ps)

/-! ### Meanings -/

/-- A destination cursor with its record. -/
def curOut (i : BitVec 4) (c : Cur) (rec : Nat) : Nat × Nat × Nat := (i.toNat, c.pack, if c.valid then rec else 0)

/-- A cursor opened for appending (R355, R367). -/
def appendCur (l : Lvl) (ra : DWord) (p : Nat) : Cur := ⟨l.kind, true, false, true, ra, 0, 0, p, 0, 0⟩

/-- CINIT (R367). -/
def cinitOp (s : State) (x : CinitOp) (app : Bool) : Out :=
  cursorOp s x.h [x.cd] [(x.addr, true), (x.ppos, false)] none x.pd (fun _ _ => false) fun c => do
    let ra := BitVec.ofNat 64 (c.src 64 x.addr)
    let p := c.src 32 x.ppos
    let v ← captureRecord ra
    let l := Lvl.ofNat v
    if app then
      if !l.app then throw .state
      return { LaneOut.empty with curs := [curOut x.cd (appendCur l ra p) v], flag := true }
    else
      let cur ← enterFibre l ra p
      return { LaneOut.empty with curs := [curOut x.cd cur v], flag := !cur.done }

/-- CINIT (R367). -/
def execCinit (x : CinitOp) (s : State) : Out := cinitOp s x false

/-- CINIT `.app` (R367). -/
def execCinitApp (x : CinitOp) (s : State) : Out := cinitOp s x true

/-- CNEXT (R369). -/
def execCnext (h : Hdr) (ca : BitVec 4) (pd : BitVec 3) (s : State) : Out :=
  cursorOp s h [ca] [] none pd (fun _ _ => false) fun c => do
    let (cur, v) ← c.readCur ca.toNat
    let cur ← stepCursor (Lvl.ofNat v) cur
    return { LaneOut.empty with curs := [curOut ca cur v], flag := !cur.done }

/-- CSEEK (R369). -/
def execCseek (h : Hdr) (ca : BitVec 4) (t : Src) (pd : BitVec 3) (s : State) : Out :=
  cursorOp s h [ca] [(t, false)] none pd (fun _ _ => false) fun c => do
    let (cur, v) ← c.readCur ca.toNat
    if !ordered (Lvl.ofNat v) then throw .state
    let cur ← seekCursor (Lvl.ofNat v) cur (c.src 32 t)
    return { LaneOut.empty with curs := [curOut ca cur v], flag := !cur.done }

/-- CDESC (R368). -/
def cdescOp (s : State) (x : CdescOp) (app : Bool) : Out :=
  cursorOp s x.h [x.cd, x.ca] [] none x.pd (fun _ _ => false) fun c => do
    let (cur, v, w) ← c.taken x.ca.toNat (fun cur => !cur.append && !(app && cur.done)) fun l => do
      if l.child = 0 then throw .level
      let w ← captureRecord (BitVec.ofNat 64 l.child)
      if app && !(Lvl.ofNat w).app then throw .state
      return w
    let l := Lvl.ofNat v
    let ra := BitVec.ofNat 64 l.child
    let ch := Lvl.ofNat w
    let new ←
      if app then pure (appendCur ch ra (vpos l cur))
      else if cur.done then pure ⟨ch.kind, true, true, false, ra, 0, 0, 0, ch.ext, 0⟩
      else enterFibre ch ra (vpos l cur)
    return { LaneOut.empty with curs := [curOut x.cd new w], flag := !new.done }

/-- CDESC (R368). -/
def execCdesc (x : CdescOp) (s : State) : Out := cdescOp s x false

/-- CDESC `.app` (R368). -/
def execCdescApp (x : CdescOp) (s : State) : Out := cdescOp s x true

/-- The two cursors of a merge with their records, in the order of R380: their kinds must be those of R370. -/
def mergeCurs (c : LaneCtx) (ca cb : BitVec 4) (isUnion : Bool) : Wm ((Cur × Nat) × (Cur × Nat)) := do
  let a ← tryWalk (c.readCur ca.toNat)
  let b ← tryWalk (c.readCur cb.toNat)
  let okA := match a with | .ok x => ordered (Lvl.ofNat x.2) | .error _ => true
  let okB := match b with
    | .ok x => ordered (Lvl.ofNat x.2) || (!isUnion && (Lvl.ofNat x.2).kind == 3)
    | .error _ => true
  match firstErr [errOf a, errOf b, if ca = cb || !okA || !okB then some .state else none] with
  | some e => throw e
  | none =>
    match a, b with
    | .ok a, .ok b => return (a, b)
    | _, _ => throw .state

/-- CISEC and CUNION (R370). -/
def cmergeOp (s : State) (x : CmergeOp) (isUnion : Bool) : Out :=
  cursorOp s x.h [x.ca, x.cb] [] none x.pd (fun _ _ => false) fun c => do
    let ((a, va), (b, vb)) ← mergeCurs c x.ca x.cb isUnion
    let la := Lvl.ofNat va
    let lb := Lvl.ofNat vb
    let (a, b) ← if isUnion then union la lb x.step a b else isec la lb x.step a b
    return { LaneOut.empty with
      curs := [curOut x.ca a va, curOut x.cb b vb], flag := if isUnion then !(a.done && b.done) else !a.done }

/-- CISEC (R370). -/
def execCisec (x : CmergeOp) (s : State) : Out := cmergeOp s x false

/-- CUNION (R370). -/
def execCunion (x : CmergeOp) (s : State) : Out := cmergeOp s x true

/-- CCRD (R371). -/
def execCcrd (x : CreadOp) (s : State) : Out :=
  cursorOp s x.h [x.ca] [] (some x.d) 7 (fun _ _ => false) fun c => do
    let (cur, _) ← c.readCur x.ca.toNat
    return { LaneOut.empty with val := cur.crd }

/-- CPOS (R371). -/
def execCpos (x : CreadOp) (s : State) : Out :=
  cursorOp s x.h [x.ca] [] (some x.d) 7 (fun _ _ => true) fun c => do
    let (cur, v) ← c.readCur x.ca.toNat
    return { LaneOut.empty with
      val := if cur.done then 2 ^ 64 - 1 else vpos (Lvl.ofNat v) cur % 2 ^ 64, wide := true }

/-- A register field that names an odd index, or the last register, cannot hold a pair (R70). -/
def oddSrc : Src → Bool
  | .v i => i.getLsbD 0
  | .o i => i.getLsbD 0
  | _ => false

/-- A destination that cannot hold a pair (R70, R73). -/
def oddDst : Dst → Bool
  | .v i | .hi i => i.getLsbD 0
  | .o i => i.getLsbD 0
  | .l => false

/-- CVAL reads through L1 under the page's request type (R362, R371). -/
def execCval (x : CreadOp) (s : State) : Out :=
  issue s x.h false fun s gid g =>
    let len := instrLen x.h false
    let r := roleOf s g
    let part := takingPart g x.h .w32 s.cycle
    if x.ca.toNat ≥ r.curs ∨ !dstInRole r false false x.d then raiseIllegal s gid g len
    else if part.isEmpty then finish s gid g 1 len
    else
      let s := occupy s g (beatCount .w32 part)
      let ctx := fun i => (⟨g, x.h, i, s.cycle + beatOffset .w32 part i⟩ : LaneCtx)
      let (k, outs) := runLanes (fun i => do
        let (_, v) ← (ctx i).readWith x.ca.toNat fun l =>
          throwIf (l.vw == 8 && (oddDst x.d || !dstInRole r false true x.d)) .illegal
        return { LaneOut.empty with val := v }) part (Walker.start s g) []
      let cells := (laneOks outs).map fun o => (o.1, (ctx o.1).cur x.ca.toNat, Lvl.ofNat o.2.val)
      let live := cells.filter fun e => !e.2.1.done
      let (s, bad, got, secs) := laneReads k.s (whoOf s g) k.leaves
        (live.map fun e => ⟨e.1, .glob (valueAddr e.2.2 e.2.1), e.2.2.vw, none, false⟩)
      let errs := laneErrors outs ++ bad
      let g' := cells.foldl (fun g e =>
        let b := match got.find? fun v => v.1 == e.1 with | some v => leNat v.2 | none => 0
        writeLaneOut x.h 7 (some x.d) s.cycle part g (e.1, { LaneOut.empty with val := b, wide := e.2.2.vw == 8 }))
        (k.kept.foldl keepRecord g)
      if !errs.isEmpty then takeCErr s gid g len errs
      else if !capturesFit s gid g' then park s gid g len .capture
      else setGroup s gid (advance (noteLoad (noteLoad g' k.reads) secs) len)

/-- CSTV (R371): a 64-bit value is a register pair (R70). -/
def execCstv (h : Hdr) (ca : BitVec 4) (a : Src) (s : State) : Out :=
  cursorOp s h [ca] [(a, false)] none 7 (fun _ _ => false) fun c => do
    let r := roleOf (← get).s c.g
    let (cur, v) ← c.readWith ca.toNat fun l => throwIf (l.vw == 8 && (oddSrc a || !srcInRole r true a)) .illegal
    let l := Lvl.ofNat v
    let n := l.vw
    return { LaneOut.empty with
      writes := if cur.done then [] else [(valueAddr l cur, leBytes n (c.src (if n = 8 then 64 else 32) a))] }

/-- CFIN (R375): the entry is one 16-byte datum, and the cursor becomes invalid. -/
def execCfin (h : Hdr) (ca : BitVec 4) (s : State) : Out :=
  cursorOp s h [ca] [] none 7 (fun _ _ => false) fun c => do
    let (cur, v) ← c.appCur ca.toNat
    let l := Lvl.ofNat v
    let pair := if cur.aux % 2 = 0 then (0, 0) else (cur.lo, cur.pos)
    return { LaneOut.empty with
      curs := [curOut ca Cur.none 0]
      writes := [(BitVec.ofNat 64 (l.posa + 16 * cur.hi), leBytes 8 pair.1 ++ leBytes 8 pair.2)] }

/-- CDONE (R371). -/
def execCdone (h : Hdr) (ca : BitVec 4) (pd : BitVec 3) (s : State) : Out :=
  cursorOp s h [ca] [] none pd (fun _ _ => false) fun c => do
    let (cur, _) ← c.readCur ca.toNat
    return { LaneOut.empty with flag := cur.done }

/-- CMOV (R377): an append cursor moves. -/
def execCmov (h : Hdr) (cd ca : BitVec 4) (s : State) : Out :=
  cursorOp s h [cd, ca] [] none 7 (fun _ _ => false) fun c => do
    let cur := c.cur ca.toNat
    let v := readPlace c.g (.cap ca.toNat) c.lane false c.now
    let gone := if cur.valid && cur.append && decide (cd ≠ ca) then [curOut ca Cur.none 0] else []
    return { LaneOut.empty with curs := gone ++ [(cd.toNat, cur.pack, v)] }

/-- Address of a cursor image (R366, R378). -/
def imageAddr (c : LaneCtx) (base : Src) (off : BitVec 10) : DWord :=
  BitVec.ofNat 64 (c.src 64 base) + off.signExtend 64 * 32

/-- CSAVE (R378). -/
def execCsave (h : Hdr) (ca : BitVec 4) (base : Src) (off : BitVec 10) (s : State) : Out :=
  cursorOp s h [ca] [(base, true)] none 7 (fun _ _ => false) fun c => do
    let va := imageAddr c base off
    if va.toNat % 32 ≠ 0 then throw (.mis va)
    let cur := c.cur ca.toNat
    let gone := if cur.valid && cur.append then [curOut ca Cur.none 0] else []
    return { LaneOut.empty with curs := gone, writes := [(va, leBytes 32 cur.pack)] }

/-- Whether an image can be restored (R378). -/
def imageOk (c : Cur) : Bool := !c.valid || (decide (c.kind ≤ 5) && !(c.append && decide (c.aux > 1)))

/-- CREST (R362, R378): the record is recaptured at the cursor's next use. -/
def execCrest (h : Hdr) (cd : BitVec 4) (base : Src) (off : BitVec 10) (s : State) : Out :=
  issue s h false fun s gid g =>
    let len := instrLen h false
    let r := roleOf s g
    let part := takingPart g h .w32 s.cycle
    if cd.toNat ≥ r.curs ∨ !srcInRole r true base then raiseIllegal s gid g len
    else if part.isEmpty then finish s gid g 1 len
    else
      let s := occupy s g (beatCount .w32 part)
      let eas := part.map fun i => (i, imageAddr ⟨g, h, i, s.cycle + beatOffset .w32 part i⟩ base off)
      let odd := eas.filter fun e => e.2.toNat % 32 != 0
      let (s, bad, got, secs) := laneReads s (whoOf s g) []
        ((eas.filter fun e => e.2.toNat % 32 == 0).map fun e => ⟨e.1, .glob e.2, 32, none, false⟩)
      let curs := got.map fun x => (x.1, Cur.unpack (leNat x.2))
      let errs := ((curs.filter fun x => !imageOk x.2).map fun x => (x.1, CErr.state)) ++ odd.map (fun e => (e.1, .mis e.2)) ++ bad
      if !errs.isEmpty then takeCErr s gid g len errs
      else
        let g' := curs.foldl (fun g x =>
          writeLaneOut h 7 none s.cycle part g
            (x.1, { LaneOut.empty with curs := [(cd.toNat, (if x.2.valid then x.2.pack else 0), 0)] })) g
        setGroup s gid (advance (noteLoad g' secs) len)

/-- Reads ahead what CPREF names: the next `n` sectors of the fibre's bitmap, coordinates and runs; a failure ends it in silence
(R379). -/
def prefetchFibre (l : Lvl) (c : Cur) (n : Nat) : Wm Unit := do
  let arrays : List Nat := match l.kind with
    | 0 => []
    | 2 => [l.auxa + 8 * (c.lo * ((l.ext + 63) / 64) + c.crd / 64)]
    | 4 => [l.crda + c.pos * l.cw, l.auxa + 2 * c.pos]
    | _ => [if l.app then slotCrd l c.pos else l.crda + c.pos * l.cw]
  let _ ← (arrays.flatMap fun a => (List.range n).map fun k => a / 64 * 64 + 64 * k).mapM fun a => walkRead a 1

/-- What CPREF does for a cursor that is valid, in read mode and not done: its record is fetched again where none is captured, and
nothing is kept (R357, R379). -/
def prefetchCursor (c : Cur) (rcd n : Nat) : Wm Unit := do
  let v ← if rcd = 0 then captureRecord c.raddr else pure rcd
  if (Lvl.ofNat v).kind = c.kind then prefetchFibre (Lvl.ofNat v) c n

/-- CPREF (R379). -/
def execCpref (h : Hdr) (ca : BitVec 4) (n : BitVec 4) (s : State) : Out :=
  issue s h false fun s gid g =>
    let len := instrLen h false
    let part := takingPart g h .w32 s.cycle
    if ca.toNat ≥ (roleOf s g).curs then raiseIllegal s gid g len
    else
      let s' := part.foldl (fun s i =>
        let x : LaneCtx := ⟨g, h, i, s.cycle + beatOffset .w32 part i⟩
        let c := x.cur ca.toNat
        let v := readPlace g (.cap ca.toNat) i false x.now
        if c.valid && !c.append && !c.done then
          ((prefetchCursor c v n.toNat).run (Walker.start s g) : Except CErr Unit × Walker).2.s
        else s) s
      finish s' gid g (beatCount .w32 part) len

/-! ### Appending (R372–R376) -/

/-- An appending lane: cursor, record, coordinate and value. -/
structure AppLane where
  lane : Nat
  cur : Cur
  rcd : Nat
  crd : Nat
  val : Nat
  deriving DecidableEq, Repr

/-- The level an appending lane writes to. -/
def AppLane.lvl (x : AppLane) : Lvl := Lvl.ofNat x.rcd

/-- Whether the lane needs a chunk (R374). -/
def AppLane.needs (x : AppLane) : Bool := x.cur.aux % 2 == 0 || x.cur.pos % 1024 == x.lvl.slots

/-- Address of the heap record used on a crown (R373). -/
def AppLane.heap (x : AppLane) (crown : Nat) : DWord := BitVec.ofNat 64 (x.lvl.heapdir + (x.lvl.heap * 4 + crown) * 64)

/-- The runs a lane certainly writes: its heap record and LINK when it needs a chunk, else its slot. -/
def AppLane.known (x : AppLane) (crown : Nat) : List Item :=
  let it := fun (a n : Nat) => (⟨x.lane, .glob (BitVec.ofNat 64 a), n, some .wt, false⟩ : Item)
  if x.needs then
    it (x.heap crown).toNat 24 :: (if x.cur.aux % 2 = 1 then [it (chunkAddr x.lvl x.cur.pos) 8] else [])
  else [it (slotCrd x.lvl x.cur.pos) x.lvl.cw, it (slotVal x.lvl x.cur.pos) x.lvl.vw]

/-- What phase 1 gives a lane; `misfit` is a LINK that its codec line cannot take (R347). -/
inductive Grant where
  | ok (x : AppLane) | exhausted | outside | misfit
  deriving DecidableEq, Repr

/-- Whether a grant ends the phase (R347, R374). -/
def Grant.ends : Grant → Bool
  | .outside | .misfit => true
  | _ => false

/-- One allocation at the heap record's home (R373): the chunk's address. -/
def allocChunk (s : State) (w : Who) (pa : Nat) : State × Option Nat :=
  let (s, d) := homeRead (clearWay s w.core (pa / 64)) (pa / 64)
  let next := sectorValue d (pa % 64) 8
  let limit := sectorValue d (pa % 64 + 8) 8
  let count := sectorValue d (pa % 64 + 16) 8
  if next % 4096 = 0 ∧ next + 4096 ≤ limit then
    let (nd, bm) := placeBytes (pa % 64) (leBytes 8 (next + 4096) ++ leBytes 8 limit ++ leBytes 8 (count + 1))
    (homeWrite s (crownOf w.core) (pa / 64) bm nd w.tag false none, some next)
  else (s, none)

/-- Phase 1 of one lane (R374). -/
def grantLane (w : Who) (m : PageMap) (s : State) (x : AppLane) : State × Grant :=
  if !x.needs then (s, .ok x)
  else
    let ha := x.heap (crownOf w.core)
    match m.look ha with
    | .error _ => (s, .exhausted)
    | .ok l =>
      let (s, r) := allocChunk s w (leafPa l ha)
      match r with
      | none => (s, .exhausted)
      | some chunk =>
        let base := x.lvl.crda
        if chunk < base ∨ (chunk - base) % 4096 ≠ 0 ∨ (chunk - base) / 4096 ≥ 2 ^ 38 then (s, .outside)
        else
          let q := (chunk - base) / 4096 * 1024
          if x.cur.aux % 2 = 1 then
            let link : Item := ⟨x.lane, .glob (BitVec.ofNat 64 (chunkAddr x.lvl x.cur.pos)), 8, some .wt, false⟩
            match writeMapped s w m id (splitWrites s w [(link, leBytes 8 q)]) with
            | (s, .done) => (s, .ok { x with cur := { x.cur with pos := q } })
            | (s, _) => (s, .misfit)
          else (s, .ok { x with cur := { x.cur with lo := q, aux := 1, pos := q } })

/-- Phase 1, lanes in ascending `%laneid`; it ends at a chunk outside the range (R374). -/
def grantLanes (w : Who) (m : PageMap) : List AppLane → State → List (AppLane × Grant) → State × List (AppLane × Grant)
  | [], s, acc => (s, acc.reverse)
  | x :: r, s, acc =>
    let (s, g) := grantLane w m s x
    if g.ends then (s, ((x, g) :: acc).reverse) else grantLanes w m r s ((x, g) :: acc)

/-- The cursors of lanes that phase 1 gave a chunk stand as it updated them, and every outstanding result is due (R363, R374). -/
def keepGrants (g : Group) (ca : BitVec 4) (now : Nat) (l : List AppLane) : Group :=
  l.foldl (fun g x => setBase (setBase g (.c ca.toNat) x.lane x.cur.pack) (.cap ca.toNat) x.lane x.rcd) (commitAll g now)

/-- The writes of phase 2 (R374). -/
def AppLane.writes (x : AppLane) : List (Item × List Byte) :=
  [(⟨x.lane, .glob (BitVec.ofNat 64 (slotCrd x.lvl x.cur.pos)), x.lvl.cw, some .wt, false⟩, leBytes x.lvl.cw x.crd),
   (⟨x.lane, .glob (BitVec.ofNat 64 (slotVal x.lvl x.cur.pos)), x.lvl.vw, some .wt, false⟩, leBytes x.lvl.vw x.val)]

/-- The cursor after its element (R374). -/
def AppLane.after (x : AppLane) : Cur := { x.cur with crd := x.crd, pos := (x.cur.pos + 1) % 2 ^ 48 }

/-- The heap records that lanes in need of a chunk cannot use: in a window of the team or on a codec page (R373). -/
def heapScope (s : State) (w : Who) (ls : Tab Leaf) (crown : Nat) (lanes : List AppLane) : List (Nat × CErr) :=
  (lanes.filter fun x => x.needs &&
    ((secWindow s w ⟨true, (x.heap crown).toNat / 64, none, false⟩).isSome ||
      match tget ls ((x.heap crown).toNat / 65536) with | some l => l.cmp | none => false)).map fun x => (x.lane, .scope (x.heap crown))

/-- The heap records that are poisoned at home (R489). -/
def heapLost (s : State) (m : PageMap) (crown : Nat) (lanes : List AppLane) : List (Nat × CErr) :=
  lanes.filterMap fun x =>
    if !x.needs then none
    else match m.look (x.heap crown) with
      | .ok l => if s.mem.poison.contains (leafPa l (x.heap crown) / 64) then some (x.lane, .lost (leafPa l (x.heap crown))) else none
      | .error _ => none

/-- The heap records that lanes in need of a chunk read, each the last load of its lane (R254, R373). -/
def heapReads (m : PageMap) (crown : Nat) (lanes : List AppLane) : Tab (List Nat) :=
  lanes.filterMap fun x =>
    if !x.needs then none
    else match m.look (x.heap crown) with
      | .ok l => some (x.lane, [leafPa l (x.heap crown) / 64])
      | .error _ => none

/-- Phase 2 of CAPP, once every lane has a slot (R374); `gk` is the group with what phase 1 gave it, which it keeps when phase 2
faults. -/
def appendWrite (s : State) (gid : Nat) (g gk : Group) (len : Nat) (h : Hdr) (ca : BitVec 4) (part : List Nat) (ls : Tab Leaf)
    (kept : List AppLane) : State :=
  let w := whoOf s g
  let ps := splitWrites s w (kept.flatMap AppLane.writes)
  let (s, chk) := checkAccessKnown s w .write ls (ps.map (·.1))
  match chk.stops (ps.map (·.1)) with
  | some t => takeTrouble s gid gk len t
  | none =>
    match writeMapped s w chk.map id ps with
    | (s, .trouble t) => takeTrouble s gid gk len t
    | (s, .codec) => storeBadBlock s g
    | (s, .done) =>
      let g' := kept.foldl (fun g x =>
        writeLaneOut h 7 none s.cycle part g (x.lane, { LaneOut.empty with curs := [curOut ca x.after x.rcd] })) g
      setGroup s gid (advance g' len)

/-- CAPP from the lanes found (R373, R374, R380): phase 1, then phase 2 when no lane was noted. A release that a lane owes its next
store is performed before the first write. -/
def appendLanes (s : State) (gid : Nat) (g : Group) (len : Nat) (h : Hdr) (ca : BitVec 4) (part : List Nat) (k : Walker)
    (errs : List (Nat × CErr)) (lanes : List AppLane) : State :=
  let w := whoOf s g
  let crown := crownOf g.core
  let ps := (lanes.flatMap fun x => x.known crown).flatMap (piecesOf s w)
  let (s, chk) := checkAccessKnown s w .write k.leaves ps
  let errs := errs ++ heapScope s w chk.leaves crown lanes ++ pageErrs chk ps ++ heapLost s chk.map crown lanes
  let gr := noteLoad (k.kept.foldl keepRecord g) (k.reads ++ heapReads chk.map crown lanes)
  if !errs.isEmpty then takeCErr s gid g len errs
  else if !capturesFit s gid gr then park s gid g len .capture
  else
    let (s, grants) := grantLanes w chk.map lanes (storeReleases g .rlx .team part s) []
    let kept := grants.filterMap fun x => match x.2 with | .ok y => some y | _ => none
    let given := grants.filterMap fun x => match x.2 with | .ok y => if x.1.needs then some y else none | _ => none
    let dry := grants.filter fun x => x.2 == .exhausted
    let out := grants.filter fun x => x.2 == .outside
    if grants.any fun x => x.2 == .misfit then storeBadBlock s g
    else if !out.isEmpty then raise s gid g len ⟨5, 0, 0, maskOf (out.map (·.1.lane)), []⟩
    else if !dry.isEmpty then
      raise s gid (payOwed (keepGrants gr ca s.cycle given) (given.map (·.lane))) len
        ⟨2, 0, 0, maskOf (dry.map (·.1.lane)), dry.map fun x => (x.1.lane, x.1.heap crown)⟩
    else appendWrite s gid (payOwed gr part) (payOwed (keepGrants gr ca s.cycle given) part) len h ca part chk.leaves kept

/-- CAPP (R374). -/
def execCapp (h : Hdr) (ca : BitVec 4) (crd val : Src) (s : State) : Out :=
  issue s h false fun s gid g =>
    let len := instrLen h false
    let r := roleOf s g
    let part := takingPart g h .w32 s.cycle
    if ca.toNat ≥ r.curs ∨ !srcInRole r false crd ∨ !srcInRole r false val then raiseIllegal s gid g len
    else if part.isEmpty then finish s gid g 1 len
    else
      let s := occupy s g (beatCount .w32 part)
      let ctx := fun i => (⟨g, h, i, s.cycle + beatOffset .w32 part i⟩ : LaneCtx)
      let (k, outs) := runLanes (fun i => do
        let (_, v) ← (ctx i).appWith ca.toNat fun l => throwIf (l.vw == 8 && (oddSrc val || !srcInRole r true val)) .illegal
        return { LaneOut.empty with val := v }) part (Walker.start s g) []
      let lanes := (laneOks outs).map fun o =>
        (⟨o.1, (ctx o.1).cur ca.toNat, o.2.val, (ctx o.1).src 32 crd,
          (ctx o.1).src (if (Lvl.ofNat o.2.val).vw = 8 then 64 else 32) val⟩ : AppLane)
      appendLanes k.s gid g len h ca part k (laneErrors outs) lanes

/-- CAPTURE_ENTRY_FREE: a capture parked on 512 pinned records is executed again (R357). -/
def execCaptureEntryFree (gid : Nat) (s : State) : Out :=
  match getGroup s gid with
  | some g => .next (if g.wait == .capture && decide (pinned s g.core < 512) then retryWait s gid else s)
  | none => .next s

end Sys2Proof.Machine
end

