-- ==== Sys2Proof/Machine/Windows.lean ====
section
/-! DEFINITION. Window instructions and cache maintenance (spec/11_isa_memory_and_sync.md R301–R311). -/

namespace Sys2Proof.Machine

/-- A once-per-group instruction of the uniform side: `body` gives the state after it and the values to write to uniform
registers, none when a fault was taken (R34, R282). -/
def uniformOp (s : State) (h : Hdr) (body : State → Nat → Group → State × Option (List (Nat × Nat))) : Out :=
  issue s h false fun s gid g =>
    let len := instrLen h false
    if !uniGuard g h s.cycle then finish s gid g 1 len
    else
      let (s, r) := body (occupy s g 1) gid g
      match r with
      | none => s
      | some l =>
        let g' := l.foldl (fun g x => writePlace g .variable h.ver true s.cycle (.s x.1) 0 x.2) g
        setGroup s gid (advance g' len)

/-- A window status word (R302). -/
def winStatus (status idx : Nat) : Nat := status + idx * 256

/-- Whether two byte ranges overlap. -/
def overlaps (a n b m : Nat) : Bool := decide (a < b + m) && decide (b < a + n)

/-- The refusals of WMAP before translation, in order (R303): 0 when there is none. -/
def wmapRefusal (s : State) (g : Group) (ft : Rt) (base off len : Nat) : Nat :=
  let mine := s.mem.windows.filter fun w => w.core == g.core
  if ft == .uc then 5
  else if len = 0 ∨ off % 256 ≠ 0 ∨ base % 256 ≠ 0 ∨ len % 256 ≠ 0 ∨ off + len > allocOf s g.team then 6
  else if mine.any fun w => w.team == g.team && overlaps off len w.off w.len then 2
  else if mine.any fun w => overlaps base len w.base.toNat w.len then 3
  else if mine.length ≥ 16 then 1
  else 0

/-- Bits of a window's words, all of them set (R237). -/
def allValid (len : Nat) : Cells 16 := (List.range (len / 64)).map fun i => (i, BitVec.allOnes 16)

/-- The physical sectors of a window. -/
def windowSpan (b : Window) : List Nat := (List.range (b.len / 64)).filterMap (windowPhys b)

/-- WMAP (R235, R236, R303). -/
def execWmap (h : Hdr) (data : BitVec 7) (addr : BitVec 6) (scp : Scope) (zero : Bool) (ft : Rt) (off : BitVec 16)
    (s : State) : Out :=
  uniformOp s h fun s gid g =>
    let base := uniAddr g addr off s.cycle
    let arg := readPlace g (.s (addr.toNat + 1)) 0 true s.cycle
    let so := arg % 2 ^ 32
    let n := arg / 2 ^ 32 % 2 ^ 32
    let refusal := wmapRefusal s g ft base.toNat so n
    if refusal ≠ 0 then (s, some [(data.toNat, winStatus refusal 0)])
    else
      let w := whoOf s g
      let (s, m) := translatePages w (if zero then .write else .read) (pagesOf base n) s []
      let bad := m.filterMap fun e => match e.2 with | .error (.page c) => some ((firstIn base e.1).toNat, c, g.mask) | _ => none
      if !bad.isEmpty then (pageFault s gid g (instrLen h false) bad, none)
      else
        match walkLost m with
        | some pa => (raise s gid g (instrLen h false) ⟨15, 1, 0, g.mask, [(0, BitVec.ofNat 64 pa)]⟩, none)
        | none =>
          let leaves := m.filterMap fun e => match e.2 with | .ok l => some (e.1, l) | .error _ => none
          if leaves.any fun e => e.2.cmp || e.2.sa then (s, some [(data.toNat, winStatus 4 0)])
          else
            let used := (s.mem.windows.filter fun w => w.core == g.core).map (·.index)
            let idx := (below 16 fun i => !used.contains i).headD 0
            let all : Cells 16 := if zero then allValid n else []
            let b : Window := ⟨g.core, idx, g.team, so, base, n, zero, ft, scp, leaves, all, [], all⟩
            -- what the core's L1 holds of the range goes home first: a lane keeps seeing its own stores (R258)
            let s := (windowSpan b).foldl (fun s σ => evict s g.core σ) s
            let s := { s with mem := { s.mem with windows := s.mem.windows ++ [b] } }
            let s := if zero then
                match getTeam s g.team with
                | some t => setTeam s g.team { t with scratch := ckeep t.scratch fun k => !(decide (so ≤ k) && decide (k < so + n)) }
                | none => s
              else s
            (s, some [(data.toNat, winStatus 0 idx)])

/-- A window instruction on a binding of the team (R301, R302). -/
def bindingOp (s : State) (x : WinOp) (act : State → Window → State) : Out :=
  uniformOp s x.h fun s _ g =>
    let idx := readPlace g (.s x.addr.toNat) 0 true s.cycle % 16
    match windowOf s g.core idx with
    | some b =>
      if b.team = g.team then (act s b, some [(x.data.toNat, winStatus 0 idx)])
      else (s, some [(x.data.toNat, winStatus 7 idx)])
    | none => (s, some [(x.data.toNat, winStatus 7 idx)])

/-- Words that are not valid read as zero once a binding is gone (R304). -/
def zeroInvalid (b : Window) (t : Team) : Team :=
  (List.range (b.len / 64)).foldl
    (fun t i =>
      let v := cget b.vbits i
      if v = BitVec.allOnes 16 then t
      else scratchPut t (b.off + 64 * i) (bytesAt (windowData t b i &&& byteBits (wordBytes v)) 0 64)) t

/-- WUNMAP (R304). -/
def execWunmap (x : WinOp) (s : State) : Out :=
  bindingOp s x fun s b =>
    let s := windowFlush false s b.core b.index
    let s := match windowOf s b.core b.index, getTeam s b.team with
      | some b, some t => setTeam s b.team (zeroInvalid b t)
      | _, _ => s
    { s with mem := { s.mem with windows := s.mem.windows.filter fun w => !(w.core == b.core && w.index == b.index) } }

/-- WFLUSH (R305). -/
def execWflush (x : WinOp) (s : State) : Out := bindingOp s x fun s b => windowFlush false s b.core b.index

/-- WINV (R305). -/
def execWinv (x : WinOp) (discard : Bool) (s : State) : Out :=
  bindingOp s x fun s b =>
    if discard then putWindow s { b with vbits := [], dbits := [], given := [] } else putWindow s (windowClearClean b)

/-- The fields of WSTAT (R306). -/
def wstatWord (b : Window) : Nat :=
  let ft := match b.ft with | .own => 0 | .wt => 1 | .si => 2 | .uc => 3
  (b.len / 256 % 2 ^ 24) * 2 ^ 40 + (b.dbits.length % 2 ^ 16) * 2 ^ 24 + (b.off / 256 % 2 ^ 16) * 2 ^ 8 + 128
    + scopeNum b.scp * 16 + (if b.zero then 8 else 0) + ft * 2

/-- WSTAT (R306). -/
def execWstat (x : WinOp) (s : State) : Out :=
  uniformOp s x.h fun s _ g =>
    let idx := readPlace g (.s x.addr.toNat) 0 true s.cycle % 16
    match windowOf s g.core idx with
    | some b => (s, some [(x.data.toNat, if b.team = g.team then wstatWord b else 0)])
    | none => (s, some [(x.data.toNat, 0)])

/-! ### CLEAN and INVAL (R309–R311) -/

/-- Whether an agent's cache is reached from a core at a scope (R310). -/
def reached (scp : Scope) (core agent : Nat) : Bool :=
  let k := if agent < 256 then agent else (agent - 256) * 8
  match scp with
  | .team => agent == core
  | .bough => boughOf k == boughOf core
  | .crown => crownOf k == crownOf core
  | _ => true

/-- Whether a physical sector lies in a widened range of mapped pages. -/
def sectorInRange (m : PageMap) (lo hi σ : Nat) : Bool :=
  m.any fun e =>
    match e.2 with
    | .error _ => false
    | .ok l =>
      let va := e.1 * 65536 + σ % 1024 * 64
      leafPa l (BitVec.ofNat 64 (e.1 * 65536)) / 65536 == σ / 1024 && decide (lo ≤ va) && decide (va < hi)

/-- The caches reached write back what lies in the range; with `drop` they keep no copy (R310). -/
def maintain (s : State) (core : Nat) (scp : Scope) (drop : Bool) (inRange : Nat → Bool) : State :=
  let s := (s.mem.copies.filter fun c => reached scp core c.agent && inRange c.sector).foldl
    (fun s c => if drop then dropCopy (pushCopy s c) c.agent c.sector else pushCopy s c) s
  if drop && scp == .dev then
    { s with mem := { s.mem with
        rdc := s.mem.rdc.filter fun e => !inRange e.sector
        held := s.mem.held.filter fun h => !(h.kind == 2 && inRange h.num) } }
  else s

/-- CLEAN and INVAL (R309, R310). -/
def maintOp (s : State) (x : MaintOp) (drop : Bool) : Out :=
  uniformOp s x.h fun s gid g =>
    let base := (uniAddr g x.addr x.off s.cycle).toNat
    let n := readPlace g (.s (x.addr.toNat + 1)) 0 true s.cycle
    if n = 0 then (s, some [])
    else
      let lo := base / 256 * 256
      let hi := (base + n + 255) / 256 * 256
      let (s, m) := translatePages (whoOf s g) .read (pagesOf (BitVec.ofNat 64 lo) (hi - lo)) s []
      let bad := m.filterMap fun e =>
        match e.2 with | .error (.page c) => some ((firstIn (BitVec.ofNat 64 lo) e.1).toNat, c, g.mask) | _ => none
      if !bad.isEmpty then (pageFault s gid g (instrLen x.h false) bad, none)
      else
        match walkLost m with
        | some pa => (raise s gid g (instrLen x.h false) ⟨15, 1, 0, g.mask, [(0, BitVec.ofNat 64 pa)]⟩, none)
        | none =>
          let s := maintain s g.core x.scp drop (sectorInRange m lo hi)
          let mine := s.mem.windows.filter fun b =>
            b.core == g.core && b.team == g.team && overlaps lo (hi - lo) b.base.toNat b.len
          let s := mine.foldl (fun s b =>
            let s := windowFlush false s b.core b.index
            if drop then
              match windowOf s b.core b.index with
              | some b => putWindow s (windowClearClean b)
              | none => s
            else s) s
          (s, some [])

/-- CLEAN (R310). -/
def execClean (x : MaintOp) (s : State) : Out := maintOp s x false

/-- INVAL (R310). -/
def execInval (x : MaintOp) (s : State) : Out := maintOp s x true

end Sys2Proof.Machine
end

