-- ==== Sys2Proof/Machine/Sync.lean ====
section
/-! DEFINITION. Fences, barriers, waiting on memory, transaction barriers and mailboxes
(spec/11_isa_memory_and_sync.md R317–R333, spec/04_registers_and_numbers.md R77, R78). -/

namespace Sys2Proof.Machine

/-! ### Fences (R254, R274, R317, R318) -/

/-- Under .acq, .ar and .sc the last load of each live lane becomes an acquire: a marked sector that it read is published
(R254, R265, R317). -/
def fenceLoads (g : Group) (s : State) : State :=
  (distinct ((g.lastLoad.filter fun e => (liveLanes g).contains e.1).flatMap (·.2))).foldl
    (fun s σ => forcePublish s g.core g.team σ) s

/-- FENCE (R254, R317): the local effects of a release, an acquire or both, once; every live lane's last load becomes an acquire and
its next store a release at the scope. -/
def execFence (h : Hdr) (ord : Order) (scp : Scope) (s : State) : Out :=
  issue s h false fun s gid g =>
    let s := if ord.isRel then releaseAt s g.core g.team scp else s
    let s := if ord.isAcq then acquireAt (fenceLoads g s) g.core g.team scp else s
    let owed := (liveLanes g).foldl (fun acc i =>
      cset acc i (BitVec.ofNat 3 (max (cget acc i).toNat (scopeNum scp + 1)))) g.relOwed
    finish s gid (if ord.isRel then { g with relOwed := owed } else g) 1 (instrLen h false)

/-- Whether a once-per-group instruction acts, and the lane its per-lane sources are read in (R282). -/
def actsIn (g : Group) (h : Hdr) (now : Nat) : Option Nat :=
  if h.uni then (if uniGuard g h now then some 0 else none) else (takingPart g h .w32 now).head?

/-- QFENCE (R274, R318): entries of the set enqueued later wait for those enqueued earlier. -/
def execQfence (h : Hdr) (set : BitVec 6) (s : State) : Out :=
  issue s h false fun s gid g =>
    let s' := match actsIn g h s.cycle with
      | none => s
      | some _ =>
        let (s, n) := takeId s
        let c := getCore s g.core
        setCore s g.core { c with fences := c.fences ++ [⟨set, n⟩] }
    finish s' gid g 1 (instrLen h false)

/-! ### Team, role and bough barriers (R319–R322) -/

/-- A group's arrival at a team or role barrier (R320). -/
def arriveBar (s : State) (gid : Nat) (g : Group) (h : Hdr) (role : Bool) (n : Nat) : State :=
  let key := if role then 16 * (g.role + 1) + n else n
  let s := releaseAt (occupy s g 1) g.core g.team .team
  match getTeam s g.team with
  | none => s
  | some t =>
    let b := (tget t.bars key).getD ⟨0, [], [], []⟩
    let late := !b.arrived.isEmpty && !b.counted.contains gid
    let b := if late then { b with late := b.late ++ [gid] }
      else if b.arrived.isEmpty then
        { b with counted := residents s g.team (if role then some g.role else none), arrived := [gid] }
      else { b with arrived := b.arrived ++ [gid] }
    let s := setTeam s g.team { t with bars := tset t.bars key b }
    let s := park s gid g (instrLen h false) (if late then .barLate role n else .bar role n)
    settleBarrier s g.team key

/-- BAR `.team` (R320). -/
def execBarTeam (h : Hdr) (id : BitVec 4) (s : State) : Out :=
  issue s h false fun s gid g => arriveBar s gid g h false id.toNat

/-- BAR `.role` (R320). -/
def execBarRole (h : Hdr) (id : BitVec 4) (s : State) : Out :=
  issue s h false fun s gid g => arriveBar s gid g h true id.toNat

/-- One group departs from a bough barrier, with an acquire (R255, R321). -/
def departBough (s : State) (gid : Nat) : State :=
  match getGroup s gid with
  | some g => acquireAt (leaveWait s gid) g.core g.team .bough
  | none => s

/-- A bough-barrier entry whose arrivals have reached the count is freed and its groups depart (R321). -/
def settleBough (s : State) (bough grid n : Nat) : State :=
  match s.boughBars.find? fun b => b.bough == bough && b.grid == grid && b.num == n with
  | none => s
  | some b =>
    if b.arrived.length ≥ b.expect then
      b.arrived.foldl departBough
        { s with boughBars := s.boughBars.filter fun b => !(b.bough == bough && b.grid == grid && b.num == n) }
    else s

/-- The groups of a bough's barrier entry with one more arrived. -/
def addArrival (bough grid n gid : Nat) (b : BoughBar) : BoughBar :=
  if b.bough == bough && b.grid == grid && b.num == n then { b with arrived := b.arrived ++ [gid] } else b

/-- BBAR (R321). -/
def execBbar (h : Hdr) (id : BitVec 4) (cnt : Src) (s : State) : Out :=
  issue s h false fun s gid g =>
    let len := instrLen h false
    if !srcInRole (roleOf s g) false cnt then raiseIllegal s gid g len
    else
      let count := match lowestEnabled g, cnt with
        | _, .s _ | _, .k _ => readSrc g h 0 s.cycle 32 cnt
        | some i, _ => readSrc g h i s.cycle 32 cnt
        | none, _ => 0
      let grid := gridIdOf s g
      let bough := boughOf g.core
      let s := occupy s g 1
      let here := s.boughBars.any fun b => b.bough == bough && b.grid == grid && b.num == id.toNat
      -- the count of an open phase is its first arrival's
      if !here ∧ count = 0 then setGroup s gid (advance g len)
      else
        if !here && decide ((s.boughBars.filter fun b => b.bough == bough).length ≥ 16) then
          park s gid g len (.bbarFull id.toNat)
        else
          let s := releaseAt s g.core g.team .bough
          let s := if here then { s with boughBars := s.boughBars.map (addArrival bough grid id.toNat gid) }
            else { s with boughBars := s.boughBars ++ [⟨bough, grid, id.toNat, count, [gid]⟩] }
          settleBough (park s gid g len (.bbar id.toNat)) bough grid id.toNat

/-- Whether a group waiting for a bough-barrier entry could have one. -/
def mayTakeEntry (s : State) (g : Group) : Bool :=
  match g.wait with
  | .bbarFull n =>
    (s.boughBars.any fun b => b.bough == boughOf g.core && b.grid == gridIdOf s g && b.num == n)
      || decide ((s.boughBars.filter fun b => b.bough == boughOf g.core).length < 16)
  | _ => false

/-- BBAR_ENTRY_FREE: a BBAR parked for want of an entry is executed again once it can have one (R321). -/
def execBbarEntryFree (gid : Nat) (s : State) : Out :=
  match getGroup s gid with
  | some g => .next (if mayTakeEntry s g then retryWait s gid else s)
  | none => .next s

/-! ### Waiting on memory (R323–R327) -/

/-- Bytes of an MWAIT datum (R323). -/
def mwBytes : MwW → Nat
  | .n32 => 4
  | _ => 8

/-- Bits compared (R324). -/
def mwBits : MwW → Nat
  | .n32 => 32
  | .b64 => 64
  | .seq => 48

/-- The condition (R324). -/
def mwHolds (w : MwW) (c : MwCond) (v cmp : Nat) : Bool :=
  let a := v % 2 ^ mwBits w
  let b := cmp % 2 ^ mwBits w
  match c with
  | .eq => a == b
  | .ne => a != b
  | .geu => decide (b ≤ a)
  | .ltu => decide (a < b)

/-- What a test has fetched: a line in its expanded view, or a sector, by number. -/
abbrev Fetched := List ((Bool × Nat) × List Byte)

/-- What a datum lies in, read at its home as a .uc read: a sector, or on a codec page the expanded view of its line. The core's own copies
go home first, so that a lane's earlier stores are seen (R232, R324); what a mark names is published (R265). -/
def fetchDatum (s : State) (core team pa : Nat) (cmp : Bool) : State × Except XErr (List Byte) :=
  if cmp then
    let clear (s : State) (σ : Nat) : State := clearWay (forcePublish s core team σ) core σ
    homeExpanded ((lineSectors (pa / 256)).foldl clear s) (pa / 256)
  else
    let s := forcePublish s core team (pa / 64)
    if s.mem.poison.contains (pa / 64) then (s, .error (.lost pa))
    else
      let (s, d) := homeRead (clearWay s core (pa / 64)) (pa / 64)
      (s, .ok (bytesAt d 0 64))

/-- Every datum of a test; each sector or line that it lies in is fetched once (R346, R348). -/
def readTest (core team n : Nat) : List (Nat × Nat × Bool × Nat) → Fetched → State → List (Nat × Nat × Nat) →
    State × Except (Nat × XErr) (List (Nat × Nat × Nat))
  | [], _, s, acc => (s, .ok acc.reverse)
  | (i, pa, cmp, want) :: r, got, s, acc =>
    let key := (cmp, if cmp then pa / 256 else pa / 64)
    let value (b : List Byte) : Nat := field b (if cmp then pa % 256 else pa % 64) n
    match got.find? fun e => e.1 == key with
    | some e => readTest core team n r got s ((i, value e.2, want) :: acc)
    | none =>
      match fetchDatum s core team pa cmp with
      | (s, .error e) => (s, .error (i, e))
      | (s, .ok b) => readTest core team n r ((key, b) :: got) s ((i, value b, want) :: acc)

/-- Whether a test passes on the values read: lane, value, comparand. -/
def testHolds (t : WatchTest) (l : List (Nat × Nat × Nat)) : Bool :=
  l.all fun x => if t.phase then x.2.1 != x.2.2 else mwHolds t.w t.cond x.2.1 x.2.2

/-- Writes what a wait read last (R324, R329), and remembers it as its lanes' last load (R254). -/
def writeTest (g : Group) (t : WatchTest) (now : Nat) (l : List (Nat × Nat × Nat)) : Group :=
  let g := l.foldl (fun g x =>
    if t.uni then writePlace g .variable t.ver true now (.s t.data) 0 x.2.1
    else writeLane g .variable t.ver now (.v (BitVec.ofNat 8 t.data)) (t.w != .n32) x.1 x.2.1) g
  let secs (i : Nat) : List Nat := (t.lanes.filter fun x => t.uni || x.1 == i).map fun x => x.2.1 / 64
  noteLoad g ((if t.uni then liveLanes g else l.map (·.1)).map fun i => (i, secs i))

/-- Monitor entries in use on a core. -/
def monitorsUsed (s : State) (core : Nat) : Nat :=
  (groupsOn s core).foldl (fun a e => match e.2.wait with | .watch l _ => a + l.length | _ => a) 0

/-- Monitor entries of a core (R12). -/
def monitorEntries : Nat := 64

/-- The overflow interval of a group's partition: what its record sets, else 2,048 cycles (R326, R484). -/
def overflowInterval (s : State) (g : Group) : Nat :=
  ((tget s.parts (whoOf s g).part).bind fun p => p.body.ovf).getD 2048

/-- What an error of a datum raises. -/
def datumTrouble (lanes : Word) (i : Nat) (va : DWord) (e : XErr) : Trouble :=
  match e with
  | .page c => .pages [(va.toNat, c, lanes)]
  | .lost pa => .raise ⟨15, 1, 0, lanes, [(i, BitVec.ofNat 64 pa)]⟩
  | .bad => .raise ⟨8, 0, 0, lanes, [(i, va)]⟩

/-- The lanes of a test that meet an error as one of them did: a poisoned sector, or the same codec line. -/
def errLanes (s : State) (g : Group) (t : WatchTest) (i : Nat) (e : XErr) : Word :=
  let mine := (t.lanes.find? fun x => x.1 == i).map fun x => x.2.1
  if t.uni then g.mask
  else
    match e with
    | .lost _ => maskOf ((t.lanes.filter fun x => s.mem.poison.contains (x.2.1 / 64)).map (·.1))
    | _ => maskOf ((t.lanes.filter fun x => mine == some x.2.1 || mine.map (· / 256) == some (x.2.1 / 256)).map (·.1))

/-- Reads every datum of a wait's test. -/
def testRead (s : State) (g : Group) (t : WatchTest) : State × Except (Nat × XErr) (List (Nat × Nat × Nat)) :=
  readTest g.core g.team (if t.phase then 4 else mwBytes t.w) t.lanes [] s []

/-- A wait completes (R324): its values are written, with an acquire unless it is spurious, and the group stands after
the instruction. -/
def completeWait (s : State) (gid : Nat) (g : Group) (t : WatchTest) (l : List (Nat × Nat × Nat)) (spurious : Bool) : State :=
  let s := leaveWait (setGroup s gid (writeTest g t s.cycle l)) gid
  if spurious then s else acquireAt s g.core g.team t.scp

/-- The test of a wait that watches its sectors (R324, R325): the watches stand while it reads, so a write to one of the sectors made
meanwhile lets the group test again. It completes, goes on waiting, or is stopped by an error. -/
def watchTest (s : State) (gid : Nat) (g : Group) (t : WatchTest) : State :=
  let (s, r) := testRead (setGroup s gid { g with poked := false }) g t
  match r with
  | .error (i, e) => takeTrouble s gid { g with wait := .none } g.parkLen (datumTrouble (errLanes s g t i e) i 0 e)
  | .ok l => if testHolds t l then completeWait s gid ((getGroup s gid).getD g) t l false else s

/-- The wait's first test: with monitor entries for its sectors they are watched from before it reads; without, it parks for the
overflow interval when the condition does not hold (R324–R326). -/
def startWait (s : State) (gid : Nat) (g : Group) (len : Nat) (t : WatchTest) : State :=
  let sectors := distinct (t.lanes.map fun x => x.2.1 / 64)
  if monitorsUsed s g.core + sectors.length > monitorEntries then
    let (s, r) := testRead s g t
    match r with
    | .error (i, e) => takeTrouble s gid g len (datumTrouble (errLanes s g t i e) i 0 e)
    | .ok l =>
      if testHolds t l then acquireAt (setGroup s gid (advance (writeTest g t s.cycle l) len)) g.core g.team t.scp
      else park s gid g len (.overflow (s.cycle + overflowInterval s g) t)
  else
    let s := park s gid g len (.watch sectors t)
    watchTest s gid ((getGroup s gid).getD g) t

/-- MWAIT (R287, R323–R327): windows and caches are passed by. -/
def execMwait (x : MwaitOp) (s : State) : Out :=
  issue s x.h false fun s gid g =>
    let len := instrLen x.h false
    let wide := x.w != .n32
    let regs := (roleOf s g).regs
    let n := mwBytes x.w
    if !x.h.uni && (decide (x.data.toNat + (if wide then 1 else 0) ≥ regs) || decide (2 * x.addr.toNat + 1 ≥ regs)) then
      raiseIllegal s gid g len
    else
      let part := if x.h.uni then (if uniGuard g x.h s.cycle then [0] else []) else takingPart g x.h .w32 s.cycle
      if part.isEmpty then finish s gid g 1 len
      else
        let at_ := fun i => s.cycle + beatOffset .w32 part i
        let eas := part.map fun i => (i, if x.h.uni then uniAddr g x.addr x.off s.cycle else laneAddr g x.addr x.off i (at_ i))
        let lanesOf := fun (l : List Nat) => if x.h.uni then g.mask else maskOf l
        let bent := eas.filter fun e => e.2.toNat % n != 0
        -- once per group, the condition is every enabled lane's (R472)
        let odd := if x.h.uni then bent.flatMap fun e => (enabledLanes g).map fun i => (i, e.2) else bent
        let s := occupy s g (if x.h.uni then 1 else beatCount .w32 part)
        let (s, m) := translatePages (whoOf s g) .read (distinct (eas.map fun e => e.2.toNat / 65536)) s []
        let bad := m.filterMap fun p => match p.2 with
          | .error (.page c) => some (((eas.find? fun e => e.2.toNat / 65536 == p.1).map fun e => e.2.toNat).getD (p.1 * 65536), c, lanesOf ((eas.filter fun e => e.2.toNat / 65536 == p.1).map (·.1)))
          | _ => none
        if !bent.isEmpty then raise s gid g len ⟨10, 0, 0, lanesOf (odd.map (·.1)), odd⟩
        else if !bad.isEmpty then pageFault s gid g len bad
        else
          match walkLost m with
          | some pa => raise s gid g len ⟨15, 1, 0, lanesOf part,
            (if x.h.uni then enabledLanes g else part).map fun i => (i, BitVec.ofNat 64 pa)⟩
          | none =>
            let lanes := eas.filterMap fun e =>
              let want := if x.h.uni then readPlace g (.s x.data.toNat) 0 true s.cycle
                else dataValue g x.data.toNat e.1 (at_ e.1) wide
              match m.look e.2 with
              | .ok l => some (e.1, leafPa l e.2, l.cmp, want)
              | .error _ => none
            startWait s gid g len ⟨false, x.w, x.cond, x.scp, x.h.uni, x.h.ver, x.data.toNat, lanes⟩

/-- MWAIT_RETEST: after a write at home to a watched sector every address is read again (R324, R325). -/
def execMwaitRetest (gid : Nat) (s : State) : Out :=
  match getGroup s gid with
  | none => .next s
  | some g =>
    match g.wait with
    | .watch _ t => .next (watchTest s gid g t)
    | _ => .next s

/-- MWAIT_OVERFLOW_EXPIRY: one more read; the wait completes, spuriously when its condition does not hold (R326). -/
def execMwaitOverflowExpiry (gid : Nat) (s : State) : Out :=
  match getGroup s gid with
  | none => .next s
  | some g =>
    match g.wait with
    | .overflow till t =>
      if s.cycle < till then .next s
      else
        let (s, r) := testRead s g t
        let g := (getGroup s gid).getD g
        match r with
        | .error (i, e) =>
          .next (takeTrouble s gid { g with wait := .none } g.parkLen (datumTrouble (errLanes s g t i e) i 0 e))
        | .ok l => .next (completeWait s gid g t l (!testHolds t l))
    | _ => .next s

/-! ### Transaction barriers (R248, R249, R328–R330) -/

/-- A home's update of the barrier at a physical address: expected, arrived and phase to the new ones (R249). -/
def barrierUpdate (s : State) (crown pa : Nat) (tag : BitVec 16) (f : Nat × Nat × Nat → Nat × Nat × Nat) : State × Nat :=
  let (s, d) := homeRead s (pa / 64)
  let lo := pa % 64
  let (e, a, p) := (sectorValue d lo 4, sectorValue d (lo + 4) 4, sectorValue d (lo + 8) 4)
  let (e', a', p') := f (e, a, p)
  let (nd, bm) := placeBytes lo (leBytes 4 e' ++ leBytes 4 a' ++ leBytes 4 p')
  (homeWrite s crown (pa / 64) bm nd tag false none, p)

/-- An arrival of n (R249). -/
def arrival (n : Nat) (x : Nat × Nat × Nat) : Nat × Nat × Nat :=
  let a := (x.2.1 + n) % 2 ^ 32
  if x.1 = 0 then (x.1, a, x.2.2) else (x.1, a % x.1, (x.2.2 + a / x.1) % 2 ^ 32)

/-- The checks of a transaction-barrier instruction in the order of R287 and R330; then its effect at the physical address. DESIGN
CHOICE (log 16): an address that is misaligned and breaks R247 raises MISALIGNED, since the two stand in one class of R287. -/
def tbOp (s : State) (x : TbOp) (act : State → Nat → Group → Nat → Leaf → State) : Out :=
  issue s x.h false fun s gid g =>
    let len := instrLen x.h false
    if !uniGuard g x.h s.cycle then finish s gid g 1 len
    else
      let s := occupy s g 1
      let w := whoOf s g
      let ea := uniAddr g x.addr x.off s.cycle
      let (s, r, leaf) := translateLeaf s w ea .write
      let all := (enabledLanes g).map fun i => (i, ea)
      if ea.toNat % 16 ≠ 0 then raise s gid g len ⟨10, 0, 0, g.mask, all⟩
      else if scopeBad s w (fun _ => leaf) x.scp ea then raise s gid g len ⟨11, 0, 0, g.mask, all⟩
      else
        match r with
        | .error e => takeTrouble s gid g len ((datumTrouble g.mask 0 ea e).forGroup g)
        | .ok l =>
          let pa := leafPa l ea
          if s.mem.poison.contains (pa / 64) then takeTrouble s gid g len ((datumTrouble g.mask 0 ea (.lost pa)).forGroup g)
          else act (clearWay s g.core (pa / 64)) gid g pa l

/-- TBINIT (R329): a store of every live lane (R253). -/
def execTbinit (x : TbOp) (s : State) : Out :=
  tbOp s x fun s gid g pa _ =>
    let n := readPlace g (.s x.data.toNat) 0 true s.cycle % 2 ^ 32
    let s := storeReleases g x.ord x.scp (liveLanes g) s
    let (s, _) := barrierUpdate s (crownOf g.core) pa (whoOf s g).tag fun b => (n, 0, b.2.2)
    setGroup s gid (advance (payOwed g (liveLanes g)) (instrLen x.h false))

/-- TBARR (R249, R329): a release of every live lane (R253, R255). -/
def execTbarr (x : TbOp) (s : State) : Out :=
  tbOp s x fun s gid g pa _ =>
    let n := readPlace g (.s x.data.toNat) 0 true s.cycle % 2 ^ 32
    let s := storeReleases g .rel x.scp (liveLanes g) s
    let (s, p) := barrierUpdate s (crownOf g.core) pa (whoOf s g).tag (arrival n)
    let g' := writePlace (payOwed g (liveLanes g)) .variable x.h.ver true s.cycle (.s x.data.toNat) 0 p
    setGroup s gid (advance (noteLoad g' ((liveLanes g).map fun i => (i, [pa / 64]))) (instrLen x.h false))

/-- TBWAIT (R329). -/
def execTbwait (x : TbOp) (s : State) : Out :=
  tbOp s x fun s gid g pa l =>
    let token := readPlace g (.s x.data.toNat) 0 true s.cycle % 2 ^ 32
    startWait s gid g (instrLen x.h false)
      ⟨true, .n32, .ne, x.scp, true, x.h.ver, x.data.toNat, [(0, pa + 8, l.cmp, token)]⟩

/-! ### Mailboxes (R77, R78, R331–R333) -/

/-- The groups of a team that wait on a mailbox for its present state, oldest first. -/
def mbxWaiters (s : State) (tid m : Nat) (full : Bool) : List (Nat × Group) :=
  sortBy (fun a b => decide (a.2.waitSeq ≤ b.2.waitSeq))
    (s.groups.filter fun e => e.2.team == tid &&
      match e.2.wait with
      | .mbxRead k _ _ _ _ => full && k == m
      | .mbxWrite k _ => !full && k == m
      | _ => false)

/-- Writes what a mailbox read returned (R332). -/
def writeMbx (g : Group) (uni : Bool) (ver : Ver) (d : Dst) (lanes : List Nat) (now : Nat) (v : Nat) : Group :=
  if uni then writeUni g .variable ver now d v
  else lanes.foldl (fun g i => writeLane g .variable ver now d false i v) g

/-- A mailbox's value. -/
def mbxValue (t : Team) (m : Nat) : Nat := (cget t.mbx m).toNat

/-- A mailbox emptied by a read. -/
def mbxEmpty (t : Team) (m : Nat) : Team := { t with mbxFull := t.mbxFull &&& ~~~(BitVec.ofNat 32 (2 ^ m)) }

/-- A mailbox filled by a write. -/
def mbxFill (t : Team) (m : Nat) (v : Word) : Team :=
  { t with mbx := cset t.mbx m v, mbxFull := t.mbxFull ||| BitVec.ofNat 32 (2 ^ m) }

/-- The next step serves the groups that wait on a mailbox whose state has changed (R78). -/
def wakeMbx (s : State) (tid m : Nat) : State := { s with agenda := .mailboxWake tid m :: s.agenda }

/-- MAILBOX_WAKE: the group whose wait began first is served, and the change that this makes serves the next (R78). -/
def execMailboxWake (tid m : Nat) (s : State) : Out :=
  match getTeam s tid with
  | none => .next s
  | some t =>
    match mbxWaiters s tid m (t.mbxFull.getLsbD m) with
    | [] => .next s
    | (gid, g) :: _ =>
      match g.wait with
      | .mbxRead _ uni ver d lanes =>
        let s := setTeam s tid (mbxEmpty t m)
        let s := leaveWait (setGroup s gid (writeMbx g uni ver d lanes s.cycle (mbxValue t m))) gid
        .next (wakeMbx (acquireAt s g.core tid .team) tid m)
      | .mbxWrite _ v =>
        let s := releaseAt s g.core tid .team
        let s := match getTeam s tid with | some t => setTeam s tid (mbxFill t m v) | none => s
        .next (wakeMbx (leaveWait s gid) tid m)
      | _ => .next s

/-- MBXW (R332). -/
def execMbxw (h : Hdr) (m : BitVec 5) (a : Src) (s : State) : Out :=
  issue s h false fun s gid g =>
    let len := instrLen h false
    if !srcInRole (roleOf s g) false a then raiseIllegal s gid g len
    else
      match actsIn g h s.cycle, getTeam s g.team with
      | some i, some t =>
        let v : Word := BitVec.ofNat 32 (readSrc g h i s.cycle 32 a)
        let s := occupy s g 1
        if t.mbxFull.getLsbD m.toNat then park s gid g len (.mbxWrite m.toNat v)
        else
          let s := releaseAt s g.core g.team .team
          let s := match getTeam s g.team with | some t => setTeam s g.team (mbxFill t m.toNat v) | none => s
          wakeMbx (setGroup s gid (advance g len)) g.team m.toNat
      | _, _ => finish s gid g 1 len

/-- Lanes that receive a once-per-group result. -/
def resultLanes (g : Group) (h : Hdr) (now : Nat) : List Nat := if h.uni then [] else takingPart g h .w32 now

/-- MBXR (R332). -/
def execMbxr (h : Hdr) (m : BitVec 5) (d : Dst) (s : State) : Out :=
  issue s h false fun s gid g =>
    let len := instrLen h false
    if !dstInRole (roleOf s g) h.uni false d then raiseIllegal s gid g len
    else
      match actsIn g h s.cycle, getTeam s g.team with
      | some _, some t =>
        let lanes := resultLanes g h s.cycle
        let s := occupy s g 1
        if t.mbxFull.getLsbD m.toNat then
          let s := setTeam s g.team (mbxEmpty t m.toNat)
          let g' := writeMbx g h.uni h.ver d lanes s.cycle (mbxValue t m.toNat)
          wakeMbx (acquireAt (setGroup s gid (advance g' len)) g.core g.team .team) g.team m.toNat
        else park s gid g len (.mbxRead m.toNat h.uni h.ver d lanes)
      | _, _ => finish s gid g 1 len

/-- MBXP (R332). -/
def execMbxp (h : Hdr) (m : BitVec 5) (d : Dst) (full : PSel) (s : State) : Out :=
  issue s h false fun s gid g =>
    let len := instrLen h false
    if !dstInRole (roleOf s g) h.uni false d then raiseIllegal s gid g len
    else
      match actsIn g h s.cycle, getTeam s g.team with
      | some _, some t =>
        let lanes := resultLanes g h s.cycle
        let isFull := t.mbxFull.getLsbD m.toNat
        let g' := writeMbx g h.uni h.ver d lanes s.cycle (mbxValue t m.toNat)
        let g' := if h.uni then writeSel g' h .variable s.cycle full 0 isFull
          else lanes.foldl (fun g i => writeSel g h .variable s.cycle full i isFull) g'
        let s := finish s gid g' 1 len
        if isFull then acquireAt s g.core g.team .team else s
      | _, _ => finish s gid g 1 len

end Sys2Proof.Machine
end

