-- ==== Sys2Proof/Machine/Queues.lean ====
section
/-! DEFINITION. What the queues of a core share: slots, QFENCE, and reading and writing for the matrix queue's entries
(spec/10_consistency_model.md R271–R275, spec/18_isa_engines_and_system.md R444). -/

namespace Sys2Proof.Machine

/-- Slots of a queue (R386, R444). -/
def queueCap : Queue → Nat
  | .mat | .dec | .root => 8
  | _ => 16

/-- Whether every slot of a queue is held. -/
def queueFull (c : Core) (q : Queue) : Bool := decide (queueCap q ≤ (queueIds c q).length)

/-- The group waits, without leaving its slice, until something leaves a queue of its core (R386, R388, R444). -/
def awaitSlot (s : State) (gid : Nat) (g : Group) : State := setGroup s gid { g with wait := .slot }

/-- An instruction that enters a queue: it does not issue while the queue is full. -/
def withSlot (q : Queue) (s : State) (gid : Nat) (g : Group) (body : State) : State :=
  if queueFull (getCore s g.core) q then awaitSlot s gid g else body

/-- An instruction that enters the queue of an engine: a dead engine takes no entry (R493). -/
def withEngine (opc : Nat) (q : Queue) (s : State) (gid : Nat) (g : Group) (body : State) : State :=
  if engineDead s (engineOf g.core opc) then awaitSlot s gid g else withSlot q s gid g body

/-- The word of an instruction that a saved entry carries (R483). -/
def entryWord (i : Instr) : DWord := (Sys2Proof.encode i).headD 0

/-- An entry reaches the frames of the pages that it has kept, each with its translation's key (R486). -/
def reachPages (w : Who) : PageMap → State → State
  | [], s => s
  | (p, .ok l) :: r, s => reachPages w r (reachKept s w.part l (leafPa l (BitVec.ofNat 64 (65536 * p))))
  | _ :: r, s => reachPages w r s

/-- Reads runs through a page map, for an entry of the matrix queue (R233, R390). -/
def readRuns (s : State) (w : Who) (m : PageMap) (items : List Item) : State × Except (Sec × XErr) (List (List Byte)) :=
  let s := reachPages w m s
  let split := items.map (piecesOf s w)
  let ps := split.flatten
  let secs := distinct (ps.map Item.sec)
  let (s, r) := readSecs w m 15 false ps secs [] s []
  match r with
  | .error e => (s, .error e)
  | .ok got => (countSecs w m secs s, .ok (split.map fun l => l.flatMap (pieceBytes got)))

/-- Writes runs one after another through a page map, each an access of its own (R390); false as soon as a codec line cannot take its
bytes. -/
def writeEach (w : Who) (m : PageMap) : List (Item × List Byte) → State → State × Bool
  | [], s => (s, true)
  | x :: r, s =>
    let puts := putsOf s w m (splitWrites s w [x])
    let (s, ok) := writeTargets w puts (distinct (puts.map (·.dest))) s
    if ok then writeEach w m r s else (s, false)

/-- Writes runs through a page map, for an entry of the matrix queue; false for a codec line that cannot take its bytes
(R233, R390). -/
def writeRuns (s : State) (w : Who) (m : PageMap) (items : List (Item × List Byte)) : State × Bool :=
  writeEach w m items (reachPages w m s)

/-- A line of TLD or TST: 32 bytes under its page's request type (R233, R390). -/
def lineItem (va : DWord) : Item := ⟨0, .glob va, 32, none, false⟩

/-- The translations of a page map that succeeded, those that the team's windows hold among them (R390). -/
def keepLeaves (s : State) (w : Who) (m : PageMap) (pages : List Nat) : Tab Leaf :=
  pages.foldl (fun t p =>
    match m.find? fun e => e.1 == p with
    | some (_, .ok l) => tset t p l
    | _ =>
      match (s.mem.windows.filter fun b => b.core == w.core && b.team == w.team).findSome? fun b => tget b.pages p with
      | some l => tset t p l
      | none => t) []

/-- A page map from translations kept. -/
def leafMap (t : Tab Leaf) : PageMap := t.map fun e => (e.1, .ok e.2)

end Sys2Proof.Machine
end

