-- ==== Sys2Proof/Machine/Engine.lean ====
section
/-! DEFINITION. The engine instructions: command blocks, tickets, copies that join, QSTAT, LAUNCH
(spec/18_isa_engines_and_system.md R442–R450, spec/17_scheduling_and_engines.md R426–R441). -/

namespace Sys2Proof.Machine

/-! ### Command blocks (R426) -/

/-- SEQ of a block's header. -/
def blockSeq (b : List Byte) : Nat := field b 0x08 6

/-- A value lies in a range. -/
def inRange (v lo hi : Nat) : Bool := decide (lo ≤ v) && decide (v ≤ hi)

/-- CPY's body (R428). -/
def cpyOk (b : List Byte) : Bool :=
  headerOk b 0 && decide (field b 0x20 8 ≤ 2 ^ 40) && decide (field b 0x2C 1 ≤ 1) && zeroBytes b 0x2D 19

/-- Box extent of a dimension of CPYT. -/
def boxExtent (b : List Byte) (d : Nat) : Nat := field b (0x40 + 4 * d) 4

/-- Elements in CPYT's box. -/
def boxSize (b : List Byte) : Nat := boxExtent b 0 * boxExtent b 1 * boxExtent b 2 * boxExtent b 3

/-- CPYT's body (R429). -/
def cpytOk (b : List Byte) : Bool :=
  headerOk b 0 && ((List.range 4).all fun d => inRange (boxExtent b d) 1 65536) && decide (boxSize b ≤ 2 ^ 32)
    && decide (field b 0x70 1 ≤ 3) && decide (field b 0x71 1 ≤ 1) && zeroBytes b 0x72 6
    && decide (field b 0x18 8 + boxSize b * 2 ^ field b 0x70 1 ≤ 2 ^ 64)

/-- A format byte that holds one of the types listed. -/
def fmtByte (b : List Byte) (off : Nat) (l : List Ty) : Bool :=
  match tyCode (field b off 1 % 32) with
  | some t => decide (field b off 1 < 32) && l.contains t
  | none => false

/-- CPYC's body (R432). -/
def cpycOk (b : List Byte) : Bool :=
  headerOk b 0 && inRange (field b 0x28 4) 1 (2 ^ 31) && fmtByte b 0x2C [.f32, .f16, .bf16]
    && fmtByte b 0x2D [.f16, .bf16, .t8, .t6, .e4m3, .e5m2, .e2m1]
    && fmtByte b 0x2E [.f32, .f16, .bf16, .t8, .e4m3, .e5m2]
    && inRange (field b 0x2F 1 % 8) 1 4 && decide (field b 0x2F 1 < 32) && zeroBytes b 0x30 16

/-- CSUM's body (R433). -/
def csumOk (b : List Byte) : Bool :=
  headerOk b 1 && decide (field b 0x18 8 % 8 = 0) && decide (field b 0x20 8 ≤ 2 ^ 40)
    && (blockOp b == 1 || zeroBytes b 0x2C 4) && zeroBytes b 0x30 16

/-- DECQ's body (R434). -/
def decqOk (b : List Byte) : Bool :=
  headerOk b 0 && inRange (field b 0x18 4) 1 (2 ^ 31) && decide (field b 0x1C 1 ≤ 1) && decide (field b 0x1D 1 ≤ 1)
    && zeroBytes b 0x1E 2 && inRange (field b 0x28 4) 1 (2 ^ 31) && decide (field b 0x30 8 % 8 = 0) && zeroBytes b 0x38 8

/-- NETQ's body (R437). -/
def netqOk (b : List Byte) : Bool := headerOk b 3 && inRange (field b 0x20 4) 1 (2 ^ 31) && zeroBytes b 0x26 26

/-- TOPK's body (R439). -/
def topkOk (b : List Byte) : Bool :=
  headerOk b 0 && inRange (field b 0x30 2) 1 1024 && inRange (field b 0x32 1) 1 16 && decide (field b 0x33 1 ≤ 1)
    && inRange (field b 0x34 4) 1 65536 && decide (field b 0x38 1 ≤ 10) && decide (field b 0x39 1 ≤ 16)
    && decide (field b 0x3A 1 ≤ 1) && zeroBytes b 0x3B 5

/-- RMV's body (R441). -/
def rmvOk (b : List Byte) : Bool :=
  headerOk b 0 && inRange (field b 0x28 4) 1 65536 && inRange (field b 0x2C 4) 1 65536
    && decide (field b 0x2C 4 ≤ field b 0x30 4) && decide (field b 0x30 4 % 64 = 0) && decide (field b 0x34 1 ≤ 1)
    && zeroBytes b 0x35 11

/-! ### Enqueueing (R442, R445, R446) -/

/-- The address of a command block (R127). -/
def blockAddr (g : Group) (h : Hdr) (sb : BitVec 7) (disp : Option DWord) (now : Nat) : DWord :=
  BitVec.ofNat 64 (readPlace g (.s sb.toNat) 0 h.uni now) + disp.getD 0

/-- The 64-bit result of a once-per-group instruction (R442). -/
def writeTicket (g : Group) (c : Cls) (h : Hdr) (now : Nat) (d : Dst) (v : Nat) : Group :=
  if h.uni then writeUni g c h.ver now d v
  else writeLanes c h.ver .w32 (takingPart g h .w32 now) now d true (fun _ => v) g

/-- A block read at issue: a load of one lane under the page's request type, without order (R445). Answers the sectors read too. -/
def readBlock (s : State) (g : Group) (lane : Nat) (va : DWord) (n : Nat) : State × Except Trouble (List Byte × List Nat) :=
  let item : Item := ⟨lane, .glob va, n, none, false⟩
  let (s, m, r) := readChecked s (whoOf s g) 15 false id [item]
  match r with
  | .ok l => (s, .ok (l.headD [], (laneSectors s (whoOf s g) m (piecesOf s (whoOf s g) item)).flatMap (·.2)))
  | .error t => (s, .error (t.forGroup g))

/-- The block read is the last load of the lane it was made in, with UNI of every live lane (R253, R254, R445). -/
def noteBlock (g : Group) (h : Hdr) (lane : Nat) (secs : List Nat) : Group :=
  noteLoad g ((if h.uni then liveLanes g else [lane]).map fun i => (i, secs))

/-- What stops an enqueue: MISALIGNED, or what an access raised. -/
def misaligned (g : Group) (lane : Nat) (va : DWord) : Trouble := .raise ⟨10, 0, 0, g.mask, [(lane, va)]⟩

/-- Steps 1 to 4 of R445: the snapshot, the captured translation of STAMPA, and the sectors read. -/
def fetchBlock (s : State) (g : Group) (lane : Nat) (va : DWord) (n : Nat) : State × Except Trouble (List Byte × Phys × List Nat) :=
  if va.toNat % 64 ≠ 0 then (s, .error (misaligned g lane va))
  else
    let (s, r) := readBlock s g lane va n
    match r with
    | .error t => (s, .error t)
    | .ok (b, secs) =>
      let stampa := BitVec.ofNat 64 (field b 0 8)
      if stampa.toNat % 8 ≠ 0 then (s, .error (misaligned g lane stampa))
      else
        let (s, p) := capture s (whoOf s g) stampa .write
        match p with
        | .ok p => (s, .ok (b, p, secs))
        | .error (.page c) => (s, .error (.pages [(stampa.toNat, c, g.mask)]))
        | .error (.lost pa) => (s, .error (.raise (lostRaise [lane] pa)))
        | .error .bad => (s, .error (.raise ⟨8, 0, 0, g.mask, [(lane, stampa)]⟩))

/-- The ticket of an enqueue (R446). -/
def ticketOf (b : List Byte) (q : Queue) : Nat := blockSeq b + queueNum q * 2 ^ 48

/-- A fresh entry. -/
def newEntry (s : State) (gid : Nat) (g : Group) (id opc : Nat) (b : List Byte) (p : Phys) : Entry where
  id := id
  opc := opc
  team := g.team
  gid := gid
  ctx := (whoOf s g).ctx
  part := (whoOf s g).part
  block := b
  stamp := p
  waits := []
  role := none
  slices := []
  counted := []
  malformed := false
  st := .waiting
  pos := []
  buf := []
  result := none
  snap := []
  retries := 0
  since := s.cycle
  grid := gridIdOf s g
  index := match getTeam s g.team with | some t => t.index | none => 0
  grp := g.gnum % 32 + 32 * (g.role % 4)

/-- An engine instruction that takes an entry of its own: CPYT to RMV (R444–R446). -/
def engineOp (s : State) (x : EngOp) (q : Queue) (opc size : Nat) : Out :=
  issue s x.h x.disp.isSome fun s gid g =>
    let len := instrLen x.h x.disp.isSome
    if !dstInRole (roleOf s g) x.h.uni true x.d then raiseIllegal s gid g len
    else
      match actsIn g x.h s.cycle with
      | none => finish s gid g 1 len
      | some lane => withEngine opc q s gid g <|
        let (s, r) := fetchBlock s g lane (blockAddr g x.h x.sb x.disp s.cycle) size
        match r with
        | .error t => takeTrouble s gid g len t
        | .ok (b, p, secs) =>
          let (s, id) := takeId (pushForEntry s g.core g.team)
          let (s, e) := takeSnap s g.core (newEntry s gid g id opc b p)
          let c := getCore s g.core
          let s := setCore s g.core (setEntries c q (entriesOf c q ++ [e]))
          finish s gid (writeTicket (noteBlock g x.h lane secs) .variable x.h s.cycle x.d (ticketOf b q)) 1 len

/-- CPYT (R429). -/
def execCpyt (x : EngOp) (s : State) : Out := engineOp s x .cpy 0xC1 128
/-- CPYC (R432). -/
def execCpyc (x : EngOp) (s : State) : Out := engineOp s x .cpy 0xC2 64
/-- CSUM (R433). -/
def execCsum (x : EngOp) (s : State) : Out := engineOp s x .cpy 0xC3 64
/-- DECQ (R434). -/
def execDecq (x : EngOp) (s : State) : Out := engineOp s x .dec 0xC4 64
/-- STQ (R436). -/
def execStq (x : EngOp) (s : State) : Out := engineOp s x .sto 0xC5 64
/-- NETQ (R437). -/
def execNetq (x : EngOp) (s : State) : Out := engineOp s x .sto 0xC6 64
/-- TOPK (R439). -/
def execTopk (x : EngOp) (s : State) : Out := engineOp s x .root 0xC7 64
/-- RMV (R441). -/
def execRmv (x : EngOp) (s : State) : Out := engineOp s x .root 0xC8 64

/-! ### CPY (R428, R447, R448) -/

/-- The role a CPY's copy belongs to: none for the team's. -/
def copyRole (g : Group) (b : List Byte) : Option Nat := if field b 0x2C 1 = 1 then some g.role else none

/-- Whether an open copy takes the group's slice. -/
def takesSlice (g : Group) (gid : Nat) (b : List Byte) (e : Entry) : Bool :=
  e.opc == 0xC0 && e.st == .waiting && e.team == g.team && cpyOk e.block && e.role == copyRole g b
    && field e.block 0x28 4 == field b 0x28 4 && e.counted.contains gid

/-- A slice joins its copy; a header that differs from the first makes the copy malformed (R428). -/
def joinCopy (gid : Nat) (b : List Byte) (w : QFence) (e : Entry) : Entry :=
  { e with
    slices := e.slices ++ [⟨gid, b⟩]
    counted := e.counted.filter (· != gid)
    waits := e.waits ++ [w]
    malformed := e.malformed || b.take 16 != e.block.take 16 }

/-- CPY (R428, R445–R448). -/
def execCpy (h : Hdr) (sb : BitVec 7) (d : Dst) (mask : DWord) (s : State) : Out :=
  issue s h true fun s0 gid g =>
    let s := s0
    let len := instrLen h true
    if !dstInRole (roleOf s g) h.uni true d then raiseIllegal s gid g len
    else
      match actsIn g h s.cycle with
      | none => finish s gid g 1 len
      | some lane =>
        let (s, r) := fetchBlock s g lane (blockAddr g h sb none s.cycle) 64
        match r with
        | .error t => takeTrouble s gid g len t
        | .ok (b, p, secs) =>
          let (s, id) := takeId (pushForEntry s g.core g.team)
          let c := getCore s g.core
          let w : QFence := ⟨mask.extractLsb' 58 6, id⟩
          let g' := writeTicket (noteBlock g h lane secs) .variable h s.cycle d (ticketOf b .cpy)
          let own := if cpyOk b then c.cpy.find? (takesSlice g gid b) else none
          match own with
          | some e =>
            let l := c.cpy.map fun x => if x.id == e.id then joinCopy gid b w x else x
            finish (setCore s g.core { c with cpy := l }) gid g' 1 len
          | none =>
            if queueFull c .cpy || engineDead s (engineOf g.core 0xC0) then awaitSlot s0 gid g
            else
              let role := copyRole g b
              let e := { newEntry s gid g id 0xC0 b p with
                waits := [w]
                role := role
                slices := [⟨gid, b⟩]
                counted := if cpyOk b then (residents s g.team role).filter (· != gid) else []
                malformed := !cpyOk b }
              finish (setCore s g.core { c with cpy := c.cpy ++ [e] }) gid g' 1 len

/-! ### QSTAT (R449) -/

/-- Entries of a team in a queue. -/
def queueMine (c : Core) (q : Queue) (tid : Nat) : Nat :=
  match q with
  | .mat => (c.mat.filter (·.team == tid)).length
  | .ring => (c.ring.filter (·.team == tid)).length
  | _ => ((entriesOf c q).filter (·.team == tid)).length

/-- QSTAT (R449). -/
def execQstat (h : Hdr) (d : Dst) (q : Queue) (s : State) : Out :=
  issue s h false fun s gid g =>
    let len := instrLen h false
    if !dstInRole (roleOf s g) h.uni true d then raiseIllegal s gid g len
    else
      match actsIn g h s.cycle with
      | none => finish s gid g 1 len
      | some _ =>
        let c := getCore s g.core
        let v := queueMine c q g.team + (queueIds c q).length * 2 ^ 8 + queueCap q * 2 ^ 16
        finish s gid (writeTicket g .variable h s.cycle d v) 1 len

/-! ### LAUNCH (R408, R450, R522) -/

/-- Reads an 8-byte word of a queue under its context. -/
def queueWord (s : State) (w : Who) (va : DWord) : State × Except XErr Nat :=
  let (s, r) := virtRead s w va 8
  match r with
  | .ok b => (s, .ok (leNat b))
  | .error (_, e) => (s, .error e)

/-- A queue is disabled because an access of the scheduler failed, or its tail ran ahead (R408, R522). -/
def dropQueue (s : State) (q cls cause : Nat) (addr : DWord) : State :=
  match tget s.queues q with
  | none => s
  | some b =>
    let (part, ctx) := (queueCtx s b).getD (0, 0)
    let s := { s with queues := tset s.queues q { b with enabled := false } }
    record s { blankRec s part ctx cls with cause := cause, lq := q, addr := addr }

/-- A failed scheduler access to a queue: QUEUE_FAULT (R522); a poisoned word ends the queue's context (R489). -/
def queueFault (s : State) (q : Nat) (addr : DWord) (e : XErr) : State :=
  match e with
  | .page c => dropQueue s q 20 c addr
  | .lost pa =>
    match (tget s.queues q).bind (queueCtx s) with
    | some (part, ctx) =>
      endContext s { blankRec s part ctx 15 with cause := 1, addr := BitVec.ofNat 64 pa }
    | none => s
  | .bad => dropQueue s q 20 0 addr

/-- The block slot of count `n` of a queue (R407). -/
def slotAddr (b : QueueBody) (n : Nat) : DWord := b.base + BitVec.ofNat 64 (n % 2 ^ b.size * 128)

/-- Appends a block to a queue, indivisibly: the result of R450. -/
def appendBlock (s : State) (q : Nat) (b : QueueBody) (w : Who) (blk : List Byte) : State × Nat :=
  let (s, t) := queueWord s w b.tailA
  let (s, h) := queueWord s w b.headA
  match t, h with
  | .ok n, .ok hd =>
    if (n + 2 ^ 64 - hd) % 2 ^ 64 ≥ 2 ^ b.size then (s, 1)
    else
      let (s, r) := virtWrite s w (slotAddr b n) blk
      match r with
      | some (_, e) => (queueFault s q (slotAddr b n) e, 2)
      | none =>
        let (s, r) := virtWrite s w b.tailA (leBytes 8 (n + 1))
        match r with
        | some (_, e) => (queueFault s q b.tailA e, 2)
        | none => ({ s with agenda := .launchQueueTailWrite q :: s.agenda }, n % 2 ^ 48 * 2 ^ 16)
  | .error e, _ => (queueFault s q b.tailA e, 2)
  | _, .error e => (queueFault s q b.headA e, 2)

/-- LAUNCH (R450): all that precedes it in its lanes happens before the launch (R281). -/
def execLaunch (x : EngOp) (q : BitVec 10) (s : State) : Out :=
  issue s x.h x.disp.isSome fun s gid g =>
    let len := instrLen x.h x.disp.isSome
    if !dstInRole (roleOf s g) x.h.uni true x.d then raiseIllegal s gid g len
    else
      match actsIn g x.h s.cycle with
      | none => finish s gid g 1 len
      | some lane =>
        let src := blockAddr g x.h x.sb x.disp s.cycle
        if src.toNat % 64 ≠ 0 then takeTrouble s gid g len (misaligned g lane src)
        else
          let (s, r) := readBlock s g lane src 128
          match r with
          | .error t => takeTrouble s gid g len t
          | .ok (blk, secs) =>
            let g := noteBlock g x.h lane secs
            let done (s : State) (v : Nat) : State := finish s gid (writeTicket g .variable x.h s.cycle x.d v) 1 len
            match tget s.queues q.toNat with
            | none => done s 2
            | some b =>
              match queueCtx s b with
              | none => done s 2
              | some (part, ctx) =>
                if part ≠ (whoOf s g).part ∨ !b.enabled then done s 2
                else
                  let (s, v) := appendBlock (releaseAt s g.core g.team .sys) q.toNat b (scheduler part ctx) blk
                  done s v

end Sys2Proof.Machine
end

