-- ==== Sys2Proof/Machine/Matrix.lean ====
section
/-! DEFINITION. Tiles, accumulators, the matrix queue and batches (spec/15_isa_matrix.md R381–R406,
spec/04_registers_and_numbers.md R97–R108). -/

namespace Sys2Proof.Machine

/-! ### Tiles and accumulators (R381–R383) -/

/-- Line `n` of tile `t`, as a number of 256 bits. -/
def tileLine (g : Group) (t n : Nat) : Nat := leNat (crange g.tiles (t * 2048 + n * 32) 32)

/-- Writes line `n` of tile `t`. -/
def setTileLine (g : Group) (t n v : Nat) : Group := { g with tiles := csetMany g.tiles (t * 2048 + n * 32) (leBytes 32 v) }

/-- Writes every line of tile `t`. -/
def setTile (g : Group) (t : Nat) (line : Nat → Nat) : Group :=
  (List.range 64).foldl (fun g n => setTileLine g t n (line n)) g

/-- Element `k` of a line of elements of `ew` bits. -/
def lineElem (ew line k : Nat) : Nat := line / 2 ^ (ew * k) % 2 ^ ew

/-- The elements of a line, in order. -/
def lineElems (ew line : Nat) : List Nat := (List.range (256 / ew)).map (lineElem ew line)

/-- Element width of a format in a tile (R382). -/
def tileWidth : Ty → Nat
  | .e2m1 => 4
  | .bf16 | .f16 => 16
  | _ => 8

/-- Key of an accumulator's element. -/
def accKey (a row col : Nat) : Nat := a * 4096 + row * 64 + col

/-- Element of an accumulator. -/
def accElem (g : Group) (a row col : Nat) : Nat := (cget g.acc (accKey a row col)).toNat

/-- Writes an element of an accumulator. -/
def setAcc (g : Group) (a row col v : Nat) : Group := { g with acc := cset g.acc (accKey a row col) (BitVec.ofNat 32 v) }

/-! ### Formats of an instruction (R79, R80, R100) -/

/-- The format of an operand code (R80). -/
def operandTy : Nat → Option Ty
  | 0 => some .i8 | 1 => some .e4m3 | 2 => some .e5m2 | 3 => some .t8 | 4 => some .t6 | 5 => some .e2m1 | 6 => some .bf16
  | 7 => some .f16 | _ => none

/-- The classes of R100. -/
inductive MClass where
  | integer | narrow | quarter | wide
  deriving DecidableEq, Repr

/-- ACC of `fmt`: FP32 accumulation. -/
def fmtAcc (fmt : Word) : Bool := fmt.getLsbD 23

/-- SCL of `fmt`. -/
def fmtScl (fmt : Word) : Nat := (fmt.extractLsb' 21 2).toNat

/-- AFMT of `fmt`. -/
def fmtA (fmt : Word) : Option Ty := operandTy (fmt.extractLsb' 28 4).toNat

/-- BFMT of `fmt`. -/
def fmtB (fmt : Word) : Option Ty := operandTy (fmt.extractLsb' 24 4).toNat

/-- A narrow format. -/
def isNarrow : Ty → Bool
  | .e4m3 | .e5m2 | .t8 | .t6 => true
  | _ => false

/-- The class that AFMT, BFMT and ACC select, with the two formats (R100). -/
def classOf (fmt : Word) : Option (MClass × Ty × Ty) :=
  match fmtA fmt, fmtB fmt with
  | some a, some b =>
    if a = .i8 ∧ b = .i8 ∧ !fmtAcc fmt then some (.integer, a, b)
    else if !fmtAcc fmt then none
    else if isNarrow a && isNarrow b then some (.narrow, a, b)
    else if a = .e2m1 ∧ b = .e2m1 then some (.quarter, a, b)
    else if a = .bf16 ∧ (b = .bf16 ∨ b = .f16) then some (.wide, a, b)
    else none
  | _, _ => none

/-- Whether an MMA (or MMAS) accepts `fmt` (R100, R396). -/
def mmaAccepts (fmt : Word) (scaled : Bool) : Bool :=
  match classOf fmt with
  | some (c, _, _) => if scaled then fmtScl fmt == 1 && (c == .narrow || c == .quarter) else fmtScl fmt == 0
  | none => false

/-- Elements of a chunk (R100). -/
def MClass.chunk : MClass → Nat
  | .quarter => 16
  | _ => 8

/-! ### Terms and time (R97–R99, R106) -/

/-- Terms of an integer in non-adjacent form; the fuel is its length (R97). -/
def nafTerms : Nat → Nat → Nat
  | 0, _ => 0
  | fuel + 1, m =>
    if m = 0 then 0
    else if m % 2 = 0 then nafTerms fuel (m / 2)
    else if m % 4 = 1 then nafTerms fuel (m / 2) + 1
    else nafTerms fuel (m / 2 + 1) + 1

/-- Terms of an A operand (R98). -/
def operandTerms (t : Ty) (ftz : Bool) (code : Nat) : Nat :=
  if t = .i8 then nafTerms 16 (sextInt 8 code).natAbs
  else
    match fread t ftz code with
    | .fin _ m _ => nafTerms 16 m
    | _ => 1

/-- Chunk by chunk, the terms of a row's A elements. -/
def rowTerms (c : MClass) (t : Ty) (ftz : Bool) (line : Nat) : List (List Nat) :=
  let l := (lineElems (tileWidth t) line).map (operandTerms t ftz)
  chunks c.chunk (l.length / c.chunk) l

/-- The largest of a list. -/
def listMax (l : List Nat) : Nat := l.foldl max 0

/-- The sum of a list. -/
def listSum (l : List Nat) : Nat := l.foldl (· + ·) 0

/-- Passes of a B format (R99). -/
def passesOf (b : Ty) : Nat := if b = .bf16 ∨ b = .f16 then 2 else 1

/-- Adds a row's cost to its pipe. -/
def dealRow (pipes : List Nat) (j cost : Nat) : List Nat := pipes.set (j % 32) (pipes.getD (j % 32) 0 + max 1 cost)

/-- Array time of rows with the chunks given (R106). -/
def busyTime (passes : Nat) (rows : List (List (List Nat))) : Nat :=
  listMax ((rows.zipIdx).foldl (fun pipes r => dealRow pipes r.2 (listSum (r.1.map fun q => listMax q * passes)))
    (List.replicate 32 0))

/-- What an instruction adds to the four term counters (R108). -/
def termAdds (passes : Nat) (rows : List (List (List Nat))) : List Nat :=
  let qs := rows.flatten
  [listSum (qs.map fun q => listSum q * passes), listSum (qs.map fun q => listMax q * passes),
   listSum (qs.map fun q => listSum (q.map fun t => (listMax q - t) * passes)),
   (qs.filter fun q => listMax q == 0).length]

/-! ### Multiplying (R101–R105) -/

/-- Exact sum of products, −0 only when every one is −0 (R102). -/
def sumProducts : List FVal → FVal
  | [] => .fin false 0 0
  | x :: r => r.foldl (fadd .rne) x

/-- A block's E8M0 scale pair (R102, R104, R397). -/
def blockScale (sa sb : Nat) : FVal :=
  if sa = 255 ∨ sb = 255 then .nan else .fin false 1 ((sa : Int) + sb - 254)

/-- The sum of the narrow and quarter classes: `scale b` is block b's scale (R102). -/
def narrowTotal (t u : Ty) (scale : Nat → FVal) (a b : List Nat) : FVal :=
  sumProducts (((a.zip b).zipIdx).map fun x => fmul (scale (x.2 / 32)) (fmul (fdecode t x.1.1) (fdecode u x.1.2)))

/-- The finite parts of a product. -/
def finParts : FVal → Option (Bool × Nat × Int)
  | .fin n m e => some (n, m, e)
  | _ => none

/-- A product truncated to a multiple of 2^u, in units of 2^u, and whether it lost a bit (R103). -/
def truncTo (u : Int) (p : Bool × Nat × Int) : Int × Bool :=
  let sgn (k : Nat) : Int := if p.1 then -(k : Int) else k
  if p.2.2 ≥ u then (sgn (p.2.1 * 2 ^ (p.2.2 - u).toNat), false)
  else
    let sh := min (u - p.2.2).toNat (p.2.1.log2 + 2)
    (sgn (p.2.1 / 2 ^ sh), p.2.1 % 2 ^ sh != 0)

/-- The sign of the product of largest magnitude (R103); where products of both signs share it, a free one (log 21). -/
def largestSign (ps : List (Bool × Nat × Int)) (tie : Bool) : Bool :=
  let top := ps.foldl (fun b p => if magCmp p.2.1 p.2.2 b.2.1 b.2.2 == .gt then p else b) (false, 0, 0)
  let same := ps.filter fun p => magCmp p.2.1 p.2.2 top.2.1 top.2.2 == .eq
  if same.all (·.1) then true else if same.all fun p => !p.1 then false else tie

/-- The sum of finite products of the wide class (R103). -/
def wideFinite (ps : List (Bool × Nat × Int)) (tie : Bool) : FVal :=
  let live := ps.filter fun p => p.2.1 != 0
  match live with
  | [] => .fin (ps.all (·.1)) 0 0
  | p :: r =>
    let top := r.foldl (fun m q => max m (leadOf q.2.1 q.2.2)) (leadOf p.2.1 p.2.2)
    let u := top - 77
    let parts := live.map (truncTo u)
    let sum := parts.foldl (fun a x => a + x.1) 0
    let sticky := parts.any (·.2)
    let adj : Int :=
      if !sticky then 0
      else if sum > 0 then 1
      else if sum < 0 then -1
      else if largestSign live tie then -1 else 1
    let v := 2 * sum + adj
    .fin (decide (v < 0)) v.natAbs (u - 1)

/-- The sum of the wide class (R103, R104). -/
def wideTotal (t u : Ty) (ftz : Bool) (a b : List Nat) : FVal :=
  let ps := (a.zip b).map fun x => fmul (fread t ftz x.1) (fread u ftz x.2)
  let fins := ps.filterMap finParts
  if fins.length = ps.length then wideFinite fins (Config.wideTie a b) else sumProducts ps

/-- c + total, rounded once; an infinity is not saturated (R102–R104). -/
def accRound (sat : Bool) (c : Nat) (total : FVal) : Nat :=
  let x := fadd .rne (fdecode .f32 c) total
  fround .f32 .rne (sat && x.isFin) x

/-- One element after an MMA or MMAS (R101–R104). -/
def mmaElem (fmt : Word) (c : MClass) (t u : Ty) (scale : Nat → FVal) (old : Nat) (a b : List Nat) : Nat :=
  match c with
  | .integer => dotInt .i8 (fmtSat fmt) (sextInt 32 old) a b
  | .wide => accRound (fmtSat fmt) old (wideTotal t u (fmtFtz fmt) a b)
  | _ => accRound (fmtSat fmt) old (narrowTotal t u scale a b)

/-- The scale of a block for a row and a column, from a scale tile (R397). -/
def tileScale (g : Group) (ts : Option Nat) (row col blk : Nat) : FVal :=
  match ts with
  | none => .fin false 1 0
  | some s =>
    blockScale (cget g.tiles (s * 2048 + row * 2 + blk)).toNat (cget g.tiles (s * 2048 + 128 + col * 2 + blk)).toNat

/-- One live row of an MMA or MMAS (R101–R105). -/
def mmaRow (g0 : Group) (fmt : Word) (c : MClass) (t u : Ty) (a ta tb : Nat) (ts : Option Nat) (g : Group) (row : Nat) : Group :=
  let as := lineElems (tileWidth t) (tileLine g0 ta row)
  (List.range 64).foldl (fun g col =>
    setAcc g a row col (mmaElem fmt c t u (tileScale g0 ts row col) (accElem g0 a row col) as
      (lineElems (tileWidth u) (tileLine g0 tb col)))) g

/-- Rows of a live-row mask. -/
def liveRows (live : BitVec 64) : List Nat := below 64 live.getLsbD

/-! ### Conversion (R401) -/

/-- One element of ACVT. -/
def acvtElem (fmt : Word) (ty : Ty) (c : Nat) : Nat :=
  if fmtAcc fmt then froundF ty (fmtRm fmt) (fmtSat fmt) (fmtFtz fmt) (fdecode .f32 c)
  else if ty = .i8 then truncInt 8 (if fmtSat fmt then clampTo .i8 (sextInt 32 c) else sextInt 32 c)
  else froundF ty (fmtRm fmt) (fmtSat fmt) (fmtFtz fmt) (fint (sextInt 32 c))

/-- A line from its elements. -/
def packLine (ew : Nat) (l : List Nat) : Nat := (l.zipIdx).foldl (fun a x => a + x.1 % 2 ^ ew * 2 ^ (ew * x.2)) 0

/-- Line `n` of ACVT. -/
def acvtLine (g : Group) (fmt : Word) (ty : Ty) (a part n : Nat) : Nat :=
  let ew := tileWidth ty
  packLine ew ((List.range (256 / ew)).map fun k => acvtElem fmt ty (accElem g a n (part * (256 / ew) + k)))

/-! ### The queue (R385–R391) -/

/-- Tile that an entry writes (R387). -/
def MatOp.writesTile : MatOp → Option Nat
  | .tld t _ _ _ | .tasm t _ _ _ | .acvt t _ _ _ => some t
  | _ => none

/-- Tiles that an entry names. -/
def MatOp.tilesOf : MatOp → List Nat
  | .tld t _ _ _ | .tst t _ _ _ | .tasm t _ _ _ | .acvt t _ _ _ => [t]
  | .mma _ ta tb ts _ _ => ta :: tb :: ts.toList

/-- Accumulator that an entry names. -/
def MatOp.accOf : MatOp → Option Nat
  | .mma a _ _ _ _ _ | .acvt _ a _ _ => some a
  | _ => none

/-- Enqueues an entry, which joins the group's open batch (R386, R402). What the lanes did before is performed, or stands in
the core's own L1 and windows, through which the entry's accesses go, so the release of R272 needs no push. -/
def enqueueMat (s : State) (gid : Nat) (g : Group) (word : DWord) (op : MatOp) (pages : Tab Leaf) (k0 : DWord := 0) : State :=
  let (s, n) := takeId s
  let c := getCore s g.core
  setCore s g.core { c with mat := c.mat ++ [⟨n, g.team, gid, g.role, word, op, g.fmt, g.nextBatch, pages, none, [], k0⟩] }

/-- The group an entry belongs to, resident or retired. -/
def entryGroup (s : State) (core gid : Nat) : Option Group :=
  match getGroup s gid with
  | some g => some g
  | none => tget (getCore s core).ghosts gid

/-- Writes the group an entry belongs to. -/
def putEntryGroup (s : State) (core gid : Nat) (g : Group) : State :=
  match getGroup s gid with
  | some _ => setGroup s gid g
  | none =>
    let c := getCore s core
    setCore s core { c with ghosts := tset c.ghosts gid g }

/-- Whether an earlier entry of the group that names a tile (or an accumulator) has not retired (R388). -/
def namedBy (s : State) (gid : Nat) (g : Group) (tile : Option Nat) (acc : Option Nat) : Bool :=
  (getCore s g.core).mat.any fun e =>
    e.gid == gid && ((match tile with | some t => e.op.tilesOf.contains t | none => false)
      || (match acc with | some a => e.op.accOf == some a | none => false))

/-- A tile register lies in the role's allocation. -/
def tileOk (r : Role) (t : BitVec 4) : Bool := decide (t.toNat < r.tiles)

/-- An accumulator lies in the role's allocation. -/
def accOk (r : Role) (a : BitVec 4) : Bool := decide (a.toNat < r.accs)

/-- Lines of TLD and TST: their addresses (R393). -/
def lineAddrs (a : DWord) (stride : Int) (count : Nat) : List DWord := (List.range count).map fun (n : Nat) => moveAddr a ((n : Int) * stride)

/-- TLD and TST at issue (R390, R393, R406). -/
def tileMemOp (s : State) (x : TileMem) (k : Kind) (word : DWord) (op : Nat → DWord → Int → Nat → MatOp) : Out :=
  issue s x.h false fun s gid g => withSlot .mat s gid g <|
    let len := instrLen x.h false
    let r := roleOf s g
    if !tileOk r x.t || !srcInRole r true x.addr || !srcInRole r false x.cnt then raiseIllegal s gid g len
    else
      match actsIn g x.h s.cycle with
      | none => finish s gid g 1 len
      | some i =>
        let a := BitVec.ofNat 64 (readSrc g x.h i s.cycle 64 x.addr)
        let stride := x.stride.toInt * 32
        let count := if x.all then 64 else min (readSrc g x.h i s.cycle 32 x.cnt) 64
        if a.toNat % 32 ≠ 0 then raise s gid g len ⟨10, 0, 0, g.mask, [(i, a)]⟩
        else
          let w := whoOf s g
          let items := (lineAddrs a stride count).map fun va => { lineItem va with lane := i }
          let ps := items.flatMap (piecesOf s w)
          let (s, chk) := checkAccess s w k ps
          if !chk.bad.isEmpty then pageFault s gid g len (chk.bad.map fun p => (p.1, p.2.1, g.mask))
          else
            match walkLost chk.map with
            | some pa => raise s gid g len (lostRaise [i] pa)
            | none =>
              let pages := keepLeaves s w chk.map (distinct (ps.map fun p => p.sec.page))
              finish (enqueueMat s gid g word (op x.t.toNat a stride count) pages) gid g 1 len

/-- TLD (R393). -/
def execTld (x : TileMem) (s : State) : Out := tileMemOp s x .read (entryWord (.tld x)) MatOp.tld

/-- TST (R393). -/
def execTst (x : TileMem) (s : State) : Out := tileMemOp s x .write (entryWord (.tst x)) MatOp.tst

/-- An instruction that acts on a tile or accumulator at issue, after its interlock (R388). -/
def interlocked (s : State) (h : Hdr) (ok : Role → Bool) (tile acc : Option Nat)
    (act : State → Nat → Group → Group × Nat) : Out :=
  issue s h false fun s gid g =>
    let len := instrLen h false
    if !ok (roleOf s g) then raiseIllegal s gid g len
    else if namedBy s gid g tile acc then awaitSlot s gid g
    else
      let (g, beats) := act s gid g
      finish s gid g beats len

/-- TZERO (R394). -/
def execTzero (h : Hdr) (t : BitVec 4) (s : State) : Out :=
  interlocked s h (fun r => tileOk r t) (some t.toNat) none fun s _ g =>
    (if (actsIn g h s.cycle).isSome then { g with tiles := ckeep g.tiles fun k => k / 2048 != t.toNat } else g, 1)

/-- ACLR (R399). -/
def execAclr (h : Hdr) (acc : BitVec 4) (s : State) : Out :=
  interlocked s h (fun r => accOk r acc) none (some acc.toNat) fun s _ g =>
    (if (actsIn g h s.cycle).isSome then { g with acc := ckeep g.acc fun k => k / 4096 != acc.toNat } else g, 1)

/-- ARD and AWR name accumulators and registers within the allocation. -/
def accMoveOk (x : AccMove) (r : Role) : Bool := accOk r x.acc && decide (x.v.toNat + x.n1.toNat < r.regs)

/-- The elements that ARD and AWR move: lane, its row, and the count's index. -/
def accMoveCells (x : AccMove) (part : List Nat) : List (Nat × Nat × Nat) :=
  part.flatMap fun t => (List.range (x.n1.toNat + 1)).map fun q => (t, (if x.hi then 32 else 0) + t, q)

/-- One element that ARD moves into a register; the first of a lane is its latches' new value (R75, R400). -/
def ardCell (x : AccMove) (now : Nat) (part : List Nat) (g0 g : Group) (e : Nat × Nat × Nat) : Group :=
  let t := now + beatOffset .w32 part e.1
  let v := accElem g0 x.acc.toNat e.2.1 (x.col.toNat + e.2.2)
  let g := writePlace g .inter x.h.ver false t (.v (x.v.toNat + e.2.2)) e.1 v
  if e.2.2 = 0 then pushLatch g .inter x.h.ver t e.1 v else g

/-- ARD (R400): an interlocked result. -/
def execArd (x : AccMove) (s : State) : Out :=
  interlocked s x.h (accMoveOk x) none (some x.acc.toNat) fun s _ g =>
    let part := takingPart g x.h .w32 s.cycle
    ((accMoveCells x part).foldl (ardCell x s.cycle part g) g, beatCount .w32 part)

/-- AWR (R400). -/
def execAwr (x : AccMove) (s : State) : Out :=
  interlocked s x.h (accMoveOk x) none (some x.acc.toNat) fun s _ g =>
    let part := takingPart g x.h .w32 s.cycle
    ((accMoveCells x part).foldl (fun g' e =>
      setAcc g' x.acc.toNat e.2.1 (x.col.toNat + e.2.2)
        (readPlace g (.v (x.v.toNat + e.2.2)) e.1 false (s.cycle + beatOffset .w32 part e.1))) g, beatCount .w32 part)

/-- The live rows of R384: M and the lanes enabled. -/
def rowsLive (g : Group) (m : Nat) : BitVec 64 :=
  BitVec.ofNat 64 ((below 64 fun i => decide (i < m) && g.mask.getLsbD (i % 32)).foldl (fun a i => a + 2 ^ i) 0)

/-- MMA and MMAS at issue (R384, R385, R396). -/
def mmaOp (s : State) (x : MmaOp) (scaled : Bool) (word : DWord) : Out :=
  issue s x.h false fun s gid g => withSlot .mat s gid g <|
    let len := instrLen x.h false
    let r := roleOf s g
    if !accOk r x.ad || !tileOk r x.ta || !tileOk r x.tb || (scaled && !tileOk r x.ts) || !srcInRole r false x.rows
        || !mmaAccepts g.fmt scaled then raiseIllegal s gid g len
    else
      let m : Nat := match lowestEnabled g with
        | none => 0
        | some i => if x.all then 64 else min (readSrc g x.h i s.cycle 32 x.rows) 64
      let op := MatOp.mma x.ad.toNat x.ta.toNat x.tb.toNat (if scaled then some x.ts.toNat else none) m (rowsLive g m)
      finish (enqueueMat s gid g word op []) gid g 1 len

/-- MMA (R396). -/
def execMma (x : MmaOp) (s : State) : Out := mmaOp s x false (entryWord (.mma x))

/-- MMAS (R396). -/
def execMmas (x : MmaOp) (s : State) : Out := mmaOp s x true (entryWord (.mmas x))

/-- ACVT at issue (R401). -/
def execAcvt (h : Hdr) (t acc : BitVec 4) (part : BitVec 2) (ty : Ty) (s : State) : Out :=
  issue s h false fun s gid g => withSlot .mat s gid g <|
    let len := instrLen h false
    let r := roleOf s g
    if !tileOk r t || !accOk r acc || (ty == .i8 && fmtAcc g.fmt) then raiseIllegal s gid g len
    else
      match actsIn g h s.cycle with
      | none => finish s gid g 1 len
      | some _ =>
        finish (enqueueMat s gid g (entryWord (.acvt h t acc part ty)) (.acvt t.toNat acc.toNat part.toNat ty) []) gid g 1 len

/-! ### TASM (R395) -/

/-- A value of `n` bytes at a cursor's value address, through L1 under the page's request type, as CVAL reads it (R362). -/
def walkValue (va : DWord) (n : Nat) : Wm Nat := do
  let k ← get
  match secWindow k.s k.w ⟨true, va.toNat / 64, none, false⟩ with
  | some b =>
    let x ← walkWindow b va n
    noteWalk [va]
    return leNat x
  | none =>
    let l ← walkPage va
    let k ← get
    let (s, lines, r) := leafSector k.s k.w l l.rt false 15 false k.lines va
    set { k with s := s, lines := lines }
    match r with
    | .ok d =>
      noteWalk [va]
      pure (sectorValue d (va.toNat % 64) n)
    | .error e => throw (walkErr va e)

/-- The gathering loop: the line and the cursor after it. -/
def gatherLoop (l : Lvl) (ew k0 : Nat) : Nat → Cur → Nat → Wm (Nat × Cur)
  | 0, c, line => pure (line, c)
  | fuel + 1, c, line => do
    if c.done || decide (c.crd ≥ k0 + 256 / ew) then return (line, c)
    let line ← if c.crd < k0 then pure line else do
      let v ← walkValue (valueAddr l c) (ew / 8)
      let at_ := ew * (c.crd - k0)
      pure (line - lineElem ew line (c.crd - k0) * 2 ^ at_ + v * 2 ^ at_)
    gatherLoop l ew k0 fuel (← stepCursor l c) line

/-- One lane of TASM: its line, and its cursor. -/
def gatherLane (c : LaneCtx) (ca : BitVec 4) (k0 : Src) (ew : Nat) : Wm LaneOut := do
  let (cur, v) ← c.readCur ca.toNat
  let l := Lvl.ofNat v
  if !ordered l || l.vw * 8 != ew then throw .state
  let (line, cur) ← gatherLoop l ew (c.src 32 k0) walkFuel cur 0
  return { LaneOut.empty with curs := [curOut ca cur v], val := line }

/-- Gathered lines of one half tile, as bytes. -/
def gatheredBytes (lines : List (Nat × Nat)) : List Byte :=
  (List.range 32).flatMap fun t => leBytes 32 (match lines.find? fun e => e.1 == t with | some e => e.2 | none => 0)

/-- A cursor that TASM has moved: an interlocked result (R388). -/
def putCursor (g : Group) (now lane : Nat) (c : Nat × Nat × Nat) : Group :=
  writePlace (writePlace g .inter .portable false now (.c c.1) lane c.2.1) .inter .portable false now (.cap c.1) lane c.2.2

/-- TASM (R395). DEDUCED (log 38): the k0 that its entry keeps for a save is its lowest lane's. -/
def execTasm (h : Hdr) (t ca : BitVec 4) (k0 : Src) (hi : Bool) (w16 : Bool) (s : State) : Out :=
  issue s h false fun s gid g => withSlot .mat s gid g <|
    let len := instrLen h false
    let r := roleOf s g
    if !tileOk r t || !decide (ca.toNat < r.curs) || !srcInRole r false k0 then raiseIllegal s gid g len
    else
      let part := takingPart g h .w32 s.cycle
      let ctx := fun i => (⟨g, h, i, s.cycle + beatOffset .w32 part i⟩ : LaneCtx)
      let (k, outs) := runLanes (fun i => gatherLane (ctx i) ca k0 (if w16 then 16 else 8)) part (Walker.start s g) []
      let s := k.s
      let errs := laneErrors outs
      if !errs.isEmpty then takeCErr s gid g len errs
      else
        let oks := laneOks outs
        let g' := noteLoad
          (oks.foldl (fun g o => o.2.curs.foldl (fun g c => putCursor g s.cycle o.1 c) g) (k.kept.foldl keepRecord g)) k.reads
        let s' := setGroup s gid g'
        if !capturesFit s gid g' then park s gid g len .capture
        else
          let op := MatOp.tasm t.toNat hi (gatheredBytes (oks.map fun o => (o.1, o.2.val))) (maskOf part)
          let first := (part.head?).elim 0 fun i => (ctx i).src 32 k0
          let s := enqueueMat s' gid g' (entryWord (.tasm h t ca k0 hi w16)) op [] (BitVec.ofNat 64 first)
          finish s gid g' (max 1 (beatCount .w32 part)) len

/-! ### Performing entries (R387, R390) -/

/-- The first entry of a core's matrix queue that has not performed, with those before it. -/
def nextEntry (c : Core) : Option (List MatEntry × MatEntry × List MatEntry) :=
  match c.mat.span fun e => e.finish.isSome with
  | (a, e :: b) => some (a, e, b)
  | (_, []) => none

/-- Whether an earlier entry that writes one of the tiles has not retired. -/
def tileBusy (before : List MatEntry) (gid : Nat) (tiles : List Nat) : Bool :=
  before.any fun e => e.gid == gid && match e.op.writesTile with | some t => tiles.contains t | none => false

/-- Whether a re-entered TLD or TST has yet to be translated (R405). -/
def needsPages (e : MatEntry) : Bool :=
  match e.op with
  | .tld _ _ _ n | .tst _ _ _ n => e.pages.isEmpty && decide (0 < n)
  | _ => false

/-- An entry meets a poisoned sector, or a line that is no codec line: its context ends, without precision (R346, R390,
R489). -/
def entryLost (s : State) (g : Group) (e : XErr) : State :=
  match e with
  | .lost pa =>
    endContext s { groupRec s g 15 with cause := 1, pc := 0, addr := BitVec.ofNat 64 pa }
  | _ => endContext s { groupRec s g 8 with pc := 0 }

/-- A re-entered TLD or TST is translated afresh; a fault parks its group, and a walk that reads a poisoned sector ends its context (R222,
R405, R489). -/
def recaptureEntry (core : Nat) (s : State) (e : MatEntry) : State :=
  let lines : Option (DWord × Int × Nat × Kind) := match e.op with
    | .tld _ a st n => some (a, st, n, .read)
    | .tst _ a st n => some (a, st, n, .write)
    | _ => none
  match lines, getGroup s e.gid with
  | some (a, st, n, k), some g =>
    if !needsPages e then s
    else
      let w := whoOf s g
      let ps := ((lineAddrs a st n).map fun va => lineItem va).flatMap (piecesOf s w)
      let (s, chk) := checkAccess s w k ps
      if !chk.bad.isEmpty then
        match g.wait with
        | .fault _ => s
        | _ => pageFault s e.gid { g with prevVer := g.lastVer, prevMask := g.lastMask } 0 (chk.bad.map fun p => (p.1, p.2.1, g.mask))
      else
        match walkLost chk.map with
        | some pa => entryLost s g (.lost pa)
        | none =>
          let pages := keepLeaves s w chk.map (distinct (ps.map fun p => p.sec.page))
          let c := getCore s core
          setCore s core { c with mat := c.mat.map fun x => if x.id == e.id then { x with pages := pages } else x }
  | _, _ => s

/-- The re-entered entries that `which` selects are translated, in order. -/
def recaptureAll (s : State) (core : Nat) (which : MatEntry → Bool) : State :=
  ((getCore s core).mat.filter which).foldl (recaptureEntry core) s

/-- Whether the next entry of a core's matrix queue may start (R107, R274, R387). -/
def matMayStart (s : State) (core : Nat) (before : List MatEntry) (e : MatEntry) : Bool :=
  let c := getCore s core
  fencesAllow c .mat e.id && !needsPages e &&
    match e.op with
    | .mma _ ta tb ts _ _ => decide (c.arrayFree ≤ s.cycle) && !tileBusy before e.gid (ta :: tb :: ts.toList)
    | .tst t _ _ _ => !tileBusy before e.gid [t]
    | _ => true

/-- The next entry of a kind performs: `act` gives the state, the cycle it retires and its counter adds. -/
def performMat (core : Nat) (kind : MatOp → Bool) (s : State)
    (act : State → MatEntry → Group → State × Nat × List Nat) : Out :=
  match nextEntry (getCore s core) with
  | none => .next s
  | some (before, e, _) =>
    if !kind e.op || !matMayStart s core before e then .next s
    else
      match entryGroup s core e.gid with
      | none => .next s
      | some g =>
        let (s, till, adds) := act s e g
        let c := getCore s core
        .next (setCore s core { c with mat := c.mat.map fun x =>
          if x.id == e.id then { x with finish := some till, terms := adds } else x })

/-- TLD_PERFORM (R390, R393). -/
def execTldPerform (core : Nat) (s : State) : Out :=
  performMat core (fun o => match o with | .tld _ _ _ _ => true | _ => false) s fun s e g =>
    match e.op with
    | .tld t a stride count =>
      let (s, r) := readRuns s (whoOf s g) (leafMap e.pages) ((lineAddrs a stride count).map fun va => lineItem va)
      match r with
      | .error (_, x) => (entryLost s g x, s.cycle, [])
      | .ok lines => (putEntryGroup s core e.gid (setTile g t fun n => leNat (lines.getD n [])), s.cycle, [])
    | _ => (s, s.cycle, [])

/-- TST_PERFORM (R390, R393): where lines overlap, the highest-numbered one stands. -/
def execTstPerform (core : Nat) (s : State) : Out :=
  performMat core (fun o => match o with | .tst _ _ _ _ => true | _ => false) s fun s e g =>
    match e.op with
    | .tst t a stride count =>
      let items := ((lineAddrs a stride count).zipIdx).map fun x => (lineItem x.1, leBytes 32 (tileLine g t x.2))
      let w := whoOf s g
      match (distinct (items.map (·.1.sec))).findSome? fun c => fillsPoison s w items c with
      | some pa => (entryLost s g (.lost pa), s.cycle, [])
      | none =>
        let (s1, ok) := writeRuns s w (leafMap e.pages) items
        let s := noteEntry s core .mat e.id s1
        (if ok then s else entryLost s g .bad, s.cycle, [])
    | _ => (s, s.cycle, [])

/-- TASM_PERFORM (R395). -/
def execTasmPerform (core : Nat) (s : State) : Out :=
  performMat core (fun o => match o with | .tasm _ _ _ _ => true | _ => false) s fun s e g =>
    match e.op with
    | .tasm t hi cells _ =>
      (putEntryGroup s core e.gid { g with tiles := csetMany g.tiles (t * 2048 + if hi then 1024 else 0) cells }, s.cycle, [])
    | _ => (s, s.cycle, [])

/-- ACVT_PERFORM (R401). -/
def execAcvtPerform (core : Nat) (s : State) : Out :=
  performMat core (fun o => match o with | .acvt _ _ _ _ => true | _ => false) s fun s e g =>
    match e.op with
    | .acvt t a part ty => (putEntryGroup s core e.gid (setTile g t fun n => acvtLine g e.fmt ty a part n), s.cycle, [])
    | _ => (s, s.cycle, [])

/-- MMA_EXECUTE (R101–R108, R396): the array is busy from now, the entry retires 12 cycles after that, and the accumulator
holds its sums for every later entry. -/
def execMmaExecute (core : Nat) (s : State) : Out :=
  performMat core (fun o => match o with | .mma _ _ _ _ _ _ => true | _ => false) s fun s e g =>
    match e.op, classOf e.fmt with
    | .mma a ta tb ts _ live, some (c, t, u) =>
      let rows := liveRows live
      let terms := rows.map fun i => rowTerms c t (fmtFtz e.fmt) (tileLine g ta i)
      let busy := busyTime (passesOf u) terms
      let s := putEntryGroup s core e.gid (rows.foldl (mmaRow g e.fmt c t u a ta tb ts) g)
      let k := getCore s core
      (setCore s core { k with arrayFree := s.cycle + busy }, s.cycle + busy + 12, termAdds (passesOf u) terms)
    | _, _ => (s, s.cycle, [])

/-! ### Retirement and batches (R387, R398, R402, R403) -/

/-- Whether batch `b` of a group, counted from 0, or one closed before it, holds an entry that has not retired (R402). -/
def outstanding (c : Core) (gid b : Nat) : Bool := c.mat.any fun e => e.gid == gid && decide (e.batch ≤ b)

/-- A group in MWAITB whose batches have retired goes on (R391, R403): what its entries did happens before what follows,
which its core's loads need no help for, since entries write as its stores do. -/
def wakeBatch (s : State) (gid : Nat) : State :=
  match getGroup s gid with
  | some g =>
    match g.wait with
    | .batch b => if outstanding (getCore s g.core) gid b then s else leaveWait s gid
    | _ => s
  | none => s

/-- An entry's counts join the core's term counters (R108). -/
def addTerms (c : Core) (l : List Nat) : Core :=
  { c with termc := (c.termc.zipIdx).map fun x => x.1 + BitVec.ofNat 64 (l.getD x.2 0) }

/-- MATRIX_ENTRY_RETIRE (R43, R387, R398): the first entry whose time has come leaves the queue. -/
def execMatrixEntryRetire (core : Nat) (s : State) : Out :=
  let c := getCore s core
  match c.mat.find? fun e => match e.finish with | some t => decide (t ≤ s.cycle) | none => false with
  | none => .next s
  | some e =>
    let mat := c.mat.filter fun x => x.id != e.id
    let ghosts := if mat.any fun x => x.gid == e.gid then c.ghosts else tdel c.ghosts e.gid
    .next (wakeSlots (setCore s core (addTerms { c with mat := mat, ghosts := ghosts } e.terms)) core)

/-- MWAITB_WAKE (R403). -/
def execMwaitbWake (gid : Nat) (s : State) : Out := .next (wakeBatch s gid)

/-- The number of a batch (R402). -/
def batchNumber (b : Nat) : Nat := b % (2 ^ 32 - 1) + 1

/-- MFENCE (R402): an interlocked result. -/
def execMfence (h : Hdr) (d : Dst) (s : State) : Out :=
  issue s h false fun s gid g =>
    let len := instrLen h false
    if !dstInRole (roleOf s g) h.uni false d then raiseIllegal s gid g len
    else
      match actsIn g h s.cycle with
      | none => finish s gid g 1 len
      | some _ =>
        let n := batchNumber g.nextBatch
        let g := { g with nextBatch := g.nextBatch + 1 }
        let g' := if h.uni then writeUni g .inter h.ver s.cycle d n
          else writeLanes .inter h.ver .w32 (takingPart g h .w32 s.cycle) s.cycle d false (fun _ => n) g
        finish s gid g' 1 len

/-- The newest closed batch that carries a number (R403). -/
def batchNumbered (closed n : Nat) : Option Nat :=
  let b := n - 1
  if n = 0 ∨ closed ≤ b then none else some (b + (closed - 1 - b) / (2 ^ 32 - 1) * (2 ^ 32 - 1))

/-- MWAITB (R403). -/
def execMwaitb (h : Hdr) (a : Src) (all : Bool) (s : State) : Out :=
  issue s h false fun s gid g =>
    let len := instrLen h false
    if !srcInRole (roleOf s g) false a then raiseIllegal s gid g len
    else
      match actsIn g h s.cycle with
      | none => finish s gid g 1 len
      | some i =>
        let target := if all then (if g.nextBatch = 0 then none else some (g.nextBatch - 1))
          else batchNumbered g.nextBatch (readSrc g h i s.cycle 32 a)
        match target with
        | none => finish s gid g 1 len
        | some b =>
          if outstanding (getCore s g.core) gid b then park (occupy s g 1) gid g len (.batch b)
          else finish s gid g 1 len

end Sys2Proof.Machine
end

