-- ==== Sys2Proof/Machine/Perform.lean ====
section
/-! DEFINITION. Performing the entries of the copy, decompression, storage and root queues
(spec/17_scheduling_and_engines.md R426–R441, spec/10_consistency_model.md R271–R279,
spec/21_host_fabric_storage.md R513–R517). A payload runs over a buffer of the bytes it has produced, which are then
written home, each sector that they cover whole by one write (R490). -/

namespace Sys2Proof.Machine

/-! ### Payloads -/

/-- What stops a payload. -/
inductive EErr where
  | page (va : DWord) (cause : Nat) | lost (pa : Nat) | spoilt (pa : Nat) | bad
  deriving DecidableEq, Repr

/-- An engine at work on an entry. -/
structure Eng where
  s : State
  w : Who
  buf : Tab Byte

/-- A payload's step. -/
abbrev Em := ExceptT EErr (StateM Eng)

/-- What an access error means for an entry. -/
def engErr (va : DWord) : XErr → EErr
  | .page c => .page va c
  | .lost pa => .lost pa
  | .bad => .bad

/-- Bytes at an address, as the entry's own writes have left them. -/
def eRead (va : Nat) (n : Nat) : Em (List Byte) := do
  let k ← get
  let own := (List.range n).map fun i => tget k.buf ((va + i) % 2 ^ 64)
  if own.all Option.isSome then return own.map fun b => b.getD 0
  let (s, r) := virtRead k.s k.w (BitVec.ofNat 64 va) n
  set { k with s := s }
  match r with
  | .ok b => pure (List.zipWith (fun (x : Option Byte) (y : Byte) => x.getD y) own b)
  | .error (a, e) => throw (engErr a e)

/-- Bytes written at an address, into the buffer. -/
def eWrite (va : Nat) (b : List Byte) : Em Unit := do
  let k ← get
  set { k with buf := (b.zipIdx).foldl (fun (t : Tab Byte) (x : Byte × Nat) => tset t ((va + x.2) % 2 ^ 64) x.1) k.buf }

/-- A poisoned sector that a write of part of it would meet, on a codec page one of the line that the write would change (R490). -/
def partialLost (s : State) (w : Who) (va : DWord) (n : Nat) : Option Nat :=
  match (translate s w va .write).2 with
  | .ok l =>
    if l.cmp then (linePoison s (leafPa l va / 256)).map (64 * ·)
    else if s.mem.poison.contains (leafPa l va / 64) && n != 64 then some (leafPa l va) else none
  | .error _ => none

/-- The bytes of a buffer that continue a run, up to the end of its sector. -/
def runFrom : Nat → Tab Byte → List Byte × Tab Byte
  | _, [] => ([], [])
  | a, (k, b) :: r =>
    if k = a then
      if (a + 1) % 64 = 0 then ([b], r)
      else
        let (x, y) := runFrom (a + 1) r
        (b :: x, y)
    else ([], (k, b) :: r)

/-- Writes a buffer home, one run within a sector at a time; stops at a page that does not translate, with what is left.
The fuel is the buffer's length. -/
def flushRuns (w : Who) : Nat → Tab Byte → State → State × Tab Byte × Option EErr
  | 0, t, s => (s, t, none)
  | fuel + 1, t, s =>
    match t with
    | [] => (s, [], none)
    | (a, _) :: _ =>
      let (b, rest) := runFrom a t
      match partialLost s w (BitVec.ofNat 64 a) b.length with
      | some pa =>
        let (s, t, x) := flushRuns w fuel rest s
        (s, t, some (x.getD (.spoilt pa)))
      | none =>
      let (s, r) := virtWrite s w (BitVec.ofNat 64 a) b
      match r with
      | some (va, x) => (s, t, some (engErr va x))
      | none =>
        flushRuns w fuel rest s

/-- Writes an entry's buffer home (R271, R276). -/
def flushBuf (core : Nat) (q : Queue) (e : Entry) (t : Tab Byte) (s : State) : State × Tab Byte × Option EErr :=
  let (s1, t, x) := flushRuns (entryWho core e) t.length t s
  (noteEntry s core q e.id s1, t, x)

/-- Runs a payload's elements k, k + 1, …; answers where it stopped. -/
def runElems (f : Nat → Em Unit) : Nat → Nat → Eng → Eng × Nat × Option EErr
  | 0, k, s => (s, k, none)
  | n + 1, k, s =>
    match ((f k).run s : Except EErr Unit × Eng) with
    | (.ok _, s) => runElems f n (k + 1) s
    | (.error x, s) => (s, k, some x)

/-- What a payload ends with: a status, or what stopped it and where. -/
abbrev Payload := Eng × List Nat × Except EErr (BitVec 16)

/-- A payload of n elements with a status. -/
def elemsPayload (n : Nat) (pos : List Nat) (k : Eng) (f : Nat → Em Unit) (st : BitVec 16) : Payload :=
  let done := pos.headD 0
  let (k, at_, r) := runElems f (n - done) done k
  (k, [at_], match r with | none => .ok st | some x => .error x)

/-- A payload in one piece. -/
def wholePayload (k : Eng) (f : Em (BitVec 16)) : Payload :=
  let (r, k) := (f.run k : Except EErr (BitVec 16) × Eng)
  (k, [], r)

/-- Reads what is left of a run, a page at a time, and answers the bytes read. The fuel is one more than the pages. -/
def gather (va n : Nat) : Nat → List Nat → Eng → Eng × List Nat × Option EErr
  | 0, got, k => (k, got, none)
  | fuel + 1, got, k =>
    if n ≤ got.length then (k, got, none)
    else
      let a := (va + got.length) % 2 ^ 64
      match ((eRead a (min (n - got.length) (65536 - a % 65536))).run k : Except EErr (List Byte) × Eng) with
      | (.ok b, k) => gather va n fuel (got ++ b.map BitVec.toNat) k
      | (.error x, k) => (k, got, some x)

/-- Reads a run of which some bytes have been read (R427). -/
def gatherRun (run : Nat × Nat) (got : List Nat) (k : Eng) : Eng × List Nat × Option EErr :=
  gather run.1 run.2 (run.2 / 65536 + 2) got k

/-- Bytes from numbers. -/
def toBytes (l : List Nat) : List Byte := l.map (BitVec.ofNat 8)

/-- A payload that reads one run and then acts on it: it resumes at the byte it stopped at (R427). -/
def gatherPayload (run : Nat × Nat) (pos : List Nat) (k : Eng) (f : List Byte → Em (BitVec 16)) : Payload :=
  match gatherRun run pos k with
  | (k, got, some x) => (k, got, .error x)
  | (k, got, none) =>
    let p := wholePayload k (f (toBytes got))
    (p.1, got, p.2.2)

/-- Rows r, r + 1, … of a payload, `got` the bytes of row r already read: `f` acts on each row and answers flags, which are joined. -/
def runRows (row : Nat → Nat × Nat) (f : Nat → List Byte → Em Nat) :
    Nat → Nat → Nat → List Nat → Eng → Eng × List Nat × List Nat × Option EErr
  | 0, r, flags, got, k => (k, [r, flags], got, none)
  | n + 1, r, flags, got, k =>
    match gatherRun (row r) got k with
    | (k, got, some x) => (k, [r, flags], got, some x)
    | (k, got, none) =>
      match ((f r (toBytes got)).run k : Except EErr Nat × Eng) with
      | (.ok v, k) => runRows row f n (r + 1) (flags ||| v) [] k
      | (.error x, k) => (k, [r, flags], got, some x)

/-! ### Entries and what ends them (R271, R427) -/

/-- An entry that has not performed its payload. -/
def Entry.open_ (e : Entry) : Bool :=
  match e.st with
  | .done _ => false
  | _ => true

/-- The first entry of a queue that has not performed. -/
def frontEntry (l : List Entry) : Option Entry := l.find? Entry.open_

/-- Writes an entry. -/
def putEntry (s : State) (core : Nat) (q : Queue) (e : Entry) : State :=
  let c := getCore s core
  setCore s core (setEntries c q ((entriesOf c q).map fun x => if x.id == e.id then e else x))

/-- An entry ends with a status: its stamp is written in its turn (R271, R275). -/
def endEntry (s : State) (core : Nat) (q : Queue) (e : Entry) (st : BitVec 16) : State :=
  drainQueue (putEntry s core q { e with st := .done st, buf := [], snap := [] }) core q

/-- The record of an entry's fault (R467). -/
def entryRec (s : State) (core : Nat) (q : Queue) (e : Entry) (cls : Nat) : FaultRec :=
  { blankRec s e.part e.ctx cls with
    flags := 16
    core := core
    lq := match tget s.grids e.grid with | some g => g.queue | none => 0xFFFF
    code := queueNum q
    team := e.index
    grp := e.grp }

/-- What becomes of an entry that an error stopped (R251, R427): a page fault parks it, a poisoned sector ends its context
and stamps DATA_LOST, another fault ends the entry with FAULT. -/
def stopEntry (s : State) (core : Nat) (q : Queue) (e : Entry) (x : EErr) : State :=
  match x with
  | .page va cause =>
    let s := putEntry s core q { e with st := .faulting va cause }
    { s with agenda := .engineEntryPark core q :: s.agenda }
  | .lost pa =>
    let e := { e with st := .started }
    let s := endContext (putEntry s core q e) { entryRec s core q e 15 with cause := 1, addr := BitVec.ofNat 64 pa }
    endEntry s core q e (statusOf 8 0)
  | .spoilt pa =>
    let e := { e with st := .started }
    let s := endContext (putEntry s core q e) { entryRec s core q e 15 with cause := 2, addr := BitVec.ofNat 64 pa }
    endEntry s core q e (statusOf 8 0)
  | .bad => endEntry s core q e (statusOf 2 8)

/-- The first entry of a queue that has stopped at a page: in the storage queue others may be outstanding before it (R427, R516). -/
def faultingEntry (l : List Entry) : Option Entry :=
  l.find? fun e => match e.st with | .faulting _ _ => true | _ => false

/-- ENGINE_ENTRY_PARK (R427, R468): the entry that stopped at a page parks, and its record awaits an ACTION. -/
def execEngineEntryPark (core : Nat) (q : Queue) (s : State) : Out :=
  match faultingEntry (entriesOf (getCore s core) q) with
  | none => .next s
  | some e =>
    match e.st with
    | .faulting va cause =>
      let (s, n) := takeId s
      let s := putEntry s core q { e with st := .parked n }
      .next (record s { entryRec s core q e 1 with
        num := n, cause := cause, flags := 19, addr := va, awaits := .engine core e.id })
    | _ => .next s

/-- Whether what an entry waits for has been done (R274, R428, R447), and its engine takes entries (R493). -/
def entryMayStart (s : State) (core : Nat) (q : Queue) (e : Entry) : Bool :=
  let c := getCore s core
  fencesAllow c q e.id && e.counted.isEmpty && !engineShut s core e
    && e.waits.all fun f => allQueues.all fun p =>
        !inSet f.set p || (queueIds c p).all fun i => decide (f.after ≤ i) || i == e.id

/-- Whether an entry's payload may run now: not started, or resumed after a fault. -/
def Entry.runnable (e : Entry) : Bool := e.st == .waiting || e.st == .started

/-- What an entry's payload leaves: what it left before, when it has already ended. -/
def payloadOf (act : Entry → Eng → Payload) (e : Entry) (k : Eng) : Payload :=
  match e.result with
  | some st => (k, e.pos, .ok st)
  | none => act e k

/-- An entry whose payload ran and whose buffer was written: it ends with its status, or with what stopped it. -/
def settleEntry (s : State) (core : Nat) (q : Queue) (e : Entry) (r : Except EErr (BitVec 16)) (fl : Option EErr) : State :=
  match r, fl with
  | .ok st, none => endEntry s core q e st
  | .error x, none => stopEntry s core q e x
  | .error (.lost pa), some _ => stopEntry s core q e (.lost pa)
  | _, some x => stopEntry s core q e x

/-- The payload of an entry, its buffer, its stamp; before it starts, its core pushes (R272). -/
def runEntry (s : State) (core : Nat) (q : Queue) (e : Entry) (act : Entry → Eng → Payload) : State :=
  let p := payloadOf act e ⟨pushForEntry s core e.team, entryWho core e, e.buf⟩
  let f := flushBuf core q e p.1.buf p.1.s
  settleEntry f.1 core q { e with
    st := .started, pos := p.2.1, buf := f.2.1, result := match p.2.2 with | .ok st => some st | _ => none } p.2.2 f.2.2

/-- Performs the front entry of a queue when it carries an opcode: the payload, its buffer, its stamp. -/
def performEntry (core : Nat) (q : Queue) (opc : Nat) (s : State) (ok : List Byte → Bool) (act : Entry → Eng → Payload) : Out :=
  match frontEntry (entriesOf (getCore s core) q) with
  | none => .next s
  | some e =>
    if e.opc ≠ opc ∨ !e.runnable ∨ !entryMayStart s core q e then .next s
    else if !ok e.block || e.malformed then .next (endEntry s core q e (statusOf 1 3))
    else .next (runEntry s core q e act)

/-! ### Copies (R428–R433) -/

/-- The next bytes of a slice from an offset: within a sector of the destination, and not past what the slice has just
written (ascending order). -/
def copyChunk (src dst len off : Nat) : Nat :=
  let n := min (len - off) (64 - (dst + off) % 64)
  let d := (dst + 2 ^ 64 - src) % 2 ^ 64
  if 0 < d ∧ d < n then d else n

/-- How many bytes of a slice the next piece from an offset moves. -/
def copySize (b : List Byte) (off : Nat) : Nat := copyChunk (field b 0x10 8) (field b 0x18 8) (field b 0x20 8) off

/-- Moves the next piece of a slice from an offset. -/
def copyPiece (b : List Byte) (off : Nat) : Em Unit := do
  eWrite (field b 0x18 8 + off) (← eRead ((field b 0x10 8 + off) % 2 ^ 64) (copySize b off))

/-- The slices of a CPY that are not moved whole; `pos` holds how far each is. -/
def openSlices (sl : List (List Byte)) (pos : List Nat) : List Nat :=
  below sl.length fun i => decide (pos.getD i 0 < field (sl.getD i []) 0x20 8)

/-- The slice that moves next: an order left open (log 12). -/
def nextSlice (sl : List (List Byte)) (pos : List Nat) (k : Eng) : Nat :=
  let todo := openSlices sl pos
  todo.getD (Config.sliceOrder k.s.fresh % todo.length) 0

/-- Slices proceed in an order left open (log 12), each in ascending order, by `move`. -/
def moveSlices (move : List Byte → Nat → Em Unit) (sl : List (List Byte)) : Nat → List Nat → Eng → Payload
  | 0, pos, k => (k, pos, .ok (statusOf 0 0))
  | fuel + 1, pos, k =>
    if (openSlices sl pos).isEmpty then (k, pos, .ok (statusOf 0 0))
    else
      let i := nextSlice sl pos k
      let b := sl.getD i []
      let off := pos.getD i 0
      match ((move b off).run { k with s := { k.s with fresh := k.s.fresh + 1 } } : Except EErr Unit × Eng) with
      | (.ok _, k) => moveSlices move sl fuel (pos.set i (off + copySize b off)) k
      | (.error x, k) => (k, pos, .error x)

/-- A CPY's slices (R428). -/
def copyLoop (sl : List (List Byte)) (fuel : Nat) (pos : List Nat) (k : Eng) : Payload := moveSlices copyPiece sl fuel pos k

/-- CPY_PERFORM (R428, R447). -/
def execCpyPerform (core : Nat) (s : State) : Out :=
  performEntry core .cpy 0xC0 s cpyOk fun e k =>
    let sl := e.slices.map (·.block)
    if sl.any fun b => !cpyOk b then (k, [], .ok (statusOf 1 3))
    else
      copyLoop sl (listSum (sl.map fun b => field b 0x20 8)) (if e.pos.isEmpty then List.replicate sl.length 0 else e.pos) k

/-- A signed field of a block. -/
def sfield (b : List Byte) (off n : Nat) : Int := sextInt (8 * n) (field b off n)

/-- An element of CPYT's box: its packed address, its tensor address (exact), whether it is out of range, and whether its
address overflows (R430). -/
def boxElem (b : List Byte) (lin : Nat) : Nat × Int × Bool × Bool :=
  let size : Nat := 2 ^ field b 0x70 1
  let i := [lin % boxExtent b 0, lin / boxExtent b 0 % boxExtent b 1, lin / (boxExtent b 0 * boxExtent b 1) % boxExtent b 2,
    lin / (boxExtent b 0 * boxExtent b 1 * boxExtent b 2)]
  let c := (List.range 4).map fun d => sfield b (0x20 + 4 * d) 4 + (i.getD d 0 : Int)
  let a := (List.range 4).foldl (fun a d => a + c.getD d 0 * sfield b (0x50 + 8 * d) 8) (field b 0x10 8 : Int)
  let out := (List.range 4).any fun d => decide (c.getD d 0 < 0) || decide (c.getD d 0 ≥ field b (0x30 + 4 * d) 4)
  let ovf := decide (a < 0) || decide (a + size > 2 ^ 64)
  (field b 0x18 8 + lin * size, a, out || ovf || !canonical (BitVec.ofInt 64 a), ovf)

/-- CPYT's status: elements out of range, and OVF (R431). -/
def boxStatus (b : List Byte) : BitVec 16 :=
  let es := (List.range (boxSize b)).map (boxElem b)
  statusOf 0 (min 2047 (es.filter fun e => e.2.2.1).length + if es.any fun e => e.2.2.2 then 2048 else 0)

/-- CPYT_PERFORM (R429–R431). -/
def execCpytPerform (core : Nat) (s : State) : Out :=
  performEntry core .cpy 0xC1 s cpytOk fun e k =>
    let b := e.block
    let size := 2 ^ field b 0x70 1
    elemsPayload (boxSize b) e.pos k (fun lin => do
      let (p, a, out, _) := boxElem b lin
      if field b 0x71 1 = 0 then
        eWrite p (← if out then pure ((b.drop 0x78).take size) else eRead (truncInt 64 a) size)
      else if !out then eWrite (truncInt 64 a) (← eRead p size)) (boxStatus b)

/-- Bytes of an element of a format; half a byte of E2M1 is dealt with apart. -/
def elemBytes (t : Ty) : Nat := if t.bits ≤ 8 then 1 else t.bits / 8

/-- The format that a byte of a block names. -/
def byteTy (b : List Byte) (off : Nat) : Ty := (tyCode (field b off 1)).getD .f32

/-- The rounding mode of CPYC (R432). -/
def cpycMode (n : Nat) : RM :=
  match n with
  | 2 => .rz | 3 => .rup | 4 => .rdn | _ => .rne

/-- One element of CPYC (R432). -/
def cpycElem (b : List Byte) (k : Nat) : Em Unit := do
  let sf := byteTy b 0x2C
  let df := byteTy b 0x2D
  let rf := byteTy b 0x2E
  let res := field b 0x20 8 + k * elemBytes rf
  let m := field b 0x2F 1
  let x0 := fdecode sf (leNat (← eRead (field b 0x10 8 + k * elemBytes sf) (elemBytes sf)))
  let x ← if m.testBit 4 then do
      let r ← eRead res (elemBytes rf)
      pure (fadd .rne x0 (fdecode rf (leNat r)))
    else pure x0
  let y := fround df (cpycMode (m % 8)) (m.testBit 3) x
  if df = .e2m1 then
    let a := field b 0x18 8 + k / 2
    let old ← if k % 2 = 0 then pure [] else eRead a 1
    eWrite a (leBytes 1 (if k % 2 = 0 then y else leNat old % 16 + 16 * y))
  else eWrite (field b 0x18 8 + k * elemBytes df) (leBytes (elemBytes df) y)
  let left := if x.isFin && (fdecode df y).isFin then fround rf .rne true (fadd .rne x (fneg (fdecode df y))) else 0
  eWrite res (leBytes (elemBytes rf) left)

/-- CPYC_PERFORM (R432): COUNT is even for E2M1. -/
def execCpycPerform (core : Nat) (s : State) : Out :=
  performEntry core .cpy 0xC2 s (fun b => cpycOk b && (byteTy b 0x2D != .e2m1 || decide (field b 0x28 4 % 2 = 0))) fun e k =>
    elemsPayload (field e.block 0x28 4) e.pos k (cpycElem e.block) (statusOf 0 0)

/-- CSUM_PERFORM (R349, R433). -/
def execCsumPerform (core : Nat) (s : State) : Out :=
  performEntry core .cpy 0xC3 s csumOk fun e k => gatherPayload (field e.block 0x10 8, field e.block 0x20 8) e.pos k fun d => do
    let b := e.block
    let v := if blockOp b = 0 then crc32c (field b 0x28 8) d else crc64 (field b 0x28 8) d
    eWrite (field b 0x18 8) (leBytes 8 v)
    return statusOf 0 0

/-! ### Decompression (R434, R435) -/

/-- DECQ_PERFORM (R434, R435). -/
def execDecqPerform (core : Nat) (s : State) : Out :=
  performEntry core .dec 0xC4 s decqOk fun e k => gatherPayload (field e.block 0x10 8, field e.block 0x18 4) e.pos k fun src => do
    let b := e.block
    let cap := field b 0x28 4
    let (out, fin) := if field b 0x1C 1 = 0 then inflate cap src else lz4 cap src
    let out := out.take cap
    eWrite (field b 0x20 8) out
    eWrite (field b 0x30 8) (leBytes 8 out.length)
    return match fin with
      | .malformed => statusOf 6 1
      | .capacity => statusOf 6 2
      | .good => if field b 0x1D 1 = 1 ∧ crc32c 0 out ≠ field b 0x2C 4 then statusOf 6 3 else statusOf 0 0

/-! ### Root engines (R438–R441) -/

/-- Translates the pages of runs as reads, and answers the stacks they lie in. -/
def stacksOf (w : Who) : List Nat → State → List Nat → State × Except EErr (List Nat)
  | [], s, acc => (s, .ok (distinct acc))
  | p :: r, s, acc =>
    let va := BitVec.ofNat 64 (p * 65536)
    let (s, x) := translate s w va .read
    match x with
    | .ok l => stacksOf w r s (leafPa l va / 2 ^ 36 :: acc)
    | .error x => (s, .error (engErr va x))

/-- Whether every byte of runs lies in one stack (R438). -/
def oneStack (runs : List (Nat × Nat)) (k : Eng) : Eng × Except EErr Bool :=
  let (s, r) := stacksOf k.w (distinct (runs.flatMap fun x => pagesOf (BitVec.ofNat 64 x.1) x.2)) k.s []
  ({ k with s := s }, r.map fun l => decide (l.length ≤ 1))

/-- The payload of a root engine (R438): every row of its large operand lies in one stack, else detail 5; it reads the run `side` once,
then acts on each row in turn. It resumes where it stopped (R427): `pos` holds the row, the flags so far, the bytes of `side` read, and
the bytes of the row read. -/
def rowsPayload (side : Nat × Nat) (row : Nat → Nat × Nat) (rows : Nat) (f : List Byte → Nat → List Byte → Em Nat)
    (done : Nat → BitVec 16) (pos : List Nat) (k : Eng) : Payload :=
  match if pos.isEmpty then oneStack ((List.range rows).map row) k else (k, .ok true) with
  | (k, .error x) => (k, [], .error x)
  | (k, .ok false) => (k, [], .ok (statusOf 1 5))
  | (k, .ok true) =>
    match gatherRun side ((pos.drop 2).take side.2) k with
    | (k, first, some x) => (k, [0, 0] ++ first, .error x)
    | (k, first, none) =>
      let r := pos.headD 0
      let (k, at_, got, x) := runRows row (f (toBytes first)) (rows - r) r (pos.getD 1 0) (pos.drop (2 + side.2)) k
      (k, at_ ++ first ++ got, match x with | none => .ok (done (at_.getD 1 0)) | some x => .error x)

/-- The winners of a row, in order (R440). -/
def winners (k gmax gshift : Nat) : List (Nat × FVal) → List (Nat × FVal) → List (Nat × FVal)
  | [], acc => acc
  | x :: r, acc =>
    if acc.length ≥ k then acc
    else if gmax = 0 ∨ (acc.filter fun y => y.1 / 2 ^ gshift == x.1 / 2 ^ gshift).length < gmax then
      winners k gmax gshift r (acc ++ [x])
    else winners k gmax gshift r acc

/-- ex(score − top) (R440). -/
def expWeight (score top : FVal) : FVal :=
  match top with
  | .inf true => .fin false 0 0
  | _ =>
    let d := fround .f32 .rne false (fadd .rne score (fneg top))
    match fdecode .f32 d with
    | .inf true => .fin false 0 0
    | x =>
      let t := fround .f32 .rne false (fmul x (fdecode .f32 0x3FB8AA3B))
      fdecode .f32 (specResult .ex2 .f32 .rne false false t)

/-- A score that counts in WMODE 0 (R440). -/
def plainWeight (score : FVal) : FVal :=
  match score with
  | .fin false m e => .fin false m e
  | _ => .fin false 0 0

/-- 1 / m, rounded. -/
def oneOver (m : Nat) : Nat := fround .f32 .rne false (fdivide (.fin false 1 0) (.fin false m 0))

/-- The weights of a row's winners, and whether UNIFORM is set (R440). -/
def rowWeights (wmode : Nat) (win : List (Nat × FVal)) : List Nat × Bool :=
  match win with
  | [] => ([], false)
  | (_, top) :: _ =>
    if top = .inf false then
      let m := (win.filter fun x => x.2 == .inf false).length
      (win.map fun x => if x.2 == .inf false then oneOver m else 0, true)
    else
      let ws := win.map fun x => if wmode = 0 then plainWeight x.2 else expWeight x.2 top
      let total := fsum .rne (.fin false 0 0) ws
      let small : Bool := match total with | .fin _ m e => m == 0 || magCmp m e 1 (-126) == .lt | _ => false
      if small then (win.map fun _ => oneOver win.length, true)
      else (ws.map fun w => fround .f32 .rne false (fdivide w total), false)

/-- The scores that can win, best first, equal ones by number (R440). -/
def rankRow (fmt : Ty) (dead : Nat → Bool) (scores : List Byte) (e : Nat) : List (Nat × FVal) :=
  let n := elemBytes fmt
  let all := (List.range e).map fun i => (i, fdecode fmt (field scores (i * n) n))
  sortBy (fun a b => fcompare a.2 b.2 != .lt) (all.filter fun x => !dead x.1 && !x.2.isNan)

/-- One row of TOPK: its flags (bit 0 UNIFORM, bit 1 SHORT) are the answer. -/
def topkRow (b : List Byte) (mask : List Byte) (row : Nat) (scores : List Byte) : Em Nat := do
  let fmt : Ty := if field b 0x33 1 = 0 then .f32 else .bf16
  let e := field b 0x30 2
  let k := field b 0x32 1
  let dead := fun i => (field mask (i / 8) 1).testBit (i % 8)
  let win := winners k (field b 0x39 1) (field b 0x38 1) (rankRow fmt dead scores e) []
  let (ws, uni) := rowWeights (field b 0x3A 1) win
  for j in List.range k do
    eWrite (field b 0x20 8 + (row * k + j) * 2) (leBytes 2 (match win[j]? with | some x => x.1 | none => 0xFFFF))
    eWrite (field b 0x28 8 + (row * k + j) * 4) (leBytes 4 (ws.getD j 0))
  return (if uni then 1 else 0) + (if win.length < k then 2 else 0)

/-- TOPK_PERFORM (R438–R440). -/
def execTopkPerform (core : Nat) (s : State) : Out :=
  performEntry core .root 0xC7 s topkOk fun e k =>
    let b := e.block
    let size := field b 0x30 2 * if field b 0x33 1 = 0 then 4 else 2
    rowsPayload (field b 0x18 8, if field b 0x18 8 = 0 then 0 else 128) (fun r => (field b 0x10 8 + r * size, size)) (field b 0x34 4)
      (topkRow b) (statusOf 0) e.pos k

/-- One row of RMV (R441). -/
def rmvRow (b vec : List Byte) (row : Nat) (a : List Byte) : Em Nat := do
  let xs := a.map BitVec.toNat
  let ys := vec.map BitVec.toNat
  let v := if field b 0x34 1 = 0 then dotInt .i8 false 0 xs ys
    else accRound false 0 (sumProducts ((xs.zip ys).map fun p => fmul (fdecode .e4m3 p.1) (fdecode .e4m3 p.2)))
  eWrite (field b 0x20 8 + row * 4) (leBytes 4 v)
  return 0

/-- RMV_PERFORM (R438, R441). -/
def execRmvPerform (core : Nat) (s : State) : Out :=
  performEntry core .root 0xC8 s rmvOk fun e k =>
    let b := e.block
    let cols := field b 0x2C 4
    rowsPayload (field b 0x18 8, cols) (fun r => (field b 0x10 8 + r * field b 0x30 4, cols)) (field b 0x28 4)
      (rmvRow b) (fun _ => statusOf 0 0) e.pos k

/-! ### Storage (R276, R277, R436, R515–R517) -/

/-- The number that a binding has in its partition's table. -/
def peerIdx (e : Entry) : Nat := field e.block 0x24 2
/-- The place of a command's namespace binding in its partition's table. -/
def nsIdx (e : Entry) : Nat := 256 + field e.block 0x20 2

/-- The port that a binding names (R506, R513, R515). -/
def bindPort (s : State) (part idx : Nat) : Nat :=
  match (tget s.parts part).bind fun p => tget p.binds idx with
  | some (.peer _ _ _ port _ _ _) => port
  | some (.ns _ _ _ port _ _ _ _) => port
  | none => 0

/-- Whether a port's link is up: it is active, and no failure keeps it down (R504). -/
def linkUp (s : State) (port : Nat) : Bool := decide (port ≤ 8) && !s.offPorts.contains port && !s.linksDown.contains port

/-- The device sends by a port; a link that is down carries nothing (R504). -/
def sendBy (s : State) (port : Nat) (r : Reply) : State :=
  if linkUp s port then { s with replies := s.replies ++ [r] } else s

/-- I/O queue depth of a command's binding (R515). -/
def nsDepth (s : State) (e : Entry) : Nat :=
  match (tget s.parts e.part).bind fun p => tget p.binds (nsIdx e) with
  | some (.ns _ _ _ _ depth _ _ _) => depth
  | _ => 0

/-- LBA size of a command's binding, in bits. -/
def lbaOf (s : State) (e : Entry) : Nat :=
  match nsBinding s e.part (field e.block 0x20 2) with
  | some (lba, _, _) => lba
  | none => 9

/-- Transfer length of a storage command: the length registered when it was submitted, else what its own binding gives (R515, R516). -/
def stqLen (s : State) (e : Entry) : Nat := e.pos.headD (stqBytes e.block (lbaOf s e))

/-- LBA range and buffer range of a storage command. -/
def stqRange (b : List Byte) : Nat × Nat := (field b 0x18 8, field b 0x22 2 + 1)

/-- Whether two ranges meet. -/
def rangesMeet (a an b bn : Nat) : Bool := decide (a < b + bn) && decide (b < a + an)

/-- Whether an outstanding earlier command holds a later one back (R516). -/
def stqBlocks (s : State) (x e : Entry) : Bool :=
  x.opc == 0xC5 && x.st == .started && x.id < e.id &&
    let same := x.part == e.part && field x.block 0x20 2 == field e.block 0x20 2
    let bufs := decide (stqLen s x ≠ 0) && decide (stqLen s e ≠ 0) &&
      rangesMeet (field x.block 0x10 8) (stqLen s x) (field e.block 0x10 8) (stqLen s e)
    let xr := stqRange x.block
    let er := stqRange e.block
    if blockOp e.block = 0 then same && blockOp x.block == 1
    else (same && blockOp x.block != 0 && rangesMeet xr.1 xr.2 er.1 er.2) || bufs

/-- The first storage command that has not been submitted, with every earlier entry done or an outstanding command. -/
def nextStq : List Entry → Option Entry
  | [] => none
  | e :: r =>
    match e.st with
    | .done _ => nextStq r
    | .started => if e.opc = 0xC5 then nextStq r else none
    | .waiting => if e.opc = 0xC5 then some e else none
    | _ => none

/-- Commands outstanding at the binding of a command, over all cores. -/
def outstandingAt (s : State) (e : Entry) : Nat :=
  (s.cores.map fun c => (c.2.sto.filter fun x =>
    x.opc == 0xC5 && x.st == .started && x.part == e.part && nsIdx x == nsIdx e).length).foldl (· + ·) 0

/-- Whether a command must wait to be submitted: an earlier one of its core holds it back (R516), or its binding's I/O queue is full
(R515), which a Flush that the device completes itself does not need. -/
def stqHeld (s : State) (core : Nat) (e : Entry) : Bool :=
  match nsBinding s e.part (field e.block 0x20 2) with
  | none => false
  | some (_, wc, _) => (getCore s core).sto.any (fun x => stqBlocks s x e)
      || ((blockOp e.block != 0 || wc) && decide (nsDepth s e ≤ outstandingAt s e))

/-- Submits a command whose binding is valid (R276, R436, R515). -/
def submitStq (s : State) (core : Nat) (e : Entry) (wc : Bool) (size n : Nat) : State :=
  let b := e.block
  let (slba, blocks) := stqRange b
  let out (s : State) (e : Entry) : State :=
    let s := putEntry s core .sto { e with st := .started, since := s.cycle, pos := [n] }
    let port := bindPort s e.part (nsIdx e)
    sendBy s port (.nvme port core e.id (blockOp b) (BitVec.ofNat 64 slba) blocks (field b 0x24 1 == 1))
  if blockOp b = 0 then (if wc then out s e else endEntry s core .sto e (statusOf 0 0))
  else if slba + blocks > size ∨ n > 2 ^ 20 then endEntry s core .sto e (statusOf 1 3)
  else
    let w := entryWho core e
    let va := BitVec.ofNat 64 (field b 0x10 8)
    if blockOp b = 1 then
      let (s, r) := snapRest s w va.toNat n e.snap
      match r with
      | .ok d => out s { e with snap := d }
      | .error (a, x) => stopEntry s core .sto e (engErr a x)
    else
      let (s, m) := translatePages w .write (pagesOf va n) s []
      match firstBad m with
      | some (p, x) => stopEntry s core .sto e (engErr (firstIn va p) x)
      | none => out s e

/-- STQ_SUBMIT (R276, R436, R515, R516). -/
def execStqSubmit (core : Nat) (s : State) : Out :=
  let c := getCore s core
  match nextStq c.sto with
  | none => .next s
  | some e =>
    if !entryMayStart s core .sto e then .next s
    else if !stqOk e.block then .next (endEntry s core .sto e (statusOf 1 3))
    else
      match nsBinding s e.part (field e.block 0x20 2) with
      | none => .next (endEntry s core .sto e (statusOf 1 6))
      | some (lba, wc, size) =>
        if stqHeld s core e then .next s
        else .next (submitStq (pushForEntry s core e.team) core e wc size (stqBytes e.block lba))

/-- An entry of the storage queues by number, with its core. -/
def storageEntry (s : State) (id : Nat) : Option (Nat × Entry) :=
  s.cores.findSome? fun c => (c.2.sto.find? fun e => e.id == id).map fun e => (c.1, e)

/-- NVME_COMPLETION (R277, R436, R517). -/
def execNvmeCompletion (entry : Nat) (sct : BitVec 3) (sc : BitVec 8) (s : State) : Out :=
  match storageEntry s entry with
  | some (core, e) =>
    if e.opc = 0xC5 ∧ e.st = .started then
      let code := sct.toNat * 256 + sc.toNat
      .next (endEntry s core .sto e (if code = 0 then statusOf 0 0 else statusOf 5 code))
    else .next s
  | none => .next s

/-! ### Peers (R437, R513, R514) -/

/-- A peer binding that is valid. -/
def peerBound (s : State) (part peer : Nat) : Bool :=
  match (tget s.parts part).bind fun p => tget p.binds peer with
  | some (.peer _ _ _ _ _ _ valid) => valid && decide (peer < 256)
  | _ => false

/-- A peer binding's pair in the error state. -/
def peerFailed (s : State) (part peer : Nat) : Bool :=
  match tget s.parts part with
  | some p => p.failed.contains peer
  | none => false

/-- The request of a NETQ entry leaves by its binding's port (R437, R506). -/
def netqOut (s : State) (e : Entry) (data : List Byte) : State :=
  let b := e.block
  let port := bindPort s e.part (peerIdx e)
  sendBy s port (.send port e.part (peerIdx e) (blockOp b) (BitVec.ofNat 64 (field b 0x18 8)) data)

/-- The request of a NETQ entry goes out, and is kept to be sent again (R437, R514). -/
def sendNetq (s : State) (core : Nat) (e : Entry) (data : List Byte) : State :=
  let e := { e with st := .started, since := s.cycle, snap := data.map some }
  netqOut (putEntry s core .sto e) e data

/-- What a NETQ entry sends: its data, its length, or its count (R437). -/
def startNetq (s : State) (core : Nat) (e : Entry) : State :=
  let b := e.block
  let w := entryWho core e
  let va := BitVec.ofNat 64 (field b 0x10 8)
  let n := field b 0x20 4
  match blockOp b with
  | 3 => sendNetq s core e (leBytes 4 n)
  | 1 =>
    let (s, m) := translatePages w .write (pagesOf va n) s []
    match firstBad m with
    | some (p, x) => stopEntry s core .sto e (engErr (firstIn va p) x)
    | none => sendNetq s core e (leBytes 4 n)
  | _ =>
    let (s, r) := virtRead s w va n
    match r with
    | .ok d => sendNetq s core e d
    | .error (a, x) => stopEntry s core .sto e (engErr a x)

/-- NETQ_PERFORM (R437, R513, R514): the front entry, every earlier one done. A get whose data has come and met a fault
writes on when it resumes. -/
def execNetqPerform (core : Nat) (s : State) : Out :=
  match frontEntry (getCore s core).sto with
  | none => .next s
  | some e =>
    let peer := field e.block 0x24 2
    if e.opc ≠ 0xC6 ∨ !entryMayStart s core .sto e then .next s
    else if !e.buf.isEmpty ∧ e.st = .started then
      let (s, buf, fl) := flushBuf core .sto e e.buf s
      match fl with
      | none => .next (endEntry s core .sto e (statusOf 0 0))
      | some x => .next (stopEntry s core .sto { e with buf := buf } x)
    else if e.st ≠ .waiting then .next s
    else if !netqOk e.block then .next (endEntry s core .sto e (statusOf 1 3))
    else if !peerBound s e.part peer then .next (endEntry s core .sto e (statusOf 1 6))
    else if peerFailed s e.part peer then .next (endEntry s core .sto e (statusOf 7 1))
    else .next (startNetq (pushForEntry s core e.team) core e)

/-- NETQ_ACK (R437, R514): the peer's acknowledgement, with a get's data, or its NAK. -/
def execNetqAck (entry : Nat) (nak : Bool) (data : List Byte) (s : State) : Out :=
  match storageEntry s entry with
  | some (core, e) =>
    if e.opc ≠ 0xC6 ∨ e.st ≠ .started ∨ !e.buf.isEmpty then .next s
    else if nak then .next (endEntry s core .sto e (statusOf 7 2))
    else if blockOp e.block = 1 then
      let a := field e.block 0x10 8
      let buf := ((data.take (field e.block 0x20 4)).zipIdx).foldl (fun t x => tset t ((a + x.2) % 2 ^ 64) x.1) []
      let (s, buf, fl) := flushBuf core .sto e buf s
      match fl with
      | none => .next (endEntry s core .sto e (statusOf 0 0))
      | some x => .next (stopEntry s core .sto { e with buf := buf } x)
    else .next (endEntry s core .sto e (statusOf 0 0))
  | none => .next s

/-- The local acknowledgement timeout of 16 µs, in cycles (R514). -/
def ackTimeout : Nat := 33600

/-- Every outstanding entry of a pair ends with NET 3 (R514). -/
def failPair (part peer : Nat) (s : State) (core : Nat) : State :=
  ((getCore s core).sto.filter fun e =>
      e.opc == 0xC6 && e.st == .started && e.part == part && field e.block 0x24 2 == peer).foldl
    (fun s e => endEntry s core .sto e (statusOf 7 3)) s

/-- RDMA_ACK_TIMEOUT (R514): the request is sent again seven times, then NET 3 and the pair in the error state. -/
def execRdmaAckTimeout (entry : Nat) (s : State) : Out :=
  match storageEntry s entry with
  | some (core, e) =>
    if e.opc ≠ 0xC6 ∨ e.st ≠ .started ∨ s.cycle < e.since + ackTimeout then .next s
    else if e.retries < 7 then
      .next (netqOut (putEntry s core .sto { e with retries := e.retries + 1, since := s.cycle }) e (e.snap.map fun b => b.getD 0))
    else
      let peer := field e.block 0x24 2
      let s := match tget s.parts e.part with
        | some p => { s with parts := tset s.parts e.part { p with failed := setIn p.failed peer true } }
        | none => s
      .next ((listedCores s).foldl (failPair e.part peer) s)
  | none => .next s

end Sys2Proof.Machine
end

