-- ==== Sys2Proof/Machine/Fabric.lean ====
section
/-! DEFINITION. What arrives at the ports: frames, RDMA requests, a storage target's accesses, a lost connection
(spec/21_host_fabric_storage.md R504–R517). -/

namespace Sys2Proof.Machine

/-- The arrival at the head has been dealt with. -/
def popArrival (s : State) : State := { s with arrivals := s.arrivals.drop 1 }

/-- An answer goes out, and the arrival is done. -/
def answer (s : State) (r : Reply) : State := { popArrival s with replies := s.replies ++ [r] }

/-- The longest frame (R505). -/
def frameLimit : Nat := 9216

/-- Whether a binding is a peer's and valid, with the identity of a VF. -/
def peerOfVf (vf : Option Nat) : BindBody → Bool
  | .peer _ _ _ _ v _ valid => valid && vf.all (· == v)
  | .ns _ _ _ _ _ _ _ _ => false

/-- Queue pairs that the device holds, of one VF or of all: those of remote endpoints, and one for each valid peer binding (R507, R513). -/
def pairsHeld (s : State) (vf : Option Nat) : Nat :=
  ((s.vfs.filter fun v => vf.all (· == v.1)).map fun v => v.2.qps.length).foldl (· + ·) 0
    + ((s.parts.map fun p => (p.2.binds.filter fun b => peerOfVf vf b.2).length).foldl (· + ·) 0)

/-- Whether the queue pairs are within R507's limits. -/
def pairsFit (s : State) (vf : Nat) : Bool := decide (pairsHeld s (some vf) ≤ 256) && decide (pairsHeld s none ≤ 32768)

/-- Whether a VF is enabled on a port: always on port 0 (R506). -/
def enabledOn (v : Vf) (port : Nat) : Bool := port == 0 || (tget v.ids port).isSome

/-- What changes about the ports outside frames (R504–R507). An inactive port's link never comes up; a queue pair connects where the VF
is enabled on a port whose link is up, and within R507's limits. -/
def portChange (s : State) : PortEvent → State
  | .link port up => if s.offPorts.contains port || decide (8 < port) then s else { s with linksDown := setIn s.linksDown port !up }
  | .classes l => if l.length = 4 then { s with classPrio := l } else s
  | .enable vf port id =>
    match tget s.vfs vf with
    | some v =>
      if 1 ≤ port ∧ port ≤ 8 then
        { s with vfs := tset s.vfs vf { v with ids := match id with | some x => tset v.ids port x | none => tdel v.ids port } }
      else s
    | none => s
  | .connect port vf qp =>
    match tget s.vfs vf with
    | some v =>
      let u := { s with vfs := tset s.vfs vf { v with qps := v.qps ++ [qp] } }
      if linkUp s port && enabledOn v port && pairsFit u vf && !v.qps.contains qp then u else s
    | none => s

/-- FRAME_RECEIVE (R21, R504, R505): a port that is inactive, or whose link is down, receives nothing. What changes about a port is a step
of this kind too (log 80). -/
def execFrameReceive (s : State) : Out :=
  match s.arrivals.head? with
  | some (.port x) => .next (portChange (popArrival s) x)
  | some (.frame port len fcsOk) =>
    let s := popArrival s
    if !linkUp s port then .next s
    else if fcsOk && decide (len ≤ frameLimit) then .next s
    else .next { s with frameDrops := tset s.frameDrops port ((tget s.frameDrops port).getD 0 + 1) }
  | _ => .next s

/-! ### Inbound accesses (R506–R512) -/

/-- What an access to a registration needs (R508). -/
inductive Need where
  | read | write | atomic | signal
  deriving DecidableEq, Repr

/-- Permission of a registration. -/
def RegBody.allows (r : RegBody) : Need → Bool
  | .read => r.read
  | .write => r.write
  | .atomic => r.atomic
  | .signal => r.signal

/-- Steps 1 to 3 of R508. -/
def regOk (v : Vf) (rkey : Word) (va : DWord) (n : Nat) (need : Need) : Bool :=
  match tget v.regs (rkey.toNat % 4096) with
  | some r => r.valid && r.tag.toNat == rkey.toNat / 4096 && decide (r.base.toNat ≤ va.toNat)
      && decide (va.toNat + n ≤ r.base.toNat + r.len.toNat) && r.allows need
  | none => false

/-- The port die acts under a VF's context. -/
def vfWho (v : Vf) : Who := scheduler v.part v.ctx

/-- The VF that a request reaches: it came by a port with a link where the VF is enabled, on a queue pair that the VF holds (R504, R506,
R507). -/
def rdmaVf (s : State) (port vf qp : Nat) : Option Vf :=
  (tget s.vfs vf).filter fun v => linkUp s port && enabledOn v port && v.qps.contains qp

/-- A remote-access-error NAK: nothing is read or written, and the VF's error counter advances (R508). -/
def nakAccess (s : State) (vf qp : Nat) : State :=
  let s := match tget s.vfs vf with
    | some v => { s with vfs := tset s.vfs vf { v with errors := v.errors + 1 } }
    | none => s
  answer s (.nakAccess vf qp)

/-- Whether a write of a range leaves every poisoned sector it touches wholly covered (R490). -/
def poisonCovered (s : State) (m : PageMap) (pieces : List (DWord × Nat × Nat)) : Bool :=
  pieces.all fun x =>
    match m.look x.1 with
    | .ok l =>
      if l.cmp then (linePoison s (leafPa l x.1 / 256)).isNone
      else !s.mem.poison.contains (leafPa l x.1 / 64) || x.2.2 == 64
    | .error _ => true

/-- Steps 4 and 5 of R508 for a write. -/
def writeOk (s : State) (v : Vf) (va : DWord) (n : Nat) : State × Bool :=
  let (s, m) := translatePages (vfWho v) .write (pagesOf va n) s []
  (s, (firstBad m).isNone && poisonCovered s m (sectorPieces va n))

/-- Steps 4 and 5 of R508 for a read. -/
def readOk (s : State) (v : Vf) (va : DWord) (n : Nat) : State × Bool :=
  let (s, m) := translatePages (vfWho v) .read (pagesOf va n) s []
  (s, (firstBad m).isNone && (sectorPieces va n).all fun x =>
    match m.look x.1 with
    | .ok l => if l.cmp then (linePoison s (leafPa l x.1 / 256)).isNone else !s.mem.poison.contains (leafPa l x.1 / 64)
    | .error _ => true)

/-- RDMA_WRITE_INBOUND (R279, R508). What reaches no queue pair is dropped. -/
def execRdmaWriteInbound (s : State) : Out :=
  match s.arrivals.head? with
  | some (.rdmaWrite port vf qp rkey va data) =>
    match rdmaVf s port vf qp with
    | none => .next (popArrival s)
    | some v =>
      if !regOk v rkey va data.length .write then .next (nakAccess s vf qp)
      else
        let (s, ok) := writeOk s v va data.length
        if !ok then .next (nakAccess s vf qp)
        else
          let (s, r) := virtWrite s (vfWho v) va data
          .next (match r with | none => answer s (.ack vf qp) | some _ => nakAccess s vf qp)
  | _ => .next s

/-- RDMA_READ_INBOUND (R508): every check first, and then an acquire at .sys (R265, R509). -/
def execRdmaReadInbound (s : State) : Out :=
  match s.arrivals.head? with
  | some (.rdmaRead port vf qp rkey va n) =>
    match rdmaVf s port vf qp with
    | none => .next (popArrival s)
    | some v =>
      if !regOk v rkey va n .read then .next (nakAccess s vf qp)
      else if !(readOk s v va n).2 then .next (nakAccess s vf qp)
      else
        let (s, r) := virtRead (publishRange s (vfWho v) va n) (vfWho v) va n
        .next (match r with | .ok b => answer s (.readData vf qp b) | .error _ => nakAccess s vf qp)
  | _ => .next s

/-- The word that a remote atomic leaves: CmpSwap compares all 64 bits, FetchAdd wraps (R510). -/
def remoteAtomic (cas : Bool) (cmp val : DWord) (old : Nat) : Nat :=
  if cas then (if old = cmp.toNat then val.toNat else old) else (old + val.toNat) % 2 ^ 64

/-- A remote atomic on a codec page acts on the expanded view (R346, R347); one that the line cannot take is NAKed. -/
def codecAtomic (s : State) (v : Vf) (vf qp pa : Nat) (cas : Bool) (cmp val : DWord) : State :=
  match homeExpanded s (pa / 256) with
  | (s, .error _) => nakAccess s vf qp
  | (s, .ok b) =>
    let old := field b (pa % 256) 8
    let (s, ok) := codecStore s (pa / 2 ^ 38) pa (leBytes 8 (remoteAtomic cas cmp val old)) (vfWho v).tag
    if ok then answer s (.atomicOld vf qp (BitVec.ofNat 64 old)) else nakAccess s vf qp

/-- RDMA_ATOMIC_INBOUND (R246, R510): a release and an acquire at .sys, so what a mark names of its word is published first (R265). -/
def execRdmaAtomicInbound (s : State) : Out :=
  match s.arrivals.head? with
  | some (.rdmaAtomic port vf qp rkey va cas cmp val) =>
    match rdmaVf s port vf qp with
    | none => .next (popArrival s)
    | some v =>
      if va.toNat % 8 ≠ 0 then .next (answer s (.nakInvalid vf qp))
      else if !regOk v rkey va 8 .atomic then .next (nakAccess s vf qp)
      else
        let (s, r) := translate s (vfWho v) va .write
        match r with
        | .error _ => .next (nakAccess s vf qp)
        | .ok l =>
          let pa := leafPa l va
          if (if l.cmp then (linePoison s (pa / 256)).isSome else s.mem.poison.contains (pa / 64)) then .next (nakAccess s vf qp)
          else if !l.sa then .next (answer s (.nakAccess vf qp))
          else if l.cmp then .next (codecAtomic (forcePublishFar s (pa / 64)) v vf qp pa cas cmp val)
          else
            let (s, old) := homeRead64 (forcePublishFar s (pa / 64)) pa
            let s := physWrite s (pa / 2 ^ 38) pa (leBytes 8 (remoteAtomic cas cmp val old)) (vfWho v).tag
            .next (answer s (.atomicOld vf qp (BitVec.ofNat 64 old)))
  | _ => .next s

/-- Reads an 8-byte word of a receive ring at home. -/
def ringWord (s : State) (v : Vf) (va : DWord) : State × Option Nat :=
  let (s, r) := virtRead s (vfWho v) va 8
  match r with
  | .ok b => (s, some (leNat b))
  | .error _ => (s, none)

/-- A remote-operation-error NAK. -/
def nakOperation (s : State) (vf qp : Nat) : State := answer s (.nakOperation vf qp)

/-- A message enters a VF's receive ring, its length first; then the tail advances (R511). -/
def receive (s : State) (vf qp : Nat) (v : Vf) (r : RecvRing) (data : List Byte) : State :=
  let s0 := s
  let (s, h) := ringWord s v r.headA
  let (s, t) := ringWord s v r.tailA
  match h, t with
  | some h, some t =>
    if (t + 2 ^ 64 - h) % 2 ^ 64 ≥ r.count ∨ data.length + 8 > r.slotSize then nakOperation s vf qp
    else
      let slot := r.base + BitVec.ofNat 64 (t % r.count * r.slotSize)
      let (s, ok) := writeOk s v slot (data.length + 8)
      let (s, ok') := writeOk s v r.tailA 8
      if !(ok && ok') then nakOperation s vf qp
      else
        let (s, x) := virtWrite s (vfWho v) slot (leBytes 8 data.length ++ data)
        match x with
        | some _ => nakOperation s vf qp
        | none =>
          let (s, x) := virtWrite s (vfWho v) r.tailA (leBytes 8 (t + 1))
          match x with
          | some _ => nakOperation s vf qp
          | none => answer s (.ack vf qp)
  | _, _ => nakOperation s0 vf qp

/-- RDMA_SEND_INBOUND (R511). -/
def execRdmaSendInbound (s : State) : Out :=
  match s.arrivals.head? with
  | some (.rdmaSend port vf qp data) =>
    match rdmaVf s port vf qp with
    | some v =>
      match v.recv with
      | some r => .next (receive s vf qp v r data)
      | none => .next (nakOperation s vf qp)
    | none => .next (popArrival s)
  | _ => .next s

/-- RDMA_SIGNAL_INBOUND (R249, R512). -/
def execRdmaSignalInbound (s : State) : Out :=
  match s.arrivals.head? with
  | some (.rdmaSignal port vf qp rkey va imm) =>
    match rdmaVf s port vf qp with
    | none => .next (popArrival s)
    | some v =>
      if va.toNat % 16 ≠ 0 then .next (answer s (.nakInvalid vf qp))
      else if !regOk v rkey va 16 .signal then .next (nakAccess s vf qp)
      else
        let (s, r) := translate s (vfWho v) va .write
        match r with
        | .error _ => .next (nakAccess s vf qp)
        | .ok l =>
          let pa := leafPa l va
          if s.mem.poison.contains (pa / 64) || l.cmp then .next (nakAccess s vf qp)
          else .next (answer (barrierUpdate s (pa / 2 ^ 38) pa (vfWho v).tag (arrival imm.toNat)).1 (.ack vf qp))
  | _ => .next s

/-- RDMA_UNSUPPORTED_INBOUND (R507). -/
def execRdmaUnsupportedInbound (s : State) : Out :=
  match s.arrivals.head? with
  | some (.rdmaUnsupported port vf qp) =>
    .next (if (rdmaVf s port vf qp).isSome then answer s (.nakInvalid vf qp) else popArrival s)
  | _ => .next s

/-! ### Storage targets (R516, R517) -/

/-- The outstanding command of a core's storage queue with a number. -/
def outstandingStq (s : State) (core entry : Nat) : Option Entry :=
  (getCore s core).sto.find? fun e => e.id == entry && e.opc == 0xC5 && e.st == .started

/-- TARGET_BUF_ACCESS (R516): a target reads the snapshot of a storage write, or writes the buffer of a storage read, within the
range registered for the command. -/
def execTargetBufAccess (s : State) : Out :=
  match s.arrivals.head? with
  | some (.target core entry write off data len) =>
    let nak := answer s (.target core entry false [])
    match outstandingStq s core entry with
    | none => .next nak
    | some e =>
      let span := stqLen s e
      if write then
        if blockOp e.block ≠ 2 ∨ off + data.length > span then .next nak
        else
          let va := BitVec.ofNat 64 (field e.block 0x10 8 + off)
          let (s1, r) := virtWrite s (entryWho core e) va data
          .next (answer (noteEntry s core .sto e.id s1) (.target core entry r.isNone []))
      else if blockOp e.block ≠ 1 ∨ off + len > span then .next nak
      else .next (answer s (.target core entry true (((e.snap.drop off).take len).map fun b => b.getD 0)))
  | _ => .next s

/-- NVME_CONNECTION_LOST (R517). -/
def execNvmeConnectionLost (s : State) : Out :=
  match s.arrivals.head? with
  | some (.nvmeLost part nsb) =>
    let hit (e : Entry) : Bool := e.opc == 0xC5 && e.st == .started && e.part == part && field e.block 0x20 2 == nsb
    .next ((listedCores s).foldl
      (fun s k => ((getCore s k).sto.filter hit).foldl (fun s e => endEntry s k .sto e (statusOf 7 3)) s) (popArrival s))
  | _ => .next s

end Sys2Proof.Machine
end

