-- ==== Sys2Proof/Machine/Launch.lean ====
section
/-! DEFINITION. Launch queues and launch blocks: reading, eligibility, the checks and refusals, admission of timed work
(spec/17_scheduling_and_engines.md R407–R425, R522; spec/05_encoding_and_assembly.md R143). -/

namespace Sys2Proof.Machine

/-! ### Fields of a block (R409) -/

/-- MODE. -/
def blockMode (b : List Byte) : Nat := field b 0x0C 1

/-- TEAMS. -/
def blockTeams (b : List Byte) : Nat := field b 0x08 4

/-- TIMED. -/
def blockTimed (b : List Byte) : Bool := (field b 0x0D 1).testBit 7

/-- The limits of R409. -/
def blockLegal (b : List Byte) : Bool :=
  let mode := blockMode b
  let n := blockTeams b
  let teamsOk := if mode = 2 then
      decide (2 ≤ n % 16) && decide (n % 16 ≤ 8) && decide (1 ≤ n / 256 % 32) && decide (n / 256 % 32 ≤ 16)
        && n / 16 % 16 == 0 && n / 2 ^ 13 == 0
    else decide (1 ≤ n)
  decide (mode ≤ 2) && teamsOk
    && (if mode = 2 then field b 0 8 == 0 else field b 0 8 % 64 == 0)
    && field b 0x0D 1 / 8 % 16 == 0
    && decide (field b 0x0E 1 ≤ 32) && decide (field b 0x0F 1 ≤ 4) && field b 0x13 1 == 0
    && decide (field b 0x14 4 ≤ 4096)
    && (if field b 0x14 4 = 0 then field b 0x18 8 == 0 else field b 0x18 8 % 8 == 0)
    && (mode != 0 || field b 0x20 8 == 0) && (mode != 2 || field b 0x0E 1 == 0)
    && field b 0x68 8 % 16 == 0
    && (if blockTimed b then decide (1 ≤ field b 0x70 4) else field b 0x70 4 == 0 && field b 0x74 4 == 0)
    && (if mode = 1 then field b 0x78 8 % 16 == 0 else field b 0x78 8 == 0)

/-- Who the scheduler acts as for a block (R522). -/
def gridWho (g : Grid) : Who := scheduler g.part g.ctx

/-- A block is refused: a stamp with REFUSED, or a record when STAMP is invalid (R411). -/
def refuseBlock (s : State) (gid : Nat) (g : Grid) (detail : Nat) : State :=
  let g := { g with st := .ended }
  let (s, ok) := stampGrid { s with grids := tset s.grids gid g } g (statusOf 1 detail)
  if ok then s else refusedRecord s g detail

/-! ### Reading blocks (R408, R410) -/

/-- A grid as its block was read. -/
def readGrid (q part ctx gid seq : Nat) (addr : DWord) (b : List Byte) : Grid where
  queue := q
  block := b
  blockAddr := addr
  seq := seq
  part := part
  ctx := ctx
  st := .read
  waits := []
  eligibleAt := 0
  level := field b 0x0D 1 % 8
  agedAt := 0
  kernel := ⟨0, ⟨8, 12, 4⟩, [], 0, []⟩
  teams := 0
  maps := []
  mapPhys := []
  placed := 0
  endedTeams := 0
  stage := none
  lead := gid
  wanted := 0
  cores := []
  plan := []
  deadline := none
  booking := none
  code := []
  codeLines := []
  oldsFrom := 0
  outcome := none
  overruns := 0

/-- Checks and captures the stamp waits of a block (R410); none when one breaks a limit or does not translate. -/
def captureWaits (w : Who) (b : List Byte) : List Nat → State → List (Nat × Nat × Leaf) → State × Option (List (Nat × Nat × Leaf))
  | [], s, acc => (s, some acc)
  | i :: r, s, acc =>
    let a := field b (0x28 + 16 * i) 8
    let v := field b (0x30 + 16 * i) 8
    if a = 0 then captureWaits w b r s acc
    else if a % 8 ≠ 0 ∨ v ≥ 2 ^ 48 then (s, none)
    else
      let (s, p) := capture s w (BitVec.ofNat 64 a) .read
      match p with
      | .ok p => captureWaits w b r s (acc ++ [(p.pa, v, p.leaf)])
      | .error _ => (s, none)

/-- A block enters the scheduler; one whose waits fail is refused at once (R410). -/
def addBlock (s : State) (q part ctx n : Nat) (addr : DWord) (b : List Byte) : State :=
  let (s, gid) := takeId s
  let g := readGrid q part ctx gid ((n + 1) % 2 ^ 48) addr b
  let s := { s with grids := tset s.grids gid g }
  let (s, ws) := captureWaits (gridWho g) b [0, 1, 2, 3] s []
  match ws with
  | none => refuseBlock s gid g 3
  | some ws => { s with grids := tset s.grids gid { g with waits := ws } }

/-- Whether a partition is frozen for a seed (R494). -/
def isFrozen (s : State) (part : Nat) : Bool :=
  match tget s.parts part with
  | some p => p.frozen
  | none => false

/-- The next block of a queue is read and the head advances (R408). -/
def readNext (s : State) (q part ctx hd left : Nat) (b : QueueBody) : State :=
  let w := scheduler part ctx
  let addr := slotAddr b hd
  let (s, r) := virtRead s w addr 128
  match r with
  | .error (_, e) => queueFault s q addr e
  | .ok blk =>
    let s := addBlock s q part ctx hd addr blk
    let (s, r) := virtWrite s w b.headA (leBytes 8 (hd + 1))
    match r with
    | some (_, e) => queueFault s q b.headA e
    | none => if left > 1 then { s with agenda := .launchQueueTailWrite q :: s.agenda } else s

/-- A context that has ended is open again. DESIGN CHOICE (log 78): system software's request that Fawaile reopen it (R464) is one that
binds a VF to it, or one that enables a launch queue of it. -/
def reopen (s : State) (part ctx : Nat) : State :=
  match tget s.parts part with
  | some p =>
    match tget p.ctxs ctx with
    | some c => if c.ended then { s with parts := tset s.parts part { p with ctxs := tset p.ctxs ctx { c with ended := false } } } else s
    | none => s
  | none => s

/-- The scheduler begins to watch the tail word of a queue whose record has been written, and is to read it (R408, R522). -/
def watchTail (s : State) (q : Nat) : State :=
  match tget s.queues q with
  | none => s
  | some b =>
    match queueCtx s b with
    | none => s
    | some (part, ctx) =>
      if !b.enabled then { s with tails := tdel s.tails q }
      else
        let s := reopen s part ctx
        let (s, r) := capture s (scheduler part ctx) b.tailA .read
        match r with
        | .ok p => { settle s (p.pa / 64) with tails := tset s.tails q ⟨p.pa, true⟩ }
        | .error e => queueFault s q b.tailA e

/-- The tail word of a queue is about to be read. -/
def tailRead (s : State) (q : Nat) : State :=
  { s with tails := match tget s.tails q with | some t => tset s.tails q { t with due := false } | none => s.tails }

/-- LAUNCH_QUEUE_TAIL_WRITE: the scheduler reads the tail word and, one at a time, the blocks it announces (R408). -/
def execLaunchQueueTailWrite (q : Nat) (s : State) : Out :=
  match tget s.queues q with
  | none => .next s
  | some b =>
    match queueCtx s b with
    | none => .next s
    | some (part, ctx) =>
      if !b.enabled || isFrozen s part then .next s
      else
        let w := scheduler part ctx
        let (s, t) := queueWord (tailRead s q) w b.tailA
        let (s, h) := queueWord s w b.headA
        match t, h with
        | .ok t, .ok hd =>
          let n := (t + 2 ^ 64 - hd) % 2 ^ 64
          if n = 0 then .next s
          else if n > 2 ^ b.size then .next (dropQueue s q 18 0 0)
          else .next (readNext s q part ctx hd n b)
        | .error e, _ => .next (queueFault s q b.tailA e)
        | _, .error e => .next (queueFault s q b.headA e)

/-! ### Descriptors, tables and arrays (R143, R416–R420) -/

/-- The scheduler's work on a block: a refusal carries its detail. -/
abbrev Lm := ExceptT Nat (StateM State)

/-- A check whose failure refuses the block. -/
def lmNeed (c : Bool) (detail : Nat) : Lm Unit := if c then pure () else throw detail

/-- Reads under the queue's context. -/
def lmRead (w : Who) (va n detail : Nat) : Lm (List Byte) := do
  let (s, r) := virtRead (← get) w (BitVec.ofNat 64 va) n
  set s
  match r with
  | .ok b => pure b
  | .error _ => throw detail

/-- Reads under the queue's context as an acquire at .sys (R265, R416). -/
def lmAcquire (w : Who) (va n detail : Nat) : Lm (List Byte) := do
  set (publishRange (← get) w (BitVec.ofNat 64 va) n)
  lmRead w va n detail

/-- Translates a range of pages, whole. -/
def lmPages (w : Who) (k : Kind) (va n detail : Nat) : Lm (Tab Leaf) := do
  let (s, m) := translatePages w k (pagesOf (BitVec.ofNat 64 va) n) (← get) []
  set s
  if (firstBad m).isSome then throw detail
  return m.foldl (fun t e => match e.2 with | .ok l => tset t e.1 l | .error _ => t) []

/-- Role r of a descriptor. -/
def roleAt (d : List Byte) (r : Nat) : Role :=
  let o := 0x20 + 8 * r
  ⟨field d o 1, 8 * field d (o + 1) 1, 4 * field d (o + 2) 1, 4 * field d (o + 3) 1, field d (o + 4) 1⟩

/-- Limits of a role (R28). -/
def roleLegal (d : List Byte) (r : Nat) : Bool :=
  let x := roleAt d r
  decide (1 ≤ x.groups) && decide (x.groups ≤ 32) && decide (8 ≤ x.regs) && decide (x.regs ≤ 256)
    && decide (x.curs ≤ 16) && decide (x.tiles ≤ 16) && decide (x.accs ≤ 8) && field d (0x25 + 8 * r) 3 == 0

/-- Bin i of a descriptor. -/
def binAt (d : List Byte) (i : Nat) : BinDecl := ⟨field d (0x40 + 8 * i) 4, field d (0x44 + 8 * i) 2⟩

/-- Limits of a bin (R46). -/
def binLegal (d : List Byte) (i : Nat) : Bool :=
  decide (16 ≤ (binAt d i).timer) && field d (0x46 + 8 * i) 2 == 0

/-- The split of a descriptor. -/
def splitAt_ (d : List Byte) : Split := ⟨field d 8 1, field d 9 1, field d 0xA 1⟩

/-- The limits of R143 on a descriptor. DESIGN CHOICE (log 71): the bytes of role and bin entries at or beyond the role and bin counts
are ignored. -/
def kdescLegal (d : List Byte) : Bool :=
  let sp := splitAt_ d
  let roles := (List.range (field d 0xB 1)).map (roleAt d)
  decide (4 ≤ sp.regs) && decide (2 ≤ sp.l1) && sp.regs + sp.scratch + sp.l1 == 24
    && decide (field d 0xB 1 ≤ 4) && field d 0xC 4 % 4096 == 0 && decide (field d 0xC 4 ≤ sp.scratch * 131072)
    && decide (field d 0x10 1 ≤ 16) && field d 0x11 15 == 0 && field d 0xC0 64 == 0
    && (List.range (field d 0xB 1)).all (roleLegal d) && decide ((roles.map (·.groups)).foldl (· + ·) 0 ≤ 32)
    && (List.range (field d 0x10 1)).all (binLegal d)

/-- The kernel of a descriptor; no role when it declares none. DESIGN CHOICE (log 71): a first-instruction address that is no multiple
of 8 is neither refused nor faulted. -/
def kernelAt (d : List Byte) : Kernel where
  entry := BitVec.ofNat 64 (field d 0 8)
  split := splitAt_ d
  roles := (List.range (field d 0xB 1)).map (roleAt d)
  scratch := field d 0xC 4
  bins := (List.range (field d 0x10 1)).map (binAt d)

/-- Step 3 of R411. -/
def lmKernel (w : Who) (va : Nat) : Lm Kernel := do
  let d ← lmRead w va 256 4
  lmNeed (kdescLegal d) 4
  return kernelAt d

/-- What a stage of a launch asks for; a plain or record launch has one. -/
structure StageAsk where
  kdesc : Nat
  teams : Nat
  cores : Nat
  groups : Nat
  deriving DecidableEq, Repr

/-- Stage entry i of a stage table. -/
def stageAt (t : List Byte) (i : Nat) : StageAsk :=
  ⟨field t (32 * i) 8, field t (32 * i + 8) 4, field t (32 * i + 0xC) 2, field t (32 * i + 0xE) 1⟩

/-- Limits of a stage entry; its reserved bytes are ignored (R5, R418). -/
def stageLegal (t : List Byte) (i : Nat) : Bool :=
  let x := stageAt t i
  x.kdesc % 64 == 0 && decide (1 ≤ x.teams) && decide (1 ≤ x.cores) && decide (x.groups ≤ 32)

/-- Whether a number is a power of two. -/
def isPow2 (n : Nat) : Bool := n == 2 ^ n.log2

/-- Limits of a ring entry at an offset; its reserved bytes are ignored (R5, R418, R420). -/
def ringLegal (t : List Byte) (o stages : Nat) : Bool :=
  let size := field t (o + 8) 4
  let count := field t (o + 0xC) 4
  field t o 8 % 256 == 0 && size % 64 == 0 && decide (64 ≤ size) && decide (size ≤ 65536) && isPow2 count
    && decide (2 ≤ count) && decide (count ≤ 4096) && decide (field t (o + 0x10) 1 < stages)
    && decide (field t (o + 0x11) 1 < stages) && decide (size * count ≤ 2 ^ 20)

/-- A ring of a launch, its slot array translated whole (R420). -/
def lmRing (w : Who) (t : List Byte) (lead stages num : Nat) : Lm Ring := do
  let o := 32 * stages + 32 * num
  lmNeed (ringLegal t o stages) 3
  let base := field t o 8
  let size := field t (o + 8) 4
  let count := field t (o + 0xC) 4
  let pages ← lmPages w .write base (size * count) 3
  let crown := match tget pages (base / 65536) with
    | some l => leafPa l (BitVec.ofNat 64 base) / 2 ^ 38
    | none => 0
  return ⟨lead, num, BitVec.ofNat 64 base, crown, size, count, field t (o + 0x10) 1, field t (o + 0x11) 1, 0, 0, 0, 0, [], []⟩

/-- The rings of a launch. -/
def lmRings (w : Who) (t : List Byte) (lead stages : Nat) : List Nat → Lm (List Ring)
  | [] => pure []
  | n :: r => do
    let x ← lmRing w t lead stages n
    return x :: (← lmRings w t lead stages r)

/-- Descriptors of every stage, in order. -/
def lmKernels (w : Who) : List StageAsk → Lm (List Kernel)
  | [] => pure []
  | a :: r => do
    let k ← lmKernel w a.kdesc
    return k :: (← lmKernels w r)

/-- Tile record i of an array (R416): expert, first row, count, parameter. -/
def tileRecord (a : List Byte) (i : Nat) : Nat × Nat × Nat × Nat :=
  (field a (16 * i) 4, field a (16 * i + 4) 4, field a (16 * i + 8) 4, field a (16 * i + 12) 4)

/-- The teams a tile record expands into (R416). -/
def expandRecord (x : Nat × Nat × Nat × Nat) : List TeamMap :=
  let c := x.2.2.1
  (List.range ((c + 31) / 32)).map fun u =>
    ⟨BitVec.ofNat 32 x.1, BitVec.ofNat 32 (x.2.1 + 32 * u), min 32 (c - 32 * u), BitVec.ofNat 32 x.2.2.2⟩

/-- The roles of a kernel that declares none take their count from the launch (R28, R411). -/
def fillRoles (k : Kernel) (groups : Nat) : Kernel :=
  if k.roles.isEmpty then { k with roles := [⟨groups, 64, 0, 0, 0⟩] } else k

/-- The largest save a kernel's declarations allow (R480). -/
def largestSave (k : Kernel) : Nat :=
  9472 + k.scratch + 13952 + k.roles.foldl (fun a r =>
    a + r.groups * (4704 + 128 * r.regs + 1024 * r.curs + 2048 * r.tiles + 32768 * ((r.accs + 1) / 2))) 0

/-- How often a demand fits, at most 64 times. -/
def fitsTimes (have_ need : Nat) : Nat := if need = 0 then 64 else min 64 (have_ / need)

/-- Teams of a kernel that an empty core of its split holds (R41). -/
def coreCapacity (k : Kernel) : Nat :=
  let sum (f : Role → Nat) : Nat := k.roles.foldl (fun a r => a + r.groups * f r) 0
  [fitsTimes (k.split.regs * 131072) (sum fun r => 128 * r.regs), fitsTimes 128 (sum (·.tiles)),
   fitsTimes 32 (sum (·.accs)), fitsTimes 64 (sum fun _ => 1),
   fitsTimes (k.split.scratch * 131072) k.scratch].foldl min 64

/-! ### Eligibility (R410–R412, R416–R420, R423) -/

/-- What a launch becomes when it is accepted. -/
structure Launch where
  asks : List StageAsk
  kernels : List Kernel
  maps : List TeamMap
  mapPhys : Tab Leaf
  rings : List Ring

/-- The checks of R411 in order, then what R416–R420 read. DESIGN CHOICE (log 89): stage entries are checked before steps 2 and 3, the
ring entries and R419's capacity after step 6. -/
def lmLaunch (gid : Nat) (g : Grid) (qTimed : Bool) (slotLog : Nat) : Lm Launch := do
  let b := g.block
  let w := gridWho g
  let mode := blockMode b
  let stages := blockTeams b % 16
  let rings := blockTeams b / 256 % 32
  lmNeed (blockLegal b) 3
  let table ← if mode = 2 then lmRead w (field b 0x20 8) (32 * (stages + rings)) 3 else pure []
  lmNeed (mode != 2 || (List.range stages).all (stageLegal table)) 3
  let asks := if mode = 2 then (List.range stages).map (stageAt table)
    else [⟨field b 0 8, blockTeams b, 0, field b 0x0E 1⟩]
  lmNeed (blockTimed b == qTimed) 3
  let ks ← lmKernels w asks
  lmNeed (field b 0x10 4 == 0 || ks.all fun k => k.split == ⟨field b 0x10 1, field b 0x11 1, field b 0x12 1⟩) 3
  lmNeed ((ks.zip asks).all fun x => x.1.roles.isEmpty == decide (x.2.groups ≠ 0)) 3
  let ks := (ks.zip asks).map fun x => fillRoles x.1 x.2.groups
  lmNeed (ks.all fun k => decide (largestSave k ≤ 2 ^ slotLog)) 4
  let recs ← if mode = 1 then do
      let a ← lmAcquire w (field b 0x20 8) (16 * blockTeams b) 3
      pure ((List.range (blockTeams b)).map (tileRecord a))
    else pure []
  let count : Nat := recs.foldl (fun (n : Nat) (r : Nat × Nat × Nat × Nat) => n + (r.2.2.1 + 31) / 32) 0
  lmNeed (decide (count < 2 ^ 32)) 3
  let phys ← if mode = 1 then lmPages w .write (field b 0x78 8) (16 * count) 3 else pure []
  let rs ← if mode = 2 then lmRings w table gid stages (List.range rings) else pure []
  lmNeed (mode != 2 || (ks.zip asks).all fun x => decide (x.2.teams ≤ x.2.cores * coreCapacity x.1)) 3
  let asks := if mode = 1 then asks.map fun a => { a with teams := count } else asks
  return ⟨asks, ks, recs.flatMap expandRecord, phys, rs⟩

/-- Cores reserved for a partition's timed work that are active (R422). -/
def timedCores (s : State) (part : Nat) : List Nat :=
  match tget s.timed part with
  | some t => t.cores.filter fun k => !s.offCores.contains k && !(getCore s k).dead
  | none => []

/-- Whether a timed booking of a partition covers the present (R422, R423): bookings follow one another. -/
def booked (s : State) (part : Nat) : Bool :=
  match tget s.timed part with
  | some t => decide (timeOf s < t.bookedTo)
  | none => false

/-- A core with no resident. -/
def coreIdle (s : State) (k : Nat) : Bool :=
  !(s.teams.any fun t => t.2.core == k && t.2.st != .saved) && !(s.groups.any fun g => g.2.core == k)

/-- Whether a core neither drains for another split nor is re-formed (R66, R67). -/
def coreSettled (s : State) (k : Nat) : Bool :=
  let c := getCore s k
  c.drain.isNone && match c.reconf with | some t => decide (t ≤ s.cycle) | none => true

/-- Whether a core runs a split and takes teams (R66, R67). -/
def coreOpen (s : State) (k : Nat) (sp : Split) : Bool := (getCore s k).split == sp && coreSettled s k

/-- Teams of an accepted launch that the timed cores take at once (R423). -/
def timedSlots (s : State) (part : Nat) (l : Launch) : Nat :=
  let cores := timedCores s part
  match l.kernels with
  | [k] => cores.length * coreCapacity k
  | _ =>
    if (l.asks.map (·.cores)).foldl (· + ·) 0 ≤ cores.length then (l.asks.map (·.teams)).foldl (· + ·) 0 else 0

/-- Admission of a timed launch (R423): a refusal, or its deadline with the end of its booking, none when it books
nothing. A core that is drained or re-formed at A has not the kernel's split yet (R68). -/
def admitTimed (s : State) (g : Grid) (l : Launch) : Except Nat (Nat × Option Nat) :=
  let now := timeOf s
  let ask := field g.block 0x74 4
  let teams := (l.asks.map (·.teams)).foldl (· + ·) 0
  if teams = 0 then .ok (if ask = 0 then now + 2000 else now + ask, none)
  else
    let slots := timedSlots s g.part l
    if slots = 0 then .error 1
    else
      let waves := (teams + slots - 1) / slots
      let per := (field g.block 0x70 4 * 10 + 20) / 21
      let start := max now (match tget s.timed g.part with | some t => t.bookedTo | none => 0)
      let ready := (timedCores s g.part).all fun k =>
        coreIdle s k && l.kernels.all fun x => coreOpen s k x.split
      let bound := start + (if ready then 0 else 112000) + waves * (per + 1000) + 2000
      let deadline := if ask = 0 then bound else now + ask
      if bound > deadline then .error 2 else .ok (deadline, some bound)

/-- The acceptance word of a timed block (R412). -/
def writeAccept (s : State) (g : Grid) (deadline : Nat) : State :=
  (virtWrite s (gridWho g) (BitVec.ofNat 64 (field g.block 0x68 8 + 8)) (leBytes 8 deadline)).1

/-- DRAM as the homes would answer now: what the owners of sectors hold dirty over it (R114, R231). -/
def codeNow (s : State) : List Host.Cell :=
  (s.mem.copies.filter fun c => c.st == .owned && c.dirty != 0).foldl
    (fun d c => csetMany (w := 8) d (64 * c.sector) (bytesAt (coherentData s c.sector) 0 64)) s.mem.dram

/-- The grid of a stage of an accepted launch. -/
def stageGrid (s : State) (g : Grid) (l : Launch) (deadline booking : Option Nat) (i : Nat) : Grid :=
  let ask := l.asks.getD i ⟨0, 0, 0, 0⟩
  { g with
    st := .eligible
    eligibleAt := s.cycle
    agedAt := s.cycle
    kernel := l.kernels.getD i g.kernel
    teams := ask.teams
    maps := l.maps
    mapPhys := l.mapPhys
    stage := if l.rings.isEmpty then none else some i
    wanted := ask.cores
    plan := if i = 0 then l.rings else []
    deadline := deadline
    booking := booking
    code := codeNow s
    codeLines := s.mem.codec
    oldsFrom := s.mem.olds.length }

/-- The grids of an accepted launch: the block's own is stage 0's (R418). -/
def addStages (g : Grid) (l : Launch) (deadline booking : Option Nat) : List Nat → State → State
  | [], s => s
  | i :: r, s =>
    let (s, gid) := if i = 0 then (s, g.lead) else takeId s
    addStages g l deadline booking r { s with grids := tset s.grids gid (stageGrid s g l deadline booking i) }

/-- A launch that passed its checks is admitted (R413, R423). -/
def acceptLaunch (s : State) (gid : Nat) (g : Grid) (l : Launch) : State :=
  let stages := List.range l.asks.length
  -- with no grid running, no fetch asks for earlier contents (R114)
  let s := if s.grids.any fun e => e.2.st == .eligible then s else { s with mem := { s.mem with olds := [] } }
  if !blockTimed g.block then addStages g l none none stages s
  else if isFrozen s g.part then refuseBlock s gid g 1
  else
    match admitTimed s g l with
    | .error d => refuseBlock s gid g d
    | .ok (deadline, till) =>
      let s := writeAccept s g deadline
      let s := match till, tget s.timed g.part with
        | some e, some t => { s with timed := tset s.timed g.part { t with bookedTo := e } }
        | _, _ => s
      addStages g l (some deadline) till stages s

/-- The datum of a stamp wait, as an acquire at .sys reads it, which forces a marked sector's cores to publish (R265, R346, R410); none
where it cannot be read: a poisoned sector, or a line of a codec page that is no codec line. -/
def waitDatum (s : State) (w : Nat × Nat × Leaf) : State × Except XErr Nat :=
  let s := reachKept (forcePublishFar s (w.1 / 64)) (ownerOf s w.1) w.2.2 w.1
  if w.2.2.cmp then
    match homeExpanded s (w.1 / 256) with
    | (s, .ok b) => (s, .ok (field b (w.1 % 256) 8))
    | (s, .error e) => (s, .error e)
  else if s.mem.poison.contains (w.1 / 64) then (s, .error (.lost w.1))
  else
    let (s, v) := homeRead64 s w.1
    (s, .ok v)

/-- Tests the stamp waits of a block (R410). -/
def testWaits : List (Nat × Nat × Leaf) → State → State × Bool
  | [], s => (s, true)
  | w :: r, s =>
    match waitDatum s w with
    | (s, .ok v) => if w.2.1 ≤ v % 2 ^ 48 then testWaits r s else (s, false)
    | (s, .error _) => (s, false)

/-- Whether the stamp waits of a block are met (R410). -/
def waitsMet (s : State) (g : Grid) : Bool := (testWaits g.waits s).2

/-- The record of a stamp wait that cannot be read, which ends its context: DATA_LOST or BAD_BLOCK (R346, R489). -/
def waitRec (s : State) (g : Grid) : Option FaultRec :=
  g.waits.findSome? fun w =>
    match (waitDatum s w).2 with
    | .ok _ => none
    | .error (.lost pa) =>
      some { blankRec s g.part g.ctx 15 with cause := 1, lq := g.queue, addr := BitVec.ofNat 64 pa }
    | .error _ => some { blankRec s g.part g.ctx 8 with lq := g.queue, addr := BitVec.ofNat 64 w.1 }

/-- Whether an earlier block of the queue has not become eligible (R410). -/
def heldBack (s : State) (gid : Nat) (g : Grid) : Bool :=
  s.grids.any fun e => decide (e.1 < gid) && e.2.queue == g.queue && e.2.st == .read

/-- BLOCK_ELIGIBLE (R410, R411). -/
def execBlockEligible (gid : Nat) (s : State) : Out :=
  match tget s.grids gid with
  | none => .next s
  | some g =>
    if g.st ≠ .read ∨ heldBack s gid g then .next s
    else if !waitsMet s g then .next (match waitRec s g with | some r => endContext s r | none => s)
    else
      let s := (testWaits g.waits s).1
      let qTimed := match tget s.queues g.queue with | some q => q.timed | none => false
      let slotLog := match tget s.parts g.part with | some p => p.body.slotLog | none => 0
      let (r, s) := ((lmLaunch gid g qTimed slotLog).run s : Except Nat Launch × State)
      match r with
      | .error d => .next (refuseBlock s gid g d)
      | .ok l => .next (acceptLaunch s gid g l)

/-- Cycles in 10 ms. -/
def agingCycles : Nat := 21000000

/-- PRIORITY_AGING (R414). -/
def execPriorityAging (gid : Nat) (s : State) : Out :=
  match tget s.grids gid with
  | none => .next s
  | some g =>
    if g.st = .eligible ∧ g.deadline.isNone ∧ g.placed < g.teams ∧ g.agedAt + agingCycles ≤ s.cycle then
      .next { s with grids := tset s.grids gid { g with level := min 7 (g.level + 1), agedAt := g.agedAt + agingCycles } }
    else .next s

end Sys2Proof.Machine
end

