-- ==== Sys2Proof/Machine/Ring.lean ====
section
/-! DEFINITION. Stage rings (spec/18_isa_engines_and_system.md R451–R453, spec/17_scheduling_and_engines.md R418–R421). -/

namespace Sys2Proof.Machine

/-! ### Issue (R451–R453) -/

/-- The ring that a group's instruction names, and the stage it issues from. -/
def ringOf (s : State) (g : Group) (num : Nat) : Option (Ring × Nat) :=
  match gridOf s g with
  | none => none
  | some gr =>
    match gr.stage with
    | none => none
    | some st => (s.rings.find? fun r => r.lead == gr.lead && r.num == num).map fun r => (r, st)

/-- Whether an operation is the producer's. -/
def ringProduces (op : Nat) : Bool := op ≤ 1

/-- Conditions of R453 at issue. -/
def ringOk (s : State) (g : Group) (op num n : Nat) : Bool :=
  match ringOf s g num with
  | none => false
  | some (r, st) => decide (n ≤ r.count) && st == if ringProduces op then r.producer else r.consumer

/-- A ring instruction enters the ring queue, its result owed (R446, R452). Its release is performed at the enqueue. -/
def ringOp (s : State) (x : RingOp) (op : Nat) (word : DWord) : Out :=
  issue s x.h false fun s gid g =>
    let len := instrLen x.h false
    if !dstInRole (roleOf s g) x.h.uni true x.d then raiseIllegal s gid g len
    else
      match actsIn g x.h s.cycle with
      | none => finish s gid g 1 len
      | some _ => withSlot .ring s gid g <|
        let n := x.n1.toNat + 1
        if !ringOk s g op x.ring.toNat n then raise s gid g len ⟨13, 0, 0, g.mask, []⟩
        else
          let first := readPlace g (.s x.sb.toNat) 0 x.h.uni s.cycle % 2 ^ 32
          let s := pushForEntry s g.core g.team
          let s := if op % 2 = 1 then releaseAt s g.core g.team .dev else s
          let (s, id) := takeId s
          let c := getCore s g.core
          let s := setCore s g.core { c with ring := c.ring ++ [⟨id, op, g.team, gid, g.pc, word, x.ring.toNat, first, n, none⟩] }
          finish s gid (writeTicket g (.owed id) x.h s.cycle x.d 0) 1 len

/-- RRES (R451, R452). -/
def execRres (x : RingOp) (s : State) : Out := ringOp s x 0 (entryWord (.rres x))
/-- RPUB (R451, R452). -/
def execRpub (x : RingOp) (s : State) : Out := ringOp s x 1 (entryWord (.rpub x))
/-- RTAKE (R451, R452). -/
def execRtake (x : RingOp) (s : State) : Out := ringOp s x 2 (entryWord (.rtake x))
/-- RREL (R451, R452). -/
def execRrel (x : RingOp) (s : State) : Out := ringOp s x 3 (entryWord (.rrel x))

/-! ### Performing (R421, R452, R453) -/

/-- Counters modulo 2³². -/
def sub32 (a b : Nat) : Nat := (a + 2 ^ 32 - b % 2 ^ 32) % 2 ^ 32

/-- The counter values i … i + n − 1. -/
def slotRun (i n : Nat) : List Nat := (List.range n).map fun k => (i + k) % 2 ^ 32

/-- A counter advances over a run of marked slots; the fuel is the number of marks. -/
def runOver (marks : List Nat) : Nat → Nat → Nat
  | 0, c => c
  | fuel + 1, c => if marks.contains c then runOver marks fuel ((c + 1) % 2 ^ 32) else c

/-- What a ring entry does: it waits, finds a bad slot, or gives a ring and a result (R452). -/
inductive RingAct where
  | wait | bad | done (r : Ring) (result : Nat)
  deriving DecidableEq, Repr

/-- The effect of a ring entry (R452). -/
def ringAct (r : Ring) (e : RingEntry) : RingAct :=
  let res := r.res.toNat
  let pub := r.pub.toNat
  let take := r.take.toNat
  let rel := r.rel.toNat
  match e.op with
  | 0 => if sub32 (res + e.n) rel ≤ r.count then .done { r with res := BitVec.ofNat 32 (res + e.n) } res else .wait
  | 2 => if sub32 pub take ≥ e.n then .done { r with take := BitVec.ofNat 32 (take + e.n) } take else .wait
  | 1 =>
    if sub32 e.first pub + e.n > sub32 res pub ∨ (slotRun e.first e.n).any r.published.contains then .bad
    else
      let marks := slotRun e.first e.n ++ r.published
      let pub' := runOver marks marks.length pub
      .done { r with pub := BitVec.ofNat 32 pub'
                     published := marks.filter fun i => decide (sub32 i pub ≥ sub32 pub' pub) } pub'
  | _ =>
    if sub32 e.first rel + e.n > sub32 take rel ∨ (slotRun e.first e.n).any r.released.contains then .bad
    else
      let marks := slotRun e.first e.n ++ r.released
      let rel' := runOver marks marks.length rel
      .done { r with rel := BitVec.ofNat 32 rel'
                     released := marks.filter fun i => decide (sub32 i rel ≥ sub32 rel' rel) } rel'

/-- A ring entry's result reaches its group, which may be ready from now on (R39); with the last that it awaits the handler of a fault is
entered (R472). -/
def payGroup (s : State) (e : RingEntry) (v : Nat) : State :=
  match getGroup s e.gid with
  | some g =>
    let g' := payRing g e.id v
    match g.wait, ringOwes s e.gid g with
    | .trap r, false => enterHandler s e.gid g' g.parkLen r (handlerOf s g)
    | _, _ => setGroup s e.gid (if awaits s e.gid g && !awaits s e.gid g' then { g' with readySince := s.cycle } else g')
  | none => s

/-- The ring of a queued entry. -/
def entryRing (s : State) (e : RingEntry) : Option Ring :=
  match (getTeam s e.team).bind fun t => tget s.grids t.grid with
  | some gr => s.rings.find? fun r => r.lead == gr.lead && r.num == e.ring
  | none => none

/-- The first entry of a core's ring queue asks at the ring's slice (R421). -/
def askRing (s : State) (core : Nat) (e : RingEntry) : State × RingEntry :=
  if e.asked.isSome then (s, e)
  else
    let (s, n) := takeId s
    let c := getCore s core
    let e' := { e with asked := some n }
    (setCore s core { c with ring := c.ring.map fun x => if x.id == e.id then e' else x }, e')

/-- Whether another core's waiting entry of the same kind reached the ring before (R421). -/
def earlierAsk (s : State) (e : RingEntry) (r : Ring) : Bool :=
  s.cores.any fun c =>
    match c.2.ring with
    | f :: _ =>
      (match f.asked, e.asked with | some a, some b => decide (a < b) | _, _ => false)
        && f.op == e.op && (e.op == 0 || e.op == 2) && entryRing s f == some r
    | [] => false

/-- RING_ENTRY_PERFORM (R421, R452, R453): the first entry of a core's ring queue, unless it must wait. An RTAKE or an RRES
is an acquire at .dev of its group's lanes. -/
def execRingEntryPerform (core : Nat) (s : State) : Out :=
  let c := getCore s core
  match c.ring with
  | [] => .next s
  | e :: rest =>
    if !fencesAllow c .ring e.id then .next s
    else
      match entryRing s e with
      | none => .next (wakeSlots (setCore s core { c with ring := rest }) core)
      | some r =>
        let (s, e) := askRing s core e
        let c := getCore s core
        if earlierAsk s e r then .next s
        else
          match ringAct r e with
          | .wait => .next s
          | .bad =>
            let g := (getGroup s e.gid).getD (newGroup e.team 0 core 0 0 none 0 0 0 0)
            .next (endContext (setCore s core { c with ring := rest }) { groupRec s g 13 with pc := 0 })
          | .done r' v =>
            let s := setCore s core { c with ring := rest }
            let s := { s with rings := s.rings.map fun x => if x.lead == r.lead && x.num == r.num then r' else x }
            let s := if e.op % 2 = 0 then acquireAt s core e.team .dev else s
            .next (wakeSlots (payGroup s e v) core)

end Sys2Proof.Machine
end

