-- ==== Sys2Proof/Machine/Sched.lean ====
section
/-! DEFINITION. The scheduler: active and pending sets, placing and ending teams and grids, splits, budgets
(spec/02_execution_model.md R36–R68, spec/17_scheduling_and_engines.md R413–R424). -/

namespace Sys2Proof.Machine

/-! ### Bins and rendezvous (R46, R47, R51) -/

/-- BIN_TIMER_EXPIRY (R46). -/
def execBinTimerExpiry (core bin : Nat) (s : State) : Out :=
  match tget (getCore s core).bins bin with
  | some b => .next (if b.expired s.cycle then tryLaunch s core bin else s)
  | none => .next s

/-- BIN_LAUNCH_DEFERRED (R47). -/
def execBinLaunchDeferred (core bin : Nat) (s : State) : Out :=
  match tget (getCore s core).bins bin with
  | some b => .next (if b.deferred && mayLaunch s core b then launchBin s core bin b else s)
  | none => .next s

/-- REGROUP_TIMEOUT (R51). -/
def execRegroupTimeout (gid : Nat) (s : State) : Out :=
  match getGroup s gid with
  | some g =>
    match g.wait with
    | .regroup pd _ =>
      .next (if g.waitSince + regroupWindow ≤ s.cycle ∧ !ringOwes s gid g then
          leaveWait (setGroup s gid (writeRegroup (commitAll g s.cycle) pd 0)) gid
        else s)
    | _ => .next s
  | none => .next s

/-! ### Active and pending sets (R36–R40) -/

/-- The order of the pending set (R37). -/
def pendingKey (s : State) (g : Group) : List Nat :=
  [g.pendSince, (match getTeam s g.team with | some t => t.order | none => 0), g.role, g.gnum]

/-- The first of a list of groups by a key. -/
def firstBy (key : Nat × Group → List Nat) : List (Nat × Group) → Option (Nat × Group)
  | [] => none
  | e :: r =>
    match firstBy key r with
    | none => some e
    | some f => if lexLe (key e) (key f) then some e else some f

/-- The oldest ready group of a core's pending set. -/
def pendingReady (s : State) (core : Nat) : Option (Nat × Group) :=
  firstBy (fun e => pendingKey s e.2) (s.groups.filter fun e => e.2.core == core && e.2.slice.isNone && standsReady s e.1 e.2)

/-- A group enters an issue slice's active set (R36). -/
def enterSlice (s : State) (gid : Nat) (g : Group) (i : Nat) : State := setGroup s gid { g with slice := some i, age := s.cycle }

/-- A group goes to the pending set (R37). -/
def enterPending (s : State) (gid : Nat) (g : Group) : State := setGroup s gid { g with slice := none, pendSince := s.cycle }

/-- STALL_EXCHANGE (R38). -/
def execStallExchange (gid : Nat) (s : State) : Out :=
  match getGroup s gid with
  | some g =>
    match g.slice, pendingReady s g.core with
    | some i, some (p, gp) =>
      .next (if stalled s gid g then enterSlice (enterPending s gid { g with lastStall := s.cycle }) p gp i else s)
    | _, _ => .next s
  | none => .next s

/-- Groups in an issue slice's active set. -/
def sliceSize (s : State) (core i : Nat) : Nat := (s.groups.filter fun e => e.2.core == core && e.2.slice == some i).length

/-- EMPTY_SLOT_FILL (R39, R150). -/
def execEmptySlotFill (core i : Nat) (s : State) : Out :=
  match pendingReady s core with
  | some (p, gp) =>
    .next (if sliceSize s core i < 8 ∧ i < 4 then { enterSlice s p gp i with freed := s.freed.erase (core, i) } else s)
  | none => .next s

/-- Cycles a pending group may stay ready (R39). -/
def pendingLimit : Nat := 8192

/-- The cycle at which a group that stands ready last became so: it left a wait, its beats were out, or the results that its next
instruction waits for had returned (R36, R39). -/
def readyFrom (s : State) (gid : Nat) (g : Group) : Nat := max (max g.readySince g.freeAt) (holdOf s gid g).till

/-- Whether a pending group has been ready for the whole of it. -/
def pendingOld (s : State) (gid : Nat) (g : Group) : Bool :=
  g.slice.isNone && standsReady s gid g && decide (max g.pendSince (readyFrom s gid g) + pendingLimit ≤ s.cycle)

/-- PENDING_AGE_EXPIRY: the group of the core's active sets that has gone longest without a long-latency stall makes way
(R39). -/
def execPendingAgeExpiry (gid : Nat) (s : State) : Out :=
  match getGroup s gid with
  | some g =>
    let active := s.groups.filter fun e => e.2.core == g.core && e.2.slice.isSome
    let key := fun (e : Nat × Group) => (if stalled s e.1 e.2 then s.cycle else e.2.lastStall) :: e.2.age :: issueKey s e.2
    match firstBy key active with
    | some (v, gv) =>
      .next (if pendingOld s gid g then enterSlice (enterPending s v gv) gid g (gv.slice.getD 0) else s)
    | none => .next s
  | none => .next s

/-! ### Placing teams (R41, R62, R413–R422, R480) -/

/-- A core that work may be placed on at all (R21, R493). -/
def coreUsable (s : State) (k : Nat) : Bool := decide (k < 256) && !s.offCores.contains k && !(getCore s k).dead

/-- Cores of a partition (R484). -/
def partCores (s : State) (part : Nat) : List Nat :=
  match tget s.parts part with
  | some p => below 256 fun k => coreUsable s k && p.body.quads.getLsbD (k / 4)
  | none => []

/-- Whether a pipeline launch that has not ended holds a core, though the stage it was given to may have (R419). -/
def coreDedicated (s : State) (k : Nat) : Bool := s.grids.any fun e => launchOpen s e.2.lead && e.2.cores.contains k

/-- Whether a grid's work may go to a core: timed work to timed cores, best-effort work to a timed core while nothing is
booked, a stage to its own cores (R419, R422). -/
def coreAllowed (s : State) (g : Grid) (k : Nat) : Bool :=
  (match g.stage with | some _ => g.cores.contains k | none => !coreDedicated s k)
    && (if g.deadline.isSome then (timedCores s g.part).contains k
        else !(booked s g.part && (timedCores s g.part).contains k))

/-- Scratchpad bytes allocated on a core. -/
def scratchUsed (s : State) (k : Nat) : Nat :=
  (s.teams.filter fun t => t.2.core == k && t.2.st != .saved).foldl (fun a t => a + t.2.alloc) 0

/-- The declared groups of a kernel, by role. -/
def declaredRoles (k : Kernel) : List Role := k.roles.flatMap fun r => List.replicate r.groups r

/-- The conditions of R41 on a core for groups of the given roles and a scratchpad allocation. -/
def coreTakes (s : State) (g : Grid) (k : Nat) (roles : List Role) : Bool :=
  (partCores s g.part).contains k && coreOpen s k g.kernel.split && coreAllowed s g k && roomFor s k roles
    && decide (scratchUsed s k + g.kernel.scratch ≤ g.kernel.split.scratch * 131072)

/-- Whether a core takes the next team of a grid. -/
def teamFits (s : State) (g : Grid) (k : Nat) : Bool := coreTakes s g k (declaredRoles g.kernel)

/-- The lowest free slot of a partition's save pool (R480). -/
def freeSlot (s : State) (part : Nat) : Option Nat :=
  match tget s.parts part with
  | some p => (below p.body.slots fun n => !p.slotsUsed.contains n).head?
  | none => none

/-- A save slot is held. -/
def takeSlot (s : State) (part n : Nat) : State :=
  match tget s.parts part with
  | some p => { s with parts := tset s.parts part { p with slotsUsed := n :: p.slotsUsed } }
  | none => s

/-- A team as it is placed (R42, R286). -/
def newTeam (grid index core rows alloc now order slot : Nat) : Team where
  grid := grid
  index := index
  core := core
  rows := rows
  alloc := alloc
  scratch := []
  mbx := []
  mbxFull := 0
  trapvec := 0
  bars := []
  placedAt := now
  order := order
  slot := slot
  st := .running
  kept := .none

/-- The declared groups of a team start, each in the pending set (R31, R37). -/
def startGroups (tid index core : Nat) (entry block : DWord) : List (Nat × Nat) → State → State
  | [], s => s
  | (role, n) :: r, s =>
    let (s, gid) := takeId s
    startGroups tid index core entry block r
      (setGroup s gid (newGroup tid index core role n none entry 0xFFFFFFFF block s.cycle))

/-- Roles and numbers of the declared groups. -/
def groupList (k : Kernel) : List (Nat × Nat) :=
  (k.roles.zipIdx).flatMap fun x => (List.range x.1.groups).map fun n => (x.2, n)

/-- The team-map entry of a team in record mode (R417). -/
def writeTeamMap (s : State) (g : Grid) (i : Nat) : State :=
  match g.maps[i]? with
  | none => s
  | some m =>
    let b := leBytes 4 m.expert.toNat ++ leBytes 4 m.first.toNat ++ leBytes 4 m.rows ++ leBytes 4 m.param.toNat
    let va := BitVec.ofNat 64 (field g.block 0x78 8 + 16 * i)
    (mappedWrite (leafMap g.mapPhys) (gridWho g) b (sectorPieces va 16) s).1

/-- Rows of team i (R415, R416). -/
def teamRows (g : Grid) (i : Nat) : Nat := match g.maps[i]? with | some m => m.rows | none => 32

/-- Places the next team of a grid on a core: its start is an acquire at .sys (R41, R281). -/
def placeTeam (s : State) (gid core : Nat) : State :=
  match tget s.grids gid with
  | none => s
  | some g =>
    match freeSlot s g.part with
    | none => s
    | some slot =>
      let s := writeTeamMap s g g.placed
      let (s, tid) := takeId s
      let t := newTeam gid g.placed core (teamRows g g.placed) g.kernel.scratch s.cycle tid slot
      let s := setTeam (takeSlot s g.part slot) tid t
      let s := startGroups tid g.placed core g.kernel.entry g.blockAddr (groupList g.kernel) s
      let s := { s with
        grids := tset s.grids gid { g with placed := g.placed + 1 }
        turns := tset s.turns g.queue tid }
      acquireAt s core tid .sys

/-- A saved team of a grid. -/
def hasSaved (s : State) (gid : Nat) : Bool := s.teams.any fun t => t.2.grid == gid && t.2.st == .saved

/-- Whether an earlier launch of the queue has not had its first team placed (R410). -/
def firstHeld (s : State) (gid : Nat) (g : Grid) : Bool :=
  s.grids.any fun e => e.2.lead != g.lead && decide (e.1 < gid) && e.2.queue == g.queue && e.2.st == .eligible
    && e.2.placed == 0 && decide (0 < e.2.teams)

/-- A grid that has a team to place, in order (R62, R410, R413, R494). -/
def wantsPlace (s : State) (gid : Nat) (g : Grid) : Bool :=
  g.st == .eligible && decide (g.placed < g.teams) && !isFrozen s g.part && !hasSaved s gid
    && (decide (0 < g.placed) || !firstHeld s gid g)

/-! ### Pipelines (R419, R420) -/

/-- Cores that a stage may be given: idle, of the stage's split, not given to an earlier stage. DESIGN CHOICE (log 79): a stage of
best-effort work is given no timed core at all, since it could not be stopped there when a booking begins (R419, R422, R475). -/
def stageFree (s : State) (g : Grid) (taken : List Nat) : List Nat :=
  (partCores s g.part).filter fun k =>
    coreIdle s k && coreOpen s k g.kernel.split && !taken.contains k && !coreDedicated s k
      && (g.deadline.isSome || !(timedCores s g.part).contains k) && coreAllowed s { g with cores := [k] } k

/-- Cores for the stages of a launch, each stage's the lowest-numbered ones left. -/
def stageCores (s : State) : List Grid → List Nat → Option (List (List Nat))
  | [], _ => some []
  | g :: r, taken =>
    let free := stageFree s g taken
    if free.length < g.wanted then none
    else
      let mine := free.take g.wanted
      (stageCores s r (mine ++ taken)).map fun l => mine :: l

/-- The first stage of a launch for which cores lack, and the cores that its earlier stages take. -/
def lackingStage (s : State) : List (Nat × Grid) → List Nat → Option (Nat × Grid × List Nat)
  | [], _ => none
  | e :: r, taken =>
    let free := stageFree s e.2 taken
    if free.length < e.2.wanted then some (e.1, e.2, taken) else lackingStage s r (free.take e.2.wanted ++ taken)

/-- Bytes of slot arrays that a crown holds. -/
def pinnedBytes (l : List Ring) (crown : Nat) : Nat :=
  (l.filter fun r => r.crown == crown).foldl (fun a r => a + r.size * r.count) 0

/-- Ring registers and pinned bytes suffice on every crown: four rings in each of its L2 slices, 16 MiB (R17, R420). -/
def ringsFit (s : State) (new : List Ring) : Bool :=
  (List.range 4).all fun c =>
    let slices := 3 * (below 16 fun g => !s.offGranules.contains (16 * c + g)).length
    let l := new ++ s.rings
    (!new.any fun r => r.crown == c) ||
      (decide ((l.filter fun r => r.crown == c).length ≤ 4 * slices) && decide (pinnedBytes l c ≤ 2 ^ 24))

/-- The stage grids of a launch. -/
def stagesOf (s : State) (lead : Nat) : List (Nat × Grid) := s.grids.filter fun e => e.2.lead == lead

/-- Free save slots of a partition. -/
def slotsFree (s : State) (part : Nat) : Nat :=
  match tget s.parts part with
  | some p => (below p.body.slots fun n => !p.slotsUsed.contains n).length
  | none => 0

/-- The cores that a pipeline launch would be placed on now, by stage. -/
def pipelinePlan (s : State) (lead : Nat) : Option (List (List Nat)) :=
  match tget s.grids lead with
  | none => none
  | some g =>
    let st := stagesOf s lead
    let teams := st.foldl (fun a e => a + e.2.teams) 0
    if ringsFit s g.plan && decide (teams ≤ slotsFree s g.part) then stageCores s (st.map (·.2)) [] else none

/-- Places the teams of a stage, each on the first of its cores that takes it. -/
def placeStage (gid : Nat) : Nat → State → State
  | 0, s => s
  | n + 1, s =>
    match tget s.grids gid with
    | none => s
    | some g =>
      match g.cores.find? fun k => teamFits s g k with
      | some k => placeStage gid n (placeTeam s gid k)
      | none => s

/-- Places a pipeline launch whole (R419). -/
def placePipeline (s : State) (lead : Nat) : State :=
  match tget s.grids lead, pipelinePlan s lead with
  | some g, some cores =>
    let st := stagesOf s lead
    let s := { s with rings := s.rings ++ g.plan }
    let s := (st.zip cores).foldl
      (fun (s : State) x => { s with grids := tset s.grids x.1.1 { x.1.2 with cores := x.2, plan := [] } }) s
    st.foldl (fun s e => placeStage e.1 e.2.teams s) s
  | _, _ => s

/-- TEAM_PLACE (R41, R62, R417, R419). -/
def execTeamPlace (gid core : Nat) (s : State) : Out :=
  match tget s.grids gid with
  | none => .next s
  | some g =>
    if !wantsPlace s gid g then .next s
    else
      match g.stage with
      | some _ => .next (placePipeline s g.lead)
      | none => .next (if teamFits s g core then placeTeam s gid core else s)

/-! ### Ends (R60, R61) -/

/-- Whether a team has ended its work (R60). -/
def teamDone (s : State) (tid : Nat) (t : Team) : Bool :=
  let c := getCore s t.core
  t.st != .saved && !(s.groups.any fun g => g.2.team == tid) && !(c.bins.any fun b => b.2.team == tid)
    && !(c.mat.any fun e => e.team == tid) && !(c.ring.any fun e => e.team == tid)

/-- TEAM_END (R60). -/
def execTeamEnd (tid : Nat) (s : State) : Out :=
  match getTeam s tid with
  | none => .next s
  | some t =>
    if !teamDone s tid t then .next s
    else
      let s := removeTeam (dropWindows false s tid) tid
      match tget s.grids t.grid with
      | some g => .next { s with grids := tset s.grids t.grid { g with endedTeams := g.endedTeams + 1 } }
      | none => .next s

/-- Entries of a grid in the queues that write stamps. -/
def gridEntries (s : State) (gid : Nat) : Bool :=
  s.cores.any fun c => stampQueues.any fun q => (entriesOf c.2 q).any fun e => e.grid == gid

/-- Whether a grid's work has ended (R61). -/
def gridDone (s : State) (gid : Nat) (g : Grid) : Bool :=
  g.st == .eligible && g.placed == g.teams && g.endedTeams == g.teams && !gridEntries s gid

/-- A finished grid is closed, and the launch's stamp written when no stage of it is left (R61, R412, R418). What its cores hold dirty
goes home, as the release at .dev of R255 has it. DESIGN CHOICE (log 46): that release is the device's, not one of the cores that the
grid ran on, whose narrow epochs it leaves open (R264). -/
def closeGrid (s : State) (gid : Nat) (g : Grid) : State :=
  let s := (dirtyCores s g.part).foldl (fun s k => pushDirty false s k) s
  let s := { s with
    grids := tset s.grids gid { g with st := .ended }
    boughBars := s.boughBars.filter fun b => b.grid != gid }
  if launchOpen s g.lead then s
  else
    let s := { s with rings := s.rings.filter fun r => r.lead != g.lead }
    match tget s.grids g.lead with
    | some l => (stampGrid s l (l.ending.getD (statusOf 0 0))).1
    | none => s

/-- GRID_END (R61). -/
def execGridEnd (gid : Nat) (s : State) : Out :=
  match tget s.grids gid with
  | some g => .next (if gridDone s gid g then closeGrid s gid g else s)
  | none => .next s

/-- BUDGET_OVERRUN (R424, R465): the launch's stamp counts the teams so ended. -/
def execBudgetOverrun (tid : Nat) (s : State) : Out :=
  match getTeam s tid with
  | none => .next s
  | some t =>
    match tget s.grids t.grid with
    | none => .next s
    | some g =>
      if g.deadline.isSome && decide (t.placedAt + field g.block 0x70 4 ≤ s.cycle) then
        let s := endTeam s tid 16
        match tget s.grids g.lead with
        | some l =>
          let l := { l with overruns := l.overruns + 1 }
          .next { s with grids := tset s.grids g.lead (l.befall (timeOf s) t.index (statusOf 3 0)) }
        | none => .next s
      else .next s

/-! ### Splits (R65–R67) -/

/-- Nothing is resident on a core (R66, R67). -/
def coreEmpty (s : State) (k : Nat) : Bool :=
  coreIdle s k && (getCore s k).bins.isEmpty && !(s.mem.windows.any fun w => w.core == k)

/-- Cycles of a reconfiguration: 2 µs (R67). -/
def reconfCycles : Nat := 4200

/-- SPLIT_RECONFIGURE: the core's L1 is written back and discarded, its scratchpad and registers are formed anew, and it takes
no team until the reconfiguration ends (R67). -/
def execSplitReconfigure (core : Nat) (s : State) : Out :=
  let c := getCore s core
  match c.drain with
  | none => .next s
  | some sp =>
    if !coreEmpty s core then .next s
    else
      let s := ((s.mem.copies.filter fun x => x.agent == core).map (·.sector)).foldl (fun s σ => evict s core σ) s
      let c := getCore s core
      .next (setCore s core { c with split := sp, drain := none, reconf := some (s.cycle + reconfCycles) })

end Sys2Proof.Machine
end

