-- ==== Sys2Proof/Machine/Save.lean ====
section
/-! DEFINITION. Stopping, saving and resuming a team (spec/20_faults_preemption_security.md R475–R483,
spec/04_registers_and_numbers.md R76, R82–R84, spec/05_encoding_and_assembly.md R121–R124). -/

namespace Sys2Proof.Machine

/-! ### Stopping (R475–R477, R285, R461) -/

/-- The mask word of a hard stop: every allocated block, and bits [63:56] (R124, R477). -/
def fullMask (r : Role) : DWord :=
  let ones (n : Nat) : Nat := 2 ^ n - 1
  BitVec.ofNat 64 (ones (r.regs / 8) + 0x7F * 2 ^ 32 + ones (r.tiles / 2) * 2 ^ 40 + ones (r.curs / 4) * 2 ^ 48
    + ones ((r.accs + 1) / 2) * 2 ^ 52 + 0xFF * 2 ^ 56)

/-- Bits [63:58] of a mask word: every queue's entries are live. -/
def queueBits : DWord := BitVec.ofNat 64 (0x3F * 2 ^ 58)

/-- The mask word at which a group has stopped. -/
def stopMask (s : State) (g : Group) : DWord :=
  match g.wait with
  | .stopped (some m) => if isFrozen s (whoOf s g).part then m ||| queueBits else m
  | _ => fullMask (roleOf s g)

/-- Arrivals at barriers are withdrawn (R285). -/
def withdraw (s : State) (gid : Nat) (g : Group) : State :=
  let s := { s with boughBars := leaveBough (· == gid) s.boughBars }
  match getTeam s g.team with
  | some t => setTeam s g.team { t with bars := tmap t.bars fun _ b =>
      { b with arrived := b.arrived.filter (· != gid), late := b.late.filter (· != gid) } }
  | none => s

/-- A pending record of a group is abandoned (R476). -/
def abandon (gid : Nat) (f : FaultRec) : FaultRec :=
  if f.awaits == .group gid || f.awaits == .brk gid then { f with awaits := .none } else f

/-- An RRES or RTAKE of a group that a safe point does not keep is cancelled, and the group stands before the first such
(R461). -/
def cancelAsks (s : State) (gid : Nat) (g : Group) : State :=
  let c := getCore s g.core
  let mine := fun (e : RingEntry) => e.gid == gid && (e.op == 0 || e.op == 2)
  match c.ring.find? mine with
  | none => setGroup s gid g
  | some e =>
    let gone := (c.ring.filter mine).map (·.id)
    let keep (p : Pend) : Bool := match p.owed with | some i => !gone.contains i | none => true
    setGroup (setCore s g.core { c with ring := c.ring.filter fun x => !mine x }) gid
      { g with pc := e.pc, pend := g.pend.filter keep }

/-- What a stop cancels that is executed again with what it had read and placed (R459, R476). -/
def redoOf (g : Group) : Wait :=
  match g.wait with
  | .deadline _ _ _ _ | .spawn _ => g.wait
  | _ => .none

/-- A group stops; `mask` is the mask word of its safe point, none for a hard stop (R476, R477). -/
def stopGroup (s : State) (gid : Nat) (g : Group) (mask : Option DWord) : State :=
  let s := { withdraw s gid g with faults := s.faults.map (abandon gid) }
  let g := { commitAll g s.cycle with
    wait := .stopped mask, stopDue := false, poked := false, redo := redoOf g
    lastVer := if g.wait == .none then g.lastVer else g.prevVer }
  match mask with
  | some m => if m.getLsbD 63 || isFrozen s (whoOf s g).part then setGroup s gid g else cancelAsks s gid g
  | none => setGroup s gid g

/-- The mask word of the instruction that a group issued last before the point it stands at (R285, R477). -/
def pointMask (g : Group) : Option DWord := if g.wait == .none then g.lastMask else g.prevMask

/-- Groups of a team that stand at a point where they stop. -/
def stopsNow (s : State) (tid : Nat) : List (Nat × Group) := s.groups.filter fun e => e.2.team == tid && atStop s e.2

/-- Whether a team may be stopped (R475): one of a timed launch or of a pipeline only for a frozen partition. -/
def mayStop (s : State) (t : Team) : Bool :=
  match tget s.grids t.grid with
  | some g => (g.deadline.isNone && g.stage.isNone) || isFrozen s g.part
  | none => false

/-- PREEMPT_REQUEST: the team is asked to stop, and each group that stands where R476 stops it stops; with the last of them the team's
bin timers freeze (R478). -/
def execPreemptRequest (tid : Nat) (s : State) : Out :=
  match getTeam s tid with
  | none => .next s
  | some t =>
    let s := if t.st = .running ∧ mayStop s t then setTeam s tid { t with st := .stopping s.cycle } else s
    .next (freezeBins ((stopsNow s tid).foldl (fun s e => stopGroup s e.1 e.2 (pointMask e.2)) s) tid)

/-- Cycles in 100 µs. -/
def hardCycles : Nat := 210000

/-- Whether a group has not stopped and stands between two instructions: a SPAWN that has placed some of its lanes does
not. -/
def hardStops (s : State) (g : Group) : Bool :=
  match getTeam s g.team with
  | some t =>
    match t.st, g.wait with
    | _, .stopped _ => false
    | _, .spawn _ => false
    | .stopping since, _ => decide (since + hardCycles ≤ s.cycle)
    | _, _ => false
  | none => false

/-- HARD_PREEMPT (R124, R477). -/
def execHardPreempt (gid : Nat) (s : State) : Out :=
  match getGroup s gid with
  | some g => .next (if hardStops s g then freezeBins (stopGroup s gid g none) g.team else s)
  | none => .next s

/-! ### Images (R82, R83, R482) -/

/-- Cells k … k + n − 1, little-endian. -/
def cellBytes {w : Nat} (per : Nat) (c : Cells w) (k n : Nat) : List Byte := (crange c k n).flatMap fun x => leBytes per x.toNat

/-- Zero bytes. -/
def zeros (n : Nat) : List Byte := List.replicate n 0

/-- Block numbers that a field of a mask word names. -/
def maskBlocks (m : DWord) (lo n : Nat) : List Nat := below n fun i => m.getLsbD (lo + i)

/-- Entries of a group in the matrix queue that a save keeps: not started (R405). -/
def keptMat (s : State) (gid : Nat) (g : Group) : List MatEntry :=
  (getCore s g.core).mat.filter fun e => e.gid == gid && e.finish.isNone

/-- The number under which a batch is saved: 0 for the open one (R404). -/
def savedBatch (g : Group) (b : Nat) : Nat := if b = g.nextBatch then 0 else batchNumber b

/-- Batch state (R404). -/
def batchImage (s : State) (gid : Nat) (g : Group) : List Byte :=
  let l := (keptMat s gid g).take 8
  leBytes 4 (batchNumber g.nextBatch) ++ leBytes 4 l.length
    ++ l.flatMap (fun e => leBytes 4 (savedBatch g e.batch)) ++ zeros (56 - 4 * l.length)

/-- The group header (R83). -/
def headerImage (s : State) (gid : Nat) (g : Group) (vol : Bool) : List Byte :=
  let gbits := (List.range 4).foldl (fun a i => if cget g.g i = 1 then a + 2 ^ i else a) 0
  let stack := g.stack.reverse.take 32
  leBytes 8 g.pc.toNat ++ leBytes 4 g.mask.toNat ++ leBytes 4 g.live.toNat ++ leBytes 4 g.fmt.toNat
    ++ leBytes 4 (gbits + 2 ^ 8 * stack.length + if vol then 2 ^ 16 else 0)
    ++ leBytes 8 (g.role % 4 + 2 ^ 8 * (g.gnum % 32) + 2 ^ 16 * g.lastVer)
    ++ cellBytes 1 g.orig 0 32 ++ cellBytes 4 g.rng 0 32 ++ batchImage s gid g
    ++ stack.flatMap (fun f => leBytes 8 f.pc.toNat ++ leBytes 4 f.mask.toNat ++ leBytes 4 f.fmt.toNat)
    ++ zeros (512 - 16 * stack.length)

/-- The extension block (R482). -/
def extImage (g : Group) (m : DWord) : List Byte :=
  leBytes 8 m.toNat ++ leBytes 8 g.trapinfo.toNat ++ leBytes 8 g.trappc.toNat ++ zeros 8
    ++ cellBytes 8 g.trapaddr 0 32 ++ zeros 32

/-- The predicate image. -/
def predImage (g : Group) : List Byte :=
  ((List.range 8).flatMap fun n => leBytes 4 (if n = 7 then 0 else (maskOf (below 32 fun i => cget g.p (32 * n + i) == 1)).toNat))

/-- The volatile section (R76, R82). -/
def volatileImage (g : Group) : List Byte := cellBytes 4 g.o 0 512 ++ cellBytes 8 g.l 0 64

/-- A group image (R482). -/
def groupImage (s : State) (gid : Nat) (g : Group) : List Byte :=
  let m := stopMask s g
  let vol := match g.wait with | .stopped (some _) => false | _ => true
  headerImage s gid g vol ++ extImage g m ++ cellBytes 8 g.s 0 128
    ++ (if m.extractLsb' 32 7 = 0 then [] else predImage g)
    ++ (maskBlocks m 0 32).flatMap (fun b => cellBytes 4 g.v (256 * b) 256)
    ++ (maskBlocks m 48 4).flatMap (fun b => cellBytes 32 g.c (128 * b) 128)
    ++ (maskBlocks m 40 8).flatMap (fun b => cellBytes 1 g.tiles (4096 * b) 4096)
    ++ (maskBlocks m 52 4).flatMap (fun b => cellBytes 4 g.acc (8192 * b) 8192)
    ++ if vol then volatileImage g else []

/-! ### Records of the team (R481, R483) -/

/-- FTYPE (R301). -/
def ftCode : Rt → Nat
  | .own => 0 | .wt => 1 | .si => 2 | .uc => 3

/-- Scope code (R131). -/
def scopeCode : Scope → Nat
  | .team => 0 | .bough => 1 | .crown => 2 | .dev => 3 | .sys => 4

/-- A window record. -/
def windowRecord (w : Window) : List Byte :=
  leBytes 8 w.base.toNat ++ leBytes 4 w.off ++ leBytes 4 w.len
    ++ leBytes 4 ((if w.zero then 1 else 0) + 2 * ftCode w.ft + 16 * scopeCode w.scp) ++ leBytes 1 w.index ++ zeros 11

/-- A bin record (R49): a closed timer has nothing left. -/
def binRecord (s : State) (entry : DWord) (b : Bin) : List Byte :=
  let left := b.remaining s.cycle
  let lane (p : Nat) : List Byte :=
    match b.lanes.find? fun l => l.pos == p with
    | some l => (List.range 4).flatMap fun k => leBytes 4 (l.args.getD k 0).toNat
    | none => zeros 16
  leBytes 4 (b.entry - entry).toNat ++ leBytes 1 b.role ++ leBytes 1 b.lanes.length ++ zeros 2 ++ leBytes 4 left
    ++ leBytes 4 (maskOf (b.lanes.map (·.pos))).toNat ++ (List.range 32).flatMap lane

/-- A queue entry record. -/
def entryRecord (q group batch order : Nat) (payload : List Byte) : List Byte :=
  leBytes 1 q ++ leBytes 1 group ++ leBytes 2 payload.length ++ leBytes 4 batch ++ leBytes 8 order ++ payload

/-- The payload of a matrix entry (R483). -/
def matPayload (e : MatEntry) : List Byte :=
  let (addr, m, live, cells) : Nat × Nat × Nat × List Byte := match e.op with
    | .tld _ a _ n => (a.toNat, n, 0, [])
    | .tst _ a _ n => (a.toNat, n, 0, [])
    | .tasm _ _ cells lanes => (e.k0.toNat, 0, lanes.toNat, cells)
    | .mma _ _ _ _ rows live => (0, rows, live.toNat, [])
    | .acvt _ _ _ _ => (0, 0, 0, [])
  leBytes 8 e.word.toNat ++ leBytes 8 addr ++ leBytes 4 e.fmt.toNat ++ leBytes 1 m ++ zeros 3 ++ leBytes 8 live ++ cells

/-- The payload of a ring entry. -/
def ringPayload (e : RingEntry) : List Byte :=
  leBytes 8 e.word.toNat ++ leBytes 4 e.first ++ leBytes 2 e.n ++ leBytes 2 e.ring

/-- The entries of a team in a core's queues that a save keeps (R123, R461). -/
def savedEntries (c : Core) (tid : Nat) : List Entry :=
  stampQueues.flatMap fun q => (entriesOf c q).filter fun e => e.team == tid && e.st == .waiting

/-- Place of a group in the slot's directory. -/
def groupPlace (gids : List Nat) (gid : Nat) : Nat := gids.findIdx (· == gid)

/-- Queue of an engine opcode (R443). -/
def opcQueue (opc : Nat) : Queue :=
  if opc ≤ 0xC3 then .cpy else if opc = 0xC4 then .dec else if opc ≤ 0xC6 then .sto else .root

/-- Records of an engine entry: one for each slice of a copy. -/
def engineRecords (gids : List Nat) (e : Entry) : List (List Byte) :=
  let q := queueNum (opcQueue e.opc)
  if e.opc = 0xC0 then e.slices.map fun x => entryRecord q (groupPlace gids x.gid) 0 e.id x.block
  else [entryRecord q (groupPlace gids e.gid) 0 e.id e.block]

/-- The queue section: number of records, bytes. -/
def queueSection (s : State) (tid : Nat) (t : Team) (gids : List Nat) : Nat × List Byte :=
  let c := getCore s t.core
  let mats := (c.mat.filter fun e => e.team == tid && e.finish.isNone).map fun e =>
    let b := match getGroup s e.gid with | some g => savedBatch g e.batch | none => 0
    entryRecord 0 (groupPlace gids e.gid) b e.id (matPayload e)
  let rings := (c.ring.filter fun e => e.team == tid).map fun e =>
    entryRecord 5 (groupPlace gids e.gid) 0 e.id (ringPayload e)
  let l := mats ++ (savedEntries c tid).flatMap (engineRecords gids) ++ rings
  (l.length, l.flatten)

/-- The scratchpad image: bytes inside window bindings as zero (R481). -/
def scratchImage (s : State) (tid : Nat) (t : Team) : List Byte :=
  let ws := s.mem.windows.filter fun w => w.team == tid
  cellBytes 1 (ckeep t.scratch fun k => !(ws.any fun w => decide (w.off ≤ k) && decide (k < w.off + w.len))) 0 t.alloc

/-- Offsets of images laid end to end from an offset. -/
def runOffsets : Nat → List (List Byte) → List Nat
  | _, [] => []
  | o, x :: r => o :: runOffsets (o + x.length) r

/-- The whole slot of a team (R481): scratchpad image, queue section and group images follow the fixed regions in this order
(log 34). -/
def slotImage (s : State) (tid : Nat) (t : Team) (g : Grid) (gids : List Nat) : List Byte :=
  let groups := gids.filterMap fun n => (getGroup s n).map fun x => (n, x)
  let masks := groups.map fun x => stopMask s x.2
  let mbx := masks.any fun m => m.getLsbD 56
  let win := masks.any fun m => m.getLsbD 57
  let hard := groups.any fun x => match x.2.wait with | .stopped (some _) => false | _ => true
  let ws := if win then s.mem.windows.filter fun w => w.team == tid else []
  let bins := (getCore s t.core).bins.filter fun b => b.2.team == tid
  let (n, queue) := queueSection s tid t gids
  let scratch := scratchImage s tid t
  let images := groups.map fun x => groupImage s x.1 x.2
  let qOff := 0x2500 + scratch.length
  let offs := runOffsets (qOff + queue.length) images
  let flags := (if mbx then 1 else 0) + (if win then 2 else 0) + (if hard then 4 else 0)
  leBytes 4 0x53455631 ++ leBytes 1 groups.length ++ leBytes 1 flags ++ leBytes 1 bins.length ++ leBytes 1 ws.length
    ++ leBytes 8 g.blockAddr.toNat ++ leBytes 4 t.index ++ leBytes 2 g.ctx ++ zeros 2 ++ leBytes 8 t.trapvec.toNat
    ++ leBytes 4 qOff ++ leBytes 2 n ++ zeros 2 ++ leBytes 8 (timeOf s) ++ leBytes 4 0x2500 ++ leBytes 4 scratch.length
    ++ zeros 72 ++ offs.flatMap (leBytes 4) ++ zeros (128 - 4 * offs.length)
    ++ (if mbx then cellBytes 4 t.mbx 0 32 ++ leBytes 4 t.mbxFull.toNat ++ zeros 124 else zeros 256)
    ++ ws.flatMap windowRecord ++ zeros (512 - 32 * ws.length)
    ++ bins.flatMap (fun b => binRecord s g.kernel.entry b.2) ++ zeros (8448 - 528 * bins.length)
    ++ scratch ++ queue ++ images.flatten

/-- Where a partition's save slot lies. -/
def slotBase (s : State) (part slot : Nat) : Nat × Nat :=
  match tget s.parts part with
  | some p => (p.body.poolBase + slot * 2 ^ p.body.slotLog, 2 ^ p.body.slotLog)
  | none => (0, 0)

/-! ### Saving (R478) -/

/-- Whether a group's stop keeps the unstarted entries of a queue (R123). -/
def keepsQueue (s : State) (gid : Nat) (q : Queue) : Bool :=
  match getGroup s gid with
  | some g => (stopMask s g).getLsbD (58 + queueNum q)
  | none => false

/-- Whether nothing that must complete before the save is left in a core's queues: started entries, entries of a queue
that a stop does not keep, entries of retired groups (R123, R478). DESIGN CHOICE (log 85): of a copy that slices of several groups have
joined, the mask word of the group that enqueued the entry decides. -/
def queuesQuiet (s : State) (tid : Nat) (t : Team) : Bool :=
  let c := getCore s t.core
  (c.mat.all fun e => e.team != tid || (e.finish.isNone && keepsQueue s e.gid .mat))
    && (c.ring.all fun e => e.team != tid || keepsQueue s e.gid .ring)
    && stampQueues.all fun q => (entriesOf c q).all fun e => e.team != tid || (e.st == .waiting && keepsQueue s e.gid q)

/-- Whether every group of a team has stopped and its save can proceed. -/
def saveReady (s : State) (tid : Nat) (t : Team) : Bool :=
  (match t.st with | .stopping _ => true | _ => false)
    && (s.groups.all fun e => e.2.team != tid || match e.2.wait with | .stopped _ => true | _ => false)
    && !teamDone s tid t && queuesQuiet s tid t

/-- The groups of a team in the order of the slot's directory: by role, then number. -/
def slotOrder (s : State) (tid : Nat) : List Nat :=
  (sortBy (fun a b => lexLe [a.2.role, a.2.gnum] [b.2.role, b.2.gnum])
    (s.groups.filter fun e => e.2.team == tid)).map (·.1)

/-- What the slot does not hold. -/
def keptOf (s : State) (tid : Nat) (t : Team) (gids : List Nat) : Kept where
  gids := gids
  pends := gids.flatMap fun n => match getGroup s n with
    | some g => (g.pend.filter fun p => p.owed.isSome).map fun p => (n, p)
    | none => []
  fenced := gids.filterMap fun n => (getGroup s n).map fun g => (n, g.relOwed, g.lastLoad)
  redo := gids.filterMap fun n => (getGroup s n).bind fun g =>
    if g.redo == .none then none else some (n, g.redo, g.parkLen, g.spawnLeft)
  entries := savedEntries (getCore s t.core) tid
  mat := (getCore s t.core).mat.filter fun e => e.team == tid
  ring := (getCore s t.core).ring.filter fun e => e.team == tid
  fences := (getCore s t.core).fences

/-- A queue without a team's entries. -/
def withoutTeam (tid : Nat) (c : Core) : Core :=
  { c with
    cpy := c.cpy.filter (·.team != tid)
    dec := c.dec.filter (·.team != tid)
    sto := c.sto.filter (·.team != tid)
    root := c.root.filter (·.team != tid)
    mat := c.mat.filter (·.team != tid)
    ring := c.ring.filter (·.team != tid)
    bins := c.bins.filter (·.2.team != tid) }

/-- TEAM_SAVE (R280, R478). -/
def execTeamSave (tid : Nat) (s : State) : Out :=
  match getTeam s tid with
  | none => .next s
  | some t =>
    match tget s.grids t.grid with
    | none => .next s
    | some g =>
      if !saveReady s tid t then .next s
      else
        let gids := slotOrder s tid
        let keep := keptOf s tid t gids
        let s := (s.mem.windows.filter fun w => w.team == tid).foldl (fun s w => windowFlush false s w.core w.index) s
        let img := slotImage s tid ((getTeam s tid).getD t) g gids
        let (base, _) := slotBase s g.part t.slot
        let s := physWrite (rekeyOwn s g.part base img.length) (crownOf t.core) base img (BitVec.ofNat 16 (g.part * 1024 + g.ctx))
        let s := releaseAt s t.core tid .dev
        let s := { s with
          mem := { s.mem with windows := s.mem.windows.filter fun w => w.team != tid }
          groups := s.groups.filter fun e => e.2.team != tid }
        let s := wakeSlots (setCore s t.core (withoutTeam tid (getCore s t.core))) t.core
        .next (setTeam s tid { t with
          scratch := [], mbx := [], mbxFull := 0, trapvec := 0, bars := [], st := .saved, kept := keep })

/-! ### Resuming (R479) -/

/-- n little-endian cells of a byte list. -/
def cellsFrom (w per : Nat) (b : List Byte) : Nat → List (BitVec w)
  | 0 => []
  | n + 1 => BitVec.ofNat w (leNat (b.take per)) :: cellsFrom w per (b.drop per) n

/-- Bytes of a partition's slot: zero past its end. -/
def slotRead (s : State) (part base size off n : Nat) : State × List Byte × Bool :=
  let m := min n (size - off)
  let (s, b, bad) := physRead (rekeyOwn s part (base + off) m) (base + off) m
  (s, b ++ zeros (n - m), bad)

/-- Bytes of a group image after its header and extension block. -/
def restSize (m : DWord) (vol : Bool) : Nat :=
  1024 + (if m.extractLsb' 32 7 = 0 then 0 else 32) + 1024 * (maskBlocks m 0 32).length
    + 4096 * (maskBlocks m 48 4).length + 4096 * (maskBlocks m 40 8).length + 32768 * (maskBlocks m 52 4).length
    + if vol then 2560 else 0

/-- Blocks of one kind, read in order: the cells, and the bytes left. -/
def blocksFrom (w per n stride : Nat) : List Nat → List Byte → Cells w → Cells w × List Byte
  | [], b, acc => (acc, b)
  | k :: r, b, acc => blocksFrom w per n stride r (b.drop (per * n)) (csetMany acc (stride * k) (cellsFrom w per b n))

/-- The predicates that a mask word names, from their image. -/
def predsFrom (m : DWord) (b : List Byte) : Cells 1 :=
  (below 7 fun n => m.getLsbD (32 + n)).foldl (fun acc n =>
    (below 32 (field b (4 * n) 4).testBit).foldl (fun acc i => cset acc (32 * n + i) 1) acc) []

/-- `fmt` as an image holds it: its reserved bits are ignored and read as zero (R5, R79). -/
def fmtFrom (n : Nat) : Word := BitVec.ofNat 32 n &&& 0xFFFF0000

/-- The stack of a saved group, top first. -/
def stackFrom (h : List Byte) (depth : Nat) : List Frame :=
  ((List.range (min depth 32)).map fun e =>
    (⟨BitVec.ofNat 64 (field h (0x100 + 16 * e) 8), BitVec.ofNat 32 (field h (0x108 + 16 * e) 4),
      fmtFrom (field h (0x10C + 16 * e) 4)⟩ : Frame)).reverse

/-- A group from its image (R83, R84, R482): what was not saved reads zero. `h` holds the header and the extension block. -/
def groupFrom (tid core now : Nat) (block : DWord) (h rest : List Byte) : Group :=
  let bits := field h 0x14 4
  let who := field h 0x18 8
  let m : DWord := BitVec.ofNat 64 (field h 0x300 8)
  let (p, b) := if m.extractLsb' 32 7 = 0 then ([], rest.drop 1024) else (predsFrom m (rest.drop 1024), rest.drop 1056)
  let (v, b) := blocksFrom 32 4 256 256 (maskBlocks m 0 32) b []
  let (c, b) := blocksFrom 256 32 128 128 (maskBlocks m 48 4) b []
  let (tiles, b) := blocksFrom 8 1 4096 4096 (maskBlocks m 40 8) b []
  let (acc, b) := blocksFrom 32 4 8192 8192 (maskBlocks m 52 4) b []
  let vol := bits.testBit 16
  { newGroup tid 0 core (who % 4) (who / 2 ^ 8 % 32) none (BitVec.ofNat 64 (field h 0 8)) (BitVec.ofNat 32 (field h 0xC 4))
      block now with
    mask := BitVec.ofNat 32 (field h 8 4)
    stack := stackFrom h (bits / 2 ^ 8 % 64)
    fmt := fmtFrom (field h 0x10 4)
    g := (below 4 bits.testBit).foldl (fun acc i => cset acc i 1) []
    lastVer := who / 2 ^ 16 % 4
    orig := csetMany [] 0 (cellsFrom 5 1 (h.drop 0x20) 32)
    rng := csetMany [] 0 (cellsFrom 32 4 (h.drop 0x40) 32)
    nextBatch := field h 0xC0 4 - 1 + (2 ^ 32 - 1)
    trapinfo := BitVec.ofNat 64 (field h 0x308 8)
    trappc := BitVec.ofNat 64 (field h 0x310 8)
    trapaddr := csetMany [] 0 (cellsFrom 64 8 (h.drop 0x320) 32)
    s := csetMany [] 0 (cellsFrom 64 8 rest 128)
    p := p
    v := v
    c := c
    tiles := tiles
    acc := acc
    o := if vol then csetMany [] 0 (cellsFrom 32 4 b 512) else []
    l := if vol then csetMany [] 0 (cellsFrom 64 8 (b.drop 2048) 64) else [] }

/-- Reads the groups that a directory names. -/
def readGroups (part tid core base size : Nat) (block : DWord) : List (Nat × Nat) → State → State
  | [], s => s
  | (gid, off) :: r, s =>
    let (s, h, _) := slotRead s part base size off 1088
    let m : DWord := BitVec.ofNat 64 (field h 0x300 8)
    let (s, rest, _) := slotRead s part base size (off + 1088) (restSize m ((field h 0x14 4).testBit 16))
    readGroups part tid core base size block r (setGroup s gid (groupFrom tid core s.cycle block h rest))

/-- A saved queue record: queue code, group's place, payload, batch number, order. -/
structure SavedEntry where
  q : Nat
  place : Nat
  batch : Nat
  order : Nat
  payload : List Byte

/-- The records of a queue section. -/
def readQueue (part base size : Nat) : Nat → Nat → State → State × List SavedEntry
  | 0, _, s => (s, [])
  | n + 1, off, s =>
    let (s, h, _) := slotRead s part base size off 16
    let len := field h 2 2
    let (s, p, _) := slotRead s part base size (off + 16) len
    let (s, r) := readQueue part base size n (off + 16 + len) s
    (s, ⟨field h 0 1, field h 1 1, field h 4 4, field h 8 8, p⟩ :: r)

/-- The operation of a matrix record: its instruction word's, with the parts that the record carries (R405, R483); none of a word that
is no such instruction. -/
def matFrom (b : List Byte) : Option MatOp :=
  let a : DWord := BitVec.ofNat 64 (field b 8 8)
  let n := min (field b 0x14 1) 64
  let live := field b 0x18 8
  match decodeWords [BitVec.ofNat 64 (field b 0 8), 0, 0] with
  | .ok (.tld x) => some (.tld x.t.toNat a (x.stride.toInt * 32) n)
  | .ok (.tst x) => some (.tst x.t.toNat a (x.stride.toInt * 32) n)
  | .ok (.tasm _ t _ _ hi _) => some (.tasm t.toNat hi ((b.drop 32).take 1024) (BitVec.ofNat 32 live))
  | .ok (.mma x) => some (.mma x.ad.toNat x.ta.toNat x.tb.toNat none n (BitVec.ofNat 64 live))
  | .ok (.mmas x) => some (.mma x.ad.toNat x.ta.toNat x.tb.toNat (some x.ts.toNat) n (BitVec.ofNat 64 live))
  | .ok (.acvt _ t acc part ty) => some (.acvt t.toNat acc.toNat part.toNat ty)
  | _ => none

/-- The operation of a ring record's instruction word. -/
def ringOpFrom (w : DWord) : Option Nat :=
  match decodeWords [w, 0, 0] with
  | .ok (.rres _) => some 0
  | .ok (.rpub _) => some 1
  | .ok (.rtake _) => some 2
  | .ok (.rrel _) => some 3
  | _ => none

/-- The batch of a re-entered entry: the newest with its number, or the open one (R404). -/
def batchFrom (g : Group) (n : Nat) : Nat := (batchNumbered g.nextBatch n).getD g.nextBatch

/-- A number for each saved entry, in order: the entry's old number and its new one. -/
def renumber (old : List Nat) (s : State) : State × List (Nat × Nat) :=
  let l := sortBy (fun a b => decide (a ≤ b)) (distinct old)
  ({ s with nextId := s.nextId + l.length }, (l.zipIdx).map fun x => (x.1, s.nextId + x.2))

/-- The new number of an old one. -/
def newNumber (m : List (Nat × Nat)) (n : Nat) : Nat := (tget m n).getD n

/-- The first new number at or after an old one. -/
def newAfter (s : State) (m : List (Nat × Nat)) (n : Nat) : Nat :=
  match m.find? fun x => decide (n ≤ x.1) with | some x => x.2 | none => s.nextId

/-- The records of one queue, in the order of their enqueueing. -/
def ofQueue (recs : List SavedEntry) (q : Queue) : List SavedEntry :=
  sortBy (fun a b => decide (a.order ≤ b.order)) (recs.filter fun r => r.q == queueNum q)

/-- The entries that the records of a queue make: the slices of one copy share an order number. -/
def entryOrders (recs : List SavedEntry) (q : Queue) : List Nat := distinct ((ofQueue recs q).map (·.order))

/-- An engine entry re-enters its queue with the blocks of its records, and a copy waits for those of the groups it counted whose slices
it has not (R428, R461). What a record has no field for is the kept entry's of its order, else of its place (log 33). -/
def engineFrom (s : State) (m : List (Nat × Nat)) (k : Kept) (recs : List SavedEntry) (q : Queue) (x : Nat × Nat) : Option Entry :=
  let kept := k.entries.filter fun e => opcQueue e.opc == q
  let mine := (ofQueue recs q).filter fun r => r.order == x.1
  let slices := mine.filterMap fun r => (k.gids[r.place]?).map fun n => (⟨n, r.payload⟩ : CopySlice)
  match (kept.find? fun e => e.id == x.1).orElse fun _ => kept[x.2]?, slices with
  | some e, first :: _ => some { e with
      id := newNumber m x.1
      gid := first.gid
      block := first.block
      slices := if e.opc = 0xC0 then slices else []
      counted := e.counted.filter fun n => !(slices.any fun y => y.gid == n)
      waits := e.waits.map fun f => { f with after := newAfter s m f.after } }
  | _, _ => none

/-- A matrix entry re-enters the queue; its pages are to be translated afresh (R405). -/
def matEntryFrom (s : State) (m : List (Nat × Nat)) (tid : Nat) (gids : List Nat) (r : SavedEntry) : Option MatEntry :=
  match matFrom r.payload, (gids[r.place]?).bind fun n => (getGroup s n).map fun g => (n, g) with
  | some op, some (gid, g) => some {
      id := newNumber m r.order
      team := tid
      gid := gid
      role := g.role
      word := BitVec.ofNat 64 (field r.payload 0 8)
      op := op
      fmt := fmtFrom (field r.payload 0x10 4)
      batch := batchFrom g r.batch
      pages := []
      finish := none
      terms := []
      k0 := BitVec.ofNat 64 (field r.payload 8 8) }
  | _, _ => none

/-- A ring entry re-enters the queue; its instruction's address is the kept entry's of its order, else where its group stands
(log 33). -/
def ringEntryFrom (s : State) (m : List (Nat × Nat)) (tid : Nat) (k : Kept) (r : SavedEntry) : Option RingEntry :=
  let w : DWord := BitVec.ofNat 64 (field r.payload 0 8)
  match ringOpFrom w, (k.gids[r.place]?).bind fun n => (getGroup s n).map fun g => (n, g) with
  | some op, some (gid, g) => some {
      id := newNumber m r.order
      op := op
      team := tid
      gid := gid
      pc := match k.ring.find? fun e => e.id == r.order with | some e => e.pc | none => g.pc
      word := w
      ring := field r.payload 14 2
      first := field r.payload 8 4
      n := field r.payload 12 2
      asked := none }
  | _, _ => none

/-- A result that is owed again. -/
def oweAgain (m : List (Nat × Nat)) (s : State) (x : Nat × Pend) : State :=
  match getGroup s x.1 with
  | some g => setGroup s x.1 { g with pend := { x.2 with owed := x.2.owed.map (newNumber m) } :: g.pend }
  | none => s

/-- What a FENCE or a load of its lanes had left a group to do stands again (R254). -/
def fenceAgain (s : State) (x : Nat × Cells 3 × Tab (List Nat)) : State :=
  match getGroup s x.1 with
  | some g => setGroup s x.1 { g with relOwed := x.2.1, lastLoad := x.2.2 }
  | none => s

/-- A WAITT or SPAWN is executed again, against the deadline it had read, with the lanes it had not placed (R459, R476). -/
def redoAgain (s : State) (x : Nat × Wait × Nat × List BinLane) : State :=
  match getGroup s x.1 with
  | some g => park s x.1 { g with spawnLeft := x.2.2.2 } x.2.2.1 x.2.1
  | none => s

/-- The queue section's entries re-enter their queues in order, behind what the core's queues hold (R405, R479). -/
def requeue (s : State) (tid core : Nat) (k : Kept) (recs : List SavedEntry) : State :=
  let (s, m) := renumber (allQueues.flatMap (entryOrders recs)) s
  let c := getCore s core
  let inQ (q : Queue) : List Entry := (entryOrders recs q).zipIdx.filterMap (engineFrom s m k recs q)
  let rings := (ofQueue recs .ring).filterMap (ringEntryFrom s m tid k)
  let s := setCore s core { c with
    cpy := c.cpy ++ inQ .cpy
    dec := c.dec ++ inQ .dec
    sto := c.sto ++ inQ .sto
    root := c.root ++ inQ .root
    mat := c.mat ++ (ofQueue recs .mat).filterMap (matEntryFrom s m tid k.gids)
    ring := c.ring ++ rings
    fences := c.fences ++ if m.isEmpty then [] else k.fences.map fun f => { f with after := newAfter s m f.after } }
  let s := k.redo.foldl redoAgain (k.fenced.foldl fenceAgain s)
  (k.pends.filter fun x => match x.2.owed with | some i => rings.any fun e => e.id == newNumber m i | none => false).foldl
    (oweAgain m) s

/-- The window of a record: nothing captured, and nothing valid but what zero-no-fill mode gives (R237, R240). -/
def windowFrom (core tid : Nat) (b : List Byte) : Window :=
  let bits := field b 16 4
  let len := field b 12 4
  let zero := bits.testBit 0
  let ones : Cells 16 := if zero then (List.range (len / 64)).map fun i => (i, BitVec.allOnes 16) else []
  ⟨core, field b 20 1 % 16, tid, field b 8 4, BitVec.ofNat 64 (field b 0 8), len, zero,
    (match bits / 2 % 4 with | 0 => .own | 1 => .wt | 2 => .si | _ => .uc),
    (match bits / 16 % 8 with | 0 => .team | 1 => .bough | 2 => .crown | 3 => .dev | _ => .sys), [], ones, [], ones⟩

/-- The bin of a record. -/
def binFrom (tid now : Nat) (entry : DWord) (b : List Byte) : Bin :=
  ⟨tid, field b 4 1, entry + BitVec.ofNat 64 (field b 0 4),
    (below 32 (field b 12 4).testBit).map fun p => ⟨p, (List.range 4).map fun k => BitVec.ofNat 32 (field b (16 + 16 * p + 4 * k) 4)⟩,
    some (now + field b 8 4), none⟩

/-- Restores bins into the lowest free ones. -/
def restoreBins (core : Nat) : List Bin → State → State
  | [], s => s
  | b :: r, s =>
    let c := getCore s core
    let n := leastFree (c.bins.map (·.1)) 16 0
    restoreBins core r (setCore s core { c with bins := tset c.bins n b })

/-- The checks of R479 on a team header. -/
def slotHeaderOk (h : List Byte) (size : Nat) : Bool :=
  field h 0 4 == 0x53455631 && decide (field h 4 1 ≤ 32) && decide (field h 6 1 ≤ 16) && decide (field h 7 1 ≤ 16)
    && ((List.range (field h 4 1)).all fun i => decide (field h (0x80 + 4 * i) 4 < size))
    && decide (field h 0x20 4 < size) && decide (field h 0x30 4 < size)

/-- What a team must find on the core it resumes on: roles of its groups, bins, indices of its windows, and slots of its queues (R444,
R479). -/
structure Needs where
  roles : List Role
  bins : Nat
  wins : List Nat
  slots : List (Queue × Nat)

/-- What a team needs, from its slot; nothing with a header that fails its checks, so that the resume finds it so. -/
def resumeNeeds (s : State) (t : Team) (g : Grid) : Needs :=
  let (base, size) := slotBase s g.part t.slot
  let (s, h, bad) := slotRead s g.part base size 0 0x400
  if bad || !slotHeaderOk h size then ⟨[], 0, [], []⟩
  else
    let roles := (List.range (field h 4 1)).map fun i =>
      let (_, x, _) := slotRead s g.part base size (field h (0x80 + 4 * i) 4) 32
      g.kernel.roles.getD (field x 0x18 1 % 4) ⟨1, 8, 0, 0, 0⟩
    let wins := if (field h 5 1).testBit 1 then (List.range (field h 7 1)).map fun i => field h (0x200 + 32 * i + 20) 1 % 16 else []
    let (_, recs) := readQueue g.part base size (field h 0x24 2) (field h 0x20 4) s
    ⟨roles, field h 6 1, wins, allQueues.map fun q => (q, (entryOrders recs q).length)⟩

/-- Whether a saved team may resume on a core (R41, R413, R479); each queue must have slots for its entries (R386, R444). -/
def resumeFits (s : State) (t : Team) (g : Grid) (k : Nat) : Bool :=
  let n := resumeNeeds s t g
  let c := getCore s k
  t.st == .saved && !isFrozen s g.part && coreTakes s g k n.roles
    && decide (c.bins.length + n.bins ≤ 16)
    && (n.wins.all fun i => !(s.mem.windows.any fun w => w.core == k && w.index == i))
    && n.slots.all fun x => x.2 == 0 || decide ((queueIds c x.1).length + x.2 ≤ queueCap x.1)

/-- The lowest-numbered of the teams of a grid by number. -/
def lowestTeam : List (Nat × Team) → Option (Nat × Team)
  | [] => none
  | e :: r =>
    match lowestTeam r with
    | none => some e
    | some f => if e.2.index ≤ f.2.index then some e else some f

/-- Teams of a grid that have been placed and have not ended. -/
def gridTeams (s : State) (gid : Nat) : List (Nat × Team) := s.teams.filter fun t => t.2.grid == gid

/-- Whether a core takes what waits of a grid under R41: its lowest-numbered saved team before its next team (R413). -/
def takesWaiting (s : State) (gid : Nat) (g : Grid) (k : Nat) : Bool :=
  match lowestTeam ((gridTeams s gid).filter fun t => t.2.st == .saved) with
  | some (_, t) => resumeFits s t g k
  | none => teamFits s g k

/-- Whether a grid's split lacks a core, this one among them: that a core of the partition already runs it does not help what waits
(R66); for a stage, that too few do, after those that earlier stages take (R419). -/
def splitLacks (s : State) (core gid : Nat) (g : Grid) : Bool :=
  if g.stage.isSome && !hasSaved s gid then
    match lackingStage s (stagesOf s g.lead) [] with
    | some (n, _, taken) => n == gid && !taken.contains core
    | none => false
  else !((partCores s g.part).any fun k => takesWaiting s gid g k)

/-- Whether a core is one of an unfinished launch's booking (R423). -/
def inBooking (s : State) (core : Nat) (g : Grid) : Bool :=
  g.booking.isSome && g.st == .eligible && (timedCores s g.part).contains core

/-- Whether a core may begin to drain for a grid's split (R66): a team of it waits and no core takes it, or the core is one of its
booking's (R423). -/
def drainOk (s : State) (core gid : Nat) (g : Grid) : Bool :=
  let c := getCore s core
  (partCores s g.part).contains core && coreSettled s core && c.split != g.kernel.split && !coreDedicated s core
    && (((wantsPlace s gid g || hasSaved s gid) && splitLacks s core gid g) || inBooking s core g)

/-- A core with its drain abandoned. -/
def undrained (s : State) (core : Nat) : State := setCore s core { getCore s core with drain := none }

/-- Whether the drain of a core may be abandoned for a grid (R66): the core has not been re-formed, and without the drain it takes the
team of the grid that waits. -/
def abandonOk (s : State) (core gid : Nat) (g : Grid) : Bool :=
  (getCore s core).drain.isSome && (getCore s core).split == g.kernel.split && (wantsPlace s gid g || hasSaved s gid)
    && takesWaiting (undrained s core) gid g core

/-- SPLIT_DRAIN: the core takes no team until it has the split of a grid that waits; a drain for another split is abandoned where the
core has the grid's own and then takes its team (R66). -/
def execSplitDrain (core gid : Nat) (s : State) : Out :=
  match tget s.grids gid with
  | none => .next s
  | some g =>
    .next (if drainOk s core gid g then setCore s core { getCore s core with drain := some g.kernel.split }
      else if abandonOk s core gid g then undrained s core
      else s)

/-- Whether a part of a slot that a resume reads holds a poisoned sector (R489). -/
def slotPartLost (s : State) (part base size off n : Nat) : Bool := (slotRead s part base size off n).2.2

/-- Whether the queue section of a slot holds a poisoned sector. -/
def queueLost (s : State) (part base size : Nat) : Nat → Nat → Bool
  | 0, _ => false
  | n + 1, off =>
    let len := field (slotRead s part base size off 16).2.1 2 2
    slotPartLost s part base size off (16 + len) || queueLost s part base size n (off + 16 + len)

/-- Whether a group image of a slot holds a poisoned sector. -/
def imageLost (s : State) (part base size off : Nat) : Bool :=
  let h := (slotRead s part base size off 1088).2.1
  slotPartLost s part base size off (1088 + restSize (BitVec.ofNat 64 (field h 0x300 8)) ((field h 0x14 4).testBit 16))

/-- Whether a slot that a team is to resume from holds a poisoned sector in what the resume reads (R479, R489). -/
def slotLost (s : State) (part base size alloc : Nat) (h : List Byte) : Bool :=
  slotPartLost s part base size 0 0x2500 || slotPartLost s part base size (field h 0x30 4) (min (field h 0x34 4) alloc)
    || ((List.range (field h 4 1)).any fun i => imageLost s part base size (field h (0x80 + 4 * i) 4))
    || queueLost s part base size (field h 0x24 2) (field h 0x20 4)

/-- A team's slot cannot be resumed from: its context ends with DATA_LOST (R479, R489). -/
def slotBroken (s : State) (t : Team) (g : Grid) (base cause : Nat) : State :=
  endContext s { blankRec s g.part g.ctx 15 with cause := cause, lq := g.queue, team := t.index, addr := BitVec.ofNat 64 base }

/-- Loads a team from its slot onto a core; a poisoned sector in the slot ends the team's context before anything is loaded. -/
def loadTeam (s : State) (tid core : Nat) (t : Team) (g : Grid) (base size : Nat) (h : List Byte) : State :=
  if slotLost s g.part base size t.alloc h then slotBroken s t g base 1 else
  let (s, fixed, _) := slotRead s g.part base size 0 0x2500
  let flags := field h 5 1
  let n := field h 4 1
  let (s, extra) := ({ s with nextId := s.nextId + n }, (List.range n).map fun i => s.nextId + i)
  let gids := (List.range n).map fun i => t.kept.gids.getD i (extra.getD i 0)
  let (s, scratch, _) := slotRead s g.part base size (field h 0x30 4) (min (field h 0x34 4) t.alloc)
  let mbx := flags.testBit 0
  let (s, order) := takeId s
  let s := setTeam s tid { t with
    core := core
    order := order
    st := .running
    trapvec := BitVec.ofNat 64 (field h 0x18 8)
    scratch := csetMany (w := 8) [] 0 scratch
    mbx := if mbx then csetMany [] 0 (cellsFrom 32 4 (fixed.drop 0x100) 32) else []
    mbxFull := if mbx then BitVec.ofNat 32 (field fixed 0x180 4) else 0
    kept := .none }
  let s := acquireAt s core tid .dev
  let s := readGroups g.part tid core base size g.blockAddr
    ((gids.zipIdx).map fun x => (x.1, field h (0x80 + 4 * x.2) 4)) s
  let s := restoreBins core ((List.range (field h 6 1)).map fun i =>
    binFrom tid s.cycle g.kernel.entry ((fixed.drop (0x400 + 528 * i)).take 528)) s
  let wins := if flags.testBit 1 then
    (List.range (field h 7 1)).map fun i => windowFrom core tid ((fixed.drop (0x200 + 32 * i)).take 32) else []
  let s := { s with mem := { s.mem with windows := s.mem.windows ++ wins } }
  let (s, recs) := readQueue g.part base size (field h 0x24 2) (field h 0x20 4) s
  recaptureAll (requeue s tid core { t.kept with gids := gids } recs) core fun e => e.team == tid

/-- TEAM_RESUME (R280, R479). -/
def execTeamResume (tid core : Nat) (s : State) : Out :=
  match getTeam s tid with
  | none => .next s
  | some t =>
    match tget s.grids t.grid with
    | none => .next s
    | some g =>
      if !resumeFits s t g core then .next s
      else
        let (base, size) := slotBase s g.part t.slot
        let (s, h, bad) := slotRead s g.part base size 0 256
        if bad || !slotHeaderOk h size then
          .next (slotBroken s t g base (if bad then 1 else 4))
        else
          let s := { s with turns := tset s.turns g.queue s.nextId }
          .next (loadTeam s tid core t g base size h)

end Sys2Proof.Machine
end

