-- ==== Sys2Proof/Machine/Recover.lean ====
section
/-! DEFINITION. The fault queue and its ACTIONs, dead agents, uncorrectable errors, scrubbing, the error dump and device-fatal
faults (spec/20_faults_preemption_security.md R462–R470, R488–R493, R502–R503, spec/09_memory_hierarchy.md R245, R250,
R251). -/

namespace Sys2Proof.Machine

/-! ### The fault queue (R466–R469) -/

/-- Bytes of a fault record (R467). -/
def recordBytes (n : Nat) (f : FaultRec) : List Byte :=
  let awaiting := f.flags.testBit 1
  leBytes 8 (n + 1) ++ leBytes 1 f.cls ++ leBytes 1 f.cause ++ leBytes 1 f.flags ++ leBytes 1 f.part
    ++ leBytes 2 f.ctx ++ leBytes 2 f.core ++ leBytes 2 f.lq ++ leBytes 2 f.code ++ leBytes 4 f.team
    ++ leBytes 8 f.pc.toNat ++ leBytes 8 f.addr.toNat ++ leBytes 4 f.lanes.toNat ++ leBytes 1 f.grp ++ leBytes 1 f.nrec
    ++ leBytes 2 0 ++ leBytes 8 f.time ++ leBytes 8 (if awaiting then 0 else 2 ^ 64 - 1)

/-- The oldest record of a partition that is not written. -/
def nextRecord (s : State) (part : Nat) : Option FaultRec := s.faults.find? fun f => f.part == part && f.at_.isNone

/-- The device's own writes to a partition's fault queue carry the partition's tag, and the key KEYLO (R484). -/
def devWrite (s : State) (part pa : Nat) (b : List Byte) : State :=
  physWrite (rekeyOwn s part pa b.length) (pa / 2 ^ 38) pa b (BitVec.ofNat 16 (part * 1024))

/-- The device's own read of a word of a partition's fault queue (R484). -/
def devRead64 (s : State) (part pa : Nat) : State × Nat := homeRead64 (rekeyOwn s part pa 8) pa

/-- A partition's newest 256 records with their numbers, for the dump (R467, R503). -/
def remember (l : List (Nat × FaultRec)) (n : Nat) (f : FaultRec) : List (Nat × FaultRec) :=
  let mine := (l.filter fun x => x.2.part == f.part).length
  let l := if mine < 256 then l else
    match l.findIdx? fun x => x.2.part == f.part with
    | some i => l.eraseIdx i
    | none => l
  l ++ [(n, f)]

/-- Replaces the first record that equals one by others. -/
def replaceRec (l : List FaultRec) (f : FaultRec) (new : List FaultRec) : List FaultRec :=
  match l with
  | [] => []
  | x :: r => if x = f then new ++ r else x :: replaceRec r f new

/-- Whether a partition's fault queue has room (R469). -/
def faultRoom (s : State) (part : Nat) (p : Partition) : Bool :=
  decide ((p.written + 2 ^ 64 - (devRead64 s part p.body.fqHead).2) % 2 ^ 64 ≠ 2 ^ p.body.fqSize)

/-- FAULT_RECORD_WRITE: the record, the tail word, the notify stamp (R469). -/
def execFaultRecordWrite (part : Nat) (s : State) : Out :=
  match tget s.parts part, nextRecord s part with
  | some p, some f =>
    if !faultRoom s part p then .next s
    else
      let n := p.written
      let pa := p.body.fqBase + n % 2 ^ p.body.fqSize * 64
      let s := devWrite s part pa (recordBytes n f)
      let s := devWrite s part p.body.fqTail (leBytes 8 (n + 1))
      let s := devWrite s part p.body.fqStamp (leBytes 8 (stampWord 0 (n + 1)))
      let rest := if f.awaits = .none then [] else [{ f with at_ := some pa }]
      .next { s with
        faults := replaceRec s.faults f rest
        lastFaults := remember s.lastFaults n f
        parts := tset s.parts part { p with written := n + 1 } }
  | _, _ => .next s

/-! ### ACTIONs (R470) -/

/-- An entry that was parked goes on where it stopped: a request of the storage queue that was not sent starts anew. -/
def unpark (e : Entry) : Entry :=
  let sent := e.opc != 0xC5 && (e.opc != 0xC6 || !e.buf.isEmpty)
  { e with st := if sent then .started else .waiting }

/-- Every entry of the queues of a core that carries a number. -/
def mapEntry (s : State) (core id : Nat) (f : Entry → Entry) : State :=
  let c := getCore s core
  let on := fun (l : List Entry) => l.map fun e => if e.id == id then f e else e
  setCore s core { c with cpy := on c.cpy, dec := on c.dec, sto := on c.sto, root := on c.root }

/-- What parked goes on (R470). -/
def serviced (s : State) (f : FaultRec) : State :=
  match f.awaits with
  | .group gid =>
    match getGroup s gid with
    | some g =>
      if g.wait = .fault f.num then
        let s := retryWait s gid
        recaptureAll s g.core fun e => e.gid == gid
      else s
    | none => s
  | .brk gid =>
    match getGroup s gid with
    | some g => if g.wait = .brk f.num then leaveWait s gid else s
    | none => s
  | .engine core id => mapEntry s core id fun e => if e.st = .parked f.num then unpark e else e
  | .none => s

/-- A record that awaits an ACTION, by its number. -/
def awaiting (s : State) (part num : Nat) : Option FaultRec :=
  s.faults.find? fun f => f.part == part && f.num == num && f.awaits != .none && f.at_.isSome

/-- FAULT_ACTION: the scheduler reads the ACTION word of a record (R470). -/
def execFaultAction (part num : Nat) (s : State) : Out :=
  match awaiting s part num with
  | none => .next s
  | some f =>
    let (s, v) := devRead64 s part (f.at_.getD 0 + 0x38)
    let closed := { s with faults := replaceRec s.faults f [] }
    if v = 1 then .next (serviced closed f)
    else if v = 2 then
      .next (endContext closed { f with
        num := 0, flags := f.flags &&& 17, awaits := .none, at_ := none, nrec := 0, time := timeOf s })
    else .next s

/-! ### Dead agents (R491–R493) -/

/-- An agent's incarnation number. -/
def incarnationOf (s : State) : AgentId → BitVec 8
  | .core n => (getCore s n).incarnation
  | a => (tget s.agents (agentNum a)).getD 0

/-- Whether an agent is dead. -/
def isDead (s : State) : AgentId → Bool
  | .core n => (getCore s n).dead
  | a => s.deadAgents.contains (agentNum a)

/-- An agent is declared dead: its incarnation number advances. -/
def declareDead (s : State) (a : AgentId) : State :=
  match a with
  | .core n =>
    let c := getCore s n
    setCore s n { c with incarnation := c.incarnation + 1, dead := true }
  | _ =>
    { s with
      agents := tset s.agents (agentNum a) (incarnationOf s a + 1)
      deadAgents := setIn s.deadAgents (agentNum a) true }

/-- The entries of the queues that run on an engine, each with its core and its queue (R7). -/
def entriesOn (s : State) (e : EngineId) : List (Nat × Queue × Entry) :=
  s.cores.flatMap fun c => stampQueues.flatMap fun q =>
    ((entriesOf c.2 q).filter fun x => entryEngine s c.1 x == some e).map fun x => (c.1, q, x)

/-- Contexts with a team on a dead core, or an entry on a dead engine, as partition and number. -/
def contextsOn (s : State) : AgentId → List (Nat × Nat)
  | .core n => distinct ((s.teams.filter fun t => t.2.core == n && t.2.st != .saved).filterMap fun t =>
      (tget s.grids t.2.grid).map fun g => (g.part, g.ctx))
  | .engine e => distinct ((entriesOn s e).map fun x => (x.2.2.part, x.2.2.ctx))
  | _ => []

/-- What an agent holds: owned sectors become poisoned, its copies and window registrations go, and what it held dirty and
untracked is lost. -/
def dropAgent (s : State) (n : Nat) : State :=
  let owned := (s.mem.copies.filter fun c => c.agent == n && c.st == .owned).map (·.sector)
  { s with mem := { s.mem with
      poison := owned.foldl (fun l σ => setIn l σ true) s.mem.poison
      copies := s.mem.copies.filter fun c => c.agent != n
      windows := s.mem.windows.filter fun w => w.core != n
      epochs := tdel s.mem.epochs n
      marks := s.mem.marks.filter fun m => m.core != n
      held := s.mem.held.filter fun h => h.core != n } }

/-- The entries on a dead engine that the ends of their contexts have left are gone from their queues. -/
def dropEntries (s : State) (l : List (Nat × Queue × Entry)) : State :=
  l.foldl
    (fun s x =>
      let c := getCore s x.1
      wakeSlots (setCore s x.1 (setEntries c x.2.1 ((entriesOf c x.2.1).filter fun e => e.id != x.2.2.id))) x.1) s

/-- Fawaile declares an agent dead (R491): what it holds is dropped, and the contexts with work on it end with DATA_LOST, cause 3. -/
def agentDies (s : State) (a : AgentId) : State :=
  if isDead s a then s
  else
    let ctxs := contextsOn s a
    let mine := match a with | .engine e => entriesOn s e | _ => []
    let s := declareDead s a
    let s := match a with | .core n => dropAgent s n | .bough n => dropAgent s (256 + n) | _ => s
    let s := ctxs.foldl (fun s x => endContext s { blankRec s x.1 x.2 15 with
      cause := 3, core := match a with | .core n => n | _ => 0xFFFF }) s
    dropEntries s mine

/-- AGENT_TIMEOUT: a home that has waited longer than the agent timeout for an agent's answer, in nanoseconds, reports it (R491). -/
def execAgentTimeout (x : Unanswered) (s : State) : Out :=
  .next (if x.waited ≤ 1000 * s.agentTimeout then s else agentDies s x.agent)

/-- Adds to a crown's count. -/
def countErrors (t : Tab Nat) (crown n : Nat) : Tab Nat := tset t crown ((tget t crown).getD 0 + n)

/-- A message of an agent, about an address, is dropped: its home's crown counts it and it is logged for the dump (R492). -/
def dropMessage (s : State) (agent : Nat) (inc : BitVec 8) (addr : Nat) : State :=
  { s with
    dropped := s.dropped ++ [⟨timeOf s, agent, inc, addr⟩]
    droppedCount := countErrors s.droppedCount (crownAt (addr / 64)) 1 }

/-- STALE_MESSAGE_DROP (R492): a message with the agent's own number is no stale one. -/
def execStaleMessageDrop (a : AgentId) (inc : BitVec 8) (addr : Nat) (s : State) : Out :=
  if inc = incarnationOf s a then .next s else .next (dropMessage s (agentNum a) inc addr)

/-! ### Homes and errors (R231, R245, R250, R251, R265) -/

/-- HOME_WRITE: an agent's write reaches the home of a sector, under the tag of the agent's copy, whose words it names are
clean from then on (R230, R231); one that carries another incarnation than the agent's is dropped (R492). -/
def execHomeWrite (x : Sender) (σ : Nat) (mask : BitVec 64) (data : BitVec 512) (s : State) : Out :=
  if x.inc ≠ incarnationOf s (if x.agent < 256 then .core x.agent else .bough (x.agent - 256)) then
    .next (dropMessage s x.agent x.inc (64 * σ))
  else
    match copyOf s x.agent σ with
    | some c =>
      let s := if c.st = .untracked then putCopy s { c with dirty := c.dirty &&& ~~~(wordsTouched mask) } else s
      .next (homeWrite s (agentCrown x.agent) σ mask data c.tag false none)
    | none => .next (homeWrite s (agentCrown x.agent) σ mask data (cget s.mem.tags σ) false none)

/-- FORCED_PUBLISH: a core publishes what its marks name (R265). -/
def execForcedPublish (core : Nat) (s : State) : Out :=
  .next ((s.mem.marks.filter fun m => m.core == core).foldl publishMark s)

/-- RDC_SWEEP: entries of a crown that no core of it may hit are cleared (R244, R245). -/
def execRdcSweep (crown : Nat) (s : State) : Out :=
  let floor := fun k => (tget s.mem.floors k).getD 1
  let live := fun (e : RdcEntry) => (List.range 64).any fun k => decide (floor (64 * crown + k) ≤ e.gen)
  .next { s with mem := { s.mem with rdc := s.mem.rdc.filter fun e => e.crown != crown || live e } }

/-- SCRUB_DRAM: corrected errors are counted and no value changes (R250). -/
def execScrubDram (crown n : Nat) (s : State) : Out := .next { s with corrected := countErrors s.corrected crown n }

/-- SCRUB_SRAM (R250). -/
def execScrubSram (crown n : Nat) (s : State) : Out := .next { s with corrected := countErrors s.corrected crown n }

/-- A sector becomes poisoned. -/
def poisonSector (s : State) (σ : Nat) : State :=
  { s with mem := { s.mem with poison := setIn s.mem.poison σ true } }

/-- A context ends for an error on a core, of a team when it is one's, that no access met (R251, R467). -/
def errorEnds (s : State) (part ctx core : Nat) (team : Option Nat) (addr : Nat) : State :=
  endContext s { recOf s (blankRec s part ctx 15) core team with addr := BitVec.ofNat 64 addr }

/-- The context of a team ends. -/
def teamLost (s : State) (tid addr : Nat) : State :=
  match (getTeam s tid).bind fun t => (tget s.grids t.grid).map fun g => (t, g) with
  | some (t, g) => errorEnds s g.part g.ctx t.core (some tid) addr
  | none => s

/-- Clears V on a core's clean window words of a sector, and drops its clean copies (R251). -/
def dropClean (s : State) (core σ : Nat) : State :=
  let clean (w : Window) : Window :=
    if w.core = core then
      (windowSectors w σ).foldl (fun w i => { w with vbits := cset w.vbits i (cget w.vbits i &&& cget w.dbits i) }) w
    else w
  let s := { s with mem := { s.mem with
    copies := s.mem.copies.filter fun c => !(c.agent == core && c.sector == σ && c.dirty == 0)
    windows := s.mem.windows.map clean
    tlbs := s.mem.tlbs.filter fun e => e.unit != core
    held := s.mem.held.filter fun h => h.core != core } }
  rdcDrop s (crownOf core) σ

/-- Dirty data of a sector in an L1, or at home, is lost (R251). -/
def loseDirty (s : State) (core σ : Nat) : State :=
  let tag : BitVec 16 := match copyOf s core σ with
    | some c => if c.dirty = 0 then cget s.mem.tags σ else c.tag
    | none => cget s.mem.tags σ
  errorEnds (poisonSector (dropCopy s core σ) σ) (tag.toNat / 1024) (tag.toNat % 1024) core none (64 * σ)

/-- The partition that holds a granule. -/
def granuleOwner (s : State) (g : Nat) : Option Nat :=
  (s.parts.find? fun p => decide (g < 64) && p.2.body.granules.getLsbD g).map (·.1)

/-! ### The error dump (R502, R503) -/

/-- Bytes of the dump region. -/
def dumpSpan : Nat := 2 ^ 26

/-- Where the dump region begins (R502); none when there is no such region. -/
def dumpBase (s : State) : Option Nat :=
  let top (l : List Nat) : Option Nat := l.getLast?.map fun g => (g + 1) * 2 ^ 34 - dumpSpan
  match top (below 16 fun g => s.rdcShare.contains g) with
  | some a => some a
  | none => top (below 16 fun g => !s.offGranules.contains g && (granuleOwner s g).isNone)

/-- The unit map (R26). -/
def unitMap (s : State) : List Byte :=
  let on (l : List Nat) : Nat := l.foldl (fun a n => a + 2 ^ n) 0
  let act (g : Nat) : Bool := !s.offGranules.contains g
  leBytes 8 (censusWhole s)
    ++ (List.range 4).flatMap (fun c => leBytes 8 (on (below 64 fun k => !s.offCores.contains (64 * c + k))))
    ++ (List.range 4).flatMap (fun c => leBytes 8 (on (below 48 fun n => act (16 * c + n / 3))))
    ++ leBytes 8 (on (below 64 act))
    ++ leBytes 4 (on (below 32 fun b => (List.range 8).any fun k => !s.offCores.contains (8 * b + k)))
    ++ zeros 12

/-- A number for why a group is parked (log 36). -/
def waitCode : Wait → Nat
  | .none => 0 | .mbxRead _ _ _ _ _ => 1 | .mbxWrite _ _ => 2 | .bar _ _ => 3 | .barLate _ _ => 4 | .bbar _ => 5
  | .bbarFull _ => 6 | .watch _ _ => 7 | .overflow _ _ => 8 | .regroup _ _ => 9 | .spawn _ => 10 | .paired _ _ _ _ => 11
  | .slot => 12 | .batch _ => 13 | .deadline _ _ _ _ => 14 | .fault _ => 15 | .brk _ => 16 | .capture => 17 | .trap _ => 19 | .stopped _ => 18

/-- A partition record without its keys, as a dump and a seed carry it (log 36). -/
def partBytes (n : Nat) (p : Partition) : List Byte :=
  let b := p.body
  leBytes 8 n ++ leBytes 8 b.quads.toNat ++ leBytes 8 b.granules.toNat ++ leBytes 8 b.keyLo ++ leBytes 8 b.keyN
    ++ leBytes 8 ((if b.plain then 1 else 0) + if b.debug then 2 else 0)
    ++ [b.fqBase, b.fqSize, b.fqHead, b.fqTail, b.fqStamp, b.poolBase, b.slotLog, b.slots, b.serviceQ, b.ovf.getD 2048].flatMap (leBytes 8)
    ++ (b.meas ++ zeros 64).take 64 ++ (b.csKey ++ zeros 64).take 64

/-- The sections of a dump: type and bytes. `part` is none for the device's. -/
def dumpSections (s : State) (part : Option Nat) : List (Nat × List Byte) :=
  let mine (p : Nat) : Bool := match part with | some n => p == n | none => true
  let parts := s.parts.filter fun p => mine p.1
  let own (σ : Nat) : Bool := match part with | some n => granuleOwner s (σ / 2 ^ 28) == some n | none => true
  let groups := s.groups.filter fun g => mine (whoOf s g.2).part
  let recs := s.lastFaults.filter fun f => mine f.2.part
  let recs := recs.drop (recs.length - 256)
  [(1, unitMap s),
   (2, (List.range 4).flatMap fun c => leBytes 8 ((tget s.corrected c).getD 0) ++ leBytes 8 ((tget s.uncorrected c).getD 0)),
   (3, recs.flatMap fun x => recordBytes x.1 x.2),
   (4, (s.mem.poison.filter own).flatMap fun σ => leBytes 8 (64 * σ)),
   (5, (s.dropped.filter fun d => own (d.addr / 64)).flatMap fun d =>
      leBytes 8 d.time ++ leBytes 2 d.agent ++ leBytes 1 d.incarnation.toNat ++ leBytes 5 d.addr),
   (6, parts.flatMap fun p => partBytes p.1 p.2),
   (7, groups.flatMap fun g => leBytes 8 g.2.pc.toNat ++ leBytes 4 g.2.mask.toNat ++ leBytes 2 g.2.core ++ leBytes 2 (waitCode g.2.wait)),
   (8, Config.fawaileLog s.cycle)]

/-- Directory entries of a dump, from an offset. -/
def dumpDir : Nat → List (Nat × List Byte) → List Byte
  | _, [] => []
  | o, (t, b) :: r => leBytes 4 t ++ leBytes 4 b.length ++ leBytes 8 o ++ dumpDir (o + b.length) r

/-- The dump of a fatal fault (R503). -/
def dumpBytes (s : State) (part : Option Nat) (cls : Nat) (unit : BitVec 32) : List Byte :=
  let secs := dumpSections s part
  let body := secs.flatMap (·.2)
  let first := 0x40 + 16 * secs.length
  leBytes 4 0x4B5A4455 ++ leBytes 2 1 ++ leBytes 1 (if part.isSome then 1 else 2) ++ leBytes 1 (part.getD 0xFF)
    ++ leBytes 8 (timeOf s) ++ leBytes 1 cls ++ zeros 3 ++ leBytes 4 unit.toNat ++ leBytes 8 (censusWhole s)
    ++ leBytes 8 secs.length ++ leBytes 8 (first + body.length) ++ zeros 16 ++ dumpDir first secs ++ body

/-- Fawaile writes the dump (R502): to its region, or to port 0 when there is none. -/
def writeDump (s : State) (b : List Byte) : State :=
  match dumpBase s with
  | some a => { physWrite s 0 a (b.take dumpSpan) 0 with dumpMem := some a }
  | none => { s with replies := s.replies ++ [.dump b] }

/-- A partition-fatal fault (R251, R462, R488, R502): the partition ends, then the dump of what it was is written, and ALERT_N is asserted
(R520). -/
def partitionFatal (s : State) (part : Nat) (unit : BitVec 32) : State :=
  { writeDump (endPartition s part 32) (dumpBytes s (some part) 32 unit) with alertN := false }

/-- Every partition ends (R462). -/
def endAll (s : State) : State := s.parts.foldl (fun s p => endPartition s p.1 48) s

/-- DEVICE_FATAL (R462, R502, R520): every partition ends, the device stops, and the dump of what it was is written. -/
def execDeviceFatal (unit : BitVec 32) (s : State) : Out :=
  .next { writeDump (endAll s) (dumpBytes s none 48 unit) with device := .halt, alertN := false }

/-- Crown of an agent's unit; of the port die's engines, which no crown holds, crown 0 (log 74). -/
def unitCrown : AgentId → Nat
  | .core n => crownOf n
  | .bough n => n / 8
  | .home n => n / 48
  | .engine (.copy c) | .engine (.decomp c) => c
  | .engine (.root k) => k / 4
  | .engine .storage | .engine .peer => 0

/-- An error in an L2 slice's directory, atomic unit or ring registers: the partition that owns the granule ends, and the dump names the
slice (R15, R251, R503). -/
def sliceFails (s : State) (slice : Nat) : State :=
  match granuleOwner s (slice / 3) with
  | some part => partitionFatal s part (BitVec.ofNat 32 (2 * 2 ^ 24 + slice))
  | none => s

/-- Crown of an error. -/
def errorCrown (s : State) : ErrAt → Nat
  | .cleanCopy core _ | .dirtyL1 core _ | .dirtyWindow core _ _ => crownOf core
  | .teamArray tid => match getTeam s tid with | some t => crownOf t.core | none => 0
  | .dram σ => crownAt σ
  | .directory line => crownAt (4 * line)
  | .sliceUnit n => n / 48
  | .agent a => unitCrown a

/-- UNCORRECTABLE_ERROR (R251): what it does depends on where it lies. One inside an agent, in no place that R251 lists, has Fawaile
declare the agent dead (R491, log 74). -/
def execUncorrectableError (loc : ErrAt) (s : State) : Out :=
  let s := { s with uncorrected := countErrors s.uncorrected (errorCrown s loc) 1 }
  match loc with
  | .cleanCopy core σ => .next (dropClean s core σ)
  | .dirtyL1 core σ => .next (loseDirty s core σ)
  | .dirtyWindow core index σ =>
    match windowOf s core index with
    | some w =>
      let s := poisonSector s σ
      let s := putWindow s ((windowSectors w σ).foldl
        (fun w i => { w with dbits := cset w.dbits i 0, vbits := cset w.vbits i 0 }) w)
      .next (teamLost s w.team (64 * σ))
    | none => .next s
  | .teamArray tid => .next (teamLost s tid 0)
  | .dram σ => .next (poisonSector s σ)
  | .directory line => .next (sliceFails s (homeSlice (256 * line)))
  | .sliceUnit n => .next (sliceFails s n)
  | .agent a => .next (agentDies s a)

/-! ### Arrivals inside the device (R119, R221, R342) -/

/-- LOAD_DATA_RETURN: results of the group that are due replace what their places held (R119). -/
def execLoadDataReturn (gid : Nat) (s : State) : Out :=
  match getGroup s gid with
  | some g => .next (setGroup s gid (retireDue g s.cycle))
  | none => .next s

/-- PAGE_WALK: a walker's translation is installed, or faults and is not (R221, R224). -/
def execPageWalk (core part ctx : Nat) (va : DWord) (write fetch : Bool) (s : State) : Out :=
  .next (translate s ⟨core, 0, part, ctx⟩ va (if fetch then .fetch else if write then .write else .read)).1

/-- A table that a core's buffer lacks comes to it, through the record it holds (R342). -/
def fetchTable (s : State) (core grid index block : Nat) : State :=
  match tget s.grids grid, findHeld s core heldRecord grid index 0, findHeld s core heldTable grid index block with
  | some g, some b, none =>
    let r := Rec.ofBytes b
    let (s, x) := virtRead s ⟨core, 0, g.part, g.ctx⟩ (r.tableAddr (sextInt 64 block)) r.tableBytes
    match x with
    | .ok t => putHeld s ⟨core, heldTable, grid, index, block, t⟩
    | .error _ => s
  | _, _, _ => s

/-- CODEBOOK_TABLE_ARRIVAL: a table that was fetched stays in the core's buffer, and the cycles that loads waited for it
count (R342, R343). -/
def execCodebookTableArrival (core grid index block stalled : Nat) (s : State) : Out :=
  let s := fetchTable s core grid index block
  let c := getCore s core
  .next (setCore s core { c with cbstall := c.cbstall + BitVec.ofNat 64 stalled })

end Sys2Proof.Machine
end

