-- ==== Sys2Proof/Machine/Manage.lean ====
section
/-! DEFINITION. Management requests, the board's signals and the device's states (spec/21_host_fabric_storage.md R518–R521,
spec/20_faults_preemption_security.md R484–R488, R493). -/

namespace Sys2Proof.Machine

/-! ### Requests (R518) -/

/-- The response to the request at the head: its tag, a status, and data. -/
def respond (s : State) (tag : BitVec 16) (status : Nat) (data : List Byte) : State := answer s (.response tag status data)

/-- Status numbers of R518. -/
def stMalformed : Nat := 2
/-- RANGE. -/
def stRange : Nat := 3
/-- CONFLICT. -/
def stConflict : Nat := 4
/-- BUSY. -/
def stBusy : Nat := 5
/-- NO_OBJECT. -/
def stNoObject : Nat := 6
/-- KEY_UNWRAP. -/
def stUnwrap : Nat := 7
/-- NOT_PERMITTED. -/
def stNotPermitted : Nat := 8

/-- Whether a request carries a tenant's secrets (R518). -/
def isSecret : Request → Bool
  | .loadKey _ _ _ _ | .seedMake _ _ _ _ | .seedRestore _ _ _ _ | .counterStatement _ _ _ _ => true
  | _ => false

/-- The code of a request (R518). -/
def requestCode : Request → Nat
  | .readUnitMap => 1
  | .writePartition _ _ => 2
  | .bindVf _ _ _ _ _ => 3
  | .writeQueue _ _ => 4
  | .writeReg _ _ _ => 5
  | .writeBinding _ _ _ => 6
  | .loadKey _ _ _ _ => 7
  | .seedMake _ _ _ _ => 8
  | .seedRestore _ _ _ _ => 9
  | .counterStatement _ _ _ _ => 10
  | .readDump => 11
  | .setPowerCap _ => 12
  | .resetUnit _ => 13
  | .reserveTimed _ _ _ _ => 14
  | .unknown c => c.toNat

/-- A request of a code with nothing in it, for a message whose body is malformed. -/
def blankRequest (code : Nat) : Request :=
  match code with
  | 1 => .readUnitMap
  | 2 => .writePartition 0 none
  | 3 => .bindVf 0 0 0 0 none
  | 4 => .writeQueue 0 ⟨0, 0, 0, 0, false, false, 0⟩
  | 5 => .writeReg 0 0 ⟨0, 0, 0, false, false, false, false, false⟩
  | 6 => .writeBinding 0 0 (.peer 0 0 0 0 0 0 false)
  | 7 => .loadKey 0 0 [] []
  | 8 => .seedMake 0 0 none false
  | 9 => .seedRestore 0 [] [] []
  | 10 => .counterStatement 0 [] [] []
  | 11 => .readDump
  | 12 => .setPowerCap 0
  | 13 => .resetUnit (.core 0)
  | 14 => .reserveTimed 0 [] 0 0
  | c => .unknown (BitVec.ofNat 16 c)

/-- A message of 256 bytes as a request: code, tag and length, then a body of that length (R518). Answers the tag, whether its form is
in order, and the request. -/
def requestOf (b : List Byte) : BitVec 16 × Bool × Request :=
  let code := field b 0 2
  let tag := BitVec.ofNat 16 (field b 2 2)
  let len := field b 4 4
  if code = 0 ∨ 14 < code then (tag, true, .unknown (BitVec.ofNat 16 code))
  else
    match requestBody code ((b.drop 8).take len) with
    | some r => if b.length = 256 ∧ len ≤ 248 ∧ requestCode r = code then (tag, true, r) else (tag, false, blankRequest code)
    | none => (tag, false, blankRequest code)

/-- Whether a message asks for the dump. -/
def asksDump (b : List Byte) : Bool := field b 0 2 == 11

/-- The request at the head: its sender, its tag, whether its form is in order, and what it asks. -/
def headRequest (s : State) : Option (ReqFrom × BitVec 16 × Bool × Request) :=
  match s.arrivals.head? with
  | some (.request src tag wellLen body) => some (src, tag, wellLen, body)
  | some (.message src b) => some (src, requestOf b)
  | _ => none

/-- What stands before a request's own checks: who sent it, and its form. -/
def admitRequest (src : ReqFrom) (wellLen : Bool) (body : Request) : Nat :=
  if src = .other ∨ (src = .board ∧ isSecret body) then stNotPermitted
  else if !wellLen then stMalformed
  else 0

/-- The request at the head, when there is one, and nothing stands in its way: `act` gives its status, its data and the
state after it; with a status other than 0 nothing changes. -/
def request (s : State) (mine : Request → Bool) (act : State → Request → Nat × List Byte × State) : Out :=
  match headRequest s with
  | some (src, tag, wellLen, body) =>
    if !mine body then .next s
    else
      match admitRequest src wellLen body with
      | 0 =>
        let (st, data, s') := act s body
        .next (if st = 0 then respond s' tag 0 data else respond s tag st data)
      | st => .next (respond s tag st [])
  | _ => .next s

/-- READ_UNIT_MAP (R26). -/
def execReadUnitMap (s : State) : Out :=
  request s (fun r => match r with | .readUnitMap => true | _ => false) fun s _ => (0, unitMap s, s)

/-! ### Partition records (R17, R484, R488) -/

/-- Bytes of a range lie in a partition's granules. -/
def inGranules (g : BitVec 64) (pa n : Nat) : Bool :=
  (List.range (n / 2 ^ 34 + 2)).all fun i =>
    let a := pa / 2 ^ 34 + i
    decide (a * 2 ^ 34 ≥ pa + n) || (decide (a < 64) && g.getLsbD a)

/-- Values of a record within their limits (R326, R466, R480, R484). -/
def partRange (b : PartBody) : Bool :=
  decide (1 ≤ b.keyLo) && decide (b.keyLo + b.keyN ≤ 8192)
    && decide (4 ≤ b.fqSize) && decide (b.fqSize ≤ 16) && b.fqBase % 64 == 0
    && b.fqHead % 8 == 0 && b.fqTail % 8 == 0 && b.fqStamp % 8 == 0 && b.poolBase % 4096 == 0
    && decide (18 ≤ b.slotLog) && decide (b.slotLog ≤ 24) && decide (b.serviceQ < 1024)
    && b.ovf.all (fun n => decide (256 ≤ n) && decide (n ≤ 65536)) && b.meas.length == 64 && b.csKey.length == 64
    && inGranules b.granules b.fqBase (64 * 2 ^ b.fqSize) && inGranules b.granules b.fqHead 8
    && inGranules b.granules b.fqTail 8 && inGranules b.granules b.fqStamp 8
    && inGranules b.granules b.poolBase (b.slots * 2 ^ b.slotLog)

/-- The answer for a partition that does not exist: RANGE for a number that none can have (R484). -/
def noPart (part : Nat) : Nat := if 64 ≤ part then stRange else stNoObject

/-- R17 holds of a record: whole active granules, none of the remote-data-cache share, and at least four active cores.
DESIGN CHOICE (log 81): a record that names an inactive granule beside active ones breaks R17. -/
def partWhole (s : State) (b : PartBody) : Bool :=
  b.granules != 0
    && ((List.range 64).all fun g => !b.granules.getLsbD g || (!s.offGranules.contains g && !s.rdcShare.contains g))
    && decide (4 ≤ (below 256 fun k => b.quads.getLsbD (k / 4) && !s.offCores.contains k).length)

/-- Two records share nothing. -/
def partApart (a b : PartBody) : Bool :=
  a.quads &&& b.quads == 0 && a.granules &&& b.granules == 0
    && (decide (a.keyLo + a.keyN ≤ b.keyLo) || decide (b.keyLo + b.keyN ≤ a.keyLo))

/-- Whether a partition has teams, or entries that have not written their stamps. -/
def partInUse (s : State) (part : Nat) : Bool :=
  partBusy s part || s.teams.any fun t => match tget s.grids t.2.grid with | some g => g.part == part | none => false

/-- Counters of the cores of newly assigned quads are zero (R108, R343). -/
def resetCounters (s : State) (quads : BitVec 64) : State :=
  { s with cores := tmap s.cores fun k c =>
      if quads.getLsbD (k / 4) then { c with termc := [0, 0, 0, 0], cbstall := 0 } else c }

/-- A partition as its record makes it. -/
def newPartition (b : PartBody) : Partition where
  body := b
  ctxs := []
  keys := []
  binds := []
  failed := []
  written := 0
  ending := false
  slotsUsed := []
  frozen := false

/-- Writes a record: one that keeps its quads, granules and keys changes the rest in place; any other is an assignment
(R488). -/
def assignPartition (s : State) (part : Nat) (b : PartBody) : State :=
  match tget s.parts part with
  | some p =>
    if p.body.quads = b.quads ∧ p.body.granules = b.granules ∧ p.body.keyLo = b.keyLo ∧ p.body.keyN = b.keyN then
      { s with parts := tset s.parts part { p with body := b } }
    else
      let s := resetCounters (endPartition s part 32) b.quads
      { s with parts := tset s.parts part (newPartition b), device := .run }
  | none =>
    let s := resetCounters s b.quads
    { s with parts := tset s.parts part (newPartition b), device := .run }

/-- WRITE_PARTITION_RECORD (R484); a request without a record ends the partition (log 37). -/
def execWritePartitionRecord (s : State) : Out :=
  request s (fun r => match r with | .writePartition _ _ => true | _ => false) fun s r =>
    match r with
    | .writePartition part body =>
      if part ≥ 64 then (stRange, [], s)
      else
        match body with
        | none =>
          if (tget s.parts part).isNone then (stNoObject, [], s)
          else if partInUse s part then (stBusy, [], s)
          else (0, [], endPartition s part 32)
        | some b =>
          if !partRange b then (stRange, [], s)
          else if !partWhole s b || s.parts.any (fun p => p.1 != part && !partApart p.2.body b) then (stConflict, [], s)
          else if partInUse s part then (stBusy, [], s)
          else (0, [], assignPartition s part b)
    | _ => (stMalformed, [], s)

/-! ### Virtual functions, queues, registrations, bindings, keys (R407, R485, R508, R511, R513, R515) -/

/-- Limits of a receive ring (R511). -/
def recvRange (r : RecvRing) : Bool :=
  r.base.toNat % 256 == 0 && isPow2 r.slotSize && decide (256 ≤ r.slotSize) && decide (r.slotSize ≤ 65536)
    && isPow2 r.count && decide (2 ≤ r.count) && decide (r.count ≤ 65536)
    && r.tailA.toNat % 8 == 0 && r.headA.toNat % 8 == 0

/-- Whether a context has work. -/
def ctxInUse (s : State) (part ctx : Nat) : Bool :=
  !(teamsOf s part ctx).isEmpty ||
    s.cores.any fun c => stampQueues.any fun q => (entriesOf c.2 q).any fun e => e.part == part && e.ctx == ctx

/-- BIND_VF (R485): the context takes the root, is enabled, and one that has ended is open again (R464). -/
def execBindVf (s : State) : Out :=
  request s (fun r => match r with | .bindVf _ _ _ _ _ => true | _ => false) fun s r =>
    match r with
    | .bindVf vf part ctx root recv =>
      let badRing : Bool := match recv with | some x => !recvRange x | none => false
      if vf ≥ 256 ∨ ctx ≥ 1024 ∨ root % 256 ≠ 0 ∨ badRing then (stRange, [], s)
      else
        match tget s.parts part with
        | none => (noPart part, [], s)
        | some p =>
          let old := tget s.vfs vf
          if old.any fun v => v.part != part then (stConflict, [], s)
          else if (old.any fun v => v.ctx != ctx) || ctxInUse s part ctx then (stBusy, [], s)
          else
            let v : Vf := match old with
              | some v => { v with recv := recv }
              | none => ⟨part, ctx, [], recv, 0, [], []⟩
            (0, [], { s with
              vfs := tset s.vfs vf v
              parts := tset s.parts part { p with ctxs := tset p.ctxs ctx ⟨root, true, false⟩ } })
    | _ => (stMalformed, [], s)

/-- Whether a queue has blocks that the scheduler has not read. -/
def queueUnread (s : State) (b : QueueBody) : Bool :=
  match queueCtx s b with
  | none => false
  | some (part, ctx) =>
    let w := scheduler part ctx
    match (queueWord s w b.tailA).2, (queueWord s w b.headA).2 with
    | .ok t, .ok h => t != h
    | _, _ => false

/-- WRITE_LAUNCH_QUEUE_RECORD (R407): a queue that was disabled is enabled again as the record says (R522). -/
def execWriteLaunchQueueRecord (s : State) : Out :=
  request s (fun r => match r with | .writeQueue _ _ => true | _ => false) fun s r =>
    match r with
    | .writeQueue q b =>
      let others := s.queues.filter fun x => x.1 != q && x.2.vf == b.vf
      if q ≥ 1024 ∨ b.vf ≥ 256 ∨ b.base.toNat % 128 ≠ 0 ∨ b.tailA.toNat % 8 ≠ 0 ∨ b.headA.toNat % 8 ≠ 0 ∨ b.size < 1
          ∨ b.size > 16 ∨ others.length ≥ 16 then (stRange, [], s)
      else
        match tget s.vfs b.vf with
        | none => (stNoObject, [], s)
        | some v =>
          match tget s.queues q with
          | some old =>
            if (match tget s.vfs old.vf with | some o => o.part != v.part | none => false) then (stConflict, [], s)
            else if old.enabled && queueUnread s old then (stBusy, [], s)
            else (0, [], watchTail { s with queues := tset s.queues q b } q)
          | none => (0, [], watchTail { s with queues := tset s.queues q b } q)
    | _ => (stMalformed, [], s)

/-- WRITE_REGISTRATION_ENTRY (R508). -/
def execWriteRegistrationEntry (s : State) : Out :=
  request s (fun r => match r with | .writeReg _ _ _ => true | _ => false) fun s r =>
    match r with
    | .writeReg vf idx b =>
      if idx ≥ 4096 then (stRange, [], s)
      else
        match tget s.vfs vf with
        | none => (if 256 ≤ vf then stRange else stNoObject, [], s)
        | some v => (0, [], { s with vfs := tset s.vfs vf { v with regs := tset v.regs idx b } })
    | _ => (stMalformed, [], s)

/-- Values of a binding within their limits (R513, R515). -/
def bindRange : BindBody → Bool
  | .peer _ _ _ port vf prio _ => decide (1 ≤ port) && decide (port ≤ 8) && decide (vf < 256) && decide (prio ≤ 7)
  | .ns _ _ lba port depth _ _ _ =>
    (lba == 9 || lba == 12) && decide (1 ≤ port) && decide (port ≤ 8) && decide (1 ≤ depth) && decide (depth ≤ 256)

/-- A partition takes a binding; a peer's pair connects anew (R513, R514). -/
def putBinding (s : State) (part idx : Nat) (p : Partition) (b : BindBody) : State :=
  match b with
  | .peer _ _ _ _ _ _ _ =>
    { s with parts := tset s.parts part { p with binds := tset p.binds idx b, failed := setIn p.failed idx false } }
  | .ns _ _ _ _ _ _ _ _ => { s with parts := tset s.parts part { p with binds := tset p.binds (256 + idx) b } }

/-- WRITE_BINDING (R513–R515): a valid peer binding owns a queue pair, within the limits of R507. -/
def execWriteBinding (s : State) : Out :=
  request s (fun r => match r with | .writeBinding _ _ _ => true | _ => false) fun s r =>
    match r with
    | .writeBinding part idx b =>
      if idx ≥ 256 ∨ !bindRange b then (stRange, [], s)
      else
        match tget s.parts part with
        | none => (noPart part, [], s)
        | some p =>
          let u := putBinding s part idx p b
          match b with
          | .peer _ _ _ _ vf _ _ =>
            match tget s.vfs vf with
            | none => (stNoObject, [], s)
            | some v =>
              if v.part ≠ part then (stConflict, [], s)
              else if !pairsFit u vf then (stRange, [], s)
              else (0, [], u)
          | .ns _ _ _ _ _ _ _ _ => (0, [], u)
    | _ => (stMalformed, [], s)

/-- The two 256-bit keys of an unwrapped key (R486). -/
def keyMaterial (m : List Byte) : List Byte := (m ++ zeros 64).take 64

/-- LOAD_KEY (R486). -/
def execLoadKey (s : State) : Out :=
  request s (fun r => match r with | .loadKey _ _ _ _ => true | _ => false) fun s r =>
    match r with
    | .loadKey part key session wrapped =>
      match tget s.parts part with
      | none => (noPart part, [], s)
      | some p =>
        if key < p.body.keyLo ∨ key ≥ p.body.keyLo + p.body.keyN then (stRange, [], s)
        else
          match Config.kemUnwrap session wrapped with
          | none => (stUnwrap, [], s)
          | some m => (0, [], { s with parts := tset s.parts part { p with keys := tset p.keys key (keyMaterial m) } })
    | _ => (stMalformed, [], s)

/-! ### The dump, power, units, timed capacity (R20, R422, R493, R502) -/

/-- READ_DUMP (R502). -/
def execReadDump (s : State) : Out :=
  request s (fun r => match r with | .readDump => true | _ => false) fun s _ =>
    match s.dumpMem with
    | none => (stNoObject, [], s)
    | some a =>
      let n := min (leNat (crange s.mem.dram (a + 0x28) 8)) dumpSpan
      (0, crange s.mem.dram a n, s)

/-- SET_POWER_CAP (R20, R521). -/
def execSetPowerCap (s : State) : Out :=
  request s (fun r => match r with | .setPowerCap _ => true | _ => false) fun s r =>
    match r with
    | .setPowerCap w => (0, [], { s with powerCap := w })
    | _ => (stMalformed, [], s)

/-- A unit is reset and takes work again: its caches, tables and queues are clear, its incarnation number stays (R493). -/
def readmit (s : State) (a : AgentId) : State :=
  match a with
  | .core n =>
    let c := getCore s n
    let s := dropAgent s n
    let s := { s with mem := { s.mem with tlbs := s.mem.tlbs.filter fun e => e.unit != n } }
    setCore s n { Core.reset with split := c.split, termc := c.termc, cbstall := c.cbstall, incarnation := c.incarnation }
  | .bough n =>
    let s := dropAgent s (256 + n)
    { s with
      mem := { s.mem with tlbs := s.mem.tlbs.filter fun e => e.unit != 256 + n }
      deadAgents := setIn s.deadAgents (agentNum a) false }
  | .engine _ =>
    let s := { s with deadAgents := setIn s.deadAgents (agentNum a) false }
    (listedCores s).foldl wakeSlots s
  | .home _ => { s with deadAgents := setIn s.deadAgents (agentNum a) false }

/-- Whether the device has an agent (R7). -/
def hasAgent : AgentId → Bool
  | .core n => decide (n < 256)
  | .bough n => decide (n < 32)
  | .home n => decide (n < 192)
  | .engine (.copy c) | .engine (.decomp c) => decide (c < 4)
  | .engine (.root k) => decide (k < 16)
  | .engine .storage | .engine .peer => true

/-- RESET_AND_READMIT_UNIT (R493). -/
def execResetAndReadmitUnit (s : State) : Out :=
  request s (fun r => match r with | .resetUnit _ => true | _ => false) fun s r =>
    match r with
    | .resetUnit a => if isDead s a then (0, [], readmit s a) else (if hasAgent a then stBusy else stRange, [], s)
    | _ => (stMalformed, [], s)

/-- RESERVE_TIMED_CAPACITY (R422). -/
def execReserveTimedCapacity (s : State) : Out :=
  request s (fun r => match r with | .reserveTimed _ _ _ _ => true | _ => false) fun s r =>
    match r with
    | .reserveTimed part cores share slots =>
      match tget s.parts part with
      | none => (noPart part, [], s)
      | some p =>
        if cores.any fun k => decide (256 ≤ k) || s.offCores.contains k || !p.body.quads.getLsbD (k / 4) then
          (stRange, [], s)
        else
          let till := match tget s.timed part with | some t => t.bookedTo | none => 0
          (0, [], { s with timed := tset s.timed part ⟨distinct cores, share, slots, till⟩ })
    | _ => (stMalformed, [], s)

/-- MGMT_UNKNOWN_CODE (R518). -/
def execMgmtUnknownCode (s : State) : Out :=
  match headRequest s with
  | some (_, tag, _, .unknown _) => .next (respond s tag 1 [])
  | _ => .next s

/-! ### Reset, power, temperature (R19, R21, R242, R519–R521) -/

/-- The device emptied: what has arrived, what has been sent and the board's signals stand outside it. -/
def emptied (s : State) (d : DeviceState) : State :=
  { State.reset with
    device := d, arrivals := s.arrivals, replies := s.replies
    pwrok := s.pwrok, resetN := s.resetN, i3cScl := s.i3cScl, i3cSda := s.i3cSda }

/-- Whether the security engine takes a Fawaile image: its signature verifies against the fused key (R519). -/
def flashOk (f : Flash) : Bool := Config.mlDsaVerify Config.fusedKey f.image f.signature

/-- Granules configured as remote-data cache (R242): active ones, at most four to a crown; the default is each crown's highest-numbered
active one. -/
def shareOf (share : Option (List Nat)) (off : List Nat) : List Nat :=
  (List.range 4).flatMap fun c =>
    let active := below 16 fun g => !off.contains (16 * c + g)
    ((match share with
      | none => active.getLast?.toList
      | some l => (active.filter fun g => l.contains (16 * c + g)).take 4)).map fun g => 16 * c + g

/-- The agent timeout as it is set, from 10 to 1,000 µs; the default is 50 (R491). -/
def timeoutOf (t : Option Nat) : Nat :=
  match t with
  | some n => if 10 ≤ n ∧ n ≤ 1000 then n else 50
  | none => 50

/-- Fawaile publishes the unit map to the host's management function (R26). -/
def publishMap (s : State) : State := { s with replies := s.replies ++ [.unitMap (unitMap s)] }

/-- RESET_RELEASE (R519): the image's signature is verified and its measurement recorded, Fawaile boots, the census is applied and the
unit map is published (R26); an image that fails holds the device in reset. Without power, or with RESET_N released, nothing happens. DESIGN CHOICE (log 75): the map goes out as the device becomes READY. -/
def execResetRelease (s : State) : Out :=
  match s.arrivals.head? with
  | some (.resetRelease cores granules ports share timeout flash) =>
    let s := popArrival s
    if s.device ≠ .reset then .next s
    else
      let s := { s with resetN := true }
      if !flashOk flash then .next { emptied s .reset with alertN := false }
      else
        .next (publishMap { emptied s .ready with
          offCores := cores.filter (· < 256)
          offGranules := granules.filter (· < 64)
          offPorts := ports.filter fun n => decide (1 ≤ n) && decide (n ≤ 8)
          rdcShare := shareOf share granules
          agentTimeout := timeoutOf timeout
          fawaile := some (sha3 flash.image) })
  | _ => .next s

/-- RESET_ASSERT (R519, R520): RESET_N is asserted; of a device without power, as PWROK is asserted at power-up. The levels of the I3C
signals, which the board drives, arrive by a step of this kind too (log 80). -/
def execResetAssert (s : State) : Out :=
  match s.arrivals.head? with
  | some .resetAssert => .next { emptied (popArrival s) .reset with pwrok := true, resetN := false }
  | some (.i3c scl sda) => .next { popArrival s with i3cScl := scl, i3cSda := sda }
  | _ => .next s

/-- POWER_LOSS (R519, R520): no state is kept. -/
def execPowerLoss (s : State) : Out :=
  match s.arrivals.head? with
  | some .powerLoss => .next { emptied (popArrival s) .off with pwrok := false, resetN := false }
  | _ => .next s

/-- THERMAL_WARNING (R520, R521): ALERT_N is asserted, and from then on best-effort capacity is reduced, which placement heeds (R20,
log 70). -/
def execThermalWarning (s : State) : Out :=
  match s.arrivals.head? with
  | some .thermal => .next { popArrival s with alertN := false, hot := true }
  | _ => .next s

/-- THERMTRIP (R521). -/
def execThermtrip (s : State) : Out :=
  match s.arrivals.head? with
  | some .thermtrip => .next { popArrival s with thermtripN := false }
  | _ => .next s

end Sys2Proof.Machine
end

