-- ==== Sys2Proof/Machine/Seed.lean ====
section
/-! DEFINITION. Seed images: making, restoring and moving them (spec/20_faults_preemption_security.md R494–R501). -/

namespace Sys2Proof.Machine

/-! ### Lineages (R497) -/

/-- Entries of the live lineage table. -/
def lineageCap : Nat := 4096

/-- A lineage's entry. -/
def findLineage (s : State) (id : BitVec 128) : Option Lineage := s.lineages.find? fun l => l.id == id

/-- Writes a lineage's entry. -/
def putLineage (s : State) (l : Lineage) : State :=
  { s with lineages := if (findLineage s l.id).isSome then s.lineages.map fun x => if x.id == l.id then l else x
      else s.lineages ++ [l] }

/-- Whether a seed of a lineage may be made for a partition; else the status (R497, R501, R518). -/
def lineageRefusal (s : State) (part : Nat) (id : BitVec 128) : Option Nat :=
  match findLineage s id with
  | none => if s.lineages.length ≥ lineageCap then some 0x10B else none
  | some l =>
    match l.st with
    | .moved => some 0x103
    | .bound p => if p = part then none else some 0x104
    | .idle => none

/-! ### Freezing (R494) -/

/-- Whether a frozen partition has come to rest (R494 steps 2 to 4). -/
def seedReady (s : State) (j : SeedJob) : Bool :=
  !partBusy s j.part
    && (s.grids.all fun g => g.2.part != j.part || g.2.deadline.isNone || !launchOpen s g.2.lead)
    && s.teams.all fun t => t.2.st == .saved || match tget s.grids t.2.grid with | some g => g.part != j.part | none => true

/-- CLEAN and INVAL at .dev over every granule of a partition (R310, R494 step 5): no L1, atomic unit, remote-data cache or metadata
cache keeps a copy of its sectors. -/
def settlePartition (s : State) (g : BitVec 64) : State :=
  let mine (σ : Nat) : Bool := decide (σ / 2 ^ 28 < 64) && g.getLsbD (σ / 2 ^ 28)
  let s := ((s.mem.copies.filter fun c => mine c.sector).map fun c => (c.agent, c.sector)).foldl (fun s x => evict s x.1 x.2) s
  { s with mem := { s.mem with
      rdc := s.mem.rdc.filter fun e => !mine e.sector
      held := s.mem.held.filter fun e => e.kind != heldMeta || !mine e.num } }

/-! ### The image (R495, R496); the order of the payload's parts is the manual's, their layout log 36 -/

/-- The key of an image that this device made. -/
def seedKey (meas : List Byte) (lineage : BitVec 128) (c : Nat) : List Byte :=
  (sha3 (Config.deviceSecret ++ meas ++ leBytes 16 lineage.toNat ++ leBytes 8 c
    ++ ([0x4B, 0x5A, 0x39, 0x53, 0x45, 0x45, 0x44] : List Byte))).take 32

/-- The context table. -/
def ctxBytes (p : Partition) : List Byte :=
  leBytes 8 p.ctxs.length ++ p.ctxs.flatMap fun c =>
    leBytes 8 c.1 ++ leBytes 8 c.2.root ++ leBytes 8 ((if c.2.enabled then 1 else 0) + if c.2.ended then 2 else 0)

/-- Queues of a partition. -/
def partQueues (s : State) (part : Nat) : List (Nat × QueueBody) :=
  s.queues.filter fun q => match tget s.vfs q.2.vf with | some v => v.part == part | none => false

/-- A queue record with its head and tail words. -/
def queueBytes (s : State) (q : Nat × QueueBody) : List Byte :=
  let word (a : DWord) : Nat := match queueCtx s q.2 with
    | some (part, ctx) => match (queueWord s (scheduler part ctx) a).2 with | .ok v => v | .error _ => 0
    | none => 0
  leBytes 8 q.1 ++ leBytes 8 q.2.base.toNat ++ leBytes 8 q.2.tailA.toNat ++ leBytes 8 q.2.headA.toNat ++ leBytes 8 q.2.size
    ++ leBytes 8 ((if q.2.enabled then 1 else 0) + if q.2.timed then 2 else 0) ++ leBytes 8 q.2.vf
    ++ leBytes 8 (word q.2.headA) ++ leBytes 8 (word q.2.tailA)

/-- Granules of a mask, rising. -/
def granuleList (g : BitVec 64) : List Nat := below 64 g.getLsbD

/-- The frames of a partition that are held as a key material reads them. -/
def keyFrames (s : State) (p : Partition) (m : List Byte) : List Nat :=
  (s.mem.pageKeys.filter fun e => e.2 == m && (granuleList p.body.granules).contains (e.1 / 2 ^ 18)).map (·.1)

/-- n bytes of a value, filled with zeros. -/
def sized (n : Nat) (b : List Byte) : List Byte := (b ++ zeros n).take n

/-- Bytes wrapped under a key: AES-256-GCM with the n-th nonce, which stands before the ciphertext and its tag (log 13). -/
def keyWrap (k : List Byte) (n : Nat) (b : List Byte) : List Byte :=
  let nonce := sized 12 (Config.nonce n)
  let (cipher, tag) := gcmSeal k nonce [] b
  nonce ++ cipher ++ tag

/-- What was wrapped, when its tag verifies. -/
def keyUnwrap (k b : List Byte) : Option (List Byte) :=
  gcmOpen k (b.take 12) [] ((b.drop 12).take (b.length - 28)) (b.drop (b.length - 16))

/-- SHA3-512 of the Fawaile image that runs (R495, R519). -/
def runningDigest (s : State) : List Byte := sized 64 (s.fawaile.getD Config.fawaileDigest)

/-- The loaded keys, each wrapped, with the frames that are held under it. -/
def keyBytes (s : State) (k : List Byte) (p : Partition) : List Byte :=
  leBytes 8 p.keys.length ++ p.keys.zipIdx.flatMap fun x =>
    let e := x.1
    let w := keyWrap k (s.fresh + 1 + x.2) e.2
    let l := keyFrames s p e.2
    leBytes 8 e.1 ++ leBytes 8 w.length ++ w ++ leBytes 8 l.length ++ l.flatMap (leBytes 8)

/-- The payload before the granules' contents. -/
def payloadParts (s : State) (part : Nat) (p : Partition) (k : List Byte) : List Byte :=
  let qs := partQueues s part
  partBytes part p ++ ctxBytes p ++ (leBytes 8 qs.length ++ qs.flatMap (queueBytes s)) ++ keyBytes s k p

/-- The payload. -/
def seedPayload (s : State) (part : Nat) (p : Partition) (k : List Byte) : List Byte :=
  payloadParts s part p k ++ (granuleList p.body.granules).flatMap fun g => crange (w := 8) s.mem.dram (g * 2 ^ 34) (2 ^ 34)

/-- Bytes 0x000–0x0FF of the header. -/
def seedHead (granules len : Nat) (lineage : BitVec 128) (c : Nat) (meas fawaile nonce : List Byte) : List Byte :=
  leBytes 4 0x4B5A5345 ++ leBytes 2 1 ++ leBytes 2 granules ++ leBytes 8 len ++ leBytes 16 lineage.toNat ++ leBytes 8 c
    ++ meas.take 64 ++ sized 64 Config.deviceIdentity ++ fawaile ++ sized 12 nonce ++ zeros 12

/-- A seed image. -/
def seedImage (s : State) (part : Nat) (p : Partition) (lineage : BitVec 128) (c : Nat) : List Byte :=
  let k := seedKey p.body.meas lineage c
  let nonce := sized 12 (Config.nonce s.fresh)
  let plain := seedPayload s part p k
  let head := seedHead (granuleList p.body.granules).length plain.length lineage c p.body.meas (runningDigest s) nonce
  let (cipher, tag) := gcmSeal k nonce head plain
  let signed := head ++ tag ++ zeros 240
  signed ++ sized 4627 (Config.mlDsaSign signed) ++ zeros 1005 ++ cipher

/-- The counter of the next seed of a lineage (R497). -/
def nextCounter (s : State) (id : BitVec 128) : Nat := match findLineage s id with | some l => l.counter + 1 | none => 1

/-- Bytes of a seed image of a partition (R495, R496). -/
def imageSpan (s : State) (part : Nat) (p : Partition) (lineage : BitVec 128) : Nat :=
  6144 + (payloadParts s part p (seedKey p.body.meas lineage (nextCounter s lineage))).length
    + (granuleList p.body.granules).length * 2 ^ 34

/-- Whether an image fits its output buffer: device memory, when an address is given, that lies outside the partition from its first
byte to its last (R494). -/
def bufferOk (s : State) (part : Nat) (p : Partition) (lineage : BitVec 128) (buf : Option Nat) : Bool :=
  match buf with
  | none => true
  | some a =>
    let top := a + imageSpan s part p lineage
    decide (top ≤ 2 ^ 40) && (granuleList p.body.granules).all fun g =>
      decide (top ≤ g * 2 ^ 34) || decide ((g + 1) * 2 ^ 34 ≤ a)

/-- SEED_MAKE: the partition freezes, and the answer comes with the image (R494). -/
def execSeedMake (s : State) : Out :=
  match headRequest s with
  | some (src, tag, wellLen, .seedMake part lineage buf endPart) =>
    let refuse (st : Nat) : Out := .next (respond s tag st [])
    match admitRequest src wellLen (.seedMake part lineage buf endPart) with
    | 0 =>
      match tget s.parts part with
      | none => refuse (noPart part)
      | some p =>
        if !bufferOk s part p lineage buf then refuse stRange
        else
          match lineageRefusal s part lineage with
          | some st => refuse st
          | none => .next { popArrival s with
              parts := tset s.parts part { p with frozen := true }
              seed := some ⟨part, lineage, buf, endPart, tag⟩ }
    | st => refuse st
  | _ => .next s

/-- The partition of a seed thaws. -/
def thaw (s : State) (part : Nat) : State :=
  match tget s.parts part with
  | some p => { s with parts := tset s.parts part { p with frozen := false } }
  | none => s

/-- SEED_IMAGE_WRITE (R494–R497): the image is written, the lineage advances, and the partition ends or thaws; an image that its buffer
no longer takes is refused. -/
def execSeedImageWrite (s : State) : Out :=
  match s.seed with
  | none => .next s
  | some j =>
    match tget s.parts j.part with
    | none => .next { s with seed := none, replies := s.replies ++ [.response j.tag stNoObject []] }
    | some p =>
      if !seedReady s j then .next s
      else
        let s := settlePartition s p.body.granules
        if !bufferOk s j.part p j.lineage j.buf then
          .next (thaw { s with seed := none, replies := s.replies ++ [.response j.tag stRange []] } j.part)
        else
          let c := nextCounter s j.lineage
          let img := seedImage s j.part p j.lineage c
          let s := { s with seed := none, fresh := s.fresh + 1 + p.keys.length }
          let (s, data) := match j.buf with
            | some a => (physWrite s (a / 2 ^ 38) a img 0, [])
            | none => (s, img)
          let s := { s with replies := s.replies ++ [.response j.tag 0 data] }
          let s := putLineage s ⟨j.lineage, c, if j.endPart then .idle else .bound j.part, p.body.meas⟩
          .next (if j.endPart then endPartition s j.part 32 else thaw s j.part)

/-! ### Restoring (R498–R500) -/

/-- A parsed payload: record bytes, contexts, queues, keys (each with what wraps it and its frames), granules' bytes. -/
structure Payload_ where
  rec_ : List Byte
  ctxs : List (Nat × Nat × Nat)
  queues : List (List Byte)
  keys : List (Nat × List Byte × List Nat)
  rest : List Byte

/-- n records of 72 bytes. -/
def queueRecords : Nat → List Byte → List (List Byte) × List Byte
  | 0, b => ([], b)
  | n + 1, b =>
    let (l, r) := queueRecords n (b.drop 72)
    (b.take 72 :: l, r)

/-- n wrapped keys: their numbers, what wraps them, their frames. -/
def keyRecords : Nat → List Byte → List (Nat × List Byte × List Nat) × List Byte
  | 0, b => ([], b)
  | n + 1, b =>
    let w := (b.drop 16).take (field b 8 8)
    let more := b.drop (16 + w.length)
    let frames := (List.range (field more 0 8)).map fun i => field more (8 + 8 * i) 8
    let (l, r) := keyRecords n (more.drop (8 + 8 * frames.length))
    ((field b 0 8, w, frames) :: l, r)

/-- Reads a payload. -/
def parsePayload (b : List Byte) : Payload_ :=
  let r := b.take 256
  let b := b.drop 256
  let nc := field b 0 8
  let ctxs := (List.range nc).map fun i => (field b (8 + 24 * i) 8, field b (16 + 24 * i) 8, field b (24 + 24 * i) 8)
  let b := b.drop (8 + 24 * nc)
  let (qs, b) := queueRecords (field b 0 8) (b.drop 8)
  let (ks, b) := keyRecords (field b 0 8) (b.drop 8)
  ⟨r, ctxs, qs, ks, b⟩

/-- Where a physical address of the image lies after the restore (R500). -/
def relocate (src dst : List Nat) (pa : Nat) : Nat :=
  let i := src.findIdx (· == pa / 2 ^ 34)
  match dst[i]? with
  | some g => if i < src.length then g * 2 ^ 34 + pa % 2 ^ 34 else pa
  | none => pa

/-- Rewrites the entries of a table and of every table below it; `seen` holds the tables done (R500). -/
def relocTable (f fk : Nat → Nat) : Nat → Nat → List Host.Cell × List Nat → List Host.Cell × List Nat
  | 0, _, acc => acc
  | lvl + 1, t, acc =>
    if acc.2.contains t then acc
    else
      (List.range (if lvl = 3 then 32 else 4096)).foldl
        (fun (acc : List Host.Cell × List Nat) i =>
          let pte := leNat (crange (w := 8) acc.1 (t + 8 * i) 8)
          if pte % 2 = 0 then acc
          else
            let frame := f (pteBits pte 6 32 * 65536) / 65536
            let leaf := pteBits pte 3 1 == 1
            let key := if leaf then fk (pteBits pte 49 13) else pteBits pte 49 13
            let pte' := pte - pteBits pte 6 32 * 2 ^ 6 + frame * 2 ^ 6 - pteBits pte 49 13 * 2 ^ 49 + key * 2 ^ 49
            let acc := (csetMany (w := 8) acc.1 (t + 8 * i) (leBytes 8 pte'), acc.2)
            if leaf then acc else relocTable f fk lvl (frame * 65536) acc)
        (acc.1, t :: acc.2)

/-- A record's body after relocation: the target's quads, granules and keys, the image's other fields. -/
def relocBody (f : Nat → Nat) (target : PartBody) (r : List Byte) : PartBody :=
  let at_ (i : Nat) : Nat := field r (48 + 8 * i) 8
  let flags := field r 40 8
  { target with
    plain := flags.testBit 0
    debug := flags.testBit 1
    fqBase := f (at_ 0), fqSize := at_ 1, fqHead := f (at_ 2), fqTail := f (at_ 3), fqStamp := f (at_ 4)
    poolBase := f (at_ 5), slotLog := at_ 6, slots := at_ 7, serviceQ := at_ 8, ovf := some (at_ 9)
    csKey := (r.drop 192).take 64 }

/-- The partition that a queue belongs to. -/
def queueOwner (s : State) (n : Nat) : Option Nat := (tget s.queues n).bind fun q => (tget s.vfs q.vf).map (·.part)

/-- A queue of the image, kept when its VF is bound to the target and its number is no other partition's queue. -/
def restoreQueue (part : Nat) (s : State) (b : List Byte) : State :=
  let flags := field b 40 8
  let q : QueueBody := ⟨BitVec.ofNat 64 (field b 8 8), BitVec.ofNat 64 (field b 16 8), BitVec.ofNat 64 (field b 24 8),
    field b 32 8, flags.testBit 0, flags.testBit 1, field b 48 8⟩
  match tget s.vfs q.vf with
  | some v =>
    if v.part = part ∧ ((queueOwner s (field b 0 8)).all (· == part)) = true then
      watchTail { s with queues := tset s.queues (field b 0 8) q } (field b 0 8)
    else s
  | none => s

/-- The target takes what the payload holds, whose keys `k` unwraps (R496, R500); its fault queue goes on at the count that the restored
tail word holds (R469). -/
def restoreInto (s : State) (part : Nat) (p : Partition) (k plain : List Byte) : State :=
  let x := parsePayload plain
  let src := granuleList (BitVec.ofNat 64 (field x.rec_ 16 8))
  let dst := granuleList p.body.granules
  let f := relocate src dst
  let keyLo := field x.rec_ 24 8
  let keyN := field x.rec_ 32 8
  let fk (k : Nat) : Nat := if keyLo ≤ k ∧ k < keyLo + keyN then p.body.keyLo + (k - keyLo) else k
  let own (g : Nat) : Bool := decide (g < 64) && p.body.granules.getLsbD g
  let m := zeroGranules s.mem part own
  let dram := ((src.zip dst).zipIdx).foldl
    (fun d e => csetMany (w := 8) d (e.1.2 * 2 ^ 34) ((x.rest.drop (e.2 * 2 ^ 34)).take (2 ^ 34))) m.dram
  let ctxs : Tab Context := x.ctxs.foldl
    (fun t c => tset t c.1 ⟨f c.2.1, c.2.2.testBit 0, c.2.2.testBit 1⟩) []
  let (dram, _) := ctxs.foldl (fun acc c => relocTable f fk 4 c.2.root acc) (dram, [])
  let keys := x.keys.filterMap fun e => (keyUnwrap k e.2.1).map fun m => (fk e.1, keyMaterial m, e.2.2)
  let p' : Partition := { p with
    body := relocBody f p.body x.rec_
    ctxs := ctxs
    keys := keys.foldl (fun t e => tset t e.1 e.2.1) []
    written := leNat (crange dram (relocBody f p.body x.rec_).fqTail 8)
    slotsUsed := [] }
  let frames : Tab (List Byte) := keys.foldl
    (fun t e => e.2.2.foldl (fun t i => tset t (f (i * 65536) / 65536) e.2.1) t) m.pageKeys
  let s := { s with mem := { m with dram := dram, pageKeys := frames }, parts := tset s.parts part p' }
  x.queues.foldl (restoreQueue part) s

/-- What a counter statement says and who it is for (R498, R499): lineage, counter, the target's identity, the request's
nonce. -/
def statementText (lineage : List Byte) (c : Nat) (target nonce : List Byte) : List Byte := lineage ++ leBytes 8 c ++ target ++ nonce

/-- The nonce of the security engine for the request that it answers now (R498, R499). -/
def challenge (s : State) : List Byte := sized 32 (Config.challenge s.replies.length)

/-- What a side signs when it attests: its identity, the measurement of its Fawaile, the other side's nonce (R499). -/
def attestText (identity fawaile nonce : List Byte) : List Byte := identity ++ fawaile ++ nonce

/-- Whether an attestation, a measurement and a signature, of a device verifies for a nonce of this one. -/
def attests (identity att nonce : List Byte) : Bool :=
  Config.mlDsaVerify identity (attestText identity (att.take 64) nonce) ((att.drop 64).take 4627)

/-- The AES-256 key that a session's shared secret gives, passed through SHA3-512 (R499). -/
def sessionKey (session : List Byte) : Option (List Byte) := (Config.kemShared session).map fun m => (sha3 m).take 32

/-- The checks of R498 before the tag, in order: the status, or the key of the payload. What comes with the image is the statement's
signature, the source's attestation, and K as the session wraps it (log 13). A lineage for which the table has no entry left
is refused after them (log 76). -/
def restoreChecks (s : State) (p : Partition) (img stm session : List Byte) : Except Nat (List Byte) :=
  let head := img.take 256
  let identity := (head.drop 0x68).take 64
  let meas := (head.drop 0x28).take 64
  let lineage : BitVec 128 := BitVec.ofNat 128 (field head 0x10 16)
  let c := field head 0x20 8
  let sig := (img.drop 0x200).take 4627
  if img.length < 6144 ∨ field head 0 4 ≠ 0x4B5A5345 ∨ !Config.mlDsaVerify identity (img.take 0x200) sig then .error 0x105
  else if meas ≠ p.body.meas then .error 0x107
  else if (granuleList p.body.granules).length < field head 6 2 then .error 0x108
  else
    let fresh : Option Nat := match findLineage s lineage with
      | some l =>
        match l.st with
        | .moved => some 0x103
        | .bound _ => some 0x104
        | .idle => if l.counter > c then some 0x101 else if l.counter < c then some 0x102 else none
      | none =>
        let text := statementText ((head.drop 0x10).take 16) c (sized 64 Config.deviceIdentity) (challenge s)
        let sg := stm.take 4627
        if Config.mlDsaVerify identity text sg || Config.mlDsaVerify p.body.csKey text sg then none else some 0x109
    match fresh with
    | some st => .error st
    | none =>
      let key : Except Nat (List Byte) :=
        if identity = sized 64 Config.deviceIdentity then .ok (seedKey meas lineage c)
        else if !attests identity (stm.drop 4627) (challenge s) then .error 0x10A
        else
          match (sessionKey session).bind fun w => keyUnwrap w (stm.drop 9318) with
          | some k => .ok k
          | none => .error 0x10A
      if (findLineage s lineage).isNone && key.isOk && decide (lineageCap ≤ s.lineages.length) then .error 0x10B else key

/-- SEED_RESTORE (R498, R500): before the tag is checked nothing is written; a tag that fails leaves the granules zeroed. -/
def execSeedRestore (s : State) : Out :=
  match headRequest s with
  | some (src, tag, wellLen, .seedRestore part img stm session) =>
    let refuse (st : Nat) : Out := .next (respond s tag st [])
    match admitRequest src wellLen (.seedRestore part img stm session) with
    | 0 =>
      match tget s.parts part with
      | none => refuse (noPart part)
      | some p =>
        if partInUse s part then refuse stBusy
        else
          match restoreChecks s p img stm session with
          | .error st => refuse st
          | .ok k =>
            let head := img.take 256
            match gcmOpen k ((head.drop 0xE8).take 12) head (img.drop 6144) ((img.drop 0x100).take 16) with
            | none =>
              let own (g : Nat) : Bool := decide (g < 64) && p.body.granules.getLsbD g
              .next (respond { s with mem := zeroGranules s.mem part own } tag 0x106 [])
            | some plain =>
              let s := restoreInto s part p k plain
              let s := putLineage s ⟨BitVec.ofNat 128 (field head 0x10 16), field head 0x20 8, .bound part, p.body.meas⟩
              .next (respond s tag 0 [])
    | st => refuse st
  | _ => .next s

/-- What a source device answers: the statement, its attestation, and K wrapped (R499). -/
def statementData (s : State) (id : BitVec 128) (l : Lineage) (target nonce w : List Byte) : List Byte :=
  let mine := attestText (sized 64 Config.deviceIdentity) (runningDigest s) nonce
  sized 4627 (Config.mlDsaSign (statementText (leBytes 16 id.toNat) l.counter target nonce))
    ++ runningDigest s ++ sized 4627 (Config.mlDsaSign mine) ++ keyWrap w s.fresh (seedKey l.meas id l.counter)

/-- COUNTER_STATEMENT (R499): after mutual attestation, the statement, this device's own attestation over the target's nonce, and K
wrapped under the session; MOVED is set in the same step. `peer` is the target's identity and its attestation. -/
def execCounterStatement (s : State) : Out :=
  request s (fun r => match r with | .counterStatement _ _ _ _ => true | _ => false) fun s r =>
    match r with
    | .counterStatement id peer nonce session =>
      match findLineage s id with
      | none => (stNoObject, [], s)
      | some l =>
        match l.st with
        | .moved => (0x103, [], s)
        | .bound _ => (0x104, [], s)
        | .idle =>
          match sessionKey session with
          | none => (0x10A, [], s)
          | some w =>
            if !attests (peer.take 64) (peer.drop 64) (challenge s) then (0x10A, [], s)
            else (0, statementData s id l (peer.take 64) nonce w, putLineage { s with fresh := s.fresh + 1 } { l with st := .moved })
    | _ => (stMalformed, [], s)

end Sys2Proof.Machine
end

