-- ==== Sys2Proof/Machine/System.lean ====
section
/-! DEFINITION. Dropping records, traps and breakpoints, translation invalidation, special-register writes, waiting for a
time (spec/18_isa_engines_and_system.md R454–R461). -/

namespace Sys2Proof.Machine

/-- A system instruction that acts once per group, on the lane its sources are read in (R454). -/
def onceOp (s : State) (h : Hdr) (srcs : List (Src × Bool)) (act : State → Nat → Group → Nat → State) : Out :=
  issue s h false fun s gid g =>
    let len := instrLen h false
    if !(srcs.all fun x => srcInRole (roleOf s g) x.2 x.1) then raiseIllegal s gid g len
    else
      match actsIn g h s.cycle with
      | none => finish s gid g 1 len
      | some lane => act s gid g lane

/-! ### RINV (R455) -/

/-- Drops the held copies of a core that `which` selects. -/
def dropHeld (s : State) (core : Nat) (which : HeldBytes → Bool) : State :=
  { s with mem := { s.mem with held := s.mem.held.filter fun e => !(e.core == core && which e) } }

/-- RINV of one index: the record and the codebook tables fetched through it. -/
def execRinvIndex (h : Hdr) (a : Src) (s : State) : Out :=
  onceOp s h [(a, false)] fun s gid g lane =>
    let n := readSrc g h lane s.cycle 32 a
    let grid := gridIdOf s g
    finish (dropHeld s g.core fun e => (e.kind == heldRecord || e.kind == heldTable) && e.owner == grid && e.num == n)
      gid g 1 (instrLen h false)

/-- RINV of every record and table of the grid. -/
def execRinvAll (h : Hdr) (s : State) : Out :=
  onceOp s h [] fun s gid g _ =>
    let grid := gridIdOf s g
    finish (dropHeld s g.core fun e => (e.kind == heldRecord || e.kind == heldTable) && e.owner == grid)
      gid g 1 (instrLen h false)

/-- RINV of a level record. -/
def execRinvLevel (h : Hdr) (a : Src) (s : State) : Out :=
  onceOp s h [(a, true)] fun s gid g lane =>
    let n := readSrc g h lane s.cycle 64 a
    let grid := gridIdOf s g
    finish (dropHeld s g.core fun e => e.kind == heldLevel && e.owner == grid && e.num == n) gid g 1 (instrLen h false)

/-! ### TRAP and BRK (R456) -/

/-- TRAP (R456). -/
def execTrap (h : Hdr) (code : BitVec 12) (s : State) : Out :=
  issue s h false fun s gid g =>
    let len := instrLen h false
    let part := takingPart g h .w32 s.cycle
    if part.isEmpty then finish s gid g 1 len
    else raise (occupy s g 1) gid (commitAll g s.cycle) len ⟨3, 0, code.toNat, maskOf part, []⟩

/-- BRK (R456): the record awaits an ACTION. -/
def execBrk (h : Hdr) (code : BitVec 12) (s : State) : Out :=
  issue s h false fun s gid g =>
    let len := instrLen h false
    let part := takingPart g h .w32 s.cycle
    if part.isEmpty || !debugOn s g then finish s gid g 1 len
    else
      let g := commitAll g s.cycle
      let (s, n) := takeId (occupy s g 1)
      let s := park s gid g len (.brk n)
      record s { groupRec s g 17 with num := n, flags := 3, code := code.toNat, lanes := maskOf part, awaits := .brk gid }

/-! ### TLBI (R225, R457) -/

/-- A context is privileged when its grid came from the partition's service queue (R457). -/
def privileged (s : State) (g : Group) : Bool :=
  match gridOf s g with
  | some gr =>
    match tget s.parts gr.part with
    | some p => gr.queue == p.body.serviceQ
    | none => false
  | none => false

/-- Every TLB drops the entries of a partition that `which` covers. -/
def dropTlb (s : State) (part : Nat) (which : TlbEntry → Bool) : State :=
  { s with mem := { s.mem with tlbs := s.mem.tlbs.filter fun e => !(e.part == part && which e) } }

/-- TLBI (R457): what precedes it has been performed, since every access is performed as it issues. -/
def tlbiOp (s : State) (h : Hdr) (srcs : List (Src × Bool)) (which : Group → Nat → Nat → TlbEntry → Bool) : Out :=
  onceOp s h srcs fun s gid g lane =>
    let len := instrLen h false
    if !privileged s g then raise s gid g len ⟨14, 0, 0, g.mask, []⟩
    else finish (dropTlb s (whoOf s g).part (which g lane s.cycle)) gid g 1 len

/-- TLBI `.page`. -/
def execTlbiPage (h : Hdr) (va ctx : Src) (s : State) : Out :=
  tlbiOp s h [(va, true), (ctx, false)] fun g lane t e =>
    e.ctx == readSrc g h lane t 32 ctx && e.page == readSrc g h lane t 64 va / 2 ^ e.leaf.shift

/-- TLBI `.ctx`. -/
def execTlbiCtx (h : Hdr) (ctx : Src) (s : State) : Out :=
  tlbiOp s h [(ctx, false)] fun g lane t e => e.ctx == readSrc g h lane t 32 ctx

/-- TLBI `.part`. -/
def execTlbiPart (h : Hdr) (s : State) : Out := tlbiOp s h [] fun _ _ _ _ => true

/-! ### SSET (R95, R458) -/

/-- SSET `%rngstate`: zero stores 1 (R95). -/
def execSsetRngstate (h : Hdr) (a : Src) (s : State) : Out :=
  issue s h false fun s gid g =>
    let len := instrLen h false
    if !srcInRole (roleOf s g) false a then raiseIllegal s gid g len
    else
      let part := takingPart g h .w32 s.cycle
      let rng := part.foldl (fun acc i =>
        let v := readSrc g h i (s.cycle + beatOffset .w32 part i) 32 a
        cset acc i (BitVec.ofNat 32 (if v = 0 then 1 else v))) g.rng
      finish s gid { g with rng := rng } (beatCount .w32 part) len

/-- SSET `%trapvec` (R458). -/
def execSsetTrapvec (h : Hdr) (a : Src) (s : State) : Out :=
  onceOp s h [(a, true)] fun s gid g lane =>
    let len := instrLen h false
    let v : DWord := BitVec.ofNat 64 (readSrc g h lane s.cycle 64 a)
    if v.toNat % 8 ≠ 0 then raise s gid g len ⟨10, 0, 0, g.mask, [(lane, v)]⟩
    else
      match getTeam s g.team with
      | some t => finish (setTeam s g.team { t with trapvec := v }) gid g 1 len
      | none => finish s gid g 1 len

/-! ### Unassigned opcodes (R113, R133) -/

/-- A word whose opcode is unassigned raises ILLEGAL_ENCODING in the group that fetched it; no safe point lies after it (R121). -/
def execUnassignedOpcode (w : DWord) (s : State) : Out :=
  match s.cur with
  | none => .fault .noGroup
  | some gid =>
    match getGroup s gid with
    | none => .fault .noGroup
    | some g => .next (raiseIllegal (occupy s g 1) gid (openIllegal s g) (8 * Sys2Proof.wordCount w))

/-! ### WAITT (R459) -/

/-- Writes the `%time` of a WAITT's completion to its destination: interlocked (R116, R442, R459). -/
def writeTime (g : Group) (uni : Bool) (d : Dst) (lanes : List Nat) (now time : Nat) : Group :=
  if uni then writeUni g .inter .portable now d time
  else writeLanes .inter .portable .w32 lanes now d true (fun _ => time) g

/-- WAITT: at its deadline it completes at once; before, the group goes to the pending set, not ready, with the deadline it read
and the lanes that take part. Its destination is looked at whatever its guard (R29, R113). -/
def execWaitt (h : Hdr) (d : Dst) (a : Src) (s : State) : Out :=
  issue s h false fun s gid g =>
    let len := instrLen h false
    if !srcInRole (roleOf s g) true a || !dstInRole (roleOf s g) h.uni true d then raiseIllegal s gid g len
    else
      match actsIn g h s.cycle with
      | none => finish s gid g 1 len
      | some lane =>
        let t := readSrc g h lane s.cycle 64 a
        let lanes := if h.uni then [] else takingPart g h .w32 s.cycle
        if t ≤ timeOf s then finish s gid (writeTime g h.uni d lanes s.cycle (timeOf s)) 1 len
        else
          park (occupy s g 1) gid { g with slice := none, pendSince := s.cycle, lastStall := s.cycle } len
            (.deadline t h.uni d lanes)

/-- WAITT_DEADLINE_REACHED: in the first cycle at or past its deadline the WAITT completes (R459). -/
def execWaittDeadlineReached (gid : Nat) (s : State) : Out :=
  match getGroup s gid with
  | some g =>
    match g.wait with
    | .deadline t uni d lanes =>
      .next (if t ≤ timeOf s then leaveWait (setGroup s gid (writeTime g uni d lanes s.cycle (timeOf s))) gid else s)
    | _ => .next s
  | none => .next s

end Sys2Proof.Machine
end

