-- ==== Sys2Proof/Machine/Dispatch.lean ====
section
/-! DEFINITION. The instruction of a step: one arm per constructor, each one call of its meaning. -/

namespace Sys2Proof.Machine

/-- What an instruction, or a step of the device, does. -/
def exec (i : Instr) (s : State) : Host.Outcome State Fault Refusal :=
  match i with
  | .nop x => Sys2Proof.Machine.execNop x s
  | .bra x y z => Sys2Proof.Machine.execBra x y z s
  | .bru x y => Sys2Proof.Machine.execBru x y s
  | .brx x y => Sys2Proof.Machine.execBrx x y s
  | .call x y z => Sys2Proof.Machine.execCall x y z s
  | .callx x y z => Sys2Proof.Machine.execCallx x y z s
  | .ret x y => Sys2Proof.Machine.execRet x y s
  | .dvg x y z u => Sys2Proof.Machine.execDvg x y z u s
  | .cvg x => Sys2Proof.Machine.execCvg x s
  | .exit x => Sys2Proof.Machine.execExit x s
  | .yield x => Sys2Proof.Machine.execYield x s
  | .spawn x y z u => Sys2Proof.Machine.execSpawn x y z u s
  | .regroup x y z => Sys2Proof.Machine.execRegroup x y z s
  | .vote x y z u => Sys2Proof.Machine.execVote x y z u s
  | .voteMask x y z u => Sys2Proof.Machine.execVoteMask x y z u s
  | .elect x y => Sys2Proof.Machine.execElect x y s
  | .shfl x y z u v w q => Sys2Proof.Machine.execShfl x y z u v w q s
  | .matchL x y z u => Sys2Proof.Machine.execMatchL x y z u s
  | .plop x y z u v => Sys2Proof.Machine.execPlop x y z u v s
  | .setfmtImm x y => Sys2Proof.Machine.execSetfmtImm x y s
  | .setfmtReg x y => Sys2Proof.Machine.execSetfmtReg x y s
  | .getfmt x y => Sys2Proof.Machine.execGetfmt x y s
  | .sreg x y z => Sys2Proof.Machine.execSreg x y z s
  | .iadd x => Sys2Proof.Machine.execIadd x s
  | .iadd3 x => Sys2Proof.Machine.execIadd3 x s
  | .isub x => Sys2Proof.Machine.execIsub x s
  | .ineg x => Sys2Proof.Machine.execIneg x s
  | .iabs x => Sys2Proof.Machine.execIabs x s
  | .imul x => Sys2Proof.Machine.execImul x s
  | .imulh x => Sys2Proof.Machine.execImulh x s
  | .imad x => Sys2Proof.Machine.execImad x s
  | .idiv x => Sys2Proof.Machine.execIdiv x s
  | .irem x => Sys2Proof.Machine.execIrem x s
  | .imin x => Sys2Proof.Machine.execImin x s
  | .imax x => Sys2Proof.Machine.execImax x s
  | .icmp x => Sys2Proof.Machine.execIcmp x s
  | .isel x y z u v w => Sys2Proof.Machine.execIsel x y z u v w s
  | .and x => Sys2Proof.Machine.execAnd x s
  | .or x => Sys2Proof.Machine.execOr x s
  | .xor x => Sys2Proof.Machine.execXor x s
  | .not x => Sys2Proof.Machine.execNot x s
  | .andn x => Sys2Proof.Machine.execAndn x s
  | .shl x => Sys2Proof.Machine.execShl x s
  | .shr x => Sys2Proof.Machine.execShr x s
  | .sar x => Sys2Proof.Machine.execSar x s
  | .rol x => Sys2Proof.Machine.execRol x s
  | .popc x => Sys2Proof.Machine.execPopc x s
  | .clz x => Sys2Proof.Machine.execClz x s
  | .ctz x => Sys2Proof.Machine.execCtz x s
  | .brev x => Sys2Proof.Machine.execBrev x s
  | .bfx x => Sys2Proof.Machine.execBfx x s
  | .bfi x => Sys2Proof.Machine.execBfi x s
  | .perm x => Sys2Proof.Machine.execPerm x s
  | .lea x => Sys2Proof.Machine.execLea x s
  | .mov x => Sys2Proof.Machine.execMov x s
  | .movi x y z u => Sys2Proof.Machine.execMovi x y z u s
  | .ldi x y z u => Sys2Proof.Machine.execLdi x y z u s
  | .cvti x y z u v w => Sys2Proof.Machine.execCvti x y z u v w s
  | .fadd x => Sys2Proof.Machine.execFadd x s
  | .fsub x => Sys2Proof.Machine.execFsub x s
  | .fmul x => Sys2Proof.Machine.execFmul x s
  | .fma x => Sys2Proof.Machine.execFma x s
  | .fmin x => Sys2Proof.Machine.execFmin x s
  | .fmax x => Sys2Proof.Machine.execFmax x s
  | .fcmp x => Sys2Proof.Machine.execFcmp x s
  | .fneg x => Sys2Proof.Machine.execFneg x s
  | .fabs x => Sys2Proof.Machine.execFabs x s
  | .frcp x => Sys2Proof.Machine.execFrcp x s
  | .frsq x => Sys2Proof.Machine.execFrsq x s
  | .fsqrt x => Sys2Proof.Machine.execFsqrt x s
  | .fdiv x => Sys2Proof.Machine.execFdiv x s
  | .fex2 x => Sys2Proof.Machine.execFex2 x s
  | .flg2 x => Sys2Proof.Machine.execFlg2 x s
  | .fsin x => Sys2Proof.Machine.execFsin x s
  | .fcos x => Sys2Proof.Machine.execFcos x s
  | .ftanh x => Sys2Proof.Machine.execFtanh x s
  | .fcls x => Sys2Proof.Machine.execFcls x s
  | .fscl x => Sys2Proof.Machine.execFscl x s
  | .frnd x => Sys2Proof.Machine.execFrnd x s
  | .fcvt x => Sys2Proof.Machine.execFcvt x s
  | .fcvti x => Sys2Proof.Machine.execFcvti x s
  | .icvtf x => Sys2Proof.Machine.execIcvtf x s
  | .hadd2 x => Sys2Proof.Machine.execHadd2 x s
  | .hmul2 x => Sys2Proof.Machine.execHmul2 x s
  | .hfma2 x => Sys2Proof.Machine.execHfma2 x s
  | .dot4 x => Sys2Proof.Machine.execDot4 x s
  | .ldOwn x => Sys2Proof.Machine.execLdOwn x s
  | .ldWt x => Sys2Proof.Machine.execLdWt x s
  | .ldSi x => Sys2Proof.Machine.execLdSi x s
  | .ldUc x => Sys2Proof.Machine.execLdUc x s
  | .stOwn x => Sys2Proof.Machine.execStOwn x s
  | .stWt x => Sys2Proof.Machine.execStWt x s
  | .stSi x => Sys2Proof.Machine.execStSi x s
  | .stUc x => Sys2Proof.Machine.execStUc x s
  | .lduOwn x => Sys2Proof.Machine.execLduOwn x s
  | .lduWt x => Sys2Proof.Machine.execLduWt x s
  | .lduSi x => Sys2Proof.Machine.execLduSi x s
  | .lduUc x => Sys2Proof.Machine.execLduUc x s
  | .lds x => Sys2Proof.Machine.execLds x s
  | .sts x => Sys2Proof.Machine.execSts x s
  | .pref x y z u v => Sys2Proof.Machine.execPref x y z u v s
  | .zsect x y z u v => Sys2Proof.Machine.execZsect x y z u v s
  | .wmap x y z u v w q => Sys2Proof.Machine.execWmap x y z u v w q s
  | .wunmap x => Sys2Proof.Machine.execWunmap x s
  | .wflush x => Sys2Proof.Machine.execWflush x s
  | .winv x y => Sys2Proof.Machine.execWinv x y s
  | .wstat x => Sys2Proof.Machine.execWstat x s
  | .clean x => Sys2Proof.Machine.execClean x s
  | .inval x => Sys2Proof.Machine.execInval x s
  | .atom x => Sys2Proof.Machine.execAtom x s
  | .atomcas x => Sys2Proof.Machine.execAtomcas x s
  | .red x => Sys2Proof.Machine.execRed x s
  | .fence x y z => Sys2Proof.Machine.execFence x y z s
  | .qfence x y => Sys2Proof.Machine.execQfence x y s
  | .barTeam x y => Sys2Proof.Machine.execBarTeam x y s
  | .barRole x y => Sys2Proof.Machine.execBarRole x y s
  | .bbar x y z => Sys2Proof.Machine.execBbar x y z s
  | .mwait x => Sys2Proof.Machine.execMwait x s
  | .tbinit x => Sys2Proof.Machine.execTbinit x s
  | .tbarr x => Sys2Proof.Machine.execTbarr x s
  | .tbwait x => Sys2Proof.Machine.execTbwait x s
  | .cinit x => Sys2Proof.Machine.execCinit x s
  | .cinitApp x => Sys2Proof.Machine.execCinitApp x s
  | .cnext x y z => Sys2Proof.Machine.execCnext x y z s
  | .cseek x y z u => Sys2Proof.Machine.execCseek x y z u s
  | .cdesc x => Sys2Proof.Machine.execCdesc x s
  | .cdescApp x => Sys2Proof.Machine.execCdescApp x s
  | .cisec x => Sys2Proof.Machine.execCisec x s
  | .cunion x => Sys2Proof.Machine.execCunion x s
  | .ccrd x => Sys2Proof.Machine.execCcrd x s
  | .cpos x => Sys2Proof.Machine.execCpos x s
  | .cval x => Sys2Proof.Machine.execCval x s
  | .cstv x y z => Sys2Proof.Machine.execCstv x y z s
  | .capp x y z u => Sys2Proof.Machine.execCapp x y z u s
  | .cfin x y => Sys2Proof.Machine.execCfin x y s
  | .cdone x y z => Sys2Proof.Machine.execCdone x y z s
  | .cmov x y z => Sys2Proof.Machine.execCmov x y z s
  | .csave x y z u => Sys2Proof.Machine.execCsave x y z u s
  | .crest x y z u => Sys2Proof.Machine.execCrest x y z u s
  | .cpref x y z => Sys2Proof.Machine.execCpref x y z s
  | .tld x => Sys2Proof.Machine.execTld x s
  | .tst x => Sys2Proof.Machine.execTst x s
  | .tzero x y => Sys2Proof.Machine.execTzero x y s
  | .tasm x y z u v w => Sys2Proof.Machine.execTasm x y z u v w s
  | .mma x => Sys2Proof.Machine.execMma x s
  | .mmas x => Sys2Proof.Machine.execMmas x s
  | .aclr x y => Sys2Proof.Machine.execAclr x y s
  | .ard x => Sys2Proof.Machine.execArd x s
  | .awr x => Sys2Proof.Machine.execAwr x s
  | .acvt x y z u v => Sys2Proof.Machine.execAcvt x y z u v s
  | .mfence x y => Sys2Proof.Machine.execMfence x y s
  | .mwaitb x y z => Sys2Proof.Machine.execMwaitb x y z s
  | .cpy x y z u => Sys2Proof.Machine.execCpy x y z u s
  | .cpyt x => Sys2Proof.Machine.execCpyt x s
  | .cpyc x => Sys2Proof.Machine.execCpyc x s
  | .csum x => Sys2Proof.Machine.execCsum x s
  | .decq x => Sys2Proof.Machine.execDecq x s
  | .stq x => Sys2Proof.Machine.execStq x s
  | .netq x => Sys2Proof.Machine.execNetq x s
  | .topk x => Sys2Proof.Machine.execTopk x s
  | .rmv x => Sys2Proof.Machine.execRmv x s
  | .qstat x y z => Sys2Proof.Machine.execQstat x y z s
  | .launch x y => Sys2Proof.Machine.execLaunch x y s
  | .mbxw x y z => Sys2Proof.Machine.execMbxw x y z s
  | .mbxr x y z => Sys2Proof.Machine.execMbxr x y z s
  | .mbxp x y z u => Sys2Proof.Machine.execMbxp x y z u s
  | .rres x => Sys2Proof.Machine.execRres x s
  | .rpub x => Sys2Proof.Machine.execRpub x s
  | .rtake x => Sys2Proof.Machine.execRtake x s
  | .rrel x => Sys2Proof.Machine.execRrel x s
  | .rinvIndex x y => Sys2Proof.Machine.execRinvIndex x y s
  | .rinvAll x => Sys2Proof.Machine.execRinvAll x s
  | .rinvLevel x y => Sys2Proof.Machine.execRinvLevel x y s
  | .trap x y => Sys2Proof.Machine.execTrap x y s
  | .brk x y => Sys2Proof.Machine.execBrk x y s
  | .tlbiPage x y z => Sys2Proof.Machine.execTlbiPage x y z s
  | .tlbiCtx x y => Sys2Proof.Machine.execTlbiCtx x y s
  | .tlbiPart x => Sys2Proof.Machine.execTlbiPart x s
  | .ssetRngstate x y => Sys2Proof.Machine.execSsetRngstate x y s
  | .ssetTrapvec x y => Sys2Proof.Machine.execSsetTrapvec x y s
  | .waitt x y z => Sys2Proof.Machine.execWaitt x y z s
  | .binTimerExpiry x y => Sys2Proof.Machine.execBinTimerExpiry x y s
  | .binLaunchDeferred x y => Sys2Proof.Machine.execBinLaunchDeferred x y s
  | .spawnResume x => Sys2Proof.Machine.execSpawnResume x s
  | .regroupMigrate x y => Sys2Proof.Machine.execRegroupMigrate x y s
  | .regroupTimeout x => Sys2Proof.Machine.execRegroupTimeout x s
  | .stallExchange x => Sys2Proof.Machine.execStallExchange x s
  | .emptySlotFill x y => Sys2Proof.Machine.execEmptySlotFill x y s
  | .pendingAgeExpiry x => Sys2Proof.Machine.execPendingAgeExpiry x s
  | .teamPlace x y => Sys2Proof.Machine.execTeamPlace x y s
  | .teamEnd x => Sys2Proof.Machine.execTeamEnd x s
  | .gridEnd x => Sys2Proof.Machine.execGridEnd x s
  | .splitDrain x y => Sys2Proof.Machine.execSplitDrain x y s
  | .splitReconfigure x => Sys2Proof.Machine.execSplitReconfigure x s
  | .mailboxWake x y => Sys2Proof.Machine.execMailboxWake x y s
  | .loadDataReturn x => Sys2Proof.Machine.execLoadDataReturn x s
  | .pageWalk x y z u v w => Sys2Proof.Machine.execPageWalk x y z u v w s
  | .homeWrite x y z u => Sys2Proof.Machine.execHomeWrite x y z u s
  | .forcedPublish x => Sys2Proof.Machine.execForcedPublish x s
  | .rdcSweep x => Sys2Proof.Machine.execRdcSweep x s
  | .scrubDram x y => Sys2Proof.Machine.execScrubDram x y s
  | .scrubSram x y => Sys2Proof.Machine.execScrubSram x y s
  | .uncorrectableError x => Sys2Proof.Machine.execUncorrectableError x s
  | .mwaitRetest x => Sys2Proof.Machine.execMwaitRetest x s
  | .mwaitOverflowExpiry x => Sys2Proof.Machine.execMwaitOverflowExpiry x s
  | .bbarEntryFree x => Sys2Proof.Machine.execBbarEntryFree x s
  | .captureEntryFree x => Sys2Proof.Machine.execCaptureEntryFree x s
  | .codebookTableArrival x y z u v => Sys2Proof.Machine.execCodebookTableArrival x y z u v s
  | .tldPerform x => Sys2Proof.Machine.execTldPerform x s
  | .tstPerform x => Sys2Proof.Machine.execTstPerform x s
  | .tasmPerform x => Sys2Proof.Machine.execTasmPerform x s
  | .mmaExecute x => Sys2Proof.Machine.execMmaExecute x s
  | .acvtPerform x => Sys2Proof.Machine.execAcvtPerform x s
  | .matrixEntryRetire x => Sys2Proof.Machine.execMatrixEntryRetire x s
  | .mwaitbWake x => Sys2Proof.Machine.execMwaitbWake x s
  | .cpyPerform x => Sys2Proof.Machine.execCpyPerform x s
  | .cpytPerform x => Sys2Proof.Machine.execCpytPerform x s
  | .cpycPerform x => Sys2Proof.Machine.execCpycPerform x s
  | .csumPerform x => Sys2Proof.Machine.execCsumPerform x s
  | .decqPerform x => Sys2Proof.Machine.execDecqPerform x s
  | .stqSubmit x => Sys2Proof.Machine.execStqSubmit x s
  | .nvmeCompletion x y z => Sys2Proof.Machine.execNvmeCompletion x y z s
  | .netqPerform x => Sys2Proof.Machine.execNetqPerform x s
  | .netqAck x y z => Sys2Proof.Machine.execNetqAck x y z s
  | .rdmaAckTimeout x => Sys2Proof.Machine.execRdmaAckTimeout x s
  | .topkPerform x => Sys2Proof.Machine.execTopkPerform x s
  | .rmvPerform x => Sys2Proof.Machine.execRmvPerform x s
  | .ringEntryPerform x => Sys2Proof.Machine.execRingEntryPerform x s
  | .engineEntryPark x y => Sys2Proof.Machine.execEngineEntryPark x y s
  | .launchQueueTailWrite x => Sys2Proof.Machine.execLaunchQueueTailWrite x s
  | .blockEligible x => Sys2Proof.Machine.execBlockEligible x s
  | .priorityAging x => Sys2Proof.Machine.execPriorityAging x s
  | .budgetOverrun x => Sys2Proof.Machine.execBudgetOverrun x s
  | .faultRecordWrite x => Sys2Proof.Machine.execFaultRecordWrite x s
  | .faultAction x y => Sys2Proof.Machine.execFaultAction x y s
  | .preemptRequest x => Sys2Proof.Machine.execPreemptRequest x s
  | .hardPreempt x => Sys2Proof.Machine.execHardPreempt x s
  | .teamSave x => Sys2Proof.Machine.execTeamSave x s
  | .teamResume x y => Sys2Proof.Machine.execTeamResume x y s
  | .agentTimeout x => Sys2Proof.Machine.execAgentTimeout x s
  | .staleMessageDrop x y z => Sys2Proof.Machine.execStaleMessageDrop x y z s
  | .deviceFatal x => Sys2Proof.Machine.execDeviceFatal x s
  | .waittDeadlineReached x => Sys2Proof.Machine.execWaittDeadlineReached x s
  | .unassignedOpcode x => Sys2Proof.Machine.execUnassignedOpcode x s
  | .seedImageWrite => Sys2Proof.Machine.execSeedImageWrite s
  | .frameReceive => Sys2Proof.Machine.execFrameReceive s
  | .rdmaWriteInbound => Sys2Proof.Machine.execRdmaWriteInbound s
  | .rdmaReadInbound => Sys2Proof.Machine.execRdmaReadInbound s
  | .rdmaAtomicInbound => Sys2Proof.Machine.execRdmaAtomicInbound s
  | .rdmaSendInbound => Sys2Proof.Machine.execRdmaSendInbound s
  | .rdmaSignalInbound => Sys2Proof.Machine.execRdmaSignalInbound s
  | .rdmaUnsupportedInbound => Sys2Proof.Machine.execRdmaUnsupportedInbound s
  | .targetBufAccess => Sys2Proof.Machine.execTargetBufAccess s
  | .nvmeConnectionLost => Sys2Proof.Machine.execNvmeConnectionLost s
  | .readUnitMap => Sys2Proof.Machine.execReadUnitMap s
  | .writePartitionRecord => Sys2Proof.Machine.execWritePartitionRecord s
  | .bindVf => Sys2Proof.Machine.execBindVf s
  | .writeLaunchQueueRecord => Sys2Proof.Machine.execWriteLaunchQueueRecord s
  | .writeRegistrationEntry => Sys2Proof.Machine.execWriteRegistrationEntry s
  | .writeBinding => Sys2Proof.Machine.execWriteBinding s
  | .loadKey => Sys2Proof.Machine.execLoadKey s
  | .seedMake => Sys2Proof.Machine.execSeedMake s
  | .seedRestore => Sys2Proof.Machine.execSeedRestore s
  | .counterStatement => Sys2Proof.Machine.execCounterStatement s
  | .readDump => Sys2Proof.Machine.execReadDump s
  | .setPowerCap => Sys2Proof.Machine.execSetPowerCap s
  | .resetAndReadmitUnit => Sys2Proof.Machine.execResetAndReadmitUnit s
  | .reserveTimedCapacity => Sys2Proof.Machine.execReserveTimedCapacity s
  | .mgmtUnknownCode => Sys2Proof.Machine.execMgmtUnknownCode s
  | .resetRelease => Sys2Proof.Machine.execResetRelease s
  | .resetAssert => Sys2Proof.Machine.execResetAssert s
  | .powerLoss => Sys2Proof.Machine.execPowerLoss s
  | .thermalWarning => Sys2Proof.Machine.execThermalWarning s
  | .thermtrip => Sys2Proof.Machine.execThermtrip s

end Sys2Proof.Machine
end

