-- ==== Sys2Proof/Machine/Beats.lean ====
section
/-! DEFINITION. What an issued instruction leaves to be noted (spec/02_execution_model.md R32–R38, spec/05_encoding_and_assembly.md
R116–R120): the cycles of its slice, the return of its results, and the beats of younger groups that it puts off. -/

namespace Sys2Proof.Machine

/-! ### Slices -/

/-- Beats that a slice still owes younger groups when an older one issues (R36). -/
def beatsOwed (s : State) (g : Group) : Nat :=
  match g.slice with
  | some i => (getCore s g.core).busy.getD i 0 - s.cycle
  | none => 0

/-- A group's slice, free until a cycle. -/
def slicePut (s : State) (g : Group) (t : Nat) : State :=
  match g.slice with
  | some i => setCore s g.core { getCore s g.core with busy := (getCore s g.core).busy.set i t }
  | none => s

/-- The cycle until which a group's slice issues beats. -/
def sliceBusy (s : State) (g : Group) : Nat :=
  match g.slice with
  | some i => (getCore s g.core).busy.getD i 0
  | none => s.cycle + 1

/-- Whether a group that an instruction was fetched for has not issued it: it waits for a slot or a capture entry (R357, R386, R444). -/
def unissuedIn (s : State) (gid : Nat) : Bool :=
  match getGroup s gid with
  | some g => g.wait == .slot || g.wait == .capture
  | none => false

/-- An issue takes its slice at least one cycle, whatever came of it (R36). -/
def useSlice (s : State) (gid : Nat) (g0 : Group) : State :=
  if unissuedIn s gid then s else slicePut s g0 (max (sliceBusy s g0) (s.cycle + 1))

/-- A YIELD or a WAITT has freed the slot of its group (R150, R459). -/
def noteFreed (s : State) (gid : Nat) (g0 : Group) : State :=
  match getGroup s gid, g0.slice with
  | some g, some i => if g.slice.isNone then { s with freed := s.freed ++ [(g0.core, i)] } else s
  | _, _ => s

/-! ### The issuing group -/

/-- The issuing core's L1 holds a sector it did not hold before, or the access passes L1 by (R38). -/
def missedL1 (before after : State) (core o : Nat) : Bool :=
  passesL1 o || after.mem.copies.any fun c =>
    c.agent == core && !(before.mem.copies.any fun d => d.agent == core && d.sector == c.sector)

/-- A variable result of the instruction just issued returns after `n` cycles. -/
def noteLat (now n : Nat) (e : Pend) : Pend := if e.var && decide (now ≤ e.beat) then { e with lat := n } else e

/-- Results that return to lanes that have exited are discarded (R155): they have not returned yet, or a ring entry owes them. -/
def dropExited (g : Group) (out : Word) (now : Nat) : Group :=
  { g with pend := g.pend.filter fun e =>
      e.uni || !out.getLsbD e.lane || (e.owed.isNone && decide (e.beat + e.lat ≤ now)) }

/-- The results that a group has outstanding as an instruction with these marker bits reads its sources. -/
def openedPend (g : Group) (now : Nat) (m : Bool × Bool) : List Pend :=
  (openPend g now m.1 (if m.2 then .fixed else .portable)).pend

/-- Lanes of a beat of a word whose lanes read their own sources, and whether neither side of its group passes it (R32, R35). -/
def beatFacts (ws : List DWord) : Nat × Bool :=
  match Sys2Proof.decodeWords ws with
  | .ok i => (i.beatLanes, i.isSync)
  | .error _ => (0, false)

/-- What an issue notes on its group: the beats it takes, until `last`, and the return of its results (R117, R120, log 15); a
marker that waited past 64 cycles was a long-latency stall (R38). -/
def noteIssue (now last : Nat) (ws : List DWord) (missed : Bool) (g0 g : Group) : Group :=
  let w := ws.headD 0
  let o := Sys2Proof.opcodeOf w
  let m := markBits w
  let (lanes, sync) := beatFacts ws
  let late := if missed then missLatency else lateLatency
  let waited := markerTill g0 m
  let uni := w.getLsbD 59
  let pend := if returnsLate o then g.pend.map (noteLat now late) else g.pend
  dropExited { g with
    freeAt := max g.freeAt (last + 1)
    pend := pend
    fixedBack := backOf (pend.filter fun e => !e.var && decide (now ≤ e.beat)) g.fixedBack
    lateBack := if returnsLate o then max g.lateBack (last + late) else g.lateBack
    missBack := if returnsLate o && missed then max g.missBack (last + late) else g.missBack
    passFrom := if uni && (sync || m.1) then backOf (g0.pend.filter (·.uni)) g.passFrom else g.passFrom
    beatWords := ws
    beatLanes := if uni then 0 else lanes
    beatPend := (openedPend g0 now m).length
    lastStall := if g0.freeAt + 64 < waited then max g.lastStall waited else g.lastStall } (g0.live &&& ~~~g.live) now

/-! ### Beats put off (R36, R119) -/

/-- The groups of a slice that have beats still to issue, the oldest first (R32, R36). -/
def beatingInOrder (s : State) (core i : Nat) : List (Nat × Group) :=
  sortBy (fun a b => lexLe (issueKey s a.2) (issueKey s b.2)) (beating s core i)

/-- A result of a beat put off by `n` cycles. -/
def putOff (now n : Nat) (e : Pend) : Pend :=
  if e.beat < now then e
  else { e with beat := e.beat + n, due := match e.place with | .l 1 => e.due | _ => e.due.map (· + n) }

/-- A group whose remaining beats issue `n` cycles later than planned, its sources as they were read (log 17). -/
def delayGroup (now n : Nat) (g : Group) : Group :=
  let p := g.pend.map (putOff now n)
  { g with pend := p, freeAt := g.freeAt + n, fixedBack := backOf (p.filter fun e => !e.var) g.fixedBack,
           lateBack := backOf (p.filter (·.var)) g.lateBack }

/-- The lanes whose beats have not issued by a cycle, from the results that the instruction has written so far: beats issue in order. -/
def lateLanes (lanes now : Nat) (mine : List Pend) : Word :=
  let next := (mine.filter fun e => decide (e.beat < now) && e.place != .l 1).foldl (fun a e => max a (e.lane / lanes + 1)) 0
  maskOf (below 32 fun i => decide (next ≤ i / lanes))

/-- A word without its marker bit: its marker has been waited for. -/
def withoutMarker (ws : List DWord) : List DWord :=
  match ws with
  | w :: r => (w &&& ~~~(BitVec.ofNat 64 (2 ^ 61))) :: r
  | [] => []

/-- The beats that a group has still to issue are issued from a cycle on: their lanes read guards and sources in the cycle of their own
beat (R33, R119). None of an instruction whose lanes do not read apart (log 17). -/
def issueLate (s : State) (gid : Nat) (g : Group) (from_ : Nat) : Option Group :=
  if g.beatLanes = 0 then none
  else
    let k := g.pend.length - g.beatPend
    let mine := g.pend.take k
    let base := g.pend.drop k
    let late := lateLanes g.beatLanes s.cycle mine
    let g0 := { g with pend := base, mask := g.mask &&& late, pc := g.pc - BitVec.ofNat 64 (8 * g.beatWords.length) }
    match Sys2Proof.decodeWords (withoutMarker g.beatWords), mine with
    | .ok i, _ :: _ =>
      match exec i { setGroup s gid g0 with cycle := from_, cur := some gid } with
      | .next t =>
        (getGroup t gid).map fun r =>
          let new := r.pend.take (r.pend.length - (retireDue g0 from_).pend.length)
          let pend := new ++ (mine.filter fun e => !late.getLsbD e.lane) ++ base
          let last := new.foldl (fun a e => if e.place == .l 1 then a else max a (e.beat + 1)) from_
          { g with pend := pend, freeAt := last, fixedBack := backOf (pend.filter fun e => !e.var) g.fixedBack }
      | _ => none
    | _, _ => none

/-- The beats of younger groups issue one group after the other, the oldest first, once the slice is free: `old` is the cycle at which
they were to issue, `new` that at which they do (R36). -/
def replan : List (Nat × Group) → Nat → Nat → State → State × Nat
  | [], _, new, s => (s, new)
  | (gid, g) :: r, old, new, s =>
    let g' := (issueLate s gid g new).getD (delayGroup s.cycle (new - old) g)
    replan r g.freeAt (max new g'.freeAt) (setGroup s gid g')

/-- The state after an issued instruction: its slice taken, its return noted on its group, the beats of younger groups put off by
its own (R36, R119, R120). `s0` is the state it issued in, `owed` the beats that the slice owed younger groups. -/
def closeIssue (s0 : State) (gid : Nat) (g0 : Group) (ws : List DWord) (owed : Nat) (s : State) : State :=
  let s := useSlice s gid g0
  let stop := sliceBusy s g0
  let s := noteFreed s gid g0
  let s := match getGroup s gid with
    | some g => setGroup s gid (noteIssue s.cycle (stop - 1) ws (missedL1 s0 s g0.core (Sys2Proof.opcodeOf (ws.headD 0))) g0 g)
    | none => s
  if owed = 0 then s
  else
    let (s, t) := replan ((beatingInOrder s0 g0.core (g0.slice.getD 0)).filter fun e => e.1 != gid) s.cycle stop s
    slicePut s g0 t

/-- The outcome of an issued instruction, with what it leaves to be noted (R276). -/
def afterIssue (s0 : State) (gid : Nat) (g0 : Group) (ws : List DWord) (owed : Nat) (o : Out) : Out :=
  match o with
  | .next s => .next (noteGroup s0 g0.core gid (closeIssue s0 gid g0 ws owed s))
  | .fault f => .fault f
  | .refused r => .refused r

end Sys2Proof.Machine
end

