-- ==== Sys2Proof/Machine/Events.lean ====
section
/-! DEFINITION. Which step of the device's own comes next (log 9): what has arrived, the waits that are over, the queues,
the scheduler. Each is chosen only when it can be performed, so that a cycle passes when none is left. -/

namespace Sys2Proof.Machine

/-- The step that the agenda names. -/
def todoStep : Todo → Instr
  | .launchQueueTailWrite q => .launchQueueTailWrite q
  | .engineEntryPark core q => .engineEntryPark core q
  | .mailboxWake tid m => .mailboxWake tid m

/-! ### What has arrived (R518–R520) -/

/-- A step of the device's own. -/
def isDeviceStep (i : Instr) : Bool :=
  match i with
  | .unassignedOpcode _ => false
  | i => i.parts.isNone

/-- Whether the device in its present state takes what has arrived: off and in reset it takes the board's signals; halted,
the signals and a request for the dump; else everything (R520). -/
def takes (s : State) (a : Arrival) : Bool :=
  match a with
  | .resetRelease _ _ _ _ _ _ | .resetAssert | .powerLoss | .thermtrip | .i3c _ _ => true
  | .request _ _ _ .readDump => s.device != .off && s.device != .reset
  | .message _ b => if asksDump b then s.device != .off && s.device != .reset else s.device == .ready || s.device == .run
  | .event i => isDeviceStep i && (s.device == .ready || s.device == .run)
  | _ => s.device == .ready || s.device == .run

/-- A request waits while a seed is made: requests are performed one at a time (R518). -/
def mustWait (s : State) (a : Arrival) : Bool :=
  match a with
  | .request _ _ _ _ | .message _ _ => s.seed.isSome
  | _ => false

/-- What the device does not take is gone, and the first arrival that need not wait comes to the front. -/
def settleArrivals (s : State) : State :=
  let l := s.arrivals.filter (takes s)
  { s with arrivals :=
      match l.find? fun a => !mustWait s a with
      | some a => a :: l.erase a
      | none => l }

/-- The step that serves a request. -/
def requestStep : Request → Instr
  | .readUnitMap => .readUnitMap
  | .writePartition _ _ => .writePartitionRecord
  | .bindVf _ _ _ _ _ => .bindVf
  | .writeQueue _ _ => .writeLaunchQueueRecord
  | .writeReg _ _ _ => .writeRegistrationEntry
  | .writeBinding _ _ _ => .writeBinding
  | .loadKey _ _ _ _ => .loadKey
  | .seedMake _ _ _ _ => .seedMake
  | .seedRestore _ _ _ _ => .seedRestore
  | .counterStatement _ _ _ _ => .counterStatement
  | .readDump => .readDump
  | .setPowerCap _ => .setPowerCap
  | .resetUnit _ => .resetAndReadmitUnit
  | .reserveTimed _ _ _ _ => .reserveTimedCapacity
  | .unknown _ => .mgmtUnknownCode

/-- The step that serves an arrival. -/
def arrivalStep : Arrival → Instr
  | .frame _ _ _ => .frameReceive
  | .port _ => .frameReceive
  | .rdmaWrite _ _ _ _ _ _ => .rdmaWriteInbound
  | .rdmaRead _ _ _ _ _ _ => .rdmaReadInbound
  | .rdmaAtomic _ _ _ _ _ _ _ _ => .rdmaAtomicInbound
  | .rdmaSend _ _ _ _ => .rdmaSendInbound
  | .rdmaSignal _ _ _ _ _ _ => .rdmaSignalInbound
  | .rdmaUnsupported _ _ _ => .rdmaUnsupportedInbound
  | .target _ _ _ _ _ _ => .targetBufAccess
  | .nvmeLost _ _ => .nvmeConnectionLost
  | .request _ _ _ r => requestStep r
  | .message _ b => requestStep (requestOf b).2.2
  | .resetRelease _ _ _ _ _ _ => .resetRelease
  | .resetAssert | .i3c _ _ => .resetAssert
  | .powerLoss => .powerLoss
  | .thermal => .thermalWarning
  | .thermtrip => .thermtrip
  | .event i => i

/-- The arrival to serve now. -/
def nextArrival (s : State) : Option Instr :=
  match s.arrivals.head? with
  | some a => if mustWait s a then none else some (arrivalStep a)
  | none => none

/-- The state in which an arrival's step runs: a step of the device's own has arrived with its arguments. -/
def openArrival (s : State) : State :=
  match s.arrivals.head? with
  | some (.event _) => popArrival s
  | _ => s

/-! ### Waits that are over -/

/-- The step that ends a group's wait, when it can end. -/
def waitStep (s : State) (gid : Nat) (g : Group) : Option Instr :=
  match g.wait with
  | .watch _ _ => if g.poked then some (.mwaitRetest gid) else none
  | .overflow till _ => if till ≤ s.cycle then some (.mwaitOverflowExpiry gid) else none
  | .deadline t _ _ _ => if t ≤ timeOf s then some (.waittDeadlineReached gid) else none
  | .batch b => if outstanding (getCore s g.core) gid b then none else some (.mwaitbWake gid)
  | .bbarFull _ => if mayTakeEntry s g then some (.bbarEntryFree gid) else none
  | .capture => if pinned s g.core < 512 then some (.captureEntryFree gid) else none
  | .regroup _ _ => if g.waitSince + regroupWindow ≤ s.cycle ∧ !ringOwes s gid g then some (.regroupTimeout gid) else none
  | .paired host donor _ _ => if pairReady s host donor then some (.regroupMigrate host donor) else none
  | .spawn entry =>
    if (placeSpawns g.core g.team g.role entry g.waitSeq g.spawnLeft s).2.length < g.spawnLeft.length ∨ g.spawnLeft.isEmpty then
      some (.spawnResume gid)
    else none
  | _ => none

/-- The first wait that can end. -/
def firstWait (s : State) : Option Instr := s.groups.findSome? fun e => waitStep s e.1 e.2

/-- The first bin that launches: its timer has expired, or what it waited for has come (R46, R47). -/
def firstBin (s : State) : Option Instr :=
  s.cores.findSome? fun c => c.2.bins.findSome? fun b =>
    if b.2.expired s.cycle then some (.binTimerExpiry c.1 b.1)
    else if b.2.deferred && mayLaunch s c.1 b.2 then some (.binLaunchDeferred c.1 b.1)
    else none

/-! ### The queues -/

/-- The step of a core's matrix queue. -/
def matrixStep (s : State) (core : Nat) (c : Core) : Option Instr :=
  if c.mat.any fun e => match e.finish with | some t => decide (t ≤ s.cycle) | none => false then
    some (.matrixEntryRetire core)
  else
    match nextEntry c with
    | some (before, e, _) =>
      if matMayStart s core before e && (entryGroup s core e.gid).isSome then
        some (match e.op with
          | .tld _ _ _ _ => .tldPerform core
          | .tst _ _ _ _ => .tstPerform core
          | .tasm _ _ _ _ => .tasmPerform core
          | .mma _ _ _ _ _ _ => .mmaExecute core
          | .acvt _ _ _ _ => .acvtPerform core)
      else none
    | none => none

/-- The step of a queue whose front entry is performed whole. -/
def engineStep (s : State) (core : Nat) (c : Core) (q : Queue) : Option Instr :=
  match frontEntry (entriesOf c q) with
  | some e =>
    if e.runnable && entryMayStart s core q e then
      match e.opc with
      | 0xC0 => some (.cpyPerform core)
      | 0xC1 => some (.cpytPerform core)
      | 0xC2 => some (.cpycPerform core)
      | 0xC3 => some (.csumPerform core)
      | 0xC4 => some (.decqPerform core)
      | 0xC7 => some (.topkPerform core)
      | 0xC8 => some (.rmvPerform core)
      | _ => none
    else none
  | none => none

/-- The step of a storage queue, with the entry it acts on: a command to submit, a peer's operation, a retry. -/
def storageStep (s : State) (core : Nat) (c : Core) : Option (Entry × Instr) :=
  let netq : Option (Entry × Instr) := match frontEntry c.sto with
    | some e =>
      if e.opc == 0xC6 && entryMayStart s core .sto e && (e.st == .waiting || (e.st == .started && !e.buf.isEmpty)) then
        some (e, .netqPerform core)
      else none
    | none => none
  let stq : Option (Entry × Instr) := match nextStq c.sto with
    | some e => if entryMayStart s core .sto e && !(stqOk e.block && stqHeld s core e) then some (e, .stqSubmit core) else none
    | none => none
  let late : Option (Entry × Instr) := (c.sto.find? fun e =>
      e.opc == 0xC6 && e.st == .started && decide (e.since + ackTimeout ≤ s.cycle)).map fun e => (e, .rdmaAckTimeout e.id)
  netq <|> stq <|> late

/-- The step of a ring queue. -/
def ringStep (s : State) (core : Nat) (c : Core) : Option Instr :=
  match c.ring with
  | [] => none
  | e :: _ =>
    if !fencesAllow c .ring e.id then none
    else
      match entryRing s e with
      | none => some (.ringEntryPerform core)
      | some r =>
        if e.asked.isSome && (earlierAsk s e r || ringAct r e == .wait) then none else some (.ringEntryPerform core)

/-- The deadline of a grid's work as a number: work without one comes last. -/
def deadlineOf (s : State) (gid : Option Nat) : Nat :=
  match (gid.bind (tget s.grids)).bind (·.deadline) with
  | some t => t
  | none => 2 ^ 64

/-- The deadline of a team's work. -/
def teamDeadline (s : State) (tid : Nat) : Nat := deadlineOf s ((getTeam s tid).map (·.grid))

/-- The deadline of the first entry of a queue that has not been performed. -/
def frontDeadline (s : State) (l : List Entry) : Nat := deadlineOf s ((frontEntry l).map (·.grid))

/-- The deadline of the entry that a matrix queue's step acts on. -/
def matrixDeadline (s : State) (c : Core) : Nat :=
  match c.mat.find? (fun e => e.finish.any fun t => decide (t ≤ s.cycle)) <|> (nextEntry c).map (·.2.1) with
  | some e => teamDeadline s e.team
  | none => 2 ^ 64

/-- The steps that the queues of a core can make, each with the deadline of its entry. -/
def queueSteps (s : State) (core : Nat) (c : Core) : List (Nat × Instr) :=
  let engine (q : Queue) := (engineStep s core c q).map fun i => (frontDeadline s (entriesOf c q), i)
  [(matrixStep s core c).map fun i => (matrixDeadline s c, i),
    engine .cpy, engine .dec, engine .root,
    (storageStep s core c).map fun x => (deadlineOf s (some x.1.grid), x.2),
    (ringStep s core c).map fun i => (match c.ring with | e :: _ => teamDeadline s e.team | [] => 2 ^ 64, i)].filterMap id

/-- The first of some steps by deadline. -/
def firstDue : List (Nat × Instr) → Option (Nat × Instr)
  | [] => none
  | x :: r =>
    match firstDue r with
    | none => some x
    | some y => if x.1 ≤ y.1 then some x else some y

/-- The first step of the cores' queues: timed work in the order of deadlines, before other work (R422). -/
def firstQueue (s : State) : Option Instr :=
  (firstDue ((s.cores.filter fun c => !c.2.dead).flatMap fun c => queueSteps s c.1 c.2)).map (·.2)

/-! ### Faults, launch queues, ends -/

/-- A record that can be written, or an ACTION that has been given (R469, R470). -/
def firstFault (s : State) : Option Instr :=
  let write := s.parts.findSome? fun p =>
    if (nextRecord s p.1).isSome && faultRoom s p.1 p.2 then some (Instr.faultRecordWrite p.1) else none
  let act := s.faults.findSome? fun f =>
    match f.at_ with
    | some pa =>
      let v := (devRead64 s f.part (pa + 0x38)).2
      if f.awaits != .none && (v == 1 || v == 2) && (awaiting s f.part f.num).isSome then some (Instr.faultAction f.part f.num)
      else none
    | none => none
  write <|> act

/-- A launch queue with a block to read, or a block that has become eligible (R408, R410). -/
def firstLaunch (s : State) : Option Instr :=
  let tail := s.queues.findSome? fun q =>
    match queueCtx s q.2, tget s.tails q.1 with
    | some (part, _), some t =>
      if q.2.enabled && t.due && !isFrozen s part then some (Instr.launchQueueTailWrite q.1) else none
    | _, _ => none
  let ready := s.grids.findSome? fun g =>
    if g.2.st == .read && !heldBack s g.1 g.2 && (waitsMet s g.2 || (waitRec s g.2).isSome) then some (Instr.blockEligible g.1) else none
  let aged := s.grids.findSome? fun g =>
    if g.2.st == .eligible && g.2.deadline.isNone && decide (g.2.placed < g.2.teams)
        && decide (g.2.agedAt + agingCycles ≤ s.cycle) && decide (g.2.level < 7) then some (Instr.priorityAging g.1) else none
  tail <|> ready <|> aged

/-- A team or grid that has ended, a budget overrun, a save that is ready (R60, R61, R424, R478). -/
def firstEnd (s : State) : Option Instr :=
  let team := s.teams.findSome? fun t =>
    if teamDone s t.1 t.2 then some (Instr.teamEnd t.1)
    else if saveReady s t.1 t.2 then some (.teamSave t.1)
    else
      match tget s.grids t.2.grid with
      | some g =>
        if g.deadline.isSome && decide (t.2.placedAt + field g.block 0x70 4 ≤ s.cycle) then some (.budgetOverrun t.1) else none
      | none => none
  let grid := s.grids.findSome? fun g => if gridDone s g.1 g.2 then some (Instr.gridEnd g.1) else none
  team <|> grid

/-! ### Stopping (R423, R475–R477, R494) -/

/-- Whether a running team is to stop: its partition is frozen and its timed launches have ended, or a booking needs its
core. -/
def mustStop (s : State) (t : Team) : Bool :=
  t.st == .running && mayStop s t &&
    match tget s.grids t.grid with
    | some g =>
      (isFrozen s g.part && s.grids.all fun e => e.2.part != g.part || e.2.deadline.isNone || !launchOpen s e.2.lead)
        || (g.deadline.isNone && booked s g.part && (timedCores s g.part).contains t.core)
    | none => false

/-- A stop that is due. -/
def firstStop (s : State) : Option Instr :=
  let soft := s.teams.findSome? fun t =>
    if mustStop s t.2 || !(stopsNow s t.1).isEmpty then some (Instr.preemptRequest t.1) else none
  let hard := s.groups.findSome? fun g => if hardStops s g.2 then some (Instr.hardPreempt g.1) else none
  soft <|> hard

/-! ### The scheduler's choices (R62, R63, R66, R413, R414) -/

/-- A team that waits for a core: its grid, the team when it is a saved one, and whether it is the lowest-numbered
unfinished team of the grid. -/
structure Waiting where
  gid : Nat
  g : Grid
  tid : Option Nat
  low : Bool

/-- Whether a team is the lowest-numbered unfinished team of its grid (R63). -/
def isLowest (s : State) (t : Team) : Bool :=
  match lowestTeam (gridTeams s t.grid) with
  | some (_, f) => f.index == t.index
  | none => false

/-- The team of a grid that waits, if one does: a saved team before an unplaced one. -/
def waitingOf (s : State) (gid : Nat) (g : Grid) : Option Waiting :=
  if isFrozen s g.part then none
  else
    match lowestTeam ((gridTeams s gid).filter fun t => t.2.st == .saved) with
    | some (tid, t) => some ⟨gid, g, some tid, isLowest s t⟩
    | none =>
      if wantsPlace s gid g && (g.stage.isNone || g.lead == gid) then some ⟨gid, g, none, (gridTeams s gid).isEmpty⟩
      else none

/-- Whether a stop has been made for a waiting team of a partition. -/
def stopMade (s : State) (part : Nat) : Bool :=
  s.teams.any fun t => t.2.st == .saved && !isLowest s t.2 &&
    match tget s.grids t.2.grid with | some g => g.part == part | none => false

/-- The order of service (R413): timed work in the order of its bookings, which gives each launch its cores before a later booking
takes them (R423, R424); then by level, a guaranteed team for which others stopped, then the queue served least recently. -/
def waitingKey (s : State) (w : Waiting) : List Nat :=
  match w.g.deadline with
  | some _ => [0, w.g.booking.getD 0, w.gid]
  | none => [1, 7 - w.g.level, if stopMade s w.g.part && !w.low then 1 else 0, (tget s.turns w.g.queue).getD 0, w.gid]

/-- Whether an earlier booking of the partition still has teams to place: until then its cores are its own (R423, R424). -/
def earlierBooking (s : State) (w : Waiting) : Bool :=
  match w.g.booking with
  | some b => s.grids.any fun e =>
      e.2.part == w.g.part && e.2.st == .eligible && decide (e.2.placed < e.2.teams) &&
        match e.2.booking with | some a => decide (a < b) | none => false
  | none => false

/-- Whether a power cap below the design power, or a thermal warning, is in effect (R20, R521). -/
def capActive (s : State) : Bool := decide (s.powerCap < 2800) || s.hot

/-- Whether a core is offered to a waiting team: a cap reduces the capacity offered to best-effort work and to nothing else, never that
which R63 guarantees (R20). Free value (log 70): which cores are offered. -/
def offered (s : State) (w : Waiting) (k : Nat) : Bool :=
  !capActive s || w.g.deadline.isSome || w.low || Config.capOffers s.powerCap k

/-- The cores of its partition that a waiting team is offered. -/
def offeredCores (s : State) (w : Waiting) : List Nat := (partCores s w.g.part).filter (offered s w)

/-- The waiting teams in order of service. -/
def waitingTeams (s : State) : List Waiting :=
  sortBy (fun a b => lexLe (waitingKey s a) (waitingKey s b)) (s.grids.filterMap fun e => waitingOf s e.1 e.2)

/-- The step that places a waiting team, when a core takes it. A pipeline launch is placed whole, on cores that all are offered. -/
def placeStep (s : State) (w : Waiting) : Option Instr :=
  if earlierBooking s w then none
  else
    match w.tid with
    | some tid =>
      match getTeam s tid with
      | some t => ((offeredCores s w).find? fun k => resumeFits s t w.g k).map fun k => .teamResume tid k
      | none => none
    | none =>
      if w.g.stage.isSome then
        match pipelinePlan s w.g.lead with
        | some l => if l.flatten.all (offered s w) then some (.teamPlace w.gid 0) else none
        | none => none
      else if (freeSlot s w.g.part).isNone then none
      else ((offeredCores s w).find? fun k => teamFits s w.g k).map fun k => .teamPlace w.gid k

/-- Whether a waiting team is promised progress at the cost of others (R63). -/
def promised (w : Waiting) : Bool := w.low && w.g.deadline.isNone

/-- Places the first team of the order that a core takes; behind a promised team that no core takes, only promised teams of
its partition are placed. -/
def firstPlace (s : State) : List Waiting → List Nat → Option Instr
  | [], _ => none
  | w :: r, shut =>
    if shut.contains w.g.part && !w.low then firstPlace s r shut
    else
      match placeStep s w with
      | some i => some i
      | none => firstPlace s r (if promised w then w.g.part :: shut else shut)

/-- Whether a core may serve a grid. -/
def servesGrid (s : State) (w : Waiting) (k : Nat) : Bool :=
  coreAllowed s (if w.g.stage.isSome then { w.g with cores := [k] } else w.g) k

/-- The victims of R63 for a waiting team, the preferred one first: own grid's first, then by level, the grid that became
eligible last, the highest number. DESIGN CHOICE (log 72): of two grids of one level that became eligible in the same cycle, the one
with the higher number. -/
def victims (s : State) (w : Waiting) : List (Nat × Team) :=
  let able := s.teams.filter fun t =>
    t.2.st == .running && mayStop s t.2 && !isLowest s t.2 && (partCores s w.g.part).contains t.2.core
      && servesGrid s w t.2.core
      && match tget s.grids t.2.grid with
        | some g => decide (g.level ≤ w.g.level) && g.part == w.g.part
        | none => false
  let key (t : Team) : List Nat :=
    match tget s.grids t.grid with
    | some g => [if t.grid = w.gid then 0 else 1, g.level, s.cycle - g.eligibleAt, s.nextId - t.grid, 2 ^ 32 - t.index]
    | none => []
  sortBy (fun a b => lexLe (key a.2) (key b.2)) able

/-- A pipeline launch drains cores for the first stage that lacks them (R419). -/
def Waiting.target (s : State) (w : Waiting) : Waiting :=
  if w.g.stage.isSome && w.tid.isNone then
    match lackingStage s (stagesOf s w.g.lead) [] with
    | some (n, g, _) => { w with gid := n, g := g }
    | none => w
  else w

/-- Whether a core drains for a waiting team's split. -/
def drainsFor (s : State) (w : Waiting) (k : Nat) : Bool := (getCore s k).drain == some w.g.kernel.split

/-- Whether the victims of a waiting team are all that a core holds: with them stopped, it is idle. -/
def clearable (s : State) (vs : List (Nat × Team)) (k : Nat) : Bool :=
  s.teams.all fun t => t.2.core != k || t.2.st == .saved || vs.any fun v => v.1 == t.1

/-- What is done for a promised team that no core takes and for which no core is idle (R63, R66). A victim stops on a core that runs
the split, or on one that drains for it and holds victims alone; such a core is made to drain where none does. Where none holds
victims alone, one core drains none the less, and the victims on it stop while its other residents end in their time. -/
def stopVictim (s : State) (w : Waiting) (cores : List Nat) : Option Instr :=
  let vs := victims s w
  let runs (k : Nat) : Bool := coreOpen s k w.g.kernel.split
  let onDraining := vs.find? fun v => drainsFor s w v.2.core && clearable s vs v.2.core
  let first := vs.find? fun v => runs v.2.core || (drainOk s v.2.core w.gid w.g && clearable s vs v.2.core)
  let drained := cores.any (drainsFor s w)
  let begun := (vs.map (·.2.core) ++ cores).find? fun k => cores.contains k && servesGrid s w k && drainOk s k w.gid w.g
  match onDraining, first with
  | some v, _ => some (.preemptRequest v.1)
  | none, some v => some (if runs v.2.core then .preemptRequest v.1 else .splitDrain v.2.core w.gid)
  | none, none =>
    if drained then (vs.find? fun v => drainsFor s w v.2.core).map fun v => .preemptRequest v.1
    else begun.map fun k => .splitDrain k w.gid

/-- A drain that no waiting team has a use for is abandoned when the core then takes a promised one (R66). -/
def abandoned (s : State) (w : Waiting) (cores : List Nat) : Option Nat :=
  cores.find? fun k => servesGrid s w k && abandonOk s k w.gid w.g
    && !(waitingTeams s).any fun v => v.g.part == w.g.part && some (v.target s).g.kernel.split == (getCore s k).drain

/-- What is done for a team that no core takes: an idle core drains for its split (R66), every idle core of a booking does (R423); for a
promised team room is made at the cost of others (R63). While an idle core is formed for the split, nothing more is done. -/
def makeRoom (s : State) (w0 : Waiting) : Option Instr :=
  let w := w0.target s
  let cores := offeredCores s w
  let idle := cores.find? fun k => coreIdle s k && servesGrid s w k && drainOk s k w.gid w.g
  let forming := cores.any fun k => servesGrid s w k &&
    ((drainsFor s w k && coreIdle s k)
      || ((getCore s k).split == w.g.kernel.split && (getCore s k).drain.isNone && !coreSettled s k))
  let busy := s.teams.any fun t => (match t.2.st with | .stopping _ => true | _ => false) && cores.contains t.2.core
  let stuck := w.tid.isNone && w.g.stage.isNone && (freeSlot s w.g.part).isNone
  if earlierBooking s w then none
  else if w.g.booking.isSome then idle.map fun k => .splitDrain k w.gid
  else if forming || busy || stuck then none
  else if promised w then
    match abandoned s w cores, idle with
    | some k, _ => some (.splitDrain k w.gid)
    | none, some k => some (.splitDrain k w.gid)
    | none, none => stopVictim s w cores
  else if cores.any (drainsFor s w) then none
  else idle.map fun k => .splitDrain k w.gid

/-- The launch whose booking a partition's timed cores are now for: the first booked one with teams to place, or the last booked. -/
def bookingNow (s : State) (part : Nat) : Option (Nat × Grid) :=
  let l := sortBy (fun a b => lexLe [a.2.booking.getD 0, a.1] [b.2.booking.getD 0, b.1])
    (s.grids.filter fun e => e.2.part == part && e.2.st == .eligible && e.2.booking.isSome && e.2.stage.isNone)
  match l.find? fun e => decide (e.2.placed < e.2.teams) with
  | some e => some e
  | none => l.getLast?

/-- An idle core of a booking that has not the booked kernel's split, though no team of it waits (R66, R423). -/
def bookedDrain (s : State) : Option Instr :=
  s.timed.findSome? fun t =>
    if booked s t.1 then
      (bookingNow s t.1).bind fun e =>
        ((timedCores s t.1).find? fun k => coreIdle s k && drainOk s k e.1 e.2).map fun k => Instr.splitDrain k e.1
    else none

/-- The scheduler's next step. -/
def firstSchedule (s : State) : Option Instr :=
  let reconf := s.cores.findSome? fun c =>
    if c.2.drain.isSome && coreEmpty s c.1 then some (Instr.splitReconfigure c.1) else none
  let ws := waitingTeams s
  reconf <|> firstPlace s ws [] <|> ws.findSome? (makeRoom s) <|> bookedDrain s

/-! ### Active sets (R36–R39) -/

/-- A change of an active set. A slot that a YIELD or a WAITT has freed is filled first (R150); of others, one of the slice with the
fewest groups (R39). -/
def firstSlot (s : State) : Option Instr :=
  let cores := distinct (s.groups.map fun e => e.2.core)
  let fill := cores.findSome? fun k =>
    if (pendingReady s k).isSome then
      let least := (List.range 4).foldl (fun m i => if sliceSize s k i < sliceSize s k m then i else m) 0
      let i := match s.freed.find? fun x => x.1 == k && decide (sliceSize s k x.2 < 8) with | some x => x.2 | none => least
      if sliceSize s k i < 8 then some (Instr.emptySlotFill k i) else none
    else none
  let swap := s.groups.findSome? fun e =>
    if e.2.slice.isSome && stalled s e.1 e.2 && (pendingReady s e.2.core).isSome then some (Instr.stallExchange e.1) else none
  let old := s.groups.findSome? fun e =>
    if pendingOld s e.1 e.2 && s.groups.any fun a => a.2.core == e.2.core && a.2.slice.isSome then
      some (Instr.pendingAgeExpiry e.1)
    else none
  fill <|> swap <|> old

/-! ### The next step -/

/-- A seed image that can be written (R494). -/
def firstSeed (s : State) : Option Instr :=
  match s.seed with
  | some j => if (tget s.parts j.part).isNone || seedReady s j then some .seedImageWrite else none
  | none => none

/-- The step of the device's own that is performed next, if one can be. -/
def nextEvent (s : State) : Option Instr :=
  nextArrival s <|> firstWait s <|> firstBin s <|> firstStop s <|> firstQueue s <|> firstFault s <|> firstEnd s
    <|> firstLaunch s <|> firstSchedule s <|> firstSlot s <|> firstSeed s

end Sys2Proof.Machine
end

