-- ==== Sys2Proof/Machine/Step.lean ====
section
/-! DEFINITION. One step of the device: what is delivered next, else the instruction of the group whose turn it is, else
a step of the device's own, else a cycle passes. -/

namespace Sys2Proof.Machine

/-- The instruction at a group's program counter, fetched, decoded and run (R113, R114); a word that is no instruction raises
ILLEGAL_ENCODING, and no safe point lies after it (R121). -/
def stepGroup (s : State) (gid : Nat) (g : Group) : Host.Outcome State Fault Refusal :=
  match fetchInstr s g with
  | (s1, .error (va, e)) => .next (fetchFault s1 gid g va e)
  | (s1, .ok ws) =>
    let owed := beatsOwed s1 g
    let s2 := if owed = 0 then s1 else slicePut s1 g s1.cycle
    match Sys2Proof.decodeWords ws with
    | .ok i => afterIssue s1 gid g ws owed (exec i { s2 with cur := some gid })
    | .error _ =>
      afterIssue s1 gid g [] owed (.next (raiseIllegal (occupy s2 g 1) gid (openIllegal s2 g) (8 * ws.length)))

/-- One step. -/
def step (s : State) : Host.Outcome State Fault Refusal :=
  match s.mem.lost with
  | l :: r => .next (endLost { s with mem := { s.mem with lost := r } } l)
  | [] =>
    match s.agenda with
    | i :: r => exec (todoStep i) { s with agenda := r }
    | [] =>
      match readyGroup s with
      | some (gid, g) => stepGroup s gid g
      | none =>
        match nextEvent (settleArrivals s) with
        | some i => exec i (openArrival (settleArrivals s))
        | none => .next (tick (settleArrivals s))

/-- The state with an instruction laid out where the next step fetches it, and all that this takes (log 10). -/
def State.withFetchWord (s : State) (nbits w : Nat) : State := layProgram s (Sys2Proof.tableWords nbits w)

end Sys2Proof.Machine
end

