-- ==== Sys2Proof/Safety.lean ====
section
/-! DEFINITION. What counts as a safe run, and the terms that claims about instructions are stated in: an instruction
that may issue, what a result leaves in a lane, and what an instruction of one shape does. -/

namespace Sys2Proof.Machine

/-- `k` steps from `s` all answer a next state. -/
def SafeFor (k : Nat) (s : State) : Prop := ∃ t, Sys2Proof.core.run k s = .next t

/-- No step of any run from `s` stops. -/
def Safe (s : State) : Prop := ∀ k, SafeFor k s

/-! ### Memory -/

/-- DRAM is in its canonical form: addresses strictly rising, and no byte listed that equals what an unlisted one reads
as (log 1). -/
def Memory.wf (m : Mem) : Bool := cwf m.dram

/-! ### An instruction that may issue -/

/-- Group `gid` is the one whose instruction runs, and the instruction's mask word names only what its role holds
(R123). -/
structure Issuing (s : State) (gid : Nat) (g : Group) (h : Hdr) : Prop where
  cur : s.cur = some gid
  group : getGroup s gid = some g
  mask : ∀ m, h.sp = some m → maskInRole (roleOf s g) m = true

/-! ### What a data-side result names -/

/-- The places of one lane that a destination names, the latches aside (R73, R174). -/
def dstPlaces (wide : Bool) : Dst → List Place
  | .v i => .v i.toNat :: if wide then [.v (i.toNat + 1)] else []
  | .o i => .o i.toNat :: if wide then [.o (i.toNat + 1)] else []
  | .l => []
  | .hi i => .v i.toNat :: .o (i.toNat % 16) :: if wide then [.v (i.toNat + 1), .o (i.toNat % 16 + 1)] else []

/-- The 32 bits of a result that a place receives (R174): the odd half of a pair is the upper one. -/
def halfFor (d : Dst) (p : Place) (val : Nat) : Nat :=
  match d, p with
  | .v i, .v j => if j = i.toNat then val % 2 ^ 32 else val / 2 ^ 32 % 2 ^ 32
  | .o i, .o j => if j = i.toNat then val % 2 ^ 32 else val / 2 ^ 32 % 2 ^ 32
  | .hi i, .v j => if j = i.toNat then val % 2 ^ 32 else val / 2 ^ 32 % 2 ^ 32
  | .hi i, .o j => if j = i.toNat % 16 then val % 2 ^ 32 else val / 2 ^ 32 % 2 ^ 32
  | _, _ => 0

/-- A lane of a group holds a result: the places of its destination, l0 and l1 (R73–R75, R118). -/
structure LaneHolds (g g' : Group) (c : Cls) (ver : Ver) (t : Nat) (d : Dst) (wide : Bool) (lane val : Nat) : Prop where
  dst : ∀ p ∈ dstPlaces wide d, newestAt g' p lane = (halfFor d p val, c.due ver t, c.owes)
  l0 : newestAt g' (.l 0) lane = (if wide then val % 2 ^ 64 else val % 2 ^ 32, c.due ver t, c.owes)
  l1 : newestAt g' (.l 1) lane = newestAt g (.l 0) lane

/-- A group with other outstanding results. -/
def withPend (g : Group) (p : List Pend) : Group := { g with pend := p }

/-- Nothing of a group but its outstanding results differs. -/
def OnlyPend (g g' : Group) : Prop := g' = withPend g g'.pend

/-- Places that keep the result last written to them, due or not. -/
def KeptBut (g g' : Group) (lanes : List Nat) (l : List Place) : Prop :=
  ∀ p lane, (lane ∈ lanes → p ∉ l) → newestAt g' p lane = newestAt g p lane

/-! ### Instructions of one shape -/

/-- An instruction of opcodes 0x00–0x6F that writes a value (R33, R34, R118, R174): it completes; each lane that takes part
holds `val` of the state, the group, the lanes, its number and the cycle of its beat, with UNI = 1 the uniform register when the guard
holds; nothing else of the group but its program counter differs, and of the device only the slice that was busy. -/
def DataRuns (i : Instr) (h : Hdr) (ext : Bool) (w : Width) (latency : Nat) (srcs : List (Src × Bool)) (d : Dst) (dw : Bool)
    (val : State → Group → List Nat → Nat → Nat → Nat) : Prop :=
  ∀ s gid g0, Issuing s gid g0 h → operandsOk (roleOf s g0) h srcs d dw = true →
    let g := openIssue s g0 h
    let part := takingPart g h w s.cycle
    (h.uni = false → ∃ g',
      exec i s = .next (setGroup (occupy s g (beatCount w part)) gid (advance g' (instrLen h ext))) ∧
      OnlyPend g g' ∧
      (∀ lane ∈ part, LaneHolds g g' (.fixed latency) h.ver (s.cycle + beatOffset w part lane) d dw lane
        (val s g part lane (s.cycle + beatOffset w part lane))) ∧
      KeptBut g g' part (Place.l 0 :: .l 1 :: dstPlaces dw d)) ∧
    (h.uni = true → ∃ g',
      exec i s = .next (setGroup (occupy s g 1) gid (advance g' (instrLen h ext))) ∧
      OnlyPend g g' ∧
      (uniGuard g h s.cycle = true →
        newestAt g' (.s (dstSreg d)) 0 = (val s g [] 0 s.cycle % 2 ^ 64, (Cls.fixed latency).due h.ver s.cycle, none)) ∧
      (uniGuard g h s.cycle = false → g' = g) ∧
      KeptBut g g' [0] [.s (dstSreg d)])

/-- The predicate a selector names: a uniform one, or a lane's; none for p7, which discards writes (R70, R145). -/
def selPlace (d : PSel) (lane : Nat) : Option (Place × Nat) :=
  if d.k then some (.g d.idx.toNat, 0) else if d.idx = 7 then none else some (.p d.idx.toNat, lane)

/-- An instruction of opcodes 0x00–0x6F that writes a lane predicate or, with UNI = 1, a uniform one (R33, R34, R118, R145):
it completes; the destination of each lane that takes part holds `val`, and nothing else of the group but its program counter
differs. -/
def PredRuns (i : Instr) (h : Hdr) (w : Width) (latency : Nat) (srcs : List (Src × Bool)) (d : PSel)
    (val : State → Group → List Nat → Nat → Nat → Bool) : Prop :=
  ∀ s gid g0, Issuing s gid g0 h → (srcs.all fun x => srcInRole (roleOf s g0) x.2 x.1) = true →
    let g := openIssue s g0 h
    let part := takingPart g h w s.cycle
    (h.uni = false → ∃ g',
      exec i s = .next (setGroup (occupy s g (beatCount w part)) gid (advance g' (instrLen h false))) ∧
      OnlyPend g g' ∧
      (d.k = false → ∀ lane ∈ part, ∀ p, selPlace d lane = some p →
        newestAt g' p.1 p.2 = ((if val s g part lane (s.cycle + beatOffset w part lane) then 1 else 0),
          (Cls.fixed latency).due h.ver (s.cycle + beatOffset w part lane), none)) ∧
      (∀ p k, (∀ lane ∈ part, selPlace d lane ≠ some (p, k)) → newestAt g' p k = newestAt g p k)) ∧
    (h.uni = true → ∃ g',
      exec i s = .next (setGroup (occupy s g 1) gid (advance g' (instrLen h false))) ∧
      OnlyPend g g' ∧
      (uniGuard g h s.cycle = true → ∀ p, selPlace d 0 = some p →
        newestAt g' p.1 p.2 = ((if val s g [] 0 s.cycle then 1 else 0), (Cls.fixed latency).due h.ver s.cycle, none)) ∧
      (uniGuard g h s.cycle = false → g' = g) ∧
      (∀ p k, selPlace d 0 ≠ some (p, k) → newestAt g' p k = newestAt g p k))

end Sys2Proof.Machine
end

