-- ==== Sys2Proof/Certificates/Slice0/Obligations.lean ====
section
/-! DEFINITION. The statements for the provers. Each says in its docstring which rules of spec/ it formalises. -/

open Sys2Proof Sys2Proof.Machine

namespace Sys2Proof.Machine

/-! ### Shapes -/

/-- Two integer sources of the instruction's type. -/
def IntPair (mk : Op2 → Instr) (latency : Nat) (sat : Bool) (f : Ty → BitVec 2 → Int → Int → Int) : Prop :=
  ∀ x : Op2, DataRuns (mk x) x.h false (widthOf x.ty.wide) latency [(x.a, x.ty.wide), (x.b, x.ty.wide)] x.d x.ty.wide
    fun _ g _ i t => satResult x.ty (sat && x.sub == 1) (f x.ty x.sub (readInt g x.h i t x.ty x.a) (readInt g x.h i t x.ty x.b))

/-- One integer source. -/
def IntOne (mk : Op1 → Instr) (f : Int → Int) : Prop :=
  ∀ x : Op1, DataRuns (mk x) x.h false (widthOf x.ty.wide) 4 [(x.a, x.ty.wide)] x.d x.ty.wide
    fun _ g _ i t => satResult x.ty (x.sub == 1) (f (readInt g x.h i t x.ty x.a))

/-- Three integer sources. -/
def IntThree (mk : Op3 → Instr) (latency : Nat) (f : Int → Int → Int → Int) : Prop :=
  ∀ x : Op3, DataRuns (mk x) x.h false (widthOf x.ty.wide) latency
    [(x.a, x.ty.wide), (x.b, x.ty.wide), (x.c, x.ty.wide)] x.d x.ty.wide
    fun _ g _ i t => satResult x.ty (x.sub == 1)
      (f (readInt g x.h i t x.ty x.a) (readInt g x.h i t x.ty x.b) (readInt g x.h i t x.ty x.c))

/-- Two bit patterns of the instruction's width. -/
def BitPair (mk : Op2 → Instr) (f : Nat → Nat → Nat → Nat) : Prop :=
  ∀ x : Op2, DataRuns (mk x) x.h false (widthOf x.ty.wide) 4 [(x.a, x.ty.wide), (x.b, x.ty.wide)] x.d x.ty.wide
    fun _ g _ i t => f x.ty.bits (readSrc g x.h i t x.ty.bits x.a) (readSrc g x.h i t x.ty.bits x.b) % 2 ^ x.ty.bits

/-- A value of the instruction's type and a 32-bit count or control word. -/
def Counted (mk : Op2 → Instr) (latency : Nat) (f : Ty → Int → Nat → Int) : Prop :=
  ∀ x : Op2, DataRuns (mk x) x.h false (widthOf x.ty.wide) latency [(x.a, x.ty.wide), (x.b, false)] x.d x.ty.wide
    fun _ g _ i t => extResult x.ty (f x.ty (readInt g x.h i t x.ty x.a) (readSrc g x.h i t 32 x.b))

/-- A count of a source's bits. -/
def BitsCounted (mk : Op1 → Instr) (f : Nat → Nat → Nat) : Prop :=
  ∀ x : Op1, DataRuns (mk x) x.h false (widthOf x.ty.wide) 6 [(x.a, x.ty.wide)] x.d false
    fun _ g _ i t => f x.ty.bits (readSrc g x.h i t x.ty.bits x.a)

/-- A bit pattern of the instruction's width. -/
def BitsOne (mk : Op1 → Instr) (latency : Nat) (f : Nat → Nat → Nat) : Prop :=
  ∀ x : Op1, DataRuns (mk x) x.h false (widthOf x.ty.wide) latency [(x.a, x.ty.wide)] x.d x.ty.wide
    fun _ g _ i t => f x.ty.bits (readSrc g x.h i t x.ty.bits x.a)

/-- Two floating sources under a MOD field: the exact result, rounded once. -/
def FloatPair (mk : FOp2 → Instr) (latency : Nat) (op : RM → FVal → FVal → FVal) : Prop :=
  ∀ x : FOp2, DataRuns (mk x) x.h false .w32 latency [(x.a, false), (x.b, false)] x.d false
    fun _ g _ i t =>
      let c := modeOf g.fmt x.m
      froundF x.ty c.m c.s c.f (op c.m (readVal g x.h i t x.ty c.f x.a) (readVal g x.h i t x.ty c.f x.b))

/-- A special function. -/
def SpecialOne (mk : FOp1 → Instr) (fn : SpecFn) : Prop :=
  ∀ x : FOp1, DataRuns (mk x) x.h false .w32 16 [(x.a, false)] x.d false
    fun _ g _ i t =>
      let c := modeOf g.fmt x.m
      specResult fn x.ty c.m c.s c.f (readCode g x.h i t x.ty x.a)

/-- An FP32 code of an infinity. -/
def isInfCode (y : Nat) : Prop := y % 2 ^ 31 = 0x7F800000

/-- A source for which R199's table gives the result: NaN, an infinity or a zero. -/
def tableInput : FVal → Prop
  | .fin _ m _ => m = 0
  | _ => True

/-- y is one of the two FP32 values that bracket an exact value that is not negative, or is not positive (R198). -/
def Brackets (x : FVal) (neg : Bool) (y : Nat) : Prop :=
  y = fround .f32 .rz false x ∨ y = fround .f32 (if neg then .rdn else .rup) false x

/-- What R198's bounds and R199's table let y be for a source widened to FP32. Values of real functions are in fixed point with 128
bits of fraction, near zero and near their limits a value just inside; y is in the bound about that value, or is that value rounded to
nearest (log 6). -/
def SpecAllowed (fn : SpecFn) (a : FVal) (y : Nat) : Prop :=
  match fn, a with
  | _, .nan => y = nanCode .f32
  | .rcp, .inf neg => y = signBit .f32 neg
  | .rcp, .fin neg m e =>
    let q := fdivide (.fin false 1 0) (.fin neg m e)
    (m = 0 → y = signBit .f32 neg + 0x7F800000) ∧
    (m ≠ 0 → m = 2 ^ m.log2 → y = fround .f32 .rne false q) ∧
    (m ≠ 0 → m ≠ 2 ^ m.log2 → y = fround .f32 .rz false q ∨
      y = (match q with | .fin n _ _ => fround .f32 (if n then .rdn else .rup) false q | _ => fround .f32 .rz false q) ∨
      (leadOf m e < -128 ∧ y = signBit .f32 neg + 0x7F800000))
  | .rsq, .inf neg => y = if neg then nanCode .f32 else 0
  | .rsq, .fin neg m e =>
    let w := m * 2 ^ (if e % 2 = 0 then 0 else 1)
    let odd : Nat := if e % 2 = 0 then 0 else 1
    (m = 0 → y = signBit .f32 neg + 0x7F800000) ∧
    (m ≠ 0 → neg = true → y = nanCode .f32) ∧
    (m ≠ 0 → neg = false → ∃ r, r = isqrt (2 ^ 200 / w) ∧
      Brackets (.fin false (2 * r + (if r * r * w = 2 ^ 200 then 0 else 1)) (-100 - (e - odd) / 2 - 1)) false y)
  | .ex2, .inf neg => y = if neg then 0 else 0x7F800000
  | .ex2, .fin neg m e =>
    let big := leadOf m e ≥ 8 ∨ (neg = false ∧ magCmp m e 128 0 ≠ .lt)
    let tiny := neg = true ∧ magCmp m e 150 0 = .gt
    let whole := (e ≥ 0 ∨ m % 2 ^ (-e).toNat = 0) ∧ -149 ≤ toIntegral .rz neg m e
    let x := floorFx neg m e
    let w : Int := (2 ^ fxBits : Nat)
    let v : FVal := .fin false (2 * exp2Frac (x % w).toNat + 1) (x / w - fxBits - 1)
    (m = 0 → y = 0x3F800000) ∧
    (m ≠ 0 → big → y = if neg then 0 else 0x7F800000) ∧
    (m ≠ 0 → ¬ big → tiny → y = 0) ∧
    (m ≠ 0 → ¬ big → ¬ tiny → whole → y = fround .f32 .rne false (.fin false 1 (toIntegral .rz neg m e))) ∧
    (m ≠ 0 → ¬ big → ¬ tiny → ¬ whole → within2ulp v y = true ∨ y = fround .f32 .rne false v)
  | .lg2, .inf neg => y = if neg then nanCode .f32 else 0x7F800000
  | .lg2, .fin neg m e =>
    let l := leadOf m e
    let v : Int := l * (2 ^ fxBits : Nat) + (log2Frac 90 (m * 2 ^ (fxBits - m.log2)) 0 * 2 ^ (fxBits - 90) : Nat)
    let x : FVal := .fin (decide (v < 0)) v.natAbs (-fxBits)
    let mid := magCmp m e 1 (-1) ≠ .lt ∧ magCmp m e 2 0 ≠ .gt
    (m = 0 → y = 0xFF800000) ∧
    (m ≠ 0 → neg = true → y = nanCode .f32) ∧
    (m ≠ 0 → neg = false → m = 2 ^ m.log2 → y = fround .f32 .rne false (fint l)) ∧
    (m ≠ 0 → neg = false → m ≠ 2 ^ m.log2 → mid → withinAbs x (-22) y = true ∨ y = fround .f32 .rne false x) ∧
    (m ≠ 0 → neg = false → m ≠ 2 ^ m.log2 → ¬ mid → within2ulp x y = true ∨ y = fround .f32 .rne false x)
  | .sin, .inf _ => y = nanCode .f32
  | .cos, .inf _ => y = nanCode .f32
  | .sin, .fin neg m e =>
    let v := if leadOf m e < -28 then justInside neg m e else fxVal (trigFx false (toFx neg m e))
    (m = 0 → y = signBit .f32 neg) ∧
    (m ≠ 0 → magCmp m e (2 ^ 20) 0 = .gt → y % 2 ^ 31 ≤ 0x3F800000) ∧
    (m ≠ 0 → magCmp m e (2 ^ 20) 0 ≠ .gt →
      withinAbs v (-21) y = true ∨ y = fround .f32 .rne false v)
  | .cos, .fin neg m e =>
    let v := if leadOf m e < -28 then justInside false 1 0 else fxVal (trigFx true (toFx neg m e))
    (m = 0 → y = 0x3F800000) ∧
    (m ≠ 0 → magCmp m e (2 ^ 20) 0 = .gt → y % 2 ^ 31 ≤ 0x3F800000) ∧
    (m ≠ 0 → magCmp m e (2 ^ 20) 0 ≠ .gt →
      withinAbs v (-21) y = true ∨ y = fround .f32 .rne false v)
  | .tanh, .inf neg => y = signBit .f32 neg + 0x3F800000
  | .tanh, .fin neg m e =>
    let v := if leadOf m e < -28 then justInside neg m e else if leadOf m e ≥ 5 then justInside neg 1 0
      else fxVal (tanhFx (toFx neg m e))
    (m = 0 → y = signBit .f32 neg) ∧
    (m ≠ 0 → (withinAbs v (-21) y = true ∧ y % 2 ^ 31 ≤ 0x3F800000) ∨ y = fround .f32 .rne false v)

/-- A code of the instruction's type, taken bit by bit. -/
def CodeOne (mk : Op1 → Instr) (f : Ty → Nat → Nat) : Prop :=
  ∀ x : Op1, DataRuns (mk x) x.h false .w32 6 [(x.a, false)] x.d false
    fun _ g _ i t => f x.ty (readCode g x.h i t x.ty x.a)

/-- The lesser or greater of two codes, flushed under the format register. -/
def Extreme (mk : Op2 → Instr) (pickB : Ordering → Bool) : Prop :=
  ∀ x : Op2, DataRuns (mk x) x.h false .w32 6 [(x.a, false), (x.b, false)] x.d false
    fun _ g _ i t =>
      let f := fmtFtz g.fmt
      extremum x.ty (flushCode x.ty f (readCode g x.h i t x.ty x.a)) (flushCode x.ty f (readCode g x.h i t x.ty x.b)) pickB

/-- A conversion under a MOD field. -/
def Converted (mk : CvtOp → Instr) (w : CvtOp → Width) (wideSrc wideDst : CvtOp → Bool)
    (val : CvtOp → Mode → Group → Nat → Nat → Nat) : Prop :=
  ∀ x : CvtOp, DataRuns (mk x) x.h false (w x) 6 [(x.a, wideSrc x)] x.d (wideDst x)
    fun _ g _ i t => val x (modeOf g.fmt x.m) g i t

end Sys2Proof.Machine

/-- For each of the eight instructions, every operand form and both sides: the instruction completes, each lane that takes part (or the uniform register) holds the exact sum, difference, product, upper product, quotient, remainder, least or greatest value brought to the type (clamped under .sat), due as VER says; every other register place, the mask, the flags, the special registers and all memory are unchanged and only the program counter moves past the instruction. (R33, R34, R118, R173, R174, R175, R176) -/
def Obligations.IntegerPairsAddSubtractMultiplyDivide : Prop :=
  IntPair .iadd 4 true (fun _ _ a b => a + b) ∧
  IntPair .isub 4 true (fun _ _ a b => a - b) ∧
  IntPair .imul 6 true (fun _ _ a b => a * b) ∧
  IntPair .imulh 6 false (fun t _ a b => Int.fdiv (a * b) ((2 ^ t.bits : Nat) : Int)) ∧
  IntPair .idiv 24 false (fun t sub a b =>
    if b = 0 then (if t.isI then -1 else ((2 ^ t.bits : Nat) : Int) - 1)
    else if sub == 1 then Int.fdiv a b else Int.tdiv a b) ∧
  IntPair .irem 24 false (fun t sub a b =>
    if b = 0 then a
    else a - (if b = 0 then (if t.isI then -1 else ((2 ^ t.bits : Nat) : Int) - 1)
      else if sub == 1 then Int.fdiv a b else Int.tdiv a b) * b) ∧
  IntPair .imin 4 false (fun _ _ a b => min a b) ∧
  IntPair .imax 4 false (fun _ _ a b => max a b)

/-- For each of the four instructions: it completes, each lane that takes part (or the uniform register) holds the exact result brought to the type (clamped under .sat), and nothing but the destination, the latches and the program counter differs. (R33, R34, R118, R173, R174, R175) -/
def Obligations.IntegerOnesAndThrees : Prop :=
  IntOne .ineg (fun a => -a) ∧
  IntOne .iabs (fun a => a.natAbs) ∧
  IntThree .iadd3 4 (fun a b c => a + b + c) ∧
  IntThree .imad 6 (fun a b c => a * b + c)

/-- For each of the nine instructions: it completes and each lane that takes part (or the uniform register) holds the bit pattern; a shift by the width or more gives zero (SHL, SHR) or copies of the sign (SAR), and ROL takes its count modulo the width. (R33, R34, R118, R173, R174, R178) -/
def Obligations.BitwiseAndShifts : Prop :=
  BitPair .and (fun _ a b => a &&& b) ∧
  BitPair .or (fun _ a b => a ||| b) ∧
  BitPair .xor (fun _ a b => a ^^^ b) ∧
  BitPair .andn (fun w a b => a &&& (2 ^ w - 1 - b)) ∧
  BitsOne .not 4 (fun w a => 2 ^ w - 1 - a) ∧
  Counted .shl 4 (fun t a n => if n ≥ t.bits then 0 else a * ((2 ^ n : Nat) : Int)) ∧
  Counted .shr 4 (fun t a n => if n ≥ t.bits then 0 else Int.fdiv a ((2 ^ n : Nat) : Int)) ∧
  Counted .sar 4 (fun t a n => Int.fdiv a ((2 ^ min n t.bits : Nat) : Int)) ∧
  Counted .rol 4 (fun t a n => rolNat t.bits a.toNat n)

/-- For each of the seven instructions: it completes; counts are written as 32-bit values; BFX and BFI take position and length from the control word, a length above the width counting as the width and a BFX of length zero giving zero; PERM gathers bytes by nibble. (R33, R34, R118, R174, R178, R179, R180) -/
def Obligations.BitCountsAndFields : Prop :=
  BitsCounted .popc popNat ∧
  BitsCounted .clz clzNat ∧
  BitsCounted .ctz ctzNat ∧
  BitsOne .brev 6 brevNat ∧
  Counted .bfx 6 (fun t a c =>
    let len := min (c / 256 % 256) t.bits
    if len = 0 then 0
    else
      let x := ((a / ((2 ^ (c % 256) : Nat) : Int)) % ((2 ^ len : Nat) : Int)).toNat
      if t.isI then sextInt len x else x) ∧
  (∀ x : Op3, DataRuns (.bfi x) x.h false (widthOf x.ty.wide) 6 [(x.a, x.ty.wide), (x.b, x.ty.wide), (x.c, false)] x.d x.ty.wide
    fun _ g _ i t =>
      let w := x.ty.bits
      let c := readSrc g x.h i t 32 x.c
      let m := ((2 ^ min (c / 256 % 256) w - 1) * 2 ^ (c % 256)) % 2 ^ w
      (readSrc g x.h i t w x.a &&& (2 ^ w - 1 - m)) ||| ((readSrc g x.h i t w x.b * 2 ^ (c % 256)) % 2 ^ w &&& m)) ∧
  (∀ x : Op3, DataRuns (.perm x) x.h false .w32 6 [(x.a, false), (x.b, false), (x.c, false)] x.d false
    fun _ g _ i t => permNat (readSrc g x.h i t 32 x.a) (readSrc g x.h i t 32 x.b) (readSrc g x.h i t 32 x.c))

/-- For each of the six instructions: it completes; LEA adds the scaled index to a 64-bit base modulo 2^64, MOV copies the bits, MOVI extends its 24-bit immediate, LDI takes its extension word and is 16 bytes long (24 with a mask word), CVTI brings the value to the destination type, ISEL picks by its selector. (R33, R34, R109, R118, R174, R177, R181, R182, R183) -/
def Obligations.MovesConstantsAndAddresses : Prop :=
  (∀ x : Op3, DataRuns (.lea x) x.h false .w64 4 [(x.a, true), (x.b, x.ty.wide), (x.c, false)] x.d true
    fun _ g _ i t => truncInt 64 ((readSrc g x.h i t 64 x.a : Int)
      + readInt g x.h i t x.ty x.b * ((2 ^ (readSrc g x.h i t 32 x.c % 64) : Nat) : Int))) ∧
  BitsOne .mov 4 (fun _ a => a) ∧
  (∀ h d sub imm, DataRuns (.movi h d sub imm) h false (widthOf (sub.toNat ≥ 2)) 4 [] d (sub.toNat ≥ 2)
    fun _ _ _ _ _ => if sub.toNat % 2 = 0 then truncInt 64 (sextInt 24 imm.toNat) else imm.toNat) ∧
  (∀ h d sub imm, DataRuns (.ldi h d sub imm) h true (widthOf (sub == 1)) 4 [] d (sub == 1) fun _ _ _ _ _ => imm.toNat) ∧
  (∀ h d a dty sty sub, DataRuns (.cvti h d a dty sty sub) h false (widthOf (dty.wide || sty.wide)) 6 [(a, sty.wide)] d dty.wide
    fun _ g _ i t => satResult dty (sub == 1) (readInt g h i t sty a)) ∧
  (∀ h d a b sel ty, DataRuns (.isel h d a b sel ty) h false (widthOf ty.wide) 4 [(a, ty.wide), (b, ty.wide)] d ty.wide
    fun _ g _ i t => if readSel g h i t sel then readSrc g h i t ty.bits a else readSrc g h i t ty.bits b)

/-- For each of the five instructions: it completes; the destination predicate of each lane that takes part (or the uniform predicate) holds the comparison combined as SUB says, the logic of two predicates, the vote over the lanes that take part, or whether the lane is the lowest of them; a write to p7 is discarded; no other register differs. (R33, R34, R70, R118, R145, R163, R164, R166, R177, R195) -/
def Obligations.ComparisonsAndPredicates : Prop :=
  (∀ x : CmpOp, PredRuns (.icmp x) x.h (widthOf x.ty.wide) 4 [(x.a, x.ty.wide), (x.b, x.ty.wide)] x.d
    fun _ g _ i t => combine x.sub.toNat (readSel g x.h i t x.d)
      (icmpHolds x.cond.toNat (readInt g x.h i t x.ty x.a) (readInt g x.h i t x.ty x.b))) ∧
  (∀ x : CmpOp, PredRuns (.fcmp x) x.h .w32 6 [(x.a, false), (x.b, false)] x.d
    fun _ g _ i t => combine x.sub.toNat (readSel g x.h i t x.d)
      (fcmpHolds x.cond.toNat (readVal g x.h i t x.ty (fmtFtz g.fmt) x.a) (readVal g x.h i t x.ty (fmtFtz g.fmt) x.b))) ∧
  (∀ h op d a b, PredRuns (.plop h op d a b) h .w32 4 [] d
    fun _ g _ i t => plopBit op (readSel g h i t a) (readSel g h i t b)) ∧
  (∀ h op d a, PredRuns (.vote h op d a) h .w32 8 [] d
    fun s g part _ _ => voteBit op (part.map fun i => selInLane g false i (s.cycle + beatOffset .w32 part i) a)) ∧
  (∀ h d, PredRuns (.elect h d) h .w32 8 [] d fun _ _ part i _ => part.head? == some i)

/-- For each of the five instructions: it completes; VOTE .mask writes the mask of the lanes in which the selector holds (below the lane, under .below), SHFL the source of the lane it names when that lane takes part and else its own, MATCH the mask of the lanes with the same bits, GETFMT the format register, SREG the special register as it reads in the lane. (R33, R34, R118, R163, R164, R165, R170, R171) -/
def Obligations.LanesExchange : Prop :=
  (∀ h below d a, DataRuns (.voteMask h below d a) h false .w32 8 [] d false
    fun s g part i _ =>
      if h.uni then (maskOf ((enabledLanes g).filter fun j => selInLane g true j s.cycle a)).toNat
      else
        let m := (maskOf (part.filter fun j => selInLane g false j (s.cycle + beatOffset .w32 part j) a)).toNat
        if below then m % 2 ^ i else m) ∧
  (∀ h op wrap ty d a b, DataRuns (.shfl h op wrap ty d a b) h false (widthOf ty.wide) 8 [(a, ty.wide), (b, false)] d ty.wide
    fun s g part i t =>
      let src := fun k => readSrc g h k (s.cycle + beatOffset (widthOf ty.wide) part k) ty.bits a
      let j := shflLane op wrap i (readSrc g h i t 32 b)
      if 0 ≤ j ∧ j ≤ 31 ∧ part.contains j.toNat then src j.toNat else src i) ∧
  (∀ h ty d a, DataRuns (.matchL h ty d a) h false (widthOf ty.wide) 8 [(a, ty.wide)] d false
    fun s g part i _ =>
      let src := fun k => readSrc g h k (s.cycle + beatOffset (widthOf ty.wide) part k) ty.bits a
      (maskOf (part.filter fun j => src j == src i)).toNat) ∧
  (∀ h d, DataRuns (.getfmt h d) h false .w32 4 [] d false fun _ g _ _ _ => g.fmt.toNat) ∧
  (∀ h d num, DataRuns (.sreg h d num) h false (widthOf ((sregWide num.toNat).getD false)) 4 [] d
    ((sregWide num.toNat).getD false)
    fun s g _ i _ => sregRead s g num.toNat (if h.uni then lowestEnabled g else some i))

/-- For each of the eight instructions: it completes and each lane that takes part (or the uniform register) holds the exact result of the values read, rounded once under the rounding mode, saturation and flush of its MOD field or the format register. (R33, R34, R118, R188, R189, R190, R192, R204, R205) -/
def Obligations.FloatArithmetic : Prop :=
  FloatPair .fadd 6 fadd ∧
  FloatPair .fsub 6 (fun m a b => fadd m a (fneg b)) ∧
  FloatPair .fmul 6 (fun _ a b => fmul a b) ∧
  FloatPair .fdiv 24 (fun _ a b => fdivide a b) ∧
  (∀ x : Op3, DataRuns (.fma x) x.h false .w32 6 [(x.a, false), (x.b, false), (x.c, false)] x.d false
    fun _ g _ i t =>
      let c := modeSub g.fmt x.sub
      froundF x.ty c.m c.s c.f (ffma c.m (readVal g x.h i t x.ty c.f x.a) (readVal g x.h i t x.ty c.f x.b)
        (readVal g x.h i t x.ty c.f x.c))) ∧
  (∀ x : FOp1, DataRuns (.fsqrt x) x.h false .w32 16 [(x.a, false)] x.d false
    fun _ g _ i t =>
      let c := modeOf g.fmt x.m
      froundF x.ty c.m c.s c.f (fsqrtV (readVal g x.h i t x.ty c.f x.a))) ∧
  (∀ x : FOp2, DataRuns (.fscl x) x.h false .w32 6 [(x.a, false), (x.b, false)] x.d false
    fun _ g _ i t =>
      let c := modeOf g.fmt x.m
      froundF x.ty c.m c.s c.f
        (scaleVal (readVal g x.h i t x.ty c.f x.a) (clampScale (sextInt 32 (readSrc g x.h i t 32 x.b))))) ∧
  (∀ x : FOp1, DataRuns (.frnd x) x.h false .w32 6 [(x.a, false)] x.d false
    fun _ g _ i t =>
      let c := modeOf g.fmt x.m
      froundF x.ty .rne false c.f (integralVal c.m (readVal g x.h i t x.ty c.f x.a)))

/-- For each of the five instructions: it completes; FNEG flips and FABS clears the sign bit alone, FMIN and FMAX pick one of the two flushed codes with the zero and NaN rules, FCLS writes the one bit of the code's class. (R33, R34, R118, R193, R194, R203) -/
def Obligations.FloatSignsExtremesAndClasses : Prop :=
  CodeOne .fneg (fun t v => v ^^^ 2 ^ (t.bits - 1)) ∧
  CodeOne .fabs (fun t v => v % 2 ^ (t.bits - 1)) ∧
  Extreme .fmin (fun o => o == .gt) ∧
  Extreme .fmax (fun o => o == .lt) ∧
  CodeOne .fcls (fun t v => 2 ^ classBit t v)

/-- For each of the seven instructions: it completes and each lane that takes part (or the uniform register) holds the special function's result for the code read and the effective mode. That result comes from an FP32 value y that the bounds of R198 and the table of R199 allow for the source widened to FP32: for .f32 it is y; an infinity from a finite non-zero source becomes the largest number when s = 1; for .f16 and .bf16 y is rounded to the type, a table infinity staying infinite. For .f32 the rounding mode has no effect. Which allowed y it is, is a free value (log 6). (R33, R34, R118, R197, R198, R199, R200) -/
def Obligations.FloatSpecialFunctions : Prop :=
  SpecialOne .frcp .rcp ∧ SpecialOne .frsq .rsq ∧ SpecialOne .fex2 .ex2 ∧ SpecialOne .flg2 .lg2 ∧
  SpecialOne .fsin .sin ∧ SpecialOne .fcos .cos ∧ SpecialOne .ftanh .tanh ∧
  (∀ fn t m s f src, ∃ y, SpecAllowed fn (fread t f src) y ∧
    (¬ isInfCode y → t = .f32 → specResult fn t m s f src = y) ∧
    (¬ isInfCode y → t ≠ .f32 → specResult fn t m s f src = froundF t m s f (fdecode .f32 y)) ∧
    (isInfCode y → tableInput (fread t f src) → specResult fn t m s f src = fround t .rne false (fdecode .f32 y)) ∧
    (isInfCode y → ¬ tableInput (fread t f src) → t = .f32 →
      specResult fn t m s f src = if s then y - 1 else y) ∧
    (isInfCode y → ¬ tableInput (fread t f src) → t ≠ .f32 →
      specResult fn t m s f src = froundF t m s f (fdecode .f32 (if s then y - 1 else y)))) ∧
  (∀ fn m m' s f src, specResult fn .f32 m s f src = specResult fn .f32 m' s f src)

/-- For each of the seven instructions: it completes; FCVT rounds to the destination format, FCVTI clamps to the integer type, ICVTF rounds the integer, the packed instructions work on each half alone, DOT4 sums four products and the addend exactly before one rounding or clamp. Where the spec leaves a choice the model's stands: FCVTI with UNI sign-extends a signed result to 64 bits (log 77), and FCVT of an infinity to its own format with s set gives the largest magnitude (log 86). (R33, R34, R118, R207, R209, R210, R213, R214) -/
def Obligations.ConversionsPackedAndDot : Prop :=
  Converted .fcvt (fun _ => .w32) (fun _ => false) (fun _ => false)
    (fun x c g i t => froundF x.dty c.m c.s c.f (readVal g x.h i t x.sty c.f x.a)) ∧
  Converted .fcvti (fun x => widthOf x.dty.wide) (fun _ => false) (fun x => x.dty.wide)
    (fun x c g i t => extResult x.dty (toInt x.dty c.m (readVal g x.h i t x.sty c.f x.a))) ∧
  Converted .icvtf (fun x => widthOf x.sty.wide) (fun x => x.sty.wide) (fun _ => false)
    (fun x c g i t => froundF x.dty c.m c.s c.f (fint (readInt g x.h i t x.sty x.a))) ∧
  (∀ x : FOp2, DataRuns (.hadd2 x) x.h false .packed 6 [(x.a, false), (x.b, false)] x.d false
    fun _ g _ i t =>
      let c := modeOf g.fmt x.m
      let f := fun k => froundF x.ty c.m c.s c.f (fadd c.m (fread x.ty c.f (readHalf g x.h i t x.ty x.a k))
        (fread x.ty c.f (readHalf g x.h i t x.ty x.b k)))
      f 0 + 2 ^ 16 * f 1) ∧
  (∀ x : FOp2, DataRuns (.hmul2 x) x.h false .packed 6 [(x.a, false), (x.b, false)] x.d false
    fun _ g _ i t =>
      let c := modeOf g.fmt x.m
      let f := fun k => froundF x.ty c.m c.s c.f (fmul (fread x.ty c.f (readHalf g x.h i t x.ty x.a k))
        (fread x.ty c.f (readHalf g x.h i t x.ty x.b k)))
      f 0 + 2 ^ 16 * f 1) ∧
  (∀ x : Op3, DataRuns (.hfma2 x) x.h false .packed 6 [(x.a, false), (x.b, false), (x.c, false)] x.d false
    fun _ g _ i t =>
      let c := modeSub g.fmt x.sub
      let v := fun k y => fread x.ty c.f (readHalf g x.h i t x.ty y k)
      let f := fun k => froundF x.ty c.m c.s c.f (ffma c.m (v k x.a) (v k x.b) (v k x.c))
      f 0 + 2 ^ 16 * f 1) ∧
  (∀ x : Op3, DataRuns (.dot4 x) x.h false .w32 8 [(x.a, false), (x.b, false), (x.c, false)] x.d false
    fun _ g _ i t =>
      let c := modeSub g.fmt x.sub
      let a := (List.range 4).map (readElem g x.h i t x.ty x.a)
      let b := (List.range 4).map (readElem g x.h i t x.ty x.b)
      if x.ty.isInt then dotInt x.ty c.s (sextInt 32 (readSrc g x.h i t 32 x.c)) a b
      else dotFloat x.ty c.m c.s (readVal g x.h i t .f32 c.f x.c) a b)

namespace Sys2Proof.Machine

/-! ### Next states -/

/-- The slice of the opened group was busy for some beats and the group stands as given: nothing else differs. -/
def Ends (s : State) (gid : Nat) (o : Group) (beats : Nat) (g : Group) : Out := .next (setGroup (occupy s o beats) gid g)

/-- Clauses about an instruction that may issue: the opened group and the state that holds it. -/
def WhenIssued (h : Hdr) (p : State → Nat → Group → Group → Prop) : Prop :=
  ∀ s gid g, Issuing s gid g h → p s gid g (openIssue s g h)

end Sys2Proof.Machine

/-- Each of these holds its slice for its beats. NOP moves past itself. BRA goes to its target when every enabled lane (.all) or some enabled lane (.any) takes part, BRU when its uniform guard holds, CALL always; else the group moves past the instruction. BRX, CALLX and RET, their source allocated, go to the address their source or link register holds when its low three bits are zero, and raise ILLEGAL_ENCODING otherwise. CALL and CALLX write the address after the call to the link register. Nothing else of the group and nothing of memory differs. (R32, R126, R148, R149, R150) -/
def Obligations.BranchesAndCalls : Prop :=
  (∀ h, WhenIssued h fun s gid _ o => exec (.nop h) s = Ends s gid o (beatsOf o h .w32 s.cycle) (advance o (instrLen h false))) ∧
  (∀ h any off, WhenIssued h fun s gid _ o =>
    let part := takingPart o h .w32 s.cycle
    ((if any then part ≠ [] else part = enabledLanes o) →
      exec (.bra h any off) s = Ends s gid o (beatCount .w32 part) { o with pc := o.pc + off.signExtend 64 * 8 }) ∧
    (¬(if any then part ≠ [] else part = enabledLanes o) →
      exec (.bra h any off) s = Ends s gid o (beatCount .w32 part) (advance o (instrLen h false)))) ∧
  (∀ h off, WhenIssued h fun s gid _ o =>
    exec (.bru h off) s = Ends s gid o 1
      (if uniGuard o h s.cycle then { o with pc := o.pc + off.signExtend 64 * 8 } else advance o (instrLen h false))) ∧
  (∀ h link off, WhenIssued h fun s gid _ o => ∃ g', OnlyPend o g' ∧
    exec (.call h link off) s = Ends s gid o (beatsOf o h .w64 s.cycle) { g' with pc := o.pc + off.signExtend 64 * 8 } ∧
    newestAt g' (.s link.toNat) 0 =
      ((o.pc + BitVec.ofNat 64 (instrLen h false)).toNat, (Cls.fixed 4).due h.ver s.cycle, none) ∧
    KeptBut o g' [0] [.s link.toNat]) ∧
  (∀ h a, WhenIssued h fun s gid g o => srcInRole (roleOf s g) true a = true →
    let t := readTarget o h s.cycle a
    (t.extractLsb' 0 3 = 0 → exec (.brx h a) s = Ends s gid o (beatsOf o h .w64 s.cycle) { o with pc := t }) ∧
    (t.extractLsb' 0 3 ≠ 0 → exec (.brx h a) s = .next (raiseIllegal (setGroup s gid o) gid o (instrLen h false)))) ∧
  (∀ h link a, WhenIssued h fun s gid g o => srcInRole (roleOf s g) true a = true →
    let t := readTarget o h s.cycle a
    (t.extractLsb' 0 3 = 0 → ∃ g', OnlyPend o g' ∧
      exec (.callx h link a) s = Ends s gid o (beatsOf o h .w64 s.cycle) { g' with pc := t } ∧
      newestAt g' (.s link.toNat) 0 =
        ((o.pc + BitVec.ofNat 64 (instrLen h false)).toNat, (Cls.fixed 4).due h.ver s.cycle, none) ∧
      KeptBut o g' [0] [.s link.toNat]) ∧
    (t.extractLsb' 0 3 ≠ 0 →
      exec (.callx h link a) s = .next (raiseIllegal (setGroup s gid o) gid o (instrLen h false)))) ∧
  (∀ h link, WhenIssued h fun s gid _ o =>
    let t : DWord := BitVec.ofNat 64 (readPlace o (.s link.toNat) 0 false s.cycle)
    (t.extractLsb' 0 3 = 0 → exec (.ret h link) s = Ends s gid o (beatsOf o h .w64 s.cycle) { o with pc := t }) ∧
    (t.extractLsb' 0 3 ≠ 0 → exec (.ret h link) s = .next (raiseIllegal (setGroup s gid o) gid o (instrLen h false))))

/-- DVG with room on the stack reads its predicate in each lane that takes part in the cycle of the lane's beat; it either goes to its reconvergence point, when no such lane holds the predicate, or pushes that point with mask and fmt and enables the lanes that hold it; at depth 32 it raises STACK_OVERFLOW. CVG pops entries until a live lane is enabled. EXIT takes its lanes out of the live mask, the current mask and every entry; a group without a live lane is gone, one whose mask is empty pops, any other goes on. YIELD leaves the group ready in the pending set past the instruction. SETFMT with an immediate or a source: when no lane takes part (with UNI = 1, when the guard fails) only the program counter moves; a legal value becomes fmt and nothing else but the program counter differs; a value with a reserved code raises ILLEGAL_ENCODING. (R56, R57, R58, R59, R60, R79, R81, R150, R153, R154, R155, R169) -/
def Obligations.DivergenceAndExit : Prop :=
  (∀ h p neg off, WhenIssued h fun s gid _ o =>
    let part := takingPart o h .w32 s.cycle
    let sel := part.filter fun i => (readPlace o (.p p.toNat) i false (s.cycle + beatOffset .w32 part i) == 1) != neg
    let n := beatsOf o h .w32 s.cycle
    let point : DWord := o.pc + off.signExtend 64 * 8
    (o.stack.length < 32 → sel = [] → exec (.dvg h p neg off) s = Ends s gid o n { o with pc := point }) ∧
    (o.stack.length < 32 → sel ≠ [] → exec (.dvg h p neg off) s = Ends s gid o n
      (advance { o with stack := ⟨point, o.mask, o.fmt⟩ :: o.stack, mask := maskOf sel } (instrLen h false))) ∧
    (32 ≤ o.stack.length → exec (.dvg h p neg off) s =
      .next (raise (setGroup s gid o) gid o (instrLen h false) ⟨12, 0, 0, o.mask, []⟩))) ∧
  (∀ h, WhenIssued h fun s gid _ o =>
    (o.stack ≠ [] → exec (.cvg h) s = Ends s gid o (beatsOf o h .w32 s.cycle) (clearActive (popFrames o o.stack))) ∧
    (o.stack = [] → exec (.cvg h) s =
      .next (raise (setGroup s gid o) gid o (instrLen h false) ⟨12, 0, 0, o.mask, []⟩))) ∧
  (∀ h, WhenIssued h fun s gid _ o =>
    let out := maskOf (takingPart o h .w32 s.cycle)
    let g : Group := { o with
      live := o.live &&& ~~~out
      mask := o.mask &&& ~~~out
      stack := o.stack.map fun e => ⟨e.pc, e.mask &&& ~~~out, e.fmt⟩ }
    (g.live = 0 → ∃ t, exec (.exit h) s = .next t ∧ getGroup t gid = none) ∧
    (g.live ≠ 0 → g.mask = 0 → o.stack ≠ [] →
      exec (.exit h) s = Ends s gid o (beatCount .w32 (takingPart o h .w32 s.cycle)) (clearActive (popFrames g g.stack))) ∧
    (g.live ≠ 0 → (g.mask ≠ 0 ∨ o.stack = []) → 
      exec (.exit h) s = Ends s gid o (beatCount .w32 (takingPart o h .w32 s.cycle)) (advance g (instrLen h false)))) ∧
  (∀ h, WhenIssued h fun s gid _ o =>
    exec (.yield h) s = Ends s gid o (beatsOf o h .w32 s.cycle) { advance o (instrLen h false) with
      slice := none, pendSince := s.cycle, readySince := s.cycle, lastStall := s.cycle }) ∧
  (∀ h imm, WhenIssued h fun s gid _ o =>
    let v : Word := BitVec.ofNat 32 (imm.toNat * 256)
    let runs : Bool := if h.uni then uniGuard o h s.cycle else !(takingPart o h .w32 s.cycle).isEmpty
    (runs = false → exec (.setfmtImm h imm) s = Ends s gid o 1 (advance o (instrLen h false))) ∧
    (runs = true → fmtLegal v = true →
      exec (.setfmtImm h imm) s = Ends s gid o (beatsOf o h .w32 s.cycle) (advance { o with fmt := v } (instrLen h false))) ∧
    (runs = true → fmtLegal v = false →
      exec (.setfmtImm h imm) s = .next (raiseIllegal (setGroup s gid o) gid o (instrLen h false)))) ∧
  (∀ h a, WhenIssued h fun s gid g o => srcInRole (roleOf s g) false a = true →
    let part := takingPart o h .w32 s.cycle
    let lane : Option Nat := if h.uni then (if uniGuard o h s.cycle then some 0 else none) else part.head?
    (lane = none → exec (.setfmtReg h a) s = Ends s gid o 1 (advance o (instrLen h false))) ∧
    (∀ i, lane = some i →
      let v : Word := BitVec.ofNat 32 (readSrc o h i s.cycle 32 a)
      (fmtLegal v = true → exec (.setfmtReg h a) s = Ends s gid o (beatsOf o h .w32 s.cycle) (advance { o with fmt := v } (instrLen h false))) ∧
      (fmtLegal v = false →
        exec (.setfmtReg h a) s = .next (raiseIllegal (setGroup s gid o) gid o (instrLen h false)))))

/-- SPAWN at a declared entry, its arguments allocated: with no lane taking part it only moves on; else, after the core's expired bins and earlier parked SPAWNs and a release at .team, its lanes enter bins in order; the group moves past the SPAWN when all have entered and otherwise waits in it with the lanes left over. On a core without bins or parked SPAWNs, fewer than 32 lanes all enter bin 0, positions from 0 up, its timer starting. That expired bins and earlier parked SPAWNs come first is the model's choice (log 65), and so is bin 0, the lowest free one (log 66). SPAWN_RESUME places the core's parked SPAWNs' lanes in issue order, and does nothing for a group that waits in none. REGROUP, its mask word legal, makes every result due but those a ring owes; with entries on the stack its predicate reads 0 in every live lane and the group moves on; with an empty stack the group waits at the rendezvous, where a partner pairs with it and the side with more live lanes is the host. (R44, R45, R47, R50, R51, R52, R158, R159, R160) -/
def Obligations.SpawnAndRegroup : Prop :=
  (∀ h a cnt off, WhenIssued h fun s gid g o =>
    let entry : DWord := o.pc + off.signExtend 64 * 8
    binTimer (kernelOf s g.team) entry ≠ none → (cnt = 0 ∨ a.toNat + cnt.toNat ≤ (roleOf s g).regs) →
    let part := takingPart o h .w32 s.cycle
    (part = [] → exec (.spawn h a cnt off) s = Ends s gid o 1 (advance o (instrLen h false))) ∧
    (part ≠ [] →
      let lanes := part.map fun i => (⟨i, (List.range cnt.toNat).map fun k =>
        BitVec.ofNat 32 (readPlace o (.v (a.toNat + k)) i false (s.cycle + beatOffset .w32 part i))⟩ : BinLane)
      let s1 := releaseAt (resumeSpawns (setGroup s gid o) o.core) o.core o.team .team
      let x := placeSpawns o.core o.team o.role entry s1.nextId lanes s1
      (x.2 = [] → exec (.spawn h a cnt off) s = .next (finish x.1 gid o (beatCount .w32 part) (instrLen h false))) ∧
      (x.2 ≠ [] → ∃ t g', exec (.spawn h a cnt off) s = .next t ∧ getGroup t gid = some g' ∧
        g'.wait = .spawn entry ∧ g'.spawnLeft = x.2 ∧ g'.pc = g.pc) ∧
      ((getCore s g.core).bins = [] → parkedSpawns s g.core = [] → part.length < 32 →
        ∃ t b g', exec (.spawn h a cnt off) s = .next t ∧ tget (getCore t g.core).bins 0 = some b ∧
          b.team = g.team ∧ b.role = g.role ∧ b.entry = entry ∧ b.lanes.map (·.args) = lanes.map (·.args) ∧
          b.lanes.map (·.pos) = List.range part.length ∧
          b.till = (binTimer (kernelOf s g.team) entry).map (s.cycle + ·) ∧
          getGroup t gid = some g' ∧ g'.wait = g.wait ∧ g'.pc = g.pc + BitVec.ofNat 64 (instrLen h false)))) ∧
  (∀ s gid g entry, getGroup s gid = some g → g.wait = .spawn entry →
    exec (.spawnResume gid) s = .next ((parkedSpawns (expireBins s g.core) g.core).map (·.1) |>.foldl resumeSpawn
      (expireBins s g.core))) ∧
  (∀ s gid, (∀ g entry, getGroup s gid = some g → g.wait ≠ .spawn entry) → exec (.spawnResume gid) s = .next s) ∧
  (∀ s gid g entry, getGroup s gid = some g → g.wait = .spawn entry →
    let x := placeSpawns g.core g.team g.role entry g.waitSeq g.spawnLeft s
    (x.2 = [] → resumeSpawn s gid = leaveWait (setGroup x.1 gid { g with spawnLeft := [] }) gid) ∧
    (x.2 ≠ [] → resumeSpawn s gid = setGroup x.1 gid { g with spawnLeft := x.2 })) ∧
  (∀ h pd mask, WhenIssued h fun s gid g o => maskInRole (roleOf s g) mask = true →
    let c := commitAll o s.cycle
    let n := beatsOf c h .w32 s.cycle
    (o.stack ≠ [] → exec (.regroup h pd mask) s = Ends s gid o n (advance (writeRegroup c pd.toNat 0) (instrLen h true))) ∧
    (o.stack = [] → ∃ t g', exec (.regroup h pd mask) s = .next t ∧ getGroup t gid = some g' ∧
      g'.pc = g.pc ∧ g'.pend = c.pend ∧ g'.v = c.v ∧ g'.p = c.p ∧ t.mem = s.mem ∧
      (regroupPartner (setGroup s gid o) gid c pd.toNat mask = none → g'.wait = .regroup pd.toNat mask) ∧
      (∀ y gy, regroupPartner (setGroup s gid o) gid c pd.toNat mask = some (y, gy) → getGroup s y = some gy → ∃ gy',
        getGroup t y = some gy' ∧ gy'.wait = g'.wait ∧ gy'.pc = gy.pc ∧
        g'.wait = (if popNat 32 gy.live.toNat < popNat 32 o.live.toNat then .paired gid y pd.toNat mask
          else .paired y gid pd.toNat mask))))

namespace Sys2Proof.Machine

/-! ### Memory -/

/-- What a load does once its operands are allocated: with no lane taking part, its record fetched and its registers allocated, it
moves on; else, its record usable, every address in bounds and every byte read, each lane's registers receive its run, the lanes'
last load is remembered for a later FENCE, and nothing else of the group changes but its program counter; an acquire follows when
its order is one. -/
def LoadRuns (mk : MemOp → Instr) (rt : Option Rt) (spad : Bool) : Prop :=
  ∀ x : MemOp, WhenIssued x.h fun s gid g o =>
    let len := instrLen x.h false
    let part := takingPart o x.h .w32 s.cycle
    let regs := (roleOf s g).regs
    x.data.toNat < regs → 2 * x.addr.toNat + (if spad then 0 else 1) < regs →
    ∀ s1 r, fetchRecord (setGroup s gid o) o x.rcd.toNat (maskOf part) = (s1, .ok r) → x.data.toNat + r.regs ≤ regs →
    (part = [] → exec (mk x) s = .next (finish s1 gid o 1 len)) ∧
    (part ≠ [] → r.usable false spad = true →
      let s2 := occupy s1 o (beatCount .w32 part)
      let locs := laneLocs o x.addr x.off spad part s2.cycle
      beyondAlloc s2 o.team locs r.span = [] → ∀ s3 runs secs,
      loadRuns s2 o rt x.ord.isAcq (scLoad o x.ord x.scp) x.rcd.toNat r (locs.map (numLoc s2 (whoOf s2 o))) =
        (s3, .ok (runs, secs)) →
      ∃ g', exec (mk x) s = .next (loadAcquire o x.ord x.scp (setGroup s3 gid (advance (noteLoad g' secs) len))) ∧
        g' = runs.foldl (writeRun x.h s3.cycle part x.data.toNat r.regs) o ∧ OnlyPend o g')

/-- What a store does once its operands are allocated: with no lane taking part, its record fetched and its registers allocated, it
moves on; else, its record usable, every address in bounds, every page of its destinations and scales translated, its scales read
and every byte written, the group moves past it; of the group only the generators of a stochastic store, the releases its lanes
owed, and the last loads of lanes whose scales were read (each a load of the instruction) differ besides. -/
def StoreRuns (mk : MemOp → Instr) (rt : Option Rt) (spad : Bool) : Prop :=
  ∀ x : MemOp, WhenIssued x.h fun s gid g o =>
    let len := instrLen x.h false
    let part := takingPart o x.h .w32 s.cycle
    let regs := (roleOf s g).regs
    x.data.toNat < regs → 2 * x.addr.toNat + (if spad then 0 else 1) < regs →
    ∀ s1 r, fetchRecord (setGroup s gid o) o x.rcd.toNat (maskOf part) = (s1, .ok r) → x.data.toNat + r.regs ≤ regs →
    (part = [] → exec (mk x) s = .next (finish s1 gid o 1 len)) ∧
    (part ≠ [] → r.usable true spad = true →
      let s2 := occupy s1 o (beatCount .w32 part)
      let w := whoOf s2 o
      let locs := laneLocs o x.addr x.off spad part s2.cycle
      beyondAlloc s2 o.team locs r.span = [] →
      let runs := part.map fun i => (i, packElems 32 ((List.range r.regs).map fun k =>
        readPlace o (.v (x.data.toNat + k)) i false (s2.cycle + beatOffset .w32 part i)))
      let nums := locs.map (numLoc s2 w)
      let scales := nums.map (scaleItems r)
      let split := scales.flatten.map (piecesOf s2 w)
      let dest := ((storeLanes r o rt runs (nums.map fun _ => []) nums).1.map (·.1)).flatMap (piecesOf s2 w)
      ∀ s3 kw kr, checkStore s2 w dest split.flatten = (s3, kw, kr, none) →
      ∀ s4 bytes, readMapped s3 w kr.map r.rdc false split = (s4, .ok bytes) →
      let o1 := noteLoad o (laneSectors s4 w kr.map split.flatten)
      let what := storeLanes r o rt runs (chunks (scales.headD []).length nums.length bytes) nums
      ∀ s5, writeMapped s4 w kw.map (storeReleases o x.ord x.scp part) (splitWrites s4 w what.1) = (s5, .done) →
      exec (mk x) s = .next (scStore o x.ord x.scp (setGroup s5 gid (advance (payOwed { o1 with rng := what.2 } part) len))))

/-- What a uniform load does: with its guard false it moves on; else the uniform register receives the datum, extended, and every live
lane's last load is this one. -/
def UniformLoadRuns (mk : LduOp → Instr) (rt : Rt) : Prop :=
  ∀ x : LduOp, WhenIssued x.h fun s gid _ o =>
    let len := instrLen x.h false
    let item : Item := ⟨0, .glob (uniAddr o x.addr x.off s.cycle), lduBytes x.w, some rt, false⟩
    (uniGuard o x.h s.cycle = false → exec (mk x) s = Ends s gid o 1 (advance o len)) ∧
    (uniGuard o x.h s.cycle = true → ∀ s1 m b,
      readChecked (setGroup (occupy s o 1) gid o) (whoOf s o) 15 x.ord.isAcq (scLoad o x.ord x.scp) [item] =
        (s1, m, .ok b) →
      let secs := (laneSectors s1 (whoOf s1 o) m (piecesOf s1 (whoOf s1 o) item)).flatMap (·.2)
      ∃ g', exec (mk x) s =
          .next (loadAcquire o x.ord x.scp (setGroup s1 gid
            (advance (noteLoad g' ((liveLanes o).map fun i => (i, secs))) len))) ∧ OnlyPend o g' ∧
        newestAt g' (.s x.data.toNat) 0 = (lduValue x.w (leNat b.flatten), none, none) ∧
        KeptBut o g' [0] [.s x.data.toNat])

/-- What a once-per-group instruction of the uniform side does when its guard holds and nothing stops it: `body` gives the
state and the uniform registers' new values. -/
def UniformRuns (i : Instr) (h : Hdr) (body : State → Nat → Group → State × Option (List (Nat × Nat))) : Prop :=
  WhenIssued h fun s gid _ o =>
    let len := instrLen h false
    (uniGuard o h s.cycle = false → exec i s = Ends s gid o 1 (advance o len)) ∧
    (uniGuard o h s.cycle = true → ∀ s1 l, body (setGroup (occupy s o 1) gid o) gid o = (s1, some l) →
      ∃ g', exec i s = .next (setGroup s1 gid (advance g' len)) ∧ OnlyPend o g' ∧
        (∀ n v, l = [(n, v)] → newestAt g' (.s n) 0 = (v, none, none) ∧ KeptBut o g' [0] [.s n]) ∧
        (l = [] → g' = o))

/-- The body of an instruction on the team's own window binding: its effect and status 0, and status 7 where the register names
no binding of the team. -/
def bindingBody (x : WinOp) (act : State → Window → State) (s : State) (_ : Nat) (g : Group) :
    State × Option (List (Nat × Nat)) :=
  let idx := readPlace g (.s x.addr.toNat) 0 true s.cycle % 16
  match windowOf s g.core idx with
  | some b =>
    if b.team = g.team then (act s b, some [(x.data.toNat, winStatus 0 idx)])
    else (s, some [(x.data.toNat, winStatus 7 idx)])
  | none => (s, some [(x.data.toNat, winStatus 7 idx)])

/-- What an atomic does once its operands are allocated: with no lane it moves on; else its checks and operations run for each
lane in ascending order, and each lane's register receives what its operation read (RED writes none). Where no lane wrote it acts as
a load only (R314). -/
def AtomicRuns (mk : AtomFields → Instr) (regsOf : AtomFields → Nat) (red : Bool)
    (act : AtomFields → Group → Nat → Nat → AtomAct) : Prop :=
  ∀ x : AtomFields, WhenIssued x.h fun s gid g o =>
    let len := instrLen x.h false
    let part := takingPart o x.h .w32 s.cycle
    x.data.toNat + regsOf x ≤ (roleOf s g).regs → 2 * x.addr.toNat + (if x.spl then 0 else 1) < (roleOf s g).regs →
    (part = [] → exec (mk x) s = Ends s gid o 1 (advance o len)) ∧
    (part ≠ [] →
      let at_ := fun i => s.cycle + beatOffset .w32 part i
      let ops := part.map fun i =>
        (i, if x.spl then Loc.spad (laneOffset o x.addr x.off i (at_ i)) else .glob (laneAddr o x.addr x.off i (at_ i)),
          act x o i (at_ i))
      let locs : LaneLocs := ops.map fun y => (y.1, y.2.1)
      let n := x.ty.bits / 8
      let s0 := setGroup (occupy s o (beatCount .w32 part)) gid o
      let w := whoOf s0 o
      let items := locs.map fun y => throughBinding s0 w ⟨y.1, y.2, n, none, false⟩
      (locs.filter fun y => y.2.number.toNat % n != 0) = [] → beyondAlloc s0 o.team locs n = [] →
      let sh : AtomShape := ⟨x.ty, x.ord, x.scp, red⟩
      ∀ s1 k, checkAccess s0 w .write items = (s1, k) → scopeLanes s1 w k x.scp locs = [] → k.stops items = none →
      (locs.filterMap fun y => (atomLost s1 w k.map sh y).map fun pa => (y.1, BitVec.ofNat 64 pa)) = [] →
      let r := atomLanes w k.map sh (fun i s => storeReleases o x.ord x.scp [i] s) ops (scLoad o x.ord x.scp s1) []
      let wrote := (r.2.filter fun y => y.2.2).map (·.1)
      let g' := if red then o
        else r.2.foldl (fun g y => writeLane g .variable x.h.ver (at_ y.1) (.v x.data) x.ty.wide y.1 y.2.1) o
      let t := loadAcquire o x.ord x.scp (setGroup r.1 gid
        (advance (noteLoad (payOwed g' wrote) (laneSectors r.1 w k.map items)) len))
      (wrote ≠ [] → exec (mk x) s = .next (scStore o x.ord x.scp t)) ∧ (wrote = [] → exec (mk x) s = .next t))

end Sys2Proof.Machine

/-- For LD of each request type and LDS: when the operands are allocated, the record can be fetched and used, the addresses are in bounds and every byte is read, the load ends with each lane's registers holding its run, an acquire performed when its order is one, and no register, mask, flag or special register changed besides. LDU.own, LDU.wt, LDU.si and LDU.uc: with the guard false only the program counter moves; when the datum is read, the uniform register receives it extended under the width, an acquire follows when its order is one, and no other register differs. A load whose record is fetched and whose registers are allocated moves on when no lane takes part. (R33, R34, R284, R287, R289, R290, R292, R295) -/
def Obligations.LoadsComplete : Prop :=
  LoadRuns .ldOwn (some .own) false ∧ LoadRuns .ldWt (some .wt) false ∧ LoadRuns .ldSi (some .si) false ∧
  LoadRuns .ldUc (some .uc) false ∧ LoadRuns .lds none true ∧
  UniformLoadRuns .lduOwn .own ∧ UniformLoadRuns .lduWt .wt ∧ UniformLoadRuns .lduSi .si ∧ UniformLoadRuns .lduUc .uc

/-- For ST of each request type and STS: when the operands are allocated, the record can be fetched and used, the addresses are in bounds, every page is translated, the scales are read and the bytes the lanes name are written, with the releases the store performs before them, the group moves past the store, with the generators of a stochastic store advanced and no other register changed. (R33, R254, R284, R287, R291, R295, R339) -/
def Obligations.StoresComplete : Prop :=
  StoreRuns .stOwn (some .own) false ∧ StoreRuns .stWt (some .wt) false ∧ StoreRuns .stSi (some .si) false ∧
  StoreRuns .stUc (some .uc) false ∧ StoreRuns .sts none true

/-- PREF, its address register allocated, translates or reads ahead at each lane's address and moves past itself with no register changed. ZSECT with every address a multiple of 64, translated for a write, in no page where it is refused, writes zero to each lane's sector after the releases it performs, and moves on. (R287, R298, R299, R300) -/
def Obligations.PrefetchAndZeroSector : Prop :=
  (∀ h addr home n off, WhenIssued h fun s gid g o => 2 * addr.toNat + 1 < (roleOf s g).regs →
    let part := takingPart o h .w32 s.cycle
    exec (.pref h addr home n off) s = .next (finish (part.foldl (fun s1 i =>
      let va := laneAddr o addr off i (s1.cycle + beatOffset .w32 part i)
      if home then (translate s1 (whoOf s1 o) va .read).1 else prefLane s1 o n.toNat va) (setGroup s gid o))
      gid o (beatCount .w32 part) (instrLen h false))) ∧
  (∀ h addr ord scp off, WhenIssued h fun s gid g o => 2 * addr.toNat + 1 < (roleOf s g).regs →
    let len := instrLen h false
    let part := takingPart o h .w32 s.cycle
    (part = [] → exec (.zsect h addr ord scp off) s = Ends s gid o 1 (advance o len)) ∧
    (part ≠ [] →
      let s0 := setGroup (occupy s o (beatCount .w32 part)) gid o
      let w := whoOf s0 o
      let eas := part.map fun i => (i, laneAddr o addr off i (s0.cycle + beatOffset .w32 part i))
      let items := eas.map fun x => (⟨x.1, .glob (x.2 &&& ~~~63#64), 64, none, false⟩ : Item)
      (∀ x ∈ eas, x.2.toNat % 64 = 0) →
      ∀ s1 k, checkAccess s0 w .write items = (s1, k) → k.stops items = none →
      (∀ x ∈ eas, ∀ l, leafSeen k x.2 = some l → l.sa = false ∧ l.cmp = false) →
      exec (.zsect h addr ord scp off) s =
        .next (setGroup (eas.foldl (fun s x => zeroSector s w k.map x.2) (storeReleases o ord scp part s1)) gid
          (advance (payOwed o part) len))))

/-- For each of the five instructions: with the guard false only the program counter moves; else the status register receives the status word and nothing else of the group differs. WMAP answers its refusals in their order, then PAGE_REFUSED (status 4) with no binding made when every page of the window translates and one of them is refused, and else the index of the new binding; WUNMAP, WFLUSH and WINV act on the team's own binding and answer 7 for any other; WSTAT reads the binding's fields, or 0. (R34, R235, R301, R302, R303, R304, R305, R306) -/
def Obligations.WindowInstructions : Prop :=
  (∀ h data addr scp zero ft off, WhenIssued h fun s gid _ o =>
    let base := uniAddr o addr off s.cycle
    let arg := readPlace o (.s (addr.toNat + 1)) 0 true s.cycle
    let s0 := setGroup (occupy s o 1) gid o
    let refusal := wmapRefusal s0 o ft base.toNat (arg % 2 ^ 32) (arg / 2 ^ 32 % 2 ^ 32)
    (uniGuard o h s.cycle = false →
      exec (.wmap h data addr scp zero ft off) s = Ends s gid o 1 (advance o (instrLen h false))) ∧
    (uniGuard o h s.cycle = true → refusal ≠ 0 → ∃ g', OnlyPend o g' ∧
      exec (.wmap h data addr scp zero ft off) s = Ends s gid o 1 (advance g' (instrLen h false)) ∧
      newestAt g' (.s data.toNat) 0 = (winStatus refusal 0, none, none) ∧ KeptBut o g' [0] [.s data.toNat]) ∧
    (uniGuard o h s.cycle = true → refusal = 0 → ∀ s1 m,
      translatePages (whoOf s0 o) (if zero then .write else .read) (pagesOf base (arg / 2 ^ 32 % 2 ^ 32)) s0 [] = (s1, m) →
      (∀ e ∈ m, ∃ l, e.2 = .ok l ∧ l.cmp = false ∧ l.sa = false) →
      ∃ t g' idx, exec (.wmap h data addr scp zero ft off) s = .next t ∧
        getGroup t gid = some (advance g' (instrLen h false)) ∧ OnlyPend o g' ∧
        newestAt g' (.s data.toNat) 0 = (winStatus 0 idx, none, none) ∧ KeptBut o g' [0] [.s data.toNat] ∧
        ∃ b ∈ t.mem.windows, b.core = o.core ∧ b.index = idx ∧ b.team = o.team ∧ b.base = base ∧
          b.off = arg % 2 ^ 32 ∧ b.len = arg / 2 ^ 32 % 2 ^ 32 ∧ b.scp = scp ∧ b.ft = ft) ∧
    (uniGuard o h s.cycle = true → refusal = 0 → ∀ s1 m,
      translatePages (whoOf s0 o) (if zero then .write else .read) (pagesOf base (arg / 2 ^ 32 % 2 ^ 32)) s0 [] = (s1, m) →
      (∀ e ∈ m, ∃ l, e.2 = .ok l) → (∃ e ∈ m, ∃ l, e.2 = .ok l ∧ (l.cmp = true ∨ l.sa = true)) →
      ∃ g', OnlyPend o g' ∧
        exec (.wmap h data addr scp zero ft off) s = .next (setGroup s1 gid (advance g' (instrLen h false))) ∧
        newestAt g' (.s data.toNat) 0 = (winStatus 4 0, none, none) ∧ KeptBut o g' [0] [.s data.toNat])) ∧
  (∀ x : WinOp, UniformRuns (.wunmap x) x.h (bindingBody x fun s b =>
    let s := windowFlush false s b.core b.index
    let s := match windowOf s b.core b.index, getTeam s b.team with
      | some b, some t => setTeam s b.team (zeroInvalid b t)
      | _, _ => s
    { s with mem := { s.mem with windows := s.mem.windows.filter fun w => !(w.core == b.core && w.index == b.index) } })) ∧
  (∀ x : WinOp, UniformRuns (.wflush x) x.h (bindingBody x fun s b => windowFlush false s b.core b.index)) ∧
  (∀ (x : WinOp) discard, UniformRuns (.winv x discard) x.h (bindingBody x fun s b =>
    if discard then putWindow s { b with vbits := [], dbits := [], given := [] } else putWindow s (windowClearClean b))) ∧
  (∀ x : WinOp, UniformRuns (.wstat x) x.h fun s _ g =>
    let idx := readPlace g (.s x.addr.toNat) 0 true s.cycle % 16
    match windowOf s g.core idx with
    | some b => (s, some [(x.data.toNat, if b.team = g.team then wstatWord b else 0)])
    | none => (s, some [(x.data.toNat, 0)]))

/-- CLEAN and INVAL: with the guard false, or a length of zero, only the program counter moves; when every page of the widened range translates, the caches reached write the range back, INVAL drops it, the team's overlapping windows are flushed (and their clean words dropped by INVAL), and the group moves on with no register changed. (R34, R309, R310) -/
def Obligations.CacheMaintenance : Prop :=
  ∀ (x : MaintOp) (drop : Bool), WhenIssued x.h fun s gid _ o =>
    let i : Instr := if drop then .inval x else .clean x
    let len := instrLen x.h false
    let base := (uniAddr o x.addr x.off s.cycle).toNat
    let n := readPlace o (.s (x.addr.toNat + 1)) 0 true s.cycle
    let lo := base / 256 * 256
    let hi := (base + n + 255) / 256 * 256
    let s0 := setGroup (occupy s o 1) gid o
    (uniGuard o x.h s.cycle = false ∨ n = 0 → exec i s = Ends s gid o 1 (advance o len)) ∧
    (uniGuard o x.h s.cycle = true → n ≠ 0 → ∀ s1 m,
      translatePages (whoOf s0 o) .read (pagesOf (BitVec.ofNat 64 lo) (hi - lo)) s0 [] = (s1, m) →
      (∀ e ∈ m, ∃ l, e.2 = .ok l) →
      let s2 := maintain s1 o.core x.scp drop (sectorInRange m lo hi)
      let mine := s2.mem.windows.filter fun b =>
        b.core == o.core && b.team == o.team && overlaps lo (hi - lo) b.base.toNat b.len
      exec i s = .next (setGroup (mine.foldl (fun s b =>
        let s := windowFlush false s b.core b.index
        if drop then
          match windowOf s b.core b.index with
          | some b => putWindow s (windowClearClean b)
          | none => s
        else s) s2) gid (advance o len)))

/-- For each of the three instructions: when its operands are allocated, its addresses aligned, in bounds, translated for a write and allowed at its scope, and no sector it reads is poisoned, every lane's operation runs in ascending order after the releases its order names, ATOM and ATOMCAS write what each operation read, and an acquire follows when the order is one. (R33, R247, R287, R288, R312, R314, R316) -/
def Obligations.AtomicsComplete : Prop :=
  AtomicRuns .atom (fun x => if x.ty.wide then 2 else 1) false
    (fun x g i t => .modify x.op (dataValue g x.data.toNat i t x.ty.wide)) ∧
  AtomicRuns .atomcas (fun x => if x.ty.wide then 4 else 2) false
    (fun x g i t => .cas (dataValue g x.data.toNat i t x.ty.wide)
      (dataValue g (x.data.toNat + if x.ty.wide then 2 else 1) i t x.ty.wide)) ∧
  AtomicRuns .red (fun x => if x.ty.wide then 2 else 1) true
    (fun x g i t => .modify x.op (dataValue g x.data.toNat i t x.ty.wide))

/-- FENCE performs the release, the acquire or both at its scope; an acquiring one first has what its lanes' last loads read published; a releasing one leaves every live lane owing a release at least at that scope; only the program counter of the group differs besides. QFENCE, when it acts, appends its queue set and the next number to its core's fences and moves on; when it does not act it only moves on. (R254, R274, R282, R317, R318) -/
def Obligations.Fences : Prop :=
  (∀ h ord scp, WhenIssued h fun s gid _ o =>
    let s0 := setGroup s gid o
    let s1 := if ord.isRel then releaseAt s0 o.core o.team scp else s0
    let s2 := if ord.isAcq then acquireAt (fenceLoads o s1) o.core o.team scp else s1
    ∃ owed, exec (.fence h ord scp) s =
        .next (finish s2 gid (if ord.isRel then { o with relOwed := owed } else o) 1 (instrLen h false)) ∧
      (∀ i, i < 32 → o.live.getLsbD i = true →
        (cget owed i).toNat = max (cget o.relOwed i).toNat (scopeNum scp + 1) % 8)) ∧
  (∀ h set, WhenIssued h fun s gid _ o =>
    (actsIn o h s.cycle = none → exec (.qfence h set) s = Ends s gid o 1 (advance o (instrLen h false))) ∧
    (actsIn o h s.cycle ≠ none → ∃ t, exec (.qfence h set) s = .next t ∧
      getGroup t gid = some (advance o (instrLen h false)) ∧
      (getCore t o.core).fences = (getCore s o.core).fences ++ [⟨set, s.nextId⟩] ∧ t.mem = s.mem))

namespace Sys2Proof.Machine

/-- Every group named has left its wait in `t` and stands after its instruction: `len` bytes for the one that arrived last. -/
def MovedPast (s t : State) (groups : List Nat) (gid len : Nat) : Prop :=
  ∀ k ∈ groups, ∀ gk, getGroup s k = some gk → ∃ g', getGroup t k = some g' ∧ g'.wait = .none ∧
    g'.pc = gk.pc + BitVec.ofNat 64 (if k = gid then len else gk.parkLen)

/-- A wait on memory (R324–R326). With monitor entries for its sectors it watches them and reads; when the condition holds in every
lane it completes: the values read are the results, an acquire is performed, and the group stands after the instruction; else it
goes on watching. Without, it completes when the condition holds and else waits for the overflow interval. -/
def WaitRuns (i : Instr) (s s1 : State) (gid : Nat) (o : Group) (len : Nat) (t : WatchTest) : Prop :=
  let sectors := distinct (t.lanes.map fun x => x.2.1 / 64)
  let p := park s1 gid o len (.watch sectors t)
  (monitorsUsed s1 o.core + sectors.length ≤ 64 → ∀ g1, getGroup p gid = some g1 →
    ∀ s2 l, testRead (setGroup p gid { g1 with poked := false }) g1 t = (s2, .ok l) →
    (testHolds t l = true → ∃ u g', exec i s = .next u ∧
      u = completeWait s2 gid ((getGroup s2 gid).getD g1) t l false ∧ getGroup u gid = some g' ∧ g'.wait = .none ∧
      g'.pc = o.pc + BitVec.ofNat 64 len ∧
      (t.uni = true → ∀ k v c, l = [(k, v, c)] → newestAt g' (.s t.data) 0 = (v, none, none))) ∧
    (testHolds t l = false → exec i s = .next s2 ∧ ∃ g', getGroup s2 gid = some g' ∧ g'.wait = .watch sectors t ∧
      g'.pc = o.pc)) ∧
  (64 < monitorsUsed s1 o.core + sectors.length → ∀ s2 l, testRead s1 o t = (s2, .ok l) →
    (testHolds t l = true → exec i s =
      .next (acquireAt (setGroup s2 gid (advance (writeTest o t s2.cycle l) len)) o.core o.team t.scp)) ∧
    (testHolds t l = false → exec i s = .next (park s2 gid o len (.overflow (s2.cycle + overflowInterval s2 o) t))))

/-- A wait that reads its data again completes, as WaitRuns says, from the state `s2` after the reads. -/
def WaitEnds (out : Out) (s2 : State) (gid : Nat) (g : Group) (t : WatchTest) (l : List (Nat × Nat × Nat)) (spurious : Bool) :
    Prop :=
  let u := completeWait s2 gid ((getGroup s2 gid).getD g) t l spurious
  out = .next u ∧ ∃ g', getGroup u gid = some g' ∧ g'.wait = .none ∧ g'.pc = g.pc + BitVec.ofNat 64 g.parkLen

end Sys2Proof.Machine

/-- BAR .team and .role park the group at the barrier, counted or late, after a release at .team, and settle the phase: when every counted group has arrived they all move past it. BBAR with a count of 0 and no phase open for its number only moves on; without an entry to be had it parks for one; else it arrives, whatever count it reads in an open phase, and when the arrivals reach the first one's count the entry is freed and they all move past it. BBAR_ENTRY_FREE lets a BBAR parked for an entry execute again once it can have one. (R319, R320, R321, R322) -/
def Obligations.Barriers : Prop :=
  (∀ h (role : Bool) (id : BitVec 4), WhenIssued h fun s gid _ o => ∀ t,
    let i : Instr := if role then .barRole h id else .barTeam h id
    let len := instrLen h false
    let key := if role then 16 * (o.role + 1) + id.toNat else id.toNat
    let s1 := releaseAt (setGroup (occupy s o 1) gid o) o.core o.team .team
    getTeam s1 o.team = some t →
    let b := (tget t.bars key).getD ⟨0, [], [], []⟩
    let late : Bool := !b.arrived.isEmpty && !b.counted.contains gid
    let b' : Barrier := if late then { b with late := b.late ++ [gid] }
      else if b.arrived.isEmpty then
        { b with counted := residents s1 o.team (if role then some o.role else none), arrived := [gid] }
      else { b with arrived := b.arrived ++ [gid] }
    exec i s = .next (settleBarrier (park (setTeam s1 o.team { t with bars := tset t.bars key b' }) gid o len
      (if late then .barLate role id.toNat else .bar role id.toNat)) o.team key) ∧
    (late = false → (∀ k ∈ b'.counted, k ∈ b'.arrived) → b'.arrived.Nodup →
      ∃ u, exec i s = .next u ∧ MovedPast s1 u b'.arrived gid len)) ∧
  (∀ h id cnt, WhenIssued h fun s gid g o => srcInRole (roleOf s g) false cnt = true →
    let len := instrLen h false
    let count := match cnt with
      | .s _ | .k _ => readSrc o h 0 s.cycle 32 cnt
      | _ => match lowestEnabled o with | some i => readSrc o h i s.cycle 32 cnt | none => 0
    let s0 := setGroup (occupy s o 1) gid o
    let grid := gridIdOf s0 o
    let bough := boughOf o.core
    let mine (b : BoughBar) : Bool := b.bough == bough && b.grid == grid && b.num == id.toNat
    let here := s.boughBars.any mine
    let full : Bool := decide (16 ≤ (s.boughBars.filter fun b => b.bough == bough).length)
    (here = false → count = 0 → exec (.bbar h id cnt) s = Ends s gid o 1 (advance o len)) ∧
    (here = false → count ≠ 0 → full = true → exec (.bbar h id cnt) s = .next (park s0 gid o len (.bbarFull id.toNat))) ∧
    (here = false → count ≠ 0 → full = false → ∃ s1, s1 = releaseAt s0 o.core o.team .bough ∧
      exec (.bbar h id cnt) s = .next (settleBough
        (park { s1 with boughBars := s1.boughBars ++ [⟨bough, grid, id.toNat, count, [gid]⟩] } gid o len (.bbar id.toNat))
        bough grid id.toNat)) ∧
    (here = true → ∃ s1, s1 = releaseAt s0 o.core o.team .bough ∧
      exec (.bbar h id cnt) s = .next (settleBough
        (park { s1 with boughBars := s1.boughBars.map (addArrival bough grid id.toNat gid) } gid o len (.bbar id.toNat))
        bough grid id.toNat)) ∧
    (here = false → count = 1 → full = false →
      ∃ u, exec (.bbar h id cnt) s = .next u ∧ MovedPast s0 u [gid] gid len) ∧
    (∀ e, s.boughBars.find? mine = some e → e.expect ≤ e.arrived.length + 1 → (e.arrived ++ [gid]).Nodup →
      ∃ u, exec (.bbar h id cnt) s = .next u ∧ u.boughBars = s.boughBars.filter (fun b => !mine b) ∧
        MovedPast s0 u (e.arrived ++ [gid]) gid len)) ∧
  (∀ s gid g, getGroup s gid = some g → mayTakeEntry s g = true → ∃ t g', exec (.bbarEntryFree gid) s = .next t ∧
    getGroup t gid = some g' ∧ g'.wait = .none ∧ g'.pc = g.pc)

/-- MWAIT with its operands allocated: with no lane taking part it only moves on; with every address aligned and translated and every datum readable, it watches its sectors and completes with the values read and an acquire when every lane's condition holds, and else goes on watching, or waits for the overflow interval when the monitor has no room. MWAIT_RETEST reads every address again and completes the wait when the condition holds. MWAIT_OVERFLOW_EXPIRY does nothing before the end of the interval, and then reads once more and completes, with an acquire only when the condition holds. (R33, R34, R255, R287, R323, R324, R325, R326) -/
def Obligations.WaitingOnMemory : Prop :=
  (∀ x : MwaitOp, WhenIssued x.h fun s gid g o =>
    let len := instrLen x.h false
    let wide := x.w != .n32
    let regs := (roleOf s g).regs
    (x.h.uni = false → x.data.toNat + (if wide then 1 else 0) < regs ∧ 2 * x.addr.toNat + 1 < regs) →
    let part := if x.h.uni then (if uniGuard o x.h s.cycle then [0] else []) else takingPart o x.h .w32 s.cycle
    (part = [] → exec (.mwait x) s = Ends s gid o 1 (advance o len)) ∧
    (part ≠ [] →
      let at_ := fun i => s.cycle + beatOffset .w32 part i
      let eas := part.map fun i => (i, if x.h.uni then uniAddr o x.addr x.off s.cycle else laneAddr o x.addr x.off i (at_ i))
      let s0 := setGroup (occupy s o (if x.h.uni then 1 else beatCount .w32 part)) gid o
      (∀ e ∈ eas, e.2.toNat % mwBytes x.w = 0) → ∀ s1 m,
      translatePages (whoOf s0 o) .read (distinct (eas.map fun e => e.2.toNat / 65536)) s0 [] = (s1, m) →
      (∀ e ∈ m, ∃ l, e.2 = .ok l) →
      let lanes := eas.filterMap fun e =>
        let want := if x.h.uni then readPlace o (.s x.data.toNat) 0 true s1.cycle
          else dataValue o x.data.toNat e.1 (at_ e.1) wide
        match m.look e.2 with
        | .ok l => some (e.1, leafPa l e.2, l.cmp, want)
        | .error _ => none
      WaitRuns (.mwait x) s s1 gid o len ⟨false, x.w, x.cond, x.scp, x.h.uni, x.h.ver, x.data.toNat, lanes⟩)) ∧
  (∀ s gid g sectors t s1 l, getGroup s gid = some g → g.wait = .watch sectors t →
    testRead (setGroup s gid { g with poked := false }) g t = (s1, .ok l) →
    (testHolds t l = true → WaitEnds (exec (.mwaitRetest gid) s) s1 gid g t l false) ∧
    (testHolds t l = false → exec (.mwaitRetest gid) s = .next s1 ∧ ∃ g', getGroup s1 gid = some g' ∧
      g'.wait = g.wait ∧ g'.pc = g.pc)) ∧
  (∀ s gid g till t, getGroup s gid = some g → g.wait = .overflow till t →
    (s.cycle < till → exec (.mwaitOverflowExpiry gid) s = .next s) ∧
    (till ≤ s.cycle → ∀ s1 l, testRead s g t = (s1, .ok l) →
      WaitEnds (exec (.mwaitOverflowExpiry gid) s) s1 gid g t l (!testHolds t l)))

/-- With the guard false the three instructions only move on. With the address a multiple of 16, translated, allowed at the scope and not poisoned, and the core's own copy sent home: TBINIT performs its releases, sets the expected count, clears the arrivals and keeps the phase; TBARR releases, counts its arrivals, ends phases as the count says and returns the phase before; TBWAIT waits for the phase to differ from its token as MWAIT waits. TBINIT and TBARR pay the releases that the live lanes owe. (R34, R247, R249, R287, R328, R329, R330) -/
def Obligations.TransactionBarriers : Prop :=
  ∀ x : TbOp, WhenIssued x.h fun s gid _ o =>
    let len := instrLen x.h false
    let ea := uniAddr o x.addr x.off s.cycle
    let s0 := setGroup (occupy s o 1) gid o
    let w := whoOf s0 o
    (uniGuard o x.h s.cycle = false →
      exec (.tbinit x) s = Ends s gid o 1 (advance o len) ∧ exec (.tbarr x) s = Ends s gid o 1 (advance o len) ∧
      exec (.tbwait x) s = Ends s gid o 1 (advance o len)) ∧
    (uniGuard o x.h s.cycle = true → ∀ s1 l leaf, translateLeaf s0 w ea .write = (s1, .ok l, leaf) → ea.toNat % 16 = 0 →
      scopeBad s1 w (fun _ => leaf) x.scp ea = false → s1.mem.poison.contains (leafPa l ea / 64) = false →
      let pa := leafPa l ea
      let s2 := clearWay s1 o.core (pa / 64)
      let n := readPlace o (.s x.data.toNat) 0 true s2.cycle % 2 ^ 32
      (let s3 := storeReleases o x.ord x.scp (liveLanes o) s2
       exec (.tbinit x) s = .next (setGroup
         (barrierUpdate s3 (crownOf o.core) pa (whoOf s3 o).tag fun b => (n, 0, b.2.2)).1 gid
         (advance (payOwed o (liveLanes o)) len))) ∧
      (let s3 := storeReleases o .rel x.scp (liveLanes o) s2
       let r := barrierUpdate s3 (crownOf o.core) pa (whoOf s3 o).tag (arrival n)
       ∃ g', exec (.tbarr x) s = .next (setGroup r.1 gid
           (advance (noteLoad g' ((liveLanes o).map fun i => (i, [pa / 64]))) len)) ∧
         OnlyPend (payOwed o (liveLanes o)) g' ∧
         newestAt g' (.s x.data.toNat) 0 = (r.2, none, none) ∧ KeptBut o g' [0] [.s x.data.toNat]) ∧
      WaitRuns (.tbwait x) s s2 gid o len ⟨true, .n32, .ne, x.scp, true, x.h.ver, x.data.toNat, [(0, pa + 8, l.cmp, n)]⟩)

/-- MBXW into an empty mailbox fills it after a release at .team; into a full one it parks with its value. MBXR of a full mailbox empties it, writes its value where it acts and performs an acquire; of an empty one it parks. MBXP writes the value and whether the mailbox is full, and empties nothing. MAILBOX_WAKE serves the group whose wait began first. (R77, R78, R282, R331, R332, R333) -/
def Obligations.Mailboxes : Prop :=
  (∀ h m a, WhenIssued h fun s gid g o => srcInRole (roleOf s g) false a = true → ∀ t, getTeam s g.team = some t →
    let len := instrLen h false
    let s0 := setGroup (occupy s o 1) gid o
    (actsIn o h s.cycle = none → exec (.mbxw h m a) s = Ends s gid o 1 (advance o len)) ∧
    (∀ i, actsIn o h s.cycle = some i →
      let v : Word := BitVec.ofNat 32 (readSrc o h i s.cycle 32 a)
      (t.mbxFull.getLsbD m.toNat = true → exec (.mbxw h m a) s = .next (park s0 gid o len (.mbxWrite m.toNat v))) ∧
      (t.mbxFull.getLsbD m.toNat = false → ∀ u, getTeam (releaseAt s0 o.core o.team .team) o.team = some u →
        exec (.mbxw h m a) s = .next (wakeMbx (setGroup (setTeam (releaseAt s0 o.core o.team .team) o.team (mbxFill u m.toNat v))
          gid (advance o len)) o.team m.toNat)))) ∧
  (∀ h m d, WhenIssued h fun s gid g o => dstInRole (roleOf s g) h.uni false d = true → ∀ t, getTeam s g.team = some t →
    let len := instrLen h false
    let s0 := setGroup (occupy s o 1) gid o
    let lanes := if h.uni then [] else takingPart o h .w32 s.cycle
    (actsIn o h s.cycle = none → exec (.mbxr h m d) s = Ends s gid o 1 (advance o len)) ∧
    (actsIn o h s.cycle ≠ none →
      (t.mbxFull.getLsbD m.toNat = false →
        exec (.mbxr h m d) s = .next (park s0 gid o len (.mbxRead m.toNat h.uni h.ver d lanes))) ∧
      (t.mbxFull.getLsbD m.toNat = true →
        exec (.mbxr h m d) s = .next (wakeMbx (acquireAt (setGroup (setTeam s0 o.team (mbxEmpty t m.toNat)) gid
          (advance (writeMbx o h.uni h.ver d lanes s.cycle (cget t.mbx m.toNat).toNat) len)) o.core o.team .team) o.team
          m.toNat)))) ∧
  (∀ h m d full, WhenIssued h fun s gid g o => dstInRole (roleOf s g) h.uni false d = true →
    ∀ t, getTeam s g.team = some t →
    let len := instrLen h false
    let isFull := t.mbxFull.getLsbD m.toNat
    (actsIn o h s.cycle = none → exec (.mbxp h m d full) s = Ends s gid o 1 (advance o len)) ∧
    (actsIn o h s.cycle ≠ none →
      let lanes := if h.uni then [] else takingPart o h .w32 s.cycle
      let a := writeMbx o h.uni h.ver d lanes s.cycle (cget t.mbx m.toNat).toNat
      let g' := if h.uni then writeSel a h .variable s.cycle full 0 isFull
        else lanes.foldl (fun g i => writeSel g h .variable s.cycle full i isFull) a
      let u := setGroup (occupy s o 1) gid (advance g' len)
      exec (.mbxp h m d full) s = .next (if isFull then acquireAt u o.core o.team .team else u) ∧ OnlyPend o g' ∧
        getTeam u g.team = some t)) ∧
  (∀ s tid m t gid g rest, getTeam s tid = some t →
    mbxWaiters s tid m (t.mbxFull.getLsbD m) = (gid, g) :: rest →
    ∃ u g', exec (.mailboxWake tid m) s = .next u ∧ getGroup u gid = some g' ∧ g'.wait = .none)

namespace Sys2Proof.Machine

/-! ### Cursors -/

/-- Nothing of a group but its outstanding results, captured records and last loads differs. -/
def OnlyCursors (g g' : Group) : Prop := g' = { withPend g g'.pend with cap := g'.cap, lastLoad := g'.lastLoad }

/-- What a cursor instruction does once its operands are allocated (R357, R363, R380): with no lane it only moves on; when `f` of
every lane, in ascending order, gives cursors, a flag, a value and bytes to be written, the records captured fit the core's
entries, and those bytes are translated and written, the results of every lane are written, each lane's last read is remembered as
its last load, the releases that writing lanes owed are paid, and nothing else of the group but its program counter and captured
records differs. -/
def CursorRuns (i : Instr) (h : Hdr) (curs : List (BitVec 4)) (srcs : List (Src × Bool)) (d : Option Dst) (wide : Bool)
    (pd : BitVec 3) (f : LaneCtx → Wm LaneOut) : Prop :=
  WhenIssued h fun s gid g o =>
    let len := instrLen h false
    let part := takingPart o h .w32 s.cycle
    let s0 := occupy (setGroup s gid o) o (beatCount .w32 part)
    let w := whoOf s0 o
    (∀ c ∈ curs, c.toNat < (roleOf s g).curs) → (∀ x ∈ srcs, srcInRole (roleOf s g) x.2 x.1 = true) →
    (∀ x, d = some x → dstInRole (roleOf s g) false wide x = true) →
    (part = [] → exec i s = Ends s gid o 1 (advance o len)) ∧
    (part ≠ [] → ∀ (k : Walker) (oks : List (Nat × LaneOut)),
      runLanes (fun i => f ⟨o, h, i, s0.cycle + beatOffset .w32 part i⟩) part (Walker.start s0 o) [] =
        (k, oks.map fun x => (x.1, .ok x.2)) →
      let ps := splitWrites k.s w (laneWrites oks)
      ∀ s1 chk, checkAccessKnown k.s w .write k.leaves (ps.map (·.1)) = (s1, chk) → pageErrs chk (ps.map (·.1)) = [] →
      let g' := noteLoad (oks.foldl (writeLaneOut h pd d s1.cycle part) (k.kept.foldl keepRecord o)) k.reads
      capturesFit s1 gid g' = true →
      let wrote := (oks.filter fun x => !x.2.writes.isEmpty).map (·.1)
      ∀ s2, writeMapped s1 w chk.map (storeReleases o .rlx .team wrote) ps = (s2, .done) →
      exec i s = .next (setGroup s2 gid (advance (payOwed g' wrote) len)) ∧ OnlyCursors o g' ∧
        (k.kept = [] → g'.cap = o.cap))

end Sys2Proof.Machine

/-- CINIT captures the record its address names and enters the fibre of the parent position, CINIT.app opens an append cursor on an appendable level; the predicate tells whether there is an element. CDESC does the same at the child level of its cursor's record from the cursor's value position, gives a done cursor for a done one, and needs a child level; CDESC.app needs an element and an appendable child; a valid source cursor in the mode asked for, whose record has its KIND, is taken with that record and what is found in its level. The source cursor of CDESC is not written. (R355, R358, R363, R367, R368) -/
def Obligations.CursorSetup : Prop :=
  (∀ x : CinitOp, CursorRuns (.cinit x) x.h [x.cd] [(x.addr, true), (x.ppos, false)] none false x.pd fun c => do
    let ra := BitVec.ofNat 64 (c.src 64 x.addr)
    let v ← captureRecord ra
    let cur ← enterFibre (Lvl.ofNat v) ra (c.src 32 x.ppos)
    return { LaneOut.empty with curs := [curOut x.cd cur v], flag := !cur.done }) ∧
  (∀ x : CinitOp, CursorRuns (.cinitApp x) x.h [x.cd] [(x.addr, true), (x.ppos, false)] none false x.pd fun c => do
    let ra := BitVec.ofNat 64 (c.src 64 x.addr)
    let v ← captureRecord ra
    if !(Lvl.ofNat v).app then throw .state
    return { LaneOut.empty with
      curs := [curOut x.cd (appendCur (Lvl.ofNat v) ra (c.src 32 x.ppos)) v], flag := true }) ∧
  (∀ x : CdescOp,
    let f (app : Bool) (c : LaneCtx) : Wm LaneOut := do
      let r ← c.taken x.ca.toNat (fun cur => !cur.append && !(app && cur.done)) fun l => do
        if l.child = 0 then throw .level
        let w ← captureRecord (BitVec.ofNat 64 l.child)
        if app && !(Lvl.ofNat w).app then throw .state
        return w
      let l := Lvl.ofNat r.2.1
      let ra := BitVec.ofNat 64 l.child
      let ch := Lvl.ofNat r.2.2
      let new ←
        if app then pure (appendCur ch ra (vpos l r.1))
        else if r.1.done then pure ⟨ch.kind, true, true, false, ra, 0, 0, 0, ch.ext, 0⟩
        else enterFibre ch ra (vpos l r.1)
      return { LaneOut.empty with curs := [curOut x.cd new r.2.2], flag := !new.done }
    CursorRuns (.cdesc x) x.h [x.cd, x.ca] [] none false x.pd (f false) ∧
    CursorRuns (.cdescApp x) x.h [x.cd, x.ca] [] none false x.pd (f true)) ∧
  (∀ (c : LaneCtx) i (ok : Cur → Bool) (early : Lvl → Wm Nat) (k k1 k2 : Walker) v a, (c.cur i).valid = true →
    ok (c.cur i) = true → (c.record i (c.cur i)).run k = (.ok v, k1) → (Lvl.ofNat v).kind = (c.cur i).kind →
    (early (Lvl.ofNat v)).run k1 = (.ok a, k2) → (c.taken i ok early).run k = (.ok (c.cur i, v, a), k2))

/-- CNEXT steps its cursor, CSEEK moves an ordered one to the first coordinate at or after the target, CISEC brings two cursors to a common coordinate and CUNION steps those that stand at the smaller; every cursor is a valid one in read mode with the record it stands on, and the predicate tells whether an element is left. (R357, R358, R360, R363, R369, R370) -/
def Obligations.CursorAdvance : Prop :=
  (∀ h ca pd, CursorRuns (.cnext h ca pd) h [ca] [] none false pd fun c => do
    let x ← c.readCur ca.toNat
    let cur ← stepCursor (Lvl.ofNat x.2) x.1
    return { LaneOut.empty with curs := [curOut ca cur x.2], flag := !cur.done }) ∧
  (∀ h ca t pd, CursorRuns (.cseek h ca t pd) h [ca] [(t, false)] none false pd fun c => do
    let x ← c.readCur ca.toNat
    if !ordered (Lvl.ofNat x.2) then throw .state
    let cur ← seekCursor (Lvl.ofNat x.2) x.1 (c.src 32 t)
    return { LaneOut.empty with curs := [curOut ca cur x.2], flag := !cur.done }) ∧
  (∀ x : CmergeOp, CursorRuns (.cisec x) x.h [x.ca, x.cb] [] none false x.pd fun c => do
    let r ← mergeCurs c x.ca x.cb false
    let m ← isec (Lvl.ofNat r.1.2) (Lvl.ofNat r.2.2) x.step r.1.1 r.2.1
    return { LaneOut.empty with curs := [curOut x.ca m.1 r.1.2, curOut x.cb m.2 r.2.2], flag := !m.1.done }) ∧
  (∀ x : CmergeOp, CursorRuns (.cunion x) x.h [x.ca, x.cb] [] none false x.pd fun c => do
    let r ← mergeCurs c x.ca x.cb true
    let m ← union (Lvl.ofNat r.1.2) (Lvl.ofNat r.2.2) x.step r.1.1 r.2.1
    return { LaneOut.empty with
      curs := [curOut x.ca m.1 r.1.2, curOut x.cb m.2 r.2.2], flag := !(m.1.done && m.2.done) }) ∧
  (∀ (c : LaneCtx) ca cb (isUnion : Bool) (k k1 k2 : Walker) a b,
    (c.readCur ca.toNat).run k = (.ok a, k1) → (c.readCur cb.toNat).run k1 = (.ok b, k2) →
    ca ≠ cb → ordered (Lvl.ofNat a.2) = true → (ordered (Lvl.ofNat b.2) = true ∨ (isUnion = false ∧ (Lvl.ofNat b.2).kind = 3)) →
    (mergeCurs c ca cb isUnion).run k = (.ok (a, b), k2))

/-- CCRD gives the coordinate, CPOS the value position or all ones when done, CDONE whether the cursor is done; CVAL reads the value at the cursor's value address through L1, zero when done, once the records captured fit the core's entries, and remembers the read as the lane's last load, and CSTV writes it, nothing when done; none writes a cursor. (R362, R363, R371) -/
def Obligations.CursorElements : Prop :=
  (∀ x : CreadOp, CursorRuns (.ccrd x) x.h [x.ca] [] (some x.d) false 7 fun c => do
    let r ← c.readCur x.ca.toNat
    return { LaneOut.empty with val := r.1.crd }) ∧
  (∀ x : CreadOp, CursorRuns (.cpos x) x.h [x.ca] [] (some x.d) true 7 fun c => do
    let r ← c.readCur x.ca.toNat
    return { LaneOut.empty with
      val := if r.1.done then 2 ^ 64 - 1 else vpos (Lvl.ofNat r.2) r.1 % 2 ^ 64, wide := true }) ∧
  (∀ h ca pd, CursorRuns (.cdone h ca pd) h [ca] [] none false pd fun c => do
    let r ← c.readCur ca.toNat
    return { LaneOut.empty with flag := r.1.done }) ∧
  (∀ h ca a, CursorRuns (.cstv h ca a) h [ca] [(a, false)] none false 7 fun c => do
    let role := roleOf (← get).s c.g
    let r ← c.readWith ca.toNat fun l => throwIf (l.vw == 8 && (oddSrc a || !srcInRole role true a)) .illegal
    let l := Lvl.ofNat r.2
    return { LaneOut.empty with
      writes := if r.1.done then [] else [(valueAddr l r.1, leBytes l.vw (c.src (if l.vw = 8 then 64 else 32) a))] }) ∧
  (∀ x : CreadOp, WhenIssued x.h fun s gid g o => x.ca.toNat < (roleOf s g).curs →
    dstInRole (roleOf s g) false false x.d = true →
    let len := instrLen x.h false
    let part := takingPart o x.h .w32 s.cycle
    let s0 := occupy (setGroup s gid o) o (beatCount .w32 part)
    let ctx := fun i => (⟨o, x.h, i, s0.cycle + beatOffset .w32 part i⟩ : LaneCtx)
    (part = [] → exec (.cval x) s = Ends s gid o 1 (advance o len)) ∧
    (part ≠ [] → ∀ (k : Walker) (recs : List (Nat × Nat)),
      runLanes (fun i => do
        let r ← (ctx i).readWith x.ca.toNat fun l =>
          throwIf (l.vw == 8 && (oddDst x.d || !dstInRole (roleOf s g) false true x.d)) .illegal
        return { LaneOut.empty with val := r.2 }) part (Walker.start s0 o) [] =
        (k, recs.map fun e => (e.1, .ok { LaneOut.empty with val := e.2 })) →
      let cells := recs.map fun e => (e.1, (ctx e.1).cur x.ca.toNat, Lvl.ofNat e.2)
      ∀ s2 got secs, laneReads k.s (whoOf s0 o) k.leaves ((cells.filter fun e => !e.2.1.done).map fun e =>
          ⟨e.1, .glob (valueAddr e.2.2 e.2.1), e.2.2.vw, none, false⟩) = (s2, [], got, secs) →
      let g' := cells.foldl (fun g e => writeLaneOut x.h 7 (some x.d) s2.cycle part g
        (e.1, { LaneOut.empty with
          val := match got.find? fun v => v.1 == e.1 with | some v => leNat v.2 | none => 0
          wide := e.2.2.vw == 8 })) (k.kept.foldl keepRecord o)
      capturesFit s2 gid g' = true →
      exec (.cval x) s = .next (setGroup s2 gid (advance (noteLoad (noteLoad g' k.reads) secs) len)) ∧ OnlyCursors o g'))

/-- CMOV copies a cursor with its captured record, an append cursor moving; CSAVE writes the packed cursor to an address that is a multiple of 32 and makes an append cursor invalid; CREST, its addresses multiples of 32 and its images acceptable, writes the restored cursors and remembers the reads as last loads; CPREF changes no register and no mask and moves on. An invalid cursor holds 256 zero bits and no record, which is the model's choice (log 26). (R363, R366, R377, R378, R379) -/
def Obligations.CursorImages : Prop :=
  (∀ h cd ca, CursorRuns (.cmov h cd ca) h [cd, ca] [] none false 7 fun c =>
    let cur := c.cur ca.toNat
    return { LaneOut.empty with
      curs := (if cur.valid && cur.append && decide (cd ≠ ca) then [curOut ca Cur.none 0] else []) ++
        [(cd.toNat, cur.pack, readPlace c.g (.cap ca.toNat) c.lane false c.now)] }) ∧
  (∀ h ca base off, CursorRuns (.csave h ca base off) h [ca] [(base, true)] none false 7 fun c => do
    let va := imageAddr c base off
    if va.toNat % 32 ≠ 0 then throw (.mis va)
    let cur := c.cur ca.toNat
    return { LaneOut.empty with
      curs := if cur.valid && cur.append then [curOut ca Cur.none 0] else [], writes := [(va, leBytes 32 cur.pack)] }) ∧
  (∀ h cd base off, WhenIssued h fun s gid g o => cd.toNat < (roleOf s g).curs → srcInRole (roleOf s g) true base = true →
    let len := instrLen h false
    let part := takingPart o h .w32 s.cycle
    let s0 := occupy (setGroup s gid o) o (beatCount .w32 part)
    let eas := part.map fun i => (i, imageAddr ⟨o, h, i, s0.cycle + beatOffset .w32 part i⟩ base off)
    (part = [] → exec (.crest h cd base off) s = Ends s gid o 1 (advance o len)) ∧
    (part ≠ [] → (∀ e ∈ eas, e.2.toNat % 32 = 0) → ∀ s2 got secs,
      laneReads s0 (whoOf s0 o) [] (eas.map fun e => ⟨e.1, .glob e.2, 32, none, false⟩) = (s2, [], got, secs) →
      let curs := got.map fun x => (x.1, Cur.unpack (leNat x.2))
      (∀ x ∈ curs, imageOk x.2 = true) →
      ∃ g', exec (.crest h cd base off) s = .next (setGroup s2 gid (advance (noteLoad g' secs) len)) ∧ OnlyPend o g' ∧
        g' = curs.foldl (fun g x => writeLaneOut h 7 none s2.cycle part g
          (x.1, { LaneOut.empty with curs := [(cd.toNat, (if x.2.valid then x.2.pack else 0), 0)] })) o)) ∧
  (∀ h ca n, WhenIssued h fun s gid g o => ca.toNat < (roleOf s g).curs →
    let part := takingPart o h .w32 s.cycle
    exec (.cpref h ca n) s = .next (finish (part.foldl (fun s1 i =>
      let x : LaneCtx := ⟨o, h, i, s1.cycle + beatOffset .w32 part i⟩
      let c := x.cur ca.toNat
      let v := readPlace o (.cap ca.toNat) i false x.now
      if c.valid && !c.append && !c.done then
        ((prefetchCursor c v n.toNat).run (Walker.start s1 o) : Except CErr Unit × Walker).2.s
      else s1) (setGroup s gid o)) gid o (beatCount .w32 part) (instrLen h false)))

/-- CFIN writes the pair of the fibre's first slot and the slot after its last, zeros when it has none, to the parent's entry and makes the cursor invalid. CAPP, its cursors appending and its records captured, when the heap records can be written at their scope, hold no poison and yield every chunk needed and the slots can be written, writes each lane's coordinate and value to its slot and moves its cursor one on, the heap record being the last load of a lane that read it. CAPTURE_ENTRY_FREE lets an instruction parked for a captured record execute again once one is free. The invalid cursor that CFIN leaves holds 256 zero bits, which is the model's choice (log 26). (R357, R363, R372, R373, R374, R375) -/
def Obligations.CursorAppend : Prop :=
  (∀ h ca, CursorRuns (.cfin h ca) h [ca] [] none false 7 fun c => do
    let r ← c.appCur ca.toNat
    let pair := if r.1.aux % 2 = 0 then (0, 0) else (r.1.lo, r.1.pos)
    return { LaneOut.empty with
      curs := [curOut ca Cur.none 0]
      writes := [(BitVec.ofNat 64 ((Lvl.ofNat r.2).posa + 16 * r.1.hi), leBytes 8 pair.1 ++ leBytes 8 pair.2)] }) ∧
  (∀ h ca crd val, WhenIssued h fun s gid g o => ca.toNat < (roleOf s g).curs → srcInRole (roleOf s g) false crd = true →
    srcInRole (roleOf s g) false val = true →
    let len := instrLen h false
    let part := takingPart o h .w32 s.cycle
    let s0 := occupy (setGroup s gid o) o (beatCount .w32 part)
    let ctx := fun i => (⟨o, h, i, s0.cycle + beatOffset .w32 part i⟩ : LaneCtx)
    let crown := crownOf o.core
    (part = [] → exec (.capp h ca crd val) s = Ends s gid o 1 (advance o len)) ∧
    (part ≠ [] → ∀ (k : Walker) (recs : List (Nat × Nat)),
      runLanes (fun i => do
        let r ← (ctx i).appWith ca.toNat fun l =>
          throwIf (l.vw == 8 && (oddSrc val || !srcInRole (roleOf s g) true val)) .illegal
        return { LaneOut.empty with val := r.2 }) part (Walker.start s0 o) [] =
        (k, recs.map fun e => (e.1, .ok { LaneOut.empty with val := e.2 })) →
      let lanes := recs.map fun e => (⟨e.1, (ctx e.1).cur ca.toNat, e.2, (ctx e.1).src 32 crd,
        (ctx e.1).src (if (Lvl.ofNat e.2).vw = 8 then 64 else 32) val⟩ : AppLane)
      let w := whoOf k.s o
      let ps := (lanes.flatMap fun x => x.known crown).flatMap (piecesOf k.s w)
      ∀ s1 chk, checkAccessKnown k.s w .write k.leaves ps = (s1, chk) → pageErrs chk ps = [] →
      heapScope s1 w chk.leaves crown lanes = [] → heapLost s1 chk.map crown lanes = [] →
      let gr := noteLoad (k.kept.foldl keepRecord o) (k.reads ++ heapReads chk.map crown lanes)
      capturesFit s1 gid gr = true →
      ∀ s2 (kept : List AppLane), grantLanes w chk.map lanes (storeReleases o .rlx .team part s1) [] =
        (s2, lanes.zip (kept.map .ok)) → kept.length = lanes.length →
      let gp := payOwed gr part
      let ps2 := splitWrites s2 (whoOf s2 gp) (kept.flatMap AppLane.writes)
      ∀ s3 chk2, checkAccessKnown s2 (whoOf s2 gp) .write chk.leaves (ps2.map (·.1)) = (s3, chk2) →
      chk2.stops (ps2.map (·.1)) = none →
      ∀ s4, writeMapped s3 (whoOf s2 gp) chk2.map id ps2 = (s4, .done) →
      let g' := kept.foldl (fun g x => writeLaneOut h 7 none s4.cycle part g
          (x.lane, { LaneOut.empty with curs := [curOut ca x.after x.rcd] })) gp
      exec (.capp h ca crd val) s = .next (setGroup s4 gid (advance g' len)) ∧ OnlyCursors gp g')) ∧
  (∀ s gid g, getGroup s gid = some g → g.wait = .capture → pinned s g.core < 512 → ∃ t g',
    exec (.captureEntryFree gid) s = .next t ∧ getGroup t gid = some g' ∧ g'.wait = .none ∧ g'.pc = g.pc)

namespace Sys2Proof.Machine

/-! ### Queues of a core -/

/-- An entry of the matrix queue for `op` has joined the group's open batch, with the k0 that a save of it shows, and the group stands
after its instruction. -/
def MatEnqueued (s t : State) (gid : Nat) (g : Group) (len : Nat) (op : MatOp) (k0 : DWord := 0) : Prop :=
  getGroup t gid = some (advance g len) ∧ t.mem = s.mem ∧
    ∃ e, (getCore t g.core).mat = (getCore s g.core).mat ++ [e] ∧ e.gid = gid ∧ e.team = g.team ∧ e.op = op ∧
      e.fmt = g.fmt ∧ e.batch = g.nextBatch ∧ e.finish = none ∧ e.k0 = k0

/-- What TLD and TST do at issue with their operands allocated and room in the queue (R390, R393). -/
def TileMemRuns (mk : TileMem → Instr) (k : Kind) (op : Nat → DWord → Int → Nat → MatOp) : Prop :=
  ∀ x : TileMem, WhenIssued x.h fun s gid g o => tileOk (roleOf s g) x.t = true →
    srcInRole (roleOf s g) true x.addr = true → srcInRole (roleOf s g) false x.cnt = true →
    queueFull (getCore s o.core) .mat = false →
    let len := instrLen x.h false
    let s0 := setGroup s gid o
    (actsIn o x.h s.cycle = none → exec (mk x) s = Ends s gid o 1 (advance o len)) ∧
    (∀ i, actsIn o x.h s.cycle = some i →
      let a := BitVec.ofNat 64 (readSrc o x.h i s.cycle 64 x.addr)
      let count := if x.all then 64 else min (readSrc o x.h i s.cycle 32 x.cnt) 64
      let lines := lineAddrs a (x.stride.toInt * 32) count
      let ps := (lines.map fun va => { lineItem va with lane := i }).flatMap (piecesOf s0 (whoOf s0 o))
      a.toNat % 32 = 0 → ∀ s1 chk, checkAccess s0 (whoOf s0 o) k ps = (s1, chk) → chk.bad = [] → walkLost chk.map = none →
      ∃ t, exec (mk x) s = .next t ∧ getGroup t gid = some (advance o len) ∧ t.mem = s1.mem ∧
        ∃ e, (getCore t o.core).mat =
            (getCore s1 o.core).mat ++ [e] ∧
          e.gid = gid ∧ e.op = op x.t.toNat a (x.stride.toInt * 32) count ∧ e.batch = o.nextBatch ∧
          e.pages = keepLeaves s1 (whoOf s0 o) chk.map (distinct (ps.map fun p => p.sec.page)))

/-- What an instruction that acts on a tile or an accumulator at issue does, its operands allocated and nothing in the queue that
names it (R388): the group's tiles and accumulators stand as given and a result is interlocked. -/
def MatDirect (i : Instr) (h : Hdr) (ok : Role → Bool) (tile acc : Option Nat) (act : Group → Nat → Group → Prop)
    (beats : Group → Nat → Nat) : Prop :=
  WhenIssued h fun s gid g o => ok (roleOf s g) = true → namedBy s gid o tile acc = false →
    ∃ g', exec i s = .next (setGroup (occupy s o (beats o s.cycle)) gid (advance g' (instrLen h false))) ∧ act o s.cycle g'

/-- What an engine instruction with an entry of its own does (R444–R446): when its guard fails it only moves on; with room in its
queue, its engine not dead, and a block that can be read, the core pushes, the entry joins the end of its queue with its snapshot, the
block is the last load of the lane that read it, and the ticket is the result. -/
def EngineRuns (mk : EngOp → Instr) (q : Queue) (opc size : Nat) : Prop :=
  ∀ x : EngOp, WhenIssued x.h fun s gid g o => dstInRole (roleOf s g) x.h.uni true x.d = true →
    let len := instrLen x.h x.disp.isSome
    (actsIn o x.h s.cycle = none → exec (mk x) s = Ends s gid o 1 (advance o len)) ∧
    (∀ lane, actsIn o x.h s.cycle = some lane → queueFull (getCore s o.core) q = false →
      engineDead s (engineOf o.core opc) = false → ∀ s1 b p secs,
      fetchBlock (setGroup s gid o) o lane (blockAddr o x.h x.sb x.disp s.cycle) size = (s1, .ok (b, p, secs)) →
      let s2 := pushForEntry s1 o.core o.team
      let n := s2.nextId
      ∀ s3 e, takeSnap { s2 with nextId := n + 1 } o.core (newEntry { s2 with nextId := n + 1 } gid o n opc b p) = (s3, e) →
      let c := getCore s3 o.core
      let g' := writeTicket (noteBlock o x.h lane secs) .variable x.h s3.cycle x.d (blockSeq b + queueNum q * 2 ^ 48)
      exec (mk x) s = .next (finish (setCore s3 o.core (setEntries c q (entriesOf c q ++ [e]))) gid g' 1 len) ∧
      g' = { withPend o g'.pend with lastLoad := g'.lastLoad } ∧ e.opc = opc ∧ e.team = o.team ∧ e.block = b ∧ e.stamp = p ∧
      e.st = .waiting)

/-- What a ring instruction does (R446, R451–R453): with its guard false it only moves on; at a stage that may, with a count within
the ring's and room in the queue, an entry joins the ring queue, its result owed. -/
def RingRuns (mk : RingOp → Instr) (op : Nat) : Prop :=
  ∀ x : RingOp, WhenIssued x.h fun s gid g o => dstInRole (roleOf s g) x.h.uni true x.d = true →
    let len := instrLen x.h false
    (actsIn o x.h s.cycle = none → exec (mk x) s = Ends s gid o 1 (advance o len)) ∧
    (actsIn o x.h s.cycle ≠ none → queueFull (getCore s o.core) .ring = false →
      (ringOk (setGroup s gid o) o op x.ring.toNat (x.n1.toNat + 1) = true →
        let s1 := pushForEntry (setGroup s gid o) o.core o.team
        let s2 := if op % 2 = 1 then releaseAt s1 o.core o.team .dev else s1
        ∃ t g' e, exec (mk x) s = .next t ∧ getGroup t gid = some (advance g' len) ∧ OnlyPend o g' ∧
          g' = writeTicket o (.owed e.id) x.h t.cycle x.d 0 ∧ (getCore t o.core).ring = (getCore s2 o.core).ring ++ [e] ∧ e.op = op ∧
          e.gid = gid ∧ e.ring = x.ring.toNat ∧ e.n = x.n1.toNat + 1 ∧ e.pc = o.pc ∧
          e.first = readPlace o (.s x.sb.toNat) 0 x.h.uni s.cycle % 2 ^ 32) ∧
      (ringOk (setGroup s gid o) o op x.ring.toNat (x.n1.toNat + 1) = false →
        exec (mk x) s = .next (raise (setGroup s gid o) gid o len ⟨13, 0, 0, o.mask, []⟩)))

/-- Clauses about a system instruction that acts once (R454): it only moves on when its guard fails, and else gives the state. -/
def OnceRuns (i : Instr) (h : Hdr) (srcs : List (Src × Bool)) (act : State → Nat → Group → Nat → State) : Prop :=
  WhenIssued h fun s gid g o => (∀ x ∈ srcs, srcInRole (roleOf s g) x.2 x.1 = true) →
    (actsIn o h s.cycle = none → exec i s = Ends s gid o 1 (advance o (instrLen h false))) ∧
    (∀ lane, actsIn o h s.cycle = some lane → exec i s = .next (act (setGroup s gid o) gid o lane))

/-- The held copies of a core that `p` selects are gone, the others stand, and the group stands after its instruction. -/
def DropsHeld (s : State) (gid : Nat) (g : Group) (len : Nat) (p : HeldBytes → Bool) : State :=
  finish { s with mem := { s.mem with held := s.mem.held.filter fun e => !(e.core == g.core && p e) } } gid g 1 len

/-- The translations of the group's partition that `p` selects are gone from every TLB. -/
def Invalidated (s : State) (gid : Nat) (g : Group) (len : Nat) (p : TlbEntry → Bool) : State :=
  finish { s with mem := { s.mem with tlbs := s.mem.tlbs.filter fun e => !(e.part == (whoOf s g).part && p e) } } gid g 1 len

end Sys2Proof.Machine

/-- TZERO clears its tile and no other, ACLR its accumulator and no other, when they act. AWR writes the elements its lanes and columns name and keeps every other element; ARD writes the elements its lanes and columns name to their registers, at once, makes the first of a lane its l0 and the old l0 its l1, and keeps every other place. Each moves on, and no mask, flag or special register differs. (R75, R381, R383, R388, R394, R399, R400) -/
def Obligations.TilesAndAccumulators : Prop :=
  (∀ h t, MatDirect (.tzero h t) h (fun r => tileOk r t) (some t.toNat) none (fun o now g' =>
    g' = { o with tiles := g'.tiles } ∧ (actsIn o h now = none → g' = o) ∧
    (actsIn o h now ≠ none → ∀ k, cget g'.tiles k = if k / 2048 = t.toNat then 0 else cget o.tiles k)) (fun _ _ => 1)) ∧
  (∀ h a, MatDirect (.aclr h a) h (fun r => accOk r a) none (some a.toNat) (fun o now g' =>
    g' = { o with acc := g'.acc } ∧ (actsIn o h now = none → g' = o) ∧
    (actsIn o h now ≠ none → ∀ k, cget g'.acc k = if k / 4096 = a.toNat then 0 else cget o.acc k)) (fun _ _ => 1)) ∧
  (∀ x : AccMove, MatDirect (.ard x) x.h (accMoveOk x) none (some x.acc.toNat) (fun o now g' =>
    g' = { o with v := g'.v, pend := g'.pend } ∧
    (∀ e ∈ accMoveCells x (takingPart o x.h .w32 now), newestAt g' (.v (x.v.toNat + e.2.2)) e.1 =
      (accElem o x.acc.toNat e.2.1 (x.col.toNat + e.2.2), some 0, none)) ∧
    (∀ lane ∈ takingPart o x.h .w32 now,
      newestAt g' (.l 0) lane = (accElem o x.acc.toNat ((if x.hi then 32 else 0) + lane) x.col.toNat, some 0, none) ∧
      newestAt g' (.l 1) lane = newestAt o (.l 0) lane) ∧
    (∀ p lane, lane < 32 → (∀ e ∈ accMoveCells x (takingPart o x.h .w32 now), (p, lane) ≠ (.v (x.v.toNat + e.2.2), e.1)) →
      (lane ∈ takingPart o x.h .w32 now → p ≠ .l 0 ∧ p ≠ .l 1) → newestAt g' p lane = newestAt o p lane))
    (fun o now => beatCount .w32 (takingPart o x.h .w32 now))) ∧
  (∀ x : AccMove, MatDirect (.awr x) x.h (accMoveOk x) none (some x.acc.toNat) (fun o now g' =>
    let part := takingPart o x.h .w32 now
    g' = { o with acc := g'.acc } ∧
    (x.col.toNat + x.n1.toNat < 64 → ∀ e ∈ accMoveCells x part,
      cget g'.acc (accKey x.acc.toNat e.2.1 (x.col.toNat + e.2.2)) =
        BitVec.ofNat 32 (readPlace o (.v (x.v.toNat + e.2.2)) e.1 false (now + beatOffset .w32 part e.1))) ∧
    (∀ k, (∀ e ∈ accMoveCells x part, k ≠ accKey x.acc.toNat e.2.1 (x.col.toNat + e.2.2)) →
      cget g'.acc k = cget o.acc k)) (fun o now => beatCount .w32 (takingPart o x.h .w32 now)))

/-- With room in the matrix queue: TLD and TST, their address a multiple of 32 and every line translated, MMA and MMAS under an accepted format, ACVT of an accepted type and TASM once its lanes have gathered each append one entry that carries the operation, the format register and the open batch, and move on; a once-per-group one that does not act only moves on. (R384, R385, R386, R390, R393, R395, R396, R401, R402) -/
def Obligations.MatrixIssue : Prop :=
  TileMemRuns .tld .read MatOp.tld ∧ TileMemRuns .tst .write MatOp.tst ∧
  (∀ (x : MmaOp) (scaled : Bool), WhenIssued x.h fun s gid g o =>
    accOk (roleOf s g) x.ad = true → tileOk (roleOf s g) x.ta = true → tileOk (roleOf s g) x.tb = true →
    (scaled = true → tileOk (roleOf s g) x.ts = true) → srcInRole (roleOf s g) false x.rows = true →
    mmaAccepts o.fmt scaled = true → queueFull (getCore s o.core) .mat = false →
    let m : Nat := match lowestEnabled o with
      | none => 0
      | some i => if x.all then 64 else min (readSrc o x.h i s.cycle 32 x.rows) 64
    ∃ t, exec (if scaled then .mmas x else .mma x) s = .next t ∧
      MatEnqueued s t gid o (instrLen x.h false)
        (.mma x.ad.toNat x.ta.toNat x.tb.toNat (if scaled then some x.ts.toNat else none) m (rowsLive o m))) ∧
  (∀ h t acc part ty, WhenIssued h fun s gid g o =>
    tileOk (roleOf s g) t = true → accOk (roleOf s g) acc = true → (ty = .i8 → fmtAcc o.fmt = false) →
    queueFull (getCore s o.core) .mat = false →
    (actsIn o h s.cycle = none → exec (.acvt h t acc part ty) s = Ends s gid o 1 (advance o (instrLen h false))) ∧
    (actsIn o h s.cycle ≠ none → ∃ u, exec (.acvt h t acc part ty) s = .next u ∧
      MatEnqueued s u gid o (instrLen h false) (.acvt t.toNat acc.toNat part.toNat ty))) ∧
  (∀ h t ca k0 hi w16, WhenIssued h fun s gid g o =>
    tileOk (roleOf s g) t = true → ca.toNat < (roleOf s g).curs → srcInRole (roleOf s g) false k0 = true →
    queueFull (getCore s o.core) .mat = false →
    let part := takingPart o h .w32 s.cycle
    let s0 := setGroup s gid o
    ∀ (k : Walker) (oks : List (Nat × LaneOut)),
    runLanes (fun i => gatherLane ⟨o, h, i, s0.cycle + beatOffset .w32 part i⟩ ca k0 (if w16 then 16 else 8)) part
      (Walker.start s0 o) [] = (k, oks.map fun x => (x.1, .ok x.2)) →
    let g' := noteLoad
      (oks.foldl (fun g x => x.2.curs.foldl (fun g c => putCursor g k.s.cycle x.1 c) g) (k.kept.foldl keepRecord o)) k.reads
    capturesFit k.s gid g' = true →
    ∃ u, exec (.tasm h t ca k0 hi w16) s = .next u ∧
      g' = { o with c := g'.c, cap := g'.cap, pend := g'.pend, lastLoad := g'.lastLoad } ∧
      MatEnqueued k.s u gid g' (instrLen h false)
        (.tasm t.toNat hi (gatheredBytes (oks.map fun x => (x.1, x.2.val))) (maskOf part))
        (BitVec.ofNat 64 ((part.head?).elim 0 fun i => readSrc o h i (s.cycle + beatOffset .w32 part i) 32 k0)))

/-- When the next entry of a core's matrix queue that has not performed may start: a TLD whose lines are read writes its tile, a TST whose lines are written changes no tile, a TASM writes the half tile it gathered, an ACVT writes the converted tile and an MMA writes the live rows of its accumulator and holds the array for its busy time, to retire 12 cycles after that; the entry is then marked finished. MATRIX_ENTRY_RETIRE takes the first entry whose time has come off the queue and adds its terms to the core's counters; with no entry in its storage queue, of which a write held back might now take its snapshot, memory is unchanged. (R101, R106, R108, R387, R390, R393, R395, R396, R398, R401) -/
def Obligations.MatrixPerforming : Prop :=
  (∀ s core before e rest g, nextEntry (getCore s core) = some (before, e, rest) → matMayStart s core before e = true →
    entryGroup s core e.gid = some g →
    let mark (t : State) (till : Nat) (terms : List Nat) : State := setCore t core { getCore t core with
      mat := (getCore t core).mat.map fun x => if x.id == e.id then { x with finish := some till, terms := terms } else x }
    (∀ t a st n s1 lines, e.op = .tld t a st n →
      readRuns s (whoOf s g) (leafMap e.pages) ((lineAddrs a st n).map fun va => lineItem va) = (s1, .ok lines) →
      exec (.tldPerform core) s =
        .next (mark (putEntryGroup s1 core e.gid (setTile g t fun n => leNat (lines.getD n []))) s1.cycle [])) ∧
    (∀ t a st n s1, e.op = .tst t a st n →
      let items := ((lineAddrs a st n).zipIdx).map fun x => (lineItem x.1, leBytes 32 (tileLine g t x.2))
      (∀ c ∈ distinct (items.map (·.1.sec)), fillsPoison s (whoOf s g) items c = none) →
      writeRuns s (whoOf s g) (leafMap e.pages) items = (s1, true) →
      let s2 := noteEntry s core .mat e.id s1
      exec (.tstPerform core) s = .next (mark s2 s2.cycle [])) ∧
    (∀ t hi cells m, e.op = .tasm t hi cells m →
      exec (.tasmPerform core) s = .next (mark (putEntryGroup s core e.gid
        { g with tiles := csetMany g.tiles (t * 2048 + if hi then 1024 else 0) cells }) s.cycle [])) ∧
    (∀ t a part ty, e.op = .acvt t a part ty →
      exec (.acvtPerform core) s =
        .next (mark (putEntryGroup s core e.gid (setTile g t fun n => acvtLine g e.fmt ty a part n)) s.cycle [])) ∧
    (∀ a ta tb ts m live c t u, e.op = .mma a ta tb ts m live → classOf e.fmt = some (c, t, u) →
      let rows := liveRows live
      let terms := rows.map fun i => rowTerms c t (fmtFtz e.fmt) (tileLine g ta i)
      let busy := busyTime (passesOf u) terms
      ∃ s1, exec (.mmaExecute core) s = .next (mark s1 (s.cycle + busy + 12) (termAdds (passesOf u) terms)) ∧
        (getCore s1 core).arrayFree = s.cycle + busy ∧
        entryGroup s1 core e.gid = some (rows.foldl (mmaRow g e.fmt c t u a ta tb ts) g))) ∧
  (∀ s core x, (getCore s core).mat.find? (fun e => match e.finish with | some t => decide (t ≤ s.cycle) | none => false) =
        some x → ∃ t, exec (.matrixEntryRetire core) s = .next t ∧
      (getCore t core).mat = (getCore s core).mat.filter (fun y => y.id != x.id) ∧
      (getCore t core).termc = ((getCore s core).termc.zipIdx).map (fun y => y.1 + BitVec.ofNat 64 (x.terms.getD y.2 0)) ∧
      ((getCore s core).sto = [] → t.mem = s.mem))

/-- MFENCE, when it acts, closes the group's open batch and gives its number, from 1 to 2^32 - 1 in turn, as an interlocked result; MWAITB of a batch that has retired, or of none, moves on and else the group waits for it; MWAITB_WAKE lets it go on once no entry of that batch or an earlier one is left. (R388, R391, R402, R403) -/
def Obligations.Batches : Prop :=
  (∀ h d, WhenIssued h fun s gid g o => dstInRole (roleOf s g) h.uni false d = true →
    let len := instrLen h false
    let part := takingPart o h .w32 s.cycle
    (actsIn o h s.cycle = none → exec (.mfence h d) s = Ends s gid o 1 (advance o len)) ∧
    (actsIn o h s.cycle ≠ none → ∃ g', exec (.mfence h d) s = Ends s gid o 1 (advance g' len) ∧
      g' = { o with nextBatch := o.nextBatch + 1, v := g'.v, o := g'.o, s := g'.s, pend := g'.pend } ∧
      (h.uni = false → ∀ lane ∈ part, LaneHolds o g' .inter h.ver (s.cycle + beatOffset .w32 part lane) d false lane
        (o.nextBatch % (2 ^ 32 - 1) + 1)) ∧
      (h.uni = true → newestAt g' (.s (dstSreg d)) 0 = (o.nextBatch % (2 ^ 32 - 1) + 1, some 0, none)) ∧
      (∀ p lane, lane < 32 → (h.uni = false → lane ∈ part → p ∉ Place.l 0 :: .l 1 :: dstPlaces false d) →
        (h.uni = true → p ≠ .s (dstSreg d)) → newestAt g' p lane = newestAt o p lane))) ∧
  (∀ h a all, WhenIssued h fun s gid g o => srcInRole (roleOf s g) false a = true →
    let len := instrLen h false
    let target := fun i => if all then (if o.nextBatch = 0 then none else some (o.nextBatch - 1))
      else batchNumbered o.nextBatch (readSrc o h i s.cycle 32 a)
    (actsIn o h s.cycle = none → exec (.mwaitb h a all) s = Ends s gid o 1 (advance o len)) ∧
    (∀ i, actsIn o h s.cycle = some i →
      (target i = none → exec (.mwaitb h a all) s = Ends s gid o 1 (advance o len)) ∧
      (∀ b, target i = some b → outstanding (getCore s o.core) gid b = false →
        exec (.mwaitb h a all) s = Ends s gid o 1 (advance o len)) ∧
      (∀ b, target i = some b → outstanding (getCore s o.core) gid b = true → ∃ t g', exec (.mwaitb h a all) s = .next t ∧
        getGroup t gid = some g' ∧ g'.wait = .batch b ∧ g'.pc = g.pc))) ∧
  (∀ s gid g b, getGroup s gid = some g → g.wait = .batch b → outstanding (getCore s g.core) gid b = false →
    ∃ t g', exec (.mwaitbWake gid) s = .next t ∧ getGroup t gid = some g' ∧ g'.wait = .none ∧
      g'.pc = g.pc + BitVec.ofNat 64 g.parkLen)

/-- CPYT, CPYC, CSUM, DECQ, STQ, NETQ, TOPK and RMV, when they act, with room in their queue, their engine not dead, and a block and stamp that can be had, append an entry that carries the block and the stamp, and answer the ticket of sequence and queue; the block is the last load of the lane that read it. CPY does the same, or joins the open copy that counts its group, and leaves the other copies as they are. QSTAT answers the team's entries, all entries and the capacity of a queue. LAUNCH with its guard false only moves on. With a block that can be read at a multiple of 64, it answers 2 when the queue is not bound, not enabled or not its partition's, and otherwise, after a release at .sys, appends the block to the queue and answers what appending gives. (R281, R408, R426, R428, R442, R444, R445, R446, R447, R448, R449, R450) -/
def Obligations.EnginesAndLaunch : Prop :=
  EngineRuns .cpyt .cpy 0xC1 128 ∧ EngineRuns .cpyc .cpy 0xC2 64 ∧ EngineRuns .csum .cpy 0xC3 64 ∧
  EngineRuns .decq .dec 0xC4 64 ∧ EngineRuns .stq .sto 0xC5 64 ∧ EngineRuns .netq .sto 0xC6 64 ∧
  EngineRuns .topk .root 0xC7 64 ∧ EngineRuns .rmv .root 0xC8 64 ∧
  (∀ h sb d mask, WhenIssued h fun s gid g o => dstInRole (roleOf s g) h.uni true d = true →
    let len := instrLen h true
    (actsIn o h s.cycle = none → exec (.cpy h sb d mask) s = Ends s gid o 1 (advance o len)) ∧
    (∀ lane, actsIn o h s.cycle = some lane → ∀ s1 b p secs,
      fetchBlock (setGroup s gid o) o lane (blockAddr o h sb none s.cycle) 64 = (s1, .ok (b, p, secs)) →
      let s2 := pushForEntry s1 o.core o.team
      let own := if cpyOk b then (getCore s2 o.core).cpy.find? (takesSlice o gid b) else none
      let g' := writeTicket (noteBlock o h lane secs) .variable h s2.cycle d (blockSeq b + queueNum .cpy * 2 ^ 48)
      (own = none → queueFull (getCore s2 o.core) .cpy = false → engineDead s2 (engineOf o.core 0xC0) = false →
        ∃ t e, exec (.cpy h sb d mask) s = .next t ∧ getGroup t gid = some (advance g' len) ∧
        (getCore t o.core).cpy = (getCore s2 o.core).cpy ++ [e] ∧ e.opc = 0xC0 ∧ e.block = b ∧ e.stamp = p ∧
        e.slices = [⟨gid, b⟩] ∧ e.role = copyRole o b) ∧
      (∀ e, own = some e → ∃ t w, exec (.cpy h sb d mask) s = .next t ∧ getGroup t gid = some (advance g' len) ∧
        (getCore t o.core).cpy =
          (getCore s2 o.core).cpy.map fun x => if x.id == e.id then joinCopy gid b w x else x))) ∧
  (∀ h d q, WhenIssued h fun s gid g o => dstInRole (roleOf s g) h.uni true d = true →
    let c := getCore s o.core
    (actsIn o h s.cycle = none → exec (.qstat h d q) s = Ends s gid o 1 (advance o (instrLen h false))) ∧
    (actsIn o h s.cycle ≠ none → exec (.qstat h d q) s = Ends s gid o 1 (advance (writeTicket o .variable h s.cycle d
      (queueMine c q o.team + (queueIds c q).length * 2 ^ 8 + queueCap q * 2 ^ 16)) (instrLen h false)))) ∧
  (∀ (x : EngOp) q, WhenIssued x.h fun s gid g o => dstInRole (roleOf s g) x.h.uni true x.d = true →
    let len := instrLen x.h x.disp.isSome
    let src := blockAddr o x.h x.sb x.disp s.cycle
    (actsIn o x.h s.cycle = none → exec (.launch x q) s = Ends s gid o 1 (advance o len)) ∧
    (∀ lane, actsIn o x.h s.cycle = some lane → src.toNat % 64 = 0 → ∀ s1 blk secs,
      readBlock (setGroup s gid o) o lane src 128 = (s1, .ok (blk, secs)) →
      let o1 := noteBlock o x.h lane secs
      (tget s1.queues q.toNat = none →
        exec (.launch x q) s = .next (finish s1 gid (writeTicket o1 .variable x.h s1.cycle x.d 2) 1 len)) ∧
      (∀ b, tget s1.queues q.toNat = some b → queueCtx s1 b = none →
        exec (.launch x q) s = .next (finish s1 gid (writeTicket o1 .variable x.h s1.cycle x.d 2) 1 len)) ∧
      (∀ b part ctx, tget s1.queues q.toNat = some b → queueCtx s1 b = some (part, ctx) →
        (part ≠ (whoOf s1 o).part ∨ b.enabled = false →
          exec (.launch x q) s = .next (finish s1 gid (writeTicket o1 .variable x.h s1.cycle x.d 2) 1 len)) ∧
        (part = (whoOf s1 o).part → b.enabled = true → ∀ s2 v,
          appendBlock (releaseAt s1 o.core o.team .sys) q.toNat b (scheduler part ctx) blk = (s2, v) →
          exec (.launch x q) s = .next (finish s2 gid (writeTicket o1 .variable x.h s2.cycle x.d v) 1 len)))))

/-- For each ring instruction: with the guard false it only moves on; from the stage that may issue it, for at most the ring's slots, with room in the queue, its entry joins the ring queue and its result is owed; from any other stage or for more slots it raises class 13. When no QFENCE holds back the first entry of a core's ring queue, and its ring exists, it asks at the ring's slice, once, in the order of arrival; while another core's request of its kind is earlier it waits; else what its operation gives on the counters is what happens: the ring's new counters and published and released marks replace the old, the result reaches its group and the entry leaves the queue, a group that waits with its fault for its ring results entering its handler with the last of them; it waits; or its slot is not held and the entry's context ends. (R421, R446, R451, R452, R453) -/
def Obligations.Rings : Prop :=
  RingRuns .rres 0 ∧ RingRuns .rpub 1 ∧ RingRuns .rtake 2 ∧ RingRuns .rrel 3 ∧
  (∀ s core e rest r, (getCore s core).ring = e :: rest → fencesAllow (getCore s core) .ring e.id = true →
    entryRing s e = some r → ∀ s1 e1, askRing s core e = (s1, e1) →
    (∃ n, e1 = { e with asked := some n } ∧ (∀ m, e.asked = some m → n = m) ∧ (e.asked = none → n = s.nextId)) ∧
    (earlierAsk s1 e1 r = true → exec (.ringEntryPerform core) s = .next s1) ∧
    (earlierAsk s1 e1 r = false →
      (ringAct r e = .wait → exec (.ringEntryPerform core) s = .next s1) ∧
      (∀ r' v, ringAct r e = .done r' v → ∃ t, exec (.ringEntryPerform core) s = .next t ∧
        (getCore t core).ring = rest ∧
        t.rings = s.rings.map (fun x => if x.lead == r.lead && x.num == r.num then r' else x) ∧
        (∀ g, getGroup s e.gid = some g → ∃ g', getGroup t e.gid = some g' ∧
          ((∀ r, g.wait ≠ .trap r) → g'.pend = (payRing g e.id v).pend) ∧
          (∀ x, g.wait = .trap x → g.core = core → (∀ y ∈ rest, y.gid ≠ e.gid) →
            g'.pend = (commitAll (payRing g e.id v) s.cycle).pend ∧ g'.v = (commitAll (payRing g e.id v) s.cycle).v ∧
            g'.s = (commitAll (payRing g e.id v) s.cycle).s ∧ g'.pc = handlerOf s g ∧ g'.trappc = g.pc ∧ g'.wait = .none))) ∧
      (ringAct r e = .bad → ∃ t u rec, exec (.ringEntryPerform core) s = .next t ∧ t = endContext u rec ∧ rec.cls = 13 ∧
        (getCore u core).ring = rest)))

/-- RINV of an index, of all, of a level record drops exactly the copies of its core and grid it names. TLBI of a page, a context, the partition drops the translations of its own partition it names from every TLB when its context is privileged, and raises PRIVILEGE otherwise. SSET %rngstate writes each lane's generator, 1 for zero; SSET %trapvec writes the team's register when the value is a multiple of 8 and raises MISALIGNED otherwise. (R95, R225, R454, R455, R457, R458) -/
def Obligations.SystemInstructions : Prop :=
  (∀ h a, OnceRuns (.rinvIndex h a) h [(a, false)] fun s gid o lane => DropsHeld s gid o (instrLen h false) fun e =>
    (e.kind == heldRecord || e.kind == heldTable) && e.owner == gridIdOf s o && e.num == readSrc o h lane s.cycle 32 a) ∧
  (∀ h, OnceRuns (.rinvAll h) h [] fun s gid o _ => DropsHeld s gid o (instrLen h false) fun e =>
    (e.kind == heldRecord || e.kind == heldTable) && e.owner == gridIdOf s o) ∧
  (∀ h a, OnceRuns (.rinvLevel h a) h [(a, true)] fun s gid o lane => DropsHeld s gid o (instrLen h false) fun e =>
    e.kind == heldLevel && e.owner == gridIdOf s o && e.num == readSrc o h lane s.cycle 64 a) ∧
  (∀ h va ctx, OnceRuns (.tlbiPage h va ctx) h [(va, true), (ctx, false)] fun s gid o lane =>
    if privileged s o then Invalidated s gid o (instrLen h false) fun e =>
      e.ctx == readSrc o h lane s.cycle 32 ctx && e.page == readSrc o h lane s.cycle 64 va / 2 ^ e.leaf.shift
    else raise s gid o (instrLen h false) ⟨14, 0, 0, o.mask, []⟩) ∧
  (∀ h ctx, OnceRuns (.tlbiCtx h ctx) h [(ctx, false)] fun s gid o lane =>
    if privileged s o then Invalidated s gid o (instrLen h false) fun e => e.ctx == readSrc o h lane s.cycle 32 ctx
    else raise s gid o (instrLen h false) ⟨14, 0, 0, o.mask, []⟩) ∧
  (∀ h, OnceRuns (.tlbiPart h) h [] fun s gid o _ =>
    if privileged s o then Invalidated s gid o (instrLen h false) fun _ => true
    else raise s gid o (instrLen h false) ⟨14, 0, 0, o.mask, []⟩) ∧
  (∀ h a, WhenIssued h fun s gid g o => srcInRole (roleOf s g) false a = true →
    let part := takingPart o h .w32 s.cycle
    ∃ rng, exec (.ssetRngstate h a) s =
        Ends s gid o (beatCount .w32 part) (advance { o with rng := rng } (instrLen h false)) ∧
      (∀ i, cget rng i = if i ∈ part then
        (let v : Word := BitVec.ofNat 32 (readSrc o h i (s.cycle + beatOffset .w32 part i) 32 a)
         if v = 0 then 1 else v) else cget o.rng i)) ∧
  (∀ h a, OnceRuns (.ssetTrapvec h a) h [(a, true)] fun s gid o lane =>
    let v : DWord := BitVec.ofNat 64 (readSrc o h lane s.cycle 64 a)
    if v.toNat % 8 = 0 then
      match getTeam s o.team with
      | some t => finish (setTeam s o.team { t with trapvec := v }) gid o 1 (instrLen h false)
      | none => finish s gid o 1 (instrLen h false)
    else raise s gid o (instrLen h false) ⟨10, 0, 0, o.mask, [(lane, v)]⟩)

/-- TRAP with a lane taking part makes every result due and raises class 3 with its code and lanes. BRK with a lane taking part and debugging enabled parks its group and writes a record of class 17 with its code that awaits an action; otherwise it only moves on. WAITT at or past its deadline answers %time and else parks until it; WAITT_DEADLINE_REACHED, at or past the deadline read, answers %time in the lanes that took part and ends the wait. A word whose opcode is unassigned raises ILLEGAL_ENCODING. (R113, R133, R454, R456, R459, R466, R484) -/
def Obligations.TrapsBreakpointsAndWaitt : Prop :=
  (∀ h code, WhenIssued h fun s gid _ o =>
    let part := takingPart o h .w32 s.cycle
    (part = [] → exec (.trap h code) s = Ends s gid o 1 (advance o (instrLen h false))) ∧
    (part ≠ [] → exec (.trap h code) s = .next (raise (occupy (setGroup s gid o) o 1) gid (commitAll o s.cycle) (instrLen h false)
      ⟨3, 0, code.toNat, maskOf part, []⟩))) ∧
  (∀ h code, WhenIssued h fun s gid _ o =>
    let part := takingPart o h .w32 s.cycle
    ((part = [] ∨ debugOn s o = false) → exec (.brk h code) s = Ends s gid o 1 (advance o (instrLen h false))) ∧
    (part ≠ [] → debugOn s o = true → ∃ t g' r, exec (.brk h code) s = .next t ∧ getGroup t gid = some g' ∧
      (∃ n, g'.wait = .brk n) ∧ g'.pc = o.pc ∧ t.faults = s.faults ++ [r] ∧ r.cls = 17 ∧ r.code = code.toNat ∧
      r.lanes = maskOf part ∧ r.awaits = .brk gid)) ∧
  (∀ h d a, WhenIssued h fun s gid g o => srcInRole (roleOf s g) true a = true → dstInRole (roleOf s g) h.uni true d = true →
    (actsIn o h s.cycle = none → exec (.waitt h d a) s = Ends s gid o 1 (advance o (instrLen h false))) ∧
    (∀ lane, actsIn o h s.cycle = some lane →
      let t := readSrc o h lane s.cycle 64 a
      let lanes := if h.uni then [] else takingPart o h .w32 s.cycle
      let g1 := writeTime o h.uni d lanes s.cycle (timeOf s)
      (t ≤ timeOf s → exec (.waitt h d a) s = Ends s gid o 1 (advance g1 (instrLen h false)) ∧
        (h.uni = false → ∀ lane ∈ lanes, LaneHolds o g1 .inter h.ver s.cycle d true lane (timeOf s)) ∧
        (h.uni = true → newestAt g1 (.s (dstSreg d)) 0 = (timeOf s % 2 ^ 64, some 0, none))) ∧
      (timeOf s < t → ∃ u g', exec (.waitt h d a) s = .next u ∧ getGroup u gid = some g' ∧
        g'.wait = .deadline t h.uni d lanes ∧ g'.slice = none ∧ g'.pc = g.pc))) ∧
  (∀ s gid g t uni d lanes, getGroup s gid = some g → g.wait = .deadline t uni d lanes →
    (timeOf s < t → exec (.waittDeadlineReached gid) s = .next s) ∧
    (t ≤ timeOf s → ∃ u g', exec (.waittDeadlineReached gid) s = .next u ∧ getGroup u gid = some g' ∧ g'.wait = .none ∧
      g'.pc = g.pc + BitVec.ofNat 64 g.parkLen ∧ g'.pend = (writeTime g uni d lanes s.cycle (timeOf s)).pend ∧
      g'.v = (writeTime g uni d lanes s.cycle (timeOf s)).v ∧ g'.s = (writeTime g uni d lanes s.cycle (timeOf s)).s)) ∧
  (∀ w s gid g, s.cur = some gid → getGroup s gid = some g → exec (.unassignedOpcode w) s =
    .next (raiseIllegal (occupy s g 1) gid (openIllegal s g) (8 * Sys2Proof.wordCount w)))

namespace Sys2Proof.Machine

/-! ### Entries that perform -/

/-- What the front entry of a queue does when it carries an opcode and may start (R271, R272, R427): a malformed block ends it with
its status; else its core pushes, and a payload that runs to its end (or has run before) and whose bytes are all written ends it
with the payload's status. -/
def PerformRuns (i : Nat → Instr) (q : Queue) (opc : Nat) (ok : List Byte → Bool) (act : Entry → Eng → Payload) : Prop :=
  ∀ s core e, frontEntry (entriesOf (getCore s core) q) = some e → e.opc = opc → e.runnable = true →
    entryMayStart s core q e = true →
    ((ok e.block = false ∨ e.malformed = true) → exec (i core) s = .next (endEntry s core q e (statusOf 1 3))) ∧
    (ok e.block = true → e.malformed = false → ∀ k pos st s1 buf,
      payloadOf act e ⟨pushForEntry s core e.team, entryWho core e, e.buf⟩ = (k, pos, .ok st) →
      flushBuf core q e k.buf k.s = (s1, buf, none) →
      exec (i core) s =
        .next (endEntry s1 core q { e with st := .started, pos := pos, buf := buf, result := some st } st))

end Sys2Proof.Machine

/-- For CPY, CPYT, CPYC, CSUM, DECQ, TOPK and RMV: the front entry of its queue, when it may start, ends with MALFORMED when its block breaks a limit, and else, when its payload runs to its end and its bytes are written home, ends with the payload's status (a payload that stopped at a page goes on where it stopped): the copies made, the tensor box moved, the elements compressed, the checksum stored, the stream expanded with its length, the winners and weights of every row, the products of every row. (R271, R427, R428, R430, R431, R432, R433, R434, R435, R438, R440, R441) -/
def Obligations.EnginesPerform : Prop :=
  PerformRuns .cpyPerform .cpy 0xC0 cpyOk (fun e k =>
    let sl := e.slices.map (·.block)
    if sl.any fun b => !cpyOk b then (k, [], .ok (statusOf 1 3))
    else copyLoop sl (listSum (sl.map fun b => field b 0x20 8)) (if e.pos.isEmpty then List.replicate sl.length 0 else e.pos) k) ∧
  PerformRuns .cpytPerform .cpy 0xC1 cpytOk (fun e k =>
    elemsPayload (boxSize e.block) e.pos k (fun lin => do
      let x := boxElem e.block lin
      let size := 2 ^ field e.block 0x70 1
      if field e.block 0x71 1 = 0 then
        eWrite x.1 (← if x.2.2.1 then pure ((e.block.drop 0x78).take size) else eRead (truncInt 64 x.2.1) size)
      else if !x.2.2.1 then eWrite (truncInt 64 x.2.1) (← eRead x.1 size)) (boxStatus e.block)) ∧
  PerformRuns .cpycPerform .cpy 0xC2 (fun b => cpycOk b && (byteTy b 0x2D != .e2m1 || decide (field b 0x28 4 % 2 = 0)))
    (fun e k => elemsPayload (field e.block 0x28 4) e.pos k (cpycElem e.block) (statusOf 0 0)) ∧
  PerformRuns .csumPerform .cpy 0xC3 csumOk (fun e k => gatherPayload (field e.block 0x10 8, field e.block 0x20 8) e.pos k fun d => do
    let b := e.block
    let v := if blockOp b = 0 then crc32c (field b 0x28 8) d else crc64 (field b 0x28 8) d
    eWrite (field b 0x18 8) (leBytes 8 v)
    return statusOf 0 0) ∧
  PerformRuns .decqPerform .dec 0xC4 decqOk (fun e k => gatherPayload (field e.block 0x10 8, field e.block 0x18 4) e.pos k fun src => do
    let b := e.block
    let x := if field b 0x1C 1 = 0 then inflate (field b 0x28 4) src else lz4 (field b 0x28 4) src
    let out := x.1.take (field b 0x28 4)
    eWrite (field b 0x20 8) out
    eWrite (field b 0x30 8) (leBytes 8 out.length)
    return match x.2 with
      | .malformed => statusOf 6 1
      | .capacity => statusOf 6 2
      | .good => if field b 0x1D 1 = 1 ∧ crc32c 0 out ≠ field b 0x2C 4 then statusOf 6 3 else statusOf 0 0) ∧
  PerformRuns .topkPerform .root 0xC7 topkOk (fun e k =>
    let b := e.block
    let size := field b 0x30 2 * if field b 0x33 1 = 0 then 4 else 2
    rowsPayload (field b 0x18 8, if field b 0x18 8 = 0 then 0 else 128) (fun r => (field b 0x10 8 + r * size, size)) (field b 0x34 4)
      (topkRow b) (statusOf 0) e.pos k) ∧
  PerformRuns .rmvPerform .root 0xC8 rmvOk (fun e k =>
    let b := e.block
    rowsPayload (field b 0x18 8, field b 0x2C 4) (fun r => (field b 0x10 8 + r * field b 0x30 4, field b 0x2C 4)) (field b 0x28 4)
      (rmvRow b) (fun _ => statusOf 0 0) e.pos k)

/-- STQ_SUBMIT sends the next command when its block is in order, its binding valid, no earlier command of the core holds it back and its binding's I/O queue has room (a Flush the device completes itself needs none); held back it waits, and with a wrong block or binding it ends with its status; NVME_COMPLETION ends an outstanding command with the target's status. NETQ_PERFORM sends the front operation to a bound peer, or ends it; NETQ_ACK ends it, a put, a send or a signal with success, a get with success once its data is written, a NAK with NET 2. RDMA_ACK_TIMEOUT counts a retry and sends the request again, and after the seventh fails the pair. ENGINE_ENTRY_PARK parks the first entry of a queue that met a page fault and writes its record. (R276, R277, R427, R436, R437, R468, R513, R514, R515, R516, R517) -/
def Obligations.StorageAndPeers : Prop :=
  (∀ s core e, nextStq (getCore s core).sto = some e → entryMayStart s core .sto e = true →
    (stqOk e.block = false → exec (.stqSubmit core) s = .next (endEntry s core .sto e (statusOf 1 3))) ∧
    (stqOk e.block = true → nsBinding s e.part (field e.block 0x20 2) = none →
      exec (.stqSubmit core) s = .next (endEntry s core .sto e (statusOf 1 6))) ∧
    (∀ lba wc size, stqOk e.block = true → nsBinding s e.part (field e.block 0x20 2) = some (lba, wc, size) →
      (((getCore s core).sto.any fun x => stqBlocks s x e) = false →
        (blockOp e.block = 0 ∧ wc = false ∨ outstandingAt s e < nsDepth s e) →
        exec (.stqSubmit core) s = .next (submitStq (pushForEntry s core e.team) core e wc size (stqBytes e.block lba))) ∧
      (((getCore s core).sto.any fun x => stqBlocks s x e) = true →
        exec (.stqSubmit core) s = .next s) ∧
      ((blockOp e.block ≠ 0 ∨ wc = true) → nsDepth s e ≤ outstandingAt s e → exec (.stqSubmit core) s = .next s))) ∧
  (∀ s entry core e (sct : BitVec 3) (sc : BitVec 8), storageEntry s entry = some (core, e) → e.opc = 0xC5 → e.st = .started →
    exec (.nvmeCompletion entry sct sc) s = .next (endEntry s core .sto e
      (if sct.toNat * 256 + sc.toNat = 0 then statusOf 0 0 else statusOf 5 (sct.toNat * 256 + sc.toNat)))) ∧
  (∀ s core e, frontEntry (getCore s core).sto = some e → e.opc = 0xC6 → entryMayStart s core .sto e = true →
    e.st = .waiting →
    let peer := field e.block 0x24 2
    (netqOk e.block = false → exec (.netqPerform core) s = .next (endEntry s core .sto e (statusOf 1 3))) ∧
    (netqOk e.block = true → peerBound s e.part peer = false →
      exec (.netqPerform core) s = .next (endEntry s core .sto e (statusOf 1 6))) ∧
    (netqOk e.block = true → peerBound s e.part peer = true → peerFailed s e.part peer = true →
      exec (.netqPerform core) s = .next (endEntry s core .sto e (statusOf 7 1))) ∧
    (netqOk e.block = true → peerBound s e.part peer = true → peerFailed s e.part peer = false →
      exec (.netqPerform core) s = .next (startNetq (pushForEntry s core e.team) core e))) ∧
  (∀ s entry core e nak data, storageEntry s entry = some (core, e) → e.opc = 0xC6 → e.st = .started → e.buf = [] →
    (nak = true → exec (.netqAck entry nak data) s = .next (endEntry s core .sto e (statusOf 7 2))) ∧
    (nak = false → blockOp e.block ≠ 1 →
      exec (.netqAck entry nak data) s = .next (endEntry s core .sto e (statusOf 0 0))) ∧
    (nak = false → blockOp e.block = 1 → ∀ s1 buf,
      flushBuf core .sto e (((data.take (field e.block 0x20 4)).zipIdx).foldl
        (fun t x => tset t ((field e.block 0x10 8 + x.2) % 2 ^ 64) x.1) []) s = (s1, buf, none) →
      exec (.netqAck entry nak data) s = .next (endEntry s1 core .sto e (statusOf 0 0)))) ∧
  (∀ s entry core e, storageEntry s entry = some (core, e) → e.opc = 0xC6 → e.st = .started →
    e.since + ackTimeout ≤ s.cycle →
    (e.retries < 7 → exec (.rdmaAckTimeout entry) s =
      .next (netqOut (putEntry s core .sto { e with retries := e.retries + 1, since := s.cycle }) e
        (e.snap.map fun b => b.getD 0))) ∧
    (7 ≤ e.retries → ∃ u, exec (.rdmaAckTimeout entry) s =
      .next ((listedCores u).foldl (failPair e.part (field e.block 0x24 2)) u) ∧ u.cores = s.cores ∧
      ∀ p, tget s.parts e.part = some p →
        tget u.parts e.part = some { p with failed := setIn p.failed (field e.block 0x24 2) true })) ∧
  (∀ s core q e va cause, faultingEntry (entriesOf (getCore s core) q) = some e → e.st = .faulting va cause → ∃ u n r,
    exec (.engineEntryPark core q) s = .next (record (putEntry u core q { e with st := .parked n }) r) ∧
    u.cores = s.cores ∧ r.cls = 1 ∧ r.cause = cause ∧ r.addr = va ∧ r.num = n ∧ r.awaits = .engine core e.id)

/-- BIN_TIMER_EXPIRY at or past a timer that is not frozen tries the launch, which closes the timer when there is no room; BIN_LAUNCH_DEFERRED launches a closed bin when there is room: the bin is gone and a new group with one position for each lane stands at its entry. REGROUP_MIGRATE, once the results of both groups of a pair have returned and no queue entry names them, fills the host's exited positions with the donor's lanes, the registers named with them: the predicate reads 1 in every live lane and the host stands past its REGROUP. REGROUP_TIMEOUT, when the window is over and no ring owes the group a result, answers 0 and the group goes on. (R46, R47, R48, R49, R50, R51, R52, R53) -/
def Obligations.BinsAndRendezvous : Prop :=
  (∀ s core bin b t, tget (getCore s core).bins bin = some b → b.till = some t → b.left = none → t ≤ s.cycle →
    exec (.binTimerExpiry core bin) s = .next (if mayLaunch s core b then launchBin s core bin b
      else setCore s core { getCore s core with bins := tset (getCore s core).bins bin { b with till := none } })) ∧
  (∀ s core bin b t, tget (getCore s core).bins bin = some b → b.till = none → b.left = none → mayLaunch s core b = true →
    getTeam s b.team = some t → ∃ u gid g, exec (.binLaunchDeferred core bin) s = .next (acquireAt u core b.team .team) ∧
      getGroup u gid = some g ∧ g.pc = b.entry ∧ g.role = b.role ∧ g.team = b.team ∧
      g.live = maskOf (b.lanes.map (·.pos)) ∧ tget (getCore u core).bins bin = none) ∧
  (∀ s host donor gh gd pd mask, getGroup s host = some gh → getGroup s donor = some gd → host ≠ donor →
    gh.wait = .paired host donor pd mask → gd.wait = gh.wait → pairReady s host donor = true → ∃ u g',
    exec (.regroupMigrate host donor) s = .next (retireGroup u donor) ∧ getGroup u host = some g' ∧
    g'.pc = gh.pc + BitVec.ofNat 64 gh.parkLen ∧ g'.wait = .none ∧ g'.mask = g'.live ∧
    let pairs := (below 32 gd.live.getLsbD).zip (below 32 fun i => !gh.live.getLsbD i)
    g'.live = gh.live ||| maskOf (pairs.map (·.2)) ∧
    (∀ x ∈ pairs, ∀ i < 256, cget g'.v (laneKey i x.2) = if mask.getLsbD (i / 8) then cget (commitAll gd s.cycle).v (laneKey i x.1) else 0) ∧
    (gh.pend = [] → pd < 7 → ∀ i < 32, g'.live.getLsbD i = true → newestAt g' (.p pd) i = (1, some 0, none))) ∧
  (∀ s gid g pd mask, getGroup s gid = some g → g.wait = .regroup pd mask → g.waitSince + 256 ≤ s.cycle →
    ringOwes s gid g = false → ∃ u g',
    exec (.regroupTimeout gid) s = .next u ∧ getGroup u gid = some g' ∧ g'.wait = .none ∧
    g'.pc = g.pc + BitVec.ofNat 64 g.parkLen ∧ g'.live = g.live ∧
    (g.pend = [] → pd < 7 → ∀ i < 32, g.live.getLsbD i = true → newestAt g' (.p pd) i = (0, some 0, none)))

/-- STALL_EXCHANGE puts a group with a long-latency stall into the pending set and the oldest ready group of that set into its place. EMPTY_SLOT_FILL puts the oldest ready pending group into a slice with fewer than 8. PENDING_AGE_EXPIRY puts a group that has been ready for 8192 cycles into the place of the group that has gone longest without such a stall. Only places and times change: no register, mask or program counter. Between pending groups as old as each other the order of R36 decides, which is the model's choice (log 59). (R36, R37, R38, R39) -/
def Obligations.ActiveSets : Prop :=
  (∀ s gid g i p gp, getGroup s gid = some g → g.slice = some i → pendingReady s g.core = some (p, gp) → p ≠ gid →
    stalled s gid g = true → ∃ u, exec (.stallExchange gid) s = .next u ∧
      getGroup u gid = some { g with slice := none, pendSince := s.cycle, lastStall := s.cycle } ∧
      getGroup u p = some { gp with slice := some i, age := s.cycle } ∧ u.mem = s.mem ∧ u.cores = s.cores) ∧
  (∀ s core i p gp, pendingReady s core = some (p, gp) → sliceSize s core i < 8 → i < 4 → ∃ u,
    exec (.emptySlotFill core i) s = .next u ∧ getGroup u p = some { gp with slice := some i, age := s.cycle } ∧
    (∀ n, n ≠ p → getGroup u n = getGroup s n) ∧ u.mem = s.mem ∧ u.cores = s.cores) ∧
  (∀ s gid g v gv, getGroup s gid = some g → pendingOld s gid g = true → gid ≠ v →
    firstBy (fun x => (if stalled s x.1 x.2 then s.cycle else x.2.lastStall) :: x.2.age :: issueKey s x.2)
      (s.groups.filter fun e => e.2.core == g.core && e.2.slice.isSome) = some (v, gv) → ∃ u,
    exec (.pendingAgeExpiry gid) s = .next u ∧ getGroup u v = some { gv with slice := none, pendSince := s.cycle } ∧
    getGroup u gid = some { g with slice := some (gv.slice.getD 0), age := s.cycle } ∧ u.mem = s.mem)

/-- LAUNCH_QUEUE_TAIL_WRITE of an enabled queue reads the next block when the tail is ahead by at most the queue's size and drops a queue whose tail is further ahead. BLOCK_ELIGIBLE of the first unread block whose waits are met, read at .sys, refuses it with the detail of the first check that fails, or accepts the launch. PRIORITY_AGING raises the level of a best-effort launch that has waited 10 ms, up to 7. TEAM_PLACE puts the next team of a grid on a core that takes it, with a save slot; of a stage, it places the launch whole. (R41, R62, R408, R410, R411, R413, R414, R419) -/
def Obligations.Launching : Prop :=
  (∀ s q b part ctx t h s1 s2, tget s.queues q = some b → queueCtx s b = some (part, ctx) → b.enabled = true →
    isFrozen s part = false → queueWord (tailRead s q) (scheduler part ctx) b.tailA = (s1, .ok t) →
    queueWord s1 (scheduler part ctx) b.headA = (s2, .ok h) →
    let n := (t + 2 ^ 64 - h) % 2 ^ 64
    (n = 0 → exec (.launchQueueTailWrite q) s = .next s2) ∧
    (0 < n → n ≤ 2 ^ b.size → exec (.launchQueueTailWrite q) s = .next (readNext s2 q part ctx h n b)) ∧
    (2 ^ b.size < n → exec (.launchQueueTailWrite q) s = .next (dropQueue s2 q 18 0 0))) ∧
  (∀ s gid g, tget s.grids gid = some g → g.st = .read → heldBack s gid g = false → waitsMet s g = true →
    let u := (testWaits g.waits s).1
    let timed := match tget u.queues g.queue with | some q => q.timed | none => false
    let slot := match tget u.parts g.part with | some p => p.body.slotLog | none => 0
    (∀ s1 d, (lmLaunch gid g timed slot).run u = (Except.error d, s1) →
      exec (.blockEligible gid) s = .next (refuseBlock s1 gid g d)) ∧
    (∀ s1 l, (lmLaunch gid g timed slot).run u = (Except.ok l, s1) →
      exec (.blockEligible gid) s = .next (acceptLaunch s1 gid g l))) ∧
  (∀ s gid g, tget s.grids gid = some g → g.st = .eligible → g.deadline = none → g.placed < g.teams →
    g.agedAt + 21000000 ≤ s.cycle → exec (.priorityAging gid) s = .next { s with
      grids := tset s.grids gid { g with level := min 7 (g.level + 1), agedAt := g.agedAt + 21000000 } }) ∧
  (∀ s gid core g, tget s.grids gid = some g → wantsPlace s gid g = true → g.stage = none → teamFits s g core = true →
    ∀ slot, freeSlot s g.part = some slot → ∃ u tid t, exec (.teamPlace gid core) s = .next u ∧ getTeam u tid = some t ∧
      t.grid = gid ∧ t.index = g.placed ∧ t.core = core ∧ t.slot = slot ∧ t.st = .running ∧
      tget u.grids gid = some { g with placed := g.placed + 1 }) ∧
  (∀ s gid core g n, tget s.grids gid = some g → wantsPlace s gid g = true → g.stage = some n →
    exec (.teamPlace gid core) s = .next (placePipeline s g.lead))

/-- TEAM_END removes a team whose work has ended and counts it; GRID_END closes a grid whose teams have all ended; BUDGET_OVERRUN ends a timed team that has used its budget and counts the overrun in the launch's outcome. SPLIT_DRAIN sets the split a core is to take; SPLIT_RECONFIGURE on an empty draining core gives it that split, and the core takes no team for 4,200 cycles, which is how the model reads the 2 us (log 63). (R60, R61, R66, R67, R424) -/
def Obligations.EndsAndSplits : Prop :=
  (∀ s tid t g, getTeam s tid = some t → teamDone s tid t = true → tget (removeTeam (dropWindows false s tid) tid).grids t.grid = some g →
    ∃ u, u = removeTeam (dropWindows false s tid) tid ∧ exec (.teamEnd tid) s =
      .next { u with grids := tset u.grids t.grid { g with endedTeams := g.endedTeams + 1 } }) ∧
  (∀ s gid g, tget s.grids gid = some g → gridDone s gid g = true → exec (.gridEnd gid) s = .next (closeGrid s gid g)) ∧
  (∀ s tid t g l, getTeam s tid = some t → tget s.grids t.grid = some g → g.deadline.isSome = true →
    t.placedAt + field g.block 0x70 4 ≤ s.cycle → tget (endTeam s tid 16).grids g.lead = some l → ∃ u h,
    u = endTeam s tid 16 ∧ exec (.budgetOverrun tid) s = .next { u with grids := tset u.grids g.lead h } ∧
    h.overruns = l.overruns + 1 ∧ (l.outcome = none → h.ending = some (statusOf 3 (l.overruns + 1))) ∧
    (∀ o, l.outcome = some o → o.1 < timeOf s → h.outcome = l.outcome)) ∧
  (∀ s core gid g, tget s.grids gid = some g → drainOk s core gid g = true →
    exec (.splitDrain core gid) s = .next (setCore s core { getCore s core with drain := some g.kernel.split })) ∧
  (∀ s core sp, (getCore s core).drain = some sp → coreEmpty s core = true → ∃ u,
    exec (.splitReconfigure core) s = .next u ∧ (getCore u core).split = sp ∧ (getCore u core).drain = none ∧
    (getCore u core).reconf = some (s.cycle + 4200))

/-- PREEMPT_REQUEST asks a running team that may be stopped, and stops its groups that stand at a point where they stop; with the last of them the team's bin timers freeze. HARD_PREEMPT stops a group of a team asked 100 us ago. TEAM_SAVE of a team whose groups have stopped and whose queues are quiet takes its groups off the core and leaves it saved. TEAM_RESUME onto a core that takes it loads it from its slot, and ends the context when the slot's header is damaged. (R475, R476, R477, R478, R479) -/
def Obligations.StoppingAndSaving : Prop :=
  (∀ s tid t, getTeam s tid = some t → t.st = .running → mayStop s t = true → ∃ u,
    exec (.preemptRequest tid) s = .next u ∧
    u = freezeBins ((stopsNow (setTeam s tid { t with st := .stopping s.cycle }) tid).foldl
      (fun s e => stopGroup s e.1 e.2 (pointMask e.2)) (setTeam s tid { t with st := .stopping s.cycle })) tid) ∧
  (∀ s tid t since, getTeam s tid = some t → t.st = .stopping since →
    (∀ e ∈ s.groups, e.2.team = tid → ∃ m, e.2.wait = .stopped m) → ∀ n b, tget (getCore s t.core).bins n = some b → b.team = tid →
      tget (getCore (freezeBins s tid) t.core).bins n = some { b with left := some (b.remaining s.cycle) }) ∧
  (∀ s gid g, getGroup s gid = some g → hardStops s g = true → ∃ u g', exec (.hardPreempt gid) s = .next u ∧
    getGroup u gid = some g' ∧ g'.wait = .stopped none ∧ g'.pc = g.pc) ∧
  (∀ s tid t g, getTeam s tid = some t → tget s.grids t.grid = some g → saveReady s tid t = true → ∃ u t',
    exec (.teamSave tid) s = .next u ∧ getTeam u tid = some t' ∧ t'.st = .saved ∧ t'.slot = t.slot ∧ t'.index = t.index ∧
    ∀ e ∈ u.groups, e.2.team ≠ tid) ∧
  (∀ s tid core t g s1 h bad, getTeam s tid = some t → tget s.grids t.grid = some g → resumeFits s t g core = true →
    slotRead s g.part (slotBase s g.part t.slot).1 (slotBase s g.part t.slot).2 0 256 = (s1, h, bad) →
    let ok : Bool := !bad && slotHeaderOk h (slotBase s g.part t.slot).2
    (ok = true → exec (.teamResume tid core) s = .next (loadTeam { s1 with turns := tset s1.turns g.queue s1.nextId } tid core
      t g (slotBase s g.part t.slot).1 (slotBase s g.part t.slot).2 h)) ∧
    (ok = false → ∃ r, exec (.teamResume tid core) s = .next (endContext s1 r) ∧ r.cls = 15 ∧ r.part = g.part ∧
      r.ctx = g.ctx))

/-- LOAD_DATA_RETURN lets results that are due replace what their places held. PAGE_WALK leaves what translating the address leaves. HOME_WRITE writes the masked bytes at the sector's home, with the words of the agent's untracked copy cleaned first; a write that carries another incarnation than the agent's is dropped, counted and logged. FORCED_PUBLISH publishes what a core's marks name, and its marks clear. RDC_SWEEP clears the entries of a crown that no core of it may hit and no other. The two scrubs count corrected errors and change nothing else. CODEBOOK_TABLE_ARRIVAL adds the cycles waited to the core's counter. (R119, R221, R224, R230, R231, R244, R245, R250, R265, R342, R343, R492) -/
def Obligations.MemoryEvents : Prop :=
  (∀ s gid g, getGroup s gid = some g →
    exec (.loadDataReturn gid) s = .next (setGroup s gid (retireDue g s.cycle))) ∧
  (∀ s core part ctx va write fetch, exec (.pageWalk core part ctx va write fetch) s =
    .next (translate s ⟨core, 0, part, ctx⟩ va (if fetch then .fetch else if write then .write else .read)).1) ∧
  (∀ s agent σ inc mask data, inc = incarnationOf s (if agent < 256 then .core agent else .bough (agent - 256)) →
    (∀ c, copyOf s agent σ = some c → exec (.homeWrite ⟨agent, inc⟩ σ mask data) s = .next (homeWrite
      (if c.st = .untracked then putCopy s { c with dirty := c.dirty &&& ~~~(wordsTouched mask) } else s)
      (agentCrown agent) σ mask data c.tag false none)) ∧
    (copyOf s agent σ = none → exec (.homeWrite ⟨agent, inc⟩ σ mask data) s = .next
      (homeWrite s (agentCrown agent) σ mask data (cget s.mem.tags σ) false none))) ∧
  (∀ s agent σ inc mask data, inc ≠ incarnationOf s (if agent < 256 then .core agent else .bough (agent - 256)) →
    exec (.homeWrite ⟨agent, inc⟩ σ mask data) s = .next { s with
      dropped := s.dropped ++ [⟨timeOf s, agent, inc, 64 * σ⟩]
      droppedCount := tset s.droppedCount (crownAt (64 * σ / 64)) ((tget s.droppedCount (crownAt (64 * σ / 64))).getD 0 + 1) }) ∧
  (∀ s core, ∃ u, exec (.forcedPublish core) s = .next u ∧
    u = (s.mem.marks.filter fun m => m.core == core).foldl publishMark s ∧ ∀ m ∈ u.mem.marks, m.core ≠ core) ∧
  (∀ s crown, ∃ u, exec (.rdcSweep crown) s = .next u ∧ ∀ e, e ∈ u.mem.rdc ↔ e ∈ s.mem.rdc ∧ (e.crown = crown →
    ∃ k < 64, (tget s.mem.floors (64 * crown + k)).getD 1 ≤ e.gen)) ∧
  (∀ s crown n, ∃ c, exec (.scrubDram crown n) s = .next { s with corrected := c } ∧
    exec (.scrubSram crown n) s = .next { s with corrected := c } ∧
    tget c crown = some ((tget s.corrected crown).getD 0 + n)) ∧
  (∀ s core grid index block stalled, ∃ u, exec (.codebookTableArrival core grid index block stalled) s = .next u ∧
    (getCore u core).cbstall = (getCore (fetchTable s core grid index block) core).cbstall + BitVec.ofNat 64 stalled)

namespace Sys2Proof.Machine

/-- An uncorrectable error at a place is counted at its crown and then has this effect. -/
def Strikes (loc : ErrAt) (f : State → State) : Prop :=
  ∀ s, exec (.uncorrectableError loc) s = .next (f { s with
    uncorrected := tset s.uncorrected (errorCrown s loc) ((tget s.uncorrected (errorCrown s loc)).getD 0 + 1) })

end Sys2Proof.Machine

/-- FAULT_RECORD_WRITE with room writes the oldest record, the tail word and the stamp at home and advances the partition's count. FAULT_ACTION reads the ACTION word: 1 lets what parked go on, 2 ends the context, anything else changes nothing of the record. AGENT_TIMEOUT past the agent timeout of a live core, bough, home or engine advances its incarnation and marks it dead, and the contexts with a team on a dead core, or an entry on a dead engine, end; no entry of a dead engine is left. STALE_MESSAGE_DROP logs and counts a message with another incarnation and no other. UNCORRECTABLE_ERROR counts the error at its crown, and then: a clean copy is dropped; dirty data of an L1 or of a window is lost, its sector is poisoned and the context of its owner tag, or the window's team's, ends with DATA_LOST; in a team's arrays its context ends so; in DRAM the sector is poisoned; in a directory entry or a slice's unit the partition that owns the granule ends and dumps with ALERT_N asserted; inside an agent it is declared dead, which is the model's reading (log 74), as is that no record follows for the entries of a dead engine that a context's end has left (log 49). DEVICE_FATAL ends every partition, dumps the device and halts it with ALERT_N asserted. (R250, R251, R462, R466, R469, R470, R491, R492, R502, R520) -/
def Obligations.FaultQueueAndErrors : Prop :=
  (∀ s part p f, tget s.parts part = some p → nextRecord s part = some f → faultRoom s part p = true → ∃ u,
    exec (.faultRecordWrite part) s = .next u ∧ tget u.parts part = some { p with written := p.written + 1 } ∧
    u.mem = (devWrite (devWrite (devWrite s part (p.body.fqBase + p.written % 2 ^ p.body.fqSize * 64) (recordBytes p.written f))
      part p.body.fqTail (leBytes 8 (p.written + 1))) part p.body.fqStamp (leBytes 8 (stampWord 0 (p.written + 1)))).mem) ∧
  (∀ s part num f s1 v, awaiting s part num = some f → devRead64 s part (f.at_.getD 0 + 0x38) = (s1, v) →
    let closed := { s1 with faults := replaceRec s1.faults f [] }
    (v = 1 → exec (.faultAction part num) s = .next (serviced closed f)) ∧
    (v = 2 → ∃ r, exec (.faultAction part num) s = .next (endContext closed r) ∧ r.part = f.part ∧ r.ctx = f.ctx ∧
      r.cls = f.cls ∧ r.awaits = .none) ∧
    (v ≠ 1 → v ≠ 2 → exec (.faultAction part num) s = .next s1)) ∧
  (∀ s a waited, waited ≤ 1000 * s.agentTimeout ∨ isDead s a = true → exec (.agentTimeout ⟨a, waited⟩) s = .next s) ∧
  (∀ s n waited, 1000 * s.agentTimeout < waited → isDead s (.core n) = false →
    let u := dropAgent (declareDead s (.core n)) n
    exec (.agentTimeout ⟨.core n, waited⟩) s = .next ((contextsOn s (.core n)).foldl (fun s x =>
      endContext s { blankRec s x.1 x.2 15 with cause := 3, core := n }) u) ∧ (getCore u n).dead = true ∧
    (getCore u n).incarnation = (getCore s n).incarnation + 1) ∧
  (∀ s n waited, 1000 * s.agentTimeout < waited → isDead s (.home n) = false → exec (.agentTimeout ⟨.home n, waited⟩) s = .next (declareDead s (.home n))) ∧
  (∀ s n waited, 1000 * s.agentTimeout < waited → isDead s (.bough n) = false →
    exec (.agentTimeout ⟨.bough n, waited⟩) s = .next (dropAgent (declareDead s (.bough n)) (256 + n))) ∧
  (∀ s e waited, 1000 * s.agentTimeout < waited → isDead s (.engine e) = false →
    let v := (contextsOn s (.engine e)).foldl (fun s x => endContext s { blankRec s x.1 x.2 15 with cause := 3, core := 0xFFFF })
      (declareDead s (.engine e))
    let u := dropEntries v (entriesOn s e)
    exec (.agentTimeout ⟨.engine e, waited⟩) s = .next u ∧
    ∀ x ∈ entriesOn s e, ∀ y ∈ entriesOf (getCore u x.1) x.2.1, y.id ≠ x.2.2.id) ∧
  (∀ s a addr, exec (.staleMessageDrop a (incarnationOf s a) addr) s = .next s) ∧
  (∀ s a inc addr, inc ≠ incarnationOf s a → exec (.staleMessageDrop a inc addr) s = .next { s with
    dropped := s.dropped ++ [⟨timeOf s, agentNum a, inc, addr⟩]
    droppedCount := tset s.droppedCount (crownAt (addr / 64)) ((tget s.droppedCount (crownAt (addr / 64))).getD 0 + 1) }) ∧
  (∀ a, Strikes (.agent a) fun s => agentDies s a) ∧
  (∀ core σ, Strikes (.cleanCopy core σ) fun s => dropClean s core σ) ∧
  (∀ core σ, Strikes (.dirtyL1 core σ) fun s => loseDirty s core σ) ∧
  (∀ s core σ, ∃ r tag, loseDirty s core σ =
      endContext { s with mem := { (dropCopy s core σ).mem with poison := setIn (dropCopy s core σ).mem.poison σ true } } r ∧
    r.cls = 15 ∧ r.core = (if core < 256 then core else 0xFFFF) ∧ r.addr = BitVec.ofNat 64 (64 * σ) ∧ r.part = (tag : BitVec 16).toNat / 1024 ∧
    r.ctx = tag.toNat % 1024 ∧
    (∀ c, copyOf s core σ = some c → c.dirty ≠ 0 → tag = c.tag) ∧ (copyOf s core σ = none → tag = cget s.mem.tags σ)) ∧
  (∀ core index σ, Strikes (.dirtyWindow core index σ) fun s =>
    match windowOf s core index with
    | none => s
    | some w => teamLost (putWindow { s with mem := { s.mem with poison := setIn s.mem.poison σ true } }
        ((windowSectors w σ).foldl (fun w i => { w with dbits := cset w.dbits i 0, vbits := cset w.vbits i 0 }) w)) w.team (64 * σ)) ∧
  (∀ tid, Strikes (.teamArray tid) fun s => teamLost s tid 0) ∧
  (∀ s tid addr t g, getTeam s tid = some t → tget s.grids t.grid = some g → ∃ r, teamLost s tid addr = endContext s r ∧
    r.cls = 15 ∧ r.part = g.part ∧ r.ctx = g.ctx ∧ r.core = (if t.core < 256 then t.core else 0xFFFF) ∧ r.addr = BitVec.ofNat 64 addr) ∧
  (∀ σ, Strikes (.dram σ) fun s => { s with mem := { s.mem with poison := setIn s.mem.poison σ true } }) ∧
  (∀ line, Strikes (.directory line) fun s => sliceFails s (homeSlice (256 * line))) ∧
  (∀ n, Strikes (.sliceUnit n) fun s => sliceFails s n) ∧
  (∀ s n, (granuleOwner s (n / 3) = none → sliceFails s n = s) ∧ (∀ part, granuleOwner s (n / 3) = some part →
    sliceFails s n = { writeDump (endPartition s part 32) (dumpBytes s (some part) 32 (BitVec.ofNat 32 (2 * 2 ^ 24 + n)))
        with alertN := false })) ∧
  (∀ s unit, exec (.deviceFatal unit) s = .next { writeDump (s.parts.foldl (fun s p => endPartition s p.1 48) s)
    (dumpBytes s none 48 unit) with device := .halt, alertN := false })

namespace Sys2Proof.Machine

/-! ### Arrivals -/

/-- The step `i` answers a request at the head, as a record or as a message, that its sender may make with a status and data, in the
state given. -/
def Answers (i : Instr) (s : State) (req : Request) (st : Nat) (data : List Byte) (t : State) : Prop :=
  ∀ src tag, headRequest s = some (src, tag, true, req) → admitRequest src true req = 0 →
    requestStep req = i ∧ exec i s = .next (respond t tag st data)

/-- The step `i` serves a request at the head that its sender may make. -/
def Serves (i : Instr) (s : State) (req : Request) (data : List Byte) (t : State) : Prop := Answers i s req 0 data t

/-- A port's arrival at the head gives, by the step `i`, a state. -/
def Receives (i : Instr) (s : State) (a : Arrival) (t : State) : Prop :=
  ∀ rest, s.arrivals = a :: rest → arrivalStep a = i ∧ exec i s = .next t

end Sys2Proof.Machine

/-- A frame is dropped and counted on an active port with a link when its check or length is wrong, and passed over otherwise. An RDMA request that comes by a port without a link, where its VF is not enabled or on a queue pair the VF does not hold, is dropped. A write, read, atomic or signal that the registration allows and whose address translates is performed at home and acknowledged, a read or an atomic after what marks name there is published, an atomic of a codec page on the expanded view; one the registration refuses, one whose page fails, and an atomic without SA are NAKed, and an address off its alignment is an invalid request. A send enters the receive ring of its VF; without one it is NAKed; an unsupported request is NAKed. A target reads the snapshot or writes the buffer of an outstanding command within its range, and is refused out of range, against the command's direction, or without such a command. A lost connection ends the commands on its binding with NET 3. (R246, R249, R279, R504, R505, R507, R508, R509, R510, R511, R512, R516) -/
def Obligations.InboundAccesses : Prop :=
  (∀ s port len ok, linkUp s port = true → Receives .frameReceive s (.frame port len ok)
    (if ok && decide (len ≤ 9216) then popArrival s
     else { popArrival s with frameDrops := tset s.frameDrops port ((tget s.frameDrops port).getD 0 + 1) })) ∧
  (∀ s port vf qp rkey va data n cas cmp val imm, rdmaVf s port vf qp = none →
    Receives .rdmaWriteInbound s (.rdmaWrite port vf qp rkey va data) (popArrival s) ∧
    Receives .rdmaReadInbound s (.rdmaRead port vf qp rkey va n) (popArrival s) ∧
    Receives .rdmaAtomicInbound s (.rdmaAtomic port vf qp rkey va cas cmp val) (popArrival s) ∧
    Receives .rdmaSendInbound s (.rdmaSend port vf qp data) (popArrival s) ∧
    Receives .rdmaSignalInbound s (.rdmaSignal port vf qp rkey va imm) (popArrival s) ∧
    Receives .rdmaUnsupportedInbound s (.rdmaUnsupported port vf qp) (popArrival s)) ∧
  (∀ s port vf qp rkey va data v, rdmaVf s port vf qp = some v →
    (regOk v rkey va data.length .write = true → ∀ s1 s2,
      writeOk s v va data.length = (s1, true) → virtWrite s1 (vfWho v) va data = (s2, none) →
      Receives .rdmaWriteInbound s (.rdmaWrite port vf qp rkey va data) (answer s2 (.ack vf qp))) ∧
    (regOk v rkey va data.length .write = true → ∀ s1, writeOk s v va data.length = (s1, false) →
      Receives .rdmaWriteInbound s (.rdmaWrite port vf qp rkey va data) (nakAccess s1 vf qp)) ∧
    (regOk v rkey va data.length .write = false →
      Receives .rdmaWriteInbound s (.rdmaWrite port vf qp rkey va data) (nakAccess s vf qp))) ∧
  (∀ s port vf qp rkey va n v, rdmaVf s port vf qp = some v →
    (regOk v rkey va n .read = true → (readOk s v va n).2 = true → ∀ s1 b,
      virtRead (publishRange s (vfWho v) va n) (vfWho v) va n = (s1, .ok b) →
      Receives .rdmaReadInbound s (.rdmaRead port vf qp rkey va n) (answer s1 (.readData vf qp b))) ∧
    (regOk v rkey va n .read = false ∨ (readOk s v va n).2 = false →
      Receives .rdmaReadInbound s (.rdmaRead port vf qp rkey va n) (nakAccess s vf qp))) ∧
  (∀ s port vf qp rkey va cas (cmp val : DWord) v, rdmaVf s port vf qp = some v →
    let a := Arrival.rdmaAtomic port vf qp rkey va cas cmp val
    (va.toNat % 8 = 0 → regOk v rkey va 8 .atomic = true → ∀ s1 l, translate s (vfWho v) va .write = (s1, .ok l) → l.sa = true →
      let far := forcePublishFar s1 (leafPa l va / 64)
      (l.cmp = false → s1.mem.poison.contains (leafPa l va / 64) = false → ∀ s2 old, homeRead64 far (leafPa l va) = (s2, old) →
        Receives .rdmaAtomicInbound s a (answer (physWrite s2 (leafPa l va / 2 ^ 38) (leafPa l va)
          (leBytes 8 (if cas then (if old = cmp.toNat then val.toNat else old) else (old + val.toNat) % 2 ^ 64)) (vfWho v).tag)
          (.atomicOld vf qp (BitVec.ofNat 64 old)))) ∧
      (l.cmp = true → linePoison s1 (leafPa l va / 256) = none → ∀ s2 b s3,
        homeExpanded far (leafPa l va / 256) = (s2, .ok b) →
        codecStore s2 (leafPa l va / 2 ^ 38) (leafPa l va) (leBytes 8 (if cas then
          (if field b (leafPa l va % 256) 8 = cmp.toNat then val.toNat else field b (leafPa l va % 256) 8)
          else (field b (leafPa l va % 256) 8 + val.toNat) % 2 ^ 64)) (vfWho v).tag = (s3, true) →
        Receives .rdmaAtomicInbound s a (answer s3 (.atomicOld vf qp (BitVec.ofNat 64 (field b (leafPa l va % 256) 8)))))) ∧
    (va.toNat % 8 = 0 → regOk v rkey va 8 .atomic = false → Receives .rdmaAtomicInbound s a (nakAccess s vf qp)) ∧
    (va.toNat % 8 = 0 → regOk v rkey va 8 .atomic = true → ∀ s1 c, translate s (vfWho v) va .write = (s1, .error c) →
      Receives .rdmaAtomicInbound s a (nakAccess s1 vf qp)) ∧
    (va.toNat % 8 = 0 → regOk v rkey va 8 .atomic = true → ∀ s1 l, translate s (vfWho v) va .write = (s1, .ok l) → l.sa = false →
      l.cmp = false → s1.mem.poison.contains (leafPa l va / 64) = false →
      Receives .rdmaAtomicInbound s a (answer s1 (.nakAccess vf qp))) ∧
    (va.toNat % 8 ≠ 0 → Receives .rdmaAtomicInbound s a (answer s (.nakInvalid vf qp)))) ∧
  (∀ s port vf qp rkey va (imm : Word) v, rdmaVf s port vf qp = some v →
    let a := Arrival.rdmaSignal port vf qp rkey va imm
    (va.toNat % 16 = 0 → regOk v rkey va 16 .signal = true → ∀ s1 l, translate s (vfWho v) va .write = (s1, .ok l) → l.cmp = false →
      s1.mem.poison.contains (leafPa l va / 64) = false → Receives .rdmaSignalInbound s a
        (answer (barrierUpdate s1 (leafPa l va / 2 ^ 38) (leafPa l va) (vfWho v).tag (arrival imm.toNat)).1 (.ack vf qp))) ∧
    (va.toNat % 16 = 0 → regOk v rkey va 16 .signal = false → Receives .rdmaSignalInbound s a (nakAccess s vf qp)) ∧
    (va.toNat % 16 = 0 → regOk v rkey va 16 .signal = true → ∀ s1 c, translate s (vfWho v) va .write = (s1, .error c) →
      Receives .rdmaSignalInbound s a (nakAccess s1 vf qp)) ∧
    (va.toNat % 16 ≠ 0 → Receives .rdmaSignalInbound s a (answer s (.nakInvalid vf qp)))) ∧
  (∀ s port vf qp data v, rdmaVf s port vf qp = some v →
    Receives .rdmaSendInbound s (.rdmaSend port vf qp data) (match v.recv with
      | some r => receive s vf qp v r data
      | none => answer s (.nakOperation vf qp)) ∧
    Receives .rdmaUnsupportedInbound s (.rdmaUnsupported port vf qp) (answer s (.nakInvalid vf qp))) ∧
  (∀ s core entry write off data len, outstandingStq s core entry = none →
    Receives .targetBufAccess s (.target core entry write off data len) (answer s (.target core entry false []))) ∧
  (∀ s core entry off data len e, outstandingStq s core entry = some e →
    (blockOp e.block = 1 → off + len ≤ stqLen s e → Receives .targetBufAccess s (.target core entry false off data len)
      (answer s (.target core entry true (((e.snap.drop off).take len).map fun b => b.getD 0)))) ∧
    (blockOp e.block = 2 → off + data.length ≤ stqLen s e → ∀ s1,
      virtWrite s (entryWho core e) (BitVec.ofNat 64 (field e.block 0x10 8 + off)) data = (s1, none) →
      Receives .targetBufAccess s (.target core entry true off data len) (answer (noteEntry s core .sto e.id s1) (.target core entry true []))) ∧
    (blockOp e.block ≠ 1 ∨ stqLen s e < off + len →
      Receives .targetBufAccess s (.target core entry false off data len) (answer s (.target core entry false []))) ∧
    (blockOp e.block ≠ 2 ∨ stqLen s e < off + data.length →
      Receives .targetBufAccess s (.target core entry true off data len) (answer s (.target core entry false [])))) ∧
  (∀ s part nsb, Receives .nvmeConnectionLost s (.nvmeLost part nsb) ((listedCores s).foldl (fun s k => ((getCore s k).sto.filter fun e =>
      e.opc == 0xC5 && e.st == .started && e.part == part && field e.block 0x20 2 == nsb).foldl
        (fun s e => endEntry s k .sto e (statusOf 7 3)) s) (popArrival s)))

/-- READ_UNIT_MAP answers the unit map. The partition, VF, queue, registration, binding, key, timed-capacity, power and re-admission requests, within their limits and with their objects there and not in use, write what they name and answer 0. READ_DUMP answers the dump. The two 256-bit keys that LOAD_KEY stores are the first 64 bytes of what unwraps, filled with zeros, which is the model's choice (log 13). A message of more or less than 256 bytes, or whose length passes its body, has the wrong form. An unknown code answers 1; any request from a sender that may not make it answers 8 and one of the wrong form answers 2, and then only the request is gone and the answer sent. (R26, R407, R422, R484, R485, R486, R493, R502, R508, R513, R515, R518) -/
def Obligations.ManagementRequests : Prop :=
  (∀ s, Serves .readUnitMap s .readUnitMap (unitMap s) s) ∧
  (∀ s part b, part < 64 → partRange b = true → partWhole s b = true →
    (s.parts.any fun p => p.1 != part && !partApart p.2.body b) = false → partInUse s part = false →
    Serves .writePartitionRecord s (.writePartition part (some b)) [] (assignPartition s part b)) ∧
  (∀ s vf part ctx root recv p, vf < 256 → ctx < 1024 → root % 256 = 0 → (∀ x, recv = some x → recvRange x = true) →
    tget s.parts part = some p → (∀ v, tget s.vfs vf = some v → v.part = part ∧ v.ctx = ctx) → ctxInUse s part ctx = false →
    ∃ u v, Serves .bindVf s (.bindVf vf part ctx root recv) [] u ∧ tget u.vfs vf = some v ∧ v.part = part ∧ v.ctx = ctx ∧ v.recv = recv ∧
      tget u.parts part = some { p with ctxs := tset p.ctxs ctx ⟨root, true, false⟩ }) ∧
  (∀ s q b v, q < 1024 → b.vf < 256 → b.base.toNat % 128 = 0 → b.tailA.toNat % 8 = 0 → b.headA.toNat % 8 = 0 →
    1 ≤ b.size → b.size ≤ 16 → (s.queues.filter fun x => x.1 != q && x.2.vf == b.vf).length < 16 → tget s.vfs b.vf = some v →
    (∀ o, tget s.queues q = some o → (∀ w, tget s.vfs o.vf = some w → w.part = v.part) ∧
      (o.enabled = true → queueUnread s o = false)) →
    Serves .writeLaunchQueueRecord s (.writeQueue q b) [] (watchTail { s with queues := tset s.queues q b } q)) ∧
  (∀ s vf idx b v, idx < 4096 → tget s.vfs vf = some v →
    Serves .writeRegistrationEntry s (.writeReg vf idx b) [] { s with vfs := tset s.vfs vf { v with regs := tset v.regs idx b } }) ∧
  (∀ s part idx b p, idx < 256 → bindRange b = true → tget s.parts part = some p → ∃ u,
    ((∀ a c d e vf x f, b = .peer a c d e vf x f → (∃ v, tget s.vfs vf = some v ∧ v.part = part) ∧ pairsFit u vf = true) →
      Serves .writeBinding s (.writeBinding part idx b) [] u) ∧
    ∃ n p', tget u.parts part = some p' ∧ (n = idx ∨ n = 256 + idx) ∧ tget p'.binds n = some b) ∧
  (∀ s part key session wrapped p, tget s.parts part = some p → p.body.keyLo ≤ key → key < p.body.keyLo + p.body.keyN →
    match Config.kemUnwrap session wrapped with
    | some m => Serves .loadKey s (.loadKey part key session wrapped) []
        { s with parts := tset s.parts part { p with keys := tset p.keys key ((m ++ List.replicate 64 0).take 64) } }
    | none => Answers .loadKey s (.loadKey part key session wrapped) stUnwrap [] s) ∧
  (∀ s a, s.dumpMem = some a → Serves .readDump s .readDump
    (crange s.mem.dram a (min (leNat (crange s.mem.dram (a + 0x28) 8)) (2 ^ 26))) s) ∧
  (∀ s w, Serves .setPowerCap s (.setPowerCap w) [] { s with powerCap := w }) ∧
  (∀ s a, isDead s a = true → Serves .resetAndReadmitUnit s (.resetUnit a) [] (readmit s a)) ∧
  (∀ s part cores share slots p, tget s.parts part = some p →
    (∀ k ∈ cores, k < 256 ∧ s.offCores.contains k = false ∧ p.body.quads.getLsbD (k / 4) = true) →
    ∃ till, Serves .reserveTimedCapacity s (.reserveTimed part cores share slots) []
      { s with timed := tset s.timed part ⟨distinct cores, share, slots, till⟩ }) ∧
  (∀ s src tag wl code, headRequest s = some (src, tag, wl, .unknown code) →
    exec .mgmtUnknownCode s = .next (respond s tag 1 [])) ∧
  (∀ s src tag wl r, headRequest s = some (src, tag, wl, r) → (∀ c, r ≠ .unknown c) →
    (src = .other ∨ (src = .board ∧ isSecret r = true) → exec (requestStep r) s = .next (respond s tag 8 [])) ∧
    (src ≠ .other → (src = .board → isSecret r = false) → wl = false →
      exec (requestStep r) s = .next (respond s tag 2 []))) ∧
  (∀ b : List Byte, 1 ≤ field b 0 2 → field b 0 2 ≤ 14 → b.length ≠ 256 ∨ 248 < field b 4 4 →
    requestOf b = (BitVec.ofNat 16 (field b 2 2), false, blankRequest (field b 0 2))) ∧
  (∀ b : List Byte, field b 0 2 = 0 ∨ 14 < field b 0 2 →
    requestOf b = (BitVec.ofNat 16 (field b 2 2), true, .unknown (BitVec.ofNat 16 (field b 0 2))))

/-- SEED_MAKE whose image fits outside the partition freezes its partition and begins the job; SEED_IMAGE_WRITE of a partition at rest answers with the image and binds or idles the lineage, thawing or ending the partition; when the image no longer fits its buffer it answers RANGE and thaws it, which is the model's reading (log 36). SEED_RESTORE answers the status of the first check that fails and else restores the payload the tag opens; a tag that does not open leaves the granules zeroed and answers 0x106. COUNTER_STATEMENT of an idle lineage moves it and answers the statement, this device's attestation and the wrapped key when the session gives a key and the peer attests for this device's nonce, and answers 0x10A otherwise; what the session gives and the signatures' bytes are free values, and the layout of what is sent is the model's choice (log 13). RESET_RELEASE from reset with an image whose signature verifies empties the device, applies the census, records the image's measurement and publishes the unit map, as the device becomes READY by the model's choice (log 75), and with another leaves it in reset with ALERT_N asserted; a device that is not in reset passes it over; RESET_ASSERT and POWER_LOSS leave the device in reset and off, and the levels of the I3C signals are held as they arrive (log 80); THERMAL_WARNING asserts ALERT_N and THERMTRIP its signal. (R494, R496, R497, R498, R499, R500, R519, R520, R521) -/
def Obligations.SeedsAndBoard : Prop :=
  (∀ s part lineage buf endPart p, tget s.parts part = some p → lineageRefusal s part lineage = none →
    bufferOk s part p lineage buf = true →
    ∀ src tag, headRequest s = some (src, tag, true, .seedMake part lineage buf endPart) →
    admitRequest src true (.seedMake part lineage buf endPart) = 0 →
    exec .seedMake s = .next { popArrival s with
      parts := tset s.parts part { p with frozen := true }, seed := some ⟨part, lineage, buf, endPart, tag⟩ }) ∧
  (∀ s j p, s.seed = some j → tget s.parts j.part = some p → seedReady s j = true →
    bufferOk (settlePartition s p.body.granules) j.part p j.lineage j.buf = false → ∃ u, exec .seedImageWrite s = .next u ∧
    u.seed = none ∧ u.replies = s.replies ++ [.response j.tag 3 []] ∧ u.lineages = s.lineages ∧
    tget u.parts j.part = some { p with frozen := false }) ∧
  (∀ s j p, s.seed = some j → tget s.parts j.part = some p → seedReady s j = true →
    bufferOk (settlePartition s p.body.granules) j.part p j.lineage j.buf = true → ∃ u,
    exec .seedImageWrite s = .next u ∧
    let c := match findLineage s j.lineage with | some l => l.counter + 1 | none => 1
    (j.endPart = false → u.seed = none ∧ findLineage u j.lineage = some ⟨j.lineage, c, .bound j.part, p.body.meas⟩ ∧
      tget u.parts j.part = some { p with frozen := false } ∧ ∃ data, u.replies = s.replies ++ [.response j.tag 0 data]) ∧
    (j.endPart = true → ∃ u0, u = endPartition u0 j.part 32 ∧ u0.seed = none ∧
      findLineage u0 j.lineage = some ⟨j.lineage, c, .idle, p.body.meas⟩ ∧ ∃ data, u0.replies = s.replies ++ [.response j.tag 0 data])) ∧
  (∀ s part img stm session p, tget s.parts part = some p → partInUse s part = false →
    match restoreChecks s p img stm session with
    | .error st => Answers .seedRestore s (.seedRestore part img stm session) st [] s
    | .ok k =>
      match gcmOpen k (((img.take 256).drop 0xE8).take 12) (img.take 256) (img.drop 6144) ((img.drop 0x100).take 16) with
      | some plain => Serves .seedRestore s (.seedRestore part img stm session) [] (putLineage (restoreInto s part p k plain)
          ⟨BitVec.ofNat 128 (field (img.take 256) 0x10 16), field (img.take 256) 0x20 8, .bound part, p.body.meas⟩)
      | none => Answers .seedRestore s (.seedRestore part img stm session) 0x106 []
          { s with mem := zeroGranules s.mem part fun g => decide (g < 64) && p.body.granules.getLsbD g }) ∧
  (∀ s id peer nonce session l, findLineage s id = some l → l.st = .idle →
    let req := Request.counterStatement id peer nonce session
    match sessionKey session with
    | some w =>
      if attests (peer.take 64) (peer.drop 64) (challenge s) = true then
        Serves .counterStatement s req (statementData s id l (peer.take 64) nonce w)
          (putLineage { s with fresh := s.fresh + 1 } { l with st := .moved })
      else Answers .counterStatement s req 0x10A [] s
    | none => Answers .counterStatement s req 0x10A [] s) ∧
  (∀ s cores granules ports share timeout flash, s.device ≠ .reset →
    Receives .resetRelease s (.resetRelease cores granules ports share timeout flash) (popArrival s)) ∧
  (∀ s cores granules ports share timeout flash, s.device = .reset →
    Receives .resetRelease s (.resetRelease cores granules ports share timeout flash)
      (if flashOk flash = false then { emptied { popArrival s with resetN := true } .reset with alertN := false }
      else publishMap { emptied { popArrival s with resetN := true } .ready with
      offCores := cores.filter (· < 256)
      offGranules := granules.filter (· < 64)
      offPorts := ports.filter fun n => decide (1 ≤ n) && decide (n ≤ 8)
      rdcShare := shareOf share granules
      agentTimeout := timeoutOf timeout
      fawaile := some (sha3 flash.image) })) ∧
  (∀ s, Receives .resetAssert s .resetAssert { emptied (popArrival s) .reset with pwrok := true, resetN := false }) ∧
  (∀ s scl sda, Receives .resetAssert s (.i3c scl sda) { popArrival s with i3cScl := scl, i3cSda := sda }) ∧
  (∀ s, Receives .powerLoss s .powerLoss { emptied (popArrival s) .off with pwrok := false, resetN := false }) ∧
  (∀ s, Receives .thermalWarning s .thermal { popArrival s with alertN := false, hot := true }) ∧
  (∀ s, Receives .thermtrip s .thermtrip { popArrival s with thermtripN := false })

/-- A loss that is noted is dealt with first. With nothing lost and nothing on the agenda, when a group is the one whose turn it is, the words at its program counter are fetched: words that decode to an instruction are run as that instruction, and words that do not decode raise ILLEGAL_ENCODING; a fetch that faults is the group's fault. What the step adds to the instruction's own effect, when the slice owes no beats to a younger group, is notes on when the group's results return and the end of results owed to lanes that exited: no place, mask, program counter or other group of it differs. With something on the agenda that step runs, with no group ready the device's next event, else a cycle passes: this order, a loss first, is the model's choice (log 9). When the slice does owe beats, what the step adds puts them off (log 17). (R18, R36, R109, R113, R114, R120, R155, R491) -/
def Obligations.StepRunsDecoded : Prop :=
  (∀ s gid g s1 ws, s.mem.lost = [] → s.agenda = [] → readyGroup s = some (gid, g) → fetchInstr s g = (s1, .ok ws) →
    let owed := beatsOwed s1 g
    let s2 := if owed = 0 then s1 else slicePut s1 g s1.cycle
    (∀ i, Sys2Proof.decodeWords ws = .ok i →
      step s = afterIssue s1 gid g ws owed (exec i { s2 with cur := some gid })) ∧
    (∀ e, Sys2Proof.decodeWords ws = .error e →
      step s = afterIssue s1 gid g [] owed (.next (raiseIllegal (occupy s2 g 1) gid (openIllegal s2 g) (8 * ws.length))))) ∧
  (∀ s gid g s1 va e, s.mem.lost = [] → s.agenda = [] → readyGroup s = some (gid, g) → fetchInstr s g = (s1, .error (va, e)) →
    step s = .next (fetchFault s1 gid g va e)) ∧
  (∀ s0 gid g0 ws s, ∃ u, afterIssue s0 gid g0 ws 0 (.next s) = .next u ∧ u.mem = s.mem ∧ u.cycle = s.cycle ∧
    u.teams = s.teams ∧ (∀ n, n ≠ gid → getGroup u n = getGroup s n) ∧
    ∀ g, getGroup s gid = some g → ∃ h, getGroup u gid = some h ∧
      h = { g with
        pend := h.pend, freeAt := h.freeAt, fixedBack := h.fixedBack, lateBack := h.lateBack
        missBack := h.missBack, lastStall := h.lastStall, passFrom := h.passFrom
        beatWords := h.beatWords, beatLanes := h.beatLanes, beatPend := h.beatPend } ∧
      (h.pend.map fun e => { e with lat := 0 }).Sublist (g.pend.map fun e => { e with lat := 0 }) ∧
      let stays := fun (e : Pend) => e.uni || !(g0.live &&& ~~~g.live).getLsbD e.lane
      (h.pend.filter stays).map (fun e => { e with lat := 0 }) = (g.pend.filter stays).map fun e => { e with lat := 0 }) ∧
  (∀ s l r, s.mem.lost = l :: r → step s = .next (endLost { s with mem := { s.mem with lost := r } } l)) ∧
  (∀ s x r, s.mem.lost = [] → s.agenda = x :: r → step s = exec (todoStep x) { s with agenda := r }) ∧
  (∀ s i, s.mem.lost = [] → s.agenda = [] → readyGroup s = none → nextEvent (settleArrivals s) = some i →
    step s = exec i (openArrival (settleArrivals s))) ∧
  (∀ s, s.mem.lost = [] → s.agenda = [] → readyGroup s = none → nextEvent (settleArrivals s) = none →
    step s = .next (tick (settleArrivals s)))

/-- The zero word is NOP with guard p0; words of IADD, FMA, DOT4, LDI with its extension word, LD, BRA with a mask word, LDU, ATOM, CINIT, CUNION, MMA, CPY with its own mask word, NETQ, RPUB, MBXW, TRAP and SSET, written out from the encoding tables, decode to those instructions with those operands; a word with an unassigned opcode is that, one with a reserved field set is refused, and one with VER 0b10. (R109, R110, R111, R125, R128, R132, R133) -/
def Obligations.DecodedWords : Prop :=
  Sys2Proof.decodeWords [0] = .ok (.nop ⟨.portable, false, none, false, false, 0⟩) ∧
  Sys2Proof.decodeWords [0x4510002017FE0009] = .ok (.iadd ⟨⟨.fixed, false, none, false, true, 2⟩, .v 1, .v 2, .k 0x7F, .i32, 1⟩) ∧
  Sys2Proof.decodeWords [0x452980880C0181B0] = .ok (.fma ⟨⟨.fixed, false, none, false, true, 2⟩, .v 4, .o 1, .l 0, .s 3, .f32, 0⟩) ∧
  Sys2Proof.decodeWords [0x03B58140A6060F46] = .ok (.dot4 ⟨⟨.portable, false, none, false, false, 7⟩, .v 10, .v 20, .s 3, .v 30, .e4m3, 2⟩) ∧
  Sys2Proof.decodeWords [0x03A080C001000000, 0x0123456789ABCDEF] = .ok (.ldi ⟨.portable, false, none, false, false, 7⟩ (.v 6) 1 0x0123456789ABCDEF) ∧
  Sys2Proof.decodeWords [0x03B804868123FFF8] = .ok (.ldOwn ⟨⟨.portable, false, none, false, false, 7⟩, 9, 3, .acq, .dev, 0x123, 0xFFF8⟩) ∧
  Sys2Proof.decodeWords [0x3500A00000FFFFFD, 0xB000700300000001] = .ok (.bra ⟨.portable, true, (some 0xB000700300000001), false, true, 2⟩ true 0xFFFFFD) ∧
  Sys2Proof.decodeWords [0x0BBD08D070030010] = .ok (.lduSi ⟨⟨.portable, false, none, true, false, 7⟩, 17, 40, .acq, .crown, .b64, 16⟩) ∧
  Sys2Proof.decodeWords [0x03C8090D31070018] = .ok (.atom ⟨⟨.portable, false, none, false, false, 7⟩, 18, 6, .ar, .sys, false, .dec, .n64, 24⟩) ∧
  Sys2Proof.decodeWords [0x03D0180011C11000] = .ok (.cinit ⟨⟨.portable, false, none, false, false, 7⟩, 3, .v 8, .k 2, 1⟩) ∧
  Sys2Proof.decodeWords [0x03D2077800006401] = .ok (.cunion ⟨⟨.portable, false, none, false, false, 7⟩, 14, 15, true, 6⟩) ∧
  Sys2Proof.decodeWords [0x03DA122801838000] = .ok (.mma ⟨⟨.portable, false, none, false, false, 7⟩, 2, 4, 5, 0, .s 7, false⟩) ∧
  Sys2Proof.decodeWords [0x03E0050180000000, 0x0400000000000000] = .ok (.cpy ⟨.portable, false, none, false, false, 7⟩ 5 (.v 6) 0x0400000000000000) ∧
  Sys2Proof.decodeWords [0x03E30F02A0000000, 0xFFFFFFFFFFFFFFC0] = .ok (.netq ⟨⟨.portable, false, none, false, false, 7⟩, 15, .v 10, some 0xFFFFFFFFFFFFFFC0⟩) ∧
  Sys2Proof.decodeWords [0x03EA2801803F9000] = .ok (.rpub ⟨⟨.portable, false, none, false, false, 7⟩, .v 6, 40, 9, 63⟩) ∧
  Sys2Proof.decodeWords [0x03E800002000001F] = .ok (.mbxw ⟨.portable, false, none, false, false, 7⟩ 31 (.v 4)) ∧
  Sys2Proof.decodeWords [0x00F0800000000ABC] = .ok (.trap ⟨.portable, false, none, false, false, 1⟩ 0xABC) ∧
  Sys2Proof.decodeWords [0x0BF2001820000030] = .ok (.ssetTrapvec ⟨.portable, false, none, true, false, 7⟩ (.s 4)) ∧
  Sys2Proof.decodeWords [0x038A800000000000] = .ok (.unassignedOpcode 0x038A800000000000) ∧
  Sys2Proof.decodeWords [0x0380000000000001] = .error .reserved ∧ Sys2Proof.decodeWords [0x8380000000000000] = .error .version

/-- For every instruction that has words and breaches no rule of its encoding, with every operand at every value the encoding admits, decoding its words gives the instruction back; no two well-formed instructions have the same words; and every word of an unassigned opcode is decoded as unassigned, alone whatever its SP bit, which is the model's choice (log 71). (R109, R110, R111, R125, R128, R131, R132, R133) -/
def Obligations.DecodeEncode : Prop :=
  (∀ i : Instr, i.wellFormed = true → i.parts.isSome = true → Sys2Proof.decodeWords (Sys2Proof.encode i) = .ok i) ∧
  (∀ i j : Instr, i.wellFormed = true → j.wellFormed = true → i.parts.isSome = true → j.parts.isSome = true →
    Sys2Proof.encode i = Sys2Proof.encode j → i = j) ∧
  (∀ w : DWord, Sys2Proof.isUnassigned (Sys2Proof.opcodeOf w) = true →
    Sys2Proof.decodeWords [w] = .ok (.unassignedOpcode w))

/-- From every state whatever, reachable or not, a step answers a next state: never a fault and never a refusal. Every architectural fault, every trap and every damaged structure is a next state that the manual describes. (R113, R462, R463, R466, R472) -/
def Obligations.StepAlwaysGoesOn : Prop :=
  ∀ s : State, ∃ t, step s = .next t

/-- If the memory lists its bytes at strictly rising addresses and lists no byte equal to what an unlisted one reads as, it does so after every step: no store, copy, assignment or restore breaks the form. The form and what an unlisted byte reads as are the model's choice (log 1). (R4, R14, R231, R484, R488, R500) -/
def Obligations.MemoryStaysCanonical : Prop :=
  ∀ s t : State, Memory.wf s.mem = true → step s = .next t → Memory.wf t.mem = true

/-- At the end of reset %time is 0, the device is READY, no partition, team, group or launch exists, no line carries a codec flag, no sector is poisoned, PWROK and RESET_N are deasserted from reset, no alert is asserted, the remote-data-cache share is the highest channel group of every crown, the agent timeout is 50 us, no temperature warning stands, and memory is in its canonical form. What an unlisted byte of memory reads as is the model's choice (log 1), and so are that no POISONED mark and no temperature warning stand (log 2) and the default share's granules (log 3). (R19, R242, R345, R491, R519, R520, R521) -/
def Obligations.ResetState : Prop :=
  timeOf State.reset = 0 ∧ State.reset.device = .ready ∧ State.reset.parts = [] ∧ State.reset.teams = [] ∧
  State.reset.groups = [] ∧ State.reset.grids = [] ∧ State.reset.mem.codec = [] ∧ State.reset.mem.poison = [] ∧
  State.reset.pwrok = true ∧ State.reset.resetN = true ∧ State.reset.alertN = true ∧ State.reset.thermtripN = true ∧
  State.reset.rdcShare = [15, 31, 47, 63] ∧ State.reset.agentTimeout = 50 ∧ State.reset.hot = false ∧ Memory.wf State.reset.mem = true

/-- While the team's %trapvec is not zero, a fault of a catchable class with ACTIVE clear and fewer than 32 entries on the stack: while a ring entry of the group is unperformed the group waits before the instruction, and else every outstanding result is due (one owed by no queued entry, which no run reaches, stays), the resume address (the instruction's own for HEAP_EXHAUSTED, the next one's otherwise) is pushed with mask and fmt, the trap registers hold class, cause, code, depth, the instruction's address and each faulting lane's address, the mask is the faulting lanes and the group stands at the handler; no other group and nothing of memory differs. With ACTIVE set or a full stack the context ends with that class. For ILLEGAL_ENCODING the faulting lanes are the current mask. (R120, R471, R472, R473) -/
def Obligations.HandlerEntry : Prop :=
  (∀ s gid g len r t, getTeam s g.team = some t → t.trapvec ≠ 0 → catchable r.cls = true →
    r.cause < 256 → r.code < 4096 → (r.addrs.map (·.1)).Nodup →
    (trapActive g = true ∨ g.stack.length = 32 → ∃ f, raise s gid g len r = endContext s f ∧ f.cls = r.cls) ∧
    (trapActive g = false → g.stack.length < 32 → ringOwes s gid g = true →
      raise s gid g len r = setGroup s gid { g with wait := .trap r, waitSince := s.cycle, parkLen := len }) ∧
    (trapActive g = false → g.stack.length < 32 → ringOwes s gid g = false → ∃ g', raise s gid g len r = setGroup s gid g' ∧
      (∀ e ∈ g'.pend, e.owed.isSome = true) ∧ g'.wait = .none ∧ g'.v = (commitAll g s.cycle).v ∧
      g'.stack = ⟨if r.cls = 2 then g.pc else g.pc + BitVec.ofNat 64 len, g.mask, g.fmt⟩ :: g.stack ∧
      g'.trapinfo.extractLsb' 0 8 = BitVec.ofNat 8 r.cls ∧ g'.trapinfo.extractLsb' 8 8 = BitVec.ofNat 8 r.cause ∧
      g'.trapinfo.extractLsb' 16 12 = BitVec.ofNat 12 r.code ∧ g'.trapinfo.getLsbD 28 = true ∧
      g'.trapinfo.extractLsb' 29 5 = BitVec.ofNat 5 g.stack.length ∧ g'.trapinfo.extractLsb' 34 30 = 0 ∧
      g'.trappc = g.pc ∧ (∀ e ∈ r.addrs, cget g'.trapaddr e.1 = e.2) ∧
      (∀ n, n ∉ r.addrs.map (·.1) → cget g'.trapaddr n = 0) ∧ g'.mask = r.lanes ∧ g'.pc = t.trapvec ∧ g'.fmt = g.fmt ∧
      g'.live = g.live)) ∧
  (∀ s gid g len, raiseIllegal s gid g len = raise s gid g len ⟨4, 0, 0, g.mask, []⟩)

/-- After the rows of an integer MMA, every element of a live row is its old value plus the sum of the products of the sign-extended bytes of the row and of the column, clamped to 32 bits when fmt.SAT is 1 and truncated otherwise; every element of another row or of another accumulator keeps its value. (R101) -/
def Obligations.IntegerMatrix : Prop :=
  ∀ (g : Group) (fmt : Word) (a ta tb : Nat) (live : BitVec 64),
    let g' := (liveRows live).foldl (mmaRow g fmt .integer .i8 .i8 a ta tb none) g
    let as := fun (row : Nat) (k : Nat) => ((BitVec.ofNat 8 (lineElem 8 (tileLine g ta row) k)).toInt : Int)
    let bs := fun (col : Nat) (k : Nat) => ((BitVec.ofNat 8 (lineElem 8 (tileLine g tb col) k)).toInt : Int)
    let sum := fun (row col : Nat) =>
      (BitVec.ofNat 32 (accElem g a row col)).toInt + ((List.range 32).map fun k => as row k * bs col k).sum
    (∀ row col, row < 64 → col < 64 → live.getLsbD row = true →
      accElem g' a row col = (BitVec.ofInt 32 (if fmtSat fmt then min (max (sum row col) (-2 ^ 31)) (2 ^ 31 - 1)
        else sum row col)).toNat) ∧
    (∀ b row col, row < 64 → col < 64 → (b ≠ a ∨ live.getLsbD row = false) → accElem g' b row col = accElem g b row col)

/-- The address of a command block is the uniform register SBASE plus the displacement when the instruction has one, the register alone when it has none, modulo 2^64. (R127) -/
def Obligations.CommandBlockAddress : Prop :=
  ∀ (g : Group) (h : Hdr) (sb : BitVec 7) (now : Nat) (d : DWord),
    let base := readPlace g (.s sb.toNat) 0 h.uni now
    (blockAddr g h sb (some d) now).toNat = (base + d.toNat) % 2 ^ 64 ∧ (blockAddr g h sb none now).toNat = base % 2 ^ 64

/-- An E8M0 code e below 0xFF means 2 to the power e - 127, without sign, zero or infinity; 0xFF means NaN. (R88) -/
def Obligations.ScaleFormat : Prop :=
  (∀ e, e < 255 → fdecode .e8 e = .fin false 1 ((e : Int) - 127)) ∧ fdecode .e8 255 = .nan
end

