-- ==== Sys2Proof/Laws/Cells.lean ====
section
/-! SUPPORT. Tables and sparse arrays: what a read gives after a write, and the canonical form that every write keeps. -/

namespace Sys2Proof.Machine

/-! ### Tables -/

theorem tget_tset_same {α : Type} (t : Tab α) (k : Nat) (v : α) : tget (tset t k v) k = some v := by
  induction t with
  | nil => simp [tset, tget]
  | cons e r ih =>
    obtain ⟨a, b⟩ := e
    simp only [tset]
    split
    · simp [tget]
    · split
      · simp [tget]
      · have : a ≠ k := fun h => by simp_all
        simp [tget, this, ih]

theorem tget_tset_other {α : Type} (t : Tab α) (k j : Nat) (v : α) (h : j ≠ k) : tget (tset t k v) j = tget t j := by
  induction t with
  | nil => simp [tset, tget, Ne.symm h]
  | cons e r ih =>
    obtain ⟨a, b⟩ := e
    simp only [tset]
    split
    · simp [tget, Ne.symm h]
    · split
      · subst_vars; simp [tget, Ne.symm h]
      · simp [tget, ih]

theorem tset_tset {α : Type} (t : Tab α) (k : Nat) (u v : α) : tset (tset t k u) k v = tset t k v := by
  induction t with
  | nil => simp [tset]
  | cons e r ih =>
    obtain ⟨a, b⟩ := e
    simp only [tset]
    split
    · simp [tset]
    · split
      · simp [tset]
      · simp [tset, *]

theorem tset_tget {α : Type} (t : Tab α) (k : Nat) (v : α) (h : tget t k = some v) (hs : t.Pairwise fun a b => a.1 < b.1) :
    tset t k v = t := by
  induction t with
  | nil => simp [tget] at h
  | cons e r ih =>
    obtain ⟨a, b⟩ := e
    rw [List.pairwise_cons] at hs
    simp only [tget] at h
    simp only [tset]
    split at h
    · next hak => cases h; subst hak; simp
    · next hak =>
      have hmem : ∃ e ∈ r, e.1 = k := by
        clear ih hs
        induction r with
        | nil => simp [tget] at h
        | cons f r ih =>
          simp only [tget] at h
          split at h
          · next hfk => exact ⟨f, by simp, hfk⟩
          · obtain ⟨e, he, hek⟩ := ih h; exact ⟨e, by simp [he], hek⟩
      obtain ⟨e, he, hek⟩ := hmem
      have := hs.1 e he
      simp only at this
      rw [if_neg (by omega), if_neg (by omega), ih h hs.2]

/-! ### Sparse arrays -/

theorem cget_filter {w : Nat} (c : Cells w) (p : Nat → Bool) (k : Nat) :
    cget (c.filter fun e => p e.1) k = if p k then cget c k else 0 := by
  induction c with
  | nil => simp [cget]
  | cons e r ih =>
    obtain ⟨a, b⟩ := e
    by_cases hak : a = k
    · subst hak
      cases hp : p a <;> simp_all [cget]
    · cases hp : p a <;> simp [cget, hp, hak, ih]

theorem cget_cput {w : Nat} (c : Cells w) (k j : Nat) (v : BitVec w) : cget (cput c k v) j = if j = k then v else cget c j := by
  induction c with
  | nil => simp only [cput, cget, eq_comm]
  | cons e r ih =>
    obtain ⟨a, b⟩ := e
    simp only [cput]
    split
    · simp only [cget, eq_comm (a := k)]
    · split
      · subst_vars
        by_cases hj : a = j
        · simp [cget, hj]
        · simp [cget, hj, Ne.symm hj]
      · next h1 h2 =>
        simp only [cget, ih]
        by_cases hj : a = j
        · subst hj; simp [Ne.symm h2]
        · simp [hj]

theorem cget_cset {w : Nat} (c : Cells w) (k j : Nat) (v : BitVec w) : cget (cset c k v) j = if j = k then v else cget c j := by
  unfold cset
  split
  · next h =>
    rw [cget_filter c (fun a => a != k)]
    by_cases hj : j = k <;> simp [hj, h]
  · exact cget_cput c k j v

theorem cget_cset_same {w : Nat} (c : Cells w) (k : Nat) (v : BitVec w) : cget (cset c k v) k = v := by
  rw [cget_cset, if_pos rfl]

theorem cget_cset_other {w : Nat} (c : Cells w) (k j : Nat) (v : BitVec w) (hj : j ≠ k) : cget (cset c k v) j = cget c j := by
  rw [cget_cset, if_neg hj]

theorem cget_ckeep {w : Nat} (c : Cells w) (p : Nat → Bool) (k : Nat) : cget (ckeep c p) k = if p k then cget c k else 0 :=
  cget_filter c p k

theorem cget_csetMany {w : Nat} (l : List (BitVec w)) (c : Cells w) (k j : Nat) :
    cget (csetMany c k l) j = if k ≤ j ∧ j < k + l.length then l.getD (j - k) 0 else cget c j := by
  induction l generalizing c k with
  | nil => rw [if_neg (by simp only [List.length_nil]; omega)]; rfl
  | cons v r ih =>
    simp only [csetMany, ih, cget_cset, List.length_cons]
    by_cases h1 : j = k
    · subst h1
      rw [if_neg (by omega), if_pos rfl, if_pos (by omega)]
      simp
    · rw [if_neg h1]
      by_cases h2 : k + 1 ≤ j ∧ j < k + 1 + r.length
      · rw [if_pos h2, if_pos (by omega)]
        obtain ⟨d, rfl⟩ : ∃ d, j = k + 1 + d := ⟨j - (k + 1), by omega⟩
        have e1 : k + 1 + d - (k + 1) = d := by omega
        have e2 : k + 1 + d - k = d + 1 := by omega
        rw [e1, e2]
        simp
      · rw [if_neg h2, if_neg (by omega)]

theorem cwfFrom_mono {w : Nat} (c : Cells w) (m n : Nat) (h : cwfFrom n c = true) (hm : m ≤ n) : cwfFrom m c = true := by
  cases c with
  | nil => rfl
  | cons e r =>
    simp only [cwfFrom, Bool.and_eq_true, decide_eq_true_eq] at h ⊢
    exact ⟨⟨by omega, h.1.2⟩, h.2⟩

theorem cwfFrom_filter {w : Nat} (c : Cells w) (p : Nat × BitVec w → Bool) (lo : Nat) (h : cwfFrom lo c = true) :
    cwfFrom lo (c.filter p) = true := by
  induction c generalizing lo with
  | nil => rfl
  | cons e r ih =>
    obtain ⟨a, b⟩ := e
    simp only [cwfFrom, Bool.and_eq_true, decide_eq_true_eq] at h
    rw [List.filter_cons]
    split
    · simp only [cwfFrom, Bool.and_eq_true, decide_eq_true_eq]
      exact ⟨h.1, ih _ h.2⟩
    · exact cwfFrom_mono _ _ _ (ih _ h.2) (by omega)

theorem cwfFrom_cput {w : Nat} (c : Cells w) (k : Nat) (v : BitVec w) (lo : Nat) (h : cwfFrom lo c = true) (hk : lo ≤ k)
    (hv : v ≠ 0) : cwfFrom lo (cput c k v) = true := by
  induction c generalizing lo with
  | nil => simp_all [cput, cwfFrom]
  | cons e r ih =>
    obtain ⟨a, b⟩ := e
    simp only [cwfFrom, Bool.and_eq_true, decide_eq_true_eq, bne_iff_ne, ne_eq] at h
    simp only [cput]
    split
    · simp only [cwfFrom, Bool.and_eq_true, decide_eq_true_eq, bne_iff_ne, ne_eq]
      exact ⟨⟨hk, hv⟩, ⟨by omega, h.1.2⟩, h.2⟩
    · split
      · simp only [cwfFrom, Bool.and_eq_true, decide_eq_true_eq, bne_iff_ne, ne_eq]
        subst_vars
        exact ⟨⟨hk, hv⟩, h.2⟩
      · simp only [cwfFrom, Bool.and_eq_true, decide_eq_true_eq, bne_iff_ne, ne_eq]
        exact ⟨h.1, ih _ h.2 (by omega)⟩

/-- Writing a cell keeps the canonical form. -/
theorem cwf_cset {w : Nat} (c : Cells w) (k : Nat) (v : BitVec w) (h : cwf c = true) : cwf (cset c k v) = true := by
  unfold cset
  split
  · exact cwfFrom_filter c _ 0 h
  · next hv => exact cwfFrom_cput c k v 0 h (Nat.zero_le k) hv

/-- Writing a run of cells keeps the canonical form. -/
theorem cwf_csetMany {w : Nat} (l : List (BitVec w)) (c : Cells w) (k : Nat) (h : cwf c = true) :
    cwf (csetMany c k l) = true := by
  induction l generalizing c k with
  | nil => exact h
  | cons v r ih => exact ih _ _ (cwf_cset c k v h)

/-- Dropping cells keeps the canonical form. -/
theorem cwf_ckeep {w : Nat} (c : Cells w) (p : Nat → Bool) (h : cwf c = true) : cwf (ckeep c p) = true :=
  cwfFrom_filter c _ 0 h

/-- Two canonical arrays that read alike are equal. -/
theorem cwf_ext {w : Nat} (c d : Cells w) (hc : cwf c = true) (hd : cwf d = true) (h : ∀ k, cget c k = cget d k) : c = d := by
  have zero : ∀ (c : Cells w) lo k, cwfFrom lo c = true → k < lo → cget c k = 0 := by
    intro c
    induction c with
    | nil => intro lo k _ _; rfl
    | cons e r ih =>
      intro lo k h hk
      simp only [cwfFrom, Bool.and_eq_true, decide_eq_true_eq] at h
      simp only [cget]
      rw [if_neg (by omega)]
      exact ih _ _ h.2 (by omega)
  suffices ∀ lo, cwfFrom lo c = true → cwfFrom lo d = true → c = d from this 0 hc hd
  clear hc hd
  induction c generalizing d with
  | nil =>
    intro lo _ hd
    cases d with
    | nil => rfl
    | cons e r =>
      obtain ⟨a, b⟩ := e
      simp only [cwfFrom, Bool.and_eq_true, bne_iff_ne, ne_eq] at hd
      have := h a
      simp [cget] at this
      exact absurd this.symm hd.1.2
  | cons e r ih =>
    obtain ⟨a, b⟩ := e
    intro lo hc hd
    simp only [cwfFrom, Bool.and_eq_true, decide_eq_true_eq, bne_iff_ne, ne_eq] at hc
    cases d with
    | nil =>
      have := h a
      simp [cget] at this
      exact absurd this hc.1.2
    | cons f t =>
      obtain ⟨a', b'⟩ := f
      simp only [cwfFrom, Bool.and_eq_true, decide_eq_true_eq, bne_iff_ne, ne_eq] at hd
      have haa : a = a' := by
        rcases Nat.lt_trichotomy a a' with hlt | heq | hgt
        · have := h a
          simp only [cget, if_true, if_neg (Nat.ne_of_gt hlt)] at this
          rw [zero t (a' + 1) a hd.2 (by omega)] at this
          exact absurd this hc.1.2
        · exact heq
        · have := h a'
          simp only [cget, if_true, if_neg (Nat.ne_of_gt hgt)] at this
          rw [zero r (a + 1) a' hc.2 (by omega)] at this
          exact absurd this.symm hd.1.2
      subst haa
      have hb : b = b' := by have := h a; simpa [cget] using this
      subst hb
      have : r = t := by
        refine ih t (fun k => ?_) (a + 1) hc.2 hd.2
        by_cases hk : k ≤ a
        · rw [zero r _ k hc.2 (by omega), zero t _ k hd.2 (by omega)]
        · have := h k
          have h1 : a ≠ k := by omega
          simpa [cget, h1] using this
      rw [this]

end Sys2Proof.Machine
end

