-- ==== Sys2Proof/Laws/Progress.lean ====
section
/-! SUPPORT. Every meaning answers a next state: an instruction of a group when its group is resident, a step of the device's
own always. One lemma per function, in the order of the files that declare them. -/

namespace Sys2Proof.Machine

/-- An outcome that is a next state. -/
def Goes (o : Out) : Prop := ∃ t, o = .next t

/-- The instruction that runs is that of a group that is resident. -/
def Resident (s : State) : Prop := ∃ gid g, s.cur = some gid ∧ getGroup s gid = some g

theorem goes_next (t : State) : Goes (.next t) := ⟨t, rfl⟩

theorem goes_ite {c : Prop} [Decidable c] {a b : Out} (ha : Goes a) (hb : Goes b) : Goes (if c then a else b) := by
  split <;> assumption

theorem goes_issue (a0 : State) (a1 : Hdr) (a2 : Bool) (a3 : State → ℕ → Group → State) (h : Resident a0) :
    Goes (issue a0 a1 a2 a3) := by
  obtain ⟨gid, g, hc, hg⟩ := h
  unfold issue
  simp only [hc, hg]
  exact goes_ite (goes_next _) (goes_next _)

theorem goes_dataOp (a0 : State) (a1 : Hdr) (a2 : Bool) (a3 : Width) (a4 : ℕ) (a5 : List (Src × Bool)) (a6 : Dst)
    (a7 : Bool) (a8 : Group → List ℕ → ℕ → ℕ → ℕ) (h : Resident a0) :
    Goes (dataOp a0 a1 a2 a3 a4 a5 a6 a7 a8) := by
  unfold dataOp
  exact goes_issue (h := h) ..

theorem goes_predOp (a0 : State) (a1 : Hdr) (a2 : Width) (a3 : ℕ) (a4 : List (Src × Bool)) (a5 : PSel)
    (a6 : Group → List ℕ → ℕ → ℕ → Bool) (h : Resident a0) :
    Goes (predOp a0 a1 a2 a3 a4 a5 a6) := by
  unfold predOp
  exact goes_issue (h := h) ..

theorem goes_intOp1 (a0 : State) (a1 : Op1) (a2 : ℕ) (a3 : ℤ → ℤ) (h : Resident a0) :
    Goes (intOp1 a0 a1 a2 a3) := by
  unfold intOp1
  exact goes_dataOp (h := h) ..

theorem goes_intOp2 (a0 : State) (a1 : Op2) (a2 : ℕ) (a3 : Bool) (a4 : ℤ → ℤ → ℤ) (h : Resident a0) :
    Goes (intOp2 a0 a1 a2 a3 a4) := by
  unfold intOp2
  exact goes_dataOp (h := h) ..

theorem goes_intOp3 (a0 : State) (a1 : Op3) (a2 : ℕ) (a3 : ℤ → ℤ → ℤ → ℤ) (h : Resident a0) :
    Goes (intOp3 a0 a1 a2 a3) := by
  unfold intOp3
  exact goes_dataOp (h := h) ..

theorem goes_bitOp2 (a0 : State) (a1 : Op2) (a2 : ℕ → ℕ → ℕ) (h : Resident a0) :
    Goes (bitOp2 a0 a1 a2) := by
  unfold bitOp2
  exact goes_dataOp (h := h) ..

theorem goes_countOp (a0 : State) (a1 : Op2) (a2 : ℕ) (a3 : ℤ → ℕ → ℤ) (h : Resident a0) :
    Goes (countOp a0 a1 a2 a3) := by
  unfold countOp
  exact goes_dataOp (h := h) ..

theorem goes_bitCount (a0 : State) (a1 : Op1) (a2 : ℕ → ℕ → ℕ) (h : Resident a0) :
    Goes (bitCount a0 a1 a2) := by
  unfold bitCount
  exact goes_dataOp (h := h) ..

theorem goes_execIadd (a0 : Op2) (a1 : State) (h : Resident a1) :
    Goes (execIadd a0 a1) := by
  unfold execIadd
  exact goes_intOp2 (h := h) ..

theorem goes_execIadd3 (a0 : Op3) (a1 : State) (h : Resident a1) :
    Goes (execIadd3 a0 a1) := by
  unfold execIadd3
  exact goes_intOp3 (h := h) ..

theorem goes_execIsub (a0 : Op2) (a1 : State) (h : Resident a1) :
    Goes (execIsub a0 a1) := by
  unfold execIsub
  exact goes_intOp2 (h := h) ..

theorem goes_execIneg (a0 : Op1) (a1 : State) (h : Resident a1) :
    Goes (execIneg a0 a1) := by
  unfold execIneg
  exact goes_intOp1 (h := h) ..

theorem goes_execIabs (a0 : Op1) (a1 : State) (h : Resident a1) :
    Goes (execIabs a0 a1) := by
  unfold execIabs
  exact goes_intOp1 (h := h) ..

theorem goes_execImul (a0 : Op2) (a1 : State) (h : Resident a1) :
    Goes (execImul a0 a1) := by
  unfold execImul
  exact goes_intOp2 (h := h) ..

theorem goes_execImulh (a0 : Op2) (a1 : State) (h : Resident a1) :
    Goes (execImulh a0 a1) := by
  unfold execImulh
  exact goes_intOp2 (h := h) ..

theorem goes_execImad (a0 : Op3) (a1 : State) (h : Resident a1) :
    Goes (execImad a0 a1) := by
  unfold execImad
  exact goes_intOp3 (h := h) ..

theorem goes_execIdiv (a0 : Op2) (a1 : State) (h : Resident a1) :
    Goes (execIdiv a0 a1) := by
  unfold execIdiv
  exact goes_intOp2 (h := h) ..

theorem goes_execIrem (a0 : Op2) (a1 : State) (h : Resident a1) :
    Goes (execIrem a0 a1) := by
  unfold execIrem
  exact goes_intOp2 (h := h) ..

theorem goes_execImin (a0 : Op2) (a1 : State) (h : Resident a1) :
    Goes (execImin a0 a1) := by
  unfold execImin
  exact goes_intOp2 (h := h) ..

theorem goes_execImax (a0 : Op2) (a1 : State) (h : Resident a1) :
    Goes (execImax a0 a1) := by
  unfold execImax
  exact goes_intOp2 (h := h) ..

theorem goes_execIcmp (a0 : CmpOp) (a1 : State) (h : Resident a1) :
    Goes (execIcmp a0 a1) := by
  unfold execIcmp
  exact goes_predOp (h := h) ..

theorem goes_execIsel (a0 : Hdr) (a1 : Dst) (a2 : Src) (a3 : Src) (a4 : PSel) (a5 : Ty) (a6 : State) (h : Resident a6) :
    Goes (execIsel a0 a1 a2 a3 a4 a5 a6) := by
  unfold execIsel
  exact goes_dataOp (h := h) ..

theorem goes_execAnd (a0 : Op2) (a1 : State) (h : Resident a1) :
    Goes (execAnd a0 a1) := by
  unfold execAnd
  exact goes_bitOp2 (h := h) ..

theorem goes_execOr (a0 : Op2) (a1 : State) (h : Resident a1) :
    Goes (execOr a0 a1) := by
  unfold execOr
  exact goes_bitOp2 (h := h) ..

theorem goes_execXor (a0 : Op2) (a1 : State) (h : Resident a1) :
    Goes (execXor a0 a1) := by
  unfold execXor
  exact goes_bitOp2 (h := h) ..

theorem goes_execNot (a0 : Op1) (a1 : State) (h : Resident a1) :
    Goes (execNot a0 a1) := by
  unfold execNot
  exact goes_dataOp (h := h) ..

theorem goes_execAndn (a0 : Op2) (a1 : State) (h : Resident a1) :
    Goes (execAndn a0 a1) := by
  unfold execAndn
  exact goes_bitOp2 (h := h) ..

theorem goes_execShl (a0 : Op2) (a1 : State) (h : Resident a1) :
    Goes (execShl a0 a1) := by
  unfold execShl
  exact goes_countOp (h := h) ..

theorem goes_execShr (a0 : Op2) (a1 : State) (h : Resident a1) :
    Goes (execShr a0 a1) := by
  unfold execShr
  exact goes_countOp (h := h) ..

theorem goes_execSar (a0 : Op2) (a1 : State) (h : Resident a1) :
    Goes (execSar a0 a1) := by
  unfold execSar
  exact goes_countOp (h := h) ..

theorem goes_execRol (a0 : Op2) (a1 : State) (h : Resident a1) :
    Goes (execRol a0 a1) := by
  unfold execRol
  exact goes_countOp (h := h) ..

theorem goes_execPopc (a0 : Op1) (a1 : State) (h : Resident a1) :
    Goes (execPopc a0 a1) := by
  unfold execPopc
  exact goes_bitCount (h := h) ..

theorem goes_execClz (a0 : Op1) (a1 : State) (h : Resident a1) :
    Goes (execClz a0 a1) := by
  unfold execClz
  exact goes_bitCount (h := h) ..

theorem goes_execCtz (a0 : Op1) (a1 : State) (h : Resident a1) :
    Goes (execCtz a0 a1) := by
  unfold execCtz
  exact goes_bitCount (h := h) ..

theorem goes_execBrev (a0 : Op1) (a1 : State) (h : Resident a1) :
    Goes (execBrev a0 a1) := by
  unfold execBrev
  exact goes_dataOp (h := h) ..

theorem goes_execBfx (a0 : Op2) (a1 : State) (h : Resident a1) :
    Goes (execBfx a0 a1) := by
  unfold execBfx
  exact goes_countOp (h := h) ..

theorem goes_execBfi (a0 : Op3) (a1 : State) (h : Resident a1) :
    Goes (execBfi a0 a1) := by
  unfold execBfi
  exact goes_dataOp (h := h) ..

theorem goes_execPerm (a0 : Op3) (a1 : State) (h : Resident a1) :
    Goes (execPerm a0 a1) := by
  unfold execPerm
  exact goes_dataOp (h := h) ..

theorem goes_execLea (a0 : Op3) (a1 : State) (h : Resident a1) :
    Goes (execLea a0 a1) := by
  unfold execLea
  exact goes_dataOp (h := h) ..

theorem goes_execMov (a0 : Op1) (a1 : State) (h : Resident a1) :
    Goes (execMov a0 a1) := by
  unfold execMov
  exact goes_dataOp (h := h) ..

theorem goes_execMovi (a0 : Hdr) (a1 : Dst) (a2 : BitVec 3) (a3 : BitVec 24) (a4 : State) (h : Resident a4) :
    Goes (execMovi a0 a1 a2 a3 a4) := by
  unfold execMovi
  exact goes_dataOp (h := h) ..

theorem goes_execLdi (a0 : Hdr) (a1 : Dst) (a2 : BitVec 3) (a3 : DWord) (a4 : State) (h : Resident a4) :
    Goes (execLdi a0 a1 a2 a3 a4) := by
  unfold execLdi
  exact goes_dataOp (h := h) ..

theorem goes_execCvti (a0 : Hdr) (a1 : Dst) (a2 : Src) (a3 : Ty) (a4 : Ty) (a5 : BitVec 2) (a6 : State) (h : Resident a6) :
    Goes (execCvti a0 a1 a2 a3 a4 a5 a6) := by
  unfold execCvti
  exact goes_dataOp (h := h) ..

theorem goes_floatOp2 (a0 : State) (a1 : FOp2) (a2 : ℕ) (a3 : RM → FVal → FVal → FVal) (h : Resident a0) :
    Goes (floatOp2 a0 a1 a2 a3) := by
  unfold floatOp2
  exact goes_dataOp (h := h) ..

theorem goes_specOp (a0 : State) (a1 : FOp1) (a2 : SpecFn) (h : Resident a0) :
    Goes (specOp a0 a1 a2) := by
  unfold specOp
  exact goes_dataOp (h := h) ..

theorem goes_signOp (a0 : State) (a1 : Op1) (a2 : ℕ → ℕ → ℕ) (h : Resident a0) :
    Goes (signOp a0 a1 a2) := by
  unfold signOp
  exact goes_dataOp (h := h) ..

theorem goes_extremumOp (a0 : State) (a1 : Op2) (a2 : Ordering → Bool) (h : Resident a0) :
    Goes (extremumOp a0 a1 a2) := by
  unfold extremumOp
  exact goes_dataOp (h := h) ..

theorem goes_execFadd (a0 : FOp2) (a1 : State) (h : Resident a1) :
    Goes (execFadd a0 a1) := by
  unfold execFadd
  exact goes_floatOp2 (h := h) ..

theorem goes_execFsub (a0 : FOp2) (a1 : State) (h : Resident a1) :
    Goes (execFsub a0 a1) := by
  unfold execFsub
  exact goes_floatOp2 (h := h) ..

theorem goes_execFmul (a0 : FOp2) (a1 : State) (h : Resident a1) :
    Goes (execFmul a0 a1) := by
  unfold execFmul
  exact goes_floatOp2 (h := h) ..

theorem goes_execFma (a0 : Op3) (a1 : State) (h : Resident a1) :
    Goes (execFma a0 a1) := by
  unfold execFma
  exact goes_dataOp (h := h) ..

theorem goes_execFmin (a0 : Op2) (a1 : State) (h : Resident a1) :
    Goes (execFmin a0 a1) := by
  unfold execFmin
  exact goes_extremumOp (h := h) ..

theorem goes_execFmax (a0 : Op2) (a1 : State) (h : Resident a1) :
    Goes (execFmax a0 a1) := by
  unfold execFmax
  exact goes_extremumOp (h := h) ..

theorem goes_execFcmp (a0 : CmpOp) (a1 : State) (h : Resident a1) :
    Goes (execFcmp a0 a1) := by
  unfold execFcmp
  exact goes_predOp (h := h) ..

theorem goes_execFneg (a0 : Op1) (a1 : State) (h : Resident a1) :
    Goes (execFneg a0 a1) := by
  unfold execFneg
  exact goes_signOp (h := h) ..

theorem goes_execFabs (a0 : Op1) (a1 : State) (h : Resident a1) :
    Goes (execFabs a0 a1) := by
  unfold execFabs
  exact goes_signOp (h := h) ..

theorem goes_execFrcp (a0 : FOp1) (a1 : State) (h : Resident a1) :
    Goes (execFrcp a0 a1) := by
  unfold execFrcp
  exact goes_specOp (h := h) ..

theorem goes_execFrsq (a0 : FOp1) (a1 : State) (h : Resident a1) :
    Goes (execFrsq a0 a1) := by
  unfold execFrsq
  exact goes_specOp (h := h) ..

theorem goes_execFsqrt (a0 : FOp1) (a1 : State) (h : Resident a1) :
    Goes (execFsqrt a0 a1) := by
  unfold execFsqrt
  exact goes_dataOp (h := h) ..

theorem goes_execFdiv (a0 : FOp2) (a1 : State) (h : Resident a1) :
    Goes (execFdiv a0 a1) := by
  unfold execFdiv
  exact goes_floatOp2 (h := h) ..

theorem goes_execFex2 (a0 : FOp1) (a1 : State) (h : Resident a1) :
    Goes (execFex2 a0 a1) := by
  unfold execFex2
  exact goes_specOp (h := h) ..

theorem goes_execFlg2 (a0 : FOp1) (a1 : State) (h : Resident a1) :
    Goes (execFlg2 a0 a1) := by
  unfold execFlg2
  exact goes_specOp (h := h) ..

theorem goes_execFsin (a0 : FOp1) (a1 : State) (h : Resident a1) :
    Goes (execFsin a0 a1) := by
  unfold execFsin
  exact goes_specOp (h := h) ..

theorem goes_execFcos (a0 : FOp1) (a1 : State) (h : Resident a1) :
    Goes (execFcos a0 a1) := by
  unfold execFcos
  exact goes_specOp (h := h) ..

theorem goes_execFtanh (a0 : FOp1) (a1 : State) (h : Resident a1) :
    Goes (execFtanh a0 a1) := by
  unfold execFtanh
  exact goes_specOp (h := h) ..

theorem goes_execFcls (a0 : Op1) (a1 : State) (h : Resident a1) :
    Goes (execFcls a0 a1) := by
  unfold execFcls
  exact goes_dataOp (h := h) ..

theorem goes_execFscl (a0 : FOp2) (a1 : State) (h : Resident a1) :
    Goes (execFscl a0 a1) := by
  unfold execFscl
  exact goes_dataOp (h := h) ..

theorem goes_execFrnd (a0 : FOp1) (a1 : State) (h : Resident a1) :
    Goes (execFrnd a0 a1) := by
  unfold execFrnd
  exact goes_dataOp (h := h) ..

theorem goes_packedOp (a0 : State) (a1 : Hdr) (a2 : Dst) (a3 : List Src) (a4 : Group → ℕ → ℕ → ℕ → ℕ) (h : Resident a0) :
    Goes (packedOp a0 a1 a2 a3 a4) := by
  unfold packedOp
  exact goes_dataOp (h := h) ..

theorem goes_execHadd2 (a0 : FOp2) (a1 : State) (h : Resident a1) :
    Goes (execHadd2 a0 a1) := by
  unfold execHadd2
  exact goes_packedOp (h := h) ..

theorem goes_execHmul2 (a0 : FOp2) (a1 : State) (h : Resident a1) :
    Goes (execHmul2 a0 a1) := by
  unfold execHmul2
  exact goes_packedOp (h := h) ..

theorem goes_execHfma2 (a0 : Op3) (a1 : State) (h : Resident a1) :
    Goes (execHfma2 a0 a1) := by
  unfold execHfma2
  exact goes_packedOp (h := h) ..

theorem goes_execDot4 (a0 : Op3) (a1 : State) (h : Resident a1) :
    Goes (execDot4 a0 a1) := by
  unfold execDot4
  exact goes_dataOp (h := h) ..

theorem goes_execFcvt (a0 : CvtOp) (a1 : State) (h : Resident a1) :
    Goes (execFcvt a0 a1) := by
  unfold execFcvt
  exact goes_dataOp (h := h) ..

theorem goes_execFcvti (a0 : CvtOp) (a1 : State) (h : Resident a1) :
    Goes (execFcvti a0 a1) := by
  unfold execFcvti
  exact goes_dataOp (h := h) ..

theorem goes_execIcvtf (a0 : CvtOp) (a1 : State) (h : Resident a1) :
    Goes (execIcvtf a0 a1) := by
  unfold execIcvtf
  exact goes_dataOp (h := h) ..

theorem goes_execNop (a0 : Hdr) (a1 : State) (h : Resident a1) :
    Goes (execNop a0 a1) := by
  unfold execNop
  exact goes_issue (h := h) ..

theorem goes_execBra (a0 : Hdr) (a1 : Bool) (a2 : BitVec 24) (a3 : State) (h : Resident a3) :
    Goes (execBra a0 a1 a2 a3) := by
  unfold execBra
  exact goes_issue (h := h) ..

theorem goes_execBru (a0 : Hdr) (a1 : BitVec 24) (a2 : State) (h : Resident a2) :
    Goes (execBru a0 a1 a2) := by
  unfold execBru
  exact goes_issue (h := h) ..

theorem goes_execBrx (a0 : Hdr) (a1 : Src) (a2 : State) (h : Resident a2) :
    Goes (execBrx a0 a1 a2) := by
  unfold execBrx
  exact goes_issue (h := h) ..

theorem goes_execCall (a0 : Hdr) (a1 : BitVec 7) (a2 : BitVec 24) (a3 : State) (h : Resident a3) :
    Goes (execCall a0 a1 a2 a3) := by
  unfold execCall
  exact goes_issue (h := h) ..

theorem goes_execCallx (a0 : Hdr) (a1 : BitVec 7) (a2 : Src) (a3 : State) (h : Resident a3) :
    Goes (execCallx a0 a1 a2 a3) := by
  unfold execCallx
  exact goes_issue (h := h) ..

theorem goes_execRet (a0 : Hdr) (a1 : BitVec 7) (a2 : State) (h : Resident a2) :
    Goes (execRet a0 a1 a2) := by
  unfold execRet
  exact goes_issue (h := h) ..

theorem goes_execDvg (a0 : Hdr) (a1 : BitVec 3) (a2 : Bool) (a3 : BitVec 24) (a4 : State) (h : Resident a4) :
    Goes (execDvg a0 a1 a2 a3 a4) := by
  unfold execDvg
  exact goes_issue (h := h) ..

theorem goes_execCvg (a0 : Hdr) (a1 : State) (h : Resident a1) :
    Goes (execCvg a0 a1) := by
  unfold execCvg
  exact goes_issue (h := h) ..

theorem goes_execExit (a0 : Hdr) (a1 : State) (h : Resident a1) :
    Goes (execExit a0 a1) := by
  unfold execExit
  exact goes_issue (h := h) ..

theorem goes_execYield (a0 : Hdr) (a1 : State) (h : Resident a1) :
    Goes (execYield a0 a1) := by
  unfold execYield
  exact goes_issue (h := h) ..

theorem goes_execSpawn (a0 : Hdr) (a1 : BitVec 8) (a2 : BitVec 3) (a3 : BitVec 24) (a4 : State) (h : Resident a4) :
    Goes (execSpawn a0 a1 a2 a3 a4) := by
  unfold execSpawn
  exact goes_issue (h := h) ..

theorem goes_execSpawnResume (a0 : ℕ) (a1 : State) :
    Goes (execSpawnResume a0 a1) := by
  unfold execSpawnResume
  repeat' with_reducible first | exact goes_next _ | apply goes_ite | split

theorem goes_execRegroup (a0 : Hdr) (a1 : BitVec 3) (a2 : DWord) (a3 : State) (h : Resident a3) :
    Goes (execRegroup a0 a1 a2 a3) := by
  unfold execRegroup
  exact goes_issue (h := h) ..

theorem goes_execRegroupMigrate (a0 : ℕ) (a1 : ℕ) (a2 : State) :
    Goes (execRegroupMigrate a0 a1 a2) := by
  unfold execRegroupMigrate
  repeat' with_reducible first | exact goes_next _ | apply goes_ite | split

theorem goes_execVote (a0 : Hdr) (a1 : VoteOp) (a2 : PSel) (a3 : PSel) (a4 : State) (h : Resident a4) :
    Goes (execVote a0 a1 a2 a3 a4) := by
  unfold execVote
  exact goes_predOp (h := h) ..

theorem goes_execVoteMask (a0 : Hdr) (a1 : Bool) (a2 : Dst) (a3 : PSel) (a4 : State) (h : Resident a4) :
    Goes (execVoteMask a0 a1 a2 a3 a4) := by
  unfold execVoteMask
  exact goes_dataOp (h := h) ..

theorem goes_execElect (a0 : Hdr) (a1 : PSel) (a2 : State) (h : Resident a2) :
    Goes (execElect a0 a1 a2) := by
  unfold execElect
  exact goes_predOp (h := h) ..

theorem goes_execShfl (a0 : Hdr) (a1 : ShflOp) (a2 : Bool) (a3 : Ty) (a4 : Dst) (a5 : Src) (a6 : Src) (a7 : State)
    (h : Resident a7) :
    Goes (execShfl a0 a1 a2 a3 a4 a5 a6 a7) := by
  unfold execShfl
  exact goes_dataOp (h := h) ..

theorem goes_execMatchL (a0 : Hdr) (a1 : Ty) (a2 : Dst) (a3 : Src) (a4 : State) (h : Resident a4) :
    Goes (execMatchL a0 a1 a2 a3 a4) := by
  unfold execMatchL
  exact goes_dataOp (h := h) ..

theorem goes_execPlop (a0 : Hdr) (a1 : PlopOp) (a2 : PSel) (a3 : PSel) (a4 : PSel) (a5 : State) (h : Resident a5) :
    Goes (execPlop a0 a1 a2 a3 a4 a5) := by
  unfold execPlop
  exact goes_predOp (h := h) ..

theorem goes_setfmtWith (a0 : State) (a1 : Hdr) (a2 : List (Src × Bool)) (a3 : Group → ℕ → ℕ → Word) (h : Resident a0) :
    Goes (setfmtWith a0 a1 a2 a3) := by
  unfold setfmtWith
  exact goes_issue (h := h) ..

theorem goes_execSetfmtImm (a0 : Hdr) (a1 : BitVec 24) (a2 : State) (h : Resident a2) :
    Goes (execSetfmtImm a0 a1 a2) := by
  unfold execSetfmtImm
  exact goes_setfmtWith (h := h) ..

theorem goes_execSetfmtReg (a0 : Hdr) (a1 : Src) (a2 : State) (h : Resident a2) :
    Goes (execSetfmtReg a0 a1 a2) := by
  unfold execSetfmtReg
  exact goes_setfmtWith (h := h) ..

theorem goes_execGetfmt (a0 : Hdr) (a1 : Dst) (a2 : State) (h : Resident a2) :
    Goes (execGetfmt a0 a1 a2) := by
  unfold execGetfmt
  exact goes_dataOp (h := h) ..

theorem goes_execSreg (a0 : Hdr) (a1 : Dst) (a2 : BitVec 24) (a3 : State) (h : Resident a3) :
    Goes (execSreg a0 a1 a2 a3) := by
  unfold execSreg
  exact goes_dataOp (h := h) ..

theorem goes_loadOp (a0 : State) (a1 : MemOp) (a2 : Option Rt) (a3 : Bool) (h : Resident a0) :
    Goes (loadOp a0 a1 a2 a3) := by
  unfold loadOp
  exact goes_issue (h := h) ..

theorem goes_storeOp (a0 : State) (a1 : MemOp) (a2 : Option Rt) (a3 : Bool) (h : Resident a0) :
    Goes (storeOp a0 a1 a2 a3) := by
  unfold storeOp
  exact goes_issue (h := h) ..

theorem goes_execLdOwn (a0 : MemOp) (a1 : State) (h : Resident a1) :
    Goes (execLdOwn a0 a1) := by
  unfold execLdOwn
  exact goes_loadOp (h := h) ..

theorem goes_execLdWt (a0 : MemOp) (a1 : State) (h : Resident a1) :
    Goes (execLdWt a0 a1) := by
  unfold execLdWt
  exact goes_loadOp (h := h) ..

theorem goes_execLdSi (a0 : MemOp) (a1 : State) (h : Resident a1) :
    Goes (execLdSi a0 a1) := by
  unfold execLdSi
  exact goes_loadOp (h := h) ..

theorem goes_execLdUc (a0 : MemOp) (a1 : State) (h : Resident a1) :
    Goes (execLdUc a0 a1) := by
  unfold execLdUc
  exact goes_loadOp (h := h) ..

theorem goes_execStOwn (a0 : MemOp) (a1 : State) (h : Resident a1) :
    Goes (execStOwn a0 a1) := by
  unfold execStOwn
  exact goes_storeOp (h := h) ..

theorem goes_execStWt (a0 : MemOp) (a1 : State) (h : Resident a1) :
    Goes (execStWt a0 a1) := by
  unfold execStWt
  exact goes_storeOp (h := h) ..

theorem goes_execStSi (a0 : MemOp) (a1 : State) (h : Resident a1) :
    Goes (execStSi a0 a1) := by
  unfold execStSi
  exact goes_storeOp (h := h) ..

theorem goes_execStUc (a0 : MemOp) (a1 : State) (h : Resident a1) :
    Goes (execStUc a0 a1) := by
  unfold execStUc
  exact goes_storeOp (h := h) ..

theorem goes_execLds (a0 : MemOp) (a1 : State) (h : Resident a1) :
    Goes (execLds a0 a1) := by
  unfold execLds
  exact goes_loadOp (h := h) ..

theorem goes_execSts (a0 : MemOp) (a1 : State) (h : Resident a1) :
    Goes (execSts a0 a1) := by
  unfold execSts
  exact goes_storeOp (h := h) ..

theorem goes_lduOp (a0 : State) (a1 : LduOp) (a2 : Rt) (h : Resident a0) :
    Goes (lduOp a0 a1 a2) := by
  unfold lduOp
  exact goes_issue (h := h) ..

theorem goes_execLduOwn (a0 : LduOp) (a1 : State) (h : Resident a1) :
    Goes (execLduOwn a0 a1) := by
  unfold execLduOwn
  exact goes_lduOp (h := h) ..

theorem goes_execLduWt (a0 : LduOp) (a1 : State) (h : Resident a1) :
    Goes (execLduWt a0 a1) := by
  unfold execLduWt
  exact goes_lduOp (h := h) ..

theorem goes_execLduSi (a0 : LduOp) (a1 : State) (h : Resident a1) :
    Goes (execLduSi a0 a1) := by
  unfold execLduSi
  exact goes_lduOp (h := h) ..

theorem goes_execLduUc (a0 : LduOp) (a1 : State) (h : Resident a1) :
    Goes (execLduUc a0 a1) := by
  unfold execLduUc
  exact goes_lduOp (h := h) ..

theorem goes_execPref (a0 : Hdr) (a1 : BitVec 6) (a2 : Bool) (a3 : BitVec 4) (a4 : BitVec 16) (a5 : State)
    (h : Resident a5) :
    Goes (execPref a0 a1 a2 a3 a4 a5) := by
  unfold execPref
  exact goes_issue (h := h) ..

theorem goes_execZsect (a0 : Hdr) (a1 : BitVec 6) (a2 : Order) (a3 : Scope) (a4 : BitVec 16) (a5 : State) (h : Resident a5) :
    Goes (execZsect a0 a1 a2 a3 a4 a5) := by
  unfold execZsect
  exact goes_issue (h := h) ..

theorem goes_uniformOp (a0 : State) (a1 : Hdr) (a2 : State → ℕ → Group → State × Option (List (ℕ × ℕ))) (h : Resident a0) :
    Goes (uniformOp a0 a1 a2) := by
  unfold uniformOp
  exact goes_issue (h := h) ..

theorem goes_execWmap (a0 : Hdr) (a1 : BitVec 7) (a2 : BitVec 6) (a3 : Scope) (a4 : Bool) (a5 : Rt) (a6 : BitVec 16)
    (a7 : State) (h : Resident a7) :
    Goes (execWmap a0 a1 a2 a3 a4 a5 a6 a7) := by
  unfold execWmap
  exact goes_uniformOp (h := h) ..

theorem goes_bindingOp (a0 : State) (a1 : WinOp) (a2 : State → Window → State) (h : Resident a0) :
    Goes (bindingOp a0 a1 a2) := by
  unfold bindingOp
  exact goes_uniformOp (h := h) ..

theorem goes_execWunmap (a0 : WinOp) (a1 : State) (h : Resident a1) :
    Goes (execWunmap a0 a1) := by
  unfold execWunmap
  exact goes_bindingOp (h := h) ..

theorem goes_execWflush (a0 : WinOp) (a1 : State) (h : Resident a1) :
    Goes (execWflush a0 a1) := by
  unfold execWflush
  exact goes_bindingOp (h := h) ..

theorem goes_execWinv (a0 : WinOp) (a1 : Bool) (a2 : State) (h : Resident a2) :
    Goes (execWinv a0 a1 a2) := by
  unfold execWinv
  exact goes_bindingOp (h := h) ..

theorem goes_execWstat (a0 : WinOp) (a1 : State) (h : Resident a1) :
    Goes (execWstat a0 a1) := by
  unfold execWstat
  exact goes_uniformOp (h := h) ..

theorem goes_maintOp (a0 : State) (a1 : MaintOp) (a2 : Bool) (h : Resident a0) :
    Goes (maintOp a0 a1 a2) := by
  unfold maintOp
  exact goes_uniformOp (h := h) ..

theorem goes_execClean (a0 : MaintOp) (a1 : State) (h : Resident a1) :
    Goes (execClean a0 a1) := by
  unfold execClean
  exact goes_maintOp (h := h) ..

theorem goes_execInval (a0 : MaintOp) (a1 : State) (h : Resident a1) :
    Goes (execInval a0 a1) := by
  unfold execInval
  exact goes_maintOp (h := h) ..

theorem goes_atomOp (a0 : State) (a1 : AtomFields) (a2 : ℕ) (a3 : Bool) (a4 : Group → ℕ → ℕ → AtomAct) (h : Resident a0) :
    Goes (atomOp a0 a1 a2 a3 a4) := by
  unfold atomOp
  exact goes_issue (h := h) ..

theorem goes_execAtom (a0 : AtomFields) (a1 : State) (h : Resident a1) :
    Goes (execAtom a0 a1) := by
  unfold execAtom
  exact goes_atomOp (h := h) ..

theorem goes_execAtomcas (a0 : AtomFields) (a1 : State) (h : Resident a1) :
    Goes (execAtomcas a0 a1) := by
  unfold execAtomcas
  repeat' with_reducible first
    | assumption | exact goes_next _ | apply goes_atomOp

theorem goes_execRed (a0 : AtomFields) (a1 : State) (h : Resident a1) :
    Goes (execRed a0 a1) := by
  unfold execRed
  exact goes_atomOp (h := h) ..

theorem goes_execFence (a0 : Hdr) (a1 : Order) (a2 : Scope) (a3 : State) (h : Resident a3) :
    Goes (execFence a0 a1 a2 a3) := by
  unfold execFence
  exact goes_issue (h := h) ..

theorem goes_execQfence (a0 : Hdr) (a1 : BitVec 6) (a2 : State) (h : Resident a2) :
    Goes (execQfence a0 a1 a2) := by
  unfold execQfence
  exact goes_issue (h := h) ..

theorem goes_execBarTeam (a0 : Hdr) (a1 : BitVec 4) (a2 : State) (h : Resident a2) :
    Goes (execBarTeam a0 a1 a2) := by
  unfold execBarTeam
  exact goes_issue (h := h) ..

theorem goes_execBarRole (a0 : Hdr) (a1 : BitVec 4) (a2 : State) (h : Resident a2) :
    Goes (execBarRole a0 a1 a2) := by
  unfold execBarRole
  exact goes_issue (h := h) ..

theorem goes_execBbar (a0 : Hdr) (a1 : BitVec 4) (a2 : Src) (a3 : State) (h : Resident a3) :
    Goes (execBbar a0 a1 a2 a3) := by
  unfold execBbar
  exact goes_issue (h := h) ..

theorem goes_execBbarEntryFree (a0 : ℕ) (a1 : State) :
    Goes (execBbarEntryFree a0 a1) := by
  unfold execBbarEntryFree
  repeat' with_reducible first | exact goes_next _ | apply goes_ite | split

theorem goes_execMwait (a0 : MwaitOp) (a1 : State) (h : Resident a1) :
    Goes (execMwait a0 a1) := by
  unfold execMwait
  exact goes_issue (h := h) ..

theorem goes_execMwaitRetest (a0 : ℕ) (a1 : State) :
    Goes (execMwaitRetest a0 a1) := by
  unfold execMwaitRetest
  repeat' with_reducible first | exact goes_next _ | apply goes_ite | split

theorem goes_execMwaitOverflowExpiry (a0 : ℕ) (a1 : State) :
    Goes (execMwaitOverflowExpiry a0 a1) := by
  unfold execMwaitOverflowExpiry
  repeat' with_reducible first | exact goes_next _ | apply goes_ite | split

theorem goes_tbOp (a0 : State) (a1 : TbOp) (a2 : State → ℕ → Group → ℕ → Leaf → State) (h : Resident a0) :
    Goes (tbOp a0 a1 a2) := by
  unfold tbOp
  exact goes_issue (h := h) ..

theorem goes_execTbinit (a0 : TbOp) (a1 : State) (h : Resident a1) :
    Goes (execTbinit a0 a1) := by
  unfold execTbinit
  exact goes_tbOp (h := h) ..

theorem goes_execTbarr (a0 : TbOp) (a1 : State) (h : Resident a1) :
    Goes (execTbarr a0 a1) := by
  unfold execTbarr
  exact goes_tbOp (h := h) ..

theorem goes_execTbwait (a0 : TbOp) (a1 : State) (h : Resident a1) :
    Goes (execTbwait a0 a1) := by
  unfold execTbwait
  exact goes_tbOp (h := h) ..

theorem goes_execMailboxWake (a0 : ℕ) (a1 : ℕ) (a2 : State) :
    Goes (execMailboxWake a0 a1 a2) := by
  unfold execMailboxWake
  repeat' with_reducible first | exact goes_next _ | apply goes_ite | split

theorem goes_execMbxw (a0 : Hdr) (a1 : BitVec 5) (a2 : Src) (a3 : State) (h : Resident a3) :
    Goes (execMbxw a0 a1 a2 a3) := by
  unfold execMbxw
  exact goes_issue (h := h) ..

theorem goes_execMbxr (a0 : Hdr) (a1 : BitVec 5) (a2 : Dst) (a3 : State) (h : Resident a3) :
    Goes (execMbxr a0 a1 a2 a3) := by
  unfold execMbxr
  exact goes_issue (h := h) ..

theorem goes_execMbxp (a0 : Hdr) (a1 : BitVec 5) (a2 : Dst) (a3 : PSel) (a4 : State) (h : Resident a4) :
    Goes (execMbxp a0 a1 a2 a3 a4) := by
  unfold execMbxp
  exact goes_issue (h := h) ..

theorem goes_cursorOp (a0 : State) (a1 : Hdr) (a2 : List (BitVec 4)) (a3 : List (Src × Bool)) (a4 : Option Dst)
    (a5 : BitVec 3) (a6 : Group → List ℕ → Bool) (a7 : LaneCtx → Wm LaneOut) (h : Resident a0) :
    Goes (cursorOp a0 a1 a2 a3 a4 a5 a6 a7) := by
  unfold cursorOp
  exact goes_issue (h := h) ..

theorem goes_cinitOp (a0 : State) (a1 : CinitOp) (a2 : Bool) (h : Resident a0) :
    Goes (cinitOp a0 a1 a2) := by
  unfold cinitOp
  exact goes_cursorOp (h := h) ..

theorem goes_execCinit (a0 : CinitOp) (a1 : State) (h : Resident a1) :
    Goes (execCinit a0 a1) := by
  unfold execCinit
  exact goes_cinitOp (h := h) ..

theorem goes_execCinitApp (a0 : CinitOp) (a1 : State) (h : Resident a1) :
    Goes (execCinitApp a0 a1) := by
  unfold execCinitApp
  exact goes_cinitOp (h := h) ..

theorem goes_execCnext (a0 : Hdr) (a1 : BitVec 4) (a2 : BitVec 3) (a3 : State) (h : Resident a3) :
    Goes (execCnext a0 a1 a2 a3) := by
  unfold execCnext
  exact goes_cursorOp (h := h) ..

theorem goes_execCseek (a0 : Hdr) (a1 : BitVec 4) (a2 : Src) (a3 : BitVec 3) (a4 : State) (h : Resident a4) :
    Goes (execCseek a0 a1 a2 a3 a4) := by
  unfold execCseek
  exact goes_cursorOp (h := h) ..

theorem goes_cdescOp (a0 : State) (a1 : CdescOp) (a2 : Bool) (h : Resident a0) :
    Goes (cdescOp a0 a1 a2) := by
  unfold cdescOp
  exact goes_cursorOp (h := h) ..

theorem goes_execCdesc (a0 : CdescOp) (a1 : State) (h : Resident a1) :
    Goes (execCdesc a0 a1) := by
  unfold execCdesc
  exact goes_cdescOp (h := h) ..

theorem goes_execCdescApp (a0 : CdescOp) (a1 : State) (h : Resident a1) :
    Goes (execCdescApp a0 a1) := by
  unfold execCdescApp
  exact goes_cdescOp (h := h) ..

theorem goes_cmergeOp (a0 : State) (a1 : CmergeOp) (a2 : Bool) (h : Resident a0) :
    Goes (cmergeOp a0 a1 a2) := by
  unfold cmergeOp
  exact goes_cursorOp (h := h) ..

theorem goes_execCisec (a0 : CmergeOp) (a1 : State) (h : Resident a1) :
    Goes (execCisec a0 a1) := by
  unfold execCisec
  exact goes_cmergeOp (h := h) ..

theorem goes_execCunion (a0 : CmergeOp) (a1 : State) (h : Resident a1) :
    Goes (execCunion a0 a1) := by
  unfold execCunion
  exact goes_cmergeOp (h := h) ..

theorem goes_execCcrd (a0 : CreadOp) (a1 : State) (h : Resident a1) :
    Goes (execCcrd a0 a1) := by
  unfold execCcrd
  exact goes_cursorOp (h := h) ..

theorem goes_execCpos (a0 : CreadOp) (a1 : State) (h : Resident a1) :
    Goes (execCpos a0 a1) := by
  unfold execCpos
  exact goes_cursorOp (h := h) ..

theorem goes_execCval (a0 : CreadOp) (a1 : State) (h : Resident a1) :
    Goes (execCval a0 a1) := by
  unfold execCval
  exact goes_issue (h := h) ..

theorem goes_execCstv (a0 : Hdr) (a1 : BitVec 4) (a2 : Src) (a3 : State) (h : Resident a3) :
    Goes (execCstv a0 a1 a2 a3) := by
  unfold execCstv
  exact goes_cursorOp (h := h) ..

theorem goes_execCfin (a0 : Hdr) (a1 : BitVec 4) (a2 : State) (h : Resident a2) :
    Goes (execCfin a0 a1 a2) := by
  unfold execCfin
  exact goes_cursorOp (h := h) ..

theorem goes_execCdone (a0 : Hdr) (a1 : BitVec 4) (a2 : BitVec 3) (a3 : State) (h : Resident a3) :
    Goes (execCdone a0 a1 a2 a3) := by
  unfold execCdone
  exact goes_cursorOp (h := h) ..

theorem goes_execCmov (a0 : Hdr) (a1 : BitVec 4) (a2 : BitVec 4) (a3 : State) (h : Resident a3) :
    Goes (execCmov a0 a1 a2 a3) := by
  unfold execCmov
  exact goes_cursorOp (h := h) ..

theorem goes_execCsave (a0 : Hdr) (a1 : BitVec 4) (a2 : Src) (a3 : BitVec 10) (a4 : State) (h : Resident a4) :
    Goes (execCsave a0 a1 a2 a3 a4) := by
  unfold execCsave
  exact goes_cursorOp (h := h) ..

theorem goes_execCrest (a0 : Hdr) (a1 : BitVec 4) (a2 : Src) (a3 : BitVec 10) (a4 : State) (h : Resident a4) :
    Goes (execCrest a0 a1 a2 a3 a4) := by
  unfold execCrest
  exact goes_issue (h := h) ..

theorem goes_execCpref (a0 : Hdr) (a1 : BitVec 4) (a2 : BitVec 4) (a3 : State) (h : Resident a3) :
    Goes (execCpref a0 a1 a2 a3) := by
  unfold execCpref
  exact goes_issue (h := h) ..

theorem goes_execCapp (a0 : Hdr) (a1 : BitVec 4) (a2 : Src) (a3 : Src) (a4 : State) (h : Resident a4) :
    Goes (execCapp a0 a1 a2 a3 a4) := by
  unfold execCapp
  exact goes_issue (h := h) ..

theorem goes_execCaptureEntryFree (a0 : ℕ) (a1 : State) :
    Goes (execCaptureEntryFree a0 a1) := by
  unfold execCaptureEntryFree
  repeat' with_reducible first | exact goes_next _ | apply goes_ite | split

theorem goes_tileMemOp (a0 : State) (a1 : TileMem) (a2 : Kind) (a3 : DWord) (a4 : ℕ → DWord → ℤ → ℕ → MatOp)
    (h : Resident a0) :
    Goes (tileMemOp a0 a1 a2 a3 a4) := by
  unfold tileMemOp
  exact goes_issue (h := h) ..

theorem goes_execTld (a0 : TileMem) (a1 : State) (h : Resident a1) :
    Goes (execTld a0 a1) := by
  unfold execTld
  exact goes_tileMemOp (h := h) ..

theorem goes_execTst (a0 : TileMem) (a1 : State) (h : Resident a1) :
    Goes (execTst a0 a1) := by
  unfold execTst
  exact goes_tileMemOp (h := h) ..

theorem goes_interlocked (a0 : State) (a1 : Hdr) (a2 : Role → Bool) (a3 : Option ℕ) (a4 : Option ℕ)
    (a5 : State → ℕ → Group → Group × ℕ) (h : Resident a0) :
    Goes (interlocked a0 a1 a2 a3 a4 a5) := by
  unfold interlocked
  exact goes_issue (h := h) ..

theorem goes_execTzero (a0 : Hdr) (a1 : BitVec 4) (a2 : State) (h : Resident a2) :
    Goes (execTzero a0 a1 a2) := by
  unfold execTzero
  repeat' with_reducible first
    | assumption | exact goes_next _ | apply goes_interlocked

theorem goes_execAclr (a0 : Hdr) (a1 : BitVec 4) (a2 : State) (h : Resident a2) :
    Goes (execAclr a0 a1 a2) := by
  unfold execAclr
  repeat' with_reducible first
    | assumption | exact goes_next _ | apply goes_interlocked

theorem goes_execArd (a0 : AccMove) (a1 : State) (h : Resident a1) :
    Goes (execArd a0 a1) := by
  unfold execArd
  repeat' with_reducible first
    | assumption | exact goes_next _ | apply goes_interlocked

theorem goes_execAwr (a0 : AccMove) (a1 : State) (h : Resident a1) :
    Goes (execAwr a0 a1) := by
  unfold execAwr
  repeat' with_reducible first
    | assumption | exact goes_next _ | apply goes_interlocked

theorem goes_mmaOp (a0 : State) (a1 : MmaOp) (a2 : Bool) (a3 : DWord) (h : Resident a0) :
    Goes (mmaOp a0 a1 a2 a3) := by
  unfold mmaOp
  exact goes_issue (h := h) ..

theorem goes_execMma (a0 : MmaOp) (a1 : State) (h : Resident a1) :
    Goes (execMma a0 a1) := by
  unfold execMma
  exact goes_mmaOp (h := h) ..

theorem goes_execMmas (a0 : MmaOp) (a1 : State) (h : Resident a1) :
    Goes (execMmas a0 a1) := by
  unfold execMmas
  exact goes_mmaOp (h := h) ..

theorem goes_execAcvt (a0 : Hdr) (a1 : BitVec 4) (a2 : BitVec 4) (a3 : BitVec 2) (a4 : Ty) (a5 : State) (h : Resident a5) :
    Goes (execAcvt a0 a1 a2 a3 a4 a5) := by
  unfold execAcvt
  exact goes_issue (h := h) ..

theorem goes_execTasm (a0 : Hdr) (a1 : BitVec 4) (a2 : BitVec 4) (a3 : Src) (a4 : Bool) (a5 : Bool) (a6 : State)
    (h : Resident a6) :
    Goes (execTasm a0 a1 a2 a3 a4 a5 a6) := by
  unfold execTasm
  exact goes_issue (h := h) ..

theorem goes_performMat (a0 : ℕ) (a1 : MatOp → Bool) (a2 : State) (a3 : State → MatEntry → Group → State × ℕ × List ℕ) :
    Goes (performMat a0 a1 a2 a3) := by
  unfold performMat
  repeat' with_reducible first | exact goes_next _ | apply goes_ite | split

theorem goes_execTldPerform (a0 : ℕ) (a1 : State) :
    Goes (execTldPerform a0 a1) := by
  unfold execTldPerform
  repeat' with_reducible first | exact goes_next _ | apply goes_performMat

theorem goes_execTstPerform (a0 : ℕ) (a1 : State) :
    Goes (execTstPerform a0 a1) := by
  unfold execTstPerform
  repeat' with_reducible first | exact goes_next _ | apply goes_performMat

theorem goes_execTasmPerform (a0 : ℕ) (a1 : State) :
    Goes (execTasmPerform a0 a1) := by
  unfold execTasmPerform
  repeat' with_reducible first | exact goes_next _ | apply goes_performMat

theorem goes_execAcvtPerform (a0 : ℕ) (a1 : State) :
    Goes (execAcvtPerform a0 a1) := by
  unfold execAcvtPerform
  repeat' with_reducible first | exact goes_next _ | apply goes_performMat

theorem goes_execMmaExecute (a0 : ℕ) (a1 : State) :
    Goes (execMmaExecute a0 a1) := by
  unfold execMmaExecute
  repeat' with_reducible first | exact goes_next _ | apply goes_performMat

theorem goes_execMatrixEntryRetire (a0 : ℕ) (a1 : State) :
    Goes (execMatrixEntryRetire a0 a1) := by
  unfold execMatrixEntryRetire
  repeat' with_reducible first | exact goes_next _ | apply goes_ite | split | dsimp only

theorem goes_execMwaitbWake (a0 : ℕ) (a1 : State) :
    Goes (execMwaitbWake a0 a1) := by
  unfold execMwaitbWake
  repeat' with_reducible first | exact goes_next _

theorem goes_execMfence (a0 : Hdr) (a1 : Dst) (a2 : State) (h : Resident a2) :
    Goes (execMfence a0 a1 a2) := by
  unfold execMfence
  exact goes_issue (h := h) ..

theorem goes_execMwaitb (a0 : Hdr) (a1 : Src) (a2 : Bool) (a3 : State) (h : Resident a3) :
    Goes (execMwaitb a0 a1 a2 a3) := by
  unfold execMwaitb
  exact goes_issue (h := h) ..

theorem goes_engineOp (a0 : State) (a1 : EngOp) (a2 : Queue) (a3 : ℕ) (a4 : ℕ) (h : Resident a0) :
    Goes (engineOp a0 a1 a2 a3 a4) := by
  unfold engineOp
  exact goes_issue (h := h) ..

theorem goes_execCpyt (a0 : EngOp) (a1 : State) (h : Resident a1) :
    Goes (execCpyt a0 a1) := by
  unfold execCpyt
  exact goes_engineOp (h := h) ..

theorem goes_execCpyc (a0 : EngOp) (a1 : State) (h : Resident a1) :
    Goes (execCpyc a0 a1) := by
  unfold execCpyc
  exact goes_engineOp (h := h) ..

theorem goes_execCsum (a0 : EngOp) (a1 : State) (h : Resident a1) :
    Goes (execCsum a0 a1) := by
  unfold execCsum
  exact goes_engineOp (h := h) ..

theorem goes_execDecq (a0 : EngOp) (a1 : State) (h : Resident a1) :
    Goes (execDecq a0 a1) := by
  unfold execDecq
  exact goes_engineOp (h := h) ..

theorem goes_execStq (a0 : EngOp) (a1 : State) (h : Resident a1) :
    Goes (execStq a0 a1) := by
  unfold execStq
  exact goes_engineOp (h := h) ..

theorem goes_execNetq (a0 : EngOp) (a1 : State) (h : Resident a1) :
    Goes (execNetq a0 a1) := by
  unfold execNetq
  exact goes_engineOp (h := h) ..

theorem goes_execTopk (a0 : EngOp) (a1 : State) (h : Resident a1) :
    Goes (execTopk a0 a1) := by
  unfold execTopk
  exact goes_engineOp (h := h) ..

theorem goes_execRmv (a0 : EngOp) (a1 : State) (h : Resident a1) :
    Goes (execRmv a0 a1) := by
  unfold execRmv
  exact goes_engineOp (h := h) ..

theorem goes_execCpy (a0 : Hdr) (a1 : BitVec 7) (a2 : Dst) (a3 : DWord) (a4 : State) (h : Resident a4) :
    Goes (execCpy a0 a1 a2 a3 a4) := by
  unfold execCpy
  exact goes_issue (h := h) ..

theorem goes_execQstat (a0 : Hdr) (a1 : Dst) (a2 : Queue) (a3 : State) (h : Resident a3) :
    Goes (execQstat a0 a1 a2 a3) := by
  unfold execQstat
  exact goes_issue (h := h) ..

theorem goes_execLaunch (a0 : EngOp) (a1 : BitVec 10) (a2 : State) (h : Resident a2) :
    Goes (execLaunch a0 a1 a2) := by
  unfold execLaunch
  exact goes_issue (h := h) ..

theorem goes_ringOp (a0 : State) (a1 : RingOp) (a2 : ℕ) (a3 : DWord) (h : Resident a0) :
    Goes (ringOp a0 a1 a2 a3) := by
  unfold ringOp
  exact goes_issue (h := h) ..

theorem goes_execRres (a0 : RingOp) (a1 : State) (h : Resident a1) :
    Goes (execRres a0 a1) := by
  unfold execRres
  exact goes_ringOp (h := h) ..

theorem goes_execRpub (a0 : RingOp) (a1 : State) (h : Resident a1) :
    Goes (execRpub a0 a1) := by
  unfold execRpub
  exact goes_ringOp (h := h) ..

theorem goes_execRtake (a0 : RingOp) (a1 : State) (h : Resident a1) :
    Goes (execRtake a0 a1) := by
  unfold execRtake
  exact goes_ringOp (h := h) ..

theorem goes_execRrel (a0 : RingOp) (a1 : State) (h : Resident a1) :
    Goes (execRrel a0 a1) := by
  unfold execRrel
  exact goes_ringOp (h := h) ..

theorem goes_execRingEntryPerform (a0 : ℕ) (a1 : State) :
    Goes (execRingEntryPerform a0 a1) := by
  unfold execRingEntryPerform
  repeat' with_reducible first | exact goes_next _ | apply goes_ite | split | dsimp only

theorem goes_onceOp (a0 : State) (a1 : Hdr) (a2 : List (Src × Bool)) (a3 : State → ℕ → Group → ℕ → State) (h : Resident a0) :
    Goes (onceOp a0 a1 a2 a3) := by
  unfold onceOp
  exact goes_issue (h := h) ..

theorem goes_execRinvIndex (a0 : Hdr) (a1 : Src) (a2 : State) (h : Resident a2) :
    Goes (execRinvIndex a0 a1 a2) := by
  unfold execRinvIndex
  exact goes_onceOp (h := h) ..

theorem goes_execRinvAll (a0 : Hdr) (a1 : State) (h : Resident a1) :
    Goes (execRinvAll a0 a1) := by
  unfold execRinvAll
  exact goes_onceOp (h := h) ..

theorem goes_execRinvLevel (a0 : Hdr) (a1 : Src) (a2 : State) (h : Resident a2) :
    Goes (execRinvLevel a0 a1 a2) := by
  unfold execRinvLevel
  exact goes_onceOp (h := h) ..

theorem goes_execTrap (a0 : Hdr) (a1 : BitVec 12) (a2 : State) (h : Resident a2) :
    Goes (execTrap a0 a1 a2) := by
  unfold execTrap
  exact goes_issue (h := h) ..

theorem goes_execBrk (a0 : Hdr) (a1 : BitVec 12) (a2 : State) (h : Resident a2) :
    Goes (execBrk a0 a1 a2) := by
  unfold execBrk
  exact goes_issue (h := h) ..

theorem goes_tlbiOp (a0 : State) (a1 : Hdr) (a2 : List (Src × Bool)) (a3 : Group → ℕ → ℕ → TlbEntry → Bool)
    (h : Resident a0) :
    Goes (tlbiOp a0 a1 a2 a3) := by
  unfold tlbiOp
  exact goes_onceOp (h := h) ..

theorem goes_execTlbiPage (a0 : Hdr) (a1 : Src) (a2 : Src) (a3 : State) (h : Resident a3) :
    Goes (execTlbiPage a0 a1 a2 a3) := by
  unfold execTlbiPage
  exact goes_tlbiOp (h := h) ..

theorem goes_execTlbiCtx (a0 : Hdr) (a1 : Src) (a2 : State) (h : Resident a2) :
    Goes (execTlbiCtx a0 a1 a2) := by
  unfold execTlbiCtx
  exact goes_tlbiOp (h := h) ..

theorem goes_execTlbiPart (a0 : Hdr) (a1 : State) (h : Resident a1) :
    Goes (execTlbiPart a0 a1) := by
  unfold execTlbiPart
  exact goes_tlbiOp (h := h) ..

theorem goes_execSsetRngstate (a0 : Hdr) (a1 : Src) (a2 : State) (h : Resident a2) :
    Goes (execSsetRngstate a0 a1 a2) := by
  unfold execSsetRngstate
  exact goes_issue (h := h) ..

theorem goes_execSsetTrapvec (a0 : Hdr) (a1 : Src) (a2 : State) (h : Resident a2) :
    Goes (execSsetTrapvec a0 a1 a2) := by
  unfold execSsetTrapvec
  exact goes_onceOp (h := h) ..

theorem goes_execUnassignedOpcode (a0 : DWord) (a1 : State) (h : Resident a1) : Goes (execUnassignedOpcode a0 a1) := by
  obtain ⟨gid, g, hc, hg⟩ := h
  unfold execUnassignedOpcode
  simp only [hc, hg]
  exact goes_next _

theorem goes_execWaitt (a0 : Hdr) (a1 : Dst) (a2 : Src) (a3 : State) (h : Resident a3) :
    Goes (execWaitt a0 a1 a2 a3) := by
  unfold execWaitt
  exact goes_issue (h := h) ..

theorem goes_execWaittDeadlineReached (a0 : ℕ) (a1 : State) :
    Goes (execWaittDeadlineReached a0 a1) := by
  unfold execWaittDeadlineReached
  repeat' with_reducible first | exact goes_next _ | apply goes_ite | split

theorem goes_execEngineEntryPark (a0 : ℕ) (a1 : Queue) (a2 : State) :
    Goes (execEngineEntryPark a0 a1 a2) := by
  unfold execEngineEntryPark
  repeat' with_reducible first | exact goes_next _ | apply goes_ite | split

theorem goes_performEntry (a0 : ℕ) (a1 : Queue) (a2 : ℕ) (a3 : State) (a4 : List Byte → Bool) (a5 : Entry → Eng → Payload) :
    Goes (performEntry a0 a1 a2 a3 a4 a5) := by
  unfold performEntry
  repeat' with_reducible first | exact goes_next _ | apply goes_ite | split

theorem goes_execCpyPerform (a0 : ℕ) (a1 : State) :
    Goes (execCpyPerform a0 a1) := by
  unfold execCpyPerform
  repeat' with_reducible first | exact goes_next _ | apply goes_performEntry

theorem goes_execCpytPerform (a0 : ℕ) (a1 : State) :
    Goes (execCpytPerform a0 a1) := by
  unfold execCpytPerform
  repeat' with_reducible first | exact goes_next _ | apply goes_performEntry

theorem goes_execCpycPerform (a0 : ℕ) (a1 : State) :
    Goes (execCpycPerform a0 a1) := by
  unfold execCpycPerform
  repeat' with_reducible first | exact goes_next _ | apply goes_performEntry

theorem goes_execCsumPerform (a0 : ℕ) (a1 : State) :
    Goes (execCsumPerform a0 a1) := by
  unfold execCsumPerform
  repeat' with_reducible first | exact goes_next _ | apply goes_performEntry

theorem goes_execDecqPerform (a0 : ℕ) (a1 : State) :
    Goes (execDecqPerform a0 a1) := by
  unfold execDecqPerform
  repeat' with_reducible first | exact goes_next _ | apply goes_performEntry

theorem goes_execTopkPerform (a0 : ℕ) (a1 : State) :
    Goes (execTopkPerform a0 a1) := by
  unfold execTopkPerform
  repeat' with_reducible first | exact goes_next _ | apply goes_performEntry

theorem goes_execRmvPerform (a0 : ℕ) (a1 : State) :
    Goes (execRmvPerform a0 a1) := by
  unfold execRmvPerform
  repeat' with_reducible first | exact goes_next _ | apply goes_performEntry

theorem goes_execStqSubmit (a0 : ℕ) (a1 : State) :
    Goes (execStqSubmit a0 a1) := by
  unfold execStqSubmit
  repeat' with_reducible first | exact goes_next _ | apply goes_ite | split | dsimp only

theorem goes_execNvmeCompletion (a0 : ℕ) (a1 : BitVec 3) (a2 : BitVec 8) (a3 : State) :
    Goes (execNvmeCompletion a0 a1 a2 a3) := by
  unfold execNvmeCompletion
  repeat' with_reducible first | exact goes_next _ | apply goes_ite | split

theorem goes_execNetqPerform (a0 : ℕ) (a1 : State) :
    Goes (execNetqPerform a0 a1) := by
  unfold execNetqPerform
  repeat' with_reducible first | exact goes_next _ | apply goes_ite | split

theorem goes_execNetqAck (a0 : ℕ) (a1 : Bool) (a2 : List Byte) (a3 : State) :
    Goes (execNetqAck a0 a1 a2 a3) := by
  unfold execNetqAck
  repeat' with_reducible first | exact goes_next _ | apply goes_ite | split | dsimp only

theorem goes_execRdmaAckTimeout (a0 : ℕ) (a1 : State) :
    Goes (execRdmaAckTimeout a0 a1) := by
  unfold execRdmaAckTimeout
  repeat' with_reducible first | exact goes_next _ | apply goes_ite | split

theorem goes_execLaunchQueueTailWrite (a0 : ℕ) (a1 : State) :
    Goes (execLaunchQueueTailWrite a0 a1) := by
  unfold execLaunchQueueTailWrite
  repeat' with_reducible first | exact goes_next _ | apply goes_ite | split | dsimp only

theorem goes_execBlockEligible (a0 : ℕ) (a1 : State) :
    Goes (execBlockEligible a0 a1) := by
  unfold execBlockEligible
  repeat' with_reducible first | exact goes_next _ | apply goes_ite | split | dsimp only

theorem goes_execPriorityAging (a0 : ℕ) (a1 : State) :
    Goes (execPriorityAging a0 a1) := by
  unfold execPriorityAging
  repeat' with_reducible first | exact goes_next _ | apply goes_ite | split

theorem goes_execBinTimerExpiry (a0 : ℕ) (a1 : ℕ) (a2 : State) :
    Goes (execBinTimerExpiry a0 a1 a2) := by
  unfold execBinTimerExpiry
  repeat' with_reducible first | exact goes_next _ | apply goes_ite | split

theorem goes_execBinLaunchDeferred (a0 : ℕ) (a1 : ℕ) (a2 : State) :
    Goes (execBinLaunchDeferred a0 a1 a2) := by
  unfold execBinLaunchDeferred
  repeat' with_reducible first | exact goes_next _ | apply goes_ite | split

theorem goes_execRegroupTimeout (a0 : ℕ) (a1 : State) :
    Goes (execRegroupTimeout a0 a1) := by
  unfold execRegroupTimeout
  repeat' with_reducible first | exact goes_next _ | apply goes_ite | split

theorem goes_execStallExchange (a0 : ℕ) (a1 : State) :
    Goes (execStallExchange a0 a1) := by
  unfold execStallExchange
  repeat' with_reducible first | exact goes_next _ | apply goes_ite | split

theorem goes_execEmptySlotFill (a0 : ℕ) (a1 : ℕ) (a2 : State) :
    Goes (execEmptySlotFill a0 a1 a2) := by
  unfold execEmptySlotFill
  repeat' with_reducible first | exact goes_next _ | apply goes_ite | split

theorem goes_execPendingAgeExpiry (a0 : ℕ) (a1 : State) :
    Goes (execPendingAgeExpiry a0 a1) := by
  unfold execPendingAgeExpiry
  repeat' with_reducible first | exact goes_next _ | apply goes_ite | split | dsimp only

theorem goes_execTeamPlace (a0 : ℕ) (a1 : ℕ) (a2 : State) :
    Goes (execTeamPlace a0 a1 a2) := by
  unfold execTeamPlace
  repeat' with_reducible first | exact goes_next _ | apply goes_ite | split

theorem goes_execTeamEnd (a0 : ℕ) (a1 : State) :
    Goes (execTeamEnd a0 a1) := by
  unfold execTeamEnd
  repeat' with_reducible first | exact goes_next _ | apply goes_ite | split | dsimp only

theorem goes_execGridEnd (a0 : ℕ) (a1 : State) :
    Goes (execGridEnd a0 a1) := by
  unfold execGridEnd
  repeat' with_reducible first | exact goes_next _ | apply goes_ite | split

theorem goes_execBudgetOverrun (a0 : ℕ) (a1 : State) :
    Goes (execBudgetOverrun a0 a1) := by
  unfold execBudgetOverrun
  repeat' with_reducible first | exact goes_next _ | apply goes_ite | split | dsimp only

theorem goes_execSplitDrain (a0 : ℕ) (a1 : ℕ) (a2 : State) :
    Goes (execSplitDrain a0 a1 a2) := by
  unfold execSplitDrain
  repeat' with_reducible first | exact goes_next _ | apply goes_ite | split

theorem goes_execSplitReconfigure (a0 : ℕ) (a1 : State) :
    Goes (execSplitReconfigure a0 a1) := by
  unfold execSplitReconfigure
  repeat' with_reducible first | exact goes_next _ | apply goes_ite | split | dsimp only

theorem goes_execPreemptRequest (a0 : ℕ) (a1 : State) :
    Goes (execPreemptRequest a0 a1) := by
  unfold execPreemptRequest
  repeat' with_reducible first | exact goes_next _ | apply goes_ite | split

theorem goes_execHardPreempt (a0 : ℕ) (a1 : State) :
    Goes (execHardPreempt a0 a1) := by
  unfold execHardPreempt
  repeat' with_reducible first | exact goes_next _ | apply goes_ite | split

theorem goes_execTeamSave (a0 : ℕ) (a1 : State) :
    Goes (execTeamSave a0 a1) := by
  unfold execTeamSave
  repeat' with_reducible first | exact goes_next _ | apply goes_ite | split

theorem goes_execTeamResume (a0 : ℕ) (a1 : ℕ) (a2 : State) :
    Goes (execTeamResume a0 a1 a2) := by
  unfold execTeamResume
  repeat' with_reducible first | exact goes_next _ | apply goes_ite | split

theorem goes_execFaultRecordWrite (a0 : ℕ) (a1 : State) :
    Goes (execFaultRecordWrite a0 a1) := by
  unfold execFaultRecordWrite
  repeat' with_reducible first | exact goes_next _ | apply goes_ite | split

theorem goes_execFaultAction (a0 : ℕ) (a1 : ℕ) (a2 : State) :
    Goes (execFaultAction a0 a1 a2) := by
  unfold execFaultAction
  repeat' with_reducible first | exact goes_next _ | apply goes_ite | split

theorem goes_execAgentTimeout (a0 : Unanswered) (a1 : State) :
    Goes (execAgentTimeout a0 a1) := by
  unfold execAgentTimeout
  repeat' with_reducible first | exact goes_next _ | apply goes_ite

theorem goes_execStaleMessageDrop (a0 : AgentId) (a1 : BitVec 8) (a2 : ℕ) (a3 : State) :
    Goes (execStaleMessageDrop a0 a1 a2 a3) := by
  unfold execStaleMessageDrop
  repeat' with_reducible first | exact goes_next _ | apply goes_ite

theorem goes_execHomeWrite (a0 : Sender) (a1 : ℕ) (a2 : BitVec 64) (a3 : BitVec 512) (a4 : State) :
    Goes (execHomeWrite a0 a1 a2 a3 a4) := by
  unfold execHomeWrite
  repeat' with_reducible first | exact goes_next _ | apply goes_ite | split

theorem goes_execForcedPublish (a0 : ℕ) (a1 : State) :
    Goes (execForcedPublish a0 a1) := by
  unfold execForcedPublish
  repeat' with_reducible first | exact goes_next _

theorem goes_execRdcSweep (a0 : ℕ) (a1 : State) :
    Goes (execRdcSweep a0 a1) := by
  unfold execRdcSweep
  repeat' with_reducible first | exact goes_next _

theorem goes_execScrubDram (a0 : ℕ) (a1 : ℕ) (a2 : State) :
    Goes (execScrubDram a0 a1 a2) := by
  unfold execScrubDram
  repeat' with_reducible first | exact goes_next _

theorem goes_execScrubSram (a0 : ℕ) (a1 : ℕ) (a2 : State) :
    Goes (execScrubSram a0 a1 a2) := by
  unfold execScrubSram
  repeat' with_reducible first | exact goes_next _

theorem goes_execDeviceFatal (a0 : BitVec 32) (a1 : State) :
    Goes (execDeviceFatal a0 a1) := by
  unfold execDeviceFatal
  repeat' with_reducible first | exact goes_next _

theorem goes_execUncorrectableError (a0 : ErrAt) (a1 : State) :
    Goes (execUncorrectableError a0 a1) := by
  unfold execUncorrectableError
  repeat' with_reducible first | exact goes_next _ | apply goes_ite | split | dsimp only

theorem goes_execLoadDataReturn (a0 : ℕ) (a1 : State) :
    Goes (execLoadDataReturn a0 a1) := by
  unfold execLoadDataReturn
  repeat' with_reducible first | exact goes_next _ | apply goes_ite | split

theorem goes_execPageWalk (a0 : ℕ) (a1 : ℕ) (a2 : ℕ) (a3 : DWord) (a4 : Bool) (a5 : Bool) (a6 : State) :
    Goes (execPageWalk a0 a1 a2 a3 a4 a5 a6) := by
  unfold execPageWalk
  repeat' with_reducible first | exact goes_next _

theorem goes_execCodebookTableArrival (a0 : ℕ) (a1 : ℕ) (a2 : ℕ) (a3 : ℕ) (a4 : ℕ) (a5 : State) :
    Goes (execCodebookTableArrival a0 a1 a2 a3 a4 a5) := by
  unfold execCodebookTableArrival
  repeat' with_reducible first | exact goes_next _

theorem goes_execFrameReceive (a0 : State) :
    Goes (execFrameReceive a0) := by
  unfold execFrameReceive
  repeat' with_reducible first | exact goes_next _ | apply goes_ite | split

theorem goes_execRdmaWriteInbound (a0 : State) :
    Goes (execRdmaWriteInbound a0) := by
  unfold execRdmaWriteInbound
  repeat' with_reducible first | exact goes_next _ | apply goes_ite | split

theorem goes_execRdmaReadInbound (a0 : State) :
    Goes (execRdmaReadInbound a0) := by
  unfold execRdmaReadInbound
  repeat' with_reducible first | exact goes_next _ | apply goes_ite | split

theorem goes_execRdmaAtomicInbound (a0 : State) :
    Goes (execRdmaAtomicInbound a0) := by
  unfold execRdmaAtomicInbound
  repeat' with_reducible first | exact goes_next _ | apply goes_ite | split

theorem goes_execRdmaSendInbound (a0 : State) :
    Goes (execRdmaSendInbound a0) := by
  unfold execRdmaSendInbound
  repeat' with_reducible first | exact goes_next _ | apply goes_ite | split

theorem goes_execRdmaSignalInbound (a0 : State) :
    Goes (execRdmaSignalInbound a0) := by
  unfold execRdmaSignalInbound
  repeat' with_reducible first | exact goes_next _ | apply goes_ite | split

theorem goes_execRdmaUnsupportedInbound (a0 : State) :
    Goes (execRdmaUnsupportedInbound a0) := by
  unfold execRdmaUnsupportedInbound
  repeat' with_reducible first | exact goes_next _ | apply goes_ite | split

theorem goes_execTargetBufAccess (a0 : State) :
    Goes (execTargetBufAccess a0) := by
  unfold execTargetBufAccess
  repeat' with_reducible first | exact goes_next _ | apply goes_ite | split

theorem goes_execNvmeConnectionLost (a0 : State) :
    Goes (execNvmeConnectionLost a0) := by
  unfold execNvmeConnectionLost
  repeat' with_reducible first | exact goes_next _ | apply goes_ite | split

theorem goes_request (a0 : State) (a1 : Request → Bool) (a2 : State → Request → ℕ × List Byte × State) :
    Goes (request a0 a1 a2) := by
  unfold request
  repeat' with_reducible first | exact goes_next _ | apply goes_ite | split

theorem goes_execReadUnitMap (a0 : State) :
    Goes (execReadUnitMap a0) := by
  unfold execReadUnitMap
  repeat' with_reducible first | exact goes_next _ | apply goes_request

theorem goes_execWritePartitionRecord (a0 : State) :
    Goes (execWritePartitionRecord a0) := by
  unfold execWritePartitionRecord
  repeat' with_reducible first | exact goes_next _ | apply goes_request

theorem goes_execBindVf (a0 : State) :
    Goes (execBindVf a0) := by
  unfold execBindVf
  repeat' with_reducible first | exact goes_next _ | apply goes_request

theorem goes_execWriteLaunchQueueRecord (a0 : State) :
    Goes (execWriteLaunchQueueRecord a0) := by
  unfold execWriteLaunchQueueRecord
  repeat' with_reducible first | exact goes_next _ | apply goes_request

theorem goes_execWriteRegistrationEntry (a0 : State) :
    Goes (execWriteRegistrationEntry a0) := by
  unfold execWriteRegistrationEntry
  repeat' with_reducible first | exact goes_next _ | apply goes_request

theorem goes_execWriteBinding (a0 : State) :
    Goes (execWriteBinding a0) := by
  unfold execWriteBinding
  repeat' with_reducible first | exact goes_next _ | apply goes_request

theorem goes_execLoadKey (a0 : State) :
    Goes (execLoadKey a0) := by
  unfold execLoadKey
  repeat' with_reducible first | exact goes_next _ | apply goes_request

theorem goes_execReadDump (a0 : State) :
    Goes (execReadDump a0) := by
  unfold execReadDump
  repeat' with_reducible first | exact goes_next _ | apply goes_request

theorem goes_execSetPowerCap (a0 : State) :
    Goes (execSetPowerCap a0) := by
  unfold execSetPowerCap
  repeat' with_reducible first | exact goes_next _ | apply goes_request

theorem goes_execResetAndReadmitUnit (a0 : State) :
    Goes (execResetAndReadmitUnit a0) := by
  unfold execResetAndReadmitUnit
  repeat' with_reducible first | exact goes_next _ | apply goes_request

theorem goes_execReserveTimedCapacity (a0 : State) :
    Goes (execReserveTimedCapacity a0) := by
  unfold execReserveTimedCapacity
  repeat' with_reducible first | exact goes_next _ | apply goes_request

theorem goes_execMgmtUnknownCode (a0 : State) :
    Goes (execMgmtUnknownCode a0) := by
  unfold execMgmtUnknownCode
  repeat' with_reducible first | exact goes_next _ | apply goes_request | apply goes_ite | split

theorem goes_execResetRelease (a0 : State) :
    Goes (execResetRelease a0) := by
  unfold execResetRelease
  repeat' with_reducible first | exact goes_next _ | apply goes_ite | split

theorem goes_execResetAssert (a0 : State) :
    Goes (execResetAssert a0) := by
  unfold execResetAssert
  repeat' with_reducible first | exact goes_next _ | apply goes_ite | split

theorem goes_execPowerLoss (a0 : State) :
    Goes (execPowerLoss a0) := by
  unfold execPowerLoss
  repeat' with_reducible first | exact goes_next _ | apply goes_ite | split

theorem goes_execThermalWarning (a0 : State) :
    Goes (execThermalWarning a0) := by
  unfold execThermalWarning
  repeat' with_reducible first | exact goes_next _ | apply goes_ite | split

theorem goes_execThermtrip (a0 : State) :
    Goes (execThermtrip a0) := by
  unfold execThermtrip
  repeat' with_reducible first | exact goes_next _ | apply goes_ite | split

theorem goes_execSeedMake (a0 : State) :
    Goes (execSeedMake a0) := by
  unfold execSeedMake
  repeat' with_reducible first | exact goes_next _ | apply goes_request | apply goes_ite | split

theorem goes_execSeedImageWrite (a0 : State) :
    Goes (execSeedImageWrite a0) := by
  unfold execSeedImageWrite
  repeat' with_reducible first | exact goes_next _ | apply goes_ite | split

theorem goes_execSeedRestore (a0 : State) :
    Goes (execSeedRestore a0) := by
  unfold execSeedRestore
  repeat' with_reducible first | exact goes_next _ | apply goes_request | apply goes_ite | split | dsimp only

theorem goes_execCounterStatement (a0 : State) :
    Goes (execCounterStatement a0) := by
  unfold execCounterStatement
  repeat' with_reducible first | exact goes_next _ | apply goes_request

/-- Every instruction of a resident group answers a next state, and so does every step of the device's own. -/
theorem goes_exec (i : Instr) (s : State) (h : Resident s) : Goes (exec i s) := by
  cases i with
  | nop x => exact goes_execNop x s h
  | bra x y z => exact goes_execBra x y z s h
  | bru x y => exact goes_execBru x y s h
  | brx x y => exact goes_execBrx x y s h
  | call x y z => exact goes_execCall x y z s h
  | callx x y z => exact goes_execCallx x y z s h
  | ret x y => exact goes_execRet x y s h
  | dvg x y z u => exact goes_execDvg x y z u s h
  | cvg x => exact goes_execCvg x s h
  | exit x => exact goes_execExit x s h
  | yield x => exact goes_execYield x s h
  | spawn x y z u => exact goes_execSpawn x y z u s h
  | regroup x y z => exact goes_execRegroup x y z s h
  | vote x y z u => exact goes_execVote x y z u s h
  | voteMask x y z u => exact goes_execVoteMask x y z u s h
  | elect x y => exact goes_execElect x y s h
  | shfl x y z u v w q => exact goes_execShfl x y z u v w q s h
  | matchL x y z u => exact goes_execMatchL x y z u s h
  | plop x y z u v => exact goes_execPlop x y z u v s h
  | setfmtImm x y => exact goes_execSetfmtImm x y s h
  | setfmtReg x y => exact goes_execSetfmtReg x y s h
  | getfmt x y => exact goes_execGetfmt x y s h
  | sreg x y z => exact goes_execSreg x y z s h
  | iadd x => exact goes_execIadd x s h
  | iadd3 x => exact goes_execIadd3 x s h
  | isub x => exact goes_execIsub x s h
  | ineg x => exact goes_execIneg x s h
  | iabs x => exact goes_execIabs x s h
  | imul x => exact goes_execImul x s h
  | imulh x => exact goes_execImulh x s h
  | imad x => exact goes_execImad x s h
  | idiv x => exact goes_execIdiv x s h
  | irem x => exact goes_execIrem x s h
  | imin x => exact goes_execImin x s h
  | imax x => exact goes_execImax x s h
  | icmp x => exact goes_execIcmp x s h
  | isel x y z u v w => exact goes_execIsel x y z u v w s h
  | and x => exact goes_execAnd x s h
  | or x => exact goes_execOr x s h
  | xor x => exact goes_execXor x s h
  | not x => exact goes_execNot x s h
  | andn x => exact goes_execAndn x s h
  | shl x => exact goes_execShl x s h
  | shr x => exact goes_execShr x s h
  | sar x => exact goes_execSar x s h
  | rol x => exact goes_execRol x s h
  | popc x => exact goes_execPopc x s h
  | clz x => exact goes_execClz x s h
  | ctz x => exact goes_execCtz x s h
  | brev x => exact goes_execBrev x s h
  | bfx x => exact goes_execBfx x s h
  | bfi x => exact goes_execBfi x s h
  | perm x => exact goes_execPerm x s h
  | lea x => exact goes_execLea x s h
  | mov x => exact goes_execMov x s h
  | movi x y z u => exact goes_execMovi x y z u s h
  | ldi x y z u => exact goes_execLdi x y z u s h
  | cvti x y z u v w => exact goes_execCvti x y z u v w s h
  | fadd x => exact goes_execFadd x s h
  | fsub x => exact goes_execFsub x s h
  | fmul x => exact goes_execFmul x s h
  | fma x => exact goes_execFma x s h
  | fmin x => exact goes_execFmin x s h
  | fmax x => exact goes_execFmax x s h
  | fcmp x => exact goes_execFcmp x s h
  | fneg x => exact goes_execFneg x s h
  | fabs x => exact goes_execFabs x s h
  | frcp x => exact goes_execFrcp x s h
  | frsq x => exact goes_execFrsq x s h
  | fsqrt x => exact goes_execFsqrt x s h
  | fdiv x => exact goes_execFdiv x s h
  | fex2 x => exact goes_execFex2 x s h
  | flg2 x => exact goes_execFlg2 x s h
  | fsin x => exact goes_execFsin x s h
  | fcos x => exact goes_execFcos x s h
  | ftanh x => exact goes_execFtanh x s h
  | fcls x => exact goes_execFcls x s h
  | fscl x => exact goes_execFscl x s h
  | frnd x => exact goes_execFrnd x s h
  | fcvt x => exact goes_execFcvt x s h
  | fcvti x => exact goes_execFcvti x s h
  | icvtf x => exact goes_execIcvtf x s h
  | hadd2 x => exact goes_execHadd2 x s h
  | hmul2 x => exact goes_execHmul2 x s h
  | hfma2 x => exact goes_execHfma2 x s h
  | dot4 x => exact goes_execDot4 x s h
  | ldOwn x => exact goes_execLdOwn x s h
  | ldWt x => exact goes_execLdWt x s h
  | ldSi x => exact goes_execLdSi x s h
  | ldUc x => exact goes_execLdUc x s h
  | stOwn x => exact goes_execStOwn x s h
  | stWt x => exact goes_execStWt x s h
  | stSi x => exact goes_execStSi x s h
  | stUc x => exact goes_execStUc x s h
  | lduOwn x => exact goes_execLduOwn x s h
  | lduWt x => exact goes_execLduWt x s h
  | lduSi x => exact goes_execLduSi x s h
  | lduUc x => exact goes_execLduUc x s h
  | lds x => exact goes_execLds x s h
  | sts x => exact goes_execSts x s h
  | pref x y z u v => exact goes_execPref x y z u v s h
  | zsect x y z u v => exact goes_execZsect x y z u v s h
  | wmap x y z u v w q => exact goes_execWmap x y z u v w q s h
  | wunmap x => exact goes_execWunmap x s h
  | wflush x => exact goes_execWflush x s h
  | winv x y => exact goes_execWinv x y s h
  | wstat x => exact goes_execWstat x s h
  | clean x => exact goes_execClean x s h
  | inval x => exact goes_execInval x s h
  | atom x => exact goes_execAtom x s h
  | atomcas x => exact goes_execAtomcas x s h
  | red x => exact goes_execRed x s h
  | fence x y z => exact goes_execFence x y z s h
  | qfence x y => exact goes_execQfence x y s h
  | barTeam x y => exact goes_execBarTeam x y s h
  | barRole x y => exact goes_execBarRole x y s h
  | bbar x y z => exact goes_execBbar x y z s h
  | mwait x => exact goes_execMwait x s h
  | tbinit x => exact goes_execTbinit x s h
  | tbarr x => exact goes_execTbarr x s h
  | tbwait x => exact goes_execTbwait x s h
  | cinit x => exact goes_execCinit x s h
  | cinitApp x => exact goes_execCinitApp x s h
  | cnext x y z => exact goes_execCnext x y z s h
  | cseek x y z u => exact goes_execCseek x y z u s h
  | cdesc x => exact goes_execCdesc x s h
  | cdescApp x => exact goes_execCdescApp x s h
  | cisec x => exact goes_execCisec x s h
  | cunion x => exact goes_execCunion x s h
  | ccrd x => exact goes_execCcrd x s h
  | cpos x => exact goes_execCpos x s h
  | cval x => exact goes_execCval x s h
  | cstv x y z => exact goes_execCstv x y z s h
  | capp x y z u => exact goes_execCapp x y z u s h
  | cfin x y => exact goes_execCfin x y s h
  | cdone x y z => exact goes_execCdone x y z s h
  | cmov x y z => exact goes_execCmov x y z s h
  | csave x y z u => exact goes_execCsave x y z u s h
  | crest x y z u => exact goes_execCrest x y z u s h
  | cpref x y z => exact goes_execCpref x y z s h
  | tld x => exact goes_execTld x s h
  | tst x => exact goes_execTst x s h
  | tzero x y => exact goes_execTzero x y s h
  | tasm x y z u v w => exact goes_execTasm x y z u v w s h
  | mma x => exact goes_execMma x s h
  | mmas x => exact goes_execMmas x s h
  | aclr x y => exact goes_execAclr x y s h
  | ard x => exact goes_execArd x s h
  | awr x => exact goes_execAwr x s h
  | acvt x y z u v => exact goes_execAcvt x y z u v s h
  | mfence x y => exact goes_execMfence x y s h
  | mwaitb x y z => exact goes_execMwaitb x y z s h
  | cpy x y z u => exact goes_execCpy x y z u s h
  | cpyt x => exact goes_execCpyt x s h
  | cpyc x => exact goes_execCpyc x s h
  | csum x => exact goes_execCsum x s h
  | decq x => exact goes_execDecq x s h
  | stq x => exact goes_execStq x s h
  | netq x => exact goes_execNetq x s h
  | topk x => exact goes_execTopk x s h
  | rmv x => exact goes_execRmv x s h
  | qstat x y z => exact goes_execQstat x y z s h
  | launch x y => exact goes_execLaunch x y s h
  | mbxw x y z => exact goes_execMbxw x y z s h
  | mbxr x y z => exact goes_execMbxr x y z s h
  | mbxp x y z u => exact goes_execMbxp x y z u s h
  | rres x => exact goes_execRres x s h
  | rpub x => exact goes_execRpub x s h
  | rtake x => exact goes_execRtake x s h
  | rrel x => exact goes_execRrel x s h
  | rinvIndex x y => exact goes_execRinvIndex x y s h
  | rinvAll x => exact goes_execRinvAll x s h
  | rinvLevel x y => exact goes_execRinvLevel x y s h
  | trap x y => exact goes_execTrap x y s h
  | brk x y => exact goes_execBrk x y s h
  | tlbiPage x y z => exact goes_execTlbiPage x y z s h
  | tlbiCtx x y => exact goes_execTlbiCtx x y s h
  | tlbiPart x => exact goes_execTlbiPart x s h
  | ssetRngstate x y => exact goes_execSsetRngstate x y s h
  | ssetTrapvec x y => exact goes_execSsetTrapvec x y s h
  | waitt x y z => exact goes_execWaitt x y z s h
  | binTimerExpiry x y => exact goes_execBinTimerExpiry x y s
  | binLaunchDeferred x y => exact goes_execBinLaunchDeferred x y s
  | spawnResume x => exact goes_execSpawnResume x s
  | regroupMigrate x y => exact goes_execRegroupMigrate x y s
  | regroupTimeout x => exact goes_execRegroupTimeout x s
  | stallExchange x => exact goes_execStallExchange x s
  | emptySlotFill x y => exact goes_execEmptySlotFill x y s
  | pendingAgeExpiry x => exact goes_execPendingAgeExpiry x s
  | teamPlace x y => exact goes_execTeamPlace x y s
  | teamEnd x => exact goes_execTeamEnd x s
  | gridEnd x => exact goes_execGridEnd x s
  | splitDrain x y => exact goes_execSplitDrain x y s
  | splitReconfigure x => exact goes_execSplitReconfigure x s
  | mailboxWake x y => exact goes_execMailboxWake x y s
  | loadDataReturn x => exact goes_execLoadDataReturn x s
  | pageWalk x y z u v w => exact goes_execPageWalk x y z u v w s
  | homeWrite x y z u => exact goes_execHomeWrite x y z u s
  | forcedPublish x => exact goes_execForcedPublish x s
  | rdcSweep x => exact goes_execRdcSweep x s
  | scrubDram x y => exact goes_execScrubDram x y s
  | scrubSram x y => exact goes_execScrubSram x y s
  | uncorrectableError x => exact goes_execUncorrectableError x s
  | mwaitRetest x => exact goes_execMwaitRetest x s
  | mwaitOverflowExpiry x => exact goes_execMwaitOverflowExpiry x s
  | bbarEntryFree x => exact goes_execBbarEntryFree x s
  | captureEntryFree x => exact goes_execCaptureEntryFree x s
  | codebookTableArrival x y z u v => exact goes_execCodebookTableArrival x y z u v s
  | tldPerform x => exact goes_execTldPerform x s
  | tstPerform x => exact goes_execTstPerform x s
  | tasmPerform x => exact goes_execTasmPerform x s
  | mmaExecute x => exact goes_execMmaExecute x s
  | acvtPerform x => exact goes_execAcvtPerform x s
  | matrixEntryRetire x => exact goes_execMatrixEntryRetire x s
  | mwaitbWake x => exact goes_execMwaitbWake x s
  | cpyPerform x => exact goes_execCpyPerform x s
  | cpytPerform x => exact goes_execCpytPerform x s
  | cpycPerform x => exact goes_execCpycPerform x s
  | csumPerform x => exact goes_execCsumPerform x s
  | decqPerform x => exact goes_execDecqPerform x s
  | stqSubmit x => exact goes_execStqSubmit x s
  | nvmeCompletion x y z => exact goes_execNvmeCompletion x y z s
  | netqPerform x => exact goes_execNetqPerform x s
  | netqAck x y z => exact goes_execNetqAck x y z s
  | rdmaAckTimeout x => exact goes_execRdmaAckTimeout x s
  | topkPerform x => exact goes_execTopkPerform x s
  | rmvPerform x => exact goes_execRmvPerform x s
  | ringEntryPerform x => exact goes_execRingEntryPerform x s
  | engineEntryPark x y => exact goes_execEngineEntryPark x y s
  | launchQueueTailWrite x => exact goes_execLaunchQueueTailWrite x s
  | blockEligible x => exact goes_execBlockEligible x s
  | priorityAging x => exact goes_execPriorityAging x s
  | budgetOverrun x => exact goes_execBudgetOverrun x s
  | faultRecordWrite x => exact goes_execFaultRecordWrite x s
  | faultAction x y => exact goes_execFaultAction x y s
  | preemptRequest x => exact goes_execPreemptRequest x s
  | hardPreempt x => exact goes_execHardPreempt x s
  | teamSave x => exact goes_execTeamSave x s
  | teamResume x y => exact goes_execTeamResume x y s
  | agentTimeout x => exact goes_execAgentTimeout x s
  | staleMessageDrop x y z => exact goes_execStaleMessageDrop x y z s
  | deviceFatal x => exact goes_execDeviceFatal x s
  | waittDeadlineReached x => exact goes_execWaittDeadlineReached x s
  | unassignedOpcode x => exact goes_execUnassignedOpcode x s h
  | seedImageWrite => exact goes_execSeedImageWrite s
  | frameReceive => exact goes_execFrameReceive s
  | rdmaWriteInbound => exact goes_execRdmaWriteInbound s
  | rdmaReadInbound => exact goes_execRdmaReadInbound s
  | rdmaAtomicInbound => exact goes_execRdmaAtomicInbound s
  | rdmaSendInbound => exact goes_execRdmaSendInbound s
  | rdmaSignalInbound => exact goes_execRdmaSignalInbound s
  | rdmaUnsupportedInbound => exact goes_execRdmaUnsupportedInbound s
  | targetBufAccess => exact goes_execTargetBufAccess s
  | nvmeConnectionLost => exact goes_execNvmeConnectionLost s
  | readUnitMap => exact goes_execReadUnitMap s
  | writePartitionRecord => exact goes_execWritePartitionRecord s
  | bindVf => exact goes_execBindVf s
  | writeLaunchQueueRecord => exact goes_execWriteLaunchQueueRecord s
  | writeRegistrationEntry => exact goes_execWriteRegistrationEntry s
  | writeBinding => exact goes_execWriteBinding s
  | loadKey => exact goes_execLoadKey s
  | seedMake => exact goes_execSeedMake s
  | seedRestore => exact goes_execSeedRestore s
  | counterStatement => exact goes_execCounterStatement s
  | readDump => exact goes_execReadDump s
  | setPowerCap => exact goes_execSetPowerCap s
  | resetAndReadmitUnit => exact goes_execResetAndReadmitUnit s
  | reserveTimedCapacity => exact goes_execReserveTimedCapacity s
  | mgmtUnknownCode => exact goes_execMgmtUnknownCode s
  | resetRelease => exact goes_execResetRelease s
  | resetAssert => exact goes_execResetAssert s
  | powerLoss => exact goes_execPowerLoss s
  | thermalWarning => exact goes_execThermalWarning s
  | thermtrip => exact goes_execThermtrip s

/-- A step of the device's own answers a next state, whatever the state. -/
theorem goes_exec_device (i : Instr) (s : State) (h : isDeviceStep i = true) : Goes (exec i s) := by
  cases i with
  | nop _ => exact absurd h Bool.false_ne_true
  | bra _ _ _ => exact absurd h Bool.false_ne_true
  | bru _ _ => exact absurd h Bool.false_ne_true
  | brx _ _ => exact absurd h Bool.false_ne_true
  | call _ _ _ => exact absurd h Bool.false_ne_true
  | callx _ _ _ => exact absurd h Bool.false_ne_true
  | ret _ _ => exact absurd h Bool.false_ne_true
  | dvg _ _ _ _ => exact absurd h Bool.false_ne_true
  | cvg _ => exact absurd h Bool.false_ne_true
  | exit _ => exact absurd h Bool.false_ne_true
  | yield _ => exact absurd h Bool.false_ne_true
  | spawn _ _ _ _ => exact absurd h Bool.false_ne_true
  | regroup _ _ _ => exact absurd h Bool.false_ne_true
  | vote _ _ _ _ => exact absurd h Bool.false_ne_true
  | voteMask _ _ _ _ => exact absurd h Bool.false_ne_true
  | elect _ _ => exact absurd h Bool.false_ne_true
  | shfl _ _ _ _ _ _ _ => exact absurd h Bool.false_ne_true
  | matchL _ _ _ _ => exact absurd h Bool.false_ne_true
  | plop _ _ _ _ _ => exact absurd h Bool.false_ne_true
  | setfmtImm _ _ => exact absurd h Bool.false_ne_true
  | setfmtReg _ _ => exact absurd h Bool.false_ne_true
  | getfmt _ _ => exact absurd h Bool.false_ne_true
  | sreg _ _ _ => exact absurd h Bool.false_ne_true
  | iadd _ => exact absurd h Bool.false_ne_true
  | iadd3 _ => exact absurd h Bool.false_ne_true
  | isub _ => exact absurd h Bool.false_ne_true
  | ineg _ => exact absurd h Bool.false_ne_true
  | iabs _ => exact absurd h Bool.false_ne_true
  | imul _ => exact absurd h Bool.false_ne_true
  | imulh _ => exact absurd h Bool.false_ne_true
  | imad _ => exact absurd h Bool.false_ne_true
  | idiv _ => exact absurd h Bool.false_ne_true
  | irem _ => exact absurd h Bool.false_ne_true
  | imin _ => exact absurd h Bool.false_ne_true
  | imax _ => exact absurd h Bool.false_ne_true
  | icmp _ => exact absurd h Bool.false_ne_true
  | isel _ _ _ _ _ _ => exact absurd h Bool.false_ne_true
  | and _ => exact absurd h Bool.false_ne_true
  | or _ => exact absurd h Bool.false_ne_true
  | xor _ => exact absurd h Bool.false_ne_true
  | not _ => exact absurd h Bool.false_ne_true
  | andn _ => exact absurd h Bool.false_ne_true
  | shl _ => exact absurd h Bool.false_ne_true
  | shr _ => exact absurd h Bool.false_ne_true
  | sar _ => exact absurd h Bool.false_ne_true
  | rol _ => exact absurd h Bool.false_ne_true
  | popc _ => exact absurd h Bool.false_ne_true
  | clz _ => exact absurd h Bool.false_ne_true
  | ctz _ => exact absurd h Bool.false_ne_true
  | brev _ => exact absurd h Bool.false_ne_true
  | bfx _ => exact absurd h Bool.false_ne_true
  | bfi _ => exact absurd h Bool.false_ne_true
  | perm _ => exact absurd h Bool.false_ne_true
  | lea _ => exact absurd h Bool.false_ne_true
  | mov _ => exact absurd h Bool.false_ne_true
  | movi _ _ _ _ => exact absurd h Bool.false_ne_true
  | ldi _ _ _ _ => exact absurd h Bool.false_ne_true
  | cvti _ _ _ _ _ _ => exact absurd h Bool.false_ne_true
  | fadd _ => exact absurd h Bool.false_ne_true
  | fsub _ => exact absurd h Bool.false_ne_true
  | fmul _ => exact absurd h Bool.false_ne_true
  | fma _ => exact absurd h Bool.false_ne_true
  | fmin _ => exact absurd h Bool.false_ne_true
  | fmax _ => exact absurd h Bool.false_ne_true
  | fcmp _ => exact absurd h Bool.false_ne_true
  | fneg _ => exact absurd h Bool.false_ne_true
  | fabs _ => exact absurd h Bool.false_ne_true
  | frcp _ => exact absurd h Bool.false_ne_true
  | frsq _ => exact absurd h Bool.false_ne_true
  | fsqrt _ => exact absurd h Bool.false_ne_true
  | fdiv _ => exact absurd h Bool.false_ne_true
  | fex2 _ => exact absurd h Bool.false_ne_true
  | flg2 _ => exact absurd h Bool.false_ne_true
  | fsin _ => exact absurd h Bool.false_ne_true
  | fcos _ => exact absurd h Bool.false_ne_true
  | ftanh _ => exact absurd h Bool.false_ne_true
  | fcls _ => exact absurd h Bool.false_ne_true
  | fscl _ => exact absurd h Bool.false_ne_true
  | frnd _ => exact absurd h Bool.false_ne_true
  | fcvt _ => exact absurd h Bool.false_ne_true
  | fcvti _ => exact absurd h Bool.false_ne_true
  | icvtf _ => exact absurd h Bool.false_ne_true
  | hadd2 _ => exact absurd h Bool.false_ne_true
  | hmul2 _ => exact absurd h Bool.false_ne_true
  | hfma2 _ => exact absurd h Bool.false_ne_true
  | dot4 _ => exact absurd h Bool.false_ne_true
  | ldOwn _ => exact absurd h Bool.false_ne_true
  | ldWt _ => exact absurd h Bool.false_ne_true
  | ldSi _ => exact absurd h Bool.false_ne_true
  | ldUc _ => exact absurd h Bool.false_ne_true
  | stOwn _ => exact absurd h Bool.false_ne_true
  | stWt _ => exact absurd h Bool.false_ne_true
  | stSi _ => exact absurd h Bool.false_ne_true
  | stUc _ => exact absurd h Bool.false_ne_true
  | lduOwn _ => exact absurd h Bool.false_ne_true
  | lduWt _ => exact absurd h Bool.false_ne_true
  | lduSi _ => exact absurd h Bool.false_ne_true
  | lduUc _ => exact absurd h Bool.false_ne_true
  | lds _ => exact absurd h Bool.false_ne_true
  | sts _ => exact absurd h Bool.false_ne_true
  | pref _ _ _ _ _ => exact absurd h Bool.false_ne_true
  | zsect _ _ _ _ _ => exact absurd h Bool.false_ne_true
  | wmap _ _ _ _ _ _ _ => exact absurd h Bool.false_ne_true
  | wunmap _ => exact absurd h Bool.false_ne_true
  | wflush _ => exact absurd h Bool.false_ne_true
  | winv _ _ => exact absurd h Bool.false_ne_true
  | wstat _ => exact absurd h Bool.false_ne_true
  | clean _ => exact absurd h Bool.false_ne_true
  | inval _ => exact absurd h Bool.false_ne_true
  | atom _ => exact absurd h Bool.false_ne_true
  | atomcas _ => exact absurd h Bool.false_ne_true
  | red _ => exact absurd h Bool.false_ne_true
  | fence _ _ _ => exact absurd h Bool.false_ne_true
  | qfence _ _ => exact absurd h Bool.false_ne_true
  | barTeam _ _ => exact absurd h Bool.false_ne_true
  | barRole _ _ => exact absurd h Bool.false_ne_true
  | bbar _ _ _ => exact absurd h Bool.false_ne_true
  | mwait _ => exact absurd h Bool.false_ne_true
  | tbinit _ => exact absurd h Bool.false_ne_true
  | tbarr _ => exact absurd h Bool.false_ne_true
  | tbwait _ => exact absurd h Bool.false_ne_true
  | cinit _ => exact absurd h Bool.false_ne_true
  | cinitApp _ => exact absurd h Bool.false_ne_true
  | cnext _ _ _ => exact absurd h Bool.false_ne_true
  | cseek _ _ _ _ => exact absurd h Bool.false_ne_true
  | cdesc _ => exact absurd h Bool.false_ne_true
  | cdescApp _ => exact absurd h Bool.false_ne_true
  | cisec _ => exact absurd h Bool.false_ne_true
  | cunion _ => exact absurd h Bool.false_ne_true
  | ccrd _ => exact absurd h Bool.false_ne_true
  | cpos _ => exact absurd h Bool.false_ne_true
  | cval _ => exact absurd h Bool.false_ne_true
  | cstv _ _ _ => exact absurd h Bool.false_ne_true
  | capp _ _ _ _ => exact absurd h Bool.false_ne_true
  | cfin _ _ => exact absurd h Bool.false_ne_true
  | cdone _ _ _ => exact absurd h Bool.false_ne_true
  | cmov _ _ _ => exact absurd h Bool.false_ne_true
  | csave _ _ _ _ => exact absurd h Bool.false_ne_true
  | crest _ _ _ _ => exact absurd h Bool.false_ne_true
  | cpref _ _ _ => exact absurd h Bool.false_ne_true
  | tld _ => exact absurd h Bool.false_ne_true
  | tst _ => exact absurd h Bool.false_ne_true
  | tzero _ _ => exact absurd h Bool.false_ne_true
  | tasm _ _ _ _ _ _ => exact absurd h Bool.false_ne_true
  | mma _ => exact absurd h Bool.false_ne_true
  | mmas _ => exact absurd h Bool.false_ne_true
  | aclr _ _ => exact absurd h Bool.false_ne_true
  | ard _ => exact absurd h Bool.false_ne_true
  | awr _ => exact absurd h Bool.false_ne_true
  | acvt _ _ _ _ _ => exact absurd h Bool.false_ne_true
  | mfence _ _ => exact absurd h Bool.false_ne_true
  | mwaitb _ _ _ => exact absurd h Bool.false_ne_true
  | cpy _ _ _ _ => exact absurd h Bool.false_ne_true
  | cpyt _ => exact absurd h Bool.false_ne_true
  | cpyc _ => exact absurd h Bool.false_ne_true
  | csum _ => exact absurd h Bool.false_ne_true
  | decq _ => exact absurd h Bool.false_ne_true
  | stq _ => exact absurd h Bool.false_ne_true
  | netq _ => exact absurd h Bool.false_ne_true
  | topk _ => exact absurd h Bool.false_ne_true
  | rmv _ => exact absurd h Bool.false_ne_true
  | qstat _ _ _ => exact absurd h Bool.false_ne_true
  | launch _ _ => exact absurd h Bool.false_ne_true
  | mbxw _ _ _ => exact absurd h Bool.false_ne_true
  | mbxr _ _ _ => exact absurd h Bool.false_ne_true
  | mbxp _ _ _ _ => exact absurd h Bool.false_ne_true
  | rres _ => exact absurd h Bool.false_ne_true
  | rpub _ => exact absurd h Bool.false_ne_true
  | rtake _ => exact absurd h Bool.false_ne_true
  | rrel _ => exact absurd h Bool.false_ne_true
  | rinvIndex _ _ => exact absurd h Bool.false_ne_true
  | rinvAll _ => exact absurd h Bool.false_ne_true
  | rinvLevel _ _ => exact absurd h Bool.false_ne_true
  | trap _ _ => exact absurd h Bool.false_ne_true
  | brk _ _ => exact absurd h Bool.false_ne_true
  | tlbiPage _ _ _ => exact absurd h Bool.false_ne_true
  | tlbiCtx _ _ => exact absurd h Bool.false_ne_true
  | tlbiPart _ => exact absurd h Bool.false_ne_true
  | ssetRngstate _ _ => exact absurd h Bool.false_ne_true
  | ssetTrapvec _ _ => exact absurd h Bool.false_ne_true
  | waitt _ _ _ => exact absurd h Bool.false_ne_true
  | binTimerExpiry x y => exact goes_execBinTimerExpiry x y s
  | binLaunchDeferred x y => exact goes_execBinLaunchDeferred x y s
  | spawnResume x => exact goes_execSpawnResume x s
  | regroupMigrate x y => exact goes_execRegroupMigrate x y s
  | regroupTimeout x => exact goes_execRegroupTimeout x s
  | stallExchange x => exact goes_execStallExchange x s
  | emptySlotFill x y => exact goes_execEmptySlotFill x y s
  | pendingAgeExpiry x => exact goes_execPendingAgeExpiry x s
  | teamPlace x y => exact goes_execTeamPlace x y s
  | teamEnd x => exact goes_execTeamEnd x s
  | gridEnd x => exact goes_execGridEnd x s
  | splitDrain x y => exact goes_execSplitDrain x y s
  | splitReconfigure x => exact goes_execSplitReconfigure x s
  | mailboxWake x y => exact goes_execMailboxWake x y s
  | loadDataReturn x => exact goes_execLoadDataReturn x s
  | pageWalk x y z u v w => exact goes_execPageWalk x y z u v w s
  | homeWrite x y z u => exact goes_execHomeWrite x y z u s
  | forcedPublish x => exact goes_execForcedPublish x s
  | rdcSweep x => exact goes_execRdcSweep x s
  | scrubDram x y => exact goes_execScrubDram x y s
  | scrubSram x y => exact goes_execScrubSram x y s
  | uncorrectableError x => exact goes_execUncorrectableError x s
  | mwaitRetest x => exact goes_execMwaitRetest x s
  | mwaitOverflowExpiry x => exact goes_execMwaitOverflowExpiry x s
  | bbarEntryFree x => exact goes_execBbarEntryFree x s
  | captureEntryFree x => exact goes_execCaptureEntryFree x s
  | codebookTableArrival x y z u v => exact goes_execCodebookTableArrival x y z u v s
  | tldPerform x => exact goes_execTldPerform x s
  | tstPerform x => exact goes_execTstPerform x s
  | tasmPerform x => exact goes_execTasmPerform x s
  | mmaExecute x => exact goes_execMmaExecute x s
  | acvtPerform x => exact goes_execAcvtPerform x s
  | matrixEntryRetire x => exact goes_execMatrixEntryRetire x s
  | mwaitbWake x => exact goes_execMwaitbWake x s
  | cpyPerform x => exact goes_execCpyPerform x s
  | cpytPerform x => exact goes_execCpytPerform x s
  | cpycPerform x => exact goes_execCpycPerform x s
  | csumPerform x => exact goes_execCsumPerform x s
  | decqPerform x => exact goes_execDecqPerform x s
  | stqSubmit x => exact goes_execStqSubmit x s
  | nvmeCompletion x y z => exact goes_execNvmeCompletion x y z s
  | netqPerform x => exact goes_execNetqPerform x s
  | netqAck x y z => exact goes_execNetqAck x y z s
  | rdmaAckTimeout x => exact goes_execRdmaAckTimeout x s
  | topkPerform x => exact goes_execTopkPerform x s
  | rmvPerform x => exact goes_execRmvPerform x s
  | ringEntryPerform x => exact goes_execRingEntryPerform x s
  | engineEntryPark x y => exact goes_execEngineEntryPark x y s
  | launchQueueTailWrite x => exact goes_execLaunchQueueTailWrite x s
  | blockEligible x => exact goes_execBlockEligible x s
  | priorityAging x => exact goes_execPriorityAging x s
  | budgetOverrun x => exact goes_execBudgetOverrun x s
  | faultRecordWrite x => exact goes_execFaultRecordWrite x s
  | faultAction x y => exact goes_execFaultAction x y s
  | preemptRequest x => exact goes_execPreemptRequest x s
  | hardPreempt x => exact goes_execHardPreempt x s
  | teamSave x => exact goes_execTeamSave x s
  | teamResume x y => exact goes_execTeamResume x y s
  | agentTimeout x => exact goes_execAgentTimeout x s
  | staleMessageDrop x y z => exact goes_execStaleMessageDrop x y z s
  | deviceFatal x => exact goes_execDeviceFatal x s
  | waittDeadlineReached x => exact goes_execWaittDeadlineReached x s
  | unassignedOpcode _ => exact absurd h Bool.false_ne_true
  | seedImageWrite => exact goes_execSeedImageWrite s
  | frameReceive => exact goes_execFrameReceive s
  | rdmaWriteInbound => exact goes_execRdmaWriteInbound s
  | rdmaReadInbound => exact goes_execRdmaReadInbound s
  | rdmaAtomicInbound => exact goes_execRdmaAtomicInbound s
  | rdmaSendInbound => exact goes_execRdmaSendInbound s
  | rdmaSignalInbound => exact goes_execRdmaSignalInbound s
  | rdmaUnsupportedInbound => exact goes_execRdmaUnsupportedInbound s
  | targetBufAccess => exact goes_execTargetBufAccess s
  | nvmeConnectionLost => exact goes_execNvmeConnectionLost s
  | readUnitMap => exact goes_execReadUnitMap s
  | writePartitionRecord => exact goes_execWritePartitionRecord s
  | bindVf => exact goes_execBindVf s
  | writeLaunchQueueRecord => exact goes_execWriteLaunchQueueRecord s
  | writeRegistrationEntry => exact goes_execWriteRegistrationEntry s
  | writeBinding => exact goes_execWriteBinding s
  | loadKey => exact goes_execLoadKey s
  | seedMake => exact goes_execSeedMake s
  | seedRestore => exact goes_execSeedRestore s
  | counterStatement => exact goes_execCounterStatement s
  | readDump => exact goes_execReadDump s
  | setPowerCap => exact goes_execSetPowerCap s
  | resetAndReadmitUnit => exact goes_execResetAndReadmitUnit s
  | reserveTimedCapacity => exact goes_execReserveTimedCapacity s
  | mgmtUnknownCode => exact goes_execMgmtUnknownCode s
  | resetRelease => exact goes_execResetRelease s
  | resetAssert => exact goes_execResetAssert s
  | powerLoss => exact goes_execPowerLoss s
  | thermalWarning => exact goes_execThermalWarning s
  | thermtrip => exact goes_execThermtrip s

end Sys2Proof.Machine
end

