-- ==== Sys2Proof/Laws/Choice.lean ====
section
/-! SUPPORT. What `step` chooses: fetching leaves every group resident, the group that issues is resident, and the step of the
device's own that comes next is one. -/

namespace Sys2Proof.Machine

/-! ### Fetching leaves every group resident -/

/-- A table keeps its keys under a map. -/
theorem isSome_tmap {α : Type} (t : Tab α) (f : Nat → α → α) (k : Nat) (h : (tget t k).isSome = true) :
    (tget (tmap t f) k).isSome = true := by
  induction t with
  | nil => exact h
  | cons e r ih =>
    obtain ⟨a, b⟩ := e
    simp only [tget] at h
    simp only [tmap, List.map_cons, tget]
    split
    · rfl
    · next hk => rw [if_neg hk] at h; exact ih h

theorem stays_ite {gid : Nat} {c : Prop} [Decidable c] {a b : State} (ha : (tget a.groups gid).isSome = true)
    (hb : (tget b.groups gid).isSome = true) : (tget (if c then a else b).groups gid).isSome = true := by split <;> assumption

theorem stays_ite1 {gid : Nat} {α : Type} {c : Prop} [Decidable c] {a b : State × α}
    (ha : (tget a.1.groups gid).isSome = true) (hb : (tget b.1.groups gid).isSome = true) :
    (tget (if c then a else b).1.groups gid).isSome = true := by split <;> assumption

theorem stays_foldl {gid : Nat} {β : Type} {f : State → β → State} {l : List β} {s : State}
    (h : (tget s.groups gid).isSome = true)
    (hf : ∀ z b, (tget z.groups gid).isSome = true → (tget (f z b).groups gid).isSome = true) :
    (tget (l.foldl f s).groups gid).isSome = true := by
  induction l generalizing s with
  | nil => exact h
  | cons b r ih => exact ih (hf s b h)

theorem stays_foldl1 {gid : Nat} {α β : Type} {f : State × α → β → State × α} {l : List β} {p : State × α}
    (h : (tget p.1.groups gid).isSome = true)
    (hf : ∀ z b, (tget z.1.groups gid).isSome = true → (tget (f z b).1.groups gid).isSome = true) :
    (tget (l.foldl f p).1.groups gid).isSome = true := by
  induction l generalizing p with
  | nil => exact h
  | cons b r ih => exact ih (hf p b h)

theorem stays_of {gid : Nat} {α : Type} {p : State × α} {s : State} {a : α} (he : p = (s, a))
    (h : (tget p.1.groups gid).isSome = true) : (tget s.groups gid).isSome = true := by subst he; exact h

theorem stays_setCore (gid : ℕ) (a0 : State) (a1 : ℕ) (a2 : Core) (h0 : (tget a0.groups gid).isSome = true) :
    (tget (setCore a0 a1 a2).groups gid).isSome = true := by
    unfold setCore
    repeat' with_reducible first
      | assumption | intro _ | dsimp only | apply stays_ite | apply stays_ite1 | split | apply stays_foldl
      | apply stays_foldl1 | refine stays_of (by assumption) ?_ | apply isSome_tmap

theorem stays_drawKeep (gid : ℕ) (a0 : State) (h0 : (tget a0.groups gid).isSome = true) :
    (tget (drawKeep a0).1.groups gid).isSome = true := by
    unfold drawKeep
    repeat' with_reducible first
      | assumption | intro _ | dsimp only | apply stays_ite | apply stays_ite1 | split | apply stays_foldl
      | apply stays_foldl1 | refine stays_of (by assumption) ?_ | apply isSome_tmap

theorem stays_rekeyFrame (gid : ℕ) (a0 : State) (a1 : ℕ) (a2 : List Byte) (h0 : (tget a0.groups gid).isSome = true) :
    (tget (rekeyFrame a0 a1 a2).groups gid).isSome = true := by
    unfold rekeyFrame
    repeat' with_reducible first
      | assumption | intro _ | dsimp only | apply stays_ite | apply stays_ite1 | split | apply stays_foldl
      | apply stays_foldl1 | refine stays_of (by assumption) ?_ | apply isSome_tmap

theorem stays_underKey (gid : ℕ) (a0 : State) (a1 : ℕ) (a2 : List Byte) (a3 : State → State)
    (h0 : (tget a0.groups gid).isSome = true)
    (h3 : ∀ z, (tget z.groups gid).isSome = true → (tget (a3 z).groups gid).isSome = true) :
    (tget (underKey a0 a1 a2 a3).groups gid).isSome = true := by
    unfold underKey
    repeat' with_reducible first
      | assumption | intro _ | dsimp only | apply h3 | apply stays_rekeyFrame | apply stays_ite | apply stays_ite1
      | split | apply stays_foldl | apply stays_foldl1 | refine stays_of (by assumption) ?_ | apply isSome_tmap

theorem stays_noteOld (gid : ℕ) (a0 : State) (a1 : ℕ) (h0 : (tget a0.groups gid).isSome = true) :
    (tget (noteOld a0 a1).groups gid).isSome = true := by
    unfold noteOld
    repeat' with_reducible first
      | assumption | intro _ | dsimp only | apply stays_ite | apply stays_ite1 | split | apply stays_foldl
      | apply stays_foldl1 | refine stays_of (by assumption) ?_ | apply isSome_tmap

theorem stays_pokeWatchers (gid : ℕ) (a0 : State) (a1 : ℕ) (h0 : (tget a0.groups gid).isSome = true) :
    (tget (pokeWatchers a0 a1).groups gid).isSome = true := by
    unfold pokeWatchers
    repeat' with_reducible first
      | assumption | intro _ | dsimp only | apply stays_ite | apply stays_ite1 | split | apply stays_foldl
      | apply stays_foldl1 | refine stays_of (by assumption) ?_ | apply isSome_tmap

theorem stays_rawHome (gid : ℕ) (a0 : State) (a1 : ℕ) (a2 : BitVec 64) (a3 : BitVec 512) (a4 : BitVec 16) (a5 : Bool)
    (h0 : (tget a0.groups gid).isSome = true) :
    (tget (rawHome a0 a1 a2 a3 a4 a5).groups gid).isSome = true := by
    unfold rawHome
    repeat' with_reducible first
      | assumption | intro _ | dsimp only | apply stays_noteOld | apply stays_pokeWatchers | apply stays_ite
      | apply stays_ite1 | split | apply stays_foldl | apply stays_foldl1 | refine stays_of (by assumption) ?_
      | apply isSome_tmap

theorem stays_dropCopy (gid : ℕ) (a0 : State) (a1 : ℕ) (a2 : ℕ) (h0 : (tget a0.groups gid).isSome = true) :
    (tget (dropCopy a0 a1 a2).groups gid).isSome = true := by
    unfold dropCopy
    repeat' with_reducible first
      | assumption | intro _ | dsimp only | apply stays_ite | apply stays_ite1 | split | apply stays_foldl
      | apply stays_foldl1 | refine stays_of (by assumption) ?_ | apply isSome_tmap

theorem stays_putCopy (gid : ℕ) (a0 : State) (a1 : Copy) (h0 : (tget a0.groups gid).isSome = true) :
    (tget (putCopy a0 a1).groups gid).isSome = true := by
    unfold putCopy
    repeat' with_reducible first
      | assumption | intro _ | dsimp only | apply stays_dropCopy | apply stays_noteOld | apply stays_ite
      | apply stays_ite1 | split | apply stays_foldl | apply stays_foldl1 | refine stays_of (by assumption) ?_
      | apply isSome_tmap

theorem stays_invalidateWindows (gid : ℕ) (a0 : State) (a1 : ℕ) (a2 : BitVec 16) (a3 : Option (ℕ × ℕ))
    (h0 : (tget a0.groups gid).isSome = true) :
    (tget (invalidateWindows a0 a1 a2 a3).groups gid).isSome = true := by
    unfold invalidateWindows
    repeat' with_reducible first
      | assumption | intro _ | dsimp only | apply stays_ite | apply stays_ite1 | split | apply stays_foldl
      | apply stays_foldl1 | refine stays_of (by assumption) ?_ | apply isSome_tmap

theorem stays_setPoison (gid : ℕ) (a0 : State) (a1 : ℕ) (a2 : Bool) (h0 : (tget a0.groups gid).isSome = true) :
    (tget (setPoison a0 a1 a2).groups gid).isSome = true := by
    unfold setPoison
    repeat' with_reducible first
      | assumption | intro _ | dsimp only | apply stays_ite | apply stays_ite1 | split | apply stays_foldl
      | apply stays_foldl1 | refine stays_of (by assumption) ?_ | apply isSome_tmap

theorem stays_backWhole (gid : ℕ) (a0 : State) (a1 : Copy) (h0 : (tget a0.groups gid).isSome = true) :
    (tget (backWhole a0 a1).groups gid).isSome = true := by
    unfold backWhole
    repeat' with_reducible first
      | assumption | intro _ | dsimp only | apply stays_underKey | apply stays_rawHome | apply stays_setPoison
      | apply stays_ite | apply stays_ite1 | split | apply stays_foldl | apply stays_foldl1
      | refine stays_of (by assumption) ?_ | apply isSome_tmap

theorem stays_recallOwner (gid : ℕ) (a0 : State) (a1 : ℕ) (h0 : (tget a0.groups gid).isSome = true) :
    (tget (recallOwner a0 a1).groups gid).isSome = true := by
    unfold recallOwner
    repeat' with_reducible first
      | assumption | intro _ | dsimp only | apply stays_dropCopy | apply stays_backWhole | apply stays_ite
      | apply stays_ite1 | split | apply stays_foldl | apply stays_foldl1 | refine stays_of (by assumption) ?_
      | apply isSome_tmap

theorem stays_dropTracked (gid : ℕ) (a0 : State) (a1 : ℕ) (h0 : (tget a0.groups gid).isSome = true) :
    (tget (dropTracked a0 a1).groups gid).isSome = true := by
    unfold dropTracked
    repeat' with_reducible first
      | assumption | intro _ | dsimp only | apply stays_ite | apply stays_ite1 | split | apply stays_foldl
      | apply stays_foldl1 | refine stays_of (by assumption) ?_ | apply isSome_tmap

theorem stays_rdcDrop (gid : ℕ) (a0 : State) (a1 : ℕ) (a2 : ℕ) (h0 : (tget a0.groups gid).isSome = true) :
    (tget (rdcDrop a0 a1 a2).groups gid).isSome = true := by
    unfold rdcDrop
    repeat' with_reducible first
      | assumption | intro _ | dsimp only | apply stays_ite | apply stays_ite1 | split | apply stays_foldl
      | apply stays_foldl1 | refine stays_of (by assumption) ?_ | apply isSome_tmap

theorem stays_noteLost (gid : ℕ) (a0 : State) (a1 : Lost) (h0 : (tget a0.groups gid).isSome = true) :
    (tget (noteLost a0 a1).groups gid).isSome = true := by
    unfold noteLost
    repeat' with_reducible first
      | assumption | intro _ | dsimp only | apply stays_ite | apply stays_ite1 | split | apply stays_foldl
      | apply stays_foldl1 | refine stays_of (by assumption) ?_ | apply isSome_tmap

theorem stays_rdcPass (gid : ℕ) (a0 : State) (a1 : ℕ) (a2 : ℕ) (h0 : (tget a0.groups gid).isSome = true) :
    (tget (rdcPass a0 a1 a2).groups gid).isSome = true := by
    unfold rdcPass
    repeat' with_reducible first
      | assumption | intro _ | dsimp only | apply stays_rdcDrop | apply stays_ite | apply stays_ite1 | split
      | apply stays_foldl | apply stays_foldl1 | refine stays_of (by assumption) ?_ | apply isSome_tmap

theorem stays_homeWrite (gid : ℕ) (a0 : State) (a1 : ℕ) (a2 : ℕ) (a3 : BitVec 64) (a4 : BitVec 512) (a5 : BitVec 16)
    (a6 : Bool) (a7 : Option (ℕ × ℕ)) (h0 : (tget a0.groups gid).isSome = true) :
    (tget (homeWrite a0 a1 a2 a3 a4 a5 a6 a7).groups gid).isSome = true := by
    unfold homeWrite
    repeat' with_reducible first
      | assumption | intro _ | dsimp only | apply stays_noteLost | apply stays_recallOwner
      | apply stays_invalidateWindows | apply stays_dropTracked | apply stays_rawHome | apply stays_rdcPass
      | apply stays_setPoison | apply stays_ite | apply stays_ite1 | split | apply stays_foldl | apply stays_foldl1
      | refine stays_of (by assumption) ?_ | apply isSome_tmap

theorem stays_claim (gid : ℕ) (a0 : State) (a1 : ℕ) (a2 : Option ℕ) (a3 : State) (h0 : (tget a0.groups gid).isSome = true)
    (h3 : (tget a3.groups gid).isSome = true) :
    (tget (claim a0 a1 a2 a3).groups gid).isSome = true := by
    unfold claim
    repeat' with_reducible first
      | assumption | intro _ | dsimp only | apply stays_ite | apply stays_ite1 | split | apply stays_foldl
      | apply stays_foldl1 | refine stays_of (by assumption) ?_ | apply isSome_tmap

theorem stays_pushWords (gid : ℕ) (a0 : State) (a1 : Copy) (a2 : BitVec 16) (h0 : (tget a0.groups gid).isSome = true) :
    (tget (pushWords a0 a1 a2).groups gid).isSome = true := by
    unfold pushWords
    repeat' with_reducible first
      | assumption | intro _ | dsimp only | apply stays_claim | apply stays_underKey | apply stays_homeWrite
      | apply stays_putCopy | apply stays_ite | apply stays_ite1 | split | apply stays_foldl | apply stays_foldl1
      | refine stays_of (by assumption) ?_ | apply isSome_tmap

theorem stays_pushCopy (gid : ℕ) (a0 : State) (a1 : Copy) (h0 : (tget a0.groups gid).isSome = true) :
    (tget (pushCopy a0 a1).groups gid).isSome = true := by
    unfold pushCopy
    repeat' with_reducible first
      | assumption | intro _ | dsimp only | apply stays_pushWords | apply stays_backWhole | apply stays_putCopy
      | apply stays_ite | apply stays_ite1 | split | apply stays_foldl | apply stays_foldl1
      | refine stays_of (by assumption) ?_ | apply isSome_tmap

theorem stays_evict (gid : ℕ) (a0 : State) (a1 : ℕ) (a2 : ℕ) (h0 : (tget a0.groups gid).isSome = true) :
    (tget (evict a0 a1 a2).groups gid).isSome = true := by
    unfold evict
    repeat' with_reducible first
      | assumption | intro _ | dsimp only | apply stays_dropCopy | apply stays_pushCopy | apply stays_ite
      | apply stays_ite1 | split | apply stays_foldl | apply stays_foldl1 | refine stays_of (by assumption) ?_
      | apply isSome_tmap

theorem stays_settle (gid : ℕ) (a0 : State) (a1 : ℕ) (h0 : (tget a0.groups gid).isSome = true) :
    (tget (settle a0 a1).groups gid).isSome = true := by
    unfold settle
    repeat' with_reducible first
      | assumption | intro _ | dsimp only | apply stays_drawKeep | apply stays_evict | apply stays_ite
      | apply stays_ite1 | split | apply stays_foldl | apply stays_foldl1 | refine stays_of (by assumption) ?_
      | apply isSome_tmap

theorem stays_homeRead (gid : ℕ) (a0 : State) (a1 : ℕ) (h0 : (tget a0.groups gid).isSome = true) :
    (tget (homeRead a0 a1).1.groups gid).isSome = true := by
    unfold homeRead
    repeat' with_reducible first
      | assumption | intro _ | dsimp only | apply stays_recallOwner | apply stays_settle | apply stays_ite
      | apply stays_ite1 | split | apply stays_foldl | apply stays_foldl1 | refine stays_of (by assumption) ?_
      | apply isSome_tmap

theorem stays_homeRead64 (gid : ℕ) (a0 : State) (a1 : ℕ) (h0 : (tget a0.groups gid).isSome = true) :
    (tget (homeRead64 a0 a1).1.groups gid).isSome = true := by
    unfold homeRead64
    repeat' with_reducible first
      | assumption | intro _ | dsimp only | apply stays_homeRead | apply stays_ite | apply stays_ite1 | split
      | apply stays_foldl | apply stays_foldl1 | refine stays_of (by assumption) ?_ | apply isSome_tmap

theorem stays_walk (gid : ℕ) (a0 : ℕ) (a1 : DWord) (a2 : ℕ) (a3 : State) (a4 : ℕ)
    (h3 : (tget a3.groups gid).isSome = true) :
    (tget (walk a0 a1 a2 a3 a4).1.groups gid).isSome = true := by
    induction a2 generalizing a0 a1 a3 a4 with
    | zero =>
      unfold walk
      repeat' with_reducible first
        | assumption | intro _ | dsimp only | apply stays_homeRead64 | apply stays_rekeyFrame | apply stays_ite
        | apply stays_ite1 | split | apply stays_foldl | apply stays_foldl1 | refine stays_of (by assumption) ?_
        | apply isSome_tmap
    | succ n ih =>
      unfold walk
      repeat' with_reducible first
        | assumption | intro _ | dsimp only | apply ih | apply stays_homeRead64 | apply stays_rekeyFrame
        | apply stays_ite | apply stays_ite1 | split | apply stays_foldl | apply stays_foldl1
        | refine stays_of (by assumption) ?_ | apply isSome_tmap

theorem stays_walkRoot (gid : ℕ) (a0 : State) (a1 : ℕ) (a2 : DWord) (a3 : ℕ) (h0 : (tget a0.groups gid).isSome = true) :
    (tget (walkRoot a0 a1 a2 a3).1.groups gid).isSome = true := by
    unfold walkRoot
    repeat' with_reducible first
      | assumption | intro _ | dsimp only | apply stays_walk | apply stays_ite | apply stays_ite1 | split
      | apply stays_foldl | apply stays_foldl1 | refine stays_of (by assumption) ?_ | apply isSome_tmap

theorem stays_reach (gid : ℕ) (a0 : State) (a1 : ℕ) (a2 : DWord) (a3 : Leaf) (h0 : (tget a0.groups gid).isSome = true) :
    (tget (reach a0 a1 a2 a3).groups gid).isSome = true := by
    unfold reach
    repeat' with_reducible first
      | assumption | intro _ | dsimp only | apply stays_rekeyFrame | apply stays_ite | apply stays_ite1 | split
      | apply stays_foldl | apply stays_foldl1 | refine stays_of (by assumption) ?_ | apply isSome_tmap

theorem stays_checkLeaf (gid : ℕ) (a0 : State) (a1 : ℕ) (a2 : Kind) (a3 : Leaf) (a4 : DWord)
    (h0 : (tget a0.groups gid).isSome = true) :
    (tget (checkLeaf a0 a1 a2 a3 a4).1.groups gid).isSome = true := by
    unfold checkLeaf
    repeat' with_reducible first
      | assumption | intro _ | dsimp only | apply stays_reach | apply stays_ite | apply stays_ite1 | split
      | apply stays_foldl | apply stays_foldl1 | refine stays_of (by assumption) ?_ | apply isSome_tmap

theorem stays_installTlb (gid : ℕ) (a0 : State) (a1 : ℕ) (a2 : ℕ) (a3 : ℕ) (a4 : DWord) (a5 : Leaf)
    (h0 : (tget a0.groups gid).isSome = true) :
    (tget (installTlb a0 a1 a2 a3 a4 a5).groups gid).isSome = true := by
    unfold installTlb
    repeat' with_reducible first
      | assumption | intro _ | dsimp only | apply stays_ite | apply stays_ite1 | split | apply stays_foldl
      | apply stays_foldl1 | refine stays_of (by assumption) ?_ | apply isSome_tmap

theorem stays_tlbLookup (gid : ℕ) (a0 : List TlbEntry) (a1 : State) (h1 : (tget a1.groups gid).isSome = true) :
    (tget (tlbLookup a0 a1).1.groups gid).isSome = true := by
    induction a0 generalizing a1 with
    | nil =>
      unfold tlbLookup
      repeat' with_reducible first
        | assumption | intro _ | dsimp only | apply stays_drawKeep | apply stays_ite | apply stays_ite1 | split
        | apply stays_foldl | apply stays_foldl1 | refine stays_of (by assumption) ?_ | apply isSome_tmap
    | cons x r ih =>
      unfold tlbLookup
      repeat' with_reducible first
        | assumption | intro _ | dsimp only | apply ih | apply stays_drawKeep | apply stays_ite | apply stays_ite1
        | split | apply stays_foldl | apply stays_foldl1 | refine stays_of (by assumption) ?_ | apply isSome_tmap

theorem stays_translateLeaf (gid : ℕ) (a0 : State) (a1 : Who) (a2 : DWord) (a3 : Kind)
    (h0 : (tget a0.groups gid).isSome = true) :
    (tget (translateLeaf a0 a1 a2 a3).1.groups gid).isSome = true := by
    unfold translateLeaf
    repeat' with_reducible first
      | assumption | intro _ | dsimp only | apply stays_tlbLookup | apply stays_checkLeaf | apply stays_walkRoot
      | apply stays_installTlb | apply stays_ite | apply stays_ite1 | split | apply stays_foldl | apply stays_foldl1
      | refine stays_of (by assumption) ?_ | apply isSome_tmap

theorem stays_translate (gid : ℕ) (a0 : State) (a1 : Who) (a2 : DWord) (a3 : Kind)
    (h0 : (tget a0.groups gid).isSome = true) :
    (tget (translate a0 a1 a2 a3).1.groups gid).isSome = true := by
    unfold translate
    repeat' with_reducible first
      | assumption | intro _ | dsimp only | apply stays_translateLeaf | apply stays_ite | apply stays_ite1 | split
      | apply stays_foldl | apply stays_foldl1 | refine stays_of (by assumption) ?_ | apply isSome_tmap

theorem stays_homeLine (gid : ℕ) (a0 : State) (a1 : ℕ) (h0 : (tget a0.groups gid).isSome = true) :
    (tget (homeLine a0 a1).1.groups gid).isSome = true := by
    unfold homeLine
    repeat' with_reducible first
      | assumption | intro _ | dsimp only | apply stays_settle | apply stays_recallOwner | apply stays_ite
      | apply stays_ite1 | split | apply stays_foldl | apply stays_foldl1 | refine stays_of (by assumption) ?_
      | apply isSome_tmap

theorem stays_homeExpanded (gid : ℕ) (a0 : State) (a1 : ℕ) (h0 : (tget a0.groups gid).isSome = true) :
    (tget (homeExpanded a0 a1).1.groups gid).isSome = true := by
    unfold homeExpanded
    repeat' with_reducible first
      | assumption | intro _ | dsimp only | apply stays_homeLine | apply stays_ite | apply stays_ite1 | split
      | apply stays_foldl | apply stays_foldl1 | refine stays_of (by assumption) ?_ | apply isSome_tmap

theorem stays_physRead (gid : ℕ) (a0 : State) (a1 : ℕ) (a2 : ℕ) (h0 : (tget a0.groups gid).isSome = true) :
    (tget (physRead a0 a1 a2).1.groups gid).isSome = true := by
    unfold physRead
    repeat' with_reducible first
      | assumption | intro _ | dsimp only | apply stays_homeRead | apply stays_ite | apply stays_ite1 | split
      | apply stays_foldl | apply stays_foldl1 | refine stays_of (by assumption) ?_ | apply isSome_tmap

theorem stays_wordAt (gid : ℕ) (a0 : State) (a1 : Leaf) (a2 : ℕ) (h0 : (tget a0.groups gid).isSome = true) :
    (tget (wordAt a0 a1 a2).1.groups gid).isSome = true := by
    unfold wordAt
    repeat' with_reducible first
      | assumption | intro _ | dsimp only | apply stays_homeExpanded | apply stays_physRead | apply stays_ite
      | apply stays_ite1 | split | apply stays_foldl | apply stays_foldl1 | refine stays_of (by assumption) ?_
      | apply isSome_tmap

theorem stays_oldOrNow (gid : ℕ) (a0 : List Byte) (a1 : List (List Byte)) (a2 : State)
    (h2 : (tget a2.groups gid).isSome = true) :
    (tget (oldOrNow a0 a1 a2).1.groups gid).isSome = true := by
    induction a1 generalizing a0 a2 with
    | nil =>
      unfold oldOrNow
      repeat' with_reducible first
        | assumption | intro _ | dsimp only | apply stays_drawKeep | apply stays_ite | apply stays_ite1 | split
        | apply stays_foldl | apply stays_foldl1 | refine stays_of (by assumption) ?_ | apply isSome_tmap
    | cons x r ih =>
      unfold oldOrNow
      repeat' with_reducible first
        | assumption | intro _ | dsimp only | apply ih | apply stays_drawKeep | apply stays_ite | apply stays_ite1
        | split | apply stays_foldl | apply stays_foldl1 | refine stays_of (by assumption) ?_ | apply isSome_tmap

theorem stays_heldWord (gid : ℕ) (a0 : State) (a1 : ℕ) (a2 : ℕ) (a3 : ℕ) (a4 : List (List Byte)) (a5 : List Byte)
    (h0 : (tget a0.groups gid).isSome = true) :
    (tget (heldWord a0 a1 a2 a3 a4 a5).1.groups gid).isSome = true := by
    unfold heldWord
    repeat' with_reducible first
      | assumption | intro _ | dsimp only | apply stays_oldOrNow | apply stays_ite | apply stays_ite1 | split
      | apply stays_foldl | apply stays_foldl1 | refine stays_of (by assumption) ?_ | apply isSome_tmap

theorem stays_fetchWord (gid : ℕ) (a0 : State) (a1 : Group) (a2 : DWord) (h0 : (tget a0.groups gid).isSome = true) :
    (tget (fetchWord a0 a1 a2).1.groups gid).isSome = true := by
    unfold fetchWord
    repeat' with_reducible first
      | assumption | intro _ | dsimp only | apply stays_translate | apply stays_wordAt | apply stays_heldWord
      | apply stays_ite | apply stays_ite1 | split | apply stays_foldl | apply stays_foldl1
      | refine stays_of (by assumption) ?_ | apply isSome_tmap

theorem stays_fetchMore (gid : ℕ) (a0 : Group) (a1 : ℕ) (a2 : State) (a3 : DWord) (a4 : List DWord)
    (h2 : (tget a2.groups gid).isSome = true) :
    (tget (fetchMore a0 a1 a2 a3 a4).1.groups gid).isSome = true := by
    induction a1 generalizing a0 a2 a3 a4 with
    | zero =>
      unfold fetchMore
      repeat' with_reducible first
        | assumption | intro _ | dsimp only | apply stays_fetchWord | apply stays_ite | apply stays_ite1 | split
        | apply stays_foldl | apply stays_foldl1 | refine stays_of (by assumption) ?_ | apply isSome_tmap
    | succ n ih =>
      unfold fetchMore
      repeat' with_reducible first
        | assumption | intro _ | dsimp only | apply ih | apply stays_fetchWord | apply stays_ite | apply stays_ite1
        | split | apply stays_foldl | apply stays_foldl1 | refine stays_of (by assumption) ?_ | apply isSome_tmap

theorem stays_fetchInstr (gid : ℕ) (a0 : State) (a1 : Group) (h0 : (tget a0.groups gid).isSome = true) :
    (tget (fetchInstr a0 a1).1.groups gid).isSome = true := by
    unfold fetchInstr
    repeat' with_reducible first
      | assumption | intro _ | dsimp only | apply stays_fetchWord | apply stays_fetchMore | apply stays_ite
      | apply stays_ite1 | split | apply stays_foldl | apply stays_foldl1 | refine stays_of (by assumption) ?_
      | apply isSome_tmap

theorem stays_slicePut (gid : ℕ) (a0 : State) (a1 : Group) (a2 : ℕ) (h0 : (tget a0.groups gid).isSome = true) :
    (tget (slicePut a0 a1 a2).groups gid).isSome = true := by
    unfold slicePut
    repeat' with_reducible first
      | assumption | intro _ | dsimp only | apply stays_setCore | apply stays_ite | apply stays_ite1 | split
      | apply stays_foldl | apply stays_foldl1 | refine stays_of (by assumption) ?_ | apply isSome_tmap

/-! ### The step chosen next -/

/-- Whatever step an option names is one of the device's own. -/
def Device (o : Option Instr) : Prop := ∀ i, o = some i → isDeviceStep i = true

theorem device_none : Device none := fun _ h => nomatch h

theorem device_some {i : Instr} (h : isDeviceStep i = true) : Device (some i) := by intro j hj; cases hj; exact h

theorem device_ite {c : Prop} [Decidable c] {a b : Option Instr} (ha : Device a) (hb : Device b) :
    Device (if c then a else b) := by split <;> assumption

theorem device_orElse {a b : Option Instr} (ha : Device a) (hb : Device b) : Device (a <|> b) := by
  cases a with
  | none => exact hb
  | some i => exact ha

theorem device_findSome {α : Type} {l : List α} {f : α → Option Instr} (h : ∀ x, Device (f x)) : Device (l.findSome? f) := by
  induction l with
  | nil => exact device_none
  | cons x r ih =>
    rw [List.findSome?_cons]
    split
    · next hx => exact hx ▸ h x
    · exact ih

theorem device_map {α : Type} {o : Option α} {f : α → Instr} (h : ∀ x, isDeviceStep (f x) = true) : Device (o.map f) := by
  cases o with
  | none => exact device_none
  | some x => exact device_some (h x)

theorem device_waitStep (s : State) (gid : Nat) (g : Group) : Device (waitStep s gid g) := by
  unfold waitStep
  repeat' with_reducible first
    | exact device_none | exact device_some rfl | apply device_some | apply device_ite | apply device_orElse
    | apply device_findSome | apply device_map | split

theorem device_firstWait (s : State) : Device (firstWait s) := by
  unfold firstWait
  repeat' with_reducible first
    | exact device_none | exact device_some rfl | apply device_some | apply device_waitStep | apply device_ite | apply device_orElse
    | apply device_findSome | apply device_map | split | dsimp only | intro _

theorem device_firstBin (s : State) : Device (firstBin s) := by
  unfold firstBin
  repeat' with_reducible first
    | exact device_none | exact device_some rfl | apply device_some | apply device_ite | apply device_orElse
    | apply device_findSome | apply device_map | split | dsimp only | intro _

theorem device_matrixStep (s : State) (core : Nat) (c : Core) : Device (matrixStep s core c) := by
  unfold matrixStep
  repeat' with_reducible first
    | exact device_none | exact device_some rfl | apply device_some | apply device_ite | apply device_orElse
    | apply device_findSome | apply device_map | split | dsimp only | intro _
  all_goals rfl

theorem device_engineStep (s : State) (core : Nat) (c : Core) (q : Queue) : Device (engineStep s core c q) := by
  unfold engineStep
  repeat' with_reducible first
    | exact device_none | exact device_some rfl | apply device_some | apply device_ite | apply device_orElse
    | apply device_findSome | apply device_map | split

theorem device_storageStep (s : State) (core : Nat) (c : Core) : Device ((storageStep s core c).map (·.2)) := by
  have orElse : ∀ {a b : Option (Entry × Instr)}, Device (a.map (·.2)) → Device (b.map (·.2)) → Device ((a <|> b).map (·.2)) := by
    intro a b ha hb
    cases a with
    | none => exact hb
    | some x => exact ha
  unfold storageStep
  refine orElse ?_ (orElse ?_ ?_)
  · split
    · split
      · exact device_some rfl
      · exact device_none
    · exact device_none
  · split
    · split
      · exact device_some rfl
      · exact device_none
    · exact device_none
  · rw [Option.map_map]
    exact device_map fun _ => rfl

theorem device_ringStep (s : State) (core : Nat) (c : Core) : Device (ringStep s core c) := by
  unfold ringStep
  repeat' with_reducible first
    | exact device_none | exact device_some rfl | apply device_some | apply device_ite | apply device_orElse
    | apply device_findSome | apply device_map | split

/-- A step that is due first is one of the steps. -/
theorem firstDue_mem (l : List (Nat × Instr)) (x : Nat × Instr) (h : firstDue l = some x) : x ∈ l := by
  induction l generalizing x with
  | nil => cases h
  | cons y r ih =>
    unfold firstDue at h
    split at h
    · cases h; exact List.mem_cons_self
    · next z hz =>
      split at h
      · cases h; exact List.mem_cons_self
      · cases h; exact List.mem_cons_of_mem _ (ih _ hz)

theorem device_queueSteps (s : State) (core : Nat) (c : Core) (x : Nat × Instr) (h : x ∈ queueSteps s core c) :
    isDeviceStep x.2 = true := by
  have put : ∀ {o : Option Instr} {f : Instr → Nat × Instr}, Device o → (∀ i, (f i).2 = i) → o.map f = some x →
      isDeviceStep x.2 = true := fun ho hf hx => by
    obtain ⟨i, hi, rfl⟩ := Option.map_eq_some_iff.mp hx
    rw [hf]
    exact ho i hi
  simp only [queueSteps, List.mem_filterMap, List.mem_cons, List.not_mem_nil, or_false, id] at h
  obtain ⟨o, ho, hx⟩ := h
  rcases ho with rfl | rfl | rfl | rfl | rfl | rfl
  · exact put (device_matrixStep s core c) (fun _ => rfl) hx
  · exact put (device_engineStep s core c .cpy) (fun _ => rfl) hx
  · exact put (device_engineStep s core c .dec) (fun _ => rfl) hx
  · exact put (device_engineStep s core c .root) (fun _ => rfl) hx
  · obtain ⟨y, hy, rfl⟩ := Option.map_eq_some_iff.mp hx
    exact device_storageStep s core c y.2 (by rw [hy]; rfl)
  · exact put (device_ringStep s core c) (fun _ => rfl) hx

theorem device_firstQueue (s : State) : Device (firstQueue s) := by
  intro i hi
  obtain ⟨x, hx, rfl⟩ := Option.map_eq_some_iff.mp hi
  obtain ⟨c, -, hc⟩ := List.mem_flatMap.mp (firstDue_mem _ _ hx)
  exact device_queueSteps s c.1 c.2 x hc

theorem device_firstFault (s : State) : Device (firstFault s) := by
  unfold firstFault
  repeat' with_reducible first
    | exact device_none | exact device_some rfl | apply device_some | apply device_ite | apply device_orElse
    | apply device_findSome | apply device_map | split | dsimp only | intro _

theorem device_firstLaunch (s : State) : Device (firstLaunch s) := by
  unfold firstLaunch
  repeat' with_reducible first
    | exact device_none | exact device_some rfl | apply device_some | apply device_ite | apply device_orElse
    | apply device_findSome | apply device_map | split | dsimp only | intro _

theorem device_firstEnd (s : State) : Device (firstEnd s) := by
  unfold firstEnd
  repeat' with_reducible first
    | exact device_none | exact device_some rfl | apply device_some | apply device_ite | apply device_orElse
    | apply device_findSome | apply device_map | split | dsimp only | intro _

theorem device_firstStop (s : State) : Device (firstStop s) := by
  unfold firstStop
  repeat' with_reducible first
    | exact device_none | exact device_some rfl | apply device_some | apply device_ite | apply device_orElse
    | apply device_findSome | apply device_map | split | dsimp only | intro _

theorem device_placeStep (s : State) (w : Waiting) : Device (placeStep s w) := by
  unfold placeStep
  repeat' with_reducible first
    | exact device_none | exact device_some rfl | apply device_some | apply device_ite | apply device_orElse
    | apply device_findSome | apply device_map | split | dsimp only | intro _
  all_goals rfl

theorem device_firstPlace (s : State) (l : List Waiting) (shut : List Nat) : Device (firstPlace s l shut) := by
  induction l generalizing shut with
  | nil => exact device_none
  | cons w r ih =>
    unfold firstPlace
    refine device_ite (ih _) ?_
    have h := device_placeStep s w
    split
    · next hp => rw [hp] at h; exact h
    · exact ih _

theorem device_stopVictim (s : State) (w : Waiting) (l : List Nat) : Device (stopVictim s w l) := by
  unfold stopVictim
  repeat' with_reducible first
    | exact device_none | exact device_some rfl | apply device_some | apply device_ite | apply device_orElse
    | apply device_findSome | apply device_map | split | dsimp only | intro _
  all_goals rfl

theorem device_makeRoom (s : State) (w : Waiting) : Device (makeRoom s w) := by
  unfold makeRoom
  repeat' with_reducible first
    | exact device_none | exact device_some rfl | apply device_some | apply device_ite | apply device_orElse
    | apply device_findSome | apply device_stopVictim | apply device_map | split | dsimp only | intro _
  all_goals first | rfl | exact device_stopVictim s _ _

theorem device_bookedDrain (s : State) : Device (bookedDrain s) := by
  unfold bookedDrain
  refine device_findSome fun t => device_ite ?_ device_none
  cases bookingNow s t.1 with
  | none => exact device_none
  | some e => exact device_map fun _ => rfl

theorem device_firstSchedule (s : State) : Device (firstSchedule s) := by
  unfold firstSchedule
  repeat' with_reducible first
    | exact device_none | exact device_some rfl | apply device_some | apply device_firstPlace | apply device_makeRoom
    | apply device_bookedDrain | apply device_ite | apply device_orElse
    | apply device_findSome | apply device_map | split | dsimp only | intro _

theorem device_firstSlot (s : State) : Device (firstSlot s) := by
  unfold firstSlot
  repeat' with_reducible first
    | exact device_none | exact device_some rfl | apply device_some | apply device_ite | apply device_orElse
    | apply device_findSome | apply device_map | split | dsimp only | intro _

theorem device_firstSeed (s : State) : Device (firstSeed s) := by
  unfold firstSeed
  repeat' with_reducible first
    | exact device_none | exact device_some rfl | apply device_some | apply device_ite | apply device_orElse
    | apply device_findSome | apply device_map | split

theorem device_requestStep (r : Request) : isDeviceStep (requestStep r) = true := by cases r <;> rfl

/-- What the device takes is taken with a step of its own. -/
theorem device_arrivalStep (s : State) (a : Arrival) (h : takes s a = true) : isDeviceStep (arrivalStep a) = true := by
  cases a with
  | request p v n r => exact device_requestStep r
  | message p b => exact device_requestStep _
  | event i =>
    simp only [takes, Bool.and_eq_true] at h
    exact h.1
  | _ => rfl

theorem device_nextArrival (s : State) : Device (nextArrival (settleArrivals s)) := by
  unfold nextArrival
  split
  · next a ha =>
    refine device_ite device_none (device_some (device_arrivalStep s a ?_))
    have hm : a ∈ (settleArrivals s).arrivals := List.mem_of_head? ha
    simp only [settleArrivals] at hm
    split at hm
    · next b hb =>
      have hall : ∀ x ∈ s.arrivals.filter (takes s), takes s x = true := fun x hx => (List.mem_filter.mp hx).2
      rcases List.mem_cons.mp hm with rfl | hx
      · exact hall _ (List.mem_of_find?_eq_some hb)
      · exact hall _ (List.mem_of_mem_erase hx)
    · exact (List.mem_filter.mp hm).2
  · exact device_none

/-- The step that comes next is one of the device's own. -/
theorem device_nextEvent (s : State) : Device (nextEvent (settleArrivals s)) := by
  unfold nextEvent
  repeat' with_reducible first
    | apply device_nextArrival | apply device_firstWait | apply device_firstBin | apply device_firstStop | apply device_firstQueue
    | apply device_firstFault | apply device_firstEnd | apply device_firstLaunch | apply device_firstSchedule
    | apply device_firstSlot | apply device_firstSeed | apply device_orElse

/-! ### The group that issues -/

theorem firstGroup_mem (key : Group → List Nat) (l : List (Nat × Group)) (e : Nat × Group) (h : firstGroup key l = some e) : e ∈ l := by
  induction l generalizing e with
  | nil => cases h
  | cons x r ih =>
    unfold firstGroup at h
    split at h
    · cases h; exact List.mem_cons_self
    · next f hf =>
      split at h
      · cases h; exact List.mem_cons_self
      · cases h; exact List.mem_cons_of_mem _ (ih _ hf)

theorem isSome_of_mem {α : Type} (t : Tab α) (e : Nat × α) (h : e ∈ t) : (tget t e.1).isSome = true := by
  induction t with
  | nil => cases h
  | cons x r ih =>
    obtain ⟨a, b⟩ := x
    simp only [tget]
    split
    · rfl
    · next hk =>
      rcases List.mem_cons.mp h with rfl | hr
      · exact absurd rfl hk
      · exact ih hr

/-- The group that issues next is resident. -/
theorem resident_readyGroup (s : State) (gid : Nat) (g : Group) (h : readyGroup s = some (gid, g)) :
    (tget s.groups gid).isSome = true :=
  isSome_of_mem s.groups (gid, g) (List.mem_filter.mp (List.mem_filter.mp (firstGroup_mem _ _ _ h)).1).1

/-- A group that is resident takes its step. -/
theorem goes_stepGroup (s : State) (gid : Nat) (g : Group) (h : (tget s.groups gid).isSome = true) : Goes (stepGroup s gid g) := by
  have h1 := stays_fetchInstr gid s g h
  unfold stepGroup
  split
  · exact goes_next _
  · next s1 ws hf =>
    rw [hf] at h1
    dsimp only
    split
    · next i hi =>
      have h2 : (tget (if beatsOwed s1 g = 0 then s1 else slicePut s1 g s1.cycle).groups gid).isSome = true :=
        stays_ite h1 (stays_slicePut gid _ _ _ h1)
      obtain ⟨g1, hg1⟩ := Option.isSome_iff_exists.mp h2
      obtain ⟨t, ht⟩ := goes_exec i
        { (if beatsOwed s1 g = 0 then s1 else slicePut s1 g s1.cycle) with cur := some gid } ⟨gid, g1, rfl, hg1⟩
      rw [ht]
      exact goes_next _
    · exact goes_next _

end Sys2Proof.Machine
end

