-- ==== Sys2Proof/Laws/Encoding.lean ====
section
/-! SUPPORT. The encoder and the decoder: packed fields are read back, each field's encoding is read back, an instruction's
words are read back when its body is. -/

namespace Sys2Proof

/-! ### Appended bits -/

/-- The low part of an append. -/
theorem append_low {m n : Nat} (a : BitVec m) (b : BitVec n) (s l : Nat) (h : s + l ≤ n) :
    (a ++ b).extractLsb' s l = b.extractLsb' s l := BitVec.extractLsb'_append_eq_of_add_le h

/-- The high part of an append. -/
theorem append_high {m n : Nat} (a : BitVec m) (b : BitVec n) (s l : Nat) (h : n ≤ s) :
    (a ++ b).extractLsb' s l = a.extractLsb' (s - n) l := BitVec.extractLsb'_append_eq_of_le h

/-- All bits. -/
theorem extract_self {n : Nat} (a : BitVec n) : a.extractLsb' 0 n = a := BitVec.extractLsb'_eq_self
/-- The fields of a packed F0 word are what was packed. -/
@[simp] theorem F0.unpack_pack (f : F0) : F0.unpack f.pack = f := by
  cases f with | mk dst_ sa_ sb_ sc_ ty_ sub_ =>
  unfold F0.unpack F0.pack
  congr 1
  · exact (append_high (dst_ ++ sa_ ++ sb_ ++ sc_ ++ ty_) sub_ _ _ (by decide)).trans ((append_high (dst_ ++ sa_ ++ sb_ ++ sc_) ty_ _ _ (by decide)).trans ((append_high (dst_ ++ sa_ ++ sb_) sc_ _ _ (by decide)).trans ((append_high (dst_ ++ sa_) sb_ _ _ (by decide)).trans ((append_high dst_ sa_ _ _ (by decide)).trans (extract_self _)))))
  · exact (append_high (dst_ ++ sa_ ++ sb_ ++ sc_ ++ ty_) sub_ _ _ (by decide)).trans ((append_high (dst_ ++ sa_ ++ sb_ ++ sc_) ty_ _ _ (by decide)).trans ((append_high (dst_ ++ sa_ ++ sb_) sc_ _ _ (by decide)).trans ((append_high (dst_ ++ sa_) sb_ _ _ (by decide)).trans ((append_low dst_ sa_ _ _ (by decide)).trans (extract_self _)))))
  · exact (append_high (dst_ ++ sa_ ++ sb_ ++ sc_ ++ ty_) sub_ _ _ (by decide)).trans ((append_high (dst_ ++ sa_ ++ sb_ ++ sc_) ty_ _ _ (by decide)).trans ((append_high (dst_ ++ sa_ ++ sb_) sc_ _ _ (by decide)).trans ((append_low (dst_ ++ sa_) sb_ _ _ (by decide)).trans (extract_self _))))
  · exact (append_high (dst_ ++ sa_ ++ sb_ ++ sc_ ++ ty_) sub_ _ _ (by decide)).trans ((append_high (dst_ ++ sa_ ++ sb_ ++ sc_) ty_ _ _ (by decide)).trans ((append_low (dst_ ++ sa_ ++ sb_) sc_ _ _ (by decide)).trans (extract_self _)))
  · exact (append_high (dst_ ++ sa_ ++ sb_ ++ sc_ ++ ty_) sub_ _ _ (by decide)).trans ((append_low (dst_ ++ sa_ ++ sb_ ++ sc_) ty_ _ _ (by decide)).trans (extract_self _))
  · exact (append_low (dst_ ++ sa_ ++ sb_ ++ sc_ ++ ty_) sub_ _ _ (by decide)).trans (extract_self _)

/-- The fields of a packed F1 word are what was packed. -/
@[simp] theorem F1.unpack_pack (f : F1) : F1.unpack f.pack = f := by
  cases f with | mk dst_ sa_ sub_ imm_ =>
  unfold F1.unpack F1.pack
  congr 1
  · exact (append_high (dst_ ++ sa_ ++ sub_) imm_ _ _ (by decide)).trans ((append_high (dst_ ++ sa_) sub_ _ _ (by decide)).trans ((append_high dst_ sa_ _ _ (by decide)).trans (extract_self _)))
  · exact (append_high (dst_ ++ sa_ ++ sub_) imm_ _ _ (by decide)).trans ((append_high (dst_ ++ sa_) sub_ _ _ (by decide)).trans ((append_low dst_ sa_ _ _ (by decide)).trans (extract_self _)))
  · exact (append_high (dst_ ++ sa_ ++ sub_) imm_ _ _ (by decide)).trans ((append_low (dst_ ++ sa_) sub_ _ _ (by decide)).trans (extract_self _))
  · exact (append_low (dst_ ++ sa_ ++ sub_) imm_ _ _ (by decide)).trans (extract_self _)

/-- The fields of a packed F2 word are what was packed. -/
@[simp] theorem F2.unpack_pack (f : F2) : F2.unpack f.pack = f := by
  cases f with | mk data_ addr_ so_ rcd_ off_ =>
  unfold F2.unpack F2.pack
  congr 1
  · exact (append_high (data_ ++ addr_ ++ so_ ++ rcd_) off_ _ _ (by decide)).trans ((append_high (data_ ++ addr_ ++ so_) rcd_ _ _ (by decide)).trans ((append_high (data_ ++ addr_) so_ _ _ (by decide)).trans ((append_high data_ addr_ _ _ (by decide)).trans (extract_self _))))
  · exact (append_high (data_ ++ addr_ ++ so_ ++ rcd_) off_ _ _ (by decide)).trans ((append_high (data_ ++ addr_ ++ so_) rcd_ _ _ (by decide)).trans ((append_high (data_ ++ addr_) so_ _ _ (by decide)).trans ((append_low data_ addr_ _ _ (by decide)).trans (extract_self _))))
  · exact (append_high (data_ ++ addr_ ++ so_ ++ rcd_) off_ _ _ (by decide)).trans ((append_high (data_ ++ addr_ ++ so_) rcd_ _ _ (by decide)).trans ((append_low (data_ ++ addr_) so_ _ _ (by decide)).trans (extract_self _)))
  · exact (append_high (data_ ++ addr_ ++ so_ ++ rcd_) off_ _ _ (by decide)).trans ((append_low (data_ ++ addr_ ++ so_) rcd_ _ _ (by decide)).trans (extract_self _))
  · exact (append_low (data_ ++ addr_ ++ so_ ++ rcd_) off_ _ _ (by decide)).trans (extract_self _)

/-- The fields of a packed F3 word are what was packed. -/
@[simp] theorem F3.unpack_pack (f : F3) : F3.unpack f.pack = f := by
  cases f with | mk x_ off_ =>
  unfold F3.unpack F3.pack
  congr 1
  · exact (append_high x_ off_ _ _ (by decide)).trans (extract_self _)
  · exact (append_low x_ off_ _ _ (by decide)).trans (extract_self _)

/-- The fields of a packed F4 word are what was packed. -/
@[simp] theorem F4.unpack_pack (f : F4) : F4.unpack f.pack = f := by
  cases f with | mk cd_ ca_ cb_ va_ vb_ pd_ sub_ imm_ =>
  unfold F4.unpack F4.pack
  congr 1
  · exact (append_high (cd_ ++ ca_ ++ cb_ ++ va_ ++ vb_ ++ pd_ ++ sub_) imm_ _ _ (by decide)).trans ((append_high (cd_ ++ ca_ ++ cb_ ++ va_ ++ vb_ ++ pd_) sub_ _ _ (by decide)).trans ((append_high (cd_ ++ ca_ ++ cb_ ++ va_ ++ vb_) pd_ _ _ (by decide)).trans ((append_high (cd_ ++ ca_ ++ cb_ ++ va_) vb_ _ _ (by decide)).trans ((append_high (cd_ ++ ca_ ++ cb_) va_ _ _ (by decide)).trans ((append_high (cd_ ++ ca_) cb_ _ _ (by decide)).trans ((append_high cd_ ca_ _ _ (by decide)).trans (extract_self _)))))))
  · exact (append_high (cd_ ++ ca_ ++ cb_ ++ va_ ++ vb_ ++ pd_ ++ sub_) imm_ _ _ (by decide)).trans ((append_high (cd_ ++ ca_ ++ cb_ ++ va_ ++ vb_ ++ pd_) sub_ _ _ (by decide)).trans ((append_high (cd_ ++ ca_ ++ cb_ ++ va_ ++ vb_) pd_ _ _ (by decide)).trans ((append_high (cd_ ++ ca_ ++ cb_ ++ va_) vb_ _ _ (by decide)).trans ((append_high (cd_ ++ ca_ ++ cb_) va_ _ _ (by decide)).trans ((append_high (cd_ ++ ca_) cb_ _ _ (by decide)).trans ((append_low cd_ ca_ _ _ (by decide)).trans (extract_self _)))))))
  · exact (append_high (cd_ ++ ca_ ++ cb_ ++ va_ ++ vb_ ++ pd_ ++ sub_) imm_ _ _ (by decide)).trans ((append_high (cd_ ++ ca_ ++ cb_ ++ va_ ++ vb_ ++ pd_) sub_ _ _ (by decide)).trans ((append_high (cd_ ++ ca_ ++ cb_ ++ va_ ++ vb_) pd_ _ _ (by decide)).trans ((append_high (cd_ ++ ca_ ++ cb_ ++ va_) vb_ _ _ (by decide)).trans ((append_high (cd_ ++ ca_ ++ cb_) va_ _ _ (by decide)).trans ((append_low (cd_ ++ ca_) cb_ _ _ (by decide)).trans (extract_self _))))))
  · exact (append_high (cd_ ++ ca_ ++ cb_ ++ va_ ++ vb_ ++ pd_ ++ sub_) imm_ _ _ (by decide)).trans ((append_high (cd_ ++ ca_ ++ cb_ ++ va_ ++ vb_ ++ pd_) sub_ _ _ (by decide)).trans ((append_high (cd_ ++ ca_ ++ cb_ ++ va_ ++ vb_) pd_ _ _ (by decide)).trans ((append_high (cd_ ++ ca_ ++ cb_ ++ va_) vb_ _ _ (by decide)).trans ((append_low (cd_ ++ ca_ ++ cb_) va_ _ _ (by decide)).trans (extract_self _)))))
  · exact (append_high (cd_ ++ ca_ ++ cb_ ++ va_ ++ vb_ ++ pd_ ++ sub_) imm_ _ _ (by decide)).trans ((append_high (cd_ ++ ca_ ++ cb_ ++ va_ ++ vb_ ++ pd_) sub_ _ _ (by decide)).trans ((append_high (cd_ ++ ca_ ++ cb_ ++ va_ ++ vb_) pd_ _ _ (by decide)).trans ((append_low (cd_ ++ ca_ ++ cb_ ++ va_) vb_ _ _ (by decide)).trans (extract_self _))))
  · exact (append_high (cd_ ++ ca_ ++ cb_ ++ va_ ++ vb_ ++ pd_ ++ sub_) imm_ _ _ (by decide)).trans ((append_high (cd_ ++ ca_ ++ cb_ ++ va_ ++ vb_ ++ pd_) sub_ _ _ (by decide)).trans ((append_low (cd_ ++ ca_ ++ cb_ ++ va_ ++ vb_) pd_ _ _ (by decide)).trans (extract_self _)))
  · exact (append_high (cd_ ++ ca_ ++ cb_ ++ va_ ++ vb_ ++ pd_ ++ sub_) imm_ _ _ (by decide)).trans ((append_low (cd_ ++ ca_ ++ cb_ ++ va_ ++ vb_ ++ pd_) sub_ _ _ (by decide)).trans (extract_self _))
  · exact (append_low (cd_ ++ ca_ ++ cb_ ++ va_ ++ vb_ ++ pd_ ++ sub_) imm_ _ _ (by decide)).trans (extract_self _)

/-- The fields of a packed F5 word are what was packed. -/
@[simp] theorem F5.unpack_pack (f : F5) : F5.unpack f.pack = f := by
  cases f with | mk xd_ xa_ xb_ va_ vb_ sub_ imm_ =>
  unfold F5.unpack F5.pack
  congr 1
  · exact (append_high (xd_ ++ xa_ ++ xb_ ++ va_ ++ vb_ ++ sub_) imm_ _ _ (by decide)).trans ((append_high (xd_ ++ xa_ ++ xb_ ++ va_ ++ vb_) sub_ _ _ (by decide)).trans ((append_high (xd_ ++ xa_ ++ xb_ ++ va_) vb_ _ _ (by decide)).trans ((append_high (xd_ ++ xa_ ++ xb_) va_ _ _ (by decide)).trans ((append_high (xd_ ++ xa_) xb_ _ _ (by decide)).trans ((append_high xd_ xa_ _ _ (by decide)).trans (extract_self _))))))
  · exact (append_high (xd_ ++ xa_ ++ xb_ ++ va_ ++ vb_ ++ sub_) imm_ _ _ (by decide)).trans ((append_high (xd_ ++ xa_ ++ xb_ ++ va_ ++ vb_) sub_ _ _ (by decide)).trans ((append_high (xd_ ++ xa_ ++ xb_ ++ va_) vb_ _ _ (by decide)).trans ((append_high (xd_ ++ xa_ ++ xb_) va_ _ _ (by decide)).trans ((append_high (xd_ ++ xa_) xb_ _ _ (by decide)).trans ((append_low xd_ xa_ _ _ (by decide)).trans (extract_self _))))))
  · exact (append_high (xd_ ++ xa_ ++ xb_ ++ va_ ++ vb_ ++ sub_) imm_ _ _ (by decide)).trans ((append_high (xd_ ++ xa_ ++ xb_ ++ va_ ++ vb_) sub_ _ _ (by decide)).trans ((append_high (xd_ ++ xa_ ++ xb_ ++ va_) vb_ _ _ (by decide)).trans ((append_high (xd_ ++ xa_ ++ xb_) va_ _ _ (by decide)).trans ((append_low (xd_ ++ xa_) xb_ _ _ (by decide)).trans (extract_self _)))))
  · exact (append_high (xd_ ++ xa_ ++ xb_ ++ va_ ++ vb_ ++ sub_) imm_ _ _ (by decide)).trans ((append_high (xd_ ++ xa_ ++ xb_ ++ va_ ++ vb_) sub_ _ _ (by decide)).trans ((append_high (xd_ ++ xa_ ++ xb_ ++ va_) vb_ _ _ (by decide)).trans ((append_low (xd_ ++ xa_ ++ xb_) va_ _ _ (by decide)).trans (extract_self _))))
  · exact (append_high (xd_ ++ xa_ ++ xb_ ++ va_ ++ vb_ ++ sub_) imm_ _ _ (by decide)).trans ((append_high (xd_ ++ xa_ ++ xb_ ++ va_ ++ vb_) sub_ _ _ (by decide)).trans ((append_low (xd_ ++ xa_ ++ xb_ ++ va_) vb_ _ _ (by decide)).trans (extract_self _)))
  · exact (append_high (xd_ ++ xa_ ++ xb_ ++ va_ ++ vb_ ++ sub_) imm_ _ _ (by decide)).trans ((append_low (xd_ ++ xa_ ++ xb_ ++ va_ ++ vb_) sub_ _ _ (by decide)).trans (extract_self _))
  · exact (append_low (xd_ ++ xa_ ++ xb_ ++ va_ ++ vb_ ++ sub_) imm_ _ _ (by decide)).trans (extract_self _)

/-- The fields of a packed F6 word are what was packed. -/
@[simp] theorem F6.unpack_pack (f : F6) : F6.unpack f.pack = f := by
  cases f with | mk sb_ dst_ dx_ sub_ imm_ low_ =>
  unfold F6.unpack F6.pack
  congr 1
  · exact (append_high (sb_ ++ dst_ ++ dx_ ++ sub_ ++ imm_) low_ _ _ (by decide)).trans ((append_high (sb_ ++ dst_ ++ dx_ ++ sub_) imm_ _ _ (by decide)).trans ((append_high (sb_ ++ dst_ ++ dx_) sub_ _ _ (by decide)).trans ((append_high (sb_ ++ dst_) dx_ _ _ (by decide)).trans ((append_high sb_ dst_ _ _ (by decide)).trans (extract_self _)))))
  · exact (append_high (sb_ ++ dst_ ++ dx_ ++ sub_ ++ imm_) low_ _ _ (by decide)).trans ((append_high (sb_ ++ dst_ ++ dx_ ++ sub_) imm_ _ _ (by decide)).trans ((append_high (sb_ ++ dst_ ++ dx_) sub_ _ _ (by decide)).trans ((append_high (sb_ ++ dst_) dx_ _ _ (by decide)).trans ((append_low sb_ dst_ _ _ (by decide)).trans (extract_self _)))))
  · exact (append_high (sb_ ++ dst_ ++ dx_ ++ sub_ ++ imm_) low_ _ _ (by decide)).trans ((append_high (sb_ ++ dst_ ++ dx_ ++ sub_) imm_ _ _ (by decide)).trans ((append_high (sb_ ++ dst_ ++ dx_) sub_ _ _ (by decide)).trans ((append_low (sb_ ++ dst_) dx_ _ _ (by decide)).trans (extract_self _))))
  · exact (append_high (sb_ ++ dst_ ++ dx_ ++ sub_ ++ imm_) low_ _ _ (by decide)).trans ((append_high (sb_ ++ dst_ ++ dx_ ++ sub_) imm_ _ _ (by decide)).trans ((append_low (sb_ ++ dst_ ++ dx_) sub_ _ _ (by decide)).trans (extract_self _)))
  · exact (append_high (sb_ ++ dst_ ++ dx_ ++ sub_ ++ imm_) low_ _ _ (by decide)).trans ((append_low (sb_ ++ dst_ ++ dx_ ++ sub_) imm_ _ _ (by decide)).trans (extract_self _))
  · exact (append_low (sb_ ++ dst_ ++ dx_ ++ sub_ ++ imm_) low_ _ _ (by decide)).trans (extract_self _)

/-- The fields of a packed F7 word are what was packed. -/
@[simp] theorem F7.unpack_pack (f : F7) : F7.unpack f.pack = f := by
  cases f with | mk dst_ sa_ sb_ sub_ imm_ =>
  unfold F7.unpack F7.pack
  congr 1
  · exact (append_high (dst_ ++ sa_ ++ sb_ ++ sub_) imm_ _ _ (by decide)).trans ((append_high (dst_ ++ sa_ ++ sb_) sub_ _ _ (by decide)).trans ((append_high (dst_ ++ sa_) sb_ _ _ (by decide)).trans ((append_high dst_ sa_ _ _ (by decide)).trans (extract_self _))))
  · exact (append_high (dst_ ++ sa_ ++ sb_ ++ sub_) imm_ _ _ (by decide)).trans ((append_high (dst_ ++ sa_ ++ sb_) sub_ _ _ (by decide)).trans ((append_high (dst_ ++ sa_) sb_ _ _ (by decide)).trans ((append_low dst_ sa_ _ _ (by decide)).trans (extract_self _))))
  · exact (append_high (dst_ ++ sa_ ++ sb_ ++ sub_) imm_ _ _ (by decide)).trans ((append_high (dst_ ++ sa_ ++ sb_) sub_ _ _ (by decide)).trans ((append_low (dst_ ++ sa_) sb_ _ _ (by decide)).trans (extract_self _)))
  · exact (append_high (dst_ ++ sa_ ++ sb_ ++ sub_) imm_ _ _ (by decide)).trans ((append_low (dst_ ++ sa_ ++ sb_) sub_ _ _ (by decide)).trans (extract_self _))
  · exact (append_low (dst_ ++ sa_ ++ sb_ ++ sub_) imm_ _ _ (by decide)).trans (extract_self _)

/-! ### Fields -/

@[simp] theorem Src.dec_enc (a : Src) : Src.dec a.enc = .ok a := by
  cases a with
  | v i => revert i; decide
  | o i => revert i; decide
  | l i => revert i; decide
  | s i => revert i; decide
  | k i => revert i; decide

@[simp] theorem Dst.dec_enc (d : Dst) : Dst.dec d.enc = .ok d := by
  cases d with
  | v i => revert i; decide
  | o i => revert i; decide
  | l => decide
  | hi i => revert i; decide

theorem PSel.dec_enc_all : ∀ (k n : Bool) (i : BitVec 3), PSel.dec (PSel.enc ⟨k, n, i⟩) = .ok ⟨k, n, i⟩ := by decide

@[simp] theorem PSel.dec_enc (p : PSel) : PSel.dec p.enc = .ok p := PSel.dec_enc_all p.k p.neg p.idx

@[simp] theorem Ty.dec_enc (t : Ty) : Ty.dec t.enc = .ok t := by cases t <;> rfl

theorem FMod.dec_enc_all (f s : Bool) (r : RMod) : FMod.dec (FMod.enc ⟨f, s, r⟩) = .ok ⟨f, s, r⟩ := by
  cases f <;> cases s <;> cases r <;> rfl

@[simp] theorem FMod.dec_enc (m : FMod) : FMod.dec m.enc = .ok m := FMod.dec_enc_all m.fz m.st m.rm

@[simp] theorem decSO_encSO (o : Order) (s : Scope) : decSO (encSO o s) = .ok (o, s) := by cases o <;> cases s <;> rfl

@[simp] theorem Rt.dec_enc (r : Rt) : Rt.dec r.enc = r := by cases r <;> rfl

@[simp] theorem LduW.dec_enc (w : LduW) : LduW.dec w.enc = .ok w := by cases w <;> rfl

@[simp] theorem AtomOp.decode_enc (o : AtomOp) : AtomOp.decode o.enc = .ok o := by cases o <;> rfl

@[simp] theorem MwW.dec_enc (w : MwW) : MwW.dec w.enc = .ok w := by cases w <;> rfl

@[simp] theorem MwCond.dec_enc (w : MwCond) : MwCond.dec w.enc = .ok w := by cases w <;> rfl

@[simp] theorem Queue.decode_enc (q : Queue) : Queue.decode q.enc = .ok q := by cases q <;> rfl

@[simp] theorem ShflOp.dec_enc (o : ShflOp) : ShflOp.dec o.enc = o := by cases o <;> rfl

@[simp] theorem PlopOp.dec_enc (o : PlopOp) : PlopOp.dec o.enc = o := by cases o <;> rfl

@[simp] theorem bit0_ofBit (b : Bool) : bit0 (ofBit b) = b := by cases b <;> rfl

/-! ### Instruction words (R111) -/

/-- VER as two bits. -/
def verBits (v : Ver) : BitVec 2 := match v with | .portable => 0 | .fixed => 1


theorem getLsbD_extract {n : Nat} (x : BitVec n) (k : Nat) : x.getLsbD k = (x.extractLsb' k 1).getLsbD 0 := by
  simp

@[simp] theorem ofBit_getLsbD (b : Bool) : (ofBit b).getLsbD 0 = b := by cases b <;> rfl

@[simp] theorem packWord_body (h : Hdr) (o : BitVec 8) (b : BitVec 47) : (packWord h o b).extractLsb' 0 47 = b := by
  unfold packWord
  exact (append_low (_ ++ o) b 0 47 (by decide)).trans (extract_self b)

@[simp] theorem packWord_opcode (h : Hdr) (o : BitVec 8) (b : BitVec 47) : opcodeOf (packWord h o b) = o.toNat := by
  unfold opcodeOf packWord
  exact congrArg BitVec.toNat ((append_high (_ ++ o) b 47 8 (by decide)).trans
    ((append_low _ o 0 8 (by decide)).trans (extract_self o)))

theorem packWord_above (h : Hdr) (o : BitVec 8) (b : BitVec 47) (s l : Nat) (hs : 55 ≤ s) :
    (packWord h o b).extractLsb' s l =
      ((match h.ver with | .portable => 0#2 | .fixed => 1#2) ++ ofBit h.sw ++ ofBit h.sp.isSome ++ ofBit h.uni ++ ofBit h.gn
        ++ h.gp).extractLsb' (s - 47 - 8) l := by
  unfold packWord
  exact (append_high (_ ++ o) b s l (by omega)).trans (append_high _ o (s - 47) l (by omega))

@[simp] theorem packWord_gp (h : Hdr) (o : BitVec 8) (b : BitVec 47) : (packWord h o b).extractLsb' 55 3 = h.gp := by
  rw [packWord_above h o b 55 3 (by decide)]
  exact (append_low _ h.gp 0 3 (by decide)).trans (extract_self _)

theorem packWord_gn (h : Hdr) (o : BitVec 8) (b : BitVec 47) : (packWord h o b).getLsbD 58 = h.gn := by
  rw [getLsbD_extract, packWord_above h o b 58 1 (by decide)]
  exact (congrArg (·.getLsbD 0) ((append_high _ h.gp 3 1 (by decide)).trans
    ((append_low _ (ofBit h.gn) 0 1 (by decide)).trans (extract_self _)))).trans (ofBit_getLsbD _)

theorem packWord_uni (h : Hdr) (o : BitVec 8) (b : BitVec 47) : (packWord h o b).getLsbD 59 = h.uni := by
  rw [getLsbD_extract, packWord_above h o b 59 1 (by decide)]
  exact (congrArg (·.getLsbD 0) ((append_high _ h.gp 4 1 (by decide)).trans ((append_high _ (ofBit h.gn) 1 1 (by decide)).trans
    ((append_low _ (ofBit h.uni) 0 1 (by decide)).trans (extract_self _))))).trans (ofBit_getLsbD _)

theorem packWord_sp (h : Hdr) (o : BitVec 8) (b : BitVec 47) : (packWord h o b).getLsbD 60 = h.sp.isSome := by
  rw [getLsbD_extract, packWord_above h o b 60 1 (by decide)]
  exact (congrArg (·.getLsbD 0) ((append_high _ h.gp 5 1 (by decide)).trans ((append_high _ (ofBit h.gn) 2 1 (by decide)).trans
    ((append_high _ (ofBit h.uni) 1 1 (by decide)).trans
      ((append_low _ (ofBit h.sp.isSome) 0 1 (by decide)).trans (extract_self _)))))).trans (ofBit_getLsbD _)

theorem packWord_sw (h : Hdr) (o : BitVec 8) (b : BitVec 47) : (packWord h o b).getLsbD 61 = h.sw := by
  rw [getLsbD_extract, packWord_above h o b 61 1 (by decide)]
  exact (congrArg (·.getLsbD 0) ((append_high _ h.gp 6 1 (by decide)).trans ((append_high _ (ofBit h.gn) 3 1 (by decide)).trans
    ((append_high _ (ofBit h.uni) 2 1 (by decide)).trans ((append_high _ (ofBit h.sp.isSome) 1 1 (by decide)).trans
      ((append_low _ (ofBit h.sw) 0 1 (by decide)).trans (extract_self _))))))).trans (ofBit_getLsbD _)

@[simp] theorem packWord_ver (h : Hdr) (o : BitVec 8) (b : BitVec 47) :
    ((packWord h o b).extractLsb' 62 2).toNat = match h.ver with | .portable => 0 | .fixed => 1 := by
  rw [packWord_above h o b 62 2 (by decide)]
  refine (congrArg BitVec.toNat ((append_high _ h.gp 7 2 (by decide)).trans ((append_high _ (ofBit h.gn) 4 2 (by decide)).trans
    ((append_high _ (ofBit h.uni) 3 2 (by decide)).trans ((append_high _ (ofBit h.sp.isSome) 2 2 (by decide)).trans
      ((append_high _ (ofBit h.sw) 1 2 (by decide)).trans (extract_self _))))))).trans ?_
  cases h.ver <;> rfl

theorem packWord_dx (h : Hdr) (o : BitVec 8) (f : F6) : (packWord h o f.pack).getLsbD 29 = f.dx.getLsbD 0 := by
  have e : (packWord h o f.pack).getLsbD 29 = f.pack.getLsbD 29 := by
    have := congrArg (fun x => BitVec.getLsbD x 29) (packWord_body h o f.pack)
    simpa only [BitVec.getLsbD_extractLsb', Nat.zero_add, Nat.reduceLT, decide_true, Bool.true_and] using this
  rw [e, getLsbD_extract f.pack 29]
  have := congrArg F6.dx (F6.unpack_pack f)
  simp only [F6.unpack] at this
  rw [this]

/-- A header is read back, with the mask word that SP = 1 announces. -/
theorem Hdr.dec_packWord (h : Hdr) (o : BitVec 8) (b : BitVec 47) (mask : DWord) (hm : ∀ m, h.sp = some m → m = mask) :
    Hdr.dec (packWord h o b) mask = .ok h := by
  obtain ⟨ver, sw, sp, uni, gn, gp⟩ := h
  unfold Hdr.dec
  have hs : (if sp.isSome = true then some mask else none) = sp := by
    cases sp with
    | none => rfl
    | some m => simp [hm m rfl]
  cases ver <;> simp only [packWord_ver, packWord_sw, packWord_sp, packWord_uni, packWord_gn, packWord_gp, hs]

/-- Words that hold an opcode, a header and a body that parse as an instruction decode to it. -/
theorem decode_of_parse (i : Instr) (h : Hdr) (o : BitVec 8) (b : BitVec 47) (e : Option DWord)
    (hp : i.parts = some (h, o, b, e)) (hu : isUnassigned o.toNat = false) (he : hasExt (packWord h o b) = e.isSome)
    (hq : parse o.toNat h b (e.getD 0) = .ok i) (hw : i.illegal = none) : decodeWords (encode i) = .ok i := by
  have henc : encode i = packWord h o b :: (e.toList ++ h.sp.toList) := by unfold encode; rw [hp]
  have hdr : ∀ m, (∀ x, h.sp = some x → x = m) → Hdr.dec (packWord h o b) m = .ok h := Hdr.dec_packWord h o b
  have hacc : accept (packWord h o b :: (e.toList ++ h.sp.toList)) i = .ok i := by
    unfold accept; rw [hw]; simp [henc]
  rw [henc]
  unfold decodeWords
  have hcount : wordCount (packWord h o b) = 1 + (if e.isSome then 1 else 0) + (if h.sp.isSome then 1 else 0) := by
    unfold wordCount; simp only [packWord_opcode, packWord_sp, hu, he, Bool.false_eq_true, if_false]
  simp only [packWord_opcode, hu, hcount, he, packWord_body, Bool.false_eq_true, if_false]
  cases hsp : h.sp with
  | none =>
    have h0 := hdr 0#64 (fun x hx => by rw [hsp] at hx; cases hx)
    cases he' : e <;> rw [hsp, he'] at hacc <;> simp only [he', Option.getD_none, Option.getD_some, BitVec.ofNat_eq_ofNat] at hq <;>
      simp [h0, hq] <;> simpa using hacc
  | some m =>
    have h0 := hdr m (fun x hx => by rw [hsp] at hx; cases hx; rfl)
    cases he' : e <;> rw [hsp, he'] at hacc <;> simp only [he', Option.getD_none, Option.getD_some, BitVec.ofNat_eq_ofNat] at hq <;>
      simp [h0, hq] <;> simpa using hacc

/-! ### Parts of fields -/

@[simp] theorem part_1z_7_1 (a : BitVec 7) :
    BitVec.extractLsb' 0 7 (0#1 ++ a : BitVec 8) = a :=
  (append_low 0#1 a _ _ (by decide)).trans (extract_self _)

@[simp] theorem part_3z_7_1 (a : BitVec 7) :
    BitVec.extractLsb' 0 7 (0#3 ++ a : BitVec 10) = a :=
  (append_low 0#3 a _ _ (by decide)).trans (extract_self _)

@[simp] theorem part_9z_1_1 (a : Bool) :
    (0#9 ++ ofBit a : BitVec 10).getLsbD 0 = a :=
  (getLsbD_extract _ _).trans ((congrArg (fun x => BitVec.getLsbD x 0) ((append_low 0#9 (ofBit a) _ _ (by decide)).trans (extract_self _))).trans (ofBit_getLsbD _))

@[simp] theorem part_9z_3_1 (a : BitVec 3) :
    BitVec.extractLsb' 0 3 (0#9 ++ a : BitVec 12) = a :=
  (append_low 0#9 a _ _ (by decide)).trans (extract_self _)

@[simp] theorem part_7z_3_1 (a : BitVec 3) :
    BitVec.extractLsb' 0 3 (0#7 ++ a : BitVec 10) = a :=
  (append_low 0#7 a _ _ (by decide)).trans (extract_self _)

@[simp] theorem part_7z_2_3_1 (a : BitVec 2) (b : BitVec 3) :
    BitVec.extractLsb' 3 2 (0#7 ++ a ++ b : BitVec 12) = a :=
  (append_high (0#7 ++ a) b _ _ (by decide)).trans ((append_low 0#7 a _ _ (by decide)).trans (extract_self _))

@[simp] theorem part_7z_2_3_2 (a : BitVec 2) (b : BitVec 3) :
    BitVec.extractLsb' 0 3 (0#7 ++ a ++ b : BitVec 12) = b :=
  (append_low (0#7 ++ a) b _ _ (by decide)).trans (extract_self _)

@[simp] theorem part_5z_5_1 (a : BitVec 5) :
    BitVec.extractLsb' 0 5 (0#5 ++ a : BitVec 10) = a :=
  (append_low 0#5 a _ _ (by decide)).trans (extract_self _)

@[simp] theorem part_18z_6_1 (a : BitVec 6) :
    BitVec.extractLsb' 0 6 (0#18 ++ a : BitVec 24) = a :=
  (append_low 0#18 a _ _ (by decide)).trans (extract_self _)

@[simp] theorem part_20z_4_1 (a : BitVec 4) :
    BitVec.extractLsb' 0 4 (0#20 ++ a : BitVec 24) = a :=
  (append_low 0#20 a _ _ (by decide)).trans (extract_self _)

@[simp] theorem part_19z_5_1 (a : BitVec 5) :
    BitVec.extractLsb' 0 5 (0#19 ++ a : BitVec 24) = a :=
  (append_low 0#19 a _ _ (by decide)).trans (extract_self _)

@[simp] theorem part_9z_10_5_1 (a : BitVec 10) (b : BitVec 5) :
    BitVec.extractLsb' 5 10 (0#9 ++ a ++ b : BitVec 24) = a :=
  (append_high (0#9 ++ a) b _ _ (by decide)).trans ((append_low 0#9 a _ _ (by decide)).trans (extract_self _))

@[simp] theorem part_9z_10_5_2 (a : BitVec 10) (b : BitVec 5) :
    BitVec.extractLsb' 0 5 (0#9 ++ a ++ b : BitVec 24) = b :=
  (append_low (0#9 ++ a) b _ _ (by decide)).trans (extract_self _)

@[simp] theorem part_6z_4_1 (a : BitVec 4) :
    BitVec.extractLsb' 0 4 (0#6 ++ a : BitVec 10) = a :=
  (append_low 0#6 a _ _ (by decide)).trans (extract_self _)

@[simp] theorem part_2z_1_1 (a : Bool) :
    (0#2 ++ ofBit a : BitVec 3).getLsbD 0 = a :=
  (getLsbD_extract _ _).trans ((congrArg (fun x => BitVec.getLsbD x 0) ((append_low 0#2 (ofBit a) _ _ (by decide)).trans (extract_self _))).trans (ofBit_getLsbD _))

@[simp] theorem part_8z_4_1 (a : BitVec 4) :
    BitVec.extractLsb' 0 4 (0#8 ++ a : BitVec 12) = a :=
  (append_low 0#8 a _ _ (by decide)).trans (extract_self _)

@[simp] theorem part_2z_8_1 (a : BitVec 8) :
    BitVec.extractLsb' 0 8 (0#2 ++ a : BitVec 10) = a :=
  (append_low 0#2 a _ _ (by decide)).trans (extract_self _)

@[simp] theorem part_2z_4_6_1 (a : BitVec 4) (b : BitVec 6) :
    BitVec.extractLsb' 6 4 (0#2 ++ a ++ b : BitVec 12) = a :=
  (append_high (0#2 ++ a) b _ _ (by decide)).trans ((append_low 0#2 a _ _ (by decide)).trans (extract_self _))

@[simp] theorem part_2z_4_6_2 (a : BitVec 4) (b : BitVec 6) :
    BitVec.extractLsb' 0 6 (0#2 ++ a ++ b : BitVec 12) = b :=
  (append_low (0#2 ++ a) b _ _ (by decide)).trans (extract_self _)

@[simp] theorem part_5z_5_2_1 (a : BitVec 5) (b : BitVec 2) :
    BitVec.extractLsb' 2 5 (0#5 ++ a ++ b : BitVec 12) = a :=
  (append_high (0#5 ++ a) b _ _ (by decide)).trans ((append_low 0#5 a _ _ (by decide)).trans (extract_self _))

@[simp] theorem part_5z_5_2_2 (a : BitVec 5) (b : BitVec 2) :
    BitVec.extractLsb' 0 2 (0#5 ++ a ++ b : BitVec 12) = b :=
  (append_low (0#5 ++ a) b _ _ (by decide)).trans (extract_self _)

@[simp] theorem part_11z_3_1 (a : BitVec 3) :
    BitVec.extractLsb' 0 3 (0#11 ++ a : BitVec 14) = a :=
  (append_low 0#11 a _ _ (by decide)).trans (extract_self _)

@[simp] theorem part_11z_1_1 (a : Bool) :
    (0#11 ++ ofBit a : BitVec 12).getLsbD 0 = a :=
  (getLsbD_extract _ _).trans ((congrArg (fun x => BitVec.getLsbD x 0) ((append_low 0#11 (ofBit a) _ _ (by decide)).trans (extract_self _))).trans (ofBit_getLsbD _))

@[simp] theorem part_4z_10_1 (a : BitVec 10) :
    BitVec.extractLsb' 0 10 (0#4 ++ a : BitVec 14) = a :=
  (append_low 0#4 a _ _ (by decide)).trans (extract_self _)

@[simp] theorem part_10_4_0 (a : BitVec 10) (b : BitVec 4) :
    BitVec.extractLsb' 4 10 (a ++ b : BitVec 14) = a :=
  (append_high a b _ _ (by decide)).trans (extract_self _)

@[simp] theorem part_10_4_1 (a : BitVec 10) (b : BitVec 4) :
    BitVec.extractLsb' 0 4 (a ++ b : BitVec 14) = b :=
  (append_low a b _ _ (by decide)).trans (extract_self _)

@[simp] theorem part_1z_1_21z_1 (a : Bool) :
    (0#1 ++ ofBit a ++ 0#21 : BitVec 23).getLsbD 21 = a :=
  (getLsbD_extract _ _).trans ((congrArg (fun x => BitVec.getLsbD x 0) ((append_high (0#1 ++ (ofBit a)) 0#21 _ _ (by decide)).trans ((append_low 0#1 (ofBit a) _ _ (by decide)).trans (extract_self _)))).trans (ofBit_getLsbD _))

@[simp] theorem part_7_16z_0 (a : BitVec 7) :
    BitVec.extractLsb' 16 7 (a ++ 0#16 : BitVec 23) = a :=
  (append_high a 0#16 _ _ (by decide)).trans (extract_self _)

@[simp] theorem part_3_1_19z_0 (a : BitVec 3) (b : Bool) :
    BitVec.extractLsb' 20 3 (a ++ ofBit b ++ 0#19 : BitVec 23) = a :=
  (append_high (a ++ (ofBit b)) 0#19 _ _ (by decide)).trans ((append_high a (ofBit b) _ _ (by decide)).trans (extract_self _))

@[simp] theorem part_3_1_19z_1 (a : BitVec 3) (b : Bool) :
    (a ++ ofBit b ++ 0#19 : BitVec 23).getLsbD 19 = b :=
  (getLsbD_extract _ _).trans ((congrArg (fun x => BitVec.getLsbD x 0) ((append_high (a ++ (ofBit b)) 0#19 _ _ (by decide)).trans ((append_low a (ofBit b) _ _ (by decide)).trans (extract_self _)))).trans (ofBit_getLsbD _))

@[simp] theorem part_8_3_12z_0 (a : BitVec 8) (b : BitVec 3) :
    BitVec.extractLsb' 15 8 (a ++ b ++ 0#12 : BitVec 23) = a :=
  (append_high (a ++ b) 0#12 _ _ (by decide)).trans ((append_high a b _ _ (by decide)).trans (extract_self _))

@[simp] theorem part_8_3_12z_1 (a : BitVec 8) (b : BitVec 3) :
    BitVec.extractLsb' 12 3 (a ++ b ++ 0#12 : BitVec 23) = b :=
  (append_high (a ++ b) 0#12 _ _ (by decide)).trans ((append_low a b _ _ (by decide)).trans (extract_self _))

@[simp] theorem part_7z_1_4_1 (a : Bool) (b : BitVec 4) :
    (0#7 ++ ofBit a ++ b : BitVec 12).getLsbD 4 = a :=
  (getLsbD_extract _ _).trans ((congrArg (fun x => BitVec.getLsbD x 0) ((append_high (0#7 ++ (ofBit a)) b _ _ (by decide)).trans ((append_low 0#7 (ofBit a) _ _ (by decide)).trans (extract_self _)))).trans (ofBit_getLsbD _))

@[simp] theorem part_7z_1_4_2 (a : Bool) (b : BitVec 4) :
    BitVec.extractLsb' 0 4 (0#7 ++ ofBit a ++ b : BitVec 12) = b :=
  (append_low (0#7 ++ (ofBit a)) b _ _ (by decide)).trans (extract_self _)

@[simp] theorem part_9z_2_1_1 (a : BitVec 2) (b : Bool) :
    BitVec.extractLsb' 1 2 (0#9 ++ a ++ ofBit b : BitVec 12) = a :=
  (append_high (0#9 ++ a) (ofBit b) _ _ (by decide)).trans ((append_low 0#9 a _ _ (by decide)).trans (extract_self _))

@[simp] theorem part_9z_2_1_2 (a : BitVec 2) (b : Bool) :
    (0#9 ++ a ++ ofBit b : BitVec 12).getLsbD 0 = b :=
  (getLsbD_extract _ _).trans ((congrArg (fun x => BitVec.getLsbD x 0) ((append_low (0#9 ++ a) (ofBit b) _ _ (by decide)).trans (extract_self _))).trans (ofBit_getLsbD _))

@[simp] theorem part_1_2z_4_5_0 (s : Bool) (a : BitVec 4) (b : BitVec 5) :
    (ofBit s ++ 0#2 ++ a ++ b : BitVec 12).getLsbD 11 = s :=
  (getLsbD_extract _ _).trans ((congrArg (fun x => BitVec.getLsbD x 0) ((append_high ((ofBit s) ++ 0#2 ++ a) b _ _ (by decide)).trans ((append_high ((ofBit s) ++ 0#2) a _ _ (by decide)).trans ((append_high (ofBit s) 0#2 _ _ (by decide)).trans (extract_self _))))).trans (ofBit_getLsbD _))

@[simp] theorem part_1_2z_4_5_2 (s : Bool) (a : BitVec 4) (b : BitVec 5) :
    BitVec.extractLsb' 5 4 (ofBit s ++ 0#2 ++ a ++ b : BitVec 12) = a :=
  (append_high ((ofBit s) ++ 0#2 ++ a) b _ _ (by decide)).trans ((append_low ((ofBit s) ++ 0#2) a _ _ (by decide)).trans (extract_self _))

@[simp] theorem part_1_2z_4_5_3 (s : Bool) (a : BitVec 4) (b : BitVec 5) :
    BitVec.extractLsb' 0 5 (ofBit s ++ 0#2 ++ a ++ b : BitVec 12) = b :=
  (append_low ((ofBit s) ++ 0#2 ++ a) b _ _ (by decide)).trans (extract_self _)

/-! ### Shapes -/

theorem decOp1_body (k : Op1 → Instr) (x : Op1) : decOp1 k x.h x.body = .ok (k x) := by
  simp [decOp1, Op1.body, bind, Except.bind, pure, Except.pure]

theorem decOp2_body (k : Op2 → Instr) (x : Op2) : decOp2 k x.h x.body = .ok (k x) := by
  simp [decOp2, Op2.body, bind, Except.bind, pure, Except.pure]

theorem decOp3_body (k : Op3 → Instr) (x : Op3) : decOp3 k x.h x.body = .ok (k x) := by
  simp [decOp3, Op3.body, bind, Except.bind, pure, Except.pure]

theorem decCmp_body (k : CmpOp → Instr) (x : CmpOp) : decCmp k x.h x.body = .ok (k x) := by
  simp [decCmp, CmpOp.body, bind, Except.bind, pure, Except.pure]

theorem decFOp1_body (k : FOp1 → Instr) (x : FOp1) : decFOp1 k x.h x.body = .ok (k x) := by
  simp [decFOp1, FOp1.body, bind, Except.bind, pure, Except.pure]

theorem decFOp2_body (k : FOp2 → Instr) (x : FOp2) : decFOp2 k x.h x.body = .ok (k x) := by
  simp [decFOp2, FOp2.body, bind, Except.bind, pure, Except.pure]

theorem decCvt_body (k : CvtOp → Instr) (x : CvtOp) : decCvt k x.h x.body = .ok (k x) := by
  simp [decCvt, CvtOp.body, bind, Except.bind, pure, Except.pure]

theorem decMem_body (k : MemOp → Instr) (x : MemOp) : decMem k x.h x.body = .ok (k x) := by
  simp [decMem, MemOp.body, bind, Except.bind, pure, Except.pure]

theorem decLdu_body (k : LduOp → Instr) (x : LduOp) : decLdu k x.h x.body = .ok (k x) := by
  simp [decLdu, LduOp.body, bind, Except.bind, pure, Except.pure]

theorem decMaint_body (k : MaintOp → Instr) (x : MaintOp) : decMaint k x.h x.body = .ok (k x) := by
  simp [decMaint, MaintOp.body, bind, Except.bind, pure, Except.pure]

theorem decTb_body (k : TbOp → Instr) (x : TbOp) : decTb k x.h x.body = .ok (k x) := by
  simp [decTb, TbOp.body, bind, Except.bind, pure, Except.pure]

theorem decAtom_body (k : AtomFields → Instr) (x : AtomFields) : decAtom k x.h x.body = .ok (k x) := by
  simp [decAtom, AtomFields.body, bind, Except.bind, pure, Except.pure, -BitVec.getLsbD_eq_getElem]

end Sys2Proof
end

