-- ==== Sys2Proof/Laws/State.lean ====
section
/-! SUPPORT. What each update of the state leaves alone: one lemma per field per update. -/

namespace Sys2Proof.Machine

/-! ### setGroup -/

@[simp] theorem setGroup_cycle (s : State) (gid : Nat) (g : Group) : (setGroup s gid g).cycle = s.cycle := rfl
@[simp] theorem setGroup_mem (s : State) (gid : Nat) (g : Group) : (setGroup s gid g).mem = s.mem := rfl
@[simp] theorem setGroup_cores (s : State) (gid : Nat) (g : Group) : (setGroup s gid g).cores = s.cores := rfl
@[simp] theorem setGroup_groups (s : State) (gid : Nat) (g : Group) : (setGroup s gid g).groups = tset s.groups gid g := rfl
@[simp] theorem setGroup_teams (s : State) (gid : Nat) (g : Group) : (setGroup s gid g).teams = s.teams := rfl
@[simp] theorem setGroup_grids (s : State) (gid : Nat) (g : Group) : (setGroup s gid g).grids = s.grids := rfl
@[simp] theorem setGroup_queues (s : State) (gid : Nat) (g : Group) : (setGroup s gid g).queues = s.queues := rfl
@[simp] theorem setGroup_tails (s : State) (gid : Nat) (g : Group) : (setGroup s gid g).tails = s.tails := rfl
@[simp] theorem setGroup_rings (s : State) (gid : Nat) (g : Group) : (setGroup s gid g).rings = s.rings := rfl
@[simp] theorem setGroup_boughBars (s : State) (gid : Nat) (g : Group) : (setGroup s gid g).boughBars = s.boughBars := rfl
@[simp] theorem setGroup_parts (s : State) (gid : Nat) (g : Group) : (setGroup s gid g).parts = s.parts := rfl
@[simp] theorem setGroup_vfs (s : State) (gid : Nat) (g : Group) : (setGroup s gid g).vfs = s.vfs := rfl
@[simp] theorem setGroup_timed (s : State) (gid : Nat) (g : Group) : (setGroup s gid g).timed = s.timed := rfl
@[simp] theorem setGroup_faults (s : State) (gid : Nat) (g : Group) : (setGroup s gid g).faults = s.faults := rfl
@[simp] theorem setGroup_nextId (s : State) (gid : Nat) (g : Group) : (setGroup s gid g).nextId = s.nextId := rfl
@[simp] theorem setGroup_turns (s : State) (gid : Nat) (g : Group) : (setGroup s gid g).turns = s.turns := rfl
@[simp] theorem setGroup_offCores (s : State) (gid : Nat) (g : Group) : (setGroup s gid g).offCores = s.offCores := rfl
@[simp] theorem setGroup_offGranules (s : State) (gid : Nat) (g : Group) : (setGroup s gid g).offGranules = s.offGranules := rfl
@[simp] theorem setGroup_offPorts (s : State) (gid : Nat) (g : Group) : (setGroup s gid g).offPorts = s.offPorts := rfl
@[simp] theorem setGroup_rdcShare (s : State) (gid : Nat) (g : Group) : (setGroup s gid g).rdcShare = s.rdcShare := rfl
@[simp] theorem setGroup_agents (s : State) (gid : Nat) (g : Group) : (setGroup s gid g).agents = s.agents := rfl
@[simp] theorem setGroup_deadAgents (s : State) (gid : Nat) (g : Group) : (setGroup s gid g).deadAgents = s.deadAgents := rfl
@[simp] theorem setGroup_agentTimeout (s : State) (gid : Nat) (g : Group) : (setGroup s gid g).agentTimeout = s.agentTimeout := rfl
@[simp] theorem setGroup_corrected (s : State) (gid : Nat) (g : Group) : (setGroup s gid g).corrected = s.corrected := rfl
@[simp] theorem setGroup_uncorrected (s : State) (gid : Nat) (g : Group) : (setGroup s gid g).uncorrected = s.uncorrected := rfl
@[simp] theorem setGroup_dropped (s : State) (gid : Nat) (g : Group) : (setGroup s gid g).dropped = s.dropped := rfl
@[simp] theorem setGroup_droppedCount (s : State) (gid : Nat) (g : Group) : (setGroup s gid g).droppedCount = s.droppedCount := rfl
@[simp] theorem setGroup_frameDrops (s : State) (gid : Nat) (g : Group) : (setGroup s gid g).frameDrops = s.frameDrops := rfl
@[simp] theorem setGroup_lineages (s : State) (gid : Nat) (g : Group) : (setGroup s gid g).lineages = s.lineages := rfl
@[simp] theorem setGroup_seed (s : State) (gid : Nat) (g : Group) : (setGroup s gid g).seed = s.seed := rfl
@[simp] theorem setGroup_dumpMem (s : State) (gid : Nat) (g : Group) : (setGroup s gid g).dumpMem = s.dumpMem := rfl
@[simp] theorem setGroup_lastFaults (s : State) (gid : Nat) (g : Group) : (setGroup s gid g).lastFaults = s.lastFaults := rfl
@[simp] theorem setGroup_powerCap (s : State) (gid : Nat) (g : Group) : (setGroup s gid g).powerCap = s.powerCap := rfl
@[simp] theorem setGroup_hot (s : State) (gid : Nat) (g : Group) : (setGroup s gid g).hot = s.hot := rfl
@[simp] theorem setGroup_freed (s : State) (gid : Nat) (g : Group) : (setGroup s gid g).freed = s.freed := rfl
@[simp] theorem setGroup_linksDown (s : State) (gid : Nat) (g : Group) : (setGroup s gid g).linksDown = s.linksDown := rfl
@[simp] theorem setGroup_classPrio (s : State) (gid : Nat) (g : Group) : (setGroup s gid g).classPrio = s.classPrio := rfl
@[simp] theorem setGroup_i3cScl (s : State) (gid : Nat) (g : Group) : (setGroup s gid g).i3cScl = s.i3cScl := rfl
@[simp] theorem setGroup_i3cSda (s : State) (gid : Nat) (g : Group) : (setGroup s gid g).i3cSda = s.i3cSda := rfl
@[simp] theorem setGroup_fawaile (s : State) (gid : Nat) (g : Group) : (setGroup s gid g).fawaile = s.fawaile := rfl
@[simp] theorem setGroup_device (s : State) (gid : Nat) (g : Group) : (setGroup s gid g).device = s.device := rfl
@[simp] theorem setGroup_pwrok (s : State) (gid : Nat) (g : Group) : (setGroup s gid g).pwrok = s.pwrok := rfl
@[simp] theorem setGroup_resetN (s : State) (gid : Nat) (g : Group) : (setGroup s gid g).resetN = s.resetN := rfl
@[simp] theorem setGroup_alertN (s : State) (gid : Nat) (g : Group) : (setGroup s gid g).alertN = s.alertN := rfl
@[simp] theorem setGroup_thermtripN (s : State) (gid : Nat) (g : Group) : (setGroup s gid g).thermtripN = s.thermtripN := rfl
@[simp] theorem setGroup_arrivals (s : State) (gid : Nat) (g : Group) : (setGroup s gid g).arrivals = s.arrivals := rfl
@[simp] theorem setGroup_replies (s : State) (gid : Nat) (g : Group) : (setGroup s gid g).replies = s.replies := rfl
@[simp] theorem setGroup_agenda (s : State) (gid : Nat) (g : Group) : (setGroup s gid g).agenda = s.agenda := rfl
@[simp] theorem setGroup_cur (s : State) (gid : Nat) (g : Group) : (setGroup s gid g).cur = s.cur := rfl
@[simp] theorem setGroup_fresh (s : State) (gid : Nat) (g : Group) : (setGroup s gid g).fresh = s.fresh := rfl

/-! ### setCore -/

@[simp] theorem setCore_cycle (s : State) (k : Nat) (c : Core) : (setCore s k c).cycle = s.cycle := rfl
@[simp] theorem setCore_mem (s : State) (k : Nat) (c : Core) : (setCore s k c).mem = s.mem := rfl
@[simp] theorem setCore_cores (s : State) (k : Nat) (c : Core) : (setCore s k c).cores = tset s.cores k c := rfl
@[simp] theorem setCore_groups (s : State) (k : Nat) (c : Core) : (setCore s k c).groups = s.groups := rfl
@[simp] theorem setCore_teams (s : State) (k : Nat) (c : Core) : (setCore s k c).teams = s.teams := rfl
@[simp] theorem setCore_grids (s : State) (k : Nat) (c : Core) : (setCore s k c).grids = s.grids := rfl
@[simp] theorem setCore_queues (s : State) (k : Nat) (c : Core) : (setCore s k c).queues = s.queues := rfl
@[simp] theorem setCore_tails (s : State) (k : Nat) (c : Core) : (setCore s k c).tails = s.tails := rfl
@[simp] theorem setCore_rings (s : State) (k : Nat) (c : Core) : (setCore s k c).rings = s.rings := rfl
@[simp] theorem setCore_boughBars (s : State) (k : Nat) (c : Core) : (setCore s k c).boughBars = s.boughBars := rfl
@[simp] theorem setCore_parts (s : State) (k : Nat) (c : Core) : (setCore s k c).parts = s.parts := rfl
@[simp] theorem setCore_vfs (s : State) (k : Nat) (c : Core) : (setCore s k c).vfs = s.vfs := rfl
@[simp] theorem setCore_timed (s : State) (k : Nat) (c : Core) : (setCore s k c).timed = s.timed := rfl
@[simp] theorem setCore_faults (s : State) (k : Nat) (c : Core) : (setCore s k c).faults = s.faults := rfl
@[simp] theorem setCore_nextId (s : State) (k : Nat) (c : Core) : (setCore s k c).nextId = s.nextId := rfl
@[simp] theorem setCore_turns (s : State) (k : Nat) (c : Core) : (setCore s k c).turns = s.turns := rfl
@[simp] theorem setCore_offCores (s : State) (k : Nat) (c : Core) : (setCore s k c).offCores = s.offCores := rfl
@[simp] theorem setCore_offGranules (s : State) (k : Nat) (c : Core) : (setCore s k c).offGranules = s.offGranules := rfl
@[simp] theorem setCore_offPorts (s : State) (k : Nat) (c : Core) : (setCore s k c).offPorts = s.offPorts := rfl
@[simp] theorem setCore_rdcShare (s : State) (k : Nat) (c : Core) : (setCore s k c).rdcShare = s.rdcShare := rfl
@[simp] theorem setCore_agents (s : State) (k : Nat) (c : Core) : (setCore s k c).agents = s.agents := rfl
@[simp] theorem setCore_deadAgents (s : State) (k : Nat) (c : Core) : (setCore s k c).deadAgents = s.deadAgents := rfl
@[simp] theorem setCore_agentTimeout (s : State) (k : Nat) (c : Core) : (setCore s k c).agentTimeout = s.agentTimeout := rfl
@[simp] theorem setCore_corrected (s : State) (k : Nat) (c : Core) : (setCore s k c).corrected = s.corrected := rfl
@[simp] theorem setCore_uncorrected (s : State) (k : Nat) (c : Core) : (setCore s k c).uncorrected = s.uncorrected := rfl
@[simp] theorem setCore_dropped (s : State) (k : Nat) (c : Core) : (setCore s k c).dropped = s.dropped := rfl
@[simp] theorem setCore_droppedCount (s : State) (k : Nat) (c : Core) : (setCore s k c).droppedCount = s.droppedCount := rfl
@[simp] theorem setCore_frameDrops (s : State) (k : Nat) (c : Core) : (setCore s k c).frameDrops = s.frameDrops := rfl
@[simp] theorem setCore_lineages (s : State) (k : Nat) (c : Core) : (setCore s k c).lineages = s.lineages := rfl
@[simp] theorem setCore_seed (s : State) (k : Nat) (c : Core) : (setCore s k c).seed = s.seed := rfl
@[simp] theorem setCore_dumpMem (s : State) (k : Nat) (c : Core) : (setCore s k c).dumpMem = s.dumpMem := rfl
@[simp] theorem setCore_lastFaults (s : State) (k : Nat) (c : Core) : (setCore s k c).lastFaults = s.lastFaults := rfl
@[simp] theorem setCore_powerCap (s : State) (k : Nat) (c : Core) : (setCore s k c).powerCap = s.powerCap := rfl
@[simp] theorem setCore_hot (s : State) (k : Nat) (c : Core) : (setCore s k c).hot = s.hot := rfl
@[simp] theorem setCore_freed (s : State) (k : Nat) (c : Core) : (setCore s k c).freed = s.freed := rfl
@[simp] theorem setCore_linksDown (s : State) (k : Nat) (c : Core) : (setCore s k c).linksDown = s.linksDown := rfl
@[simp] theorem setCore_classPrio (s : State) (k : Nat) (c : Core) : (setCore s k c).classPrio = s.classPrio := rfl
@[simp] theorem setCore_i3cScl (s : State) (k : Nat) (c : Core) : (setCore s k c).i3cScl = s.i3cScl := rfl
@[simp] theorem setCore_i3cSda (s : State) (k : Nat) (c : Core) : (setCore s k c).i3cSda = s.i3cSda := rfl
@[simp] theorem setCore_fawaile (s : State) (k : Nat) (c : Core) : (setCore s k c).fawaile = s.fawaile := rfl
@[simp] theorem setCore_device (s : State) (k : Nat) (c : Core) : (setCore s k c).device = s.device := rfl
@[simp] theorem setCore_pwrok (s : State) (k : Nat) (c : Core) : (setCore s k c).pwrok = s.pwrok := rfl
@[simp] theorem setCore_resetN (s : State) (k : Nat) (c : Core) : (setCore s k c).resetN = s.resetN := rfl
@[simp] theorem setCore_alertN (s : State) (k : Nat) (c : Core) : (setCore s k c).alertN = s.alertN := rfl
@[simp] theorem setCore_thermtripN (s : State) (k : Nat) (c : Core) : (setCore s k c).thermtripN = s.thermtripN := rfl
@[simp] theorem setCore_arrivals (s : State) (k : Nat) (c : Core) : (setCore s k c).arrivals = s.arrivals := rfl
@[simp] theorem setCore_replies (s : State) (k : Nat) (c : Core) : (setCore s k c).replies = s.replies := rfl
@[simp] theorem setCore_agenda (s : State) (k : Nat) (c : Core) : (setCore s k c).agenda = s.agenda := rfl
@[simp] theorem setCore_cur (s : State) (k : Nat) (c : Core) : (setCore s k c).cur = s.cur := rfl
@[simp] theorem setCore_fresh (s : State) (k : Nat) (c : Core) : (setCore s k c).fresh = s.fresh := rfl

/-! ### setTeam -/

@[simp] theorem setTeam_cycle (s : State) (tid : Nat) (t : Team) : (setTeam s tid t).cycle = s.cycle := rfl
@[simp] theorem setTeam_mem (s : State) (tid : Nat) (t : Team) : (setTeam s tid t).mem = s.mem := rfl
@[simp] theorem setTeam_cores (s : State) (tid : Nat) (t : Team) : (setTeam s tid t).cores = s.cores := rfl
@[simp] theorem setTeam_groups (s : State) (tid : Nat) (t : Team) : (setTeam s tid t).groups = s.groups := rfl
@[simp] theorem setTeam_teams (s : State) (tid : Nat) (t : Team) : (setTeam s tid t).teams = tset s.teams tid t := rfl
@[simp] theorem setTeam_grids (s : State) (tid : Nat) (t : Team) : (setTeam s tid t).grids = s.grids := rfl
@[simp] theorem setTeam_queues (s : State) (tid : Nat) (t : Team) : (setTeam s tid t).queues = s.queues := rfl
@[simp] theorem setTeam_tails (s : State) (tid : Nat) (t : Team) : (setTeam s tid t).tails = s.tails := rfl
@[simp] theorem setTeam_rings (s : State) (tid : Nat) (t : Team) : (setTeam s tid t).rings = s.rings := rfl
@[simp] theorem setTeam_boughBars (s : State) (tid : Nat) (t : Team) : (setTeam s tid t).boughBars = s.boughBars := rfl
@[simp] theorem setTeam_parts (s : State) (tid : Nat) (t : Team) : (setTeam s tid t).parts = s.parts := rfl
@[simp] theorem setTeam_vfs (s : State) (tid : Nat) (t : Team) : (setTeam s tid t).vfs = s.vfs := rfl
@[simp] theorem setTeam_timed (s : State) (tid : Nat) (t : Team) : (setTeam s tid t).timed = s.timed := rfl
@[simp] theorem setTeam_faults (s : State) (tid : Nat) (t : Team) : (setTeam s tid t).faults = s.faults := rfl
@[simp] theorem setTeam_nextId (s : State) (tid : Nat) (t : Team) : (setTeam s tid t).nextId = s.nextId := rfl
@[simp] theorem setTeam_turns (s : State) (tid : Nat) (t : Team) : (setTeam s tid t).turns = s.turns := rfl
@[simp] theorem setTeam_offCores (s : State) (tid : Nat) (t : Team) : (setTeam s tid t).offCores = s.offCores := rfl
@[simp] theorem setTeam_offGranules (s : State) (tid : Nat) (t : Team) : (setTeam s tid t).offGranules = s.offGranules := rfl
@[simp] theorem setTeam_offPorts (s : State) (tid : Nat) (t : Team) : (setTeam s tid t).offPorts = s.offPorts := rfl
@[simp] theorem setTeam_rdcShare (s : State) (tid : Nat) (t : Team) : (setTeam s tid t).rdcShare = s.rdcShare := rfl
@[simp] theorem setTeam_agents (s : State) (tid : Nat) (t : Team) : (setTeam s tid t).agents = s.agents := rfl
@[simp] theorem setTeam_deadAgents (s : State) (tid : Nat) (t : Team) : (setTeam s tid t).deadAgents = s.deadAgents := rfl
@[simp] theorem setTeam_agentTimeout (s : State) (tid : Nat) (t : Team) : (setTeam s tid t).agentTimeout = s.agentTimeout := rfl
@[simp] theorem setTeam_corrected (s : State) (tid : Nat) (t : Team) : (setTeam s tid t).corrected = s.corrected := rfl
@[simp] theorem setTeam_uncorrected (s : State) (tid : Nat) (t : Team) : (setTeam s tid t).uncorrected = s.uncorrected := rfl
@[simp] theorem setTeam_dropped (s : State) (tid : Nat) (t : Team) : (setTeam s tid t).dropped = s.dropped := rfl
@[simp] theorem setTeam_droppedCount (s : State) (tid : Nat) (t : Team) : (setTeam s tid t).droppedCount = s.droppedCount := rfl
@[simp] theorem setTeam_frameDrops (s : State) (tid : Nat) (t : Team) : (setTeam s tid t).frameDrops = s.frameDrops := rfl
@[simp] theorem setTeam_lineages (s : State) (tid : Nat) (t : Team) : (setTeam s tid t).lineages = s.lineages := rfl
@[simp] theorem setTeam_seed (s : State) (tid : Nat) (t : Team) : (setTeam s tid t).seed = s.seed := rfl
@[simp] theorem setTeam_dumpMem (s : State) (tid : Nat) (t : Team) : (setTeam s tid t).dumpMem = s.dumpMem := rfl
@[simp] theorem setTeam_lastFaults (s : State) (tid : Nat) (t : Team) : (setTeam s tid t).lastFaults = s.lastFaults := rfl
@[simp] theorem setTeam_powerCap (s : State) (tid : Nat) (t : Team) : (setTeam s tid t).powerCap = s.powerCap := rfl
@[simp] theorem setTeam_hot (s : State) (tid : Nat) (t : Team) : (setTeam s tid t).hot = s.hot := rfl
@[simp] theorem setTeam_freed (s : State) (tid : Nat) (t : Team) : (setTeam s tid t).freed = s.freed := rfl
@[simp] theorem setTeam_linksDown (s : State) (tid : Nat) (t : Team) : (setTeam s tid t).linksDown = s.linksDown := rfl
@[simp] theorem setTeam_classPrio (s : State) (tid : Nat) (t : Team) : (setTeam s tid t).classPrio = s.classPrio := rfl
@[simp] theorem setTeam_i3cScl (s : State) (tid : Nat) (t : Team) : (setTeam s tid t).i3cScl = s.i3cScl := rfl
@[simp] theorem setTeam_i3cSda (s : State) (tid : Nat) (t : Team) : (setTeam s tid t).i3cSda = s.i3cSda := rfl
@[simp] theorem setTeam_fawaile (s : State) (tid : Nat) (t : Team) : (setTeam s tid t).fawaile = s.fawaile := rfl
@[simp] theorem setTeam_device (s : State) (tid : Nat) (t : Team) : (setTeam s tid t).device = s.device := rfl
@[simp] theorem setTeam_pwrok (s : State) (tid : Nat) (t : Team) : (setTeam s tid t).pwrok = s.pwrok := rfl
@[simp] theorem setTeam_resetN (s : State) (tid : Nat) (t : Team) : (setTeam s tid t).resetN = s.resetN := rfl
@[simp] theorem setTeam_alertN (s : State) (tid : Nat) (t : Team) : (setTeam s tid t).alertN = s.alertN := rfl
@[simp] theorem setTeam_thermtripN (s : State) (tid : Nat) (t : Team) : (setTeam s tid t).thermtripN = s.thermtripN := rfl
@[simp] theorem setTeam_arrivals (s : State) (tid : Nat) (t : Team) : (setTeam s tid t).arrivals = s.arrivals := rfl
@[simp] theorem setTeam_replies (s : State) (tid : Nat) (t : Team) : (setTeam s tid t).replies = s.replies := rfl
@[simp] theorem setTeam_agenda (s : State) (tid : Nat) (t : Team) : (setTeam s tid t).agenda = s.agenda := rfl
@[simp] theorem setTeam_cur (s : State) (tid : Nat) (t : Team) : (setTeam s tid t).cur = s.cur := rfl
@[simp] theorem setTeam_fresh (s : State) (tid : Nat) (t : Team) : (setTeam s tid t).fresh = s.fresh := rfl

/-! ### setMem -/

@[simp] theorem setMem_cycle (s : State) (m : Mem) : (setMem s m).cycle = s.cycle := rfl
@[simp] theorem setMem_mem (s : State) (m : Mem) : (setMem s m).mem = m := rfl
@[simp] theorem setMem_cores (s : State) (m : Mem) : (setMem s m).cores = s.cores := rfl
@[simp] theorem setMem_groups (s : State) (m : Mem) : (setMem s m).groups = s.groups := rfl
@[simp] theorem setMem_teams (s : State) (m : Mem) : (setMem s m).teams = s.teams := rfl
@[simp] theorem setMem_grids (s : State) (m : Mem) : (setMem s m).grids = s.grids := rfl
@[simp] theorem setMem_queues (s : State) (m : Mem) : (setMem s m).queues = s.queues := rfl
@[simp] theorem setMem_tails (s : State) (m : Mem) : (setMem s m).tails = s.tails := rfl
@[simp] theorem setMem_rings (s : State) (m : Mem) : (setMem s m).rings = s.rings := rfl
@[simp] theorem setMem_boughBars (s : State) (m : Mem) : (setMem s m).boughBars = s.boughBars := rfl
@[simp] theorem setMem_parts (s : State) (m : Mem) : (setMem s m).parts = s.parts := rfl
@[simp] theorem setMem_vfs (s : State) (m : Mem) : (setMem s m).vfs = s.vfs := rfl
@[simp] theorem setMem_timed (s : State) (m : Mem) : (setMem s m).timed = s.timed := rfl
@[simp] theorem setMem_faults (s : State) (m : Mem) : (setMem s m).faults = s.faults := rfl
@[simp] theorem setMem_nextId (s : State) (m : Mem) : (setMem s m).nextId = s.nextId := rfl
@[simp] theorem setMem_turns (s : State) (m : Mem) : (setMem s m).turns = s.turns := rfl
@[simp] theorem setMem_offCores (s : State) (m : Mem) : (setMem s m).offCores = s.offCores := rfl
@[simp] theorem setMem_offGranules (s : State) (m : Mem) : (setMem s m).offGranules = s.offGranules := rfl
@[simp] theorem setMem_offPorts (s : State) (m : Mem) : (setMem s m).offPorts = s.offPorts := rfl
@[simp] theorem setMem_rdcShare (s : State) (m : Mem) : (setMem s m).rdcShare = s.rdcShare := rfl
@[simp] theorem setMem_agents (s : State) (m : Mem) : (setMem s m).agents = s.agents := rfl
@[simp] theorem setMem_deadAgents (s : State) (m : Mem) : (setMem s m).deadAgents = s.deadAgents := rfl
@[simp] theorem setMem_agentTimeout (s : State) (m : Mem) : (setMem s m).agentTimeout = s.agentTimeout := rfl
@[simp] theorem setMem_corrected (s : State) (m : Mem) : (setMem s m).corrected = s.corrected := rfl
@[simp] theorem setMem_uncorrected (s : State) (m : Mem) : (setMem s m).uncorrected = s.uncorrected := rfl
@[simp] theorem setMem_dropped (s : State) (m : Mem) : (setMem s m).dropped = s.dropped := rfl
@[simp] theorem setMem_droppedCount (s : State) (m : Mem) : (setMem s m).droppedCount = s.droppedCount := rfl
@[simp] theorem setMem_frameDrops (s : State) (m : Mem) : (setMem s m).frameDrops = s.frameDrops := rfl
@[simp] theorem setMem_lineages (s : State) (m : Mem) : (setMem s m).lineages = s.lineages := rfl
@[simp] theorem setMem_seed (s : State) (m : Mem) : (setMem s m).seed = s.seed := rfl
@[simp] theorem setMem_dumpMem (s : State) (m : Mem) : (setMem s m).dumpMem = s.dumpMem := rfl
@[simp] theorem setMem_lastFaults (s : State) (m : Mem) : (setMem s m).lastFaults = s.lastFaults := rfl
@[simp] theorem setMem_powerCap (s : State) (m : Mem) : (setMem s m).powerCap = s.powerCap := rfl
@[simp] theorem setMem_hot (s : State) (m : Mem) : (setMem s m).hot = s.hot := rfl
@[simp] theorem setMem_freed (s : State) (m : Mem) : (setMem s m).freed = s.freed := rfl
@[simp] theorem setMem_linksDown (s : State) (m : Mem) : (setMem s m).linksDown = s.linksDown := rfl
@[simp] theorem setMem_classPrio (s : State) (m : Mem) : (setMem s m).classPrio = s.classPrio := rfl
@[simp] theorem setMem_i3cScl (s : State) (m : Mem) : (setMem s m).i3cScl = s.i3cScl := rfl
@[simp] theorem setMem_i3cSda (s : State) (m : Mem) : (setMem s m).i3cSda = s.i3cSda := rfl
@[simp] theorem setMem_fawaile (s : State) (m : Mem) : (setMem s m).fawaile = s.fawaile := rfl
@[simp] theorem setMem_device (s : State) (m : Mem) : (setMem s m).device = s.device := rfl
@[simp] theorem setMem_pwrok (s : State) (m : Mem) : (setMem s m).pwrok = s.pwrok := rfl
@[simp] theorem setMem_resetN (s : State) (m : Mem) : (setMem s m).resetN = s.resetN := rfl
@[simp] theorem setMem_alertN (s : State) (m : Mem) : (setMem s m).alertN = s.alertN := rfl
@[simp] theorem setMem_thermtripN (s : State) (m : Mem) : (setMem s m).thermtripN = s.thermtripN := rfl
@[simp] theorem setMem_arrivals (s : State) (m : Mem) : (setMem s m).arrivals = s.arrivals := rfl
@[simp] theorem setMem_replies (s : State) (m : Mem) : (setMem s m).replies = s.replies := rfl
@[simp] theorem setMem_agenda (s : State) (m : Mem) : (setMem s m).agenda = s.agenda := rfl
@[simp] theorem setMem_cur (s : State) (m : Mem) : (setMem s m).cur = s.cur := rfl
@[simp] theorem setMem_fresh (s : State) (m : Mem) : (setMem s m).fresh = s.fresh := rfl

/-! ### takeId -/

@[simp] theorem takeId_cycle (s : State) : (takeId s).1.cycle = s.cycle := rfl
@[simp] theorem takeId_mem (s : State) : (takeId s).1.mem = s.mem := rfl
@[simp] theorem takeId_cores (s : State) : (takeId s).1.cores = s.cores := rfl
@[simp] theorem takeId_groups (s : State) : (takeId s).1.groups = s.groups := rfl
@[simp] theorem takeId_teams (s : State) : (takeId s).1.teams = s.teams := rfl
@[simp] theorem takeId_grids (s : State) : (takeId s).1.grids = s.grids := rfl
@[simp] theorem takeId_queues (s : State) : (takeId s).1.queues = s.queues := rfl
@[simp] theorem takeId_tails (s : State) : (takeId s).1.tails = s.tails := rfl
@[simp] theorem takeId_rings (s : State) : (takeId s).1.rings = s.rings := rfl
@[simp] theorem takeId_boughBars (s : State) : (takeId s).1.boughBars = s.boughBars := rfl
@[simp] theorem takeId_parts (s : State) : (takeId s).1.parts = s.parts := rfl
@[simp] theorem takeId_vfs (s : State) : (takeId s).1.vfs = s.vfs := rfl
@[simp] theorem takeId_timed (s : State) : (takeId s).1.timed = s.timed := rfl
@[simp] theorem takeId_faults (s : State) : (takeId s).1.faults = s.faults := rfl
@[simp] theorem takeId_nextId (s : State) : (takeId s).1.nextId = s.nextId + 1 := rfl
@[simp] theorem takeId_turns (s : State) : (takeId s).1.turns = s.turns := rfl
@[simp] theorem takeId_offCores (s : State) : (takeId s).1.offCores = s.offCores := rfl
@[simp] theorem takeId_offGranules (s : State) : (takeId s).1.offGranules = s.offGranules := rfl
@[simp] theorem takeId_offPorts (s : State) : (takeId s).1.offPorts = s.offPorts := rfl
@[simp] theorem takeId_rdcShare (s : State) : (takeId s).1.rdcShare = s.rdcShare := rfl
@[simp] theorem takeId_agents (s : State) : (takeId s).1.agents = s.agents := rfl
@[simp] theorem takeId_deadAgents (s : State) : (takeId s).1.deadAgents = s.deadAgents := rfl
@[simp] theorem takeId_agentTimeout (s : State) : (takeId s).1.agentTimeout = s.agentTimeout := rfl
@[simp] theorem takeId_corrected (s : State) : (takeId s).1.corrected = s.corrected := rfl
@[simp] theorem takeId_uncorrected (s : State) : (takeId s).1.uncorrected = s.uncorrected := rfl
@[simp] theorem takeId_dropped (s : State) : (takeId s).1.dropped = s.dropped := rfl
@[simp] theorem takeId_droppedCount (s : State) : (takeId s).1.droppedCount = s.droppedCount := rfl
@[simp] theorem takeId_frameDrops (s : State) : (takeId s).1.frameDrops = s.frameDrops := rfl
@[simp] theorem takeId_lineages (s : State) : (takeId s).1.lineages = s.lineages := rfl
@[simp] theorem takeId_seed (s : State) : (takeId s).1.seed = s.seed := rfl
@[simp] theorem takeId_dumpMem (s : State) : (takeId s).1.dumpMem = s.dumpMem := rfl
@[simp] theorem takeId_lastFaults (s : State) : (takeId s).1.lastFaults = s.lastFaults := rfl
@[simp] theorem takeId_powerCap (s : State) : (takeId s).1.powerCap = s.powerCap := rfl
@[simp] theorem takeId_hot (s : State) : (takeId s).1.hot = s.hot := rfl
@[simp] theorem takeId_freed (s : State) : (takeId s).1.freed = s.freed := rfl
@[simp] theorem takeId_linksDown (s : State) : (takeId s).1.linksDown = s.linksDown := rfl
@[simp] theorem takeId_classPrio (s : State) : (takeId s).1.classPrio = s.classPrio := rfl
@[simp] theorem takeId_i3cScl (s : State) : (takeId s).1.i3cScl = s.i3cScl := rfl
@[simp] theorem takeId_i3cSda (s : State) : (takeId s).1.i3cSda = s.i3cSda := rfl
@[simp] theorem takeId_fawaile (s : State) : (takeId s).1.fawaile = s.fawaile := rfl
@[simp] theorem takeId_device (s : State) : (takeId s).1.device = s.device := rfl
@[simp] theorem takeId_pwrok (s : State) : (takeId s).1.pwrok = s.pwrok := rfl
@[simp] theorem takeId_resetN (s : State) : (takeId s).1.resetN = s.resetN := rfl
@[simp] theorem takeId_alertN (s : State) : (takeId s).1.alertN = s.alertN := rfl
@[simp] theorem takeId_thermtripN (s : State) : (takeId s).1.thermtripN = s.thermtripN := rfl
@[simp] theorem takeId_arrivals (s : State) : (takeId s).1.arrivals = s.arrivals := rfl
@[simp] theorem takeId_replies (s : State) : (takeId s).1.replies = s.replies := rfl
@[simp] theorem takeId_agenda (s : State) : (takeId s).1.agenda = s.agenda := rfl
@[simp] theorem takeId_cur (s : State) : (takeId s).1.cur = s.cur := rfl
@[simp] theorem takeId_fresh (s : State) : (takeId s).1.fresh = s.fresh := rfl

/-! ### drawKeep -/

@[simp] theorem drawKeep_cycle (s : State) : (drawKeep s).1.cycle = s.cycle := rfl
@[simp] theorem drawKeep_mem (s : State) : (drawKeep s).1.mem = s.mem := rfl
@[simp] theorem drawKeep_cores (s : State) : (drawKeep s).1.cores = s.cores := rfl
@[simp] theorem drawKeep_groups (s : State) : (drawKeep s).1.groups = s.groups := rfl
@[simp] theorem drawKeep_teams (s : State) : (drawKeep s).1.teams = s.teams := rfl
@[simp] theorem drawKeep_grids (s : State) : (drawKeep s).1.grids = s.grids := rfl
@[simp] theorem drawKeep_queues (s : State) : (drawKeep s).1.queues = s.queues := rfl
@[simp] theorem drawKeep_tails (s : State) : (drawKeep s).1.tails = s.tails := rfl
@[simp] theorem drawKeep_rings (s : State) : (drawKeep s).1.rings = s.rings := rfl
@[simp] theorem drawKeep_boughBars (s : State) : (drawKeep s).1.boughBars = s.boughBars := rfl
@[simp] theorem drawKeep_parts (s : State) : (drawKeep s).1.parts = s.parts := rfl
@[simp] theorem drawKeep_vfs (s : State) : (drawKeep s).1.vfs = s.vfs := rfl
@[simp] theorem drawKeep_timed (s : State) : (drawKeep s).1.timed = s.timed := rfl
@[simp] theorem drawKeep_faults (s : State) : (drawKeep s).1.faults = s.faults := rfl
@[simp] theorem drawKeep_nextId (s : State) : (drawKeep s).1.nextId = s.nextId := rfl
@[simp] theorem drawKeep_turns (s : State) : (drawKeep s).1.turns = s.turns := rfl
@[simp] theorem drawKeep_offCores (s : State) : (drawKeep s).1.offCores = s.offCores := rfl
@[simp] theorem drawKeep_offGranules (s : State) : (drawKeep s).1.offGranules = s.offGranules := rfl
@[simp] theorem drawKeep_offPorts (s : State) : (drawKeep s).1.offPorts = s.offPorts := rfl
@[simp] theorem drawKeep_rdcShare (s : State) : (drawKeep s).1.rdcShare = s.rdcShare := rfl
@[simp] theorem drawKeep_agents (s : State) : (drawKeep s).1.agents = s.agents := rfl
@[simp] theorem drawKeep_deadAgents (s : State) : (drawKeep s).1.deadAgents = s.deadAgents := rfl
@[simp] theorem drawKeep_agentTimeout (s : State) : (drawKeep s).1.agentTimeout = s.agentTimeout := rfl
@[simp] theorem drawKeep_corrected (s : State) : (drawKeep s).1.corrected = s.corrected := rfl
@[simp] theorem drawKeep_uncorrected (s : State) : (drawKeep s).1.uncorrected = s.uncorrected := rfl
@[simp] theorem drawKeep_dropped (s : State) : (drawKeep s).1.dropped = s.dropped := rfl
@[simp] theorem drawKeep_droppedCount (s : State) : (drawKeep s).1.droppedCount = s.droppedCount := rfl
@[simp] theorem drawKeep_frameDrops (s : State) : (drawKeep s).1.frameDrops = s.frameDrops := rfl
@[simp] theorem drawKeep_lineages (s : State) : (drawKeep s).1.lineages = s.lineages := rfl
@[simp] theorem drawKeep_seed (s : State) : (drawKeep s).1.seed = s.seed := rfl
@[simp] theorem drawKeep_dumpMem (s : State) : (drawKeep s).1.dumpMem = s.dumpMem := rfl
@[simp] theorem drawKeep_lastFaults (s : State) : (drawKeep s).1.lastFaults = s.lastFaults := rfl
@[simp] theorem drawKeep_powerCap (s : State) : (drawKeep s).1.powerCap = s.powerCap := rfl
@[simp] theorem drawKeep_hot (s : State) : (drawKeep s).1.hot = s.hot := rfl
@[simp] theorem drawKeep_freed (s : State) : (drawKeep s).1.freed = s.freed := rfl
@[simp] theorem drawKeep_linksDown (s : State) : (drawKeep s).1.linksDown = s.linksDown := rfl
@[simp] theorem drawKeep_classPrio (s : State) : (drawKeep s).1.classPrio = s.classPrio := rfl
@[simp] theorem drawKeep_i3cScl (s : State) : (drawKeep s).1.i3cScl = s.i3cScl := rfl
@[simp] theorem drawKeep_i3cSda (s : State) : (drawKeep s).1.i3cSda = s.i3cSda := rfl
@[simp] theorem drawKeep_fawaile (s : State) : (drawKeep s).1.fawaile = s.fawaile := rfl
@[simp] theorem drawKeep_device (s : State) : (drawKeep s).1.device = s.device := rfl
@[simp] theorem drawKeep_pwrok (s : State) : (drawKeep s).1.pwrok = s.pwrok := rfl
@[simp] theorem drawKeep_resetN (s : State) : (drawKeep s).1.resetN = s.resetN := rfl
@[simp] theorem drawKeep_alertN (s : State) : (drawKeep s).1.alertN = s.alertN := rfl
@[simp] theorem drawKeep_thermtripN (s : State) : (drawKeep s).1.thermtripN = s.thermtripN := rfl
@[simp] theorem drawKeep_arrivals (s : State) : (drawKeep s).1.arrivals = s.arrivals := rfl
@[simp] theorem drawKeep_replies (s : State) : (drawKeep s).1.replies = s.replies := rfl
@[simp] theorem drawKeep_agenda (s : State) : (drawKeep s).1.agenda = s.agenda := rfl
@[simp] theorem drawKeep_cur (s : State) : (drawKeep s).1.cur = s.cur := rfl
@[simp] theorem drawKeep_fresh (s : State) : (drawKeep s).1.fresh = s.fresh + 1 := rfl

/-! ### record -/

@[simp] theorem record_cycle (s : State) (r : FaultRec) : (record s r).cycle = s.cycle := rfl
@[simp] theorem record_mem (s : State) (r : FaultRec) : (record s r).mem = s.mem := rfl
@[simp] theorem record_cores (s : State) (r : FaultRec) : (record s r).cores = s.cores := rfl
@[simp] theorem record_groups (s : State) (r : FaultRec) : (record s r).groups = s.groups := rfl
@[simp] theorem record_teams (s : State) (r : FaultRec) : (record s r).teams = s.teams := rfl
@[simp] theorem record_grids (s : State) (r : FaultRec) : (record s r).grids = s.grids := rfl
@[simp] theorem record_queues (s : State) (r : FaultRec) : (record s r).queues = s.queues := rfl
@[simp] theorem record_tails (s : State) (r : FaultRec) : (record s r).tails = s.tails := rfl
@[simp] theorem record_rings (s : State) (r : FaultRec) : (record s r).rings = s.rings := rfl
@[simp] theorem record_boughBars (s : State) (r : FaultRec) : (record s r).boughBars = s.boughBars := rfl
@[simp] theorem record_parts (s : State) (r : FaultRec) : (record s r).parts = s.parts := rfl
@[simp] theorem record_vfs (s : State) (r : FaultRec) : (record s r).vfs = s.vfs := rfl
@[simp] theorem record_timed (s : State) (r : FaultRec) : (record s r).timed = s.timed := rfl
@[simp] theorem record_faults (s : State) (r : FaultRec) : (record s r).faults = s.faults ++ [r] := rfl
@[simp] theorem record_nextId (s : State) (r : FaultRec) : (record s r).nextId = s.nextId := rfl
@[simp] theorem record_turns (s : State) (r : FaultRec) : (record s r).turns = s.turns := rfl
@[simp] theorem record_offCores (s : State) (r : FaultRec) : (record s r).offCores = s.offCores := rfl
@[simp] theorem record_offGranules (s : State) (r : FaultRec) : (record s r).offGranules = s.offGranules := rfl
@[simp] theorem record_offPorts (s : State) (r : FaultRec) : (record s r).offPorts = s.offPorts := rfl
@[simp] theorem record_rdcShare (s : State) (r : FaultRec) : (record s r).rdcShare = s.rdcShare := rfl
@[simp] theorem record_agents (s : State) (r : FaultRec) : (record s r).agents = s.agents := rfl
@[simp] theorem record_deadAgents (s : State) (r : FaultRec) : (record s r).deadAgents = s.deadAgents := rfl
@[simp] theorem record_agentTimeout (s : State) (r : FaultRec) : (record s r).agentTimeout = s.agentTimeout := rfl
@[simp] theorem record_corrected (s : State) (r : FaultRec) : (record s r).corrected = s.corrected := rfl
@[simp] theorem record_uncorrected (s : State) (r : FaultRec) : (record s r).uncorrected = s.uncorrected := rfl
@[simp] theorem record_dropped (s : State) (r : FaultRec) : (record s r).dropped = s.dropped := rfl
@[simp] theorem record_droppedCount (s : State) (r : FaultRec) : (record s r).droppedCount = s.droppedCount := rfl
@[simp] theorem record_frameDrops (s : State) (r : FaultRec) : (record s r).frameDrops = s.frameDrops := rfl
@[simp] theorem record_lineages (s : State) (r : FaultRec) : (record s r).lineages = s.lineages := rfl
@[simp] theorem record_seed (s : State) (r : FaultRec) : (record s r).seed = s.seed := rfl
@[simp] theorem record_dumpMem (s : State) (r : FaultRec) : (record s r).dumpMem = s.dumpMem := rfl
@[simp] theorem record_lastFaults (s : State) (r : FaultRec) : (record s r).lastFaults = s.lastFaults := rfl
@[simp] theorem record_powerCap (s : State) (r : FaultRec) : (record s r).powerCap = s.powerCap := rfl
@[simp] theorem record_hot (s : State) (r : FaultRec) : (record s r).hot = s.hot := rfl
@[simp] theorem record_freed (s : State) (r : FaultRec) : (record s r).freed = s.freed := rfl
@[simp] theorem record_linksDown (s : State) (r : FaultRec) : (record s r).linksDown = s.linksDown := rfl
@[simp] theorem record_classPrio (s : State) (r : FaultRec) : (record s r).classPrio = s.classPrio := rfl
@[simp] theorem record_i3cScl (s : State) (r : FaultRec) : (record s r).i3cScl = s.i3cScl := rfl
@[simp] theorem record_i3cSda (s : State) (r : FaultRec) : (record s r).i3cSda = s.i3cSda := rfl
@[simp] theorem record_fawaile (s : State) (r : FaultRec) : (record s r).fawaile = s.fawaile := rfl
@[simp] theorem record_device (s : State) (r : FaultRec) : (record s r).device = s.device := rfl
@[simp] theorem record_pwrok (s : State) (r : FaultRec) : (record s r).pwrok = s.pwrok := rfl
@[simp] theorem record_resetN (s : State) (r : FaultRec) : (record s r).resetN = s.resetN := rfl
@[simp] theorem record_alertN (s : State) (r : FaultRec) : (record s r).alertN = s.alertN := rfl
@[simp] theorem record_thermtripN (s : State) (r : FaultRec) : (record s r).thermtripN = s.thermtripN := rfl
@[simp] theorem record_arrivals (s : State) (r : FaultRec) : (record s r).arrivals = s.arrivals := rfl
@[simp] theorem record_replies (s : State) (r : FaultRec) : (record s r).replies = s.replies := rfl
@[simp] theorem record_agenda (s : State) (r : FaultRec) : (record s r).agenda = s.agenda := rfl
@[simp] theorem record_cur (s : State) (r : FaultRec) : (record s r).cur = s.cur := rfl
@[simp] theorem record_fresh (s : State) (r : FaultRec) : (record s r).fresh = s.fresh := rfl

/-! ### advance -/

@[simp] theorem advance_team (g : Group) (n : Nat) : (advance g n).team = g.team := rfl
@[simp] theorem advance_core (g : Group) (n : Nat) : (advance g n).core = g.core := rfl
@[simp] theorem advance_slice (g : Group) (n : Nat) : (advance g n).slice = g.slice := rfl
@[simp] theorem advance_role (g : Group) (n : Nat) : (advance g n).role = g.role := rfl
@[simp] theorem advance_gnum (g : Group) (n : Nat) : (advance g n).gnum = g.gnum := rfl
@[simp] theorem advance_pc (g : Group) (n : Nat) : (advance g n).pc = g.pc + BitVec.ofNat 64 n := rfl
@[simp] theorem advance_mask (g : Group) (n : Nat) : (advance g n).mask = g.mask := rfl
@[simp] theorem advance_live (g : Group) (n : Nat) : (advance g n).live = g.live := rfl
@[simp] theorem advance_stack (g : Group) (n : Nat) : (advance g n).stack = g.stack := rfl
@[simp] theorem advance_fmt (g : Group) (n : Nat) : (advance g n).fmt = g.fmt := rfl
@[simp] theorem advance_v (g : Group) (n : Nat) : (advance g n).v = g.v := rfl
@[simp] theorem advance_o (g : Group) (n : Nat) : (advance g n).o = g.o := rfl
@[simp] theorem advance_l (g : Group) (n : Nat) : (advance g n).l = g.l := rfl
@[simp] theorem advance_s (g : Group) (n : Nat) : (advance g n).s = g.s := rfl
@[simp] theorem advance_p (g : Group) (n : Nat) : (advance g n).p = g.p := rfl
@[simp] theorem advance_g (g : Group) (n : Nat) : (advance g n).g = g.g := rfl
@[simp] theorem advance_c (g : Group) (n : Nat) : (advance g n).c = g.c := rfl
@[simp] theorem advance_cap (g : Group) (n : Nat) : (advance g n).cap = g.cap := rfl
@[simp] theorem advance_tiles (g : Group) (n : Nat) : (advance g n).tiles = g.tiles := rfl
@[simp] theorem advance_acc (g : Group) (n : Nat) : (advance g n).acc = g.acc := rfl
@[simp] theorem advance_orig (g : Group) (n : Nat) : (advance g n).orig = g.orig := rfl
@[simp] theorem advance_rng (g : Group) (n : Nat) : (advance g n).rng = g.rng := rfl
@[simp] theorem advance_trapinfo (g : Group) (n : Nat) : (advance g n).trapinfo = g.trapinfo := rfl
@[simp] theorem advance_trappc (g : Group) (n : Nat) : (advance g n).trappc = g.trappc := rfl
@[simp] theorem advance_trapaddr (g : Group) (n : Nat) : (advance g n).trapaddr = g.trapaddr := rfl
@[simp] theorem advance_pend (g : Group) (n : Nat) : (advance g n).pend = g.pend := rfl
@[simp] theorem advance_nextBatch (g : Group) (n : Nat) : (advance g n).nextBatch = g.nextBatch := rfl
@[simp] theorem advance_lastVer (g : Group) (n : Nat) : (advance g n).lastVer = g.lastVer := rfl
@[simp] theorem advance_prevVer (g : Group) (n : Nat) : (advance g n).prevVer = g.prevVer := rfl
@[simp] theorem advance_lastMask (g : Group) (n : Nat) : (advance g n).lastMask = g.lastMask := rfl
@[simp] theorem advance_prevMask (g : Group) (n : Nat) : (advance g n).prevMask = g.prevMask := rfl
@[simp] theorem advance_stopDue (g : Group) (n : Nat) : (advance g n).stopDue = g.stopDue := rfl
@[simp] theorem advance_fixedBack (g : Group) (n : Nat) : (advance g n).fixedBack = g.fixedBack := rfl
@[simp] theorem advance_lateBack (g : Group) (n : Nat) : (advance g n).lateBack = g.lateBack := rfl
@[simp] theorem advance_missBack (g : Group) (n : Nat) : (advance g n).missBack = g.missBack := rfl
@[simp] theorem advance_freeAt (g : Group) (n : Nat) : (advance g n).freeAt = g.freeAt := rfl
@[simp] theorem advance_wait (g : Group) (n : Nat) : (advance g n).wait = g.wait := rfl
@[simp] theorem advance_waitSince (g : Group) (n : Nat) : (advance g n).waitSince = g.waitSince := rfl
@[simp] theorem advance_waitSeq (g : Group) (n : Nat) : (advance g n).waitSeq = g.waitSeq := rfl
@[simp] theorem advance_parkLen (g : Group) (n : Nat) : (advance g n).parkLen = g.parkLen := rfl
@[simp] theorem advance_poked (g : Group) (n : Nat) : (advance g n).poked = g.poked := rfl
@[simp] theorem advance_spawnLeft (g : Group) (n : Nat) : (advance g n).spawnLeft = g.spawnLeft := rfl
@[simp] theorem advance_age (g : Group) (n : Nat) : (advance g n).age = g.age := rfl
@[simp] theorem advance_pendSince (g : Group) (n : Nat) : (advance g n).pendSince = g.pendSince := rfl
@[simp] theorem advance_readySince (g : Group) (n : Nat) : (advance g n).readySince = g.readySince := rfl
@[simp] theorem advance_lastStall (g : Group) (n : Nat) : (advance g n).lastStall = g.lastStall := rfl
@[simp] theorem advance_relOwed (g : Group) (n : Nat) : (advance g n).relOwed = g.relOwed := rfl
@[simp] theorem advance_lastLoad (g : Group) (n : Nat) : (advance g n).lastLoad = g.lastLoad := rfl
@[simp] theorem advance_passFrom (g : Group) (n : Nat) : (advance g n).passFrom = g.passFrom := rfl
@[simp] theorem advance_redo (g : Group) (n : Nat) : (advance g n).redo = g.redo := rfl
@[simp] theorem advance_beatWords (g : Group) (n : Nat) : (advance g n).beatWords = g.beatWords := rfl
@[simp] theorem advance_beatLanes (g : Group) (n : Nat) : (advance g n).beatLanes = g.beatLanes := rfl
@[simp] theorem advance_beatPend (g : Group) (n : Nat) : (advance g n).beatPend = g.beatPend := rfl

/-! ### Reading back -/

@[simp] theorem getGroup_setGroup (s : State) (gid : Nat) (g : Group) : getGroup (setGroup s gid g) gid = some g :=
  tget_tset_same _ _ _

theorem getGroup_setGroup_other (s : State) (gid j : Nat) (g : Group) (h : j ≠ gid) :
    getGroup (setGroup s gid g) j = getGroup s j := tget_tset_other _ _ _ _ h

@[simp] theorem getCore_setCore (s : State) (k : Nat) (c : Core) : getCore (setCore s k c) k = c := by
  simp [getCore, tget_tset_same]

theorem getCore_setCore_other (s : State) (k j : Nat) (c : Core) (h : j ≠ k) : getCore (setCore s k c) j = getCore s j := by
  simp [getCore, tget_tset_other _ _ _ _ h]

@[simp] theorem getTeam_setTeam (s : State) (tid : Nat) (t : Team) : getTeam (setTeam s tid t) tid = some t :=
  tget_tset_same _ _ _

theorem getTeam_setTeam_other (s : State) (tid j : Nat) (t : Team) (h : j ≠ tid) :
    getTeam (setTeam s tid t) j = getTeam s j := tget_tset_other _ _ _ _ h

@[simp] theorem getCore_setGroup (s : State) (gid k : Nat) (g : Group) : getCore (setGroup s gid g) k = getCore s k := rfl

@[simp] theorem getTeam_setGroup (s : State) (gid k : Nat) (g : Group) : getTeam (setGroup s gid g) k = getTeam s k := rfl

@[simp] theorem getGroup_setCore (s : State) (gid k : Nat) (c : Core) : getGroup (setCore s k c) gid = getGroup s gid := rfl

@[simp] theorem getTeam_setCore (s : State) (tid k : Nat) (c : Core) : getTeam (setCore s k c) tid = getTeam s tid := rfl

@[simp] theorem getGroup_setTeam (s : State) (gid k : Nat) (t : Team) : getGroup (setTeam s k t) gid = getGroup s gid := rfl

@[simp] theorem getCore_setTeam (s : State) (j k : Nat) (t : Team) : getCore (setTeam s k t) j = getCore s j := rfl

@[simp] theorem setGroup_setGroup (s : State) (gid : Nat) (g g' : Group) :
    setGroup (setGroup s gid g) gid g' = setGroup s gid g' := by
  simp [setGroup, tset_tset]

theorem setCore_setGroup (s : State) (gid k : Nat) (g : Group) (c : Core) :
    setCore (setGroup s gid g) k c = setGroup (setCore s k c) gid g := rfl

end Sys2Proof.Machine
end

