-- ==== Sys2Proof/Laws/Results.lean ====
section
/-! SUPPORT. What writing a result does: the place it names holds it as the newest value, due as R118 says; every other
place keeps what it held. -/

namespace Sys2Proof.Machine

/-! ### One place -/

theorem newestAt_pend (g : Group) (p : Place) (lane : Nat) (e : Pend) (r : List Pend) (h : g.pend = e :: r) :
    newestAt g p lane =
      if e.at p lane then (e.val, e.due, e.owed) else newestAt { g with pend := r } p lane := by
  simp only [newestAt, newestPend, h, List.find?_cons]
  by_cases he : e.at p lane = true <;> simp [he, placeBase]

theorem newestPend_at (g : Group) (p : Place) (lane : Nat) :
    (newestPend g p lane).place = p ∧ (newestPend g p lane).lane = lane := by
  unfold newestPend
  cases h : g.pend.find? (·.at p lane) with
  | none => exact ⟨rfl, rfl⟩
  | some e => simpa [Pend.at] using List.find?_some h

theorem writePlace_newest (g : Group) (c : Cls) (ver : Ver) (uni : Bool) (t : Nat) (p : Place) (lane val : Nat)
    (hc : c ≠ .inter) : newestAt (writePlace g c ver uni t p lane val) p lane = (val, c.due ver t, c.owes) := by
  cases c <;> simp_all [writePlace, newestAt, newestPend, Pend.at]

theorem writePlace_newest_other (g : Group) (c : Cls) (ver : Ver) (uni : Bool) (t : Nat) (p q : Place) (lane k val : Nat)
    (hc : c ≠ .inter) (h : ¬(p = q ∧ lane = k)) :
    newestAt (writePlace g c ver uni t p lane val) q k = newestAt g q k := by
  have : (Pend.at ⟨p, lane, val, none, uni, c.isVar, t, c.lat, c.due ver t, c.owes⟩ q k) = false := by
    simp only [Pend.at, Bool.and_eq_false_iff, beq_eq_false_iff_ne]
    by_cases hp : p = q
    · exact .inr fun hk => h ⟨hp, hk⟩
    · exact .inl hp
  cases c with
  | inter => exact absurd rfl hc
  | _ => simp_all [writePlace, newestAt, newestPend, placeBase]

/-- The two results that a push of the latches puts before the others. -/
theorem pushLatch_pend (g : Group) (c : Cls) (ver : Ver) (t lane val : Nat) :
    ∃ z o : Pend, pushLatch g c ver t lane val = { g with pend := z :: o :: g.pend } ∧
      (z.place = .l 0 ∧ z.lane = lane ∧ z.val = val ∧ z.due = c.due ver t ∧ z.owed = c.owes) ∧
      (o.place = .l 1 ∧ o.lane = lane ∧ (o.val, o.due, o.owed) = newestAt g (.l 0) lane) :=
  ⟨_, _, rfl, ⟨rfl, rfl, rfl, rfl, rfl⟩, rfl, (newestPend_at g (.l 0) lane).2, rfl⟩

theorem pushLatch_newest_zero (g : Group) (c : Cls) (ver : Ver) (t lane val : Nat) :
    newestAt (pushLatch g c ver t lane val) (.l 0) lane = (val, c.due ver t, c.owes) := by
  obtain ⟨z, o, h, ⟨hp, hl, hv, hd, ho⟩, -⟩ := pushLatch_pend g c ver t lane val
  rw [h, newestAt_pend _ _ _ z (o :: g.pend) rfl, if_pos (by simp [Pend.at, hp, hl]), hv, hd, ho]

theorem pushLatch_newest_one (g : Group) (c : Cls) (ver : Ver) (t lane val : Nat) :
    newestAt (pushLatch g c ver t lane val) (.l 1) lane = newestAt g (.l 0) lane := by
  obtain ⟨z, o, h, ⟨hp, -⟩, hq, hl, ho⟩ := pushLatch_pend g c ver t lane val
  rw [h, newestAt_pend _ _ _ z (o :: g.pend) rfl, if_neg (by simp [Pend.at, hp]),
    newestAt_pend _ _ _ o g.pend rfl, if_pos (by simp [Pend.at, hq, hl]), ho]

theorem pushLatch_newest_other (g : Group) (c : Cls) (ver : Ver) (t lane val : Nat) (p : Place) (k : Nat)
    (h0 : ¬(p = .l 0 ∧ k = lane)) (h1 : ¬(p = .l 1 ∧ k = lane)) :
    newestAt (pushLatch g c ver t lane val) p k = newestAt g p k := by
  obtain ⟨z, o, h, ⟨hp, hl, -⟩, hq, hm, -⟩ := pushLatch_pend g c ver t lane val
  have e0 : z.at p k = false := by
    rw [Bool.eq_false_iff]; intro e; simp only [Pend.at, hp, hl, Bool.and_eq_true, beq_iff_eq] at e
    exact h0 ⟨e.1.symm, e.2.symm⟩
  have e1 : o.at p k = false := by
    rw [Bool.eq_false_iff]; intro e; simp only [Pend.at, hq, hm, Bool.and_eq_true, beq_iff_eq] at e
    exact h1 ⟨e.1.symm, e.2.symm⟩
  rw [h, newestAt_pend _ _ _ z (o :: g.pend) rfl, if_neg (by simp [e0]), newestAt_pend _ _ _ o g.pend rfl, if_neg (by simp [e1])]

/-! ### One lane of an instruction -/

theorem writeLane_holds (g : Group) (c : Cls) (ver : Ver) (t : Nat) (d : Dst) (wide : Bool) (lane val : Nat)
    (hc : c ≠ .inter) : LaneHolds g (writeLane g c ver t d wide lane val) c ver t d wide lane val := by
  have latch : ∀ (g' : Group), newestAt g' (.l 0) lane = newestAt g (.l 0) lane →
      newestAt (pushLatch g' c ver t lane (if wide then val % 2 ^ 64 else val % 2 ^ 32)) (.l 1) lane =
        newestAt g (.l 0) lane := fun g' h => by rw [pushLatch_newest_one, h]
  constructor
  · intro p hp
    cases d <;> cases wide <;> simp only [dstPlaces, List.mem_cons, List.not_mem_nil, or_false, if_true, Bool.false_eq_true,
      if_false] at hp <;> rcases hp with rfl | rfl | rfl | rfl <;> simp only [writeLane, Bool.false_eq_true, if_false, if_true] <;>
      rw [pushLatch_newest_other _ _ _ _ _ _ _ _ (by simp) (by simp)] <;>
      simp [writePlace_newest, writePlace_newest_other, hc, halfFor]
  · simp only [writeLane, pushLatch_newest_zero]
  · simp only [writeLane]
    apply latch
    cases d <;> cases wide <;> simp [writePlace_newest_other, hc]

theorem writeLane_newest_other (g : Group) (c : Cls) (ver : Ver) (t : Nat) (d : Dst) (wide : Bool) (lane val : Nat)
    (hc : c ≠ .inter) (p : Place) (k : Nat) (h : k = lane → p ∉ Place.l 0 :: .l 1 :: dstPlaces wide d) :
    newestAt (writeLane g c ver t d wide lane val) p k = newestAt g p k := by
  have h0 : ¬(p = .l 0 ∧ k = lane) := fun e => h e.2 (by simp [e.1])
  have h1 : ¬(p = .l 1 ∧ k = lane) := fun e => h e.2 (by simp [e.1])
  simp only [writeLane]
  rw [pushLatch_newest_other _ _ _ _ _ _ _ _ h0 h1]
  have hd : ∀ q ∈ dstPlaces wide d, ¬(q = p ∧ lane = k) := by
    rintro q hq ⟨rfl, rfl⟩
    exact h rfl (by simp [hq])
  cases d <;> cases wide <;> simp only [dstPlaces, Bool.false_eq_true, if_false, if_true, List.mem_cons, List.not_mem_nil, or_false,
      forall_eq_or_imp, forall_eq] at hd ⊢ <;> first | rfl | simp_all [writePlace_newest_other]

/-! ### All lanes of an instruction -/

theorem writeLanes_newest_other (c : Cls) (ver : Ver) (w : Width) (whole part : List Nat) (now : Nat) (d : Dst) (dw : Bool)
    (val : Nat → Nat) (hc : c ≠ .inter) (p : Place) (k : Nat) (g : Group)
    (h : k ∈ part → p ∉ Place.l 0 :: .l 1 :: dstPlaces dw d) :
    newestAt (part.foldl (fun acc i => writeLane acc c ver (now + beatOffset w whole i) d dw i (val i)) g) p k =
      newestAt g p k := by
  induction part generalizing g with
  | nil => rfl
  | cons i r ih =>
    rw [List.foldl_cons, ih _ fun hk => h (List.mem_cons_of_mem _ hk)]
    exact writeLane_newest_other _ _ _ _ _ _ _ _ hc _ _ fun hk => h (by simp [hk])

theorem writeLanes_holds_aux (c : Cls) (ver : Ver) (w : Width) (whole part : List Nat) (now : Nat) (d : Dst) (dw : Bool)
    (val : Nat → Nat) (hc : c ≠ .inter) (g : Group) (hn : part.Nodup) (lane : Nat) (hl : lane ∈ part) :
    LaneHolds g (part.foldl (fun acc i => writeLane acc c ver (now + beatOffset w whole i) d dw i (val i)) g) c ver
      (now + beatOffset w whole lane) d dw lane (val lane) := by
  induction part generalizing g with
  | nil => cases hl
  | cons i r ih =>
    rw [List.nodup_cons] at hn
    rw [List.foldl_cons]
    by_cases hi : lane = i
    · subst hi
      have keep : ∀ p, newestAt (r.foldl (fun acc i => writeLane acc c ver (now + beatOffset w whole i) d dw i (val i))
          (writeLane g c ver (now + beatOffset w whole lane) d dw lane (val lane))) p lane =
          newestAt (writeLane g c ver (now + beatOffset w whole lane) d dw lane (val lane)) p lane := fun p =>
        writeLanes_newest_other c ver w whole r now d dw val hc p lane _ fun hk => absurd hk hn.1
      have one := writeLane_holds g c ver (now + beatOffset w whole lane) d dw lane (val lane) hc
      exact ⟨fun p hp => by rw [keep, one.dst p hp], by rw [keep, one.l0], by rw [keep, one.l1]⟩
    · have := ih (writeLane g c ver (now + beatOffset w whole i) d dw i (val i)) hn.2 (by simpa [hi] using hl)
      refine ⟨this.dst, this.l0, ?_⟩
      rw [this.l1, writeLane_newest_other _ _ _ _ _ _ _ _ hc _ _ fun hk => absurd hk hi]

/-- Every lane of an instruction's results. -/
theorem writeLanes_holds (c : Cls) (ver : Ver) (w : Width) (part : List Nat) (now : Nat) (d : Dst) (dw : Bool)
    (val : Nat → Nat) (g : Group) (hc : c ≠ .inter) (hn : part.Nodup) (lane : Nat) (hl : lane ∈ part) :
    LaneHolds g (writeLanes c ver w part now d dw val g) c ver (now + beatOffset w part lane) d dw lane (val lane) :=
  writeLanes_holds_aux c ver w part part now d dw val hc g hn lane hl

theorem writeLanes_other (c : Cls) (ver : Ver) (w : Width) (part : List Nat) (now : Nat) (d : Dst) (dw : Bool)
    (val : Nat → Nat) (g : Group) (hc : c ≠ .inter) (p : Place) (k : Nat)
    (h : k ∈ part → p ∉ Place.l 0 :: .l 1 :: dstPlaces dw d) :
    newestAt (writeLanes c ver w part now d dw val g) p k = newestAt g p k :=
  writeLanes_newest_other c ver w part part now d dw val hc p k g h

theorem OnlyPend.refl (g : Group) : OnlyPend g g := rfl

theorem OnlyPend.trans {a b c : Group} (h1 : OnlyPend a b) (h2 : OnlyPend b c) : OnlyPend a c := by
  unfold OnlyPend at *
  rw [h2, h1]
  rfl

theorem writePlace_onlyPend (g : Group) (c : Cls) (ver : Ver) (uni : Bool) (t : Nat) (p : Place) (lane val : Nat)
    (hc : c ≠ .inter) : OnlyPend g (writePlace g c ver uni t p lane val) := by
  cases c <;> first | exact absurd rfl hc | rfl

theorem pushLatch_onlyPend (g : Group) (c : Cls) (ver : Ver) (t lane val : Nat) :
    OnlyPend g (pushLatch g c ver t lane val) := rfl

/-- A result changes nothing of a group but its outstanding results. -/
theorem writeLane_onlyPend (g : Group) (c : Cls) (ver : Ver) (t : Nat) (d : Dst) (wide : Bool) (lane val : Nat)
    (hc : c ≠ .inter) : OnlyPend g (writeLane g c ver t d wide lane val) := by
  simp only [writeLane]
  refine OnlyPend.trans ?_ (pushLatch_onlyPend _ _ _ _ _ _)
  have w := fun g p val => writePlace_onlyPend g c ver false t p lane val hc
  cases d <;> cases wide <;> simp only [Bool.false_eq_true, if_false, if_true] <;>
    first
    | exact OnlyPend.refl _
    | exact w _ _ _
    | exact (w _ _ _).trans (w _ _ _)
    | exact ((w _ _ _).trans (w _ _ _)).trans ((w _ _ _).trans (w _ _ _))

theorem foldl_onlyPend (f : Group → Nat → Group) (hf : ∀ g i, OnlyPend g (f g i)) (l : List Nat) (g : Group) :
    OnlyPend g (l.foldl f g) := by
  induction l generalizing g with
  | nil => exact OnlyPend.refl _
  | cons i r ih => exact (hf g i).trans (ih _)

theorem writeLanes_onlyPend (c : Cls) (ver : Ver) (w : Width) (part : List Nat) (now : Nat) (d : Dst) (dw : Bool)
    (val : Nat → Nat) (g : Group) (hc : c ≠ .inter) : OnlyPend g (writeLanes c ver w part now d dw val g) :=
  foldl_onlyPend _ (fun g i => writeLane_onlyPend g c ver _ d dw i (val i) hc) part g

/-! ### Uniform results and predicates -/

theorem writeUni_newest (g : Group) (c : Cls) (ver : Ver) (t : Nat) (d : Dst) (val : Nat) (hc : c ≠ .inter) :
    newestAt (writeUni g c ver t d val) (.s (dstSreg d)) 0 = (val % 2 ^ 64, c.due ver t, c.owes) :=
  writePlace_newest _ _ _ _ _ _ _ _ hc

theorem writeUni_newest_other (g : Group) (c : Cls) (ver : Ver) (t : Nat) (d : Dst) (val : Nat) (hc : c ≠ .inter)
    (p : Place) (k : Nat) (h : ¬(p = .s (dstSreg d) ∧ k = 0)) :
    newestAt (writeUni g c ver t d val) p k = newestAt g p k :=
  writePlace_newest_other _ _ _ _ _ _ _ _ _ _ hc fun e => h ⟨e.1.symm, e.2.symm⟩

/-! ### Lanes that take part -/

theorem beatsFrom_mem (g : Group) (h : Hdr) (w : Width) (n b now i : Nat) (hi : i ∈ beatsFrom g h w n b now) :
    b ≤ i / w.lanes ∧ i ∈ enabledLanes g := by
  induction n generalizing b now with
  | zero => simp [beatsFrom] at hi
  | succ n ih =>
    simp only [beatsFrom, List.mem_append, List.mem_filter, Bool.and_eq_true, beq_iff_eq] at hi
    rcases hi with hi | hi
    · exact ⟨by omega, hi.1⟩
    · have := ih _ _ hi; exact ⟨by omega, this.2⟩

theorem enabledLanes_nodup (g : Group) : (enabledLanes g).Nodup := List.nodup_range.filter _

theorem beatsFrom_nodup (g : Group) (h : Hdr) (w : Width) (n b now : Nat) : (beatsFrom g h w n b now).Nodup := by
  induction n generalizing b now with
  | zero => simp [beatsFrom]
  | succ n ih =>
    simp only [beatsFrom]
    refine List.Nodup.append ((enabledLanes_nodup g).filter _) (ih _ _) fun i h1 h2 => ?_
    simp only [List.mem_filter, Bool.and_eq_true, beq_iff_eq] at h1
    have := (beatsFrom_mem g h w n _ _ i h2).1
    omega

/-- No lane takes part twice. -/
theorem takingPart_nodup (g : Group) (h : Hdr) (w : Width) (now : Nat) : (takingPart g h w now).Nodup :=
  beatsFrom_nodup g h w 4 0 now

/-- Only enabled lanes take part (R33). -/
theorem takingPart_enabled (g : Group) (h : Hdr) (w : Width) (now i : Nat) (hi : i ∈ takingPart g h w now) :
    i ∈ enabledLanes g := (beatsFrom_mem g h w 4 0 now i hi).2

end Sys2Proof.Machine
end

