-- ==== Sys2Proof/Laws/Issue.lean ====
section
/-! SUPPORT. The frame of an issued instruction: what opening an issue leaves alone, what `issue`, `occupy` and `finish`
do, and what every instruction of one shape does. -/

namespace Sys2Proof.Machine

/-! ### Opening an issue -/

/-- Nothing of a group but its registers and outstanding results differs. -/
def OnlyRegs (g g' : Group) : Prop :=
  g' = { g with v := g'.v, o := g'.o, l := g'.l, s := g'.s, p := g'.p, g := g'.g, c := g'.c, cap := g'.cap, pend := g'.pend }

theorem OnlyRegs.refl (g : Group) : OnlyRegs g g := rfl

theorem OnlyRegs.trans {a b c : Group} (h1 : OnlyRegs a b) (h2 : OnlyRegs b c) : OnlyRegs a c := by
  unfold OnlyRegs at *
  rw [h2, h1]

theorem setBase_onlyRegs (g : Group) (p : Place) (lane val : Nat) : OnlyRegs g (setBase g p lane val) := by
  cases p with
  | p i => unfold setBase; dsimp only; split <;> rfl
  | _ => rfl

theorem retireDue_onlyRegs (g : Group) (now : Nat) : OnlyRegs g (retireDue g now) := by
  unfold retireDue
  generalize g.pend.reverse = l
  have h0 : OnlyRegs g { g with pend := [] } := rfl
  revert h0
  generalize ({ g with pend := [] } : Group) = x
  intro h0
  induction l generalizing x with
  | nil => exact h0
  | cons e r ih =>
    rw [List.foldl_cons]
    apply ih
    refine h0.trans ?_
    cases e.due with
    | none => rfl
    | some d =>
      dsimp only
      split
      · exact (setBase_onlyRegs x e.place e.lane e.val).trans rfl
      · rfl

theorem commitIf_onlyRegs (g : Group) (now : Nat) (which : Pend → Bool) : OnlyRegs g (commitIf g now which) :=
  OnlyRegs.trans (b := { g with pend := _ }) rfl (retireDue_onlyRegs _ _)

theorem commitAll_onlyRegs (g : Group) (now : Nat) : OnlyRegs g (commitAll g now) := commitIf_onlyRegs g now _

theorem openPend_onlyRegs (g : Group) (now : Nat) (sw : Bool) (ver : Ver) : OnlyRegs g (openPend g now sw ver) := by
  have h1 := retireDue_onlyRegs g now
  unfold openPend
  dsimp only
  split
  · exact h1.trans (commitIf_onlyRegs _ _ _)
  · exact h1

/-- What an issue has done before its effect: registers and outstanding results, and what is remembered of the header. -/
theorem openIssue_eq (s : State) (g : Group) (h : Hdr) :
    ∃ g' n o a p b, OnlyRegs g g' ∧
      openIssue s g h = { g' with lastVer := n, prevVer := o, lastMask := a, prevMask := p, stopDue := b } := by
  exact ⟨_, _, _, _, _, _, openPend_onlyRegs g s.cycle h.sw h.ver, rfl⟩

@[simp] theorem openIssue_team (s : State) (g : Group) (h : Hdr) : (openIssue s g h).team = g.team := by
  obtain ⟨g', n, o, a, p, b, h1, h2⟩ := openIssue_eq s g h; rw [h2, h1]
@[simp] theorem openIssue_core (s : State) (g : Group) (h : Hdr) : (openIssue s g h).core = g.core := by
  obtain ⟨g', n, o, a, p, b, h1, h2⟩ := openIssue_eq s g h; rw [h2, h1]
@[simp] theorem openIssue_slice (s : State) (g : Group) (h : Hdr) : (openIssue s g h).slice = g.slice := by
  obtain ⟨g', n, o, a, p, b, h1, h2⟩ := openIssue_eq s g h; rw [h2, h1]
@[simp] theorem openIssue_role (s : State) (g : Group) (h : Hdr) : (openIssue s g h).role = g.role := by
  obtain ⟨g', n, o, a, p, b, h1, h2⟩ := openIssue_eq s g h; rw [h2, h1]
@[simp] theorem openIssue_gnum (s : State) (g : Group) (h : Hdr) : (openIssue s g h).gnum = g.gnum := by
  obtain ⟨g', n, o, a, p, b, h1, h2⟩ := openIssue_eq s g h; rw [h2, h1]
@[simp] theorem openIssue_pc (s : State) (g : Group) (h : Hdr) : (openIssue s g h).pc = g.pc := by
  obtain ⟨g', n, o, a, p, b, h1, h2⟩ := openIssue_eq s g h; rw [h2, h1]
@[simp] theorem openIssue_mask (s : State) (g : Group) (h : Hdr) : (openIssue s g h).mask = g.mask := by
  obtain ⟨g', n, o, a, p, b, h1, h2⟩ := openIssue_eq s g h; rw [h2, h1]
@[simp] theorem openIssue_live (s : State) (g : Group) (h : Hdr) : (openIssue s g h).live = g.live := by
  obtain ⟨g', n, o, a, p, b, h1, h2⟩ := openIssue_eq s g h; rw [h2, h1]
@[simp] theorem openIssue_stack (s : State) (g : Group) (h : Hdr) : (openIssue s g h).stack = g.stack := by
  obtain ⟨g', n, o, a, p, b, h1, h2⟩ := openIssue_eq s g h; rw [h2, h1]
@[simp] theorem openIssue_fmt (s : State) (g : Group) (h : Hdr) : (openIssue s g h).fmt = g.fmt := by
  obtain ⟨g', n, o, a, p, b, h1, h2⟩ := openIssue_eq s g h; rw [h2, h1]
@[simp] theorem openIssue_tiles (s : State) (g : Group) (h : Hdr) : (openIssue s g h).tiles = g.tiles := by
  obtain ⟨g', n, o, a, p, b, h1, h2⟩ := openIssue_eq s g h; rw [h2, h1]
@[simp] theorem openIssue_acc (s : State) (g : Group) (h : Hdr) : (openIssue s g h).acc = g.acc := by
  obtain ⟨g', n, o, a, p, b, h1, h2⟩ := openIssue_eq s g h; rw [h2, h1]
@[simp] theorem openIssue_orig (s : State) (g : Group) (h : Hdr) : (openIssue s g h).orig = g.orig := by
  obtain ⟨g', n, o, a, p, b, h1, h2⟩ := openIssue_eq s g h; rw [h2, h1]
@[simp] theorem openIssue_rng (s : State) (g : Group) (h : Hdr) : (openIssue s g h).rng = g.rng := by
  obtain ⟨g', n, o, a, p, b, h1, h2⟩ := openIssue_eq s g h; rw [h2, h1]
@[simp] theorem openIssue_trapinfo (s : State) (g : Group) (h : Hdr) : (openIssue s g h).trapinfo = g.trapinfo := by
  obtain ⟨g', n, o, a, p, b, h1, h2⟩ := openIssue_eq s g h; rw [h2, h1]
@[simp] theorem openIssue_trappc (s : State) (g : Group) (h : Hdr) : (openIssue s g h).trappc = g.trappc := by
  obtain ⟨g', n, o, a, p, b, h1, h2⟩ := openIssue_eq s g h; rw [h2, h1]
@[simp] theorem openIssue_trapaddr (s : State) (g : Group) (h : Hdr) : (openIssue s g h).trapaddr = g.trapaddr := by
  obtain ⟨g', n, o, a, p, b, h1, h2⟩ := openIssue_eq s g h; rw [h2, h1]
@[simp] theorem openIssue_nextBatch (s : State) (g : Group) (h : Hdr) : (openIssue s g h).nextBatch = g.nextBatch := by
  obtain ⟨g', n, o, a, p, b, h1, h2⟩ := openIssue_eq s g h; rw [h2, h1]
@[simp] theorem openIssue_fixedBack (s : State) (g : Group) (h : Hdr) : (openIssue s g h).fixedBack = g.fixedBack := by
  obtain ⟨g', n, o, a, p, b, h1, h2⟩ := openIssue_eq s g h; rw [h2, h1]
@[simp] theorem openIssue_lateBack (s : State) (g : Group) (h : Hdr) : (openIssue s g h).lateBack = g.lateBack := by
  obtain ⟨g', n, o, a, p, b, h1, h2⟩ := openIssue_eq s g h; rw [h2, h1]
@[simp] theorem openIssue_missBack (s : State) (g : Group) (h : Hdr) : (openIssue s g h).missBack = g.missBack := by
  obtain ⟨g', n, o, a, p, b, h1, h2⟩ := openIssue_eq s g h; rw [h2, h1]
@[simp] theorem openIssue_passFrom (s : State) (g : Group) (h : Hdr) : (openIssue s g h).passFrom = g.passFrom := by
  obtain ⟨g', n, o, a, p, b, h1, h2⟩ := openIssue_eq s g h; rw [h2, h1]
@[simp] theorem openIssue_freeAt (s : State) (g : Group) (h : Hdr) : (openIssue s g h).freeAt = g.freeAt := by
  obtain ⟨g', n, o, a, p, b, h1, h2⟩ := openIssue_eq s g h; rw [h2, h1]
@[simp] theorem openIssue_wait (s : State) (g : Group) (h : Hdr) : (openIssue s g h).wait = g.wait := by
  obtain ⟨g', n, o, a, p, b, h1, h2⟩ := openIssue_eq s g h; rw [h2, h1]
@[simp] theorem openIssue_waitSince (s : State) (g : Group) (h : Hdr) : (openIssue s g h).waitSince = g.waitSince := by
  obtain ⟨g', n, o, a, p, b, h1, h2⟩ := openIssue_eq s g h; rw [h2, h1]
@[simp] theorem openIssue_waitSeq (s : State) (g : Group) (h : Hdr) : (openIssue s g h).waitSeq = g.waitSeq := by
  obtain ⟨g', n, o, a, p, b, h1, h2⟩ := openIssue_eq s g h; rw [h2, h1]
@[simp] theorem openIssue_parkLen (s : State) (g : Group) (h : Hdr) : (openIssue s g h).parkLen = g.parkLen := by
  obtain ⟨g', n, o, a, p, b, h1, h2⟩ := openIssue_eq s g h; rw [h2, h1]
@[simp] theorem openIssue_poked (s : State) (g : Group) (h : Hdr) : (openIssue s g h).poked = g.poked := by
  obtain ⟨g', n, o, a, p, b, h1, h2⟩ := openIssue_eq s g h; rw [h2, h1]
@[simp] theorem openIssue_spawnLeft (s : State) (g : Group) (h : Hdr) : (openIssue s g h).spawnLeft = g.spawnLeft := by
  obtain ⟨g', n, o, a, p, b, h1, h2⟩ := openIssue_eq s g h; rw [h2, h1]
@[simp] theorem openIssue_redo (s : State) (g : Group) (h : Hdr) : (openIssue s g h).redo = g.redo := by
  obtain ⟨g', n, o, a, p, b, h1, h2⟩ := openIssue_eq s g h; rw [h2, h1]
@[simp] theorem openIssue_beatWords (s : State) (g : Group) (h : Hdr) : (openIssue s g h).beatWords = g.beatWords := by
  obtain ⟨g', n, o, a, p, b, h1, h2⟩ := openIssue_eq s g h; rw [h2, h1]
@[simp] theorem openIssue_beatLanes (s : State) (g : Group) (h : Hdr) : (openIssue s g h).beatLanes = g.beatLanes := by
  obtain ⟨g', n, o, a, p, b, h1, h2⟩ := openIssue_eq s g h; rw [h2, h1]
@[simp] theorem openIssue_beatPend (s : State) (g : Group) (h : Hdr) : (openIssue s g h).beatPend = g.beatPend := by
  obtain ⟨g', n, o, a, p, b, h1, h2⟩ := openIssue_eq s g h; rw [h2, h1]
@[simp] theorem openIssue_age (s : State) (g : Group) (h : Hdr) : (openIssue s g h).age = g.age := by
  obtain ⟨g', n, o, a, p, b, h1, h2⟩ := openIssue_eq s g h; rw [h2, h1]
@[simp] theorem openIssue_pendSince (s : State) (g : Group) (h : Hdr) : (openIssue s g h).pendSince = g.pendSince := by
  obtain ⟨g', n, o, a, p, b, h1, h2⟩ := openIssue_eq s g h; rw [h2, h1]
@[simp] theorem openIssue_readySince (s : State) (g : Group) (h : Hdr) : (openIssue s g h).readySince = g.readySince := by
  obtain ⟨g', n, o, a, p, b, h1, h2⟩ := openIssue_eq s g h; rw [h2, h1]
@[simp] theorem openIssue_lastStall (s : State) (g : Group) (h : Hdr) : (openIssue s g h).lastStall = g.lastStall := by
  obtain ⟨g', n, o, a, p, b, h1, h2⟩ := openIssue_eq s g h; rw [h2, h1]
@[simp] theorem openIssue_relOwed (s : State) (g : Group) (h : Hdr) : (openIssue s g h).relOwed = g.relOwed := by
  obtain ⟨g', n, o, a, p, b, h1, h2⟩ := openIssue_eq s g h; rw [h2, h1]
@[simp] theorem openIssue_lastLoad (s : State) (g : Group) (h : Hdr) : (openIssue s g h).lastLoad = g.lastLoad := by
  obtain ⟨g', n, o, a, p, b, h1, h2⟩ := openIssue_eq s g h; rw [h2, h1]

/-! ### The slice -/

/-- A busy slice is a change of its core alone. -/
theorem occupy_eq (s : State) (g : Group) (n : Nat) :
    occupy s g n = s ∨ ∃ c, occupy s g n = setCore s g.core c ∧ c = { getCore s g.core with busy := c.busy } := by
  unfold occupy
  cases g.slice with
  | none => exact .inl rfl
  | some i => exact .inr ⟨_, rfl, rfl⟩

@[simp] theorem occupy_cycle (s : State) (g : Group) (n : Nat) : (occupy s g n).cycle = s.cycle := by
  unfold occupy; cases g.slice <;> rfl
@[simp] theorem occupy_mem (s : State) (g : Group) (n : Nat) : (occupy s g n).mem = s.mem := by
  unfold occupy; cases g.slice <;> rfl
@[simp] theorem occupy_groups (s : State) (g : Group) (n : Nat) : (occupy s g n).groups = s.groups := by
  unfold occupy; cases g.slice <;> rfl
@[simp] theorem occupy_teams (s : State) (g : Group) (n : Nat) : (occupy s g n).teams = s.teams := by
  unfold occupy; cases g.slice <;> rfl
@[simp] theorem occupy_grids (s : State) (g : Group) (n : Nat) : (occupy s g n).grids = s.grids := by
  unfold occupy; cases g.slice <;> rfl
@[simp] theorem occupy_queues (s : State) (g : Group) (n : Nat) : (occupy s g n).queues = s.queues := by
  unfold occupy; cases g.slice <;> rfl
@[simp] theorem occupy_tails (s : State) (g : Group) (n : Nat) : (occupy s g n).tails = s.tails := by
  unfold occupy; cases g.slice <;> rfl
@[simp] theorem occupy_rings (s : State) (g : Group) (n : Nat) : (occupy s g n).rings = s.rings := by
  unfold occupy; cases g.slice <;> rfl
@[simp] theorem occupy_boughBars (s : State) (g : Group) (n : Nat) : (occupy s g n).boughBars = s.boughBars := by
  unfold occupy; cases g.slice <;> rfl
@[simp] theorem occupy_parts (s : State) (g : Group) (n : Nat) : (occupy s g n).parts = s.parts := by
  unfold occupy; cases g.slice <;> rfl
@[simp] theorem occupy_vfs (s : State) (g : Group) (n : Nat) : (occupy s g n).vfs = s.vfs := by
  unfold occupy; cases g.slice <;> rfl
@[simp] theorem occupy_timed (s : State) (g : Group) (n : Nat) : (occupy s g n).timed = s.timed := by
  unfold occupy; cases g.slice <;> rfl
@[simp] theorem occupy_faults (s : State) (g : Group) (n : Nat) : (occupy s g n).faults = s.faults := by
  unfold occupy; cases g.slice <;> rfl
@[simp] theorem occupy_nextId (s : State) (g : Group) (n : Nat) : (occupy s g n).nextId = s.nextId := by
  unfold occupy; cases g.slice <;> rfl
@[simp] theorem occupy_turns (s : State) (g : Group) (n : Nat) : (occupy s g n).turns = s.turns := by
  unfold occupy; cases g.slice <;> rfl
@[simp] theorem occupy_offCores (s : State) (g : Group) (n : Nat) : (occupy s g n).offCores = s.offCores := by
  unfold occupy; cases g.slice <;> rfl
@[simp] theorem occupy_offGranules (s : State) (g : Group) (n : Nat) : (occupy s g n).offGranules = s.offGranules := by
  unfold occupy; cases g.slice <;> rfl
@[simp] theorem occupy_offPorts (s : State) (g : Group) (n : Nat) : (occupy s g n).offPorts = s.offPorts := by
  unfold occupy; cases g.slice <;> rfl
@[simp] theorem occupy_rdcShare (s : State) (g : Group) (n : Nat) : (occupy s g n).rdcShare = s.rdcShare := by
  unfold occupy; cases g.slice <;> rfl
@[simp] theorem occupy_agentTimeout (s : State) (g : Group) (n : Nat) : (occupy s g n).agentTimeout = s.agentTimeout := by
  unfold occupy; cases g.slice <;> rfl
@[simp] theorem occupy_agents (s : State) (g : Group) (n : Nat) : (occupy s g n).agents = s.agents := by
  unfold occupy; cases g.slice <;> rfl
@[simp] theorem occupy_deadAgents (s : State) (g : Group) (n : Nat) : (occupy s g n).deadAgents = s.deadAgents := by
  unfold occupy; cases g.slice <;> rfl
@[simp] theorem occupy_corrected (s : State) (g : Group) (n : Nat) : (occupy s g n).corrected = s.corrected := by
  unfold occupy; cases g.slice <;> rfl
@[simp] theorem occupy_uncorrected (s : State) (g : Group) (n : Nat) : (occupy s g n).uncorrected = s.uncorrected := by
  unfold occupy; cases g.slice <;> rfl
@[simp] theorem occupy_dropped (s : State) (g : Group) (n : Nat) : (occupy s g n).dropped = s.dropped := by
  unfold occupy; cases g.slice <;> rfl
@[simp] theorem occupy_droppedCount (s : State) (g : Group) (n : Nat) : (occupy s g n).droppedCount = s.droppedCount := by
  unfold occupy; cases g.slice <;> rfl
@[simp] theorem occupy_frameDrops (s : State) (g : Group) (n : Nat) : (occupy s g n).frameDrops = s.frameDrops := by
  unfold occupy; cases g.slice <;> rfl
@[simp] theorem occupy_lineages (s : State) (g : Group) (n : Nat) : (occupy s g n).lineages = s.lineages := by
  unfold occupy; cases g.slice <;> rfl
@[simp] theorem occupy_seed (s : State) (g : Group) (n : Nat) : (occupy s g n).seed = s.seed := by
  unfold occupy; cases g.slice <;> rfl
@[simp] theorem occupy_dumpMem (s : State) (g : Group) (n : Nat) : (occupy s g n).dumpMem = s.dumpMem := by
  unfold occupy; cases g.slice <;> rfl
@[simp] theorem occupy_lastFaults (s : State) (g : Group) (n : Nat) : (occupy s g n).lastFaults = s.lastFaults := by
  unfold occupy; cases g.slice <;> rfl
@[simp] theorem occupy_powerCap (s : State) (g : Group) (n : Nat) : (occupy s g n).powerCap = s.powerCap := by
  unfold occupy; cases g.slice <;> rfl
@[simp] theorem occupy_hot (s : State) (g : Group) (n : Nat) : (occupy s g n).hot = s.hot := by
  unfold occupy; cases g.slice <;> rfl
@[simp] theorem occupy_device (s : State) (g : Group) (n : Nat) : (occupy s g n).device = s.device := by
  unfold occupy; cases g.slice <;> rfl
@[simp] theorem occupy_pwrok (s : State) (g : Group) (n : Nat) : (occupy s g n).pwrok = s.pwrok := by
  unfold occupy; cases g.slice <;> rfl
@[simp] theorem occupy_resetN (s : State) (g : Group) (n : Nat) : (occupy s g n).resetN = s.resetN := by
  unfold occupy; cases g.slice <;> rfl
@[simp] theorem occupy_alertN (s : State) (g : Group) (n : Nat) : (occupy s g n).alertN = s.alertN := by
  unfold occupy; cases g.slice <;> rfl
@[simp] theorem occupy_thermtripN (s : State) (g : Group) (n : Nat) : (occupy s g n).thermtripN = s.thermtripN := by
  unfold occupy; cases g.slice <;> rfl
@[simp] theorem occupy_arrivals (s : State) (g : Group) (n : Nat) : (occupy s g n).arrivals = s.arrivals := by
  unfold occupy; cases g.slice <;> rfl
@[simp] theorem occupy_replies (s : State) (g : Group) (n : Nat) : (occupy s g n).replies = s.replies := by
  unfold occupy; cases g.slice <;> rfl
@[simp] theorem occupy_agenda (s : State) (g : Group) (n : Nat) : (occupy s g n).agenda = s.agenda := by
  unfold occupy; cases g.slice <;> rfl
@[simp] theorem occupy_cur (s : State) (g : Group) (n : Nat) : (occupy s g n).cur = s.cur := by
  unfold occupy; cases g.slice <;> rfl
@[simp] theorem occupy_fresh (s : State) (g : Group) (n : Nat) : (occupy s g n).fresh = s.fresh := by
  unfold occupy; cases g.slice <;> rfl

theorem occupy_setGroup (s : State) (gid : Nat) (x g : Group) (n : Nat) :
    occupy (setGroup s gid x) g n = setGroup (occupy s g n) gid x := by
  unfold occupy
  cases g.slice <;> rfl

@[simp] theorem getGroup_occupy (s : State) (g : Group) (n gid : Nat) : getGroup (occupy s g n) gid = getGroup s gid := by
  simp [getGroup]

@[simp] theorem getTeam_occupy (s : State) (g : Group) (n tid : Nat) : getTeam (occupy s g n) tid = getTeam s tid := by
  simp [getTeam]

theorem roleOf_congr {s s' : State} {g g' : Group} (ht : s'.teams = s.teams) (hg : s'.grids = s.grids) (h1 : g'.team = g.team)
    (h2 : g'.role = g.role) : roleOf s' g' = roleOf s g := by
  simp only [roleOf, getTeam, ht, hg, h1, h2]

@[simp] theorem roleOf_setGroup (s : State) (gid : Nat) (x g : Group) : roleOf (setGroup s gid x) g = roleOf s g := rfl

@[simp] theorem roleOf_openIssue (s : State) (g : Group) (h : Hdr) : roleOf s (openIssue s g h) = roleOf s g :=
  roleOf_congr rfl rfl (by simp) (by simp)

theorem finish_eq (s : State) (gid : Nat) (x g : Group) (beats len : Nat) :
    finish (setGroup s gid x) gid g beats len = setGroup (occupy s g beats) gid (advance g len) := by
  simp [finish, occupy_setGroup]

theorem occupy_congr (s : State) {g g' : Group} (n : Nat) (h1 : g'.slice = g.slice) (h2 : g'.core = g.core) :
    occupy s g' n = occupy s g n := by
  simp only [occupy, h1, h2]

/-! ### Issuing -/

/-- An instruction that may issue runs its body on the opened group (R123). -/
theorem issue_runs {s : State} {gid : Nat} {g : Group} {h : Hdr} (ext : Bool) (body : State → Nat → Group → State)
    (hi : Issuing s gid g h) :
    issue s h ext body = .next (body (setGroup s gid (openIssue s g h)) gid (openIssue s g h)) := by
  unfold issue
  rw [hi.cur]
  dsimp only
  rw [hi.group]
  dsimp only
  cases hsp : h.sp with
  | none => simp
  | some m => simp [hi.mask m hsp]

/-- An instruction whose mask word names what its role does not hold raises ILLEGAL_ENCODING (R123). -/
theorem issue_illegal {s : State} {gid : Nat} {g : Group} {h : Hdr} (ext : Bool) (body : State → Nat → Group → State) (m : DWord)
    (hc : s.cur = some gid) (hg : getGroup s gid = some g) (hm : h.sp = some m) (hbad : maskInRole (roleOf s g) m = false) :
    issue s h ext body =
      .next (raiseIllegal (setGroup s gid (openIssue s g h)) gid (openIssue s g h) (instrLen h ext)) := by
  unfold issue
  rw [hc]
  dsimp only
  rw [hg]
  simp [hm, hbad]

/-- All that issuing an instruction can do. -/
theorem issue_cases (s : State) (h : Hdr) (ext : Bool) (body : State → Nat → Group → State) :
    issue s h ext body = .fault .noGroup ∨
    ∃ gid g, s.cur = some gid ∧ getGroup s gid = some g ∧
      (issue s h ext body = .next (body (setGroup s gid (openIssue s g h)) gid (openIssue s g h)) ∨
       issue s h ext body =
        .next (raiseIllegal (setGroup s gid (openIssue s g h)) gid (openIssue s g h) (instrLen h ext))) := by
  unfold issue
  cases hc : s.cur with
  | none => exact .inl rfl
  | some gid =>
    dsimp only
    cases hg : getGroup s gid with
    | none => exact .inl rfl
    | some g =>
      refine .inr ⟨gid, g, rfl, hg, ?_⟩
      dsimp only
      cases h.sp with
      | none => exact .inl (by simp)
      | some m =>
        by_cases hm : maskInRole (roleOf s (openIssue s g h)) m = true
        · exact .inl (if_pos hm)
        · exact .inr (if_neg hm)

/-! ### Instructions of one shape -/

theorem OnlyPend.slice {g g' : Group} (h : OnlyPend g g') : g'.slice = g.slice := by rw [h]; rfl

theorem OnlyPend.core {g g' : Group} (h : OnlyPend g g') : g'.core = g.core := by rw [h]; rfl

/-- Every instruction that is a `dataOp` does what R33, R34, R118 and R174 say. -/
theorem dataOp_runs (i : Instr) (h : Hdr) (ext : Bool) (w : Width) (latency : Nat) (srcs : List (Src × Bool)) (d : Dst) (dw : Bool)
    (val : State → Group → List Nat → Nat → Nat → Nat)
    (hi : ∀ s, exec i s = dataOp s h ext w latency srcs d dw (val s)) : DataRuns i h ext w latency srcs d dw val := by
  intro s gid g0 his hop
  have hi := hi s
  revert hi
  generalize val s = val
  intro hi g part
  have e := issue_runs ext (fun s gid g =>
    if !operandsOk (roleOf s g) h srcs d dw then raiseIllegal s gid g (instrLen h ext)
    else if h.uni then
      let g' := if uniGuard g h s.cycle then writeUni g (.fixed latency) h.ver s.cycle d (val g [] 0 s.cycle) else g
      finish s gid g' 1 (instrLen h ext)
    else
      let part := takingPart g h w s.cycle
      let g' := writeLanes (.fixed latency) h.ver w part s.cycle d dw
        (fun i => val g part i (s.cycle + beatOffset w part i)) g
      finish s gid g' (beatCount w part) (instrLen h ext)) his
  have e' : exec i s = _ := hi.trans e
  rw [e']
  simp only [roleOf_setGroup, roleOf_openIssue, hop, setGroup_cycle, Bool.not_true, Bool.false_eq_true, if_false]
  constructor
  · intro hu
    simp only [hu, Bool.false_eq_true, if_false]
    have fr := writeLanes_onlyPend (.fixed latency) h.ver w part s.cycle d dw
      (fun i => val g part i (s.cycle + beatOffset w part i)) g (by simp)
    refine ⟨_, ?_, fr, fun lane hl => ?_, fun p lane hp => ?_⟩
    · rw [finish_eq, occupy_congr s _ fr.slice fr.core]
    · exact writeLanes_holds _ _ _ _ _ _ _ _ _ (by simp) (takingPart_nodup _ _ _ _) lane hl
    · exact writeLanes_other _ _ _ _ _ _ _ _ _ (by simp) p lane hp
  · intro hu
    simp only [hu, if_true]
    by_cases hg : uniGuard g h s.cycle = true
    · have fr : OnlyPend g (writeUni g (.fixed latency) h.ver s.cycle d (val g [] 0 s.cycle)) :=
        writePlace_onlyPend _ _ _ _ _ _ _ _ (by simp)
      refine ⟨writeUni g (.fixed latency) h.ver s.cycle d (val g [] 0 s.cycle), ?_, fr, fun _ => ?_, fun hf => ?_, ?_⟩
      · simp only [g] at hg
        simp only [hg, if_true, finish_eq]
        rw [occupy_congr s _ fr.slice fr.core]
      · exact writeUni_newest _ _ _ _ _ _ (by simp)
      · simp [hg] at hf
      · intro p k hp
        refine writeUni_newest_other _ _ _ _ _ _ (by simp) _ _ ?_
        rintro ⟨rfl, rfl⟩
        exact hp (by simp) (by simp)
    · refine ⟨g, ?_, OnlyPend.refl _, fun ht => absurd ht hg, fun _ => rfl, fun p k _ => rfl⟩
      simp only [g] at hg
      simp only [hg, Bool.false_eq_true, if_false, finish_eq]
      rfl

/-! ### Predicates -/

theorem writeSel_onlyPend (g : Group) (h : Hdr) (c : Cls) (t : Nat) (d : PSel) (lane : Nat) (b : Bool) (hc : c ≠ .inter) :
    OnlyPend g (writeSel g h c t d lane b) := by
  unfold writeSel
  dsimp only
  split
  · exact writePlace_onlyPend _ _ _ _ _ _ _ _ hc
  · split
    · exact OnlyPend.refl _
    · exact writePlace_onlyPend _ _ _ _ _ _ _ _ hc

theorem writeSel_newest (g : Group) (h : Hdr) (c : Cls) (t : Nat) (d : PSel) (lane : Nat) (b : Bool) (hc : c ≠ .inter)
    (p : Place × Nat) (hp : selPlace d lane = some p) :
    newestAt (writeSel g h c t d lane b) p.1 p.2 = ((if b then 1 else 0), c.due h.ver t, c.owes) := by
  unfold selPlace at hp
  unfold writeSel
  dsimp only
  split at hp
  · next hk => cases hp; rw [if_pos hk]; exact writePlace_newest _ _ _ _ _ _ _ _ hc
  · next hk =>
    split at hp
    · cases hp
    · next hi => cases hp; rw [if_neg hk, if_neg hi]; exact writePlace_newest _ _ _ _ _ _ _ _ hc

theorem writeSel_newest_other (g : Group) (h : Hdr) (c : Cls) (t : Nat) (d : PSel) (lane : Nat) (b : Bool) (hc : c ≠ .inter)
    (p : Place) (k : Nat) (hp : selPlace d lane ≠ some (p, k)) :
    newestAt (writeSel g h c t d lane b) p k = newestAt g p k := by
  unfold selPlace at hp
  unfold writeSel
  dsimp only
  split
  · next hk =>
    rw [if_pos hk] at hp
    exact writePlace_newest_other _ _ _ _ _ _ _ _ _ _ hc fun e => hp (by rw [e.1, e.2])
  · next hk =>
    rw [if_neg hk] at hp
    split
    · rfl
    · next hi =>
      rw [if_neg hi] at hp
      exact writePlace_newest_other _ _ _ _ _ _ _ _ _ _ hc fun e => hp (by rw [e.1, e.2])

theorem sels_other (h : Hdr) (c : Cls) (t : Nat → Nat) (d : PSel) (val : Nat → Bool) (hc : c ≠ .inter) (p : Place) (k : Nat)
    (part : List Nat) (g : Group) (hp : ∀ lane ∈ part, selPlace d lane ≠ some (p, k)) :
    newestAt (part.foldl (fun acc i => writeSel acc h c (t i) d i (val i)) g) p k = newestAt g p k := by
  induction part generalizing g with
  | nil => rfl
  | cons i r ih =>
    rw [List.foldl_cons, ih _ fun l hl => hp l (List.mem_cons_of_mem _ hl)]
    exact writeSel_newest_other _ _ _ _ _ _ _ hc _ _ (hp i (by simp))

theorem sels_newest (h : Hdr) (c : Cls) (t : Nat → Nat) (d : PSel) (val : Nat → Bool) (hc : c ≠ .inter) (hk : d.k = false)
    (part : List Nat) (hn : part.Nodup) (g : Group) (lane : Nat) (hl : lane ∈ part) (p : Place × Nat)
    (hp : selPlace d lane = some p) :
    newestAt (part.foldl (fun acc i => writeSel acc h c (t i) d i (val i)) g) p.1 p.2 =
      ((if val lane then 1 else 0), c.due h.ver (t lane), c.owes) := by
  induction part generalizing g with
  | nil => cases hl
  | cons i r ih =>
    rw [List.nodup_cons] at hn
    rw [List.foldl_cons]
    by_cases hi : lane = i
    · subst hi
      rw [sels_other h c t d val hc p.1 p.2 r _ ?_]
      · exact writeSel_newest _ _ _ _ _ _ _ hc p hp
      · intro j hj he
        simp only [selPlace, hk, Bool.false_eq_true, if_false] at hp he
        split at hp
        · cases hp
        · next h7 =>
          simp only [h7, if_false, Option.some.injEq, Prod.mk.injEq] at he
          simp only [Option.some.injEq] at hp
          subst hp
          have e2 : j = lane := he.2
          exact hn.1 (e2 ▸ hj)
    · exact ih hn.2 _ (by simpa [hi] using hl)

/-- Every instruction that is a `predOp` does what R33, R34, R118 and R145 say. -/
theorem predOp_runs (i : Instr) (h : Hdr) (w : Width) (latency : Nat) (srcs : List (Src × Bool)) (d : PSel)
    (val : State → Group → List Nat → Nat → Nat → Bool)
    (hi : ∀ s, exec i s = predOp s h w latency srcs d (val s)) : PredRuns i h w latency srcs d val := by
  intro s gid g0 his hop
  have hi := hi s
  revert hi
  generalize val s = val
  intro hi g part
  have e := issue_runs false (fun s gid g =>
    if !(srcs.all fun x => srcInRole (roleOf s g) x.2 x.1) then raiseIllegal s gid g (instrLen h false)
    else if h.uni then
      let g' := if uniGuard g h s.cycle then writeSel g h (.fixed latency) s.cycle d 0 (val g [] 0 s.cycle) else g
      finish s gid g' 1 (instrLen h false)
    else
      let part := takingPart g h w s.cycle
      let g' := part.foldl (fun acc i =>
        writeSel acc h (.fixed latency) (s.cycle + beatOffset w part i) d i
          (val g part i (s.cycle + beatOffset w part i))) g
      finish s gid g' (beatCount w part) (instrLen h false)) his
  have e' : exec i s = _ := hi.trans e
  rw [e']
  simp only [roleOf_setGroup, roleOf_openIssue, hop, setGroup_cycle, Bool.not_true, Bool.false_eq_true, if_false]
  constructor
  · intro hu
    simp only [hu, Bool.false_eq_true, if_false]
    have fr : OnlyPend g (part.foldl (fun acc i => writeSel acc h (.fixed latency) (s.cycle + beatOffset w part i) d i
        (val g part i (s.cycle + beatOffset w part i))) g) :=
      foldl_onlyPend _ (fun g i => writeSel_onlyPend _ _ _ _ _ _ _ (by simp)) part g
    refine ⟨_, ?_, fr, fun hk lane hl p hp => ?_, fun p k hp => ?_⟩
    · rw [finish_eq, occupy_congr s _ fr.slice fr.core]
    · exact sels_newest h (.fixed latency) (fun i => s.cycle + beatOffset w part i) d
        (fun i => val g part i (s.cycle + beatOffset w part i)) (by simp) hk part (takingPart_nodup _ _ _ _) g lane hl p hp
    · exact sels_other h (.fixed latency) (fun i => s.cycle + beatOffset w part i) d
        (fun i => val g part i (s.cycle + beatOffset w part i)) (by simp) p k part g hp
  · intro hu
    simp only [hu, if_true]
    by_cases hg : uniGuard g h s.cycle = true
    · have fr : OnlyPend g (writeSel g h (.fixed latency) s.cycle d 0 (val g [] 0 s.cycle)) :=
        writeSel_onlyPend _ _ _ _ _ _ _ (by simp)
      refine ⟨writeSel g h (.fixed latency) s.cycle d 0 (val g [] 0 s.cycle), ?_, fr, fun _ p hp => ?_, fun hf => ?_, ?_⟩
      · simp only [g] at hg
        simp only [hg, if_true, finish_eq]
        rw [occupy_congr s _ fr.slice fr.core]
      · exact writeSel_newest _ _ _ _ _ _ _ (by simp) p hp
      · simp [hg] at hf
      · intro p k hp
        exact writeSel_newest_other _ _ _ _ _ _ _ (by simp) _ _ hp
    · refine ⟨g, ?_, OnlyPend.refl _, fun ht => absurd ht hg, fun _ => rfl, fun p k _ => rfl⟩
      simp only [g] at hg
      simp only [hg, Bool.false_eq_true, if_false, finish_eq]
      rfl

end Sys2Proof.Machine
end

