-- ==== Sys2Proof/Laws/Memory.lean ====
section
/-! SUPPORT. The canonical form of DRAM: every operation over memory and every shared operation keeps it. Each lemma says it of one
function, in the order of the files that declare them. -/

namespace Sys2Proof.Machine

/-- What an outcome leaves keeps the canonical form. -/
def OutWf (o : Out) : Prop := ∀ t, o = .next t → cwf t.mem.dram = true

theorem out_next {t : State} (h : cwf t.mem.dram = true) : OutWf (.next t) := by
  intro u hu; cases hu; exact h

theorem out_fault (f : Fault) : OutWf (.fault f) := by intro u hu; cases hu

theorem out_refused (f : Refusal) : OutWf (.refused f) := by intro u hu; cases hu

theorem wf_foldl {β : Type} {f : State → β → State} {l : List β} {s : State} (h : cwf s.mem.dram = true)
    (hf : ∀ z b, cwf z.mem.dram = true → cwf (f z b).mem.dram = true) : cwf (l.foldl f s).mem.dram = true := by
  induction l generalizing s with
  | nil => exact h
  | cons b r ih => exact ih (hf s b h)

theorem wf_foldl1 {α β : Type} {f : State × α → β → State × α} {l : List β} {p : State × α} (h : cwf p.1.mem.dram = true)
    (hf : ∀ z b, cwf z.1.mem.dram = true → cwf (f z b).1.mem.dram = true) : cwf (l.foldl f p).1.mem.dram = true := by
  induction l generalizing p with
  | nil => exact h
  | cons b r ih => exact ih (hf p b h)

/-- An operation that may err keeps a property of the state it runs over, whether it ends or errs. -/
def Keeps {ε σ α : Type} (P : σ → Prop) (m : ExceptT ε (StateM σ) α) : Prop := ∀ k, P k → P (m.run k).2

theorem keeps_pure {ε σ α : Type} {P : σ → Prop} (a : α) : Keeps P (pure a : ExceptT ε (StateM σ) α) := fun _ h => h

theorem keeps_throw {ε σ α : Type} {P : σ → Prop} (e : ε) : Keeps P (throw e : ExceptT ε (StateM σ) α) := fun _ h => h

theorem keeps_bind {ε σ α β : Type} {P : σ → Prop} {m : ExceptT ε (StateM σ) α} {f : α → ExceptT ε (StateM σ) β}
    (hm : Keeps P m) (hf : ∀ a, Keeps P (f a)) : Keeps P (m >>= f) := by
  intro k h
  have h1 := hm k h
  change P (m k).2 at h1
  show P (ExceptT.bind m f k).2
  simp only [ExceptT.bind, ExceptT.mk, bind, StateT.bind]
  rcases hk : m k with ⟨r, k'⟩
  rw [hk] at h1
  cases r with
  | ok a => exact hf a k' h1
  | error e => exact h1

theorem keeps_get {ε σ α : Type} {P : σ → Prop} {f : σ → ExceptT ε (StateM σ) α} (hf : ∀ k, P k → Keeps P (f k)) :
    Keeps P (get >>= f) := fun k h => hf k h k h

theorem keeps_set {ε σ : Type} {P : σ → Prop} {k : σ} (h : P k) : Keeps P (set k : ExceptT ε (StateM σ) PUnit) := fun _ _ => h

theorem keeps_ite {ε σ α : Type} {P : σ → Prop} {c : Prop} [Decidable c] {a b : ExceptT ε (StateM σ) α}
    (ha : Keeps P a) (hb : Keeps P b) : Keeps P (if c then a else b) := by split <;> assumption

theorem keeps_mapM {ε σ α β : Type} {P : σ → Prop} {f : α → ExceptT ε (StateM σ) β} (hf : ∀ a, Keeps P (f a)) (l : List α) :
    Keeps P (l.mapM f) := by
  induction l with
  | nil => exact keeps_pure _
  | cons a r ih =>
    rw [List.mapM_cons]
    exact keeps_bind (hf a) fun _ => keeps_bind ih fun _ => keeps_pure _

theorem keeps_forIn {ε σ α β : Type} {P : σ → Prop} {f : α → β → ExceptT ε (StateM σ) (ForInStep β)}
    (hf : ∀ a b, Keeps P (f a b)) (l : List α) (b : β) : Keeps P (forIn l b f) := by
  induction l generalizing b with
  | nil => exact keeps_pure _
  | cons a r ih =>
    rw [List.forIn_cons]
    refine keeps_bind (hf a b) fun x => ?_
    cases x with
    | done b => exact keeps_pure _
    | yield b => exact ih b

/-- A walker's operation keeps the canonical form. -/
abbrev WmWf {α : Type} (m : Wm α) : Prop := Keeps (fun k : Walker => cwf k.s.mem.dram = true) m

/-- A payload's step keeps the canonical form. -/
abbrev EmWf {α : Type} (m : Em α) : Prop := Keeps (fun k : Eng => cwf k.s.mem.dram = true) m

theorem wf_ite {c : Prop} [Decidable c] {a b : State} (ha : cwf a.mem.dram = true) (hb : cwf b.mem.dram = true) :
    cwf (if c then a else b).mem.dram = true := by split <;> assumption

theorem wf_ite1 {α : Type} {c : Prop} [Decidable c] {a b : State × α} (ha : cwf a.1.mem.dram = true)
    (hb : cwf b.1.mem.dram = true) : cwf (if c then a else b).1.mem.dram = true := by split <;> assumption

theorem out_ite {c : Prop} [Decidable c] {a b : Out} (ha : OutWf a) (hb : OutWf b) : OutWf (if c then a else b) := by
  split <;> assumption

theorem wf_id {s : State} (h : cwf s.mem.dram = true) : cwf (id s).mem.dram = true := h

theorem wf_of {α : Type} {p : State × α} {s : State} {a : α} (he : p = (s, a)) (h : cwf p.1.mem.dram = true) :
    cwf s.mem.dram = true := by subst he; exact h

theorem eng_of {α : Type} {p : Eng × α} {k : Eng} {a : α} (he : p = (k, a)) (h : cwf p.1.s.mem.dram = true) :
    cwf k.s.mem.dram = true := by subst he; exact h

theorem eng_ite1 {α : Type} {c : Prop} [Decidable c] {a b : Eng × α} (ha : cwf a.1.s.mem.dram = true)
    (hb : cwf b.1.s.mem.dram = true) : cwf (if c then a else b).1.s.mem.dram = true := by split <;> assumption

theorem em_of {α : Type} {m : Em α} {k k' : Eng} {r : Except EErr α} (he : (m.run k : Except EErr α × Eng) = (r, k'))
    (hm : EmWf m) (h : cwf k.s.mem.dram = true) : cwf k'.s.mem.dram = true := by
  have := hm k h
  rw [show m.run k = (r, k') from he] at this
  exact this

/-- Reset memory has the canonical form. -/
theorem memory_wf_reset : Memory.wf State.reset.mem = true := rfl

/-- A masked write of a sector keeps the canonical form. -/
theorem cwf_dramWrite (m : List Host.Cell) (σ : Nat) (bm : BitVec 64) (d : BitVec 512) (h : cwf m = true) :
    cwf (dramWrite m σ bm d) = true := by
  unfold dramWrite
  generalize List.range 64 = l
  induction l generalizing m with
  | nil => exact h
  | cons i r ih =>
    rw [List.foldl_cons]
    refine ih _ ?_
    split
    · exact cwf_cset _ _ _ h
    · exact h

/-- DRAM read with another key material keeps the canonical form. -/
theorem cwf_rekeyData (old new : List Byte) (f : Nat) (m : List Host.Cell) (h : cwf m = true) :
    cwf (rekeyData old new f m) = true := by
  unfold rekeyData
  generalize List.range 1024 = l
  induction l generalizing m with
  | nil => exact h
  | cons i r ih => exact ih _ (cwf_dramWrite _ _ _ _ h)

/-! ### Mem -/

theorem wf_setCore (a0 : State) (a1 : ℕ) (a2 : Core) (h0 : cwf a0.mem.dram = true) :
    cwf (setCore a0 a1 a2).mem.dram = true := by
    unfold setCore
    repeat' with_reducible first | assumption

theorem wf_setGroup (a0 : State) (a1 : ℕ) (a2 : Group) (h0 : cwf a0.mem.dram = true) :
    cwf (setGroup a0 a1 a2).mem.dram = true := by
    unfold setGroup
    repeat' with_reducible first | assumption

theorem wf_setTeam (a0 : State) (a1 : ℕ) (a2 : Team) (h0 : cwf a0.mem.dram = true) :
    cwf (setTeam a0 a1 a2).mem.dram = true := by
    unfold setTeam
    repeat' with_reducible first | assumption

theorem wf_setMem (a0 : State) (a1 : Mem) (h0 : cwf a0.mem.dram = true) (h1 : cwf a1.dram = true) :
    cwf (setMem a0 a1).mem.dram = true := by
    unfold setMem
    repeat' with_reducible first | assumption

theorem wf_takeId (a0 : State) (h0 : cwf a0.mem.dram = true) :
    cwf (takeId a0).1.mem.dram = true := by
    unfold takeId
    repeat' with_reducible first | assumption

theorem wf_drawKeep (a0 : State) (h0 : cwf a0.mem.dram = true) :
    cwf (drawKeep a0).1.mem.dram = true := by
    unfold drawKeep
    repeat' with_reducible first | assumption

theorem wf_rekeyFrame (a0 : State) (a1 : ℕ) (a2 : List Byte) (h0 : cwf a0.mem.dram = true) :
    cwf (rekeyFrame a0 a1 a2).mem.dram = true := by
    unfold rekeyFrame
    dsimp only
    refine wf_ite h0 ?_
    dsimp only
    split
    · exact cwf_rekeyData _ _ _ _ h0
    · exact h0

theorem wf_rekeyOwn (a0 : State) (a1 : ℕ) (a2 : ℕ) (a3 : ℕ) (h0 : cwf a0.mem.dram = true) :
    cwf (rekeyOwn a0 a1 a2 a3).mem.dram = true := by
    unfold rekeyOwn
    repeat' with_reducible first
      | assumption | intro _ | dsimp only | apply wf_rekeyFrame | apply wf_ite | apply wf_ite1 | split
      | apply wf_foldl | apply wf_foldl1 | refine wf_of (by assumption) ?_ | apply wf_id

theorem wf_underKey (a0 : State) (a1 : ℕ) (a2 : List Byte) (a3 : State → State) (h0 : cwf a0.mem.dram = true)
    (h3 : ∀ z, cwf z.mem.dram = true → cwf (a3 z).mem.dram = true) :
    cwf (underKey a0 a1 a2 a3).mem.dram = true := by
    unfold underKey
    repeat' with_reducible first
      | assumption | intro _ | dsimp only | apply h3 | apply wf_rekeyFrame | apply wf_ite | apply wf_ite1 | split
      | apply wf_foldl | apply wf_foldl1 | refine wf_of (by assumption) ?_ | apply wf_id

theorem wf_noteOld (a0 : State) (a1 : ℕ) (h0 : cwf a0.mem.dram = true) :
    cwf (noteOld a0 a1).mem.dram = true := by
    unfold noteOld
    repeat' with_reducible first
      | assumption | intro _ | dsimp only | apply wf_ite | apply wf_ite1 | split | apply wf_foldl | apply wf_foldl1
      | refine wf_of (by assumption) ?_ | apply wf_id

theorem wf_reachKept (a0 : State) (a1 : ℕ) (a2 : Leaf) (a3 : ℕ) (h0 : cwf a0.mem.dram = true) :
    cwf (reachKept a0 a1 a2 a3).mem.dram = true := by
    unfold reachKept
    repeat' with_reducible first
      | assumption | intro _ | dsimp only | apply wf_rekeyFrame | apply wf_ite | apply wf_ite1 | split
      | apply wf_foldl | apply wf_foldl1 | refine wf_of (by assumption) ?_ | apply wf_id

theorem wf_pokeWatchers (a0 : State) (a1 : ℕ) (h0 : cwf a0.mem.dram = true) :
    cwf (pokeWatchers a0 a1).mem.dram = true := by
    unfold pokeWatchers
    repeat' with_reducible first | assumption

theorem wf_rawHome (a0 : State) (a1 : ℕ) (a2 : BitVec 64) (a3 : BitVec 512) (a4 : BitVec 16) (a5 : Bool)
    (h0 : cwf a0.mem.dram = true) :
    cwf (rawHome a0 a1 a2 a3 a4 a5).mem.dram = true := by
    unfold rawHome
    apply wf_pokeWatchers
    exact cwf_dramWrite _ _ _ _ (wf_noteOld _ _ h0)

theorem wf_dropCopy (a0 : State) (a1 : ℕ) (a2 : ℕ) (h0 : cwf a0.mem.dram = true) :
    cwf (dropCopy a0 a1 a2).mem.dram = true := by
    unfold dropCopy
    repeat' with_reducible first | assumption

theorem wf_putCopy (a0 : State) (a1 : Copy) (h0 : cwf a0.mem.dram = true) :
    cwf (putCopy a0 a1).mem.dram = true := by
    unfold putCopy
    repeat' with_reducible first
      | assumption | intro _ | dsimp only | apply wf_dropCopy | apply wf_noteOld | apply wf_ite | apply wf_ite1
      | split | apply wf_foldl | apply wf_foldl1 | refine wf_of (by assumption) ?_ | apply wf_id

theorem wf_invalidateWindows (a0 : State) (a1 : ℕ) (a2 : BitVec 16) (a3 : Option (ℕ × ℕ)) (h0 : cwf a0.mem.dram = true) :
    cwf (invalidateWindows a0 a1 a2 a3).mem.dram = true := by
    unfold invalidateWindows
    repeat' with_reducible first | assumption

theorem wf_setPoison (a0 : State) (a1 : ℕ) (a2 : Bool) (h0 : cwf a0.mem.dram = true) :
    cwf (setPoison a0 a1 a2).mem.dram = true := by
    unfold setPoison
    repeat' with_reducible first
      | assumption | intro _ | dsimp only | apply wf_ite | apply wf_ite1 | split | apply wf_foldl | apply wf_foldl1
      | refine wf_of (by assumption) ?_ | apply wf_id

theorem wf_backWhole (a0 : State) (a1 : Copy) (h0 : cwf a0.mem.dram = true) :
    cwf (backWhole a0 a1).mem.dram = true := by
    unfold backWhole
    repeat' with_reducible first
      | assumption | intro _ | dsimp only | apply wf_underKey | apply wf_rawHome | apply wf_setPoison | apply wf_ite
      | apply wf_ite1 | split | apply wf_foldl | apply wf_foldl1 | refine wf_of (by assumption) ?_ | apply wf_id

theorem wf_recallOwner (a0 : State) (a1 : ℕ) (h0 : cwf a0.mem.dram = true) :
    cwf (recallOwner a0 a1).mem.dram = true := by
    unfold recallOwner
    repeat' with_reducible first
      | assumption | intro _ | dsimp only | apply wf_dropCopy | apply wf_backWhole | apply wf_ite | apply wf_ite1
      | split | apply wf_foldl | apply wf_foldl1 | refine wf_of (by assumption) ?_ | apply wf_id

theorem wf_dropTracked (a0 : State) (a1 : ℕ) (h0 : cwf a0.mem.dram = true) :
    cwf (dropTracked a0 a1).mem.dram = true := by
    unfold dropTracked
    repeat' with_reducible first | assumption

theorem wf_rdcDrop (a0 : State) (a1 : ℕ) (a2 : ℕ) (h0 : cwf a0.mem.dram = true) :
    cwf (rdcDrop a0 a1 a2).mem.dram = true := by
    unfold rdcDrop
    repeat' with_reducible first | assumption

theorem wf_rdcDropAll (a0 : State) (a1 : ℕ) (h0 : cwf a0.mem.dram = true) :
    cwf (rdcDropAll a0 a1).mem.dram = true := by
    unfold rdcDropAll
    repeat' with_reducible first | assumption

theorem wf_noteLost (a0 : State) (a1 : Lost) (h0 : cwf a0.mem.dram = true) :
    cwf (noteLost a0 a1).mem.dram = true := by
    unfold noteLost
    repeat' with_reducible first
      | assumption | intro _ | dsimp only | apply wf_ite | apply wf_ite1 | split | apply wf_foldl | apply wf_foldl1
      | refine wf_of (by assumption) ?_ | apply wf_id

theorem wf_rdcPass (a0 : State) (a1 : ℕ) (a2 : ℕ) (h0 : cwf a0.mem.dram = true) :
    cwf (rdcPass a0 a1 a2).mem.dram = true := by
    unfold rdcPass
    repeat' with_reducible first
      | assumption | intro _ | dsimp only | apply wf_rdcDrop | apply wf_ite | apply wf_ite1 | split | apply wf_foldl
      | apply wf_foldl1 | refine wf_of (by assumption) ?_ | apply wf_id

theorem wf_metaPass (a0 : State) (a1 : ℕ) (a2 : ℕ) (h0 : cwf a0.mem.dram = true) :
    cwf (metaPass a0 a1 a2).mem.dram = true := by
    unfold metaPass
    repeat' with_reducible first
      | assumption | intro _ | dsimp only | apply wf_ite | apply wf_ite1 | split | apply wf_foldl | apply wf_foldl1
      | refine wf_of (by assumption) ?_ | apply wf_id

theorem wf_corePass (a0 : State) (a1 : ℕ) (a2 : ℕ) (h0 : cwf a0.mem.dram = true) :
    cwf (corePass a0 a1 a2).mem.dram = true := by
    unfold corePass
    repeat' with_reducible first
      | assumption | intro _ | dsimp only | apply wf_metaPass | apply wf_rdcPass | apply wf_ite | apply wf_ite1
      | split | apply wf_foldl | apply wf_foldl1 | refine wf_of (by assumption) ?_ | apply wf_id

theorem wf_homeWrite (a0 : State) (a1 : ℕ) (a2 : ℕ) (a3 : BitVec 64) (a4 : BitVec 512) (a5 : BitVec 16) (a6 : Bool)
    (a7 : Option (ℕ × ℕ)) (h0 : cwf a0.mem.dram = true) :
    cwf (homeWrite a0 a1 a2 a3 a4 a5 a6 a7).mem.dram = true := by
    unfold homeWrite
    repeat' with_reducible first
      | assumption | intro _ | dsimp only | apply wf_noteLost | apply wf_recallOwner | apply wf_invalidateWindows
      | apply wf_dropTracked | apply wf_rawHome | apply wf_rdcPass | apply wf_setPoison | apply wf_ite | apply wf_ite1
      | split | apply wf_foldl | apply wf_foldl1 | refine wf_of (by assumption) ?_ | apply wf_id

theorem wf_claim (a0 : State) (a1 : ℕ) (a2 : Option ℕ) (a3 : State) (h0 : cwf a0.mem.dram = true)
    (h3 : cwf a3.mem.dram = true) :
    cwf (claim a0 a1 a2 a3).mem.dram = true := by
    unfold claim
    repeat' with_reducible first
      | assumption | intro _ | dsimp only | apply wf_ite | apply wf_ite1 | split | apply wf_foldl | apply wf_foldl1
      | refine wf_of (by assumption) ?_ | apply wf_id

theorem wf_pushWords (a0 : State) (a1 : Copy) (a2 : BitVec 16) (h0 : cwf a0.mem.dram = true) :
    cwf (pushWords a0 a1 a2).mem.dram = true := by
    unfold pushWords
    repeat' with_reducible first
      | assumption | intro _ | dsimp only | apply wf_claim | apply wf_underKey | apply wf_homeWrite | apply wf_putCopy
      | apply wf_ite | apply wf_ite1 | split | apply wf_foldl | apply wf_foldl1 | refine wf_of (by assumption) ?_
      | apply wf_id

theorem wf_pushCopy (a0 : State) (a1 : Copy) (h0 : cwf a0.mem.dram = true) :
    cwf (pushCopy a0 a1).mem.dram = true := by
    unfold pushCopy
    repeat' with_reducible first
      | assumption | intro _ | dsimp only | apply wf_pushWords | apply wf_backWhole | apply wf_putCopy | apply wf_ite
      | apply wf_ite1 | split | apply wf_foldl | apply wf_foldl1 | refine wf_of (by assumption) ?_ | apply wf_id

theorem wf_evict (a0 : State) (a1 : ℕ) (a2 : ℕ) (h0 : cwf a0.mem.dram = true) :
    cwf (evict a0 a1 a2).mem.dram = true := by
    unfold evict
    repeat' with_reducible first
      | assumption | dsimp only | apply wf_dropCopy | apply wf_pushCopy | apply wf_ite | apply wf_ite1 | split

theorem wf_settle (a0 : State) (a1 : ℕ) (h0 : cwf a0.mem.dram = true) :
    cwf (settle a0 a1).mem.dram = true := by
    unfold settle
    repeat' with_reducible first
      | assumption | dsimp only | apply wf_drawKeep | apply wf_evict | apply wf_ite | apply wf_ite1 | split
      | apply wf_foldl | apply wf_foldl1 | intro _

theorem wf_clearWay (a0 : State) (a1 : ℕ) (a2 : ℕ) (h0 : cwf a0.mem.dram = true) :
    cwf (clearWay a0 a1 a2).mem.dram = true := by
    unfold clearWay
    repeat' with_reducible first
      | assumption | intro _ | dsimp only | apply wf_corePass | apply wf_evict | apply wf_settle | apply wf_ite
      | apply wf_ite1 | split | apply wf_foldl | apply wf_foldl1 | refine wf_of (by assumption) ?_ | apply wf_id

theorem wf_fillCopy (a0 : State) (a1 : Copy) (h0 : cwf a0.mem.dram = true) :
    cwf (fillCopy a0 a1).mem.dram = true := by
    unfold fillCopy
    repeat' with_reducible first
      | assumption | intro _ | dsimp only | apply wf_putCopy | apply wf_evict | apply wf_ite | apply wf_ite1 | split
      | apply wf_foldl | apply wf_foldl1 | refine wf_of (by assumption) ?_ | apply wf_id

theorem wf_homeRead (a0 : State) (a1 : ℕ) (h0 : cwf a0.mem.dram = true) :
    cwf (homeRead a0 a1).1.mem.dram = true := by
    unfold homeRead
    repeat' with_reducible first | assumption | dsimp only | apply wf_recallOwner | apply wf_settle

theorem wf_homeRead64 (a0 : State) (a1 : ℕ) (h0 : cwf a0.mem.dram = true) :
    cwf (homeRead64 a0 a1).1.mem.dram = true := by
    unfold homeRead64
    repeat' with_reducible first | assumption | dsimp only | apply wf_homeRead

theorem wf_walk (a0 : ℕ) (a1 : DWord) (a2 : ℕ) (a3 : State) (a4 : ℕ) (h3 : cwf a3.mem.dram = true) :
    cwf (walk a0 a1 a2 a3 a4).1.mem.dram = true := by
    induction a2 generalizing a0 a1 a3 a4 with
    | zero =>
      unfold walk
      repeat' with_reducible first
        | assumption | intro _ | dsimp only | apply wf_homeRead64 | apply wf_rekeyFrame | apply wf_ite | apply wf_ite1
        | split | apply wf_foldl | apply wf_foldl1 | refine wf_of (by assumption) ?_ | apply wf_id
    | succ n ih =>
      unfold walk
      repeat' with_reducible first
        | assumption | intro _ | dsimp only | apply ih | apply wf_homeRead64 | apply wf_rekeyFrame | apply wf_ite
        | apply wf_ite1 | split | apply wf_foldl | apply wf_foldl1 | refine wf_of (by assumption) ?_ | apply wf_id

theorem wf_walkRoot (a0 : State) (a1 : ℕ) (a2 : DWord) (a3 : ℕ) (h0 : cwf a0.mem.dram = true) :
    cwf (walkRoot a0 a1 a2 a3).1.mem.dram = true := by
    unfold walkRoot
    repeat' with_reducible first
      | assumption | intro _ | dsimp only | apply wf_walk | apply wf_ite | apply wf_ite1 | split | apply wf_foldl
      | apply wf_foldl1 | refine wf_of (by assumption) ?_ | apply wf_id

theorem wf_reach (a0 : State) (a1 : ℕ) (a2 : DWord) (a3 : Leaf) (h0 : cwf a0.mem.dram = true) :
    cwf (reach a0 a1 a2 a3).mem.dram = true := by
    unfold reach
    repeat' with_reducible first
      | assumption | intro _ | dsimp only | apply wf_rekeyFrame | apply wf_ite | apply wf_ite1 | split
      | apply wf_foldl | apply wf_foldl1 | refine wf_of (by assumption) ?_ | apply wf_id

theorem wf_checkLeaf (a0 : State) (a1 : ℕ) (a2 : Kind) (a3 : Leaf) (a4 : DWord) (h0 : cwf a0.mem.dram = true) :
    cwf (checkLeaf a0 a1 a2 a3 a4).1.mem.dram = true := by
    unfold checkLeaf
    repeat' with_reducible first
      | assumption | intro _ | dsimp only | apply wf_reach | apply wf_ite | apply wf_ite1 | split | apply wf_foldl
      | apply wf_foldl1 | refine wf_of (by assumption) ?_ | apply wf_id

theorem wf_installTlb (a0 : State) (a1 : ℕ) (a2 : ℕ) (a3 : ℕ) (a4 : DWord) (a5 : Leaf) (h0 : cwf a0.mem.dram = true) :
    cwf (installTlb a0 a1 a2 a3 a4 a5).mem.dram = true := by
    unfold installTlb
    repeat' with_reducible first | assumption | dsimp only | apply wf_ite

theorem wf_tlbLookup (a0 : List TlbEntry) (a1 : State) (h1 : cwf a1.mem.dram = true) :
    cwf (tlbLookup a0 a1).1.mem.dram = true := by
    induction a0 generalizing a1 with
    | nil =>
      unfold tlbLookup
      repeat' with_reducible first | assumption
    | cons x r ih =>
      unfold tlbLookup
      repeat' with_reducible first | assumption | dsimp only | apply ih | apply wf_drawKeep | apply wf_ite | apply wf_ite1

theorem wf_translateLeaf (a0 : State) (a1 : Who) (a2 : DWord) (a3 : Kind) (h0 : cwf a0.mem.dram = true) :
    cwf (translateLeaf a0 a1 a2 a3).1.mem.dram = true := by
    unfold translateLeaf
    repeat' with_reducible first
      | assumption | intro _ | dsimp only | apply wf_tlbLookup | apply wf_checkLeaf | apply wf_walkRoot
      | apply wf_installTlb | apply wf_ite | apply wf_ite1 | split | apply wf_foldl | apply wf_foldl1
      | refine wf_of (by assumption) ?_ | apply wf_id

theorem wf_translate (a0 : State) (a1 : Who) (a2 : DWord) (a3 : Kind) (h0 : cwf a0.mem.dram = true) :
    cwf (translate a0 a1 a2 a3).1.mem.dram = true := by
    unfold translate
    repeat' with_reducible first
      | assumption | intro _ | dsimp only | apply wf_translateLeaf | apply wf_ite | apply wf_ite1 | split
      | apply wf_foldl | apply wf_foldl1 | refine wf_of (by assumption) ?_ | apply wf_id

theorem wf_translatePages (a0 : Who) (a1 : Kind) (a2 : List ℕ) (a3 : State) (a4 : PageMap) (h3 : cwf a3.mem.dram = true) :
    cwf (translatePages a0 a1 a2 a3 a4).1.mem.dram = true := by
    induction a2 generalizing a0 a1 a3 a4 with
    | nil =>
      unfold translatePages
      repeat' with_reducible first | assumption
    | cons x r ih =>
      unfold translatePages
      repeat' with_reducible first | assumption | dsimp only | apply ih | apply wf_translate

theorem wf_rdcFill (a0 : State) (a1 : Who) (a2 : ℕ) (a3 : ℕ) (a4 : BitVec 512) (h0 : cwf a0.mem.dram = true) :
    cwf (rdcFill a0 a1 a2 a3 a4).mem.dram = true := by
    unfold rdcFill
    repeat' with_reducible first
      | assumption | intro _ | dsimp only | apply wf_rdcDrop | apply wf_ite | apply wf_ite1 | split | apply wf_foldl
      | apply wf_foldl1 | refine wf_of (by assumption) ?_ | apply wf_id

theorem wf_fetchUntracked (a0 : State) (a1 : Who) (a2 : ℕ) (h0 : cwf a0.mem.dram = true) :
    cwf (fetchUntracked a0 a1 a2).1.mem.dram = true := by
    unfold fetchUntracked
    repeat' with_reducible first
      | assumption | intro _ | dsimp only | apply wf_metaPass | apply wf_homeRead | apply wf_rdcFill
      | apply wf_drawKeep | apply wf_ite | apply wf_ite1 | split | apply wf_foldl | apply wf_foldl1
      | refine wf_of (by assumption) ?_ | apply wf_id

theorem wf_loadSector (a0 : State) (a1 : Who) (a2 : Rt) (a3 : ℕ) (a4 : ℕ) (h0 : cwf a0.mem.dram = true) :
    cwf (loadSector a0 a1 a2 a3 a4).1.mem.dram = true := by
    unfold loadSector
    repeat' with_reducible first
      | assumption | intro _ | dsimp only | apply wf_settle | apply wf_homeRead | apply wf_corePass | apply wf_evict
      | apply wf_fillCopy | apply wf_fetchUntracked | apply wf_putCopy | apply wf_ite | apply wf_ite1 | split
      | apply wf_foldl | apply wf_foldl1 | refine wf_of (by assumption) ?_ | apply wf_id

theorem wf_countRead (a0 : State) (a1 : ℕ) (a2 : ℕ) (h0 : cwf a0.mem.dram = true) :
    cwf (countRead a0 a1 a2).mem.dram = true := by
    unfold countRead
    repeat' with_reducible first
      | assumption | dsimp only | apply wf_dropCopy | apply wf_putCopy | apply wf_ite | apply wf_ite1 | split

theorem wf_markSector (a0 : State) (a1 : ℕ) (a2 : ℕ) (h0 : cwf a0.mem.dram = true) :
    cwf (markSector a0 a1 a2).mem.dram = true := by
    unfold markSector
    repeat' with_reducible first | assumption | dsimp only | apply wf_ite | apply wf_ite1 | split

theorem wf_plainLine (a0 : State) (a1 : ℕ) (a2 : ℕ) (h0 : cwf a0.mem.dram = true) :
    cwf (plainLine a0 a1 a2).mem.dram = true := by
    unfold plainLine
    repeat' with_reducible first
      | assumption | intro _ | dsimp only | apply wf_ite | apply wf_ite1 | split | apply wf_foldl | apply wf_foldl1
      | refine wf_of (by assumption) ?_ | apply wf_id

theorem wf_gainOwned (a0 : State) (a1 : Who) (a2 : ℕ) (a3 : ℕ) (h0 : cwf a0.mem.dram = true) :
    cwf (gainOwned a0 a1 a2 a3).mem.dram = true := by
    unfold gainOwned
    repeat' with_reducible first
      | assumption | intro _ | dsimp only | apply wf_recallOwner | apply wf_evict | apply wf_fillCopy
      | apply wf_invalidateWindows | apply wf_dropTracked | apply wf_ite | apply wf_ite1 | split | apply wf_foldl
      | apply wf_foldl1 | refine wf_of (by assumption) ?_ | apply wf_id

theorem wf_writeOwned (a0 : State) (a1 : Who) (a2 : ℕ) (a3 : ℕ) (a4 : BitVec 64) (a5 : BitVec 512)
    (h0 : cwf a0.mem.dram = true) :
    cwf (writeOwned a0 a1 a2 a3 a4 a5).mem.dram = true := by
    unfold writeOwned
    repeat' with_reducible first
      | assumption | intro _ | dsimp only | apply wf_putCopy | apply wf_ite | apply wf_ite1 | split | apply wf_foldl
      | apply wf_foldl1 | refine wf_of (by assumption) ?_ | apply wf_id

theorem wf_storeOwn (a0 : State) (a1 : Who) (a2 : ℕ) (a3 : BitVec 64) (a4 : BitVec 512) (h0 : cwf a0.mem.dram = true) :
    cwf (storeOwn a0 a1 a2 a3 a4).mem.dram = true := by
    unfold storeOwn
    repeat' with_reducible first
      | assumption | intro _ | dsimp only | apply wf_homeWrite | apply wf_evict | apply wf_markSector
      | apply wf_writeOwned | apply wf_noteLost | apply wf_gainOwned | apply wf_ite | apply wf_ite1 | split
      | apply wf_foldl | apply wf_foldl1 | refine wf_of (by assumption) ?_ | apply wf_id

theorem wf_storeSi (a0 : State) (a1 : Who) (a2 : ℕ) (a3 : BitVec 64) (a4 : BitVec 512) (a5 : Option Copy)
    (h0 : cwf a0.mem.dram = true) :
    cwf (storeSi a0 a1 a2 a3 a4 a5).mem.dram = true := by
    unfold storeSi
    repeat' with_reducible first
      | assumption | intro _ | dsimp only | apply wf_fillCopy | apply wf_noteLost | apply wf_fetchUntracked
      | apply wf_ite | apply wf_ite1 | split | apply wf_foldl | apply wf_foldl1 | refine wf_of (by assumption) ?_
      | apply wf_id

theorem wf_storeThrough (a0 : State) (a1 : Who) (a2 : Rt) (a3 : ℕ) (a4 : BitVec 64) (a5 : BitVec 512)
    (h0 : cwf a0.mem.dram = true) :
    cwf (storeThrough a0 a1 a2 a3 a4 a5).mem.dram = true := by
    unfold storeThrough
    repeat' with_reducible first
      | assumption | intro _ | dsimp only | apply wf_homeWrite | apply wf_markSector | apply wf_backWhole
      | apply wf_putCopy | apply wf_evict | apply wf_ite | apply wf_ite1 | split | apply wf_foldl | apply wf_foldl1
      | refine wf_of (by assumption) ?_ | apply wf_id

theorem wf_storeSector (a0 : State) (a1 : Who) (a2 : Rt) (a3 : ℕ) (a4 : BitVec 64) (a5 : BitVec 512)
    (h0 : cwf a0.mem.dram = true) :
    cwf (storeSector a0 a1 a2 a3 a4 a5).mem.dram = true := by
    unfold storeSector
    repeat' with_reducible first
      | assumption | intro _ | dsimp only | apply wf_claim | apply wf_metaPass | apply wf_plainLine | apply wf_settle
      | apply wf_storeOwn | apply wf_corePass | apply wf_storeSi | apply wf_evict | apply wf_storeThrough
      | apply wf_ite | apply wf_ite1 | split | apply wf_foldl | apply wf_foldl1 | refine wf_of (by assumption) ?_
      | apply wf_id

theorem wf_homeLine (a0 : State) (a1 : ℕ) (h0 : cwf a0.mem.dram = true) :
    cwf (homeLine a0 a1).1.mem.dram = true := by
    unfold homeLine
    repeat' with_reducible first
      | assumption | intro _ | dsimp only | apply wf_settle | apply wf_recallOwner | apply wf_ite | apply wf_ite1
      | split | apply wf_foldl | apply wf_foldl1 | refine wf_of (by assumption) ?_ | apply wf_id

theorem wf_freshVer (a0 : State) (h0 : cwf a0.mem.dram = true) :
    cwf (freshVer a0).1.mem.dram = true := by
    unfold freshVer
    repeat' with_reducible first
      | assumption | intro _ | dsimp only | apply wf_ite | apply wf_ite1 | split | apply wf_foldl | apply wf_foldl1
      | refine wf_of (by assumption) ?_ | apply wf_id

theorem wf_fetchLine (a0 : State) (a1 : Who) (a2 : ℕ) (h0 : cwf a0.mem.dram = true) :
    cwf (fetchLine a0 a1 a2).1.mem.dram = true := by
    unfold fetchLine
    repeat' with_reducible first
      | assumption | intro _ | dsimp only | apply wf_homeLine | apply wf_freshVer | apply wf_rdcFill
      | apply wf_drawKeep | apply wf_ite | apply wf_ite1 | split | apply wf_foldl | apply wf_foldl1
      | refine wf_of (by assumption) ?_ | apply wf_id

theorem wf_loadLine (a0 : State) (a1 : Who) (a2 : Rt) (a3 : ℕ) (a4 : ℕ) (h0 : cwf a0.mem.dram = true) :
    cwf (loadLine a0 a1 a2 a3 a4).1.mem.dram = true := by
    unfold loadLine
    repeat' with_reducible first
      | assumption | intro _ | dsimp only | apply wf_evict | apply wf_corePass | apply wf_fillCopy | apply wf_homeLine
      | apply wf_settle | apply wf_fetchLine | apply wf_ite | apply wf_ite1 | split | apply wf_foldl | apply wf_foldl1
      | refine wf_of (by assumption) ?_ | apply wf_id

theorem wf_putLine (a0 : State) (a1 : ℕ) (a2 : ℕ) (a3 : List Byte) (a4 : BitVec 16) (a5 : Bool)
    (h0 : cwf a0.mem.dram = true) :
    cwf (putLine a0 a1 a2 a3 a4 a5).mem.dram = true := by
    unfold putLine
    repeat' with_reducible first
      | assumption | dsimp only | apply wf_homeWrite | apply wf_ite | apply wf_ite1 | split | apply wf_foldl
      | apply wf_foldl1 | intro _

theorem wf_homeExpanded (a0 : State) (a1 : ℕ) (h0 : cwf a0.mem.dram = true) :
    cwf (homeExpanded a0 a1).1.mem.dram = true := by
    unfold homeExpanded
    repeat' with_reducible first
      | assumption | intro _ | dsimp only | apply wf_homeLine | apply wf_ite | apply wf_ite1 | split | apply wf_foldl
      | apply wf_foldl1 | refine wf_of (by assumption) ?_ | apply wf_id

theorem wf_putWindow (a0 : State) (a1 : Window) (h0 : cwf a0.mem.dram = true) :
    cwf (putWindow a0 a1).mem.dram = true := by
    unfold putWindow
    repeat' with_reducible first | assumption

theorem wf_windowExpanded (a0 : State) (a1 : ℕ) (a2 : ℕ) (a3 : BitVec 512) (h0 : cwf a0.mem.dram = true) :
    cwf (windowExpanded a0 a1 a2 a3).1.mem.dram = true := by
    unfold windowExpanded
    repeat' with_reducible first
      | assumption | intro _ | dsimp only | apply wf_homeExpanded | apply wf_evict | apply wf_ite | apply wf_ite1
      | split | apply wf_foldl | apply wf_foldl1 | refine wf_of (by assumption) ?_ | apply wf_id

theorem wf_expandedWrite (a0 : State) (a1 : ℕ) (a2 : ℕ) (a3 : ℕ) (a4 : BitVec 16) (a5 : BitVec 512) (a6 : BitVec 16)
    (h0 : cwf a0.mem.dram = true) :
    cwf (expandedWrite a0 a1 a2 a3 a4 a5 a6).mem.dram = true := by
    unfold expandedWrite
    repeat' with_reducible first
      | assumption | intro _ | dsimp only | apply wf_noteLost | apply wf_homeLine | apply wf_evict | apply wf_putLine
      | apply wf_ite | apply wf_ite1 | split | apply wf_foldl | apply wf_foldl1 | refine wf_of (by assumption) ?_
      | apply wf_id

theorem wf_windowFill (a0 : State) (a1 : Window) (a2 : ℕ) (h0 : cwf a0.mem.dram = true) :
    cwf (windowFill a0 a1 a2).mem.dram = true := by
    unfold windowFill
    repeat' with_reducible first
      | assumption | intro _ | dsimp only | apply wf_rekeyFrame | apply wf_corePass | apply wf_evict
      | apply wf_windowExpanded | apply wf_homeRead | apply wf_setTeam | apply wf_putWindow | apply wf_ite
      | apply wf_ite1 | split | apply wf_foldl | apply wf_foldl1 | refine wf_of (by assumption) ?_ | apply wf_id

theorem wf_windowBackWords (a0 : Bool) (a1 : State) (a2 : ℕ) (a3 : ℕ) (a4 : ℕ) (a5 : BitVec 16)
    (h1 : cwf a1.mem.dram = true) :
    cwf (windowBackWords a0 a1 a2 a3 a4 a5).mem.dram = true := by
    unfold windowBackWords
    repeat' with_reducible first
      | assumption | intro _ | dsimp only | apply wf_putWindow | apply wf_claim | apply wf_underKey
      | apply wf_metaPass | apply wf_evict | apply wf_expandedWrite | apply wf_homeWrite | apply wf_ite
      | apply wf_ite1 | split | apply wf_foldl | apply wf_foldl1 | refine wf_of (by assumption) ?_ | apply wf_id

theorem wf_windowBack (a0 : Bool) (a1 : State) (a2 : ℕ) (a3 : ℕ) (a4 : ℕ) (h1 : cwf a1.mem.dram = true) :
    cwf (windowBack a0 a1 a2 a3 a4).mem.dram = true := by
    unfold windowBack
    repeat' with_reducible first
      | assumption | intro _ | dsimp only | apply wf_windowBackWords | apply wf_ite | apply wf_ite1 | split
      | apply wf_foldl | apply wf_foldl1 | refine wf_of (by assumption) ?_ | apply wf_id

theorem wf_windowFlush (a0 : Bool) (a1 : State) (a2 : ℕ) (a3 : ℕ) (h1 : cwf a1.mem.dram = true) :
    cwf (windowFlush a0 a1 a2 a3).mem.dram = true := by
    unfold windowFlush
    repeat' with_reducible first
      | assumption | dsimp only | apply wf_windowBack | apply wf_ite | apply wf_ite1 | split | apply wf_foldl
      | apply wf_foldl1 | intro _

theorem wf_pushDirty (a0 : Bool) (a1 : State) (a2 : ℕ) (h1 : cwf a1.mem.dram = true) :
    cwf (pushDirty a0 a1 a2).mem.dram = true := by
    unfold pushDirty
    repeat' with_reducible first
      | assumption | dsimp only | apply wf_putCopy | apply wf_pushCopy | apply wf_ite | apply wf_ite1 | split
      | apply wf_foldl | apply wf_foldl1 | intro _

theorem wf_flushWindows (a0 : Bool) (a1 : State) (a2 : ℕ) (a3 : ℕ) (a4 : Scope) (h1 : cwf a1.mem.dram = true) :
    cwf (flushWindows a0 a1 a2 a3 a4).mem.dram = true := by
    unfold flushWindows
    repeat' with_reducible first
      | assumption | dsimp only | apply wf_windowFlush | apply wf_ite | apply wf_ite1 | split | apply wf_foldl
      | apply wf_foldl1 | intro _

theorem wf_epochRelease (a0 : State) (a1 : ℕ) (a2 : ℕ) (a3 : Scope) (h0 : cwf a0.mem.dram = true) :
    cwf (epochRelease a0 a1 a2 a3).mem.dram = true := by
    unfold epochRelease
    repeat' with_reducible first | assumption | dsimp only | apply wf_ite

theorem wf_releaseAt (a0 : State) (a1 : ℕ) (a2 : ℕ) (a3 : Scope) (h0 : cwf a0.mem.dram = true) :
    cwf (releaseAt a0 a1 a2 a3).mem.dram = true := by
    unfold releaseAt
    repeat' with_reducible first
      | assumption | dsimp only | apply wf_pushDirty | apply wf_epochRelease | apply wf_flushWindows | apply wf_ite

theorem wf_floorAdvance (a0 : State) (a1 : ℕ) (h0 : cwf a0.mem.dram = true) :
    cwf (floorAdvance a0 a1).mem.dram = true := by
    unfold floorAdvance
    repeat' with_reducible first | assumption | dsimp only | apply wf_ite

theorem wf_acquireAt (a0 : State) (a1 : ℕ) (a2 : ℕ) (a3 : Scope) (h0 : cwf a0.mem.dram = true) :
    cwf (acquireAt a0 a1 a2 a3).mem.dram = true := by
    unfold acquireAt
    repeat' with_reducible first | assumption | dsimp only | apply wf_floorAdvance | apply wf_ite

theorem wf_publishHeld (a0 : State) (a1 : ℕ) (a2 : HeldDirty) (h0 : cwf a0.mem.dram = true) :
    cwf (publishHeld a0 a1 a2).mem.dram = true := by
    unfold publishHeld
    repeat' with_reducible first
      | assumption | intro _ | dsimp only | apply wf_pushWords | apply wf_pushCopy | apply wf_windowBackWords
      | apply wf_ite | apply wf_ite1 | split | apply wf_foldl | apply wf_foldl1 | refine wf_of (by assumption) ?_
      | apply wf_id

theorem wf_publishMark (a0 : State) (a1 : Mark) (h0 : cwf a0.mem.dram = true) :
    cwf (publishMark a0 a1).mem.dram = true := by
    unfold publishMark
    repeat' with_reducible first
      | assumption | intro _ | dsimp only | apply wf_publishHeld | apply wf_ite | apply wf_ite1 | split
      | apply wf_foldl | apply wf_foldl1 | refine wf_of (by assumption) ?_ | apply wf_id

theorem wf_forcePublishBy (a0 : State) (a1 : Scope → Option ℕ) (a2 : ℕ) (h0 : cwf a0.mem.dram = true) :
    cwf (forcePublishBy a0 a1 a2).mem.dram = true := by
    unfold forcePublishBy
    repeat' with_reducible first
      | assumption | intro _ | dsimp only | apply wf_publishMark | apply wf_ite | apply wf_ite1 | split
      | apply wf_foldl | apply wf_foldl1 | refine wf_of (by assumption) ?_ | apply wf_id

theorem wf_forcePublish (a0 : State) (a1 : ℕ) (a2 : ℕ) (a3 : ℕ) (h0 : cwf a0.mem.dram = true) :
    cwf (forcePublish a0 a1 a2 a3).mem.dram = true := by
    unfold forcePublish
    repeat' with_reducible first
      | assumption | intro _ | dsimp only | apply wf_forcePublishBy | apply wf_ite | apply wf_ite1 | split
      | apply wf_foldl | apply wf_foldl1 | refine wf_of (by assumption) ?_ | apply wf_id

theorem wf_forcePublishFar (a0 : State) (a1 : ℕ) (h0 : cwf a0.mem.dram = true) :
    cwf (forcePublishFar a0 a1).mem.dram = true := by
    unfold forcePublishFar
    repeat' with_reducible first
      | assumption | intro _ | dsimp only | apply wf_forcePublishBy | apply wf_ite | apply wf_ite1 | split
      | apply wf_foldl | apply wf_foldl1 | refine wf_of (by assumption) ?_ | apply wf_id

/-! ### Bytes -/

theorem wf_physRead (a0 : State) (a1 : ℕ) (a2 : ℕ) (h0 : cwf a0.mem.dram = true) :
    cwf (physRead a0 a1 a2).1.mem.dram = true := by
    unfold physRead
    repeat' with_reducible first
      | assumption | dsimp only | apply wf_homeRead | apply wf_ite | apply wf_ite1 | split | apply wf_foldl
      | apply wf_foldl1 | intro _

theorem wf_physWrite (a0 : State) (a1 : ℕ) (a2 : ℕ) (a3 : List Byte) (a4 : BitVec 16) (h0 : cwf a0.mem.dram = true) :
    cwf (physWrite a0 a1 a2 a3 a4).mem.dram = true := by
    unfold physWrite
    repeat' with_reducible first
      | assumption | dsimp only | apply wf_rdcDropAll | apply wf_homeWrite | apply wf_ite | apply wf_ite1 | split
      | apply wf_foldl | apply wf_foldl1 | intro _

theorem wf_mappedReadWith (a0 : PageMap) (a1 : List (DWord × ℕ × ℕ)) (a2 : List (ℕ × List Byte)) (a3 : State)
    (a4 : List Byte) (h3 : cwf a3.mem.dram = true) :
    cwf (mappedReadWith a0 a1 a2 a3 a4).1.mem.dram = true := by
    induction a1 generalizing a2 a3 a4 with
    | nil => exact h3
    | cons x r ih =>
      unfold mappedReadWith
      repeat' with_reducible first
        | assumption | dsimp only | apply ih | apply wf_physRead | apply wf_homeExpanded | split | apply wf_ite1
        | refine wf_of (by assumption) ?_

theorem wf_mappedRead (a0 : PageMap) (a1 : List (DWord × ℕ × ℕ)) (a2 : State) (a3 : List Byte)
    (h2 : cwf a2.mem.dram = true) :
    cwf (mappedRead a0 a1 a2 a3).1.mem.dram = true := by
    unfold mappedRead
    repeat' with_reducible first
      | assumption | intro _ | dsimp only | apply wf_mappedReadWith | apply wf_ite | apply wf_ite1 | split
      | apply wf_foldl | apply wf_foldl1 | refine wf_of (by assumption) ?_ | apply wf_id

theorem wf_codecStore (a0 : State) (a1 : ℕ) (a2 : ℕ) (a3 : List Byte) (a4 : BitVec 16) (h0 : cwf a0.mem.dram = true) :
    cwf (codecStore a0 a1 a2 a3 a4).1.mem.dram = true := by
    unfold codecStore
    repeat' with_reducible first
      | assumption | intro _ | dsimp only | apply wf_noteLost | apply wf_homeLine | apply wf_putLine | apply wf_ite
      | apply wf_ite1 | split | apply wf_foldl | apply wf_foldl1 | refine wf_of (by assumption) ?_ | apply wf_id

theorem wf_makeWay (a0 : State) (a1 : ℕ) (a2 : ℕ) (h0 : cwf a0.mem.dram = true) :
    cwf (makeWay a0 a1 a2).mem.dram = true := by
    unfold makeWay
    repeat' with_reducible first
      | assumption | intro _ | dsimp only | apply wf_corePass | apply wf_evict | apply wf_ite | apply wf_ite1 | split
      | apply wf_foldl | apply wf_foldl1 | refine wf_of (by assumption) ?_ | apply wf_id

theorem wf_mappedWrite (a0 : PageMap) (a1 : Who) (a2 : List Byte) (a3 : List (DWord × ℕ × ℕ)) (a4 : State)
    (h4 : cwf a4.mem.dram = true) :
    cwf (mappedWrite a0 a1 a2 a3 a4).1.mem.dram = true := by
    induction a3 generalizing a0 a1 a2 a4 with
    | nil =>
      unfold mappedWrite
      repeat' with_reducible first
        | assumption | intro _ | dsimp only | apply wf_claim | apply wf_codecStore | apply wf_makeWay
        | apply wf_physWrite | apply wf_reachKept | apply wf_ite | apply wf_ite1 | split | apply wf_foldl
        | apply wf_foldl1 | refine wf_of (by assumption) ?_ | apply wf_id
    | cons x r ih =>
      unfold mappedWrite
      repeat' with_reducible first
        | assumption | intro _ | dsimp only | apply ih | apply wf_claim | apply wf_codecStore | apply wf_makeWay
        | apply wf_physWrite | apply wf_reachKept | apply wf_ite | apply wf_ite1 | split | apply wf_foldl
        | apply wf_foldl1 | refine wf_of (by assumption) ?_ | apply wf_id

theorem wf_virtRead (a0 : State) (a1 : Who) (a2 : DWord) (a3 : ℕ) (h0 : cwf a0.mem.dram = true) :
    cwf (virtRead a0 a1 a2 a3).1.mem.dram = true := by
    unfold virtRead
    repeat' with_reducible first
      | assumption | dsimp only | apply wf_translatePages | apply wf_mappedRead | apply wf_ite | apply wf_ite1 | split

theorem wf_virtWrite (a0 : State) (a1 : Who) (a2 : DWord) (a3 : List Byte) (h0 : cwf a0.mem.dram = true) :
    cwf (virtWrite a0 a1 a2 a3).1.mem.dram = true := by
    unfold virtWrite
    repeat' with_reducible first
      | assumption | dsimp only | apply wf_translatePages | apply wf_mappedWrite | apply wf_ite | apply wf_ite1 | split

theorem wf_publishRange (a0 : State) (a1 : Who) (a2 : DWord) (a3 : ℕ) (h0 : cwf a0.mem.dram = true) :
    cwf (publishRange a0 a1 a2 a3).mem.dram = true := by
    unfold publishRange
    repeat' with_reducible first
      | assumption | intro _ | dsimp only | apply wf_translatePages | apply wf_forcePublishFar | apply wf_ite
      | apply wf_ite1 | split | apply wf_foldl | apply wf_foldl1 | refine wf_of (by assumption) ?_ | apply wf_id

theorem wf_capture (a0 : State) (a1 : Who) (a2 : DWord) (a3 : Kind) (h0 : cwf a0.mem.dram = true) :
    cwf (capture a0 a1 a2 a3).1.mem.dram = true := by
    unfold capture
    repeat' with_reducible first | assumption | dsimp only | apply wf_translate | apply wf_ite | apply wf_ite1 | split

theorem wf_pushForEntry (a0 : State) (a1 : ℕ) (a2 : ℕ) (h0 : cwf a0.mem.dram = true) :
    cwf (pushForEntry a0 a1 a2).mem.dram = true := by
    unfold pushForEntry
    repeat' with_reducible first | assumption | dsimp only | apply wf_flushWindows | apply wf_pushDirty

theorem wf_noteGroup (a0 : State) (a1 : ℕ) (a2 : ℕ) (a3 : State) (h0 : cwf a0.mem.dram = true)
    (h3 : cwf a3.mem.dram = true) :
    cwf (noteGroup a0 a1 a2 a3).mem.dram = true := by
    unfold noteGroup
    repeat' with_reducible first
      | assumption | intro _ | dsimp only | apply wf_setCore | apply wf_ite | apply wf_ite1 | split | apply wf_foldl
      | apply wf_foldl1 | refine wf_of (by assumption) ?_ | apply wf_id

theorem wf_noteEntry (a0 : State) (a1 : ℕ) (a2 : Queue) (a3 : ℕ) (a4 : State) (h0 : cwf a0.mem.dram = true)
    (h4 : cwf a4.mem.dram = true) :
    cwf (noteEntry a0 a1 a2 a3 a4).mem.dram = true := by
    unfold noteEntry
    repeat' with_reducible first
      | assumption | intro _ | dsimp only | apply wf_setCore | apply wf_ite | apply wf_ite1 | split | apply wf_foldl
      | apply wf_foldl1 | refine wf_of (by assumption) ?_ | apply wf_id

theorem wf_snapRest (a0 : State) (a1 : Who) (a2 : ℕ) (a3 : ℕ) (a4 : List (Option Byte)) (h0 : cwf a0.mem.dram = true) :
    cwf (snapRest a0 a1 a2 a3 a4).1.mem.dram = true := by
    unfold snapRest
    repeat' with_reducible first
      | assumption | intro _ | dsimp only | apply wf_virtRead | apply wf_ite | apply wf_ite1 | split | apply wf_foldl
      | apply wf_foldl1 | refine wf_of (by assumption) ?_ | apply wf_id

theorem wf_takeSnap (a0 : State) (a1 : ℕ) (a2 : Entry) (h0 : cwf a0.mem.dram = true) :
    cwf (takeSnap a0 a1 a2).1.mem.dram = true := by
    unfold takeSnap
    repeat' with_reducible first
      | assumption | intro _ | dsimp only | apply wf_snapRest | apply wf_pushForEntry | apply wf_ite | apply wf_ite1
      | split | apply wf_foldl | apply wf_foldl1 | refine wf_of (by assumption) ?_ | apply wf_id

theorem wf_takeSnaps (a0 : State) (a1 : ℕ) (h0 : cwf a0.mem.dram = true) :
    cwf (takeSnaps a0 a1).mem.dram = true := by
    unfold takeSnaps
    repeat' with_reducible first
      | assumption | intro _ | dsimp only | apply wf_takeSnap | apply wf_setCore | apply wf_ite | apply wf_ite1
      | split | apply wf_foldl | apply wf_foldl1 | refine wf_of (by assumption) ?_ | apply wf_id

/-! ### Ops -/

theorem wf_physStamp (a0 : State) (a1 : ℕ) (a2 : ℕ) (a3 : ℕ) (a4 : Phys) (a5 : ℕ) (h0 : cwf a0.mem.dram = true) :
    cwf (physStamp a0 a1 a2 a3 a4 a5).mem.dram = true := by
    unfold physStamp
    repeat' with_reducible first
      | assumption | intro _ | dsimp only | apply wf_reachKept | apply wf_codecStore | apply wf_noteLost
      | apply wf_physWrite | apply wf_ite | apply wf_ite1 | split | apply wf_foldl | apply wf_foldl1
      | refine wf_of (by assumption) ?_ | apply wf_id

theorem wf_stampEntry (a0 : State) (a1 : ℕ) (a2 : Entry) (a3 : BitVec 16) (h0 : cwf a0.mem.dram = true) :
    cwf (stampEntry a0 a1 a2 a3).mem.dram = true := by
    unfold stampEntry
    repeat' with_reducible first
      | assumption | intro _ | dsimp only | apply wf_claim | apply wf_physStamp | apply wf_ite | apply wf_ite1 | split
      | apply wf_foldl | apply wf_foldl1 | refine wf_of (by assumption) ?_ | apply wf_id

theorem wf_drainDone (a0 : ℕ) (a1 : Queue) (a2 : List Entry) (a3 : State) (h3 : cwf a3.mem.dram = true) :
    cwf (drainDone a0 a1 a2 a3).1.mem.dram = true := by
    induction a2 generalizing a0 a1 a3 with
    | nil =>
      unfold drainDone
      repeat' with_reducible first
        | assumption | intro _ | dsimp only | apply wf_noteEntry | apply wf_stampEntry | apply wf_ite | apply wf_ite1
        | split | apply wf_foldl | apply wf_foldl1 | refine wf_of (by assumption) ?_ | apply wf_id
    | cons x r ih =>
      unfold drainDone
      repeat' with_reducible first
        | assumption | intro _ | dsimp only | apply ih | apply wf_noteEntry | apply wf_stampEntry | apply wf_ite
        | apply wf_ite1 | split | apply wf_foldl | apply wf_foldl1 | refine wf_of (by assumption) ?_ | apply wf_id

theorem wf_wakeSlots (a0 : State) (a1 : ℕ) (h0 : cwf a0.mem.dram = true) :
    cwf (wakeSlots a0 a1).mem.dram = true := by
    unfold wakeSlots
    repeat' with_reducible first
      | assumption | intro _ | dsimp only | apply wf_takeSnaps | apply wf_ite | apply wf_ite1 | split | apply wf_foldl
      | apply wf_foldl1 | refine wf_of (by assumption) ?_ | apply wf_id

theorem wf_drainQueue (a0 : State) (a1 : ℕ) (a2 : Queue) (h0 : cwf a0.mem.dram = true) :
    cwf (drainQueue a0 a1 a2).mem.dram = true := by
    unfold drainQueue
    repeat' with_reducible first
      | assumption | dsimp only | apply wf_drainDone | apply wf_wakeSlots | apply wf_setCore | apply wf_ite

theorem wf_stampGrid (a0 : State) (a1 : Grid) (a2 : BitVec 16) (h0 : cwf a0.mem.dram = true) :
    cwf (stampGrid a0 a1 a2).1.mem.dram = true := by
    unfold stampGrid
    repeat' with_reducible first
      | assumption | intro _ | dsimp only | apply wf_capture | apply wf_physStamp | apply wf_ite | apply wf_ite1
      | split | apply wf_foldl | apply wf_foldl1 | refine wf_of (by assumption) ?_ | apply wf_id

theorem wf_record (a0 : State) (a1 : FaultRec) (h0 : cwf a0.mem.dram = true) :
    cwf (record a0 a1).mem.dram = true := by
    unfold record
    repeat' with_reducible first | assumption

theorem wf_leaveWait (a0 : State) (a1 : ℕ) (h0 : cwf a0.mem.dram = true) :
    cwf (leaveWait a0 a1).mem.dram = true := by
    unfold leaveWait
    repeat' with_reducible first | assumption | dsimp only | apply wf_setGroup | apply wf_ite | apply wf_ite1 | split

theorem wf_retryWait (a0 : State) (a1 : ℕ) (h0 : cwf a0.mem.dram = true) :
    cwf (retryWait a0 a1).mem.dram = true := by
    unfold retryWait
    repeat' with_reducible first | assumption | dsimp only | apply wf_setGroup | apply wf_ite | apply wf_ite1 | split

theorem wf_settleBarrier (a0 : State) (a1 : ℕ) (a2 : ℕ) (h0 : cwf a0.mem.dram = true) :
    cwf (settleBarrier a0 a1 a2).mem.dram = true := by
    unfold settleBarrier
    repeat' with_reducible first
      | assumption | dsimp only | apply wf_setTeam | apply wf_leaveWait | apply wf_acquireAt | apply wf_ite
      | apply wf_ite1 | split | apply wf_foldl

theorem wf_leaveBarriers (a0 : State) (a1 : ℕ) (a2 : ℕ) (h0 : cwf a0.mem.dram = true) :
    cwf (leaveBarriers a0 a1 a2).mem.dram = true := by
    unfold leaveBarriers
    repeat' with_reducible first
      | assumption | dsimp only | apply wf_settleBarrier | apply wf_setTeam | apply wf_ite | apply wf_ite1 | split
      | apply wf_foldl | apply wf_foldl1 | intro _

theorem wf_leaveCopies (a0 : State) (a1 : ℕ) (a2 : ℕ) (h0 : cwf a0.mem.dram = true) :
    cwf (leaveCopies a0 a1 a2).mem.dram = true := by
    unfold leaveCopies
    repeat' with_reducible first | assumption | dsimp only | apply wf_setCore

theorem wf_leaveCore (a0 : State) (a1 : ℕ) (a2 : Group) (h0 : cwf a0.mem.dram = true) :
    cwf (leaveCore a0 a1 a2).mem.dram = true := by
    unfold leaveCore
    repeat' with_reducible first
      | assumption | intro _ | dsimp only | apply wf_setCore | apply wf_ite | apply wf_ite1 | split | apply wf_foldl
      | apply wf_foldl1 | refine wf_of (by assumption) ?_ | apply wf_id

theorem wf_freezeBins (a0 : State) (a1 : ℕ) (h0 : cwf a0.mem.dram = true) :
    cwf (freezeBins a0 a1).mem.dram = true := by
    unfold freezeBins
    repeat' with_reducible first
      | assumption | intro _ | dsimp only | apply wf_setCore | apply wf_ite | apply wf_ite1 | split | apply wf_foldl
      | apply wf_foldl1 | refine wf_of (by assumption) ?_ | apply wf_id

theorem wf_retireGroup (a0 : State) (a1 : ℕ) (h0 : cwf a0.mem.dram = true) :
    cwf (retireGroup a0 a1).mem.dram = true := by
    unfold retireGroup
    repeat' with_reducible first
      | assumption | intro _ | dsimp only | apply wf_leaveCore | apply wf_setCore | apply wf_freezeBins
      | apply wf_leaveCopies | apply wf_leaveBarriers | apply wf_ite | apply wf_ite1 | split | apply wf_foldl
      | apply wf_foldl1 | refine wf_of (by assumption) ?_ | apply wf_id

theorem wf_dropWindows (a0 : Bool) (a1 : State) (a2 : ℕ) (h1 : cwf a1.mem.dram = true) :
    cwf (dropWindows a0 a1 a2).mem.dram = true := by
    unfold dropWindows
    repeat' with_reducible first
      | assumption | dsimp only | apply wf_windowFlush | apply wf_ite | apply wf_ite1 | split | apply wf_foldl
      | apply wf_foldl1 | intro _

theorem wf_cancelCore (a0 : Entry → Bool) (a1 : MatEntry → Bool) (a2 : RingEntry → Bool) (a3 : State) (a4 : ℕ)
    (h3 : cwf a3.mem.dram = true) :
    cwf (cancelCore a0 a1 a2 a3 a4).mem.dram = true := by
    unfold cancelCore
    repeat' with_reducible first
      | assumption | dsimp only | apply wf_drainQueue | apply wf_setCore | apply wf_ite | apply wf_ite1 | split
      | apply wf_foldl | apply wf_foldl1 | intro _

theorem wf_removeTeam (a0 : State) (a1 : ℕ) (h0 : cwf a0.mem.dram = true) :
    cwf (removeTeam a0 a1).mem.dram = true := by
    unfold removeTeam
    repeat' with_reducible first | assumption | dsimp only | apply wf_setCore | apply wf_ite | apply wf_ite1 | split

theorem wf_refusedRecord (a0 : State) (a1 : Grid) (a2 : ℕ) (h0 : cwf a0.mem.dram = true) :
    cwf (refusedRecord a0 a1 a2).mem.dram = true := by
    unfold refusedRecord
    repeat' with_reducible first | assumption | dsimp only | apply wf_record

theorem wf_endGrid (a0 : FaultRec) (a1 : State) (a2 : ℕ) (h1 : cwf a1.mem.dram = true) :
    cwf (endGrid a0 a1 a2).mem.dram = true := by
    unfold endGrid
    repeat' with_reducible first
      | assumption | intro _ | dsimp only | apply wf_stampGrid | apply wf_refusedRecord | apply wf_ite | apply wf_ite1
      | split | apply wf_foldl | apply wf_foldl1 | refine wf_of (by assumption) ?_ | apply wf_id

theorem wf_cancelKept (a0 : State) (a1 : ℕ) (h0 : cwf a0.mem.dram = true) :
    cwf (cancelKept a0 a1).mem.dram = true := by
    unfold cancelKept
    repeat' with_reducible first
      | assumption | intro _ | dsimp only | apply wf_stampEntry | apply wf_ite | apply wf_ite1 | split
      | apply wf_foldl | apply wf_foldl1 | refine wf_of (by assumption) ?_ | apply wf_id

theorem wf_endContext (a0 : State) (a1 : FaultRec) (h0 : cwf a0.mem.dram = true) :
    cwf (endContext a0 a1).mem.dram = true := by
    unfold endContext
    repeat' with_reducible first
      | assumption | intro _ | dsimp only | apply wf_dropWindows | apply wf_pushDirty | apply wf_cancelCore
      | apply wf_cancelKept | apply wf_removeTeam | apply wf_endGrid | apply wf_record | apply wf_ite | apply wf_ite1
      | split | apply wf_foldl | apply wf_foldl1 | refine wf_of (by assumption) ?_ | apply wf_id

theorem wf_endTeam (a0 : State) (a1 : ℕ) (a2 : ℕ) (h0 : cwf a0.mem.dram = true) :
    cwf (endTeam a0 a1 a2).mem.dram = true := by
    unfold endTeam
    repeat' with_reducible first
      | assumption | dsimp only | apply wf_leaveCopies | apply wf_pushDirty | apply wf_dropWindows | apply wf_cancelCore
      | apply wf_removeTeam | apply wf_record | apply wf_ite | apply wf_ite1 | split | apply wf_foldl | apply wf_foldl1
      | intro _

theorem wf_zeroGranules (a0 : Mem) (a1 : ℕ) (a2 : ℕ → Bool) (h0 : cwf a0.dram = true) :
    cwf (zeroGranules a0 a1 a2).dram = true := by
    unfold zeroGranules
    repeat' with_reducible first | assumption | dsimp only | apply cwf_cset | apply cwf_csetMany | apply cwf_ckeep

theorem wf_closePartition (a0 : State) (a1 : ℕ) (h0 : cwf a0.mem.dram = true) :
    cwf (closePartition a0 a1).mem.dram = true := by
    unfold closePartition
    repeat' with_reducible first | assumption | dsimp only | apply wf_zeroGranules | apply wf_ite | apply wf_ite1 | split

theorem wf_closeQuiet (a0 : State) (h0 : cwf a0.mem.dram = true) :
    cwf (closeQuiet a0).mem.dram = true := by
    unfold closeQuiet
    repeat' with_reducible first
      | assumption | dsimp only | apply wf_closePartition | apply wf_ite | apply wf_ite1 | split | apply wf_foldl
      | apply wf_foldl1 | intro _

theorem wf_endPartition (a0 : State) (a1 : ℕ) (a2 : ℕ) (h0 : cwf a0.mem.dram = true) :
    cwf (endPartition a0 a1 a2).mem.dram = true := by
    unfold endPartition
    repeat' with_reducible first
      | assumption | dsimp only | apply wf_endContext | apply wf_closeQuiet | apply wf_ite | apply wf_ite1 | split
      | apply wf_foldl | apply wf_foldl1 | intro _

theorem wf_enterHandler (a0 : State) (a1 : ℕ) (a2 : Group) (a3 : ℕ) (a4 : Raise) (a5 : DWord) (h0 : cwf a0.mem.dram = true) :
    cwf (enterHandler a0 a1 a2 a3 a4 a5).mem.dram = true := by
    unfold enterHandler
    repeat' with_reducible first | assumption | dsimp only | apply wf_setGroup

theorem wf_takeTrap (a0 : State) (a1 : ℕ) (a2 : Group) (a3 : ℕ) (a4 : Raise) (h0 : cwf a0.mem.dram = true) :
    cwf (takeTrap a0 a1 a2 a3 a4).mem.dram = true := by
    unfold takeTrap
    repeat' with_reducible first
      | assumption | intro _ | dsimp only | apply wf_setGroup | apply wf_enterHandler | apply wf_ite | apply wf_ite1
      | split | apply wf_foldl | apply wf_foldl1 | refine wf_of (by assumption) ?_ | apply wf_id

theorem wf_raise (a0 : State) (a1 : ℕ) (a2 : Group) (a3 : ℕ) (a4 : Raise) (h0 : cwf a0.mem.dram = true) :
    cwf (raise a0 a1 a2 a3 a4).mem.dram = true := by
    unfold raise
    repeat' with_reducible first
      | assumption | intro _ | dsimp only | apply wf_endContext | apply wf_takeTrap | apply wf_takeId
      | apply wf_setGroup | apply wf_record | apply wf_ite | apply wf_ite1 | split | apply wf_foldl | apply wf_foldl1
      | refine wf_of (by assumption) ?_ | apply wf_id

theorem wf_pageFault (a0 : State) (a1 : ℕ) (a2 : Group) (a3 : ℕ) (a4 : List (ℕ × ℕ × Word)) (h0 : cwf a0.mem.dram = true) :
    cwf (pageFault a0 a1 a2 a3 a4).mem.dram = true := by
    unfold pageFault
    repeat' with_reducible first
      | assumption | dsimp only | apply wf_takeId | apply wf_setGroup | apply wf_record | apply wf_ite | apply wf_ite1
      | split | apply wf_foldl | apply wf_foldl1 | intro _

theorem wf_raiseIllegal (a0 : State) (a1 : ℕ) (a2 : Group) (a3 : ℕ) (h0 : cwf a0.mem.dram = true) :
    cwf (raiseIllegal a0 a1 a2 a3).mem.dram = true := by
    unfold raiseIllegal
    repeat' with_reducible first | assumption | dsimp only | apply wf_raise

theorem wf_occupy (a0 : State) (a1 : Group) (a2 : ℕ) (h0 : cwf a0.mem.dram = true) :
    cwf (occupy a0 a1 a2).mem.dram = true := by
    unfold occupy
    repeat' with_reducible first | assumption | dsimp only | apply wf_setCore | apply wf_ite | apply wf_ite1 | split

theorem wf_issue (a0 : State) (a1 : Hdr) (a2 : Bool) (a3 : State → ℕ → Group → State) (h0 : cwf a0.mem.dram = true)
    (h3 : ∀ z a b, cwf z.mem.dram = true → cwf (a3 z a b).mem.dram = true) :
    OutWf (issue a0 a1 a2 a3) := by
    unfold issue
    repeat' with_reducible first
      | assumption | dsimp only | apply h3 | exact out_fault _ | exact out_refused _ | apply out_next
      | apply wf_setGroup | apply wf_raiseIllegal | apply wf_ite | apply wf_ite1 | apply out_ite | split

theorem wf_park (a0 : State) (a1 : ℕ) (a2 : Group) (a3 : ℕ) (a4 : Wait) (h0 : cwf a0.mem.dram = true) :
    cwf (park a0 a1 a2 a3 a4).mem.dram = true := by
    unfold park
    repeat' with_reducible first | assumption | dsimp only | apply wf_takeId | apply wf_setGroup

theorem wf_finish (a0 : State) (a1 : ℕ) (a2 : Group) (a3 : ℕ) (a4 : ℕ) (h0 : cwf a0.mem.dram = true) :
    cwf (finish a0 a1 a2 a3 a4).mem.dram = true := by
    unfold finish
    repeat' with_reducible first | assumption | dsimp only | apply wf_setGroup | apply wf_occupy

theorem wf_dataOp (a0 : State) (a1 : Hdr) (a2 : Bool) (a3 : Width) (a4 : ℕ) (a5 : List (Src × Bool)) (a6 : Dst)
    (a7 : Bool) (a8 : Group → List ℕ → ℕ → ℕ → ℕ) (h0 : cwf a0.mem.dram = true) :
    OutWf (dataOp a0 a1 a2 a3 a4 a5 a6 a7 a8) := by
    unfold dataOp
    repeat' with_reducible first
      | assumption | dsimp only | exact out_fault _ | exact out_refused _ | apply out_next | apply wf_issue
      | apply wf_raiseIllegal | apply wf_finish | apply wf_ite | apply wf_ite1 | apply out_ite | split | apply wf_foldl
      | apply wf_foldl1 | intro _

theorem wf_predOp (a0 : State) (a1 : Hdr) (a2 : Width) (a3 : ℕ) (a4 : List (Src × Bool)) (a5 : PSel)
    (a6 : Group → List ℕ → ℕ → ℕ → Bool) (h0 : cwf a0.mem.dram = true) :
    OutWf (predOp a0 a1 a2 a3 a4 a5 a6) := by
    unfold predOp
    repeat' with_reducible first
      | assumption | dsimp only | exact out_fault _ | exact out_refused _ | apply out_next | apply wf_issue
      | apply wf_raiseIllegal | apply wf_finish | apply wf_ite | apply wf_ite1 | apply out_ite | split | apply wf_foldl
      | apply wf_foldl1 | intro _

end Sys2Proof.Machine
end

