-- ==== Sys2Proof/Laws/MemoryInstr.lean ====
section
/-! SUPPORT. The canonical form of DRAM: the meanings of instructions keep it. -/

namespace Sys2Proof.Machine

/-! ### Control -/

theorem wf_jump (a0 : State) (a1 : ℕ) (a2 : Group) (a3 : ℕ) (a4 : DWord) (h0 : cwf a0.mem.dram = true) :
    cwf (jump a0 a1 a2 a3 a4).mem.dram = true := by
    unfold jump
    repeat' with_reducible first
      | assumption | intro _ | dsimp only | apply wf_setGroup | apply wf_occupy | apply wf_ite | apply wf_ite1 | split
      | apply wf_foldl | apply wf_foldl1 | refine wf_of (by assumption) ?_ | apply wf_id

theorem wf_execNop (a0 : Hdr) (a1 : State) (h1 : cwf a1.mem.dram = true) :
    OutWf (execNop a0 a1) := by
    unfold execNop
    repeat' with_reducible first
      | assumption | dsimp only | exact out_fault _ | exact out_refused _ | apply out_next | apply wf_issue
      | apply wf_finish | apply wf_ite | apply wf_ite1 | apply out_ite | split | apply wf_foldl | apply wf_foldl1
      | intro _

theorem wf_execBra (a0 : Hdr) (a1 : Bool) (a2 : BitVec 24) (a3 : State) (h3 : cwf a3.mem.dram = true) :
    OutWf (execBra a0 a1 a2 a3) := by
    unfold execBra
    repeat' with_reducible first
      | assumption | dsimp only | exact out_fault _ | exact out_refused _ | apply out_next | apply wf_issue
      | apply wf_jump | apply wf_finish | apply wf_ite | apply wf_ite1 | apply out_ite | split | apply wf_foldl
      | apply wf_foldl1 | intro _

theorem wf_execBru (a0 : Hdr) (a1 : BitVec 24) (a2 : State) (h2 : cwf a2.mem.dram = true) :
    OutWf (execBru a0 a1 a2) := by
    unfold execBru
    repeat' with_reducible first
      | assumption | dsimp only | exact out_fault _ | exact out_refused _ | apply out_next | apply wf_issue
      | apply wf_jump | apply wf_finish | apply wf_ite | apply wf_ite1 | apply out_ite | split | apply wf_foldl
      | apply wf_foldl1 | intro _

theorem wf_jumpTo (a0 : State) (a1 : ℕ) (a2 : Group) (a3 : Hdr) (a4 : DWord) (a5 : Option (BitVec 7))
    (h0 : cwf a0.mem.dram = true) :
    cwf (jumpTo a0 a1 a2 a3 a4 a5).mem.dram = true := by
    unfold jumpTo
    repeat' with_reducible first | assumption | dsimp only | apply wf_raiseIllegal | apply wf_jump | apply wf_ite

theorem wf_execBrx (a0 : Hdr) (a1 : Src) (a2 : State) (h2 : cwf a2.mem.dram = true) :
    OutWf (execBrx a0 a1 a2) := by
    unfold execBrx
    repeat' with_reducible first
      | assumption | dsimp only | exact out_fault _ | exact out_refused _ | apply out_next | apply wf_issue
      | apply wf_jumpTo | apply wf_raiseIllegal | apply wf_ite | apply wf_ite1 | apply out_ite | split | apply wf_foldl
      | apply wf_foldl1 | intro _

theorem wf_execCall (a0 : Hdr) (a1 : BitVec 7) (a2 : BitVec 24) (a3 : State) (h3 : cwf a3.mem.dram = true) :
    OutWf (execCall a0 a1 a2 a3) := by
    unfold execCall
    repeat' with_reducible first
      | assumption | dsimp only | exact out_fault _ | exact out_refused _ | apply out_next | apply wf_issue
      | apply wf_jump | apply wf_ite | apply wf_ite1 | apply out_ite | split | apply wf_foldl | apply wf_foldl1
      | intro _

theorem wf_execCallx (a0 : Hdr) (a1 : BitVec 7) (a2 : Src) (a3 : State) (h3 : cwf a3.mem.dram = true) :
    OutWf (execCallx a0 a1 a2 a3) := by
    unfold execCallx
    repeat' with_reducible first
      | assumption | dsimp only | exact out_fault _ | exact out_refused _ | apply out_next | apply wf_issue
      | apply wf_jumpTo | apply wf_raiseIllegal | apply wf_ite | apply wf_ite1 | apply out_ite | split | apply wf_foldl
      | apply wf_foldl1 | intro _

theorem wf_execRet (a0 : Hdr) (a1 : BitVec 7) (a2 : State) (h2 : cwf a2.mem.dram = true) :
    OutWf (execRet a0 a1 a2) := by
    unfold execRet
    repeat' with_reducible first
      | assumption | dsimp only | exact out_fault _ | exact out_refused _ | apply out_next | apply wf_issue
      | apply wf_jumpTo | apply wf_ite | apply wf_ite1 | apply out_ite | split | apply wf_foldl | apply wf_foldl1
      | intro _

theorem wf_raiseStack (a0 : State) (a1 : ℕ) (a2 : Group) (a3 : ℕ) (h0 : cwf a0.mem.dram = true) :
    cwf (raiseStack a0 a1 a2 a3).mem.dram = true := by
    unfold raiseStack
    repeat' with_reducible first | assumption | dsimp only | apply wf_raise

theorem wf_execDvg (a0 : Hdr) (a1 : BitVec 3) (a2 : Bool) (a3 : BitVec 24) (a4 : State) (h4 : cwf a4.mem.dram = true) :
    OutWf (execDvg a0 a1 a2 a3 a4) := by
    unfold execDvg
    repeat' with_reducible first
      | assumption | dsimp only | exact out_fault _ | exact out_refused _ | apply out_next | apply wf_issue
      | apply wf_raiseStack | apply wf_jump | apply wf_finish | apply wf_ite | apply wf_ite1 | apply out_ite | split
      | apply wf_foldl | apply wf_foldl1 | intro _

theorem wf_execCvg (a0 : Hdr) (a1 : State) (h1 : cwf a1.mem.dram = true) :
    OutWf (execCvg a0 a1) := by
    unfold execCvg
    repeat' with_reducible first
      | assumption | dsimp only | exact out_fault _ | exact out_refused _ | apply out_next | apply wf_issue
      | apply wf_raiseStack | apply wf_setGroup | apply wf_occupy | apply wf_ite | apply wf_ite1 | apply out_ite | split
      | apply wf_foldl | apply wf_foldl1 | intro _

theorem wf_execExit (a0 : Hdr) (a1 : State) (h1 : cwf a1.mem.dram = true) :
    OutWf (execExit a0 a1) := by
    unfold execExit
    repeat' with_reducible first
      | assumption | dsimp only | exact out_fault _ | exact out_refused _ | apply out_next | apply wf_issue
      | apply wf_occupy | apply wf_retireGroup | apply wf_setGroup | apply wf_ite | apply wf_ite1 | apply out_ite
      | split | apply wf_foldl | apply wf_foldl1 | intro _

theorem wf_execYield (a0 : Hdr) (a1 : State) (h1 : cwf a1.mem.dram = true) :
    OutWf (execYield a0 a1) := by
    unfold execYield
    repeat' with_reducible first
      | assumption | dsimp only | exact out_fault _ | exact out_refused _ | apply out_next | apply wf_issue
      | apply wf_setGroup | apply wf_occupy | apply wf_ite | apply wf_ite1 | apply out_ite | split | apply wf_foldl
      | apply wf_foldl1 | intro _

/-! ### Fetch -/

theorem wf_wordAt (a0 : State) (a1 : Leaf) (a2 : ℕ) (h0 : cwf a0.mem.dram = true) :
    cwf (wordAt a0 a1 a2).1.mem.dram = true := by
    unfold wordAt
    repeat' with_reducible first
      | assumption | intro _ | dsimp only | apply wf_homeExpanded | apply wf_physRead | apply wf_ite | apply wf_ite1
      | split | apply wf_foldl | apply wf_foldl1 | refine wf_of (by assumption) ?_ | apply wf_id

theorem wf_oldOrNow (a0 : List Byte) (a1 : List (List Byte)) (a2 : State) (h2 : cwf a2.mem.dram = true) :
    cwf (oldOrNow a0 a1 a2).1.mem.dram = true := by
    induction a1 generalizing a0 a2 with
    | nil =>
      unfold oldOrNow
      repeat' with_reducible first
        | assumption | intro _ | dsimp only | apply wf_drawKeep | apply wf_ite | apply wf_ite1 | split
        | apply wf_foldl | apply wf_foldl1 | refine wf_of (by assumption) ?_ | apply wf_id
    | cons x r ih =>
      unfold oldOrNow
      repeat' with_reducible first
        | assumption | intro _ | dsimp only | apply ih | apply wf_drawKeep | apply wf_ite | apply wf_ite1 | split
        | apply wf_foldl | apply wf_foldl1 | refine wf_of (by assumption) ?_ | apply wf_id

theorem wf_heldWord (a0 : State) (a1 : ℕ) (a2 : ℕ) (a3 : ℕ) (a4 : List (List Byte)) (a5 : List Byte)
    (h0 : cwf a0.mem.dram = true) :
    cwf (heldWord a0 a1 a2 a3 a4 a5).1.mem.dram = true := by
    unfold heldWord
    repeat' with_reducible first
      | assumption | intro _ | dsimp only | apply wf_oldOrNow | apply wf_ite | apply wf_ite1 | split | apply wf_foldl
      | apply wf_foldl1 | refine wf_of (by assumption) ?_ | apply wf_id

theorem wf_fetchWord (a0 : State) (a1 : Group) (a2 : DWord) (h0 : cwf a0.mem.dram = true) :
    cwf (fetchWord a0 a1 a2).1.mem.dram = true := by
    unfold fetchWord
    repeat' with_reducible first
      | assumption | intro _ | dsimp only | apply wf_translate | apply wf_wordAt | apply wf_heldWord | apply wf_ite
      | apply wf_ite1 | split | apply wf_foldl | apply wf_foldl1 | refine wf_of (by assumption) ?_ | apply wf_id

theorem wf_fetchMore (a0 : Group) (a1 : ℕ) (a2 : State) (a3 : DWord) (a4 : List DWord) (h2 : cwf a2.mem.dram = true) :
    cwf (fetchMore a0 a1 a2 a3 a4).1.mem.dram = true := by
    induction a1 generalizing a0 a2 a3 a4 with
    | zero =>
      unfold fetchMore
      repeat' with_reducible first | assumption
    | succ n ih =>
      unfold fetchMore
      repeat' with_reducible first
        | assumption | dsimp only | apply ih | apply wf_fetchWord | apply wf_ite | apply wf_ite1 | split

theorem wf_fetchInstr (a0 : State) (a1 : Group) (h0 : cwf a0.mem.dram = true) :
    cwf (fetchInstr a0 a1).1.mem.dram = true := by
    unfold fetchInstr
    repeat' with_reducible first
      | assumption | dsimp only | apply wf_fetchWord | apply wf_fetchMore | apply wf_ite | apply wf_ite1 | split

theorem wf_fetchFault (a0 : State) (a1 : ℕ) (a2 : Group) (a3 : DWord) (a4 : XErr) (h0 : cwf a0.mem.dram = true) :
    cwf (fetchFault a0 a1 a2 a3 a4).mem.dram = true := by
    unfold fetchFault
    repeat' with_reducible first
      | assumption | dsimp only | apply wf_pageFault | apply wf_raise | apply wf_ite | apply wf_ite1 | split

theorem wf_endLost (a0 : State) (a1 : Lost) (h0 : cwf a0.mem.dram = true) :
    cwf (endLost a0 a1).mem.dram = true := by
    unfold endLost
    repeat' with_reducible first | assumption | dsimp only | apply wf_endContext

theorem wf_tick (a0 : State) (h0 : cwf a0.mem.dram = true) :
    cwf (tick a0).mem.dram = true := by
    unfold tick
    repeat' with_reducible first | assumption | dsimp only | apply wf_closeQuiet

theorem wf_layProgram (a0 : State) (a1 : List DWord) (h0 : cwf a0.mem.dram = true) :
    cwf (layProgram a0 a1).mem.dram = true := by
    unfold layProgram
    dsimp only
    unfold layBytes
    refine cwf_csetMany _ _ _ ?_
    generalize probeTables = l
    generalize hd : a0.mem.dram = d at h0
    clear hd
    induction l generalizing d with
    | nil => exact h0
    | cons e r ih => exact ih _ (cwf_csetMany _ _ _ h0)

/-! ### GroupOps -/

theorem wf_launchBin (a0 : State) (a1 : ℕ) (a2 : ℕ) (a3 : Bin) (h0 : cwf a0.mem.dram = true) :
    cwf (launchBin a0 a1 a2 a3).mem.dram = true := by
    unfold launchBin
    repeat' with_reducible first
      | assumption | dsimp only | apply wf_takeId | apply wf_setCore | apply wf_acquireAt | apply wf_setGroup
      | apply wf_ite | apply wf_ite1 | split

theorem wf_tryLaunch (a0 : State) (a1 : ℕ) (a2 : ℕ) (h0 : cwf a0.mem.dram = true) :
    cwf (tryLaunch a0 a1 a2).mem.dram = true := by
    unfold tryLaunch
    repeat' with_reducible first
      | assumption | dsimp only | apply wf_launchBin | apply wf_setCore | apply wf_ite | apply wf_ite1 | split

theorem wf_expireBins (a0 : State) (a1 : ℕ) (h0 : cwf a0.mem.dram = true) :
    cwf (expireBins a0 a1).mem.dram = true := by
    unfold expireBins
    repeat' with_reducible first
      | assumption | dsimp only | apply wf_tryLaunch | apply wf_ite | apply wf_ite1 | split | apply wf_foldl
      | apply wf_foldl1 | intro _

theorem wf_placeSpawn (a0 : State) (a1 : ℕ) (a2 : ℕ) (a3 : ℕ) (a4 : DWord) (a5 : List Word) (h0 : cwf a0.mem.dram = true) :
    ∀ t, placeSpawn a0 a1 a2 a3 a4 a5 = some t → cwf t.mem.dram = true := by
    intro t ht
    unfold placeSpawn at ht
    dsimp only at ht
    split at ht
    · split at ht
      · cases ht
      · cases ht
        exact wf_ite (wf_tryLaunch _ _ _ (wf_setCore _ _ _ h0)) (wf_setCore _ _ _ h0)
    · split at ht
      · cases ht
      · cases ht
        exact wf_setCore _ _ _ h0
theorem wf_placeFirst (a0 : ℕ) (a1 : List (ℕ × Group)) (a2 : State) (h2 : cwf a2.mem.dram = true) :
    ∀ t, placeFirst a0 a1 a2 = some t → cwf t.mem.dram = true := by
    induction a1 with
    | nil => intro t ht; cases ht
    | cons x r ih =>
      intro t ht
      unfold placeFirst at ht
      split at ht
      · split at ht
        · rename_i hp
          cases ht
          have h := wf_placeSpawn _ _ _ _ _ _ h2 _ hp
          exact wf_ite (wf_leaveWait _ _ (wf_setGroup _ _ _ h)) (wf_setGroup _ _ _ h)
        · exact ih t ht
      · exact ih t ht
theorem wf_placeEarlier (a0 : ℕ) (a1 : ℕ) (a2 : ℕ) (a3 : State) (h3 : cwf a3.mem.dram = true) :
    cwf (placeEarlier a0 a1 a2 a3).mem.dram = true := by
    induction a2 generalizing a3 with
    | zero => exact h3
    | succ n ih =>
      unfold placeEarlier
      split
      · exact ih _ (wf_placeFirst _ _ _ h3 _ (by assumption))
      · exact h3

theorem wf_placeSpawns (a0 : ℕ) (a1 : ℕ) (a2 : ℕ) (a3 : DWord) (a4 : ℕ) (a5 : List BinLane) (a6 : State)
    (h6 : cwf a6.mem.dram = true) :
    cwf (placeSpawns a0 a1 a2 a3 a4 a5 a6).1.mem.dram = true := by
    induction a5 generalizing a6 with
    | nil => exact h6
    | cons x r ih =>
      unfold placeSpawns
      dsimp only
      split
      · have h := wf_placeSpawn _ _ _ _ _ _ h6 _ (by assumption)
        exact ih _ (wf_ite (wf_placeEarlier _ _ _ _ h) h)
      · exact h6

theorem wf_resumeSpawn (a0 : State) (a1 : ℕ) (h0 : cwf a0.mem.dram = true) :
    cwf (resumeSpawn a0 a1).mem.dram = true := by
    unfold resumeSpawn
    repeat' with_reducible first
      | assumption | intro _ | dsimp only | apply wf_placeSpawns | apply wf_setGroup | apply wf_leaveWait
      | apply wf_ite | apply wf_ite1 | split | apply wf_foldl | apply wf_foldl1 | refine wf_of (by assumption) ?_
      | apply wf_id

theorem wf_resumeSpawns (a0 : State) (a1 : ℕ) (h0 : cwf a0.mem.dram = true) :
    cwf (resumeSpawns a0 a1).mem.dram = true := by
    unfold resumeSpawns
    repeat' with_reducible first
      | assumption | intro _ | dsimp only | apply wf_expireBins | apply wf_resumeSpawn | apply wf_ite | apply wf_ite1
      | split | apply wf_foldl | apply wf_foldl1 | refine wf_of (by assumption) ?_ | apply wf_id

theorem wf_execSpawn (a0 : Hdr) (a1 : BitVec 8) (a2 : BitVec 3) (a3 : BitVec 24) (a4 : State)
    (h4 : cwf a4.mem.dram = true) :
    OutWf (execSpawn a0 a1 a2 a3 a4) := by
    unfold execSpawn
    repeat' with_reducible first
      | assumption | intro _ | dsimp only | exact out_fault _ | exact out_refused _ | apply out_next | apply wf_issue
      | apply wf_raiseIllegal | apply wf_finish | apply wf_releaseAt | apply wf_resumeSpawns | apply wf_placeSpawns
      | apply wf_park | apply wf_occupy | apply wf_ite | apply wf_ite1 | apply out_ite | split | apply wf_foldl
      | apply wf_foldl1 | refine wf_of (by assumption) ?_ | apply wf_id

theorem wf_execSpawnResume (a0 : ℕ) (a1 : State) (h1 : cwf a1.mem.dram = true) :
    OutWf (execSpawnResume a0 a1) := by
    unfold execSpawnResume
    repeat' with_reducible first
      | assumption | intro _ | dsimp only | exact out_fault _ | exact out_refused _ | apply out_next
      | apply wf_resumeSpawns | apply wf_ite | apply wf_ite1 | apply out_ite | split | apply wf_foldl
      | apply wf_foldl1 | refine wf_of (by assumption) ?_ | apply wf_id

theorem wf_pairUp (a0 : State) (a1 : ℕ) (a2 : ℕ) (a3 : ℕ) (a4 : DWord) (h0 : cwf a0.mem.dram = true) :
    cwf (pairUp a0 a1 a2 a3 a4).mem.dram = true := by
    unfold pairUp
    repeat' with_reducible first
      | assumption | intro _ | dsimp only | apply wf_setGroup | apply wf_ite | apply wf_ite1 | split | apply wf_foldl
      | apply wf_foldl1 | refine wf_of (by assumption) ?_ | apply wf_id

theorem wf_execRegroup (a0 : Hdr) (a1 : BitVec 3) (a2 : DWord) (a3 : State) (h3 : cwf a3.mem.dram = true) :
    OutWf (execRegroup a0 a1 a2 a3) := by
    unfold execRegroup
    repeat' with_reducible first
      | assumption | intro _ | dsimp only | exact out_fault _ | exact out_refused _ | apply out_next | apply wf_issue
      | apply wf_raiseIllegal | apply wf_finish | apply wf_park | apply wf_occupy | apply wf_pairUp | apply wf_ite
      | apply wf_ite1 | apply out_ite | split | apply wf_foldl | apply wf_foldl1 | refine wf_of (by assumption) ?_
      | apply wf_id

theorem wf_execRegroupMigrate (a0 : ℕ) (a1 : ℕ) (a2 : State) (h2 : cwf a2.mem.dram = true) :
    OutWf (execRegroupMigrate a0 a1 a2) := by
    unfold execRegroupMigrate
    repeat' with_reducible first
      | assumption | dsimp only | exact out_fault _ | exact out_refused _ | apply out_next | apply wf_retireGroup
      | apply wf_leaveWait | apply wf_setGroup | apply wf_ite | apply wf_ite1 | apply out_ite | split

theorem wf_execVote (a0 : Hdr) (a1 : VoteOp) (a2 : PSel) (a3 : PSel) (a4 : State) (h4 : cwf a4.mem.dram = true) :
    OutWf (execVote a0 a1 a2 a3 a4) := by
    unfold execVote
    repeat' with_reducible first
      | assumption | dsimp only | exact out_fault _ | exact out_refused _ | apply out_next | apply wf_predOp

theorem wf_execVoteMask (a0 : Hdr) (a1 : Bool) (a2 : Dst) (a3 : PSel) (a4 : State) (h4 : cwf a4.mem.dram = true) :
    OutWf (execVoteMask a0 a1 a2 a3 a4) := by
    unfold execVoteMask
    repeat' with_reducible first
      | assumption | dsimp only | exact out_fault _ | exact out_refused _ | apply out_next | apply wf_dataOp

theorem wf_execElect (a0 : Hdr) (a1 : PSel) (a2 : State) (h2 : cwf a2.mem.dram = true) :
    OutWf (execElect a0 a1 a2) := by
    unfold execElect
    repeat' with_reducible first
      | assumption | dsimp only | exact out_fault _ | exact out_refused _ | apply out_next | apply wf_predOp

theorem wf_execShfl (a0 : Hdr) (a1 : ShflOp) (a2 : Bool) (a3 : Ty) (a4 : Dst) (a5 : Src) (a6 : Src) (a7 : State)
    (h7 : cwf a7.mem.dram = true) :
    OutWf (execShfl a0 a1 a2 a3 a4 a5 a6 a7) := by
    unfold execShfl
    repeat' with_reducible first
      | assumption | dsimp only | exact out_fault _ | exact out_refused _ | apply out_next | apply wf_dataOp

theorem wf_execMatchL (a0 : Hdr) (a1 : Ty) (a2 : Dst) (a3 : Src) (a4 : State) (h4 : cwf a4.mem.dram = true) :
    OutWf (execMatchL a0 a1 a2 a3 a4) := by
    unfold execMatchL
    repeat' with_reducible first
      | assumption | dsimp only | exact out_fault _ | exact out_refused _ | apply out_next | apply wf_dataOp

theorem wf_execPlop (a0 : Hdr) (a1 : PlopOp) (a2 : PSel) (a3 : PSel) (a4 : PSel) (a5 : State) (h5 : cwf a5.mem.dram = true) :
    OutWf (execPlop a0 a1 a2 a3 a4 a5) := by
    unfold execPlop
    repeat' with_reducible first
      | assumption | dsimp only | exact out_fault _ | exact out_refused _ | apply out_next | apply wf_predOp

theorem wf_setfmtWith (a0 : State) (a1 : Hdr) (a2 : List (Src × Bool)) (a3 : Group → ℕ → ℕ → Word)
    (h0 : cwf a0.mem.dram = true) :
    OutWf (setfmtWith a0 a1 a2 a3) := by
    unfold setfmtWith
    repeat' with_reducible first
      | assumption | dsimp only | exact out_fault _ | exact out_refused _ | apply out_next | apply wf_issue
      | apply wf_raiseIllegal | apply wf_finish | apply wf_ite | apply wf_ite1 | apply out_ite | split | apply wf_foldl
      | apply wf_foldl1 | intro _

theorem wf_execSetfmtImm (a0 : Hdr) (a1 : BitVec 24) (a2 : State) (h2 : cwf a2.mem.dram = true) :
    OutWf (execSetfmtImm a0 a1 a2) := by
    unfold execSetfmtImm
    repeat' with_reducible first
      | assumption | dsimp only | exact out_fault _ | exact out_refused _ | apply out_next | apply wf_setfmtWith

theorem wf_execSetfmtReg (a0 : Hdr) (a1 : Src) (a2 : State) (h2 : cwf a2.mem.dram = true) :
    OutWf (execSetfmtReg a0 a1 a2) := by
    unfold execSetfmtReg
    repeat' with_reducible first
      | assumption | dsimp only | exact out_fault _ | exact out_refused _ | apply out_next | apply wf_setfmtWith

theorem wf_execGetfmt (a0 : Hdr) (a1 : Dst) (a2 : State) (h2 : cwf a2.mem.dram = true) :
    OutWf (execGetfmt a0 a1 a2) := by
    unfold execGetfmt
    repeat' with_reducible first
      | assumption | dsimp only | exact out_fault _ | exact out_refused _ | apply out_next | apply wf_dataOp

theorem wf_execSreg (a0 : Hdr) (a1 : Dst) (a2 : BitVec 24) (a3 : State) (h3 : cwf a3.mem.dram = true) :
    OutWf (execSreg a0 a1 a2 a3) := by
    unfold execSreg
    repeat' with_reducible first
      | assumption | dsimp only | exact out_fault _ | exact out_refused _ | apply out_next | apply wf_dataOp

/-! ### Integer -/

theorem wf_intOp1 (a0 : State) (a1 : Op1) (a2 : ℕ) (a3 : ℤ → ℤ) (h0 : cwf a0.mem.dram = true) :
    OutWf (intOp1 a0 a1 a2 a3) := by
    unfold intOp1
    repeat' with_reducible first
      | assumption | dsimp only | exact out_fault _ | exact out_refused _ | apply out_next | apply wf_dataOp

theorem wf_intOp2 (a0 : State) (a1 : Op2) (a2 : ℕ) (a3 : Bool) (a4 : ℤ → ℤ → ℤ) (h0 : cwf a0.mem.dram = true) :
    OutWf (intOp2 a0 a1 a2 a3 a4) := by
    unfold intOp2
    repeat' with_reducible first
      | assumption | dsimp only | exact out_fault _ | exact out_refused _ | apply out_next | apply wf_dataOp

theorem wf_intOp3 (a0 : State) (a1 : Op3) (a2 : ℕ) (a3 : ℤ → ℤ → ℤ → ℤ) (h0 : cwf a0.mem.dram = true) :
    OutWf (intOp3 a0 a1 a2 a3) := by
    unfold intOp3
    repeat' with_reducible first
      | assumption | dsimp only | exact out_fault _ | exact out_refused _ | apply out_next | apply wf_dataOp

theorem wf_bitOp2 (a0 : State) (a1 : Op2) (a2 : ℕ → ℕ → ℕ) (h0 : cwf a0.mem.dram = true) :
    OutWf (bitOp2 a0 a1 a2) := by
    unfold bitOp2
    repeat' with_reducible first
      | assumption | dsimp only | exact out_fault _ | exact out_refused _ | apply out_next | apply wf_dataOp

theorem wf_countOp (a0 : State) (a1 : Op2) (a2 : ℕ) (a3 : ℤ → ℕ → ℤ) (h0 : cwf a0.mem.dram = true) :
    OutWf (countOp a0 a1 a2 a3) := by
    unfold countOp
    repeat' with_reducible first
      | assumption | dsimp only | exact out_fault _ | exact out_refused _ | apply out_next | apply wf_dataOp

theorem wf_bitCount (a0 : State) (a1 : Op1) (a2 : ℕ → ℕ → ℕ) (h0 : cwf a0.mem.dram = true) :
    OutWf (bitCount a0 a1 a2) := by
    unfold bitCount
    repeat' with_reducible first
      | assumption | dsimp only | exact out_fault _ | exact out_refused _ | apply out_next | apply wf_dataOp

theorem wf_execIadd (a0 : Op2) (a1 : State) (h1 : cwf a1.mem.dram = true) :
    OutWf (execIadd a0 a1) := by
    unfold execIadd
    repeat' with_reducible first
      | assumption | dsimp only | exact out_fault _ | exact out_refused _ | apply out_next | apply wf_intOp2

theorem wf_execIadd3 (a0 : Op3) (a1 : State) (h1 : cwf a1.mem.dram = true) :
    OutWf (execIadd3 a0 a1) := by
    unfold execIadd3
    repeat' with_reducible first
      | assumption | dsimp only | exact out_fault _ | exact out_refused _ | apply out_next | apply wf_intOp3

theorem wf_execIsub (a0 : Op2) (a1 : State) (h1 : cwf a1.mem.dram = true) :
    OutWf (execIsub a0 a1) := by
    unfold execIsub
    repeat' with_reducible first
      | assumption | dsimp only | exact out_fault _ | exact out_refused _ | apply out_next | apply wf_intOp2

theorem wf_execIneg (a0 : Op1) (a1 : State) (h1 : cwf a1.mem.dram = true) :
    OutWf (execIneg a0 a1) := by
    unfold execIneg
    repeat' with_reducible first
      | assumption | dsimp only | exact out_fault _ | exact out_refused _ | apply out_next | apply wf_intOp1

theorem wf_execIabs (a0 : Op1) (a1 : State) (h1 : cwf a1.mem.dram = true) :
    OutWf (execIabs a0 a1) := by
    unfold execIabs
    repeat' with_reducible first
      | assumption | dsimp only | exact out_fault _ | exact out_refused _ | apply out_next | apply wf_intOp1

theorem wf_execImul (a0 : Op2) (a1 : State) (h1 : cwf a1.mem.dram = true) :
    OutWf (execImul a0 a1) := by
    unfold execImul
    repeat' with_reducible first
      | assumption | dsimp only | exact out_fault _ | exact out_refused _ | apply out_next | apply wf_intOp2

theorem wf_execImulh (a0 : Op2) (a1 : State) (h1 : cwf a1.mem.dram = true) :
    OutWf (execImulh a0 a1) := by
    unfold execImulh
    repeat' with_reducible first
      | assumption | dsimp only | exact out_fault _ | exact out_refused _ | apply out_next | apply wf_intOp2

theorem wf_execImad (a0 : Op3) (a1 : State) (h1 : cwf a1.mem.dram = true) :
    OutWf (execImad a0 a1) := by
    unfold execImad
    repeat' with_reducible first
      | assumption | dsimp only | exact out_fault _ | exact out_refused _ | apply out_next | apply wf_intOp3

theorem wf_execIdiv (a0 : Op2) (a1 : State) (h1 : cwf a1.mem.dram = true) :
    OutWf (execIdiv a0 a1) := by
    unfold execIdiv
    repeat' with_reducible first
      | assumption | dsimp only | exact out_fault _ | exact out_refused _ | apply out_next | apply wf_intOp2

theorem wf_execIrem (a0 : Op2) (a1 : State) (h1 : cwf a1.mem.dram = true) :
    OutWf (execIrem a0 a1) := by
    unfold execIrem
    repeat' with_reducible first
      | assumption | dsimp only | exact out_fault _ | exact out_refused _ | apply out_next | apply wf_intOp2

theorem wf_execImin (a0 : Op2) (a1 : State) (h1 : cwf a1.mem.dram = true) :
    OutWf (execImin a0 a1) := by
    unfold execImin
    repeat' with_reducible first
      | assumption | dsimp only | exact out_fault _ | exact out_refused _ | apply out_next | apply wf_intOp2

theorem wf_execImax (a0 : Op2) (a1 : State) (h1 : cwf a1.mem.dram = true) :
    OutWf (execImax a0 a1) := by
    unfold execImax
    repeat' with_reducible first
      | assumption | dsimp only | exact out_fault _ | exact out_refused _ | apply out_next | apply wf_intOp2

theorem wf_execIcmp (a0 : CmpOp) (a1 : State) (h1 : cwf a1.mem.dram = true) :
    OutWf (execIcmp a0 a1) := by
    unfold execIcmp
    repeat' with_reducible first
      | assumption | dsimp only | exact out_fault _ | exact out_refused _ | apply out_next | apply wf_predOp

theorem wf_execIsel (a0 : Hdr) (a1 : Dst) (a2 : Src) (a3 : Src) (a4 : PSel) (a5 : Ty) (a6 : State)
    (h6 : cwf a6.mem.dram = true) :
    OutWf (execIsel a0 a1 a2 a3 a4 a5 a6) := by
    unfold execIsel
    repeat' with_reducible first
      | assumption | dsimp only | exact out_fault _ | exact out_refused _ | apply out_next | apply wf_dataOp

theorem wf_execAnd (a0 : Op2) (a1 : State) (h1 : cwf a1.mem.dram = true) :
    OutWf (execAnd a0 a1) := by
    unfold execAnd
    repeat' with_reducible first
      | assumption | dsimp only | exact out_fault _ | exact out_refused _ | apply out_next | apply wf_bitOp2

theorem wf_execOr (a0 : Op2) (a1 : State) (h1 : cwf a1.mem.dram = true) :
    OutWf (execOr a0 a1) := by
    unfold execOr
    repeat' with_reducible first
      | assumption | dsimp only | exact out_fault _ | exact out_refused _ | apply out_next | apply wf_bitOp2

theorem wf_execXor (a0 : Op2) (a1 : State) (h1 : cwf a1.mem.dram = true) :
    OutWf (execXor a0 a1) := by
    unfold execXor
    repeat' with_reducible first
      | assumption | dsimp only | exact out_fault _ | exact out_refused _ | apply out_next | apply wf_bitOp2

theorem wf_execNot (a0 : Op1) (a1 : State) (h1 : cwf a1.mem.dram = true) :
    OutWf (execNot a0 a1) := by
    unfold execNot
    repeat' with_reducible first
      | assumption | dsimp only | exact out_fault _ | exact out_refused _ | apply out_next | apply wf_dataOp

theorem wf_execAndn (a0 : Op2) (a1 : State) (h1 : cwf a1.mem.dram = true) :
    OutWf (execAndn a0 a1) := by
    unfold execAndn
    repeat' with_reducible first
      | assumption | dsimp only | exact out_fault _ | exact out_refused _ | apply out_next | apply wf_bitOp2

theorem wf_execShl (a0 : Op2) (a1 : State) (h1 : cwf a1.mem.dram = true) :
    OutWf (execShl a0 a1) := by
    unfold execShl
    repeat' with_reducible first
      | assumption | dsimp only | exact out_fault _ | exact out_refused _ | apply out_next | apply wf_countOp

theorem wf_execShr (a0 : Op2) (a1 : State) (h1 : cwf a1.mem.dram = true) :
    OutWf (execShr a0 a1) := by
    unfold execShr
    repeat' with_reducible first
      | assumption | dsimp only | exact out_fault _ | exact out_refused _ | apply out_next | apply wf_countOp

theorem wf_execSar (a0 : Op2) (a1 : State) (h1 : cwf a1.mem.dram = true) :
    OutWf (execSar a0 a1) := by
    unfold execSar
    repeat' with_reducible first
      | assumption | dsimp only | exact out_fault _ | exact out_refused _ | apply out_next | apply wf_countOp

theorem wf_execRol (a0 : Op2) (a1 : State) (h1 : cwf a1.mem.dram = true) :
    OutWf (execRol a0 a1) := by
    unfold execRol
    repeat' with_reducible first
      | assumption | dsimp only | exact out_fault _ | exact out_refused _ | apply out_next | apply wf_countOp

theorem wf_execPopc (a0 : Op1) (a1 : State) (h1 : cwf a1.mem.dram = true) :
    OutWf (execPopc a0 a1) := by
    unfold execPopc
    repeat' with_reducible first
      | assumption | dsimp only | exact out_fault _ | exact out_refused _ | apply out_next | apply wf_bitCount

theorem wf_execClz (a0 : Op1) (a1 : State) (h1 : cwf a1.mem.dram = true) :
    OutWf (execClz a0 a1) := by
    unfold execClz
    repeat' with_reducible first
      | assumption | dsimp only | exact out_fault _ | exact out_refused _ | apply out_next | apply wf_bitCount

theorem wf_execCtz (a0 : Op1) (a1 : State) (h1 : cwf a1.mem.dram = true) :
    OutWf (execCtz a0 a1) := by
    unfold execCtz
    repeat' with_reducible first
      | assumption | dsimp only | exact out_fault _ | exact out_refused _ | apply out_next | apply wf_bitCount

theorem wf_execBrev (a0 : Op1) (a1 : State) (h1 : cwf a1.mem.dram = true) :
    OutWf (execBrev a0 a1) := by
    unfold execBrev
    repeat' with_reducible first
      | assumption | dsimp only | exact out_fault _ | exact out_refused _ | apply out_next | apply wf_dataOp

theorem wf_execBfx (a0 : Op2) (a1 : State) (h1 : cwf a1.mem.dram = true) :
    OutWf (execBfx a0 a1) := by
    unfold execBfx
    repeat' with_reducible first
      | assumption | dsimp only | exact out_fault _ | exact out_refused _ | apply out_next | apply wf_countOp

theorem wf_execBfi (a0 : Op3) (a1 : State) (h1 : cwf a1.mem.dram = true) :
    OutWf (execBfi a0 a1) := by
    unfold execBfi
    repeat' with_reducible first
      | assumption | dsimp only | exact out_fault _ | exact out_refused _ | apply out_next | apply wf_dataOp

theorem wf_execPerm (a0 : Op3) (a1 : State) (h1 : cwf a1.mem.dram = true) :
    OutWf (execPerm a0 a1) := by
    unfold execPerm
    repeat' with_reducible first
      | assumption | dsimp only | exact out_fault _ | exact out_refused _ | apply out_next | apply wf_dataOp

theorem wf_execLea (a0 : Op3) (a1 : State) (h1 : cwf a1.mem.dram = true) :
    OutWf (execLea a0 a1) := by
    unfold execLea
    repeat' with_reducible first
      | assumption | dsimp only | exact out_fault _ | exact out_refused _ | apply out_next | apply wf_dataOp

theorem wf_execMov (a0 : Op1) (a1 : State) (h1 : cwf a1.mem.dram = true) :
    OutWf (execMov a0 a1) := by
    unfold execMov
    repeat' with_reducible first
      | assumption | dsimp only | exact out_fault _ | exact out_refused _ | apply out_next | apply wf_dataOp

theorem wf_execMovi (a0 : Hdr) (a1 : Dst) (a2 : BitVec 3) (a3 : BitVec 24) (a4 : State) (h4 : cwf a4.mem.dram = true) :
    OutWf (execMovi a0 a1 a2 a3 a4) := by
    unfold execMovi
    repeat' with_reducible first
      | assumption | dsimp only | exact out_fault _ | exact out_refused _ | apply out_next | apply wf_dataOp

theorem wf_execLdi (a0 : Hdr) (a1 : Dst) (a2 : BitVec 3) (a3 : DWord) (a4 : State) (h4 : cwf a4.mem.dram = true) :
    OutWf (execLdi a0 a1 a2 a3 a4) := by
    unfold execLdi
    repeat' with_reducible first
      | assumption | dsimp only | exact out_fault _ | exact out_refused _ | apply out_next | apply wf_dataOp

theorem wf_execCvti (a0 : Hdr) (a1 : Dst) (a2 : Src) (a3 : Ty) (a4 : Ty) (a5 : BitVec 2) (a6 : State)
    (h6 : cwf a6.mem.dram = true) :
    OutWf (execCvti a0 a1 a2 a3 a4 a5 a6) := by
    unfold execCvti
    repeat' with_reducible first
      | assumption | dsimp only | exact out_fault _ | exact out_refused _ | apply out_next | apply wf_dataOp

/-! ### Floating -/

theorem wf_floatOp2 (a0 : State) (a1 : FOp2) (a2 : ℕ) (a3 : RM → FVal → FVal → FVal) (h0 : cwf a0.mem.dram = true) :
    OutWf (floatOp2 a0 a1 a2 a3) := by
    unfold floatOp2
    repeat' with_reducible first
      | assumption | dsimp only | exact out_fault _ | exact out_refused _ | apply out_next | apply wf_dataOp

theorem wf_specOp (a0 : State) (a1 : FOp1) (a2 : SpecFn) (h0 : cwf a0.mem.dram = true) :
    OutWf (specOp a0 a1 a2) := by
    unfold specOp
    repeat' with_reducible first
      | assumption | dsimp only | exact out_fault _ | exact out_refused _ | apply out_next | apply wf_dataOp

theorem wf_signOp (a0 : State) (a1 : Op1) (a2 : ℕ → ℕ → ℕ) (h0 : cwf a0.mem.dram = true) :
    OutWf (signOp a0 a1 a2) := by
    unfold signOp
    repeat' with_reducible first
      | assumption | dsimp only | exact out_fault _ | exact out_refused _ | apply out_next | apply wf_dataOp

theorem wf_extremumOp (a0 : State) (a1 : Op2) (a2 : Ordering → Bool) (h0 : cwf a0.mem.dram = true) :
    OutWf (extremumOp a0 a1 a2) := by
    unfold extremumOp
    repeat' with_reducible first
      | assumption | dsimp only | exact out_fault _ | exact out_refused _ | apply out_next | apply wf_dataOp

theorem wf_execFadd (a0 : FOp2) (a1 : State) (h1 : cwf a1.mem.dram = true) :
    OutWf (execFadd a0 a1) := by
    unfold execFadd
    repeat' with_reducible first
      | assumption | dsimp only | exact out_fault _ | exact out_refused _ | apply out_next | apply wf_floatOp2

theorem wf_execFsub (a0 : FOp2) (a1 : State) (h1 : cwf a1.mem.dram = true) :
    OutWf (execFsub a0 a1) := by
    unfold execFsub
    repeat' with_reducible first
      | assumption | dsimp only | exact out_fault _ | exact out_refused _ | apply out_next | apply wf_floatOp2

theorem wf_execFmul (a0 : FOp2) (a1 : State) (h1 : cwf a1.mem.dram = true) :
    OutWf (execFmul a0 a1) := by
    unfold execFmul
    repeat' with_reducible first
      | assumption | dsimp only | exact out_fault _ | exact out_refused _ | apply out_next | apply wf_floatOp2

theorem wf_execFma (a0 : Op3) (a1 : State) (h1 : cwf a1.mem.dram = true) :
    OutWf (execFma a0 a1) := by
    unfold execFma
    repeat' with_reducible first
      | assumption | dsimp only | exact out_fault _ | exact out_refused _ | apply out_next | apply wf_dataOp

theorem wf_execFmin (a0 : Op2) (a1 : State) (h1 : cwf a1.mem.dram = true) :
    OutWf (execFmin a0 a1) := by
    unfold execFmin
    repeat' with_reducible first
      | assumption | dsimp only | exact out_fault _ | exact out_refused _ | apply out_next | apply wf_extremumOp

theorem wf_execFmax (a0 : Op2) (a1 : State) (h1 : cwf a1.mem.dram = true) :
    OutWf (execFmax a0 a1) := by
    unfold execFmax
    repeat' with_reducible first
      | assumption | dsimp only | exact out_fault _ | exact out_refused _ | apply out_next | apply wf_extremumOp

theorem wf_execFcmp (a0 : CmpOp) (a1 : State) (h1 : cwf a1.mem.dram = true) :
    OutWf (execFcmp a0 a1) := by
    unfold execFcmp
    repeat' with_reducible first
      | assumption | dsimp only | exact out_fault _ | exact out_refused _ | apply out_next | apply wf_predOp

theorem wf_execFneg (a0 : Op1) (a1 : State) (h1 : cwf a1.mem.dram = true) :
    OutWf (execFneg a0 a1) := by
    unfold execFneg
    repeat' with_reducible first
      | assumption | dsimp only | exact out_fault _ | exact out_refused _ | apply out_next | apply wf_signOp

theorem wf_execFabs (a0 : Op1) (a1 : State) (h1 : cwf a1.mem.dram = true) :
    OutWf (execFabs a0 a1) := by
    unfold execFabs
    repeat' with_reducible first
      | assumption | dsimp only | exact out_fault _ | exact out_refused _ | apply out_next | apply wf_signOp

theorem wf_execFrcp (a0 : FOp1) (a1 : State) (h1 : cwf a1.mem.dram = true) :
    OutWf (execFrcp a0 a1) := by
    unfold execFrcp
    repeat' with_reducible first
      | assumption | dsimp only | exact out_fault _ | exact out_refused _ | apply out_next | apply wf_specOp

theorem wf_execFrsq (a0 : FOp1) (a1 : State) (h1 : cwf a1.mem.dram = true) :
    OutWf (execFrsq a0 a1) := by
    unfold execFrsq
    repeat' with_reducible first
      | assumption | dsimp only | exact out_fault _ | exact out_refused _ | apply out_next | apply wf_specOp

theorem wf_execFsqrt (a0 : FOp1) (a1 : State) (h1 : cwf a1.mem.dram = true) :
    OutWf (execFsqrt a0 a1) := by
    unfold execFsqrt
    repeat' with_reducible first
      | assumption | dsimp only | exact out_fault _ | exact out_refused _ | apply out_next | apply wf_dataOp

theorem wf_execFdiv (a0 : FOp2) (a1 : State) (h1 : cwf a1.mem.dram = true) :
    OutWf (execFdiv a0 a1) := by
    unfold execFdiv
    repeat' with_reducible first
      | assumption | dsimp only | exact out_fault _ | exact out_refused _ | apply out_next | apply wf_floatOp2

theorem wf_execFex2 (a0 : FOp1) (a1 : State) (h1 : cwf a1.mem.dram = true) :
    OutWf (execFex2 a0 a1) := by
    unfold execFex2
    repeat' with_reducible first
      | assumption | dsimp only | exact out_fault _ | exact out_refused _ | apply out_next | apply wf_specOp

theorem wf_execFlg2 (a0 : FOp1) (a1 : State) (h1 : cwf a1.mem.dram = true) :
    OutWf (execFlg2 a0 a1) := by
    unfold execFlg2
    repeat' with_reducible first
      | assumption | dsimp only | exact out_fault _ | exact out_refused _ | apply out_next | apply wf_specOp

theorem wf_execFsin (a0 : FOp1) (a1 : State) (h1 : cwf a1.mem.dram = true) :
    OutWf (execFsin a0 a1) := by
    unfold execFsin
    repeat' with_reducible first
      | assumption | dsimp only | exact out_fault _ | exact out_refused _ | apply out_next | apply wf_specOp

theorem wf_execFcos (a0 : FOp1) (a1 : State) (h1 : cwf a1.mem.dram = true) :
    OutWf (execFcos a0 a1) := by
    unfold execFcos
    repeat' with_reducible first
      | assumption | dsimp only | exact out_fault _ | exact out_refused _ | apply out_next | apply wf_specOp

theorem wf_execFtanh (a0 : FOp1) (a1 : State) (h1 : cwf a1.mem.dram = true) :
    OutWf (execFtanh a0 a1) := by
    unfold execFtanh
    repeat' with_reducible first
      | assumption | dsimp only | exact out_fault _ | exact out_refused _ | apply out_next | apply wf_specOp

theorem wf_execFcls (a0 : Op1) (a1 : State) (h1 : cwf a1.mem.dram = true) :
    OutWf (execFcls a0 a1) := by
    unfold execFcls
    repeat' with_reducible first
      | assumption | dsimp only | exact out_fault _ | exact out_refused _ | apply out_next | apply wf_dataOp

theorem wf_execFscl (a0 : FOp2) (a1 : State) (h1 : cwf a1.mem.dram = true) :
    OutWf (execFscl a0 a1) := by
    unfold execFscl
    repeat' with_reducible first
      | assumption | dsimp only | exact out_fault _ | exact out_refused _ | apply out_next | apply wf_dataOp

theorem wf_execFrnd (a0 : FOp1) (a1 : State) (h1 : cwf a1.mem.dram = true) :
    OutWf (execFrnd a0 a1) := by
    unfold execFrnd
    repeat' with_reducible first
      | assumption | dsimp only | exact out_fault _ | exact out_refused _ | apply out_next | apply wf_dataOp

theorem wf_packedOp (a0 : State) (a1 : Hdr) (a2 : Dst) (a3 : List Src) (a4 : Group → ℕ → ℕ → ℕ → ℕ)
    (h0 : cwf a0.mem.dram = true) :
    OutWf (packedOp a0 a1 a2 a3 a4) := by
    unfold packedOp
    repeat' with_reducible first
      | assumption | dsimp only | exact out_fault _ | exact out_refused _ | apply out_next | apply wf_dataOp

theorem wf_execHadd2 (a0 : FOp2) (a1 : State) (h1 : cwf a1.mem.dram = true) :
    OutWf (execHadd2 a0 a1) := by
    unfold execHadd2
    repeat' with_reducible first
      | assumption | dsimp only | exact out_fault _ | exact out_refused _ | apply out_next | apply wf_packedOp

theorem wf_execHmul2 (a0 : FOp2) (a1 : State) (h1 : cwf a1.mem.dram = true) :
    OutWf (execHmul2 a0 a1) := by
    unfold execHmul2
    repeat' with_reducible first
      | assumption | dsimp only | exact out_fault _ | exact out_refused _ | apply out_next | apply wf_packedOp

theorem wf_execHfma2 (a0 : Op3) (a1 : State) (h1 : cwf a1.mem.dram = true) :
    OutWf (execHfma2 a0 a1) := by
    unfold execHfma2
    repeat' with_reducible first
      | assumption | dsimp only | exact out_fault _ | exact out_refused _ | apply out_next | apply wf_packedOp

theorem wf_execDot4 (a0 : Op3) (a1 : State) (h1 : cwf a1.mem.dram = true) :
    OutWf (execDot4 a0 a1) := by
    unfold execDot4
    repeat' with_reducible first
      | assumption | dsimp only | exact out_fault _ | exact out_refused _ | apply out_next | apply wf_dataOp

/-! ### Convert -/

theorem wf_execFcvt (a0 : CvtOp) (a1 : State) (h1 : cwf a1.mem.dram = true) :
    OutWf (execFcvt a0 a1) := by
    unfold execFcvt
    repeat' with_reducible first
      | assumption | dsimp only | exact out_fault _ | exact out_refused _ | apply out_next | apply wf_dataOp

theorem wf_execFcvti (a0 : CvtOp) (a1 : State) (h1 : cwf a1.mem.dram = true) :
    OutWf (execFcvti a0 a1) := by
    unfold execFcvti
    repeat' with_reducible first
      | assumption | dsimp only | exact out_fault _ | exact out_refused _ | apply out_next | apply wf_dataOp

theorem wf_execIcvtf (a0 : CvtOp) (a1 : State) (h1 : cwf a1.mem.dram = true) :
    OutWf (execIcvtf a0 a1) := by
    unfold execIcvtf
    repeat' with_reducible first
      | assumption | dsimp only | exact out_fault _ | exact out_refused _ | apply out_next | apply wf_dataOp

/-! ### Reach -/

theorem wf_captureLate (a0 : State) (a1 : Who) (a2 : ℕ) (a3 : Leaf) (h0 : cwf a0.mem.dram = true) :
    cwf (captureLate a0 a1 a2 a3).mem.dram = true := by
    unfold captureLate
    repeat' with_reducible first | assumption

theorem wf_translateNeed (a0 : Who) (a1 : Tab Leaf) (a2 : ℕ) (a3 : Kind) (a4 : State) (h4 : cwf a4.mem.dram = true) :
    cwf (translateNeed a0 a1 a2 a3 a4).1.mem.dram = true := by
    unfold translateNeed
    repeat' with_reducible first
      | assumption | intro _ | dsimp only | apply wf_checkLeaf | apply wf_translateLeaf | apply wf_ite | apply wf_ite1
      | split | apply wf_foldl | apply wf_foldl1 | refine wf_of (by assumption) ?_ | apply wf_id

theorem wf_translateNeeds (a0 : Who) (a1 : Tab Leaf) (a2 : List (ℕ × Kind)) (a3 : State) (a4 : PageMap) (a5 : Tab Leaf)
    (h3 : cwf a3.mem.dram = true) :
    cwf (translateNeeds a0 a1 a2 a3 a4 a5).1.mem.dram = true := by
    induction a2 generalizing a0 a1 a3 a4 a5 with
    | nil =>
      unfold translateNeeds
      repeat' with_reducible first
        | assumption | intro _ | dsimp only | apply wf_captureLate | apply wf_translateNeed | apply wf_ite
        | apply wf_ite1 | split | apply wf_foldl | apply wf_foldl1 | refine wf_of (by assumption) ?_ | apply wf_id
    | cons x r ih =>
      unfold translateNeeds
      repeat' with_reducible first
        | assumption | intro _ | dsimp only | apply ih | apply wf_captureLate | apply wf_translateNeed | apply wf_ite
        | apply wf_ite1 | split | apply wf_foldl | apply wf_foldl1 | refine wf_of (by assumption) ?_ | apply wf_id

theorem wf_checkAccessKnown (a0 : State) (a1 : Who) (a2 : Kind) (a3 : Tab Leaf) (a4 : List Item)
    (h0 : cwf a0.mem.dram = true) :
    cwf (checkAccessKnown a0 a1 a2 a3 a4).1.mem.dram = true := by
    unfold checkAccessKnown
    repeat' with_reducible first
      | assumption | intro _ | dsimp only | apply wf_translateNeeds | apply wf_ite | apply wf_ite1 | split
      | apply wf_foldl | apply wf_foldl1 | refine wf_of (by assumption) ?_ | apply wf_id

theorem wf_checkAccess (a0 : State) (a1 : Who) (a2 : Kind) (a3 : List Item) (h0 : cwf a0.mem.dram = true) :
    cwf (checkAccess a0 a1 a2 a3).1.mem.dram = true := by
    unfold checkAccess
    repeat' with_reducible first
      | assumption | intro _ | dsimp only | apply wf_checkAccessKnown | apply wf_ite | apply wf_ite1 | split
      | apply wf_foldl | apply wf_foldl1 | refine wf_of (by assumption) ?_ | apply wf_id

theorem wf_fetchWords (a0 : State) (a1 : Who) (a2 : Rt) (a3 : ℕ) (a4 : ℕ) (h0 : cwf a0.mem.dram = true) :
    cwf (fetchWords a0 a1 a2 a3 a4).1.mem.dram = true := by
    unfold fetchWords
    repeat' with_reducible first
      | assumption | intro _ | dsimp only | apply wf_loadLine | apply wf_ite | apply wf_ite1 | split | apply wf_foldl
      | apply wf_foldl1 | refine wf_of (by assumption) ?_ | apply wf_id

theorem wf_leafSector (a0 : State) (a1 : Who) (a2 : Leaf) (a3 : Rt) (a4 : Bool) (a5 : ℕ) (a6 : Bool) (a7 : Lines)
    (a8 : DWord) (h0 : cwf a0.mem.dram = true) :
    cwf (leafSector a0 a1 a2 a3 a4 a5 a6 a7 a8).1.mem.dram = true := by
    unfold leafSector
    repeat' with_reducible first
      | assumption | intro _ | dsimp only | apply wf_forcePublish | apply wf_fetchWords | apply wf_loadSector
      | apply wf_ite | apply wf_ite1 | split | apply wf_foldl | apply wf_foldl1 | refine wf_of (by assumption) ?_
      | apply wf_id

theorem wf_windowSectorRead (a0 : State) (a1 : Window) (a2 : ℕ) (a3 : BitVec 16) (a4 : Bool) (h0 : cwf a0.mem.dram = true) :
    cwf (windowSectorRead a0 a1 a2 a3 a4).1.mem.dram = true := by
    unfold windowSectorRead
    repeat' with_reducible first
      | assumption | intro _ | dsimp only | apply wf_forcePublish | apply wf_windowFill | apply wf_ite | apply wf_ite1
      | split | apply wf_foldl | apply wf_foldl1 | refine wf_of (by assumption) ?_ | apply wf_id

theorem wf_readSec (a0 : State) (a1 : Who) (a2 : PageMap) (a3 : ℕ) (a4 : Bool) (a5 : Lines) (a6 : Sec) (a7 : BitVec 16)
    (h0 : cwf a0.mem.dram = true) :
    cwf (readSec a0 a1 a2 a3 a4 a5 a6 a7).1.mem.dram = true := by
    unfold readSec
    repeat' with_reducible first
      | assumption | intro _ | dsimp only | apply wf_windowSectorRead | apply wf_leafSector | apply wf_ite
      | apply wf_ite1 | split | apply wf_foldl | apply wf_foldl1 | refine wf_of (by assumption) ?_ | apply wf_id

theorem wf_readSecs (a0 : Who) (a1 : PageMap) (a2 : ℕ) (a3 : Bool) (a4 : List Item) (a5 : List Sec) (a6 : Lines)
    (a7 : State) (a8 : List (Sec × BitVec 512)) (h7 : cwf a7.mem.dram = true) :
    cwf (readSecs a0 a1 a2 a3 a4 a5 a6 a7 a8).1.mem.dram = true := by
    induction a5 generalizing a0 a1 a2 a3 a4 a6 a7 a8 with
    | nil =>
      unfold readSecs
      repeat' with_reducible first
        | assumption | intro _ | dsimp only | apply wf_readSec | apply wf_ite | apply wf_ite1 | split | apply wf_foldl
        | apply wf_foldl1 | refine wf_of (by assumption) ?_ | apply wf_id
    | cons x r ih =>
      unfold readSecs
      repeat' with_reducible first
        | assumption | intro _ | dsimp only | apply ih | apply wf_readSec | apply wf_ite | apply wf_ite1 | split
        | apply wf_foldl | apply wf_foldl1 | refine wf_of (by assumption) ?_ | apply wf_id

theorem wf_countSecs (a0 : Who) (a1 : PageMap) (a2 : List Sec) (a3 : State) (h3 : cwf a3.mem.dram = true) :
    cwf (countSecs a0 a1 a2 a3).mem.dram = true := by
    unfold countSecs
    repeat' with_reducible first
      | assumption | intro _ | dsimp only | apply wf_countRead | apply wf_ite | apply wf_ite1 | split | apply wf_foldl
      | apply wf_foldl1 | refine wf_of (by assumption) ?_ | apply wf_id

theorem wf_readMapped (a0 : State) (a1 : Who) (a2 : PageMap) (a3 : ℕ) (a4 : Bool) (a5 : List (List Item))
    (h0 : cwf a0.mem.dram = true) :
    cwf (readMapped a0 a1 a2 a3 a4 a5).1.mem.dram = true := by
    unfold readMapped
    repeat' with_reducible first
      | assumption | intro _ | dsimp only | apply wf_readSecs | apply wf_countSecs | apply wf_ite | apply wf_ite1
      | split | apply wf_foldl | apply wf_foldl1 | refine wf_of (by assumption) ?_ | apply wf_id

theorem wf_readChecked (a0 : State) (a1 : Who) (a2 : ℕ) (a3 : Bool) (a4 : State → State) (a5 : List Item)
    (h0 : cwf a0.mem.dram = true) (h4 : ∀ z, cwf z.mem.dram = true → cwf (a4 z).mem.dram = true) :
    cwf (readChecked a0 a1 a2 a3 a4 a5).1.mem.dram = true := by
    unfold readChecked
    repeat' with_reducible first
      | assumption | intro _ | dsimp only | apply h4 | apply wf_checkAccess | apply wf_readMapped | apply wf_ite
      | apply wf_ite1 | split | apply wf_foldl | apply wf_foldl1 | refine wf_of (by assumption) ?_ | apply wf_id

theorem wf_readItems (a0 : State) (a1 : Who) (a2 : ℕ) (a3 : Bool) (a4 : List Item) (h0 : cwf a0.mem.dram = true) :
    cwf (readItems a0 a1 a2 a3 a4).1.mem.dram = true := by
    unfold readItems
    repeat' with_reducible first
      | assumption | intro _ | dsimp only | apply wf_readChecked | apply wf_ite | apply wf_ite1 | split
      | apply wf_foldl | apply wf_foldl1 | refine wf_of (by assumption) ?_ | apply wf_id

theorem wf_windowSectorWrite (a0 : State) (a1 : Window) (a2 : ℕ) (a3 : BitVec 512) (a4 : BitVec 64)
    (h0 : cwf a0.mem.dram = true) :
    cwf (windowSectorWrite a0 a1 a2 a3 a4).mem.dram = true := by
    unfold windowSectorWrite
    repeat' with_reducible first
      | assumption | intro _ | dsimp only | apply wf_windowFill | apply wf_metaPass | apply wf_setTeam
      | apply wf_putWindow | apply wf_ite | apply wf_ite1 | split | apply wf_foldl | apply wf_foldl1
      | refine wf_of (by assumption) ?_ | apply wf_id

theorem wf_codecMerge (a0 : State) (a1 : Who) (a2 : ℕ) (a3 : List (ℕ × List Byte)) (h0 : cwf a0.mem.dram = true) :
    cwf (codecMerge a0 a1 a2 a3).1.mem.dram = true := by
    unfold codecMerge
    repeat' with_reducible first
      | assumption | intro _ | dsimp only | apply wf_noteLost | apply wf_corePass | apply wf_evict | apply wf_homeLine
      | apply wf_putLine | apply wf_ite | apply wf_ite1 | split | apply wf_foldl | apply wf_foldl1
      | refine wf_of (by assumption) ?_ | apply wf_id

theorem wf_writeTarget (a0 : State) (a1 : Who) (a2 : Target) (a3 : List Put) (h0 : cwf a0.mem.dram = true) :
    cwf (writeTarget a0 a1 a2 a3).1.mem.dram = true := by
    unfold writeTarget
    repeat' with_reducible first
      | assumption | intro _ | dsimp only | apply wf_setTeam | apply wf_windowSectorWrite | apply wf_codecMerge
      | apply wf_storeSector | apply wf_ite | apply wf_ite1 | split | apply wf_foldl | apply wf_foldl1
      | refine wf_of (by assumption) ?_ | apply wf_id

theorem wf_writeTargets (a0 : Who) (a1 : List Put) (a2 : List Target) (a3 : State) (h3 : cwf a3.mem.dram = true) :
    cwf (writeTargets a0 a1 a2 a3).1.mem.dram = true := by
    induction a2 generalizing a0 a1 a3 with
    | nil =>
      unfold writeTargets
      repeat' with_reducible first
        | assumption | intro _ | dsimp only | apply wf_writeTarget | apply wf_ite | apply wf_ite1 | split
        | apply wf_foldl | apply wf_foldl1 | refine wf_of (by assumption) ?_ | apply wf_id
    | cons x r ih =>
      unfold writeTargets
      repeat' with_reducible first
        | assumption | intro _ | dsimp only | apply ih | apply wf_writeTarget | apply wf_ite | apply wf_ite1 | split
        | apply wf_foldl | apply wf_foldl1 | refine wf_of (by assumption) ?_ | apply wf_id

theorem wf_writeMapped (a0 : State) (a1 : Who) (a2 : PageMap) (a3 : State → State) (a4 : List (Item × List Byte))
    (h0 : cwf a0.mem.dram = true) (h3 : ∀ z, cwf z.mem.dram = true → cwf (a3 z).mem.dram = true) :
    cwf (writeMapped a0 a1 a2 a3 a4).1.mem.dram = true := by
    unfold writeMapped
    repeat' with_reducible first
      | assumption | intro _ | dsimp only | apply h3 | apply wf_writeTargets | apply wf_ite | apply wf_ite1 | split
      | apply wf_foldl | apply wf_foldl1 | refine wf_of (by assumption) ?_ | apply wf_id

theorem wf_writeItems (a0 : State) (a1 : Who) (a2 : State → State) (a3 : List (Item × List Byte))
    (h0 : cwf a0.mem.dram = true) (h2 : ∀ z, cwf z.mem.dram = true → cwf (a2 z).mem.dram = true) :
    cwf (writeItems a0 a1 a2 a3).1.mem.dram = true := by
    unfold writeItems
    repeat' with_reducible first
      | assumption | intro _ | dsimp only | apply h2 | apply wf_checkAccess | apply wf_writeMapped | apply wf_ite
      | apply wf_ite1 | split | apply wf_foldl | apply wf_foldl1 | refine wf_of (by assumption) ?_ | apply wf_id

theorem wf_takeTrouble (a0 : State) (a1 : ℕ) (a2 : Group) (a3 : ℕ) (a4 : Trouble) (h0 : cwf a0.mem.dram = true) :
    cwf (takeTrouble a0 a1 a2 a3 a4).mem.dram = true := by
    unfold takeTrouble
    repeat' with_reducible first
      | assumption | dsimp only | apply wf_pageFault | apply wf_raise | apply wf_ite | apply wf_ite1 | split

theorem wf_putHeld (a0 : State) (a1 : HeldBytes) (h0 : cwf a0.mem.dram = true) :
    cwf (putHeld a0 a1).mem.dram = true := by
    unfold putHeld
    repeat' with_reducible first | assumption

theorem wf_fetchRecord (a0 : State) (a1 : Group) (a2 : ℕ) (a3 : Word) (h0 : cwf a0.mem.dram = true) :
    cwf (fetchRecord a0 a1 a2 a3).1.mem.dram = true := by
    unfold fetchRecord
    repeat' with_reducible first
      | assumption | intro _ | dsimp only | apply wf_translatePages | apply wf_mappedRead | apply wf_putHeld
      | apply wf_drawKeep | apply wf_raise | apply wf_ite | apply wf_ite1 | split | apply wf_foldl | apply wf_foldl1
      | refine wf_of (by assumption) ?_ | apply wf_id

/-! ### Access -/

theorem wf_storeReleases (a0 : Group) (a1 : Order) (a2 : Scope) (a3 : List ℕ) (a4 : State) (h4 : cwf a4.mem.dram = true) :
    cwf (storeReleases a0 a1 a2 a3 a4).mem.dram = true := by
    unfold storeReleases
    repeat' with_reducible first | assumption | dsimp only | apply wf_releaseAt | apply wf_ite | apply wf_ite1 | split

theorem wf_loadAcquire (a0 : Group) (a1 : Order) (a2 : Scope) (a3 : State) (h3 : cwf a3.mem.dram = true) :
    cwf (loadAcquire a0 a1 a2 a3).mem.dram = true := by
    unfold loadAcquire
    repeat' with_reducible first | assumption | dsimp only | apply wf_acquireAt | apply wf_ite

theorem wf_scLoad (a0 : Group) (a1 : Order) (a2 : Scope) (a3 : State) (h3 : cwf a3.mem.dram = true) :
    cwf (scLoad a0 a1 a2 a3).mem.dram = true := by
    unfold scLoad
    repeat' with_reducible first
      | assumption | intro _ | dsimp only | apply wf_acquireAt | apply wf_ite | apply wf_ite1 | split | apply wf_foldl
      | apply wf_foldl1 | refine wf_of (by assumption) ?_ | apply wf_id

theorem wf_scStore (a0 : Group) (a1 : Order) (a2 : Scope) (a3 : State) (h3 : cwf a3.mem.dram = true) :
    cwf (scStore a0 a1 a2 a3).mem.dram = true := by
    unfold scStore
    repeat' with_reducible first
      | assumption | intro _ | dsimp only | apply wf_releaseAt | apply wf_ite | apply wf_ite1 | split | apply wf_foldl
      | apply wf_foldl1 | refine wf_of (by assumption) ?_ | apply wf_id

theorem wf_heldTables (a0 : Group) (a1 : ℕ) (a2 : ℕ) (a3 : List ℤ) (a4 : State) (a5 : List (ℤ × List Byte))
    (h4 : cwf a4.mem.dram = true) :
    cwf (heldTables a0 a1 a2 a3 a4 a5).1.mem.dram = true := by
    induction a3 generalizing a0 a1 a2 a4 a5 with
    | nil =>
      unfold heldTables
      repeat' with_reducible first | assumption
    | cons x r ih =>
      unfold heldTables
      repeat' with_reducible first
        | assumption | dsimp only | apply ih | apply wf_drawKeep | apply wf_ite | apply wf_ite1 | split

theorem wf_loadRuns (a0 : State) (a1 : Group) (a2 : Option Rt) (a3 : Bool) (a4 : State → State) (a5 : ℕ) (a6 : Rec)
    (a7 : NumLocs) (h0 : cwf a0.mem.dram = true) (h4 : ∀ z, cwf z.mem.dram = true → cwf (a4 z).mem.dram = true) :
    cwf (loadRuns a0 a1 a2 a3 a4 a5 a6 a7).1.mem.dram = true := by
    unfold loadRuns
    repeat' with_reducible first
      | assumption | intro _ | dsimp only | apply h4 | apply wf_heldTables | apply wf_checkAccess
      | apply wf_readMapped | apply wf_putHeld | apply wf_raise | apply wf_ite | apply wf_ite1 | split
      | apply wf_foldl | apply wf_foldl1 | refine wf_of (by assumption) ?_ | apply wf_id

theorem wf_loadOp (a0 : State) (a1 : MemOp) (a2 : Option Rt) (a3 : Bool) (h0 : cwf a0.mem.dram = true) :
    OutWf (loadOp a0 a1 a2 a3) := by
    unfold loadOp
    repeat' with_reducible first
      | assumption | intro _ | dsimp only | exact out_fault _ | exact out_refused _ | apply out_next | apply wf_issue
      | apply wf_raiseIllegal | apply wf_fetchRecord | apply wf_finish | apply wf_takeTrouble | apply wf_occupy
      | apply wf_raise | apply wf_loadRuns | apply wf_scLoad | apply wf_loadAcquire | apply wf_setGroup | apply wf_ite
      | apply wf_ite1 | apply out_ite | split | apply wf_foldl | apply wf_foldl1 | refine wf_of (by assumption) ?_
      | apply wf_id

theorem wf_storeBadBlock (a0 : State) (a1 : Group) (h0 : cwf a0.mem.dram = true) :
    cwf (storeBadBlock a0 a1).mem.dram = true := by
    unfold storeBadBlock
    repeat' with_reducible first | assumption | dsimp only | apply wf_endContext

theorem wf_checkStore (a0 : State) (a1 : Who) (a2 : List Item) (a3 : List Item) (h0 : cwf a0.mem.dram = true) :
    cwf (checkStore a0 a1 a2 a3).1.mem.dram = true := by
    unfold checkStore
    repeat' with_reducible first
      | assumption | intro _ | dsimp only | apply wf_checkAccess | apply wf_checkAccessKnown | apply wf_ite
      | apply wf_ite1 | split | apply wf_foldl | apply wf_foldl1 | refine wf_of (by assumption) ?_ | apply wf_id

theorem wf_storeRuns (a0 : State) (a1 : ℕ) (a2 : Group) (a3 : ℕ) (a4 : MemOp) (a5 : Option Rt) (a6 : Rec) (a7 : List ℕ)
    (a8 : List (ℕ × ℕ)) (a9 : NumLocs) (h0 : cwf a0.mem.dram = true) :
    cwf (storeRuns a0 a1 a2 a3 a4 a5 a6 a7 a8 a9).mem.dram = true := by
    unfold storeRuns
    repeat' with_reducible first
      | assumption | intro _ | dsimp only | apply wf_checkStore | apply wf_takeTrouble | apply wf_readMapped
      | apply wf_writeMapped | apply wf_storeReleases | apply wf_storeBadBlock | apply wf_scStore | apply wf_setGroup
      | apply wf_ite | apply wf_ite1 | split | apply wf_foldl | apply wf_foldl1 | refine wf_of (by assumption) ?_
      | apply wf_id

theorem wf_storeOp (a0 : State) (a1 : MemOp) (a2 : Option Rt) (a3 : Bool) (h0 : cwf a0.mem.dram = true) :
    OutWf (storeOp a0 a1 a2 a3) := by
    unfold storeOp
    repeat' with_reducible first
      | assumption | intro _ | dsimp only | exact out_fault _ | exact out_refused _ | apply out_next | apply wf_issue
      | apply wf_raiseIllegal | apply wf_fetchRecord | apply wf_finish | apply wf_takeTrouble | apply wf_occupy
      | apply wf_raise | apply wf_storeRuns | apply wf_ite | apply wf_ite1 | apply out_ite | split | apply wf_foldl
      | apply wf_foldl1 | refine wf_of (by assumption) ?_ | apply wf_id

theorem wf_execLdOwn (a0 : MemOp) (a1 : State) (h1 : cwf a1.mem.dram = true) :
    OutWf (execLdOwn a0 a1) := by
    unfold execLdOwn
    repeat' with_reducible first
      | assumption | dsimp only | exact out_fault _ | exact out_refused _ | apply out_next | apply wf_loadOp

theorem wf_execLdWt (a0 : MemOp) (a1 : State) (h1 : cwf a1.mem.dram = true) :
    OutWf (execLdWt a0 a1) := by
    unfold execLdWt
    repeat' with_reducible first
      | assumption | dsimp only | exact out_fault _ | exact out_refused _ | apply out_next | apply wf_loadOp

theorem wf_execLdSi (a0 : MemOp) (a1 : State) (h1 : cwf a1.mem.dram = true) :
    OutWf (execLdSi a0 a1) := by
    unfold execLdSi
    repeat' with_reducible first
      | assumption | dsimp only | exact out_fault _ | exact out_refused _ | apply out_next | apply wf_loadOp

theorem wf_execLdUc (a0 : MemOp) (a1 : State) (h1 : cwf a1.mem.dram = true) :
    OutWf (execLdUc a0 a1) := by
    unfold execLdUc
    repeat' with_reducible first
      | assumption | dsimp only | exact out_fault _ | exact out_refused _ | apply out_next | apply wf_loadOp

theorem wf_execStOwn (a0 : MemOp) (a1 : State) (h1 : cwf a1.mem.dram = true) :
    OutWf (execStOwn a0 a1) := by
    unfold execStOwn
    repeat' with_reducible first
      | assumption | dsimp only | exact out_fault _ | exact out_refused _ | apply out_next | apply wf_storeOp

theorem wf_execStWt (a0 : MemOp) (a1 : State) (h1 : cwf a1.mem.dram = true) :
    OutWf (execStWt a0 a1) := by
    unfold execStWt
    repeat' with_reducible first
      | assumption | dsimp only | exact out_fault _ | exact out_refused _ | apply out_next | apply wf_storeOp

theorem wf_execStSi (a0 : MemOp) (a1 : State) (h1 : cwf a1.mem.dram = true) :
    OutWf (execStSi a0 a1) := by
    unfold execStSi
    repeat' with_reducible first
      | assumption | dsimp only | exact out_fault _ | exact out_refused _ | apply out_next | apply wf_storeOp

theorem wf_execStUc (a0 : MemOp) (a1 : State) (h1 : cwf a1.mem.dram = true) :
    OutWf (execStUc a0 a1) := by
    unfold execStUc
    repeat' with_reducible first
      | assumption | dsimp only | exact out_fault _ | exact out_refused _ | apply out_next | apply wf_storeOp

theorem wf_execLds (a0 : MemOp) (a1 : State) (h1 : cwf a1.mem.dram = true) :
    OutWf (execLds a0 a1) := by
    unfold execLds
    repeat' with_reducible first
      | assumption | dsimp only | exact out_fault _ | exact out_refused _ | apply out_next | apply wf_loadOp

theorem wf_execSts (a0 : MemOp) (a1 : State) (h1 : cwf a1.mem.dram = true) :
    OutWf (execSts a0 a1) := by
    unfold execSts
    repeat' with_reducible first
      | assumption | dsimp only | exact out_fault _ | exact out_refused _ | apply out_next | apply wf_storeOp

theorem wf_lduOp (a0 : State) (a1 : LduOp) (a2 : Rt) (h0 : cwf a0.mem.dram = true) :
    OutWf (lduOp a0 a1 a2) := by
    unfold lduOp
    repeat' with_reducible first
      | assumption | intro _ | dsimp only | exact out_fault _ | exact out_refused _ | apply out_next | apply wf_issue
      | apply wf_finish | apply wf_occupy | apply wf_readChecked | apply wf_scLoad | apply wf_takeTrouble
      | apply wf_loadAcquire | apply wf_setGroup | apply wf_ite | apply wf_ite1 | apply out_ite | split
      | apply wf_foldl | apply wf_foldl1 | refine wf_of (by assumption) ?_ | apply wf_id

theorem wf_execLduOwn (a0 : LduOp) (a1 : State) (h1 : cwf a1.mem.dram = true) :
    OutWf (execLduOwn a0 a1) := by
    unfold execLduOwn
    repeat' with_reducible first
      | assumption | dsimp only | exact out_fault _ | exact out_refused _ | apply out_next | apply wf_lduOp

theorem wf_execLduWt (a0 : LduOp) (a1 : State) (h1 : cwf a1.mem.dram = true) :
    OutWf (execLduWt a0 a1) := by
    unfold execLduWt
    repeat' with_reducible first
      | assumption | dsimp only | exact out_fault _ | exact out_refused _ | apply out_next | apply wf_lduOp

theorem wf_execLduSi (a0 : LduOp) (a1 : State) (h1 : cwf a1.mem.dram = true) :
    OutWf (execLduSi a0 a1) := by
    unfold execLduSi
    repeat' with_reducible first
      | assumption | dsimp only | exact out_fault _ | exact out_refused _ | apply out_next | apply wf_lduOp

theorem wf_execLduUc (a0 : LduOp) (a1 : State) (h1 : cwf a1.mem.dram = true) :
    OutWf (execLduUc a0 a1) := by
    unfold execLduUc
    repeat' with_reducible first
      | assumption | dsimp only | exact out_fault _ | exact out_refused _ | apply out_next | apply wf_lduOp

theorem wf_prefLane (a0 : State) (a1 : Group) (a2 : ℕ) (a3 : DWord) (h0 : cwf a0.mem.dram = true) :
    cwf (prefLane a0 a1 a2 a3).mem.dram = true := by
    unfold prefLane
    repeat' with_reducible first
      | assumption | intro _ | dsimp only | apply wf_checkAccess | apply wf_windowSectorRead | apply wf_translate
      | apply wf_loadLine | apply wf_loadSector | apply wf_ite | apply wf_ite1 | split | apply wf_foldl
      | apply wf_foldl1 | refine wf_of (by assumption) ?_ | apply wf_id

theorem wf_execPref (a0 : Hdr) (a1 : BitVec 6) (a2 : Bool) (a3 : BitVec 4) (a4 : BitVec 16) (a5 : State)
    (h5 : cwf a5.mem.dram = true) :
    OutWf (execPref a0 a1 a2 a3 a4 a5) := by
    unfold execPref
    repeat' with_reducible first
      | assumption | dsimp only | exact out_fault _ | exact out_refused _ | apply out_next | apply wf_issue
      | apply wf_raiseIllegal | apply wf_translate | apply wf_prefLane | apply wf_finish | apply wf_ite | apply wf_ite1
      | apply out_ite | split | apply wf_foldl | apply wf_foldl1 | intro _

theorem wf_zeroSector (a0 : State) (a1 : Who) (a2 : PageMap) (a3 : DWord) (h0 : cwf a0.mem.dram = true) :
    cwf (zeroSector a0 a1 a2 a3).mem.dram = true := by
    unfold zeroSector
    repeat' with_reducible first
      | assumption | intro _ | dsimp only | apply wf_windowSectorWrite | apply wf_homeWrite | apply wf_metaPass
      | apply wf_dropCopy | apply wf_ite | apply wf_ite1 | split | apply wf_foldl | apply wf_foldl1
      | refine wf_of (by assumption) ?_ | apply wf_id

theorem wf_execZsect (a0 : Hdr) (a1 : BitVec 6) (a2 : Order) (a3 : Scope) (a4 : BitVec 16) (a5 : State)
    (h5 : cwf a5.mem.dram = true) :
    OutWf (execZsect a0 a1 a2 a3 a4 a5) := by
    unfold execZsect
    repeat' with_reducible first
      | assumption | intro _ | dsimp only | exact out_fault _ | exact out_refused _ | apply out_next | apply wf_issue
      | apply wf_raiseIllegal | apply wf_finish | apply wf_occupy | apply wf_checkAccess | apply wf_raise
      | apply wf_takeTrouble | apply wf_storeReleases | apply wf_zeroSector | apply wf_setGroup | apply wf_ite
      | apply wf_ite1 | apply out_ite | split | apply wf_foldl | apply wf_foldl1 | refine wf_of (by assumption) ?_
      | apply wf_id

/-! ### Windows -/

theorem wf_uniformOp (a0 : State) (a1 : Hdr) (a2 : State → ℕ → Group → State × Option (List (ℕ × ℕ)))
    (h0 : cwf a0.mem.dram = true) (h2 : ∀ z a b, cwf z.mem.dram = true → cwf (a2 z a b).1.mem.dram = true) :
    OutWf (uniformOp a0 a1 a2) := by
    unfold uniformOp
    repeat' with_reducible first
      | assumption | dsimp only | apply h2 | exact out_fault _ | exact out_refused _ | apply out_next | apply wf_issue
      | apply wf_finish | apply wf_occupy | apply wf_setGroup | apply wf_ite | apply wf_ite1 | apply out_ite | split
      | apply wf_foldl | apply wf_foldl1 | intro _

theorem wf_execWmap (a0 : Hdr) (a1 : BitVec 7) (a2 : BitVec 6) (a3 : Scope) (a4 : Bool) (a5 : Rt) (a6 : BitVec 16)
    (a7 : State) (h7 : cwf a7.mem.dram = true) :
    OutWf (execWmap a0 a1 a2 a3 a4 a5 a6 a7) := by
    unfold execWmap
    repeat' with_reducible first
      | assumption | intro _ | dsimp only | exact out_fault _ | exact out_refused _ | apply out_next
      | apply wf_uniformOp | apply wf_translatePages | apply wf_pageFault | apply wf_raise | apply wf_evict
      | apply wf_setTeam | apply wf_ite | apply wf_ite1 | apply out_ite | split | apply wf_foldl | apply wf_foldl1
      | refine wf_of (by assumption) ?_ | apply wf_id

theorem wf_bindingOp (a0 : State) (a1 : WinOp) (a2 : State → Window → State) (h0 : cwf a0.mem.dram = true)
    (h2 : ∀ z a, cwf z.mem.dram = true → cwf (a2 z a).mem.dram = true) :
    OutWf (bindingOp a0 a1 a2) := by
    unfold bindingOp
    repeat' with_reducible first
      | assumption | dsimp only | apply h2 | exact out_fault _ | exact out_refused _ | apply out_next
      | apply wf_uniformOp | apply wf_ite | apply wf_ite1 | apply out_ite | split | apply wf_foldl | apply wf_foldl1
      | intro _

theorem wf_execWunmap (a0 : WinOp) (a1 : State) (h1 : cwf a1.mem.dram = true) :
    OutWf (execWunmap a0 a1) := by
    unfold execWunmap
    repeat' with_reducible first
      | assumption | dsimp only | exact out_fault _ | exact out_refused _ | apply out_next | apply wf_bindingOp
      | apply wf_windowFlush | apply wf_setTeam | apply wf_ite | apply wf_ite1 | apply out_ite | split | apply wf_foldl
      | apply wf_foldl1 | intro _

theorem wf_execWflush (a0 : WinOp) (a1 : State) (h1 : cwf a1.mem.dram = true) :
    OutWf (execWflush a0 a1) := by
    unfold execWflush
    repeat' with_reducible first
      | assumption | dsimp only | exact out_fault _ | exact out_refused _ | apply out_next | apply wf_bindingOp
      | apply wf_windowFlush | apply wf_ite | apply wf_ite1 | apply out_ite | split | apply wf_foldl | apply wf_foldl1
      | intro _

theorem wf_execWinv (a0 : WinOp) (a1 : Bool) (a2 : State) (h2 : cwf a2.mem.dram = true) :
    OutWf (execWinv a0 a1 a2) := by
    unfold execWinv
    repeat' with_reducible first
      | assumption | dsimp only | exact out_fault _ | exact out_refused _ | apply out_next | apply wf_bindingOp
      | apply wf_putWindow | apply wf_ite | apply wf_ite1 | apply out_ite | split | apply wf_foldl | apply wf_foldl1
      | intro _

theorem wf_execWstat (a0 : WinOp) (a1 : State) (h1 : cwf a1.mem.dram = true) :
    OutWf (execWstat a0 a1) := by
    unfold execWstat
    repeat' with_reducible first
      | assumption | dsimp only | exact out_fault _ | exact out_refused _ | apply out_next | apply wf_uniformOp
      | apply wf_ite | apply wf_ite1 | apply out_ite | split | apply wf_foldl | apply wf_foldl1 | intro _

theorem wf_maintain (a0 : State) (a1 : ℕ) (a2 : Scope) (a3 : Bool) (a4 : ℕ → Bool) (h0 : cwf a0.mem.dram = true) :
    cwf (maintain a0 a1 a2 a3 a4).mem.dram = true := by
    unfold maintain
    repeat' with_reducible first
      | assumption | dsimp only | apply wf_dropCopy | apply wf_pushCopy | apply wf_ite | apply wf_ite1 | split
      | apply wf_foldl | apply wf_foldl1 | intro _

theorem wf_maintOp (a0 : State) (a1 : MaintOp) (a2 : Bool) (h0 : cwf a0.mem.dram = true) :
    OutWf (maintOp a0 a1 a2) := by
    unfold maintOp
    repeat' with_reducible first
      | assumption | dsimp only | exact out_fault _ | exact out_refused _ | apply out_next | apply wf_uniformOp
      | apply wf_translatePages | apply wf_pageFault | apply wf_raise | apply wf_maintain | apply wf_windowFlush
      | apply wf_putWindow | apply wf_ite | apply wf_ite1 | apply out_ite | split | apply wf_foldl | apply wf_foldl1
      | intro _

theorem wf_execClean (a0 : MaintOp) (a1 : State) (h1 : cwf a1.mem.dram = true) :
    OutWf (execClean a0 a1) := by
    unfold execClean
    repeat' with_reducible first
      | assumption | dsimp only | exact out_fault _ | exact out_refused _ | apply out_next | apply wf_maintOp

theorem wf_execInval (a0 : MaintOp) (a1 : State) (h1 : cwf a1.mem.dram = true) :
    OutWf (execInval a0 a1) := by
    unfold execInval
    repeat' with_reducible first
      | assumption | dsimp only | exact out_fault _ | exact out_refused _ | apply out_next | apply wf_maintOp

/-! ### Atomics -/

theorem wf_takeOwned (a0 : State) (a1 : Who) (a2 : ℕ) (a3 : ℕ) (h0 : cwf a0.mem.dram = true) :
    cwf (takeOwned a0 a1 a2 a3).1.mem.dram = true := by
    unfold takeOwned
    repeat' with_reducible first
      | assumption | intro _ | dsimp only | apply wf_homeRead | apply wf_gainOwned | apply wf_ite | apply wf_ite1
      | split | apply wf_foldl | apply wf_foldl1 | refine wf_of (by assumption) ?_ | apply wf_id

theorem wf_atomRead (a0 : State) (a1 : Who) (a2 : AtomPlace) (a3 : ℕ) (h0 : cwf a0.mem.dram = true) :
    cwf (atomRead a0 a1 a2 a3).1.mem.dram = true := by
    unfold atomRead
    repeat' with_reducible first
      | assumption | intro _ | dsimp only | apply wf_settle | apply wf_evict | apply wf_takeOwned | apply wf_corePass
      | apply wf_clearWay | apply wf_homeRead | apply wf_ite | apply wf_ite1 | split | apply wf_foldl
      | apply wf_foldl1 | refine wf_of (by assumption) ?_ | apply wf_id

theorem wf_atomWrite (a0 : State) (a1 : Who) (a2 : AtomPlace) (a3 : ℕ) (a4 : BitVec 64) (a5 : BitVec 512)
    (h0 : cwf a0.mem.dram = true) :
    cwf (atomWrite a0 a1 a2 a3 a4 a5).mem.dram = true := by
    unfold atomWrite
    repeat' with_reducible first
      | assumption | intro _ | dsimp only | apply wf_storeSector | apply wf_corePass | apply wf_writeOwned
      | apply wf_homeWrite | apply wf_ite | apply wf_ite1 | split | apply wf_foldl | apply wf_foldl1
      | refine wf_of (by assumption) ?_ | apply wf_id

theorem wf_atomLane (a0 : Who) (a1 : PageMap) (a2 : AtomShape) (a3 : State → State) (a4 : State) (a5 : Loc)
    (a6 : AtomAct) (h3 : ∀ z, cwf z.mem.dram = true → cwf (a3 z).mem.dram = true) (h4 : cwf a4.mem.dram = true) :
    cwf (atomLane a0 a1 a2 a3 a4 a5 a6).1.mem.dram = true := by
    unfold atomLane
    repeat' with_reducible first
      | assumption | dsimp only | apply h3 | apply wf_setTeam | apply wf_windowSectorRead | apply wf_windowSectorWrite
      | apply wf_forcePublish | apply wf_atomRead | apply wf_atomWrite | apply wf_ite | apply wf_ite1 | split

theorem wf_atomLanes (a0 : Who) (a1 : PageMap) (a2 : AtomShape) (a3 : ℕ → State → State) (a4 : List (ℕ × Loc × AtomAct))
    (a5 : State) (a6 : List (ℕ × ℕ × Bool)) (h3 : ∀ a z, cwf z.mem.dram = true → cwf (a3 a z).mem.dram = true)
    (h5 : cwf a5.mem.dram = true) :
    cwf (atomLanes a0 a1 a2 a3 a4 a5 a6).1.mem.dram = true := by
    induction a4 generalizing a0 a1 a2 a3 a5 a6 with
    | nil =>
      unfold atomLanes
      repeat' with_reducible first
        | assumption | intro _ | dsimp only | apply h3 | apply wf_atomLane | apply wf_ite | apply wf_ite1 | split
        | apply wf_foldl | apply wf_foldl1 | refine wf_of (by assumption) ?_ | apply wf_id
    | cons x r ih =>
      unfold atomLanes
      repeat' with_reducible first
        | assumption | intro _ | dsimp only | apply h3 | apply ih | apply wf_atomLane | apply wf_ite | apply wf_ite1
        | split | apply wf_foldl | apply wf_foldl1 | refine wf_of (by assumption) ?_ | apply wf_id

theorem wf_atomAccess (a0 : State) (a1 : ℕ) (a2 : Group) (a3 : ℕ) (a4 : AtomShape) (a5 : List (ℕ × Loc × AtomAct))
    (a6 : Group → List (ℕ × ℕ × Bool) → Group) (h0 : cwf a0.mem.dram = true) :
    cwf (atomAccess a0 a1 a2 a3 a4 a5 a6).mem.dram = true := by
    unfold atomAccess
    repeat' with_reducible first
      | assumption | intro _ | dsimp only | apply wf_raise | apply wf_checkAccess | apply wf_takeTrouble
      | apply wf_storeReleases | apply wf_atomLanes | apply wf_scLoad | apply wf_scStore | apply wf_loadAcquire
      | apply wf_setGroup | apply wf_ite | apply wf_ite1 | split | apply wf_foldl | apply wf_foldl1
      | refine wf_of (by assumption) ?_ | apply wf_id

theorem wf_atomOp (a0 : State) (a1 : AtomFields) (a2 : ℕ) (a3 : Bool) (a4 : Group → ℕ → ℕ → AtomAct)
    (h0 : cwf a0.mem.dram = true) :
    OutWf (atomOp a0 a1 a2 a3 a4) := by
    unfold atomOp
    repeat' with_reducible first
      | assumption | dsimp only | exact out_fault _ | exact out_refused _ | apply out_next | apply wf_issue
      | apply wf_raiseIllegal | apply wf_finish | apply wf_atomAccess | apply wf_occupy | apply wf_ite | apply wf_ite1
      | apply out_ite | split | apply wf_foldl | apply wf_foldl1 | intro _

theorem wf_execAtom (a0 : AtomFields) (a1 : State) (h1 : cwf a1.mem.dram = true) :
    OutWf (execAtom a0 a1) := by
    unfold execAtom
    repeat' with_reducible first
      | assumption | dsimp only | exact out_fault _ | exact out_refused _ | apply out_next | apply wf_atomOp

theorem wf_execAtomcas (a0 : AtomFields) (a1 : State) (h1 : cwf a1.mem.dram = true) :
    OutWf (execAtomcas a0 a1) := by
    unfold execAtomcas
    repeat' with_reducible first
      | assumption | dsimp only | exact out_fault _ | exact out_refused _ | apply out_next | apply wf_atomOp

theorem wf_execRed (a0 : AtomFields) (a1 : State) (h1 : cwf a1.mem.dram = true) :
    OutWf (execRed a0 a1) := by
    unfold execRed
    repeat' with_reducible first
      | assumption | dsimp only | exact out_fault _ | exact out_refused _ | apply out_next | apply wf_atomOp

/-! ### Sync -/

theorem wf_fenceLoads (a0 : Group) (a1 : State) (h1 : cwf a1.mem.dram = true) :
    cwf (fenceLoads a0 a1).mem.dram = true := by
    unfold fenceLoads
    repeat' with_reducible first
      | assumption | intro _ | dsimp only | apply wf_forcePublish | apply wf_ite | apply wf_ite1 | split
      | apply wf_foldl | apply wf_foldl1 | refine wf_of (by assumption) ?_ | apply wf_id

theorem wf_execFence (a0 : Hdr) (a1 : Order) (a2 : Scope) (a3 : State) (h3 : cwf a3.mem.dram = true) :
    OutWf (execFence a0 a1 a2 a3) := by
    unfold execFence
    repeat' with_reducible first
      | assumption | intro _ | dsimp only | exact out_fault _ | exact out_refused _ | apply out_next | apply wf_issue
      | apply wf_releaseAt | apply wf_acquireAt | apply wf_fenceLoads | apply wf_finish | apply wf_ite | apply wf_ite1
      | apply out_ite | split | apply wf_foldl | apply wf_foldl1 | refine wf_of (by assumption) ?_ | apply wf_id

theorem wf_execQfence (a0 : Hdr) (a1 : BitVec 6) (a2 : State) (h2 : cwf a2.mem.dram = true) :
    OutWf (execQfence a0 a1 a2) := by
    unfold execQfence
    repeat' with_reducible first
      | assumption | dsimp only | exact out_fault _ | exact out_refused _ | apply out_next | apply wf_issue
      | apply wf_takeId | apply wf_setCore | apply wf_finish | apply wf_ite | apply wf_ite1 | apply out_ite | split
      | apply wf_foldl | apply wf_foldl1 | intro _

theorem wf_arriveBar (a0 : State) (a1 : ℕ) (a2 : Group) (a3 : Hdr) (a4 : Bool) (a5 : ℕ) (h0 : cwf a0.mem.dram = true) :
    cwf (arriveBar a0 a1 a2 a3 a4 a5).mem.dram = true := by
    unfold arriveBar
    repeat' with_reducible first
      | assumption | dsimp only | apply wf_releaseAt | apply wf_occupy | apply wf_setTeam | apply wf_park
      | apply wf_settleBarrier | apply wf_ite | apply wf_ite1 | split

theorem wf_execBarTeam (a0 : Hdr) (a1 : BitVec 4) (a2 : State) (h2 : cwf a2.mem.dram = true) :
    OutWf (execBarTeam a0 a1 a2) := by
    unfold execBarTeam
    repeat' with_reducible first
      | assumption | dsimp only | exact out_fault _ | exact out_refused _ | apply out_next | apply wf_issue
      | apply wf_arriveBar | apply wf_ite | apply wf_ite1 | apply out_ite | split | apply wf_foldl | apply wf_foldl1
      | intro _

theorem wf_execBarRole (a0 : Hdr) (a1 : BitVec 4) (a2 : State) (h2 : cwf a2.mem.dram = true) :
    OutWf (execBarRole a0 a1 a2) := by
    unfold execBarRole
    repeat' with_reducible first
      | assumption | dsimp only | exact out_fault _ | exact out_refused _ | apply out_next | apply wf_issue
      | apply wf_arriveBar | apply wf_ite | apply wf_ite1 | apply out_ite | split | apply wf_foldl | apply wf_foldl1
      | intro _

theorem wf_departBough (a0 : State) (a1 : ℕ) (h0 : cwf a0.mem.dram = true) :
    cwf (departBough a0 a1).mem.dram = true := by
    unfold departBough
    repeat' with_reducible first
      | assumption | dsimp only | apply wf_acquireAt | apply wf_leaveWait | apply wf_ite | apply wf_ite1 | split

theorem wf_settleBough (a0 : State) (a1 : ℕ) (a2 : ℕ) (a3 : ℕ) (h0 : cwf a0.mem.dram = true) :
    cwf (settleBough a0 a1 a2 a3).mem.dram = true := by
    unfold settleBough
    repeat' with_reducible first
      | assumption | dsimp only | apply wf_departBough | apply wf_ite | apply wf_ite1 | split | apply wf_foldl

theorem wf_execBbar (a0 : Hdr) (a1 : BitVec 4) (a2 : Src) (a3 : State) (h3 : cwf a3.mem.dram = true) :
    OutWf (execBbar a0 a1 a2 a3) := by
    unfold execBbar
    repeat' with_reducible first
      | assumption | dsimp only | exact out_fault _ | exact out_refused _ | apply out_next | apply wf_issue
      | apply wf_raiseIllegal | apply wf_occupy | apply wf_setGroup | apply wf_park | apply wf_releaseAt
      | apply wf_settleBough | apply wf_ite | apply wf_ite1 | apply out_ite | split | apply wf_foldl | apply wf_foldl1
      | intro _

theorem wf_execBbarEntryFree (a0 : ℕ) (a1 : State) (h1 : cwf a1.mem.dram = true) :
    OutWf (execBbarEntryFree a0 a1) := by
    unfold execBbarEntryFree
    repeat' with_reducible first
      | assumption | dsimp only | exact out_fault _ | exact out_refused _ | apply out_next | apply wf_retryWait
      | apply wf_ite | apply wf_ite1 | apply out_ite | split

theorem wf_fetchDatum (a0 : State) (a1 : ℕ) (a2 : ℕ) (a3 : ℕ) (a4 : Bool) (h0 : cwf a0.mem.dram = true) :
    cwf (fetchDatum a0 a1 a2 a3 a4).1.mem.dram = true := by
    unfold fetchDatum
    repeat' with_reducible first
      | assumption | intro _ | dsimp only | apply wf_clearWay | apply wf_forcePublish | apply wf_homeExpanded
      | apply wf_homeRead | apply wf_ite | apply wf_ite1 | split | apply wf_foldl | apply wf_foldl1
      | refine wf_of (by assumption) ?_ | apply wf_id

theorem wf_readTest (a0 : ℕ) (a1 : ℕ) (a2 : ℕ) (a3 : List (ℕ × ℕ × Bool × ℕ)) (a4 : Fetched) (a5 : State)
    (a6 : List (ℕ × ℕ × ℕ)) (h5 : cwf a5.mem.dram = true) :
    cwf (readTest a0 a1 a2 a3 a4 a5 a6).1.mem.dram = true := by
    induction a3 generalizing a0 a1 a2 a4 a5 a6 with
    | nil =>
      unfold readTest
      repeat' with_reducible first
        | assumption | intro _ | dsimp only | apply wf_fetchDatum | apply wf_ite | apply wf_ite1 | split
        | apply wf_foldl | apply wf_foldl1 | refine wf_of (by assumption) ?_ | apply wf_id
    | cons x r ih =>
      unfold readTest
      repeat' with_reducible first
        | assumption | intro _ | dsimp only | apply ih | apply wf_fetchDatum | apply wf_ite | apply wf_ite1 | split
        | apply wf_foldl | apply wf_foldl1 | refine wf_of (by assumption) ?_ | apply wf_id

theorem wf_testRead (a0 : State) (a1 : Group) (a2 : WatchTest) (h0 : cwf a0.mem.dram = true) :
    cwf (testRead a0 a1 a2).1.mem.dram = true := by
    unfold testRead
    repeat' with_reducible first
      | assumption | intro _ | dsimp only | apply wf_readTest | apply wf_ite | apply wf_ite1 | split | apply wf_foldl
      | apply wf_foldl1 | refine wf_of (by assumption) ?_ | apply wf_id

theorem wf_completeWait (a0 : State) (a1 : ℕ) (a2 : Group) (a3 : WatchTest) (a4 : List (ℕ × ℕ × ℕ)) (a5 : Bool)
    (h0 : cwf a0.mem.dram = true) :
    cwf (completeWait a0 a1 a2 a3 a4 a5).mem.dram = true := by
    unfold completeWait
    repeat' with_reducible first
      | assumption | dsimp only | apply wf_leaveWait | apply wf_setGroup | apply wf_acquireAt | apply wf_ite

theorem wf_watchTest (a0 : State) (a1 : ℕ) (a2 : Group) (a3 : WatchTest) (h0 : cwf a0.mem.dram = true) :
    cwf (watchTest a0 a1 a2 a3).mem.dram = true := by
    unfold watchTest
    repeat' with_reducible first
      | assumption | intro _ | dsimp only | apply wf_testRead | apply wf_setGroup | apply wf_takeTrouble
      | apply wf_completeWait | apply wf_ite | apply wf_ite1 | split | apply wf_foldl | apply wf_foldl1
      | refine wf_of (by assumption) ?_ | apply wf_id

theorem wf_startWait (a0 : State) (a1 : ℕ) (a2 : Group) (a3 : ℕ) (a4 : WatchTest) (h0 : cwf a0.mem.dram = true) :
    cwf (startWait a0 a1 a2 a3 a4).mem.dram = true := by
    unfold startWait
    repeat' with_reducible first
      | assumption | intro _ | dsimp only | apply wf_testRead | apply wf_takeTrouble | apply wf_acquireAt
      | apply wf_setGroup | apply wf_park | apply wf_watchTest | apply wf_ite | apply wf_ite1 | split | apply wf_foldl
      | apply wf_foldl1 | refine wf_of (by assumption) ?_ | apply wf_id

theorem wf_execMwait (a0 : MwaitOp) (a1 : State) (h1 : cwf a1.mem.dram = true) :
    OutWf (execMwait a0 a1) := by
    unfold execMwait
    repeat' with_reducible first
      | assumption | dsimp only | exact out_fault _ | exact out_refused _ | apply out_next | apply wf_issue
      | apply wf_raiseIllegal | apply wf_finish | apply wf_occupy | apply wf_translatePages | apply wf_raise
      | apply wf_pageFault | apply wf_startWait | apply wf_ite | apply wf_ite1 | apply out_ite | split | apply wf_foldl
      | apply wf_foldl1 | intro _

theorem wf_execMwaitRetest (a0 : ℕ) (a1 : State) (h1 : cwf a1.mem.dram = true) :
    OutWf (execMwaitRetest a0 a1) := by
    unfold execMwaitRetest
    repeat' with_reducible first
      | assumption | intro _ | dsimp only | exact out_fault _ | exact out_refused _ | apply out_next
      | apply wf_watchTest | apply wf_ite | apply wf_ite1 | apply out_ite | split | apply wf_foldl | apply wf_foldl1
      | refine wf_of (by assumption) ?_ | apply wf_id

theorem wf_execMwaitOverflowExpiry (a0 : ℕ) (a1 : State) (h1 : cwf a1.mem.dram = true) :
    OutWf (execMwaitOverflowExpiry a0 a1) := by
    unfold execMwaitOverflowExpiry
    repeat' with_reducible first
      | assumption | intro _ | dsimp only | exact out_fault _ | exact out_refused _ | apply out_next
      | apply wf_testRead | apply wf_takeTrouble | apply wf_completeWait | apply wf_ite | apply wf_ite1
      | apply out_ite | split | apply wf_foldl | apply wf_foldl1 | refine wf_of (by assumption) ?_ | apply wf_id

theorem wf_barrierUpdate (a0 : State) (a1 : ℕ) (a2 : ℕ) (a3 : BitVec 16) (a4 : ℕ × ℕ × ℕ → ℕ × ℕ × ℕ)
    (h0 : cwf a0.mem.dram = true) :
    cwf (barrierUpdate a0 a1 a2 a3 a4).1.mem.dram = true := by
    unfold barrierUpdate
    repeat' with_reducible first | assumption | dsimp only | apply wf_homeRead | apply wf_homeWrite

theorem wf_tbOp (a0 : State) (a1 : TbOp) (a2 : State → ℕ → Group → ℕ → Leaf → State) (h0 : cwf a0.mem.dram = true)
    (h2 : ∀ z a b c d, cwf z.mem.dram = true → cwf (a2 z a b c d).mem.dram = true) :
    OutWf (tbOp a0 a1 a2) := by
    unfold tbOp
    repeat' with_reducible first
      | assumption | intro _ | dsimp only | apply h2 | exact out_fault _ | exact out_refused _ | apply out_next
      | apply wf_issue | apply wf_finish | apply wf_occupy | apply wf_translateLeaf | apply wf_raise
      | apply wf_takeTrouble | apply wf_clearWay | apply wf_ite | apply wf_ite1 | apply out_ite | split
      | apply wf_foldl | apply wf_foldl1 | refine wf_of (by assumption) ?_ | apply wf_id

theorem wf_execTbinit (a0 : TbOp) (a1 : State) (h1 : cwf a1.mem.dram = true) :
    OutWf (execTbinit a0 a1) := by
    unfold execTbinit
    repeat' with_reducible first
      | assumption | intro _ | dsimp only | exact out_fault _ | exact out_refused _ | apply out_next | apply wf_tbOp
      | apply wf_storeReleases | apply wf_barrierUpdate | apply wf_setGroup | apply wf_ite | apply wf_ite1
      | apply out_ite | split | apply wf_foldl | apply wf_foldl1 | refine wf_of (by assumption) ?_ | apply wf_id

theorem wf_execTbarr (a0 : TbOp) (a1 : State) (h1 : cwf a1.mem.dram = true) :
    OutWf (execTbarr a0 a1) := by
    unfold execTbarr
    repeat' with_reducible first
      | assumption | intro _ | dsimp only | exact out_fault _ | exact out_refused _ | apply out_next | apply wf_tbOp
      | apply wf_storeReleases | apply wf_barrierUpdate | apply wf_setGroup | apply wf_ite | apply wf_ite1
      | apply out_ite | split | apply wf_foldl | apply wf_foldl1 | refine wf_of (by assumption) ?_ | apply wf_id

theorem wf_execTbwait (a0 : TbOp) (a1 : State) (h1 : cwf a1.mem.dram = true) :
    OutWf (execTbwait a0 a1) := by
    unfold execTbwait
    repeat' with_reducible first
      | assumption | dsimp only | exact out_fault _ | exact out_refused _ | apply out_next | apply wf_tbOp
      | apply wf_startWait | apply wf_ite | apply wf_ite1 | apply out_ite | split | apply wf_foldl | apply wf_foldl1
      | intro _

theorem wf_wakeMbx (a0 : State) (a1 : ℕ) (a2 : ℕ) (h0 : cwf a0.mem.dram = true) :
    cwf (wakeMbx a0 a1 a2).mem.dram = true := by
    unfold wakeMbx
    repeat' with_reducible first | assumption

theorem wf_execMailboxWake (a0 : ℕ) (a1 : ℕ) (a2 : State) (h2 : cwf a2.mem.dram = true) :
    OutWf (execMailboxWake a0 a1 a2) := by
    unfold execMailboxWake
    repeat' with_reducible first
      | assumption | dsimp only | exact out_fault _ | exact out_refused _ | apply out_next | apply wf_setTeam
      | apply wf_leaveWait | apply wf_setGroup | apply wf_wakeMbx | apply wf_acquireAt | apply wf_releaseAt
      | apply wf_ite | apply wf_ite1 | apply out_ite | split

theorem wf_execMbxw (a0 : Hdr) (a1 : BitVec 5) (a2 : Src) (a3 : State) (h3 : cwf a3.mem.dram = true) :
    OutWf (execMbxw a0 a1 a2 a3) := by
    unfold execMbxw
    repeat' with_reducible first
      | assumption | dsimp only | exact out_fault _ | exact out_refused _ | apply out_next | apply wf_issue
      | apply wf_raiseIllegal | apply wf_occupy | apply wf_park | apply wf_releaseAt | apply wf_setTeam
      | apply wf_wakeMbx | apply wf_setGroup | apply wf_finish | apply wf_ite | apply wf_ite1 | apply out_ite | split
      | apply wf_foldl | apply wf_foldl1 | intro _

theorem wf_execMbxr (a0 : Hdr) (a1 : BitVec 5) (a2 : Dst) (a3 : State) (h3 : cwf a3.mem.dram = true) :
    OutWf (execMbxr a0 a1 a2 a3) := by
    unfold execMbxr
    repeat' with_reducible first
      | assumption | dsimp only | exact out_fault _ | exact out_refused _ | apply out_next | apply wf_issue
      | apply wf_raiseIllegal | apply wf_occupy | apply wf_setTeam | apply wf_wakeMbx | apply wf_acquireAt
      | apply wf_setGroup | apply wf_park | apply wf_finish | apply wf_ite | apply wf_ite1 | apply out_ite | split
      | apply wf_foldl | apply wf_foldl1 | intro _

theorem wf_execMbxp (a0 : Hdr) (a1 : BitVec 5) (a2 : Dst) (a3 : PSel) (a4 : State) (h4 : cwf a4.mem.dram = true) :
    OutWf (execMbxp a0 a1 a2 a3 a4) := by
    unfold execMbxp
    repeat' with_reducible first
      | assumption | dsimp only | exact out_fault _ | exact out_refused _ | apply out_next | apply wf_issue
      | apply wf_raiseIllegal | apply wf_finish | apply wf_acquireAt | apply wf_ite | apply wf_ite1 | apply out_ite
      | split | apply wf_foldl | apply wf_foldl1 | intro _

/-! ### Cursor -/

theorem wf_Walker_s (a0 : Walker) (h0 : cwf a0.s.mem.dram = true) :
    cwf (Walker.s a0).mem.dram = true := by
    unfold Walker.s
    repeat' with_reducible first | assumption

theorem wf_Walker_start (a0 : State) (a1 : Group) (h0 : cwf a0.mem.dram = true) :
    cwf (Walker.start a0 a1).s.mem.dram = true := by
    unfold Walker.start
    repeat' with_reducible first
      | assumption | intro _ | dsimp only | apply wf_Walker_s | apply wf_ite | apply wf_ite1 | split | apply wf_foldl
      | apply wf_foldl1 | refine wf_of (by assumption) ?_ | apply wf_id

theorem wf_tryWalk {α : Type} (a1 : Wm α) (h1 : WmWf a1) :
    WmWf (tryWalk a1) := by
    intro k hk
    have h := h1 k hk
    change cwf (a1 k).2.s.mem.dram = true at h
    rcases hr : a1 k with ⟨r, k'⟩
    have ht : tryWalk a1 k = (.ok (match r with | .ok a => .ok a | .error e => .error e), k') := by
      unfold tryWalk
      simp only [tryCatch, tryCatchThe, MonadExceptOf.tryCatch, ExceptT.tryCatch, ExceptT.bind, ExceptT.mk, bind, StateT.bind, hr]
      cases r <;> rfl
    show cwf (tryWalk a1 k).2.s.mem.dram = true
    rw [ht]
    rw [hr] at h
    cases r <;> exact h

theorem wf_stateUnless {α : Type} (a1 : Bool) (a2 : Wm α) (h2 : WmWf a2) :
    WmWf (stateUnless a1 a2) := by
    unfold stateUnless
    repeat' with_reducible first
      | assumption | intro _ | dsimp only | apply h2 | exact keeps_pure _ | exact keeps_throw _ | apply keeps_get
      | apply keeps_set | apply keeps_bind | apply keeps_ite | apply keeps_mapM | apply keeps_forIn | apply wf_tryWalk
      | apply wf_ite | apply wf_ite1 | split | apply wf_foldl | apply wf_foldl1 | refine wf_of (by assumption) ?_
      | apply wf_id

theorem wf_bothWalk {α : Type} {β : Type} (a2 : Wm α) (a3 : Wm β) (h2 : WmWf a2) (h3 : WmWf a3) :
    WmWf (bothWalk a2 a3) := by
    unfold bothWalk
    repeat' with_reducible first
      | assumption | intro _ | dsimp only | apply h2 | apply h3 | exact keeps_pure _ | exact keeps_throw _
      | apply keeps_get | apply keeps_set | apply keeps_bind | apply keeps_ite | apply keeps_mapM | apply keeps_forIn
      | apply wf_tryWalk | apply wf_ite | apply wf_ite1 | split | apply wf_foldl | apply wf_foldl1
      | refine wf_of (by assumption) ?_ | apply wf_id

theorem wf_walkHome (a0 : State) (a1 : ℕ) (a2 : ℕ) (h0 : cwf a0.mem.dram = true) :
    cwf (walkHome a0 a1 a2).1.mem.dram = true := by
    unfold walkHome
    repeat' with_reducible first
      | assumption | intro _ | dsimp only | apply wf_homeRead | apply wf_clearWay | apply wf_Walker_s | apply wf_ite
      | apply wf_ite1 | split | apply wf_foldl | apply wf_foldl1 | refine wf_of (by assumption) ?_ | apply wf_id

theorem wf_metaSector (a0 : State) (a1 : ℕ) (a2 : ℕ) (h0 : cwf a0.mem.dram = true) :
    cwf (metaSector a0 a1 a2).1.mem.dram = true := by
    unfold metaSector
    repeat' with_reducible first
      | assumption | intro _ | dsimp only | apply wf_walkHome | apply wf_putHeld | apply wf_drawKeep
      | apply wf_Walker_s | apply wf_ite | apply wf_ite1 | split | apply wf_foldl | apply wf_foldl1
      | refine wf_of (by assumption) ?_ | apply wf_id

theorem wf_walkPage (a0 : DWord) :
    WmWf (walkPage a0) := by
    unfold walkPage
    repeat' with_reducible first
      | assumption | dsimp only | exact keeps_pure _ | exact keeps_throw _ | apply keeps_get | apply keeps_set
      | apply keeps_bind | apply keeps_ite | apply keeps_mapM | apply keeps_forIn | apply wf_id | apply wf_translate
      | apply wf_Walker_s | apply wf_ite | apply wf_ite1 | split | intro _

theorem wf_walkWindow (a0 : Window) (a1 : DWord) (a2 : ℕ) :
    WmWf (walkWindow a0 a1 a2) := by
    unfold walkWindow
    repeat' with_reducible first
      | assumption | intro _ | dsimp only | exact keeps_pure _ | exact keeps_throw _ | apply keeps_get
      | apply keeps_set | apply keeps_bind | apply keeps_ite | apply keeps_mapM | apply keeps_forIn
      | apply wf_windowSectorRead | apply wf_Walker_s | apply wf_walkPage | apply wf_captureLate | apply wf_ite
      | apply wf_ite1 | split | apply wf_foldl | apply wf_foldl1 | refine wf_of (by assumption) ?_ | apply wf_id

theorem wf_walkLine (a0 : ℕ) (a1 : DWord) (a2 : ℕ) :
    WmWf (walkLine a0 a1 a2) := by
    unfold walkLine
    repeat' with_reducible first
      | assumption | intro _ | dsimp only | exact keeps_pure _ | exact keeps_throw _ | apply keeps_get
      | apply keeps_set | apply keeps_bind | apply keeps_ite | apply keeps_mapM | apply keeps_forIn
      | apply wf_fetchWords | apply wf_Walker_s | apply wf_ite | apply wf_ite1 | split | apply wf_foldl
      | apply wf_foldl1 | refine wf_of (by assumption) ?_ | apply wf_id

theorem wf_walkPiece (a0 : DWord) (a1 : ℕ) :
    WmWf (walkPiece a0 a1) := by
    unfold walkPiece
    repeat' with_reducible first
      | assumption | intro _ | dsimp only | exact keeps_pure _ | exact keeps_throw _ | apply keeps_get
      | apply keeps_set | apply keeps_bind | apply keeps_ite | apply keeps_mapM | apply keeps_forIn
      | apply wf_Walker_s | apply wf_walkWindow | apply wf_walkPage | apply wf_walkLine | apply wf_walkHome
      | apply wf_metaSector | apply wf_ite | apply wf_ite1 | split | apply wf_foldl | apply wf_foldl1
      | refine wf_of (by assumption) ?_ | apply wf_id

theorem wf_noteWalk (a0 : List DWord) :
    WmWf (noteWalk a0) := fun _ h => h

theorem wf_walkRead (a0 : ℕ) (a1 : ℕ) :
    WmWf (walkRead a0 a1) := by
    unfold walkRead
    repeat' with_reducible first
      | assumption | intro _ | dsimp only | exact keeps_pure _ | exact keeps_throw _ | apply keeps_get
      | apply keeps_set | apply keeps_bind | apply keeps_ite | apply keeps_mapM | apply keeps_forIn
      | apply wf_walkPiece | apply wf_noteWalk | apply wf_bothWalk | apply wf_ite | apply wf_ite1 | split
      | apply wf_foldl | apply wf_foldl1 | refine wf_of (by assumption) ?_ | apply wf_id

theorem wf_walkRecord (a0 : DWord) :
    WmWf (walkRecord a0) := by
    unfold walkRecord
    repeat' with_reducible first
      | assumption | dsimp only | exact keeps_pure _ | exact keeps_throw _ | apply keeps_get | apply keeps_set
      | apply keeps_bind | apply keeps_ite | apply keeps_mapM | apply keeps_forIn | apply wf_id | apply wf_putHeld
      | apply wf_Walker_s | apply wf_walkRead | apply wf_drawKeep | apply wf_ite | apply wf_ite1 | split | intro _

theorem wf_captureRecord (a0 : DWord) :
    WmWf (captureRecord a0) := by
    unfold captureRecord
    repeat' with_reducible first
      | assumption | dsimp only | exact keeps_pure _ | exact keeps_throw _ | apply keeps_get | apply keeps_set
      | apply keeps_bind | apply keeps_ite | apply keeps_mapM | apply keeps_forIn | apply wf_id | apply wf_walkRecord
      | apply wf_ite | apply wf_ite1 | split | intro _

theorem wf_readP (a0 : Lvl) (a1 : ℕ) :
    WmWf (readP a0 a1) := by
    unfold readP
    repeat' with_reducible first
      | assumption | dsimp only | exact keeps_pure _ | exact keeps_throw _ | apply keeps_get | apply keeps_set
      | apply keeps_bind | apply keeps_ite | apply keeps_mapM | apply keeps_forIn | apply wf_id | apply wf_walkRead
      | apply wf_ite | apply wf_ite1 | split | intro _

theorem wf_readC (a0 : Lvl) (a1 : ℕ) :
    WmWf (readC a0 a1) := by
    unfold readC
    repeat' with_reducible first
      | assumption | dsimp only | exact keeps_pure _ | exact keeps_throw _ | apply keeps_get | apply keeps_set
      | apply keeps_bind | apply keeps_ite | apply keeps_mapM | apply keeps_forIn | apply wf_id | apply wf_walkRead

theorem wf_readRun (a0 : Lvl) (a1 : ℕ) :
    WmWf (readRun a0 a1) := by
    unfold readRun
    repeat' with_reducible first
      | assumption | dsimp only | exact keeps_pure _ | exact keeps_throw _ | apply keeps_get | apply keeps_set
      | apply keeps_bind | apply keeps_ite | apply keeps_mapM | apply keeps_forIn | apply wf_id | apply wf_walkRead
      | apply wf_ite | apply wf_ite1 | split | intro _

theorem wf_nextBit (a0 : Lvl) (a1 : ℕ) (a2 : ℕ) (a3 : ℕ) :
    WmWf (nextBit a0 a1 a2 a3) := by
    induction a2 generalizing a0 a1 a3 with
    | zero =>
      unfold nextBit
      repeat' with_reducible first | assumption | dsimp only | exact keeps_pure _
    | succ n ih =>
      unfold nextBit
      repeat' with_reducible first
        | assumption | dsimp only | apply ih | exact keeps_pure _ | exact keeps_throw _ | apply keeps_get
        | apply keeps_set | apply keeps_bind | apply keeps_ite | apply keeps_mapM | apply keeps_forIn | apply wf_id
        | apply wf_walkRead | apply wf_ite | apply wf_ite1 | split | intro _

theorem wf_nextSlot (a0 : Lvl) (a1 : ℕ) (a2 : ℕ) (a3 : ℕ) :
    WmWf (nextSlot a0 a1 a2 a3) := by
    induction a2 generalizing a0 a1 a3 with
    | zero =>
      unfold nextSlot
      repeat' with_reducible first | assumption | dsimp only | exact keeps_pure _
    | succ n ih =>
      unfold nextSlot
      repeat' with_reducible first
        | assumption | dsimp only | apply ih | exact keeps_pure _ | exact keeps_throw _ | apply keeps_get
        | apply keeps_set | apply keeps_bind | apply keeps_ite | apply keeps_mapM | apply keeps_forIn | apply wf_id
        | apply wf_readC | apply wf_ite | apply wf_ite1 | split | intro _

theorem wf_standAt (a0 : Lvl) (a1 : Cur) :
    WmWf (standAt a0 a1) := by
    unfold standAt
    repeat' with_reducible first
      | assumption | dsimp only | exact keeps_pure _ | exact keeps_throw _ | apply keeps_get | apply keeps_set
      | apply keeps_bind | apply keeps_ite | apply keeps_mapM | apply keeps_forIn | apply wf_id | apply wf_walkRead
      | apply wf_readC | apply wf_nextSlot | apply wf_ite | apply wf_ite1 | split | intro _

theorem wf_enterFibre (a0 : Lvl) (a1 : DWord) (a2 : ℕ) :
    WmWf (enterFibre a0 a1 a2) := by
    unfold enterFibre
    repeat' with_reducible first
      | assumption | intro _ | dsimp only | exact keeps_pure _ | exact keeps_throw _ | apply keeps_get
      | apply keeps_set | apply keeps_bind | apply keeps_ite | apply keeps_mapM | apply keeps_forIn | apply wf_standAt
      | apply wf_bothWalk | apply wf_readP | apply wf_nextBit | apply wf_ite | apply wf_ite1 | split | apply wf_foldl
      | apply wf_foldl1 | refine wf_of (by assumption) ?_ | apply wf_id

theorem wf_stepCursor (a0 : Lvl) (a1 : Cur) :
    WmWf (stepCursor a0 a1) := by
    unfold stepCursor
    repeat' with_reducible first
      | assumption | dsimp only | exact keeps_pure _ | exact keeps_throw _ | apply keeps_get | apply keeps_set
      | apply keeps_bind | apply keeps_ite | apply keeps_mapM | apply keeps_forIn | apply wf_id | apply wf_nextBit
      | apply wf_readRun | apply wf_readC | apply wf_standAt | apply wf_walkRead | apply wf_ite | apply wf_ite1 | split
      | intro _

theorem wf_seekCrd (a0 : Lvl) (a1 : ℕ) (a2 : ℕ) (a3 : Cur) :
    WmWf (seekCrd a0 a1 a2 a3) := by
    induction a2 generalizing a0 a1 a3 with
    | zero =>
      unfold seekCrd
      repeat' with_reducible first
        | assumption | intro _ | dsimp only | exact keeps_pure _ | exact keeps_throw _ | apply keeps_get
        | apply keeps_set | apply keeps_bind | apply keeps_ite | apply keeps_mapM | apply keeps_forIn | apply wf_readC
        | apply wf_ite | apply wf_ite1 | split | apply wf_foldl | apply wf_foldl1 | refine wf_of (by assumption) ?_
        | apply wf_id
    | succ n ih =>
      unfold seekCrd
      repeat' with_reducible first
        | assumption | intro _ | dsimp only | exact keeps_pure _ | exact keeps_throw _ | apply keeps_get
        | apply keeps_set | apply keeps_bind | apply keeps_ite | apply keeps_mapM | apply keeps_forIn | apply ih
        | apply wf_readC | apply wf_ite | apply wf_ite1 | split | apply wf_foldl | apply wf_foldl1
        | refine wf_of (by assumption) ?_ | apply wf_id

theorem wf_seekBits (a0 : Lvl) (a1 : ℕ) (a2 : ℕ) (a3 : ℕ) (a4 : Cur) :
    WmWf (seekBits a0 a1 a2 a3 a4) := by
    induction a2 generalizing a0 a1 a3 a4 with
    | zero =>
      unfold seekBits
      repeat' with_reducible first
        | assumption | intro _ | dsimp only | exact keeps_pure _ | exact keeps_throw _ | apply keeps_get
        | apply keeps_set | apply keeps_bind | apply keeps_ite | apply keeps_mapM | apply keeps_forIn
        | apply wf_nextBit | apply wf_ite | apply wf_ite1 | split | apply wf_foldl | apply wf_foldl1
        | refine wf_of (by assumption) ?_ | apply wf_id
    | succ n ih =>
      unfold seekBits
      repeat' with_reducible first
        | assumption | intro _ | dsimp only | exact keeps_pure _ | exact keeps_throw _ | apply keeps_get
        | apply keeps_set | apply keeps_bind | apply keeps_ite | apply keeps_mapM | apply keeps_forIn | apply ih
        | apply wf_nextBit | apply wf_ite | apply wf_ite1 | split | apply wf_foldl | apply wf_foldl1
        | refine wf_of (by assumption) ?_ | apply wf_id

theorem wf_seekLoop (a0 : Lvl) (a1 : ℕ) (a2 : ℕ) (a3 : Cur) :
    WmWf (seekLoop a0 a1 a2 a3) := by
    induction a2 generalizing a0 a1 a3 with
    | zero =>
      unfold seekLoop
      repeat' with_reducible first | assumption | dsimp only | exact keeps_pure _
    | succ n ih =>
      unfold seekLoop
      repeat' with_reducible first
        | assumption | dsimp only | apply ih | exact keeps_pure _ | exact keeps_throw _ | apply keeps_get
        | apply keeps_set | apply keeps_bind | apply keeps_ite | apply keeps_mapM | apply keeps_forIn | apply wf_id
        | apply wf_stepCursor

theorem wf_seekCursor (a0 : Lvl) (a1 : Cur) (a2 : ℕ) :
    WmWf (seekCursor a0 a1 a2) := by
    unfold seekCursor
    repeat' with_reducible first
      | assumption | intro _ | dsimp only | exact keeps_pure _ | exact keeps_throw _ | apply keeps_get
      | apply keeps_set | apply keeps_bind | apply keeps_ite | apply keeps_mapM | apply keeps_forIn | apply wf_seekCrd
      | apply wf_seekBits | apply wf_seekLoop | apply wf_ite | apply wf_ite1 | split | apply wf_foldl
      | apply wf_foldl1 | refine wf_of (by assumption) ?_ | apply wf_id

theorem wf_probeLoop (a0 : Lvl) (a1 : ℕ) (a2 : ℕ) (a3 : ℕ) (a4 : ℕ) (a5 : ℕ) :
    WmWf (probeLoop a0 a1 a2 a3 a4 a5) := by
    induction a4 generalizing a0 a1 a2 a3 a5 with
    | zero =>
      unfold probeLoop
      repeat' with_reducible first | assumption | dsimp only | exact keeps_pure _
    | succ n ih =>
      unfold probeLoop
      repeat' with_reducible first
        | assumption | dsimp only | apply ih | exact keeps_pure _ | exact keeps_throw _ | apply keeps_get
        | apply keeps_set | apply keeps_bind | apply keeps_ite | apply keeps_mapM | apply keeps_forIn | apply wf_id
        | apply wf_readC | apply wf_ite | apply wf_ite1 | split | intro _

theorem wf_probe (a0 : Lvl) (a1 : Cur) (a2 : ℕ) :
    WmWf (probe a0 a1 a2) := by
    unfold probe
    repeat' with_reducible first
      | assumption | dsimp only | exact keeps_pure _ | exact keeps_throw _ | apply keeps_get | apply keeps_set
      | apply keeps_bind | apply keeps_ite | apply keeps_mapM | apply keeps_forIn | apply wf_id | apply wf_probeLoop

theorem wf_isecLoop (a0 : Lvl) (a1 : Lvl) (a2 : ℕ) (a3 : Cur) (a4 : Cur) :
    WmWf (isecLoop a0 a1 a2 a3 a4) := by
    induction a2 generalizing a0 a1 a3 a4 with
    | zero =>
      unfold isecLoop
      repeat' with_reducible first | assumption | dsimp only | exact keeps_pure _
    | succ n ih =>
      unfold isecLoop
      repeat' with_reducible first
        | assumption | dsimp only | apply ih | exact keeps_pure _ | exact keeps_throw _ | apply keeps_get
        | apply keeps_set | apply keeps_bind | apply keeps_ite | apply keeps_mapM | apply keeps_forIn | apply wf_id
        | apply wf_probe | apply wf_stepCursor | apply wf_seekCursor | apply wf_ite | apply wf_ite1 | split | intro _

theorem wf_isec (a0 : Lvl) (a1 : Lvl) (a2 : Bool) (a3 : Cur) (a4 : Cur) :
    WmWf (isec a0 a1 a2 a3 a4) := by
    unfold isec
    repeat' with_reducible first
      | assumption | intro _ | dsimp only | exact keeps_pure _ | exact keeps_throw _ | apply keeps_get
      | apply keeps_set | apply keeps_bind | apply keeps_ite | apply keeps_mapM | apply keeps_forIn
      | apply wf_bothWalk | apply wf_stepCursor | apply wf_isecLoop | apply wf_ite | apply wf_ite1 | split
      | apply wf_foldl | apply wf_foldl1 | refine wf_of (by assumption) ?_ | apply wf_id

theorem wf_union (a0 : Lvl) (a1 : Lvl) (a2 : Bool) (a3 : Cur) (a4 : Cur) :
    WmWf (union a0 a1 a2 a3 a4) := by
    unfold union
    repeat' with_reducible first
      | assumption | intro _ | dsimp only | exact keeps_pure _ | exact keeps_throw _ | apply keeps_get
      | apply keeps_set | apply keeps_bind | apply keeps_ite | apply keeps_mapM | apply keeps_forIn
      | apply wf_bothWalk | apply wf_stepCursor | apply wf_ite | apply wf_ite1 | split | apply wf_foldl
      | apply wf_foldl1 | refine wf_of (by assumption) ?_ | apply wf_id

theorem wf_LaneCtx_record (a0 : LaneCtx) (a1 : ℕ) (a2 : Cur) :
    WmWf (LaneCtx.record a0 a1 a2) := by
    unfold LaneCtx.record
    repeat' with_reducible first
      | assumption | dsimp only | exact keeps_pure _ | exact keeps_throw _ | apply keeps_get | apply keeps_set
      | apply keeps_bind | apply keeps_ite | apply keeps_mapM | apply keeps_forIn | apply wf_id | apply wf_captureRecord
      | apply wf_ite | apply wf_ite1 | split | intro _

theorem wf_LaneCtx_taken {α : Type} (a1 : LaneCtx) (a2 : ℕ) (a3 : Cur → Bool) (a4 : Lvl → Wm α) (h4 : ∀ a, WmWf (a4 a)) :
    WmWf (LaneCtx.taken a1 a2 a3 a4) := by
    unfold LaneCtx.taken
    repeat' with_reducible first
      | assumption | intro _ | dsimp only | apply h4 | exact keeps_pure _ | exact keeps_throw _ | apply keeps_get
      | apply keeps_set | apply keeps_bind | apply keeps_ite | apply keeps_mapM | apply keeps_forIn
      | apply wf_stateUnless | apply wf_LaneCtx_record | apply wf_ite | apply wf_ite1 | split | apply wf_foldl
      | apply wf_foldl1 | refine wf_of (by assumption) ?_ | apply wf_id

theorem wf_LaneCtx_readWith (a0 : LaneCtx) (a1 : ℕ) (a2 : Lvl → Wm Unit) (h2 : ∀ a, WmWf (a2 a)) :
    WmWf (LaneCtx.readWith a0 a1 a2) := by
    unfold LaneCtx.readWith
    repeat' with_reducible first
      | assumption | intro _ | dsimp only | apply h2 | exact keeps_pure _ | exact keeps_throw _ | apply keeps_get
      | apply keeps_set | apply keeps_bind | apply keeps_ite | apply keeps_mapM | apply keeps_forIn
      | apply wf_LaneCtx_taken | apply wf_ite | apply wf_ite1 | split | apply wf_foldl | apply wf_foldl1
      | refine wf_of (by assumption) ?_ | apply wf_id

theorem wf_LaneCtx_readCur (a0 : LaneCtx) (a1 : ℕ) :
    WmWf (LaneCtx.readCur a0 a1) := by
    unfold LaneCtx.readCur
    repeat' with_reducible first
      | assumption | intro _ | dsimp only | exact keeps_pure _ | exact keeps_throw _ | apply keeps_get
      | apply keeps_set | apply keeps_bind | apply keeps_ite | apply keeps_mapM | apply keeps_forIn
      | apply wf_LaneCtx_readWith | apply wf_ite | apply wf_ite1 | split | apply wf_foldl | apply wf_foldl1
      | refine wf_of (by assumption) ?_ | apply wf_id

theorem wf_LaneCtx_appWith (a0 : LaneCtx) (a1 : ℕ) (a2 : Lvl → Wm Unit) (h2 : ∀ a, WmWf (a2 a)) :
    WmWf (LaneCtx.appWith a0 a1 a2) := by
    unfold LaneCtx.appWith
    repeat' with_reducible first
      | assumption | intro _ | dsimp only | apply h2 | exact keeps_pure _ | exact keeps_throw _ | apply keeps_get
      | apply keeps_set | apply keeps_bind | apply keeps_ite | apply keeps_mapM | apply keeps_forIn
      | apply wf_LaneCtx_taken | apply wf_ite | apply wf_ite1 | split | apply wf_foldl | apply wf_foldl1
      | refine wf_of (by assumption) ?_ | apply wf_id

theorem wf_LaneCtx_appCur (a0 : LaneCtx) (a1 : ℕ) :
    WmWf (LaneCtx.appCur a0 a1) := by
    unfold LaneCtx.appCur
    repeat' with_reducible first
      | assumption | intro _ | dsimp only | exact keeps_pure _ | exact keeps_throw _ | apply keeps_get
      | apply keeps_set | apply keeps_bind | apply keeps_ite | apply keeps_mapM | apply keeps_forIn
      | apply wf_LaneCtx_appWith | apply wf_ite | apply wf_ite1 | split | apply wf_foldl | apply wf_foldl1
      | refine wf_of (by assumption) ?_ | apply wf_id

theorem wf_throwIf (a0 : Bool) (a1 : CErr) :
    WmWf (throwIf a0 a1) := by
    unfold throwIf
    repeat' with_reducible first
      | assumption | intro _ | dsimp only | exact keeps_pure _ | exact keeps_throw _ | apply keeps_get
      | apply keeps_set | apply keeps_bind | apply keeps_ite | apply keeps_mapM | apply keeps_forIn | apply wf_ite
      | apply wf_ite1 | split | apply wf_foldl | apply wf_foldl1 | refine wf_of (by assumption) ?_ | apply wf_id

theorem wf_runLanes (a0 : ℕ → Wm LaneOut) (a1 : List ℕ) (a2 : Walker) (a3 : List (ℕ × Except CErr LaneOut))
    (h0 : ∀ a, WmWf (a0 a)) (h2 : cwf a2.s.mem.dram = true) :
    cwf (runLanes a0 a1 a2 a3).1.s.mem.dram = true := by
    induction a1 generalizing a2 a3 with
    | nil => exact h2
    | cons i r ih => exact ih _ _ (h0 i { a2 with lane := i } h2)

theorem wf_takeCErr (a0 : State) (a1 : ℕ) (a2 : Group) (a3 : ℕ) (a4 : List (ℕ × CErr)) (h0 : cwf a0.mem.dram = true) :
    cwf (takeCErr a0 a1 a2 a3 a4).mem.dram = true := by
    unfold takeCErr
    repeat' with_reducible first
      | assumption | dsimp only | apply wf_id | apply wf_raiseIllegal | apply wf_raise | apply wf_pageFault
      | apply wf_ite | apply wf_ite1 | split

theorem wf_cursorOp (a0 : State) (a1 : Hdr) (a2 : List (BitVec 4)) (a3 : List (Src × Bool)) (a4 : Option Dst)
    (a5 : BitVec 3) (a6 : Group → List ℕ → Bool) (a7 : LaneCtx → Wm LaneOut) (h0 : cwf a0.mem.dram = true)
    (h7 : ∀ a, WmWf (a7 a)) :
    OutWf (cursorOp a0 a1 a2 a3 a4 a5 a6 a7) := by
    unfold cursorOp
    repeat' with_reducible first
      | assumption | intro _ | dsimp only | apply h7 | exact out_fault _ | exact out_refused _ | apply out_next
      | apply wf_issue | apply wf_raiseIllegal | apply wf_finish | apply wf_occupy | apply wf_runLanes
      | apply wf_Walker_start | apply wf_Walker_s | apply wf_checkAccessKnown | apply wf_takeCErr | apply wf_park
      | apply wf_writeMapped | apply wf_storeReleases | apply wf_takeTrouble | apply wf_storeBadBlock
      | apply wf_setGroup | apply wf_capture | apply wf_ite | apply wf_ite1 | apply out_ite | split | apply wf_foldl
      | apply wf_foldl1 | refine wf_of (by assumption) ?_ | apply wf_id

theorem wf_readLanes (a0 : Who) (a1 : PageMap) (a2 : ℕ) (a3 : List (ℕ × List Item)) (a4 : State) (a5 : List (ℕ × CErr))
    (h4 : cwf a4.mem.dram = true) :
    cwf (readLanes a0 a1 a2 a3 a4 a5).1.mem.dram = true := by
    induction a2 generalizing a0 a1 a3 a4 a5 with
    | zero =>
      unfold readLanes
      repeat' with_reducible first
        | assumption | intro _ | dsimp only | apply wf_Walker_s | apply wf_readMapped | apply wf_ite | apply wf_ite1
        | split | apply wf_foldl | apply wf_foldl1 | refine wf_of (by assumption) ?_ | apply wf_id
    | succ n ih =>
      unfold readLanes
      repeat' with_reducible first
        | assumption | intro _ | dsimp only | apply ih | apply wf_Walker_s | apply wf_readMapped | apply wf_ite
        | apply wf_ite1 | split | apply wf_foldl | apply wf_foldl1 | refine wf_of (by assumption) ?_ | apply wf_id

theorem wf_laneReads (a0 : State) (a1 : Who) (a2 : Tab Leaf) (a3 : List Item) (h0 : cwf a0.mem.dram = true) :
    cwf (laneReads a0 a1 a2 a3).1.mem.dram = true := by
    unfold laneReads
    repeat' with_reducible first
      | assumption | intro _ | dsimp only | apply wf_checkAccessKnown | apply wf_readLanes | apply wf_Walker_s
      | apply wf_ite | apply wf_ite1 | split | apply wf_foldl | apply wf_foldl1 | refine wf_of (by assumption) ?_
      | apply wf_id

theorem wf_cinitOp (a0 : State) (a1 : CinitOp) (a2 : Bool) (h0 : cwf a0.mem.dram = true) :
    OutWf (cinitOp a0 a1 a2) := by
    unfold cinitOp
    repeat' with_reducible first
      | assumption | dsimp only | exact keeps_pure _ | exact keeps_throw _ | apply keeps_get | apply keeps_set
      | apply keeps_bind | apply keeps_ite | apply keeps_mapM | apply keeps_forIn | apply wf_id | exact out_fault _
      | exact out_refused _ | apply out_next | apply wf_cursorOp | apply wf_captureRecord | apply wf_enterFibre
      | apply wf_ite | apply wf_ite1 | apply out_ite | split | apply wf_foldl | apply wf_foldl1 | intro _

theorem wf_execCinit (a0 : CinitOp) (a1 : State) (h1 : cwf a1.mem.dram = true) :
    OutWf (execCinit a0 a1) := by
    unfold execCinit
    repeat' with_reducible first
      | assumption | dsimp only | apply wf_id | exact out_fault _ | exact out_refused _ | apply out_next
      | apply wf_cinitOp

theorem wf_execCinitApp (a0 : CinitOp) (a1 : State) (h1 : cwf a1.mem.dram = true) :
    OutWf (execCinitApp a0 a1) := by
    unfold execCinitApp
    repeat' with_reducible first
      | assumption | dsimp only | apply wf_id | exact out_fault _ | exact out_refused _ | apply out_next
      | apply wf_cinitOp

theorem wf_execCnext (a0 : Hdr) (a1 : BitVec 4) (a2 : BitVec 3) (a3 : State) (h3 : cwf a3.mem.dram = true) :
    OutWf (execCnext a0 a1 a2 a3) := by
    unfold execCnext
    repeat' with_reducible first
      | assumption | dsimp only | exact keeps_pure _ | exact keeps_throw _ | apply keeps_get | apply keeps_set
      | apply keeps_bind | apply keeps_ite | apply keeps_mapM | apply keeps_forIn | apply wf_id | exact out_fault _
      | exact out_refused _ | apply out_next | apply wf_cursorOp | apply wf_LaneCtx_readCur | apply wf_stepCursor
      | apply wf_ite | apply wf_ite1 | apply out_ite | split | apply wf_foldl | apply wf_foldl1 | intro _

theorem wf_execCseek (a0 : Hdr) (a1 : BitVec 4) (a2 : Src) (a3 : BitVec 3) (a4 : State) (h4 : cwf a4.mem.dram = true) :
    OutWf (execCseek a0 a1 a2 a3 a4) := by
    unfold execCseek
    repeat' with_reducible first
      | assumption | dsimp only | exact keeps_pure _ | exact keeps_throw _ | apply keeps_get | apply keeps_set
      | apply keeps_bind | apply keeps_ite | apply keeps_mapM | apply keeps_forIn | apply wf_id | exact out_fault _
      | exact out_refused _ | apply out_next | apply wf_cursorOp | apply wf_LaneCtx_readCur | apply wf_seekCursor
      | apply wf_ite | apply wf_ite1 | apply out_ite | split | apply wf_foldl | apply wf_foldl1 | intro _

theorem wf_cdescOp (a0 : State) (a1 : CdescOp) (a2 : Bool) (h0 : cwf a0.mem.dram = true) :
    OutWf (cdescOp a0 a1 a2) := by
    unfold cdescOp
    repeat' with_reducible first
      | assumption | intro _ | dsimp only | exact out_fault _ | exact out_refused _ | apply out_next
      | exact keeps_pure _ | exact keeps_throw _ | apply keeps_get | apply keeps_set | apply keeps_bind
      | apply keeps_ite | apply keeps_mapM | apply keeps_forIn | apply wf_cursorOp | apply wf_LaneCtx_taken
      | apply wf_captureRecord | apply wf_enterFibre | apply wf_Walker_s | apply wf_ite | apply wf_ite1
      | apply out_ite | split | apply wf_foldl | apply wf_foldl1 | refine wf_of (by assumption) ?_ | apply wf_id

theorem wf_execCdesc (a0 : CdescOp) (a1 : State) (h1 : cwf a1.mem.dram = true) :
    OutWf (execCdesc a0 a1) := by
    unfold execCdesc
    repeat' with_reducible first
      | assumption | dsimp only | apply wf_id | exact out_fault _ | exact out_refused _ | apply out_next
      | apply wf_cdescOp

theorem wf_execCdescApp (a0 : CdescOp) (a1 : State) (h1 : cwf a1.mem.dram = true) :
    OutWf (execCdescApp a0 a1) := by
    unfold execCdescApp
    repeat' with_reducible first
      | assumption | dsimp only | apply wf_id | exact out_fault _ | exact out_refused _ | apply out_next
      | apply wf_cdescOp

theorem wf_mergeCurs (a0 : LaneCtx) (a1 : BitVec 4) (a2 : BitVec 4) (a3 : Bool) :
    WmWf (mergeCurs a0 a1 a2 a3) := by
    unfold mergeCurs
    repeat' with_reducible first
      | assumption | intro _ | dsimp only | exact keeps_pure _ | exact keeps_throw _ | apply keeps_get
      | apply keeps_set | apply keeps_bind | apply keeps_ite | apply keeps_mapM | apply keeps_forIn | apply wf_tryWalk
      | apply wf_LaneCtx_readCur | apply wf_ite | apply wf_ite1 | split | apply wf_foldl | apply wf_foldl1
      | refine wf_of (by assumption) ?_ | apply wf_id

theorem wf_cmergeOp (a0 : State) (a1 : CmergeOp) (a2 : Bool) (h0 : cwf a0.mem.dram = true) :
    OutWf (cmergeOp a0 a1 a2) := by
    unfold cmergeOp
    repeat' with_reducible first
      | assumption | intro _ | dsimp only | exact out_fault _ | exact out_refused _ | apply out_next
      | exact keeps_pure _ | exact keeps_throw _ | apply keeps_get | apply keeps_set | apply keeps_bind
      | apply keeps_ite | apply keeps_mapM | apply keeps_forIn | apply wf_cursorOp | apply wf_mergeCurs
      | apply wf_union | apply wf_isec | apply wf_Walker_s | apply wf_ite | apply wf_ite1 | apply out_ite | split
      | apply wf_foldl | apply wf_foldl1 | refine wf_of (by assumption) ?_ | apply wf_id

theorem wf_execCisec (a0 : CmergeOp) (a1 : State) (h1 : cwf a1.mem.dram = true) :
    OutWf (execCisec a0 a1) := by
    unfold execCisec
    repeat' with_reducible first
      | assumption | dsimp only | apply wf_id | exact out_fault _ | exact out_refused _ | apply out_next
      | apply wf_cmergeOp

theorem wf_execCunion (a0 : CmergeOp) (a1 : State) (h1 : cwf a1.mem.dram = true) :
    OutWf (execCunion a0 a1) := by
    unfold execCunion
    repeat' with_reducible first
      | assumption | dsimp only | apply wf_id | exact out_fault _ | exact out_refused _ | apply out_next
      | apply wf_cmergeOp

theorem wf_execCcrd (a0 : CreadOp) (a1 : State) (h1 : cwf a1.mem.dram = true) :
    OutWf (execCcrd a0 a1) := by
    unfold execCcrd
    repeat' with_reducible first
      | assumption | dsimp only | exact keeps_pure _ | exact keeps_throw _ | apply keeps_get | apply keeps_set
      | apply keeps_bind | apply keeps_ite | apply keeps_mapM | apply keeps_forIn | apply wf_id | exact out_fault _
      | exact out_refused _ | apply out_next | apply wf_cursorOp | apply wf_LaneCtx_readCur | apply wf_ite
      | apply wf_ite1 | apply out_ite | split | apply wf_foldl | apply wf_foldl1 | intro _

theorem wf_execCpos (a0 : CreadOp) (a1 : State) (h1 : cwf a1.mem.dram = true) :
    OutWf (execCpos a0 a1) := by
    unfold execCpos
    repeat' with_reducible first
      | assumption | dsimp only | exact keeps_pure _ | exact keeps_throw _ | apply keeps_get | apply keeps_set
      | apply keeps_bind | apply keeps_ite | apply keeps_mapM | apply keeps_forIn | apply wf_id | exact out_fault _
      | exact out_refused _ | apply out_next | apply wf_cursorOp | apply wf_LaneCtx_readCur | apply wf_ite
      | apply wf_ite1 | apply out_ite | split | apply wf_foldl | apply wf_foldl1 | intro _

theorem wf_execCval (a0 : CreadOp) (a1 : State) (h1 : cwf a1.mem.dram = true) :
    OutWf (execCval a0 a1) := by
    unfold execCval
    repeat' with_reducible first
      | assumption | intro _ | dsimp only | exact out_fault _ | exact out_refused _ | apply out_next
      | exact keeps_pure _ | exact keeps_throw _ | apply keeps_get | apply keeps_set | apply keeps_bind
      | apply keeps_ite | apply keeps_mapM | apply keeps_forIn | apply wf_issue | apply wf_raiseIllegal
      | apply wf_finish | apply wf_occupy | apply wf_runLanes | apply wf_LaneCtx_readWith | apply wf_throwIf
      | apply wf_Walker_start | apply wf_laneReads | apply wf_Walker_s | apply wf_takeCErr | apply wf_park
      | apply wf_setGroup | apply wf_capture | apply wf_ite | apply wf_ite1 | apply out_ite | split | apply wf_foldl
      | apply wf_foldl1 | refine wf_of (by assumption) ?_ | apply wf_id

theorem wf_execCstv (a0 : Hdr) (a1 : BitVec 4) (a2 : Src) (a3 : State) (h3 : cwf a3.mem.dram = true) :
    OutWf (execCstv a0 a1 a2 a3) := by
    unfold execCstv
    repeat' with_reducible first
      | assumption | intro _ | dsimp only | exact out_fault _ | exact out_refused _ | apply out_next
      | exact keeps_pure _ | exact keeps_throw _ | apply keeps_get | apply keeps_set | apply keeps_bind
      | apply keeps_ite | apply keeps_mapM | apply keeps_forIn | apply wf_cursorOp | apply wf_Walker_s
      | apply wf_LaneCtx_readWith | apply wf_throwIf | apply wf_ite | apply wf_ite1 | apply out_ite | split
      | apply wf_foldl | apply wf_foldl1 | refine wf_of (by assumption) ?_ | apply wf_id

theorem wf_execCfin (a0 : Hdr) (a1 : BitVec 4) (a2 : State) (h2 : cwf a2.mem.dram = true) :
    OutWf (execCfin a0 a1 a2) := by
    unfold execCfin
    repeat' with_reducible first
      | assumption | dsimp only | exact keeps_pure _ | exact keeps_throw _ | apply keeps_get | apply keeps_set
      | apply keeps_bind | apply keeps_ite | apply keeps_mapM | apply keeps_forIn | apply wf_id | exact out_fault _
      | exact out_refused _ | apply out_next | apply wf_cursorOp | apply wf_LaneCtx_appCur | apply wf_ite
      | apply wf_ite1 | apply out_ite | split | apply wf_foldl | apply wf_foldl1 | intro _

theorem wf_execCdone (a0 : Hdr) (a1 : BitVec 4) (a2 : BitVec 3) (a3 : State) (h3 : cwf a3.mem.dram = true) :
    OutWf (execCdone a0 a1 a2 a3) := by
    unfold execCdone
    repeat' with_reducible first
      | assumption | dsimp only | exact keeps_pure _ | exact keeps_throw _ | apply keeps_get | apply keeps_set
      | apply keeps_bind | apply keeps_ite | apply keeps_mapM | apply keeps_forIn | apply wf_id | exact out_fault _
      | exact out_refused _ | apply out_next | apply wf_cursorOp | apply wf_LaneCtx_readCur | apply wf_ite
      | apply wf_ite1 | apply out_ite | split | apply wf_foldl | apply wf_foldl1 | intro _

theorem wf_execCmov (a0 : Hdr) (a1 : BitVec 4) (a2 : BitVec 4) (a3 : State) (h3 : cwf a3.mem.dram = true) :
    OutWf (execCmov a0 a1 a2 a3) := by
    unfold execCmov
    repeat' with_reducible first
      | assumption | dsimp only | exact keeps_pure _ | exact keeps_throw _ | apply keeps_get | apply keeps_set
      | apply keeps_bind | apply keeps_ite | apply keeps_mapM | apply keeps_forIn | apply wf_id | exact out_fault _
      | exact out_refused _ | apply out_next | apply wf_cursorOp | apply wf_ite | apply wf_ite1 | apply out_ite | split
      | apply wf_foldl | apply wf_foldl1 | intro _

theorem wf_execCsave (a0 : Hdr) (a1 : BitVec 4) (a2 : Src) (a3 : BitVec 10) (a4 : State) (h4 : cwf a4.mem.dram = true) :
    OutWf (execCsave a0 a1 a2 a3 a4) := by
    unfold execCsave
    repeat' with_reducible first
      | assumption | dsimp only | exact keeps_pure _ | exact keeps_throw _ | apply keeps_get | apply keeps_set
      | apply keeps_bind | apply keeps_ite | apply keeps_mapM | apply keeps_forIn | apply wf_id | exact out_fault _
      | exact out_refused _ | apply out_next | apply wf_cursorOp | apply wf_ite | apply wf_ite1 | apply out_ite | split
      | apply wf_foldl | apply wf_foldl1 | intro _

theorem wf_execCrest (a0 : Hdr) (a1 : BitVec 4) (a2 : Src) (a3 : BitVec 10) (a4 : State) (h4 : cwf a4.mem.dram = true) :
    OutWf (execCrest a0 a1 a2 a3 a4) := by
    unfold execCrest
    repeat' with_reducible first
      | assumption | intro _ | dsimp only | exact out_fault _ | exact out_refused _ | apply out_next | apply wf_issue
      | apply wf_raiseIllegal | apply wf_finish | apply wf_occupy | apply wf_laneReads | apply wf_takeCErr
      | apply wf_setGroup | apply wf_Walker_s | apply wf_ite | apply wf_ite1 | apply out_ite | split | apply wf_foldl
      | apply wf_foldl1 | refine wf_of (by assumption) ?_ | apply wf_id

theorem wf_prefetchFibre (a0 : Lvl) (a1 : Cur) (a2 : ℕ) :
    WmWf (prefetchFibre a0 a1 a2) := by
    unfold prefetchFibre
    repeat' with_reducible first
      | assumption | dsimp only | exact keeps_pure _ | exact keeps_throw _ | apply keeps_get | apply keeps_set
      | apply keeps_bind | apply keeps_ite | apply keeps_mapM | apply keeps_forIn | apply wf_id | apply wf_walkRead
      | apply wf_ite | apply wf_ite1 | split | intro _

theorem wf_prefetchCursor (a0 : Cur) (a1 : ℕ) (a2 : ℕ) :
    WmWf (prefetchCursor a0 a1 a2) := by
    unfold prefetchCursor
    repeat' with_reducible first
      | assumption | intro _ | dsimp only | exact keeps_pure _ | exact keeps_throw _ | apply keeps_get
      | apply keeps_set | apply keeps_bind | apply keeps_ite | apply keeps_mapM | apply keeps_forIn
      | apply wf_prefetchFibre | apply wf_captureRecord | apply wf_ite | apply wf_ite1 | split | apply wf_foldl
      | apply wf_foldl1 | refine wf_of (by assumption) ?_ | apply wf_id

theorem wf_execCpref (a0 : Hdr) (a1 : BitVec 4) (a2 : BitVec 4) (a3 : State) (h3 : cwf a3.mem.dram = true) :
    OutWf (execCpref a0 a1 a2 a3) := by
    unfold execCpref
    refine wf_issue _ _ _ _ h3 fun s gid g h => ?_
    dsimp only
    refine wf_ite (wf_raiseIllegal _ _ _ _ h) (wf_finish _ _ _ _ _ (wf_foldl h fun z i hz => ?_))
    exact wf_ite (wf_prefetchCursor _ _ _ (Walker.start z g) (wf_Walker_start _ _ hz)) hz

theorem wf_allocChunk (a0 : State) (a1 : Who) (a2 : ℕ) (h0 : cwf a0.mem.dram = true) :
    cwf (allocChunk a0 a1 a2).1.mem.dram = true := by
    unfold allocChunk
    repeat' with_reducible first
      | assumption | intro _ | dsimp only | apply wf_homeRead | apply wf_clearWay | apply wf_homeWrite
      | apply wf_Walker_s | apply wf_ite | apply wf_ite1 | split | apply wf_foldl | apply wf_foldl1
      | refine wf_of (by assumption) ?_ | apply wf_id

theorem wf_grantLane (a0 : Who) (a1 : PageMap) (a2 : State) (a3 : AppLane) (h2 : cwf a2.mem.dram = true) :
    cwf (grantLane a0 a1 a2 a3).1.mem.dram = true := by
    unfold grantLane
    repeat' with_reducible first
      | assumption | intro _ | dsimp only | apply wf_allocChunk | apply wf_writeMapped | apply wf_Walker_s
      | apply wf_ite | apply wf_ite1 | split | apply wf_foldl | apply wf_foldl1 | refine wf_of (by assumption) ?_
      | apply wf_id

theorem wf_grantLanes (a0 : Who) (a1 : PageMap) (a2 : List AppLane) (a3 : State) (a4 : List (AppLane × Grant))
    (h3 : cwf a3.mem.dram = true) :
    cwf (grantLanes a0 a1 a2 a3 a4).1.mem.dram = true := by
    induction a2 generalizing a0 a1 a3 a4 with
    | nil =>
      unfold grantLanes
      repeat' with_reducible first
        | assumption | intro _ | dsimp only | apply wf_Walker_s | apply wf_grantLane | apply wf_ite | apply wf_ite1
        | split | apply wf_foldl | apply wf_foldl1 | refine wf_of (by assumption) ?_ | apply wf_id
    | cons x r ih =>
      unfold grantLanes
      repeat' with_reducible first
        | assumption | intro _ | dsimp only | apply ih | apply wf_Walker_s | apply wf_grantLane | apply wf_ite
        | apply wf_ite1 | split | apply wf_foldl | apply wf_foldl1 | refine wf_of (by assumption) ?_ | apply wf_id

theorem wf_appendWrite (a0 : State) (a1 : ℕ) (a2 : Group) (a3 : Group) (a4 : ℕ) (a5 : Hdr) (a6 : BitVec 4) (a7 : List ℕ)
    (a8 : Tab Leaf) (a9 : List AppLane) (h0 : cwf a0.mem.dram = true) :
    cwf (appendWrite a0 a1 a2 a3 a4 a5 a6 a7 a8 a9).mem.dram = true := by
    unfold appendWrite
    repeat' with_reducible first
      | assumption | intro _ | dsimp only | apply wf_checkAccessKnown | apply wf_takeTrouble | apply wf_writeMapped
      | apply wf_storeBadBlock | apply wf_setGroup | apply wf_Walker_s | apply wf_ite | apply wf_ite1 | split
      | apply wf_foldl | apply wf_foldl1 | refine wf_of (by assumption) ?_ | apply wf_id

theorem wf_appendLanes (a0 : State) (a1 : ℕ) (a2 : Group) (a3 : ℕ) (a4 : Hdr) (a5 : BitVec 4) (a6 : List ℕ) (a7 : Walker)
    (a8 : List (ℕ × CErr)) (a9 : List AppLane) (h0 : cwf a0.mem.dram = true) (h7 : cwf a7.s.mem.dram = true) :
    cwf (appendLanes a0 a1 a2 a3 a4 a5 a6 a7 a8 a9).mem.dram = true := by
    unfold appendLanes
    repeat' with_reducible first
      | assumption | intro _ | dsimp only | apply wf_checkAccessKnown | apply wf_takeCErr | apply wf_park
      | apply wf_grantLanes | apply wf_storeReleases | apply wf_storeBadBlock | apply wf_raise | apply wf_appendWrite
      | apply wf_Walker_s | apply wf_capture | apply wf_ite | apply wf_ite1 | split | apply wf_foldl | apply wf_foldl1
      | refine wf_of (by assumption) ?_ | apply wf_id

theorem wf_execCapp (a0 : Hdr) (a1 : BitVec 4) (a2 : Src) (a3 : Src) (a4 : State) (h4 : cwf a4.mem.dram = true) :
    OutWf (execCapp a0 a1 a2 a3 a4) := by
    unfold execCapp
    repeat' with_reducible first
      | assumption | intro _ | dsimp only | exact out_fault _ | exact out_refused _ | apply out_next
      | exact keeps_pure _ | exact keeps_throw _ | apply keeps_get | apply keeps_set | apply keeps_bind
      | apply keeps_ite | apply keeps_mapM | apply keeps_forIn | apply wf_issue | apply wf_raiseIllegal
      | apply wf_finish | apply wf_occupy | apply wf_runLanes | apply wf_LaneCtx_appWith | apply wf_throwIf
      | apply wf_Walker_start | apply wf_appendLanes | apply wf_Walker_s | apply wf_ite | apply wf_ite1
      | apply out_ite | split | apply wf_foldl | apply wf_foldl1 | refine wf_of (by assumption) ?_ | apply wf_id

theorem wf_execCaptureEntryFree (a0 : ℕ) (a1 : State) (h1 : cwf a1.mem.dram = true) :
    OutWf (execCaptureEntryFree a0 a1) := by
    unfold execCaptureEntryFree
    repeat' with_reducible first
      | assumption | dsimp only | apply wf_id | exact out_fault _ | exact out_refused _ | apply out_next
      | apply wf_retryWait | apply wf_capture | apply wf_ite | apply wf_ite1 | apply out_ite | split

/-! ### Queues -/

theorem wf_awaitSlot (a0 : State) (a1 : ℕ) (a2 : Group) (h0 : cwf a0.mem.dram = true) :
    cwf (awaitSlot a0 a1 a2).mem.dram = true := by
    unfold awaitSlot
    repeat' with_reducible first | assumption | dsimp only | apply wf_setGroup

theorem wf_withSlot (a0 : Queue) (a1 : State) (a2 : ℕ) (a3 : Group) (a4 : State) (h1 : cwf a1.mem.dram = true)
    (h4 : cwf a4.mem.dram = true) :
    cwf (withSlot a0 a1 a2 a3 a4).mem.dram = true := by
    unfold withSlot
    repeat' with_reducible first | assumption | dsimp only | apply wf_awaitSlot | apply wf_ite

theorem wf_withEngine (a0 : ℕ) (a1 : Queue) (a2 : State) (a3 : ℕ) (a4 : Group) (a5 : State) (h2 : cwf a2.mem.dram = true)
    (h5 : cwf a5.mem.dram = true) :
    cwf (withEngine a0 a1 a2 a3 a4 a5).mem.dram = true := by
    unfold withEngine
    repeat' with_reducible first
      | assumption | intro _ | dsimp only | apply wf_awaitSlot | apply wf_withSlot | apply wf_Walker_s | apply wf_ite
      | apply wf_ite1 | split | apply wf_foldl | apply wf_foldl1 | refine wf_of (by assumption) ?_ | apply wf_id

theorem wf_reachPages (a0 : Who) (a1 : PageMap) (a2 : State) (h2 : cwf a2.mem.dram = true) :
    cwf (reachPages a0 a1 a2).mem.dram = true := by
    induction a1 generalizing a2 with
    | nil => exact h2
    | cons x r ih =>
      unfold reachPages
      split
      · exact h2
      · rename_i h
        cases h
        exact ih _ (wf_reachKept _ _ _ _ h2)
      · rename_i h
        cases h
        exact ih _ h2

theorem wf_readRuns (a0 : State) (a1 : Who) (a2 : PageMap) (a3 : List Item) (h0 : cwf a0.mem.dram = true) :
    cwf (readRuns a0 a1 a2 a3).1.mem.dram = true := by
    unfold readRuns
    repeat' with_reducible first
      | assumption | intro _ | dsimp only | apply wf_reachPages | apply wf_readSecs | apply wf_countSecs
      | apply wf_Walker_s | apply wf_ite | apply wf_ite1 | split | apply wf_foldl | apply wf_foldl1
      | refine wf_of (by assumption) ?_ | apply wf_id

theorem wf_writeEach (a0 : Who) (a1 : PageMap) (a2 : List (Item × List Byte)) (a3 : State) (h3 : cwf a3.mem.dram = true) :
    cwf (writeEach a0 a1 a2 a3).1.mem.dram = true := by
    induction a2 generalizing a0 a1 a3 with
    | nil =>
      unfold writeEach
      repeat' with_reducible first
        | assumption | intro _ | dsimp only | apply wf_Walker_s | apply wf_writeTargets | apply wf_ite | apply wf_ite1
        | split | apply wf_foldl | apply wf_foldl1 | refine wf_of (by assumption) ?_ | apply wf_id
    | cons x r ih =>
      unfold writeEach
      repeat' with_reducible first
        | assumption | intro _ | dsimp only | apply ih | apply wf_Walker_s | apply wf_writeTargets | apply wf_ite
        | apply wf_ite1 | split | apply wf_foldl | apply wf_foldl1 | refine wf_of (by assumption) ?_ | apply wf_id

theorem wf_writeRuns (a0 : State) (a1 : Who) (a2 : PageMap) (a3 : List (Item × List Byte)) (h0 : cwf a0.mem.dram = true) :
    cwf (writeRuns a0 a1 a2 a3).1.mem.dram = true := by
    unfold writeRuns
    repeat' with_reducible first
      | assumption | intro _ | dsimp only | apply wf_writeEach | apply wf_reachPages | apply wf_Walker_s
      | apply wf_ite | apply wf_ite1 | split | apply wf_foldl | apply wf_foldl1 | refine wf_of (by assumption) ?_
      | apply wf_id

/-! ### Matrix -/

theorem wf_enqueueMat (a0 : State) (a1 : ℕ) (a2 : Group) (a3 : DWord) (a4 : MatOp) (a5 : Tab Leaf) (a6 : optParam DWord 0)
    (h0 : cwf a0.mem.dram = true) :
    cwf (enqueueMat a0 a1 a2 a3 a4 a5 a6).mem.dram = true := by
    unfold enqueueMat
    repeat' with_reducible first
      | assumption | intro _ | dsimp only | apply wf_takeId | apply wf_setCore | apply wf_Walker_s | apply wf_ite
      | apply wf_ite1 | split | apply wf_foldl | apply wf_foldl1 | refine wf_of (by assumption) ?_ | apply wf_id

theorem wf_putEntryGroup (a0 : State) (a1 : ℕ) (a2 : ℕ) (a3 : Group) (h0 : cwf a0.mem.dram = true) :
    cwf (putEntryGroup a0 a1 a2 a3).mem.dram = true := by
    unfold putEntryGroup
    repeat' with_reducible first
      | assumption | dsimp only | apply wf_setGroup | apply wf_setCore | apply wf_ite | apply wf_ite1 | split

theorem wf_tileMemOp (a0 : State) (a1 : TileMem) (a2 : Kind) (a3 : DWord) (a4 : ℕ → DWord → ℤ → ℕ → MatOp)
    (h0 : cwf a0.mem.dram = true) :
    OutWf (tileMemOp a0 a1 a2 a3 a4) := by
    unfold tileMemOp
    repeat' with_reducible first
      | assumption | intro _ | dsimp only | exact out_fault _ | exact out_refused _ | apply out_next | apply wf_issue
      | apply wf_withSlot | apply wf_raiseIllegal | apply wf_finish | apply wf_raise | apply wf_checkAccess
      | apply wf_pageFault | apply wf_enqueueMat | apply wf_Walker_s | apply wf_ite | apply wf_ite1 | apply out_ite
      | split | apply wf_foldl | apply wf_foldl1 | refine wf_of (by assumption) ?_ | apply wf_id

theorem wf_execTld (a0 : TileMem) (a1 : State) (h1 : cwf a1.mem.dram = true) :
    OutWf (execTld a0 a1) := by
    unfold execTld
    repeat' with_reducible first
      | assumption | dsimp only | exact out_fault _ | exact out_refused _ | apply out_next | apply wf_tileMemOp

theorem wf_execTst (a0 : TileMem) (a1 : State) (h1 : cwf a1.mem.dram = true) :
    OutWf (execTst a0 a1) := by
    unfold execTst
    repeat' with_reducible first
      | assumption | dsimp only | exact out_fault _ | exact out_refused _ | apply out_next | apply wf_tileMemOp

theorem wf_interlocked (a0 : State) (a1 : Hdr) (a2 : Role → Bool) (a3 : Option ℕ) (a4 : Option ℕ)
    (a5 : State → ℕ → Group → Group × ℕ) (h0 : cwf a0.mem.dram = true) :
    OutWf (interlocked a0 a1 a2 a3 a4 a5) := by
    unfold interlocked
    repeat' with_reducible first
      | assumption | dsimp only | exact out_fault _ | exact out_refused _ | apply out_next | apply wf_issue
      | apply wf_raiseIllegal | apply wf_awaitSlot | apply wf_finish | apply wf_ite | apply wf_ite1 | apply out_ite
      | split | apply wf_foldl | apply wf_foldl1 | intro _

theorem wf_execTzero (a0 : Hdr) (a1 : BitVec 4) (a2 : State) (h2 : cwf a2.mem.dram = true) :
    OutWf (execTzero a0 a1 a2) := by
    unfold execTzero
    repeat' with_reducible first
      | assumption | dsimp only | exact out_fault _ | exact out_refused _ | apply out_next | apply wf_interlocked

theorem wf_execAclr (a0 : Hdr) (a1 : BitVec 4) (a2 : State) (h2 : cwf a2.mem.dram = true) :
    OutWf (execAclr a0 a1 a2) := by
    unfold execAclr
    repeat' with_reducible first
      | assumption | dsimp only | exact out_fault _ | exact out_refused _ | apply out_next | apply wf_interlocked

theorem wf_execArd (a0 : AccMove) (a1 : State) (h1 : cwf a1.mem.dram = true) :
    OutWf (execArd a0 a1) := by
    unfold execArd
    repeat' with_reducible first
      | assumption | dsimp only | exact out_fault _ | exact out_refused _ | apply out_next | apply wf_interlocked

theorem wf_execAwr (a0 : AccMove) (a1 : State) (h1 : cwf a1.mem.dram = true) :
    OutWf (execAwr a0 a1) := by
    unfold execAwr
    repeat' with_reducible first
      | assumption | dsimp only | exact out_fault _ | exact out_refused _ | apply out_next | apply wf_interlocked

theorem wf_mmaOp (a0 : State) (a1 : MmaOp) (a2 : Bool) (a3 : DWord) (h0 : cwf a0.mem.dram = true) :
    OutWf (mmaOp a0 a1 a2 a3) := by
    unfold mmaOp
    repeat' with_reducible first
      | assumption | dsimp only | exact out_fault _ | exact out_refused _ | apply out_next | apply wf_issue
      | apply wf_withSlot | apply wf_raiseIllegal | apply wf_finish | apply wf_enqueueMat | apply wf_ite | apply wf_ite1
      | apply out_ite | split | apply wf_foldl | apply wf_foldl1 | intro _

theorem wf_execMma (a0 : MmaOp) (a1 : State) (h1 : cwf a1.mem.dram = true) :
    OutWf (execMma a0 a1) := by
    unfold execMma
    repeat' with_reducible first
      | assumption | dsimp only | exact out_fault _ | exact out_refused _ | apply out_next | apply wf_mmaOp

theorem wf_execMmas (a0 : MmaOp) (a1 : State) (h1 : cwf a1.mem.dram = true) :
    OutWf (execMmas a0 a1) := by
    unfold execMmas
    repeat' with_reducible first
      | assumption | dsimp only | exact out_fault _ | exact out_refused _ | apply out_next | apply wf_mmaOp

theorem wf_execAcvt (a0 : Hdr) (a1 : BitVec 4) (a2 : BitVec 4) (a3 : BitVec 2) (a4 : Ty) (a5 : State)
    (h5 : cwf a5.mem.dram = true) :
    OutWf (execAcvt a0 a1 a2 a3 a4 a5) := by
    unfold execAcvt
    repeat' with_reducible first
      | assumption | dsimp only | exact out_fault _ | exact out_refused _ | apply out_next | apply wf_issue
      | apply wf_withSlot | apply wf_raiseIllegal | apply wf_finish | apply wf_enqueueMat | apply wf_ite | apply wf_ite1
      | apply out_ite | split | apply wf_foldl | apply wf_foldl1 | intro _

theorem wf_walkValue (a0 : DWord) (a1 : ℕ) :
    WmWf (walkValue a0 a1) := by
    unfold walkValue
    repeat' with_reducible first
      | assumption | intro _ | dsimp only | exact keeps_pure _ | exact keeps_throw _ | apply keeps_get
      | apply keeps_set | apply keeps_bind | apply keeps_ite | apply keeps_mapM | apply keeps_forIn
      | apply wf_Walker_s | apply wf_walkWindow | apply wf_noteWalk | apply wf_walkPage | apply wf_leafSector
      | apply wf_ite | apply wf_ite1 | split | apply wf_foldl | apply wf_foldl1 | refine wf_of (by assumption) ?_
      | apply wf_id

theorem wf_gatherLoop (a0 : Lvl) (a1 : ℕ) (a2 : ℕ) (a3 : ℕ) (a4 : Cur) (a5 : ℕ) :
    WmWf (gatherLoop a0 a1 a2 a3 a4 a5) := by
    induction a3 generalizing a0 a1 a2 a4 a5 with
    | zero =>
      unfold gatherLoop
      repeat' with_reducible first | assumption | dsimp only | exact keeps_pure _
    | succ n ih =>
      unfold gatherLoop
      repeat' with_reducible first
        | assumption | dsimp only | apply ih | exact keeps_pure _ | exact keeps_throw _ | apply keeps_get
        | apply keeps_set | apply keeps_bind | apply keeps_ite | apply keeps_mapM | apply keeps_forIn
        | apply wf_walkValue | apply wf_stepCursor | apply wf_ite | apply wf_ite1 | split | intro _

theorem wf_gatherLane (a0 : LaneCtx) (a1 : BitVec 4) (a2 : Src) (a3 : ℕ) :
    WmWf (gatherLane a0 a1 a2 a3) := by
    unfold gatherLane
    repeat' with_reducible first
      | assumption | dsimp only | exact keeps_pure _ | exact keeps_throw _ | apply keeps_get | apply keeps_set
      | apply keeps_bind | apply keeps_ite | apply keeps_mapM | apply keeps_forIn | apply wf_LaneCtx_readCur
      | apply wf_gatherLoop | apply wf_ite | apply wf_ite1 | split | intro _

theorem wf_execTasm (a0 : Hdr) (a1 : BitVec 4) (a2 : BitVec 4) (a3 : Src) (a4 : Bool) (a5 : Bool) (a6 : State)
    (h6 : cwf a6.mem.dram = true) :
    OutWf (execTasm a0 a1 a2 a3 a4 a5 a6) := by
    unfold execTasm
    repeat' with_reducible first
      | assumption | intro _ | dsimp only | exact out_fault _ | exact out_refused _ | apply out_next
      | exact keeps_pure _ | exact keeps_throw _ | apply keeps_get | apply keeps_set | apply keeps_bind
      | apply keeps_ite | apply keeps_mapM | apply keeps_forIn | apply wf_issue | apply wf_withSlot
      | apply wf_raiseIllegal | apply wf_runLanes | apply wf_gatherLane | apply wf_Walker_start | apply wf_Walker_s
      | apply wf_takeCErr | apply wf_setGroup | apply wf_park | apply wf_enqueueMat | apply wf_finish
      | apply wf_capture | apply wf_ite | apply wf_ite1 | apply out_ite | split | apply wf_foldl | apply wf_foldl1
      | refine wf_of (by assumption) ?_ | apply wf_id

theorem wf_entryLost (a0 : State) (a1 : Group) (a2 : XErr) (h0 : cwf a0.mem.dram = true) :
    cwf (entryLost a0 a1 a2).mem.dram = true := by
    unfold entryLost
    repeat' with_reducible first | assumption | dsimp only | apply wf_endContext | apply wf_ite | apply wf_ite1 | split

theorem wf_recaptureEntry (a0 : ℕ) (a1 : State) (a2 : MatEntry) (h1 : cwf a1.mem.dram = true) :
    cwf (recaptureEntry a0 a1 a2).mem.dram = true := by
    unfold recaptureEntry
    repeat' with_reducible first
      | assumption | intro _ | dsimp only | apply wf_checkAccess | apply wf_pageFault | apply wf_entryLost
      | apply wf_setCore | apply wf_Walker_s | apply wf_ite | apply wf_ite1 | split | apply wf_foldl | apply wf_foldl1
      | refine wf_of (by assumption) ?_ | apply wf_id

theorem wf_recaptureAll (a0 : State) (a1 : ℕ) (a2 : MatEntry → Bool) (h0 : cwf a0.mem.dram = true) :
    cwf (recaptureAll a0 a1 a2).mem.dram = true := by
    unfold recaptureAll
    repeat' with_reducible first
      | assumption | dsimp only | apply wf_recaptureEntry | apply wf_ite | apply wf_ite1 | split | apply wf_foldl

theorem wf_performMat (a0 : ℕ) (a1 : MatOp → Bool) (a2 : State) (a3 : State → MatEntry → Group → State × ℕ × List ℕ)
    (h2 : cwf a2.mem.dram = true) (h3 : ∀ z a b, cwf z.mem.dram = true → cwf (a3 z a b).1.mem.dram = true) :
    OutWf (performMat a0 a1 a2 a3) := by
    unfold performMat
    repeat' with_reducible first
      | assumption | dsimp only | apply h3 | exact out_fault _ | exact out_refused _ | apply out_next | apply wf_setCore
      | apply wf_finish | apply wf_ite | apply wf_ite1 | apply out_ite | split

theorem wf_execTldPerform (a0 : ℕ) (a1 : State) (h1 : cwf a1.mem.dram = true) :
    OutWf (execTldPerform a0 a1) := by
    unfold execTldPerform
    repeat' with_reducible first
      | assumption | intro _ | dsimp only | exact out_fault _ | exact out_refused _ | apply out_next
      | apply wf_performMat | apply wf_readRuns | apply wf_entryLost | apply wf_putEntryGroup | apply wf_Walker_s
      | apply wf_ite | apply wf_ite1 | apply out_ite | split | apply wf_foldl | apply wf_foldl1
      | refine wf_of (by assumption) ?_ | apply wf_id

theorem wf_execTstPerform (a0 : ℕ) (a1 : State) (h1 : cwf a1.mem.dram = true) :
    OutWf (execTstPerform a0 a1) := by
    unfold execTstPerform
    repeat' with_reducible first
      | assumption | intro _ | dsimp only | exact out_fault _ | exact out_refused _ | apply out_next
      | apply wf_performMat | apply wf_entryLost | apply wf_writeRuns | apply wf_noteEntry | apply wf_Walker_s
      | apply wf_ite | apply wf_ite1 | apply out_ite | split | apply wf_foldl | apply wf_foldl1
      | refine wf_of (by assumption) ?_ | apply wf_id

theorem wf_execTasmPerform (a0 : ℕ) (a1 : State) (h1 : cwf a1.mem.dram = true) :
    OutWf (execTasmPerform a0 a1) := by
    unfold execTasmPerform
    repeat' with_reducible first
      | assumption | dsimp only | exact out_fault _ | exact out_refused _ | apply out_next | apply wf_performMat
      | apply wf_putEntryGroup | apply wf_ite | apply wf_ite1 | apply out_ite | split | apply wf_foldl | apply wf_foldl1
      | intro _

theorem wf_execAcvtPerform (a0 : ℕ) (a1 : State) (h1 : cwf a1.mem.dram = true) :
    OutWf (execAcvtPerform a0 a1) := by
    unfold execAcvtPerform
    repeat' with_reducible first
      | assumption | dsimp only | exact out_fault _ | exact out_refused _ | apply out_next | apply wf_performMat
      | apply wf_putEntryGroup | apply wf_ite | apply wf_ite1 | apply out_ite | split | apply wf_foldl | apply wf_foldl1
      | intro _

theorem wf_execMmaExecute (a0 : ℕ) (a1 : State) (h1 : cwf a1.mem.dram = true) :
    OutWf (execMmaExecute a0 a1) := by
    unfold execMmaExecute
    repeat' with_reducible first
      | assumption | dsimp only | exact out_fault _ | exact out_refused _ | apply out_next | apply wf_performMat
      | apply wf_putEntryGroup | apply wf_setCore | apply wf_ite | apply wf_ite1 | apply out_ite | split
      | apply wf_foldl | apply wf_foldl1 | intro _

theorem wf_wakeBatch (a0 : State) (a1 : ℕ) (h0 : cwf a0.mem.dram = true) :
    cwf (wakeBatch a0 a1).mem.dram = true := by
    unfold wakeBatch
    repeat' with_reducible first | assumption | dsimp only | apply wf_leaveWait | apply wf_ite | apply wf_ite1 | split

theorem wf_execMatrixEntryRetire (a0 : ℕ) (a1 : State) (h1 : cwf a1.mem.dram = true) :
    OutWf (execMatrixEntryRetire a0 a1) := by
    unfold execMatrixEntryRetire
    repeat' with_reducible first
      | assumption | dsimp only | exact out_fault _ | exact out_refused _ | apply out_next | apply wf_wakeSlots
      | apply wf_setCore | apply wf_ite | apply wf_ite1 | apply out_ite | split

theorem wf_execMwaitbWake (a0 : ℕ) (a1 : State) (h1 : cwf a1.mem.dram = true) :
    OutWf (execMwaitbWake a0 a1) := by
    unfold execMwaitbWake
    repeat' with_reducible first
      | assumption | dsimp only | exact out_fault _ | exact out_refused _ | apply out_next | apply wf_wakeBatch

theorem wf_execMfence (a0 : Hdr) (a1 : Dst) (a2 : State) (h2 : cwf a2.mem.dram = true) :
    OutWf (execMfence a0 a1 a2) := by
    unfold execMfence
    repeat' with_reducible first
      | assumption | dsimp only | exact out_fault _ | exact out_refused _ | apply out_next | apply wf_issue
      | apply wf_raiseIllegal | apply wf_finish | apply wf_ite | apply wf_ite1 | apply out_ite | split | apply wf_foldl
      | apply wf_foldl1 | intro _

theorem wf_execMwaitb (a0 : Hdr) (a1 : Src) (a2 : Bool) (a3 : State) (h3 : cwf a3.mem.dram = true) :
    OutWf (execMwaitb a0 a1 a2 a3) := by
    unfold execMwaitb
    repeat' with_reducible first
      | assumption | dsimp only | exact out_fault _ | exact out_refused _ | apply out_next | apply wf_issue
      | apply wf_raiseIllegal | apply wf_finish | apply wf_park | apply wf_occupy | apply wf_ite | apply wf_ite1
      | apply out_ite | split | apply wf_foldl | apply wf_foldl1 | intro _

/-! ### Engine -/

theorem wf_readBlock (a0 : State) (a1 : Group) (a2 : ℕ) (a3 : DWord) (a4 : ℕ) (h0 : cwf a0.mem.dram = true) :
    cwf (readBlock a0 a1 a2 a3 a4).1.mem.dram = true := by
    unfold readBlock
    repeat' with_reducible first
      | assumption | intro _ | dsimp only | apply wf_readChecked | apply wf_Walker_s | apply wf_ite | apply wf_ite1
      | split | apply wf_foldl | apply wf_foldl1 | refine wf_of (by assumption) ?_ | apply wf_id

theorem wf_fetchBlock (a0 : State) (a1 : Group) (a2 : ℕ) (a3 : DWord) (a4 : ℕ) (h0 : cwf a0.mem.dram = true) :
    cwf (fetchBlock a0 a1 a2 a3 a4).1.mem.dram = true := by
    unfold fetchBlock
    repeat' with_reducible first
      | assumption | dsimp only | apply wf_readBlock | apply wf_capture | apply wf_raise | apply wf_ite | apply wf_ite1
      | split

theorem wf_engineOp (a0 : State) (a1 : EngOp) (a2 : Queue) (a3 : ℕ) (a4 : ℕ) (h0 : cwf a0.mem.dram = true) :
    OutWf (engineOp a0 a1 a2 a3 a4) := by
    unfold engineOp
    repeat' with_reducible first
      | assumption | intro _ | dsimp only | exact out_fault _ | exact out_refused _ | apply out_next | apply wf_issue
      | apply wf_raiseIllegal | apply wf_finish | apply wf_withEngine | apply wf_fetchBlock | apply wf_takeTrouble
      | apply wf_takeId | apply wf_pushForEntry | apply wf_takeSnap | apply wf_setCore | apply wf_Walker_s
      | apply wf_ite | apply wf_ite1 | apply out_ite | split | apply wf_foldl | apply wf_foldl1
      | refine wf_of (by assumption) ?_ | apply wf_id

theorem wf_execCpyt (a0 : EngOp) (a1 : State) (h1 : cwf a1.mem.dram = true) :
    OutWf (execCpyt a0 a1) := by
    unfold execCpyt
    repeat' with_reducible first
      | assumption | dsimp only | exact out_fault _ | exact out_refused _ | apply out_next | apply wf_engineOp

theorem wf_execCpyc (a0 : EngOp) (a1 : State) (h1 : cwf a1.mem.dram = true) :
    OutWf (execCpyc a0 a1) := by
    unfold execCpyc
    repeat' with_reducible first
      | assumption | dsimp only | exact out_fault _ | exact out_refused _ | apply out_next | apply wf_engineOp

theorem wf_execCsum (a0 : EngOp) (a1 : State) (h1 : cwf a1.mem.dram = true) :
    OutWf (execCsum a0 a1) := by
    unfold execCsum
    repeat' with_reducible first
      | assumption | dsimp only | exact out_fault _ | exact out_refused _ | apply out_next | apply wf_engineOp

theorem wf_execDecq (a0 : EngOp) (a1 : State) (h1 : cwf a1.mem.dram = true) :
    OutWf (execDecq a0 a1) := by
    unfold execDecq
    repeat' with_reducible first
      | assumption | dsimp only | exact out_fault _ | exact out_refused _ | apply out_next | apply wf_engineOp

theorem wf_execStq (a0 : EngOp) (a1 : State) (h1 : cwf a1.mem.dram = true) :
    OutWf (execStq a0 a1) := by
    unfold execStq
    repeat' with_reducible first
      | assumption | dsimp only | exact out_fault _ | exact out_refused _ | apply out_next | apply wf_engineOp

theorem wf_execNetq (a0 : EngOp) (a1 : State) (h1 : cwf a1.mem.dram = true) :
    OutWf (execNetq a0 a1) := by
    unfold execNetq
    repeat' with_reducible first
      | assumption | dsimp only | exact out_fault _ | exact out_refused _ | apply out_next | apply wf_engineOp

theorem wf_execTopk (a0 : EngOp) (a1 : State) (h1 : cwf a1.mem.dram = true) :
    OutWf (execTopk a0 a1) := by
    unfold execTopk
    repeat' with_reducible first
      | assumption | dsimp only | exact out_fault _ | exact out_refused _ | apply out_next | apply wf_engineOp

theorem wf_execRmv (a0 : EngOp) (a1 : State) (h1 : cwf a1.mem.dram = true) :
    OutWf (execRmv a0 a1) := by
    unfold execRmv
    repeat' with_reducible first
      | assumption | dsimp only | exact out_fault _ | exact out_refused _ | apply out_next | apply wf_engineOp

theorem wf_execCpy (a0 : Hdr) (a1 : BitVec 7) (a2 : Dst) (a3 : DWord) (a4 : State) (h4 : cwf a4.mem.dram = true) :
    OutWf (execCpy a0 a1 a2 a3 a4) := by
    unfold execCpy
    repeat' with_reducible first
      | assumption | dsimp only | exact out_fault _ | exact out_refused _ | apply out_next | apply wf_issue
      | apply wf_raiseIllegal | apply wf_finish | apply wf_fetchBlock | apply wf_takeTrouble | apply wf_takeId
      | apply wf_pushForEntry | apply wf_setCore | apply wf_awaitSlot | apply wf_ite | apply wf_ite1 | apply out_ite
      | split | apply wf_foldl | apply wf_foldl1 | intro _

theorem wf_execQstat (a0 : Hdr) (a1 : Dst) (a2 : Queue) (a3 : State) (h3 : cwf a3.mem.dram = true) :
    OutWf (execQstat a0 a1 a2 a3) := by
    unfold execQstat
    repeat' with_reducible first
      | assumption | dsimp only | exact out_fault _ | exact out_refused _ | apply out_next | apply wf_issue
      | apply wf_raiseIllegal | apply wf_finish | apply wf_ite | apply wf_ite1 | apply out_ite | split | apply wf_foldl
      | apply wf_foldl1 | intro _

theorem wf_queueWord (a0 : State) (a1 : Who) (a2 : DWord) (h0 : cwf a0.mem.dram = true) :
    cwf (queueWord a0 a1 a2).1.mem.dram = true := by
    unfold queueWord
    repeat' with_reducible first | assumption | dsimp only | apply wf_virtRead | apply wf_ite | apply wf_ite1 | split

theorem wf_dropQueue (a0 : State) (a1 : ℕ) (a2 : ℕ) (a3 : ℕ) (a4 : DWord) (h0 : cwf a0.mem.dram = true) :
    cwf (dropQueue a0 a1 a2 a3 a4).mem.dram = true := by
    unfold dropQueue
    repeat' with_reducible first | assumption | dsimp only | apply wf_record | apply wf_ite | apply wf_ite1 | split

theorem wf_queueFault (a0 : State) (a1 : ℕ) (a2 : DWord) (a3 : XErr) (h0 : cwf a0.mem.dram = true) :
    cwf (queueFault a0 a1 a2 a3).mem.dram = true := by
    unfold queueFault
    repeat' with_reducible first
      | assumption | dsimp only | apply wf_dropQueue | apply wf_endContext | apply wf_ite | apply wf_ite1 | split

theorem wf_appendBlock (a0 : State) (a1 : ℕ) (a2 : QueueBody) (a3 : Who) (a4 : List Byte) (h0 : cwf a0.mem.dram = true) :
    cwf (appendBlock a0 a1 a2 a3 a4).1.mem.dram = true := by
    unfold appendBlock
    repeat' with_reducible first
      | assumption | dsimp only | apply wf_queueWord | apply wf_virtWrite | apply wf_queueFault | apply wf_ite
      | apply wf_ite1 | split

theorem wf_execLaunch (a0 : EngOp) (a1 : BitVec 10) (a2 : State) (h2 : cwf a2.mem.dram = true) :
    OutWf (execLaunch a0 a1 a2) := by
    unfold execLaunch
    repeat' with_reducible first
      | assumption | dsimp only | exact out_fault _ | exact out_refused _ | apply out_next | apply wf_issue
      | apply wf_raiseIllegal | apply wf_finish | apply wf_takeTrouble | apply wf_readBlock | apply wf_appendBlock
      | apply wf_releaseAt | apply wf_ite | apply wf_ite1 | apply out_ite | split | apply wf_foldl | apply wf_foldl1
      | intro _

/-! ### Ring -/

theorem wf_ringOp (a0 : State) (a1 : RingOp) (a2 : ℕ) (a3 : DWord) (h0 : cwf a0.mem.dram = true) :
    OutWf (ringOp a0 a1 a2 a3) := by
    unfold ringOp
    repeat' with_reducible first
      | assumption | dsimp only | exact out_fault _ | exact out_refused _ | apply out_next | apply wf_issue
      | apply wf_raiseIllegal | apply wf_finish | apply wf_withSlot | apply wf_raise | apply wf_pushForEntry
      | apply wf_releaseAt | apply wf_takeId | apply wf_setCore | apply wf_ite | apply wf_ite1 | apply out_ite | split
      | apply wf_foldl | apply wf_foldl1 | intro _

theorem wf_execRres (a0 : RingOp) (a1 : State) (h1 : cwf a1.mem.dram = true) :
    OutWf (execRres a0 a1) := by
    unfold execRres
    repeat' with_reducible first
      | assumption | dsimp only | exact out_fault _ | exact out_refused _ | apply out_next | apply wf_ringOp

theorem wf_execRpub (a0 : RingOp) (a1 : State) (h1 : cwf a1.mem.dram = true) :
    OutWf (execRpub a0 a1) := by
    unfold execRpub
    repeat' with_reducible first
      | assumption | dsimp only | exact out_fault _ | exact out_refused _ | apply out_next | apply wf_ringOp

theorem wf_execRtake (a0 : RingOp) (a1 : State) (h1 : cwf a1.mem.dram = true) :
    OutWf (execRtake a0 a1) := by
    unfold execRtake
    repeat' with_reducible first
      | assumption | dsimp only | exact out_fault _ | exact out_refused _ | apply out_next | apply wf_ringOp

theorem wf_execRrel (a0 : RingOp) (a1 : State) (h1 : cwf a1.mem.dram = true) :
    OutWf (execRrel a0 a1) := by
    unfold execRrel
    repeat' with_reducible first
      | assumption | dsimp only | exact out_fault _ | exact out_refused _ | apply out_next | apply wf_ringOp

theorem wf_payGroup (a0 : State) (a1 : RingEntry) (a2 : ℕ) (h0 : cwf a0.mem.dram = true) :
    cwf (payGroup a0 a1 a2).mem.dram = true := by
    unfold payGroup
    repeat' with_reducible first
      | assumption | intro _ | dsimp only | apply wf_enterHandler | apply wf_setGroup | apply wf_Walker_s
      | apply wf_ite | apply wf_ite1 | split | apply wf_foldl | apply wf_foldl1 | refine wf_of (by assumption) ?_
      | apply wf_id

theorem wf_askRing (a0 : State) (a1 : ℕ) (a2 : RingEntry) (h0 : cwf a0.mem.dram = true) :
    cwf (askRing a0 a1 a2).1.mem.dram = true := by
    unfold askRing
    repeat' with_reducible first
      | assumption | intro _ | dsimp only | apply wf_takeId | apply wf_setCore | apply wf_Walker_s | apply wf_ite
      | apply wf_ite1 | split | apply wf_foldl | apply wf_foldl1 | refine wf_of (by assumption) ?_ | apply wf_id

theorem wf_execRingEntryPerform (a0 : ℕ) (a1 : State) (h1 : cwf a1.mem.dram = true) :
    OutWf (execRingEntryPerform a0 a1) := by
    unfold execRingEntryPerform
    repeat' with_reducible first
      | assumption | intro _ | dsimp only | exact out_fault _ | exact out_refused _ | apply out_next
      | apply wf_wakeSlots | apply wf_setCore | apply wf_askRing | apply wf_endContext | apply wf_acquireAt
      | apply wf_payGroup | apply wf_Walker_s | apply wf_ite | apply wf_ite1 | apply out_ite | split | apply wf_foldl
      | apply wf_foldl1 | refine wf_of (by assumption) ?_ | apply wf_id

/-! ### System -/

theorem wf_onceOp (a0 : State) (a1 : Hdr) (a2 : List (Src × Bool)) (a3 : State → ℕ → Group → ℕ → State)
    (h0 : cwf a0.mem.dram = true) (h3 : ∀ z a b c, cwf z.mem.dram = true → cwf (a3 z a b c).mem.dram = true) :
    OutWf (onceOp a0 a1 a2 a3) := by
    unfold onceOp
    repeat' with_reducible first
      | assumption | dsimp only | apply h3 | exact out_fault _ | exact out_refused _ | apply out_next | apply wf_issue
      | apply wf_raiseIllegal | apply wf_finish | apply wf_ite | apply wf_ite1 | apply out_ite | split | apply wf_foldl
      | apply wf_foldl1 | intro _

theorem wf_dropHeld (a0 : State) (a1 : ℕ) (a2 : HeldBytes → Bool) (h0 : cwf a0.mem.dram = true) :
    cwf (dropHeld a0 a1 a2).mem.dram = true := by
    unfold dropHeld
    repeat' with_reducible first | assumption

theorem wf_execRinvIndex (a0 : Hdr) (a1 : Src) (a2 : State) (h2 : cwf a2.mem.dram = true) :
    OutWf (execRinvIndex a0 a1 a2) := by
    unfold execRinvIndex
    repeat' with_reducible first
      | assumption | dsimp only | exact out_fault _ | exact out_refused _ | apply out_next | apply wf_onceOp
      | apply wf_finish | apply wf_dropHeld | apply wf_ite | apply wf_ite1 | apply out_ite | split | apply wf_foldl
      | apply wf_foldl1 | intro _

theorem wf_execRinvAll (a0 : Hdr) (a1 : State) (h1 : cwf a1.mem.dram = true) :
    OutWf (execRinvAll a0 a1) := by
    unfold execRinvAll
    repeat' with_reducible first
      | assumption | dsimp only | exact out_fault _ | exact out_refused _ | apply out_next | apply wf_onceOp
      | apply wf_finish | apply wf_dropHeld | apply wf_ite | apply wf_ite1 | apply out_ite | split | apply wf_foldl
      | apply wf_foldl1 | intro _

theorem wf_execRinvLevel (a0 : Hdr) (a1 : Src) (a2 : State) (h2 : cwf a2.mem.dram = true) :
    OutWf (execRinvLevel a0 a1 a2) := by
    unfold execRinvLevel
    repeat' with_reducible first
      | assumption | dsimp only | exact out_fault _ | exact out_refused _ | apply out_next | apply wf_onceOp
      | apply wf_finish | apply wf_dropHeld | apply wf_ite | apply wf_ite1 | apply out_ite | split | apply wf_foldl
      | apply wf_foldl1 | intro _

theorem wf_execTrap (a0 : Hdr) (a1 : BitVec 12) (a2 : State) (h2 : cwf a2.mem.dram = true) :
    OutWf (execTrap a0 a1 a2) := by
    unfold execTrap
    repeat' with_reducible first
      | assumption | dsimp only | exact out_fault _ | exact out_refused _ | apply out_next | apply wf_issue
      | apply wf_finish | apply wf_raise | apply wf_occupy | apply wf_ite | apply wf_ite1 | apply out_ite | split
      | apply wf_foldl | apply wf_foldl1 | intro _

theorem wf_execBrk (a0 : Hdr) (a1 : BitVec 12) (a2 : State) (h2 : cwf a2.mem.dram = true) :
    OutWf (execBrk a0 a1 a2) := by
    unfold execBrk
    repeat' with_reducible first
      | assumption | dsimp only | exact out_fault _ | exact out_refused _ | apply out_next | apply wf_issue
      | apply wf_finish | apply wf_takeId | apply wf_occupy | apply wf_park | apply wf_record | apply wf_ite
      | apply wf_ite1 | apply out_ite | split | apply wf_foldl | apply wf_foldl1 | intro _

theorem wf_dropTlb (a0 : State) (a1 : ℕ) (a2 : TlbEntry → Bool) (h0 : cwf a0.mem.dram = true) :
    cwf (dropTlb a0 a1 a2).mem.dram = true := by
    unfold dropTlb
    repeat' with_reducible first | assumption

theorem wf_tlbiOp (a0 : State) (a1 : Hdr) (a2 : List (Src × Bool)) (a3 : Group → ℕ → ℕ → TlbEntry → Bool)
    (h0 : cwf a0.mem.dram = true) :
    OutWf (tlbiOp a0 a1 a2 a3) := by
    unfold tlbiOp
    repeat' with_reducible first
      | assumption | dsimp only | exact out_fault _ | exact out_refused _ | apply out_next | apply wf_onceOp
      | apply wf_raise | apply wf_finish | apply wf_dropTlb | apply wf_ite | apply wf_ite1 | apply out_ite | split
      | apply wf_foldl | apply wf_foldl1 | intro _

theorem wf_execTlbiPage (a0 : Hdr) (a1 : Src) (a2 : Src) (a3 : State) (h3 : cwf a3.mem.dram = true) :
    OutWf (execTlbiPage a0 a1 a2 a3) := by
    unfold execTlbiPage
    repeat' with_reducible first
      | assumption | dsimp only | exact out_fault _ | exact out_refused _ | apply out_next | apply wf_tlbiOp

theorem wf_execTlbiCtx (a0 : Hdr) (a1 : Src) (a2 : State) (h2 : cwf a2.mem.dram = true) :
    OutWf (execTlbiCtx a0 a1 a2) := by
    unfold execTlbiCtx
    repeat' with_reducible first
      | assumption | dsimp only | exact out_fault _ | exact out_refused _ | apply out_next | apply wf_tlbiOp

theorem wf_execTlbiPart (a0 : Hdr) (a1 : State) (h1 : cwf a1.mem.dram = true) :
    OutWf (execTlbiPart a0 a1) := by
    unfold execTlbiPart
    repeat' with_reducible first
      | assumption | dsimp only | exact out_fault _ | exact out_refused _ | apply out_next | apply wf_tlbiOp

theorem wf_execSsetRngstate (a0 : Hdr) (a1 : Src) (a2 : State) (h2 : cwf a2.mem.dram = true) :
    OutWf (execSsetRngstate a0 a1 a2) := by
    unfold execSsetRngstate
    repeat' with_reducible first
      | assumption | dsimp only | exact out_fault _ | exact out_refused _ | apply out_next | apply wf_issue
      | apply wf_raiseIllegal | apply wf_finish | apply wf_ite | apply wf_ite1 | apply out_ite | split | apply wf_foldl
      | apply wf_foldl1 | intro _

theorem wf_execSsetTrapvec (a0 : Hdr) (a1 : Src) (a2 : State) (h2 : cwf a2.mem.dram = true) :
    OutWf (execSsetTrapvec a0 a1 a2) := by
    unfold execSsetTrapvec
    repeat' with_reducible first
      | assumption | dsimp only | exact out_fault _ | exact out_refused _ | apply out_next | apply wf_onceOp
      | apply wf_raise | apply wf_finish | apply wf_setTeam | apply wf_ite | apply wf_ite1 | apply out_ite | split
      | apply wf_foldl | apply wf_foldl1 | intro _

theorem wf_execUnassignedOpcode (a0 : DWord) (a1 : State) (h1 : cwf a1.mem.dram = true) :
    OutWf (execUnassignedOpcode a0 a1) := by
    unfold execUnassignedOpcode
    repeat' with_reducible first
      | assumption | dsimp only | exact out_fault _ | exact out_refused _ | apply out_next | apply wf_raiseIllegal
      | apply wf_occupy | apply wf_ite | apply wf_ite1 | apply out_ite | split

theorem wf_execWaitt (a0 : Hdr) (a1 : Dst) (a2 : Src) (a3 : State) (h3 : cwf a3.mem.dram = true) :
    OutWf (execWaitt a0 a1 a2 a3) := by
    unfold execWaitt
    repeat' with_reducible first
      | assumption | intro _ | dsimp only | exact out_fault _ | exact out_refused _ | apply out_next | apply wf_issue
      | apply wf_raiseIllegal | apply wf_finish | apply wf_park | apply wf_occupy | apply wf_Walker_s | apply wf_ite
      | apply wf_ite1 | apply out_ite | split | apply wf_foldl | apply wf_foldl1 | refine wf_of (by assumption) ?_
      | apply wf_id

theorem wf_execWaittDeadlineReached (a0 : ℕ) (a1 : State) (h1 : cwf a1.mem.dram = true) :
    OutWf (execWaittDeadlineReached a0 a1) := by
    unfold execWaittDeadlineReached
    repeat' with_reducible first
      | assumption | intro _ | dsimp only | exact out_fault _ | exact out_refused _ | apply out_next
      | apply wf_leaveWait | apply wf_setGroup | apply wf_Walker_s | apply wf_ite | apply wf_ite1 | apply out_ite
      | split | apply wf_foldl | apply wf_foldl1 | refine wf_of (by assumption) ?_ | apply wf_id

/-! ### Beats -/

theorem wf_slicePut (a0 : State) (a1 : Group) (a2 : ℕ) (h0 : cwf a0.mem.dram = true) :
    cwf (slicePut a0 a1 a2).mem.dram = true := by
    unfold slicePut
    repeat' with_reducible first
      | assumption | intro _ | dsimp only | apply wf_setCore | apply wf_ite | apply wf_ite1 | split | apply wf_foldl
      | apply wf_foldl1 | refine wf_of (by assumption) ?_ | apply wf_id

theorem wf_useSlice (a0 : State) (a1 : ℕ) (a2 : Group) (h0 : cwf a0.mem.dram = true) :
    cwf (useSlice a0 a1 a2).mem.dram = true := by
    unfold useSlice
    repeat' with_reducible first
      | assumption | intro _ | dsimp only | apply wf_slicePut | apply wf_Eng_s | apply wf_Walker_s | apply wf_ite
      | apply wf_ite1 | split | apply wf_foldl | apply wf_foldl1 | refine wf_of (by assumption) ?_ | apply wf_id

theorem wf_noteFreed (a0 : State) (a1 : ℕ) (a2 : Group) (h0 : cwf a0.mem.dram = true) :
    cwf (noteFreed a0 a1 a2).mem.dram = true := by
    unfold noteFreed
    repeat' with_reducible first
      | assumption | intro _ | dsimp only | apply wf_Eng_s | apply wf_Walker_s | apply wf_ite | apply wf_ite1 | split
      | apply wf_foldl | apply wf_foldl1 | refine wf_of (by assumption) ?_ | apply wf_id

theorem wf_replan (a0 : List (ℕ × Group)) (a1 : ℕ) (a2 : ℕ) (a3 : State) (h3 : cwf a3.mem.dram = true) :
    cwf (replan a0 a1 a2 a3).1.mem.dram = true := by
    induction a0 generalizing a1 a2 a3 with
    | nil =>
      unfold replan
      repeat' with_reducible first
        | assumption | intro _ | dsimp only | apply wf_Eng_s | apply wf_Walker_s | apply wf_setGroup | apply wf_ite
        | apply wf_ite1 | split | apply wf_foldl | apply wf_foldl1 | refine wf_of (by assumption) ?_ | apply wf_id
    | cons x r ih =>
      unfold replan
      repeat' with_reducible first
        | assumption | intro _ | dsimp only | apply ih | apply wf_Eng_s | apply wf_Walker_s | apply wf_setGroup
        | apply wf_ite | apply wf_ite1 | split | apply wf_foldl | apply wf_foldl1 | refine wf_of (by assumption) ?_
        | apply wf_id

theorem wf_closeIssue (a0 : State) (a1 : ℕ) (a2 : Group) (a3 : List DWord) (a4 : ℕ) (a5 : State)
    (h0 : cwf a0.mem.dram = true) (h5 : cwf a5.mem.dram = true) :
    cwf (closeIssue a0 a1 a2 a3 a4 a5).mem.dram = true := by
    unfold closeIssue
    repeat' with_reducible first
      | assumption | intro _ | dsimp only | apply wf_useSlice | apply wf_noteFreed | apply wf_setGroup
      | apply wf_replan | apply wf_slicePut | apply wf_Eng_s | apply wf_Walker_s | apply wf_ite | apply wf_ite1
      | split | apply wf_foldl | apply wf_foldl1 | refine wf_of (by assumption) ?_ | apply wf_id

theorem wf_afterIssue (a0 : State) (a1 : ℕ) (a2 : Group) (a3 : List DWord) (a4 : ℕ) (a5 : Out) (h0 : cwf a0.mem.dram = true)
    (h5 : OutWf a5) :
    OutWf (afterIssue a0 a1 a2 a3 a4 a5) := by
    unfold afterIssue
    split
    · exact out_next (wf_noteGroup _ _ _ _ h0 (wf_closeIssue _ _ _ _ _ _ h0 (h5 _ rfl)))
    · exact out_fault _
    · exact out_refused _

end Sys2Proof.Machine
end

