-- ==== Sys2Proof/Laws/MemoryDevice.lean ====
section
/-! SUPPORT. The canonical form of DRAM: engines, launches, the scheduler, saving, recovery, the fabric, management and events keep it. -/

namespace Sys2Proof.Machine

/-- A step of reading a launch keeps the canonical form. -/
abbrev LmWf {α : Type} (m : Lm α) : Prop := Keeps (fun k : State => cwf k.mem.dram = true) m

theorem lm_of {α : Type} {m : Lm α} {k k' : State} {r : Except Nat α} (he : (m.run k : Except Nat α × State) = (r, k'))
    (hm : LmWf m) (h : cwf k.mem.dram = true) : cwf k'.mem.dram = true := by
  have := hm k h
  rw [show m.run k = (r, k') from he] at this
  exact this

/-! ### Launch -/

theorem wf_refuseBlock (a0 : State) (a1 : ℕ) (a2 : Grid) (a3 : ℕ) (h0 : cwf a0.mem.dram = true) :
    cwf (refuseBlock a0 a1 a2 a3).mem.dram = true := by
    unfold refuseBlock
    repeat' with_reducible first | assumption | dsimp only | apply wf_stampGrid | apply wf_refusedRecord | apply wf_ite

theorem wf_captureWaits (a0 : Who) (a1 : List Byte) (a2 : List ℕ) (a3 : State) (a4 : List (ℕ × ℕ × Leaf))
    (h3 : cwf a3.mem.dram = true) :
    cwf (captureWaits a0 a1 a2 a3 a4).1.mem.dram = true := by
    induction a2 generalizing a0 a1 a3 a4 with
    | nil =>
      unfold captureWaits
      repeat' with_reducible first
        | assumption | intro _ | dsimp only | apply wf_Walker_s | apply wf_capture | apply wf_ite | apply wf_ite1
        | split | apply wf_foldl | apply wf_foldl1 | refine wf_of (by assumption) ?_ | apply wf_id | apply eng_ite1
        | refine eng_of (by assumption) ?_ | refine em_of (by assumption) ?_ ?_ | refine lm_of (by assumption) ?_ ?_
    | cons x r ih =>
      unfold captureWaits
      repeat' with_reducible first
        | assumption | intro _ | dsimp only | apply ih | apply wf_Walker_s | apply wf_capture | apply wf_ite
        | apply wf_ite1 | split | apply wf_foldl | apply wf_foldl1 | refine wf_of (by assumption) ?_ | apply wf_id
        | apply eng_ite1 | refine eng_of (by assumption) ?_ | refine em_of (by assumption) ?_ ?_
        | refine lm_of (by assumption) ?_ ?_

theorem wf_addBlock (a0 : State) (a1 : ℕ) (a2 : ℕ) (a3 : ℕ) (a4 : ℕ) (a5 : DWord) (a6 : List Byte)
    (h0 : cwf a0.mem.dram = true) :
    cwf (addBlock a0 a1 a2 a3 a4 a5 a6).mem.dram = true := by
    unfold addBlock
    repeat' with_reducible first
      | assumption | dsimp only | apply wf_takeId | apply wf_captureWaits | apply wf_refuseBlock | apply wf_ite
      | apply wf_ite1 | split

theorem wf_readNext (a0 : State) (a1 : ℕ) (a2 : ℕ) (a3 : ℕ) (a4 : ℕ) (a5 : ℕ) (a6 : QueueBody)
    (h0 : cwf a0.mem.dram = true) :
    cwf (readNext a0 a1 a2 a3 a4 a5 a6).mem.dram = true := by
    unfold readNext
    repeat' with_reducible first
      | assumption | dsimp only | apply wf_virtRead | apply wf_queueFault | apply wf_addBlock | apply wf_virtWrite
      | apply wf_ite | apply wf_ite1 | split

theorem wf_reopen (a0 : State) (a1 : ℕ) (a2 : ℕ) (h0 : cwf a0.mem.dram = true) :
    cwf (reopen a0 a1 a2).mem.dram = true := by
    unfold reopen
    repeat' with_reducible first
      | assumption | intro _ | dsimp only | apply wf_Walker_s | apply wf_ite | apply wf_ite1 | split | apply wf_foldl
      | apply wf_foldl1 | refine wf_of (by assumption) ?_ | apply wf_id | apply eng_ite1
      | refine eng_of (by assumption) ?_ | refine em_of (by assumption) ?_ ?_ | refine lm_of (by assumption) ?_ ?_

theorem wf_watchTail (a0 : State) (a1 : ℕ) (h0 : cwf a0.mem.dram = true) :
    cwf (watchTail a0 a1).mem.dram = true := by
    unfold watchTail
    repeat' with_reducible first
      | assumption | intro _ | dsimp only | apply wf_reopen | apply wf_capture | apply wf_settle | apply wf_queueFault
      | apply wf_Walker_s | apply wf_ite | apply wf_ite1 | split | apply wf_foldl | apply wf_foldl1
      | refine wf_of (by assumption) ?_ | apply wf_id | apply eng_ite1 | refine eng_of (by assumption) ?_
      | refine em_of (by assumption) ?_ ?_ | refine lm_of (by assumption) ?_ ?_

theorem wf_tailRead (a0 : State) (a1 : ℕ) (h0 : cwf a0.mem.dram = true) :
    cwf (tailRead a0 a1).mem.dram = true := by
    unfold tailRead
    repeat' with_reducible first | assumption

theorem wf_execLaunchQueueTailWrite (a0 : ℕ) (a1 : State) (h1 : cwf a1.mem.dram = true) :
    OutWf (execLaunchQueueTailWrite a0 a1) := by
    unfold execLaunchQueueTailWrite
    repeat' with_reducible first
      | assumption | dsimp only | exact out_fault _ | exact out_refused _ | apply out_next | apply wf_queueWord
      | apply wf_tailRead | apply wf_dropQueue | apply wf_readNext | apply wf_queueFault | apply wf_ite | apply wf_ite1
      | apply out_ite | split

theorem wf_lmNeed (a0 : Bool) (a1 : ℕ) :
    LmWf (lmNeed a0 a1) := by
    unfold lmNeed
    repeat' with_reducible first
      | assumption | dsimp only | exact keeps_pure _ | exact keeps_throw _ | apply keeps_get | apply keeps_set
      | apply keeps_bind | apply keeps_ite

theorem wf_lmRead (a0 : Who) (a1 : ℕ) (a2 : ℕ) (a3 : ℕ) :
    LmWf (lmRead a0 a1 a2 a3) := by
    unfold lmRead
    repeat' with_reducible first
      | assumption | dsimp only | exact keeps_pure _ | exact keeps_throw _ | apply keeps_get | apply keeps_set
      | apply keeps_bind | apply keeps_ite | apply keeps_mapM | apply keeps_forIn | apply wf_virtRead | apply wf_ite
      | apply wf_ite1 | split | intro _

theorem wf_lmAcquire (a0 : Who) (a1 : ℕ) (a2 : ℕ) (a3 : ℕ) :
    LmWf (lmAcquire a0 a1 a2 a3) := by
    unfold lmAcquire
    repeat' with_reducible first
      | assumption | intro _ | dsimp only | exact keeps_pure _ | exact keeps_throw _ | apply keeps_get
      | apply keeps_set | apply keeps_bind | apply keeps_ite | apply keeps_mapM | apply keeps_forIn
      | apply wf_publishRange | apply wf_lmRead | apply wf_ite | apply wf_ite1 | split | apply wf_foldl
      | apply wf_foldl1 | refine wf_of (by assumption) ?_ | apply wf_id | apply eng_ite1
      | refine eng_of (by assumption) ?_ | refine em_of (by assumption) ?_ ?_ | refine lm_of (by assumption) ?_ ?_

theorem wf_lmPages (a0 : Who) (a1 : Kind) (a2 : ℕ) (a3 : ℕ) (a4 : ℕ) :
    LmWf (lmPages a0 a1 a2 a3 a4) := by
    unfold lmPages
    repeat' with_reducible first
      | assumption | dsimp only | exact keeps_pure _ | exact keeps_throw _ | apply keeps_get | apply keeps_set
      | apply keeps_bind | apply keeps_ite | apply keeps_mapM | apply keeps_forIn | apply wf_translatePages
      | apply wf_ite | apply wf_ite1 | split | intro _

theorem wf_lmKernel (a0 : Who) (a1 : ℕ) :
    LmWf (lmKernel a0 a1) := by
    unfold lmKernel
    repeat' with_reducible first
      | assumption | dsimp only | exact keeps_pure _ | exact keeps_throw _ | apply keeps_get | apply keeps_set
      | apply keeps_bind | apply keeps_ite | apply keeps_mapM | apply keeps_forIn | apply wf_lmRead | apply wf_lmNeed
      | apply wf_ite | apply wf_ite1 | split | intro _

theorem wf_lmRing (a0 : Who) (a1 : List Byte) (a2 : ℕ) (a3 : ℕ) (a4 : ℕ) :
    LmWf (lmRing a0 a1 a2 a3 a4) := by
    unfold lmRing
    repeat' with_reducible first
      | assumption | dsimp only | exact keeps_pure _ | exact keeps_throw _ | apply keeps_get | apply keeps_set
      | apply keeps_bind | apply keeps_ite | apply keeps_mapM | apply keeps_forIn | apply wf_lmNeed | apply wf_lmPages
      | apply wf_ite | apply wf_ite1 | split | intro _

theorem wf_lmRings (a0 : Who) (a1 : List Byte) (a2 : ℕ) (a3 : ℕ) (a4 : List ℕ) :
    LmWf (lmRings a0 a1 a2 a3 a4) := by
    induction a4 generalizing a0 a1 a2 a3 with
    | nil =>
      unfold lmRings
      repeat' with_reducible first | assumption | dsimp only | exact keeps_pure _
    | cons x r ih =>
      unfold lmRings
      repeat' with_reducible first
        | assumption | dsimp only | apply ih | exact keeps_pure _ | exact keeps_throw _ | apply keeps_get
        | apply keeps_set | apply keeps_bind | apply keeps_ite | apply keeps_mapM | apply keeps_forIn | apply wf_lmRing
        | apply wf_ite | apply wf_ite1 | split | intro _

theorem wf_lmKernels (a0 : Who) (a1 : List StageAsk) :
    LmWf (lmKernels a0 a1) := by
    induction a1 generalizing a0 with
    | nil =>
      unfold lmKernels
      repeat' with_reducible first | assumption | dsimp only | exact keeps_pure _
    | cons x r ih =>
      unfold lmKernels
      repeat' with_reducible first
        | assumption | dsimp only | apply ih | exact keeps_pure _ | exact keeps_throw _ | apply keeps_get
        | apply keeps_set | apply keeps_bind | apply keeps_ite | apply keeps_mapM | apply keeps_forIn
        | apply wf_lmKernel | apply wf_ite | apply wf_ite1 | split | intro _

theorem wf_lmLaunch (a0 : ℕ) (a1 : Grid) (a2 : Bool) (a3 : ℕ) :
    LmWf (lmLaunch a0 a1 a2 a3) := by
    unfold lmLaunch
    repeat' with_reducible first
      | assumption | intro _ | dsimp only | exact keeps_pure _ | exact keeps_throw _ | apply keeps_get
      | apply keeps_set | apply keeps_bind | apply keeps_ite | apply keeps_mapM | apply keeps_forIn | apply wf_lmNeed
      | apply wf_lmKernels | apply wf_lmRings | apply wf_lmPages | apply wf_lmAcquire | apply wf_lmRead | apply wf_ite
      | apply wf_ite1 | split | apply wf_foldl | apply wf_foldl1 | refine wf_of (by assumption) ?_ | apply wf_id
      | apply eng_ite1 | refine eng_of (by assumption) ?_ | refine em_of (by assumption) ?_ ?_
      | refine lm_of (by assumption) ?_ ?_

theorem wf_writeAccept (a0 : State) (a1 : Grid) (a2 : ℕ) (h0 : cwf a0.mem.dram = true) :
    cwf (writeAccept a0 a1 a2).mem.dram = true := by
    unfold writeAccept
    repeat' with_reducible first | assumption | dsimp only | apply wf_virtWrite

theorem wf_addStages (a0 : Grid) (a1 : Launch) (a2 : Option ℕ) (a3 : Option ℕ) (a4 : List ℕ) (a5 : State)
    (h5 : cwf a5.mem.dram = true) :
    cwf (addStages a0 a1 a2 a3 a4 a5).mem.dram = true := by
    induction a4 generalizing a0 a1 a2 a3 a5 with
    | nil =>
      unfold addStages
      repeat' with_reducible first
        | assumption | intro _ | dsimp only | apply wf_Walker_s | apply wf_takeId | apply wf_ite | apply wf_ite1
        | split | apply wf_foldl | apply wf_foldl1 | refine wf_of (by assumption) ?_ | apply wf_id | apply eng_ite1
        | refine eng_of (by assumption) ?_ | refine em_of (by assumption) ?_ ?_ | refine lm_of (by assumption) ?_ ?_
    | cons x r ih =>
      unfold addStages
      repeat' with_reducible first
        | assumption | intro _ | dsimp only | apply ih | apply wf_Walker_s | apply wf_takeId | apply wf_ite
        | apply wf_ite1 | split | apply wf_foldl | apply wf_foldl1 | refine wf_of (by assumption) ?_ | apply wf_id
        | apply eng_ite1 | refine eng_of (by assumption) ?_ | refine em_of (by assumption) ?_ ?_
        | refine lm_of (by assumption) ?_ ?_

theorem wf_acceptLaunch (a0 : State) (a1 : ℕ) (a2 : Grid) (a3 : Launch) (h0 : cwf a0.mem.dram = true) :
    cwf (acceptLaunch a0 a1 a2 a3).mem.dram = true := by
    unfold acceptLaunch
    repeat' with_reducible first
      | assumption | dsimp only | apply wf_addStages | apply wf_refuseBlock | apply wf_writeAccept | apply wf_ite
      | apply wf_ite1 | split

theorem wf_waitDatum (a0 : State) (a1 : ℕ × ℕ × Leaf) (h0 : cwf a0.mem.dram = true) :
    cwf (waitDatum a0 a1).1.mem.dram = true := by
    unfold waitDatum
    repeat' with_reducible first
      | assumption | intro _ | dsimp only | apply wf_reachKept | apply wf_forcePublishFar | apply wf_homeExpanded
      | apply wf_homeRead64 | apply wf_Walker_s | apply wf_ite | apply wf_ite1 | split | apply wf_foldl
      | apply wf_foldl1 | refine wf_of (by assumption) ?_ | apply wf_id | apply eng_ite1
      | refine eng_of (by assumption) ?_ | refine em_of (by assumption) ?_ ?_ | refine lm_of (by assumption) ?_ ?_

theorem wf_testWaits (a0 : List (ℕ × ℕ × Leaf)) (a1 : State) (h1 : cwf a1.mem.dram = true) :
    cwf (testWaits a0 a1).1.mem.dram = true := by
    induction a0 generalizing a1 with
    | nil =>
      unfold testWaits
      repeat' with_reducible first
        | assumption | intro _ | dsimp only | apply wf_Walker_s | apply wf_waitDatum | apply wf_ite | apply wf_ite1
        | split | apply wf_foldl | apply wf_foldl1 | refine wf_of (by assumption) ?_ | apply wf_id | apply eng_ite1
        | refine eng_of (by assumption) ?_ | refine em_of (by assumption) ?_ ?_ | refine lm_of (by assumption) ?_ ?_
    | cons x r ih =>
      unfold testWaits
      repeat' with_reducible first
        | assumption | intro _ | dsimp only | apply ih | apply wf_Walker_s | apply wf_waitDatum | apply wf_ite
        | apply wf_ite1 | split | apply wf_foldl | apply wf_foldl1 | refine wf_of (by assumption) ?_ | apply wf_id
        | apply eng_ite1 | refine eng_of (by assumption) ?_ | refine em_of (by assumption) ?_ ?_
        | refine lm_of (by assumption) ?_ ?_

theorem wf_execBlockEligible (a0 : ℕ) (a1 : State) (h1 : cwf a1.mem.dram = true) :
    OutWf (execBlockEligible a0 a1) := by
    unfold execBlockEligible
    repeat' with_reducible first
      | assumption | intro _ | dsimp only | exact out_fault _ | exact out_refused _ | apply out_next
      | exact keeps_pure _ | exact keeps_throw _ | apply keeps_get | apply keeps_set | apply keeps_bind
      | apply keeps_ite | apply keeps_mapM | apply keeps_forIn | apply wf_endContext | apply wf_testWaits
      | apply wf_lmLaunch | apply wf_refuseBlock | apply wf_acceptLaunch | apply wf_Walker_s | apply wf_ite
      | apply wf_ite1 | apply out_ite | split | apply wf_foldl | apply wf_foldl1 | refine wf_of (by assumption) ?_
      | apply wf_id | apply eng_ite1 | refine eng_of (by assumption) ?_ | refine em_of (by assumption) ?_ ?_
      | refine lm_of (by assumption) ?_ ?_

theorem wf_execPriorityAging (a0 : ℕ) (a1 : State) (h1 : cwf a1.mem.dram = true) :
    OutWf (execPriorityAging a0 a1) := by
    unfold execPriorityAging
    repeat' with_reducible first
      | assumption | dsimp only | exact out_fault _ | exact out_refused _ | apply out_next | apply wf_ite
      | apply wf_ite1 | apply out_ite | split

/-! ### Sched -/

theorem wf_execBinTimerExpiry (a0 : ℕ) (a1 : ℕ) (a2 : State) (h2 : cwf a2.mem.dram = true) :
    OutWf (execBinTimerExpiry a0 a1 a2) := by
    unfold execBinTimerExpiry
    repeat' with_reducible first
      | assumption | dsimp only | exact out_fault _ | exact out_refused _ | apply out_next | apply wf_tryLaunch
      | apply wf_ite | apply wf_ite1 | apply out_ite | split

theorem wf_execBinLaunchDeferred (a0 : ℕ) (a1 : ℕ) (a2 : State) (h2 : cwf a2.mem.dram = true) :
    OutWf (execBinLaunchDeferred a0 a1 a2) := by
    unfold execBinLaunchDeferred
    repeat' with_reducible first
      | assumption | dsimp only | exact out_fault _ | exact out_refused _ | apply out_next | apply wf_launchBin
      | apply wf_ite | apply wf_ite1 | apply out_ite | split

theorem wf_execRegroupTimeout (a0 : ℕ) (a1 : State) (h1 : cwf a1.mem.dram = true) :
    OutWf (execRegroupTimeout a0 a1) := by
    unfold execRegroupTimeout
    repeat' with_reducible first
      | assumption | dsimp only | exact out_fault _ | exact out_refused _ | apply out_next | apply wf_leaveWait
      | apply wf_setGroup | apply wf_ite | apply wf_ite1 | apply out_ite | split

theorem wf_enterSlice (a0 : State) (a1 : ℕ) (a2 : Group) (a3 : ℕ) (h0 : cwf a0.mem.dram = true) :
    cwf (enterSlice a0 a1 a2 a3).mem.dram = true := by
    unfold enterSlice
    repeat' with_reducible first | assumption | dsimp only | apply wf_setGroup

theorem wf_enterPending (a0 : State) (a1 : ℕ) (a2 : Group) (h0 : cwf a0.mem.dram = true) :
    cwf (enterPending a0 a1 a2).mem.dram = true := by
    unfold enterPending
    repeat' with_reducible first | assumption | dsimp only | apply wf_setGroup

theorem wf_execStallExchange (a0 : ℕ) (a1 : State) (h1 : cwf a1.mem.dram = true) :
    OutWf (execStallExchange a0 a1) := by
    unfold execStallExchange
    repeat' with_reducible first
      | assumption | dsimp only | exact out_fault _ | exact out_refused _ | apply out_next | apply wf_enterSlice
      | apply wf_enterPending | apply wf_ite | apply wf_ite1 | apply out_ite | split

theorem wf_execEmptySlotFill (a0 : ℕ) (a1 : ℕ) (a2 : State) (h2 : cwf a2.mem.dram = true) :
    OutWf (execEmptySlotFill a0 a1 a2) := by
    unfold execEmptySlotFill
    repeat' with_reducible first
      | assumption | dsimp only | exact out_fault _ | exact out_refused _ | apply out_next | apply wf_enterSlice
      | apply wf_ite | apply wf_ite1 | apply out_ite | split

theorem wf_execPendingAgeExpiry (a0 : ℕ) (a1 : State) (h1 : cwf a1.mem.dram = true) :
    OutWf (execPendingAgeExpiry a0 a1) := by
    unfold execPendingAgeExpiry
    repeat' with_reducible first
      | assumption | dsimp only | exact out_fault _ | exact out_refused _ | apply out_next | apply wf_enterSlice
      | apply wf_enterPending | apply wf_ite | apply wf_ite1 | apply out_ite | split

theorem wf_takeSlot (a0 : State) (a1 : ℕ) (a2 : ℕ) (h0 : cwf a0.mem.dram = true) :
    cwf (takeSlot a0 a1 a2).mem.dram = true := by
    unfold takeSlot
    repeat' with_reducible first | assumption | dsimp only | apply wf_ite | apply wf_ite1 | split

theorem wf_startGroups (a0 : ℕ) (a1 : ℕ) (a2 : ℕ) (a3 : DWord) (a4 : DWord) (a5 : List (ℕ × ℕ)) (a6 : State)
    (h6 : cwf a6.mem.dram = true) :
    cwf (startGroups a0 a1 a2 a3 a4 a5 a6).mem.dram = true := by
    induction a5 generalizing a0 a1 a2 a3 a4 a6 with
    | nil =>
      unfold startGroups
      repeat' with_reducible first | assumption
    | cons x r ih =>
      unfold startGroups
      repeat' with_reducible first | assumption | dsimp only | apply ih | apply wf_takeId | apply wf_setGroup

theorem wf_writeTeamMap (a0 : State) (a1 : Grid) (a2 : ℕ) (h0 : cwf a0.mem.dram = true) :
    cwf (writeTeamMap a0 a1 a2).mem.dram = true := by
    unfold writeTeamMap
    repeat' with_reducible first | assumption | dsimp only | apply wf_mappedWrite | apply wf_ite | apply wf_ite1 | split

theorem wf_placeTeam (a0 : State) (a1 : ℕ) (a2 : ℕ) (h0 : cwf a0.mem.dram = true) :
    cwf (placeTeam a0 a1 a2).mem.dram = true := by
    unfold placeTeam
    repeat' with_reducible first
      | assumption | dsimp only | apply wf_writeTeamMap | apply wf_takeId | apply wf_setTeam | apply wf_takeSlot
      | apply wf_startGroups | apply wf_acquireAt | apply wf_ite | apply wf_ite1 | split

theorem wf_placeStage (a0 : ℕ) (a1 : ℕ) (a2 : State) (h2 : cwf a2.mem.dram = true) :
    cwf (placeStage a0 a1 a2).mem.dram = true := by
    induction a1 generalizing a0 a2 with
    | zero =>
      unfold placeStage
      repeat' with_reducible first | assumption
    | succ n ih =>
      unfold placeStage
      repeat' with_reducible first
        | assumption | dsimp only | apply ih | apply wf_placeTeam | apply wf_ite | apply wf_ite1 | split

theorem wf_placePipeline (a0 : State) (a1 : ℕ) (h0 : cwf a0.mem.dram = true) :
    cwf (placePipeline a0 a1).mem.dram = true := by
    unfold placePipeline
    repeat' with_reducible first
      | assumption | dsimp only | apply wf_placeStage | apply wf_ite | apply wf_ite1 | split | apply wf_foldl
      | apply wf_foldl1 | intro _

theorem wf_execTeamPlace (a0 : ℕ) (a1 : ℕ) (a2 : State) (h2 : cwf a2.mem.dram = true) :
    OutWf (execTeamPlace a0 a1 a2) := by
    unfold execTeamPlace
    repeat' with_reducible first
      | assumption | dsimp only | exact out_fault _ | exact out_refused _ | apply out_next | apply wf_placePipeline
      | apply wf_placeTeam | apply wf_ite | apply wf_ite1 | apply out_ite | split

theorem wf_execTeamEnd (a0 : ℕ) (a1 : State) (h1 : cwf a1.mem.dram = true) :
    OutWf (execTeamEnd a0 a1) := by
    unfold execTeamEnd
    repeat' with_reducible first
      | assumption | dsimp only | exact out_fault _ | exact out_refused _ | apply out_next | apply wf_removeTeam
      | apply wf_dropWindows | apply wf_ite | apply wf_ite1 | apply out_ite | split

theorem wf_closeGrid (a0 : State) (a1 : ℕ) (a2 : Grid) (h0 : cwf a0.mem.dram = true) :
    cwf (closeGrid a0 a1 a2).mem.dram = true := by
    unfold closeGrid
    repeat' with_reducible first
      | assumption | dsimp only | apply wf_pushDirty | apply wf_stampGrid | apply wf_ite | apply wf_ite1 | split
      | apply wf_foldl

theorem wf_execGridEnd (a0 : ℕ) (a1 : State) (h1 : cwf a1.mem.dram = true) :
    OutWf (execGridEnd a0 a1) := by
    unfold execGridEnd
    repeat' with_reducible first
      | assumption | dsimp only | exact out_fault _ | exact out_refused _ | apply out_next | apply wf_closeGrid
      | apply wf_ite | apply wf_ite1 | apply out_ite | split

theorem wf_execBudgetOverrun (a0 : ℕ) (a1 : State) (h1 : cwf a1.mem.dram = true) :
    OutWf (execBudgetOverrun a0 a1) := by
    unfold execBudgetOverrun
    repeat' with_reducible first
      | assumption | dsimp only | exact out_fault _ | exact out_refused _ | apply out_next | apply wf_endTeam
      | apply wf_ite | apply wf_ite1 | apply out_ite | split

theorem wf_execSplitReconfigure (a0 : ℕ) (a1 : State) (h1 : cwf a1.mem.dram = true) :
    OutWf (execSplitReconfigure a0 a1) := by
    unfold execSplitReconfigure
    repeat' with_reducible first
      | assumption | dsimp only | exact out_fault _ | exact out_refused _ | apply out_next | apply wf_evict
      | apply wf_setCore | apply wf_ite | apply wf_ite1 | apply out_ite | split | apply wf_foldl | apply wf_foldl1
      | intro _

/-! ### Perform -/

theorem wf_Eng_s (a0 : Eng) (h0 : cwf a0.s.mem.dram = true) :
    cwf (Eng.s a0).mem.dram = true := by
    unfold Eng.s
    repeat' with_reducible first | assumption

theorem wf_eRead (a0 : ℕ) (a1 : ℕ) :
    EmWf (eRead a0 a1) := by
    unfold eRead
    repeat' with_reducible first
      | assumption | dsimp only | exact keeps_pure _ | exact keeps_throw _ | apply keeps_get | apply keeps_set
      | apply keeps_bind | apply keeps_ite | apply keeps_mapM | apply keeps_forIn | apply wf_virtRead | apply wf_Eng_s
      | apply wf_ite | apply wf_ite1 | split | intro _

theorem wf_eWrite (a0 : ℕ) (a1 : List Byte) :
    EmWf (eWrite a0 a1) := by
    unfold eWrite
    repeat' with_reducible first
      | assumption | dsimp only | exact keeps_pure _ | exact keeps_throw _ | apply keeps_get | apply keeps_set
      | apply keeps_bind | apply keeps_ite | apply keeps_mapM | apply keeps_forIn | apply wf_Eng_s | apply wf_ite
      | apply wf_ite1 | split | intro _

theorem wf_flushRuns (a0 : Who) (a1 : ℕ) (a2 : Tab Byte) (a3 : State) (h3 : cwf a3.mem.dram = true) :
    cwf (flushRuns a0 a1 a2 a3).1.mem.dram = true := by
    induction a1 generalizing a0 a2 a3 with
    | zero =>
      unfold flushRuns
      repeat' with_reducible first
        | assumption | intro _ | dsimp only | apply wf_Eng_s | apply wf_Walker_s | apply wf_virtWrite | apply wf_ite
        | apply wf_ite1 | split | apply wf_foldl | apply wf_foldl1 | refine wf_of (by assumption) ?_ | apply wf_id
        | apply eng_ite1 | refine eng_of (by assumption) ?_ | refine em_of (by assumption) ?_ ?_
        | refine lm_of (by assumption) ?_ ?_
    | succ n ih =>
      unfold flushRuns
      repeat' with_reducible first
        | assumption | intro _ | dsimp only | apply ih | apply wf_Eng_s | apply wf_Walker_s | apply wf_virtWrite
        | apply wf_ite | apply wf_ite1 | split | apply wf_foldl | apply wf_foldl1 | refine wf_of (by assumption) ?_
        | apply wf_id | apply eng_ite1 | refine eng_of (by assumption) ?_ | refine em_of (by assumption) ?_ ?_
        | refine lm_of (by assumption) ?_ ?_

theorem wf_flushBuf (a0 : ℕ) (a1 : Queue) (a2 : Entry) (a3 : Tab Byte) (a4 : State) (h4 : cwf a4.mem.dram = true) :
    cwf (flushBuf a0 a1 a2 a3 a4).1.mem.dram = true := by
    unfold flushBuf
    repeat' with_reducible first
      | assumption | intro _ | dsimp only | apply wf_flushRuns | apply wf_noteEntry | apply wf_Eng_s
      | apply wf_Walker_s | apply wf_ite | apply wf_ite1 | split | apply wf_foldl | apply wf_foldl1
      | refine wf_of (by assumption) ?_ | apply wf_id | apply eng_ite1 | refine eng_of (by assumption) ?_
      | refine em_of (by assumption) ?_ ?_ | refine lm_of (by assumption) ?_ ?_

theorem wf_runElems (a0 : ℕ → Em Unit) (a1 : ℕ) (a2 : ℕ) (a3 : Eng) (h0 : ∀ a, EmWf (a0 a)) (h3 : cwf a3.s.mem.dram = true) :
    cwf (runElems a0 a1 a2 a3).1.s.mem.dram = true := by
    induction a1 generalizing a2 a3 with
    | zero => exact h3
    | succ n ih =>
      unfold runElems
      have h := h0 a2 a3 h3
      generalize hx : (a0 a2).run a3 = x at h
      obtain ⟨x, k⟩ := x
      change (a0 a2) a3 = (x, k) at hx
      cases x with
      | ok u => exact ih _ _ h
      | error e => exact h

theorem wf_elemsPayload (a0 : ℕ) (a1 : List ℕ) (a2 : Eng) (a3 : ℕ → Em Unit) (a4 : BitVec 16)
    (h2 : cwf a2.s.mem.dram = true) (h3 : ∀ a, EmWf (a3 a)) :
    cwf (elemsPayload a0 a1 a2 a3 a4).1.s.mem.dram = true := by
    unfold elemsPayload
    repeat' with_reducible first
      | assumption | dsimp only | apply h3 | exact keeps_pure _ | exact keeps_throw _ | apply keeps_get
      | apply keeps_set | apply keeps_bind | apply keeps_ite | apply keeps_mapM | apply keeps_forIn | apply wf_runElems

theorem wf_wholePayload (a0 : Eng) (a1 : Em (BitVec 16)) (h0 : cwf a0.s.mem.dram = true) (h1 : EmWf a1) :
    cwf (wholePayload a0 a1).1.s.mem.dram = true := by
    exact h1 a0 h0

theorem wf_gather (a0 : ℕ) (a1 : ℕ) (a2 : ℕ) (a3 : List ℕ) (a4 : Eng) (h4 : cwf a4.s.mem.dram = true) :
    cwf (gather a0 a1 a2 a3 a4).1.s.mem.dram = true := by
    induction a2 generalizing a0 a1 a3 a4 with
    | zero =>
      unfold gather
      repeat' with_reducible first
        | assumption | intro _ | dsimp only | exact keeps_pure _ | exact keeps_throw _ | apply keeps_get
        | apply keeps_set | apply keeps_bind | apply keeps_ite | apply keeps_mapM | apply keeps_forIn | apply wf_eRead
        | apply wf_ite | apply wf_ite1 | split | apply wf_foldl | apply wf_foldl1 | refine wf_of (by assumption) ?_
        | apply wf_id | apply eng_ite1 | refine eng_of (by assumption) ?_ | refine em_of (by assumption) ?_ ?_
        | refine lm_of (by assumption) ?_ ?_
    | succ n ih =>
      unfold gather
      repeat' with_reducible first
        | assumption | intro _ | dsimp only | exact keeps_pure _ | exact keeps_throw _ | apply keeps_get
        | apply keeps_set | apply keeps_bind | apply keeps_ite | apply keeps_mapM | apply keeps_forIn | apply ih
        | apply wf_eRead | apply wf_ite | apply wf_ite1 | split | apply wf_foldl | apply wf_foldl1
        | refine wf_of (by assumption) ?_ | apply wf_id | apply eng_ite1 | refine eng_of (by assumption) ?_
        | refine em_of (by assumption) ?_ ?_ | refine lm_of (by assumption) ?_ ?_

theorem wf_gatherRun (a0 : ℕ × ℕ) (a1 : List ℕ) (a2 : Eng) (h2 : cwf a2.s.mem.dram = true) :
    cwf (gatherRun a0 a1 a2).1.s.mem.dram = true := by
    unfold gatherRun
    repeat' with_reducible first
      | assumption | intro _ | dsimp only | apply wf_gather | apply wf_ite | apply wf_ite1 | split | apply wf_foldl
      | apply wf_foldl1 | refine wf_of (by assumption) ?_ | apply wf_id | apply eng_ite1
      | refine eng_of (by assumption) ?_ | refine em_of (by assumption) ?_ ?_ | refine lm_of (by assumption) ?_ ?_

theorem wf_gatherPayload (a0 : ℕ × ℕ) (a1 : List ℕ) (a2 : Eng) (a3 : List Byte → Em (BitVec 16))
    (h2 : cwf a2.s.mem.dram = true) (h3 : ∀ a, EmWf (a3 a)) :
    cwf (gatherPayload a0 a1 a2 a3).1.s.mem.dram = true := by
    unfold gatherPayload
    repeat' with_reducible first
      | assumption | intro _ | dsimp only | apply h3 | apply wf_gatherRun | apply wf_wholePayload | apply wf_ite
      | apply wf_ite1 | split | apply wf_foldl | apply wf_foldl1 | refine wf_of (by assumption) ?_ | apply wf_id
      | apply eng_ite1 | refine eng_of (by assumption) ?_ | refine em_of (by assumption) ?_ ?_
      | refine lm_of (by assumption) ?_ ?_

theorem wf_runRows (a0 : ℕ → ℕ × ℕ) (a1 : ℕ → List Byte → Em ℕ) (a2 : ℕ) (a3 : ℕ) (a4 : ℕ) (a5 : List ℕ) (a6 : Eng)
    (h1 : ∀ a b, EmWf (a1 a b)) (h6 : cwf a6.s.mem.dram = true) :
    cwf (runRows a0 a1 a2 a3 a4 a5 a6).1.s.mem.dram = true := by
    induction a2 generalizing a0 a1 a3 a4 a5 a6 with
    | zero =>
      unfold runRows
      repeat' with_reducible first
        | assumption | intro _ | dsimp only | apply h1 | apply wf_gatherRun | apply wf_ite | apply wf_ite1 | split
        | apply wf_foldl | apply wf_foldl1 | refine wf_of (by assumption) ?_ | apply wf_id | apply eng_ite1
        | refine eng_of (by assumption) ?_ | refine em_of (by assumption) ?_ ?_ | refine lm_of (by assumption) ?_ ?_
    | succ n ih =>
      unfold runRows
      repeat' with_reducible first
        | assumption | intro _ | dsimp only | apply h1 | apply ih | apply wf_gatherRun | apply wf_ite | apply wf_ite1
        | split | apply wf_foldl | apply wf_foldl1 | refine wf_of (by assumption) ?_ | apply wf_id | apply eng_ite1
        | refine eng_of (by assumption) ?_ | refine em_of (by assumption) ?_ ?_ | refine lm_of (by assumption) ?_ ?_

theorem wf_putEntry (a0 : State) (a1 : ℕ) (a2 : Queue) (a3 : Entry) (h0 : cwf a0.mem.dram = true) :
    cwf (putEntry a0 a1 a2 a3).mem.dram = true := by
    unfold putEntry
    repeat' with_reducible first | assumption | dsimp only | apply wf_setCore

theorem wf_endEntry (a0 : State) (a1 : ℕ) (a2 : Queue) (a3 : Entry) (a4 : BitVec 16) (h0 : cwf a0.mem.dram = true) :
    cwf (endEntry a0 a1 a2 a3 a4).mem.dram = true := by
    unfold endEntry
    repeat' with_reducible first | assumption | dsimp only | apply wf_drainQueue | apply wf_putEntry

theorem wf_stopEntry (a0 : State) (a1 : ℕ) (a2 : Queue) (a3 : Entry) (a4 : EErr) (h0 : cwf a0.mem.dram = true) :
    cwf (stopEntry a0 a1 a2 a3 a4).mem.dram = true := by
    unfold stopEntry
    repeat' with_reducible first
      | assumption | dsimp only | apply wf_putEntry | apply wf_endContext | apply wf_endEntry | apply wf_ite
      | apply wf_ite1 | split

theorem wf_execEngineEntryPark (a0 : ℕ) (a1 : Queue) (a2 : State) (h2 : cwf a2.mem.dram = true) :
    OutWf (execEngineEntryPark a0 a1 a2) := by
    unfold execEngineEntryPark
    repeat' with_reducible first
      | assumption | dsimp only | exact out_fault _ | exact out_refused _ | apply out_next | apply wf_takeId
      | apply wf_putEntry | apply wf_record | apply wf_ite | apply wf_ite1 | apply out_ite | split

theorem wf_payloadOf (a0 : Entry → Eng → Payload) (a1 : Entry) (a2 : Eng)
    (h0 : ∀ a z, cwf z.s.mem.dram = true → cwf (a0 a z).1.s.mem.dram = true) (h2 : cwf a2.s.mem.dram = true) :
    cwf (payloadOf a0 a1 a2).1.s.mem.dram = true := by
    unfold payloadOf
    repeat' with_reducible first
      | assumption | intro _ | dsimp only | apply h0 | apply wf_ite | apply wf_ite1 | split | apply wf_foldl
      | apply wf_foldl1 | refine wf_of (by assumption) ?_ | apply wf_id | apply eng_ite1
      | refine eng_of (by assumption) ?_ | refine em_of (by assumption) ?_ ?_ | refine lm_of (by assumption) ?_ ?_

theorem wf_settleEntry (a0 : State) (a1 : ℕ) (a2 : Queue) (a3 : Entry) (a4 : Except EErr (BitVec 16)) (a5 : Option EErr)
    (h0 : cwf a0.mem.dram = true) :
    cwf (settleEntry a0 a1 a2 a3 a4 a5).mem.dram = true := by
    unfold settleEntry
    repeat' with_reducible first
      | assumption | dsimp only | apply wf_endEntry | apply wf_stopEntry | apply wf_ite | apply wf_ite1 | split

theorem wf_runEntry (a0 : State) (a1 : ℕ) (a2 : Queue) (a3 : Entry) (a4 : Entry → Eng → Payload)
    (h0 : cwf a0.mem.dram = true) (h4 : ∀ a z, cwf z.s.mem.dram = true → cwf (a4 a z).1.s.mem.dram = true) :
    cwf (runEntry a0 a1 a2 a3 a4).mem.dram = true := by
    unfold runEntry
    repeat' with_reducible first
      | assumption | intro _ | dsimp only | apply h4 | apply wf_payloadOf | apply wf_pushForEntry | apply wf_flushBuf
      | apply wf_Eng_s | apply wf_settleEntry | apply wf_Walker_s | apply wf_ite | apply wf_ite1 | split
      | apply wf_foldl | apply wf_foldl1 | refine wf_of (by assumption) ?_ | apply wf_id | apply eng_ite1
      | refine eng_of (by assumption) ?_ | refine em_of (by assumption) ?_ ?_ | refine lm_of (by assumption) ?_ ?_

theorem wf_performEntry (a0 : ℕ) (a1 : Queue) (a2 : ℕ) (a3 : State) (a4 : List Byte → Bool) (a5 : Entry → Eng → Payload)
    (h3 : cwf a3.mem.dram = true) (h5 : ∀ a e, cwf e.s.mem.dram = true → cwf (a5 a e).1.s.mem.dram = true) :
    OutWf (performEntry a0 a1 a2 a3 a4 a5) := by
    unfold performEntry
    repeat' with_reducible first
      | assumption | dsimp only | apply h5 | exact out_fault _ | exact out_refused _ | apply out_next
      | apply wf_endEntry | apply wf_runEntry | apply wf_ite | apply wf_ite1 | apply out_ite | split

theorem wf_copyPiece (a0 : List Byte) (a1 : ℕ) :
    EmWf (copyPiece a0 a1) := by
    unfold copyPiece
    repeat' with_reducible first
      | assumption | dsimp only | exact keeps_pure _ | exact keeps_throw _ | apply keeps_get | apply keeps_set
      | apply keeps_bind | apply keeps_ite | apply keeps_mapM | apply keeps_forIn | apply wf_eRead | apply wf_eWrite

theorem wf_moveSlices (a0 : List Byte → ℕ → Em Unit) (a1 : List (List Byte)) (a2 : ℕ) (a3 : List ℕ) (a4 : Eng)
    (h0 : ∀ a b, EmWf (a0 a b)) (h4 : cwf a4.s.mem.dram = true) :
    cwf (moveSlices a0 a1 a2 a3 a4).1.s.mem.dram = true := by
    induction a2 generalizing a3 a4 with
    | zero => exact h4
    | succ n ih =>
      unfold moveSlices
      split
      · exact h4
      · have h := h0 (a1.getD (nextSlice a1 a3 a4) []) (a3.getD (nextSlice a1 a3 a4) 0)
          { a4 with s := { a4.s with fresh := a4.s.fresh + 1 } } h4
        dsimp only
        generalize hx : (a0 (a1.getD (nextSlice a1 a3 a4) []) (a3.getD (nextSlice a1 a3 a4) 0)).run
          { a4 with s := { a4.s with fresh := a4.s.fresh + 1 } } = x at h
        obtain ⟨x, k'⟩ := x
        change a0 (a1.getD (nextSlice a1 a3 a4) []) (a3.getD (nextSlice a1 a3 a4) 0)
          { a4 with s := { a4.s with fresh := a4.s.fresh + 1 } } = (x, k') at hx
        cases x with
        | ok u => exact ih _ _ h
        | error e => exact h

theorem wf_copyLoop (a0 : List (List Byte)) (a1 : ℕ) (a2 : List ℕ) (a3 : Eng) (h3 : cwf a3.s.mem.dram = true) :
    cwf (copyLoop a0 a1 a2 a3).1.s.mem.dram = true := by
    unfold copyLoop
    repeat' with_reducible first
      | assumption | dsimp only | exact keeps_pure _ | exact keeps_throw _ | apply keeps_get | apply keeps_set
      | apply keeps_bind | apply keeps_ite | apply keeps_mapM | apply keeps_forIn | apply wf_moveSlices
      | apply wf_copyPiece

theorem wf_execCpyPerform (a0 : ℕ) (a1 : State) (h1 : cwf a1.mem.dram = true) :
    OutWf (execCpyPerform a0 a1) := by
    unfold execCpyPerform
    repeat' with_reducible first
      | assumption | dsimp only | exact out_fault _ | exact out_refused _ | apply out_next | apply wf_performEntry
      | apply wf_copyLoop | apply wf_ite | apply wf_ite1 | apply out_ite | split | apply wf_foldl | apply wf_foldl1
      | intro _

theorem wf_execCpytPerform (a0 : ℕ) (a1 : State) (h1 : cwf a1.mem.dram = true) :
    OutWf (execCpytPerform a0 a1) := by
    unfold execCpytPerform
    repeat' with_reducible first
      | assumption | dsimp only | exact keeps_pure _ | exact keeps_throw _ | apply keeps_get | apply keeps_set
      | apply keeps_bind | apply keeps_ite | apply keeps_mapM | apply keeps_forIn | exact out_fault _
      | exact out_refused _ | apply out_next | apply wf_performEntry | apply wf_elemsPayload | apply wf_eWrite
      | apply wf_eRead | apply wf_ite | apply wf_ite1 | apply out_ite | split | apply wf_foldl | apply wf_foldl1
      | intro _

theorem wf_cpycElem (a0 : List Byte) (a1 : ℕ) :
    EmWf (cpycElem a0 a1) := by
    unfold cpycElem
    repeat' with_reducible first
      | assumption | dsimp only | exact keeps_pure _ | exact keeps_throw _ | apply keeps_get | apply keeps_set
      | apply keeps_bind | apply keeps_ite | apply keeps_mapM | apply keeps_forIn | apply wf_eRead | apply wf_eWrite
      | apply wf_ite | apply wf_ite1 | split | intro _

theorem wf_execCpycPerform (a0 : ℕ) (a1 : State) (h1 : cwf a1.mem.dram = true) :
    OutWf (execCpycPerform a0 a1) := by
    unfold execCpycPerform
    repeat' with_reducible first
      | assumption | dsimp only | exact keeps_pure _ | exact keeps_throw _ | apply keeps_get | apply keeps_set
      | apply keeps_bind | apply keeps_ite | apply keeps_mapM | apply keeps_forIn | exact out_fault _
      | exact out_refused _ | apply out_next | apply wf_performEntry | apply wf_elemsPayload | apply wf_cpycElem
      | apply wf_ite | apply wf_ite1 | apply out_ite | split | apply wf_foldl | apply wf_foldl1 | intro _

theorem wf_execCsumPerform (a0 : ℕ) (a1 : State) (h1 : cwf a1.mem.dram = true) :
    OutWf (execCsumPerform a0 a1) := by
    unfold execCsumPerform
    repeat' with_reducible first
      | assumption | intro _ | dsimp only | exact out_fault _ | exact out_refused _ | apply out_next
      | exact keeps_pure _ | exact keeps_throw _ | apply keeps_get | apply keeps_set | apply keeps_bind
      | apply keeps_ite | apply keeps_mapM | apply keeps_forIn | apply wf_performEntry | apply wf_gatherPayload
      | apply wf_eWrite | apply wf_Eng_s | apply wf_Walker_s | apply wf_ite | apply wf_ite1 | apply out_ite | split
      | apply wf_foldl | apply wf_foldl1 | refine wf_of (by assumption) ?_ | apply wf_id | apply eng_ite1
      | refine eng_of (by assumption) ?_ | refine em_of (by assumption) ?_ ?_ | refine lm_of (by assumption) ?_ ?_

theorem wf_execDecqPerform (a0 : ℕ) (a1 : State) (h1 : cwf a1.mem.dram = true) :
    OutWf (execDecqPerform a0 a1) := by
    unfold execDecqPerform
    repeat' with_reducible first
      | assumption | intro _ | dsimp only | exact out_fault _ | exact out_refused _ | apply out_next
      | exact keeps_pure _ | exact keeps_throw _ | apply keeps_get | apply keeps_set | apply keeps_bind
      | apply keeps_ite | apply keeps_mapM | apply keeps_forIn | apply wf_performEntry | apply wf_gatherPayload
      | apply wf_eWrite | apply wf_Eng_s | apply wf_Walker_s | apply wf_ite | apply wf_ite1 | apply out_ite | split
      | apply wf_foldl | apply wf_foldl1 | refine wf_of (by assumption) ?_ | apply wf_id | apply eng_ite1
      | refine eng_of (by assumption) ?_ | refine em_of (by assumption) ?_ ?_ | refine lm_of (by assumption) ?_ ?_

theorem wf_stacksOf (a0 : Who) (a1 : List ℕ) (a2 : State) (a3 : List ℕ) (h2 : cwf a2.mem.dram = true) :
    cwf (stacksOf a0 a1 a2 a3).1.mem.dram = true := by
    induction a1 generalizing a0 a2 a3 with
    | nil =>
      unfold stacksOf
      repeat' with_reducible first | assumption
    | cons x r ih =>
      unfold stacksOf
      repeat' with_reducible first
        | assumption | dsimp only | apply ih | apply wf_translate | apply wf_ite | apply wf_ite1 | split

theorem wf_oneStack (a0 : List (ℕ × ℕ)) (a1 : Eng) (h1 : cwf a1.s.mem.dram = true) :
    cwf (oneStack a0 a1).1.s.mem.dram = true := by
    unfold oneStack
    repeat' with_reducible first
      | assumption | intro _ | dsimp only | apply wf_stacksOf | apply wf_Eng_s | apply wf_Walker_s | apply wf_ite
      | apply wf_ite1 | split | apply wf_foldl | apply wf_foldl1 | refine wf_of (by assumption) ?_ | apply wf_id
      | apply eng_ite1 | refine eng_of (by assumption) ?_ | refine em_of (by assumption) ?_ ?_
      | refine lm_of (by assumption) ?_ ?_

theorem wf_rowsPayload (a0 : ℕ × ℕ) (a1 : ℕ → ℕ × ℕ) (a2 : ℕ) (a3 : List Byte → ℕ → List Byte → Em ℕ) (a4 : ℕ → BitVec 16)
    (a5 : List ℕ) (a6 : Eng) (h3 : ∀ a b c, EmWf (a3 a b c)) (h6 : cwf a6.s.mem.dram = true) :
    cwf (rowsPayload a0 a1 a2 a3 a4 a5 a6).1.s.mem.dram = true := by
    unfold rowsPayload
    repeat' with_reducible first
      | assumption | intro _ | dsimp only | apply h3 | apply wf_oneStack | apply wf_gatherRun | apply wf_runRows
      | apply wf_ite | apply wf_ite1 | split | apply wf_foldl | apply wf_foldl1 | refine wf_of (by assumption) ?_
      | apply wf_id | apply eng_ite1 | refine eng_of (by assumption) ?_ | refine em_of (by assumption) ?_ ?_
      | refine lm_of (by assumption) ?_ ?_

theorem wf_topkRow (a0 : List Byte) (a1 : List Byte) (a2 : ℕ) (a3 : List Byte) :
    EmWf (topkRow a0 a1 a2 a3) := by
    unfold topkRow
    repeat' with_reducible first
      | assumption | intro _ | dsimp only | exact keeps_pure _ | exact keeps_throw _ | apply keeps_get
      | apply keeps_set | apply keeps_bind | apply keeps_ite | apply keeps_mapM | apply keeps_forIn | apply wf_eWrite
      | apply wf_ite | apply wf_ite1 | split | apply wf_foldl | apply wf_foldl1 | refine wf_of (by assumption) ?_
      | apply wf_id | apply eng_ite1 | refine eng_of (by assumption) ?_ | refine em_of (by assumption) ?_ ?_
      | refine lm_of (by assumption) ?_ ?_

theorem wf_execTopkPerform (a0 : ℕ) (a1 : State) (h1 : cwf a1.mem.dram = true) :
    OutWf (execTopkPerform a0 a1) := by
    unfold execTopkPerform
    repeat' with_reducible first
      | assumption | intro _ | dsimp only | exact out_fault _ | exact out_refused _ | apply out_next
      | exact keeps_pure _ | exact keeps_throw _ | apply keeps_get | apply keeps_set | apply keeps_bind
      | apply keeps_ite | apply keeps_mapM | apply keeps_forIn | apply wf_performEntry | apply wf_rowsPayload
      | apply wf_topkRow | apply wf_Eng_s | apply wf_Walker_s | apply wf_ite | apply wf_ite1 | apply out_ite | split
      | apply wf_foldl | apply wf_foldl1 | refine wf_of (by assumption) ?_ | apply wf_id | apply eng_ite1
      | refine eng_of (by assumption) ?_ | refine em_of (by assumption) ?_ ?_ | refine lm_of (by assumption) ?_ ?_

theorem wf_rmvRow (a0 : List Byte) (a1 : List Byte) (a2 : ℕ) (a3 : List Byte) :
    EmWf (rmvRow a0 a1 a2 a3) := by
    unfold rmvRow
    repeat' with_reducible first
      | assumption | intro _ | dsimp only | exact keeps_pure _ | exact keeps_throw _ | apply keeps_get
      | apply keeps_set | apply keeps_bind | apply keeps_ite | apply keeps_mapM | apply keeps_forIn | apply wf_eWrite
      | apply wf_ite | apply wf_ite1 | split | apply wf_foldl | apply wf_foldl1 | refine wf_of (by assumption) ?_
      | apply wf_id | apply eng_ite1 | refine eng_of (by assumption) ?_ | refine em_of (by assumption) ?_ ?_
      | refine lm_of (by assumption) ?_ ?_

theorem wf_execRmvPerform (a0 : ℕ) (a1 : State) (h1 : cwf a1.mem.dram = true) :
    OutWf (execRmvPerform a0 a1) := by
    unfold execRmvPerform
    repeat' with_reducible first
      | assumption | intro _ | dsimp only | exact out_fault _ | exact out_refused _ | apply out_next
      | exact keeps_pure _ | exact keeps_throw _ | apply keeps_get | apply keeps_set | apply keeps_bind
      | apply keeps_ite | apply keeps_mapM | apply keeps_forIn | apply wf_performEntry | apply wf_rowsPayload
      | apply wf_rmvRow | apply wf_Eng_s | apply wf_Walker_s | apply wf_ite | apply wf_ite1 | apply out_ite | split
      | apply wf_foldl | apply wf_foldl1 | refine wf_of (by assumption) ?_ | apply wf_id | apply eng_ite1
      | refine eng_of (by assumption) ?_ | refine em_of (by assumption) ?_ ?_ | refine lm_of (by assumption) ?_ ?_

theorem wf_sendBy (a0 : State) (a1 : ℕ) (a2 : Reply) (h0 : cwf a0.mem.dram = true) :
    cwf (sendBy a0 a1 a2).mem.dram = true := by
    unfold sendBy
    repeat' with_reducible first
      | assumption | intro _ | dsimp only | apply wf_Eng_s | apply wf_Walker_s | apply wf_ite | apply wf_ite1 | split
      | apply wf_foldl | apply wf_foldl1 | refine wf_of (by assumption) ?_ | apply wf_id | apply eng_ite1
      | refine eng_of (by assumption) ?_ | refine em_of (by assumption) ?_ ?_ | refine lm_of (by assumption) ?_ ?_

theorem wf_submitStq (a0 : State) (a1 : ℕ) (a2 : Entry) (a3 : Bool) (a4 : ℕ) (a5 : ℕ) (h0 : cwf a0.mem.dram = true) :
    cwf (submitStq a0 a1 a2 a3 a4 a5).mem.dram = true := by
    unfold submitStq
    repeat' with_reducible first
      | assumption | intro _ | dsimp only | apply wf_putEntry | apply wf_sendBy | apply wf_endEntry
      | apply wf_snapRest | apply wf_stopEntry | apply wf_translatePages | apply wf_Eng_s | apply wf_Walker_s
      | apply wf_ite | apply wf_ite1 | split | apply wf_foldl | apply wf_foldl1 | refine wf_of (by assumption) ?_
      | apply wf_id | apply eng_ite1 | refine eng_of (by assumption) ?_ | refine em_of (by assumption) ?_ ?_
      | refine lm_of (by assumption) ?_ ?_

theorem wf_execStqSubmit (a0 : ℕ) (a1 : State) (h1 : cwf a1.mem.dram = true) :
    OutWf (execStqSubmit a0 a1) := by
    unfold execStqSubmit
    repeat' with_reducible first
      | assumption | intro _ | dsimp only | exact out_fault _ | exact out_refused _ | apply out_next
      | apply wf_endEntry | apply wf_submitStq | apply wf_pushForEntry | apply wf_Eng_s | apply wf_Walker_s
      | apply wf_ite | apply wf_ite1 | apply out_ite | split | apply wf_foldl | apply wf_foldl1
      | refine wf_of (by assumption) ?_ | apply wf_id | apply eng_ite1 | refine eng_of (by assumption) ?_
      | refine em_of (by assumption) ?_ ?_ | refine lm_of (by assumption) ?_ ?_

theorem wf_execNvmeCompletion (a0 : ℕ) (a1 : BitVec 3) (a2 : BitVec 8) (a3 : State) (h3 : cwf a3.mem.dram = true) :
    OutWf (execNvmeCompletion a0 a1 a2 a3) := by
    unfold execNvmeCompletion
    repeat' with_reducible first
      | assumption | dsimp only | exact out_fault _ | exact out_refused _ | apply out_next | apply wf_endEntry
      | apply wf_ite | apply wf_ite1 | apply out_ite | split

theorem wf_netqOut (a0 : State) (a1 : Entry) (a2 : List Byte) (h0 : cwf a0.mem.dram = true) :
    cwf (netqOut a0 a1 a2).mem.dram = true := by
    unfold netqOut
    repeat' with_reducible first
      | assumption | intro _ | dsimp only | apply wf_sendBy | apply wf_Eng_s | apply wf_Walker_s | apply wf_ite
      | apply wf_ite1 | split | apply wf_foldl | apply wf_foldl1 | refine wf_of (by assumption) ?_ | apply wf_id
      | apply eng_ite1 | refine eng_of (by assumption) ?_ | refine em_of (by assumption) ?_ ?_
      | refine lm_of (by assumption) ?_ ?_

theorem wf_sendNetq (a0 : State) (a1 : ℕ) (a2 : Entry) (a3 : List Byte) (h0 : cwf a0.mem.dram = true) :
    cwf (sendNetq a0 a1 a2 a3).mem.dram = true := by
    unfold sendNetq
    repeat' with_reducible first
      | assumption | intro _ | dsimp only | apply wf_netqOut | apply wf_putEntry | apply wf_Eng_s | apply wf_Walker_s
      | apply wf_ite | apply wf_ite1 | split | apply wf_foldl | apply wf_foldl1 | refine wf_of (by assumption) ?_
      | apply wf_id | apply eng_ite1 | refine eng_of (by assumption) ?_ | refine em_of (by assumption) ?_ ?_
      | refine lm_of (by assumption) ?_ ?_

theorem wf_startNetq (a0 : State) (a1 : ℕ) (a2 : Entry) (h0 : cwf a0.mem.dram = true) :
    cwf (startNetq a0 a1 a2).mem.dram = true := by
    unfold startNetq
    repeat' with_reducible first
      | assumption | dsimp only | apply wf_sendNetq | apply wf_translatePages | apply wf_stopEntry | apply wf_virtRead
      | apply wf_ite | apply wf_ite1 | split

theorem wf_execNetqPerform (a0 : ℕ) (a1 : State) (h1 : cwf a1.mem.dram = true) :
    OutWf (execNetqPerform a0 a1) := by
    unfold execNetqPerform
    repeat' with_reducible first
      | assumption | intro _ | dsimp only | exact out_fault _ | exact out_refused _ | apply out_next
      | apply wf_flushBuf | apply wf_endEntry | apply wf_stopEntry | apply wf_startNetq | apply wf_pushForEntry
      | apply wf_Eng_s | apply wf_Walker_s | apply wf_ite | apply wf_ite1 | apply out_ite | split | apply wf_foldl
      | apply wf_foldl1 | refine wf_of (by assumption) ?_ | apply wf_id | apply eng_ite1
      | refine eng_of (by assumption) ?_ | refine em_of (by assumption) ?_ ?_ | refine lm_of (by assumption) ?_ ?_

theorem wf_execNetqAck (a0 : ℕ) (a1 : Bool) (a2 : List Byte) (a3 : State) (h3 : cwf a3.mem.dram = true) :
    OutWf (execNetqAck a0 a1 a2 a3) := by
    unfold execNetqAck
    repeat' with_reducible first
      | assumption | dsimp only | exact out_fault _ | exact out_refused _ | apply out_next | apply wf_endEntry
      | apply wf_flushBuf | apply wf_stopEntry | apply wf_ite | apply wf_ite1 | apply out_ite | split

theorem wf_failPair (a0 : ℕ) (a1 : ℕ) (a2 : State) (a3 : ℕ) (h2 : cwf a2.mem.dram = true) :
    cwf (failPair a0 a1 a2 a3).mem.dram = true := by
    unfold failPair
    repeat' with_reducible first
      | assumption | dsimp only | apply wf_endEntry | apply wf_ite | apply wf_ite1 | split | apply wf_foldl
      | apply wf_foldl1 | intro _

theorem wf_execRdmaAckTimeout (a0 : ℕ) (a1 : State) (h1 : cwf a1.mem.dram = true) :
    OutWf (execRdmaAckTimeout a0 a1) := by
    unfold execRdmaAckTimeout
    repeat' with_reducible first
      | assumption | intro _ | dsimp only | exact out_fault _ | exact out_refused _ | apply out_next
      | apply wf_netqOut | apply wf_putEntry | apply wf_failPair | apply wf_Eng_s | apply wf_Walker_s | apply wf_ite
      | apply wf_ite1 | apply out_ite | split | apply wf_foldl | apply wf_foldl1 | refine wf_of (by assumption) ?_
      | apply wf_id | apply eng_ite1 | refine eng_of (by assumption) ?_ | refine em_of (by assumption) ?_ ?_
      | refine lm_of (by assumption) ?_ ?_

/-! ### Save -/

theorem wf_withdraw (a0 : State) (a1 : ℕ) (a2 : Group) (h0 : cwf a0.mem.dram = true) :
    cwf (withdraw a0 a1 a2).mem.dram = true := by
    unfold withdraw
    repeat' with_reducible first | assumption | dsimp only | apply wf_setTeam | apply wf_ite | apply wf_ite1 | split

theorem wf_cancelAsks (a0 : State) (a1 : ℕ) (a2 : Group) (h0 : cwf a0.mem.dram = true) :
    cwf (cancelAsks a0 a1 a2).mem.dram = true := by
    unfold cancelAsks
    repeat' with_reducible first
      | assumption | dsimp only | apply wf_setGroup | apply wf_setCore | apply wf_ite | apply wf_ite1 | split

theorem wf_stopGroup (a0 : State) (a1 : ℕ) (a2 : Group) (a3 : Option DWord) (h0 : cwf a0.mem.dram = true) :
    cwf (stopGroup a0 a1 a2 a3).mem.dram = true := by
    unfold stopGroup
    repeat' with_reducible first
      | assumption | dsimp only | apply wf_withdraw | apply wf_setGroup | apply wf_cancelAsks | apply wf_ite
      | apply wf_ite1 | split

theorem wf_execPreemptRequest (a0 : ℕ) (a1 : State) (h1 : cwf a1.mem.dram = true) :
    OutWf (execPreemptRequest a0 a1) := by
    unfold execPreemptRequest
    repeat' with_reducible first
      | assumption | intro _ | dsimp only | exact out_fault _ | exact out_refused _ | apply out_next
      | apply wf_setTeam | apply wf_freezeBins | apply wf_stopGroup | apply wf_Eng_s | apply wf_Walker_s
      | apply wf_ite | apply wf_ite1 | apply out_ite | split | apply wf_foldl | apply wf_foldl1
      | refine wf_of (by assumption) ?_ | apply wf_id

theorem wf_execHardPreempt (a0 : ℕ) (a1 : State) (h1 : cwf a1.mem.dram = true) :
    OutWf (execHardPreempt a0 a1) := by
    unfold execHardPreempt
    repeat' with_reducible first
      | assumption | intro _ | dsimp only | exact out_fault _ | exact out_refused _ | apply out_next
      | apply wf_freezeBins | apply wf_stopGroup | apply wf_Eng_s | apply wf_Walker_s | apply wf_ite | apply wf_ite1
      | apply out_ite | split | apply wf_foldl | apply wf_foldl1 | refine wf_of (by assumption) ?_ | apply wf_id

theorem wf_execTeamSave (a0 : ℕ) (a1 : State) (h1 : cwf a1.mem.dram = true) :
    OutWf (execTeamSave a0 a1) := by
    unfold execTeamSave
    repeat' with_reducible first
      | assumption | intro _ | dsimp only | exact out_fault _ | exact out_refused _ | apply out_next
      | apply wf_windowFlush | apply wf_physWrite | apply wf_rekeyOwn | apply wf_releaseAt | apply wf_wakeSlots
      | apply wf_setCore | apply wf_setTeam | apply wf_Eng_s | apply wf_Walker_s | apply wf_ite | apply wf_ite1
      | apply out_ite | split | apply wf_foldl | apply wf_foldl1 | refine wf_of (by assumption) ?_ | apply wf_id

theorem wf_slotRead (a0 : State) (a1 : ℕ) (a2 : ℕ) (a3 : ℕ) (a4 : ℕ) (a5 : ℕ) (h0 : cwf a0.mem.dram = true) :
    cwf (slotRead a0 a1 a2 a3 a4 a5).1.mem.dram = true := by
    unfold slotRead
    repeat' with_reducible first
      | assumption | intro _ | dsimp only | apply wf_physRead | apply wf_rekeyOwn | apply wf_Eng_s | apply wf_Walker_s
      | apply wf_ite | apply wf_ite1 | split | apply wf_foldl | apply wf_foldl1 | refine wf_of (by assumption) ?_
      | apply wf_id

theorem wf_readGroups (a0 : ℕ) (a1 : ℕ) (a2 : ℕ) (a3 : ℕ) (a4 : ℕ) (a5 : DWord) (a6 : List (ℕ × ℕ)) (a7 : State)
    (h7 : cwf a7.mem.dram = true) :
    cwf (readGroups a0 a1 a2 a3 a4 a5 a6 a7).mem.dram = true := by
    induction a6 generalizing a0 a1 a2 a3 a4 a5 a7 with
    | nil =>
      unfold readGroups
      repeat' with_reducible first
        | assumption | intro _ | dsimp only | apply wf_Eng_s | apply wf_Walker_s | apply wf_setGroup
        | apply wf_slotRead | apply wf_ite | apply wf_ite1 | split | apply wf_foldl | apply wf_foldl1
        | refine wf_of (by assumption) ?_ | apply wf_id
    | cons x r ih =>
      unfold readGroups
      repeat' with_reducible first
        | assumption | intro _ | dsimp only | apply ih | apply wf_Eng_s | apply wf_Walker_s | apply wf_setGroup
        | apply wf_slotRead | apply wf_ite | apply wf_ite1 | split | apply wf_foldl | apply wf_foldl1
        | refine wf_of (by assumption) ?_ | apply wf_id

theorem wf_readQueue (a0 : ℕ) (a1 : ℕ) (a2 : ℕ) (a3 : ℕ) (a4 : ℕ) (a5 : State) (h5 : cwf a5.mem.dram = true) :
    cwf (readQueue a0 a1 a2 a3 a4 a5).1.mem.dram = true := by
    induction a3 generalizing a0 a1 a2 a4 a5 with
    | zero =>
      unfold readQueue
      repeat' with_reducible first
        | assumption | intro _ | dsimp only | apply wf_Eng_s | apply wf_Walker_s | apply wf_slotRead | apply wf_ite
        | apply wf_ite1 | split | apply wf_foldl | apply wf_foldl1 | refine wf_of (by assumption) ?_ | apply wf_id
    | succ n ih =>
      unfold readQueue
      repeat' with_reducible first
        | assumption | intro _ | dsimp only | apply ih | apply wf_Eng_s | apply wf_Walker_s | apply wf_slotRead
        | apply wf_ite | apply wf_ite1 | split | apply wf_foldl | apply wf_foldl1 | refine wf_of (by assumption) ?_
        | apply wf_id

theorem wf_renumber (a0 : List ℕ) (a1 : State) (h1 : cwf a1.mem.dram = true) :
    cwf (renumber a0 a1).1.mem.dram = true := by
    unfold renumber
    repeat' with_reducible first | assumption

theorem wf_oweAgain (a0 : List (ℕ × ℕ)) (a1 : State) (a2 : ℕ × Pend) (h1 : cwf a1.mem.dram = true) :
    cwf (oweAgain a0 a1 a2).mem.dram = true := by
    unfold oweAgain
    repeat' with_reducible first | assumption | dsimp only | apply wf_setGroup | apply wf_ite | apply wf_ite1 | split

theorem wf_fenceAgain (a0 : State) (a1 : ℕ × Cells 3 × Tab (List ℕ)) (h0 : cwf a0.mem.dram = true) :
    cwf (fenceAgain a0 a1).mem.dram = true := by
    unfold fenceAgain
    repeat' with_reducible first
      | assumption | intro _ | dsimp only | apply wf_setGroup | apply wf_Eng_s | apply wf_Walker_s | apply wf_ite
      | apply wf_ite1 | split | apply wf_foldl | apply wf_foldl1 | refine wf_of (by assumption) ?_ | apply wf_id

theorem wf_redoAgain (a0 : State) (a1 : ℕ × Wait × ℕ × List BinLane) (h0 : cwf a0.mem.dram = true) :
    cwf (redoAgain a0 a1).mem.dram = true := by
    unfold redoAgain
    repeat' with_reducible first
      | assumption | intro _ | dsimp only | apply wf_park | apply wf_Eng_s | apply wf_Walker_s | apply wf_ite
      | apply wf_ite1 | split | apply wf_foldl | apply wf_foldl1 | refine wf_of (by assumption) ?_ | apply wf_id

theorem wf_requeue (a0 : State) (a1 : ℕ) (a2 : ℕ) (a3 : Kept) (a4 : List SavedEntry) (h0 : cwf a0.mem.dram = true) :
    cwf (requeue a0 a1 a2 a3 a4).mem.dram = true := by
    unfold requeue
    repeat' with_reducible first
      | assumption | intro _ | dsimp only | apply wf_renumber | apply wf_setCore | apply wf_redoAgain
      | apply wf_fenceAgain | apply wf_oweAgain | apply wf_Eng_s | apply wf_Walker_s | apply wf_ite | apply wf_ite1
      | split | apply wf_foldl | apply wf_foldl1 | refine wf_of (by assumption) ?_ | apply wf_id

theorem wf_restoreBins (a0 : ℕ) (a1 : List Bin) (a2 : State) (h2 : cwf a2.mem.dram = true) :
    cwf (restoreBins a0 a1 a2).mem.dram = true := by
    induction a1 generalizing a0 a2 with
    | nil =>
      unfold restoreBins
      repeat' with_reducible first | assumption
    | cons x r ih =>
      unfold restoreBins
      repeat' with_reducible first | assumption | dsimp only | apply ih | apply wf_setCore

theorem wf_undrained (a0 : State) (a1 : ℕ) (h0 : cwf a0.mem.dram = true) :
    cwf (undrained a0 a1).mem.dram = true := by
    unfold undrained
    repeat' with_reducible first
      | assumption | intro _ | dsimp only | apply wf_setCore | apply wf_Eng_s | apply wf_Walker_s | apply wf_ite
      | apply wf_ite1 | split | apply wf_foldl | apply wf_foldl1 | refine wf_of (by assumption) ?_ | apply wf_id

theorem wf_execSplitDrain (a0 : ℕ) (a1 : ℕ) (a2 : State) (h2 : cwf a2.mem.dram = true) :
    OutWf (execSplitDrain a0 a1 a2) := by
    unfold execSplitDrain
    repeat' with_reducible first
      | assumption | intro _ | dsimp only | exact out_fault _ | exact out_refused _ | apply out_next
      | apply wf_setCore | apply wf_undrained | apply wf_Eng_s | apply wf_Walker_s | apply wf_ite | apply wf_ite1
      | apply out_ite | split | apply wf_foldl | apply wf_foldl1 | refine wf_of (by assumption) ?_ | apply wf_id

theorem wf_slotBroken (a0 : State) (a1 : Team) (a2 : Grid) (a3 : ℕ) (a4 : ℕ) (h0 : cwf a0.mem.dram = true) :
    cwf (slotBroken a0 a1 a2 a3 a4).mem.dram = true := by
    unfold slotBroken
    repeat' with_reducible first
      | assumption | intro _ | dsimp only | apply wf_endContext | apply wf_Eng_s | apply wf_Walker_s | apply wf_ite
      | apply wf_ite1 | split | apply wf_foldl | apply wf_foldl1 | refine wf_of (by assumption) ?_ | apply wf_id

theorem wf_loadTeam (a0 : State) (a1 : ℕ) (a2 : ℕ) (a3 : Team) (a4 : Grid) (a5 : ℕ) (a6 : ℕ) (a7 : List Byte)
    (h0 : cwf a0.mem.dram = true) :
    cwf (loadTeam a0 a1 a2 a3 a4 a5 a6 a7).mem.dram = true := by
    unfold loadTeam
    repeat' with_reducible first
      | assumption | intro _ | dsimp only | apply wf_slotBroken | apply wf_slotRead | apply wf_takeId
      | apply wf_setTeam | apply wf_acquireAt | apply wf_readGroups | apply wf_restoreBins | apply wf_readQueue
      | apply wf_recaptureAll | apply wf_requeue | apply wf_Eng_s | apply wf_Walker_s | apply wf_ite | apply wf_ite1
      | split | apply wf_foldl | apply wf_foldl1 | refine wf_of (by assumption) ?_ | apply wf_id

theorem wf_execTeamResume (a0 : ℕ) (a1 : ℕ) (a2 : State) (h2 : cwf a2.mem.dram = true) :
    OutWf (execTeamResume a0 a1 a2) := by
    unfold execTeamResume
    repeat' with_reducible first
      | assumption | intro _ | dsimp only | exact out_fault _ | exact out_refused _ | apply out_next
      | apply wf_slotRead | apply wf_slotBroken | apply wf_loadTeam | apply wf_Eng_s | apply wf_Walker_s
      | apply wf_ite | apply wf_ite1 | apply out_ite | split | apply wf_foldl | apply wf_foldl1
      | refine wf_of (by assumption) ?_ | apply wf_id

/-! ### Recover -/

theorem wf_devWrite (a0 : State) (a1 : ℕ) (a2 : ℕ) (a3 : List Byte) (h0 : cwf a0.mem.dram = true) :
    cwf (devWrite a0 a1 a2 a3).mem.dram = true := by
    unfold devWrite
    repeat' with_reducible first
      | assumption | intro _ | dsimp only | apply wf_physWrite | apply wf_rekeyOwn | apply wf_Eng_s
      | apply wf_Walker_s | apply wf_ite | apply wf_ite1 | split | apply wf_foldl | apply wf_foldl1
      | refine wf_of (by assumption) ?_ | apply wf_id

theorem wf_devRead64 (a0 : State) (a1 : ℕ) (a2 : ℕ) (h0 : cwf a0.mem.dram = true) :
    cwf (devRead64 a0 a1 a2).1.mem.dram = true := by
    unfold devRead64
    repeat' with_reducible first
      | assumption | intro _ | dsimp only | apply wf_homeRead64 | apply wf_rekeyOwn | apply wf_Eng_s
      | apply wf_Walker_s | apply wf_ite | apply wf_ite1 | split | apply wf_foldl | apply wf_foldl1
      | refine wf_of (by assumption) ?_ | apply wf_id

theorem wf_execFaultRecordWrite (a0 : ℕ) (a1 : State) (h1 : cwf a1.mem.dram = true) :
    OutWf (execFaultRecordWrite a0 a1) := by
    unfold execFaultRecordWrite
    repeat' with_reducible first
      | assumption | dsimp only | exact out_fault _ | exact out_refused _ | apply out_next | apply wf_devWrite
      | apply wf_ite | apply wf_ite1 | apply out_ite | split

theorem wf_mapEntry (a0 : State) (a1 : ℕ) (a2 : ℕ) (a3 : Entry → Entry) (h0 : cwf a0.mem.dram = true) :
    cwf (mapEntry a0 a1 a2 a3).mem.dram = true := by
    unfold mapEntry
    repeat' with_reducible first | assumption | dsimp only | apply wf_setCore

theorem wf_serviced (a0 : State) (a1 : FaultRec) (h0 : cwf a0.mem.dram = true) :
    cwf (serviced a0 a1).mem.dram = true := by
    unfold serviced
    repeat' with_reducible first
      | assumption | dsimp only | apply wf_retryWait | apply wf_recaptureAll | apply wf_leaveWait | apply wf_mapEntry
      | apply wf_ite | apply wf_ite1 | split

theorem wf_execFaultAction (a0 : ℕ) (a1 : ℕ) (a2 : State) (h2 : cwf a2.mem.dram = true) :
    OutWf (execFaultAction a0 a1 a2) := by
    unfold execFaultAction
    repeat' with_reducible first
      | assumption | intro _ | dsimp only | exact out_fault _ | exact out_refused _ | apply out_next
      | apply wf_devRead64 | apply wf_serviced | apply wf_endContext | apply wf_Eng_s | apply wf_Walker_s
      | apply wf_ite | apply wf_ite1 | apply out_ite | split | apply wf_foldl | apply wf_foldl1
      | refine wf_of (by assumption) ?_ | apply wf_id

theorem wf_declareDead (a0 : State) (a1 : AgentId) (h0 : cwf a0.mem.dram = true) :
    cwf (declareDead a0 a1).mem.dram = true := by
    unfold declareDead
    repeat' with_reducible first | assumption | dsimp only | apply wf_setCore | apply wf_ite | apply wf_ite1 | split

theorem wf_dropAgent (a0 : State) (a1 : ℕ) (h0 : cwf a0.mem.dram = true) :
    cwf (dropAgent a0 a1).mem.dram = true := by
    unfold dropAgent
    repeat' with_reducible first | assumption

theorem wf_dropEntries (a0 : State) (a1 : List (ℕ × Queue × Entry)) (h0 : cwf a0.mem.dram = true) :
    cwf (dropEntries a0 a1).mem.dram = true := by
    unfold dropEntries
    repeat' with_reducible first
      | assumption | intro _ | dsimp only | apply wf_wakeSlots | apply wf_setCore | apply wf_Eng_s | apply wf_Walker_s
      | apply wf_ite | apply wf_ite1 | split | apply wf_foldl | apply wf_foldl1 | refine wf_of (by assumption) ?_
      | apply wf_id

theorem wf_agentDies (a0 : State) (a1 : AgentId) (h0 : cwf a0.mem.dram = true) :
    cwf (agentDies a0 a1).mem.dram = true := by
    unfold agentDies
    repeat' with_reducible first
      | assumption | intro _ | dsimp only | apply wf_declareDead | apply wf_dropAgent | apply wf_endContext
      | apply wf_dropEntries | apply wf_Eng_s | apply wf_Walker_s | apply wf_ite | apply wf_ite1 | split
      | apply wf_foldl | apply wf_foldl1 | refine wf_of (by assumption) ?_ | apply wf_id

theorem wf_execAgentTimeout (a0 : Unanswered) (a1 : State) (h1 : cwf a1.mem.dram = true) :
    OutWf (execAgentTimeout a0 a1) := by
    unfold execAgentTimeout
    repeat' with_reducible first
      | assumption | intro _ | dsimp only | exact out_fault _ | exact out_refused _ | apply out_next
      | apply wf_agentDies | apply wf_Eng_s | apply wf_Walker_s | apply wf_ite | apply wf_ite1 | apply out_ite | split
      | apply wf_foldl | apply wf_foldl1 | refine wf_of (by assumption) ?_ | apply wf_id

theorem wf_dropMessage (a0 : State) (a1 : ℕ) (a2 : BitVec 8) (a3 : ℕ) (h0 : cwf a0.mem.dram = true) :
    cwf (dropMessage a0 a1 a2 a3).mem.dram = true := by
    unfold dropMessage
    repeat' with_reducible first
      | assumption | intro _ | dsimp only | apply wf_Eng_s | apply wf_Walker_s | apply wf_ite | apply wf_ite1 | split
      | apply wf_foldl | apply wf_foldl1 | refine wf_of (by assumption) ?_ | apply wf_id

theorem wf_execStaleMessageDrop (a0 : AgentId) (a1 : BitVec 8) (a2 : ℕ) (a3 : State) (h3 : cwf a3.mem.dram = true) :
    OutWf (execStaleMessageDrop a0 a1 a2 a3) := by
    unfold execStaleMessageDrop
    repeat' with_reducible first
      | assumption | intro _ | dsimp only | exact out_fault _ | exact out_refused _ | apply out_next
      | apply wf_dropMessage | apply wf_Eng_s | apply wf_Walker_s | apply wf_ite | apply wf_ite1 | apply out_ite
      | split | apply wf_foldl | apply wf_foldl1 | refine wf_of (by assumption) ?_ | apply wf_id

theorem wf_execHomeWrite (a0 : Sender) (a1 : ℕ) (a2 : BitVec 64) (a3 : BitVec 512) (a4 : State)
    (h4 : cwf a4.mem.dram = true) :
    OutWf (execHomeWrite a0 a1 a2 a3 a4) := by
    unfold execHomeWrite
    repeat' with_reducible first
      | assumption | intro _ | dsimp only | exact out_fault _ | exact out_refused _ | apply out_next
      | apply wf_dropMessage | apply wf_putCopy | apply wf_homeWrite | apply wf_Eng_s | apply wf_Walker_s
      | apply wf_ite | apply wf_ite1 | apply out_ite | split | apply wf_foldl | apply wf_foldl1
      | refine wf_of (by assumption) ?_ | apply wf_id

theorem wf_execForcedPublish (a0 : ℕ) (a1 : State) (h1 : cwf a1.mem.dram = true) :
    OutWf (execForcedPublish a0 a1) := by
    unfold execForcedPublish
    repeat' with_reducible first
      | assumption | intro _ | dsimp only | exact out_fault _ | exact out_refused _ | apply out_next
      | apply wf_publishMark | apply wf_Eng_s | apply wf_Walker_s | apply wf_ite | apply wf_ite1 | apply out_ite
      | split | apply wf_foldl | apply wf_foldl1 | refine wf_of (by assumption) ?_ | apply wf_id

theorem wf_execRdcSweep (a0 : ℕ) (a1 : State) (h1 : cwf a1.mem.dram = true) :
    OutWf (execRdcSweep a0 a1) := by
    unfold execRdcSweep
    repeat' with_reducible first | assumption | dsimp only | exact out_fault _ | exact out_refused _ | apply out_next

theorem wf_execScrubDram (a0 : ℕ) (a1 : ℕ) (a2 : State) (h2 : cwf a2.mem.dram = true) :
    OutWf (execScrubDram a0 a1 a2) := by
    unfold execScrubDram
    repeat' with_reducible first | assumption | dsimp only | exact out_fault _ | exact out_refused _ | apply out_next

theorem wf_execScrubSram (a0 : ℕ) (a1 : ℕ) (a2 : State) (h2 : cwf a2.mem.dram = true) :
    OutWf (execScrubSram a0 a1 a2) := by
    unfold execScrubSram
    repeat' with_reducible first | assumption | dsimp only | exact out_fault _ | exact out_refused _ | apply out_next

theorem wf_poisonSector (a0 : State) (a1 : ℕ) (h0 : cwf a0.mem.dram = true) :
    cwf (poisonSector a0 a1).mem.dram = true := by
    unfold poisonSector
    repeat' with_reducible first | assumption

theorem wf_errorEnds (a0 : State) (a1 : ℕ) (a2 : ℕ) (a3 : ℕ) (a4 : Option ℕ) (a5 : ℕ) (h0 : cwf a0.mem.dram = true) :
    cwf (errorEnds a0 a1 a2 a3 a4 a5).mem.dram = true := by
    unfold errorEnds
    repeat' with_reducible first
      | assumption | intro _ | dsimp only | apply wf_endContext | apply wf_Eng_s | apply wf_Walker_s | apply wf_ite
      | apply wf_ite1 | split | apply wf_foldl | apply wf_foldl1 | refine wf_of (by assumption) ?_ | apply wf_id

theorem wf_teamLost (a0 : State) (a1 : ℕ) (a2 : ℕ) (h0 : cwf a0.mem.dram = true) :
    cwf (teamLost a0 a1 a2).mem.dram = true := by
    unfold teamLost
    repeat' with_reducible first | assumption | dsimp only | apply wf_errorEnds | apply wf_ite | apply wf_ite1 | split

theorem wf_dropClean (a0 : State) (a1 : ℕ) (a2 : ℕ) (h0 : cwf a0.mem.dram = true) :
    cwf (dropClean a0 a1 a2).mem.dram = true := by
    unfold dropClean
    repeat' with_reducible first | assumption | dsimp only | apply wf_rdcDrop

theorem wf_loseDirty (a0 : State) (a1 : ℕ) (a2 : ℕ) (h0 : cwf a0.mem.dram = true) :
    cwf (loseDirty a0 a1 a2).mem.dram = true := by
    unfold loseDirty
    repeat' with_reducible first | assumption | dsimp only | apply wf_errorEnds | apply wf_poisonSector | apply wf_dropCopy

theorem wf_writeDump (a0 : State) (a1 : List Byte) (h0 : cwf a0.mem.dram = true) :
    cwf (writeDump a0 a1).mem.dram = true := by
    unfold writeDump
    repeat' with_reducible first | assumption | dsimp only | apply wf_physWrite | apply wf_ite | apply wf_ite1 | split

theorem wf_partitionFatal (a0 : State) (a1 : ℕ) (a2 : BitVec 32) (h0 : cwf a0.mem.dram = true) :
    cwf (partitionFatal a0 a1 a2).mem.dram = true := by
    unfold partitionFatal
    repeat' with_reducible first | assumption | dsimp only | apply wf_endPartition | apply wf_writeDump

theorem wf_endAll (a0 : State) (h0 : cwf a0.mem.dram = true) :
    cwf (endAll a0).mem.dram = true := by
    unfold endAll
    repeat' with_reducible first
      | assumption | intro _ | dsimp only | apply wf_endPartition | apply wf_Eng_s | apply wf_Walker_s | apply wf_ite
      | apply wf_ite1 | split | apply wf_foldl | apply wf_foldl1 | refine wf_of (by assumption) ?_ | apply wf_id

theorem wf_execDeviceFatal (a0 : BitVec 32) (a1 : State) (h1 : cwf a1.mem.dram = true) :
    OutWf (execDeviceFatal a0 a1) := by
    unfold execDeviceFatal
    repeat' with_reducible first
      | assumption | intro _ | dsimp only | exact out_fault _ | exact out_refused _ | apply out_next
      | apply wf_writeDump | apply wf_endAll | apply wf_Eng_s | apply wf_Walker_s | apply wf_ite | apply wf_ite1
      | apply out_ite | split | apply wf_foldl | apply wf_foldl1 | refine wf_of (by assumption) ?_ | apply wf_id

theorem wf_sliceFails (a0 : State) (a1 : ℕ) (h0 : cwf a0.mem.dram = true) :
    cwf (sliceFails a0 a1).mem.dram = true := by
    unfold sliceFails
    repeat' with_reducible first
      | assumption | intro _ | dsimp only | apply wf_partitionFatal | apply wf_Eng_s | apply wf_Walker_s
      | apply wf_ite | apply wf_ite1 | split | apply wf_foldl | apply wf_foldl1 | refine wf_of (by assumption) ?_
      | apply wf_id

theorem wf_execUncorrectableError (a0 : ErrAt) (a1 : State) (h1 : cwf a1.mem.dram = true) :
    OutWf (execUncorrectableError a0 a1) := by
    unfold execUncorrectableError
    repeat' with_reducible first
      | assumption | intro _ | dsimp only | exact out_fault _ | exact out_refused _ | apply out_next
      | apply wf_dropClean | apply wf_loseDirty | apply wf_poisonSector | apply wf_putWindow | apply wf_teamLost
      | apply wf_sliceFails | apply wf_agentDies | apply wf_Eng_s | apply wf_Walker_s | apply wf_ite | apply wf_ite1
      | apply out_ite | split | apply wf_foldl | apply wf_foldl1 | refine wf_of (by assumption) ?_ | apply wf_id

theorem wf_execLoadDataReturn (a0 : ℕ) (a1 : State) (h1 : cwf a1.mem.dram = true) :
    OutWf (execLoadDataReturn a0 a1) := by
    unfold execLoadDataReturn
    repeat' with_reducible first
      | assumption | dsimp only | exact out_fault _ | exact out_refused _ | apply out_next | apply wf_setGroup
      | apply wf_ite | apply wf_ite1 | apply out_ite | split

theorem wf_execPageWalk (a0 : ℕ) (a1 : ℕ) (a2 : ℕ) (a3 : DWord) (a4 : Bool) (a5 : Bool) (a6 : State)
    (h6 : cwf a6.mem.dram = true) :
    OutWf (execPageWalk a0 a1 a2 a3 a4 a5 a6) := by
    unfold execPageWalk
    repeat' with_reducible first
      | assumption | dsimp only | exact out_fault _ | exact out_refused _ | apply out_next | apply wf_translate

theorem wf_fetchTable (a0 : State) (a1 : ℕ) (a2 : ℕ) (a3 : ℕ) (a4 : ℕ) (h0 : cwf a0.mem.dram = true) :
    cwf (fetchTable a0 a1 a2 a3 a4).mem.dram = true := by
    unfold fetchTable
    repeat' with_reducible first
      | assumption | dsimp only | apply wf_virtRead | apply wf_putHeld | apply wf_ite | apply wf_ite1 | split

theorem wf_execCodebookTableArrival (a0 : ℕ) (a1 : ℕ) (a2 : ℕ) (a3 : ℕ) (a4 : ℕ) (a5 : State) (h5 : cwf a5.mem.dram = true) :
    OutWf (execCodebookTableArrival a0 a1 a2 a3 a4 a5) := by
    unfold execCodebookTableArrival
    repeat' with_reducible first
      | assumption | dsimp only | exact out_fault _ | exact out_refused _ | apply out_next | apply wf_fetchTable
      | apply wf_setCore

/-! ### Fabric -/

theorem wf_popArrival (a0 : State) (h0 : cwf a0.mem.dram = true) :
    cwf (popArrival a0).mem.dram = true := by
    unfold popArrival
    repeat' with_reducible first | assumption

theorem wf_answer (a0 : State) (a1 : Reply) (h0 : cwf a0.mem.dram = true) :
    cwf (answer a0 a1).mem.dram = true := by
    unfold answer
    repeat' with_reducible first | assumption | dsimp only | apply wf_popArrival

theorem wf_portChange (a0 : State) (a1 : PortEvent) (h0 : cwf a0.mem.dram = true) :
    cwf (portChange a0 a1).mem.dram = true := by
    unfold portChange
    repeat' with_reducible first
      | assumption | intro _ | dsimp only | apply wf_Eng_s | apply wf_Walker_s | apply wf_ite | apply wf_ite1 | split
      | apply wf_foldl | apply wf_foldl1 | refine wf_of (by assumption) ?_ | apply wf_id

theorem wf_execFrameReceive (a0 : State) (h0 : cwf a0.mem.dram = true) :
    OutWf (execFrameReceive a0) := by
    unfold execFrameReceive
    repeat' with_reducible first
      | assumption | intro _ | dsimp only | exact out_fault _ | exact out_refused _ | apply out_next
      | apply wf_portChange | apply wf_popArrival | apply wf_Eng_s | apply wf_Walker_s | apply wf_ite | apply wf_ite1
      | apply out_ite | split | apply wf_foldl | apply wf_foldl1 | refine wf_of (by assumption) ?_ | apply wf_id

theorem wf_nakAccess (a0 : State) (a1 : ℕ) (a2 : ℕ) (h0 : cwf a0.mem.dram = true) :
    cwf (nakAccess a0 a1 a2).mem.dram = true := by
    unfold nakAccess
    repeat' with_reducible first | assumption | dsimp only | apply wf_answer | apply wf_ite | apply wf_ite1 | split

theorem wf_writeOk (a0 : State) (a1 : Vf) (a2 : DWord) (a3 : ℕ) (h0 : cwf a0.mem.dram = true) :
    cwf (writeOk a0 a1 a2 a3).1.mem.dram = true := by
    unfold writeOk
    repeat' with_reducible first | assumption | dsimp only | apply wf_translatePages

theorem wf_readOk (a0 : State) (a1 : Vf) (a2 : DWord) (a3 : ℕ) (h0 : cwf a0.mem.dram = true) :
    cwf (readOk a0 a1 a2 a3).1.mem.dram = true := by
    unfold readOk
    repeat' with_reducible first
      | assumption | intro _ | dsimp only | apply wf_translatePages | apply wf_Eng_s | apply wf_Walker_s
      | apply wf_ite | apply wf_ite1 | split | apply wf_foldl | apply wf_foldl1 | refine wf_of (by assumption) ?_
      | apply wf_id

theorem wf_execRdmaWriteInbound (a0 : State) (h0 : cwf a0.mem.dram = true) :
    OutWf (execRdmaWriteInbound a0) := by
    unfold execRdmaWriteInbound
    repeat' with_reducible first
      | assumption | intro _ | dsimp only | exact out_fault _ | exact out_refused _ | apply out_next
      | apply wf_popArrival | apply wf_nakAccess | apply wf_writeOk | apply wf_virtWrite | apply wf_answer
      | apply wf_Eng_s | apply wf_Walker_s | apply wf_ite | apply wf_ite1 | apply out_ite | split | apply wf_foldl
      | apply wf_foldl1 | refine wf_of (by assumption) ?_ | apply wf_id

theorem wf_execRdmaReadInbound (a0 : State) (h0 : cwf a0.mem.dram = true) :
    OutWf (execRdmaReadInbound a0) := by
    unfold execRdmaReadInbound
    repeat' with_reducible first
      | assumption | intro _ | dsimp only | exact out_fault _ | exact out_refused _ | apply out_next
      | apply wf_popArrival | apply wf_nakAccess | apply wf_readOk | apply wf_virtRead | apply wf_publishRange
      | apply wf_answer | apply wf_Eng_s | apply wf_Walker_s | apply wf_ite | apply wf_ite1 | apply out_ite | split
      | apply wf_foldl | apply wf_foldl1 | refine wf_of (by assumption) ?_ | apply wf_id

theorem wf_codecAtomic (a0 : State) (a1 : Vf) (a2 : ℕ) (a3 : ℕ) (a4 : ℕ) (a5 : Bool) (a6 : DWord) (a7 : DWord)
    (h0 : cwf a0.mem.dram = true) :
    cwf (codecAtomic a0 a1 a2 a3 a4 a5 a6 a7).mem.dram = true := by
    unfold codecAtomic
    repeat' with_reducible first
      | assumption | intro _ | dsimp only | apply wf_homeExpanded | apply wf_nakAccess | apply wf_codecStore
      | apply wf_answer | apply wf_Eng_s | apply wf_Walker_s | apply wf_ite | apply wf_ite1 | split | apply wf_foldl
      | apply wf_foldl1 | refine wf_of (by assumption) ?_ | apply wf_id

theorem wf_execRdmaAtomicInbound (a0 : State) (h0 : cwf a0.mem.dram = true) :
    OutWf (execRdmaAtomicInbound a0) := by
    unfold execRdmaAtomicInbound
    repeat' with_reducible first
      | assumption | intro _ | dsimp only | exact out_fault _ | exact out_refused _ | apply out_next
      | apply wf_popArrival | apply wf_answer | apply wf_nakAccess | apply wf_translate | apply wf_codecAtomic
      | apply wf_forcePublishFar | apply wf_homeRead64 | apply wf_physWrite | apply wf_Eng_s | apply wf_Walker_s
      | apply wf_ite | apply wf_ite1 | apply out_ite | split | apply wf_foldl | apply wf_foldl1
      | refine wf_of (by assumption) ?_ | apply wf_id

theorem wf_ringWord (a0 : State) (a1 : Vf) (a2 : DWord) (h0 : cwf a0.mem.dram = true) :
    cwf (ringWord a0 a1 a2).1.mem.dram = true := by
    unfold ringWord
    repeat' with_reducible first | assumption | dsimp only | apply wf_virtRead | apply wf_ite | apply wf_ite1 | split

theorem wf_nakOperation (a0 : State) (a1 : ℕ) (a2 : ℕ) (h0 : cwf a0.mem.dram = true) :
    cwf (nakOperation a0 a1 a2).mem.dram = true := by
    unfold nakOperation
    repeat' with_reducible first | assumption | dsimp only | apply wf_answer

theorem wf_receive (a0 : State) (a1 : ℕ) (a2 : ℕ) (a3 : Vf) (a4 : RecvRing) (a5 : List Byte) (h0 : cwf a0.mem.dram = true) :
    cwf (receive a0 a1 a2 a3 a4 a5).mem.dram = true := by
    unfold receive
    repeat' with_reducible first
      | assumption | dsimp only | apply wf_ringWord | apply wf_nakOperation | apply wf_writeOk | apply wf_virtWrite
      | apply wf_answer | apply wf_ite | apply wf_ite1 | split

theorem wf_execRdmaSendInbound (a0 : State) (h0 : cwf a0.mem.dram = true) :
    OutWf (execRdmaSendInbound a0) := by
    unfold execRdmaSendInbound
    repeat' with_reducible first
      | assumption | intro _ | dsimp only | exact out_fault _ | exact out_refused _ | apply out_next
      | apply wf_receive | apply wf_nakOperation | apply wf_popArrival | apply wf_Eng_s | apply wf_Walker_s
      | apply wf_ite | apply wf_ite1 | apply out_ite | split | apply wf_foldl | apply wf_foldl1
      | refine wf_of (by assumption) ?_ | apply wf_id

theorem wf_execRdmaSignalInbound (a0 : State) (h0 : cwf a0.mem.dram = true) :
    OutWf (execRdmaSignalInbound a0) := by
    unfold execRdmaSignalInbound
    repeat' with_reducible first
      | assumption | intro _ | dsimp only | exact out_fault _ | exact out_refused _ | apply out_next
      | apply wf_popArrival | apply wf_answer | apply wf_nakAccess | apply wf_translate | apply wf_barrierUpdate
      | apply wf_Eng_s | apply wf_Walker_s | apply wf_ite | apply wf_ite1 | apply out_ite | split | apply wf_foldl
      | apply wf_foldl1 | refine wf_of (by assumption) ?_ | apply wf_id

theorem wf_execRdmaUnsupportedInbound (a0 : State) (h0 : cwf a0.mem.dram = true) :
    OutWf (execRdmaUnsupportedInbound a0) := by
    unfold execRdmaUnsupportedInbound
    repeat' with_reducible first
      | assumption | intro _ | dsimp only | exact out_fault _ | exact out_refused _ | apply out_next | apply wf_answer
      | apply wf_popArrival | apply wf_Eng_s | apply wf_Walker_s | apply wf_ite | apply wf_ite1 | apply out_ite
      | split | apply wf_foldl | apply wf_foldl1 | refine wf_of (by assumption) ?_ | apply wf_id

theorem wf_execTargetBufAccess (a0 : State) (h0 : cwf a0.mem.dram = true) :
    OutWf (execTargetBufAccess a0) := by
    unfold execTargetBufAccess
    repeat' with_reducible first
      | assumption | intro _ | dsimp only | exact out_fault _ | exact out_refused _ | apply out_next | apply wf_answer
      | apply wf_virtWrite | apply wf_noteEntry | apply wf_Eng_s | apply wf_Walker_s | apply wf_ite | apply wf_ite1
      | apply out_ite | split | apply wf_foldl | apply wf_foldl1 | refine wf_of (by assumption) ?_ | apply wf_id

theorem wf_execNvmeConnectionLost (a0 : State) (h0 : cwf a0.mem.dram = true) :
    OutWf (execNvmeConnectionLost a0) := by
    unfold execNvmeConnectionLost
    repeat' with_reducible first
      | assumption | dsimp only | exact out_fault _ | exact out_refused _ | apply out_next | apply wf_endEntry
      | apply wf_popArrival | apply wf_ite | apply wf_ite1 | apply out_ite | split | apply wf_foldl | apply wf_foldl1
      | intro _

/-! ### Manage -/

theorem wf_respond (a0 : State) (a1 : BitVec 16) (a2 : ℕ) (a3 : List Byte) (h0 : cwf a0.mem.dram = true) :
    cwf (respond a0 a1 a2 a3).mem.dram = true := by
    unfold respond
    repeat' with_reducible first | assumption | dsimp only | apply wf_answer

theorem wf_request (a0 : State) (a1 : Request → Bool) (a2 : State → Request → ℕ × List Byte × State)
    (h0 : cwf a0.mem.dram = true) (h2 : ∀ z a, cwf z.mem.dram = true → cwf (a2 z a).2.2.mem.dram = true) :
    OutWf (request a0 a1 a2) := by
    unfold request
    repeat' with_reducible first
      | assumption | dsimp only | apply h2 | exact out_fault _ | exact out_refused _ | apply out_next | apply wf_respond
      | apply wf_ite | apply wf_ite1 | apply out_ite | split

theorem wf_execReadUnitMap (a0 : State) (h0 : cwf a0.mem.dram = true) :
    OutWf (execReadUnitMap a0) := by
    unfold execReadUnitMap
    repeat' with_reducible first
      | assumption | dsimp only | exact out_fault _ | exact out_refused _ | apply out_next | apply wf_request
      | apply wf_ite | apply wf_ite1 | apply out_ite | split | apply wf_foldl | apply wf_foldl1 | intro _

theorem wf_resetCounters (a0 : State) (a1 : BitVec 64) (h0 : cwf a0.mem.dram = true) :
    cwf (resetCounters a0 a1).mem.dram = true := by
    unfold resetCounters
    repeat' with_reducible first | assumption

theorem wf_assignPartition (a0 : State) (a1 : ℕ) (a2 : PartBody) (h0 : cwf a0.mem.dram = true) :
    cwf (assignPartition a0 a1 a2).mem.dram = true := by
    unfold assignPartition
    repeat' with_reducible first
      | assumption | dsimp only | apply wf_resetCounters | apply wf_endPartition | apply wf_ite | apply wf_ite1 | split

theorem wf_execWritePartitionRecord (a0 : State) (h0 : cwf a0.mem.dram = true) :
    OutWf (execWritePartitionRecord a0) := by
    unfold execWritePartitionRecord
    repeat' with_reducible first
      | assumption | dsimp only | exact out_fault _ | exact out_refused _ | apply out_next | apply wf_request
      | apply wf_endPartition | apply wf_assignPartition | apply wf_ite | apply wf_ite1 | apply out_ite | split
      | apply wf_foldl | apply wf_foldl1 | intro _

theorem wf_execBindVf (a0 : State) (h0 : cwf a0.mem.dram = true) :
    OutWf (execBindVf a0) := by
    unfold execBindVf
    repeat' with_reducible first
      | assumption | dsimp only | exact out_fault _ | exact out_refused _ | apply out_next | apply wf_request
      | apply wf_ite | apply wf_ite1 | apply out_ite | split | apply wf_foldl | apply wf_foldl1 | intro _

theorem wf_execWriteLaunchQueueRecord (a0 : State) (h0 : cwf a0.mem.dram = true) :
    OutWf (execWriteLaunchQueueRecord a0) := by
    unfold execWriteLaunchQueueRecord
    repeat' with_reducible first
      | assumption | dsimp only | exact out_fault _ | exact out_refused _ | apply out_next | apply wf_request
      | apply wf_watchTail | apply wf_ite | apply wf_ite1 | apply out_ite | split | apply wf_foldl | apply wf_foldl1
      | intro _

theorem wf_execWriteRegistrationEntry (a0 : State) (h0 : cwf a0.mem.dram = true) :
    OutWf (execWriteRegistrationEntry a0) := by
    unfold execWriteRegistrationEntry
    repeat' with_reducible first
      | assumption | dsimp only | exact out_fault _ | exact out_refused _ | apply out_next | apply wf_request
      | apply wf_ite | apply wf_ite1 | apply out_ite | split | apply wf_foldl | apply wf_foldl1 | intro _

theorem wf_putBinding (a0 : State) (a1 : ℕ) (a2 : ℕ) (a3 : Partition) (a4 : BindBody) (h0 : cwf a0.mem.dram = true) :
    cwf (putBinding a0 a1 a2 a3 a4).mem.dram = true := by
    unfold putBinding
    repeat' with_reducible first
      | assumption | intro _ | dsimp only | apply wf_Eng_s | apply wf_Walker_s | apply wf_ite | apply wf_ite1 | split
      | apply wf_foldl | apply wf_foldl1 | refine wf_of (by assumption) ?_ | apply wf_id

theorem wf_execWriteBinding (a0 : State) (h0 : cwf a0.mem.dram = true) :
    OutWf (execWriteBinding a0) := by
    unfold execWriteBinding
    repeat' with_reducible first
      | assumption | intro _ | dsimp only | exact out_fault _ | exact out_refused _ | apply out_next
      | apply wf_request | apply wf_putBinding | apply wf_Eng_s | apply wf_Walker_s | apply wf_ite | apply wf_ite1
      | apply out_ite | split | apply wf_foldl | apply wf_foldl1 | refine wf_of (by assumption) ?_ | apply wf_id

theorem wf_execLoadKey (a0 : State) (h0 : cwf a0.mem.dram = true) :
    OutWf (execLoadKey a0) := by
    unfold execLoadKey
    repeat' with_reducible first
      | assumption | dsimp only | exact out_fault _ | exact out_refused _ | apply out_next | apply wf_request
      | apply wf_ite | apply wf_ite1 | apply out_ite | split | apply wf_foldl | apply wf_foldl1 | intro _

theorem wf_execReadDump (a0 : State) (h0 : cwf a0.mem.dram = true) :
    OutWf (execReadDump a0) := by
    unfold execReadDump
    repeat' with_reducible first
      | assumption | dsimp only | exact out_fault _ | exact out_refused _ | apply out_next | apply wf_request
      | apply wf_ite | apply wf_ite1 | apply out_ite | split | apply wf_foldl | apply wf_foldl1 | intro _

theorem wf_execSetPowerCap (a0 : State) (h0 : cwf a0.mem.dram = true) :
    OutWf (execSetPowerCap a0) := by
    unfold execSetPowerCap
    repeat' with_reducible first
      | assumption | dsimp only | exact out_fault _ | exact out_refused _ | apply out_next | apply wf_request
      | apply wf_ite | apply wf_ite1 | apply out_ite | split | apply wf_foldl | apply wf_foldl1 | intro _

theorem wf_readmit (a0 : State) (a1 : AgentId) (h0 : cwf a0.mem.dram = true) :
    cwf (readmit a0 a1).mem.dram = true := by
    unfold readmit
    repeat' with_reducible first
      | assumption | intro _ | dsimp only | apply wf_dropAgent | apply wf_setCore | apply wf_wakeSlots
      | apply wf_Eng_s | apply wf_Walker_s | apply wf_ite | apply wf_ite1 | split | apply wf_foldl | apply wf_foldl1
      | refine wf_of (by assumption) ?_ | apply wf_id

theorem wf_execResetAndReadmitUnit (a0 : State) (h0 : cwf a0.mem.dram = true) :
    OutWf (execResetAndReadmitUnit a0) := by
    unfold execResetAndReadmitUnit
    repeat' with_reducible first
      | assumption | dsimp only | exact out_fault _ | exact out_refused _ | apply out_next | apply wf_request
      | apply wf_readmit | apply wf_ite | apply wf_ite1 | apply out_ite | split | apply wf_foldl | apply wf_foldl1
      | intro _

theorem wf_execReserveTimedCapacity (a0 : State) (h0 : cwf a0.mem.dram = true) :
    OutWf (execReserveTimedCapacity a0) := by
    unfold execReserveTimedCapacity
    repeat' with_reducible first
      | assumption | dsimp only | exact out_fault _ | exact out_refused _ | apply out_next | apply wf_request
      | apply wf_ite | apply wf_ite1 | apply out_ite | split | apply wf_foldl | apply wf_foldl1 | intro _

theorem wf_execMgmtUnknownCode (a0 : State) (h0 : cwf a0.mem.dram = true) :
    OutWf (execMgmtUnknownCode a0) := by
    unfold execMgmtUnknownCode
    repeat' with_reducible first
      | assumption | dsimp only | exact out_fault _ | exact out_refused _ | apply out_next | apply wf_respond
      | apply wf_request | apply wf_ite | apply wf_ite1 | apply out_ite | split

theorem wf_emptied (a0 : State) (a1 : DeviceState) (h0 : cwf a0.mem.dram = true) :
    cwf (emptied a0 a1).mem.dram = true := by
    exact rfl

theorem wf_publishMap (a0 : State) (h0 : cwf a0.mem.dram = true) :
    cwf (publishMap a0).mem.dram = true := by
    unfold publishMap
    repeat' with_reducible first
      | assumption | intro _ | dsimp only | apply wf_Eng_s | apply wf_Walker_s | apply wf_ite | apply wf_ite1 | split
      | apply wf_foldl | apply wf_foldl1 | refine wf_of (by assumption) ?_ | apply wf_id

theorem wf_execResetRelease (a0 : State) (h0 : cwf a0.mem.dram = true) :
    OutWf (execResetRelease a0) := by
    unfold execResetRelease
    repeat' with_reducible first
      | assumption | intro _ | dsimp only | exact out_fault _ | exact out_refused _ | apply out_next
      | apply wf_popArrival | apply wf_emptied | apply wf_publishMap | apply wf_Eng_s | apply wf_Walker_s
      | apply wf_ite | apply wf_ite1 | apply out_ite | split | apply wf_foldl | apply wf_foldl1
      | refine wf_of (by assumption) ?_ | apply wf_id

theorem wf_execResetAssert (a0 : State) (h0 : cwf a0.mem.dram = true) :
    OutWf (execResetAssert a0) := by
    unfold execResetAssert
    repeat' with_reducible first
      | assumption | dsimp only | exact out_fault _ | exact out_refused _ | apply out_next | apply wf_popArrival
      | apply wf_emptied | apply wf_ite | apply wf_ite1 | apply out_ite | split

theorem wf_execPowerLoss (a0 : State) (h0 : cwf a0.mem.dram = true) :
    OutWf (execPowerLoss a0) := by
    unfold execPowerLoss
    repeat' with_reducible first
      | assumption | dsimp only | exact out_fault _ | exact out_refused _ | apply out_next | apply wf_emptied
      | apply wf_popArrival | apply wf_ite | apply wf_ite1 | apply out_ite | split

theorem wf_execThermalWarning (a0 : State) (h0 : cwf a0.mem.dram = true) :
    OutWf (execThermalWarning a0) := by
    unfold execThermalWarning
    repeat' with_reducible first
      | assumption | dsimp only | exact out_fault _ | exact out_refused _ | apply out_next | apply wf_popArrival
      | apply wf_ite | apply wf_ite1 | apply out_ite | split

theorem wf_execThermtrip (a0 : State) (h0 : cwf a0.mem.dram = true) :
    OutWf (execThermtrip a0) := by
    unfold execThermtrip
    repeat' with_reducible first
      | assumption | dsimp only | exact out_fault _ | exact out_refused _ | apply out_next | apply wf_popArrival
      | apply wf_ite | apply wf_ite1 | apply out_ite | split

/-! ### Seed -/

/-- A fold keeps what each of its steps keeps. -/
theorem foldl_keeps {α β : Type} (P : α → Prop) {f : α → β → α} {a : α} (h : P a) (hf : ∀ x b, P x → P (f x b))
    (l : List β) :
    P (l.foldl f a) := by
  induction l generalizing a with
  | nil => exact h
  | cons b r ih => exact ih (hf a b h)

/-- Rewriting the tables of an image keeps the canonical form. -/
theorem cwf_relocTable (f fk : Nat → Nat) (n t : Nat) (acc : List Host.Cell × List Nat) (h : cwf acc.1 = true) :
    cwf (relocTable f fk n t acc).1 = true := by
  induction n generalizing t acc with
  | zero => exact h
  | succ n ih =>
    unfold relocTable
    split
    · exact h
    · apply foldl_keeps (fun x : List Host.Cell × List Nat => cwf x.1 = true)
      · exact h
      · intro x i hx
        dsimp only
        split
        · exact hx
        · split
          · exact cwf_csetMany _ _ _ hx
          · exact ih _ _ (cwf_csetMany _ _ _ hx)

theorem wf_putLineage (a0 : State) (a1 : Lineage) (h0 : cwf a0.mem.dram = true) :
    cwf (putLineage a0 a1).mem.dram = true := by
    unfold putLineage
    repeat' with_reducible first | assumption

theorem wf_settlePartition (a0 : State) (a1 : BitVec 64) (h0 : cwf a0.mem.dram = true) :
    cwf (settlePartition a0 a1).mem.dram = true := by
    unfold settlePartition
    repeat' with_reducible first
      | assumption | dsimp only | apply wf_evict | apply wf_ite | apply wf_ite1 | split | apply wf_foldl
      | apply wf_foldl1 | intro _

theorem wf_execSeedMake (a0 : State) (h0 : cwf a0.mem.dram = true) :
    OutWf (execSeedMake a0) := by
    unfold execSeedMake
    repeat' with_reducible first
      | assumption | dsimp only | exact out_fault _ | exact out_refused _ | apply out_next | apply wf_respond
      | apply wf_popArrival | apply wf_request | apply wf_ite | apply wf_ite1 | apply out_ite | split

theorem wf_thaw (a0 : State) (a1 : ℕ) (h0 : cwf a0.mem.dram = true) :
    cwf (thaw a0 a1).mem.dram = true := by
    unfold thaw
    repeat' with_reducible first
      | assumption | intro _ | dsimp only | apply wf_Eng_s | apply wf_Walker_s | apply wf_ite | apply wf_ite1 | split
      | apply wf_foldl | apply wf_foldl1 | refine wf_of (by assumption) ?_ | apply wf_id

theorem wf_execSeedImageWrite (a0 : State) (h0 : cwf a0.mem.dram = true) :
    OutWf (execSeedImageWrite a0) := by
    unfold execSeedImageWrite
    repeat' with_reducible first
      | assumption | intro _ | dsimp only | exact out_fault _ | exact out_refused _ | apply out_next
      | apply wf_settlePartition | apply wf_thaw | apply wf_physWrite | apply wf_putLineage | apply wf_endPartition
      | apply wf_Eng_s | apply wf_Walker_s | apply wf_ite | apply wf_ite1 | apply out_ite | split | apply wf_foldl
      | apply wf_foldl1 | refine wf_of (by assumption) ?_ | apply wf_id

theorem wf_restoreQueue (a0 : ℕ) (a1 : State) (a2 : List Byte) (h1 : cwf a1.mem.dram = true) :
    cwf (restoreQueue a0 a1 a2).mem.dram = true := by
    unfold restoreQueue
    repeat' with_reducible first | assumption | dsimp only | apply wf_watchTail | apply wf_ite | apply wf_ite1 | split

theorem wf_restoreInto (a0 : State) (a1 : ℕ) (a2 : Partition) (a3 : List Byte) (a4 : List Byte)
    (h0 : cwf a0.mem.dram = true) :
    cwf (restoreInto a0 a1 a2 a3 a4).mem.dram = true := by
    unfold restoreInto
    dsimp only
    refine wf_foldl ?_ fun z b hz => wf_restoreQueue _ _ _ hz
    dsimp only
    apply foldl_keeps (fun x : List Host.Cell × List Nat => cwf x.1 = true)
    · apply foldl_keeps (fun x : List Host.Cell => cwf x = true)
      · exact wf_zeroGranules _ _ _ h0
      · exact fun _ _ h => cwf_csetMany _ _ _ h
    · exact fun _ _ h => cwf_relocTable _ _ _ _ _ h

theorem wf_execSeedRestore (a0 : State) (h0 : cwf a0.mem.dram = true) :
    OutWf (execSeedRestore a0) := by
    unfold execSeedRestore
    repeat' with_reducible first
      | assumption | dsimp only | exact out_fault _ | exact out_refused _ | apply out_next | apply wf_respond
      | apply wf_zeroGranules | apply wf_restoreInto | apply wf_putLineage | apply wf_request | apply wf_ite
      | apply wf_ite1 | apply out_ite | split

theorem wf_execCounterStatement (a0 : State) (h0 : cwf a0.mem.dram = true) :
    OutWf (execCounterStatement a0) := by
    unfold execCounterStatement
    repeat' with_reducible first
      | assumption | dsimp only | exact out_fault _ | exact out_refused _ | apply out_next | apply wf_request
      | apply wf_putLineage | apply wf_ite | apply wf_ite1 | apply out_ite | split | apply wf_foldl | apply wf_foldl1
      | intro _

/-! ### Events -/

theorem wf_settleArrivals (a0 : State) (h0 : cwf a0.mem.dram = true) :
    cwf (settleArrivals a0).mem.dram = true := by
    unfold settleArrivals
    repeat' with_reducible first | assumption

theorem wf_openArrival (a0 : State) (h0 : cwf a0.mem.dram = true) :
    cwf (openArrival a0).mem.dram = true := by
    unfold openArrival
    repeat' with_reducible first | assumption | dsimp only | apply wf_popArrival | apply wf_ite | apply wf_ite1 | split

end Sys2Proof.Machine
end

