-- ==== Sys2Proof/Laws/MemoryStep.lean ====
section
/-! SUPPORT. The canonical form of DRAM: `exec` keeps it, whatever the instruction. -/

namespace Sys2Proof.Machine

/-- Whatever an instruction does, the memory it leaves is in its canonical form. -/
theorem wf_exec (i : Instr) (s : State) (h : cwf s.mem.dram = true) : OutWf (exec i s) := by
  cases i with
  | nop x => exact wf_execNop x s h
  | bra x y z => exact wf_execBra x y z s h
  | bru x y => exact wf_execBru x y s h
  | brx x y => exact wf_execBrx x y s h
  | call x y z => exact wf_execCall x y z s h
  | callx x y z => exact wf_execCallx x y z s h
  | ret x y => exact wf_execRet x y s h
  | dvg x y z u => exact wf_execDvg x y z u s h
  | cvg x => exact wf_execCvg x s h
  | exit x => exact wf_execExit x s h
  | yield x => exact wf_execYield x s h
  | spawn x y z u => exact wf_execSpawn x y z u s h
  | regroup x y z => exact wf_execRegroup x y z s h
  | vote x y z u => exact wf_execVote x y z u s h
  | voteMask x y z u => exact wf_execVoteMask x y z u s h
  | elect x y => exact wf_execElect x y s h
  | shfl x y z u v w q => exact wf_execShfl x y z u v w q s h
  | matchL x y z u => exact wf_execMatchL x y z u s h
  | plop x y z u v => exact wf_execPlop x y z u v s h
  | setfmtImm x y => exact wf_execSetfmtImm x y s h
  | setfmtReg x y => exact wf_execSetfmtReg x y s h
  | getfmt x y => exact wf_execGetfmt x y s h
  | sreg x y z => exact wf_execSreg x y z s h
  | iadd x => exact wf_execIadd x s h
  | iadd3 x => exact wf_execIadd3 x s h
  | isub x => exact wf_execIsub x s h
  | ineg x => exact wf_execIneg x s h
  | iabs x => exact wf_execIabs x s h
  | imul x => exact wf_execImul x s h
  | imulh x => exact wf_execImulh x s h
  | imad x => exact wf_execImad x s h
  | idiv x => exact wf_execIdiv x s h
  | irem x => exact wf_execIrem x s h
  | imin x => exact wf_execImin x s h
  | imax x => exact wf_execImax x s h
  | icmp x => exact wf_execIcmp x s h
  | isel x y z u v w => exact wf_execIsel x y z u v w s h
  | and x => exact wf_execAnd x s h
  | or x => exact wf_execOr x s h
  | xor x => exact wf_execXor x s h
  | not x => exact wf_execNot x s h
  | andn x => exact wf_execAndn x s h
  | shl x => exact wf_execShl x s h
  | shr x => exact wf_execShr x s h
  | sar x => exact wf_execSar x s h
  | rol x => exact wf_execRol x s h
  | popc x => exact wf_execPopc x s h
  | clz x => exact wf_execClz x s h
  | ctz x => exact wf_execCtz x s h
  | brev x => exact wf_execBrev x s h
  | bfx x => exact wf_execBfx x s h
  | bfi x => exact wf_execBfi x s h
  | perm x => exact wf_execPerm x s h
  | lea x => exact wf_execLea x s h
  | mov x => exact wf_execMov x s h
  | movi x y z u => exact wf_execMovi x y z u s h
  | ldi x y z u => exact wf_execLdi x y z u s h
  | cvti x y z u v w => exact wf_execCvti x y z u v w s h
  | fadd x => exact wf_execFadd x s h
  | fsub x => exact wf_execFsub x s h
  | fmul x => exact wf_execFmul x s h
  | fma x => exact wf_execFma x s h
  | fmin x => exact wf_execFmin x s h
  | fmax x => exact wf_execFmax x s h
  | fcmp x => exact wf_execFcmp x s h
  | fneg x => exact wf_execFneg x s h
  | fabs x => exact wf_execFabs x s h
  | frcp x => exact wf_execFrcp x s h
  | frsq x => exact wf_execFrsq x s h
  | fsqrt x => exact wf_execFsqrt x s h
  | fdiv x => exact wf_execFdiv x s h
  | fex2 x => exact wf_execFex2 x s h
  | flg2 x => exact wf_execFlg2 x s h
  | fsin x => exact wf_execFsin x s h
  | fcos x => exact wf_execFcos x s h
  | ftanh x => exact wf_execFtanh x s h
  | fcls x => exact wf_execFcls x s h
  | fscl x => exact wf_execFscl x s h
  | frnd x => exact wf_execFrnd x s h
  | fcvt x => exact wf_execFcvt x s h
  | fcvti x => exact wf_execFcvti x s h
  | icvtf x => exact wf_execIcvtf x s h
  | hadd2 x => exact wf_execHadd2 x s h
  | hmul2 x => exact wf_execHmul2 x s h
  | hfma2 x => exact wf_execHfma2 x s h
  | dot4 x => exact wf_execDot4 x s h
  | ldOwn x => exact wf_execLdOwn x s h
  | ldWt x => exact wf_execLdWt x s h
  | ldSi x => exact wf_execLdSi x s h
  | ldUc x => exact wf_execLdUc x s h
  | stOwn x => exact wf_execStOwn x s h
  | stWt x => exact wf_execStWt x s h
  | stSi x => exact wf_execStSi x s h
  | stUc x => exact wf_execStUc x s h
  | lduOwn x => exact wf_execLduOwn x s h
  | lduWt x => exact wf_execLduWt x s h
  | lduSi x => exact wf_execLduSi x s h
  | lduUc x => exact wf_execLduUc x s h
  | lds x => exact wf_execLds x s h
  | sts x => exact wf_execSts x s h
  | pref x y z u v => exact wf_execPref x y z u v s h
  | zsect x y z u v => exact wf_execZsect x y z u v s h
  | wmap x y z u v w q => exact wf_execWmap x y z u v w q s h
  | wunmap x => exact wf_execWunmap x s h
  | wflush x => exact wf_execWflush x s h
  | winv x y => exact wf_execWinv x y s h
  | wstat x => exact wf_execWstat x s h
  | clean x => exact wf_execClean x s h
  | inval x => exact wf_execInval x s h
  | atom x => exact wf_execAtom x s h
  | atomcas x => exact wf_execAtomcas x s h
  | red x => exact wf_execRed x s h
  | fence x y z => exact wf_execFence x y z s h
  | qfence x y => exact wf_execQfence x y s h
  | barTeam x y => exact wf_execBarTeam x y s h
  | barRole x y => exact wf_execBarRole x y s h
  | bbar x y z => exact wf_execBbar x y z s h
  | mwait x => exact wf_execMwait x s h
  | tbinit x => exact wf_execTbinit x s h
  | tbarr x => exact wf_execTbarr x s h
  | tbwait x => exact wf_execTbwait x s h
  | cinit x => exact wf_execCinit x s h
  | cinitApp x => exact wf_execCinitApp x s h
  | cnext x y z => exact wf_execCnext x y z s h
  | cseek x y z u => exact wf_execCseek x y z u s h
  | cdesc x => exact wf_execCdesc x s h
  | cdescApp x => exact wf_execCdescApp x s h
  | cisec x => exact wf_execCisec x s h
  | cunion x => exact wf_execCunion x s h
  | ccrd x => exact wf_execCcrd x s h
  | cpos x => exact wf_execCpos x s h
  | cval x => exact wf_execCval x s h
  | cstv x y z => exact wf_execCstv x y z s h
  | capp x y z u => exact wf_execCapp x y z u s h
  | cfin x y => exact wf_execCfin x y s h
  | cdone x y z => exact wf_execCdone x y z s h
  | cmov x y z => exact wf_execCmov x y z s h
  | csave x y z u => exact wf_execCsave x y z u s h
  | crest x y z u => exact wf_execCrest x y z u s h
  | cpref x y z => exact wf_execCpref x y z s h
  | tld x => exact wf_execTld x s h
  | tst x => exact wf_execTst x s h
  | tzero x y => exact wf_execTzero x y s h
  | tasm x y z u v w => exact wf_execTasm x y z u v w s h
  | mma x => exact wf_execMma x s h
  | mmas x => exact wf_execMmas x s h
  | aclr x y => exact wf_execAclr x y s h
  | ard x => exact wf_execArd x s h
  | awr x => exact wf_execAwr x s h
  | acvt x y z u v => exact wf_execAcvt x y z u v s h
  | mfence x y => exact wf_execMfence x y s h
  | mwaitb x y z => exact wf_execMwaitb x y z s h
  | cpy x y z u => exact wf_execCpy x y z u s h
  | cpyt x => exact wf_execCpyt x s h
  | cpyc x => exact wf_execCpyc x s h
  | csum x => exact wf_execCsum x s h
  | decq x => exact wf_execDecq x s h
  | stq x => exact wf_execStq x s h
  | netq x => exact wf_execNetq x s h
  | topk x => exact wf_execTopk x s h
  | rmv x => exact wf_execRmv x s h
  | qstat x y z => exact wf_execQstat x y z s h
  | launch x y => exact wf_execLaunch x y s h
  | mbxw x y z => exact wf_execMbxw x y z s h
  | mbxr x y z => exact wf_execMbxr x y z s h
  | mbxp x y z u => exact wf_execMbxp x y z u s h
  | rres x => exact wf_execRres x s h
  | rpub x => exact wf_execRpub x s h
  | rtake x => exact wf_execRtake x s h
  | rrel x => exact wf_execRrel x s h
  | rinvIndex x y => exact wf_execRinvIndex x y s h
  | rinvAll x => exact wf_execRinvAll x s h
  | rinvLevel x y => exact wf_execRinvLevel x y s h
  | trap x y => exact wf_execTrap x y s h
  | brk x y => exact wf_execBrk x y s h
  | tlbiPage x y z => exact wf_execTlbiPage x y z s h
  | tlbiCtx x y => exact wf_execTlbiCtx x y s h
  | tlbiPart x => exact wf_execTlbiPart x s h
  | ssetRngstate x y => exact wf_execSsetRngstate x y s h
  | ssetTrapvec x y => exact wf_execSsetTrapvec x y s h
  | waitt x y z => exact wf_execWaitt x y z s h
  | binTimerExpiry x y => exact wf_execBinTimerExpiry x y s h
  | binLaunchDeferred x y => exact wf_execBinLaunchDeferred x y s h
  | spawnResume x => exact wf_execSpawnResume x s h
  | regroupMigrate x y => exact wf_execRegroupMigrate x y s h
  | regroupTimeout x => exact wf_execRegroupTimeout x s h
  | stallExchange x => exact wf_execStallExchange x s h
  | emptySlotFill x y => exact wf_execEmptySlotFill x y s h
  | pendingAgeExpiry x => exact wf_execPendingAgeExpiry x s h
  | teamPlace x y => exact wf_execTeamPlace x y s h
  | teamEnd x => exact wf_execTeamEnd x s h
  | gridEnd x => exact wf_execGridEnd x s h
  | splitDrain x y => exact wf_execSplitDrain x y s h
  | splitReconfigure x => exact wf_execSplitReconfigure x s h
  | mailboxWake x y => exact wf_execMailboxWake x y s h
  | loadDataReturn x => exact wf_execLoadDataReturn x s h
  | pageWalk x y z u v w => exact wf_execPageWalk x y z u v w s h
  | homeWrite x y z u => exact wf_execHomeWrite x y z u s h
  | forcedPublish x => exact wf_execForcedPublish x s h
  | rdcSweep x => exact wf_execRdcSweep x s h
  | scrubDram x y => exact wf_execScrubDram x y s h
  | scrubSram x y => exact wf_execScrubSram x y s h
  | uncorrectableError x => exact wf_execUncorrectableError x s h
  | mwaitRetest x => exact wf_execMwaitRetest x s h
  | mwaitOverflowExpiry x => exact wf_execMwaitOverflowExpiry x s h
  | bbarEntryFree x => exact wf_execBbarEntryFree x s h
  | captureEntryFree x => exact wf_execCaptureEntryFree x s h
  | codebookTableArrival x y z u v => exact wf_execCodebookTableArrival x y z u v s h
  | tldPerform x => exact wf_execTldPerform x s h
  | tstPerform x => exact wf_execTstPerform x s h
  | tasmPerform x => exact wf_execTasmPerform x s h
  | mmaExecute x => exact wf_execMmaExecute x s h
  | acvtPerform x => exact wf_execAcvtPerform x s h
  | matrixEntryRetire x => exact wf_execMatrixEntryRetire x s h
  | mwaitbWake x => exact wf_execMwaitbWake x s h
  | cpyPerform x => exact wf_execCpyPerform x s h
  | cpytPerform x => exact wf_execCpytPerform x s h
  | cpycPerform x => exact wf_execCpycPerform x s h
  | csumPerform x => exact wf_execCsumPerform x s h
  | decqPerform x => exact wf_execDecqPerform x s h
  | stqSubmit x => exact wf_execStqSubmit x s h
  | nvmeCompletion x y z => exact wf_execNvmeCompletion x y z s h
  | netqPerform x => exact wf_execNetqPerform x s h
  | netqAck x y z => exact wf_execNetqAck x y z s h
  | rdmaAckTimeout x => exact wf_execRdmaAckTimeout x s h
  | topkPerform x => exact wf_execTopkPerform x s h
  | rmvPerform x => exact wf_execRmvPerform x s h
  | ringEntryPerform x => exact wf_execRingEntryPerform x s h
  | engineEntryPark x y => exact wf_execEngineEntryPark x y s h
  | launchQueueTailWrite x => exact wf_execLaunchQueueTailWrite x s h
  | blockEligible x => exact wf_execBlockEligible x s h
  | priorityAging x => exact wf_execPriorityAging x s h
  | budgetOverrun x => exact wf_execBudgetOverrun x s h
  | faultRecordWrite x => exact wf_execFaultRecordWrite x s h
  | faultAction x y => exact wf_execFaultAction x y s h
  | preemptRequest x => exact wf_execPreemptRequest x s h
  | hardPreempt x => exact wf_execHardPreempt x s h
  | teamSave x => exact wf_execTeamSave x s h
  | teamResume x y => exact wf_execTeamResume x y s h
  | agentTimeout x => exact wf_execAgentTimeout x s h
  | staleMessageDrop x y z => exact wf_execStaleMessageDrop x y z s h
  | deviceFatal x => exact wf_execDeviceFatal x s h
  | waittDeadlineReached x => exact wf_execWaittDeadlineReached x s h
  | unassignedOpcode x => exact wf_execUnassignedOpcode x s h
  | seedImageWrite => exact wf_execSeedImageWrite s h
  | frameReceive => exact wf_execFrameReceive s h
  | rdmaWriteInbound => exact wf_execRdmaWriteInbound s h
  | rdmaReadInbound => exact wf_execRdmaReadInbound s h
  | rdmaAtomicInbound => exact wf_execRdmaAtomicInbound s h
  | rdmaSendInbound => exact wf_execRdmaSendInbound s h
  | rdmaSignalInbound => exact wf_execRdmaSignalInbound s h
  | rdmaUnsupportedInbound => exact wf_execRdmaUnsupportedInbound s h
  | targetBufAccess => exact wf_execTargetBufAccess s h
  | nvmeConnectionLost => exact wf_execNvmeConnectionLost s h
  | readUnitMap => exact wf_execReadUnitMap s h
  | writePartitionRecord => exact wf_execWritePartitionRecord s h
  | bindVf => exact wf_execBindVf s h
  | writeLaunchQueueRecord => exact wf_execWriteLaunchQueueRecord s h
  | writeRegistrationEntry => exact wf_execWriteRegistrationEntry s h
  | writeBinding => exact wf_execWriteBinding s h
  | loadKey => exact wf_execLoadKey s h
  | seedMake => exact wf_execSeedMake s h
  | seedRestore => exact wf_execSeedRestore s h
  | counterStatement => exact wf_execCounterStatement s h
  | readDump => exact wf_execReadDump s h
  | setPowerCap => exact wf_execSetPowerCap s h
  | resetAndReadmitUnit => exact wf_execResetAndReadmitUnit s h
  | reserveTimedCapacity => exact wf_execReserveTimedCapacity s h
  | mgmtUnknownCode => exact wf_execMgmtUnknownCode s h
  | resetRelease => exact wf_execResetRelease s h
  | resetAssert => exact wf_execResetAssert s h
  | powerLoss => exact wf_execPowerLoss s h
  | thermalWarning => exact wf_execThermalWarning s h
  | thermtrip => exact wf_execThermtrip s h

theorem wf_stepGroup (a0 : State) (a1 : ℕ) (a2 : Group) (h0 : cwf a0.mem.dram = true) :
    OutWf (stepGroup a0 a1 a2) := by
    unfold stepGroup
    have h := wf_fetchInstr a0 a2 h0
    split
    · next hf =>
      rw [hf] at h
      exact out_next (wf_fetchFault _ _ _ _ _ h)
    · next hf =>
      rw [hf] at h
      dsimp only
      split
      · exact wf_afterIssue _ _ _ _ _ _ h (wf_exec _ _ (wf_ite h (wf_slicePut _ _ _ h)))
      · exact wf_afterIssue _ _ _ _ _ _ h
          (out_next (wf_raiseIllegal _ _ _ _ (wf_occupy _ _ _ (wf_ite h (wf_slicePut _ _ _ h)))))

theorem wf_State_withFetchWord (a0 : State) (a1 : ℕ) (a2 : ℕ) (h0 : cwf a0.mem.dram = true) :
    cwf (State.withFetchWord a0 a1 a2).mem.dram = true := by
    unfold State.withFetchWord
    repeat' with_reducible first | assumption | dsimp only | apply wf_layProgram

end Sys2Proof.Machine
end

