-- ==== Sys2Proof/Laws/PerInstr.lean ====
section
/-! SUPPORT. Per instruction: the words of a well-formed instruction decode to it. -/

set_option linter.unusedSimpArgs false

namespace Sys2Proof

/-- A well-formed instruction breaches nothing. -/
theorem legal_of {i : Instr} (h : i.wellFormed = true) : i.illegal = none := by simpa [Instr.wellFormed] using h

/-- An extension word follows an F6 word as DX says. -/
theorem hasExt_eng (x : EngOp) (o : BitVec 8) (imm : BitVec 14)
    (ho : (decide (0xC1 ≤ o.toNat) && decide (o.toNat ≤ 0xCA)) = true) :
    hasExt (packWord x.h o (x.body imm)) = x.disp.isSome := by
  have h1 : (o.toNat == 0x0C) = false := by simp at ho ⊢; omega
  have h2 : (o.toNat == 0x41) = false := by simp at ho ⊢; omega
  have h3 : (o.toNat == 0xC0) = false := by simp at ho ⊢; omega
  unfold hasExt EngOp.body
  simp only [packWord_opcode, packWord_dx, h1, h2, h3, ho, ofBit_getLsbD, Bool.false_or, Bool.true_or, Bool.true_and]

/-- The displacement that DX announces. -/
@[simp] theorem disp_of (d : Option DWord) : (if ofBit d.isSome = 1#1 then some (d.getD 0#64) else none) = d := by
  cases d <;> rfl

/-- No extension word follows an F6 word with DX = 0. -/
theorem hasExt_plain (h : Hdr) (o : BitVec 8) (f : F6) (hd : f.dx = 0)
    (ho : (o.toNat == 0x0C || o.toNat == 0x41 || o.toNat == 0xC0) = false) :
    hasExt (packWord h o f.pack) = (none : Option DWord).isSome := by
  unfold hasExt
  simp only [packWord_opcode, packWord_dx, hd, ho]
  simp

end Sys2Proof

namespace Sys2Proof.Laws.Roundtrip

/-- Decoding the words of a well-formed instruction gives the instruction back (R109 to R133). -/
def Statement (i : Instr) : Prop := i.wellFormed = true → i.parts.isSome = true → decodeWords (encode i) = .ok i

theorem nop (h : Hdr) : Statement (.nop h) := fun hw _ =>
  decode_of_parse _ h 0x00 (bare7) none rfl (by decide) (by simp [hasExt]) (by simp [parse, decControl, Except.map, bind, Except.bind, pure, Except.pure, -BitVec.getLsbD_eq_getElem]) (legal_of hw)

theorem bra (h : Hdr) (any : Bool) (off : BitVec 24) : Statement (.bra h any off) := fun hw _ =>
  decode_of_parse _ h 0x01 (F3.pack ⟨0#1 ++ ofBit any ++ 0#21, off⟩) none rfl (by decide) (by simp [hasExt]) (by cases any <;> simp [parse, decControl, Except.map, bind, Except.bind, pure, Except.pure, -BitVec.getLsbD_eq_getElem] <;> rfl) (legal_of hw)

theorem bru (h : Hdr) (off : BitVec 24) : Statement (.bru h off) := fun hw _ =>
  decode_of_parse _ h 0x02 (F3.pack ⟨0, off⟩) none rfl (by decide) (by simp [hasExt]) (by simp [parse, decControl, Except.map, bind, Except.bind, pure, Except.pure, -BitVec.getLsbD_eq_getElem]) (legal_of hw)

theorem brx (h : Hdr) (a : Src) : Statement (.brx h a) := fun hw _ =>
  decode_of_parse _ h 0x03 (F0.pack ⟨0, a.enc, 0, 0, 0, 0⟩) none rfl (by decide) (by simp [hasExt]) (by simp [parse, decControl, Except.map, bind, Except.bind, pure, Except.pure, -BitVec.getLsbD_eq_getElem]) (legal_of hw)

theorem call (h : Hdr) (link : BitVec 7) (off : BitVec 24) : Statement (.call h link off) := fun hw _ =>
  decode_of_parse _ h 0x04 (F3.pack ⟨link ++ 0#16, off⟩) none rfl (by decide) (by simp [hasExt]) (by simp [parse, decControl, Except.map, bind, Except.bind, pure, Except.pure, -BitVec.getLsbD_eq_getElem]) (legal_of hw)

theorem callx (h : Hdr) (link : BitVec 7) (a : Src) : Statement (.callx h link a) := fun hw _ =>
  decode_of_parse _ h 0x05 (F0.pack ⟨0#3 ++ link, a.enc, 0, 0, 0, 0⟩) none rfl (by decide) (by simp [hasExt]) (by simp [parse, decControl, Except.map, bind, Except.bind, pure, Except.pure, -BitVec.getLsbD_eq_getElem]) (legal_of hw)

theorem ret (h : Hdr) (link : BitVec 7) : Statement (.ret h link) := fun hw _ =>
  decode_of_parse _ h 0x06 (F7.pack ⟨0, 0#3 ++ link, 0, 0, 0⟩) none rfl (by decide) (by simp [hasExt]) (by simp [parse, decControl, Except.map, bind, Except.bind, pure, Except.pure, -BitVec.getLsbD_eq_getElem]) (legal_of hw)

theorem dvg (h : Hdr) (p : BitVec 3) (neg : Bool) (off : BitVec 24) : Statement (.dvg h p neg off) := fun hw _ =>
  decode_of_parse _ h 0x07 (F3.pack ⟨p ++ ofBit neg ++ 0#19, off⟩) none rfl (by decide) (by simp [hasExt]) (by simp [parse, decControl, Except.map, bind, Except.bind, pure, Except.pure, -BitVec.getLsbD_eq_getElem]) (legal_of hw)

theorem cvg (h : Hdr) : Statement (.cvg h) := fun hw _ =>
  decode_of_parse _ h 0x08 (bare7) none rfl (by decide) (by simp [hasExt]) (by simp [parse, decControl, Except.map, bind, Except.bind, pure, Except.pure, -BitVec.getLsbD_eq_getElem]) (legal_of hw)

theorem exit (h : Hdr) : Statement (.exit h) := fun hw _ =>
  decode_of_parse _ h 0x09 (bare7) none rfl (by decide) (by simp [hasExt]) (by simp [parse, decControl, Except.map, bind, Except.bind, pure, Except.pure, -BitVec.getLsbD_eq_getElem]) (legal_of hw)

theorem yield (h : Hdr) : Statement (.yield h) := fun hw _ =>
  decode_of_parse _ h 0x0A (bare7) none rfl (by decide) (by simp [hasExt]) (by simp [parse, decControl, Except.map, bind, Except.bind, pure, Except.pure, -BitVec.getLsbD_eq_getElem]) (legal_of hw)

theorem spawn (h : Hdr) (a : BitVec 8) (cnt : BitVec 3) (off : BitVec 24) : Statement (.spawn h a cnt off) := fun hw _ =>
  decode_of_parse _ h 0x0B (F3.pack ⟨a ++ cnt ++ 0#12, off⟩) none rfl (by decide) (by simp [hasExt]) (by simp [parse, decControl, Except.map, bind, Except.bind, pure, Except.pure, -BitVec.getLsbD_eq_getElem]) (legal_of hw)

theorem regroup (h : Hdr) (pd : BitVec 3) (mask : DWord) : Statement (.regroup h pd mask) := fun hw _ =>
  decode_of_parse _ h 0x0C (F7.pack ⟨0, 0, 0, 0, 0#9 ++ pd⟩) (some mask) rfl (by decide) (by simp [hasExt]) (by simp [parse, decControl, Except.map, bind, Except.bind, pure, Except.pure, -BitVec.getLsbD_eq_getElem]) (legal_of hw)

theorem vote (h : Hdr) (op : VoteOp) (d : PSel) (a : PSel) : Statement (.vote h op d a) := fun hw _ =>
  decode_of_parse _ h 0x0D (F0.pack ⟨d.enc, a.enc, 0, 0, 0, op.enc⟩) none rfl (by decide) (by simp [hasExt]) (by cases op <;> simp [VoteOp.enc, parse, decControl, Except.map, bind, Except.bind, pure, Except.pure, -BitVec.getLsbD_eq_getElem]) (legal_of hw)

theorem voteMask (h : Hdr) (below : Bool) (d : Dst) (a : PSel) : Statement (.voteMask h below d a) := fun hw _ =>
  decode_of_parse _ h 0x0D (F0.pack ⟨d.enc, a.enc, 0#9 ++ ofBit below, 0, 0, 3⟩) none rfl (by decide) (by simp [hasExt]) (by simp [parse, decControl, Except.map, bind, Except.bind, pure, Except.pure, -BitVec.getLsbD_eq_getElem]) (legal_of hw)

theorem elect (h : Hdr) (d : PSel) : Statement (.elect h d) := fun hw _ =>
  decode_of_parse _ h 0x0E (F0.pack ⟨d.enc, 0, 0, 0, 0, 0⟩) none rfl (by decide) (by simp [hasExt]) (by simp [parse, decControl, Except.map, bind, Except.bind, pure, Except.pure, -BitVec.getLsbD_eq_getElem]) (legal_of hw)

theorem shfl (h : Hdr) (op : ShflOp) (wrap : Bool) (ty : Ty) (d : Dst) (a : Src) (b : Src) : Statement (.shfl h op wrap ty d a b) := fun hw _ =>
  decode_of_parse _ h 0x0F (F0.pack ⟨d.enc, a.enc, b.enc, 0#9 ++ ofBit wrap, ty.enc, op.enc⟩) none rfl (by decide) (by simp [hasExt]) (by simp [parse, decControl, Except.map, bind, Except.bind, pure, Except.pure, -BitVec.getLsbD_eq_getElem]) (legal_of hw)

theorem matchL (h : Hdr) (ty : Ty) (d : Dst) (a : Src) : Statement (.matchL h ty d a) := fun hw _ =>
  decode_of_parse _ h 0x10 (F0.pack ⟨d.enc, a.enc, 0, 0, ty.enc, 0⟩) none rfl (by decide) (by simp [hasExt]) (by simp [parse, decControl, Except.map, bind, Except.bind, pure, Except.pure, -BitVec.getLsbD_eq_getElem]) (legal_of hw)

theorem plop (h : Hdr) (op : PlopOp) (d : PSel) (a : PSel) (b : PSel) : Statement (.plop h op d a b) := fun hw _ =>
  decode_of_parse _ h 0x11 (F0.pack ⟨d.enc, a.enc, b.enc, 0, 0, op.enc⟩) none rfl (by decide) (by simp [hasExt]) (by simp [parse, decControl, Except.map, bind, Except.bind, pure, Except.pure, -BitVec.getLsbD_eq_getElem]) (legal_of hw)

theorem setfmtImm (h : Hdr) (imm : BitVec 24) : Statement (.setfmtImm h imm) := fun hw _ =>
  decode_of_parse _ h 0x12 (F1.pack ⟨0, 0, 0, imm⟩) none rfl (by decide) (by simp [hasExt]) (by simp [parse, decControl, Except.map, bind, Except.bind, pure, Except.pure, -BitVec.getLsbD_eq_getElem]) (legal_of hw)

theorem setfmtReg (h : Hdr) (a : Src) : Statement (.setfmtReg h a) := fun hw _ =>
  decode_of_parse _ h 0x12 (F1.pack ⟨0, a.enc, 1, 0⟩) none rfl (by decide) (by simp [hasExt]) (by simp [parse, decControl, Except.map, bind, Except.bind, pure, Except.pure, -BitVec.getLsbD_eq_getElem]) (legal_of hw)

theorem getfmt (h : Hdr) (d : Dst) : Statement (.getfmt h d) := fun hw _ =>
  decode_of_parse _ h 0x13 (F0.pack ⟨d.enc, 0, 0, 0, 0, 0⟩) none rfl (by decide) (by simp [hasExt]) (by simp [parse, decControl, Except.map, bind, Except.bind, pure, Except.pure, -BitVec.getLsbD_eq_getElem]) (legal_of hw)

theorem sreg (h : Hdr) (d : Dst) (num : BitVec 24) : Statement (.sreg h d num) := fun hw _ =>
  decode_of_parse _ h 0x14 (F1.pack ⟨d.enc, 0, 0, num⟩) none rfl (by decide) (by simp [hasExt]) (by simp [parse, decControl, Except.map, bind, Except.bind, pure, Except.pure, -BitVec.getLsbD_eq_getElem]) (legal_of hw)

theorem iadd (x : Op2) : Statement (.iadd x) := fun hw _ =>
  decode_of_parse _ x.h 0x20 (x.body) none rfl (by decide) (by simp [hasExt]) (decOp2_body .iadd x) (legal_of hw)

theorem iadd3 (x : Op3) : Statement (.iadd3 x) := fun hw _ =>
  decode_of_parse _ x.h 0x21 (x.body) none rfl (by decide) (by simp [hasExt]) (decOp3_body .iadd3 x) (legal_of hw)

theorem isub (x : Op2) : Statement (.isub x) := fun hw _ =>
  decode_of_parse _ x.h 0x22 (x.body) none rfl (by decide) (by simp [hasExt]) (decOp2_body .isub x) (legal_of hw)

theorem ineg (x : Op1) : Statement (.ineg x) := fun hw _ =>
  decode_of_parse _ x.h 0x23 (x.body) none rfl (by decide) (by simp [hasExt]) (decOp1_body .ineg x) (legal_of hw)

theorem iabs (x : Op1) : Statement (.iabs x) := fun hw _ =>
  decode_of_parse _ x.h 0x24 (x.body) none rfl (by decide) (by simp [hasExt]) (decOp1_body .iabs x) (legal_of hw)

theorem imul (x : Op2) : Statement (.imul x) := fun hw _ =>
  decode_of_parse _ x.h 0x25 (x.body) none rfl (by decide) (by simp [hasExt]) (decOp2_body .imul x) (legal_of hw)

theorem imulh (x : Op2) : Statement (.imulh x) := fun hw _ =>
  decode_of_parse _ x.h 0x26 (x.body) none rfl (by decide) (by simp [hasExt]) (decOp2_body .imulh x) (legal_of hw)

theorem imad (x : Op3) : Statement (.imad x) := fun hw _ =>
  decode_of_parse _ x.h 0x27 (x.body) none rfl (by decide) (by simp [hasExt]) (decOp3_body .imad x) (legal_of hw)

theorem idiv (x : Op2) : Statement (.idiv x) := fun hw _ =>
  decode_of_parse _ x.h 0x28 (x.body) none rfl (by decide) (by simp [hasExt]) (decOp2_body .idiv x) (legal_of hw)

theorem irem (x : Op2) : Statement (.irem x) := fun hw _ =>
  decode_of_parse _ x.h 0x29 (x.body) none rfl (by decide) (by simp [hasExt]) (decOp2_body .irem x) (legal_of hw)

theorem imin (x : Op2) : Statement (.imin x) := fun hw _ =>
  decode_of_parse _ x.h 0x2A (x.body) none rfl (by decide) (by simp [hasExt]) (decOp2_body .imin x) (legal_of hw)

theorem imax (x : Op2) : Statement (.imax x) := fun hw _ =>
  decode_of_parse _ x.h 0x2B (x.body) none rfl (by decide) (by simp [hasExt]) (decOp2_body .imax x) (legal_of hw)

theorem icmp (x : CmpOp) : Statement (.icmp x) := fun hw _ =>
  decode_of_parse _ x.h 0x2C (x.body) none rfl (by decide) (by simp [hasExt]) (decCmp_body .icmp x) (legal_of hw)

theorem isel (h : Hdr) (d : Dst) (a b : Src) (sel : PSel) (ty : Ty) : Statement (.isel h d a b sel ty) := fun hw _ =>
  decode_of_parse _ h 0x2D (F0.pack ⟨d.enc, a.enc, b.enc, sel.enc, ty.enc, 0⟩) none rfl (by decide) (by simp [hasExt]) (by simp [parse, decInteger, Except.map, bind, Except.bind, pure, Except.pure, -BitVec.getLsbD_eq_getElem]) (legal_of hw)

theorem and (x : Op2) : Statement (.and x) := fun hw _ =>
  decode_of_parse _ x.h 0x2E (x.body) none rfl (by decide) (by simp [hasExt]) (decOp2_body .and x) (legal_of hw)

theorem or (x : Op2) : Statement (.or x) := fun hw _ =>
  decode_of_parse _ x.h 0x2F (x.body) none rfl (by decide) (by simp [hasExt]) (decOp2_body .or x) (legal_of hw)

theorem xor (x : Op2) : Statement (.xor x) := fun hw _ =>
  decode_of_parse _ x.h 0x30 (x.body) none rfl (by decide) (by simp [hasExt]) (decOp2_body .xor x) (legal_of hw)

theorem not (x : Op1) : Statement (.not x) := fun hw _ =>
  decode_of_parse _ x.h 0x31 (x.body) none rfl (by decide) (by simp [hasExt]) (decOp1_body .not x) (legal_of hw)

theorem andn (x : Op2) : Statement (.andn x) := fun hw _ =>
  decode_of_parse _ x.h 0x32 (x.body) none rfl (by decide) (by simp [hasExt]) (decOp2_body .andn x) (legal_of hw)

theorem shl (x : Op2) : Statement (.shl x) := fun hw _ =>
  decode_of_parse _ x.h 0x33 (x.body) none rfl (by decide) (by simp [hasExt]) (decOp2_body .shl x) (legal_of hw)

theorem shr (x : Op2) : Statement (.shr x) := fun hw _ =>
  decode_of_parse _ x.h 0x34 (x.body) none rfl (by decide) (by simp [hasExt]) (decOp2_body .shr x) (legal_of hw)

theorem sar (x : Op2) : Statement (.sar x) := fun hw _ =>
  decode_of_parse _ x.h 0x35 (x.body) none rfl (by decide) (by simp [hasExt]) (decOp2_body .sar x) (legal_of hw)

theorem rol (x : Op2) : Statement (.rol x) := fun hw _ =>
  decode_of_parse _ x.h 0x36 (x.body) none rfl (by decide) (by simp [hasExt]) (decOp2_body .rol x) (legal_of hw)

theorem popc (x : Op1) : Statement (.popc x) := fun hw _ =>
  decode_of_parse _ x.h 0x37 (x.body) none rfl (by decide) (by simp [hasExt]) (decOp1_body .popc x) (legal_of hw)

theorem clz (x : Op1) : Statement (.clz x) := fun hw _ =>
  decode_of_parse _ x.h 0x38 (x.body) none rfl (by decide) (by simp [hasExt]) (decOp1_body .clz x) (legal_of hw)

theorem ctz (x : Op1) : Statement (.ctz x) := fun hw _ =>
  decode_of_parse _ x.h 0x39 (x.body) none rfl (by decide) (by simp [hasExt]) (decOp1_body .ctz x) (legal_of hw)

theorem brev (x : Op1) : Statement (.brev x) := fun hw _ =>
  decode_of_parse _ x.h 0x3A (x.body) none rfl (by decide) (by simp [hasExt]) (decOp1_body .brev x) (legal_of hw)

theorem bfx (x : Op2) : Statement (.bfx x) := fun hw _ =>
  decode_of_parse _ x.h 0x3B (x.body) none rfl (by decide) (by simp [hasExt]) (decOp2_body .bfx x) (legal_of hw)

theorem bfi (x : Op3) : Statement (.bfi x) := fun hw _ =>
  decode_of_parse _ x.h 0x3C (x.body) none rfl (by decide) (by simp [hasExt]) (decOp3_body .bfi x) (legal_of hw)

theorem perm (x : Op3) : Statement (.perm x) := fun hw _ =>
  decode_of_parse _ x.h 0x3D (x.body) none rfl (by decide) (by simp [hasExt]) (decOp3_body .perm x) (legal_of hw)

theorem lea (x : Op3) : Statement (.lea x) := fun hw _ =>
  decode_of_parse _ x.h 0x3E (x.body) none rfl (by decide) (by simp [hasExt]) (decOp3_body .lea x) (legal_of hw)

theorem mov (x : Op1) : Statement (.mov x) := fun hw _ =>
  decode_of_parse _ x.h 0x3F (x.body) none rfl (by decide) (by simp [hasExt]) (decOp1_body .mov x) (legal_of hw)

theorem movi (h : Hdr) (d : Dst) (sub : BitVec 3) (imm : BitVec 24) : Statement (.movi h d sub imm) := fun hw _ =>
  decode_of_parse _ h 0x40 (F1.pack ⟨d.enc, 0, sub, imm⟩) none rfl (by decide) (by simp [hasExt]) (by simp [parse, decInteger, Except.map, bind, Except.bind, pure, Except.pure, -BitVec.getLsbD_eq_getElem]) (legal_of hw)

theorem ldi (h : Hdr) (d : Dst) (sub : BitVec 3) (imm : DWord) : Statement (.ldi h d sub imm) := fun hw _ =>
  decode_of_parse _ h 0x41 (F1.pack ⟨d.enc, 0, sub, 0⟩) (some imm) rfl (by decide) (by simp [hasExt]) (by simp [parse, decInteger, Except.map, bind, Except.bind, pure, Except.pure, -BitVec.getLsbD_eq_getElem]) (legal_of hw)

theorem cvti (h : Hdr) (d : Dst) (a : Src) (dty sty : Ty) (sub : BitVec 2) : Statement (.cvti h d a dty sty sub) := fun hw _ =>
  decode_of_parse _ h 0x42 (F0.pack ⟨d.enc, a.enc, 0, 0#5 ++ sty.enc, dty.enc, sub⟩) none rfl (by decide) (by simp [hasExt]) (by simp [parse, decInteger, Except.map, bind, Except.bind, pure, Except.pure, -BitVec.getLsbD_eq_getElem]) (legal_of hw)

theorem fadd (x : FOp2) : Statement (.fadd x) := fun hw _ =>
  decode_of_parse _ x.h 0x50 (x.body) none rfl (by decide) (by simp [hasExt]) (decFOp2_body .fadd x) (legal_of hw)

theorem fsub (x : FOp2) : Statement (.fsub x) := fun hw _ =>
  decode_of_parse _ x.h 0x51 (x.body) none rfl (by decide) (by simp [hasExt]) (decFOp2_body .fsub x) (legal_of hw)

theorem fmul (x : FOp2) : Statement (.fmul x) := fun hw _ =>
  decode_of_parse _ x.h 0x52 (x.body) none rfl (by decide) (by simp [hasExt]) (decFOp2_body .fmul x) (legal_of hw)

theorem fma (x : Op3) : Statement (.fma x) := fun hw _ =>
  decode_of_parse _ x.h 0x53 (x.body) none rfl (by decide) (by simp [hasExt]) (decOp3_body .fma x) (legal_of hw)

theorem fmin (x : Op2) : Statement (.fmin x) := fun hw _ =>
  decode_of_parse _ x.h 0x54 (x.body) none rfl (by decide) (by simp [hasExt]) (decOp2_body .fmin x) (legal_of hw)

theorem fmax (x : Op2) : Statement (.fmax x) := fun hw _ =>
  decode_of_parse _ x.h 0x55 (x.body) none rfl (by decide) (by simp [hasExt]) (decOp2_body .fmax x) (legal_of hw)

theorem fcmp (x : CmpOp) : Statement (.fcmp x) := fun hw _ =>
  decode_of_parse _ x.h 0x56 (x.body) none rfl (by decide) (by simp [hasExt]) (decCmp_body .fcmp x) (legal_of hw)

theorem fneg (x : Op1) : Statement (.fneg x) := fun hw _ =>
  decode_of_parse _ x.h 0x57 (x.body) none rfl (by decide) (by simp [hasExt]) (decOp1_body .fneg x) (legal_of hw)

theorem fabs (x : Op1) : Statement (.fabs x) := fun hw _ =>
  decode_of_parse _ x.h 0x58 (x.body) none rfl (by decide) (by simp [hasExt]) (decOp1_body .fabs x) (legal_of hw)

theorem frcp (x : FOp1) : Statement (.frcp x) := fun hw _ =>
  decode_of_parse _ x.h 0x59 (x.body) none rfl (by decide) (by simp [hasExt]) (decFOp1_body .frcp x) (legal_of hw)

theorem frsq (x : FOp1) : Statement (.frsq x) := fun hw _ =>
  decode_of_parse _ x.h 0x5A (x.body) none rfl (by decide) (by simp [hasExt]) (decFOp1_body .frsq x) (legal_of hw)

theorem fsqrt (x : FOp1) : Statement (.fsqrt x) := fun hw _ =>
  decode_of_parse _ x.h 0x5B (x.body) none rfl (by decide) (by simp [hasExt]) (decFOp1_body .fsqrt x) (legal_of hw)

theorem fdiv (x : FOp2) : Statement (.fdiv x) := fun hw _ =>
  decode_of_parse _ x.h 0x5C (x.body) none rfl (by decide) (by simp [hasExt]) (decFOp2_body .fdiv x) (legal_of hw)

theorem fex2 (x : FOp1) : Statement (.fex2 x) := fun hw _ =>
  decode_of_parse _ x.h 0x5D (x.body) none rfl (by decide) (by simp [hasExt]) (decFOp1_body .fex2 x) (legal_of hw)

theorem flg2 (x : FOp1) : Statement (.flg2 x) := fun hw _ =>
  decode_of_parse _ x.h 0x5E (x.body) none rfl (by decide) (by simp [hasExt]) (decFOp1_body .flg2 x) (legal_of hw)

theorem fsin (x : FOp1) : Statement (.fsin x) := fun hw _ =>
  decode_of_parse _ x.h 0x5F (x.body) none rfl (by decide) (by simp [hasExt]) (decFOp1_body .fsin x) (legal_of hw)

theorem fcos (x : FOp1) : Statement (.fcos x) := fun hw _ =>
  decode_of_parse _ x.h 0x60 (x.body) none rfl (by decide) (by simp [hasExt]) (decFOp1_body .fcos x) (legal_of hw)

theorem ftanh (x : FOp1) : Statement (.ftanh x) := fun hw _ =>
  decode_of_parse _ x.h 0x61 (x.body) none rfl (by decide) (by simp [hasExt]) (decFOp1_body .ftanh x) (legal_of hw)

theorem fcls (x : Op1) : Statement (.fcls x) := fun hw _ =>
  decode_of_parse _ x.h 0x62 (x.body) none rfl (by decide) (by simp [hasExt]) (decOp1_body .fcls x) (legal_of hw)

theorem fscl (x : FOp2) : Statement (.fscl x) := fun hw _ =>
  decode_of_parse _ x.h 0x63 (x.body) none rfl (by decide) (by simp [hasExt]) (decFOp2_body .fscl x) (legal_of hw)

theorem frnd (x : FOp1) : Statement (.frnd x) := fun hw _ =>
  decode_of_parse _ x.h 0x64 (x.body) none rfl (by decide) (by simp [hasExt]) (decFOp1_body .frnd x) (legal_of hw)

theorem fcvt (x : CvtOp) : Statement (.fcvt x) := fun hw _ =>
  decode_of_parse _ x.h 0x65 (x.body) none rfl (by decide) (by simp [hasExt]) (decCvt_body .fcvt x) (legal_of hw)

theorem fcvti (x : CvtOp) : Statement (.fcvti x) := fun hw _ =>
  decode_of_parse _ x.h 0x66 (x.body) none rfl (by decide) (by simp [hasExt]) (decCvt_body .fcvti x) (legal_of hw)

theorem icvtf (x : CvtOp) : Statement (.icvtf x) := fun hw _ =>
  decode_of_parse _ x.h 0x67 (x.body) none rfl (by decide) (by simp [hasExt]) (decCvt_body .icvtf x) (legal_of hw)

theorem hadd2 (x : FOp2) : Statement (.hadd2 x) := fun hw _ =>
  decode_of_parse _ x.h 0x68 (x.body) none rfl (by decide) (by simp [hasExt]) (decFOp2_body .hadd2 x) (legal_of hw)

theorem hmul2 (x : FOp2) : Statement (.hmul2 x) := fun hw _ =>
  decode_of_parse _ x.h 0x69 (x.body) none rfl (by decide) (by simp [hasExt]) (decFOp2_body .hmul2 x) (legal_of hw)

theorem hfma2 (x : Op3) : Statement (.hfma2 x) := fun hw _ =>
  decode_of_parse _ x.h 0x6A (x.body) none rfl (by decide) (by simp [hasExt]) (decOp3_body .hfma2 x) (legal_of hw)

theorem dot4 (x : Op3) : Statement (.dot4 x) := fun hw _ =>
  decode_of_parse _ x.h 0x6B (x.body) none rfl (by decide) (by simp [hasExt]) (decOp3_body .dot4 x) (legal_of hw)

theorem ldOwn (x : MemOp) : Statement (.ldOwn x) := fun hw _ =>
  decode_of_parse _ x.h 0x70 (x.body) none rfl (by decide) (by simp [hasExt]) (decMem_body .ldOwn x) (legal_of hw)

theorem ldWt (x : MemOp) : Statement (.ldWt x) := fun hw _ =>
  decode_of_parse _ x.h 0x71 (x.body) none rfl (by decide) (by simp [hasExt]) (decMem_body .ldWt x) (legal_of hw)

theorem ldSi (x : MemOp) : Statement (.ldSi x) := fun hw _ =>
  decode_of_parse _ x.h 0x72 (x.body) none rfl (by decide) (by simp [hasExt]) (decMem_body .ldSi x) (legal_of hw)

theorem ldUc (x : MemOp) : Statement (.ldUc x) := fun hw _ =>
  decode_of_parse _ x.h 0x73 (x.body) none rfl (by decide) (by simp [hasExt]) (decMem_body .ldUc x) (legal_of hw)

theorem stOwn (x : MemOp) : Statement (.stOwn x) := fun hw _ =>
  decode_of_parse _ x.h 0x74 (x.body) none rfl (by decide) (by simp [hasExt]) (decMem_body .stOwn x) (legal_of hw)

theorem stWt (x : MemOp) : Statement (.stWt x) := fun hw _ =>
  decode_of_parse _ x.h 0x75 (x.body) none rfl (by decide) (by simp [hasExt]) (decMem_body .stWt x) (legal_of hw)

theorem stSi (x : MemOp) : Statement (.stSi x) := fun hw _ =>
  decode_of_parse _ x.h 0x76 (x.body) none rfl (by decide) (by simp [hasExt]) (decMem_body .stSi x) (legal_of hw)

theorem stUc (x : MemOp) : Statement (.stUc x) := fun hw _ =>
  decode_of_parse _ x.h 0x77 (x.body) none rfl (by decide) (by simp [hasExt]) (decMem_body .stUc x) (legal_of hw)

theorem lduOwn (x : LduOp) : Statement (.lduOwn x) := fun hw _ =>
  decode_of_parse _ x.h 0x78 (x.body) none rfl (by decide) (by simp [hasExt]) (decLdu_body .lduOwn x) (legal_of hw)

theorem lduWt (x : LduOp) : Statement (.lduWt x) := fun hw _ =>
  decode_of_parse _ x.h 0x79 (x.body) none rfl (by decide) (by simp [hasExt]) (decLdu_body .lduWt x) (legal_of hw)

theorem lduSi (x : LduOp) : Statement (.lduSi x) := fun hw _ =>
  decode_of_parse _ x.h 0x7A (x.body) none rfl (by decide) (by simp [hasExt]) (decLdu_body .lduSi x) (legal_of hw)

theorem lduUc (x : LduOp) : Statement (.lduUc x) := fun hw _ =>
  decode_of_parse _ x.h 0x7B (x.body) none rfl (by decide) (by simp [hasExt]) (decLdu_body .lduUc x) (legal_of hw)

theorem lds (x : MemOp) : Statement (.lds x) := fun hw _ =>
  decode_of_parse _ x.h 0x7C (x.body) none rfl (by decide) (by simp [hasExt]) (decMem_body .lds x) (legal_of hw)

theorem sts (x : MemOp) : Statement (.sts x) := fun hw _ =>
  decode_of_parse _ x.h 0x7D (x.body) none rfl (by decide) (by simp [hasExt]) (decMem_body .sts x) (legal_of hw)

theorem pref (h : Hdr) (addr : BitVec 6) (home : Bool) (n : BitVec 4) (off : BitVec 16) : Statement (.pref h addr home n off) := fun hw _ =>
  decode_of_parse _ h 0x7E (F2.pack ⟨0, addr, 0, 0#7 ++ ofBit home ++ n, off⟩) none rfl (by decide) (by simp [hasExt]) (by simp [parse, decMemory, Except.map, bind, Except.bind, pure, Except.pure, -BitVec.getLsbD_eq_getElem]) (legal_of hw)

theorem zsect (h : Hdr) (addr : BitVec 6) (ord : Order) (scp : Scope) (off : BitVec 16) : Statement (.zsect h addr ord scp off) := fun hw _ =>
  decode_of_parse _ h 0x7F (F2.pack ⟨0, addr, encSO ord scp, 0, off⟩) none rfl (by decide) (by simp [hasExt]) (by simp [parse, decMemory, Except.map, bind, Except.bind, pure, Except.pure, -BitVec.getLsbD_eq_getElem]) (legal_of hw)

theorem wmap (h : Hdr) (data : BitVec 7) (addr : BitVec 6) (scp : Scope) (zero : Bool) (ft : Rt) (off : BitVec 16) : Statement (.wmap h data addr scp zero ft off) := fun hw _ =>
  decode_of_parse _ h 0x80 (F2.pack ⟨0#1 ++ data, addr, encSO .rlx scp, 0#9 ++ ft.enc ++ ofBit zero, off⟩) none rfl (by decide) (by simp [hasExt]) (by simp [parse, decMemory, Except.map, bind, Except.bind, pure, Except.pure, -BitVec.getLsbD_eq_getElem]) (legal_of hw)

theorem wunmap (x : WinOp) : Statement (.wunmap x) := fun hw _ =>
  decode_of_parse _ x.h 0x81 (x.body 0) none rfl (by decide) (by simp [hasExt]) (by simp [parse, decMemory, decWin, WinOp.body, Except.map, bind, Except.bind, pure, Except.pure, -BitVec.getLsbD_eq_getElem]) (legal_of hw)

theorem wflush (x : WinOp) : Statement (.wflush x) := fun hw _ =>
  decode_of_parse _ x.h 0x82 (x.body 0) none rfl (by decide) (by simp [hasExt]) (by simp [parse, decMemory, decWin, WinOp.body, Except.map, bind, Except.bind, pure, Except.pure, -BitVec.getLsbD_eq_getElem]) (legal_of hw)

theorem winv (x : WinOp) (discard : Bool) : Statement (.winv x discard) := fun hw _ =>
  decode_of_parse _ x.h 0x83 (x.body (0#11 ++ ofBit discard)) none rfl (by decide) (by simp [hasExt]) (by simp [parse, decMemory, decWin, WinOp.body, Except.map, bind, Except.bind, pure, Except.pure, -BitVec.getLsbD_eq_getElem]) (legal_of hw)

theorem wstat (x : WinOp) : Statement (.wstat x) := fun hw _ =>
  decode_of_parse _ x.h 0x84 (x.body 0) none rfl (by decide) (by simp [hasExt]) (by simp [parse, decMemory, decWin, WinOp.body, Except.map, bind, Except.bind, pure, Except.pure, -BitVec.getLsbD_eq_getElem]) (legal_of hw)

theorem clean (x : MaintOp) : Statement (.clean x) := fun hw _ =>
  decode_of_parse _ x.h 0x85 (x.body) none rfl (by decide) (by simp [hasExt]) (decMaint_body .clean x) (legal_of hw)

theorem inval (x : MaintOp) : Statement (.inval x) := fun hw _ =>
  decode_of_parse _ x.h 0x86 (x.body) none rfl (by decide) (by simp [hasExt]) (decMaint_body .inval x) (legal_of hw)

theorem atom (x : AtomFields) : Statement (.atom x) := fun hw _ =>
  decode_of_parse _ x.h 0x90 (x.body) none rfl (by decide) (by simp [hasExt]) (decAtom_body .atom x) (legal_of hw)

theorem atomcas (x : AtomFields) : Statement (.atomcas x) := fun hw _ =>
  decode_of_parse _ x.h 0x91 (x.body) none rfl (by decide) (by simp [hasExt]) (decAtom_body .atomcas x) (legal_of hw)

theorem red (x : AtomFields) : Statement (.red x) := fun hw _ =>
  decode_of_parse _ x.h 0x92 (x.body) none rfl (by decide) (by simp [hasExt]) (decAtom_body .red x) (legal_of hw)

theorem fence (h : Hdr) (ord : Order) (scp : Scope) : Statement (.fence h ord scp) := fun hw _ =>
  decode_of_parse _ h 0x93 (F2.pack ⟨0, 0, encSO ord scp, 0, 0⟩) none rfl (by decide) (by simp [hasExt]) (by simp [parse, decSync, Except.map, bind, Except.bind, pure, Except.pure, -BitVec.getLsbD_eq_getElem]) (legal_of hw)

theorem qfence (h : Hdr) (set : BitVec 6) : Statement (.qfence h set) := fun hw _ =>
  decode_of_parse _ h 0x94 (F1.pack ⟨0, 0, 0, 0#18 ++ set⟩) none rfl (by decide) (by simp [hasExt]) (by simp [parse, decSync, Except.map, bind, Except.bind, pure, Except.pure, -BitVec.getLsbD_eq_getElem]) (legal_of hw)

theorem barTeam (h : Hdr) (id : BitVec 4) : Statement (.barTeam h id) := fun hw _ =>
  decode_of_parse _ h 0x95 (F1.pack ⟨0, 0, 0, 0#20 ++ id⟩) none rfl (by decide) (by simp [hasExt]) (by simp [parse, decSync, Except.map, bind, Except.bind, pure, Except.pure, -BitVec.getLsbD_eq_getElem]) (legal_of hw)

theorem barRole (h : Hdr) (id : BitVec 4) : Statement (.barRole h id) := fun hw _ =>
  decode_of_parse _ h 0x95 (F1.pack ⟨0, 0, 1, 0#20 ++ id⟩) none rfl (by decide) (by simp [hasExt]) (by simp [parse, decSync, Except.map, bind, Except.bind, pure, Except.pure, -BitVec.getLsbD_eq_getElem]) (legal_of hw)

theorem bbar (h : Hdr) (id : BitVec 4) (cnt : Src) : Statement (.bbar h id cnt) := fun hw _ =>
  decode_of_parse _ h 0x96 (F1.pack ⟨0, cnt.enc, 0, 0#20 ++ id⟩) none rfl (by decide) (by simp [hasExt]) (by simp [parse, decSync, Except.map, bind, Except.bind, pure, Except.pure, -BitVec.getLsbD_eq_getElem]) (legal_of hw)

theorem mwait (x : MwaitOp) : Statement (.mwait x) := fun hw _ =>
  decode_of_parse _ x.h 0x97 (x.body) none rfl (by decide) (by simp [hasExt]) (by simp [parse, decSync, MwaitOp.body, Except.map, bind, Except.bind, pure, Except.pure, -BitVec.getLsbD_eq_getElem]) (legal_of hw)

theorem tbinit (x : TbOp) : Statement (.tbinit x) := fun hw _ =>
  decode_of_parse _ x.h 0x98 (x.body) none rfl (by decide) (by simp [hasExt]) (decTb_body .tbinit x) (legal_of hw)

theorem tbarr (x : TbOp) : Statement (.tbarr x) := fun hw _ =>
  decode_of_parse _ x.h 0x99 (x.body) none rfl (by decide) (by simp [hasExt]) (decTb_body .tbarr x) (legal_of hw)

theorem tbwait (x : TbOp) : Statement (.tbwait x) := fun hw _ =>
  decode_of_parse _ x.h 0x9A (x.body) none rfl (by decide) (by simp [hasExt]) (decTb_body .tbwait x) (legal_of hw)

theorem cinit (x : CinitOp) : Statement (.cinit x) := fun hw _ =>
  decode_of_parse _ x.h 0xA0 (x.body 0) none rfl (by decide) (by simp [hasExt]) (by simp [parse, decCursor, CinitOp.body, Except.map, bind, Except.bind, pure, Except.pure, -BitVec.getLsbD_eq_getElem]) (legal_of hw)

theorem cinitApp (x : CinitOp) : Statement (.cinitApp x) := fun hw _ =>
  decode_of_parse _ x.h 0xA0 (x.body 1) none rfl (by decide) (by simp [hasExt]) (by simp [parse, decCursor, CinitOp.body, Except.map, bind, Except.bind, pure, Except.pure, -BitVec.getLsbD_eq_getElem]) (legal_of hw)

theorem cnext (h : Hdr) (ca : BitVec 4) (pd : BitVec 3) : Statement (.cnext h ca pd) := fun hw _ =>
  decode_of_parse _ h 0xA1 (F4.pack ⟨0, ca, 0, 0, 0, pd, 0, 0⟩) none rfl (by decide) (by simp [hasExt]) (by simp [parse, decCursor, Except.map, bind, Except.bind, pure, Except.pure, -BitVec.getLsbD_eq_getElem]) (legal_of hw)

theorem cseek (h : Hdr) (ca : BitVec 4) (t : Src) (pd : BitVec 3) : Statement (.cseek h ca t pd) := fun hw _ =>
  decode_of_parse _ h 0xA2 (F4.pack ⟨0, ca, 0, 0, t.enc, pd, 0, 0⟩) none rfl (by decide) (by simp [hasExt]) (by simp [parse, decCursor, Except.map, bind, Except.bind, pure, Except.pure, -BitVec.getLsbD_eq_getElem]) (legal_of hw)

theorem cdesc (x : CdescOp) : Statement (.cdesc x) := fun hw _ =>
  decode_of_parse _ x.h 0xA3 (x.body 0) none rfl (by decide) (by simp [hasExt]) (by simp [parse, decCursor, CdescOp.body, Except.map, bind, Except.bind, pure, Except.pure, -BitVec.getLsbD_eq_getElem]) (legal_of hw)

theorem cdescApp (x : CdescOp) : Statement (.cdescApp x) := fun hw _ =>
  decode_of_parse _ x.h 0xA3 (x.body 1) none rfl (by decide) (by simp [hasExt]) (by simp [parse, decCursor, CdescOp.body, Except.map, bind, Except.bind, pure, Except.pure, -BitVec.getLsbD_eq_getElem]) (legal_of hw)

theorem cisec (x : CmergeOp) : Statement (.cisec x) := fun hw _ =>
  decode_of_parse _ x.h 0xA4 (x.body 0) none rfl (by decide) (by simp [hasExt]) (by simp [parse, decCursor, CmergeOp.body, Except.map, bind, Except.bind, pure, Except.pure, -BitVec.getLsbD_eq_getElem]) (legal_of hw)

theorem cunion (x : CmergeOp) : Statement (.cunion x) := fun hw _ =>
  decode_of_parse _ x.h 0xA4 (x.body 1) none rfl (by decide) (by simp [hasExt]) (by simp [parse, decCursor, CmergeOp.body, Except.map, bind, Except.bind, pure, Except.pure, -BitVec.getLsbD_eq_getElem]) (legal_of hw)

theorem ccrd (x : CreadOp) : Statement (.ccrd x) := fun hw _ =>
  decode_of_parse _ x.h 0xA5 (x.body) none rfl (by decide) (by simp [hasExt]) (by simp [parse, decCursor, CreadOp.body, Except.map, bind, Except.bind, pure, Except.pure, -BitVec.getLsbD_eq_getElem]) (legal_of hw)

theorem cpos (x : CreadOp) : Statement (.cpos x) := fun hw _ =>
  decode_of_parse _ x.h 0xA6 (x.body) none rfl (by decide) (by simp [hasExt]) (by simp [parse, decCursor, CreadOp.body, Except.map, bind, Except.bind, pure, Except.pure, -BitVec.getLsbD_eq_getElem]) (legal_of hw)

theorem cval (x : CreadOp) : Statement (.cval x) := fun hw _ =>
  decode_of_parse _ x.h 0xA7 (x.body) none rfl (by decide) (by simp [hasExt]) (by simp [parse, decCursor, CreadOp.body, Except.map, bind, Except.bind, pure, Except.pure, -BitVec.getLsbD_eq_getElem]) (legal_of hw)

theorem cstv (h : Hdr) (ca : BitVec 4) (a : Src) : Statement (.cstv h ca a) := fun hw _ =>
  decode_of_parse _ h 0xA8 (F4.pack ⟨0, ca, 0, 0, a.enc, 7, 0, 0⟩) none rfl (by decide) (by simp [hasExt]) (by simp [parse, decCursor, Except.map, bind, Except.bind, pure, Except.pure, -BitVec.getLsbD_eq_getElem]) (legal_of hw)

theorem capp (h : Hdr) (ca : BitVec 4) (crd val : Src) : Statement (.capp h ca crd val) := fun hw _ =>
  decode_of_parse _ h 0xA9 (F4.pack ⟨0, ca, 0, crd.enc, val.enc, 7, 0, 0⟩) none rfl (by decide) (by simp [hasExt]) (by simp [parse, decCursor, Except.map, bind, Except.bind, pure, Except.pure, -BitVec.getLsbD_eq_getElem]) (legal_of hw)

theorem cfin (h : Hdr) (ca : BitVec 4) : Statement (.cfin h ca) := fun hw _ =>
  decode_of_parse _ h 0xAA (F4.pack ⟨0, ca, 0, 0, 0, 7, 0, 0⟩) none rfl (by decide) (by simp [hasExt]) (by simp [parse, decCursor, Except.map, bind, Except.bind, pure, Except.pure, -BitVec.getLsbD_eq_getElem]) (legal_of hw)

theorem cdone (h : Hdr) (ca : BitVec 4) (pd : BitVec 3) : Statement (.cdone h ca pd) := fun hw _ =>
  decode_of_parse _ h 0xAB (F4.pack ⟨0, ca, 0, 0, 0, pd, 0, 0⟩) none rfl (by decide) (by simp [hasExt]) (by simp [parse, decCursor, Except.map, bind, Except.bind, pure, Except.pure, -BitVec.getLsbD_eq_getElem]) (legal_of hw)

theorem cmov (h : Hdr) (cd ca : BitVec 4) : Statement (.cmov h cd ca) := fun hw _ =>
  decode_of_parse _ h 0xAC (F4.pack ⟨cd, ca, 0, 0, 0, 7, 0, 0⟩) none rfl (by decide) (by simp [hasExt]) (by simp [parse, decCursor, Except.map, bind, Except.bind, pure, Except.pure, -BitVec.getLsbD_eq_getElem]) (legal_of hw)

theorem csave (h : Hdr) (ca : BitVec 4) (base : Src) (off : BitVec 10) : Statement (.csave h ca base off) := fun hw _ =>
  decode_of_parse _ h 0xAD (F4.pack ⟨0, ca, 0, base.enc, 0, 7, 0, off⟩) none rfl (by decide) (by simp [hasExt]) (by simp [parse, decCursor, Except.map, bind, Except.bind, pure, Except.pure, -BitVec.getLsbD_eq_getElem]) (legal_of hw)

theorem crest (h : Hdr) (cd : BitVec 4) (base : Src) (off : BitVec 10) : Statement (.crest h cd base off) := fun hw _ =>
  decode_of_parse _ h 0xAE (F4.pack ⟨cd, 0, 0, base.enc, 0, 7, 0, off⟩) none rfl (by decide) (by simp [hasExt]) (by simp [parse, decCursor, Except.map, bind, Except.bind, pure, Except.pure, -BitVec.getLsbD_eq_getElem]) (legal_of hw)

theorem cpref (h : Hdr) (ca : BitVec 4) (n : BitVec 4) : Statement (.cpref h ca n) := fun hw _ =>
  decode_of_parse _ h 0xAF (F4.pack ⟨0, ca, 0, 0, 0, 7, 0, 0#6 ++ n⟩) none rfl (by decide) (by simp [hasExt]) (by simp [parse, decCursor, Except.map, bind, Except.bind, pure, Except.pure, -BitVec.getLsbD_eq_getElem]) (legal_of hw)

theorem tld (x : TileMem) : Statement (.tld x) := fun hw _ =>
  decode_of_parse _ x.h 0xB0 (x.body true) none rfl (by decide) (by simp [hasExt]) (by simp [parse, decMatrix, decTileMem, TileMem.body, Except.map, bind, Except.bind, pure, Except.pure, -BitVec.getLsbD_eq_getElem]) (legal_of hw)

theorem tst (x : TileMem) : Statement (.tst x) := fun hw _ =>
  decode_of_parse _ x.h 0xB1 (x.body false) none rfl (by decide) (by simp [hasExt]) (by simp [parse, decMatrix, decTileMem, TileMem.body, Except.map, bind, Except.bind, pure, Except.pure, -BitVec.getLsbD_eq_getElem]) (legal_of hw)

theorem tzero (h : Hdr) (t : BitVec 4) : Statement (.tzero h t) := fun hw _ =>
  decode_of_parse _ h 0xB2 (F5.pack ⟨t, 0, 0, 0, 0, 0, 0⟩) none rfl (by decide) (by simp [hasExt]) (by simp [parse, decMatrix, Except.map, bind, Except.bind, pure, Except.pure, -BitVec.getLsbD_eq_getElem]) (legal_of hw)

theorem tasm (h : Hdr) (t ca : BitVec 4) (k0 : Src) (hi : Bool) (w16 : Bool) : Statement (.tasm h t ca k0 hi w16) := fun hw _ =>
  decode_of_parse _ h 0xB3 (F5.pack ⟨t, ca, 0, 0, k0.enc, 0#2 ++ ofBit hi, 0#11 ++ ofBit w16⟩) none rfl (by decide) (by simp [hasExt]) (by simp [parse, decMatrix, Except.map, bind, Except.bind, pure, Except.pure, -BitVec.getLsbD_eq_getElem]) (legal_of hw)

theorem mma (x : MmaOp) : Statement (.mma x) := fun hw _ =>
  decode_of_parse _ x.h 0xB4 (x.body) none rfl (by decide) (by simp [hasExt]) (by simp [parse, decMatrix, decMma, MmaOp.body, Except.map, bind, Except.bind, pure, Except.pure, -BitVec.getLsbD_eq_getElem]) (legal_of hw)

theorem mmas (x : MmaOp) : Statement (.mmas x) := fun hw _ =>
  decode_of_parse _ x.h 0xB5 (x.body) none rfl (by decide) (by simp [hasExt]) (by simp [parse, decMatrix, decMma, MmaOp.body, Except.map, bind, Except.bind, pure, Except.pure, -BitVec.getLsbD_eq_getElem]) (legal_of hw)

theorem aclr (h : Hdr) (acc : BitVec 4) : Statement (.aclr h acc) := fun hw _ =>
  decode_of_parse _ h 0xB6 (F5.pack ⟨acc, 0, 0, 0, 0, 0, 0⟩) none rfl (by decide) (by simp [hasExt]) (by simp [parse, decMatrix, Except.map, bind, Except.bind, pure, Except.pure, -BitVec.getLsbD_eq_getElem]) (legal_of hw)

theorem ard (x : AccMove) : Statement (.ard x) := fun hw _ =>
  decode_of_parse _ x.h 0xB7 (x.body true) none rfl (by decide) (by simp [hasExt]) (by simp [parse, decMatrix, decAccMove, AccMove.body, Except.map, bind, Except.bind, pure, Except.pure, -BitVec.getLsbD_eq_getElem]) (legal_of hw)

theorem awr (x : AccMove) : Statement (.awr x) := fun hw _ =>
  decode_of_parse _ x.h 0xB8 (x.body false) none rfl (by decide) (by simp [hasExt]) (by simp [parse, decMatrix, decAccMove, AccMove.body, Except.map, bind, Except.bind, pure, Except.pure, -BitVec.getLsbD_eq_getElem]) (legal_of hw)

theorem acvt (h : Hdr) (t acc : BitVec 4) (part : BitVec 2) (ty : Ty) : Statement (.acvt h t acc part ty) := fun hw _ =>
  decode_of_parse _ h 0xB9 (F5.pack ⟨t, acc, 0, 0, 0, 0, 0#5 ++ ty.enc ++ part⟩) none rfl (by decide) (by simp [hasExt]) (by simp [parse, decMatrix, Except.map, bind, Except.bind, pure, Except.pure, -BitVec.getLsbD_eq_getElem]) (legal_of hw)

theorem mfence (h : Hdr) (d : Dst) : Statement (.mfence h d) := fun hw _ =>
  decode_of_parse _ h 0xBA (F5.pack ⟨0, 0, 0, d.enc, 0, 0, 0⟩) none rfl (by decide) (by simp [hasExt]) (by simp [parse, decMatrix, Except.map, bind, Except.bind, pure, Except.pure, -BitVec.getLsbD_eq_getElem]) (legal_of hw)

theorem mwaitb (h : Hdr) (a : Src) (all : Bool) : Statement (.mwaitb h a all) := fun hw _ =>
  decode_of_parse _ h 0xBB (F5.pack ⟨0, 0, 0, a.enc, 0, 0#2 ++ ofBit all, 0⟩) none rfl (by decide) (by simp [hasExt]) (by simp [parse, decMatrix, Except.map, bind, Except.bind, pure, Except.pure, -BitVec.getLsbD_eq_getElem]) (legal_of hw)

theorem cpy (h : Hdr) (sb : BitVec 7) (d : Dst) (mask : DWord) : Statement (.cpy h sb d mask) := fun hw _ =>
  decode_of_parse _ h 0xC0 (F6.pack ⟨sb, d.enc, 0, 0, 0, 0⟩) (some mask) rfl (by decide) (by simp [hasExt]) (by simp [parse, decEngine, Except.map, bind, Except.bind, pure, Except.pure, -BitVec.getLsbD_eq_getElem]) (legal_of hw)

theorem cpyt (x : EngOp) : Statement (.cpyt x) := fun hw _ =>
  decode_of_parse _ x.h 0xC1 (x.body 0) x.disp rfl (by decide) (hasExt_eng x _ _ (by decide)) (by simp [parse, decEngine, decEng, EngOp.body, Except.map, bind, Except.bind, pure, Except.pure, -BitVec.getLsbD_eq_getElem]) (legal_of hw)

theorem cpyc (x : EngOp) : Statement (.cpyc x) := fun hw _ =>
  decode_of_parse _ x.h 0xC2 (x.body 0) x.disp rfl (by decide) (hasExt_eng x _ _ (by decide)) (by simp [parse, decEngine, decEng, EngOp.body, Except.map, bind, Except.bind, pure, Except.pure, -BitVec.getLsbD_eq_getElem]) (legal_of hw)

theorem csum (x : EngOp) : Statement (.csum x) := fun hw _ =>
  decode_of_parse _ x.h 0xC3 (x.body 0) x.disp rfl (by decide) (hasExt_eng x _ _ (by decide)) (by simp [parse, decEngine, decEng, EngOp.body, Except.map, bind, Except.bind, pure, Except.pure, -BitVec.getLsbD_eq_getElem]) (legal_of hw)

theorem decq (x : EngOp) : Statement (.decq x) := fun hw _ =>
  decode_of_parse _ x.h 0xC4 (x.body 0) x.disp rfl (by decide) (hasExt_eng x _ _ (by decide)) (by simp [parse, decEngine, decEng, EngOp.body, Except.map, bind, Except.bind, pure, Except.pure, -BitVec.getLsbD_eq_getElem]) (legal_of hw)

theorem stq (x : EngOp) : Statement (.stq x) := fun hw _ =>
  decode_of_parse _ x.h 0xC5 (x.body 0) x.disp rfl (by decide) (hasExt_eng x _ _ (by decide)) (by simp [parse, decEngine, decEng, EngOp.body, Except.map, bind, Except.bind, pure, Except.pure, -BitVec.getLsbD_eq_getElem]) (legal_of hw)

theorem netq (x : EngOp) : Statement (.netq x) := fun hw _ =>
  decode_of_parse _ x.h 0xC6 (x.body 0) x.disp rfl (by decide) (hasExt_eng x _ _ (by decide)) (by simp [parse, decEngine, decEng, EngOp.body, Except.map, bind, Except.bind, pure, Except.pure, -BitVec.getLsbD_eq_getElem]) (legal_of hw)

theorem topk (x : EngOp) : Statement (.topk x) := fun hw _ =>
  decode_of_parse _ x.h 0xC7 (x.body 0) x.disp rfl (by decide) (hasExt_eng x _ _ (by decide)) (by simp [parse, decEngine, decEng, EngOp.body, Except.map, bind, Except.bind, pure, Except.pure, -BitVec.getLsbD_eq_getElem]) (legal_of hw)

theorem rmv (x : EngOp) : Statement (.rmv x) := fun hw _ =>
  decode_of_parse _ x.h 0xC8 (x.body 0) x.disp rfl (by decide) (hasExt_eng x _ _ (by decide)) (by simp [parse, decEngine, decEng, EngOp.body, Except.map, bind, Except.bind, pure, Except.pure, -BitVec.getLsbD_eq_getElem]) (legal_of hw)

theorem qstat (h : Hdr) (d : Dst) (q : Queue) : Statement (.qstat h d q) := fun hw _ =>
  decode_of_parse _ h 0xC9 (F6.pack ⟨0, d.enc, 0, 0, 0#11 ++ q.enc, 0⟩) none rfl (by decide) (hasExt_plain _ _ _ rfl (by decide)) (by simp [parse, decEngine, Except.map, bind, Except.bind, pure, Except.pure, -BitVec.getLsbD_eq_getElem]) (legal_of hw)

theorem launch (x : EngOp) (q : BitVec 10) : Statement (.launch x q) := fun hw _ =>
  decode_of_parse _ x.h 0xCA (x.body (0#4 ++ q)) x.disp rfl (by decide) (hasExt_eng x _ _ (by decide)) (by simp [parse, decEngine, decEng, EngOp.body, Except.map, bind, Except.bind, pure, Except.pure, -BitVec.getLsbD_eq_getElem]) (legal_of hw)

theorem mbxw (h : Hdr) (m : BitVec 5) (a : Src) : Statement (.mbxw h m a) := fun hw _ =>
  decode_of_parse _ h 0xD0 (F1.pack ⟨0, a.enc, 0, 0#19 ++ m⟩) none rfl (by decide) (by simp [hasExt]) (by simp [parse, decEngine, Except.map, bind, Except.bind, pure, Except.pure, -BitVec.getLsbD_eq_getElem]) (legal_of hw)

theorem mbxr (h : Hdr) (m : BitVec 5) (d : Dst) : Statement (.mbxr h m d) := fun hw _ =>
  decode_of_parse _ h 0xD1 (F1.pack ⟨d.enc, 0, 0, 0#19 ++ m⟩) none rfl (by decide) (by simp [hasExt]) (by simp [parse, decEngine, Except.map, bind, Except.bind, pure, Except.pure, -BitVec.getLsbD_eq_getElem]) (legal_of hw)

theorem mbxp (h : Hdr) (m : BitVec 5) (d : Dst) (full : PSel) : Statement (.mbxp h m d full) := fun hw _ =>
  decode_of_parse _ h 0xD2 (F1.pack ⟨d.enc, 0, 0, 0#9 ++ full.enc ++ m⟩) none rfl (by decide) (by simp [hasExt]) (by simp [parse, decEngine, Except.map, bind, Except.bind, pure, Except.pure, -BitVec.getLsbD_eq_getElem]) (legal_of hw)

theorem rres (x : RingOp) : Statement (.rres x) := fun hw _ =>
  decode_of_parse _ x.h 0xD3 (x.body) none rfl (by decide) (hasExt_plain _ _ _ rfl (by decide)) (by simp [parse, decEngine, decRing, RingOp.body, Except.map, bind, Except.bind, pure, Except.pure, -BitVec.getLsbD_eq_getElem]) (legal_of hw)

theorem rpub (x : RingOp) : Statement (.rpub x) := fun hw _ =>
  decode_of_parse _ x.h 0xD4 (x.body) none rfl (by decide) (hasExt_plain _ _ _ rfl (by decide)) (by simp [parse, decEngine, decRing, RingOp.body, Except.map, bind, Except.bind, pure, Except.pure, -BitVec.getLsbD_eq_getElem]) (legal_of hw)

theorem rtake (x : RingOp) : Statement (.rtake x) := fun hw _ =>
  decode_of_parse _ x.h 0xD5 (x.body) none rfl (by decide) (hasExt_plain _ _ _ rfl (by decide)) (by simp [parse, decEngine, decRing, RingOp.body, Except.map, bind, Except.bind, pure, Except.pure, -BitVec.getLsbD_eq_getElem]) (legal_of hw)

theorem rrel (x : RingOp) : Statement (.rrel x) := fun hw _ =>
  decode_of_parse _ x.h 0xD6 (x.body) none rfl (by decide) (hasExt_plain _ _ _ rfl (by decide)) (by simp [parse, decEngine, decRing, RingOp.body, Except.map, bind, Except.bind, pure, Except.pure, -BitVec.getLsbD_eq_getElem]) (legal_of hw)

theorem rinvIndex (h : Hdr) (a : Src) : Statement (.rinvIndex h a) := fun hw _ =>
  decode_of_parse _ h 0xE0 (F7.pack ⟨0, a.enc, 0, 0, 0⟩) none rfl (by decide) (by simp [hasExt]) (by simp [parse, decSystem, Except.map, bind, Except.bind, pure, Except.pure, -BitVec.getLsbD_eq_getElem]) (legal_of hw)

theorem rinvAll (h : Hdr) : Statement (.rinvAll h) := fun hw _ =>
  decode_of_parse _ h 0xE0 (F7.pack ⟨0, 0, 0, 1, 0⟩) none rfl (by decide) (by simp [hasExt]) (by simp [parse, decSystem, Except.map, bind, Except.bind, pure, Except.pure, -BitVec.getLsbD_eq_getElem]) (legal_of hw)

theorem rinvLevel (h : Hdr) (a : Src) : Statement (.rinvLevel h a) := fun hw _ =>
  decode_of_parse _ h 0xE0 (F7.pack ⟨0, a.enc, 0, 2, 0⟩) none rfl (by decide) (by simp [hasExt]) (by simp [parse, decSystem, Except.map, bind, Except.bind, pure, Except.pure, -BitVec.getLsbD_eq_getElem]) (legal_of hw)

theorem trap (h : Hdr) (code : BitVec 12) : Statement (.trap h code) := fun hw _ =>
  decode_of_parse _ h 0xE1 (F7.pack ⟨0, 0, 0, 0, code⟩) none rfl (by decide) (by simp [hasExt]) (by simp [parse, decSystem, Except.map, bind, Except.bind, pure, Except.pure, -BitVec.getLsbD_eq_getElem]) (legal_of hw)

theorem brk (h : Hdr) (code : BitVec 12) : Statement (.brk h code) := fun hw _ =>
  decode_of_parse _ h 0xE2 (F7.pack ⟨0, 0, 0, 0, code⟩) none rfl (by decide) (by simp [hasExt]) (by simp [parse, decSystem, Except.map, bind, Except.bind, pure, Except.pure, -BitVec.getLsbD_eq_getElem]) (legal_of hw)

theorem tlbiPage (h : Hdr) (va ctx : Src) : Statement (.tlbiPage h va ctx) := fun hw _ =>
  decode_of_parse _ h 0xE3 (F7.pack ⟨0, va.enc, ctx.enc, 0, 0⟩) none rfl (by decide) (by simp [hasExt]) (by simp [parse, decSystem, Except.map, bind, Except.bind, pure, Except.pure, -BitVec.getLsbD_eq_getElem]) (legal_of hw)

theorem tlbiCtx (h : Hdr) (ctx : Src) : Statement (.tlbiCtx h ctx) := fun hw _ =>
  decode_of_parse _ h 0xE3 (F7.pack ⟨0, 0, ctx.enc, 1, 0⟩) none rfl (by decide) (by simp [hasExt]) (by simp [parse, decSystem, Except.map, bind, Except.bind, pure, Except.pure, -BitVec.getLsbD_eq_getElem]) (legal_of hw)

theorem tlbiPart (h : Hdr) : Statement (.tlbiPart h) := fun hw _ =>
  decode_of_parse _ h 0xE3 (F7.pack ⟨0, 0, 0, 2, 0⟩) none rfl (by decide) (by simp [hasExt]) (by simp [parse, decSystem, Except.map, bind, Except.bind, pure, Except.pure, -BitVec.getLsbD_eq_getElem]) (legal_of hw)

theorem ssetRngstate (h : Hdr) (a : Src) : Statement (.ssetRngstate h a) := fun hw _ =>
  decode_of_parse _ h 0xE4 (F7.pack ⟨0, a.enc, 0, 0, 0x013⟩) none rfl (by decide) (by simp [hasExt]) (by simp [parse, decSystem, Except.map, bind, Except.bind, pure, Except.pure, -BitVec.getLsbD_eq_getElem]) (legal_of hw)

theorem ssetTrapvec (h : Hdr) (a : Src) : Statement (.ssetTrapvec h a) := fun hw _ =>
  decode_of_parse _ h 0xE4 (F7.pack ⟨0, a.enc, 0, 0, 0x030⟩) none rfl (by decide) (by simp [hasExt]) (by simp [parse, decSystem, Except.map, bind, Except.bind, pure, Except.pure, -BitVec.getLsbD_eq_getElem]) (legal_of hw)

theorem waitt (h : Hdr) (d : Dst) (a : Src) : Statement (.waitt h d a) := fun hw _ =>
  decode_of_parse _ h 0xE5 (F7.pack ⟨d.enc, a.enc, 0, 0, 0⟩) none rfl (by decide) (by simp [hasExt]) (by simp [parse, decSystem, Except.map, bind, Except.bind, pure, Except.pure, -BitVec.getLsbD_eq_getElem]) (legal_of hw)

theorem binTimerExpiry (core bin : Nat) : Statement (.binTimerExpiry core bin) := fun _ h => by cases h

theorem binLaunchDeferred (core bin : Nat) : Statement (.binLaunchDeferred core bin) := fun _ h => by cases h

theorem spawnResume (gid : Nat) : Statement (.spawnResume gid) := fun _ h => by cases h

theorem regroupMigrate (host donor : Nat) : Statement (.regroupMigrate host donor) := fun _ h => by cases h

theorem regroupTimeout (gid : Nat) : Statement (.regroupTimeout gid) := fun _ h => by cases h

theorem stallExchange (gid : Nat) : Statement (.stallExchange gid) := fun _ h => by cases h

theorem emptySlotFill (core slice : Nat) : Statement (.emptySlotFill core slice) := fun _ h => by cases h

theorem pendingAgeExpiry (gid : Nat) : Statement (.pendingAgeExpiry gid) := fun _ h => by cases h

theorem teamPlace (grid core : Nat) : Statement (.teamPlace grid core) := fun _ h => by cases h

theorem teamEnd (tid : Nat) : Statement (.teamEnd tid) := fun _ h => by cases h

theorem gridEnd (grid : Nat) : Statement (.gridEnd grid) := fun _ h => by cases h

theorem splitDrain (core grid : Nat) : Statement (.splitDrain core grid) := fun _ h => by cases h

theorem splitReconfigure (core : Nat) : Statement (.splitReconfigure core) := fun _ h => by cases h

theorem mailboxWake (tid m : Nat) : Statement (.mailboxWake tid m) := fun _ h => by cases h

theorem loadDataReturn (gid : Nat) : Statement (.loadDataReturn gid) := fun _ h => by cases h

theorem pageWalk (core part ctx : Nat) (va : DWord) (write fetch : Bool) : Statement (.pageWalk core part ctx va write fetch) := fun _ h => by cases h

theorem homeWrite (x : Sender) (sector : Nat) (mask : BitVec 64) (data : BitVec 512) :
    Statement (.homeWrite x sector mask data) := fun _ h => by cases h

theorem forcedPublish (core : Nat) : Statement (.forcedPublish core) := fun _ h => by cases h

theorem rdcSweep (crown : Nat) : Statement (.rdcSweep crown) := fun _ h => by cases h

theorem scrubDram (crown corrected : Nat) : Statement (.scrubDram crown corrected) := fun _ h => by cases h

theorem scrubSram (crown corrected : Nat) : Statement (.scrubSram crown corrected) := fun _ h => by cases h

theorem uncorrectableError (loc : ErrAt) : Statement (.uncorrectableError loc) := fun _ h => by cases h

theorem mwaitRetest (gid : Nat) : Statement (.mwaitRetest gid) := fun _ h => by cases h

theorem mwaitOverflowExpiry (gid : Nat) : Statement (.mwaitOverflowExpiry gid) := fun _ h => by cases h

theorem bbarEntryFree (gid : Nat) : Statement (.bbarEntryFree gid) := fun _ h => by cases h

theorem captureEntryFree (gid : Nat) : Statement (.captureEntryFree gid) := fun _ h => by cases h

theorem codebookTableArrival (core grid index block : Nat) (stalled : Nat) : Statement (.codebookTableArrival core grid index block stalled) := fun _ h => by cases h

theorem tldPerform (core : Nat) : Statement (.tldPerform core) := fun _ h => by cases h

theorem tstPerform (core : Nat) : Statement (.tstPerform core) := fun _ h => by cases h

theorem tasmPerform (core : Nat) : Statement (.tasmPerform core) := fun _ h => by cases h

theorem mmaExecute (core : Nat) : Statement (.mmaExecute core) := fun _ h => by cases h

theorem acvtPerform (core : Nat) : Statement (.acvtPerform core) := fun _ h => by cases h

theorem matrixEntryRetire (core : Nat) : Statement (.matrixEntryRetire core) := fun _ h => by cases h

theorem mwaitbWake (gid : Nat) : Statement (.mwaitbWake gid) := fun _ h => by cases h

theorem cpyPerform (core : Nat) : Statement (.cpyPerform core) := fun _ h => by cases h

theorem cpytPerform (core : Nat) : Statement (.cpytPerform core) := fun _ h => by cases h

theorem cpycPerform (core : Nat) : Statement (.cpycPerform core) := fun _ h => by cases h

theorem csumPerform (core : Nat) : Statement (.csumPerform core) := fun _ h => by cases h

theorem decqPerform (core : Nat) : Statement (.decqPerform core) := fun _ h => by cases h

theorem stqSubmit (core : Nat) : Statement (.stqSubmit core) := fun _ h => by cases h

theorem nvmeCompletion (entry : Nat) (sct : BitVec 3) (sc : BitVec 8) : Statement (.nvmeCompletion entry sct sc) := fun _ h => by cases h

theorem netqPerform (core : Nat) : Statement (.netqPerform core) := fun _ h => by cases h

theorem netqAck (entry : Nat) (nak : Bool) (data : List Byte) : Statement (.netqAck entry nak data) := fun _ h => by cases h

theorem rdmaAckTimeout (entry : Nat) : Statement (.rdmaAckTimeout entry) := fun _ h => by cases h

theorem topkPerform (core : Nat) : Statement (.topkPerform core) := fun _ h => by cases h

theorem rmvPerform (core : Nat) : Statement (.rmvPerform core) := fun _ h => by cases h

theorem ringEntryPerform (core : Nat) : Statement (.ringEntryPerform core) := fun _ h => by cases h

theorem engineEntryPark (core : Nat) (q : Queue) : Statement (.engineEntryPark core q) := fun _ h => by cases h

theorem launchQueueTailWrite (q : Nat) : Statement (.launchQueueTailWrite q) := fun _ h => by cases h

theorem blockEligible (grid : Nat) : Statement (.blockEligible grid) := fun _ h => by cases h

theorem priorityAging (grid : Nat) : Statement (.priorityAging grid) := fun _ h => by cases h

theorem budgetOverrun (tid : Nat) : Statement (.budgetOverrun tid) := fun _ h => by cases h

theorem faultRecordWrite (part : Nat) : Statement (.faultRecordWrite part) := fun _ h => by cases h

theorem faultAction (part : Nat) (rec : Nat) : Statement (.faultAction part rec) := fun _ h => by cases h

theorem preemptRequest (tid : Nat) : Statement (.preemptRequest tid) := fun _ h => by cases h

theorem hardPreempt (gid : Nat) : Statement (.hardPreempt gid) := fun _ h => by cases h

theorem teamSave (tid : Nat) : Statement (.teamSave tid) := fun _ h => by cases h

theorem teamResume (tid core : Nat) : Statement (.teamResume tid core) := fun _ h => by cases h

theorem agentTimeout (x : Unanswered) : Statement (.agentTimeout x) := fun _ h => by cases h

theorem staleMessageDrop (a : AgentId) (incarnation : BitVec 8) (addr : Nat) : Statement (.staleMessageDrop a incarnation addr) := fun _ h => by cases h

theorem deviceFatal (unit : BitVec 32) : Statement (.deviceFatal unit) := fun _ h => by cases h

theorem waittDeadlineReached (gid : Nat) : Statement (.waittDeadlineReached gid) := fun _ h => by cases h

theorem seedImageWrite : Statement .seedImageWrite := fun _ h => by cases h

theorem frameReceive : Statement .frameReceive := fun _ h => by cases h

theorem rdmaWriteInbound : Statement .rdmaWriteInbound := fun _ h => by cases h

theorem rdmaReadInbound : Statement .rdmaReadInbound := fun _ h => by cases h

theorem rdmaAtomicInbound : Statement .rdmaAtomicInbound := fun _ h => by cases h

theorem rdmaSendInbound : Statement .rdmaSendInbound := fun _ h => by cases h

theorem rdmaSignalInbound : Statement .rdmaSignalInbound := fun _ h => by cases h

theorem rdmaUnsupportedInbound : Statement .rdmaUnsupportedInbound := fun _ h => by cases h

theorem targetBufAccess : Statement .targetBufAccess := fun _ h => by cases h

theorem nvmeConnectionLost : Statement .nvmeConnectionLost := fun _ h => by cases h

theorem readUnitMap : Statement .readUnitMap := fun _ h => by cases h

theorem writePartitionRecord : Statement .writePartitionRecord := fun _ h => by cases h

theorem bindVf : Statement .bindVf := fun _ h => by cases h

theorem writeLaunchQueueRecord : Statement .writeLaunchQueueRecord := fun _ h => by cases h

theorem writeRegistrationEntry : Statement .writeRegistrationEntry := fun _ h => by cases h

theorem writeBinding : Statement .writeBinding := fun _ h => by cases h

theorem loadKey : Statement .loadKey := fun _ h => by cases h

theorem seedMake : Statement .seedMake := fun _ h => by cases h

theorem seedRestore : Statement .seedRestore := fun _ h => by cases h

theorem counterStatement : Statement .counterStatement := fun _ h => by cases h

theorem readDump : Statement .readDump := fun _ h => by cases h

theorem setPowerCap : Statement .setPowerCap := fun _ h => by cases h

theorem resetAndReadmitUnit : Statement .resetAndReadmitUnit := fun _ h => by cases h

theorem reserveTimedCapacity : Statement .reserveTimedCapacity := fun _ h => by cases h

theorem mgmtUnknownCode : Statement .mgmtUnknownCode := fun _ h => by cases h

theorem resetRelease : Statement .resetRelease := fun _ h => by cases h

theorem resetAssert : Statement .resetAssert := fun _ h => by cases h

theorem powerLoss : Statement .powerLoss := fun _ h => by cases h

theorem thermalWarning : Statement .thermalWarning := fun _ h => by cases h

theorem thermtrip : Statement .thermtrip := fun _ h => by cases h

theorem unassignedOpcode (w : DWord) : Statement (.unassignedOpcode w) := fun _ h => by cases h

end Sys2Proof.Laws.Roundtrip
end

