-- ==== Sys2Proof/Tests/Slice0.lean ====
section
/-! SUPPORT. The model's own tests: ill-formed terms that WellFormed refuses; words written out from the encoding tables and
what they decode to; results the manual works out; and, for every statement in Certificates/Slice0/Obligations.lean, states and
operands that meet its hypotheses, each clause at a value of its range. The expected results come from the manual's worked
examples and tables, or from a calculation by hand with its rules. -/

namespace Sys2Proof.Tests

open Sys2Proof Sys2Proof.Machine

set_option maxRecDepth 100000
set_option exponentiation.threshold 4096
set_option Elab.async false

/-! ### Ill-formed terms: each check refuses -/

abbrev plain : Hdr := ⟨.portable, false, none, false, false, 7⟩
abbrev plainU : Hdr := ⟨.portable, false, none, true, false, 7⟩

theorem test_ill_uniform :
    (Instr.bra plainU false 0).illegal = some .uniform ∧ (Instr.bru plain 0).illegal = some .uniform ∧
    (Instr.voteMask plainU true (.hi 0) ⟨false, false, 0⟩).illegal = some .uniform ∧
    (Instr.clean ⟨plain, 0, .dev, 0⟩).illegal = some .uniform := by decide

theorem test_ill_guard :
    (Instr.cvg ⟨.portable, false, none, false, false, 3⟩).illegal = some .guard ∧
    (Instr.mma ⟨⟨.portable, false, none, false, true, 7⟩, 0, 0, 0, 0, .v 0, false⟩).illegal = some .guard ∧
    (Instr.bru ⟨.portable, false, none, true, false, 4⟩ 0).illegal = some .guard := by decide

theorem test_ill_operand :
    (Instr.iadd ⟨plainU, .v 0, .s 0, .s 1, .i32, 0⟩).illegal = some .operand ∧
    (Instr.iadd ⟨plainU, .hi 128, .s 0, .s 1, .i32, 0⟩).illegal = some .operand ∧
    (Instr.mwait ⟨plainU, 128, 0, .dev, .n32, .ne, 0⟩).illegal = some .operand := by decide

theorem test_ill_constant :
    (Instr.iadd ⟨plain, .v 0, .k 1, .v 1, .i32, 0⟩).illegal = some .constant ∧
    (Instr.brx plain (.k 0)).illegal = some .constant := by decide

theorem test_ill_odd_pair :
    (Instr.iadd ⟨plain, .v 1, .v 2, .v 4, .i64, 0⟩).illegal = some .oddPair ∧
    (Instr.iadd ⟨plain, .v 2, .v 3, .v 4, .i64, 0⟩).illegal = some .oddPair ∧
    (Instr.atom ⟨plain, 1, 0, .rlx, .dev, false, .add, .i64, 0⟩).illegal = some .oddPair ∧
    (Instr.mwait ⟨plain, 1, 0, .dev, .b64, .ne, 0⟩).illegal = some .oddPair := by decide

theorem test_ill_type :
    (Instr.iadd ⟨plain, .v 0, .v 1, .v 2, .f32, 0⟩).illegal = some .type ∧
    (Instr.fadd ⟨plain, .v 0, .v 1, .v 2, ⟨false, false, .fmt⟩, .i32⟩).illegal = some .type ∧
    (Instr.atom ⟨plain, 0, 0, .rlx, .dev, false, .exch, .f32, 0⟩).illegal = some .type ∧
    (Instr.acvt plain 0 0 2 .i8).illegal = some .type ∧
    (Instr.fcvti ⟨plain, .v 0, .v 1, ⟨false, false, .fmt⟩, .f32, .f32⟩).illegal = some .type := by decide

theorem test_ill_variant :
    (Instr.iadd ⟨plain, .v 0, .v 1, .v 2, .i32, 2⟩).illegal = some .variant ∧
    (Instr.idiv ⟨plain, .v 0, .v 1, .v 2, .n32, 1⟩).illegal = some .variant ∧
    (Instr.icmp ⟨plain, ⟨false, false, 0⟩, .v 1, .v 2, 2, .b32, 0⟩).illegal = some .variant ∧
    (Instr.spawn plain 0 5 0).illegal = some .variant ∧
    (Instr.red ⟨plain, 0, 0, .rlx, .dev, false, .exch, .b32, 0⟩).illegal = some .variant := by decide

theorem test_ill_selector :
    (Instr.elect plain ⟨true, false, 0⟩).illegal = some .selector ∧
    (Instr.elect plain ⟨false, true, 0⟩).illegal = some .selector ∧
    (Instr.voteMask plain false (.v 0) ⟨true, false, 4⟩).illegal = some .selector := by decide

theorem test_ill_order :
    (Instr.ldOwn ⟨plain, 0, 0, .rel, .dev, 0, 0⟩).illegal = some .order ∧
    (Instr.stOwn ⟨plain, 0, 0, .acq, .dev, 0, 0⟩).illegal = some .order ∧
    (Instr.fence plain .rlx .dev).illegal = some .order ∧
    (Instr.tbarr ⟨plainU, 0, 0, .rlx, .dev, 0⟩).illegal = some .order ∧
    (Instr.clean ⟨plainU, 0, .sys, 0⟩).illegal = some .order ∧
    (Instr.atom ⟨plain, 0, 0, .rlx, .dev, true, .add, .i32, 0⟩).illegal = some .order := by decide

theorem test_ill_register :
    (Instr.sreg plain (.v 0) 9).illegal = some .register ∧ (Instr.sreg plain (.v 0) 0x34).illegal = some .register := by
  decide

theorem test_ill_range :
    (Instr.aclr plain 8).illegal = some .range ∧ (Instr.pref plain 0 false 0 0).illegal = some .range ∧
    (Instr.cpref plain 0 9).illegal = some .range ∧ (Instr.qfence plain 0).illegal = some .range ∧
    (Instr.ard ⟨plain, 0, 0, false, 60, 4⟩).illegal = some .range := by decide

theorem test_ill_mask_word :
    (Instr.nop ⟨.portable, false, some 0x8000000000, false, false, 7⟩).illegal = some .maskWord ∧
    (Instr.regroup plain 0 0x8000000000).illegal = some .maskWord ∧
    (Instr.cpy plain 0 (.v 0) 1).illegal = some .maskWord := by decide

theorem test_ill_reserved :
    (Instr.ldi plain (.v 0) 0 0x100000000).illegal = some .reserved ∧
    (Instr.mma ⟨plain, 0, 0, 0, 1, .v 0, false⟩).illegal = some .reserved ∧
    (Instr.rres ⟨plain, .v 0, 1, 0, 0⟩).illegal = some .reserved := by decide

theorem test_ill_words :
    decodeWords [0x8380000000000000] = .error .version ∧ decodeWords [] = .error .truncated ∧
    decodeWords [0x03A080C001000000] = .error .truncated ∧ decodeWords [0x0380000000000001] = .error .reserved := by decide

/-! ### Words written out from the encoding tables, one for each constructor that has words -/

theorem test_words_control_1 :
    decodeWords [0x0000000000000000] = .ok (.nop ⟨.portable, false, none, false, false, 0⟩) ∧
    decodeWords [0x3500A00000FFFFFD, 0xB000700300000001] = .ok (.bra ⟨.portable, true, (some 0xB000700300000001), false, true, 2⟩ true 0xFFFFFD) ∧
    decodeWords [0x0881000000000005] = .ok (.bru ⟨.portable, false, none, true, false, 1⟩ 5) ∧
    decodeWords [0x0381801848000000] = .ok (.brx plain (.s 9)) ∧
    decodeWords [0x03820B0000FFFFFF] = .ok (.call plain 11 0xFFFFFF) ∧
    decodeWords [0x0382818030000000] = .ok (.callx plain 12 (.v 6)) ∧
    decodeWords [0x0383000320000000] = .ok (.ret plain 100) ∧
    decodeWords [0x0383D80000000007] = .ok (.dvg plain 5 true 7) ∧
    decodeWords [0x0384000000000000] = .ok (.cvg plain) ∧
    decodeWords [0x0184800000000000] = .ok (.exit ⟨.portable, false, none, false, false, 3⟩) ∧
    decodeWords [0x0385000000000000] = .ok (.yield plain) ∧
    decodeWords [0x0385884000000009] = .ok (.spawn plain 16 4 9) := by decide

theorem test_words_control_2 :
    decodeWords [0x0386000000000002, 0x0000000100000003] = .ok (.regroup plain 2 0x0000000100000003) ∧
    decodeWords [0x0386802050000001] = .ok (.vote plain .any ⟨false, false, 1⟩ ⟨false, true, 2⟩) ∧
    decodeWords [0x0386808098020003] = .ok (.voteMask plain true (.v 4) ⟨true, false, 3⟩) ∧
    decodeWords [0x038700C000000000] = .ok (.elect plain ⟨false, false, 6⟩) ∧
    decodeWords [0x0387804027FE00AE] = .ok (.shfl plain .ahead true .b64 (.v 2) (.v 4) (.k 0x7F)) ∧
    decodeWords [0x038800604000002C] = .ok (.matchL plain .b64 (.v 3) (.v 8)) ∧
    decodeWords [0x0B88824068300002] = .ok (.plop plainU .xor ⟨true, false, 2⟩ ⟨false, true, 5⟩ ⟨true, true, 0⟩) ∧
    decodeWords [0x0389000000123456] = .ok (.setfmtImm plain 0x123456) ∧
    decodeWords [0x0389001829000000] = .ok (.setfmtReg plain (.s 5)) ∧
    decodeWords [0x0B89E22000000000] = .ok (.getfmt plainU (.hi 17)) ∧
    decodeWords [0x038A00C000000015] = .ok (.sreg plain (.v 6) 0x15) := by decide

theorem test_words_integer_1 :
    decodeWords [0x4510002017FE0009] = .ok (.iadd ⟨⟨.fixed, false, none, false, true, 2⟩, .v 1, .v 2, .k 0x7F, .i32, 1⟩) ∧
    decodeWords [0x0390A07009FFDF94] = .ok (.iadd3 ⟨plain, .o 3, .l 1, .v 255, .k 0x3F, .n16, 0⟩) ∧
    decodeWords [0x03910040260C000C] = .ok (.isub ⟨plain, .v 2, .v 4, .s 6, .i64, 0⟩) ∧
    decodeWords [0x0391C00038000000] = .ok (.ineg ⟨plain, .l, .v 7, .i8, 0⟩) ∧
    decodeWords [0x03920140A0000005] = .ok (.iabs ⟨plain, .v 10, .v 20, .i16, 1⟩) ∧
    decodeWords [0x03928140A6060011] = .ok (.imul ⟨plain, .v 10, .v 20, .s 3, .n8, 1⟩) ∧
    decodeWords [0x03930140A606001C] = .ok (.imulh ⟨plain, .v 10, .v 20, .s 3, .n64, 0⟩) ∧
    decodeWords [0x03938140A6060F09] = .ok (.imad ⟨plain, .v 10, .v 20, .s 3, .v 30, .i32, 1⟩) ∧
    decodeWords [0x03940140A6060009] = .ok (.idiv ⟨plain, .v 10, .v 20, .s 3, .i32, 1⟩) ∧
    decodeWords [0x03948140A6060018] = .ok (.irem ⟨plain, .v 10, .v 20, .s 3, .n32, 0⟩) ∧
    decodeWords [0x03950140A6060000] = .ok (.imin ⟨plain, .v 10, .v 20, .s 3, .i8, 0⟩) ∧
    decodeWords [0x03958140A6060014] = .ok (.imax ⟨plain, .v 10, .v 20, .s 3, .n16, 0⟩) ∧
    decodeWords [0x0B9602782700028A] = .ok (.icmp ⟨plainU, ⟨true, false, 3⟩, .s 4, .k 0x0, 5, .i32, 2⟩) ∧
    decodeWords [0x03968140A6060628] = .ok (.isel plain (.v 10) (.v 20) (.s 3) ⟨false, true, 4⟩ .b32) ∧
    decodeWords [0x03970140A6060028] = .ok (.and ⟨plain, .v 10, .v 20, .s 3, .b32, 0⟩) ∧
    decodeWords [0x03978140A606002C] = .ok (.or ⟨plain, .v 10, .v 20, .s 3, .b64, 0⟩) ∧
    decodeWords [0x03980140A6060028] = .ok (.xor ⟨plain, .v 10, .v 20, .s 3, .b32, 0⟩) ∧
    decodeWords [0x03988140A000002C] = .ok (.not ⟨plain, .v 10, .v 20, .b64, 0⟩) := by decide

theorem test_words_integer_2 :
    decodeWords [0x039960A0A70A0028] = .ok (.andn ⟨plain, .hi 5, .v 20, .k 0x5, .b32, 0⟩) ∧
    decodeWords [0x03998140A006002C] = .ok (.shl ⟨plain, .v 10, .v 20, .v 3, .b64, 0⟩) ∧
    decodeWords [0x039A0140A6060028] = .ok (.shr ⟨plain, .v 10, .v 20, .s 3, .b32, 0⟩) ∧
    decodeWords [0x039A8140A606000C] = .ok (.sar ⟨plain, .v 10, .v 20, .s 3, .i64, 0⟩) ∧
    decodeWords [0x039B0140A70E0028] = .ok (.rol ⟨plain, .v 10, .v 20, .k 0x7, .b32, 0⟩) ∧
    decodeWords [0x039B8140A0000028] = .ok (.popc ⟨plain, .v 10, .v 20, .b32, 0⟩) ∧
    decodeWords [0x039C0140A000002C] = .ok (.clz ⟨plain, .v 10, .v 20, .b64, 0⟩) ∧
    decodeWords [0x039C8140A0000028] = .ok (.ctz ⟨plain, .v 10, .v 20, .b32, 0⟩) ∧
    decodeWords [0x039D0140A000002C] = .ok (.brev ⟨plain, .v 10, .v 20, .b64, 0⟩) ∧
    decodeWords [0x039D8140A6060018] = .ok (.bfx ⟨plain, .v 10, .v 20, .s 3, .n32, 0⟩) ∧
    decodeWords [0x039E0140A61010AC] = .ok (.bfi ⟨plain, .v 10, .v 20, .s 8, .v 33, .b64, 0⟩) ∧
    decodeWords [0x039E8140A6060F28] = .ok (.perm ⟨plain, .v 10, .v 20, .s 3, .v 30, .b32, 0⟩) ∧
    decodeWords [0x039F01994007C208] = .ok (.lea ⟨plain, .v 12, .s 40, .v 3, .k 0x4, .i32, 0⟩) ∧
    decodeWords [0x039FA0407000002C] = .ok (.mov ⟨plain, .o 2, .v 14, .b64, 0⟩) ∧
    decodeWords [0x0BA0628003FFFFFF] = .ok (.movi plainU (.hi 20) 3 0xFFFFFF) ∧
    decodeWords [0x03A080C001000000, 0x0123456789ABCDEF] = .ok (.ldi plain (.v 6) 1 0x0123456789ABCDEF) ∧
    decodeWords [0x03A100804800020D] = .ok (.cvti plain (.v 4) (.v 9) .i64 .n8 1) := by decide

theorem test_words_floating_1 :
    decodeWords [0x03A80140A60609B0] = .ok (.fadd ⟨plain, .v 10, .v 20, .s 3, ⟨false, true, .rup⟩, .f32⟩) ∧
    decodeWords [0x03A88140A60609B4] = .ok (.fsub ⟨plain, .v 10, .v 20, .s 3, ⟨false, true, .rup⟩, .f16⟩) ∧
    decodeWords [0x03A90140A6060038] = .ok (.fmul ⟨plain, .v 10, .v 20, .s 3, ⟨false, false, .fmt⟩, .bf16⟩) ∧
    decodeWords [0x452980880C0181B0] = .ok (.fma ⟨⟨.fixed, false, none, false, true, 2⟩, .v 4, .o 1, .l 0, .s 3, .f32, 0⟩) ∧
    decodeWords [0x03AA0140A6060030] = .ok (.fmin ⟨plain, .v 10, .v 20, .s 3, .f32, 0⟩) ∧
    decodeWords [0x03AA8140A6060034] = .ok (.fmax ⟨plain, .v 10, .v 20, .s 3, .f16, 0⟩) ∧
    decodeWords [0x03AB0040200A03B9] = .ok (.fcmp ⟨plain, ⟨false, false, 2⟩, .v 4, .v 5, 7, .bf16, 1⟩) ∧
    decodeWords [0x03AB8140A0000030] = .ok (.fneg ⟨plain, .v 10, .v 20, .f32, 0⟩) ∧
    decodeWords [0x03AC0140A0000034] = .ok (.fabs ⟨plain, .v 10, .v 20, .f16, 0⟩) ∧
    decodeWords [0x03AC8140A0440030] = .ok (.frcp ⟨plain, .v 10, .v 20, ⟨true, false, .rz⟩, .f32⟩) ∧
    decodeWords [0x03AD0140A0440034] = .ok (.frsq ⟨plain, .v 10, .v 20, ⟨true, false, .rz⟩, .f16⟩) ∧
    decodeWords [0x03AD8140A0440038] = .ok (.fsqrt ⟨plain, .v 10, .v 20, ⟨true, false, .rz⟩, .bf16⟩) ∧
    decodeWords [0x03AE0140A60609B0] = .ok (.fdiv ⟨plain, .v 10, .v 20, .s 3, ⟨false, true, .rup⟩, .f32⟩) ∧
    decodeWords [0x03AE8140A0440030] = .ok (.fex2 ⟨plain, .v 10, .v 20, ⟨true, false, .rz⟩, .f32⟩) := by decide

theorem test_words_floating_2 :
    decodeWords [0x03AF0140A0440034] = .ok (.flg2 ⟨plain, .v 10, .v 20, ⟨true, false, .rz⟩, .f16⟩) ∧
    decodeWords [0x03AF8140A0440030] = .ok (.fsin ⟨plain, .v 10, .v 20, ⟨true, false, .rz⟩, .f32⟩) ∧
    decodeWords [0x03B00140A0440034] = .ok (.fcos ⟨plain, .v 10, .v 20, ⟨true, false, .rz⟩, .f16⟩) ∧
    decodeWords [0x03B08140A0440038] = .ok (.ftanh ⟨plain, .v 10, .v 20, ⟨true, false, .rz⟩, .bf16⟩) ∧
    decodeWords [0x03B10140A0000050] = .ok (.fcls ⟨plain, .v 10, .v 20, .e8, 0⟩) ∧
    decodeWords [0x03B18140A60609B0] = .ok (.fscl ⟨plain, .v 10, .v 20, .s 3, ⟨false, true, .rup⟩, .f32⟩) ∧
    decodeWords [0x03B20140A0440034] = .ok (.frnd ⟨plain, .v 10, .v 20, ⟨true, false, .rz⟩, .f16⟩) ∧
    decodeWords [0x03B28140A068064C] = .ok (.fcvt ⟨plain, .v 10, .v 20, ⟨true, true, .rdn⟩, .e2m1, .f32⟩) ∧
    decodeWords [0x03B30140A068081C] = .ok (.fcvti ⟨plain, .v 10, .v 20, ⟨true, true, .rdn⟩, .n64, .t6⟩) ∧
    decodeWords [0x03B38140A06801B0] = .ok (.icvtf ⟨plain, .v 10, .v 20, ⟨true, true, .rdn⟩, .f32, .i64⟩) ∧
    decodeWords [0x03B40140A60609B4] = .ok (.hadd2 ⟨plain, .v 10, .v 20, .s 3, ⟨false, true, .rup⟩, .f16⟩) ∧
    decodeWords [0x03B48140A60609B8] = .ok (.hmul2 ⟨plain, .v 10, .v 20, .s 3, ⟨false, true, .rup⟩, .bf16⟩) ∧
    decodeWords [0x03B50140A6060F37] = .ok (.hfma2 ⟨plain, .v 10, .v 20, .s 3, .v 30, .f16, 3⟩) ∧
    decodeWords [0x03B58140A6060F46] = .ok (.dot4 ⟨plain, .v 10, .v 20, .s 3, .v 30, .e4m3, 2⟩) := by decide

theorem test_words_memory_1 :
    decodeWords [0x03B804868123FFF8] = .ok (.ldOwn ⟨plain, 9, 3, .acq, .dev, 0x123, 0xFFF8⟩) ∧
    decodeWords [0x03B884860123FFF8] = .ok (.ldWt ⟨plain, 9, 3, .rlx, .team, 0x123, 0xFFF8⟩) ∧
    decodeWords [0x03B904878123FFF8] = .ok (.ldSi ⟨plain, 9, 3, .sc, .sys, 0x123, 0xFFF8⟩) ∧
    decodeWords [0x03B984862123FFF8] = .ok (.ldUc ⟨plain, 9, 3, .rlx, .crown, 0x123, 0xFFF8⟩) ∧
    decodeWords [0x03BA0486B123FFF8] = .ok (.stOwn ⟨plain, 9, 3, .rel, .bough, 0x123, 0xFFF8⟩) ∧
    decodeWords [0x03BA84877123FFF8] = .ok (.stWt ⟨plain, 9, 3, .sc, .dev, 0x123, 0xFFF8⟩) ∧
    decodeWords [0x03BB04864123FFF8] = .ok (.stSi ⟨plain, 9, 3, .rlx, .sys, 0x123, 0xFFF8⟩) ∧
    decodeWords [0x03BB8486A123FFF8] = .ok (.stUc ⟨plain, 9, 3, .rel, .team, 0x123, 0xFFF8⟩) ∧
    decodeWords [0x0BBC08D070000010] = .ok (.lduOwn ⟨plainU, 17, 40, .acq, .crown, .n8, 16⟩) ∧
    decodeWords [0x0BBC88D070010010] = .ok (.lduWt ⟨plainU, 17, 40, .acq, .crown, .n16, 16⟩) ∧
    decodeWords [0x0BBD08D070030010] = .ok (.lduSi ⟨plainU, 17, 40, .acq, .crown, .b64, 16⟩) ∧
    decodeWords [0x0BBD88D070060010] = .ok (.lduUc ⟨plainU, 17, 40, .acq, .crown, .i32, 16⟩) := by decide

theorem test_words_memory_2 :
    decodeWords [0x03BE04860123FFF8] = .ok (.lds ⟨plain, 9, 3, .rlx, .team, 0x123, 0xFFF8⟩) ∧
    decodeWords [0x03BE84876123FFF8] = .ok (.sts ⟨plain, 9, 3, .sc, .crown, 0x123, 0xFFF8⟩) ∧
    decodeWords [0x03BF000A00140040] = .ok (.pref plain 5 true 4 64) ∧
    decodeWords [0x03BF800AE0000020] = .ok (.zsect plain 5 .rel .sys 32) ∧
    decodeWords [0x0BC00A3C30050008] = .ok (.wmap plainU 20 30 .dev true .si 8) ∧
    decodeWords [0x0BC0908E00000000] = .ok (.wunmap ⟨plainU, 33, 7⟩) ∧
    decodeWords [0x0BC1108E00000000] = .ok (.wflush ⟨plainU, 33, 7⟩) ∧
    decodeWords [0x0BC1908E00010000] = .ok (.winv ⟨plainU, 33, 7⟩ true) ∧
    decodeWords [0x0BC2108E00000000] = .ok (.wstat ⟨plainU, 33, 7⟩) ∧
    decodeWords [0x0BC2801820000010] = .ok (.clean ⟨plainU, 12, .crown, 0x10⟩) ∧
    decodeWords [0x0BC300180000FFF0] = .ok (.inval ⟨plainU, 12, .team, 0xFFF0⟩) := by decide

theorem test_words_sync :
    decodeWords [0x03C8090D31070018] = .ok (.atom ⟨plain, 18, 6, .ar, .sys, false, .dec, .n64, 24⟩) ∧
    decodeWords [0x03C8890D480B0018] = .ok (.atomcas ⟨plain, 18, 6, .sc, .team, true, .add, .b64, 24⟩) ∧
    decodeWords [0x03C9090CC00C0018] = .ok (.red ⟨plain, 18, 6, .rel, .crown, false, .add, .f32, 24⟩) ∧
    decodeWords [0x03C9800170000000] = .ok (.fence plain .sc .dev) ∧
    decodeWords [0x03CA00000000002A] = .ok (.qfence plain 0x2A) ∧
    decodeWords [0x03CA800000000009] = .ok (.barTeam plain 9) ∧
    decodeWords [0x03CA800001000004] = .ok (.barRole plain 4) ∧
    decodeWords [0x03CB00184000000F] = .ok (.bbar plain 15 (.s 8)) ∧
    decodeWords [0x03CB8B0A90130004] = .ok (.mwait ⟨plain, 22, 5, .sys, .seq, .ltu, 4⟩) ∧
    decodeWords [0x0BCC048620000008] = .ok (.tbinit ⟨plainU, 9, 3, .rlx, .crown, 8⟩) ∧
    decodeWords [0x0BCC8486C0000008] = .ok (.tbarr ⟨plainU, 9, 3, .rel, .crown, 8⟩) ∧
    decodeWords [0x0BCD048670000008] = .ok (.tbwait ⟨plainU, 9, 3, .acq, .crown, 8⟩) := by decide

theorem test_words_cursor_1 :
    decodeWords [0x03D0180011C11000] = .ok (.cinit ⟨plain, 3, .v 8, .k 2, 1⟩) ∧
    decodeWords [0x03D0180011C11400] = .ok (.cinitApp ⟨plain, 3, .v 8, .k 2, 1⟩) ∧
    decodeWords [0x03D0828000002000] = .ok (.cnext plain 5 2) ∧
    decodeWords [0x03D1028000048000] = .ok (.cseek plain 5 (.v 9) 0) ∧
    decodeWords [0x03D1A10000003000] = .ok (.cdesc ⟨plain, 4, 2, 3⟩) ∧
    decodeWords [0x03D1A10000003400] = .ok (.cdescApp ⟨plain, 4, 2, 3⟩) ∧
    decodeWords [0x03D2009000004000] = .ok (.cisec ⟨plain, 1, 2, false, 4⟩) ∧
    decodeWords [0x03D2077800006401] = .ok (.cunion ⟨plain, 14, 15, true, 6⟩) ∧
    decodeWords [0x03D2830010007000] = .ok (.ccrd ⟨plain, 6, .v 8⟩) ∧
    decodeWords [0x03D3030014007000] = .ok (.cpos ⟨plain, 6, .v 10⟩) := by decide

theorem test_words_cursor_2 :
    decodeWords [0x03D3830208007000] = .ok (.cval ⟨plain, 6, .o 4⟩) ∧
    decodeWords [0x03D4030001FDF000] = .ok (.cstv plain 6 (.k 0x7B)) ∧
    decodeWords [0x03D4838003817000] = .ok (.capp plain 7 (.v 1) (.s 2)) ∧
    decodeWords [0x03D5040000007000] = .ok (.cfin plain 8) ∧
    decodeWords [0x03D5848000005000] = .ok (.cdone plain 9 5) ∧
    decodeWords [0x03D6558000007000] = .ok (.cmov plain 10 11) ∧
    decodeWords [0x03D68606080073FF] = .ok (.csave plain 12 (.s 4) 0x3FF) ∧
    decodeWords [0x03D768000C007002] = .ok (.crest plain 13 (.v 6) 2) ∧
    decodeWords [0x03D7808000007008] = .ok (.cpref plain 1 8) := by decide

theorem test_words_matrix :
    decodeWords [0x03D8180615CA0100] = .ok (.tld ⟨plain, 3, .s 10, 0x100, .k 20, false⟩) ∧
    decodeWords [0x03D8820614001004] = .ok (.tst ⟨plain, 4, .s 10, 4, .v 0, true⟩) ∧
    decodeWords [0x03D9780000000000] = .ok (.tzero plain 15) ∧
    decodeWords [0x03D9AB0000039001] = .ok (.tasm plain 5 6 (.v 7) true true) ∧
    decodeWords [0x03DA122801838000] = .ok (.mma ⟨plain, 2, 4, 5, 0, .s 7, false⟩) ∧
    decodeWords [0x03DAB89000001009] = .ok (.mmas ⟨plain, 7, 1, 2, 9, .v 0, true⟩) ∧
    decodeWords [0x03DB300000000000] = .ok (.aclr plain 6) ∧
    decodeWords [0x03DB82809A0010D4] = .ok (.ard ⟨plain, 77, 5, true, 20, 3⟩) ∧
    decodeWords [0x03DC28009C0003F0] = .ok (.awr ⟨plain, 78, 5, false, 48, 15⟩) ∧
    decodeWords [0x03DCC98000000037] = .ok (.acvt plain 9 3 3 .f16) ∧
    decodeWords [0x03DD000016000000] = .ok (.mfence plain (.v 11)) ∧
    decodeWords [0x03DD800618000000] = .ok (.mwaitb plain (.s 12) false) := by decide

theorem test_words_engine :
    decodeWords [0x03E0050180000000, 0x0400000000000000] = .ok (.cpy plain 5 (.v 6) 0x0400000000000000) ∧
    decodeWords [0x0BE08AC040000000] = .ok (.cpyt ⟨plainU, 10, .hi 1, none⟩) ∧
    decodeWords [0x03E10B00A0000000, 0xFFFFFFFFFFFFFFC0] = .ok (.cpyc ⟨plain, 11, .v 2, some 0xFFFFFFFFFFFFFFC0⟩) ∧
    decodeWords [0x0BE18CC140000000] = .ok (.csum ⟨plainU, 12, .hi 5, none⟩) ∧
    decodeWords [0x03E20D01A0000000, 0xFFFFFFFFFFFFFFC0] = .ok (.decq ⟨plain, 13, .v 6, some 0xFFFFFFFFFFFFFFC0⟩) ∧
    decodeWords [0x0BE28EC240000000] = .ok (.stq ⟨plainU, 14, .hi 9, none⟩) ∧
    decodeWords [0x03E30F02A0000000, 0xFFFFFFFFFFFFFFC0] = .ok (.netq ⟨plain, 15, .v 10, some 0xFFFFFFFFFFFFFFC0⟩) ∧
    decodeWords [0x0BE390C340000000] = .ok (.topk ⟨plainU, 16, .hi 13, none⟩) ∧
    decodeWords [0x03E41103A0000000, 0xFFFFFFFFFFFFFFC0] = .ok (.rmv ⟨plain, 17, .v 14, some 0xFFFFFFFFFFFFFFC0⟩) ∧
    decodeWords [0x03E4800200004000] = .ok (.qstat plain (.v 8) .root) ∧
    decodeWords [0x13E51402203FF000, 0x0000000000000008, 0x0000000000000001] = .ok (.launch ⟨⟨.portable, false, (some 0x1), false, false, 7⟩, 20, .v 8, some 8⟩ 0x3FF) ∧
    decodeWords [0x03E800002000001F] = .ok (.mbxw plain 31 (.v 4)) ∧
    decodeWords [0x03E8A04000000007] = .ok (.mbxr plain 7 (.o 2)) ∧
    decodeWords [0x03E90080000000A3] = .ok (.mbxp plain 3 (.v 4) ⟨false, false, 5⟩) ∧
    decodeWords [0x03E98001803F9000] = .ok (.rres ⟨plain, .v 6, 0, 9, 63⟩) ∧
    decodeWords [0x03EA2801803F9000] = .ok (.rpub ⟨plain, .v 6, 40, 9, 63⟩) ∧
    decodeWords [0x03EA8001803F9000] = .ok (.rtake ⟨plain, .v 6, 0, 9, 63⟩) ∧
    decodeWords [0x03EB2801803F9000] = .ok (.rrel ⟨plain, .v 6, 40, 9, 63⟩) := by decide

theorem test_words_system :
    decodeWords [0x03F0001818000000] = .ok (.rinvIndex plain (.s 3)) ∧
    decodeWords [0x03F0000000001000] = .ok (.rinvAll plain) ∧
    decodeWords [0x0BF0001840002000] = .ok (.rinvLevel plainU (.s 8)) ∧
    decodeWords [0x00F0800000000ABC] = .ok (.trap ⟨.portable, false, none, false, false, 1⟩ 0xABC) ∧
    decodeWords [0x03F1000000000FFF] = .ok (.brk plain 0xFFF) ∧
    decodeWords [0x03F1800017060000] = .ok (.tlbiPage plain (.v 2) (.k 3)) ∧
    decodeWords [0x03F1800006061000] = .ok (.tlbiCtx plain (.s 3)) ∧
    decodeWords [0x03F1800000002000] = .ok (.tlbiPart plain) ∧
    decodeWords [0x03F2000018000013] = .ok (.ssetRngstate plain (.v 3)) ∧
    decodeWords [0x0BF2001820000030] = .ok (.ssetTrapvec plainU (.s 4)) ∧
    decodeWords [0x03F2804020000000] = .ok (.waitt plain (.v 2) (.v 4)) := by decide

theorem test_words_unassigned :
    decodeWords [0x038A800000000000] = .ok (.unassignedOpcode 0x038A800000000000) := by decide

/-! ### Words worked out in the manual -/

/-- Files 05, 06, 07, 08, 14 and 15: fma, bra, fcvt, setfmt, iadd with its safe point, cnext, mma. -/
theorem test_worked_words :
    decodeWords [0x452980880C0181B0] = .ok (.fma ⟨⟨.fixed, false, none, false, true, 2⟩, .v 4, .o 1, .l 0, .s 3, .f32, 0⟩) ∧
    decodeWords [0x4080A00000FFFFF8] = .ok (.bra ⟨.fixed, false, none, false, false, 1⟩ true 0xFFFFF8) ∧
    decodeWords [0x03B280C01002063C] = .ok (.fcvt ⟨plain, .v 6, .v 2, ⟨false, false, .rne⟩, .t8, .f32⟩) ∧
    decodeWords [0x038900000031A000] = .ok (.setfmtImm plain 0x31A000) ∧
    decodeWords [0x739000A00F020008, 0x0510030600000007] =
      .ok (.iadd ⟨⟨.fixed, true, some 0x0510030600000007, false, false, 7⟩, .v 5, .v 1, .k 1, .i32, 0⟩) ∧
    decodeWords [0x23D0810000001000] = .ok (.cnext ⟨.portable, true, none, false, false, 7⟩ 2 1) ∧
    decodeWords [0x03DA122801838000] = .ok (.mma ⟨plain, 2, 4, 5, 0, .s 7, false⟩) := by decide

/-! ### The small states of the tests -/

/-- Group 0, all lanes live, of one team on core 0, its turn to run. -/
def baseGroup : Group := newGroup 0 0 0 0 0 (some 0) 0x100000 0xFFFFFFFF 0 0

/-- The bytes of its page tables. -/
def pageCells : List Host.Cell :=
  [(0x10000, 0x81), (0x20000, 0xC1), (0x30000, 1), (0x30001, 1), (0x40080, 0x4F), (0x40081, 1)]

/-- The machine with that group; the page of 0x100000 is mapped to the frame of 0x50000, writable and executable. -/
def base : State := { layProgram State.reset [] with mem := { Mem.reset with dram := pageCells }, cur := some 0 }

theorem test_base : base = { layProgram State.reset [] with cur := some 0 } := by decide +kernel

/-- Another group in its place. -/
def withGroup (g : Group) : State := { base with groups := [(0, g)] }

/-- Lane 0 alone, with v0, v1, ... of these values. -/
def loneGroup (vals : List Nat) : Group :=
  { baseGroup with mask := 1, live := 1, v := vals.zipIdx.foldl (fun c x => cset c (laneKey x.2 0) (BitVec.ofNat 32 x.1)) [] }

/-- The result last written to a place of lane 0 by an instruction with v0, v1, ... of these values. -/
def ran (i : Instr) (vals : List Nat) (p : Place := .v 10) : Option Nat :=
  match exec i (withGroup (loneGroup vals)) with
  | .next t => (getGroup t 0).map fun g => (newestAt g p 0).1
  | _ => none

/-- The leaf of the mapped page. -/
def pageLeaf : Leaf :=
  match (translate base (whoOf base baseGroup) 0x100000 .read).2 with | .ok l => l | .error _ => ⟨0, 0, 0, false, false, .own, false, false⟩

/-- The base machine's memory with these bytes besides. -/
def memWith (l : List Host.Cell) : Mem := { Mem.reset with dram := pageCells ++ l }

/-! ### Results worked out in the manual (files 06 and 07; the FP32 codes of the operands by R86) -/

theorem test_iadd_wraps_and_saturates :
    [ran (.iadd ⟨plain, .v 10, .v 0, .v 1, .i8, 0⟩) [100, 100], ran (.iadd ⟨plain, .v 10, .v 0, .v 1, .i8, 1⟩) [100, 100]] =
      [some 0xFFFFFFC8, some 0x7F] := by decide

theorem test_isub_iabs_saturate :
    [ran (.isub ⟨plain, .v 10, .v 0, .v 1, .n8, 1⟩) [3, 5], ran (.iabs ⟨plain, .v 10, .v 0, .i32, 0⟩) [0x80000000],
      ran (.iabs ⟨plain, .v 10, .v 0, .i32, 1⟩) [0x80000000]] = [some 0, some 0x80000000, some 0x7FFFFFFF] := by decide

theorem test_idiv_irem :
    ([0, 1].map fun sub => (ran (.idiv ⟨plain, .v 10, .v 0, .v 1, .i32, sub⟩) [7, 0xFFFFFFFE],
      ran (.irem ⟨plain, .v 10, .v 0, .v 1, .i32, sub⟩) [7, 0xFFFFFFFE])) =
      [(some 0xFFFFFFFD, some 1), (some 0xFFFFFFFC, some 0xFFFFFFFF)] := by decide

theorem test_idiv_irem_corners :
    [ran (.idiv ⟨plain, .v 10, .v 0, .v 1, .i32, 0⟩) [0x80000000, 0xFFFFFFFF],
      ran (.irem ⟨plain, .v 10, .v 0, .v 1, .i32, 0⟩) [0x80000000, 0xFFFFFFFF],
      ran (.idiv ⟨plain, .v 10, .v 0, .v 1, .n32, 0⟩) [5, 0], ran (.irem ⟨plain, .v 10, .v 0, .v 1, .n32, 0⟩) [5, 0]] =
      [some 0x80000000, some 0, some 0xFFFFFFFF, some 5] := by decide

theorem test_shifts_and_fields :
    [ran (.shl ⟨plain, .v 10, .v 0, .v 1, .b32, 0⟩) [1, 32], ran (.sar ⟨plain, .v 10, .v 0, .v 1, .i32, 0⟩) [0x80000000, 40],
      ran (.rol ⟨plain, .v 10, .v 0, .v 1, .b32, 0⟩) [0x80000001, 33],
      ran (.bfx ⟨plain, .v 10, .v 0, .v 1, .i32, 0⟩) [0x0F70, 0x0304]] =
      [some 0, some 0xFFFFFFFF, some 3, some 0xFFFFFFFF] := by decide

theorem test_fadd_corners :
    [ran (.fadd ⟨plain, .v 10, .v 0, .v 1, ⟨false, false, .fmt⟩, .f32⟩) [0x7F800000, 0xFF800000],
      ran (.fadd ⟨plain, .v 10, .v 0, .v 1, ⟨false, false, .rdn⟩, .f32⟩) [0x3F800000, 0xBF800000]] =
      [some 0x7FC00000, some 0x80000000] := by decide

theorem test_fdiv_by_zero :
    ([false, true].map fun sat =>
      ran (.fdiv ⟨plain, .v 10, .v 0, .v 1, ⟨false, sat, .fmt⟩, .f32⟩) [0x3F800000, 0x80000000]) =
      [some 0xFF800000, some 0xFF7FFFFF] := by decide

theorem test_fmin_fneg_fcmp :
    [ran (.fmin ⟨plain, .v 10, .v 0, .v 1, .f32, 0⟩) [0x7FC00000, 0x40000000],
      ran (.fmin ⟨plain, .v 10, .v 0, .v 1, .f32, 0⟩) [0, 0x80000000], ran (.fneg ⟨plain, .v 10, .v 0, .f32, 0⟩) [0x7FC00001],
      ran (.fcmp ⟨plain, ⟨false, false, 2⟩, .v 0, .v 1, 1, .f32, 0⟩) [0x7FC00000, 0x7FC00000] (.p 2)] =
      [some 0x40000000, some 0x80000000, some 0xFFC00001, some 1] := by decide

theorem test_fsqrt_flg2_of_zero :
    [ran (.fsqrt ⟨plain, .v 10, .v 0, ⟨false, false, .fmt⟩, .f32⟩) [0x80000000],
      ran (.flg2 ⟨plain, .v 10, .v 0, ⟨false, false, .fmt⟩, .f32⟩) [0]] = [some 0x80000000, some 0xFF800000] := by decide

theorem test_fscl_frnd :
    [ran (.fscl ⟨plain, .v 10, .v 0, .v 1, ⟨false, false, .fmt⟩, .f32⟩) [0x3F800000, 2 ^ 32 - 149],
      ran (.fscl ⟨plain, .v 10, .v 0, .v 1, ⟨false, false, .fmt⟩, .f32⟩) [0x3F800000, 2 ^ 32 - 150],
      ran (.frnd ⟨plain, .v 10, .v 0, ⟨false, false, .rne⟩, .f32⟩) [0x40200000],
      ran (.frnd ⟨plain, .v 10, .v 0, ⟨false, false, .rup⟩, .f32⟩) [0xBF000000]] =
      [some 1, some 0, some 0x40000000, some 0x80000000] := by decide

theorem test_fcvt :
    [ran (.fcvt ⟨plain, .v 10, .v 0, ⟨false, false, .fmt⟩, .e4m3, .f32⟩) [0x43FA0000],
      ran (.fcvt ⟨plain, .v 10, .v 0, ⟨false, true, .fmt⟩, .e4m3, .f32⟩) [0x43FA0000],
      ran (.fcvt ⟨plain, .v 10, .v 0, ⟨false, false, .fmt⟩, .e2m1, .f32⟩) [0x7FC00000],
      ran (.fcvt ⟨plain, .v 10, .v 0, ⟨false, false, .fmt⟩, .t6, .f32⟩) [0x447A0000],
      ran (.fcvt ⟨plain, .v 10, .v 0, ⟨false, false, .fmt⟩, .e8, .f32⟩) [0x3F400000],
      ran (.fcvt ⟨plain, .v 10, .v 0, ⟨false, false, .rne⟩, .t8, .f32⟩) [0x40533333]] =
      [some 0x7F, some 0x7E, some 0, some 0x1F, some 0x7E, some 0x5A] := by decide

theorem test_fcvti_fcls :
    [ran (.fcvti ⟨plain, .v 10, .v 0, ⟨false, false, .rz⟩, .i32, .f32⟩) [0xBFC00000],
      ran (.fcvti ⟨plain, .v 10, .v 0, ⟨false, false, .rdn⟩, .i32, .f32⟩) [0xBFC00000],
      ran (.fcvti ⟨plain, .v 10, .v 0, ⟨false, false, .fmt⟩, .i32, .f32⟩) [0x4F32D05E],
      ran (.fcvti ⟨plain, .v 10, .v 0, ⟨false, false, .fmt⟩, .n8, .f32⟩) [0x7FC00000],
      ran (.fcls ⟨plain, .v 10, .v 0, .t6, 0⟩) [0x20]] =
      [some 0xFFFFFFFF, some 0xFFFFFFFE, some 0x7FFFFFFF, some 0, some 0x400] := by decide

theorem test_packed_and_dot :
    [ran (.hadd2 ⟨plain, .v 10, .v 0, .v 1, ⟨false, false, .fmt⟩, .f16⟩) [0x7BFF3C00, 0x7BFF3C00],
      ran (.hadd2 ⟨plain, .v 10, .v 0, .v 1, ⟨false, true, .fmt⟩, .f16⟩) [0x7BFF3C00, 0x7BFF3C00],
      ran (.dot4 ⟨plain, .v 10, .v 0, .v 1, .v 2, .i8, 0⟩) [0x7F7F7F7F, 0x80808080, 0]] =
      [some 0x7C004000, some 0x7BFF4000, some 0xFFFF0200] := by decide

/-- R89, R91: codes worked by hand in files 04 and 08, as FP32 codes: 2^-12, 1, 3.5, -1.6875, 4096, 10, 5/64, -5/32, 1024. -/
theorem test_tapered_codes :
    [0x01, 0x40, 0x5C, 0xB5, 0x7F, 0x6A, 0x12, 0xE6, 0x7E].map (fun c => froundF .f32 .rne false false (fdecode .t8 c)) =
      [0x39800000, 0x3F800000, 0x40600000, 0xBFD80000, 0x45800000, 0x41200000, 0x3DA00000, 0xBE200000, 0x44800000] := by
  decide

/-- R92: the table of file 08 for E2M1. -/
theorem test_rounding_to_e2m1 :
    ([.fin false 5 0, .fin true 5 0, .fin false 5 (-1)].map fun x =>
      [RM.rne, .rz, .rup, .rdn].map fun m => froundF .e2m1 m false false x) =
      [[6, 6, 7, 6], [0xE, 0xE, 0xE, 0xF], [4, 4, 5, 4]] := by decide

/-- R95: the generator's first step. -/
theorem test_generator : rngStep 1 = 0x00042021 := by decide

/-! ### Witnesses: for every statement with hypotheses, a state and operands that meet them -/

/-- The hypotheses of an issue hold of a state whose turn is group 0's. -/
theorem issuing (s : State) (g : Group) (h : Hdr) (c : s.cur = some 0) (r : getGroup s 0 = some g) (n : h.sp = none) :
    Issuing s 0 g h := ⟨c, r, fun m e => by rw [n] at e; cases e⟩

/-- A guard that holds nowhere: p0 or g0, which read 0. -/
abbrev never : Hdr := ⟨.portable, false, none, false, false, 0⟩
abbrev neverU : Hdr := ⟨.portable, false, none, true, false, 0⟩

/-- The opened group of an issue in a state. -/
def openedIn (s : State) (h : Hdr) : Group := openIssue s ((getGroup s 0).getD baseGroup) h

/-- A mask word whose registers the role has. -/
theorem witness_mask_word : Issuing base 0 baseGroup ⟨.portable, false, some 0x1FFFFFFFF, false, false, 7⟩ :=
  ⟨rfl, rfl, fun m e => by cases e; decide⟩

/-- IntegerPairsAddSubtractMultiplyDivide to ConversionsPackedAndDot: operands at the edge of the allocation, of every level, as
pairs and singles; with UNI = 1 a guard that holds and one that does not. -/
theorem witness_data_operands :
    Issuing base 0 baseGroup plain ∧ Issuing base 0 baseGroup plainU ∧ Issuing base 0 baseGroup neverU ∧
    operandsOk (roleOf base baseGroup) plain [(.v 254, true), (.s 127, true), (.k 0, false)] (.v 254) true = true ∧
    operandsOk (roleOf base baseGroup) plain [(.v 255, false), (.o 15, false), (.l 1, false)] (.v 255) false = true ∧
    operandsOk (roleOf base baseGroup) plain [(.o 14, true)] (.hi 14) true = true ∧
    operandsOk (roleOf base baseGroup) plainU [(.s 127, true), (.v 0, false)] (.hi 127) true = true ∧
    (takingPart (openedIn base plain) plain .w32 0).length = 32 ∧
    uniGuard (openedIn base plainU) plainU 0 = true ∧ uniGuard (openedIn base neverU) neverU 0 = false :=
  ⟨issuing _ _ _ rfl rfl rfl, issuing _ _ _ rfl rfl rfl, issuing _ _ _ rfl rfl rfl, by decide⟩

/-- ComparisonsAndPredicates and LanesExchange: sources of a comparison, a selector that names a place and one that names none. -/
theorem witness_predicate_operands :
    (([(.v 254, true), (.v 255, false)] : List (Src × Bool)).all fun x => srcInRole (roleOf base baseGroup) x.2 x.1) = true ∧
    selPlace ⟨false, false, 6⟩ 31 = some (.p 6, 31) ∧ selPlace ⟨false, false, 7⟩ 31 = none ∧
    selPlace ⟨true, false, 3⟩ 0 = some (.g 3, 0) := by decide

/-- BranchesAndCalls: every lane takes part, some do, none does; a target that is a multiple of 8 and one that is not. -/
theorem witness_branches :
    takingPart (openedIn base plain) plain .w32 0 = enabledLanes (openedIn base plain) ∧
    takingPart (openedIn base plain) plain .w32 0 ≠ [] ∧
    takingPart (openedIn base never) never .w32 0 ≠ enabledLanes (openedIn base never) ∧
    takingPart (openedIn base never) never .w32 0 = [] ∧
    srcInRole (roleOf base baseGroup) true (.v 254) = true ∧
    (readTarget (openedIn base plain) plain 0 (.s 0)).extractLsb' 0 3 = 0 ∧
    (readTarget (openedIn (withGroup { baseGroup with s := cset [] 9 4 }) plain) plain 0 (.s 9)).extractLsb' 0 3 ≠ 0 ∧
    BitVec.extractLsb' 0 3 (BitVec.ofNat 64 (readPlace (openedIn base plain) (.s 0) 0 false 0)) = 0 ∧
    BitVec.extractLsb' 0 3 (BitVec.ofNat 64 (readPlace (openedIn (withGroup { baseGroup with s := cset [] 9 4 }) plain) (.s 9) 0 false 0)) ≠ 0 :=
  by decide

/-- A group with a stack of this depth. -/
def deep (n : Nat) : Group := { baseGroup with stack := List.replicate n ⟨0x100100, 0xFFFFFFFF, 0⟩ }

/-- DivergenceAndExit: depths 0, 31 and 32; a predicate that holds in some lane and in none; every lane, some lanes and the
enabled ones leave; a legal value and a reserved code. -/
theorem witness_divergence :
    (openedIn (withGroup (deep 31)) plain).stack.length = 31 ∧ (openedIn (withGroup (deep 32)) plain).stack.length = 32 ∧
    (openedIn base plain).stack = [] ∧
    ((enabledLanes (openedIn base plain)).filter fun i => (readPlace (openedIn base plain) (.p 1) i false 0 == 1) != false) = [] ∧
    ((enabledLanes (openedIn base plain)).filter fun i => (readPlace (openedIn base plain) (.p 1) i false 0 == 1) != true) ≠ [] ∧
    baseGroup.live &&& ~~~maskOf (takingPart (openedIn base plain) plain .w32 0) = 0 ∧
    baseGroup.live &&& ~~~maskOf (takingPart (openedIn base never) never .w32 0) ≠ 0 ∧
    ({ deep 1 with mask := 1 } : Group).live &&& ~~~maskOf (takingPart { deep 1 with mask := 1 } plain .w32 0) ≠ 0 ∧
    ({ deep 1 with mask := 1 } : Group).mask &&& ~~~maskOf (takingPart { deep 1 with mask := 1 } plain .w32 0) = 0 ∧
    fmtLegal (BitVec.ofNat 32 (0x31A000 * 256)) = true ∧ fmtLegal (BitVec.ofNat 32 (0xFFFFFF * 256)) = false ∧
    fmtLegal 0xFFFFFFFF = false ∧ uniGuard (openedIn base neverU) neverU 0 = false := by decide

/-- The kernel of the base machine with one bin at 0x100080, one waiting group allowed in it. -/
def binState (g : Group) : State :=
  { withGroup g with grids := [(0, { probeGrid with kernel := { probeKernel with bins := [⟨0x80, 16⟩] } })] }

/-- SpawnAndRegroup: an entry declared, arguments at the end of the allocation; lanes that all find room, and lanes left over
because the core's bins are full of other entries; a mask word of the role; a stack with an entry, an empty one; a partner. -/
theorem witness_spawn :
    binTimer (kernelOf (binState baseGroup) 0) 0x100080 ≠ none ∧
    (252 : Nat) + 4 ≤ (roleOf (binState baseGroup) baseGroup).regs ∧
    (let s1 := releaseAt (resumeSpawns (binState baseGroup) 0) 0 0 .team
     (placeSpawns 0 0 0 0x100080 s1.nextId [⟨3, [7]⟩] s1).2) = [] ∧
    (takingPart (openedIn (binState (loneGroup [])) plain) plain .w32 0).length = 1 ∧
    (getCore (binState (loneGroup [])) 0).bins = [] ∧ parkedSpawns (binState (loneGroup [])) 0 = [] ∧
    maskInRole (roleOf base baseGroup) 0x1FFFFFFFF = true := by decide +kernel

/-- SpawnAndRegroup, lanes left over: sixteen bins hold other entries; SPAWN_RESUME of a group that waits so; a rendezvous with a
group of the same team, role and address that waits, whose lanes fit. -/
def fullBins : Tab Bin := (List.range 16).map fun n => (n, ⟨1, 0, 0x200000, [⟨0, []⟩], some 5000, none⟩)

def spawnState : State :=
  { binState { baseGroup with wait := .spawn 0x100080, spawnLeft := [⟨5, [1]⟩], parkLen := 8 } with
    cores := [(0, { Core.reset with bins := fullBins })] }

def pairState : State :=
  { withGroup { loneGroup [] with parkLen := 16 } with
    groups := [(0, { loneGroup [] with parkLen := 16 }), (1, { loneGroup [7] with wait := .regroup 2 1, parkLen := 16 })]
    grids := [(0, { probeGrid with kernel := { probeKernel with roles := [⟨2, 256, 0, 0, 0⟩] } })] }

theorem witness_spawn_left :
    (let s1 := releaseAt (resumeSpawns { binState (loneGroup []) with cores := [(0, { Core.reset with bins := fullBins })] } 0) 0 0 .team
     (placeSpawns 0 0 0 0x100080 s1.nextId [⟨5, [1]⟩] s1).2) = [⟨5, [1]⟩] ∧
    ((getGroup spawnState 0).map (·.wait)) = some (.spawn 0x100080) ∧
    (placeSpawns 0 0 0 0x100080 0 [⟨5, [1]⟩] spawnState).2 = [⟨5, [1]⟩] ∧
    (placeSpawns 0 0 0 0x100080 0 [⟨5, [1]⟩] (binState baseGroup)).2 = [] ∧
    Issuing pairState 0 { loneGroup [] with parkLen := 16 } plain ∧
    (regroupPartner (setGroup pairState 0 (openedIn pairState plain)) 0 (commitAll (openedIn pairState plain) 0) 2 1).isSome
      = true :=
  ⟨by decide +kernel, by decide, by decide +kernel, by decide +kernel, issuing _ _ _ rfl rfl rfl, by decide +kernel⟩

/-! A load, store, atomic and the rest: lane 0 of core 0, its address 0x102000 in the mapped page. -/

def memGroup : Group :=
  { loneGroup [0x102000, 0, 5, 0, 9, 0] with
    s := [(1, 0x102000), (2, 0x100), (4, 0x102000), (5, 0x10000000000), (6, 0x102000), (8, 1), (9, 7), (10, 0x102000)] }
def memState : State := withGroup memGroup

theorem issuing_mem (h : Hdr) (n : h.sp = none) : Issuing memState 0 memGroup h := issuing _ _ _ rfl rfl n

def loadMeets (rt : Option Rt) (spad : Bool) (x : MemOp) (s : State) (gid : Nat) (g : Group) : Bool :=
  let o := openIssue s g x.h
  let part := takingPart o x.h .w32 s.cycle
  let regs := (roleOf s g).regs
  decide (x.data.toNat < regs) && decide (2 * x.addr.toNat + (if spad then 0 else 1) < regs) && !part.isEmpty &&
    match fetchRecord (setGroup s gid o) o x.rcd.toNat (maskOf part) with
    | (s1, .ok r) =>
      decide (x.data.toNat + r.regs ≤ regs) && r.usable false spad &&
        let s2 := occupy s1 o (beatCount .w32 part)
        let locs := laneLocs o x.addr x.off spad part s2.cycle
        (beyondAlloc s2 o.team locs r.span).isEmpty &&
          match loadRuns s2 o rt x.ord.isAcq (scLoad o x.ord x.scp) x.rcd.toNat r (locs.map (numLoc s2 (whoOf s2 o))) with
          | (_, .ok _) => true
          | _ => false
    | _ => false

def storeMeets (rt : Option Rt) (spad : Bool) (x : MemOp) (s : State) (gid : Nat) (g : Group) : Bool :=
  let o := openIssue s g x.h
  let part := takingPart o x.h .w32 s.cycle
  let regs := (roleOf s g).regs
  decide (x.data.toNat < regs) && decide (2 * x.addr.toNat + (if spad then 0 else 1) < regs) && !part.isEmpty &&
    match fetchRecord (setGroup s gid o) o x.rcd.toNat (maskOf part) with
    | (s1, .ok r) =>
      decide (x.data.toNat + r.regs ≤ regs) && r.usable true spad &&
        let s2 := occupy s1 o (beatCount .w32 part)
        let w := whoOf s2 o
        let locs := laneLocs o x.addr x.off spad part s2.cycle
        (beyondAlloc s2 o.team locs r.span).isEmpty &&
          let runs := part.map fun i => (i, packElems 32 ((List.range r.regs).map fun k =>
            readPlace o (.v (x.data.toNat + k)) i false (s2.cycle + beatOffset .w32 part i)))
          let nums := locs.map (numLoc s2 w)
          let scales := nums.map (scaleItems r)
          let split := scales.flatten.map (piecesOf s2 w)
          let dest := ((storeLanes r o rt runs (nums.map fun _ => []) nums).1.map (·.1)).flatMap (piecesOf s2 w)
          match checkStore s2 w dest split.flatten with
          | (s3, kw, kr, none) =>
            match readMapped s3 w kr.map 15 false split with
            | (s4, .ok bytes) =>
              let what := storeLanes r o rt runs (chunks (scales.headD []).length nums.length bytes) nums
              match writeMapped s4 w kw.map (storeReleases o x.ord x.scp part) (splitWrites s4 w what.1) with
              | (_, .done) => true
              | _ => false
            | _ => false
          | _ => false
    | _ => false

/-- LoadsComplete and StoresComplete: releasing and acquiring accesses of the mapped page, others at the end of the allocation and in
the scratchpad; a guard that fails. -/
theorem witness_loads :
    Issuing memState 0 memGroup plain ∧ loadMeets (some .own) false ⟨plain, 10, 0, .acq, .dev, 0, 0⟩ memState 0 memGroup = true ∧
    loadMeets (some .uc) false ⟨plain, 255, 0, .rlx, .team, 0, 8⟩ memState 0 memGroup = true ∧
    loadMeets none true ⟨plain, 10, 1, .rlx, .team, 0, 0⟩ memState 0 memGroup = true ∧
    takingPart (openedIn memState never) never .w32 0 = [] := ⟨issuing_mem _ rfl, by decide +kernel⟩

theorem witness_uniform_loads :
    Issuing memState 0 memGroup plainU ∧ Issuing memState 0 memGroup neverU ∧
    (match readChecked (setGroup (occupy memState (openedIn memState plainU) 1) 0 (openedIn memState plainU))
        (whoOf memState (openedIn memState plainU)) 15 true (scLoad (openedIn memState plainU) .sc .dev)
        [⟨0, .glob 0x102000, 4, some .own, false⟩] with
      | (_, _, .ok b) => leNat b.flatten == 0
      | _ => false) = true := ⟨issuing_mem _ rfl, issuing_mem _ rfl, by decide +kernel⟩

theorem witness_stores :
    Issuing memState 0 memGroup plain ∧ storeMeets (some .own) false ⟨plain, 2, 0, .rel, .dev, 0, 0⟩ memState 0 memGroup = true ∧
    storeMeets (some .wt) false ⟨plain, 2, 0, .rlx, .team, 0, 8⟩ memState 0 memGroup = true ∧
    storeMeets none true ⟨plain, 2, 1, .rlx, .team, 0, 0⟩ memState 0 memGroup = true := ⟨issuing_mem _ rfl, by decide +kernel⟩

/-- The state in which a lane instruction's checks are made: its opened group in place, the slice busy. -/
def placed (s : State) (h : Hdr) : State := setGroup (occupy s (openedIn s h) 1) 0 (openedIn s h)

/-- PrefetchAndZeroSector: an address register of the role, an aligned address in a page that may be written. -/
theorem witness_zsect :
    Issuing memState 0 memGroup plain ∧ 2 * (127 : Nat) + 1 < (roleOf memState memGroup).regs ∧
    (let s0 := placed memState plain
     let o := openedIn memState plain
     let items : List Item := [⟨0, .glob 0x102000, 64, none, false⟩]
     match checkAccess s0 (whoOf s0 o) .write items with
     | (_, k) => (k.stops items).isNone && match leafSeen k 0x102000 with
       | some l => !l.sa && !l.cmp
       | none => false) = true ∧ ((0x102000 : Nat) % 64 = 0) := ⟨issuing_mem _ rfl, by decide +kernel⟩

/-- The page of 0x100000 is SA. -/
def saState : State :=
  { memState with mem := { Mem.reset with dram := pageCells.take 4 ++ [(0x40080, 0x4F), (0x40081, 1), (0x40085, 0x40)] } }

/-- WindowInstructions: a refusal, a binding that is made, a page that translates and is refused; instructions on the team's binding, on none; a guard that fails. -/
def windowState : State :=
  { memState with mem := { memState.mem with
      windows := [⟨0, 1, 0, 0, 0x102000, 0x100, false, .own, .team, [], [], [], []⟩] } }

theorem witness_windows :
    Issuing memState 0 memGroup plainU ∧ Issuing memState 0 memGroup neverU ∧ Issuing windowState 0 memGroup plainU ∧
    uniGuard (openedIn memState neverU) neverU 0 = false ∧ uniGuard (openedIn memState plainU) plainU 0 = true ∧
    wmapRefusal (placed memState plainU) (openedIn memState plainU) .own 0x102000 0 0 = 6 ∧
    wmapRefusal (placed memState plainU) (openedIn memState plainU) .own 0x102000 0 0x100 = 0 ∧
    (let s0 := placed memState plainU
     (translatePages (whoOf s0 (openedIn memState plainU)) .read (pagesOf 0x102000 0x100) s0 []).2.all fun e =>
       match e.2 with | .ok l => !l.cmp && !l.sa | .error _ => false) = true ∧
    Issuing saState 0 memGroup plainU ∧
    wmapRefusal (placed saState plainU) (openedIn saState plainU) .own 0x102000 0 0x100 = 0 ∧
    ((translatePages (whoOf (placed saState plainU) (openedIn saState plainU)) .read (pagesOf 0x102000 0x100) (placed saState plainU)
      []).2.map fun e => match e.2 with | .ok l => l.sa | .error _ => false) = [true] ∧
    (∀ x ∈ [(8 : BitVec 6), 9], (bindingBody ⟨plainU, 20, x⟩ (fun s _ => s) (placed windowState plainU) 0
      (openedIn windowState plainU)).2.isSome = true) :=
  ⟨issuing_mem _ rfl, issuing_mem _ rfl, issuing _ _ _ rfl rfl rfl, by decide, by decide, by decide, by decide, by decide,
    issuing _ _ _ rfl rfl rfl, by decide, by decide, by decide⟩

/-- CacheMaintenance: a length, a length of zero; the page translates. -/
theorem witness_maintenance :
    Issuing memState 0 memGroup plainU ∧ readPlace (openedIn memState plainU) (.s 2) 0 false 0 ≠ 0 ∧
    readPlace (openedIn memState plainU) (.s 7) 0 false 0 = 0 ∧
    (let s0 := placed memState plainU
     (translatePages (whoOf s0 (openedIn memState plainU)) .read (pagesOf 0x102000 0x100) s0 []).2.all fun e =>
       match e.2 with | .ok _ => true | .error _ => false) = true := ⟨issuing_mem _ rfl, by decide⟩

def atomMeets (x : AtomFields) (n : Nat) (s : State) (gid : Nat) (g : Group) : Bool :=
  let o := openIssue s g x.h
  let part := takingPart o x.h .w32 s.cycle
  let locs : LaneLocs := part.map fun i =>
    (i, if x.spl then Loc.spad (laneOffset o x.addr x.off i (s.cycle + beatOffset .w32 part i))
      else .glob (laneAddr o x.addr x.off i (s.cycle + beatOffset .w32 part i)))
  let b := x.ty.bits / 8
  let s0 := setGroup (occupy s o (beatCount .w32 part)) gid o
  let w := whoOf s0 o
  decide (x.data.toNat + n ≤ (roleOf s g).regs) && decide (2 * x.addr.toNat + (if x.spl then 0 else 1) < (roleOf s g).regs) &&
    !part.isEmpty && (locs.filter fun y => y.2.number.toNat % b != 0).isEmpty && (beyondAlloc s0 o.team locs b).isEmpty &&
    let items := locs.map fun y => throughBinding s0 w ⟨y.1, y.2, b, none, false⟩
    match checkAccess s0 w .write items with
    | (s1, k) => (scopeLanes s1 w k x.scp locs).isEmpty && (k.stops items).isNone &&
        (locs.filterMap fun y => (atomLost s1 w k.map ⟨x.ty, x.ord, x.scp, false⟩ y).map fun pa => (y.1, BitVec.ofNat 64 pa)).isEmpty

/-- Which lanes of a compare and swap at 0x102000 wrote. -/
def casWrote (cmp new : Nat) : List Nat :=
  let s0 := placed memState plain
  let w := whoOf s0 (openedIn memState plain)
  let sh : AtomShape := ⟨.n32, .rlx, .dev, false⟩
  match checkAccess s0 w .write [⟨0, .glob 0x102000, 4, none, false⟩] with
  | (s1, k) => ((atomLanes w k.map sh (fun _ s => s) [(0, .glob 0x102000, .cas cmp new)] s1 []).2.filter fun y => y.2.2).map (·.1)

/-- AtomicsComplete: a swap that writes and one that fails; at .dev in the mapped page, of 4 and 8 bytes; at .team in the scratchpad; no lane. -/
theorem witness_atomics :
    Issuing memState 0 memGroup plain ∧ Issuing memState 0 memGroup never ∧
    atomMeets ⟨plain, 2, 0, .ar, .dev, false, .add, .i32, 0⟩ 1 memState 0 memGroup = true ∧
    atomMeets ⟨plain, 2, 0, .rlx, .team, false, .add, .b64, 8⟩ 4 memState 0 memGroup = true ∧
    atomMeets ⟨plain, 2, 3, .rlx, .team, true, .add, .n32, 0⟩ 1 memState 0 memGroup = true ∧
    takingPart (openedIn memState never) never .w32 0 = [] ∧ casWrote 0 5 = [0] ∧ casWrote 1 5 = [] :=
  ⟨issuing_mem _ rfl, issuing_mem _ rfl, by decide +kernel⟩

/-- Fences: a QFENCE that acts and one that does not, in both forms. -/
theorem witness_acts :
    Issuing memState 0 memGroup plain ∧ Issuing memState 0 memGroup plainU ∧
    actsIn (openedIn memState plain) plain 0 = some 0 ∧ actsIn (openedIn memState never) never 0 = none ∧
    (actsIn (openedIn memState plainU) plainU 0).isSome = true ∧ actsIn (openedIn memState neverU) neverU 0 = none :=
  ⟨issuing_mem _ rfl, issuing_mem _ rfl, by decide⟩

/-- Barriers: the team; counts of zero and more; no entry left, one to be had, one bound; a BBAR that waits for one. -/
def boughState (n : Nat) : State :=
  { memState with boughBars := (List.range n).map fun i => ⟨0, 7, i, 2, []⟩ }

theorem witness_barriers :
    Issuing memState 0 memGroup plain ∧
    (getTeam (releaseAt (placed memState plain) 0 0 .team) 0).isSome = true ∧
    srcInRole (roleOf memState memGroup) false (.v 255) = true ∧
    readSrc (openedIn memState plain) plain 0 0 32 (.v 2) = 5 ∧ readSrc (openedIn memState plain) plain 0 0 32 (.k 0) = 0 ∧
    decide (16 ≤ ((boughState 15).boughBars.filter fun b => b.bough == 0).length) = false ∧
    decide (16 ≤ ((boughState 16).boughBars.filter fun b => b.bough == 0).length) = true ∧
    (([⟨0, 0, 3, 2, []⟩] : List BoughBar).any fun b => b.bough == boughOf 0 && b.grid == gridIdOf memState memGroup && b.num == 3) = true ∧
    mayTakeEntry (boughState 15) { memGroup with wait := .bbarFull 3 } = true ∧
    mayTakeEntry (boughState 16) { memGroup with wait := .bbarFull 3 } = false ∧
    residents (releaseAt (placed memState plain) 0 0 .team) 0 none = [0] ∧
    residents (releaseAt (placed memState plain) 0 0 .team) 0 (some 0) = [0] ∧
    ([(⟨0, gridIdOf memState memGroup, 3, 2, [5]⟩ : BoughBar)].find? fun b =>
      b.bough == 0 && b.grid == gridIdOf memState memGroup && b.num == 3) = some ⟨0, gridIdOf memState memGroup, 3, 2, [5]⟩ ∧
    ([5] ++ [0] : List Nat).Nodup := ⟨issuing_mem _ rfl, by decide +kernel⟩

/-- What a wait's hypotheses come to: whether the monitor has room, and whether the condition holds. -/
def waitMeets (s1 : State) (gid : Nat) (o : Group) (len : Nat) (t : WatchTest) : Option (Bool × Bool) :=
  let sectors := distinct (t.lanes.map fun x => x.2.1 / 64)
  let p := park s1 gid o len (.watch sectors t)
  if monitorsUsed s1 o.core + sectors.length ≤ 64 then
    match getGroup p gid with
    | some g1 =>
      match testRead (setGroup p gid { g1 with poked := false }) g1 t with
      | (_, .ok l) => some (true, testHolds t l)
      | _ => none
    | none => none
  else
    match testRead s1 o t with
    | (_, .ok l) => some (false, testHolds t l)
    | _ => none

/-- WaitingOnMemory: MWAIT on the word at 0x102000, which reads 0, for 5 or for not 5. -/
def mwaitMeets (x : MwaitOp) (s : State) (gid : Nat) (g : Group) : Option (Bool × Bool) :=
  let o := openIssue s g x.h
  let wide := x.w != .n32
  let part := if x.h.uni then (if uniGuard o x.h s.cycle then [0] else []) else takingPart o x.h .w32 s.cycle
  let at_ := fun i => s.cycle + beatOffset .w32 part i
  let eas := part.map fun i => (i, if x.h.uni then uniAddr o x.addr x.off s.cycle else laneAddr o x.addr x.off i (at_ i))
  let s0 := setGroup (occupy s o (if x.h.uni then 1 else beatCount .w32 part)) gid o
  if eas.any fun e => e.2.toNat % mwBytes x.w != 0 then none
  else
    match translatePages (whoOf s0 o) .read (distinct (eas.map fun e => e.2.toNat / 65536)) s0 [] with
    | (s1, m) =>
      if m.any fun e => match e.2 with | .ok _ => false | .error _ => true then none
      else
        let lanes := eas.filterMap fun e =>
          let want := if x.h.uni then readPlace o (.s x.data.toNat) 0 true s.cycle
            else dataValue o x.data.toNat e.1 (at_ e.1) wide
          match m.look e.2 with
          | .ok l => some (e.1, leafPa l e.2, l.cmp, want)
          | .error _ => none
        waitMeets s1 gid o 8 ⟨false, x.w, x.cond, x.scp, x.h.uni, x.h.ver, x.data.toNat, lanes⟩

/-- The same machine whose monitor on core 0 has no entry left. -/
def watchedOut : State :=
  { memState with groups := memState.groups ++ [(1, { memGroup with
      wait := .watch (List.range 64) ⟨false, .n32, .eq, .dev, false, .portable, 10, []⟩ })] }

/-- A wait of lane 0 for the word at 0x52000 to be what `want` says. -/
def watchTest (want : Nat) : WatchTest := ⟨false, .n32, .eq, .dev, false, .portable, 10, [(0, 0x52000, false, want)]⟩
def watchState (w : Wait) : State := withGroup { memGroup with wait := w, parkLen := 8 }

theorem witness_mwait :
    Issuing memState 0 memGroup plain ∧ Issuing memState 0 memGroup plainU ∧
    mwaitMeets ⟨plain, 2, 0, .dev, .n32, .ne, 0⟩ memState 0 memGroup = some (true, true) ∧
    mwaitMeets ⟨plain, 2, 0, .dev, .n32, .eq, 0⟩ memState 0 memGroup = some (true, false) ∧
    mwaitMeets ⟨plain, 2, 0, .dev, .n32, .ne, 0⟩ watchedOut 0 memGroup = some (false, true) ∧
    mwaitMeets ⟨plain, 2, 0, .dev, .n32, .eq, 0⟩ watchedOut 0 memGroup = some (false, false) ∧
    mwaitMeets ⟨plainU, 9, 1, .dev, .b64, .ne, 0⟩ memState 0 memGroup = some (true, true) ∧
    ([0, 5].map fun want =>
      let s := watchState (.watch [0x1480] (watchTest want))
      let g : Group := { memGroup with wait := .watch [0x1480] (watchTest want), parkLen := 8 }
      match testRead (setGroup s 0 { g with poked := false }) g (watchTest want) with
      | (_, .ok l) => some (testHolds (watchTest want) l)
      | _ => none) = [some true, some false] ∧
    (getGroup (watchState (.overflow 0 (watchTest 5))) 0).map (·.wait) = some (.overflow 0 (watchTest 5)) :=
  ⟨issuing_mem _ rfl, issuing_mem _ rfl, by decide +kernel⟩

/-- TransactionBarriers: the barrier at 0x102000, its phase 0; a token that differs and one that does not. -/
theorem witness_transaction_barriers :
    Issuing memState 0 memGroup plainU ∧ Issuing memState 0 memGroup neverU ∧ uniGuard (openedIn memState neverU) neverU 0 = false ∧
    uniGuard (openedIn memState plainU) plainU 0 = true ∧
    (let s0 := placed memState plainU
     let w := whoOf s0 (openedIn memState plainU)
     match translateLeaf s0 w 0x102000 .write with
     | (s1, .ok l, leaf) => !scopeBad s1 w (fun _ => leaf) .dev 0x102000 && !s1.mem.poison.contains (leafPa l 0x102000 / 64) &&
         [0, 5].map (fun n => waitMeets (clearWay s1 0 (leafPa l 0x102000 / 64)) 0
           (openedIn memState plainU) 8 ⟨true, .n32, .ne, .dev, true, .portable, 20, [(0, leafPa l 0x102000 + 8, l.cmp, n)]⟩) ==
           [some (true, false), some (true, true)]
     | _ => false) = true := ⟨issuing_mem _ rfl, issuing_mem _ rfl, by decide +kernel⟩

/-- Mailboxes: full and empty; a group that waits. -/
def mailState (full : Word) (w : Wait) : State :=
  { withGroup { memGroup with wait := w, parkLen := 8 } with teams := [(0, { probeTeam 0 with mbxFull := full })] }

theorem witness_mailboxes :
    Issuing (mailState 1 .none) 0 { memGroup with parkLen := 8 } plain ∧
    srcInRole (roleOf memState memGroup) false (.v 255) = true ∧ dstInRole (roleOf memState memGroup) false false (.v 255) = true ∧
    dstInRole (roleOf memState memGroup) true false (.hi 127) = true ∧
    ((getTeam (mailState 1 .none) 0).map fun t => (t.mbxFull.getLsbD 0, t.mbxFull.getLsbD 31)) = some (true, false) ∧
    (getTeam (releaseAt (placed (mailState 1 .none) plain) 0 0 .team) 0).isSome = true ∧
    (mbxWaiters (mailState 1 (.mbxRead 0 false .portable (.v 10) [0])) 0 0 true).map (·.1) = [0] ∧
    (mbxWaiters (mailState 0 (.mbxWrite 31 7)) 0 31 false).map (·.1) = [0] := ⟨issuing _ _ _ rfl rfl rfl, by decide⟩

/-! Cursors: the two fibres of file 14, A compressed at positions 10–13 with coordinates 1, 4, 7, 9 and extent 12, B a bitmap at
position 20 with bits 0, 4, 5, 9 and 11; their records at 0x102400 and 0x102440, a dense level's at 0x102480 with A for its child,
an appendable one's at 0x1024C0 and, not in memory, a dense one with that child. -/

def levelA : Nat := 12 * 2 ^ 32 + 12 * 2 ^ 27 + 0x21 + 2 ^ 64 * 0x102500 + 2 ^ 128 * 0x102600 + 2 ^ 256 * 0x102700
def levelB : Nat := 12 * 2 ^ 32 + 12 * 2 ^ 27 + 0x2 + 2 ^ 64 * 0x102800 + 2 ^ 192 * 0x102900 + 2 ^ 256 * 0x102A00
def levelP : Nat := 12 * 2 ^ 32 + 12 * 2 ^ 27 + 0x20 + 2 ^ 256 * 0x102B00 + 2 ^ 320 * 0x102400
def levelQ : Nat := 12 * 2 ^ 32 + 12 * 2 ^ 27 + 0x20 + 2 ^ 256 * 0x102B00 + 2 ^ 320 * 0x1024C0
def levelH : Nat := 12 * 2 ^ 32 + 12 * 2 ^ 27 + 0x81 + 2 ^ 64 * 0x102C00 + 2 ^ 128 * 0x104000 + 2 ^ 384 * 0x103000

def curA (pos crd : Nat) : Nat := Cur.pack ⟨1, true, false, false, 0x102400, pos, 10, 14, crd, 0⟩
def curB (pos crd : Nat) : Nat := Cur.pack ⟨2, true, false, false, 0x102440, pos, 0, 25, crd, 0⟩
def curP : Nat := Cur.pack ⟨0, true, false, false, 0x102480, 0, 0, 12, 0, 0⟩
def curH (pos : Nat) : Nat := Cur.pack ⟨1, true, false, true, 0x1024C0, pos, 0, 0, 0, 1⟩

/-- The bytes of the four records, A's positions, coordinates and first value, B's positions and bitmap. -/
def cursorCells : List Host.Cell :=
  [(0x52400, 33), (0x52403, 96), (0x52404, 12), (0x52409, 37), (0x5240A, 16), (0x52411, 38), (0x52412, 16), (0x52421, 39),
    (0x52422, 16), (0x52440, 2), (0x52443, 96), (0x52444, 12), (0x52449, 40), (0x5244A, 16), (0x52459, 41), (0x5245A, 16),
    (0x52461, 42), (0x52462, 16), (0x52480, 32), (0x52483, 96), (0x52484, 12), (0x524A1, 43), (0x524A2, 16), (0x524A9, 36),
    (0x524AA, 16), (0x524C0, 129), (0x524C3, 96), (0x524C4, 12), (0x524C9, 44), (0x524CA, 16), (0x524D1, 64), (0x524D2, 16),
    (0x524F1, 48), (0x524F2, 16), (0x52500, 10), (0x52508, 14), (0x52614, 1), (0x52616, 4), (0x52618, 7), (0x5261A, 9),
    (0x52728, 1), (0x52729, 2), (0x5272A, 3), (0x5272B, 4), (0x5272C, 5), (0x52800, 20), (0x52808, 25), (0x52900, 49),
    (0x52901, 10)]

/-- Lane 0 with cursors c0 to c3 of these values, their records captured; v0:1 holds a record's address. -/
def cursorGroup (a b : Nat) : Group :=
  [(Place.c 0, a), (.cap 0, levelA), (.c 1, b), (.cap 1, levelB), (.c 2, curP), (.cap 2, levelP), (.c 3, curH 5), (.cap 3, levelH),
    (.c 4, curP), (.cap 4, levelQ)].foldl
    (fun g x => setBase g x.1 0 x.2) (loneGroup [0x102400, 0, 0, 5, 0x102E00, 0, 0x1024C0, 0])

def cursorState (a b : Nat) : State := { withGroup (cursorGroup a b) with mem := memWith cursorCells }

/-- The cursors c0, c1 and c5 that an instruction leaves, as position, coordinate and whether done; and the flag in p1. -/
def walked (i : Instr) (a b : Nat) : Option (List (Nat × Nat × Bool) × Nat) :=
  match exec i (cursorState a b) with
  | .next t => (getGroup t 0).map fun g =>
      ([0, 1, 5].map fun c => let x := Cur.unpack (newestAt g (.c c) 0).1; (x.pos, x.crd, x.done), (newestAt g (.p 1) 0).1)
  | _ => none

/-- R370: the table of file 14. -/
theorem test_cisec_first :
    walked (.cisec ⟨plain, 0, 1, false, 1⟩) (curA 10 1) (curB 20 0) = some ([(11, 4, false), (21, 4, false), (0, 0, false)], 1) := by
  decide +kernel

theorem test_cisec_step :
    walked (.cisec ⟨plain, 0, 1, true, 1⟩) (curA 11 4) (curB 21 4) = some ([(13, 9, false), (23, 9, false), (0, 0, false)], 1) ∧
    walked (.cisec ⟨plain, 0, 1, true, 1⟩) (curA 13 9) (curB 23 9) = some ([(14, 12, true), (25, 12, true), (0, 0, false)], 0) := by
  decide +kernel

theorem test_cunion_cseek :
    walked (.cunion ⟨plain, 0, 1, true, 1⟩) (curA 10 1) (curB 20 0) = some ([(10, 1, false), (21, 4, false), (0, 0, false)], 1) ∧
    walked (.cseek plain 0 (.k 5) 1) (curA 10 1) 0 = some ([(12, 7, false), (0, 0, false), (0, 0, false)], 1) := by
  decide +kernel

theorem test_cinit_cdesc :
    walked (.cinit ⟨plain, 5, .v 0, .k 0, 1⟩) 0 0 = some ([(0, 0, false), (0, 0, false), (10, 1, false)], 1) ∧
    walked (.cdesc ⟨plain, 5, 2, 1⟩) 0 0 = some ([(0, 0, false), (0, 0, false), (10, 1, false)], 1) := by decide +kernel

def cursorMeets (h : Hdr) (curs : List (BitVec 4)) (srcs : List (Src × Bool)) (d : Option Dst) (pd : BitVec 3)
    (f : LaneCtx → Wm LaneOut) (s : State) (gid : Nat) (g : Group) : Bool :=
  let o := openIssue s g h
  let part := takingPart o h .w32 s.cycle
  let s0 := occupy (setGroup s gid o) o (beatCount .w32 part)
  let w := whoOf s0 o
  let r := runLanes (fun i => f ⟨o, h, i, s0.cycle + beatOffset .w32 part i⟩) part (Walker.start s0 o) []
  let k := r.1
  let oks := r.2.filterMap fun x => match x.2 with | .ok y => some (x.1, y) | .error _ => none
  let ps := splitWrites k.s w (laneWrites oks)
  let chk := checkAccessKnown k.s w .write k.leaves (ps.map (·.1))
  let g' := noteLoad (oks.foldl (writeLaneOut h pd d chk.1.cycle part) (k.kept.foldl keepRecord o)) k.reads
  let wrote := (oks.filter fun x => !x.2.writes.isEmpty).map (·.1)
  (curs.all fun c => decide (c.toNat < (roleOf s g).curs)) && (srcs.all fun x => srcInRole (roleOf s g) x.2 x.1) &&
    !part.isEmpty && oks.length == r.2.length && (pageErrs chk.2 (ps.map (·.1))).isEmpty && capturesFit chk.1 gid g' &&
    match writeMapped chk.1 w chk.2.map (storeReleases o .rlx .team wrote) ps with
    | (_, .done) => true
    | _ => false

theorem issuing_cursor (a b : Nat) (h : Hdr) (n : h.sp = none) : Issuing (cursorState a b) 0 (cursorGroup a b) h :=
  issuing _ _ _ rfl rfl n

/-- CursorSetup: CINIT of A. -/
theorem witness_cursor_setup :
    Issuing (cursorState 0 0) 0 (cursorGroup 0 0) plain ∧ Issuing (cursorState 0 0) 0 (cursorGroup 0 0) never ∧
    takingPart (openedIn (cursorState 0 0) never) never .w32 0 = [] ∧
    cursorMeets plain [15] [(.v 0, true), (.k 0, false)] none 1 (fun c => do
      let ra := BitVec.ofNat 64 (c.src 64 (.v 0))
      let v ← captureRecord ra
      let cur ← enterFibre (Lvl.ofNat v) ra (c.src 32 (.k 0))
      return { LaneOut.empty with curs := [curOut 15 cur v], flag := !cur.done }) (cursorState 0 0) 0 (cursorGroup 0 0) = true ∧
    (let c : LaneCtx := ⟨openedIn (cursorState 0 0) plain, plain, 0, 0⟩
     let r := ((c.record 2 (c.cur 2)).run (Walker.start (cursorState 0 0) c.g) : Except CErr Nat × Walker).1
     (c.cur 2).valid && !(c.cur 2).append && match r with
       | .ok v => (Lvl.ofNat v).kind == (c.cur 2).kind
       | .error _ => false) = true :=
  ⟨issuing_cursor _ _ _ rfl, issuing_cursor _ _ _ rfl, by decide +kernel⟩

/-- CursorAdvance: CNEXT of A. -/
theorem witness_cursor_advance :
    Issuing (cursorState (curA 10 1) 0) 0 (cursorGroup (curA 10 1) 0) plain ∧
    cursorMeets plain [0] [] none 1 (fun c => do
      let x ← c.readCur 0
      let cur ← stepCursor (Lvl.ofNat x.2) x.1
      return { LaneOut.empty with curs := [curOut 0 cur x.2], flag := !cur.done }) (cursorState (curA 10 1) 0) 0
      (cursorGroup (curA 10 1) 0) = true := ⟨issuing_cursor _ _ _ rfl, by decide +kernel⟩

/-- CursorElements: CSTV of A's first element; the record and the bytes that CVAL reads. -/
theorem witness_cursor_elements :
    Issuing (cursorState (curA 10 1) 0) 0 (cursorGroup (curA 10 1) 0) plain ∧
    cursorMeets plain [0] [(.v 3, false)] none 7 (fun c => do
      let role := roleOf (← get).s c.g
      let r ← c.readWith 0 fun l => throwIf (l.vw == 8 && (oddSrc (.v 3) || !srcInRole role true (.v 3))) .illegal
      let l := Lvl.ofNat r.2
      return { LaneOut.empty with
        writes := if r.1.done then [] else [(valueAddr l r.1, leBytes l.vw (c.src (if l.vw = 8 then 64 else 32) (.v 3)))] })
      (cursorState (curA 10 1) 0) 0 (cursorGroup (curA 10 1) 0) = true ∧
    cursorMeets plain [0] [] (some (.v 10)) 7 (fun c => do
      let r ← c.readCur 0
      return { LaneOut.empty with val := r.1.crd }) (cursorState (curA 10 1) 0) 0 (cursorGroup (curA 10 1) 0) = true ∧
    (let s := cursorState (curA 10 1) 0
     let o := openedIn s plain
     let s0 := occupy (setGroup s 0 o) o 1
     let r := runLanes (fun i => do
       let r ← (⟨o, plain, i, 0⟩ : LaneCtx).readWith 0 fun l => throwIf (l.vw == 8 && oddDst (.v 10)) .illegal
       return { LaneOut.empty with val := r.2 }) [0] (Walker.start s0 o) []
     let got := laneReads r.1.s (whoOf s0 o) r.1.leaves
       [⟨0, .glob (valueAddr (Lvl.ofNat levelA) (Cur.unpack (curA 10 1))), 4, none, false⟩]
     (match r.2 with
       | [(0, .ok y)] => y == { LaneOut.empty with val := levelA }
       | _ => false) && got.2.1.isEmpty && got.2.2.1.map (fun x => leNat x.2) == [0x04030201] &&
       capturesFit got.1 0 (r.1.kept.foldl keepRecord o)) = true := ⟨issuing_cursor _ _ _ rfl, by decide +kernel⟩

/-- CursorImages: CSAVE to 0x102E00; an image that CREST accepts. -/
theorem witness_cursor_images :
    cursorMeets plain [0] [(.v 4, true)] none 7 (fun c => do
      let va := imageAddr c (.v 4) 0
      if va.toNat % 32 ≠ 0 then throw (.mis va)
      let cur := c.cur 0
      return { LaneOut.empty with
        curs := if cur.valid && cur.append then [curOut 0 Cur.none 0] else [], writes := [(va, leBytes 32 cur.pack)] })
      (cursorState (curA 10 1) 0) 0 (cursorGroup (curA 10 1) 0) = true ∧
    imageOk (Cur.unpack (curA 10 1)) = true ∧ imageOk (Cur.unpack 0) = true ∧
    (let s := cursorState 0 0
     let o := openedIn s plain
     let s0 := occupy (setGroup s 0 o) o 1
     let va := imageAddr ⟨o, plain, 0, 0⟩ (.v 4) 0
     let r := laneReads s0 (whoOf s0 o) [] [⟨0, .glob va, 32, none, false⟩]
     va.toNat % 32 == 0 && r.2.1.isEmpty && r.2.2.1.all fun x => imageOk (Cur.unpack (leNat x.2))) = true := by decide +kernel

/-- The append cursor's chunk bound to the scratchpad, so that no page is translated a second time. -/
def chunkState : State :=
  { cursorState 0 0 with mem := { (cursorState 0 0).mem with
      windows := [⟨0, 1, 0, 0, 0x104000, 0x1000, false, .own, .team, [(0x10, pageLeaf)], [], [], []⟩] } }

/-- CursorAppend: CFIN of the append cursor; CAPP of the word 5 at coordinate 4; a group that waits for a captured record. -/
theorem witness_cursor_append :
    Issuing (cursorState 0 0) 0 (cursorGroup 0 0) plain ∧ Issuing chunkState 0 (cursorGroup 0 0) plain ∧
    cursorMeets plain [3] [] none 7 (fun c => do
      let r ← c.appCur 3
      let pair := if r.1.aux % 2 = 0 then (0, 0) else (r.1.lo, r.1.pos)
      return { LaneOut.empty with
        curs := [curOut 3 Cur.none 0]
        writes := [(BitVec.ofNat 64 ((Lvl.ofNat r.2).posa + 16 * r.1.hi), leBytes 8 pair.1 ++ leBytes 8 pair.2)] })
      (cursorState 0 0) 0 (cursorGroup 0 0) = true ∧
    (let o := openedIn chunkState plain
     let s0 := occupy (setGroup chunkState 0 o) o 1
     let r := runLanes (fun i => do
       let r ← (⟨o, plain, i, 0⟩ : LaneCtx).appWith 3 fun l => throwIf (l.vw == 8 && oddSrc (.v 3)) .illegal
       return { LaneOut.empty with val := r.2 }) [0] (Walker.start s0 o) []
     let k := r.1
     let w := whoOf k.s o
     let x : AppLane := ⟨0, Cur.unpack (curH 5), levelH, 4, 5⟩
     let ps := (x.known 0).flatMap (piecesOf k.s w)
     let c := checkAccessKnown k.s w .write k.leaves ps
     let gr := k.kept.foldl keepRecord o
     let q := grantLanes w c.2.map [x] (storeReleases o .rlx .team [0] c.1) []
     let gp := payOwed gr [0]
     let ps2 := splitWrites q.1 (whoOf q.1 gp) x.writes
     let c2 := checkAccessKnown q.1 (whoOf q.1 gp) .write c.2.leaves (ps2.map (·.1))
     ((match r.2 with
        | [(0, .ok y)] => y == { LaneOut.empty with val := levelH }
        | _ => false) &&
       (pageErrs c.2 ps).isEmpty && (heapScope c.1 w c.2.leaves 0 [x]).isEmpty && (heapLost c.1 c.2.map 0 [x]).isEmpty &&
       capturesFit c.1 0 gr && !x.needs && q.2 == [(x, .ok x)] && (c2.2.stops (ps2.map (·.1))).isNone &&
       match writeMapped c2.1 (whoOf q.1 gp) c2.2.map id ps2 with
       | (_, .done) => true
       | _ => false)) = true ∧
    pinned (cursorState 0 0) 0 < 512 := ⟨issuing_cursor _ _ _ rfl, issuing _ _ _ rfl rfl rfl, by decide +kernel⟩

/-- An instruction ends after its words: no wait, no handler, no end of the context. -/
def completes (i : Instr) (len : Nat) (s : State) : Bool :=
  match exec i s with
  | .next t => match getGroup t 0 with
    | some g => g.pc == 0x100000 + BitVec.ofNat 64 len && g.wait == .none
    | none => false
  | _ => false

/-- The cursor instructions that the witnesses above do not run. -/
theorem test_cursor_completions :
    ([.cinitApp ⟨plain, 5, .v 6, .k 0, 1⟩, .cdescApp ⟨plain, 5, 4, 1⟩, .ccrd ⟨plain, 0, .v 10⟩, .cpos ⟨plain, 0, .v 10⟩,
      .cdone plain 0 2, .cmov plain 5 0] : List Instr).map (fun i => completes i 8 (cursorState (curA 10 1) 0)) =
      [true, true, true, true, true, true] := by decide +kernel

/-! ### Tiles, the matrix queue -/

/-- A matrix-queue entry of group 0. -/
def matEntry (op : MatOp) : MatEntry := ⟨7, 0, 0, 0, 0, op, 0, 0, [(0x10, pageLeaf)], none, [], 0⟩

/-- The memory state with these matrix entries on core 0. -/
def matState (l : List MatEntry) : State := { memState with cores := [(0, { Core.reset with mat := l })] }

/-- TilesAndAccumulators, MatrixIssue, Batches: allocations at their edge, nothing named by the queue, room in it; a format each form
accepts; a batch that is outstanding, one that is not, none. -/
theorem witness_matrix_issue :
    Issuing memState 0 memGroup plain ∧ Issuing memState 0 memGroup never ∧
    tileOk (roleOf memState memGroup) 15 = true ∧ accOk (roleOf memState memGroup) 7 = true ∧
    accMoveOk ⟨plain, 252, 7, true, 60, 3⟩ (roleOf memState memGroup) = true ∧
    namedBy memState 0 (openedIn memState plain) (some 15) (some 7) = false ∧ queueFull (getCore memState 0) .mat = false ∧
    mmaAccepts 0 false = true ∧ mmaAccepts 0x31A00000 true = true ∧ fmtAcc 0 = false ∧
    (let s0 := setGroup memState 0 (openedIn memState plain)
     let o := openedIn memState plain
     let ps := ((lineAddrs 0x102000 32 64).map lineItem).flatMap (piecesOf s0 (whoOf s0 o))
     let k := (checkAccess s0 (whoOf s0 o) .read ps).2
     k.bad.isEmpty && (walkLost k.map).isNone) = true ∧
    outstanding (getCore (matState [matEntry (.tasm 0 false [] 1)]) 0) 0 0 = true ∧
    outstanding (getCore memState 0) 0 0 = false ∧ batchNumbered 0 1 = none ∧ batchNumbered 3 1 = some 0 :=
  ⟨issuing_mem _ rfl, issuing_mem _ rfl, by decide +kernel⟩

/-- MatrixIssue, TASM: lane 0 gathers A's values as a 32-bit format does not fit, so those of a level of bytes. -/
def byteLevel : Nat := 12 * 2 ^ 32 + 17 * 2 ^ 27 + 0x20 + 2 ^ 256 * 0x102B00

theorem witness_tasm :
    ((runLanes (fun i => gatherLane ⟨openedIn (cursorState 0 0) plain, plain, i, 0⟩ 5 (.k 0) 8) [0]
        (let s := setGroup (cursorState 0 0) 0 (setBase (setBase (cursorGroup 0 0) (.c 5) 0 curP) (.cap 5) 0 byteLevel)
         Walker.start s (cursorGroup 0 0)) []).2.all fun x => match x.2 with | .ok _ => true | .error e => e == .state)
      = true := by decide +kernel

/-- MatrixPerforming: a TLD whose lines are read, a TST, a TASM, an ACVT and an MMA that may start, an entry that retires. -/
theorem witness_matrix_performing :
    (([.tld 0 0x102000 32 2, .tst 0 0x102000 32 2, .tasm 0 false [1, 2] 1, .acvt 0 0 0 .bf16, .mma 0 0 1 none 1 1] : List MatOp).all
      fun op => match nextEntry (getCore (matState [matEntry op]) 0) with
        | some (b, e, _) => matMayStart (matState [matEntry op]) 0 b e && (entryGroup (matState [matEntry op]) 0 e.gid).isSome
        | none => false) = true ∧
    (match readRuns memState (whoOf memState memGroup) (leafMap [(0x10, pageLeaf)]) [lineItem 0x102000] with
      | (_, .ok l) => l.length == 1
      | _ => false) = true ∧
    (writeRuns memState (whoOf memState memGroup) (leafMap [(0x10, pageLeaf)])
      [(lineItem 0x102000, List.replicate 32 0)]).2 = true ∧
    fillsPoison memState (whoOf memState memGroup) [(lineItem 0x102000, List.replicate 32 0)] (lineItem 0x102000).sec = none ∧
    (classOf 0).isSome = true ∧
    ((getCore (matState [{ matEntry (.tasm 0 false [] 1) with finish := some 0 }]) 0).mat.find? fun e =>
      match e.finish with | some t => decide (t ≤ 0) | none => false).isSome = true := by decide +kernel

/-- File 04: the term counts of a row with the T8 codes 0xB5, 0x40, 0x5C. -/
theorem test_term_counters :
    (let g := { memGroup with tiles := [(0, 0xB5), (1, 0x40), (2, 0x5C)] }
     let s := { matState [{ matEntry (.mma 0 0 1 none 1 1) with fmt := 0x31800000 }] with groups := [(0, g)] }
     match exec (.mmaExecute 0) s with
     | .next t => (getCore t 0).mat.map fun e => (e.finish, e.terms)
     | _ => []) = [(some 15, [6, 3, 18, 3])] := by decide +kernel

/-- File 08: one element of a block under its scales: 1.5 under 0x7C and 0x84; 1 under 0xFE and 0xFE, also with fmt.SAT; 1 under 0x00
and 0x00; a scale of NaN. -/
theorem test_block_scales :
    ([(0x31A00000, 0x7C, 0x84, 0x48, 0), (0x31A00000, 0xFE, 0xFE, 0x40, 0), (0x31A20000, 0xFE, 0xFE, 0x40, 0),
      (0x31A00000, 0, 0, 0x40, 0), (0x31A00000, 0xFF, 0x7F, 0x40, 0x40400000)].map fun x =>
      mmaElem x.1 .narrow .t8 .e4m3 (fun _ => blockScale x.2.1 x.2.2.1) x.2.2.2.2 (x.2.2.2.1 :: List.replicate 31 0)
        (0x38 :: List.replicate 31 0)) = [0x40C00000, 0x7F800000, 0x7F7FFFFF, 0, 0x7FC00000] := by decide +kernel

/-- File 08: the generator at 1 rounds 5 to the T6 code 0x19. -/
theorem test_stochastic_store : froundSr .t6 false 1 (.fin false 5 0) = (0x19, 0x00042021) := by decide +kernel

/-! ### Engines, rings and the system -/

/-- A second page, 0x110000, mapped to the frame of 0x60000; a block at 0x102000 whose stamp lies there; rings 3 of stage 0. -/
def engState : State :=
  { memState with
    mem := memWith [(0x40088, 0x8F), (0x40089, 1), (0x52002, 0x11)]
    grids := [(0, { probeGrid with stage := some 0 })]
    rings := [⟨0, 3, 0x103000, 0, 4, 4, 0, 1, 2, 1, 0, 0, [], []⟩]
    queues := [(5, ⟨0x200000, 0x201000, 0x201008, 4, true, false, 0⟩), (6, ⟨0, 0, 0, 4, true, false, 9⟩)]
    vfs := [(0, ⟨0, 0, [], none, 0, [], []⟩)] }

def engGroup : Group := memGroup

def blockMeets (s : State) (va : DWord) (n : Nat) : Bool :=
  match fetchBlock (setGroup s 0 (openedIn s plain)) (openedIn s plain) 0 va n with
  | (_, .ok (b, p, _)) => b.length == n && p.pa == 0x60000
  | _ => false

/-- EnginesAndLaunch: blocks of 64 and 128 bytes; room in every queue; no open copy; a queue with a context and one without. -/
theorem witness_engines :
    Issuing engState 0 engGroup plain ∧ Issuing engState 0 engGroup never ∧
    dstInRole (roleOf engState engGroup) false true (.v 254) = true ∧ dstInRole (roleOf engState engGroup) true true (.hi 127) = true ∧
    actsIn (openedIn engState plain) plain 0 = some 0 ∧ actsIn (openedIn engState never) never 0 = none ∧
    ([Queue.cpy, .dec, .sto, .root, .ring, .mat].all fun q => !queueFull (getCore engState 0) q) = true ∧
    ([0xC0, 0xC1, 0xC4, 0xC5, 0xC6, 0xC7].all fun n => !engineDead engState (engineOf 0 n)) = true ∧
    blockMeets engState (blockAddr (openedIn engState plain) plain 6 none 0) 64 = true ∧
    blockMeets engState (blockAddr (openedIn engState plain) plain 7 (some 0x102000) 0) 128 = true ∧
    (queueCtx engState ⟨0x200000, 0x201000, 0x201008, 4, true, false, 0⟩).isSome = true ∧
    (queueCtx engState ⟨0, 0, 0, 4, true, false, 9⟩) = none ∧ tget engState.queues 7 = none ∧
    (match readBlock (setGroup engState 0 (openedIn engState plain)) (openedIn engState plain) 0 0x102000 128 with
      | (_, .ok (b, _)) => b.length == 128
      | _ => false) = true := ⟨issuing _ _ _ rfl rfl rfl, issuing _ _ _ rfl rfl rfl, by decide +kernel⟩

/-- An open copy that counts group 0, and one that does not. -/
theorem witness_copy_slices :
    (let e : Entry := ⟨9, 0xC0, 0, 0, 0, 0, List.replicate 64 0, ⟨0x60000, pageLeaf⟩, [], none, [⟨0, List.replicate 64 0⟩], [0], false,
      .waiting, [], [], none, [], 0, 0, 0, 0, 0⟩
     (takesSlice engGroup 0 (List.replicate 64 0) e, takesSlice engGroup 1 (List.replicate 64 0) e)) = (true, false) := by
  decide +kernel

/-- Rings: as many slots as the ring has and one more; entries that perform, wait and are refused. -/
def ringEntry (op first n : Nat) : RingEntry := ⟨9, op, 0, 0, 0x100000, 0, 3, first, n, none⟩
def ringState (e : RingEntry) : State := { engState with cores := [(0, { Core.reset with ring := [e] })] }

theorem witness_rings :
    ringOk (setGroup engState 0 (openedIn engState plain)) (openedIn engState plain) 0 3 4 = true ∧
    ringOk (setGroup engState 0 (openedIn engState plain)) (openedIn engState plain) 0 3 5 = false ∧
    ringOk (setGroup engState 0 (openedIn engState plain)) (openedIn engState plain) 2 3 1 = false ∧
    ([ringEntry 0 0 1, ringEntry 0 0 3, ringEntry 1 1 1, ringEntry 1 5 1, ringEntry 2 0 1, ringEntry 2 0 2].map fun e =>
      (fencesAllow (getCore (ringState e) 0) .ring e.id,
        match entryRing (ringState e) e with
        | some r => (earlierAsk (askRing (ringState e) 0 e).1 (askRing (ringState e) 0 e).2 r, match ringAct r e with | .wait => 0 | .done _ _ => 1 | .bad => 2)
        | none => (true, 3))) =
      [(true, false, 1), (true, false, 0), (true, false, 1), (true, false, 2), (true, false, 1), (true, false, 0)] ∧
    (let s := { ringState (ringEntry 0 0 1) with groups := [(0, { memGroup with wait := .trap ⟨4, 0, 0, 1, []⟩ })] }
     (getGroup s 0).map fun g => (g.wait, g.core, ringOwes s 0 g)) = some (.trap ⟨4, 0, 0, 1, []⟩, 0, true) := by
  decide +kernel

/-- SystemInstructions and TrapsBreakpointsAndWaitt: sources of the role; a context that is privileged and one that is not; a value that
is a multiple of 8 and one that is not; debugging on and off; deadlines before and after now. -/
theorem witness_system :
    Issuing memState 0 memGroup plain ∧ Issuing memState 0 memGroup plainU ∧
    srcInRole (roleOf memState memGroup) true (.v 254) = true ∧
    debugOn memState memGroup = false ∧
    debugOn { memState with parts := [(0, { probePartition with body := { probePartition.body with debug := true } })] } memGroup = true ∧
    readSrc (openedIn memState plain) plain 0 0 64 (.s 6) % 8 = 0 ∧ readSrc (openedIn memState plain) plain 0 0 64 (.s 9) % 8 = 7 ∧
    (readSrc (openedIn memState plain) plain 0 0 64 (.s 0) ≤ timeOf memState) ∧
    (timeOf memState < readSrc (openedIn memState plain) plain 0 0 64 (.s 6)) ∧
    (getGroup (watchState (.deadline 1 false (.v 10) [0])) 0).map (·.wait) = some (.deadline 1 false (.v 10) [0]) ∧
    timeOf memState < 1 ∧ 1 ≤ timeOf { memState with cycle := 2100 } := ⟨issuing_mem _ rfl, issuing_mem _ rfl, by decide⟩

/-! ### Entries that perform -/

/-- Pages 0x110000 and 0x120000 at the frames of 0x60000 and 0x70000, 0x130000 in the second stack; at 0x102100 the bytes
"123456789", at 0x102180 the Deflate stream of "abc", stored. -/
def perfMem : Mem :=
  memWith [(0x40088, 0x8F), (0x40089, 1), (0x40090, 0xCF), (0x40091, 1), (0x40098, 0x0F), (0x4009B, 4),
    (0x52100, 0x31), (0x52101, 0x32), (0x52102, 0x33), (0x52103, 0x34), (0x52104, 0x35), (0x52105, 0x36), (0x52106, 0x37),
    (0x52107, 0x38), (0x52108, 0x39), (0x52180, 1), (0x52181, 3), (0x52183, 0xFC), (0x52184, 0xFF), (0x52185, 0x61),
    (0x52186, 0x62), (0x52187, 0x63)]

/-- A block of bytes at offsets. -/
def blockOf (n : Nat) (l : List (Nat × Nat)) : List Byte := leBytes n (l.foldl (fun a x => a + x.2 * 2 ^ (8 * x.1)) 0)

/-- An entry of team 0 with its stamp at 0x60000. -/
def perfEntry (opc : Nat) (b : List Byte) : Entry :=
  ⟨9, opc, 0, 0, 0, 0, b, ⟨0x60000, pageLeaf⟩, [], none, [⟨0, b⟩], [], false, .waiting, [], [], none, [], 0, 0, 0, 0, 0⟩

/-- Core 0 with one entry in the queue that takes its opcode. -/
def perfState (q : Queue) (e : Entry) : State :=
  { memState with
    mem := perfMem
    parts := [(0, { probePartition with body := { probePartition.body with granules := 0xFFFFFFFFFFFFFFFF } })]
    cores := [(0, match q with
      | .cpy => { Core.reset with cpy := [e] }
      | .dec => { Core.reset with dec := [e] }
      | .sto => { Core.reset with sto := [e] }
      | _ => { Core.reset with root := [e] })] }

/-- What the front entry leaves: whether it could start, its stamp, the eight bytes at 0x70000. -/
def performed (i : Instr) (q : Queue) (opc : Nat) (b : List Byte) : Bool × Nat × Nat :=
  let e := perfEntry opc b
  let s := perfState q e
  let ready := frontEntry (entriesOf (getCore s 0) q) == some e && e.runnable && entryMayStart s 0 q e
  match exec i s with
  | .next t => (ready && (entriesOf (getCore t 0) q).isEmpty, leNat (crange t.mem.dram 0x60000 8), leNat (crange t.mem.dram 0x70000 8))
  | _ => (false, 0, 0)

/-- EnginesPerform and R428: an empty copy ends well; a COLL of 2 is refused with detail 3. SEQ is 5. -/
theorem test_cpy_performs :
    performed (.cpyPerform 0) .cpy 0xC0 (blockOf 64 [(8, 5), (0x10, 0x102100), (0x18, 0x120000)]) = (true, 5, 0) ∧
    performed (.cpyPerform 0) .cpy 0xC0 (blockOf 64 [(8, 5), (0x2C, 2)]) = (true, 2 ^ 48 * (2 ^ 12 + 3) + 5, 0) := by
  decide +kernel

/-- R433: the CRC-32C of "123456789" is 0xE3069283. -/
theorem test_csum_performs :
    performed (.csumPerform 0) .cpy 0xC3 (blockOf 64 [(8, 5), (0x10, 0x102100), (0x18, 0x120000), (0x20, 9)]) =
      (true, 5, 0xE3069283) := by decide +kernel

/-- R430, R432: one byte of a box moved from memory to the tensor; one FP32 value, 0x34333231 (1.66893e-7), converted to E4M3, which
rounds it to zero. -/
theorem test_cpyt_cpyc_perform :
    performed (.cpytPerform 0) .cpy 0xC1 (blockOf 128 [(8, 5), (0x10, 0x120000), (0x18, 0x102100), (0x30, 1), (0x34, 1), (0x38, 1),
      (0x3C, 1), (0x40, 1), (0x44, 1), (0x48, 1), (0x4C, 1), (0x71, 1)]) = (true, 5, 0x31) ∧
    performed (.cpycPerform 0) .cpy 0xC2 (blockOf 64 [(8, 5), (0x10, 0x102100), (0x18, 0x120000), (0x20, 0x110008), (0x28, 1),
      (0x2C, 12), (0x2D, 17), (0x2E, 12), (0x2F, 1)]) = (true, 5, 0) := by decide +kernel

/-- R434, R435: the stored block gives "abc". -/
theorem test_decq_performs :
    (performed (.decqPerform 0) .dec 0xC4 (blockOf 64 [(8, 5), (0x10, 0x102180), (0x18, 8), (0x20, 0x120000), (0x28, 16), (0x30, 0x110010)]))
      = (true, 5, 0x636261) := by decide +kernel

/-- R438: an operand in two stacks is refused with detail 5. -/
theorem test_root_entries_refused :
    performed (.topkPerform 0) .root 0xC7 (blockOf 64 [(8, 5), (0x10, 0x12FFC0), (0x20, 0x102000), (0x28, 0x110008), (0x30, 32), (0x32, 1),
      (0x34, 1)]) = (true, 2 ^ 48 * (2 ^ 12 + 5) + 5, 0) ∧
    performed (.rmvPerform 0) .root 0xC8 (blockOf 64 [(8, 5), (0x10, 0x12FFC0), (0x20, 0x110008), (0x28, 1), (0x2C, 128), (0x30, 128)]) =
      (true, 2 ^ 48 * (2 ^ 12 + 5) + 5, 0) := by decide +kernel

/-! ### Storage, peers, the scheduler -/

/-- Partition 0 with every granule, a fault queue at 0x80000, save slots of 1 MiB at 0x200000, peer 1 and namespace 0 bound,
peer 2 bound and failed, peer 3 not bound. -/
def fullPartition : Partition :=
  { probePartition with
    body := ⟨1, 0xFFFFFFFFFFFFFFFF, 0, 4, true, 0x80000, 4, 0x81000, 0x81008, 0x81010, 0x200000, 20, 2, 0, none, true, [], []⟩
    binds := [(1, .peer 0 0 0 1 0 0 true), (2, .peer 0 0 0 1 0 0 true), (256, .ns 0 1 12 1 4 100 true false)]
    failed := [2] }

def fullState : State := { memState with parts := [(0, fullPartition)] }

/-- Core 0 with these storage entries. -/
def stoState (l : List Entry) : State := { fullState with cores := [(0, { Core.reset with sto := l })] }

/-- The block of a read of one 4 KiB block into 0x110000, by namespace; of a put to a peer. -/
def stqBlock (ns : Nat) : List Byte := blockOf 64 [(8, 5), (0x0F, 2), (0x10, 0x110000), (0x20, ns)]
def netqBlock (peer : Nat) : List Byte := blockOf 64 [(8, 5), (0x20, 64), (0x24, peer)]

/-- STQ_SUBMIT and NETQ_PERFORM: a block out of its limits, no binding, a binding; a peer that failed. -/
theorem witness_storage :
    (([perfEntry 0xC5 (blockOf 64 [(0x0F, 9)]), perfEntry 0xC5 (stqBlock 1), perfEntry 0xC5 (stqBlock 0)] : List Entry).map fun e =>
      (nextStq (getCore (stoState [e]) 0).sto == some e, entryMayStart (stoState [e]) 0 .sto e, stqOk e.block,
        (nsBinding (stoState [e]) 0 (field e.block 0x20 2)).isSome, stqHeld (stoState [e]) 0 e)) =
      [(true, true, false, true, false), (true, true, true, false, false), (true, true, true, true, false)] ∧
    (let e := perfEntry 0xC5 (stqBlock 0)
     let started (n id : Nat) : List Entry :=
       (List.range n).map fun i => { perfEntry 0xC5 (blockOf 64 [(0x0F, 2), (0x10, 0x118000), (0x18, 9)]) with id := id + i, st := .started }
     ([started 3 1, started 4 1, [{ e with id := 1, st := .started }]].map fun l =>
       let s := stoState (l ++ [e])
       (nextStq (getCore s 0).sto == some e, entryMayStart s 0 .sto e, (getCore s 0).sto.any fun x => stqBlocks s x e,
         decide (nsDepth s e ≤ outstandingAt s e)))) =
      [(true, true, false, false), (true, true, false, true), (true, true, true, false)] ∧
    (([perfEntry 0xC6 (blockOf 64 [(0x20, 0)]), perfEntry 0xC6 (netqBlock 3), perfEntry 0xC6 (netqBlock 2), perfEntry 0xC6 (netqBlock 1)] :
      List Entry).map fun e =>
      (frontEntry (getCore (stoState [e]) 0).sto == some e, netqOk e.block, peerBound (stoState [e]) 0 (field e.block 0x24 2),
        peerFailed (stoState [e]) 0 (field e.block 0x24 2))) =
      [(true, false, false, false), (true, true, false, false), (true, true, true, true), (true, true, true, false)] := by
  decide +kernel

/-- NVME_COMPLETION, NETQ_ACK, RDMA_ACK_TIMEOUT at 6 and at 7 retries, ENGINE_ENTRY_PARK. -/
theorem witness_peers :
    (([{ perfEntry 0xC5 (stqBlock 0) with st := .started }, { perfEntry 0xC6 (netqBlock 1) with st := .started, retries := 6 },
      { perfEntry 0xC6 (netqBlock 1) with st := .started, retries := 7 }] : List Entry).map fun e =>
      let s := { stoState [e] with cycle := ackTimeout }
      (storageEntry s 9 == some (0, e), decide (e.since + ackTimeout ≤ s.cycle), blockOp e.block != 1)) =
      [(true, true, true), (true, true, true), (true, true, true)] ∧
    (let e := { perfEntry 0xC5 (stqBlock 0) with st := .faulting 0x900000 1 }
     frontEntry (entriesOf (getCore (stoState [e]) 0) .sto) == some e) = true := by decide +kernel

/-- BinsAndRendezvous: a bin whose timer has come, one closed with room for its launch; a host and a donor; the window over. -/
def launchBinState (till : Option Nat) : State :=
  { binState (loneGroup []) with cores := [(0, { Core.reset with bins := [(3, ⟨0, 0, 0x100080, [⟨0, [7]⟩, ⟨1, [8]⟩], till, none⟩)] })] }

theorem witness_bins :
    (tget (getCore (launchBinState (some 0)) 0).bins 3).map (fun b => (b.till, mayLaunch (launchBinState (some 0)) 0 b)) = some (some 0, true) ∧
    (tget (getCore (launchBinState none) 0).bins 3).map (fun b => (b.till, mayLaunch (launchBinState none) 0 b, (getTeam (launchBinState none) 0).isSome)) =
      some (none, true, true) ∧
    (let w : Wait := .paired 0 1 2 1
     let s := { pairState with groups := pairState.groups.map fun e => (e.1, { e.2 with wait := w }) }
     (pairReady s 0 1, (getGroup s 0).map (·.wait), (getGroup s 1).map (·.wait))) = (true, some (.paired 0 1 2 1), some (.paired 0 1 2 1)) ∧
    (let s := { pairState with cycle := 256, groups := pairState.groups.map fun e => (e.1, { e.2 with wait := .regroup 2 1 }) }
     (getGroup s 0).map fun g => (g.wait, decide (g.waitSince + 256 ≤ s.cycle), g.pend.length, ringOwes s 0 g)) =
      some (.regroup 2 1, true, 0, false) := by decide +kernel

/-- ActiveSets: group 0 in slice 0 with a long stall, group 1 pending and ready for 8,192 cycles. -/
def setsState : State :=
  { memState with
    cycle := 8192
    groups := [(0, { memGroup with wait := .mbxRead 0 false .portable (.v 10) [] }), (1, { memGroup with slice := none })] }

theorem witness_active_sets :
    stalled setsState 0 { memGroup with wait := .mbxRead 0 false .portable (.v 10) [] } = true ∧
    (pendingReady setsState 0).map (·.1) = some 1 ∧ sliceSize setsState 0 3 < 8 ∧
    pendingOld setsState 1 { memGroup with slice := none } = true ∧
    (firstBy (fun x => (if stalled setsState x.1 x.2 then setsState.cycle else x.2.lastStall) :: x.2.age :: issueKey setsState x.2)
      (setsState.groups.filter fun e => e.2.core == 0 && e.2.slice.isSome)).map (·.1) = some 0 := by decide +kernel

/-- Launching: queue 5, its tail word in one page and its head word in another, the tail 0, 1 or 17 blocks ahead; a block whose waits are
met and which is refused or accepted; a launch that ages; a team to be placed, of a plain launch and of a stage. -/
def queueCells (tail : BitVec 8) : List Host.Cell :=
  [(0x40088, 0x8F), (0x40089, 1)] ++ (if tail = 0 then [] else [(0x52000, tail)]) ++
    [(0x52202, 0x10), (0x52208, 8), (0x52209, 12), (0x5220A, 4), (0x5220B, 1), (0x5220D, 16), (0x52220, 1), (0x52221, 1)]

def queueState (tail : BitVec 8) : State :=
  { fullState with
    mem := memWith (queueCells tail)
    queues := [(5, ⟨0x110000, 0x102000, 0x110008, 4, true, false, 0⟩)]
    vfs := [(0, ⟨0, 0, [], none, 0, [], []⟩)] }

def waitingGrid (kdesc teams : Nat) : Grid :=
  { probeGrid with queue := 5, block := blockOf 128 [(0, kdesc), (8, teams)], st := .read, placed := 0, teams := 0 }

theorem witness_launch_queue :
    (([0, 1, 17] : List (BitVec 8)).map fun n =>
      match queueWord (tailRead (queueState n) 5) (scheduler 0 0) 0x102000 with
      | (s1, .ok t) => (match queueWord s1 (scheduler 0 0) 0x110008 with
        | (_, .ok h) => (t + 2 ^ 64 - h) % 2 ^ 64
        | _ => 99)
      | _ => 99) = [0, 1, 17] ∧ isFrozen (queueState 0) 0 = false := by decide +kernel

theorem witness_blocks :
    (([waitingGrid 0x102200 0, waitingGrid 0x102200 1] : List Grid).map fun g =>
      let s := { queueState 0 with grids := [(3, g)] }
      (heldBack s 3 g, waitsMet s g, match ((lmLaunch 3 g false 20).run (testWaits g.waits s).1).1 with | .ok _ => 0 | .error d => d)) =
      [(false, true, 3), (false, true, 0)] := by decide +kernel

theorem witness_placing :
    (let g := { probeGrid with st := .eligible, placed := 0 }
     let s := { fullState with grids := [(3, g)], groups := [], teams := [], cycle := 21000000 }
     wantsPlace s 3 g && teamFits s g 0 && freeSlot s 0 == some 0 && g.stage.isNone && g.deadline.isNone &&
       decide (g.placed < g.teams) && decide (g.agedAt + 21000000 ≤ s.cycle) && wantsPlace s 3 { g with stage := some 1 }) = true := by
  decide +kernel

/-- EndsAndSplits: a team without groups; a grid all of whose teams have ended; a timed team past its budget; a core of another split. -/
theorem witness_ends :
    (let s := { fullState with groups := [] }
     teamDone s 0 (probeTeam 0) && (tget (removeTeam (dropWindows false s 0) 0).grids 0).isSome) = true ∧
    gridDone { fullState with groups := [], teams := [] } 0 { probeGrid with endedTeams := 1 } = true ∧
    (let s := { fullState with grids := [(0, { probeGrid with deadline := some 0, block := blockOf 128 [(0x70, 1)] })], cycle := 1 }
     (tget (endTeam s 0 16).grids 0).isSome && decide ((probeTeam 0).placedAt + field (blockOf 128 [(0x70, 1)]) 0x70 4 ≤ s.cycle)) = true ∧
    (let g := { probeGrid with placed := 0, kernel := { probeKernel with split := ⟨10, 10, 4⟩ } }
     let s := { fullState with groups := [], teams := [], grids := [(0, g)] }
     drainOk s 0 0 g && coreEmpty s 0) = true := by decide +kernel

/-- StoppingAndSaving: a running team; a group asked 100 us ago; a team whose groups have stopped; a saved team whose slot's header is good,
and one whose header is not. -/
def savedState (magic : Bool) : State :=
  { fullState with
    groups := []
    teams := [(0, { probeTeam 0 with st := .saved })]
    mem := memWith ((if magic then [(0x200000, 0x31), (0x200001, 0x56), (0x200002, 0x45), (0x200003, 0x53)] else []) ++
      [(0x200021, 1), (0x200031, 2)]) }

theorem witness_stopping :
    mayStop fullState (probeTeam 0) = true ∧
    hardStops { fullState with teams := [(0, { probeTeam 0 with st := .stopping 0 })], cycle := hardCycles } memGroup = true ∧
    (let t := { probeTeam 0 with st := .stopping 0 }
     saveReady { fullState with teams := [(0, t)], groups := [(0, { memGroup with wait := .stopped none })] } 0 t) = true ∧
    ([true, false].map fun m =>
      let s := savedState m
      let r := slotRead s 0 (slotBase s 0 0).1 (slotBase s 0 0).2 0 256
      (resumeFits s { probeTeam 0 with st := .saved } probeGrid 0, !r.2.2 && slotHeaderOk r.2.1 (slotBase s 0 0).2)) =
      [(true, true), (true, false)] ∧
    (let s := { launchBinState (some 0) with
       teams := [(0, { probeTeam 0 with st := .stopping 0 })], groups := [(0, { memGroup with wait := .stopped none })] }
     (tget (getCore s 0).bins 3).map (·.team)) = some 0 := by decide +kernel

/-! ### Faults, arrivals, requests, seeds -/

/-- A record that is not written yet, one that awaits its ACTION at 0x80000. -/
def faultOf (at_ : Option Nat) : FaultRec :=
  { blankRec fullState 0 0 1 with num := 4, awaits := .group 0, at_ := at_ }

def actionState (v : BitVec 8) : State :=
  { fullState with mem := memWith [(0x80038, v)], faults := [faultOf (some 0x80000)] }

/-- An untracked copy of the sector of 0x52000 on core 0. -/
def copyState (dirty : BitVec 16) : State :=
  { fullState with mem := { fullState.mem with copies := [⟨0, 0x1480, .untracked, 7, 0xFFFF, dirty, 0, 15, 0, false, 0, []⟩] } }

/-- FaultQueueAndErrors, HOME_WRITE: a window and none; a team of a grid; a granule with an owner and one without; a copy that is dirty, one
that is clean and none; room for the oldest record; ACTION 0, 1, 2; live agents; a message of another incarnation. -/
theorem witness_fault_queue :
    (let s := { fullState with faults := [faultOf none] }
     nextRecord s 0 == some (faultOf none) && faultRoom s 0 fullPartition) = true ∧
    (([0, 1, 2] : List (BitVec 8)).map fun v => ((awaiting (actionState v) 0 4).isSome, (devRead64 (actionState v) 0 0x80038).2)) =
      [(true, 0), (true, 1), (true, 2)] ∧
    ([AgentId.core 0, .bough 0, .home 0, .engine (.copy 0), .engine .peer].all fun a => !isDead fullState a) = true ∧
    isDead { fullState with deadAgents := [agentNum (.engine .storage)] } (.engine .storage) = true ∧
    50000 ≤ 1000 * fullState.agentTimeout ∧ 1000 * fullState.agentTimeout < 50001 ∧
    (entriesOn (perfState .cpy (perfEntry 0xC0 (blockOf 64 [(8, 5)]))) (.copy 0)).length = 1 ∧
    (7 : BitVec 8) ≠ incarnationOf fullState (.core 0) ∧
    (windowOf windowState 0 1).isSome = true ∧ windowOf fullState 0 0 = none ∧
    ((getTeam fullState 0).bind fun t => tget fullState.grids t.grid).isSome = true ∧
    granuleOwner fullState (0 / 3) = some 0 ∧ granuleOwner memState (3 / 3) = none ∧
    ((copyOf (copyState 1) 0 0x1480).map fun c => (c.dirty, c.st)) = some (1, .untracked) ∧
    ((copyOf (copyState 0) 0 0x1480).map (·.dirty)) = some 0 ∧ copyOf fullState 0 0x1480 = none := by decide +kernel

/-- MemoryEvents, HandlerEntry: a resident group; a team with a handler; ACTIVE set, clear, a stack of 31 and of 32 entries. -/
theorem witness_handler :
    (getGroup fullState 0).isSome = true ∧
    (getTeam { fullState with teams := [(0, { probeTeam 0 with trapvec := 0x100200 })] } 0).map (·.trapvec) = some 0x100200 ∧
    catchable 2 = true ∧ catchable 11 = true ∧ catchable 12 = false ∧ trapActive memGroup = false ∧
    trapActive { memGroup with trapinfo := 0x10000000 } = true ∧ (deep 31).stack.length = 31 ∧ (deep 32).stack.length = 32 ∧
    ringOwes fullState 0 memGroup = false ∧ ringOwes (ringState (ringEntry 0 0 1)) 0 memGroup = true := by
  decide

/-- A VF with a registration of 256 bytes at 0x102000 that allows everything, tag 1, and a receive ring; a page that is SA. -/
def portVf : Vf := ⟨0, 0, [(2, ⟨0x102000, 256, 1, true, true, true, true, true⟩)], some ⟨0x103000, 256, 2, 0x102200, 0x102208⟩, 0, [], [4]⟩

def portState : State :=
  { fullState with
    vfs := [(0, portVf)]
    mem := { Mem.reset with dram := pageCells.take 4 ++ [(0x40080, 0x4F), (0x40081, 1), (0x40085, 0x40)] } }

/-- InboundAccesses: an access at the last bytes of the registration, one beyond them; a write, a read, an atomic in an SA page, a
signal; a target within a command's range. -/
theorem witness_inbound :
    rdmaVf portState 0 0 4 = some portVf ∧ rdmaVf portState 0 0 5 = none ∧ rdmaVf portState 1 0 4 = none ∧ linkUp portState 8 = true ∧
    (writeOk portState { portVf with ctx := 3 } 0x102000 8).2 = false ∧ (readOk portState { portVf with ctx := 3 } 0x102000 8).2 = false ∧
    (readOk portState portVf 0x1020F8 8).2 = true ∧
    (match translate portState (vfWho { portVf with ctx := 3 }) 0x102000 .write with | (_, .error _) => true | _ => false) = true ∧
    (match translate fullState (vfWho portVf) 0x102000 .write with | (_, .ok l) => l.sa || l.cmp | _ => true) = false ∧
    outstandingStq fullState 0 9 = none ∧
    regOk portVf 0x1002 0x1020F8 8 .read = true ∧ regOk portVf 0x1002 0x1020F9 8 .write = false ∧
    regOk portVf 0x1002 0x102100 0 .write = true ∧ (writeOk portState portVf 0x102100 0).2 = true ∧
    (virtWrite (writeOk portState portVf 0x102100 0).1 (vfWho portVf) 0x102100 []).2.isNone = true ∧
    (match virtRead (publishRange portState (vfWho portVf) 0x1020F8 8) (vfWho portVf) 0x1020F8 8 with | (_, .ok b) => b.length | _ => 0) = 8 ∧
    regOk portVf 0x1002 0x102000 8 .atomic = true ∧ regOk portVf 0x1002 0x102000 16 .signal = true ∧
    (match translate portState (vfWho portVf) 0x102000 .write with
      | (s1, .ok l) => l.sa && !l.cmp && !s1.mem.poison.contains (leafPa l 0x102000 / 64)
      | _ => false) = true ∧
    (let e := { perfEntry 0xC5 (blockOf 64 [(0x0F, 2), (0x10, 0x110000)]) with st := .started }
     outstandingStq (stoState [e]) 0 9 == some e && decide (blockOp e.block = 2) &&
       decide (0 + ([] : List Byte).length ≤ stqLen (stoState [e]) e) &&
       decide (stqLen (stoState [e]) e < 4089 + 8)) = true ∧
    (let e := { perfEntry 0xC5 (blockOf 64 [(0x0F, 1), (0x10, 0x110000)]) with st := .started }
     outstandingStq (stoState [e]) 0 9 == some e && decide (blockOp e.block = 1) &&
       decide (4088 + 8 ≤ stqLen (stoState [e]) e) &&
       decide (stqLen (stoState [e]) e < 4089 + 8)) = true := by decide +kernel

/-- A partition record within the limits of R17 and R484. -/
def goodBody : PartBody :=
  ⟨2, 2, 4, 4, true, 0x400000000, 4, 0x400010000, 0x400010008, 0x400010010, 0x400100000, 18, 2, 0, some 256, false,
    List.replicate 64 0, List.replicate 64 0⟩

def mgmtState (r : Request) : State :=
  { fullState with groups := [], teams := [], grids := [], vfs := [(0, portVf)], dumpMem := some 0x80000,
                   parts := [(0, { fullPartition with body := { fullPartition.body with granules := 1 } })],
                   queues := [(5, ⟨0x110000, 0x102000, 0x110008, 4, false, false, 0⟩)], arrivals := [.request .host 3 true r] }

/-- ManagementRequests: each request at the head, from a sender that may make it, its objects there and its values within limits. -/
theorem witness_management :
    partRange goodBody = true ∧ partWhole (mgmtState .readUnitMap) goodBody = true ∧
    ((mgmtState .readUnitMap).parts.any fun p => p.1 != 1 && !partApart p.2.body goodBody) = false ∧
    partInUse (mgmtState .readUnitMap) 1 = false ∧ ctxInUse (mgmtState .readUnitMap) 0 0 = false ∧
    recvRange ⟨0x103000, 256, 2, 0x102200, 0x102208⟩ = true ∧ recvRange ⟨0x103000, 65536, 65536, 0, 0⟩ = true ∧
    bindRange (.peer 0 0 0 8 255 7 true) = true ∧ bindRange (.ns 0 1 9 1 256 0 true false) = true ∧
    fullPartition.body.keyLo ≤ 3 ∧ 3 < fullPartition.body.keyLo + fullPartition.body.keyN ∧
    isDead { fullState with deadAgents := [512] } (.home 0) = true ∧
    (([Request.readUnitMap, .setPowerCap 2000, .loadKey 0 3 [] [], .unknown 0x7777] : List Request).all fun r =>
      admitRequest .host true r == 0 && headRequest (mgmtState r) == some (.host, 3, true, r)) = true ∧
    pairsFit (mgmtState .readUnitMap) 0 = true ∧ field (leBytes 8 0x30001) 0 2 = 1 ∧ field (leBytes 8 0x7777) 0 2 = 0x7777 ∧
    admitRequest .other true .readUnitMap = 8 ∧ admitRequest .board false .readUnitMap = 2 ∧ isSecret (.loadKey 0 3 [] []) = true := by
  decide +kernel

/-- SeedsAndBoard: a lineage that may be made, a job whose partition is at rest, a partition not in use, an idle lineage. -/
theorem witness_seeds :
    lineageRefusal fullState 0 7 = none ∧ bufferOk fullState 0 fullPartition 7 none = true ∧
    (bufferOk fullState 0 fullPartition 7 (some 0x100000) = false ∧
      bufferOk (settlePartition fullState fullPartition.body.granules) 0 fullPartition 7 (some 0x100000) = false) ∧
    seedReady { fullState with groups := [], teams := [], grids := [], seed := some ⟨0, 7, none, false, 3⟩ } ⟨0, 7, none, false, 3⟩ = true ∧
    partInUse { fullState with groups := [], teams := [], grids := [] } 0 = false ∧
    (findLineage { fullState with lineages := [⟨7, 1, .idle, []⟩] } 7).map (·.st) = some .idle ∧
    State.reset.device ≠ .reset ∧ ({ State.reset with device := .reset } : State).device = .reset := by decide +kernel

/-- StepRunsDecoded: group 0's turn, its word fetched and decoded; a word that does not decode; an agenda; nothing to do. -/
def fetched (w : DWord) : State := layProgram State.reset [w]

theorem witness_step :
    (([0, 0x0380000000000001] : List DWord).map fun w =>
      match readyGroup (fetched w) with
      | some (0, g) => (match fetchInstr (fetched w) g with
        | (s1, .ok ws) => (decide (ws = [w]), beatsOwed s1 g, match decodeWords ws with | .ok _ => true | .error _ => false)
        | _ => (false, 0, false))
      | _ => (false, 0, false)) = [(true, 0, true), (true, 0, false)] ∧
    (let s := { fetched 0 with groups := (fetched 0).groups.map fun e => (e.1, { e.2 with pc := 0x8000000000000000 }) }
     match readyGroup s with
     | some (0, g) => (match fetchInstr s g with | (_, .error _) => true | _ => false)
     | _ => false) = true ∧
    (readyGroup State.reset).isNone = true ∧ (nextEvent (settleArrivals State.reset)).isNone = true ∧
    (nextEvent (settleArrivals { State.reset with arrivals := [.thermal] })).isSome = true ∧
    State.reset.mem.lost = [] ∧ State.reset.agenda = [] := by decide +kernel

/-- MemoryStaysCanonical: a state whose memory is in the form and that steps. -/
theorem witness_canonical : Memory.wf (fetched 0).mem = true ∧ (∃ t, step (fetched 0) = .next t) := by
  refine ⟨by decide, ?_⟩
  have h : (match step (fetched 0) with | .next _ => true | _ => false) = true := by decide +kernel
  split at h
  · exact ⟨_, by assumption⟩
  · cases h

/-- DecodeEncode, IntegerMatrix, ScaleFormat: a well-formed instruction, two with the same words, an unassigned opcode; a live row. -/
theorem witness_decode_encode :
    (Instr.nop plain).wellFormed = true ∧ (Instr.nop plain).parts.isSome = true ∧ isUnassigned (opcodeOf 0x038A800000000000) = true ∧
    (1 : BitVec 64).getLsbD 0 = true ∧ (1 : BitVec 64).getLsbD 63 = false := by decide

end Sys2Proof.Tests
end

section
/-! PROOFS. A step of the device keeps the memory in its canonical form. -/

namespace Sys2Proof.Machine

/-- What a step leaves has memory in its canonical form, one case for each of the sources that `step` tries in turn. -/
theorem outWf_step (s : State) (h : cwf s.mem.dram = true) : OutWf (step s) := by
  have hsettled := wf_settleArrivals s h
  unfold step
  split
  · -- a loss that is due to be dealt with
    exact out_next (wf_endLost _ _ h)
  · split
    · -- the agenda
      exact wf_exec _ _ h
    · split
      · -- the instruction of the ready group
        exact wf_stepGroup _ _ _ h
      · split
        · -- the device's own next step
          exact wf_exec _ _ (wf_openArrival _ hsettled)
        · -- a cycle passes
          exact out_next (wf_tick _ hsettled)

/-- Settles O55: every source of a step keeps the form, the instructions by `wf_exec`. -/
theorem memoryStaysCanonical : Obligations.MemoryStaysCanonical := by
  unfold Obligations.MemoryStaysCanonical
  intro s t hwf hstep
  exact outWf_step s hwf t hstep

end Sys2Proof.Machine
end

section
/-! PROOFS. Management requests: what stands before a request's own checks, what each request writes, and what is refused. -/

namespace Sys2Proof.Machine

/-! ### Before a request's own checks (R518) -/

/-- A request from a sender that may make it gives what its action gives; only a status of 0 keeps the action's state. -/
theorem request_admitted {s : State} {src : ReqFrom} {tag : BitVec 16} {req : Request} {mine : Request → Bool}
    {act : State → Request → Nat × List Byte × State} {st : Nat} {data : List Byte} {t : State}
    (hhead : headRequest s = some (src, tag, true, req)) (hadmit : admitRequest src true req = 0) (hmine : mine req = true)
    (hact : act s req = (st, data, t)) (hkeep : st = 0 ∨ t = s) :
    request s mine act = .next (respond t tag st data) := by
  unfold request
  rw [hhead]
  dsimp only
  rw [hadmit]
  obtain rfl | rfl := hkeep
  · simp [hmine, hact]
  · simp +contextual [hmine, hact]

/-- A request that is not admitted is answered with that status, and nothing else happens. -/
theorem request_refused {s : State} {src : ReqFrom} {tag : BitVec 16} {wl : Bool} {req : Request} {n : Nat}
    (mine : Request → Bool) (act : State → Request → Nat × List Byte × State)
    (hhead : headRequest s = some (src, tag, wl, req)) (hadmit : admitRequest src wl req = n + 1) (hmine : mine req = true) :
    request s mine act = .next (respond s tag (n + 1) []) := by
  unfold request
  rw [hhead]
  dsimp only
  rw [hadmit]
  simp [hmine]

theorem admitRequest_notPermitted (src : ReqFrom) (wl : Bool) (r : Request)
    (h : src = .other ∨ (src = .board ∧ isSecret r = true)) : admitRequest src wl r = 8 := if_pos h

theorem admitRequest_malformed (src : ReqFrom) (r : Request) (hother : src ≠ .other)
    (hboard : src = .board → isSecret r = false) : admitRequest src false r = 2 := by
  have h : ¬(src = .other ∨ (src = .board ∧ isSecret r = true)) := by
    rintro (h | ⟨h, hsecret⟩)
    · exact hother h
    · simp [hboard h] at hsecret
  exact if_neg h

/-- A step that is a `request` answers what its action gives for the request it serves. -/
theorem answers_of_request {i : Instr} {s : State} {req : Request} {st : Nat} {data : List Byte} {t : State}
    {mine : Request → Bool} {act : State → Request → Nat × List Byte × State} (meaning : State → Out)
    (hstep : requestStep req = i) (hexec : exec i s = meaning s) (hmeaning : meaning s = request s mine act)
    (hmine : mine req = true) (hact : act s req = (st, data, t)) (hkeep : st = 0 ∨ t = s) : Answers i s req st data t :=
  fun _ _ hhead hadmit => ⟨hstep, (hexec.trans hmeaning).trans (request_admitted hhead hadmit hmine hact hkeep)⟩

/-- A step that is a `request` serves the request for which its action gives status 0. -/
theorem serves_of_request {i : Instr} {s : State} {req : Request} {data : List Byte} {t : State}
    {mine : Request → Bool} {act : State → Request → Nat × List Byte × State} (meaning : State → Out)
    (hstep : requestStep req = i) (hexec : exec i s = meaning s) (hmeaning : meaning s = request s mine act)
    (hmine : mine req = true) (hact : act s req = (0, data, t)) : Serves i s req data t :=
  answers_of_request meaning hstep hexec hmeaning hmine hact (.inl rfl)

/-- A step that is a `request` refuses its request when it is not admitted. -/
theorem refused_of_request {i : Instr} {s : State} {src : ReqFrom} {tag : BitVec 16} {wl : Bool} {req : Request} {n : Nat}
    {mine : Request → Bool} {act : State → Request → Nat × List Byte × State} (meaning : State → Out)
    (hexec : exec i s = meaning s) (hmeaning : meaning s = request s mine act)
    (hhead : headRequest s = some (src, tag, wl, req)) (hadmit : admitRequest src wl req = n + 1) (hmine : mine req = true) :
    exec i s = .next (respond s tag (n + 1) []) :=
  (hexec.trans hmeaning).trans (request_refused mine act hhead hadmit hmine)

/-- The step of any known request that is not admitted answers that status, and nothing else happens: SEED_MAKE and SEED_RESTORE test it
themselves, the others are a `request`. -/
theorem exec_requestStep_refused {s : State} {src : ReqFrom} {tag : BitVec 16} {wl : Bool} {r : Request} {n : Nat}
    (hhead : headRequest s = some (src, tag, wl, r)) (hknown : ∀ c, r ≠ .unknown c) (hadmit : admitRequest src wl r = n + 1) :
    exec (requestStep r) s = .next (respond s tag (n + 1) []) := by
  cases r with
  | seedMake part lineage buf endPart =>
    show execSeedMake s = _
    simp only [execSeedMake, hhead, hadmit]
  | seedRestore part img stm session =>
    show execSeedRestore s = _
    simp only [execSeedRestore, hhead, hadmit]
  | unknown c => exact absurd rfl (hknown c)
  | readUnitMap => exact refused_of_request execReadUnitMap rfl rfl hhead hadmit rfl
  | writePartition => exact refused_of_request execWritePartitionRecord rfl rfl hhead hadmit rfl
  | bindVf => exact refused_of_request execBindVf rfl rfl hhead hadmit rfl
  | writeQueue => exact refused_of_request execWriteLaunchQueueRecord rfl rfl hhead hadmit rfl
  | writeReg => exact refused_of_request execWriteRegistrationEntry rfl rfl hhead hadmit rfl
  | writeBinding => exact refused_of_request execWriteBinding rfl rfl hhead hadmit rfl
  | loadKey => exact refused_of_request execLoadKey rfl rfl hhead hadmit rfl
  | counterStatement => exact refused_of_request execCounterStatement rfl rfl hhead hadmit rfl
  | readDump => exact refused_of_request execReadDump rfl rfl hhead hadmit rfl
  | setPowerCap => exact refused_of_request execSetPowerCap rfl rfl hhead hadmit rfl
  | resetUnit => exact refused_of_request execResetAndReadmitUnit rfl rfl hhead hadmit rfl
  | reserveTimed => exact refused_of_request execReserveTimedCapacity rfl rfl hhead hadmit rfl

/-! ### What each request writes -/

theorem readUnitMap_serves (s : State) : Serves .readUnitMap s .readUnitMap (unitMap s) s :=
  serves_of_request execReadUnitMap rfl rfl rfl rfl rfl

theorem writePartition_serves (s : State) (part : Nat) (b : PartBody) (hpart : part < 64) (hrange : partRange b = true)
    (hwhole : partWhole s b = true) (hapart : (s.parts.any fun p => p.1 != part && !partApart p.2.body b) = false)
    (hidle : partInUse s part = false) :
    Serves .writePartitionRecord s (.writePartition part (some b)) [] (assignPartition s part b) := by
  refine serves_of_request execWritePartitionRecord rfl rfl rfl rfl ?_
  have hpart : ¬ part ≥ 64 := by omega
  simp only [hpart, hrange, hwhole, hapart, hidle, if_false, Bool.not_true, Bool.or_false, Bool.false_eq_true]

/-- The VF as BIND_VF leaves it: a new one, or the old one with the receive ring replaced. -/
def boundVf (s : State) (vf part ctx : Nat) (recv : Option RecvRing) : Vf :=
  match tget s.vfs vf with
  | some v => { v with recv := recv }
  | none => ⟨part, ctx, [], recv, 0, [], []⟩

theorem boundVf_names (s : State) (vf part ctx : Nat) (recv : Option RecvRing)
    (hold : ∀ v, tget s.vfs vf = some v → v.part = part ∧ v.ctx = ctx) :
    (boundVf s vf part ctx recv).part = part ∧ (boundVf s vf part ctx recv).ctx = ctx ∧
      (boundVf s vf part ctx recv).recv = recv := by
  unfold boundVf
  cases hv : tget s.vfs vf with
  | none => exact ⟨rfl, rfl, rfl⟩
  | some v =>
    obtain ⟨hp, hc⟩ := hold v hv
    exact ⟨hp, hc, rfl⟩

theorem bindVf_serves (s : State) (vf part ctx root : Nat) (recv : Option RecvRing) (p : Partition) (hvf : vf < 256)
    (hctx : ctx < 1024) (hroot : root % 256 = 0) (hrecv : ∀ x, recv = some x → recvRange x = true)
    (hp : tget s.parts part = some p) (hold : ∀ v, tget s.vfs vf = some v → v.part = part ∧ v.ctx = ctx)
    (hidle : ctxInUse s part ctx = false) :
    Serves .bindVf s (.bindVf vf part ctx root recv) [] { s with
      vfs := tset s.vfs vf (boundVf s vf part ctx recv)
      parts := tset s.parts part { p with ctxs := tset p.ctxs ctx ⟨root, true, false⟩ } } := by
  refine serves_of_request execBindVf rfl rfl rfl rfl ?_
  have hpart : ((tget s.vfs vf).any fun v => v.part != part) = false := by
    cases hv : tget s.vfs vf with
    | none => rfl
    | some v => simp [(hold v hv).1]
  have hctx' : ((tget s.vfs vf).any fun v => v.ctx != ctx) = false := by
    cases hv : tget s.vfs vf with
    | none => rfl
    | some v => simp [(hold v hv).2]
  dsimp only
  rw [if_neg ?limits, hp]
  · simp only [hpart, hctx', hidle, Bool.or_false, Bool.false_eq_true, if_false]
    rfl
  case limits =>
    cases recv with
    | none => simp [hroot]; omega
    | some x => simp [hroot, hrecv x rfl]; omega

theorem writeQueue_serves (s : State) (q : Nat) (b : QueueBody) (v : Vf) (hq : q < 1024) (hvf : b.vf < 256)
    (hbase : b.base.toNat % 128 = 0) (htail : b.tailA.toNat % 8 = 0) (hhead : b.headA.toNat % 8 = 0) (hmin : 1 ≤ b.size)
    (hmax : b.size ≤ 16) (hroom : (s.queues.filter fun x => x.1 != q && x.2.vf == b.vf).length < 16)
    (hv : tget s.vfs b.vf = some v)
    (hold : ∀ o, tget s.queues q = some o → (∀ w, tget s.vfs o.vf = some w → w.part = v.part) ∧
      (o.enabled = true → queueUnread s o = false)) :
    Serves .writeLaunchQueueRecord s (.writeQueue q b) [] (watchTail { s with queues := tset s.queues q b } q) := by
  refine serves_of_request execWriteLaunchQueueRecord rfl rfl rfl rfl ?_
  dsimp only
  rw [if_neg (by omega), hv]
  dsimp only
  cases ho : tget s.queues q with
  | none => rfl
  | some o =>
    obtain ⟨hpart, hread⟩ := hold o ho
    have hread : (o.enabled && queueUnread s o) = false := by
      cases he : o.enabled with
      | false => rfl
      | true => simp [hread he]
    dsimp only
    cases hw : tget s.vfs o.vf with
    | none => simp [hread]
    | some w => simp [hpart w hw, hread]

theorem writeReg_serves (s : State) (vf idx : Nat) (b : RegBody) (v : Vf) (hidx : idx < 4096) (hv : tget s.vfs vf = some v) :
    Serves .writeRegistrationEntry s (.writeReg vf idx b) []
      { s with vfs := tset s.vfs vf { v with regs := tset v.regs idx b } } := by
  refine serves_of_request execWriteRegistrationEntry rfl rfl rfl rfl ?_
  dsimp only
  rw [if_neg (by omega), hv]

theorem putBinding_binds (s : State) (part idx : Nat) (p : Partition) (b : BindBody) :
    ∃ n p', tget (putBinding s part idx p b).parts part = some p' ∧ (n = idx ∨ n = 256 + idx) ∧ tget p'.binds n = some b := by
  cases b with
  | peer => exact ⟨idx, _, tget_tset_same _ _ _, .inl rfl, tget_tset_same _ _ _⟩
  | ns => exact ⟨256 + idx, _, tget_tset_same _ _ _, .inr rfl, tget_tset_same _ _ _⟩

theorem writeBinding_serves (s : State) (part idx : Nat) (b : BindBody) (p : Partition) (hidx : idx < 256)
    (hrange : bindRange b = true) (hp : tget s.parts part = some p)
    (hpeer : ∀ a c d e vf x f, b = .peer a c d e vf x f →
      (∃ v, tget s.vfs vf = some v ∧ v.part = part) ∧ pairsFit (putBinding s part idx p b) vf = true) :
    Serves .writeBinding s (.writeBinding part idx b) [] (putBinding s part idx p b) := by
  refine serves_of_request execWriteBinding rfl rfl rfl rfl ?_
  have hlimits : ¬(idx ≥ 256 ∨ (!bindRange b) = true) := by simp [hrange, hidx]
  dsimp only
  rw [if_neg hlimits, hp]
  cases b with
  | ns => rfl
  | peer a c d e vf x f =>
    obtain ⟨⟨v, hv, hown⟩, hfit⟩ := hpeer a c d e vf x f rfl
    dsimp only
    rw [hv]
    simp [hown, hfit]

theorem loadKey_answers (s : State) (part key : Nat) (session wrapped : List Byte) (p : Partition)
    (hp : tget s.parts part = some p) (hlo : p.body.keyLo ≤ key) (hhi : key < p.body.keyLo + p.body.keyN) :
    match Config.kemUnwrap session wrapped with
    | some m => Serves .loadKey s (.loadKey part key session wrapped) []
        { s with parts := tset s.parts part { p with keys := tset p.keys key ((m ++ List.replicate 64 0).take 64) } }
    | none => Answers .loadKey s (.loadKey part key session wrapped) stUnwrap [] s := by
  have hkey : ¬(key < p.body.keyLo ∨ key ≥ p.body.keyLo + p.body.keyN) := by omega
  cases hm : Config.kemUnwrap session wrapped with
  | none =>
    refine answers_of_request execLoadKey rfl rfl rfl rfl ?_ (.inr rfl)
    dsimp only
    rw [hp]
    simp only [hkey, if_false, hm]
  | some m =>
    refine serves_of_request execLoadKey rfl rfl rfl rfl ?_
    dsimp only
    rw [hp]
    simp only [hkey, if_false, hm, keyMaterial, zeros]

theorem readDump_serves (s : State) (a : Nat) (ha : s.dumpMem = some a) :
    Serves .readDump s .readDump (crange s.mem.dram a (min (leNat (crange s.mem.dram (a + 0x28) 8)) (2 ^ 26))) s := by
  refine serves_of_request execReadDump rfl rfl rfl rfl ?_
  simp only [ha, dumpSpan]

theorem setPowerCap_serves (s : State) (w : Nat) : Serves .setPowerCap s (.setPowerCap w) [] { s with powerCap := w } :=
  serves_of_request execSetPowerCap rfl rfl rfl rfl rfl

theorem resetUnit_serves (s : State) (a : AgentId) (hdead : isDead s a = true) :
    Serves .resetAndReadmitUnit s (.resetUnit a) [] (readmit s a) :=
  serves_of_request execResetAndReadmitUnit rfl rfl rfl rfl (if_pos hdead)

theorem reserveTimed_serves (s : State) (part : Nat) (cores : List Nat) (share slots : Nat) (p : Partition)
    (hp : tget s.parts part = some p)
    (hcores : ∀ k ∈ cores, k < 256 ∧ s.offCores.contains k = false ∧ p.body.quads.getLsbD (k / 4) = true) :
    ∃ till, Serves .reserveTimedCapacity s (.reserveTimed part cores share slots) []
      { s with timed := tset s.timed part ⟨distinct cores, share, slots, till⟩ } := by
  refine ⟨match tget s.timed part with | some t => t.bookedTo | none => 0,
    serves_of_request execReserveTimedCapacity rfl rfl rfl rfl ?_⟩
  have hown : (cores.any fun k => decide (256 ≤ k) || s.offCores.contains k || !p.body.quads.getLsbD (k / 4)) = false := by
    rw [List.any_eq_false]
    intro k hk
    obtain ⟨hlt, hon, hquad⟩ := hcores k hk
    simpa [hquad, hlt] using hon
  dsimp only
  rw [hp]
  exact if_neg (by rw [hown]; exact Bool.false_ne_true)

/-! ### Requests that no action serves -/

theorem unknownCode_answers (s : State) (src : ReqFrom) (tag : BitVec 16) (wl : Bool) (code : BitVec 16)
    (hhead : headRequest s = some (src, tag, wl, .unknown code)) : exec .mgmtUnknownCode s = .next (respond s tag 1 []) := by
  show execMgmtUnknownCode s = _
  simp only [execMgmtUnknownCode, hhead]

/-- A message of a known code whose length is wrong carries no request of that code that is in order, whatever its body. -/
theorem requestOf_wrongLength (b : List Byte) (hlo : 1 ≤ field b 0 2) (hhi : field b 0 2 ≤ 14)
    (hlen : b.length ≠ 256 ∨ 248 < field b 4 4) :
    requestOf b = (BitVec.ofNat 16 (field b 2 2), false, blankRequest (field b 0 2)) := by
  unfold requestOf
  dsimp only
  rw [if_neg (by omega)]
  cases requestBody (field b 0 2) ((b.drop 8).take (field b 4 4)) with
  | none => rfl
  | some r => exact if_neg (by omega)

theorem requestOf_unknownCode (b : List Byte) (h : field b 0 2 = 0 ∨ 14 < field b 0 2) :
    requestOf b = (BitVec.ofNat 16 (field b 2 2), true, .unknown (BitVec.ofNat 16 (field b 0 2))) := if_pos h

/-- Settles O49: each request by the lemma of its action, the refusals by what stands before every action. -/
theorem managementRequests : Obligations.ManagementRequests := by
  unfold Obligations.ManagementRequests
  refine ⟨readUnitMap_serves, writePartition_serves, ?bind, writeQueue_serves, writeReg_serves, ?binding, loadKey_answers,
    readDump_serves, setPowerCap_serves, resetUnit_serves, reserveTimed_serves, unknownCode_answers, ?refused,
    requestOf_wrongLength, requestOf_unknownCode⟩
  case bind =>
    intro s vf part ctx root recv p hvf hctx hroot hrecv hp hold hidle
    obtain ⟨hpart, hctx', hrecv'⟩ := boundVf_names s vf part ctx recv hold
    exact ⟨_, boundVf s vf part ctx recv, bindVf_serves s vf part ctx root recv p hvf hctx hroot hrecv hp hold hidle,
      tget_tset_same _ _ _, hpart, hctx', hrecv', tget_tset_same _ _ _⟩
  case binding =>
    intro s part idx b p hidx hrange hp
    exact ⟨putBinding s part idx p b, writeBinding_serves s part idx b p hidx hrange hp, putBinding_binds s part idx p b⟩
  case refused =>
    intro s src tag wl r hhead hknown
    constructor
    · intro hsrc
      exact exec_requestStep_refused hhead hknown (admitRequest_notPermitted src wl r hsrc)
    · rintro hother hboard rfl
      exact exec_requestStep_refused hhead hknown (admitRequest_malformed src r hother hboard)

end Sys2Proof.Machine
end

section
/-! PROOFS. A step of the device: which of its sources it takes, and what it adds to the effect of the instruction it runs. -/

namespace Sys2Proof.Machine

/-! ### The sources of a step, in their order -/

/-- A loss that is noted is dealt with first. -/
theorem step_of_lost {s : State} {l : Lost} {r : List Lost} (hlost : s.mem.lost = l :: r) :
    step s = .next (endLost { s with mem := { s.mem with lost := r } } l) := by
  simp only [step, hlost]

/-- With nothing lost, the agenda's next step runs. -/
theorem step_of_agenda {s : State} {x : Todo} {r : List Todo} (hlost : s.mem.lost = []) (hagenda : s.agenda = x :: r) :
    step s = exec (todoStep x) { s with agenda := r } := by
  simp only [step, hlost, hagenda]

section
variable {s : State} (hlost : s.mem.lost = []) (hagenda : s.agenda = [])
include hlost hagenda

/-- With nothing lost and no agenda, the group whose turn it is steps. -/
theorem step_of_ready {gid : Nat} {g : Group} (hready : readyGroup s = some (gid, g)) : step s = stepGroup s gid g := by
  simp only [step, hlost, hagenda, hready]

/-- With no group ready, the device's next event runs. -/
theorem step_of_event {i : Instr} (hready : readyGroup s = none) (hevent : nextEvent (settleArrivals s) = some i) :
    step s = exec i (openArrival (settleArrivals s)) := by
  simp only [step, hlost, hagenda, hready, hevent]

/-- With no group ready and no event, a cycle passes. -/
theorem step_of_idle (hready : readyGroup s = none) (hevent : nextEvent (settleArrivals s) = none) :
    step s = .next (tick (settleArrivals s)) := by
  simp only [step, hlost, hagenda, hready, hevent]

end

/-- The state in which a group's instruction issues: its slice, when it owes beats to younger groups, is free at once. -/
def issueState (s1 : State) (g : Group) : State := if beatsOwed s1 g = 0 then s1 else slicePut s1 g s1.cycle

theorem stepGroup_of_decoded {s s1 : State} {gid : Nat} {g : Group} {ws : List DWord} {i : Instr}
    (hfetch : fetchInstr s g = (s1, .ok ws)) (hdecode : Sys2Proof.decodeWords ws = .ok i) :
    stepGroup s gid g =
      afterIssue s1 gid g ws (beatsOwed s1 g) (exec i { issueState s1 g with cur := some gid }) := by
  simp only [stepGroup, hfetch, hdecode, issueState]

theorem stepGroup_of_undecoded {s s1 : State} {gid : Nat} {g : Group} {ws : List DWord} {e : Illegal}
    (hfetch : fetchInstr s g = (s1, .ok ws)) (hdecode : Sys2Proof.decodeWords ws = .error e) :
    stepGroup s gid g = afterIssue s1 gid g [] (beatsOwed s1 g) (.next
      (raiseIllegal (occupy (issueState s1 g) g 1) gid (openIllegal (issueState s1 g) g) (8 * ws.length))) := by
  simp only [stepGroup, hfetch, hdecode, issueState]

theorem stepGroup_of_fetchFault {s s1 : State} {gid : Nat} {g : Group} {va : DWord} {e : XErr}
    (hfetch : fetchInstr s g = (s1, .error (va, e))) : stepGroup s gid g = .next (fetchFault s1 gid g va e) := by
  simp only [stepGroup, hfetch]

/-! ### What an issue notes outside its group -/

/-- Nothing differs but the cores, where slices are taken and storage writes keep their snapshots, and the slots freed. -/
def OnlyCores (s t : State) : Prop := t = { s with cores := t.cores, freed := t.freed }

theorem OnlyCores.refl (s : State) : OnlyCores s s := rfl

theorem OnlyCores.trans {a b c : State} (h1 : OnlyCores a b) (h2 : OnlyCores b c) : OnlyCores a c := by
  unfold OnlyCores at *
  rw [h2, h1]

theorem OnlyCores.getGroup {s t : State} (h : OnlyCores s t) (gid : Nat) : getGroup t gid = getGroup s gid := by
  rw [h]; rfl

theorem slicePut_onlyCores (s : State) (g : Group) (t : Nat) : OnlyCores s (slicePut s g t) := by
  unfold slicePut
  split
  · rfl
  · exact .refl s

theorem useSlice_onlyCores (s : State) (gid : Nat) (g0 : Group) : OnlyCores s (useSlice s gid g0) := by
  unfold useSlice
  split
  · exact .refl s
  · exact slicePut_onlyCores s g0 _

theorem noteFreed_onlyCores (s : State) (gid : Nat) (g0 : Group) : OnlyCores s (noteFreed s gid g0) := by
  unfold noteFreed
  split
  · split
    · rfl
    · exact .refl s
  · exact .refl s

theorem noteGroup_onlyCores (s0 : State) (core gid : Nat) (s : State) : OnlyCores s (noteGroup s0 core gid s) := by
  unfold noteGroup
  dsimp only
  split
  · exact .refl s
  · rfl

/-- The slice that an issue takes and the slot it frees are notes on the cores. -/
theorem sliceNotes_onlyCores (s : State) (gid : Nat) (g0 : Group) : OnlyCores s (noteFreed (useSlice s gid g0) gid g0) :=
  (useSlice_onlyCores s gid g0).trans (noteFreed_onlyCores (useSlice s gid g0) gid g0)

/-- When the slice owes no beats and the instruction has left its group no more, an issue notes its slice alone. -/
theorem closeIssue_unowed_gone (s0 : State) {gid : Nat} (g0 : Group) (ws : List DWord) {s : State} (hgone : getGroup s gid = none) :
    closeIssue s0 gid g0 ws 0 s = noteFreed (useSlice s gid g0) gid g0 := by
  simp only [closeIssue, (sliceNotes_onlyCores s gid g0).getGroup, hgone, if_true]

/-- When the slice owes no beats, an issue notes its slice, and on its group the return of its results. -/
theorem closeIssue_unowed (s0 : State) {gid : Nat} (g0 : Group) (ws : List DWord) {s : State} {g : Group}
    (hg : getGroup s gid = some g) :
    ∃ last missed, closeIssue s0 gid g0 ws 0 s =
      setGroup (noteFreed (useSlice s gid g0) gid g0) gid (noteIssue s.cycle last ws missed g0 g) := by
  have hnotes := sliceNotes_onlyCores s gid g0
  have hcycle : (noteFreed (useSlice s gid g0) gid g0).cycle = s.cycle := by rw [hnotes]
  refine ⟨sliceBusy (useSlice s gid g0) g0 - 1,
    missedL1 s0 (noteFreed (useSlice s gid g0) gid g0) g0.core (Sys2Proof.opcodeOf (ws.headD 0)), ?_⟩
  simp only [closeIssue, hnotes.getGroup, hg, if_true, hcycle]

/-! ### What an issue notes on its group -/

/-- A result without the cycles after its beat at which it returns. -/
def timeless (e : Pend) : Pend := { e with lat := 0 }

/-- An issue notes on its group when results return, and nothing else. -/
theorem noteIssue_eq (now last : Nat) (ws : List DWord) (missed : Bool) (g0 g : Group) :
    let h := noteIssue now last ws missed g0 g
    h = { g with
      pend := h.pend, freeAt := h.freeAt, fixedBack := h.fixedBack, lateBack := h.lateBack
      missBack := h.missBack, lastStall := h.lastStall, passFrom := h.passFrom
      beatWords := h.beatWords, beatLanes := h.beatLanes, beatPend := h.beatPend } := by
  unfold noteIssue dropExited
  generalize beatFacts ws = facts
  obtain ⟨lanes, sync⟩ := facts
  rfl

theorem timeless_noteLat (now n : Nat) (e : Pend) : timeless (noteLat now n e) = timeless e := by
  unfold noteLat
  split <;> rfl

/-- The results that an issue leaves outstanding: those before it, returning perhaps later, without some of lanes that exited. -/
theorem noteIssue_pend (now last : Nat) (ws : List DWord) (missed : Bool) (g0 g : Group) :
    ∃ (later : Pend → Pend) (returned : Pend → Bool), (∀ e, timeless (later e) = timeless e) ∧
      (noteIssue now last ws missed g0 g).pend = (g.pend.map later).filter fun e =>
        e.uni || !(g0.live &&& ~~~g.live).getLsbD e.lane || returned e := by
  unfold noteIssue dropExited
  dsimp only
  split
  · exact ⟨_, _, timeless_noteLat now _, rfl⟩
  · exact ⟨id, _, fun _ => rfl, by rw [List.map_id]⟩

/-- Marking results as returning later and dropping some that `stays` does not name leaves those that it names. -/
theorem filter_map_timeless (l : List Pend) (later : Pend → Pend) (stays returned : Pend → Bool)
    (hlater : ∀ e, timeless (later e) = timeless e) (hstays : ∀ e, stays (later e) = stays e) :
    let l' := (l.map later).filter fun e => stays e || returned e
    (l'.map timeless).Sublist (l.map timeless) ∧ (l'.filter stays).map timeless = (l.filter stays).map timeless := by
  have hz : timeless ∘ later = timeless := funext hlater
  have hs : stays ∘ later = stays := funext hstays
  constructor
  · calc (((l.map later).filter fun e => stays e || returned e).map timeless).Sublist ((l.map later).map timeless) :=
        List.filter_sublist.map timeless
      _ = l.map timeless := by rw [List.map_map, hz]
  · have habsorb : ∀ e, (stays e && (stays e || returned e)) = stays e := fun e => by cases stays e <;> rfl
    rw [List.filter_filter]
    simp only [habsorb]
    rw [List.filter_map, hs, List.map_map, hz]

/-- Two results alike but for their return are of the same lane, or both of no lane. -/
theorem uni_lane_of_timeless {a b : Pend} (h : timeless a = timeless b) : a.uni = b.uni ∧ a.lane = b.lane :=
  ⟨congrArg (fun e => e.uni) h, congrArg (fun e => e.lane) h⟩

/-- An issue drops none of the results that return to a lane that has not exited. -/
theorem noteIssue_keeps_results (now last : Nat) (ws : List DWord) (missed : Bool) (g0 g : Group) :
    let h := noteIssue now last ws missed g0 g
    let stays := fun (e : Pend) => e.uni || !(g0.live &&& ~~~g.live).getLsbD e.lane
    (h.pend.map timeless).Sublist (g.pend.map timeless) ∧ (h.pend.filter stays).map timeless = (g.pend.filter stays).map timeless := by
  obtain ⟨later, returned, hlater, hpend⟩ := noteIssue_pend now last ws missed g0 g
  intro h stays
  have hstays : ∀ e, stays (later e) = stays e := fun e => by
    obtain ⟨huni, hlane⟩ := uni_lane_of_timeless (hlater e)
    simp only [stays, huni, hlane]
  rw [show h.pend = _ from hpend]
  exact filter_map_timeless g.pend later stays returned hlater hstays

/-- When the slice owes no beats, a step adds to the instruction's effect notes on its own group, and on cores, alone. -/
theorem afterIssue_frame (s0 : State) (gid : Nat) (g0 : Group) (ws : List DWord) (s : State) :
    ∃ u, afterIssue s0 gid g0 ws 0 (.next s) = .next u ∧ u.mem = s.mem ∧ u.cycle = s.cycle ∧ u.teams = s.teams ∧
      (∀ n, n ≠ gid → getGroup u n = getGroup s n) ∧
      ∀ g, getGroup s gid = some g → ∃ last missed, getGroup u gid = some (noteIssue s.cycle last ws missed g0 g) := by
  refine ⟨_, rfl, ?_⟩
  have hnotes := sliceNotes_onlyCores s gid g0
  have hlast := noteGroup_onlyCores s0 g0.core gid (closeIssue s0 gid g0 ws 0 s)
  cases hg : getGroup s gid with
  | none =>
    rw [closeIssue_unowed_gone s0 g0 ws hg] at hlast ⊢
    have hu := hnotes.trans hlast
    exact ⟨by rw [hu], by rw [hu], by rw [hu], fun n _ => hu.getGroup n, fun g h => by cases h⟩
  | some g =>
    obtain ⟨last, missed, hclose⟩ := closeIssue_unowed s0 g0 ws hg
    rw [hclose] at hlast ⊢
    refine ⟨?_, ?_, ?_, fun n hn => ?_, fun g' h => ⟨last, missed, ?_⟩⟩
    · rw [hlast, setGroup_mem, hnotes]
    · rw [hlast, setGroup_cycle, hnotes]
    · rw [hlast, setGroup_teams, hnotes]
    · rw [hlast.getGroup, ← hnotes.getGroup n]
      exact tget_tset_other _ _ _ _ hn
    · cases h
      rw [hlast.getGroup]
      exact tget_tset_same _ _ _

/-- Settles O51: the sources of a step in their order, then the notes that follow an instruction. -/
theorem stepRunsDecoded : Obligations.StepRunsDecoded := by
  unfold Obligations.StepRunsDecoded
  refine ⟨?run, ?fetchFault, ?notes, fun s l r => step_of_lost, fun s x r => step_of_agenda,
    fun s i hlost hagenda => step_of_event hlost hagenda, fun s hlost hagenda => step_of_idle hlost hagenda⟩
  case run =>
    intro s gid g s1 ws hlost hagenda hready hfetch
    have hstep := step_of_ready hlost hagenda hready
    exact ⟨fun i hdecode => hstep.trans (stepGroup_of_decoded hfetch hdecode),
      fun e hdecode => hstep.trans (stepGroup_of_undecoded hfetch hdecode)⟩
  case fetchFault =>
    intro s gid g s1 va e hlost hagenda hready hfetch
    exact (step_of_ready hlost hagenda hready).trans (stepGroup_of_fetchFault hfetch)
  case notes =>
    intro s0 gid g0 ws s
    obtain ⟨u, hrun, hmem, hcycle, hteams, hothers, hown⟩ := afterIssue_frame s0 gid g0 ws s
    refine ⟨u, hrun, hmem, hcycle, hteams, hothers, fun g hg => ?_⟩
    obtain ⟨last, missed, hgroup⟩ := hown g hg
    exact ⟨_, hgroup, noteIssue_eq s.cycle last ws missed g0 g, noteIssue_keeps_results s.cycle last ws missed g0 g⟩

end Sys2Proof.Machine
end

section
/-! PROOFS. The state at the end of reset. -/

namespace Sys2Proof.Machine

/-- Settles O56: every field by the definition of reset, the memory's form by `memory_wf_reset`. -/
theorem resetState : Obligations.ResetState := by
  unfold Obligations.ResetState
  exact ⟨rfl, rfl, rfl, rfl, rfl, rfl, rfl, rfl, rfl, rfl, rfl, rfl, rfl, rfl, rfl, memory_wf_reset⟩

end Sys2Proof.Machine
end

section
/-! PROOFS. What an operation over memory leaves alone: nothing differs but the memory, what watches it, and the count of free
values; every group that is resident stays. -/

namespace Sys2Proof.Machine

/-- From `s` to `t` nothing differs but the memory, the marks of groups and tail words that watch it, and the count of free values;
the same groups are resident. -/
structure MemOnly (s t : State) : Prop where
  rest : t = { s with mem := t.mem, groups := t.groups, tails := t.tails, fresh := t.fresh }
  keys : t.groups.map Prod.fst = s.groups.map Prod.fst

theorem MemOnly.refl (s : State) : MemOnly s s := ⟨rfl, rfl⟩

theorem MemOnly.trans {a b c : State} (h1 : MemOnly a b) (h2 : MemOnly b c) : MemOnly a c := by
  refine ⟨?_, h2.keys.trans h1.keys⟩
  rw [h2.rest, h1.rest]

/-- A change of the memory alone. -/
theorem MemOnly.setMem {a b : State} (h : MemOnly a b) (m : Mem) : MemOnly a { b with mem := m } :=
  h.trans ⟨rfl, rfl⟩

theorem MemOnly.ite {a b c : State} {p : Prop} [Decidable p] (hb : MemOnly a b) (hc : MemOnly a c) :
    MemOnly a (if p then b else c) := by split <;> assumption

theorem MemOnly.foldl {β : Type} {f : State → β → State} (hf : ∀ s b, MemOnly s (f s b)) (l : List β) (s : State) :
    MemOnly s (l.foldl f s) := by
  induction l generalizing s with
  | nil => exact .refl s
  | cons b r ih => exact (hf s b).trans (ih _)

theorem MemOnly.getCore {s t : State} (h : MemOnly s t) (k : Nat) : getCore t k = getCore s k := by rw [h.rest]; rfl

theorem tget_isSome_iff {α : Type} (t : Tab α) (k : Nat) : (tget t k).isSome = true ↔ k ∈ t.map Prod.fst := by
  induction t with
  | nil => simp [tget]
  | cons e r ih =>
    obtain ⟨a, b⟩ := e
    by_cases h : a = k
    · simp [tget, h]
    · simp [tget, h, ih, Ne.symm h]

/-- The same groups are resident. -/
theorem MemOnly.resident {s t : State} (h : MemOnly s t) (gid : Nat) :
    (getGroup t gid).isSome = true ↔ (getGroup s gid).isSome = true := by
  unfold getGroup
  rw [tget_isSome_iff, tget_isSome_iff, h.keys]

/-! ### Homes and copies -/

theorem drawKeep_memOnly (s : State) : MemOnly s (drawKeep s).1 := ⟨rfl, rfl⟩

theorem rekeyFrame_memOnly (s : State) (frame : Nat) (k : List Byte) : MemOnly s (rekeyFrame s frame k) :=
  .ite (.refl s) ((MemOnly.refl s).setMem _)

theorem underKey_memOnly {f : State → State} (hf : ∀ s, MemOnly s (f s)) (s : State) (σ : Nat) (k : List Byte) :
    MemOnly s (underKey s σ k f) :=
  ((rekeyFrame_memOnly s _ _).trans (hf _)).trans (rekeyFrame_memOnly _ _ _)

theorem noteOld_memOnly (s : State) (σ : Nat) : MemOnly s (noteOld s σ) :=
  .ite ((MemOnly.refl s).setMem _) (.refl s)

theorem pokeWatchers_memOnly (s : State) (σ : Nat) : MemOnly s (pokeWatchers s σ) :=
  ⟨rfl, by simp [pokeWatchers, tmap, Function.comp_def]⟩

theorem rawHome_memOnly (s : State) (σ : Nat) (bm : BitVec 64) (d : BitVec 512) (tag : BitVec 16) (codec : Bool) :
    MemOnly s (rawHome s σ bm d tag codec) :=
  ((noteOld_memOnly s σ).setMem _).trans (pokeWatchers_memOnly _ σ)

theorem dropCopy_memOnly (s : State) (agent σ : Nat) : MemOnly s (dropCopy s agent σ) := (MemOnly.refl s).setMem _

theorem putCopy_memOnly (s : State) (c : Copy) : MemOnly s (putCopy s c) := by
  have hold : MemOnly s (if (c.st = .owned && c.dirty != 0) = true then noteOld s c.sector else s) :=
    .ite (noteOld_memOnly s _) (.refl s)
  exact (hold.trans (dropCopy_memOnly _ _ _)).setMem _

theorem setPoison_memOnly (s : State) (σ : Nat) (on : Bool) : MemOnly s (setPoison s σ on) := (MemOnly.refl s).setMem _

theorem backWhole_memOnly (s : State) (c : Copy) : MemOnly s (backWhole s c) :=
  underKey_memOnly (fun s => (setPoison_memOnly s _ _).trans (rawHome_memOnly _ _ _ _ _ _)) s _ _

theorem recallOwner_memOnly (s : State) (σ : Nat) : MemOnly s (recallOwner s σ) := by
  unfold recallOwner
  split
  · exact .refl s
  · exact .ite (dropCopy_memOnly s _ _) ((dropCopy_memOnly s _ _).trans (backWhole_memOnly _ _))

theorem noteLost_memOnly (s : State) (l : Lost) : MemOnly s (noteLost s l) := (MemOnly.refl s).setMem _

theorem rdcPass_memOnly (s : State) (crown σ : Nat) : MemOnly s (rdcPass s crown σ) :=
  .ite (.refl s) ((MemOnly.refl s).setMem _)

theorem metaPass_memOnly (s : State) (core σ : Nat) : MemOnly s (metaPass s core σ) := (MemOnly.refl s).setMem _

theorem homeWrite_memOnly (s : State) (crown σ : Nat) (bm : BitVec 64) (d : BitVec 512) (tag : BitVec 16) (codec : Bool)
    (keep : Option (Nat × Nat)) : MemOnly s (homeWrite s crown σ bm d tag codec keep) := by
  have hdrop := ((recallOwner_memOnly s σ).setMem (dropTracked (recallOwner s σ) σ).mem).setMem
    (invalidateWindows (dropTracked (recallOwner s σ) σ) σ (wordsTouched bm) keep).mem
  exact .ite (.refl s) (.ite (noteLost_memOnly s _)
    (((hdrop.trans (setPoison_memOnly _ _ _)).trans (rdcPass_memOnly _ _ _)).trans (rawHome_memOnly _ _ _ _ _ _)))

theorem claim_memOnly {s t : State} (h : MemOnly s t) (before : State) (core : Nat) (team : Option Nat) :
    MemOnly s (claim before core team t) := h.setMem _

theorem pushWords_memOnly (s : State) (c : Copy) (wm : BitVec 16) : MemOnly s (pushWords s c wm) :=
  claim_memOnly (underKey_memOnly (fun s => (putCopy_memOnly s _).trans (homeWrite_memOnly _ _ _ _ _ _ _ _)) s _ _) _ _ _

theorem pushCopy_memOnly (s : State) (c : Copy) : MemOnly s (pushCopy s c) := by
  unfold pushCopy
  refine .ite (.refl s) ?_
  split
  · exact pushWords_memOnly s c _
  · exact (putCopy_memOnly s _).trans (backWhole_memOnly _ _)

theorem evict_memOnly (s : State) (agent σ : Nat) : MemOnly s (evict s agent σ) := by
  unfold evict
  split
  · exact (pushCopy_memOnly s _).trans (dropCopy_memOnly _ _ _)
  · exact .refl s

theorem settle_memOnly (s : State) (σ : Nat) : MemOnly s (settle s σ) :=
  .foldl (fun s _ => (drawKeep_memOnly s).trans (.ite (.refl _) (evict_memOnly _ _ _))) _ s

theorem homeRead_memOnly (s : State) (σ : Nat) : MemOnly s (homeRead s σ).1 :=
  (settle_memOnly s σ).trans (recallOwner_memOnly _ σ)

/-! ### Lines of the codec -/

theorem homeLine_memOnly (s : State) (line : Nat) : MemOnly s (homeLine s line).1 := by
  unfold homeLine
  generalize lineSectors line = sectors
  exact (MemOnly.foldl settle_memOnly sectors s).trans (.foldl recallOwner_memOnly sectors _)

theorem putLine_memOnly (s : State) (crown line : Nat) (b : List Byte) (tag : BitVec 16) (codec : Bool) :
    MemOnly s (putLine s crown line b tag codec) := by
  unfold putLine
  generalize List.range 4 = l
  refine .foldl (fun s i => ?_) l s
  exact homeWrite_memOnly s _ _ _ _ _ _ _

theorem homeExpanded_memOnly (s : State) (line : Nat) : MemOnly s (homeExpanded s line).1 := by
  unfold homeExpanded
  split
  · exact .refl s
  · have hline := homeLine_memOnly s line
    generalize homeLine s line = read at hline ⊢
    dsimp only
    split <;> exact hline

/-! ### Windows, releases and acquires -/

theorem putWindow_memOnly (s : State) (w : Window) : MemOnly s (putWindow s w) := (MemOnly.refl s).setMem _

theorem expandedWrite_memOnly (s : State) (core team σ : Nat) (words : BitVec 16) (d : BitVec 512) (tag : BitVec 16) :
    MemOnly s (expandedWrite s core team σ words d tag) := by
  unfold expandedWrite
  split
  · exact noteLost_memOnly s _
  · generalize lineSectors (σ / 4) = sectors
    have hline := (MemOnly.foldl (f := fun s x => evict s core x) (fun s x => evict_memOnly s core x) sectors s).trans
      (homeLine_memOnly _ (σ / 4))
    dsimp only
    split
    · exact hline.trans (putLine_memOnly _ _ _ _ _ _)
    · exact hline.trans (noteLost_memOnly _ _)

theorem windowBackWords_memOnly (spare : Bool) (s : State) (core index i : Nat) (wm : BitVec 16) :
    MemOnly s (windowBackWords spare s core index i wm) := by
  unfold windowBackWords
  split
  · exact .refl s
  · split
    · have hput := putWindow_memOnly s
      refine .ite (.refl s) (.ite (hput _) (claim_memOnly ?_ _ _ _))
      refine (((hput _).trans (evict_memOnly _ _ _)).trans (metaPass_memOnly _ _ _)).trans (underKey_memOnly (fun s => ?_) _ _ _)
      exact .ite (expandedWrite_memOnly s _ _ _ _ _ _) (homeWrite_memOnly s _ _ _ _ _ _ _)
    · exact .refl s

theorem windowFlush_memOnly (spare : Bool) (s : State) (core index : Nat) : MemOnly s (windowFlush spare s core index) := by
  unfold windowFlush
  split
  · exact .refl s
  · exact .foldl (fun s i => windowBackWords_memOnly spare s core index i _) _ s

theorem pushDirty_memOnly (spare : Bool) (s : State) (core : Nat) : MemOnly s (pushDirty spare s core) :=
  .foldl (fun s c => .ite (putCopy_memOnly s _) (pushCopy_memOnly s c)) _ s

theorem flushWindows_memOnly (spare : Bool) (s : State) (core team : Nat) (sc : Scope) :
    MemOnly s (flushWindows spare s core team sc) :=
  .foldl (f := fun s (w : Window) => windowFlush spare s core w.index) (fun s w => windowFlush_memOnly spare s core w.index) _ s

theorem epochRelease_memOnly (s : State) (core team : Nat) (sc : Scope) : MemOnly s (epochRelease s core team sc) :=
  .ite ((MemOnly.refl s).setMem _) ((MemOnly.refl s).setMem _)

/-- A release writes back what the core and its windows hold dirty, and nothing else. -/
theorem releaseAt_memOnly (s : State) (core team : Nat) (sc : Scope) : MemOnly s (releaseAt s core team sc) := by
  have hpush : MemOnly s (if scopeLe .bough sc = true then pushDirty false s core else s) :=
    .ite (pushDirty_memOnly false s core) (.refl s)
  exact (hpush.trans (flushWindows_memOnly false _ core team sc)).trans (epochRelease_memOnly _ core team sc)

/-- An acquire at .team touches the team's windows alone. -/
theorem acquireAt_team (s : State) (core team : Nat) : ∃ m, acquireAt s core team .team = { s with mem := m } := ⟨_, rfl⟩

theorem pushForEntry_memOnly (s : State) (core team : Nat) : MemOnly s (pushForEntry s core team) :=
  (pushDirty_memOnly false s core).trans (flushWindows_memOnly false _ core team .sys)

/-! ### Translation -/

theorem homeRead64_memOnly (s : State) (pa : Nat) : MemOnly s (homeRead64 s pa).1 := homeRead_memOnly s _

theorem walk_memOnly (part : Nat) (va : DWord) (lvl : Nat) (s : State) (t : Nat) : MemOnly s (walk part va lvl s t).1 := by
  induction lvl generalizing s t with
  | zero => exact .refl s
  | succ lvl ih =>
    have hread (pa : Nat) := (rekeyFrame_memOnly s (pa / 65536) (keyLoOf s part)).trans (homeRead64_memOnly _ pa)
    simp only [walk]
    split
    · exact .refl s
    · split
      · exact hread _
      · split
        · exact hread _
        · split
          · exact hread _
          · split
            · exact hread _
            · exact (hread _).trans (ih _ _)

theorem walkRoot_memOnly (s : State) (part : Nat) (va : DWord) (root : Nat) : MemOnly s (walkRoot s part va root).1 := by
  unfold walkRoot
  split
  · exact walk_memOnly part va 4 s root
  · exact .refl s

theorem checkLeaf_memOnly (s : State) (part : Nat) (k : Kind) (l : Leaf) (va : DWord) : MemOnly s (checkLeaf s part k l va).1 := by
  unfold checkLeaf
  split
  · exact rekeyFrame_memOnly s _ _
  · exact .refl s

theorem installTlb_memOnly (s : State) (core part ctx : Nat) (va : DWord) (l : Leaf) :
    MemOnly s (installTlb s core part ctx va l) :=
  .ite (.refl s) ((MemOnly.refl s).setMem _)

theorem tlbLookup_memOnly (l : List TlbEntry) (s : State) : MemOnly s (tlbLookup l s).1 := by
  induction l generalizing s with
  | nil => exact .refl s
  | cons e r ih =>
    simp only [tlbLookup]
    split
    · exact drawKeep_memOnly s
    · exact (drawKeep_memOnly s).trans (ih _)

theorem translateLeaf_memOnly (s : State) (w : Who) (va : DWord) (k : Kind) : MemOnly s (translateLeaf s w va k).1 := by
  unfold translateLeaf
  split
  · exact .refl s
  · dsimp only
    generalize s.mem.tlbs.filter _ = hits
    have hlook := tlbLookup_memOnly hits s
    split
    · exact hlook.trans (checkLeaf_memOnly _ _ _ _ _)
    · split
      · exact hlook
      · next c _ =>
        have hwalk := hlook.trans (walkRoot_memOnly (tlbLookup hits s).1 w.part va c.root)
        split
        · exact hwalk
        · next l _ =>
          have hcheck := hwalk.trans (checkLeaf_memOnly (walkRoot (tlbLookup hits s).1 w.part va c.root).1 w.part k l va)
          split
          · next hc => rw [hc] at hcheck; exact hcheck
          · next hc => rw [hc] at hcheck; exact hcheck.trans (installTlb_memOnly _ _ _ _ _ _)

theorem translatePages_memOnly (w : Who) (k : Kind) (ps : List Nat) (s : State) (acc : PageMap) :
    MemOnly s (translatePages w k ps s acc).1 := by
  induction ps generalizing s acc with
  | nil => exact .refl s
  | cons p r ih => exact (translateLeaf_memOnly s w _ k).trans (ih _ _)

/-! ### Reads by address -/

theorem physRead_memOnly (s : State) (pa n : Nat) : MemOnly s (physRead s pa n).1 := by
  unfold physRead
  dsimp only
  split
  · exact .refl s
  · generalize List.range _ = l
    have hfold : ∀ (acc : State × List Byte × Bool), MemOnly acc.1 (l.foldl (fun acc i =>
        ((homeRead acc.1 (pa / 64 + i)).1, acc.2.1 ++ bytesAt (homeRead acc.1 (pa / 64 + i)).2 0 64,
          acc.2.2 || (homeRead acc.1 (pa / 64 + i)).1.mem.poison.contains (pa / 64 + i))) acc).1 := by
      induction l with
      | nil => exact fun acc => .refl acc.1
      | cons i r ih =>
        intro acc
        rw [List.foldl_cons]
        refine (homeRead_memOnly acc.1 (pa / 64 + i)).trans ?_
        exact ih (_, _, _)
    exact hfold (s, [], false)

theorem mappedReadWith_memOnly (m : PageMap) (ps : List (DWord × Nat × Nat)) (lines : List (Nat × List Byte)) (s : State)
    (acc : List Byte) : MemOnly s (mappedReadWith m ps lines s acc).1 := by
  induction ps generalizing lines s acc with
  | nil => exact .refl s
  | cons p r ih =>
    simp only [mappedReadWith]
    split
    · exact .refl s
    · next l _ =>
      split
      · split
        · exact ih _ _ _
        · have hline := homeExpanded_memOnly s (leafPa l p.1 / 256)
          split
          · next hx => rw [hx] at hline; exact hline
          · next hx => rw [hx] at hline; exact hline.trans (ih _ _ _)
      · split
        · exact .refl s
        · exact (physRead_memOnly s _ _).trans (ih _ _ _)

/-- Reading bytes by address recalls copies and fills translation caches, and nothing else. -/
theorem virtRead_memOnly (s : State) (w : Who) (va : DWord) (n : Nat) : MemOnly s (virtRead s w va n).1 := by
  have hpages := translatePages_memOnly w .read (pagesOf va n) s []
  unfold virtRead
  dsimp only
  split
  · exact hpages
  · have hread := hpages.trans (mappedReadWith_memOnly (translatePages w .read (pagesOf va n) s []).2 (sectorPieces va n) []
      (translatePages w .read (pagesOf va n) s []).1 [])
    split
    · exact hread
    · exact hread

end Sys2Proof.Machine
end

section
/-! PROOFS. The state in which an issued instruction occupies its slice and in which it ends. -/

namespace Sys2Proof.Machine

/-- Ending an issued instruction that leaves its group's core and slice alone. -/
theorem finish_issued (s : State) (gid : Nat) {o g : Group} (beats len : Nat) (hslice : g.slice = o.slice)
    (hcore : g.core = o.core) : finish (setGroup s gid o) gid g beats len = setGroup (occupy s o beats) gid (advance g len) := by
  rw [finish_eq, occupy_congr s beats hslice hcore]

/-- The state of an instruction's issue, its slice taken. -/
theorem occupy_issued (s : State) (gid : Nat) (o : Group) (beats : Nat) :
    occupy (setGroup s gid o) o beats = setGroup (occupy s o beats) gid o := occupy_setGroup s gid o o beats

end Sys2Proof.Machine
end

section
/-! PROOFS. Folds: what stays readable, and what the writes of a list leave. -/

namespace Sys2Proof.Machine

/-- What no step of a fold touches reads as before. -/
theorem foldl_read_other {σ α β : Type} {read : σ → β} {f : σ → α → σ} {l : List α}
    (hkeep : ∀ s, ∀ x ∈ l, read (f s x) = read s) (s : σ) : read (l.foldl f s) = read s := by
  induction l generalizing s with
  | nil => rfl
  | cons x r ih =>
    rw [List.foldl_cons, ih fun s y hy => hkeep s y (List.mem_cons_of_mem _ hy), hkeep s x List.mem_cons_self]

/-- What one step of a fold writes, and every other step either leaves or writes the same, reads as written. -/
theorem foldl_read_mem {σ α β : Type} {read : σ → β} {f : σ → α → σ} {l : List α} {x : α} {v : β} (hx : x ∈ l)
    (hwrite : ∀ s, read (f s x) = v) (hkeep : ∀ s, ∀ y ∈ l, read (f s y) = read s ∨ read (f s y) = v) (s : σ) :
    read (l.foldl f s) = v := by
  have hstays : ∀ (r : List α) (s : σ), r ⊆ l → read s = v → read (r.foldl f s) = v := by
    intro r
    induction r with
    | nil => exact fun s _ h => h
    | cons y r ih =>
      intro s hr h
      rw [List.foldl_cons]
      exact ih _ (fun z hz => hr (List.mem_cons_of_mem _ hz)) ((hkeep s y (hr List.mem_cons_self)).elim (·.trans h) id)
  obtain ⟨before, after, rfl⟩ := List.append_of_mem hx
  rw [List.foldl_append, List.foldl_cons]
  exact hstays after _ (fun z hz => by simp [hz]) (hwrite _)

/-- A cell that a list of writes does not name keeps its value. -/
theorem cget_foldl_cset_other {w : Nat} {α : Type} {key : α → Nat} {val : α → BitVec w} {l : List α} {k : Nat}
    (hk : ∀ x ∈ l, k ≠ key x) (c : Cells w) : cget (l.foldl (fun c x => cset c (key x) (val x)) c) k = cget c k :=
  foldl_read_other (read := fun c => cget c k) (fun c x hx => cget_cset_other c _ _ _ (hk x hx)) c

/-- A cell that a list of writes names holds the value written, where writes of one cell agree. -/
theorem cget_foldl_cset_mem {w : Nat} {α : Type} {key : α → Nat} {val : α → BitVec w} {l : List α} {x : α} (hx : x ∈ l)
    (hagree : ∀ y ∈ l, key y = key x → val y = val x) (c : Cells w) :
    cget (l.foldl (fun c x => cset c (key x) (val x)) c) (key x) = val x := by
  refine foldl_read_mem (read := fun c => cget c (key x)) hx (fun c => cget_cset_same c _ _) (fun c y hy => ?_) c
  by_cases h : key y = key x
  · exact .inr (by rw [cget_cset, if_pos h.symm, hagree y hy h])
  · exact .inl (cget_cset_other c _ _ _ (Ne.symm h))

end Sys2Proof.Machine
end

section
/-! PROOFS. Numbers of the matrix unit: E8M0 scales, and the integer class. -/

namespace Sys2Proof.Machine

/-- Settles O60: a code of 8 bits is its own remainder. -/
theorem scaleFormat : Obligations.ScaleFormat := by
  unfold Obligations.ScaleFormat
  refine ⟨fun e he => ?_, rfl⟩
  have hcode : e % 256 = e := Nat.mod_eq_of_lt (by omega)
  simp only [fdecode, hcode, if_neg (show e ≠ 255 by omega)]

/-! ### Words as integers -/

theorem sextInt_eq_toInt {w : Nat} (hw : 0 < w) (v : Nat) : sextInt w v = (BitVec.ofNat w v).toInt := by
  have hpow : 2 ^ w = 2 * 2 ^ (w - 1) := by rw [← pow_succ', Nat.sub_add_cancel hw]
  rw [BitVec.toInt_eq_toNat_cond, BitVec.toNat_ofNat, sextInt]
  by_cases hneg : v % 2 ^ w < 2 ^ (w - 1)
  · rw [if_pos hneg, if_pos (by omega)]
  · rw [if_neg hneg, if_neg (by omega)]

theorem truncInt_eq_toNat (w : Nat) (x : Int) : truncInt w x = (BitVec.ofInt w x).toNat := by
  rw [truncInt, BitVec.toNat_ofInt]

theorem clampTo_i32 (x : Int) : clampTo .i32 x = min (max x (-2 ^ 31)) (2 ^ 31 - 1) := rfl

theorem foldl_add_eq_sum {α : Type} (f : α → Int) (l : List α) (c : Int) :
    l.foldl (fun acc x => acc + f x) c = c + (l.map f).sum := by
  induction l generalizing c with
  | nil => simp
  | cons x r ih => rw [List.foldl_cons, ih, List.map_cons, List.sum_cons, add_assoc]

/-- The dot product of two lists of signed bytes, added to an integer (R101). -/
theorem dotInt_i8 (sat : Bool) (c : Int) {α : Type} (l : List α) (a b : α → Nat) :
    dotInt .i8 sat c (l.map a) (l.map b) = (BitVec.ofInt 32
      (let x := c + (l.map fun k => (BitVec.ofNat 8 (a k)).toInt * (BitVec.ofNat 8 (b k)).toInt).sum
       if sat then min (max x (-2 ^ 31)) (2 ^ 31 - 1) else x)).toNat := by
  have hval (v : Nat) : (if Ty.isI .i8 = true then sextInt 8 v else (v : Int)) = (BitVec.ofNat 8 v).toInt :=
    sextInt_eq_toInt (w := 8) (by decide) v
  simp only [dotInt, hval, List.zip_map', foldl_add_eq_sum, List.map_map, Function.comp_def, clampTo_i32, truncInt_eq_toNat]

/-- An element of the integer class: the dot product of a row of the left tile and a column of the right (R101). -/
theorem mmaElem_integer (fmt : Word) (scale : Nat → FVal) (old left right : Nat) :
    mmaElem fmt .integer .i8 .i8 scale old (lineElems (tileWidth .i8) left) (lineElems (tileWidth .i8) right) =
      (BitVec.ofInt 32
      (let x := sextInt 32 old +
        ((List.range 32).map fun k => (BitVec.ofNat 8 (lineElem 8 left k)).toInt * (BitVec.ofNat 8 (lineElem 8 right k)).toInt).sum
       if fmtSat fmt then min (max x (-2 ^ 31)) (2 ^ 31 - 1) else x)).toNat :=
  dotInt_i8 (fmtSat fmt) (sextInt 32 old) (List.range 32) _ _

/-! ### The elements that an integer MMA writes -/

/-- The elements of the live rows. -/
def liveCells (live : BitVec 64) : List (Nat × Nat) := (liveRows live).flatMap fun row => (List.range 64).map (Prod.mk row)

theorem mem_liveCells (live : BitVec 64) (row col : Nat) :
    (row, col) ∈ liveCells live ↔ (row < 64 ∧ live.getLsbD row = true) ∧ col < 64 := by
  simp [liveCells, liveRows, below]

/-- Elements of an accumulator have keys of their own. -/
theorem accKey_inj {a b row row' col col' : Nat} (hrow : row < 64) (hrow' : row' < 64) (hcol : col < 64) (hcol' : col' < 64) :
    accKey a row col = accKey b row' col' ↔ a = b ∧ row = row' ∧ col = col' := by
  unfold accKey; omega

/-- Writing elements one after another writes their cells. -/
theorem foldl_setAcc {α : Type} (a : Nat) (row col val : α → Nat) (l : List α) (g : Group) :
    l.foldl (fun g x => setAcc g a (row x) (col x) (val x)) g =
      { g with acc := l.foldl (fun c x => cset c (accKey a (row x) (col x)) (BitVec.ofNat 32 (val x))) g.acc } := by
  induction l generalizing g with
  | nil => rfl
  | cons x r ih => rw [List.foldl_cons, ih]; rfl

/-- The rows of an MMA write the elements of the live rows, in the columns' order. -/
theorem foldl_mmaRow (g0 : Group) (fmt : Word) (c : MClass) (t u : Ty) (a ta tb : Nat) (ts : Option Nat)
    (live : BitVec 64) (g : Group) : (liveRows live).foldl (mmaRow g0 fmt c t u a ta tb ts) g = (liveCells live).foldl (fun g x =>
      setAcc g a x.1 x.2 (mmaElem fmt c t u (tileScale g0 ts x.1 x.2) (accElem g0 a x.1 x.2)
        (lineElems (tileWidth t) (tileLine g0 ta x.1)) (lineElems (tileWidth u) (tileLine g0 tb x.2)))) g := by
  rw [liveCells, List.foldl_flatMap]
  simp only [List.foldl_map]
  rfl

/-- Settles O58: the writes of an element agree, and its value is the dot product of its row and column. -/
theorem integerMatrix : Obligations.IntegerMatrix := by
  unfold Obligations.IntegerMatrix
  intro g fmt a ta tb live g' as bs sum
  have hg' : g' = _ := (foldl_mmaRow g fmt .integer .i8 .i8 a ta tb none live g).trans (foldl_setAcc a _ _ _ _ g)
  refine ⟨fun row col hrow hcol hlive => ?live, fun b row col hrow hcol hother => ?other⟩
  case live =>
    have hmem := (mem_liveCells live row col).mpr ⟨⟨hrow, hlive⟩, hcol⟩
    have hagree : ∀ y ∈ liveCells live, accKey a y.1 y.2 = accKey a row col → y = (row, col) := by
      rintro ⟨i, j⟩ hy hkey
      obtain ⟨⟨hi, -⟩, hj⟩ := (mem_liveCells live i j).mp hy
      obtain ⟨-, rfl, rfl⟩ := (accKey_inj hi hrow hj hcol).mp hkey
      rfl
    rw [hg', accElem]
    refine (congrArg BitVec.toNat (cget_foldl_cset_mem (key := fun x : Nat × Nat => accKey a x.1 x.2) hmem
      (fun y hy hkey => by rw [hagree y hy hkey]) g.acc)).trans ?_
    rw [mmaElem_integer, BitVec.ofNat_toNat, BitVec.setWidth_eq, sextInt_eq_toInt (by decide)]
  case other =>
    rw [hg', accElem, accElem]
    refine congrArg BitVec.toNat (cget_foldl_cset_other (key := fun x : Nat × Nat => accKey a x.1 x.2) ?_ g.acc)
    rintro ⟨i, j⟩ hy hkey
    obtain ⟨⟨hi, hlive⟩, hj⟩ := (mem_liveCells live i j).mp hy
    obtain ⟨rfl, rfl, rfl⟩ := (accKey_inj hrow hi hcol hj).mp hkey
    exact hother.elim (fun h => h rfl) fun h => by rw [hlive] at h; cases h

end Sys2Proof.Machine
end

section
/-! PROOFS. Mailboxes: what fills, empties and peeks, and who is served first. -/

namespace Sys2Proof.Machine

/-! ### Results of a mailbox read -/

theorem foldl_writeLane_onlyPend (ver : Ver) (d : Dst) (lanes : List Nat) (now v : Nat) (g : Group) :
    OnlyPend g (lanes.foldl (fun g i => writeLane g .variable ver now d false i v) g) :=
  foldl_onlyPend _ (fun g i => writeLane_onlyPend g .variable ver now d false i v (by simp)) lanes g

theorem writeMbx_onlyPend (g : Group) (uni : Bool) (ver : Ver) (d : Dst) (lanes : List Nat) (now v : Nat) :
    OnlyPend g (writeMbx g uni ver d lanes now v) := by
  unfold writeMbx
  split
  · exact writePlace_onlyPend _ _ _ _ _ _ _ _ (by simp)
  · exact foldl_writeLane_onlyPend ver d lanes now v g

/-- Whether the mailbox is full, written to a predicate where the instruction acts. -/
theorem writeFull_onlyPend (g : Group) (h : Hdr) (now : Nat) (d : PSel) (lanes : List Nat) (b : Bool) :
    OnlyPend g (if h.uni then writeSel g h .variable now d 0 b
      else lanes.foldl (fun g i => writeSel g h .variable now d i b) g) := by
  split
  · exact writeSel_onlyPend _ _ _ _ _ _ _ (by simp)
  · exact foldl_onlyPend _ (fun g i => writeSel_onlyPend g h .variable now d i b (by simp)) lanes g

/-! ### What each instruction does -/

theorem mbxw_runs (h : Hdr) (m : BitVec 5) (a : Src) : WhenIssued h fun s gid g o =>
    srcInRole (roleOf s g) false a = true → ∀ t, getTeam s g.team = some t →
    let len := instrLen h false
    let s0 := setGroup (occupy s o 1) gid o
    (actsIn o h s.cycle = none → exec (.mbxw h m a) s = Ends s gid o 1 (advance o len)) ∧
    (∀ i, actsIn o h s.cycle = some i →
      let v : Word := BitVec.ofNat 32 (readSrc o h i s.cycle 32 a)
      (t.mbxFull.getLsbD m.toNat = true → exec (.mbxw h m a) s = .next (park s0 gid o len (.mbxWrite m.toNat v))) ∧
      (t.mbxFull.getLsbD m.toNat = false → ∀ u, getTeam (releaseAt s0 o.core o.team .team) o.team = some u →
        exec (.mbxw h m a) s = .next (wakeMbx (setGroup (setTeam (releaseAt s0 o.core o.team .team) o.team (mbxFill u m.toNat v))
          gid (advance o len)) o.team m.toNat))) := by
  intro s gid g hissue hsrc t hteam
  have hrun : exec (.mbxw h m a) s = execMbxw h m a s := rfl
  rw [execMbxw, issue_runs false _ hissue] at hrun
  simp only [roleOf_setGroup, roleOf_openIssue, hsrc, setGroup_cycle, getTeam_setGroup, openIssue_team, hteam, Bool.not_true,
    Bool.false_eq_true, if_false, occupy_issued, finish_issued] at hrun
  rw [hrun]
  refine ⟨fun hidle => ?idle, fun i hacts => ⟨fun hfull => ?full, fun hempty u hu => ?empty⟩⟩
  case idle => simp only [hidle]; rfl
  case full => simp only [hacts, hfull, if_true]
  case empty =>
    rw [openIssue_team] at hu
    simp only [hacts, hempty, Bool.false_eq_true, if_false, hu, openIssue_team]

theorem mbxr_runs (h : Hdr) (m : BitVec 5) (d : Dst) : WhenIssued h fun s gid g o =>
    dstInRole (roleOf s g) h.uni false d = true → ∀ t, getTeam s g.team = some t →
    let len := instrLen h false
    let s0 := setGroup (occupy s o 1) gid o
    let lanes := if h.uni then [] else takingPart o h .w32 s.cycle
    (actsIn o h s.cycle = none → exec (.mbxr h m d) s = Ends s gid o 1 (advance o len)) ∧
    (actsIn o h s.cycle ≠ none →
      (t.mbxFull.getLsbD m.toNat = false →
        exec (.mbxr h m d) s = .next (park s0 gid o len (.mbxRead m.toNat h.uni h.ver d lanes))) ∧
      (t.mbxFull.getLsbD m.toNat = true →
        exec (.mbxr h m d) s = .next (wakeMbx (acquireAt (setGroup (setTeam s0 o.team (mbxEmpty t m.toNat)) gid
          (advance (writeMbx o h.uni h.ver d lanes s.cycle (cget t.mbx m.toNat).toNat) len)) o.core o.team .team) o.team
          m.toNat))) := by
  intro s gid g hissue hdst t hteam
  have hrun : exec (.mbxr h m d) s = execMbxr h m d s := rfl
  rw [execMbxr, issue_runs false _ hissue] at hrun
  simp only [roleOf_setGroup, roleOf_openIssue, hdst, setGroup_cycle, getTeam_setGroup, openIssue_team, hteam, Bool.not_true,
    Bool.false_eq_true, if_false, occupy_issued, finish_issued] at hrun
  rw [hrun]
  refine ⟨fun hidle => ?idle, fun hacts => ?acts⟩
  case idle => simp only [hidle]; rfl
  case acts =>
    obtain ⟨i, hi⟩ := Option.ne_none_iff_exists'.mp hacts
    refine ⟨fun hempty => ?empty, fun hfull => ?full⟩
    case empty => simp only [hi, hempty, Bool.false_eq_true, if_false, resultLanes]
    case full =>
      simp only [hi, hfull, if_true, resultLanes, openIssue_team, setTeam_cycle, setGroup_cycle, occupy_cycle, mbxValue]

theorem mbxp_runs (h : Hdr) (m : BitVec 5) (d : Dst) (full : PSel) : WhenIssued h fun s gid g o =>
    dstInRole (roleOf s g) h.uni false d = true → ∀ t, getTeam s g.team = some t →
    let len := instrLen h false
    let isFull := t.mbxFull.getLsbD m.toNat
    (actsIn o h s.cycle = none → exec (.mbxp h m d full) s = Ends s gid o 1 (advance o len)) ∧
    (actsIn o h s.cycle ≠ none →
      let lanes := if h.uni then [] else takingPart o h .w32 s.cycle
      let a := writeMbx o h.uni h.ver d lanes s.cycle (cget t.mbx m.toNat).toNat
      let g' := if h.uni then writeSel a h .variable s.cycle full 0 isFull
        else lanes.foldl (fun g i => writeSel g h .variable s.cycle full i isFull) a
      let u := setGroup (occupy s o 1) gid (advance g' len)
      exec (.mbxp h m d full) s = .next (if isFull then acquireAt u o.core o.team .team else u) ∧ OnlyPend o g' ∧
        getTeam u g.team = some t) := by
  intro s gid g hissue hdst t hteam
  have hrun : exec (.mbxp h m d full) s = execMbxp h m d full s := rfl
  rw [execMbxp, issue_runs false _ hissue] at hrun
  simp only [roleOf_setGroup, roleOf_openIssue, hdst, setGroup_cycle, getTeam_setGroup, openIssue_team, hteam, Bool.not_true,
    Bool.false_eq_true, if_false, finish_issued] at hrun
  rw [hrun]
  refine ⟨fun hidle => ?idle, fun hacts => ?acts⟩
  case idle => simp only [hidle]; rfl
  case acts =>
    obtain ⟨i, hi⟩ := Option.ne_none_iff_exists'.mp hacts
    intro lanes a g' u
    have hpend : OnlyPend (openIssue s g h) g' :=
      (writeMbx_onlyPend _ h.uni h.ver d lanes s.cycle _).trans (writeFull_onlyPend a h s.cycle full lanes _)
    refine ⟨?_, hpend, by simp [u, hteam]⟩
    simp only [hi, resultLanes, mbxValue]
    rw [finish_issued s gid 1 _ hpend.slice hpend.core, openIssue_team]

/-! ### Who is served -/

theorem mem_insertBy {α : Type} (le : α → α → Bool) (a x : α) (l : List α) : x ∈ insertBy le a l ↔ x = a ∨ x ∈ l := by
  induction l with
  | nil => simp [insertBy]
  | cons b r ih =>
    simp only [insertBy]
    split
    · simp
    · simp only [List.mem_cons, ih]; tauto

theorem mem_sortBy {α : Type} (le : α → α → Bool) (x : α) (l : List α) : x ∈ sortBy le l ↔ x ∈ l := by
  induction l with
  | nil => simp [sortBy]
  | cons a r ih => simp only [sortBy, mem_insertBy, List.mem_cons, ih]

/-- A group that waits on a mailbox is resident, and waits to read a full one or to write an empty one. -/
theorem mbxWaiters_mem {s : State} {tid m : Nat} {full : Bool} {gid : Nat} {g : Group} (h : (gid, g) ∈ mbxWaiters s tid m full) :
    (getGroup s gid).isSome = true ∧
      ((∃ k uni ver d lanes, g.wait = .mbxRead k uni ver d lanes) ∨ ∃ k v, g.wait = .mbxWrite k v) := by
  unfold mbxWaiters at h
  rw [mem_sortBy, List.mem_filter] at h
  obtain ⟨hmem, hwaits⟩ := h
  refine ⟨(tget_isSome_iff s.groups gid).mpr (List.mem_map_of_mem hmem), ?_⟩
  simp only [Bool.and_eq_true] at hwaits
  obtain ⟨-, hwaits⟩ := hwaits
  split at hwaits
  · next hw => exact .inl ⟨_, _, _, _, _, hw⟩
  · next hw => exact .inr ⟨_, _, hw⟩
  · cases hwaits

/-- A resident group that leaves its wait waits no more. -/
theorem leaveWait_free {s : State} {gid : Nat} (h : (getGroup s gid).isSome = true) :
    ∃ g, getGroup (leaveWait s gid) gid = some g ∧ g.wait = .none := by
  obtain ⟨g, hg⟩ := Option.isSome_iff_exists.mp h
  refine ⟨advance (awake s g) g.parkLen, ?_, rfl⟩
  simp only [leaveWait, hg, getGroup_setGroup]

/-- A waiting writer that is resident is served. -/
theorem leaveWait_serves {v : State} {gid : Nat} (tid m : Nat) (h : (getGroup v gid).isSome = true) :
    ∃ u g, (.next (wakeMbx (leaveWait v gid) tid m) : Out) = .next u ∧ getGroup u gid = some g ∧ g.wait = .none := by
  obtain ⟨g, hg, hfree⟩ := leaveWait_free h
  exact ⟨_, g, rfl, hg, hfree⟩

theorem getGroup_acquireAt_team (s : State) (core team gid : Nat) :
    getGroup (acquireAt s core team .team) gid = getGroup s gid := by
  obtain ⟨m, hm⟩ := acquireAt_team s core team
  rw [hm]; rfl

/-- The first of those that wait on a mailbox is served. -/
theorem mailboxWake_serves (s : State) (tid m : Nat) (t : Team) (gid : Nat) (g : Group) (rest : List (Nat × Group))
    (hteam : getTeam s tid = some t) (hfirst : mbxWaiters s tid m (t.mbxFull.getLsbD m) = (gid, g) :: rest) :
    ∃ u g', exec (.mailboxWake tid m) s = .next u ∧ getGroup u gid = some g' ∧ g'.wait = .none := by
  obtain ⟨hres, hwait⟩ := mbxWaiters_mem (by rw [hfirst]; exact List.mem_cons_self)
  have hexec : exec (.mailboxWake tid m) s = execMailboxWake tid m s := rfl
  rw [hexec]
  simp only [execMailboxWake, hteam, hfirst]
  obtain ⟨k, uni, ver, d, lanes, hw⟩ | ⟨k, v, hw⟩ := hwait
  case inl =>
    simp only [hw]
    obtain ⟨g', hg', hfree⟩ := leaveWait_free (s := setGroup (setTeam s tid (mbxEmpty t m)) gid
      (writeMbx g uni ver d lanes (setTeam s tid (mbxEmpty t m)).cycle (mbxValue t m))) (gid := gid) (by simp)
    exact ⟨_, g', rfl, (getGroup_acquireAt_team _ g.core tid gid).trans hg', hfree⟩
  case inr =>
    have hkept := ((releaseAt_memOnly s g.core tid .team).resident gid).mpr hres
    simp only [hw]
    split
    · exact leaveWait_serves tid m (v := setTeam _ _ _) hkept
    · exact leaveWait_serves tid m hkept

/-- Settles O25: each instruction by its issue, the wake by its first waiter. -/
theorem mailboxes : Obligations.Mailboxes := by
  unfold Obligations.Mailboxes
  exact ⟨mbxw_runs, mbxr_runs, mbxp_runs, mailboxWake_serves⟩

end Sys2Proof.Machine
end

section
/-! PROOFS. System instructions: held copies, translations and the two special registers that SSET writes. -/

namespace Sys2Proof.Machine

/-- An instruction that acts once per group (R454) does what its act says. -/
theorem onceRuns_of {i : Instr} {h : Hdr} {srcs : List (Src × Bool)} {act act' : State → Nat → Group → Nat → State}
    (meaning : State → Out) (hexec : ∀ s, exec i s = meaning s) (hmeaning : ∀ s, meaning s = onceOp s h srcs act)
    (hact : ∀ s gid o lane, act s gid o lane = act' s gid o lane) : OnceRuns i h srcs act' := by
  intro s gid g hissue hsrcs
  have hall : (srcs.all fun x => srcInRole (roleOf s g) x.2 x.1) = true := List.all_eq_true.mpr hsrcs
  have hrun := (hexec s).trans (hmeaning s)
  rw [onceOp, issue_runs false _ hissue] at hrun
  simp only [roleOf_setGroup, roleOf_openIssue, hall, setGroup_cycle, Bool.not_true, Bool.false_eq_true, if_false] at hrun
  rw [hrun]
  refine ⟨fun hidle => ?_, fun lane hacts => ?_⟩
  · simp only [hidle, finish_issued]; rfl
  · simp only [hacts, hact]

/-- A TLBI drops what it names when its context is privileged, and raises PRIVILEGE when it is not (R457). -/
theorem onceRuns_of_tlbi {i : Instr} {h : Hdr} {srcs : List (Src × Bool)} {which : Group → Nat → Nat → TlbEntry → Bool}
    (meaning : State → Out) (hexec : ∀ s, exec i s = meaning s) (hmeaning : ∀ s, meaning s = tlbiOp s h srcs which) :
    OnceRuns i h srcs fun s gid o lane =>
      if privileged s o then Invalidated s gid o (instrLen h false) (which o lane s.cycle)
      else raise s gid o (instrLen h false) ⟨14, 0, 0, o.mask, []⟩ := by
  refine onceRuns_of meaning hexec hmeaning fun s gid o lane => ?_
  cases hp : privileged s o with
  | true => simp only [Bool.not_true, Bool.false_eq_true, if_false, if_true]; rfl
  | false => simp only [Bool.not_false, Bool.false_eq_true, if_false, if_true]

theorem readSrc_lt (g : Group) (h : Hdr) (lane now w : Nat) (a : Src) : readSrc g h lane now w a < 2 ^ w := by
  have hpos : 0 < 2 ^ w := Nat.two_pow_pos w
  unfold readSrc
  split
  · next n =>
    have hlt := Int.emod_lt_of_pos (constInt n) (b := ((2 ^ w : Nat) : Int)) (by exact_mod_cast hpos)
    unfold truncInt
    omega
  · exact Nat.mod_lt _ hpos
  · split
    · split
      · exact Nat.mod_lt _ hpos
      · exact hpos
    · exact Nat.mod_lt _ hpos

/-- Zero stored to a generator's state stores 1 (R95): the test on the number is the test on the word. -/
theorem ofNat_orOne {n : Nat} (h : n < 2 ^ 32) :
    BitVec.ofNat 32 (if n = 0 then 1 else n) = if BitVec.ofNat 32 n = (0 : Word) then 1 else BitVec.ofNat 32 n := by
  have hzero : BitVec.ofNat 32 n = (0 : Word) ↔ n = 0 := by
    rw [← BitVec.toNat_inj, BitVec.toNat_ofNat, Nat.mod_eq_of_lt h]; rfl
  by_cases hn : n = 0
  · subst hn; rfl
  · rw [if_neg hn, if_neg (hzero.not.mpr hn)]

/-- SSET %rngstate writes the generator of each lane that takes part. -/
theorem ssetRngstate_writes (h : Hdr) (a : Src) : WhenIssued h fun s gid g o => srcInRole (roleOf s g) false a = true →
    let part := takingPart o h .w32 s.cycle
    ∃ rng, exec (.ssetRngstate h a) s =
        Ends s gid o (beatCount .w32 part) (advance { o with rng := rng } (instrLen h false)) ∧
      (∀ i, cget rng i = if i ∈ part then
        (let v : Word := BitVec.ofNat 32 (readSrc o h i (s.cycle + beatOffset .w32 part i) 32 a)
         if v = 0 then 1 else v) else cget o.rng i) := by
  intro s gid g hissue hsrc part
  have hrun : exec (.ssetRngstate h a) s = execSsetRngstate h a s := rfl
  rw [execSsetRngstate, issue_runs false _ hissue] at hrun
  simp only [roleOf_setGroup, roleOf_openIssue, hsrc, setGroup_cycle, Bool.not_true, Bool.false_eq_true, if_false] at hrun
  refine ⟨_, hrun.trans (congrArg Host.Outcome.next (finish_issued s gid _ _ rfl rfl)), fun i => ?_⟩
  split
  · next hi =>
    refine (cget_foldl_cset_mem (key := id) hi (fun j _ hj => by rw [show j = i from hj]) _).trans ?_
    exact ofNat_orOne (readSrc_lt _ _ _ _ _ _)
  · next hi => exact cget_foldl_cset_other (key := id) (fun j hj hij => hi (by rw [show i = j from hij]; exact hj)) _

/-- Settles O37: each instruction as one that acts once per group, and SSET %rngstate lane by lane. -/
theorem systemInstructions : Obligations.SystemInstructions := by
  unfold Obligations.SystemInstructions
  refine ⟨fun h a => ?rinvIndex, fun h => ?rinvAll, fun h a => ?rinvLevel, fun h va ctx => ?tlbiPage, fun h ctx => ?tlbiCtx,
    fun h => ?tlbiPart, ssetRngstate_writes, fun h a => ?ssetTrapvec⟩
  case rinvIndex => exact onceRuns_of (execRinvIndex h a) (fun _ => rfl) (fun _ => rfl) fun _ _ _ _ => rfl
  case rinvAll => exact onceRuns_of (execRinvAll h) (fun _ => rfl) (fun _ => rfl) fun _ _ _ _ => rfl
  case rinvLevel => exact onceRuns_of (execRinvLevel h a) (fun _ => rfl) (fun _ => rfl) fun _ _ _ _ => rfl
  case tlbiPage => exact onceRuns_of_tlbi (execTlbiPage h va ctx) (fun _ => rfl) fun _ => rfl
  case tlbiCtx => exact onceRuns_of_tlbi (execTlbiCtx h ctx) (fun _ => rfl) fun _ => rfl
  case tlbiPart => exact onceRuns_of_tlbi (execTlbiPart h) (fun _ => rfl) fun _ => rfl
  case ssetTrapvec => exact onceRuns_of (execSsetTrapvec h a) (fun _ => rfl) (fun _ => rfl) fun _ _ _ _ => ite_not _ _ _

end Sys2Proof.Machine
end

section
/-! PROOFS. Instructions that act on a tile or an accumulator at issue. -/

namespace Sys2Proof.Machine

/-- An instruction whose tile and accumulator no queued entry names acts at its issue (R388). -/
theorem matDirect_of_interlocked {i : Instr} {h : Hdr} {ok : Role → Bool} {tile acc : Option Nat}
    {act : Group → Nat → Group → Prop} {beats : Group → Nat → Nat} (f : Group → Nat → Group) (meaning : State → Out)
    (hexec : ∀ s, exec i s = meaning s)
    (hmeaning : ∀ s, meaning s = interlocked s h ok tile acc fun s _ g => (f g s.cycle, beats g s.cycle))
    (hslice : ∀ o now, (f o now).slice = o.slice) (hcore : ∀ o now, (f o now).core = o.core)
    (hact : ∀ o now, act o now (f o now)) : MatDirect i h ok tile acc act beats := by
  intro s gid g hissue hok hfree
  have hunnamed : namedBy (setGroup s gid (openIssue s g h)) gid (openIssue s g h) tile acc = false := hfree
  have hrun := (hexec s).trans (hmeaning s)
  rw [interlocked, issue_runs false _ hissue] at hrun
  simp only [roleOf_setGroup, roleOf_openIssue, hok, hunnamed, setGroup_cycle, Bool.not_true, Bool.false_eq_true, if_false] at hrun
  rw [finish_issued s gid _ _ (hslice _ _) (hcore _ _)] at hrun
  exact ⟨_, hrun, hact _ _⟩

/-! ### TZERO and ACLR (R394, R399) -/

/-- Dropping the cells of one register clears those and no other. -/
theorem cget_ckeep_ne {w : Nat} (c : Cells w) (n r k : Nat) :
    cget (ckeep c fun k => k / n != r) k = if k / n = r then 0 else cget c k := by
  rw [cget_ckeep]
  by_cases h : k / n = r <;> simp [h]

/-- What TZERO does to its group. -/
def zeroTile (h : Hdr) (t : BitVec 4) (o : Group) (now : Nat) : Group :=
  if (actsIn o h now).isSome then { o with tiles := ckeep o.tiles fun k => k / 2048 != t.toNat } else o

/-- What ACLR does to its group. -/
def clearAcc (h : Hdr) (a : BitVec 4) (o : Group) (now : Nat) : Group :=
  if (actsIn o h now).isSome then { o with acc := ckeep o.acc fun k => k / 4096 != a.toNat } else o

theorem zeroTile_eq (h : Hdr) (t : BitVec 4) (o : Group) (now : Nat) :
    zeroTile h t o now = { o with tiles := (zeroTile h t o now).tiles } := by
  unfold zeroTile; split <;> rfl

theorem clearAcc_eq (h : Hdr) (a : BitVec 4) (o : Group) (now : Nat) :
    clearAcc h a o now = { o with acc := (clearAcc h a o now).acc } := by
  unfold clearAcc; split <;> rfl

theorem tzero_direct (h : Hdr) (t : BitVec 4) : MatDirect (.tzero h t) h (fun r => tileOk r t) (some t.toNat) none (fun o now g' =>
    g' = { o with tiles := g'.tiles } ∧ (actsIn o h now = none → g' = o) ∧
    (actsIn o h now ≠ none → ∀ k, cget g'.tiles k = if k / 2048 = t.toNat then 0 else cget o.tiles k)) (fun _ _ => 1) := by
  refine matDirect_of_interlocked (zeroTile h t) (execTzero h t) (fun _ => rfl) (fun _ => rfl) (fun o now => ?_) (fun o now => ?_)
    fun o now => ⟨zeroTile_eq h t o now, fun hidle => ?idle, fun hacts k => ?acts⟩
  · rw [zeroTile_eq]
  · rw [zeroTile_eq]
  case idle => simp only [zeroTile, hidle, Option.isSome_none, Bool.false_eq_true, if_false]
  case acts =>
    rw [zeroTile, if_pos (Option.isSome_iff_ne_none.mpr hacts)]
    exact cget_ckeep_ne o.tiles 2048 t.toNat k

theorem aclr_direct (h : Hdr) (a : BitVec 4) : MatDirect (.aclr h a) h (fun r => accOk r a) none (some a.toNat) (fun o now g' =>
    g' = { o with acc := g'.acc } ∧ (actsIn o h now = none → g' = o) ∧
    (actsIn o h now ≠ none → ∀ k, cget g'.acc k = if k / 4096 = a.toNat then 0 else cget o.acc k)) (fun _ _ => 1) := by
  refine matDirect_of_interlocked (clearAcc h a) (execAclr h a) (fun _ => rfl) (fun _ => rfl) (fun o now => ?_) (fun o now => ?_)
    fun o now => ⟨clearAcc_eq h a o now, fun hidle => ?idle, fun hacts k => ?acts⟩
  · rw [clearAcc_eq]
  · rw [clearAcc_eq]
  case idle => simp only [clearAcc, hidle, Option.isSome_none, Bool.false_eq_true, if_false]
  case acts =>
    rw [clearAcc, if_pos (Option.isSome_iff_ne_none.mpr hacts)]
    exact cget_ckeep_ne o.acc 4096 a.toNat k

/-! ### The elements that ARD and AWR name (R400) -/

theorem takingPart_lt (g : Group) (h : Hdr) (w : Width) (now : Nat) {i : Nat} (hi : i ∈ takingPart g h w now) : i < 32 := by
  have := takingPart_enabled g h w now i hi
  simp only [enabledLanes, below, List.mem_filter, List.mem_range] at this
  exact this.1

theorem mem_accMoveCells {x : AccMove} {part : List Nat} {e : Nat × Nat × Nat} :
    e ∈ accMoveCells x part ↔ e.1 ∈ part ∧ e.2.1 = (if x.hi then 32 else 0) + e.1 ∧ e.2.2 < x.n1.toNat + 1 := by
  obtain ⟨lane, row, q⟩ := e
  simp only [accMoveCells, List.mem_flatMap, List.mem_map, List.mem_range, Prod.mk.injEq]
  constructor
  · rintro ⟨t, ht, q', hq, rfl, rfl, rfl⟩
    exact ⟨ht, rfl, hq⟩
  · rintro ⟨ht, rfl, hq⟩
    exact ⟨lane, ht, q, hq, rfl, rfl, rfl⟩

/-- Their rows are rows of an accumulator. -/
theorem accMoveCells_row_lt {x : AccMove} {g : Group} {now : Nat} {e : Nat × Nat × Nat}
    (he : e ∈ accMoveCells x (takingPart g x.h .w32 now)) : e.2.1 < 64 := by
  obtain ⟨hlane, hrow, -⟩ := mem_accMoveCells.mp he
  have hlt := takingPart_lt _ _ _ _ hlane
  split at hrow <;> omega

/-- Elements of two lanes, or of two counts of a lane, are two. -/
theorem accMoveCells_ext {x : AccMove} {part : List Nat} {e f : Nat × Nat × Nat} (he : e ∈ accMoveCells x part)
    (hf : f ∈ accMoveCells x part) (hlane : e.1 = f.1) (hcount : e.2.2 = f.2.2) : e = f := by
  obtain ⟨-, hrow, -⟩ := mem_accMoveCells.mp he
  obtain ⟨-, hrow', -⟩ := mem_accMoveCells.mp hf
  exact Prod.ext hlane (Prod.ext (by rw [hrow, hrow', hlane]) hcount)

/-- The first element of a lane stands after the elements of other lanes and before the lane's others. -/
theorem accMoveCells_split (x : AccMove) {part : List Nat} (hnodup : part.Nodup) {lane : Nat} (hlane : lane ∈ part) :
    ∃ before after, accMoveCells x part = before ++ (lane, (if x.hi then 32 else 0) + lane, 0) :: after ∧
      (∀ e ∈ before, e.1 ≠ lane) ∧ ∀ e ∈ after, e.1 = lane → e.2.2 ≠ 0 := by
  obtain ⟨p, r, rfl⟩ := List.append_of_mem hlane
  rw [List.nodup_append, List.nodup_cons] at hnodup
  obtain ⟨-, ⟨hr, -⟩, hp⟩ := hnodup
  refine ⟨accMoveCells x p, (List.range x.n1.toNat).map (fun q => (lane, (if x.hi then 32 else 0) + lane, q + 1)) ++
    accMoveCells x r, ?_, fun e he => ?_, fun e he hlane => ?_⟩
  · simp only [accMoveCells, List.flatMap_append, List.flatMap_cons, List.range_succ_eq_map, List.map_cons, List.map_map,
      Function.comp_def, List.cons_append]
  · exact hp _ (mem_accMoveCells.mp he).1 _ List.mem_cons_self
  · rcases List.mem_append.mp he with he | he
    · obtain ⟨q, -, rfl⟩ := List.mem_map.mp he
      exact Nat.succ_ne_zero q
    · exact absurd (hlane ▸ (mem_accMoveCells.mp he).1) hr

/-! ### AWR -/

/-- What AWR does to its group. -/
def writeRows (x : AccMove) (o : Group) (now : Nat) : Group :=
  (accMoveCells x (takingPart o x.h .w32 now)).foldl (fun g e =>
    setAcc g x.acc.toNat e.2.1 (x.col.toNat + e.2.2)
      (readPlace o (.v (x.v.toNat + e.2.2)) e.1 false (now + beatOffset .w32 (takingPart o x.h .w32 now) e.1))) o

theorem awr_direct (x : AccMove) : MatDirect (.awr x) x.h (accMoveOk x) none (some x.acc.toNat) (fun o now g' =>
    let part := takingPart o x.h .w32 now
    g' = { o with acc := g'.acc } ∧
    (x.col.toNat + x.n1.toNat < 64 → ∀ e ∈ accMoveCells x part,
      cget g'.acc (accKey x.acc.toNat e.2.1 (x.col.toNat + e.2.2)) =
        BitVec.ofNat 32 (readPlace o (.v (x.v.toNat + e.2.2)) e.1 false (now + beatOffset .w32 part e.1))) ∧
    (∀ k, (∀ e ∈ accMoveCells x part, k ≠ accKey x.acc.toNat e.2.1 (x.col.toNat + e.2.2)) →
      cget g'.acc k = cget o.acc k)) (fun o now => beatCount .w32 (takingPart o x.h .w32 now)) := by
  have hcells (o : Group) (now : Nat) := foldl_setAcc x.acc.toNat (fun e : Nat × Nat × Nat => e.2.1) (fun e => x.col.toNat + e.2.2)
    (fun e => readPlace o (.v (x.v.toNat + e.2.2)) e.1 false (now + beatOffset .w32 (takingPart o x.h .w32 now) e.1))
    (accMoveCells x (takingPart o x.h .w32 now)) o
  refine matDirect_of_interlocked (writeRows x) (execAwr x) (fun _ => rfl) (fun _ => rfl) (fun o now => ?_) (fun o now => ?_)
    fun o now => ?_
  · rw [writeRows, hcells]
  · rw [writeRows, hcells]
  intro part
  rw [writeRows, hcells]
  refine ⟨rfl, fun hcol e he => ?_, fun k hk => cget_foldl_cset_other hk o.acc⟩
  refine cget_foldl_cset_mem (key := fun e : Nat × Nat × Nat => accKey x.acc.toNat e.2.1 (x.col.toNat + e.2.2)) he
    (fun f hf hkey => ?_) o.acc
  obtain ⟨-, hfrow, hfcount⟩ := mem_accMoveCells.mp hf
  obtain ⟨-, herow, hecount⟩ := mem_accMoveCells.mp he
  obtain ⟨-, hrow, hcount⟩ :=
    (accKey_inj (accMoveCells_row_lt hf) (accMoveCells_row_lt he) (by omega) (by omega)).mp hkey
  rw [accMoveCells_ext hf he (by omega) (by omega)]

/-! ### ARD -/

theorem laneKey_inj {i j lane lane' : Nat} (h : lane < 32) (h' : lane' < 32) :
    laneKey i lane = laneKey j lane' ↔ i = j ∧ lane = lane' := by
  unfold laneKey; omega

/-- A place holds the word that an interlocked result writes to it at once. -/
theorem newestAt_writeInter (g : Group) (ver : Ver) (t i lane : Nat) {val : Nat} (hval : val < 2 ^ 32) :
    newestAt (writePlace g .inter ver false t (.v i) lane val) (.v i) lane = (val, some 0, none) := by
  have hfind : (g.pend.filter fun e => !e.at (.v i) lane).find? (·.at (.v i) lane) = none := by
    rw [List.find?_eq_none]
    intro e he
    simpa using (List.mem_filter.mp he).2
  simp only [newestAt, newestPend, writePlace, setBase, hfind, Option.getD_none, placeBase, cget_cset_same, BitVec.toNat_ofNat,
    Nat.mod_eq_of_lt hval]

/-- Every other place keeps what it held. -/
theorem newestAt_writeInter_other (g : Group) (ver : Ver) (t i lane val : Nat) (p : Place) (k : Nat)
    (hlane : lane < 32) (hk : k < 32) (hother : (p, k) ≠ (.v i, lane)) :
    newestAt (writePlace g .inter ver false t (.v i) lane val) p k = newestAt g p k := by
  have hbase : placeBase (writePlace g .inter ver false t (.v i) lane val) p k = placeBase g p k := by
    cases p with
    | v j =>
      have hne : laneKey j k ≠ laneKey i lane := fun h => by
        obtain ⟨rfl, rfl⟩ := (laneKey_inj hk hlane).mp h
        exact hother rfl
      simp only [writePlace, setBase, placeBase, cget_cset_other _ _ _ _ hne]
    | _ => rfl
  have hfind : (g.pend.filter fun e => !e.at (.v i) lane).find? (·.at p k) = g.pend.find? (·.at p k) := by
    rw [List.find?_filter]
    congr 1
    funext e
    by_cases he : e.at p k = true
    · obtain ⟨hep, hek⟩ := (Bool.and_eq_true _ _).mp he
      have hno : e.at (.v i) lane = false := by
        rw [Bool.eq_false_iff]
        intro hat
        obtain ⟨hp, hl⟩ := (Bool.and_eq_true _ _).mp hat
        rw [beq_iff_eq] at hep hek hp hl
        exact hother (by rw [← hep, ← hek, hp, hl])
      simp [he, hno]
    · simp [he]
  have hpend : (writePlace g .inter ver false t (.v i) lane val).pend = g.pend.filter fun e => !e.at (.v i) lane := rfl
  unfold newestAt newestPend
  rw [hpend, hfind, hbase]

theorem accElem_lt (g : Group) (a row col : Nat) : accElem g a row col < 2 ^ 32 := (cget g.acc (accKey a row col)).isLt

/-- An element that ARD moves stands in its register at once. -/
theorem ardCell_newest (x : AccMove) (now : Nat) (part : List Nat) (o g : Group) (e : Nat × Nat × Nat) :
    newestAt (ardCell x now part o g e) (.v (x.v.toNat + e.2.2)) e.1 =
      (accElem o x.acc.toNat e.2.1 (x.col.toNat + e.2.2), some 0, none) := by
  unfold ardCell
  dsimp only
  split
  · rw [pushLatch_newest_other _ _ _ _ _ _ _ _ (by simp) (by simp)]
    exact newestAt_writeInter _ _ _ _ _ (accElem_lt _ _ _ _)
  · exact newestAt_writeInter _ _ _ _ _ (accElem_lt _ _ _ _)

/-- It leaves every other register place, and the latches of a lane whose first element it is not. -/
theorem ardCell_newest_other (x : AccMove) (now : Nat) (part : List Nat) (o g : Group) {e : Nat × Nat × Nat} {p : Place} {k : Nat}
    (hlane : e.1 < 32) (hk : k < 32) (hplace : (p, k) ≠ (.v (x.v.toNat + e.2.2), e.1))
    (hlatch : e.2.2 = 0 → k = e.1 → p ≠ .l 0 ∧ p ≠ .l 1) : newestAt (ardCell x now part o g e) p k = newestAt g p k := by
  unfold ardCell
  dsimp only
  split
  · next hfirst =>
    rw [pushLatch_newest_other _ _ _ _ _ _ _ _ (fun h => (hlatch hfirst h.2).1 h.1) fun h => (hlatch hfirst h.2).2 h.1]
    exact newestAt_writeInter_other _ _ _ _ _ _ _ _ hlane hk hplace
  · exact newestAt_writeInter_other _ _ _ _ _ _ _ _ hlane hk hplace

/-- The first element of a lane becomes its l0, and the old l0 its l1 (R75). -/
theorem ardCell_latches (x : AccMove) (now : Nat) (part : List Nat) (o g : Group) {lane : Nat} (row : Nat) (hlane : lane < 32) :
    newestAt (ardCell x now part o g (lane, row, 0)) (.l 0) lane = (accElem o x.acc.toNat row x.col.toNat, some 0, none) ∧
      newestAt (ardCell x now part o g (lane, row, 0)) (.l 1) lane = newestAt g (.l 0) lane := by
  refine ⟨pushLatch_newest_zero _ _ _ _ _ _, (pushLatch_newest_one _ _ _ _ _ _).trans ?_⟩
  exact newestAt_writeInter_other _ _ _ _ _ _ _ _ hlane hlane (by simp)

/-- What ARD does to its group. -/
def readRows (x : AccMove) (o : Group) (now : Nat) : Group :=
  (accMoveCells x (takingPart o x.h .w32 now)).foldl (ardCell x now (takingPart o x.h .w32 now) o) o

theorem readRows_eq (x : AccMove) (o : Group) (now : Nat) :
    readRows x o now = { o with v := (readRows x o now).v, pend := (readRows x o now).pend } := by
  have hcell (part : List Nat) (g : Group) (e : Nat × Nat × Nat) :
      ∃ v pend, ardCell x now part o g e = { g with v := v, pend := pend } := by
    unfold ardCell
    dsimp only
    split <;> exact ⟨_, _, rfl⟩
  have hfold (part : List Nat) (l : List (Nat × Nat × Nat)) (g : Group) :
      ∃ v pend, l.foldl (ardCell x now part o) g = { g with v := v, pend := pend } := by
    induction l generalizing g with
    | nil => exact ⟨_, _, rfl⟩
    | cons e r ih =>
      obtain ⟨v, pend, he⟩ := hcell part g e
      rw [List.foldl_cons, he]
      exact ih _
  obtain ⟨v, pend, h⟩ := hfold (takingPart o x.h .w32 now) (accMoveCells x (takingPart o x.h .w32 now)) o
  rw [readRows, h]

/-- The registers that ARD names hold its elements. -/
theorem readRows_newest (x : AccMove) (o : Group) (now : Nat) {e : Nat × Nat × Nat}
    (he : e ∈ accMoveCells x (takingPart o x.h .w32 now)) : newestAt (readRows x o now) (.v (x.v.toNat + e.2.2)) e.1 =
      (accElem o x.acc.toNat e.2.1 (x.col.toNat + e.2.2), some 0, none) := by
  refine foldl_read_mem (read := fun g => newestAt g (.v (x.v.toNat + e.2.2)) e.1) he (fun g => ardCell_newest _ _ _ _ _ _)
    (fun g f hf => ?_) o
  have he32 := takingPart_lt _ _ _ _ (mem_accMoveCells.mp he).1
  have hf32 := takingPart_lt _ _ _ _ (mem_accMoveCells.mp hf).1
  by_cases hsame : e = f
  · exact .inr (hsame ▸ ardCell_newest _ _ _ _ _ _)
  · refine .inl (ardCell_newest_other _ _ _ _ _ hf32 he32 (fun h => hsame ?_) fun _ _ => ⟨by simp, by simp⟩)
    simp only [Prod.mk.injEq, Place.v.injEq] at h
    exact accMoveCells_ext he hf h.2 (by omega)

theorem readRows_latches (x : AccMove) (o : Group) (now : Nat) {lane : Nat} (hlane : lane ∈ takingPart o x.h .w32 now) :
    newestAt (readRows x o now) (.l 0) lane =
        (accElem o x.acc.toNat ((if x.hi then 32 else 0) + lane) x.col.toNat, some 0, none) ∧
      newestAt (readRows x o now) (.l 1) lane = newestAt o (.l 0) lane := by
  have hlt := takingPart_lt _ _ _ _ hlane
  obtain ⟨before, after, hcells, hbefore, hafter⟩ := accMoveCells_split x (takingPart_nodup o x.h .w32 now) hlane
  have hlanes : ∀ e ∈ before ++ (lane, (if x.hi then 32 else 0) + lane, 0) :: after, e.1 < 32 := fun e he =>
    takingPart_lt _ _ _ _ (mem_accMoveCells.mp (hcells ▸ he)).1
  have hkept (n : Nat) (g : Group) : newestAt (after.foldl (ardCell x now (takingPart o x.h .w32 now) o) g) (.l n) lane =
      newestAt g (.l n) lane :=
    foldl_read_other (read := fun g => newestAt g (.l n) lane) (fun g e he => ardCell_newest_other _ _ _ _ _
      (hlanes e (by simp [he])) hlt (by simp) fun hfirst hl => absurd hfirst (hafter e he hl.symm)) g
  have hold : newestAt (before.foldl (ardCell x now (takingPart o x.h .w32 now) o) o) (.l 0) lane = newestAt o (.l 0) lane :=
    foldl_read_other (read := fun g => newestAt g (.l 0) lane) (fun g e he => ardCell_newest_other _ _ _ _ _
      (hlanes e (by simp [he])) hlt (by simp) fun _ hl => absurd hl.symm (hbefore e he)) o
  rw [readRows, hcells, List.foldl_append, List.foldl_cons, hkept, hkept]
  obtain ⟨hzero, hone⟩ := ardCell_latches x now (takingPart o x.h .w32 now) o
    (before.foldl (ardCell x now (takingPart o x.h .w32 now) o) o) ((if x.hi then 32 else 0) + lane) hlt
  exact ⟨hzero, hone.trans hold⟩

theorem readRows_newest_other (x : AccMove) (o : Group) (now : Nat) {p : Place} {lane : Nat} (hlane : lane < 32)
    (hplace : ∀ e ∈ accMoveCells x (takingPart o x.h .w32 now), (p, lane) ≠ (.v (x.v.toNat + e.2.2), e.1))
    (hlatch : lane ∈ takingPart o x.h .w32 now → p ≠ .l 0 ∧ p ≠ .l 1) :
    newestAt (readRows x o now) p lane = newestAt o p lane := by
  refine foldl_read_other (read := fun g => newestAt g p lane) (fun g e he => ?_) o
  have hmem := (mem_accMoveCells.mp he).1
  exact ardCell_newest_other _ _ _ _ _ (takingPart_lt _ _ _ _ hmem) hlane (hplace e he) fun _ hl => hlatch (hl ▸ hmem)

/-- Settles O31: each instruction by what it does to its group once no queued entry names what it acts on. -/
theorem tilesAndAccumulators : Obligations.TilesAndAccumulators := by
  unfold Obligations.TilesAndAccumulators
  refine ⟨tzero_direct, aclr_direct, fun x => ?ard, awr_direct⟩
  case ard =>
    refine matDirect_of_interlocked (readRows x) (execArd x) (fun _ => rfl) (fun _ => rfl) (fun o now => ?_) (fun o now => ?_)
      fun o now => ⟨readRows_eq x o now, fun e => readRows_newest x o now, fun lane => readRows_latches x o now,
        fun p lane => readRows_newest_other x o now⟩
    · rw [readRows_eq]
    · rw [readRows_eq]

end Sys2Proof.Machine
end

section
/-! PROOFS. The matrix queue: what its next entry does when it performs, and what its retirement takes off. -/

namespace Sys2Proof.Machine

/-! ### The group of an entry -/

theorem putEntryGroup_cycle (s : State) (core gid : Nat) (g : Group) : (putEntryGroup s core gid g).cycle = s.cycle := by
  unfold putEntryGroup
  split <;> rfl

/-- The group written for an entry, resident or retired, is the one read back. -/
theorem entryGroup_putEntryGroup (s : State) (core gid : Nat) (g : Group) :
    entryGroup (putEntryGroup s core gid g) core gid = some g := by
  unfold putEntryGroup
  split
  · simp only [entryGroup, getGroup_setGroup]
  · next hgone => simp only [entryGroup, getGroup_setCore, hgone, getCore_setCore, tget_tset_same]

/-- The time at which the array is free is no part of a group. -/
theorem entryGroup_arrayFree (s : State) (core gid free : Nat) :
    entryGroup (setCore s core { getCore s core with arrayFree := free }) core gid = entryGroup s core gid := by
  simp only [entryGroup, getGroup_setCore, getCore_setCore]

/-! ### The next entry performs (R387, R390) -/

/-- An entry of a core's matrix queue is marked finished. -/
def markFinished (core id till : Nat) (terms : List Nat) (t : State) : State :=
  setCore t core { getCore t core with
    mat := (getCore t core).mat.map fun x => if x.id == id then { x with finish := some till, terms := terms } else x }

/-- What a TST writes: each line of its tile, at the line's address (R393). -/
def tileItems (g : Group) (t : Nat) (a : DWord) (st : Int) (n : Nat) : List (Item × List Byte) :=
  ((lineAddrs a st n).zipIdx).map fun x => (lineItem x.1, leBytes 32 (tileLine g t x.2))

section
variable {s : State} {core : Nat} {before rest : List MatEntry} {e : MatEntry} {g : Group}
  (hnext : nextEntry (getCore s core) = some (before, e, rest)) (hstart : matMayStart s core before e = true)
  (hgroup : entryGroup s core e.gid = some g)
include hnext hstart hgroup

/-- The next entry that may start does what its act says, and is then marked finished. -/
theorem performMat_runs {kind : MatOp → Bool} (hkind : kind e.op = true)
    (act : State → MatEntry → Group → State × Nat × List Nat) :
    performMat core kind s act = .next (markFinished core e.id (act s e g).2.1 (act s e g).2.2 (act s e g).1) := by
  simp only [performMat, hnext, hstart, hgroup, hkind, Bool.not_true, Bool.or_false, Bool.false_eq_true, if_false, markFinished]

theorem tldPerform_writes {t n : Nat} {a : DWord} {st : Int} {s1 : State} {lines : List (List Byte)} (hop : e.op = .tld t a st n)
    (hread : readRuns s (whoOf s g) (leafMap e.pages) ((lineAddrs a st n).map fun va => lineItem va) = (s1, .ok lines)) :
    exec (.tldPerform core) s = .next (markFinished core e.id s1.cycle []
      (putEntryGroup s1 core e.gid (setTile g t fun n => leNat (lines.getD n [])))) := by
  have hrun : exec (.tldPerform core) s = execTldPerform core s := rfl
  rw [hrun, execTldPerform, performMat_runs hnext hstart hgroup (by rw [hop])]
  simp only [hop, hread]

theorem tstPerform_writes {t n : Nat} {a : DWord} {st : Int} {s1 : State} (hop : e.op = .tst t a st n)
    (hclean : ∀ c ∈ distinct ((tileItems g t a st n).map (·.1.sec)), fillsPoison s (whoOf s g) (tileItems g t a st n) c = none)
    (hwrite : writeRuns s (whoOf s g) (leafMap e.pages) (tileItems g t a st n) = (s1, true)) :
    exec (.tstPerform core) s =
      .next (markFinished core e.id (noteEntry s core .mat e.id s1).cycle [] (noteEntry s core .mat e.id s1)) := by
  have hrun : exec (.tstPerform core) s = execTstPerform core s := rfl
  unfold tileItems at hclean hwrite
  rw [hrun, execTstPerform, performMat_runs hnext hstart hgroup (by rw [hop])]
  simp only [hop, List.findSome?_eq_none_iff.mpr hclean, hwrite, if_true]

theorem tasmPerform_writes {t : Nat} {hi : Bool} {cells : List Byte} {m : BitVec 32} (hop : e.op = .tasm t hi cells m) :
    exec (.tasmPerform core) s = .next (markFinished core e.id s.cycle [] (putEntryGroup s core e.gid
      { g with tiles := csetMany g.tiles (t * 2048 + if hi then 1024 else 0) cells })) := by
  have hrun : exec (.tasmPerform core) s = execTasmPerform core s := rfl
  rw [hrun, execTasmPerform, performMat_runs hnext hstart hgroup (by rw [hop])]
  simp only [hop]

theorem acvtPerform_writes {t a part : Nat} {ty : Ty} (hop : e.op = .acvt t a part ty) :
    exec (.acvtPerform core) s = .next (markFinished core e.id s.cycle []
      (putEntryGroup s core e.gid (setTile g t fun n => acvtLine g e.fmt ty a part n))) := by
  have hrun : exec (.acvtPerform core) s = execAcvtPerform core s := rfl
  rw [hrun, execAcvtPerform, performMat_runs hnext hstart hgroup (by rw [hop])]
  simp only [hop]

theorem mmaExecute_writes {a ta tb m : Nat} {ts : Option Nat} {live : BitVec 64} {c : MClass} {t u : Ty}
    (hop : e.op = .mma a ta tb ts m live) (hclass : classOf e.fmt = some (c, t, u)) :
    let rows := liveRows live
    let terms := rows.map fun i => rowTerms c t (fmtFtz e.fmt) (tileLine g ta i)
    let busy := busyTime (passesOf u) terms
    ∃ s1, exec (.mmaExecute core) s = .next (markFinished core e.id (s.cycle + busy + 12) (termAdds (passesOf u) terms) s1) ∧
      (getCore s1 core).arrayFree = s.cycle + busy ∧
      entryGroup s1 core e.gid = some (rows.foldl (mmaRow g e.fmt c t u a ta tb ts) g) := by
  intro rows terms busy
  have hrun : exec (.mmaExecute core) s = execMmaExecute core s := rfl
  rw [execMmaExecute, performMat_runs hnext hstart hgroup (by rw [hop])] at hrun
  simp only [hop, hclass, putEntryGroup_cycle] at hrun
  exact ⟨_, hrun, by rw [getCore_setCore], (entryGroup_arrayFree _ _ _ _).trans (entryGroup_putEntryGroup _ _ _ _)⟩

end

/-! ### Retirement (R108, R387) -/

/-- The matrix queue and the term counters of a core are the same. -/
structure SameMatrix (core : Nat) (s t : State) : Prop where
  mat : (getCore t core).mat = (getCore s core).mat
  termc : (getCore t core).termc = (getCore s core).termc

theorem SameMatrix.refl (core : Nat) (s : State) : SameMatrix core s s := ⟨rfl, rfl⟩

theorem SameMatrix.trans {core : Nat} {a b c : State} (h1 : SameMatrix core a b) (h2 : SameMatrix core b c) : SameMatrix core a c :=
  ⟨h2.mat.trans h1.mat, h2.termc.trans h1.termc⟩

theorem MemOnly.sameMatrix {s t : State} (h : MemOnly s t) (core : Nat) : SameMatrix core s t := by
  constructor <;> rw [h.getCore]

/-- Taking a snapshot for a storage write reads memory and changes no core. -/
theorem takeSnap_memOnly (s : State) (core : Nat) (e : Entry) : MemOnly s (takeSnap s core e).1 := by
  unfold takeSnap
  split
  · split
    · next base n _ =>
      have hpush := pushForEntry_memOnly s core e.team
      have hrest : MemOnly s (snapRest (pushForEntry s core e.team) (entryWho core e) base n e.snap).1 := by
        unfold snapRest
        dsimp only
        split
        · exact hpush
        · have hread := hpush.trans (virtRead_memOnly (pushForEntry s core e.team) (entryWho core e) (BitVec.ofNat 64 base) n)
          split <;> exact hread
      dsimp only
      split <;> exact hrest
    · exact .refl s
  · exact .refl s

theorem takeSnaps_sameMatrix (s : State) (core : Nat) : SameMatrix core s (takeSnaps s core) := by
  unfold takeSnaps
  generalize (getCore s core).sto = l
  induction l generalizing s with
  | nil => exact .refl core s
  | cons e r ih =>
    rw [List.foldl_cons]
    refine ((takeSnap_memOnly s core e).sameMatrix core |>.trans ?_).trans (ih _)
    constructor <;> rw [getCore_setCore]

theorem wakeSlots_sameMatrix (s : State) (core : Nat) : SameMatrix core s (wakeSlots s core) :=
  (takeSnaps_sameMatrix s core).trans ⟨rfl, rfl⟩

theorem wakeSlots_mem {s : State} {core : Nat} (h : (getCore s core).sto = []) : (wakeSlots s core).mem = s.mem := by
  simp only [wakeSlots, takeSnaps, h, List.foldl_nil]

/-- Whether an entry's time to retire has come. -/
def retiresBy (now : Nat) (e : MatEntry) : Bool := match e.finish with | some t => decide (t ≤ now) | none => false

theorem matrixEntryRetire_takes (s : State) (core : Nat) (x : MatEntry)
    (hfirst : (getCore s core).mat.find? (retiresBy s.cycle) = some x) :
    ∃ t, exec (.matrixEntryRetire core) s = .next t ∧
      (getCore t core).mat = (getCore s core).mat.filter (fun y => y.id != x.id) ∧
      (getCore t core).termc = ((getCore s core).termc.zipIdx).map (fun y => y.1 + BitVec.ofNat 64 (x.terms.getD y.2 0)) ∧
      ((getCore s core).sto = [] → t.mem = s.mem) := by
  have hrun : exec (.matrixEntryRetire core) s = execMatrixEntryRetire core s := rfl
  rw [hrun, execMatrixEntryRetire]
  dsimp only
  split
  · next hnone => exact absurd (hfirst.symm.trans hnone) (Option.some_ne_none x)
  · next y hy =>
    obtain rfl : x = y := Option.some.inj (hfirst.symm.trans hy)
    refine ⟨_, rfl, ?mat, ?termc, fun hsto => ?mem⟩
    case mat => rw [(wakeSlots_sameMatrix _ core).mat, getCore_setCore]; rfl
    case termc => rw [(wakeSlots_sameMatrix _ core).termc, getCore_setCore]; rfl
    case mem => exact wakeSlots_mem (by rw [getCore_setCore]; exact hsto)

/-- Settles O33: each kind of entry by its act, retirement by what waking the waiting groups leaves alone. -/
theorem matrixPerforming : Obligations.MatrixPerforming := by
  unfold Obligations.MatrixPerforming
  refine ⟨fun s core before e rest g hnext hstart hgroup => ?performs, matrixEntryRetire_takes⟩
  case performs =>
    exact ⟨fun t a st n s1 lines => tldPerform_writes hnext hstart hgroup, fun t a st n s1 => tstPerform_writes hnext hstart hgroup,
      fun t hi cells m => tasmPerform_writes hnext hstart hgroup, fun t a part ty => acvtPerform_writes hnext hstart hgroup,
      fun a ta tb ts m live c t u => mmaExecute_writes hnext hstart hgroup⟩

end Sys2Proof.Machine
end

section
/-! PROOFS. The decoder and the encoder: what an instruction's words decode to, and the words of an unassigned opcode. -/

namespace Sys2Proof.Laws.Roundtrip

/-- Every instruction's words decode to it, by the lemma of its constructor; a step of the device's own has none. -/
theorem statement (i : Instr) : Statement i := by
  cases i with
  | nop h => exact nop h
  | bra h any off => exact bra h any off
  | bru h off => exact bru h off
  | brx h a => exact brx h a
  | call h link off => exact call h link off
  | callx h link a => exact callx h link a
  | ret h link => exact ret h link
  | dvg h p neg off => exact dvg h p neg off
  | cvg h => exact cvg h
  | exit h => exact exit h
  | yield h => exact yield h
  | spawn h a cnt off => exact spawn h a cnt off
  | regroup h pd mask => exact regroup h pd mask
  | vote h op d a => exact vote h op d a
  | voteMask h below d a => exact voteMask h below d a
  | elect h d => exact elect h d
  | shfl h op wrap ty d a b => exact shfl h op wrap ty d a b
  | matchL h ty d a => exact matchL h ty d a
  | plop h op d a b => exact plop h op d a b
  | setfmtImm h imm => exact setfmtImm h imm
  | setfmtReg h a => exact setfmtReg h a
  | getfmt h d => exact getfmt h d
  | sreg h d num => exact sreg h d num
  | iadd x => exact iadd x
  | iadd3 x => exact iadd3 x
  | isub x => exact isub x
  | ineg x => exact ineg x
  | iabs x => exact iabs x
  | imul x => exact imul x
  | imulh x => exact imulh x
  | imad x => exact imad x
  | idiv x => exact idiv x
  | irem x => exact irem x
  | imin x => exact imin x
  | imax x => exact imax x
  | icmp x => exact icmp x
  | isel h d a b sel ty => exact isel h d a b sel ty
  | and x => exact and x
  | or x => exact or x
  | xor x => exact xor x
  | not x => exact not x
  | andn x => exact andn x
  | shl x => exact shl x
  | shr x => exact shr x
  | sar x => exact sar x
  | rol x => exact rol x
  | popc x => exact popc x
  | clz x => exact clz x
  | ctz x => exact ctz x
  | brev x => exact brev x
  | bfx x => exact bfx x
  | bfi x => exact bfi x
  | perm x => exact perm x
  | lea x => exact lea x
  | mov x => exact mov x
  | movi h d sub imm => exact movi h d sub imm
  | ldi h d sub imm => exact ldi h d sub imm
  | cvti h d a dty sty sub => exact cvti h d a dty sty sub
  | fadd x => exact fadd x
  | fsub x => exact fsub x
  | fmul x => exact fmul x
  | fma x => exact fma x
  | fmin x => exact fmin x
  | fmax x => exact fmax x
  | fcmp x => exact fcmp x
  | fneg x => exact fneg x
  | fabs x => exact fabs x
  | frcp x => exact frcp x
  | frsq x => exact frsq x
  | fsqrt x => exact fsqrt x
  | fdiv x => exact fdiv x
  | fex2 x => exact fex2 x
  | flg2 x => exact flg2 x
  | fsin x => exact fsin x
  | fcos x => exact fcos x
  | ftanh x => exact ftanh x
  | fcls x => exact fcls x
  | fscl x => exact fscl x
  | frnd x => exact frnd x
  | fcvt x => exact fcvt x
  | fcvti x => exact fcvti x
  | icvtf x => exact icvtf x
  | hadd2 x => exact hadd2 x
  | hmul2 x => exact hmul2 x
  | hfma2 x => exact hfma2 x
  | dot4 x => exact dot4 x
  | ldOwn x => exact ldOwn x
  | ldWt x => exact ldWt x
  | ldSi x => exact ldSi x
  | ldUc x => exact ldUc x
  | stOwn x => exact stOwn x
  | stWt x => exact stWt x
  | stSi x => exact stSi x
  | stUc x => exact stUc x
  | lduOwn x => exact lduOwn x
  | lduWt x => exact lduWt x
  | lduSi x => exact lduSi x
  | lduUc x => exact lduUc x
  | lds x => exact lds x
  | sts x => exact sts x
  | pref h addr home n off => exact pref h addr home n off
  | zsect h addr ord scp off => exact zsect h addr ord scp off
  | wmap h data addr scp zero ft off => exact wmap h data addr scp zero ft off
  | wunmap x => exact wunmap x
  | wflush x => exact wflush x
  | winv x discard => exact winv x discard
  | wstat x => exact wstat x
  | clean x => exact clean x
  | inval x => exact inval x
  | atom x => exact atom x
  | atomcas x => exact atomcas x
  | red x => exact red x
  | fence h ord scp => exact fence h ord scp
  | qfence h set => exact qfence h set
  | barTeam h id => exact barTeam h id
  | barRole h id => exact barRole h id
  | bbar h id cnt => exact bbar h id cnt
  | mwait x => exact mwait x
  | tbinit x => exact tbinit x
  | tbarr x => exact tbarr x
  | tbwait x => exact tbwait x
  | cinit x => exact cinit x
  | cinitApp x => exact cinitApp x
  | cnext h ca pd => exact cnext h ca pd
  | cseek h ca t pd => exact cseek h ca t pd
  | cdesc x => exact cdesc x
  | cdescApp x => exact cdescApp x
  | cisec x => exact cisec x
  | cunion x => exact cunion x
  | ccrd x => exact ccrd x
  | cpos x => exact cpos x
  | cval x => exact cval x
  | cstv h ca a => exact cstv h ca a
  | capp h ca crd val => exact capp h ca crd val
  | cfin h ca => exact cfin h ca
  | cdone h ca pd => exact cdone h ca pd
  | cmov h cd ca => exact cmov h cd ca
  | csave h ca base off => exact csave h ca base off
  | crest h cd base off => exact crest h cd base off
  | cpref h ca n => exact cpref h ca n
  | tld x => exact tld x
  | tst x => exact tst x
  | tzero h t => exact tzero h t
  | tasm h t ca k0 hi w16 => exact tasm h t ca k0 hi w16
  | mma x => exact mma x
  | mmas x => exact mmas x
  | aclr h acc => exact aclr h acc
  | ard x => exact ard x
  | awr x => exact awr x
  | acvt h t acc part ty => exact acvt h t acc part ty
  | mfence h d => exact mfence h d
  | mwaitb h a all => exact mwaitb h a all
  | cpy h sb d mask => exact cpy h sb d mask
  | cpyt x => exact cpyt x
  | cpyc x => exact cpyc x
  | csum x => exact csum x
  | decq x => exact decq x
  | stq x => exact stq x
  | netq x => exact netq x
  | topk x => exact topk x
  | rmv x => exact rmv x
  | qstat h d q => exact qstat h d q
  | launch x q => exact launch x q
  | mbxw h m a => exact mbxw h m a
  | mbxr h m d => exact mbxr h m d
  | mbxp h m d full => exact mbxp h m d full
  | rres x => exact rres x
  | rpub x => exact rpub x
  | rtake x => exact rtake x
  | rrel x => exact rrel x
  | rinvIndex h a => exact rinvIndex h a
  | rinvAll h => exact rinvAll h
  | rinvLevel h a => exact rinvLevel h a
  | trap h code => exact trap h code
  | brk h code => exact brk h code
  | tlbiPage h va ctx => exact tlbiPage h va ctx
  | tlbiCtx h ctx => exact tlbiCtx h ctx
  | tlbiPart h => exact tlbiPart h
  | ssetRngstate h a => exact ssetRngstate h a
  | ssetTrapvec h a => exact ssetTrapvec h a
  | waitt h d a => exact waitt h d a
  | _ => exact fun _ hwords => absurd hwords Bool.false_ne_true

end Sys2Proof.Laws.Roundtrip

namespace Sys2Proof

/-- Well-formed instructions with the same words are the same, since those words decode to both. -/
theorem encode_inj {i j : Instr} (hi : i.wellFormed = true) (hj : j.wellFormed = true) (hwi : i.parts.isSome = true)
    (hwj : j.parts.isSome = true) (hwords : encode i = encode j) : i = j := by
  have hboth : Except.ok i = (Except.ok j : Except Illegal Instr) :=
    calc Except.ok i = decodeWords (encode i) := (Laws.Roundtrip.statement i hi hwi).symm
      _ = decodeWords (encode j) := by rw [hwords]
      _ = Except.ok j := Laws.Roundtrip.statement j hj hwj
  exact Except.ok.inj hboth

/-- A word of an unassigned opcode is an instruction by itself, whatever follows it. -/
theorem decodeWords_unassigned {w : DWord} (more : List DWord) (h : isUnassigned (opcodeOf w) = true) :
    decodeWords (w :: more) = .ok (.unassignedOpcode w) := if_pos h

/-- Settles O53: the round trip of each constructor, injectivity from it, and the decoder's first test. -/
theorem decodeEncode : Obligations.DecodeEncode := by
  unfold Obligations.DecodeEncode
  exact ⟨Laws.Roundtrip.statement, fun _ _ => encode_inj, fun _ => decodeWords_unassigned []⟩

/-- Settles O52: each word is a closed fact that the decoder computes. -/
theorem decodedWords : Obligations.DecodedWords := by
  unfold Obligations.DecodedWords
  decide

end Sys2Proof

namespace Sys2Proof.Machine

/-- Settles O59: the register's 64 bits plus the displacement, in 64-bit arithmetic. -/
theorem commandBlockAddress : Obligations.CommandBlockAddress := by
  unfold Obligations.CommandBlockAddress
  intro g h sb now d base
  constructor
  · rw [blockAddr, Option.getD_some, BitVec.toNat_add, BitVec.toNat_ofNat, Nat.mod_add_mod]
  · rw [blockAddr, Option.getD_none, BitVec.toNat_add, BitVec.toNat_ofNat, Nat.mod_add_mod]; rfl

end Sys2Proof.Machine
end

section
/-! PROOFS. No state stops the machine. -/

namespace Sys2Proof.Machine

/-- Whatever source `step` takes, what it runs answers a next state: a device step always does, an instruction's group is resident. -/
theorem goes_step (s : State) : Goes (step s) := by
  unfold step
  split
  · -- a loss that is due to be dealt with
    exact goes_next _
  · split
    · -- the agenda, which names steps of the device's own
      next x _ _ => exact goes_exec_device _ _ (by cases x <;> rfl)
    · split
      · -- the instruction of the ready group
        next gid g hready => exact goes_stepGroup s gid g (resident_readyGroup s gid g hready)
      · split
        · -- the device's own next step
          next i hevent => exact goes_exec_device i _ (device_nextEvent s i hevent)
        · -- a cycle passes
          exact goes_next _

/-- Settles O54: a step takes one of its five sources, each of which goes on. -/
theorem stepAlwaysGoesOn : Obligations.StepAlwaysGoesOn := by
  unfold Obligations.StepAlwaysGoesOn
  exact goes_step

end Sys2Proof.Machine
end

section
/-! PROOFS. Faults that a group's team catches: the results that stay outstanding, the trap registers, and the handler's entry. -/

namespace Sys2Proof.Machine

/-! ### What replacing registers leaves of a group -/

theorem OnlyRegs.slice {g g' : Group} (h : OnlyRegs g g') : g'.slice = g.slice := by rw [h]

theorem OnlyRegs.core {g g' : Group} (h : OnlyRegs g g') : g'.core = g.core := by rw [h]

theorem OnlyRegs.pc {g g' : Group} (h : OnlyRegs g g') : g'.pc = g.pc := by rw [h]

theorem OnlyRegs.parkLen {g g' : Group} (h : OnlyRegs g g') : g'.parkLen = g.parkLen := by rw [h]

theorem OnlyRegs.fmt {g g' : Group} (h : OnlyRegs g g') : g'.fmt = g.fmt := by rw [h]

theorem OnlyRegs.live {g g' : Group} (h : OnlyRegs g g') : g'.live = g.live := by rw [h]

/-! ### Results that stay outstanding -/

theorem setBase_pend (g : Group) (p : Place) (lane val : Nat) : (setBase g p lane val).pend = g.pend := by
  cases p with
  | p i => unfold setBase; dsimp only; split <;> rfl
  | _ => rfl

/-- Of the results that were outstanding, those that are due are no longer. -/
theorem retireDue_pend {g : Group} {now : Nat} {stays : Pend → Prop}
    (h : ∀ e ∈ g.pend, stays e ∨ ∃ d, e.due = some d ∧ d ≤ now) : ∀ e ∈ (retireDue g now).pend, stays e := by
  have hrev : ∀ e ∈ g.pend.reverse, stays e ∨ ∃ d, e.due = some d ∧ d ≤ now := fun e he => h e (List.mem_reverse.mp he)
  have hnone : ∀ e ∈ ({ g with pend := [] } : Group).pend, stays e := fun e he => absurd he List.not_mem_nil
  unfold retireDue
  revert hrev hnone
  generalize g.pend.reverse = l
  generalize ({ g with pend := [] } : Group) = acc
  intro hrev hacc
  induction l generalizing acc with
  | nil => exact hacc
  | cons x r ih =>
    rw [List.foldl_cons]
    refine ih _ (fun e he => hrev e (List.mem_cons_of_mem _ he)) ?_
    have hkept (hx : stays x) : ∀ e ∈ x :: acc.pend, stays e := List.forall_mem_cons.mpr ⟨hx, hacc⟩
    cases hdue : x.due with
    | none =>
      obtain hx | ⟨d, hd, -⟩ := hrev x List.mem_cons_self
      · exact hkept hx
      · exact nomatch hdue.symm.trans hd
    | some d =>
      dsimp only
      split
      · intro e he
        exact hacc e (setBase_pend acc _ _ _ ▸ (List.mem_filter.mp he).1)
      · next hlate =>
        obtain hx | ⟨d', hd, hle⟩ := hrev x List.mem_cons_self
        · exact hkept hx
        · exact absurd (Option.some.inj (hdue.symm.trans hd) ▸ hle) hlate

/-- Once every outstanding result is due, those alone stay that a ring entry owes (R120, R452). -/
theorem commitAll_pend_owed (g : Group) (now : Nat) : ∀ e ∈ (commitAll g now).pend, e.owed.isSome = true := by
  refine retireDue_pend fun e he => ?_
  obtain ⟨x, -, rfl⟩ := List.mem_map.mp he
  cases howed : x.owed with
  | none => exact .inr ⟨now, by simp, le_refl now⟩
  | some n => exact .inl (by simp [howed])

/-! ### %trapinfo (R473) -/

theorem trapInfo_fields (r : Raise) (depth : Nat) :
    (trapInfo r depth).extractLsb' 0 8 = BitVec.ofNat 8 r.cls ∧ (trapInfo r depth).extractLsb' 8 8 = BitVec.ofNat 8 r.cause ∧
    (trapInfo r depth).extractLsb' 16 12 = BitVec.ofNat 12 r.code ∧ (trapInfo r depth).getLsbD 28 = true ∧
    (trapInfo r depth).extractLsb' 29 5 = BitVec.ofNat 5 depth ∧ (trapInfo r depth).extractLsb' 34 30 = 0 := by
  have hfield (start len : Nat) (x : BitVec len) (h : (trapInfo r depth).toNat / 2 ^ start % 2 ^ len = x.toNat) :
      (trapInfo r depth).extractLsb' start len = x := by
    apply BitVec.eq_of_toNat_eq
    rw [BitVec.extractLsb'_toNat, Nat.shiftRight_eq_div_pow, h]
  have hnum : (trapInfo r depth).toNat =
      r.cls % 256 + r.cause % 256 * 2 ^ 8 + r.code % 4096 * 2 ^ 16 + 2 ^ 28 + depth % 32 * 2 ^ 29 := by
    rw [trapInfo, BitVec.toNat_ofNat]
    omega
  refine ⟨hfield 0 8 _ ?_, hfield 8 8 _ ?_, hfield 16 12 _ ?_, ?active, hfield 29 5 _ ?_, hfield 34 30 (BitVec.ofNat 30 0) ?_⟩
  case active =>
    rw [BitVec.getLsbD, hnum, Nat.testBit_eq_decide_div_mod_eq, decide_eq_true_eq]
    omega
  all_goals
    rw [hnum, BitVec.toNat_ofNat]
    omega

/-! ### Entry -/

section
variable {s : State} {gid len : Nat} {g : Group} {r : Raise} (hcatch : catchable r.cls = true) (hhandler : handlerOf s g ≠ 0)
include hcatch hhandler

/-- A second fault while one is handled, or a full stack, ends the context. -/
theorem raise_uncaught (h : trapActive g = true ∨ g.stack.length = 32) :
    raise s gid g len r = endContext s (raiseRec s g r) := by
  have hnest : (trapActive g || decide (g.stack.length ≥ 32)) = true := by
    obtain h | h := h <;> simp [h]
  simp only [raise, hcatch, hnest, bne_iff_ne, ne_eq, hhandler, not_false_eq_true, Bool.true_and, if_true]

/-- Else the group takes the trap. -/
theorem raise_caught (hactive : trapActive g = false) (hroom : g.stack.length < 32) :
    raise s gid g len r = takeTrap s gid g len r := by
  have hnest : (trapActive g || decide (g.stack.length ≥ 32)) = false := by simp [hactive, hroom]
  simp only [raise, hcatch, hnest, bne_iff_ne, ne_eq, hhandler, not_false_eq_true, Bool.true_and, if_true, Bool.false_eq_true,
    if_false]

end

/-- Each faulting lane's address stands in its cell. -/
theorem trapaddr_mem {addrs : List (Nat × DWord)} (hnodup : (addrs.map (·.1)).Nodup) {e : Nat × DWord} (he : e ∈ addrs) :
    cget (addrs.foldl (fun acc e => cset acc e.1 e.2) []) e.1 = e.2 :=
  cget_foldl_cset_mem he (fun _ hy hkey => congrArg Prod.snd (List.inj_on_of_nodup_map hnodup hy he hkey)) []

theorem trapaddr_other {addrs : List (Nat × DWord)} {n : Nat} (hn : n ∉ addrs.map (·.1)) :
    cget (addrs.foldl (fun acc e => cset acc e.1 e.2) []) n = 0 :=
  cget_foldl_cset_other (fun _ he hkey => hn (List.mem_map.mpr ⟨_, he, hkey.symm⟩)) []

/-- Settles O57: the three outcomes of a fault that a handler may catch. -/
theorem handlerEntry : Obligations.HandlerEntry := by
  unfold Obligations.HandlerEntry
  refine ⟨fun s gid g len r t hteam hvec hcatch _ _ hnodup => ?caught, fun _ _ _ _ => rfl⟩
  have hvec' : handlerOf s g = t.trapvec := by simp only [handlerOf, hteam]
  have hhandler : handlerOf s g ≠ 0 := hvec' ▸ hvec
  refine ⟨fun h => ⟨raiseRec s g r, raise_uncaught hcatch hhandler h, rfl⟩, fun hactive hroom howes => ?waits,
    fun hactive hroom howes => ?enters⟩
  case waits => rw [raise_caught hcatch hhandler hactive hroom, takeTrap, if_pos howes]
  case enters =>
    have hnot : ¬ ringOwes s gid g = true := by rw [howes]; exact Bool.false_ne_true
    rw [raise_caught hcatch hhandler hactive hroom, takeTrap, if_neg hnot, hvec']
    obtain ⟨hcls, hcause, hcode, hbit, hdepth, hrest⟩ := trapInfo_fields r g.stack.length
    have hregs := commitAll_onlyRegs g s.cycle
    exact ⟨_, rfl, commitAll_pend_owed g s.cycle, rfl, rfl, rfl, hcls, hcause, hcode, hbit, hdepth, hrest, rfl,
      fun _ => trapaddr_mem hnodup, fun _ => trapaddr_other, rfl, rfl, hregs.fmt, hregs.live⟩

end Sys2Proof.Machine
end

section
/-! PROOFS. The memory system's own steps: home writes, forced publication, the sweep of remote data, and what is counted. -/

namespace Sys2Proof.Machine

/-! ### Home writes (R231, R492) -/

/-- The agent whose incarnation a home write must carry. -/
def writerId (agent : Nat) : AgentId := if agent < 256 then .core agent else .bough (agent - 256)

section
variable {s : State} {agent σ : Nat} {inc : BitVec 8} (mask : BitVec 64) (data : BitVec 512)

/-- A write that carries its agent's incarnation reaches the sector's home under the tag of the agent's copy, whose words it cleans. -/
theorem homeWrite_held (hinc : inc = incarnationOf s (writerId agent)) {c : Copy} (hcopy : copyOf s agent σ = some c) :
    exec (.homeWrite ⟨agent, inc⟩ σ mask data) s = .next (homeWrite
      (if c.st = .untracked then putCopy s { c with dirty := c.dirty &&& ~~~(wordsTouched mask) } else s)
      (agentCrown agent) σ mask data c.tag false none) := by
  refine (if_neg (not_not.mpr hinc)).trans ?_
  simp only [hcopy]

/-- An agent that holds no copy writes under the tag that the sector has at home. -/
theorem homeWrite_unheld (hinc : inc = incarnationOf s (writerId agent)) (hcopy : copyOf s agent σ = none) :
    exec (.homeWrite ⟨agent, inc⟩ σ mask data) s =
      .next (homeWrite s (agentCrown agent) σ mask data (cget s.mem.tags σ) false none) := by
  refine (if_neg (not_not.mpr hinc)).trans ?_
  simp only [hcopy]

/-- A write that carries another is dropped. -/
theorem homeWrite_stale (hinc : inc ≠ incarnationOf s (writerId agent)) :
    exec (.homeWrite ⟨agent, inc⟩ σ mask data) s = .next (dropMessage s agent inc (64 * σ)) := if_pos hinc

end

/-! ### Forced publication (R265) -/

theorem publishMark_clears (s : State) (m : Mark) : ∀ x ∈ (publishMark s m).mem.marks, x.core ≠ m.core := fun _ hx =>
  bne_iff_ne.mp (List.mem_filter.mp hx).2

/-- Once the last of a core's marks is published, none is left. -/
theorem publishMarks_clear {core : Nat} {l : List Mark} (hcore : ∀ m ∈ l, m.core = core) {s : State}
    (hnone : l = [] → ∀ x ∈ s.mem.marks, x.core ≠ core) : ∀ x ∈ (l.foldl publishMark s).mem.marks, x.core ≠ core := by
  obtain rfl | ⟨before, m, rfl⟩ := List.eq_nil_or_concat l
  · exact hnone rfl
  · have hm : m.core = core := hcore m (by simp)
    rw [List.concat_eq_append, List.foldl_concat, ← hm]
    exact publishMark_clears _ m

theorem forcedPublish_clears (s : State) (core : Nat) :
    ∀ x ∈ ((s.mem.marks.filter fun m => m.core == core).foldl publishMark s).mem.marks, x.core ≠ core := by
  refine publishMarks_clear (fun m hm => beq_iff_eq.mp (List.mem_filter.mp hm).2) fun hnil x hx hxc => ?_
  exact List.filter_eq_nil_iff.mp hnil x hx (beq_iff_eq.mpr hxc)

/-! ### The sweep of remote data (R244, R245) -/

theorem rdcSweep_keeps (s : State) (crown : Nat) : ∃ u, exec (.rdcSweep crown) s = .next u ∧
    ∀ e, e ∈ u.mem.rdc ↔ e ∈ s.mem.rdc ∧ (e.crown = crown →
      ∃ k < 64, (tget s.mem.floors (64 * crown + k)).getD 1 ≤ e.gen) := by
  refine ⟨_, rfl, fun e => List.mem_filter.trans (and_congr_right fun _ => ?_)⟩
  simp only [Bool.or_eq_true, bne_iff_ne, List.any_eq_true, List.mem_range, decide_eq_true_eq, imp_iff_not_or, ne_eq]

/-- Settles O46: each step by its meaning, publication by its last mark, the sweep by its filter. -/
theorem memoryEvents : Obligations.MemoryEvents := by
  unfold Obligations.MemoryEvents
  refine ⟨fun s gid g hg => ?returns, fun _ _ _ _ _ _ _ => rfl, fun s agent σ inc mask data hinc => ?writes,
    fun s agent σ inc mask data => homeWrite_stale mask data, fun s core => ⟨_, rfl, rfl, forcedPublish_clears s core⟩, rdcSweep_keeps,
    fun s crown n => ⟨_, rfl, rfl, tget_tset_same _ _ _⟩,
    fun s core grid index block stalled => ⟨_, rfl, by rw [getCore_setCore]⟩⟩
  case returns =>
    have hrun : exec (.loadDataReturn gid) s = execLoadDataReturn gid s := rfl
    rw [hrun, execLoadDataReturn, hg]
  case writes => exact ⟨fun _ => homeWrite_held mask data hinc, homeWrite_unheld mask data hinc⟩

end Sys2Proof.Machine
end

section
/-! PROOFS. Interlocked results of whole lanes: what a lane holds at once, and what stays. -/

namespace Sys2Proof.Machine

/-! ### One place (R116) -/

/-- A place holds at once the value that an interlocked result puts there. -/
theorem newestAt_interlocked (g : Group) (ver : Ver) (uni : Bool) (t : Nat) (p : Place) (lane : Nat) {val : Nat}
    (hval : placeBase (setBase g p lane val) p lane = val) :
    newestAt (writePlace g .inter ver uni t p lane val) p lane = (val, some 0, none) := by
  have hbase : placeBase (writePlace g .inter ver uni t p lane val) p lane = val := by
    refine Eq.trans ?_ hval
    cases p <;> rfl
  have hfind : (writePlace g .inter ver uni t p lane val).pend.find? (·.at p lane) = none := by
    rw [List.find?_eq_none]
    intro e he
    simpa using (List.mem_filter.mp he).2
  simp only [newestAt, newestPend, hfind, Option.getD_none, hbase]

/-- Every place that the write leaves in the arrays keeps what it held. -/
theorem newestAt_interlocked_other (g : Group) (ver : Ver) (uni : Bool) (t : Nat) (p : Place) (lane val : Nat) (q : Place) (k : Nat)
    (hbase : placeBase (setBase g p lane val) q k = placeBase g q k) (hother : (q, k) ≠ (p, lane)) :
    newestAt (writePlace g .inter ver uni t p lane val) q k = newestAt g q k := by
  have hbase' : placeBase (writePlace g .inter ver uni t p lane val) q k = placeBase g q k := by
    refine Eq.trans ?_ hbase
    cases q <;> rfl
  have hpend : (writePlace g .inter ver uni t p lane val).pend.find? (·.at q k) = g.pend.find? (·.at q k) := by
    show ((setBase g p lane val).pend.filter fun e => !e.at p lane).find? (·.at q k) = _
    rw [setBase_pend, List.find?_filter]
    congr 1
    funext e
    by_cases he : e.at q k = true
    · have hno : e.at p lane = false := by
        rw [Bool.eq_false_iff]
        intro hat
        simp only [Pend.at, Bool.and_eq_true, beq_iff_eq] at he hat
        exact hother (by rw [← he.1, ← he.2, hat.1, hat.2])
      simp [he, hno]
    · simp [he]
  unfold newestAt newestPend
  rw [hpend, hbase']

/-- A register of a lane: the places that a data-side destination names, the latches aside. -/
def Place.isReg : Place → Bool
  | .v _ | .o _ => true
  | _ => false

theorem newestAt_interlocked_reg (g : Group) (ver : Ver) (t lane : Nat) {p : Place} (hreg : p.isReg = true) {val : Nat}
    (hval : val < 2 ^ 32) : newestAt (writePlace g .inter ver false t p lane val) p lane = (val, some 0, none) := by
  refine newestAt_interlocked g ver false t p lane ?_
  cases p with
  | v i => simp only [setBase, placeBase, cget_cset_same, BitVec.toNat_ofNat, Nat.mod_eq_of_lt hval]
  | o i => simp only [setBase, placeBase, cget_cset_same, BitVec.toNat_ofNat, Nat.mod_eq_of_lt hval]
  | _ => cases hreg

theorem newestAt_interlocked_reg_other (g : Group) (ver : Ver) (t lane : Nat) {p : Place} (hreg : p.isReg = true) (val : Nat)
    (q : Place) (k : Nat) (hlane : lane < 32) (hk : k < 32) (hother : (q, k) ≠ (p, lane)) :
    newestAt (writePlace g .inter ver false t p lane val) q k = newestAt g q k := by
  refine newestAt_interlocked_other g ver false t p lane val q k ?_ hother
  cases p with
  | v i =>
    cases q with
    | v j =>
      have hne : laneKey j k ≠ laneKey i lane := fun h => hother (by obtain ⟨rfl, rfl⟩ := (laneKey_inj hk hlane).mp h; rfl)
      simp only [setBase, placeBase, cget_cset_other _ _ _ _ hne]
    | _ => rfl
  | o i =>
    cases q with
    | o j =>
      have hne : laneKey j k ≠ laneKey i lane := fun h => hother (by obtain ⟨rfl, rfl⟩ := (laneKey_inj hk hlane).mp h; rfl)
      simp only [setBase, placeBase, cget_cset_other _ _ _ _ hne]
    | _ => rfl
  | _ => cases hreg

/-! ### One lane (R73–R75, R174) -/

/-- The places of one lane that a pair's destination names, in the order in which `writeLane` writes them. -/
def pairWrites : Dst → List Place
  | .v i => [.v i.toNat, .v (i.toNat + 1)]
  | .o i => [.o i.toNat, .o (i.toNat + 1)]
  | .l => []
  | .hi i => [.v i.toNat, .v (i.toNat + 1), .o (i.toNat % 16), .o (i.toNat % 16 + 1)]

theorem mem_pairWrites {d : Dst} {p : Place} : p ∈ pairWrites d ↔ p ∈ dstPlaces true d := by
  cases d <;> simp only [pairWrites, dstPlaces, if_true, List.mem_cons, List.not_mem_nil, or_false, or_left_comm]

theorem pairWrites_isReg {d : Dst} {p : Place} (hp : p ∈ pairWrites d) : p.isReg = true := by
  revert p
  cases d <;> simp [pairWrites, Place.isReg]

theorem halfFor_lt (d : Dst) (p : Place) (val : Nat) : halfFor d p val < 2 ^ 32 := by
  unfold halfFor
  repeat' split
  all_goals omega

/-- A pair's result writes its halves, then the latches. -/
theorem writeLane_pair (g : Group) (c : Cls) (ver : Ver) (t : Nat) (d : Dst) (lane val : Nat) :
    writeLane g c ver t d true lane val =
      pushLatch ((pairWrites d).foldl (fun g p => writePlace g c ver false t p lane (halfFor d p val)) g) c ver t lane (val % 2 ^ 64) := by
  cases d <;> simp [writeLane, pairWrites, halfFor]

section
variable (g : Group) (ver : Ver) (t : Nat) (d : Dst) {lane : Nat} (val : Nat) (hlane : lane < 32)
include hlane

/-- The writes of a pair leave every place that they do not name. -/
theorem pairWrites_other {p : Place} {k : Nat} (hk : k < 32) (hother : k = lane → p ∉ dstPlaces true d) :
    newestAt ((pairWrites d).foldl (fun g p => writePlace g .inter ver false t p lane (halfFor d p val)) g) p k =
      newestAt g p k := by
  refine foldl_read_other (read := fun g => newestAt g p k) (fun g q hq => ?_) g
  refine newestAt_interlocked_reg_other g ver t lane (pairWrites_isReg hq) _ p k hlane hk ?_
  rintro ⟨⟩
  exact hother rfl (mem_pairWrites.mp hq)

theorem writeLane_interlocked_holds : LaneHolds g (writeLane g .inter ver t d true lane val) .inter ver t d true lane val := by
  have hlatch (i : Nat) : Place.l i ∉ dstPlaces true d := fun h =>
    absurd (pairWrites_isReg (mem_pairWrites.mpr h)) Bool.false_ne_true
  rw [writeLane_pair]
  refine ⟨fun p hp => ?dst, pushLatch_newest_zero _ _ _ _ _ _, (pushLatch_newest_one _ _ _ _ _ _).trans ?latch⟩
  case dst =>
    rw [pushLatch_newest_other _ _ _ _ _ _ _ _ (fun h => hlatch 0 (h.1 ▸ hp)) fun h => hlatch 1 (h.1 ▸ hp)]
    have hwrite (g : Group) := newestAt_interlocked_reg g ver t lane (pairWrites_isReg (mem_pairWrites.mpr hp)) (halfFor_lt d p val)
    refine foldl_read_mem (read := fun g => newestAt g p lane) (mem_pairWrites.mpr hp) hwrite (fun g q hq => ?_) g
    by_cases hpq : p = q
    · exact .inr (hpq ▸ hwrite g)
    · exact .inl (newestAt_interlocked_reg_other g ver t lane (pairWrites_isReg hq) _ p lane hlane hlane (by simp [hpq]))
  case latch => exact pairWrites_other g ver t d val hlane hlane fun _ => hlatch 0

/-- What a lane's destination and latches are not keeps what it held. -/
theorem writeLane_interlocked_other {p : Place} {k : Nat} (hk : k < 32)
    (hother : k = lane → p ∉ Place.l 0 :: .l 1 :: dstPlaces true d) :
    newestAt (writeLane g .inter ver t d true lane val) p k = newestAt g p k := by
  rw [writeLane_pair, pushLatch_newest_other _ _ _ _ _ _ _ _ (fun h => hother h.2 (by simp [h.1])) fun h => hother h.2 (by simp [h.1])]
  exact pairWrites_other g ver t d val hlane hk fun h hp => hother h (by simp [hp])

end

/-! ### All lanes -/

/-- Every lane of an interlocked result holds it at once, whatever the cycles of the lanes' beats. -/
theorem foldl_writeLane_interlocked (g : Group) (ver : Ver) {lanes : List Nat} (at_ : Nat → Nat) (t : Nat) (d : Dst) (val : Nat)
    (hlanes : ∀ i ∈ lanes, i < 32) (hnodup : lanes.Nodup) {lane : Nat} (hl : lane ∈ lanes) :
    LaneHolds g (lanes.foldl (fun g i => writeLane g .inter ver (at_ i) d true i val) g) .inter ver t d true lane val := by
  obtain ⟨before, after, rfl⟩ := List.append_of_mem hl
  obtain ⟨hafter, hbefore⟩ : lane ∉ after ∧ lane ∉ before := by
    rw [List.nodup_middle, List.nodup_cons, List.mem_append, not_or] at hnodup
    exact hnodup.1.symm
  have hother {l : List Nat} (hsub : ∀ i ∈ l, i < 32) (hnot : lane ∉ l) (p : Place) (g : Group) :
      newestAt (l.foldl (fun g i => writeLane g .inter ver (at_ i) d true i val) g) p lane = newestAt g p lane :=
    foldl_read_other (read := fun g => newestAt g p lane) (fun g i hi => writeLane_interlocked_other g ver (at_ i) d val (hsub i hi)
      (hlanes lane hl) fun h => absurd (h ▸ hi) hnot) g
  have hrest := hother (l := after) (fun i hi => hlanes i (by simp [hi])) hafter
  have hfirst := hother (l := before) (fun i hi => hlanes i (by simp [hi])) hbefore
  rw [List.foldl_append, List.foldl_cons]
  obtain ⟨hdst, hzero, hone⟩ := writeLane_interlocked_holds
    (before.foldl (fun g i => writeLane g .inter ver (at_ i) d true i val) g) ver (at_ lane) d val (hlanes lane hl)
  exact ⟨fun p hp => (hrest p _).trans (hdst p hp), (hrest _ _).trans hzero, ((hrest _ _).trans hone).trans (hfirst _ _)⟩

/-! ### What an interlocked result leaves of its group -/

theorem writePlace_onlyRegs (g : Group) (c : Cls) (ver : Ver) (uni : Bool) (t : Nat) (p : Place) (lane val : Nat) :
    OnlyRegs g (writePlace g c ver uni t p lane val) := by
  cases c with
  | inter => exact (setBase_onlyRegs g p lane val).trans rfl
  | _ => rfl

theorem foldl_onlyRegs {α : Type} {f : Group → α → Group} (hf : ∀ g x, OnlyRegs g (f g x)) (l : List α) (g : Group) :
    OnlyRegs g (l.foldl f g) := by
  induction l generalizing g with
  | nil => exact .refl g
  | cons x r ih => exact (hf g x).trans (ih _)

theorem writeLane_pair_onlyRegs (g : Group) (c : Cls) (ver : Ver) (t : Nat) (d : Dst) (lane val : Nat) :
    OnlyRegs g (writeLane g c ver t d true lane val) := by
  rw [writeLane_pair]
  exact (foldl_onlyRegs (fun g p => writePlace_onlyRegs g c ver false t p lane (halfFor d p val)) (pairWrites d) g).trans rfl

end Sys2Proof.Machine
end

section
/-! PROOFS. Traps, breakpoints and the wait for a time. -/

namespace Sys2Proof.Machine

/-! ### TRAP and BRK (R456) -/

theorem trap_runs (h : Hdr) (code : BitVec 12) : WhenIssued h fun s gid _ o =>
    let part := takingPart o h .w32 s.cycle
    (part = [] → exec (.trap h code) s = Ends s gid o 1 (advance o (instrLen h false))) ∧
    (part ≠ [] → exec (.trap h code) s = .next (raise (occupy (setGroup s gid o) o 1) gid (commitAll o s.cycle) (instrLen h false)
      ⟨3, 0, code.toNat, maskOf part, []⟩)) := by
  intro s gid g hissue part
  have hrun : exec (.trap h code) s = execTrap h code s := rfl
  rw [execTrap, issue_runs false _ hissue] at hrun
  rw [hrun]
  refine ⟨fun hpart => ?_, fun hpart => ?_⟩
  · exact congrArg Host.Outcome.next ((if_pos (List.isEmpty_iff.mpr hpart)).trans (finish_issued s gid 1 _ rfl rfl))
  · exact congrArg Host.Outcome.next (if_neg (List.isEmpty_iff.not.mpr hpart))

/-- BRK moves on, or, with a lane taking part and debugging enabled, parks its group and records its code. -/
theorem brk_runs (h : Hdr) (code : BitVec 12) : WhenIssued h fun s gid _ o =>
    let part := takingPart o h .w32 s.cycle
    ((part = [] ∨ debugOn s o = false) → exec (.brk h code) s = Ends s gid o 1 (advance o (instrLen h false))) ∧
    (part ≠ [] → debugOn s o = true → ∃ t g' r, exec (.brk h code) s = .next t ∧ getGroup t gid = some g' ∧
      (∃ n, g'.wait = .brk n) ∧ g'.pc = o.pc ∧ t.faults = s.faults ++ [r] ∧ r.cls = 17 ∧ r.code = code.toNat ∧
      r.lanes = maskOf part ∧ r.awaits = .brk gid) := by
  intro s gid g hissue part
  have hrun : exec (.brk h code) s = execBrk h code s := rfl
  rw [execBrk, issue_runs false _ hissue] at hrun
  rw [hrun]
  refine ⟨fun hidle => ?_, fun hpart hdebug => ?_⟩
  · have hmoves : (part.isEmpty || !debugOn s (openIssue s g h)) = true := by
      obtain hidle | hidle := hidle <;> simp [hidle]
    exact congrArg Host.Outcome.next ((if_pos hmoves).trans (finish_issued s gid 1 _ rfl rfl))
  · have hstops : ¬ (part.isEmpty || !debugOn s (openIssue s g h)) = true := by simp [hpart, hdebug]
    have hpc : (commitAll (openIssue s g h) s.cycle).pc = (openIssue s g h).pc := (commitAll_onlyRegs _ _).pc
    refine ⟨_, _, _, congrArg Host.Outcome.next (if_neg hstops), getGroup_setGroup _ _ _, ⟨_, rfl⟩, hpc,
      (record_faults _ _).trans (congrArg (· ++ [_]) ?_), rfl, rfl, rfl, rfl⟩
    simp [park, takeId]

/-! ### WAITT (R459) -/

/-- What WAITT writes leaves of its group all but its registers. -/
theorem writeTime_onlyRegs (g : Group) (uni : Bool) (d : Dst) (lanes : List Nat) (now time : Nat) :
    OnlyRegs g (writeTime g uni d lanes now time) := by
  unfold writeTime
  split
  · exact writePlace_onlyRegs _ _ _ _ _ _ _ _
  · exact foldl_onlyRegs (fun g i => writeLane_pair_onlyRegs g .inter .portable _ d i time) lanes g

/-- Each lane that took part holds the time at once, whatever version its instruction has. -/
theorem writeTime_lanes (g : Group) (ver : Ver) (d : Dst) (now time : Nat) {lanes : List Nat} (hlanes : ∀ i ∈ lanes, i < 32)
    (hnodup : lanes.Nodup) {lane : Nat} (hl : lane ∈ lanes) :
    LaneHolds g (writeTime g false d lanes now time) .inter ver now d true lane time := by
  obtain ⟨hdst, hzero, hone⟩ := foldl_writeLane_interlocked g .portable (fun i => now + beatOffset .w32 lanes i) now d time hlanes
    hnodup hl
  exact ⟨hdst, hzero, hone⟩

theorem writeTime_uniform (g : Group) (d : Dst) (lanes : List Nat) (now time : Nat) :
    newestAt (writeTime g true d lanes now time) (.s (dstSreg d)) 0 = (time % 2 ^ 64, some 0, none) := by
  refine newestAt_interlocked g .portable true now _ 0 ?_
  simp only [setBase, placeBase, cget_cset_same, BitVec.toNat_ofNat, Nat.mod_mod]

theorem waitt_runs (h : Hdr) (d : Dst) (a : Src) : WhenIssued h fun s gid g o =>
    srcInRole (roleOf s g) true a = true → dstInRole (roleOf s g) h.uni true d = true →
    (actsIn o h s.cycle = none → exec (.waitt h d a) s = Ends s gid o 1 (advance o (instrLen h false))) ∧
    (∀ lane, actsIn o h s.cycle = some lane →
      let t := readSrc o h lane s.cycle 64 a
      let lanes := if h.uni then [] else takingPart o h .w32 s.cycle
      let g1 := writeTime o h.uni d lanes s.cycle (timeOf s)
      (t ≤ timeOf s → exec (.waitt h d a) s = Ends s gid o 1 (advance g1 (instrLen h false)) ∧
        (h.uni = false → ∀ lane ∈ lanes, LaneHolds o g1 .inter h.ver s.cycle d true lane (timeOf s)) ∧
        (h.uni = true → newestAt g1 (.s (dstSreg d)) 0 = (timeOf s % 2 ^ 64, some 0, none))) ∧
      (timeOf s < t → ∃ u g', exec (.waitt h d a) s = .next u ∧ getGroup u gid = some g' ∧
        g'.wait = .deadline t h.uni d lanes ∧ g'.slice = none ∧ g'.pc = g.pc)) := by
  intro s gid g hissue hsrc hdst
  have hrun : exec (.waitt h d a) s = execWaitt h d a s := rfl
  rw [execWaitt, issue_runs false _ hissue] at hrun
  simp only [roleOf_setGroup, roleOf_openIssue, hsrc, hdst, setGroup_cycle, Bool.not_true, Bool.or_false, Bool.false_eq_true,
    if_false] at hrun
  rw [hrun]
  refine ⟨fun hidle => ?idle, fun lane hacts => ?_⟩
  case idle => simp only [hidle, finish_issued]; rfl
  intro t lanes g1
  have hregs : OnlyRegs (openIssue s g h) g1 := writeTime_onlyRegs _ _ _ _ _ _
  simp only [hacts]
  refine ⟨fun hover => ⟨?ends, fun huni lane hlane => ?lane, fun huni => ?uniform⟩, fun hearly => ?parks⟩
  case ends =>
    refine congrArg Host.Outcome.next ((if_pos hover).trans ?_)
    exact finish_issued s gid 1 _ hregs.slice hregs.core
  case lane =>
    have hlanes : lanes = takingPart (openIssue s g h) h .w32 s.cycle := if_neg (by simp [huni])
    have hg1 : g1 = writeTime (openIssue s g h) false d lanes s.cycle (timeOf s) := by rw [← huni]
    rw [hlanes] at hlane
    rw [hg1, hlanes]
    exact writeTime_lanes _ _ d _ _ (fun _ => takingPart_lt _ _ _ _) (takingPart_nodup _ _ _ _) hlane
  case uniform =>
    have hg1 : g1 = writeTime (openIssue s g h) true d lanes s.cycle (timeOf s) := by rw [← huni]
    rw [hg1]
    exact writeTime_uniform _ _ _ _ _
  case parks =>
    exact ⟨_, _, congrArg Host.Outcome.next (if_neg (Nat.not_le.mpr hearly)), getGroup_setGroup _ _ _, rfl, rfl, openIssue_pc s g h⟩

/-- Before the deadline nothing happens, and from it on the time is written and the group moves on. -/
theorem waittDeadlineReached_ends {s : State} {gid : Nat} {g : Group} {t : Nat} {uni : Bool} {d : Dst} {lanes : List Nat}
    (hg : getGroup s gid = some g) (hwait : g.wait = .deadline t uni d lanes) :
    (timeOf s < t → exec (.waittDeadlineReached gid) s = .next s) ∧
    (t ≤ timeOf s → ∃ u g', exec (.waittDeadlineReached gid) s = .next u ∧ getGroup u gid = some g' ∧ g'.wait = .none ∧
      g'.pc = g.pc + BitVec.ofNat 64 g.parkLen ∧ g'.pend = (writeTime g uni d lanes s.cycle (timeOf s)).pend ∧
      g'.v = (writeTime g uni d lanes s.cycle (timeOf s)).v ∧ g'.s = (writeTime g uni d lanes s.cycle (timeOf s)).s) := by
  have hrun : exec (.waittDeadlineReached gid) s = execWaittDeadlineReached gid s := rfl
  rw [hrun, execWaittDeadlineReached]
  simp only [hg, hwait]
  refine ⟨fun hearly => by rw [if_neg (Nat.not_le.mpr hearly)], fun hover => ?_⟩
  rw [if_pos hover, leaveWait, getGroup_setGroup]
  have hregs := writeTime_onlyRegs g uni d lanes s.cycle (timeOf s)
  exact ⟨_, _, rfl, getGroup_setGroup _ _ _, rfl, by rw [← hregs.pc, ← hregs.parkLen]; rfl, rfl, rfl, rfl⟩

/-- A word of an unassigned opcode raises ILLEGAL_ENCODING in the group that runs (R133). -/
theorem unassignedOpcode_raises (w : DWord) {s : State} {gid : Nat} {g : Group} (hcur : s.cur = some gid)
    (hg : getGroup s gid = some g) : exec (.unassignedOpcode w) s =
      .next (raiseIllegal (occupy s g 1) gid (openIllegal s g) (8 * Sys2Proof.wordCount w)) := by
  have hrun : exec (.unassignedOpcode w) s = execUnassignedOpcode w s := rfl
  simp only [hrun, execUnassignedOpcode, hcur, hg]

/-- Settles O38: TRAP, BRK and WAITT by their issue, the deadline and the unassigned word by their group. -/
theorem trapsBreakpointsAndWaitt : Obligations.TrapsBreakpointsAndWaitt := by
  unfold Obligations.TrapsBreakpointsAndWaitt
  exact ⟨trap_runs, brk_runs, waitt_runs, fun s gid g t uni d lanes => waittDeadlineReached_ends,
    fun w s gid g => unassignedOpcode_raises w⟩

end Sys2Proof.Machine
end

section
/-! PROOFS. What arrives at the ports: each arrival at the head by the checks that its step makes, and what it answers. -/

namespace Sys2Proof.Machine

/-- A step that serves an arrival gives what its meaning gives with that arrival at the head. -/
theorem receives_of_head {i : Instr} {s : State} {a : Arrival} {t : State} (meaning : State → Out) (hstep : arrivalStep a = i)
    (hexec : exec i s = meaning s) (hmeaning : s.arrivals.head? = some a → meaning s = .next t) : Receives i s a t :=
  fun rest h => ⟨hstep, hexec.trans (hmeaning (by rw [h, List.head?_cons]))⟩

/-! ### Frames (R504, R505) -/

theorem frame_receives (s : State) (port len : Nat) (ok : Bool) (hlink : linkUp s port = true) :
    Receives .frameReceive s (.frame port len ok) (if ok && decide (len ≤ 9216) then popArrival s
      else { popArrival s with frameDrops := tset s.frameDrops port ((tget s.frameDrops port).getD 0 + 1) }) := by
  refine receives_of_head execFrameReceive rfl rfl fun hhead => ?_
  have hup : linkUp (popArrival s) port = true := hlink
  simp only [execFrameReceive, hhead, hup, Bool.not_true, Bool.false_eq_true, if_false]
  exact (apply_ite Host.Outcome.next _ _ _).symm

/-! ### Requests that reach no VF (R504, R506, R507) -/

theorem unreached_dropped {s : State} {port vf qp : Nat} (rkey : Word) (va : DWord) (data : List Byte) (n : Nat) (cas : Bool)
    (cmp val : DWord) (imm : Word) (hvf : rdmaVf s port vf qp = none) :
    Receives .rdmaWriteInbound s (.rdmaWrite port vf qp rkey va data) (popArrival s) ∧
    Receives .rdmaReadInbound s (.rdmaRead port vf qp rkey va n) (popArrival s) ∧
    Receives .rdmaAtomicInbound s (.rdmaAtomic port vf qp rkey va cas cmp val) (popArrival s) ∧
    Receives .rdmaSendInbound s (.rdmaSend port vf qp data) (popArrival s) ∧
    Receives .rdmaSignalInbound s (.rdmaSignal port vf qp rkey va imm) (popArrival s) ∧
    Receives .rdmaUnsupportedInbound s (.rdmaUnsupported port vf qp) (popArrival s) := by
  refine ⟨receives_of_head execRdmaWriteInbound rfl rfl fun hhead => ?write,
    receives_of_head execRdmaReadInbound rfl rfl fun hhead => ?read,
    receives_of_head execRdmaAtomicInbound rfl rfl fun hhead => ?atomic,
    receives_of_head execRdmaSendInbound rfl rfl fun hhead => ?send,
    receives_of_head execRdmaSignalInbound rfl rfl fun hhead => ?signal,
    receives_of_head execRdmaUnsupportedInbound rfl rfl fun hhead => ?unsupported⟩
  case write => simp only [execRdmaWriteInbound, hhead, hvf]
  case read => simp only [execRdmaReadInbound, hhead, hvf]
  case atomic => simp only [execRdmaAtomicInbound, hhead, hvf]
  case send => simp only [execRdmaSendInbound, hhead, hvf]
  case signal => simp only [execRdmaSignalInbound, hhead, hvf]
  case unsupported =>
    simp only [execRdmaUnsupportedInbound, hhead, hvf, Option.isSome_none, Bool.false_eq_true, if_false]

/-! ### Writes and reads (R508, R509) -/

section
variable {s : State} {port vf qp : Nat} {rkey : Word} {va : DWord} {v : Vf}

theorem rdmaWrite_performed {data : List Byte} (hvf : rdmaVf s port vf qp = some v)
    (hreg : regOk v rkey va data.length .write = true) {s1 s2 : State} (hpages : writeOk s v va data.length = (s1, true))
    (hwrite : virtWrite s1 (vfWho v) va data = (s2, none)) :
    Receives .rdmaWriteInbound s (.rdmaWrite port vf qp rkey va data) (answer s2 (.ack vf qp)) := by
  refine receives_of_head execRdmaWriteInbound rfl rfl fun hhead => ?_
  simp only [execRdmaWriteInbound, hhead, hvf, hreg, hpages, hwrite, Bool.not_true, Bool.false_eq_true, if_false]

theorem rdmaWrite_badPage {data : List Byte} (hvf : rdmaVf s port vf qp = some v)
    (hreg : regOk v rkey va data.length .write = true) {s1 : State} (hpages : writeOk s v va data.length = (s1, false)) :
    Receives .rdmaWriteInbound s (.rdmaWrite port vf qp rkey va data) (nakAccess s1 vf qp) := by
  refine receives_of_head execRdmaWriteInbound rfl rfl fun hhead => ?_
  simp only [execRdmaWriteInbound, hhead, hvf, hreg, hpages, Bool.not_true, Bool.false_eq_true, if_false, Bool.not_false, if_true]

theorem rdmaWrite_refused {data : List Byte} (hvf : rdmaVf s port vf qp = some v)
    (hreg : regOk v rkey va data.length .write = false) :
    Receives .rdmaWriteInbound s (.rdmaWrite port vf qp rkey va data) (nakAccess s vf qp) := by
  refine receives_of_head execRdmaWriteInbound rfl rfl fun hhead => ?_
  simp only [execRdmaWriteInbound, hhead, hvf, hreg, Bool.not_false, if_true]

theorem rdmaRead_performed {n : Nat} (hvf : rdmaVf s port vf qp = some v) (hreg : regOk v rkey va n .read = true)
    (hpages : (readOk s v va n).2 = true) {s1 : State} {b : List Byte}
    (hread : virtRead (publishRange s (vfWho v) va n) (vfWho v) va n = (s1, .ok b)) :
    Receives .rdmaReadInbound s (.rdmaRead port vf qp rkey va n) (answer s1 (.readData vf qp b)) := by
  refine receives_of_head execRdmaReadInbound rfl rfl fun hhead => ?_
  simp only [execRdmaReadInbound, hhead, hvf, hreg, hpages, hread, Bool.not_true, Bool.false_eq_true, if_false]

theorem rdmaRead_refused {n : Nat} (hvf : rdmaVf s port vf qp = some v)
    (hbad : regOk v rkey va n .read = false ∨ (readOk s v va n).2 = false) :
    Receives .rdmaReadInbound s (.rdmaRead port vf qp rkey va n) (nakAccess s vf qp) := by
  refine receives_of_head execRdmaReadInbound rfl rfl fun hhead => ?_
  simp only [execRdmaReadInbound, hhead, hvf]
  obtain hreg | hpages := hbad
  · simp only [hreg, Bool.not_false, if_true]
  · simp only [hpages, Bool.not_false, if_true, ite_self]

end

/-! ### Atomics (R246, R510) -/

/-- What a remote atomic leaves and answers once its address is translated: what is left to test is the poison of its word, SA and the
page's codec. -/
def mappedAtomic (s : State) (v : Vf) (vf qp pa : Nat) (l : Leaf) (cas : Bool) (cmp val : DWord) : State :=
  if (if l.cmp then (linePoison s (pa / 256)).isSome else s.mem.poison.contains (pa / 64)) then nakAccess s vf qp
  else if !l.sa then answer s (.nakAccess vf qp)
  else if l.cmp then codecAtomic (forcePublishFar s (pa / 64)) v vf qp pa cas cmp val
  else
    let (s, old) := homeRead64 (forcePublishFar s (pa / 64)) pa
    answer (physWrite s (pa / 2 ^ 38) pa (leBytes 8 (remoteAtomic cas cmp val old)) (vfWho v).tag)
      (.atomicOld vf qp (BitVec.ofNat 64 old))

section
variable {s : State} {port vf qp : Nat} {rkey : Word} {va : DWord} {v : Vf} {cas : Bool} {cmp val : DWord}

theorem rdmaAtomic_unaligned (hvf : rdmaVf s port vf qp = some v) (halign : va.toNat % 8 ≠ 0) :
    Receives .rdmaAtomicInbound s (.rdmaAtomic port vf qp rkey va cas cmp val) (answer s (.nakInvalid vf qp)) := by
  refine receives_of_head execRdmaAtomicInbound rfl rfl fun hhead => ?_
  simp only [execRdmaAtomicInbound, hhead, hvf, if_pos halign]

theorem rdmaAtomic_refused (hvf : rdmaVf s port vf qp = some v) (halign : va.toNat % 8 = 0)
    (hreg : regOk v rkey va 8 .atomic = false) :
    Receives .rdmaAtomicInbound s (.rdmaAtomic port vf qp rkey va cas cmp val) (nakAccess s vf qp) := by
  refine receives_of_head execRdmaAtomicInbound rfl rfl fun hhead => ?_
  simp only [execRdmaAtomicInbound, hhead, hvf, halign, hreg, ne_eq, not_true_eq_false, if_false, Bool.not_false, if_true]

theorem rdmaAtomic_badPage (hvf : rdmaVf s port vf qp = some v) (halign : va.toNat % 8 = 0)
    (hreg : regOk v rkey va 8 .atomic = true) {s1 : State} {c : XErr} (hpage : translate s (vfWho v) va .write = (s1, .error c)) :
    Receives .rdmaAtomicInbound s (.rdmaAtomic port vf qp rkey va cas cmp val) (nakAccess s1 vf qp) := by
  refine receives_of_head execRdmaAtomicInbound rfl rfl fun hhead => ?_
  simp only [execRdmaAtomicInbound, hhead, hvf, halign, hreg, hpage, ne_eq, not_true_eq_false, if_false, Bool.not_true,
    Bool.false_eq_true]

theorem rdmaAtomic_mapped (hvf : rdmaVf s port vf qp = some v) (halign : va.toNat % 8 = 0)
    (hreg : regOk v rkey va 8 .atomic = true) {s1 : State} {l : Leaf} (hpage : translate s (vfWho v) va .write = (s1, .ok l)) :
    Receives .rdmaAtomicInbound s (.rdmaAtomic port vf qp rkey va cas cmp val) (mappedAtomic s1 v vf qp (leafPa l va) l cas cmp val) := by
  refine receives_of_head execRdmaAtomicInbound rfl rfl fun hhead => ?_
  simp only [execRdmaAtomicInbound, hhead, hvf, halign, hreg, hpage, ne_eq, not_true_eq_false, if_false, Bool.not_true,
    Bool.false_eq_true, ← apply_ite Host.Outcome.next]
  rfl

end

section
variable {s : State} {v : Vf} {vf qp pa : Nat} {l : Leaf} {cas : Bool} {cmp val : DWord}

/-- Without SA the access is NAKed and the VF's error counter stays, which is the model's reading (log 62). -/
theorem mappedAtomic_withoutSa (hcmp : l.cmp = false) (hclean : s.mem.poison.contains (pa / 64) = false) (hsa : l.sa = false) :
    mappedAtomic s v vf qp pa l cas cmp val = answer s (.nakAccess vf qp) := by
  simp only [mappedAtomic, hsa, hcmp, hclean, Bool.false_eq_true, if_false, Bool.not_false, if_true]

theorem mappedAtomic_plain (hcmp : l.cmp = false) (hclean : s.mem.poison.contains (pa / 64) = false) (hsa : l.sa = true)
    {s1 : State} {old : Nat} (hread : homeRead64 (forcePublishFar s (pa / 64)) pa = (s1, old)) :
    mappedAtomic s v vf qp pa l cas cmp val =
      answer (physWrite s1 (pa / 2 ^ 38) pa (leBytes 8 (remoteAtomic cas cmp val old)) (vfWho v).tag)
        (.atomicOld vf qp (BitVec.ofNat 64 old)) := by
  simp only [mappedAtomic, hsa, hcmp, hclean, hread, Bool.false_eq_true, if_false, Bool.not_true]

theorem mappedAtomic_codec (hcmp : l.cmp = true) (hclean : linePoison s (pa / 256) = none) (hsa : l.sa = true)
    {s1 s2 : State} {b : List Byte} (hread : homeExpanded (forcePublishFar s (pa / 64)) (pa / 256) = (s1, .ok b))
    (hstore : codecStore s1 (pa / 2 ^ 38) pa (leBytes 8 (remoteAtomic cas cmp val (field b (pa % 256) 8))) (vfWho v).tag = (s2, true)) :
    mappedAtomic s v vf qp pa l cas cmp val = answer s2 (.atomicOld vf qp (BitVec.ofNat 64 (field b (pa % 256) 8))) := by
  simp only [mappedAtomic, hsa, hcmp, hclean, Option.isSome_none, Bool.false_eq_true, if_false, Bool.not_true, if_true, codecAtomic,
    hread, hstore]

end

/-! ### Signals, sends and what is not supported (R249, R507, R511, R512) -/

section
variable {s : State} {port vf qp : Nat} {rkey : Word} {va : DWord} {v : Vf} {imm : Word}

theorem rdmaSignal_performed (hvf : rdmaVf s port vf qp = some v) (halign : va.toNat % 16 = 0)
    (hreg : regOk v rkey va 16 .signal = true) {s1 : State} {l : Leaf} (hpage : translate s (vfWho v) va .write = (s1, .ok l))
    (hcmp : l.cmp = false) (hclean : s1.mem.poison.contains (leafPa l va / 64) = false) :
    Receives .rdmaSignalInbound s (.rdmaSignal port vf qp rkey va imm)
      (answer (barrierUpdate s1 (leafPa l va / 2 ^ 38) (leafPa l va) (vfWho v).tag (arrival imm.toNat)).1 (.ack vf qp)) := by
  refine receives_of_head execRdmaSignalInbound rfl rfl fun hhead => ?_
  simp only [execRdmaSignalInbound, hhead, hvf, halign, hreg, hpage, hcmp, hclean, ne_eq, not_true_eq_false, if_false,
    Bool.not_true, Bool.false_eq_true, Bool.or_false]

theorem rdmaSignal_refused (hvf : rdmaVf s port vf qp = some v) (halign : va.toNat % 16 = 0)
    (hreg : regOk v rkey va 16 .signal = false) :
    Receives .rdmaSignalInbound s (.rdmaSignal port vf qp rkey va imm) (nakAccess s vf qp) := by
  refine receives_of_head execRdmaSignalInbound rfl rfl fun hhead => ?_
  simp only [execRdmaSignalInbound, hhead, hvf, halign, hreg, ne_eq, not_true_eq_false, if_false, Bool.not_false, if_true]

theorem rdmaSignal_badPage (hvf : rdmaVf s port vf qp = some v) (halign : va.toNat % 16 = 0)
    (hreg : regOk v rkey va 16 .signal = true) {s1 : State} {c : XErr} (hpage : translate s (vfWho v) va .write = (s1, .error c)) :
    Receives .rdmaSignalInbound s (.rdmaSignal port vf qp rkey va imm) (nakAccess s1 vf qp) := by
  refine receives_of_head execRdmaSignalInbound rfl rfl fun hhead => ?_
  simp only [execRdmaSignalInbound, hhead, hvf, halign, hreg, hpage, ne_eq, not_true_eq_false, if_false, Bool.not_true,
    Bool.false_eq_true]

theorem rdmaSignal_unaligned (hvf : rdmaVf s port vf qp = some v) (halign : va.toNat % 16 ≠ 0) :
    Receives .rdmaSignalInbound s (.rdmaSignal port vf qp rkey va imm) (answer s (.nakInvalid vf qp)) := by
  refine receives_of_head execRdmaSignalInbound rfl rfl fun hhead => ?_
  simp only [execRdmaSignalInbound, hhead, hvf, if_pos halign]

theorem rdmaSend_receives (data : List Byte) (hvf : rdmaVf s port vf qp = some v) :
    Receives .rdmaSendInbound s (.rdmaSend port vf qp data) (match v.recv with
      | some r => receive s vf qp v r data
      | none => answer s (.nakOperation vf qp)) := by
  refine receives_of_head execRdmaSendInbound rfl rfl fun hhead => ?_
  cases hring : v.recv with
  | some r => simp only [execRdmaSendInbound, hhead, hvf, hring]
  | none => simp only [execRdmaSendInbound, hhead, hvf, hring, nakOperation]

theorem rdmaUnsupported_receives (hvf : rdmaVf s port vf qp = some v) :
    Receives .rdmaUnsupportedInbound s (.rdmaUnsupported port vf qp) (answer s (.nakInvalid vf qp)) := by
  refine receives_of_head execRdmaUnsupportedInbound rfl rfl fun hhead => ?_
  simp only [execRdmaUnsupportedInbound, hhead, hvf, Option.isSome_some, if_true]

end

/-! ### Storage targets (R516, R517) -/

section
variable {s : State} {core entry off len : Nat} {data : List Byte} {e : Entry}

theorem target_withoutCommand (write : Bool) (off len : Nat) (data : List Byte) (hnone : outstandingStq s core entry = none) :
    Receives .targetBufAccess s (.target core entry write off data len) (answer s (.target core entry false [])) := by
  refine receives_of_head execTargetBufAccess rfl rfl fun hhead => ?_
  simp only [execTargetBufAccess, hhead, hnone]

theorem target_reads (hentry : outstandingStq s core entry = some e) (hop : blockOp e.block = 1) (hrange : off + len ≤ stqLen s e) :
    Receives .targetBufAccess s (.target core entry false off data len)
      (answer s (.target core entry true (((e.snap.drop off).take len).map fun b => b.getD 0))) := by
  refine receives_of_head execTargetBufAccess rfl rfl fun hhead => ?_
  have hallowed : ¬(blockOp e.block ≠ 1 ∨ off + len > stqLen s e) := by omega
  simp only [execTargetBufAccess, hhead, hentry, Bool.false_eq_true, if_false, if_neg hallowed]

theorem target_writes (hentry : outstandingStq s core entry = some e) (hop : blockOp e.block = 2)
    (hrange : off + data.length ≤ stqLen s e) {s1 : State}
    (hwrite : virtWrite s (entryWho core e) (BitVec.ofNat 64 (field e.block 0x10 8 + off)) data = (s1, none)) :
    Receives .targetBufAccess s (.target core entry true off data len)
      (answer (noteEntry s core .sto e.id s1) (.target core entry true [])) := by
  refine receives_of_head execTargetBufAccess rfl rfl fun hhead => ?_
  have hallowed : ¬(blockOp e.block ≠ 2 ∨ off + data.length > stqLen s e) := by omega
  simp only [execTargetBufAccess, hhead, hentry, hwrite, if_true, if_neg hallowed, Option.isNone_none]

theorem target_refusesRead (hentry : outstandingStq s core entry = some e)
    (hbad : blockOp e.block ≠ 1 ∨ stqLen s e < off + len) :
    Receives .targetBufAccess s (.target core entry false off data len) (answer s (.target core entry false [])) := by
  refine receives_of_head execTargetBufAccess rfl rfl fun hhead => ?_
  simp only [execTargetBufAccess, hhead, hentry, Bool.false_eq_true, if_false]
  rw [if_pos hbad]

theorem target_refusesWrite (hentry : outstandingStq s core entry = some e)
    (hbad : blockOp e.block ≠ 2 ∨ stqLen s e < off + data.length) :
    Receives .targetBufAccess s (.target core entry true off data len) (answer s (.target core entry false [])) := by
  refine receives_of_head execTargetBufAccess rfl rfl fun hhead => ?_
  simp only [execTargetBufAccess, hhead, hentry, if_true]
  rw [if_pos hbad]

end

theorem nvmeLost_receives (s : State) (part nsb : Nat) :
    Receives .nvmeConnectionLost s (.nvmeLost part nsb) ((listedCores s).foldl (fun s k => ((getCore s k).sto.filter fun e =>
      e.opc == 0xC5 && e.st == .started && e.part == part && field e.block 0x20 2 == nsb).foldl
        (fun s e => endEntry s k .sto e (statusOf 7 3)) s) (popArrival s)) := by
  refine receives_of_head execNvmeConnectionLost rfl rfl fun hhead => ?_
  simp only [execNvmeConnectionLost, hhead]

/-- Settles O48: each arrival by the outcome of its checks. -/
theorem inboundAccesses : Obligations.InboundAccesses := by
  unfold Obligations.InboundAccesses
  refine ⟨frame_receives, fun s port vf qp rkey va data n cas cmp val imm hvf => unreached_dropped rkey va data n cas cmp val imm hvf,
    ?write, ?read, ?atomic, ?signal, ?send, fun s core entry write off data len => target_withoutCommand write off len data,
    ?target, nvmeLost_receives⟩
  case write =>
    intro s port vf qp rkey va data v hvf
    exact ⟨fun hreg s1 s2 => rdmaWrite_performed hvf hreg, fun hreg s1 => rdmaWrite_badPage hvf hreg, rdmaWrite_refused hvf⟩
  case read =>
    intro s port vf qp rkey va n v hvf
    exact ⟨fun hreg hpages s1 b => rdmaRead_performed hvf hreg hpages, rdmaRead_refused hvf⟩
  case atomic =>
    intro s port vf qp rkey va cas cmp val v hvf a
    have hmapped {s1 : State} {l : Leaf} {t : State} (halign : va.toNat % 8 = 0) (hreg : regOk v rkey va 8 .atomic = true)
        (hpage : translate s (vfWho v) va .write = (s1, .ok l)) (hleaves : mappedAtomic s1 v vf qp (leafPa l va) l cas cmp val = t) :
        Receives .rdmaAtomicInbound s a t := hleaves ▸ rdmaAtomic_mapped hvf halign hreg hpage
    refine ⟨fun halign hreg s1 l hpage hsa => ⟨fun hcmp hclean s2 old hread => ?plain,
        fun hcmp hclean s2 b s3 hread hstore => ?codec⟩,
      rdmaAtomic_refused hvf, fun halign hreg s1 c => rdmaAtomic_badPage hvf halign hreg,
      fun halign hreg s1 l hpage hsa hcmp hclean => ?withoutSa, rdmaAtomic_unaligned hvf⟩
    case plain => exact hmapped halign hreg hpage (mappedAtomic_plain hcmp hclean hsa hread)
    case codec => exact hmapped halign hreg hpage (mappedAtomic_codec hcmp hclean hsa hread hstore)
    case withoutSa => exact hmapped halign hreg hpage (mappedAtomic_withoutSa hcmp hclean hsa)
  case signal =>
    intro s port vf qp rkey va imm v hvf a
    exact ⟨fun halign hreg s1 l => rdmaSignal_performed hvf halign hreg, rdmaSignal_refused hvf,
      fun halign hreg s1 c => rdmaSignal_badPage hvf halign hreg, rdmaSignal_unaligned hvf⟩
  case send =>
    intro s port vf qp data v hvf
    exact ⟨rdmaSend_receives data hvf, rdmaUnsupported_receives hvf⟩
  case target =>
    intro s core entry off data len e hentry
    exact ⟨target_reads hentry, fun hop hrange s1 => target_writes hentry hop hrange, target_refusesRead hentry,
      target_refusesWrite hentry⟩

end Sys2Proof.Machine
end

section
/-! PROOFS. The fault queue and its ACTIONs, agents that are declared dead, uncorrectable errors, and a device-fatal fault. -/

namespace Sys2Proof.Machine

/-! ### Records and ACTIONs (R469, R470) -/

theorem faultRecordWrite_writes {s : State} {part : Nat} {p : Partition} {f : FaultRec} (hp : tget s.parts part = some p)
    (hrec : nextRecord s part = some f) (hroom : faultRoom s part p = true) : ∃ u,
    exec (.faultRecordWrite part) s = .next u ∧ tget u.parts part = some { p with written := p.written + 1 } ∧
    u.mem = (devWrite (devWrite (devWrite s part (p.body.fqBase + p.written % 2 ^ p.body.fqSize * 64) (recordBytes p.written f))
      part p.body.fqTail (leBytes 8 (p.written + 1))) part p.body.fqStamp (leBytes 8 (stampWord 0 (p.written + 1)))).mem := by
  have hrun : exec (.faultRecordWrite part) s = execFaultRecordWrite part s := rfl
  simp only [hrun, execFaultRecordWrite, hp, hrec, hroom, Bool.not_true, Bool.false_eq_true, if_false]
  exact ⟨_, rfl, tget_tset_same _ _ _, rfl⟩

/-- What the ACTION word of a record that awaits one does. -/
theorem faultAction_reads {s : State} {part num : Nat} {f : FaultRec} {s1 : State} {v : Nat}
    (hrec : awaiting s part num = some f) (hread : devRead64 s part (f.at_.getD 0 + 0x38) = (s1, v)) :
    exec (.faultAction part num) s =
      if v = 1 then .next (serviced { s1 with faults := replaceRec s1.faults f [] } f)
      else if v = 2 then .next (endContext { s1 with faults := replaceRec s1.faults f [] } { f with
        num := 0, flags := f.flags &&& 17, awaits := .none, at_ := none, nrec := 0, time := timeOf s1 })
      else .next s1 := by
  have hrun : exec (.faultAction part num) s = execFaultAction part num s := rfl
  simp only [hrun, execFaultAction, hrec, hread]

/-! ### Dead agents (R491 to R493) -/

/-- An agent that answers in time, or is dead already, is not reported. -/
theorem agentTimeout_passes {s : State} {a : AgentId} {waited : Nat} (h : waited ≤ 1000 * s.agentTimeout ∨ isDead s a = true) :
    exec (.agentTimeout ⟨a, waited⟩) s = .next s := by
  have hrun : exec (.agentTimeout ⟨a, waited⟩) s = execAgentTimeout ⟨a, waited⟩ s := rfl
  rw [hrun, execAgentTimeout]
  by_cases hwaited : waited ≤ 1000 * s.agentTimeout
  · rw [if_pos hwaited]
  · have hdead : isDead s a = true := h.resolve_left hwaited
    rw [if_neg hwaited]
    exact congrArg Host.Outcome.next (if_pos hdead)

theorem agentTimeout_declares {s : State} (a : AgentId) {waited : Nat} (hlate : 1000 * s.agentTimeout < waited) :
    exec (.agentTimeout ⟨a, waited⟩) s = .next (agentDies s a) := congrArg Host.Outcome.next (if_neg (Nat.not_le.mpr hlate))

section
variable {s : State} {n : Nat}

theorem agentDies_core (halive : isDead s (.core n) = false) :
    agentDies s (.core n) = (contextsOn s (.core n)).foldl (fun s x =>
      endContext s { blankRec s x.1 x.2 15 with cause := 3, core := n }) (dropAgent (declareDead s (.core n)) n) :=
  if_neg (Bool.eq_false_iff.mp halive)

theorem agentDies_home (halive : isDead s (.home n) = false) : agentDies s (.home n) = declareDead s (.home n) :=
  if_neg (Bool.eq_false_iff.mp halive)

theorem agentDies_bough (halive : isDead s (.bough n) = false) :
    agentDies s (.bough n) = dropAgent (declareDead s (.bough n)) (256 + n) :=
  if_neg (Bool.eq_false_iff.mp halive)

theorem agentDies_engine {e : EngineId} (halive : isDead s (.engine e) = false) :
    agentDies s (.engine e) = dropEntries ((contextsOn s (.engine e)).foldl (fun s x =>
      endContext s { blankRec s x.1 x.2 15 with cause := 3, core := 0xFFFF }) (declareDead s (.engine e))) (entriesOn s e) :=
  if_neg (Bool.eq_false_iff.mp halive)

end

/-- Declaring a core dead and dropping what it holds leaves it dead under its next incarnation. -/
theorem getCore_declared (s : State) (n : Nat) : getCore (dropAgent (declareDead s (.core n)) n) n =
    { getCore s n with incarnation := (getCore s n).incarnation + 1, dead := true } := getCore_setCore s n _

/-! ### The entries of a dead engine (R493) -/

/-- The numbers of the entries in a queue of a core. -/
def entryIds (s : State) (k : Nat) (q : Queue) : List Nat := (entriesOf (getCore s k) q).map (·.id)

/-- Filtering the entries of one queue filters them there and leaves every other queue. -/
theorem entriesOf_filtered (c : Core) (q q' : Queue) (p : Entry → Bool) :
    entriesOf (setEntries c q ((entriesOf c q).filter p)) q' = if q' = q then (entriesOf c q').filter p else entriesOf c q' := by
  cases q <;> cases q' <;> rfl

theorem MemOnly.entryIds {s t : State} (h : MemOnly s t) (k : Nat) (q : Queue) : entryIds t k q = entryIds s k q := by
  simp only [Machine.entryIds, h.getCore]

theorem takeSnap_id (s : State) (core : Nat) (e : Entry) : (takeSnap s core e).2.id = e.id := by
  unfold takeSnap
  split
  · split
    · dsimp only
      split <;> rfl
    · rfl
  · rfl

/-- Putting entries in the place of those of the storage queue with their numbers changes no number. -/
theorem entryIds_replaceSto (s : State) (core k : Nat) (q : Queue) {e e' : Entry} (hid : e'.id = e.id) :
    entryIds (setCore s core { getCore s core with
      sto := (getCore s core).sto.map fun x => if x.id == e.id then e' else x }) k q = entryIds s k q := by
  by_cases hk : k = core
  · subst hk
    rw [entryIds, getCore_setCore]
    cases q with
    | sto =>
      refine List.map_map.trans (List.map_congr_left fun x _ => ?_)
      by_cases hx : x.id = e.id
      · simp [hx, hid]
      · simp [hx]
    | _ => rfl
  · rw [entryIds, getCore_setCore_other _ _ _ _ hk, entryIds]

theorem entryIds_takeSnaps (s : State) (core k : Nat) (q : Queue) : entryIds (takeSnaps s core) k q = entryIds s k q := by
  refine foldl_read_other (read := fun s => entryIds s k q) (fun s e _ => ?_) s
  exact (entryIds_replaceSto _ core k q (takeSnap_id s core e)).trans ((takeSnap_memOnly s core e).entryIds k q)

theorem entryIds_wakeSlots (s : State) (core k : Nat) (q : Queue) : entryIds (wakeSlots s core) k q = entryIds s k q :=
  entryIds_takeSnaps s core k q

/-- The step of `dropEntries`: an entry, by its core, its queue and its number, leaves that queue. -/
def dropEntry (s : State) (x : Nat × Queue × Entry) : State :=
  wakeSlots (setCore s x.1 (setEntries (getCore s x.1) x.2.1
    ((entriesOf (getCore s x.1) x.2.1).filter fun e => e.id != x.2.2.id))) x.1

theorem dropEntries_eq (s : State) (l : List (Nat × Queue × Entry)) : dropEntries s l = l.foldl dropEntry s := rfl

theorem entryIds_dropEntry (s : State) (x : Nat × Queue × Entry) (k : Nat) (q : Queue) :
    entryIds (dropEntry s x) k q =
      if k = x.1 ∧ q = x.2.1 then (entryIds s k q).filter (· != x.2.2.id) else entryIds s k q := by
  rw [dropEntry, entryIds_wakeSlots]
  by_cases hk : k = x.1
  · subst hk
    rw [entryIds, getCore_setCore, entriesOf_filtered]
    by_cases hq : q = x.2.1
    · rw [if_pos hq, if_pos ⟨rfl, hq⟩, entryIds, List.filter_map]
      rfl
    · rw [if_neg hq, if_neg fun h => hq h.2, entryIds]
  · rw [if_neg fun h => hk h.1, entryIds, getCore_setCore_other _ _ _ _ hk, entryIds]

/-- No entry of those dropped is left in its queue. -/
theorem dropEntries_gone (s : State) {l : List (Nat × Queue × Entry)} {x : Nat × Queue × Entry} (hx : x ∈ l) :
    x.2.2.id ∉ entryIds (dropEntries s l) x.1 x.2.1 := by
  rw [dropEntries_eq]
  refine of_eq_false (foldl_read_mem (read := fun s => x.2.2.id ∈ entryIds s x.1 x.2.1) hx (fun s => ?drops) (fun s y _ => ?keeps) s)
  case drops => simp [entryIds_dropEntry]
  case keeps =>
    rw [entryIds_dropEntry]
    split
    · by_cases hid : x.2.2.id = y.2.2.id
      · exact .inr (by simp [hid])
      · exact .inl (by simp [hid])
    · exact .inl rfl

/-! ### Messages of another incarnation (R492) -/

theorem staleMessage_drops {s : State} {a : AgentId} {inc : BitVec 8} (addr : Nat) (hinc : inc ≠ incarnationOf s a) :
    exec (.staleMessageDrop a inc addr) s = .next (dropMessage s (agentNum a) inc addr) := if_neg hinc

theorem ownMessage_passes (s : State) (a : AgentId) (addr : Nat) :
    exec (.staleMessageDrop a (incarnationOf s a) addr) s = .next s := if_pos rfl

/-! ### Uncorrectable errors (R251) -/

/-- A record of what was lost keeps the record's class and place, and names the core. -/
theorem recOf_frame (s : State) (r : FaultRec) (core : Nat) (tid : Option Nat) :
    ∃ team lq, recOf s r core tid = { r with core := if core < 256 then core else 0xFFFF, team := team, lq := lq } := by
  unfold recOf
  dsimp only
  split <;> exact ⟨_, _, rfl⟩

theorem errorEnds_record (s : State) (part ctx core : Nat) (team : Option Nat) (addr : Nat) :
    ∃ r, errorEnds s part ctx core team addr = endContext s r ∧ r.cls = 15 ∧ r.part = part ∧ r.ctx = ctx ∧
      r.core = (if core < 256 then core else 0xFFFF) ∧ r.addr = BitVec.ofNat 64 addr := by
  obtain ⟨t, lq, hrec⟩ := recOf_frame s (blankRec s part ctx 15) core team
  refine ⟨_, rfl, ?_⟩
  rw [hrec]
  exact ⟨rfl, rfl, rfl, rfl, rfl⟩

/-- The owner tag of what an agent holds of a sector (R251): that of its dirty copy, else the home's. -/
def lostTag (s : State) (core σ : Nat) : BitVec 16 :=
  match copyOf s core σ with
  | some c => if c.dirty = 0 then cget s.mem.tags σ else c.tag
  | none => cget s.mem.tags σ

theorem lostTag_dirty {s : State} {core σ : Nat} {c : Copy} (hcopy : copyOf s core σ = some c) (hdirty : c.dirty ≠ 0) :
    lostTag s core σ = c.tag := by
  simp only [lostTag, hcopy, if_neg hdirty]

theorem lostTag_unheld {s : State} {core σ : Nat} (hcopy : copyOf s core σ = none) : lostTag s core σ = cget s.mem.tags σ := by
  simp only [lostTag, hcopy]

theorem loseDirty_eq (s : State) (core σ : Nat) : loseDirty s core σ =
    errorEnds (poisonSector (dropCopy s core σ) σ) ((lostTag s core σ).toNat / 1024) ((lostTag s core σ).toNat % 1024) core none
      (64 * σ) := rfl

theorem teamLost_eq {s : State} {tid : Nat} (addr : Nat) {t : Team} {g : Grid} (ht : getTeam s tid = some t)
    (hg : tget s.grids t.grid = some g) : teamLost s tid addr = errorEnds s g.part g.ctx t.core (some tid) addr := by
  simp only [teamLost, ht, hg, Option.bind_some, Option.map_some]

/-- Dirty words of a window are lost with their sector poisoned, and the window's team with them; without the window nothing is. -/
theorem dirtyWindow_strikes (core index σ : Nat) : Strikes (.dirtyWindow core index σ) fun s =>
    match windowOf s core index with
    | none => s
    | some w => teamLost (putWindow { s with mem := { s.mem with poison := setIn s.mem.poison σ true } }
        ((windowSectors w σ).foldl (fun w i => { w with dbits := cset w.dbits i 0, vbits := cset w.vbits i 0 }) w)) w.team (64 * σ) := by
  intro s
  have hrun : exec (.uncorrectableError (.dirtyWindow core index σ)) s = execUncorrectableError (.dirtyWindow core index σ) s := rfl
  simp only [hrun, execUncorrectableError, countErrors]
  split
  · next w hw => simp only [hw]; rfl
  · next hw => simp only [hw]

theorem sliceFails_unowned {s : State} {n : Nat} (h : granuleOwner s (n / 3) = none) : sliceFails s n = s := by
  simp only [sliceFails, h]

theorem sliceFails_owned {s : State} {n part : Nat} (h : granuleOwner s (n / 3) = some part) :
    sliceFails s n = partitionFatal s part (BitVec.ofNat 32 (2 * 2 ^ 24 + n)) := by
  simp only [sliceFails, h]

/-- Settles O47: records and ACTIONs by their words, agents by what is declared of each kind, errors by their place. -/
theorem faultQueueAndErrors : Obligations.FaultQueueAndErrors := by
  unfold Obligations.FaultQueueAndErrors
  refine ⟨fun s part p f => faultRecordWrite_writes, ?action, fun s a waited => agentTimeout_passes, ?core, ?home, ?bough, ?engine,
    ownMessage_passes, fun s a inc addr => staleMessage_drops addr, fun a s => rfl, fun core σ s => rfl, fun core σ s => rfl, ?dirty,
    dirtyWindow_strikes, fun tid s => rfl, ?team, fun σ s => rfl, fun line s => rfl, fun n s => rfl,
    fun s n => ⟨sliceFails_unowned, fun part => sliceFails_owned⟩, fun s unit => rfl⟩
  case action =>
    intro s part num f s1 v hrec hread closed
    have hrun := faultAction_reads hrec hread
    refine ⟨fun hv => ?goesOn, fun hv => ?ends, fun hone htwo => ?stays⟩
    case goesOn => rw [hrun, if_pos hv]
    case ends =>
      rw [hrun, if_neg (by omega), if_pos hv]
      exact ⟨_, rfl, rfl, rfl, rfl, rfl⟩
    case stays => rw [hrun, if_neg hone, if_neg htwo]
  case core =>
    intro s n waited hlate halive u
    have hcore := getCore_declared s n
    exact ⟨(agentTimeout_declares _ hlate).trans (congrArg _ (agentDies_core halive)), by rw [hcore], by rw [hcore]⟩
  case home =>
    intro s n waited hlate halive
    rw [agentTimeout_declares _ hlate, agentDies_home halive]
  case bough =>
    intro s n waited hlate halive
    rw [agentTimeout_declares _ hlate, agentDies_bough halive]
  case engine =>
    intro s e waited hlate halive v u
    refine ⟨(agentTimeout_declares _ hlate).trans (congrArg _ (agentDies_engine halive)), fun x hx y hy hid => ?_⟩
    exact dropEntries_gone v hx (hid ▸ List.mem_map_of_mem hy)
  case dirty =>
    intro s core σ
    rw [loseDirty_eq]
    obtain ⟨r, hends, hcls, hpart, hctx, hcore, haddr⟩ := errorEnds_record (poisonSector (dropCopy s core σ) σ)
      ((lostTag s core σ).toNat / 1024) ((lostTag s core σ).toNat % 1024) core none (64 * σ)
    exact ⟨r, lostTag s core σ, hends, hcls, hcore, haddr, hpart, hctx, fun c => lostTag_dirty, lostTag_unheld⟩
  case team =>
    intro s tid addr t g ht hg
    rw [teamLost_eq addr ht hg]
    exact errorEnds_record s g.part g.ctx t.core (some tid) addr

end Sys2Proof.Machine
end

section
/-! PROOFS. Fences: the releases that FENCE makes due, and the order that QFENCE sets in the queues of its core. -/

namespace Sys2Proof.Machine

/-! ### The state in which an instruction ends -/

/-- A busy slice is all of a core that differs when an instruction occupies it. -/
theorem getCore_occupy (s : State) (g : Group) (beats k : Nat) :
    getCore (occupy s g beats) k = { getCore s k with busy := (getCore (occupy s g beats) k).busy } := by
  unfold occupy
  split
  · rfl
  · by_cases hk : k = g.core
    · rw [hk, getCore_setCore]
    · rw [getCore_setCore_other _ _ _ _ hk]

theorem getCore_finish (s : State) (gid : Nat) (g : Group) (beats len k : Nat) :
    getCore (finish s gid g beats len) k = { getCore s k with busy := (getCore (finish s gid g beats len) k).busy } :=
  getCore_occupy s g beats k

theorem getGroup_finish (s : State) (gid : Nat) (g : Group) (beats len : Nat) :
    getGroup (finish s gid g beats len) gid = some (advance g len) := getGroup_setGroup _ _ _

theorem finish_mem (s : State) (gid : Nat) (g : Group) (beats len : Nat) : (finish s gid g beats len).mem = s.mem :=
  occupy_mem s g beats

/-! ### What a releasing FENCE leaves due -/

/-- Cells updated one after another, each once, hold their old value updated. -/
theorem cget_foldl_update {w : Nat} (f : BitVec w → BitVec w) {l : List Nat} (hnodup : l.Nodup) {i : Nat} (hi : i ∈ l)
    (c : Cells w) : cget (l.foldl (fun c i => cset c i (f (cget c i))) c) i = f (cget c i) := by
  induction l generalizing c with
  | nil => exact absurd hi List.not_mem_nil
  | cons j r ih =>
    obtain ⟨hj, hr⟩ := List.nodup_cons.mp hnodup
    rw [List.foldl_cons]
    by_cases hij : i = j
    · subst hij
      have hlater : ∀ c, ∀ k ∈ r, cget (cset c k (f (cget c k))) i = cget c i := fun c k hk =>
        cget_cset_other c _ _ _ fun h => hj (h ▸ hk)
      rw [foldl_read_other (read := fun c => cget c i) hlater, cget_cset_same]
    · rw [ih hr ((List.mem_cons.mp hi).resolve_left hij), cget_cset_other c _ _ _ hij]

theorem liveLanes_nodup (g : Group) : (liveLanes g).Nodup := List.nodup_range.filter _

theorem mem_liveLanes {g : Group} {i : Nat} : i ∈ liveLanes g ↔ i < 32 ∧ g.live.getLsbD i = true := by
  simp [liveLanes, below]

/-- The releases that the next stores of a group's lanes owe once every live lane owes one at a scope (R254). -/
def owedAt (g : Group) (scp : Scope) : Cells 3 :=
  (liveLanes g).foldl (fun acc i => cset acc i (BitVec.ofNat 3 (max (cget acc i).toNat (scopeNum scp + 1)))) g.relOwed

theorem owedAt_live (g : Group) (scp : Scope) {i : Nat} (hi : i < 32) (hlive : g.live.getLsbD i = true) :
    (cget (owedAt g scp) i).toNat = max (cget g.relOwed i).toNat (scopeNum scp + 1) % 8 := by
  unfold owedAt
  rw [cget_foldl_update (fun v => BitVec.ofNat 3 (max v.toNat (scopeNum scp + 1))) (liveLanes_nodup g)
    (mem_liveLanes.mpr ⟨hi, hlive⟩), BitVec.toNat_ofNat]

/-! ### The two instructions -/

theorem fence_runs (h : Hdr) (ord : Order) (scp : Scope) : WhenIssued h fun s gid _ o =>
    let s0 := setGroup s gid o
    let s1 := if ord.isRel then releaseAt s0 o.core o.team scp else s0
    let s2 := if ord.isAcq then acquireAt (fenceLoads o s1) o.core o.team scp else s1
    exec (.fence h ord scp) s =
      .next (finish s2 gid (if ord.isRel then { o with relOwed := owedAt o scp } else o) 1 (instrLen h false)) := by
  intro s gid g hissue
  have hrun : exec (.fence h ord scp) s = execFence h ord scp s := rfl
  rw [hrun, execFence, issue_runs false _ hissue]
  rfl

theorem qfence_runs (h : Hdr) (set : BitVec 6) : WhenIssued h fun s gid _ o =>
    (actsIn o h s.cycle = none → exec (.qfence h set) s = Ends s gid o 1 (advance o (instrLen h false))) ∧
    (actsIn o h s.cycle ≠ none → ∃ t, exec (.qfence h set) s = .next t ∧
      getGroup t gid = some (advance o (instrLen h false)) ∧
      (getCore t o.core).fences = (getCore s o.core).fences ++ [⟨set, s.nextId⟩] ∧ t.mem = s.mem) := by
  intro s gid g hissue
  have hrun : exec (.qfence h set) s = execQfence h set s := rfl
  rw [execQfence, issue_runs false _ hissue] at hrun
  simp only [setGroup_cycle] at hrun
  refine ⟨fun hidle => ?idle, fun hacts => ?acts⟩
  case idle =>
    simp only [hidle, finish_issued] at hrun
    exact hrun
  case acts =>
    obtain ⟨lane, hlane⟩ := Option.ne_none_iff_exists'.mp hacts
    simp only [hlane] at hrun
    refine ⟨_, hrun, getGroup_finish _ _ _ _ _, ?fences, finish_mem _ _ _ _ _⟩
    case fences =>
      rw [getCore_finish, getCore_setCore]
      rfl

/-- Settles O21: FENCE by what its body performs and the fold over the live lanes, QFENCE by whether it acts. -/
theorem fences : Obligations.Fences := by
  unfold Obligations.Fences
  refine ⟨fun h ord scp s gid g hissue => ?fence, qfence_runs⟩
  case fence =>
    exact ⟨owedAt (openIssue s g h) scp, fence_runs h ord scp s gid g hissue, fun i hi hlive => owedAt_live _ scp hi hlive⟩

end Sys2Proof.Machine
end

section
/-! PROOFS. The engines perform: what becomes of the front entry of a queue, and the payload of each opcode. -/

namespace Sys2Proof.Machine

section
variable {s : State} {core opc : Nat} {q : Queue} {e : Entry} {ok : List Byte → Bool} {act : Entry → Eng → Payload}
  (hfront : frontEntry (entriesOf (getCore s core) q) = some e) (hopc : e.opc = opc) (hrun : e.runnable = true)
  (hstart : entryMayStart s core q e = true)
include hfront hopc hrun hstart

/-- A malformed front entry ends with MALFORMED and performs nothing (R426). -/
theorem performEntry_malformed (hbad : ok e.block = false ∨ e.malformed = true) :
    performEntry core q opc s ok act = .next (endEntry s core q e (statusOf 1 3)) := by
  have hbad : (!ok e.block || e.malformed) = true := by
    obtain h | h := hbad <;> simp [h]
  simp only [performEntry, hfront]
  rw [if_neg (by simp [hopc, hrun, hstart]), if_pos hbad]

/-- A front entry in order runs its payload. -/
theorem performEntry_runs (hok : ok e.block = true) (hgood : e.malformed = false) :
    performEntry core q opc s ok act = .next (runEntry s core q e act) := by
  simp only [performEntry, hfront]
  rw [if_neg (by simp [hopc, hrun, hstart]), if_neg (by simp [hok, hgood])]

end

/-- An entry whose payload ran to its end, and whose bytes are all home, ends with the payload's status. -/
theorem runEntry_ends {s s1 : State} {core : Nat} {q : Queue} {e : Entry} {act : Entry → Eng → Payload} {k : Eng}
    {pos : List Nat} {st : BitVec 16} {buf : Tab Byte}
    (hpayload : payloadOf act e ⟨pushForEntry s core e.team, entryWho core e, e.buf⟩ = (k, pos, .ok st))
    (hflush : flushBuf core q e k.buf k.s = (s1, buf, none)) :
    runEntry s core q e act =
      endEntry s1 core q { e with st := .started, pos := pos, buf := buf, result := some st } st := by
  simp only [runEntry, hpayload, hflush, settleEntry]

/-- A step that performs the entries of an opcode does what R271 and R427 say. -/
theorem performRuns_of {i : Nat → Instr} {q : Queue} {opc : Nat} {ok : List Byte → Bool} {act : Entry → Eng → Payload}
    (hexec : ∀ core s, exec (i core) s = performEntry core q opc s ok act) : PerformRuns i q opc ok act := by
  intro s core e hfront hopc hrun hstart
  rw [hexec]
  refine ⟨performEntry_malformed hfront hopc hrun hstart, fun hok hgood k pos st s1 buf hpayload hflush => ?_⟩
  rw [performEntry_runs hfront hopc hrun hstart hok hgood, runEntry_ends hpayload hflush]

/-- Settles O39: each step performs the entries of its opcode, its payload the one stated. -/
theorem enginesPerform : Obligations.EnginesPerform := by
  unfold Obligations.EnginesPerform
  refine ⟨?cpy, ?cpyt, ?cpyc, ?csum, ?decq, ?topk, ?rmv⟩
  case cpy => exact performRuns_of fun _ _ => rfl
  case cpyt => exact performRuns_of fun _ _ => rfl
  case cpyc => exact performRuns_of fun _ _ => rfl
  case csum => exact performRuns_of fun _ _ => rfl
  case decq => exact performRuns_of fun _ _ => rfl
  case topk => exact performRuns_of fun _ _ => rfl
  case rmv => exact performRuns_of fun _ _ => rfl

end Sys2Proof.Machine
end

section
/-! PROOFS. The storage queue: commands submitted and completed, operations sent to peers, acknowledged and retried, and the entry of
any queue that parks at a page fault. -/

namespace Sys2Proof.Machine

/-! ### Storage commands (R276, R436, R515, R516) -/

section
variable {s : State} {core : Nat} {e : Entry} (hnext : nextStq (getCore s core).sto = some e)
  (hstart : entryMayStart s core .sto e = true)
include hnext hstart

theorem stqSubmit_malformed (hbad : stqOk e.block = false) :
    exec (.stqSubmit core) s = .next (endEntry s core .sto e (statusOf 1 3)) := by
  have hrun : exec (.stqSubmit core) s = execStqSubmit core s := rfl
  simp only [hrun, execStqSubmit, hnext, hstart, hbad, Bool.not_true, Bool.not_false, Bool.false_eq_true, if_false, if_true]

theorem stqSubmit_unbound (hok : stqOk e.block = true) (hbind : nsBinding s e.part (field e.block 0x20 2) = none) :
    exec (.stqSubmit core) s = .next (endEntry s core .sto e (statusOf 1 6)) := by
  have hrun : exec (.stqSubmit core) s = execStqSubmit core s := rfl
  simp only [hrun, execStqSubmit, hnext, hstart, hok, hbind, Bool.not_true, Bool.false_eq_true, if_false]

/-- A command in order, its binding valid, waits while it is held back, and else is submitted. -/
theorem stqSubmit_bound {lba size : Nat} {wc : Bool} (hok : stqOk e.block = true)
    (hbind : nsBinding s e.part (field e.block 0x20 2) = some (lba, wc, size)) :
    exec (.stqSubmit core) s = .next (if stqHeld s core e then s
      else submitStq (pushForEntry s core e.team) core e wc size (stqBytes e.block lba)) := by
  have hrun : exec (.stqSubmit core) s = execStqSubmit core s := rfl
  simp only [hrun, execStqSubmit, hnext, hstart, hok, hbind, Bool.not_true, Bool.false_eq_true, if_false]
  exact (apply_ite Host.Outcome.next _ _ _).symm

end

/-- What holds a command of a valid binding back: an earlier command of its core, or its binding's I/O queue being full where it needs
a place there. -/
theorem stqHeld_iff {s : State} {core : Nat} {e : Entry} {lba size : Nat} {wc : Bool}
    (hbind : nsBinding s e.part (field e.block 0x20 2) = some (lba, wc, size)) :
    stqHeld s core e = true ↔ ((getCore s core).sto.any fun x => stqBlocks s x e) = true ∨
      ((blockOp e.block ≠ 0 ∨ wc = true) ∧ nsDepth s e ≤ outstandingAt s e) := by
  simp only [stqHeld, hbind, Bool.or_eq_true, Bool.and_eq_true, bne_iff_ne, decide_eq_true_eq]

theorem stqSubmit_runs (s : State) (core : Nat) (e : Entry) (hnext : nextStq (getCore s core).sto = some e)
    (hstart : entryMayStart s core .sto e = true) (lba : Nat) (wc : Bool) (size : Nat) (hok : stqOk e.block = true)
    (hbind : nsBinding s e.part (field e.block 0x20 2) = some (lba, wc, size)) :
    (((getCore s core).sto.any fun x => stqBlocks s x e) = false →
      (blockOp e.block = 0 ∧ wc = false ∨ outstandingAt s e < nsDepth s e) →
      exec (.stqSubmit core) s = .next (submitStq (pushForEntry s core e.team) core e wc size (stqBytes e.block lba))) ∧
    (((getCore s core).sto.any fun x => stqBlocks s x e) = true → exec (.stqSubmit core) s = .next s) ∧
    ((blockOp e.block ≠ 0 ∨ wc = true) → nsDepth s e ≤ outstandingAt s e → exec (.stqSubmit core) s = .next s) := by
  rw [stqSubmit_bound hnext hstart hok hbind]
  refine ⟨fun hfree hroom => ?submitted, fun hblocked => ?blocked, fun hneeds hfull => ?full⟩
  case submitted =>
    rw [if_neg fun hheld => ?_]
    obtain hblocked | ⟨hneeds, hfull⟩ := (stqHeld_iff hbind).mp hheld
    · exact absurd (hfree.symm.trans hblocked) Bool.false_ne_true
    · obtain ⟨hflush, hnocache⟩ | hplace := hroom
      · exact hneeds.elim (· hflush) fun hwc => absurd (hnocache.symm.trans hwc) Bool.false_ne_true
      · omega
  case blocked => rw [if_pos ((stqHeld_iff hbind).mpr (.inl hblocked))]
  case full => rw [if_pos ((stqHeld_iff hbind).mpr (.inr ⟨hneeds, hfull⟩))]

/-- A target's completion ends its outstanding command: with success, or with NVME and the target's code (R277, R517). -/
theorem nvmeCompletion_ends {s : State} {entry core : Nat} {e : Entry} (sct : BitVec 3) (sc : BitVec 8)
    (hentry : storageEntry s entry = some (core, e)) (hopc : e.opc = 0xC5) (hst : e.st = .started) :
    exec (.nvmeCompletion entry sct sc) s = .next (endEntry s core .sto e
      (if sct.toNat * 256 + sc.toNat = 0 then statusOf 0 0 else statusOf 5 (sct.toNat * 256 + sc.toNat))) := by
  have hrun : exec (.nvmeCompletion entry sct sc) s = execNvmeCompletion entry sct sc s := rfl
  simp only [hrun, execNvmeCompletion, hentry]
  exact if_pos ⟨hopc, hst⟩

/-! ### Operations of peers (R437, R513, R514) -/

/-- What becomes of a peer operation that has not started: it ends with the status of what is wrong, or its request goes out. -/
theorem netqPerform_starts {s : State} {core : Nat} {e : Entry} (hfront : frontEntry (getCore s core).sto = some e)
    (hopc : e.opc = 0xC6) (hstart : entryMayStart s core .sto e = true) (hst : e.st = .waiting) :
    exec (.netqPerform core) s =
      if !netqOk e.block then .next (endEntry s core .sto e (statusOf 1 3))
      else if !peerBound s e.part (field e.block 0x24 2) then .next (endEntry s core .sto e (statusOf 1 6))
      else if peerFailed s e.part (field e.block 0x24 2) then .next (endEntry s core .sto e (statusOf 7 1))
      else .next (startNetq (pushForEntry s core e.team) core e) := by
  have hrun : exec (.netqPerform core) s = execNetqPerform core s := rfl
  simp only [hrun, execNetqPerform, hfront]
  rw [if_neg (by simp [hopc, hstart]), if_neg (by simp [hst]), if_neg (by simp [hst])]

/-- An outstanding operation whose data has not come yet passes the test that an acknowledgement makes first. -/
theorem netqAck_awaited {e : Entry} (hopc : e.opc = 0xC6) (hst : e.st = .started) (hbuf : e.buf = []) :
    ¬(e.opc ≠ 0xC6 ∨ e.st ≠ .started ∨ (!e.buf.isEmpty) = true) := by
  simp [hopc, hst, hbuf]

section
variable {s : State} {entry core : Nat} {e : Entry} (hentry : storageEntry s entry = some (core, e)) (hopc : e.opc = 0xC6)
  (hst : e.st = .started)
include hentry hopc hst

theorem netqAck_refused (data : List Byte) (hbuf : e.buf = []) :
    exec (.netqAck entry true data) s = .next (endEntry s core .sto e (statusOf 7 2)) := by
  have hrun : exec (.netqAck entry true data) s = execNetqAck entry true data s := rfl
  simp only [hrun, execNetqAck, hentry]
  rw [if_neg (netqAck_awaited hopc hst hbuf), if_pos trivial]

theorem netqAck_performed (data : List Byte) (hbuf : e.buf = []) (hop : blockOp e.block ≠ 1) :
    exec (.netqAck entry false data) s = .next (endEntry s core .sto e (statusOf 0 0)) := by
  have hrun : exec (.netqAck entry false data) s = execNetqAck entry false data s := rfl
  simp only [hrun, execNetqAck, hentry]
  rw [if_neg (netqAck_awaited hopc hst hbuf), if_neg Bool.false_ne_true, if_neg hop]

/-- A get ends once the data of its answer is written home. -/
theorem netqAck_fetched (data : List Byte) (hbuf : e.buf = []) (hop : blockOp e.block = 1) {s1 : State} {buf : Tab Byte}
    (hflush : flushBuf core .sto e (((data.take (field e.block 0x20 4)).zipIdx).foldl
      (fun t x => tset t ((field e.block 0x10 8 + x.2) % 2 ^ 64) x.1) []) s = (s1, buf, none)) :
    exec (.netqAck entry false data) s = .next (endEntry s1 core .sto e (statusOf 0 0)) := by
  have hrun : exec (.netqAck entry false data) s = execNetqAck entry false data s := rfl
  simp only [hrun, execNetqAck, hentry]
  rw [if_neg (netqAck_awaited hopc hst hbuf), if_neg Bool.false_ne_true, if_pos hop]
  simp only [hflush]

/-- Before the eighth timeout a request goes out again, its retry counted (R514). -/
theorem rdmaAckTimeout_retries (hlate : e.since + ackTimeout ≤ s.cycle) (hfew : e.retries < 7) :
    exec (.rdmaAckTimeout entry) s =
      .next (netqOut (putEntry s core .sto { e with retries := e.retries + 1, since := s.cycle }) e
        (e.snap.map fun b => b.getD 0)) := by
  have hrun : exec (.rdmaAckTimeout entry) s = execRdmaAckTimeout entry s := rfl
  simp only [hrun, execRdmaAckTimeout, hentry]
  rw [if_neg (by simp [hopc, hst]; omega), if_pos hfew]

end

/-- The device with a pair of a partition in the error state (R514). -/
def failedPair (s : State) (part peer : Nat) : State :=
  match tget s.parts part with
  | some p => { s with parts := tset s.parts part { p with failed := setIn p.failed peer true } }
  | none => s

theorem failedPair_cores (s : State) (part peer : Nat) : (failedPair s part peer).cores = s.cores := by
  unfold failedPair
  split <;> rfl

theorem failedPair_part {s : State} {part : Nat} (peer : Nat) {p : Partition} (hp : tget s.parts part = some p) :
    tget (failedPair s part peer).parts part = some { p with failed := setIn p.failed peer true } := by
  simp only [failedPair, hp]
  exact tget_tset_same _ _ _

/-- The eighth timeout ends every outstanding operation of the pair, which is then in the error state (R514). -/
theorem rdmaAckTimeout_fails {s : State} {entry core : Nat} {e : Entry} (hentry : storageEntry s entry = some (core, e))
    (hopc : e.opc = 0xC6) (hst : e.st = .started) (hlate : e.since + ackTimeout ≤ s.cycle) (hmany : 7 ≤ e.retries) :
    exec (.rdmaAckTimeout entry) s =
      .next ((listedCores (failedPair s e.part (field e.block 0x24 2))).foldl (failPair e.part (field e.block 0x24 2))
        (failedPair s e.part (field e.block 0x24 2))) := by
  have hrun : exec (.rdmaAckTimeout entry) s = execRdmaAckTimeout entry s := rfl
  simp only [hrun, execRdmaAckTimeout, hentry]
  rw [if_neg (by simp [hopc, hst]; omega), if_neg (by omega)]
  rfl

/-! ### An entry that parks (R427, R468) -/

theorem engineEntryPark_parks {s : State} {core : Nat} {q : Queue} {e : Entry} {va : DWord} {cause : Nat}
    (hfirst : faultingEntry (entriesOf (getCore s core) q) = some e) (hst : e.st = .faulting va cause) :
    ∃ u n r, exec (.engineEntryPark core q) s = .next (record (putEntry u core q { e with st := .parked n }) r) ∧
      u.cores = s.cores ∧ r.cls = 1 ∧ r.cause = cause ∧ r.addr = va ∧ r.num = n ∧ r.awaits = .engine core e.id := by
  have hrun : exec (.engineEntryPark core q) s = execEngineEntryPark core q s := rfl
  simp only [execEngineEntryPark, hfirst, hst] at hrun
  exact ⟨_, _, _, hrun, rfl, rfl, rfl, rfl, rfl, rfl⟩

/-- Settles O40: commands by what holds them back, operations of peers by their checks, retries by their count. -/
theorem storageAndPeers : Obligations.StorageAndPeers := by
  unfold Obligations.StorageAndPeers
  refine ⟨fun s core e hnext hstart => ?submit, fun s entry core e sct sc => nvmeCompletion_ends sct sc, ?perform, ?ack, ?timeout,
    fun s core q e va cause => engineEntryPark_parks⟩
  case submit =>
    exact ⟨stqSubmit_malformed hnext hstart, stqSubmit_unbound hnext hstart, stqSubmit_runs s core e hnext hstart⟩
  case perform =>
    intro s core e hfront hopc hstart hst
    dsimp only
    rw [netqPerform_starts hfront hopc hstart hst]
    refine ⟨fun hbad => ?malformed, fun hok hunbound => ?unbound, fun hok hbound hfailed => ?failed,
      fun hok hbound hsound => ?sends⟩
    case malformed => rw [hbad]; rfl
    case unbound => rw [hok, hunbound]; rfl
    case failed => rw [hok, hbound, hfailed]; rfl
    case sends => rw [hok, hbound, hsound]; rfl
  case ack =>
    intro s entry core e nak data hentry hopc hst hbuf
    refine ⟨?refused, ?performed, ?fetched⟩
    case refused =>
      rintro rfl
      exact netqAck_refused hentry hopc hst data hbuf
    case performed =>
      rintro rfl hop
      exact netqAck_performed hentry hopc hst data hbuf hop
    case fetched =>
      rintro rfl hop s1 buf hflush
      exact netqAck_fetched hentry hopc hst data hbuf hop hflush
  case timeout =>
    intro s entry core e hentry hopc hst hlate
    refine ⟨rdmaAckTimeout_retries hentry hopc hst hlate, fun hmany => ?fails⟩
    case fails =>
      exact ⟨_, rdmaAckTimeout_fails hentry hopc hst hlate hmany, failedPair_cores _ _ _, fun p => failedPair_part _⟩

end Sys2Proof.Machine
end

section
/-! PROOFS. Engine instructions: what an enqueue leaves of its group and its queue, copies that join, QSTAT and LAUNCH. -/

namespace Sys2Proof.Machine

/-! ### The ticket and the block read -/

theorem writeTicket_onlyPend (g : Group) (h : Hdr) (now : Nat) (d : Dst) (v : Nat) :
    OnlyPend g (writeTicket g .variable h now d v) := by
  unfold writeTicket
  split
  · exact writePlace_onlyPend _ _ _ _ _ _ _ _ (by simp)
  · exact writeLanes_onlyPend _ _ _ _ _ _ _ _ _ (by simp)

@[simp] theorem noteBlock_core (g : Group) (h : Hdr) (lane : Nat) (secs : List Nat) : (noteBlock g h lane secs).core = g.core := rfl

@[simp] theorem noteBlock_team (g : Group) (h : Hdr) (lane : Nat) (secs : List Nat) : (noteBlock g h lane secs).team = g.team := rfl

@[simp] theorem whoOf_noteBlock (s : State) (g : Group) (h : Hdr) (lane : Nat) (secs : List Nat) :
    whoOf s (noteBlock g h lane secs) = whoOf s g := rfl

/-- A ticket answered after a block was read leaves the group its outstanding results and its last loads to differ. -/
theorem writeTicket_noteBlock (o : Group) (h : Hdr) (lane : Nat) (secs : List Nat) (now : Nat) (d : Dst) (v : Nat) :
    let g' := writeTicket (noteBlock o h lane secs) .variable h now d v
    g' = { withPend o g'.pend with lastLoad := g'.lastLoad } := by
  intro g'
  have hpend : g' = withPend (noteBlock o h lane secs) g'.pend := writeTicket_onlyPend _ _ _ _ _
  have hload : g'.lastLoad = (noteBlock o h lane secs).lastLoad := by rw [hpend]; rfl
  rw [hload]
  exact hpend

/-- An entry that takes its snapshot differs in nothing else. -/
theorem takeSnap_entry {s s' : State} {core : Nat} {e e' : Entry} (h : takeSnap s core e = (s', e')) :
    e' = { e with snap := e'.snap } := by
  obtain rfl : (takeSnap s core e).2 = e' := congrArg Prod.snd h
  unfold takeSnap
  split
  · split
    · dsimp only
      split <;> rfl
    · rfl
  · rfl

/-! ### Engines (R444–R446) -/

/-- An instruction that is an `engineOp` does what R444 to R446 say. -/
theorem engineRuns_of {mk : EngOp → Instr} {q : Queue} {opc size : Nat}
    (hexec : ∀ x s, exec (mk x) s = engineOp s x q opc size) : EngineRuns mk q opc size := by
  intro x s gid g hissue hdst
  have hrun := hexec x s
  rw [engineOp, issue_runs _ _ hissue] at hrun
  simp only [roleOf_setGroup, roleOf_openIssue, hdst, setGroup_cycle, Bool.not_true, Bool.false_eq_true, if_false] at hrun
  rw [hrun]
  refine ⟨fun hidle => ?idle, fun lane hlane hroom halive s1 b p secs hfetch => ?acts⟩
  case idle => simp only [hidle, finish_issued]; rfl
  case acts =>
    intro s2 n s3 e hsnap c g'
    have hdead : engineDead (setGroup s gid (openIssue s g x.h)) (engineOf (openIssue s g x.h).core opc) = false := halive
    refine ⟨?next, writeTicket_noteBlock _ _ _ _ _ _ _, ?entry⟩
    case next =>
      simp only [s2, n] at hsnap
      simp only [hlane, withEngine, withSlot, hdead, getCore_setGroup, hroom, Bool.false_eq_true, if_false, hfetch, takeId, hsnap]
      rfl
    case entry =>
      rw [takeSnap_entry hsnap]
      exact ⟨rfl, rfl, rfl, rfl, rfl⟩

/-! ### CPY (R428, R447, R448) -/

theorem getCore_takeId (s : State) (k : Nat) : getCore (takeId s).1 k = getCore s k := rfl

theorem engineDead_takeId (s : State) (e : Option EngineId) : engineDead (takeId s).1 e = engineDead s e := rfl

/-- An instruction that ends after writing a core's queues leaves them as written. -/
theorem cpy_finish_setCore (s : State) (core : Nat) (c : Core) (gid : Nat) (g : Group) (beats len : Nat) :
    (getCore (finish (setCore s core c) gid g beats len) core).cpy = c.cpy := by
  rw [getCore_finish, getCore_setCore]

theorem cpy_runs (h : Hdr) (sb : BitVec 7) (d : Dst) (mask : DWord) : WhenIssued h fun s gid g o =>
    dstInRole (roleOf s g) h.uni true d = true →
    let len := instrLen h true
    (actsIn o h s.cycle = none → exec (.cpy h sb d mask) s = Ends s gid o 1 (advance o len)) ∧
    (∀ lane, actsIn o h s.cycle = some lane → ∀ s1 b p secs,
      fetchBlock (setGroup s gid o) o lane (blockAddr o h sb none s.cycle) 64 = (s1, .ok (b, p, secs)) →
      let s2 := pushForEntry s1 o.core o.team
      let own := if cpyOk b then (getCore s2 o.core).cpy.find? (takesSlice o gid b) else none
      let g' := writeTicket (noteBlock o h lane secs) .variable h s2.cycle d (blockSeq b + queueNum .cpy * 2 ^ 48)
      (own = none → queueFull (getCore s2 o.core) .cpy = false → engineDead s2 (engineOf o.core 0xC0) = false →
        ∃ t e, exec (.cpy h sb d mask) s = .next t ∧ getGroup t gid = some (advance g' len) ∧
        (getCore t o.core).cpy = (getCore s2 o.core).cpy ++ [e] ∧ e.opc = 0xC0 ∧ e.block = b ∧ e.stamp = p ∧
        e.slices = [⟨gid, b⟩] ∧ e.role = copyRole o b) ∧
      (∀ e, own = some e → ∃ t w, exec (.cpy h sb d mask) s = .next t ∧ getGroup t gid = some (advance g' len) ∧
        (getCore t o.core).cpy =
          (getCore s2 o.core).cpy.map fun x => if x.id == e.id then joinCopy gid b w x else x)) := by
  intro s gid g hissue hdst len
  have hrun : exec (.cpy h sb d mask) s = execCpy h sb d mask s := rfl
  rw [execCpy, issue_runs _ _ hissue] at hrun
  simp only [roleOf_setGroup, roleOf_openIssue, hdst, setGroup_cycle, Bool.not_true, Bool.false_eq_true, if_false] at hrun
  rw [hrun]
  refine ⟨fun hidle => ?idle, fun lane hlane s1 b p secs hfetch => ?acts⟩
  case idle => simp only [hidle, finish_issued]; rfl
  case acts =>
    intro s2 own g'
    simp only [hlane, hfetch, getCore_takeId, engineDead_takeId, takeId_cycle]
    refine ⟨fun hnone hroom halive => ?opens, fun e hsome => ?joins⟩
    case opens =>
      simp only [s2, own] at hnone hroom halive
      simp only [hnone, hroom, halive, Bool.or_false, Bool.false_eq_true, if_false]
      exact ⟨_, _, rfl, getGroup_finish _ _ _ _ _, cpy_finish_setCore _ _ _ _ _ _ _, rfl, rfl, rfl, rfl, rfl⟩
    case joins =>
      simp only [s2, own] at hsome
      simp only [hsome]
      exact ⟨_, _, rfl, getGroup_finish _ _ _ _ _, cpy_finish_setCore _ _ _ _ _ _ _⟩

/-! ### QSTAT (R449) -/

theorem qstat_runs (h : Hdr) (d : Dst) (q : Queue) : WhenIssued h fun s gid g o =>
    dstInRole (roleOf s g) h.uni true d = true →
    let c := getCore s o.core
    (actsIn o h s.cycle = none → exec (.qstat h d q) s = Ends s gid o 1 (advance o (instrLen h false))) ∧
    (actsIn o h s.cycle ≠ none → exec (.qstat h d q) s = Ends s gid o 1 (advance (writeTicket o .variable h s.cycle d
      (queueMine c q o.team + (queueIds c q).length * 2 ^ 8 + queueCap q * 2 ^ 16)) (instrLen h false))) := by
  intro s gid g hissue hdst c
  have hrun : exec (.qstat h d q) s = execQstat h d q s := rfl
  rw [execQstat, issue_runs _ _ hissue] at hrun
  simp only [roleOf_setGroup, roleOf_openIssue, hdst, setGroup_cycle, Bool.not_true, Bool.false_eq_true, if_false] at hrun
  rw [hrun]
  refine ⟨fun hidle => ?idle, fun hacts => ?acts⟩
  case idle => simp only [hidle, finish_issued]; rfl
  case acts =>
    obtain ⟨lane, hlane⟩ := Option.ne_none_iff_exists'.mp hacts
    have hpend := writeTicket_onlyPend (openIssue s g h) h s.cycle d
      (queueMine c q (openIssue s g h).team + (queueIds c q).length * 2 ^ 8 + queueCap q * 2 ^ 16)
    simp only [hlane]
    exact congrArg Host.Outcome.next (finish_issued s gid 1 _ hpend.slice hpend.core)

/-! ### LAUNCH (R408, R450) -/

theorem launch_runs (x : EngOp) (q : BitVec 10) : WhenIssued x.h fun s gid g o =>
    dstInRole (roleOf s g) x.h.uni true x.d = true →
    let len := instrLen x.h x.disp.isSome
    let src := blockAddr o x.h x.sb x.disp s.cycle
    (actsIn o x.h s.cycle = none → exec (.launch x q) s = Ends s gid o 1 (advance o len)) ∧
    (∀ lane, actsIn o x.h s.cycle = some lane → src.toNat % 64 = 0 → ∀ s1 blk secs,
      readBlock (setGroup s gid o) o lane src 128 = (s1, .ok (blk, secs)) →
      let o1 := noteBlock o x.h lane secs
      (tget s1.queues q.toNat = none →
        exec (.launch x q) s = .next (finish s1 gid (writeTicket o1 .variable x.h s1.cycle x.d 2) 1 len)) ∧
      (∀ b, tget s1.queues q.toNat = some b → queueCtx s1 b = none →
        exec (.launch x q) s = .next (finish s1 gid (writeTicket o1 .variable x.h s1.cycle x.d 2) 1 len)) ∧
      (∀ b part ctx, tget s1.queues q.toNat = some b → queueCtx s1 b = some (part, ctx) →
        (part ≠ (whoOf s1 o).part ∨ b.enabled = false →
          exec (.launch x q) s = .next (finish s1 gid (writeTicket o1 .variable x.h s1.cycle x.d 2) 1 len)) ∧
        (part = (whoOf s1 o).part → b.enabled = true → ∀ s2 v,
          appendBlock (releaseAt s1 o.core o.team .sys) q.toNat b (scheduler part ctx) blk = (s2, v) →
          exec (.launch x q) s = .next (finish s2 gid (writeTicket o1 .variable x.h s2.cycle x.d v) 1 len)))) := by
  intro s gid g hissue hdst len src
  have hrun : exec (.launch x q) s = execLaunch x q s := rfl
  rw [execLaunch, issue_runs _ _ hissue] at hrun
  simp only [roleOf_setGroup, roleOf_openIssue, hdst, setGroup_cycle, Bool.not_true, Bool.false_eq_true, if_false] at hrun
  rw [hrun]
  refine ⟨fun hidle => ?idle, fun lane hlane halign s1 blk secs hread => ?acts⟩
  case idle => simp only [hidle, finish_issued]; rfl
  case acts =>
    intro o1
    simp only [src] at halign hread
    simp only [hlane, halign, ne_eq, not_true_eq_false, if_false, hread]
    refine ⟨fun hunbound => ?unbound, fun b hbound hctx => ?noContext, fun b part ctx hbound hctx => ?bound⟩
    case unbound => simp only [hunbound]; rfl
    case noContext => simp only [hbound, hctx]; rfl
    case bound =>
      simp only [hbound, hctx, noteBlock_core, noteBlock_team, whoOf_noteBlock]
      refine ⟨fun hclosed => ?closed, fun hpart hon s2 v happend => ?appends⟩
      case closed => exact congrArg Host.Outcome.next (if_pos (hclosed.imp_right fun hoff => by rw [hoff]; rfl))
      case appends =>
        subst hpart
        simp only [hon, not_true_eq_false, Bool.not_true, Bool.false_eq_true, or_self, if_false, happend]
        rfl

/-- Settles O35: the eight engines by what their instructions share, CPY by whether an open copy takes its slice, LAUNCH by its
queue. -/
theorem enginesAndLaunch : Obligations.EnginesAndLaunch := by
  unfold Obligations.EnginesAndLaunch
  refine ⟨?cpyt, ?cpyc, ?csum, ?decq, ?stq, ?netq, ?topk, ?rmv, cpy_runs, qstat_runs, launch_runs⟩
  case cpyt => exact engineRuns_of fun _ _ => rfl
  case cpyc => exact engineRuns_of fun _ _ => rfl
  case csum => exact engineRuns_of fun _ _ => rfl
  case decq => exact engineRuns_of fun _ _ => rfl
  case stq => exact engineRuns_of fun _ _ => rfl
  case netq => exact engineRuns_of fun _ _ => rfl
  case topk => exact engineRuns_of fun _ _ => rfl
  case rmv => exact engineRuns_of fun _ _ => rfl

end Sys2Proof.Machine
end

section
/-! PROOFS. What a release leaves of the groups: all but the mark of one that watches what is written. `MemOnly` says which groups
stay resident; a barrier also needs where they stand. -/

namespace Sys2Proof.Machine

/-- A group as `s` holds it, the mark of one that watches memory aside (R325). -/
def unpoked (s : State) (gid : Nat) : Option Group := (getGroup s gid).map fun g => { g with poked := false }

theorem tget_tmap {α : Type} (t : Tab α) (f : Nat → α → α) (k : Nat) : tget (tmap t f) k = (tget t k).map (f k) := by
  induction t with
  | nil => rfl
  | cons e r ih =>
    obtain ⟨a, b⟩ := e
    by_cases h : a = k
    · subst h; simp [tmap, tget]
    · simpa [tmap, tget, h] using ih

/-- Poking a group touches its mark alone. -/
theorem pokeGroup_unmarked (σ : Nat) (g : Group) : { pokeGroup σ g with poked := false } = { g with poked := false } := by
  unfold pokeGroup
  split
  · split <;> rfl
  · rfl

theorem unpoked_pokeWatchers (s : State) (σ : Nat) : unpoked (pokeWatchers s σ) = unpoked s := by
  funext k
  simp only [unpoked, getGroup, pokeWatchers, tget_tmap, Option.map_map, Function.comp_def, pokeGroup_unmarked]

theorem unpoked_ite {s a b : State} {p : Prop} [Decidable p] (ha : unpoked a = unpoked s) (hb : unpoked b = unpoked s) :
    unpoked (if p then a else b) = unpoked s := by split <;> assumption

/-! ### Homes and copies -/

theorem unpoked_rekeyFrame (s : State) (frame : Nat) (k : List Byte) : unpoked (rekeyFrame s frame k) = unpoked s :=
  unpoked_ite rfl rfl

theorem unpoked_underKey {f : State → State} (hf : ∀ s, unpoked (f s) = unpoked s) (s : State) (σ : Nat) (k : List Byte) :
    unpoked (underKey s σ k f) = unpoked s :=
  (unpoked_rekeyFrame _ _ _).trans ((hf _).trans (unpoked_rekeyFrame s _ _))

theorem unpoked_noteOld (s : State) (σ : Nat) : unpoked (noteOld s σ) = unpoked s := unpoked_ite rfl rfl

theorem unpoked_rawHome (s : State) (σ : Nat) (bm : BitVec 64) (d : BitVec 512) (tag : BitVec 16) (codec : Bool) :
    unpoked (rawHome s σ bm d tag codec) = unpoked s :=
  (unpoked_pokeWatchers _ σ).trans (unpoked_noteOld s σ)

theorem unpoked_putCopy (s : State) (c : Copy) : unpoked (putCopy s c) = unpoked s :=
  unpoked_ite (a := noteOld s c.sector) (b := s) (unpoked_noteOld s c.sector) rfl

theorem unpoked_backWhole (s : State) (c : Copy) : unpoked (backWhole s c) = unpoked s :=
  unpoked_underKey (fun s => unpoked_rawHome (setPoison s c.sector false) _ _ _ _ _) s _ _

theorem unpoked_recallOwner (s : State) (σ : Nat) : unpoked (recallOwner s σ) = unpoked s := by
  unfold recallOwner
  split
  · rfl
  · exact unpoked_ite rfl (unpoked_backWhole _ _)

theorem unpoked_noteLost (s : State) (l : Lost) : unpoked (noteLost s l) = unpoked s := rfl

theorem unpoked_rdcPass (s : State) (crown σ : Nat) : unpoked (rdcPass s crown σ) = unpoked s := unpoked_ite rfl rfl

theorem unpoked_homeWrite (s : State) (crown σ : Nat) (bm : BitVec 64) (d : BitVec 512) (tag : BitVec 16) (codec : Bool)
    (keep : Option (Nat × Nat)) : unpoked (homeWrite s crown σ bm d tag codec keep) = unpoked s :=
  unpoked_ite rfl (unpoked_ite rfl
    ((unpoked_rawHome _ _ _ _ _ _).trans ((unpoked_rdcPass _ _ _).trans (unpoked_recallOwner s σ))))

theorem unpoked_pushWords (s : State) (c : Copy) (wm : BitVec 16) : unpoked (pushWords s c wm) = unpoked s :=
  unpoked_underKey (fun s => (unpoked_homeWrite _ _ _ _ _ _ _ _).trans (unpoked_putCopy s _)) s _ _

theorem unpoked_pushCopy (s : State) (c : Copy) : unpoked (pushCopy s c) = unpoked s := by
  unfold pushCopy
  refine unpoked_ite rfl ?_
  split
  · exact unpoked_pushWords s c _
  · exact (unpoked_backWhole _ _).trans (unpoked_putCopy s _)

theorem unpoked_evict (s : State) (agent σ : Nat) : unpoked (evict s agent σ) = unpoked s := by
  unfold evict
  split
  · exact unpoked_pushCopy s _
  · rfl

theorem unpoked_settle (s : State) (σ : Nat) : unpoked (settle s σ) = unpoked s := by
  unfold settle
  exact foldl_read_other (fun s c _ => unpoked_ite (a := (drawKeep s).1) rfl (unpoked_evict (drawKeep s).1 c.agent σ)) s

/-! ### Lines of the codec and windows -/

theorem unpoked_homeLine (s : State) (line : Nat) : unpoked (homeLine s line).1 = unpoked s := by
  unfold homeLine
  generalize lineSectors line = sectors
  exact (foldl_read_other (fun s σ _ => unpoked_recallOwner s σ) _).trans (foldl_read_other (fun s σ _ => unpoked_settle s σ) s)

theorem unpoked_putLine (s : State) (crown line : Nat) (b : List Byte) (tag : BitVec 16) (codec : Bool) :
    unpoked (putLine s crown line b tag codec) = unpoked s := by
  unfold putLine
  exact foldl_read_other (fun s _ _ => unpoked_homeWrite s _ _ _ _ _ _ _) s

theorem unpoked_expandedWrite (s : State) (core team σ : Nat) (words : BitVec 16) (d : BitVec 512) (tag : BitVec 16) :
    unpoked (expandedWrite s core team σ words d tag) = unpoked s := by
  unfold expandedWrite
  split
  · rfl
  · generalize lineSectors (σ / 4) = sectors
    have hline : unpoked (homeLine (sectors.foldl (fun s x => evict s core x) s) (σ / 4)).1 = unpoked s :=
      (unpoked_homeLine _ _).trans (foldl_read_other (fun s x _ => unpoked_evict s core x) s)
    dsimp only
    split
    · exact (unpoked_putLine _ _ _ _ _ _).trans hline
    · exact (unpoked_noteLost _ _).trans hline

theorem unpoked_windowBackWords (spare : Bool) (s : State) (core index i : Nat) (wm : BitVec 16) :
    unpoked (windowBackWords spare s core index i wm) = unpoked s := by
  unfold windowBackWords
  split
  · rfl
  · split
    · refine unpoked_ite rfl (unpoked_ite rfl ((unpoked_underKey (fun s => ?_) _ _ _).trans (unpoked_evict _ _ _)))
      exact unpoked_ite (unpoked_expandedWrite s _ _ _ _ _ _) (unpoked_homeWrite s _ _ _ _ _ _ _)
    · rfl

theorem unpoked_windowFlush (spare : Bool) (s : State) (core index : Nat) :
    unpoked (windowFlush spare s core index) = unpoked s := by
  unfold windowFlush
  split
  · rfl
  · exact foldl_read_other (fun s i _ => unpoked_windowBackWords spare s core index i _) s

/-! ### Releases and acquires -/

theorem unpoked_pushDirty (spare : Bool) (s : State) (core : Nat) : unpoked (pushDirty spare s core) = unpoked s :=
  foldl_read_other (fun s c _ => unpoked_ite (unpoked_putCopy s _) (unpoked_pushCopy s c)) s

theorem unpoked_flushWindows (spare : Bool) (s : State) (core team : Nat) (sc : Scope) :
    unpoked (flushWindows spare s core team sc) = unpoked s :=
  foldl_read_other (fun s w _ => unpoked_windowFlush spare s core w.index) s

/-- A release leaves every group as it is, the marks of watchers aside. -/
theorem unpoked_releaseAt (s : State) (core team : Nat) (sc : Scope) : unpoked (releaseAt s core team sc) = unpoked s := by
  have hpush : unpoked (if scopeLe .bough sc then pushDirty false s core else s) = unpoked s :=
    unpoked_ite (unpoked_pushDirty false s core) rfl
  have hepoch (t : State) : unpoked (epochRelease t core team sc) = unpoked t := unpoked_ite rfl rfl
  exact (hepoch _).trans ((unpoked_flushWindows false _ core team sc).trans hpush)

end Sys2Proof.Machine
end

section
/-! PROOFS. PREF and ZSECT: what a lane's address reads ahead, and the sectors that are set to zero. -/

namespace Sys2Proof.Machine

theorem pref_runs (h : Hdr) (addr : BitVec 6) (home : Bool) (n : BitVec 4) (off : BitVec 16) : WhenIssued h fun s gid g o =>
    2 * addr.toNat + 1 < (roleOf s g).regs →
    let part := takingPart o h .w32 s.cycle
    exec (.pref h addr home n off) s = .next (finish (part.foldl (fun s1 i =>
      let va := laneAddr o addr off i (s1.cycle + beatOffset .w32 part i)
      if home then (translate s1 (whoOf s1 o) va .read).1 else prefLane s1 o n.toNat va) (setGroup s gid o))
      gid o (beatCount .w32 part) (instrLen h false)) := by
  intro s gid g hissue haddr
  have hrun : exec (.pref h addr home n off) s = execPref h addr home n off s := rfl
  rw [execPref, issue_runs false _ hissue] at hrun
  simp only [roleOf_setGroup, roleOf_openIssue, ge_iff_le, Nat.not_le.mpr haddr, if_false, setGroup_cycle] at hrun
  exact hrun

/-- The addresses at which ZSECT raises MISALIGNED are none when all are multiples of 64 (R287). -/
theorem misalignedSectors_eq_nil {eas : List (Nat × DWord)} (halign : ∀ x ∈ eas, x.2.toNat % 64 = 0) :
    (eas.filter fun x => x.2.toNat % 64 != 0) = [] :=
  List.filter_eq_nil_iff.mpr fun x hx => by simp [halign x hx]

/-- Whether ZSECT is refused at an address, by what an access found of its page (R300). -/
def zsectRefused (s : State) (w : Who) (k : Checked) (va : DWord) : Bool :=
  (secWindow s w ⟨true, va.toNat / 64, none, false⟩).isNone &&
    match leafSeen k va with | some l => l.sa || l.cmp | none => false

theorem refusedSectors_eq_nil {eas : List (Nat × DWord)} {k : Checked} (s : State) (w : Who)
    (hpage : ∀ x ∈ eas, ∀ l, leafSeen k x.2 = some l → l.sa = false ∧ l.cmp = false) :
    (eas.filter fun x => zsectRefused s w k x.2) = [] :=
  List.filter_eq_nil_iff.mpr fun x hx => by
    unfold zsectRefused
    cases hleaf : leafSeen k x.2 with
    | none => simp
    | some l => simp [hpage x hx l hleaf]

theorem zsect_runs (h : Hdr) (addr : BitVec 6) (ord : Order) (scp : Scope) (off : BitVec 16) : WhenIssued h fun s gid g o =>
    2 * addr.toNat + 1 < (roleOf s g).regs →
    let len := instrLen h false
    let part := takingPart o h .w32 s.cycle
    (part = [] → exec (.zsect h addr ord scp off) s = Ends s gid o 1 (advance o len)) ∧
    (part ≠ [] →
      let s0 := setGroup (occupy s o (beatCount .w32 part)) gid o
      let w := whoOf s0 o
      let eas := part.map fun i => (i, laneAddr o addr off i (s0.cycle + beatOffset .w32 part i))
      let items := eas.map fun x => (⟨x.1, .glob (x.2 &&& ~~~63#64), 64, none, false⟩ : Item)
      (∀ x ∈ eas, x.2.toNat % 64 = 0) →
      ∀ s1 k, checkAccess s0 w .write items = (s1, k) → k.stops items = none →
      (∀ x ∈ eas, ∀ l, leafSeen k x.2 = some l → l.sa = false ∧ l.cmp = false) →
      exec (.zsect h addr ord scp off) s =
        .next (setGroup (eas.foldl (fun s x => zeroSector s w k.map x.2) (storeReleases o ord scp part s1)) gid
          (advance (payOwed o part) len))) := by
  intro s gid g hissue haddr len part
  have hrun : exec (.zsect h addr ord scp off) s = execZsect h addr ord scp off s := rfl
  rw [execZsect, issue_runs false _ hissue] at hrun
  simp only [roleOf_setGroup, roleOf_openIssue, ge_iff_le, Nat.not_le.mpr haddr, if_false, setGroup_cycle, List.isEmpty_iff,
    occupy_issued, finish_issued] at hrun
  refine ⟨fun hidle => hrun.trans (congrArg _ (if_pos hidle)), fun hacts => ?acts⟩
  case acts =>
    intro s0 w eas items halign s1 k hcheck hstops hpage
    obtain ⟨rfl, rfl⟩ := Prod.mk.inj hcheck
    have hodd := misalignedSectors_eq_nil halign
    have hrefused := refusedSectors_eq_nil (checkAccess s0 w .write items).1 w hpage
    refine hrun.trans (congrArg _ ((if_neg hacts).trans ((if_neg ?odd).trans ((if_neg ?refused).trans ?stops))))
    case odd => exact fun hx => absurd (hodd ▸ hx) (by decide)
    case refused => exact fun hx => absurd (hrefused ▸ hx) (by decide)
    case stops =>
      split
      · next t ht => exact absurd (hstops.symm.trans ht) nofun
      · rfl

/-- Settles O17: PREF by its fold over the lanes, ZSECT by the checks that its addresses pass. -/
theorem prefetchAndZeroSector : Obligations.PrefetchAndZeroSector := by
  unfold Obligations.PrefetchAndZeroSector
  exact ⟨pref_runs, zsect_runs⟩

end Sys2Proof.Machine
end

section
/-! PROOFS. Barriers: what an arrival leaves of its group, who departs, and the entries of a bough. -/

namespace Sys2Proof.Machine

/-! ### Where a group stands -/

/-- What leaves groups as they are but for their marks moves none of them. -/
theorem getGroup_of_unpoked {s t : State} (h : unpoked t = unpoked s) {k : Nat} {g : Group} (hg : getGroup s k = some g) :
    ∃ g', getGroup t k = some g' ∧ g'.pc = g.pc ∧ g'.parkLen = g.parkLen := by
  have hk : (getGroup t k).map (fun g => { g with poked := false }) = some { g with poked := false } :=
    (congrFun h k).trans (congrArg (Option.map _) hg)
  obtain ⟨g', hg', heq⟩ := Option.map_eq_some_iff.mp hk
  exact ⟨g', hg', (congrArg Group.pc heq :), (congrArg Group.parkLen heq :)⟩

theorem getGroup_park (s : State) (gid : Nat) (g : Group) (len : Nat) (w : Wait) :
    getGroup (park s gid g len w) gid = some { g with wait := w, waitSince := s.cycle, waitSeq := s.nextId, parkLen := len } :=
  getGroup_setGroup _ _ _

theorem getGroup_park_other (s : State) {gid k : Nat} (g : Group) (len : Nat) (w : Wait) (hk : k ≠ gid) :
    getGroup (park s gid g len w) k = getGroup s k := tget_tset_other _ _ _ _ hk

theorem getTeam_park (s : State) (gid : Nat) (g : Group) (len : Nat) (w : Wait) (tid : Nat) :
    getTeam (park s gid g len w) tid = getTeam s tid := rfl

/-- In `p` group `gid` waits in an instruction of `len` bytes, and every group stands where it stood in `s`. -/
def WaitsIn (s p : State) (gid len : Nat) : Prop :=
  ∀ k g, getGroup s k = some g → ∃ gp, getGroup p k = some gp ∧ gp.pc = g.pc ∧ gp.parkLen = if k = gid then len else g.parkLen

theorem waitsIn_park {s t : State} {gid : Nat} {o : Group} (len : Nat) (w : Wait) (hkept : unpoked t = unpoked s)
    (hown : ∀ g, getGroup s gid = some g → g.pc = o.pc) : WaitsIn s (park t gid o len w) gid len := by
  intro k g hg
  by_cases hk : k = gid
  · subst hk
    exact ⟨_, getGroup_park t k o len w, (hown g hg).symm, (if_pos rfl).symm⟩
  · obtain ⟨g', hg', hpc, hlen⟩ := getGroup_of_unpoked hkept hg
    exact ⟨g', (getGroup_park_other t o len w hk).trans hg', hpc, hlen.trans (if_neg hk).symm⟩

/-! ### Departing -/

/-- `f` has one group leave its wait and stand after its instruction, and leaves every other group as it is. -/
structure Departs (f : State → Nat → State) : Prop where
  own : ∀ s k g, getGroup s k = some g →
    ∃ g', getGroup (f s k) k = some g' ∧ g'.wait = .none ∧ g'.pc = g.pc + BitVec.ofNat 64 g.parkLen
  other : ∀ s j k, k ≠ j → getGroup (f s j) k = getGroup s k

theorem leaveWait_departs : Departs leaveWait where
  own s k g hg := ⟨advance (awake s g) g.parkLen, by simp only [leaveWait, hg, getGroup_setGroup], rfl, rfl⟩
  other s j k hk := by
    unfold leaveWait
    split
    · exact tget_tset_other _ _ _ _ hk
    · rfl

/-- An acquire at .bough touches the memory alone. -/
theorem acquireAt_bough (s : State) (core team : Nat) : ∃ m, acquireAt s core team .bough = { s with mem := m } := ⟨_, rfl⟩

theorem getGroup_acquireAt_bough (s : State) (core team k : Nat) :
    getGroup (acquireAt s core team .bough) k = getGroup s k := by
  obtain ⟨m, hm⟩ := acquireAt_bough s core team
  rw [hm]; rfl

theorem departBough_departs : Departs departBough where
  own s k g hg := by
    simp only [departBough, hg, getGroup_acquireAt_bough]
    exact leaveWait_departs.own s k g hg
  other s j k hk := by
    unfold departBough
    split
    · exact (getGroup_acquireAt_bough _ _ _ k).trans (leaveWait_departs.other s j k hk)
    · rfl

theorem departBough_boughBars (s : State) (gid : Nat) : (departBough s gid).boughBars = s.boughBars := by
  unfold departBough
  split
  · next g hg =>
    obtain ⟨m, hm⟩ := acquireAt_bough (leaveWait s gid) g.core g.team
    rw [hm, leaveWait, hg]; rfl
  · rfl

/-- Each of several groups that depart one after another stands after the instruction that it waited in. -/
theorem Departs.foldl {f : State → Nat → State} (hf : Departs f) {l : List Nat} (hnodup : l.Nodup) {k : Nat} (hk : k ∈ l)
    {s : State} {g : Group} (hg : getGroup s k = some g) :
    ∃ g', getGroup (l.foldl f s) k = some g' ∧ g'.wait = .none ∧ g'.pc = g.pc + BitVec.ofNat 64 g.parkLen := by
  induction l generalizing s with
  | nil => exact absurd hk List.not_mem_nil
  | cons j r ih =>
    obtain ⟨hj, hr⟩ := List.nodup_cons.mp hnodup
    rw [List.foldl_cons]
    by_cases hkj : k = j
    · subst hkj
      have hlater : ∀ t, ∀ i ∈ r, getGroup (f t i) k = getGroup t k := fun t i hi => hf.other t i k fun h => hj (h ▸ hi)
      rw [foldl_read_other (read := fun t => getGroup t k) hlater]
      exact hf.own s k g hg
    · exact ih hr ((List.mem_cons.mp hk).resolve_left hkj) ((hf.other s j k hkj).trans hg)

/-- When those that waited in `p` depart, they have moved past the instruction. -/
theorem movedPast_of_departed {f : State → Nat → State} (hf : Departs f) {s p u : State} {l : List Nat} {gid len : Nat}
    (hwaits : WaitsIn s p gid len) (hnodup : l.Nodup) (hu : ∀ k, getGroup u k = getGroup (l.foldl f p) k) :
    MovedPast s u l gid len := by
  intro k hk g hg
  obtain ⟨gp, hgp, hpc, hlen⟩ := hwaits k g hg
  obtain ⟨g', hg', hfree, hpast⟩ := hf.foldl hnodup hk hgp
  exact ⟨g', (hu k).trans hg', hfree, by rw [hpast, hpc, hlen]⟩

/-! ### Team and role barriers (R320) -/

/-- A barrier whose counted groups have all arrived completes its phase: those that arrived move past the instruction. -/
theorem settleBarrier_movedPast {s0 s : State} {tid key gid len : Nat} {t : Team} {b : Barrier} (ht : getTeam s tid = some t)
    (hb : tget t.bars key = some b) (hne : b.arrived ≠ []) (hall : ∀ k ∈ b.counted, k ∈ b.arrived) (hnodup : b.arrived.Nodup)
    (hwaits : WaitsIn s0 s gid len) : MovedPast s0 (settleBarrier s tid key) b.arrived gid len := by
  have hdone : (!b.arrived.isEmpty && b.counted.all (b.arrived.contains ·)) = true := by
    simpa [hne] using hall
  simp only [settleBarrier, ht, hb, Option.bind_some, Option.map_some, hdone, if_true]
  refine movedPast_of_departed leaveWait_departs ?_ hnodup fun k => getGroup_acquireAt_team _ _ _ k
  exact hwaits

/-- A release leaves a group's program counter. -/
theorem releaseAt_pc {s : State} {gid core team : Nat} {sc : Scope} {o g : Group} (ho : getGroup s gid = some o)
    (hg : getGroup (releaseAt s core team sc) gid = some g) : g.pc = o.pc := by
  obtain ⟨g', hg', hpc, -⟩ := getGroup_of_unpoked (unpoked_releaseAt s core team sc) ho
  cases hg.symm.trans hg'
  exact hpc

theorem bar_runs (h : Hdr) (role : Bool) (id : BitVec 4) : WhenIssued h fun s gid _ o => ∀ t,
    let i : Instr := if role then .barRole h id else .barTeam h id
    let len := instrLen h false
    let key := if role then 16 * (o.role + 1) + id.toNat else id.toNat
    let s1 := releaseAt (setGroup (occupy s o 1) gid o) o.core o.team .team
    getTeam s1 o.team = some t →
    let b := (tget t.bars key).getD ⟨0, [], [], []⟩
    let late : Bool := !b.arrived.isEmpty && !b.counted.contains gid
    let b' : Barrier := if late then { b with late := b.late ++ [gid] }
      else if b.arrived.isEmpty then
        { b with counted := residents s1 o.team (if role then some o.role else none), arrived := [gid] }
      else { b with arrived := b.arrived ++ [gid] }
    exec i s = .next (settleBarrier (park (setTeam s1 o.team { t with bars := tset t.bars key b' }) gid o len
      (if late then .barLate role id.toNat else .bar role id.toNat)) o.team key) ∧
    (late = false → (∀ k ∈ b'.counted, k ∈ b'.arrived) → b'.arrived.Nodup →
      ∃ u, exec i s = .next u ∧ MovedPast s1 u b'.arrived gid len) := by
  intro s gid g hissue t i len key s1 hteam b late b'
  have hexec : exec i s = .next (arriveBar (setGroup s gid (openIssue s g h)) gid (openIssue s g h) h role id.toNat) := by
    cases role
    · exact issue_runs false (fun s gid g => arriveBar s gid g h false id.toNat) hissue
    · exact issue_runs false (fun s gid g => arriveBar s gid g h true id.toNat) hissue
  have hrun : exec i s = .next (settleBarrier (park (setTeam s1 (openIssue s g h).team { t with bars := tset t.bars key b' }) gid
      (openIssue s g h) len (if late then .barLate role id.toNat else .bar role id.toNat)) (openIssue s g h).team key) := by
    rw [hexec, arriveBar, occupy_issued]
    simp only [s1] at hteam
    simp only [hteam]
    rfl
  refine ⟨hrun, fun hcounted hall hnodup => ⟨_, hrun, ?_⟩⟩
  have hne : b'.arrived ≠ [] := by
    simp only [b', hcounted, Bool.false_eq_true, if_false]
    split <;> simp
  exact settleBarrier_movedPast (getTeam_setTeam _ _ _) (tget_tset_same _ _ _) hne hall hnodup
    (waitsIn_park len _ rfl fun _ => releaseAt_pc (getGroup_setGroup _ _ _))

/-! ### Bough barriers (R321) -/

/-- The entry of a bough for a grid's barrier number. -/
def isEntry (bough grid n : Nat) (b : BoughBar) : Bool := b.bough == bough && b.grid == grid && b.num == n

theorem isEntry_addArrival (bough grid n gid : Nat) (b : BoughBar) :
    isEntry bough grid n (addArrival bough grid n gid b) = isEntry bough grid n b := by
  unfold addArrival
  split <;> rfl

theorem addArrival_entry {bough grid n gid : Nat} {b : BoughBar} (h : isEntry bough grid n b = true) :
    addArrival bough grid n gid b = { b with arrived := b.arrived ++ [gid] } := if_pos h

theorem addArrival_other {bough grid n gid : Nat} {b : BoughBar} (h : isEntry bough grid n b = false) :
    addArrival bough grid n gid b = b := if_neg (Bool.eq_false_iff.mp h)

/-- Where no entry is bound, the one that a first arrival binds is found. -/
theorem find_newEntry {bough grid n count gid : Nat} {l : List BoughBar} (hnone : l.any (isEntry bough grid n) = false) :
    (l ++ [(⟨bough, grid, n, count, [gid]⟩ : BoughBar)]).find? (isEntry bough grid n) = some ⟨bough, grid, n, count, [gid]⟩ := by
  have hbound : l.find? (isEntry bough grid n) = none := by simpa using hnone
  rw [List.find?_append, hbound]
  simp [isEntry]

/-- The entry that an arrival finds is found with that arrival. -/
theorem find_addArrival {bough grid n gid : Nat} {l : List BoughBar} {e : BoughBar} (he : l.find? (isEntry bough grid n) = some e) :
    (l.map (addArrival bough grid n gid)).find? (isEntry bough grid n) = some { e with arrived := e.arrived ++ [gid] } := by
  have hsame : isEntry bough grid n ∘ addArrival bough grid n gid = isEntry bough grid n := funext (isEntry_addArrival _ _ _ _)
  rw [List.find?_map, hsame, he, Option.map_some, addArrival_entry (List.find?_some he)]

/-- An arrival leaves every other entry as it is. -/
theorem filter_addArrival (bough grid n gid : Nat) (l : List BoughBar) :
    (l.map (addArrival bough grid n gid)).filter (fun b => !isEntry bough grid n b) = l.filter fun b => !isEntry bough grid n b := by
  have hsame : (fun b => !isEntry bough grid n b) ∘ addArrival bough grid n gid = fun b => !isEntry bough grid n b :=
    funext fun b => congrArg _ (isEntry_addArrival bough grid n gid b)
  rw [List.filter_map, hsame]
  refine (List.map_congr_left fun b hb => addArrival_other ?_).trans (List.map_id _)
  simpa using (List.mem_filter.mp hb).2

/-- An entry whose arrivals have reached its count is freed, and they all move past the instruction. -/
theorem settleBough_frees {s0 s : State} {bough grid n gid len : Nat} {e : BoughBar}
    (he : s.boughBars.find? (isEntry bough grid n) = some e) (hcount : e.expect ≤ e.arrived.length) (hnodup : e.arrived.Nodup)
    (hwaits : WaitsIn s0 s gid len) :
    (settleBough s bough grid n).boughBars = s.boughBars.filter (fun b => !isEntry bough grid n b) ∧
      MovedPast s0 (settleBough s bough grid n) e.arrived gid len := by
  have hfreed : settleBough s bough grid n =
      e.arrived.foldl departBough { s with boughBars := s.boughBars.filter fun b => !isEntry bough grid n b } := by
    unfold settleBough
    split
    · next hnone => cases hnone.symm.trans he
    · next b hb =>
      cases hb.symm.trans he
      exact if_pos hcount
  rw [hfreed]
  refine ⟨foldl_read_other (fun t k _ => departBough_boughBars t k) _, ?_⟩
  refine movedPast_of_departed departBough_departs ?_ hnodup fun k => rfl
  exact hwaits

/-- The count that BBAR reads: a uniform operand's, else that of the lowest enabled lane. -/
def bbarCount (g : Group) (h : Hdr) (now : Nat) (cnt : Src) : Nat :=
  match lowestEnabled g, cnt with
  | _, .s _ | _, .k _ => readSrc g h 0 now 32 cnt
  | some i, _ => readSrc g h i now 32 cnt
  | none, _ => 0

theorem bbarCount_eq (g : Group) (h : Hdr) (now : Nat) (cnt : Src) :
    bbarCount g h now cnt = match cnt with
      | .s _ | .k _ => readSrc g h 0 now 32 cnt
      | _ => match lowestEnabled g with | some i => readSrc g h i now 32 cnt | none => 0 := by
  unfold bbarCount
  cases lowestEnabled g <;> cases cnt <;> rfl

/-- A group arrives at a bough's barrier after a release; `bars` is what its arrival makes of the entries (R321). -/
def arriveBough (s : State) (gid : Nat) (g : Group) (len grid n : Nat) (bars : List BoughBar → List BoughBar) : State :=
  let s1 := releaseAt s g.core g.team .bough
  settleBough (park { s1 with boughBars := bars s1.boughBars } gid g len (.bbar n)) (boughOf g.core) grid n

/-- When an arrival makes those of an entry reach its count, the entry is freed and they all move past the instruction. -/
theorem arriveBough_frees {s : State} {gid len grid n : Nat} {g : Group} {bars : List BoughBar → List BoughBar} {e : BoughBar}
    (hg : getGroup s gid = some g) (he : (bars s.boughBars).find? (isEntry (boughOf g.core) grid n) = some e)
    (hcount : e.expect ≤ e.arrived.length) (hnodup : e.arrived.Nodup) :
    let t := arriveBough s gid g len grid n bars
    t.boughBars = (bars s.boughBars).filter (fun b => !isEntry (boughOf g.core) grid n b) ∧ MovedPast s t e.arrived gid len := by
  have hbars : (releaseAt s g.core g.team .bough).boughBars = s.boughBars := by
    rw [(releaseAt_memOnly s g.core g.team .bough).rest]
  rw [← hbars] at he ⊢
  refine settleBough_frees he hcount hnodup (waitsIn_park len _ (unpoked_releaseAt s g.core g.team .bough) fun g' hg' => ?_)
  cases hg.symm.trans hg'
  rfl

/-- What BBAR does (R321): with nothing to count and no open phase it moves on, with no entry to be had it parks, else it arrives. -/
theorem bbar_exec (h : Hdr) (id : BitVec 4) (cnt : Src) : WhenIssued h fun s gid g o =>
    srcInRole (roleOf s g) false cnt = true →
    let len := instrLen h false
    let count := bbarCount o h s.cycle cnt
    let s0 := setGroup (occupy s o 1) gid o
    let grid := gridIdOf s0 o
    let bough := boughOf o.core
    let here := s.boughBars.any (isEntry bough grid id.toNat)
    let full : Bool := decide (16 ≤ (s.boughBars.filter fun b => b.bough == bough).length)
    exec (.bbar h id cnt) s = .next (if here = false ∧ count = 0 then setGroup (occupy s o 1) gid (advance o len)
      else if here = false ∧ full = true then park s0 gid o len (.bbarFull id.toNat)
      else arriveBough s0 gid o len grid id.toNat fun l =>
        if here then l.map (addArrival bough grid id.toNat gid) else l ++ [⟨bough, grid, id.toNat, count, [gid]⟩]) := by
  intro s gid g hissue hsrc len count s0 grid bough here full
  have hgrid : gridIdOf (setGroup s gid (openIssue s g h)) (openIssue s g h) = grid := by
    simp only [grid, s0, gridIdOf, getTeam_setGroup, getTeam_occupy]
  have hhere : (s.boughBars.any fun b => b.bough == boughOf (openIssue s g h).core && b.grid == grid && b.num == id.toNat) = here :=
    rfl
  have hrun : exec (.bbar h id cnt) s = execBbar h id cnt s := rfl
  rw [execBbar, issue_runs false _ hissue] at hrun
  simp only [roleOf_setGroup, roleOf_openIssue, hsrc, Bool.not_true, Bool.false_eq_true, if_false, hgrid, setGroup_cycle,
    occupy_issued, setGroup_setGroup, setGroup_boughBars, occupy_boughBars, hhere] at hrun
  rw [hrun]
  clear_value here
  cases here with
  | false =>
    simp only [Bool.not_false, Bool.true_and, true_and, Bool.false_eq_true, if_false]
    rfl
  | true =>
    simp only [Bool.not_true, Bool.false_and, Bool.false_eq_true, Bool.true_eq_false, false_and, if_true, if_false]
    rfl

theorem bbar_runs (h : Hdr) (id : BitVec 4) (cnt : Src) : WhenIssued h fun s gid g o =>
    srcInRole (roleOf s g) false cnt = true →
    let len := instrLen h false
    let count := match cnt with
      | .s _ | .k _ => readSrc o h 0 s.cycle 32 cnt
      | _ => match lowestEnabled o with | some i => readSrc o h i s.cycle 32 cnt | none => 0
    let s0 := setGroup (occupy s o 1) gid o
    let grid := gridIdOf s0 o
    let bough := boughOf o.core
    let mine (b : BoughBar) : Bool := b.bough == bough && b.grid == grid && b.num == id.toNat
    let here := s.boughBars.any mine
    let full : Bool := decide (16 ≤ (s.boughBars.filter fun b => b.bough == bough).length)
    (here = false → count = 0 → exec (.bbar h id cnt) s = Ends s gid o 1 (advance o len)) ∧
    (here = false → count ≠ 0 → full = true → exec (.bbar h id cnt) s = .next (park s0 gid o len (.bbarFull id.toNat))) ∧
    (here = false → count ≠ 0 → full = false → ∃ s1, s1 = releaseAt s0 o.core o.team .bough ∧
      exec (.bbar h id cnt) s = .next (settleBough
        (park { s1 with boughBars := s1.boughBars ++ [⟨bough, grid, id.toNat, count, [gid]⟩] } gid o len (.bbar id.toNat))
        bough grid id.toNat)) ∧
    (here = true → ∃ s1, s1 = releaseAt s0 o.core o.team .bough ∧
      exec (.bbar h id cnt) s = .next (settleBough
        (park { s1 with boughBars := s1.boughBars.map (addArrival bough grid id.toNat gid) } gid o len (.bbar id.toNat))
        bough grid id.toNat)) ∧
    (here = false → count = 1 → full = false →
      ∃ u, exec (.bbar h id cnt) s = .next u ∧ MovedPast s0 u [gid] gid len) ∧
    (∀ e, s.boughBars.find? mine = some e → e.expect ≤ e.arrived.length + 1 → (e.arrived ++ [gid]).Nodup →
      ∃ u, exec (.bbar h id cnt) s = .next u ∧ u.boughBars = s.boughBars.filter (fun b => !mine b) ∧
        MovedPast s0 u (e.arrived ++ [gid]) gid len) := by
  intro s gid g hissue hsrc len count s0 grid bough mine here full
  have hcount : count = bbarCount (openIssue s g h) h s.cycle cnt := (bbarCount_eq _ h s.cycle cnt).symm
  clear_value count
  subst hcount
  have hbars : s0.boughBars = s.boughBars := by simp only [s0, setGroup_boughBars, occupy_boughBars]
  have hrun := bbar_exec h id cnt s gid g hissue hsrc
  have hopens (hnone : here = false) (hcnt : bbarCount (openIssue s g h) h s.cycle cnt ≠ 0) (hroom : full = false) :
      exec (.bbar h id cnt) s = .next (arriveBough s0 gid (openIssue s g h) len grid id.toNat
        (· ++ [⟨bough, grid, id.toNat, bbarCount (openIssue s g h) h s.cycle cnt, [gid]⟩])) :=
    (hrun.trans (congrArg _ ((if_neg fun hidle => hcnt hidle.2).trans
      (if_neg fun hwait => Bool.eq_false_iff.mp hroom hwait.2)))).trans
      (congrArg _ (congrArg _ (funext fun l => if_neg (Bool.eq_false_iff.mp hnone))))
  have hjoins (hsome : here = true) : exec (.bbar h id cnt) s =
      .next (arriveBough s0 gid (openIssue s g h) len grid id.toNat (·.map (addArrival bough grid id.toNat gid))) := by
    have hopen : ¬here = false := by simp [hsome]
    exact (hrun.trans (congrArg _ ((if_neg fun hidle => hopen hidle.1).trans (if_neg fun hwait => hopen hwait.1)))).trans
      (congrArg _ (congrArg _ (funext fun l => if_pos hsome)))
  refine ⟨fun hnone hzero => hrun.trans (congrArg _ (if_pos ⟨hnone, hzero⟩)), fun hnone hcnt hfull => ?full,
    fun hnone hcnt hroom => ⟨_, rfl, hopens hnone hcnt hroom⟩, fun hsome => ⟨_, rfl, hjoins hsome⟩,
    fun hnone hone hroom => ⟨_, hopens hnone (by omega) hroom, ?alone⟩, fun e he hlast hnodup => ?last⟩
  case full => exact hrun.trans (congrArg _ ((if_neg fun hidle => hcnt hidle.2).trans (if_pos ⟨hnone, hfull⟩)))
  case alone =>
    refine (arriveBough_frees (e := ⟨bough, grid, id.toNat, _, [gid]⟩) (getGroup_setGroup _ _ _) ?_ hone.le
      (List.nodup_singleton gid)).2
    exact find_newEntry ((congrArg (List.any · mine) hbars).trans hnone)
  case last =>
    have hsome : here = true := List.any_eq_true.mpr ⟨e, List.mem_of_find?_eq_some he, List.find?_some he⟩
    obtain ⟨hfreed, hpast⟩ := arriveBough_frees (s := s0) (len := len) (getGroup_setGroup _ _ _) (find_addArrival (hbars ▸ he))
      (by simpa using hlast) hnodup
    exact ⟨_, hjoins hsome, hfreed.trans ((filter_addArrival _ _ _ _ _).trans (congrArg _ hbars)), hpast⟩

/-- A BBAR parked for an entry stands before its instruction again once it can have one. -/
theorem bbarEntryFree_retries {s : State} {gid : Nat} {g : Group} (hg : getGroup s gid = some g) (hmay : mayTakeEntry s g = true) :
    ∃ t g', exec (.bbarEntryFree gid) s = .next t ∧ getGroup t gid = some g' ∧ g'.wait = .none ∧ g'.pc = g.pc := by
  have hrun : exec (.bbarEntryFree gid) s = .next (setGroup s gid (unissued s g)) := by
    have hexec : exec (.bbarEntryFree gid) s = execBbarEntryFree gid s := rfl
    simp only [hexec, execBbarEntryFree, hg, hmay, if_true, retryWait]
  exact ⟨_, _, hrun, getGroup_setGroup _ _ _, rfl, rfl⟩

/-- Settles O22: BAR and BBAR by what an arrival leaves of its barrier, and the departures that complete a phase. -/
theorem barriers : Obligations.Barriers := by
  unfold Obligations.Barriers
  exact ⟨bar_runs, bbar_runs, fun s gid g => bbarEntryFree_retries⟩

end Sys2Proof.Machine
end

section
/-! PROOFS. Cursor instructions: what their results leave of the group, and what one does whose lanes all succeed. -/

namespace Sys2Proof.Machine

/-! ### What is left of the group -/

theorem OnlyCursors.refl (g : Group) : OnlyCursors g g := rfl

theorem OnlyCursors.trans {a b c : Group} (h1 : OnlyCursors a b) (h2 : OnlyCursors b c) : OnlyCursors a c := by
  unfold OnlyCursors at *
  rw [h2, h1]
  rfl

theorem OnlyPend.onlyCursors {a b : Group} (h : OnlyPend a b) : OnlyCursors a b := by
  unfold OnlyCursors
  rw [h]
  rfl

theorem OnlyPend.cap {a b : Group} (h : OnlyPend a b) : b.cap = a.cap := by
  rw [h]
  rfl

theorem noteLoad_onlyCursors (g : Group) (l : Tab (List Nat)) : OnlyCursors g (noteLoad g l) := rfl

theorem keepRecord_onlyCursors (g : Group) (r : Recapture) : OnlyCursors g (keepRecord g r) := by
  unfold keepRecord
  dsimp only
  split <;> rfl

theorem foldl_keepRecord_onlyCursors (l : List Recapture) (g : Group) : OnlyCursors g (l.foldl keepRecord g) :=
  List.foldlRecOn l keepRecord (OnlyCursors.refl g) fun a h r _ => h.trans (keepRecord_onlyCursors a r)

/-- The results of a lane are outstanding ones alone (R363). -/
theorem writeLaneOut_onlyPend (h : Hdr) (pd : BitVec 3) (d : Option Dst) (now : Nat) (part : List Nat) (g : Group)
    (x : Nat × LaneOut) : OnlyPend g (writeLaneOut h pd d now part g x) := by
  have hvar : Cls.variable ≠ .inter := nofun
  unfold writeLaneOut
  extract_lets t gc gf
  have hcurs : OnlyPend g gc := List.foldlRecOn x.2.curs _ (OnlyPend.refl g) fun a ha c _ =>
    (ha.trans (writePlace_onlyPend a .variable h.ver false t (.c c.1) x.1 c.2.1 hvar)).trans
      (writePlace_onlyPend _ .variable h.ver false t (.cap c.1) x.1 c.2.2 hvar)
  have hflag : OnlyPend g gf := hcurs.trans (writeSel_onlyPend gc h .variable t _ x.1 x.2.flag hvar)
  cases d with
  | none => exact hflag
  | some d => exact hflag.trans (writeLane_onlyPend gf .variable h.ver t d x.2.wide x.1 x.2.val hvar)

/-- Lanes' results written one after another, each element of a list naming a lane and what it writes. -/
theorem foldl_writeLaneOut_onlyPend {α : Type} (h : Hdr) (pd : BitVec 3) (d : Option Dst) (now : Nat) (part : List Nat)
    (out : α → Nat × LaneOut) (l : List α) (g : Group) :
    OnlyPend g (l.foldl (fun g x => writeLaneOut h pd d now part g (out x)) g) :=
  List.foldlRecOn l _ (OnlyPend.refl g) fun a ha x _ => ha.trans (writeLaneOut_onlyPend h pd d now part a (out x))

/-! ### Lanes that meet no error -/

theorem laneOks_ok {α : Type} (lane : α → Nat) (out : α → LaneOut) (l : List α) :
    laneOks (l.map fun x => (lane x, .ok (out x))) = l.map fun x => (lane x, out x) := by
  simp [laneOks, List.filterMap_map]

theorem laneErrors_ok {α : Type} (lane : α → Nat) (out : α → LaneOut) (l : List α) :
    laneErrors (l.map fun x => (lane x, .ok (out x))) = [] := by
  simp [laneErrors]

/-! ### Instructions of one shape -/

/-- An instruction that acts lane by lane only moves on when no lane takes part (R33). -/
theorem idle_or_acts {x : Out} {s rest : State} {gid len : Nat} {o : Group} {part : List Nat}
    (hrun : x = .next (if part.isEmpty then finish (setGroup s gid o) gid o 1 len else rest)) :
    (part = [] → x = Ends s gid o 1 (advance o len)) ∧ (part ≠ [] → x = .next rest) :=
  ⟨fun hidle => hrun.trans (congrArg _ ((if_pos (List.isEmpty_iff.mpr hidle)).trans (finish_issued s gid 1 len rfl rfl))),
    fun hacts => hrun.trans (congrArg _ (if_neg (mt List.isEmpty_iff.mp hacts)))⟩

/-- Every instruction that is a `cursorOp` does what R357, R363 and R380 say of one whose lanes all succeed. -/
theorem cursorOp_runs {i : Instr} {h : Hdr} {curs : List (BitVec 4)} {srcs : List (Src × Bool)} {d : Option Dst} {wide : Bool}
    {pd : BitVec 3} {f : LaneCtx → Wm LaneOut} (hi : ∀ s, exec i s = cursorOp s h curs srcs d pd (fun _ _ => wide) f) :
    CursorRuns i h curs srcs d wide pd f := by
  intro s gid g hissue len part s0 w hcurs hsrcs hd
  have hrun := hi s
  rw [cursorOp, issue_runs false _ hissue] at hrun
  replace hrun := hrun.trans (congrArg _ (if_neg ?alloc))
  case alloc =>
    have hcursAll : (curs.all fun c => decide (c.toNat < (roleOf s g).curs)) = true :=
      List.all_eq_true.mpr fun c hc => decide_eq_true (hcurs c hc)
    have hsrcsAll : (srcs.all fun x => srcInRole (roleOf s g) x.2 x.1) = true := List.all_eq_true.mpr hsrcs
    cases d with
    | none =>
      simp only [roleOf_setGroup, roleOf_openIssue, hcursAll, hsrcsAll, Bool.not_true, Bool.or_self, Bool.false_eq_true,
        not_false_eq_true]
    | some x =>
      simp only [roleOf_setGroup, roleOf_openIssue, hcursAll, hsrcsAll, hd x rfl, Bool.not_true, Bool.or_self,
        Bool.false_eq_true, not_false_eq_true]
  obtain ⟨hidle, hacts⟩ := idle_or_acts hrun
  refine ⟨hidle, fun hpart => ?acts⟩
  case acts =>
    replace hrun := hacts hpart
    intro k oks hlanes ps s1 chk hcheck hpages g' hfit wrote s2 hwrite
    refine ⟨?next, ?frame, ?cap⟩
    case next =>
      simp only [part, s0, w, ps, g', wrote] at hlanes hcheck hpages hfit hwrite
      simp only [setGroup_cycle, hlanes, laneOks_ok, laneErrors_ok, Prod.mk.eta, List.map_id', hcheck, hpages, List.append_nil,
        List.isEmpty_nil, hfit, hwrite, Bool.not_true, Bool.false_eq_true, if_false] at hrun
      exact hrun
    case frame =>
      exact ((foldl_keepRecord_onlyCursors _ _).trans (foldl_writeLaneOut_onlyPend h pd d _ part id _ _).onlyCursors).trans
        (noteLoad_onlyCursors _ _)
    case cap =>
      intro hkept
      refine (foldl_writeLaneOut_onlyPend h pd d _ part id _ _).cap.trans ?_
      rw [hkept]
      rfl

end Sys2Proof.Machine
end

section
/-! PROOFS. Walkers: operations that succeed, and the source cursors that they give. -/

namespace Sys2Proof.Machine

/-! ### Operations of a walker that succeed (R380) -/

theorem bind_of_result {α β σ : Type} {m : StateM σ α} {s s1 : σ} {a : α} (hm : m s = (a, s1)) (f : α → StateM σ β) :
    (m >>= f) s = f a s1 := by
  change f (m s).1 (m s).2 = f a s1
  rw [hm]

/-- What follows an operation that succeeds is performed with its result, by the walker as it left it. -/
theorem run_bind_ok {α β : Type} {m : Wm α} {k k1 : Walker} {a : α} (hm : m.run k = (.ok a, k1)) (f : α → Wm β) :
    (m >>= f).run k = (f a).run k1 :=
  bind_of_result hm (ExceptT.bindCont f)

/-- An operation that succeeds leaves nothing to catch. -/
theorem run_tryCatch_ok {α : Type} {m : Wm α} {k k1 : Walker} {a : α} (hm : m.run k = (.ok a, k1)) (handle : CErr → Wm α) :
    (tryCatch m handle).run k = (.ok a, k1) := by
  simp only [tryCatch, tryCatchThe, MonadExceptOf.tryCatch, ExceptT.tryCatch, ExceptT.run_mk]
  exact bind_of_result hm _

theorem tryWalk_ok {α : Type} {m : Wm α} {k k1 : Walker} {a : α} (hm : m.run k = (.ok a, k1)) :
    (tryWalk m).run k = (.ok (.ok a), k1) := by
  have hreturn : (do return .ok (← m) : Wm (Except CErr α)).run k = (.ok (.ok a), k1) := run_bind_ok hm _
  unfold tryWalk
  exact run_tryCatch_ok hreturn _

theorem stateUnless_ok {α : Type} {ok : Bool} {m : Wm α} {k k1 : Walker} {a : α} (hok : ok = true)
    (hm : m.run k = (.ok a, k1)) : (stateUnless ok m).run k = (.ok a, k1) := by
  subst hok
  exact run_bind_ok (tryWalk_ok hm) _

/-- A valid source cursor in the mode asked for, whose record has its KIND, is taken with that record and what is found in its
level. -/
theorem taken_ok (c : LaneCtx) (i : Nat) (ok : Cur → Bool) (early : Lvl → Wm Nat) (k k1 k2 : Walker) (v a : Nat)
    (hvalid : (c.cur i).valid = true) (hok : ok (c.cur i) = true) (hrecord : (c.record i (c.cur i)).run k = (.ok v, k1))
    (hkind : (Lvl.ofNat v).kind = (c.cur i).kind) (hearly : (early (Lvl.ofNat v)).run k1 = (.ok a, k2)) :
    (c.taken i ok early).run k = (.ok (c.cur i, v, a), k2) := by
  unfold LaneCtx.taken
  simp only [hvalid, Bool.not_true, Bool.false_eq_true, if_false]
  refine (run_bind_ok rfl _).trans (stateUnless_ok hok ?_)
  refine (run_bind_ok hrecord _).trans ?_
  exact run_bind_ok (stateUnless_ok (beq_iff_eq.mpr hkind) hearly) _

/-- Two source cursors of which each is found are those of the merge, where their kinds are ones that R370 admits. -/
theorem mergeCurs_ok (c : LaneCtx) (ca cb : BitVec 4) (isUnion : Bool) (k k1 k2 : Walker) (a b : Cur × Nat)
    (ha : (c.readCur ca.toNat).run k = (.ok a, k1)) (hb : (c.readCur cb.toNat).run k1 = (.ok b, k2)) (hne : ca ≠ cb)
    (hordA : ordered (Lvl.ofNat a.2) = true)
    (hordB : ordered (Lvl.ofNat b.2) = true ∨ (isUnion = false ∧ (Lvl.ofNat b.2).kind = 3)) :
    (mergeCurs c ca cb isUnion).run k = (.ok (a, b), k2) := by
  have hokB : (ordered (Lvl.ofNat b.2) || (!isUnion && (Lvl.ofNat b.2).kind == 3)) = true := by simpa using hordB
  refine (run_bind_ok (tryWalk_ok ha) _).trans ((run_bind_ok (tryWalk_ok hb) _).trans ?_)
  simp only [hne, hordA, hokB, errOf, firstErr, Bool.not_true, Bool.or_self, decide_false, Bool.false_eq_true, if_false]
  rfl

end Sys2Proof.Machine
end

section
/-! PROOFS. Cursor instructions: opening, moving, reading, copying. -/

namespace Sys2Proof.Machine

/-- Settles O26: CINIT and CDESC are cursor instructions, and a valid source cursor is taken with what its record gives. -/
theorem cursorSetup : Obligations.CursorSetup := by
  unfold Obligations.CursorSetup
  exact ⟨fun _ => cursorOp_runs fun _ => rfl, fun _ => cursorOp_runs fun _ => rfl,
    fun _ => ⟨cursorOp_runs fun _ => rfl, cursorOp_runs fun _ => rfl⟩, taken_ok⟩

/-- Settles O27: each is a cursor instruction; the cursors of a merge are two that are found, each as a walker reads it. -/
theorem cursorAdvance : Obligations.CursorAdvance := by
  unfold Obligations.CursorAdvance
  exact ⟨fun _ _ _ => cursorOp_runs fun _ => rfl, fun _ _ _ _ => cursorOp_runs fun _ => rfl,
    fun _ => cursorOp_runs fun _ => rfl, fun _ => cursorOp_runs fun _ => rfl, mergeCurs_ok⟩

theorem cval_runs (x : CreadOp) : WhenIssued x.h fun s gid g o => x.ca.toNat < (roleOf s g).curs →
    dstInRole (roleOf s g) false false x.d = true →
    let len := instrLen x.h false
    let part := takingPart o x.h .w32 s.cycle
    let s0 := occupy (setGroup s gid o) o (beatCount .w32 part)
    let ctx := fun i => (⟨o, x.h, i, s0.cycle + beatOffset .w32 part i⟩ : LaneCtx)
    (part = [] → exec (.cval x) s = Ends s gid o 1 (advance o len)) ∧
    (part ≠ [] → ∀ (k : Walker) (recs : List (Nat × Nat)),
      runLanes (fun i => do
        let r ← (ctx i).readWith x.ca.toNat fun l =>
          throwIf (l.vw == 8 && (oddDst x.d || !dstInRole (roleOf s g) false true x.d)) .illegal
        return { LaneOut.empty with val := r.2 }) part (Walker.start s0 o) [] =
        (k, recs.map fun e => (e.1, .ok { LaneOut.empty with val := e.2 })) →
      let cells := recs.map fun e => (e.1, (ctx e.1).cur x.ca.toNat, Lvl.ofNat e.2)
      ∀ s2 got secs, laneReads k.s (whoOf s0 o) k.leaves ((cells.filter fun e => !e.2.1.done).map fun e =>
          ⟨e.1, .glob (valueAddr e.2.2 e.2.1), e.2.2.vw, none, false⟩) = (s2, [], got, secs) →
      let g' := cells.foldl (fun g e => writeLaneOut x.h 7 (some x.d) s2.cycle part g
        (e.1, { LaneOut.empty with
          val := match got.find? fun v => v.1 == e.1 with | some v => leNat v.2 | none => 0
          wide := e.2.2.vw == 8 })) (k.kept.foldl keepRecord o)
      capturesFit s2 gid g' = true →
      exec (.cval x) s = .next (setGroup s2 gid (advance (noteLoad (noteLoad g' k.reads) secs) len)) ∧ OnlyCursors o g') := by
  intro s gid g hissue hca hdst len part s0 ctx
  have hrun : exec (.cval x) s = execCval x s := rfl
  rw [execCval, issue_runs false _ hissue] at hrun
  simp only [roleOf_setGroup, roleOf_openIssue] at hrun
  replace hrun := hrun.trans (congrArg _ (if_neg (by simp [hca, hdst])))
  obtain ⟨hidle, hacts⟩ := idle_or_acts hrun
  refine ⟨hidle, fun hpart => ?acts⟩
  case acts =>
    replace hrun := hacts hpart
    intro k recs hlanes cells s2 got secs hreads g' hfit
    refine ⟨?next, ?frame⟩
    case next =>
      simp only [part, s0, ctx, cells] at hlanes hreads
      simp only [setGroup_cycle, hlanes, laneOks_ok, laneErrors_ok, List.map_map, Function.comp_def, hreads, List.append_nil,
        List.isEmpty_nil, Bool.not_true, Bool.false_eq_true, if_false] at hrun
      exact hrun.trans (congrArg _ (if_neg (ne_of_eq_of_ne (congrArg not hfit) Bool.false_ne_true)))
    case frame =>
      exact (foldl_keepRecord_onlyCursors _ _).trans (foldl_writeLaneOut_onlyPend x.h 7 _ _ part _ _ _).onlyCursors

/-- Settles O28: all but CVAL are cursor instructions; CVAL reads once its lanes' cursors are found. -/
theorem cursorElements : Obligations.CursorElements := by
  unfold Obligations.CursorElements
  exact ⟨fun _ => cursorOp_runs fun _ => rfl, fun _ => cursorOp_runs fun _ => rfl,
    fun _ _ _ => cursorOp_runs fun _ => rfl, fun _ _ _ => cursorOp_runs fun _ => rfl, cval_runs⟩

theorem crest_runs (h : Hdr) (cd : BitVec 4) (base : Src) (off : BitVec 10) : WhenIssued h fun s gid g o =>
    cd.toNat < (roleOf s g).curs → srcInRole (roleOf s g) true base = true →
    let len := instrLen h false
    let part := takingPart o h .w32 s.cycle
    let s0 := occupy (setGroup s gid o) o (beatCount .w32 part)
    let eas := part.map fun i => (i, imageAddr ⟨o, h, i, s0.cycle + beatOffset .w32 part i⟩ base off)
    (part = [] → exec (.crest h cd base off) s = Ends s gid o 1 (advance o len)) ∧
    (part ≠ [] → (∀ e ∈ eas, e.2.toNat % 32 = 0) → ∀ s2 got secs,
      laneReads s0 (whoOf s0 o) [] (eas.map fun e => ⟨e.1, .glob e.2, 32, none, false⟩) = (s2, [], got, secs) →
      let curs := got.map fun x => (x.1, Cur.unpack (leNat x.2))
      (∀ x ∈ curs, imageOk x.2 = true) →
      ∃ g', exec (.crest h cd base off) s = .next (setGroup s2 gid (advance (noteLoad g' secs) len)) ∧ OnlyPend o g' ∧
        g' = curs.foldl (fun g x => writeLaneOut h 7 none s2.cycle part g
          (x.1, { LaneOut.empty with curs := [(cd.toNat, (if x.2.valid then x.2.pack else 0), 0)] })) o) := by
  intro s gid g hissue hcd hbase len part s0 eas
  have hrun : exec (.crest h cd base off) s = execCrest h cd base off s := rfl
  rw [execCrest, issue_runs false _ hissue] at hrun
  simp only [roleOf_setGroup, roleOf_openIssue] at hrun
  replace hrun := hrun.trans (congrArg _ (if_neg (by simp [hcd, hbase])))
  obtain ⟨hidle, hacts⟩ := idle_or_acts hrun
  refine ⟨hidle, fun hpart => ?acts⟩
  case acts =>
    replace hrun := hacts hpart
    intro halign s2 got secs hreads curs himages
    have hall : (eas.filter fun e => e.2.toNat % 32 == 0) = eas :=
      List.filter_eq_self.mpr fun e he => beq_iff_eq.mpr (halign e he)
    have hodd : (eas.filter fun e => e.2.toNat % 32 != 0) = [] :=
      List.filter_eq_nil_iff.mpr fun e he => by simp [halign e he]
    have hbad : (curs.filter fun x => !imageOk x.2) = [] :=
      List.filter_eq_nil_iff.mpr fun x hx => by simp [himages x hx]
    refine ⟨_, ?next, foldl_writeLaneOut_onlyPend h 7 none _ part _ _ _, rfl⟩
    simp only [eas, part, s0, curs] at hall hodd hreads hbad
    simp only [setGroup_cycle, hall, hodd, hreads, hbad, List.map_nil, List.append_nil, List.isEmpty_nil, Bool.not_true,
      Bool.false_eq_true, if_false] at hrun
    exact hrun

theorem cpref_runs (h : Hdr) (ca n : BitVec 4) : WhenIssued h fun s gid g o => ca.toNat < (roleOf s g).curs →
    let part := takingPart o h .w32 s.cycle
    exec (.cpref h ca n) s = .next (finish (part.foldl (fun s1 i =>
      let x : LaneCtx := ⟨o, h, i, s1.cycle + beatOffset .w32 part i⟩
      let c := x.cur ca.toNat
      let v := readPlace o (.cap ca.toNat) i false x.now
      if c.valid && !c.append && !c.done then
        ((prefetchCursor c v n.toNat).run (Walker.start s1 o) : Except CErr Unit × Walker).2.s
      else s1) (setGroup s gid o)) gid o (beatCount .w32 part) (instrLen h false)) := by
  intro s gid g hissue hca part
  have hrun : exec (.cpref h ca n) s = execCpref h ca n s := rfl
  rw [execCpref, issue_runs false _ hissue] at hrun
  exact hrun.trans (congrArg _ (if_neg (Nat.not_le.mpr (by simpa using hca))))

/-- Settles O29: CMOV and CSAVE are cursor instructions, CREST by what its reads give, CPREF by its fold over the lanes. -/
theorem cursorImages : Obligations.CursorImages := by
  unfold Obligations.CursorImages
  exact ⟨fun _ _ _ => cursorOp_runs fun _ => rfl, fun _ _ _ _ => cursorOp_runs fun _ => rfl, crest_runs, cpref_runs⟩

end Sys2Proof.Machine
end

section
/-! PROOFS. Appending: the two phases of CAPP, CFIN, and the wait for a captured record. -/

namespace Sys2Proof.Machine

/-! ### The phases of CAPP (R373, R374) -/

/-- Where every lane is granted a slot, the lanes granted are those that phase 2 writes for. -/
theorem filterMap_granted {lanes kept : List AppLane} {f : AppLane × Grant → Option AppLane} (hf : ∀ x y, f (x, .ok y) = some y)
    (hlen : kept.length = lanes.length) : (lanes.zip (kept.map .ok)).filterMap f = kept := by
  induction lanes generalizing kept with
  | nil => exact (List.length_eq_zero_iff.mp hlen).symm
  | cons x r ih =>
    obtain _ | ⟨y, l⟩ := kept
    · cases hlen
    · rw [List.map_cons, List.zip_cons_cons, List.filterMap_cons_some (hf x y), ih (Nat.succ.inj hlen)]

theorem granted_ok {lanes kept : List AppLane} {x : AppLane × Grant} (hx : x ∈ lanes.zip (kept.map .ok)) :
    ∃ y, x.2 = .ok y := by
  obtain ⟨y, -, hy⟩ := List.mem_map.mp (List.of_mem_zip (a := x.1) (b := x.2) hx).2
  exact ⟨y, hy.symm⟩

/-- No lane is noted with an outcome of phase 1 other than a slot. -/
theorem filter_granted {lanes kept : List AppLane} {e : Grant} (he : ∀ y, .ok y ≠ e) :
    ((lanes.zip (kept.map .ok)).filter fun x => x.2 == e) = [] :=
  List.filter_eq_nil_iff.mpr fun x hx => by
    obtain ⟨y, hy⟩ := granted_ok hx
    simpa [hy] using he y

/-- Phase 2, once the slots can be written. -/
theorem appendWrite_done {s s3 s4 : State} {g : Group} {ls : Tab Leaf} {kept : List AppLane} {chk : Checked}
    {ps : List (Item × List Byte)} (gid : Nat) (gk : Group) (len : Nat) (h : Hdr) (ca : BitVec 4) (part : List Nat)
    (hps : splitWrites s (whoOf s g) (kept.flatMap AppLane.writes) = ps)
    (hcheck : checkAccessKnown s (whoOf s g) .write ls (ps.map (·.1)) = (s3, chk)) (hstops : chk.stops (ps.map (·.1)) = none)
    (hwrite : writeMapped s3 (whoOf s g) chk.map id ps = (s4, .done)) :
    appendWrite s gid g gk len h ca part ls kept = setGroup s4 gid (advance (kept.foldl (fun g x =>
      writeLaneOut h 7 none s4.cycle part g (x.lane, { LaneOut.empty with curs := [curOut ca x.after x.rcd] })) g) len) := by
  unfold appendWrite
  simp only [hps, hcheck, hstops, hwrite]

/-- Phase 1, once the heap records can be used and every lane is granted a slot. -/
theorem appendLanes_granted {s s1 s2 : State} {g gr : Group} {k : Walker} {lanes kept : List AppLane} {chk : Checked}
    {ps : List Item} (gid len : Nat) (h : Hdr) (ca : BitVec 4) (part : List Nat)
    (hps : (lanes.flatMap fun x => x.known (crownOf g.core)).flatMap (piecesOf s (whoOf s g)) = ps)
    (hcheck : checkAccessKnown s (whoOf s g) .write k.leaves ps = (s1, chk)) (hpages : pageErrs chk ps = [])
    (hscope : heapScope s1 (whoOf s g) chk.leaves (crownOf g.core) lanes = [])
    (hlost : heapLost s1 chk.map (crownOf g.core) lanes = [])
    (hgr : noteLoad (k.kept.foldl keepRecord g) (k.reads ++ heapReads chk.map (crownOf g.core) lanes) = gr)
    (hfit : capturesFit s1 gid gr = true)
    (hgrant : grantLanes (whoOf s g) chk.map lanes (storeReleases g .rlx .team part s1) [] = (s2, lanes.zip (kept.map .ok)))
    (hlen : kept.length = lanes.length) :
    ∃ gk, appendLanes s gid g len h ca part k [] lanes = appendWrite s2 gid (payOwed gr part) gk len h ca part chk.leaves kept := by
  have hmisfit : ((lanes.zip (kept.map .ok)).any fun x => x.2 == Grant.misfit) = false :=
    List.any_eq_false.mpr fun x hx => by
      obtain ⟨y, hy⟩ := granted_ok hx
      simp [hy]
  have houtside := filter_granted (lanes := lanes) (kept := kept) (e := .outside) nofun
  have hdry := filter_granted (lanes := lanes) (kept := kept) (e := .exhausted) nofun
  unfold appendLanes
  simp only [hps, hcheck, hpages, hscope, hlost, hgr, hfit, hgrant, hmisfit, houtside, hdry, List.append_nil, List.isEmpty_nil,
    Bool.not_true, Bool.false_eq_true, if_false]
  exact ⟨_, congrArg _ (filterMap_granted (fun _ _ => rfl) hlen)⟩

/-! ### The instructions -/

theorem capp_runs (h : Hdr) (ca : BitVec 4) (crd val : Src) : WhenIssued h fun s gid g o =>
    ca.toNat < (roleOf s g).curs → srcInRole (roleOf s g) false crd = true → srcInRole (roleOf s g) false val = true →
    let len := instrLen h false
    let part := takingPart o h .w32 s.cycle
    let s0 := occupy (setGroup s gid o) o (beatCount .w32 part)
    let ctx := fun i => (⟨o, h, i, s0.cycle + beatOffset .w32 part i⟩ : LaneCtx)
    let crown := crownOf o.core
    (part = [] → exec (.capp h ca crd val) s = Ends s gid o 1 (advance o len)) ∧
    (part ≠ [] → ∀ (k : Walker) (recs : List (Nat × Nat)),
      runLanes (fun i => do
        let r ← (ctx i).appWith ca.toNat fun l =>
          throwIf (l.vw == 8 && (oddSrc val || !srcInRole (roleOf s g) true val)) .illegal
        return { LaneOut.empty with val := r.2 }) part (Walker.start s0 o) [] =
        (k, recs.map fun e => (e.1, .ok { LaneOut.empty with val := e.2 })) →
      let lanes := recs.map fun e => (⟨e.1, (ctx e.1).cur ca.toNat, e.2, (ctx e.1).src 32 crd,
        (ctx e.1).src (if (Lvl.ofNat e.2).vw = 8 then 64 else 32) val⟩ : AppLane)
      let w := whoOf k.s o
      let ps := (lanes.flatMap fun x => x.known crown).flatMap (piecesOf k.s w)
      ∀ s1 chk, checkAccessKnown k.s w .write k.leaves ps = (s1, chk) → pageErrs chk ps = [] →
      heapScope s1 w chk.leaves crown lanes = [] → heapLost s1 chk.map crown lanes = [] →
      let gr := noteLoad (k.kept.foldl keepRecord o) (k.reads ++ heapReads chk.map crown lanes)
      capturesFit s1 gid gr = true →
      ∀ s2 (kept : List AppLane), grantLanes w chk.map lanes (storeReleases o .rlx .team part s1) [] =
        (s2, lanes.zip (kept.map .ok)) → kept.length = lanes.length →
      let gp := payOwed gr part
      let ps2 := splitWrites s2 (whoOf s2 gp) (kept.flatMap AppLane.writes)
      ∀ s3 chk2, checkAccessKnown s2 (whoOf s2 gp) .write chk.leaves (ps2.map (·.1)) = (s3, chk2) →
      chk2.stops (ps2.map (·.1)) = none →
      ∀ s4, writeMapped s3 (whoOf s2 gp) chk2.map id ps2 = (s4, .done) →
      let g' := kept.foldl (fun g x => writeLaneOut h 7 none s4.cycle part g
          (x.lane, { LaneOut.empty with curs := [curOut ca x.after x.rcd] })) gp
      exec (.capp h ca crd val) s = .next (setGroup s4 gid (advance g' len)) ∧ OnlyCursors gp g') := by
  intro s gid g hissue hca hcrd hval len part s0 ctx crown
  have hrun : exec (.capp h ca crd val) s = execCapp h ca crd val s := rfl
  rw [execCapp, issue_runs false _ hissue] at hrun
  simp only [roleOf_setGroup, roleOf_openIssue] at hrun
  replace hrun := hrun.trans (congrArg _ (if_neg (by simp [hca, hcrd, hval])))
  obtain ⟨hidle, hacts⟩ := idle_or_acts hrun
  refine ⟨hidle, fun hpart => ?acts⟩
  case acts =>
    replace hrun := hacts hpart
    intro k recs hlanes lanes w ps s1 chk hcheck hpages hscope hlost gr hfit s2 kept hgrant hlen gp ps2 s3 chk2 hcheck2 hstops s4
      hwrite g'
    refine ⟨?next, (foldl_writeLaneOut_onlyPend h 7 none _ part _ _ _).onlyCursors⟩
    have hphases : appendLanes k.s gid (openIssue s g h) len h ca part k [] lanes = setGroup s4 gid (advance g' len) := by
      obtain ⟨gk, hphase2⟩ := appendLanes_granted gid len h ca part rfl hcheck hpages hscope hlost rfl hfit hgrant hlen
      exact hphase2.trans (appendWrite_done gid gk len h ca part rfl hcheck2 hstops hwrite)
    simp only [part, s0, ctx] at hlanes
    simp only [setGroup_cycle, hlanes, laneOks_ok, laneErrors_ok, List.map_map, Function.comp_def] at hrun
    exact hrun.trans (congrArg _ hphases)

/-- An instruction parked for a captured record stands before itself again once an entry is free (R357). -/
theorem captureEntryFree_retries {s : State} {gid : Nat} {g : Group} (hg : getGroup s gid = some g) (hwait : g.wait = .capture)
    (hfree : pinned s g.core < 512) :
    ∃ t g', exec (.captureEntryFree gid) s = .next t ∧ getGroup t gid = some g' ∧ g'.wait = .none ∧ g'.pc = g.pc := by
  have hrun : exec (.captureEntryFree gid) s = .next (setGroup s gid (unissued s g)) := by
    have hexec : exec (.captureEntryFree gid) s = execCaptureEntryFree gid s := rfl
    simp [hexec, execCaptureEntryFree, hg, hwait, hfree, retryWait]
  exact ⟨_, _, hrun, getGroup_setGroup _ _ _, rfl, rfl⟩

/-- Settles O30: CFIN is a cursor instruction, CAPP goes through its two phases, and a parked instruction is retried. -/
theorem cursorAppend : Obligations.CursorAppend := by
  unfold Obligations.CursorAppend
  exact ⟨fun _ _ => cursorOp_runs fun _ => rfl, capp_runs, fun _ _ _ => captureEntryFree_retries⟩

end Sys2Proof.Machine
end

section
/-! PROOFS. Issue into the matrix queue: the entry that an instruction appends, for each instruction that enqueues. -/

namespace Sys2Proof.Machine

/-! ### The entry enqueued (R386, R402) -/

/-- An instruction that ends after enqueuing an entry leaves the core's queue with that entry at its end. -/
theorem mat_finish_enqueueMat (s : State) (gid : Nat) (g : Group) (word : DWord) (op : MatOp) (pages : Tab Leaf) (k0 : DWord)
    (beats len : Nat) : (getCore (finish (enqueueMat s gid g word op pages k0) gid g beats len) g.core).mat =
      (getCore s g.core).mat ++ [⟨s.nextId, g.team, gid, g.role, word, op, g.fmt, g.nextBatch, pages, none, [], k0⟩] := by
  rw [getCore_finish, enqueueMat, getCore_setCore]
  rfl

theorem mem_finish_enqueueMat (s : State) (gid : Nat) (g : Group) (word : DWord) (op : MatOp) (pages : Tab Leaf) (k0 : DWord)
    (beats len : Nat) : (finish (enqueueMat s gid g word op pages k0) gid g beats len).mem = s.mem := finish_mem _ _ _ _ _

/-- The entry carries its operation, the format register and the open batch, whatever group stood at its number. -/
theorem matEnqueued_finish (s : State) (gid : Nat) (x g : Group) (word : DWord) (op : MatOp) (pages : Tab Leaf) (k0 : DWord)
    (beats len : Nat) :
    MatEnqueued s (finish (enqueueMat (setGroup s gid x) gid g word op pages k0) gid g beats len) gid g len op k0 :=
  ⟨getGroup_finish _ _ _ _ _, mem_finish_enqueueMat _ _ _ _ _ _ _ _ _, _, mat_finish_enqueueMat _ _ _ _ _ _ _ _ _,
    rfl, rfl, rfl, rfl, rfl, rfl, rfl⟩

/-! ### TLD and TST (R390, R393) -/

/-- An instruction that is a `tileMemOp` does what R390 and R393 say. -/
theorem tileMemRuns_of {mk : TileMem → Instr} {k : Kind} {op : Nat → DWord → Int → Nat → MatOp}
    (hexec : ∀ x s, exec (mk x) s = tileMemOp s x k (entryWord (mk x)) op) : TileMemRuns mk k op := by
  intro x s gid g hissue htile haddr hcnt hroom len s0
  have hrun := hexec x s
  rw [tileMemOp, issue_runs false _ hissue] at hrun
  simp only [withSlot, getCore_setGroup, hroom, roleOf_setGroup, roleOf_openIssue, htile, haddr, hcnt, setGroup_cycle,
    Bool.not_true, Bool.or_self, Bool.false_eq_true, if_false] at hrun
  refine ⟨fun hidle => ?idle, fun i hacts => ?acts⟩
  case idle => simp only [hidle, finish_issued] at hrun; exact hrun
  case acts =>
    intro a count lines ps halign s1 chk hcheck hgood hfound
    simp only [a] at halign
    simp only [ps, lines, a, count, s0] at hcheck
    simp only [hacts, halign, hcheck, hgood, hfound, ne_eq, not_true_eq_false, List.isEmpty_nil, Bool.not_true,
      Bool.false_eq_true, if_false] at hrun
    exact ⟨_, hrun, getGroup_finish _ _ _ _ _, mem_finish_enqueueMat _ _ _ _ _ _ _ _ _, _,
      mat_finish_enqueueMat _ _ _ _ _ _ _ _ _, rfl, rfl, rfl, rfl⟩

/-! ### MMA, MMAS and ACVT (R384, R396, R401) -/

theorem mma_enqueues (x : MmaOp) (scaled : Bool) : WhenIssued x.h fun s gid g o =>
    accOk (roleOf s g) x.ad = true → tileOk (roleOf s g) x.ta = true → tileOk (roleOf s g) x.tb = true →
    (scaled = true → tileOk (roleOf s g) x.ts = true) → srcInRole (roleOf s g) false x.rows = true →
    mmaAccepts o.fmt scaled = true → queueFull (getCore s o.core) .mat = false →
    let m : Nat := match lowestEnabled o with
      | none => 0
      | some i => if x.all then 64 else min (readSrc o x.h i s.cycle 32 x.rows) 64
    ∃ t, exec (if scaled then .mmas x else .mma x) s = .next t ∧
      MatEnqueued s t gid o (instrLen x.h false)
        (.mma x.ad.toNat x.ta.toNat x.tb.toNat (if scaled then some x.ts.toNat else none) m (rowsLive o m)) := by
  intro s gid g hissue hacc hta htb hts hrows hfmt hroom m
  have hscale : (scaled && !tileOk (roleOf s g) x.ts) = false := by
    cases scaled with
    | false => rfl
    | true => rw [hts rfl]; rfl
  have hrun : ∃ word, exec (if scaled then .mmas x else .mma x) s = mmaOp s x scaled word := by
    cases scaled <;> exact ⟨_, rfl⟩
  obtain ⟨word, hrun⟩ := hrun
  rw [mmaOp, issue_runs false _ hissue] at hrun
  simp only [withSlot, getCore_setGroup, hroom, roleOf_setGroup, roleOf_openIssue, hacc, hta, htb, hscale, hrows, hfmt,
    setGroup_cycle, Bool.not_true, Bool.or_self, Bool.false_eq_true, if_false] at hrun
  exact ⟨_, hrun, matEnqueued_finish _ _ _ _ _ _ _ _ _ _⟩

theorem acvt_enqueues (h : Hdr) (t acc : BitVec 4) (part : BitVec 2) (ty : Ty) : WhenIssued h fun s gid g o =>
    tileOk (roleOf s g) t = true → accOk (roleOf s g) acc = true → (ty = .i8 → fmtAcc o.fmt = false) →
    queueFull (getCore s o.core) .mat = false →
    (actsIn o h s.cycle = none → exec (.acvt h t acc part ty) s = Ends s gid o 1 (advance o (instrLen h false))) ∧
    (actsIn o h s.cycle ≠ none → ∃ u, exec (.acvt h t acc part ty) s = .next u ∧
      MatEnqueued s u gid o (instrLen h false) (.acvt t.toNat acc.toNat part.toNat ty)) := by
  intro s gid g hissue htile hacc hty hroom
  have htype : (ty == .i8 && fmtAcc (openIssue s g h).fmt) = false := by
    by_cases hi8 : ty = .i8
    · rw [hty hi8, Bool.and_false]
    · rw [beq_eq_false_iff_ne.mpr hi8, Bool.false_and]
  have hrun : exec (.acvt h t acc part ty) s = execAcvt h t acc part ty s := rfl
  rw [execAcvt, issue_runs false _ hissue] at hrun
  simp only [withSlot, getCore_setGroup, hroom, roleOf_setGroup, roleOf_openIssue, htile, hacc, htype, setGroup_cycle,
    Bool.not_true, Bool.or_self, Bool.false_eq_true, if_false] at hrun
  rw [hrun]
  refine ⟨fun hidle => ?idle, fun hacts => ?acts⟩
  case idle => simp only [hidle, finish_issued]; rfl
  case acts =>
    obtain ⟨i, hi⟩ := Option.ne_none_iff_exists'.mp hacts
    simp only [hi]
    exact ⟨_, rfl, matEnqueued_finish _ _ _ _ _ _ _ _ _ _⟩

/-! ### TASM (R388, R395) -/

/-- Nothing of a group but its cursors, their captured records, its outstanding results and its last loads differs. -/
def OnlyMoved (g g' : Group) : Prop := g' = { g with c := g'.c, cap := g'.cap, pend := g'.pend, lastLoad := g'.lastLoad }

theorem OnlyMoved.refl (g : Group) : OnlyMoved g g := rfl

theorem OnlyMoved.trans {a b c : Group} (h1 : OnlyMoved a b) (h2 : OnlyMoved b c) : OnlyMoved a c := by
  unfold OnlyMoved at *
  rw [h2, h1]

theorem OnlyCursors.onlyMoved {a b : Group} (h : OnlyCursors a b) : OnlyMoved a b := by
  unfold OnlyMoved
  rw [h]
  rfl

theorem putCursor_onlyMoved (g : Group) (now lane : Nat) (c : Nat × Nat × Nat) : OnlyMoved g (putCursor g now lane c) := rfl

/-- The cursors of every lane, each moved. -/
theorem foldl_putCursor_onlyMoved (now : Nat) (oks : List (Nat × LaneOut)) (g : Group) :
    OnlyMoved g (oks.foldl (fun g x => x.2.curs.foldl (fun g c => putCursor g now x.1 c) g) g) :=
  List.foldlRecOn oks _ (OnlyMoved.refl g) fun _ ha x _ =>
    List.foldlRecOn x.2.curs _ ha fun b hb c _ => hb.trans (putCursor_onlyMoved b now x.1 c)

theorem tasm_enqueues (h : Hdr) (t ca : BitVec 4) (k0 : Src) (hi w16 : Bool) : WhenIssued h fun s gid g o =>
    tileOk (roleOf s g) t = true → ca.toNat < (roleOf s g).curs → srcInRole (roleOf s g) false k0 = true →
    queueFull (getCore s o.core) .mat = false →
    let part := takingPart o h .w32 s.cycle
    let s0 := setGroup s gid o
    ∀ (k : Walker) (oks : List (Nat × LaneOut)),
    runLanes (fun i => gatherLane ⟨o, h, i, s0.cycle + beatOffset .w32 part i⟩ ca k0 (if w16 then 16 else 8)) part
      (Walker.start s0 o) [] = (k, oks.map fun x => (x.1, .ok x.2)) →
    let g' := noteLoad
      (oks.foldl (fun g x => x.2.curs.foldl (fun g c => putCursor g k.s.cycle x.1 c) g) (k.kept.foldl keepRecord o)) k.reads
    capturesFit k.s gid g' = true →
    ∃ u, exec (.tasm h t ca k0 hi w16) s = .next u ∧
      g' = { o with c := g'.c, cap := g'.cap, pend := g'.pend, lastLoad := g'.lastLoad } ∧
      MatEnqueued k.s u gid g' (instrLen h false)
        (.tasm t.toNat hi (gatheredBytes (oks.map fun x => (x.1, x.2.val))) (maskOf part))
        (BitVec.ofNat 64 ((part.head?).elim 0 fun i => readSrc o h i (s.cycle + beatOffset .w32 part i) 32 k0)) := by
  intro s gid g hissue htile hca hk0 hroom part s0 k oks hlanes g' hfit
  have hrun : exec (.tasm h t ca k0 hi w16) s = execTasm h t ca k0 hi w16 s := rfl
  rw [execTasm, issue_runs false _ hissue] at hrun
  simp only [part, s0, setGroup_cycle] at hlanes
  simp only [g'] at hfit
  simp only [withSlot, getCore_setGroup, hroom, roleOf_setGroup, roleOf_openIssue, htile, hca, hk0, setGroup_cycle, hlanes,
    laneOks_ok, laneErrors_ok, Prod.mk.eta, List.map_id', hfit, decide_true, List.isEmpty_nil, Bool.not_true, Bool.or_self,
    Bool.false_eq_true, if_false] at hrun
  refine ⟨_, hrun, ?frame, matEnqueued_finish _ _ _ _ _ _ _ _ _ _⟩
  exact ((foldl_keepRecord_onlyCursors _ _).onlyMoved.trans (foldl_putCursor_onlyMoved _ _ _)).trans
    (noteLoad_onlyCursors _ _).onlyMoved

/-- Settles O32: TLD and TST by the shape that they share, the others each by the entry that it appends. -/
theorem matrixIssue : Obligations.MatrixIssue := by
  unfold Obligations.MatrixIssue
  exact ⟨tileMemRuns_of fun _ _ => rfl, tileMemRuns_of fun _ _ => rfl, mma_enqueues, acvt_enqueues, tasm_enqueues⟩

end Sys2Proof.Machine
end

section
/-! PROOFS. Interlocked results of one word, in the lanes that take part and in a uniform register. -/

namespace Sys2Proof.Machine

/-! ### One lane (R73–R75, R174) -/

theorem dstPlaces_word_isReg {d : Dst} {p : Place} (hp : p ∈ dstPlaces false d) : p.isReg = true := by
  revert p
  cases d <;> simp [dstPlaces, Place.isReg]

theorem halfFor_word {d : Dst} {p : Place} (hp : p ∈ dstPlaces false d) (val : Nat) : halfFor d p val = val % 2 ^ 32 := by
  revert p
  cases d <;> simp [dstPlaces, halfFor]

/-- A word's result writes the places of its destination, then the latches. -/
theorem writeLane_word (g : Group) (c : Cls) (ver : Ver) (t : Nat) (d : Dst) (lane val : Nat) :
    writeLane g c ver t d false lane val =
      pushLatch ((dstPlaces false d).foldl (fun g p => writePlace g c ver false t p lane (val % 2 ^ 32)) g) c ver t lane
        (val % 2 ^ 32) := by
  cases d <;> rfl

section
variable (g : Group) (ver : Ver) (t : Nat) (d : Dst) {lane : Nat} (val : Nat) (hlane : lane < 32)
include hlane

/-- The writes of a word leave every place that they do not name. -/
theorem wordWrites_other {p : Place} {k : Nat} (hk : k < 32) (hother : k = lane → p ∉ dstPlaces false d) :
    newestAt ((dstPlaces false d).foldl (fun g p => writePlace g .inter ver false t p lane (val % 2 ^ 32)) g) p k =
      newestAt g p k := by
  refine foldl_read_other (read := fun g => newestAt g p k) (fun g q hq => ?_) g
  refine newestAt_interlocked_reg_other g ver t lane (dstPlaces_word_isReg hq) _ p k hlane hk ?_
  rintro ⟨⟩
  exact hother rfl hq

theorem writeLane_word_holds : LaneHolds g (writeLane g .inter ver t d false lane val) .inter ver t d false lane val := by
  have hlatch (i : Nat) : Place.l i ∉ dstPlaces false d := fun h => absurd (dstPlaces_word_isReg h) Bool.false_ne_true
  have hval : val % 2 ^ 32 < 2 ^ 32 := Nat.mod_lt _ (by decide)
  rw [writeLane_word]
  refine ⟨fun p hp => ?dst, pushLatch_newest_zero _ _ _ _ _ _, (pushLatch_newest_one _ _ _ _ _ _).trans ?latch⟩
  case dst =>
    rw [pushLatch_newest_other _ _ _ _ _ _ _ _ (fun h => hlatch 0 (h.1 ▸ hp)) fun h => hlatch 1 (h.1 ▸ hp), halfFor_word hp]
    have hwrite (g : Group) := newestAt_interlocked_reg g ver t lane (dstPlaces_word_isReg hp) hval
    refine foldl_read_mem (read := fun g => newestAt g p lane) hp hwrite (fun g q hq => ?_) g
    by_cases hpq : p = q
    · exact .inr (hpq ▸ hwrite g)
    · exact .inl (newestAt_interlocked_reg_other g ver t lane (dstPlaces_word_isReg hq) _ p lane hlane hlane (by simp [hpq]))
  case latch => exact wordWrites_other g ver t d val hlane hlane fun _ => hlatch 0

/-- What a lane's destination and latches are not keeps what it held. -/
theorem writeLane_word_other {p : Place} {k : Nat} (hk : k < 32)
    (hother : k = lane → p ∉ Place.l 0 :: .l 1 :: dstPlaces false d) :
    newestAt (writeLane g .inter ver t d false lane val) p k = newestAt g p k := by
  rw [writeLane_word, pushLatch_newest_other _ _ _ _ _ _ _ _ (fun h => hother h.2 (by simp [h.1])) fun h => hother h.2 (by simp [h.1])]
  exact wordWrites_other g ver t d val hlane hk fun h hp => hother h (by simp [hp])

end

/-! ### All lanes -/

/-- Of steps for distinct lanes, each of which leaves every other lane's places, a lane's own step settles what its places hold. -/
theorem foldl_lanes_newest {f : Group → Nat → Group} {lanes : List Nat} {lane : Nat}
    (hother : ∀ g, ∀ i ∈ lanes, i ≠ lane → ∀ p, newestAt (f g i) p lane = newestAt g p lane) (hnodup : lanes.Nodup)
    (hl : lane ∈ lanes) (g : Group) : ∃ g1, (∀ p, newestAt g1 p lane = newestAt g p lane) ∧
      ∀ p, newestAt (lanes.foldl f g) p lane = newestAt (f g1 lane) p lane := by
  obtain ⟨before, after, rfl⟩ := List.append_of_mem hl
  obtain ⟨hafter, hbefore⟩ : lane ∉ after ∧ lane ∉ before := by
    rw [List.nodup_middle, List.nodup_cons, List.mem_append, not_or] at hnodup
    exact hnodup.1.symm
  rw [List.foldl_append, List.foldl_cons]
  refine ⟨before.foldl f g, fun p => ?_, fun p => ?_⟩
  · exact foldl_read_other (read := fun g => newestAt g p lane)
      (fun g i hi => hother g i (by simp [hi]) (ne_of_mem_of_not_mem hi hbefore) p) g
  · exact foldl_read_other (read := fun g => newestAt g p lane)
      (fun g i hi => hother g i (by simp [hi]) (ne_of_mem_of_not_mem hi hafter) p) _

section
variable (g : Group) (ver : Ver) {lanes : List Nat} (now : Nat) (d : Dst) (val : Nat → Nat) (hlanes : ∀ i ∈ lanes, i < 32)
include hlanes

/-- A lane's places that an interlocked word does not name keep what they held. -/
theorem writeLanes_word_other {p : Place} {lane : Nat} (hlane : lane < 32)
    (hother : lane ∈ lanes → p ∉ Place.l 0 :: .l 1 :: dstPlaces false d) :
    newestAt (writeLanes .inter ver .w32 lanes now d false val g) p lane = newestAt g p lane :=
  foldl_read_other (read := fun g => newestAt g p lane)
    (fun g i hi => writeLane_word_other g ver _ d (val i) (hlanes i hi) hlane fun h => hother (h ▸ hi)) g

/-- Every lane of an interlocked word holds it at once. -/
theorem writeLanes_word_holds (hnodup : lanes.Nodup) {lane : Nat} (hl : lane ∈ lanes) :
    LaneHolds g (writeLanes .inter ver .w32 lanes now d false val g) .inter ver (now + beatOffset .w32 lanes lane) d false lane
      (val lane) := by
  obtain ⟨g1, hfirst, hrest⟩ := foldl_lanes_newest (fun g i hi hne p => writeLane_word_other g ver (now + beatOffset .w32 lanes i) d
    (val i) (hlanes i hi) (hlanes lane hl) fun h => absurd h.symm hne) hnodup hl g
  obtain ⟨hdst, hzero, hone⟩ := writeLane_word_holds g1 ver (now + beatOffset .w32 lanes lane) d (val lane) (hlanes lane hl)
  exact ⟨fun p hp => (hrest p).trans (hdst p hp), (hrest _).trans hzero, ((hrest _).trans hone).trans (hfirst _)⟩

end

/-! ### A uniform register (R74) -/

theorem writeUni_interlocked (g : Group) (ver : Ver) (t : Nat) (d : Dst) (val : Nat) :
    newestAt (writeUni g .inter ver t d val) (.s (dstSreg d)) 0 = (val % 2 ^ 64, some 0, none) := by
  refine newestAt_interlocked g ver true t _ 0 ?_
  simp only [setBase, placeBase, cget_cset_same, BitVec.toNat_ofNat, Nat.mod_mod]

theorem writeUni_interlocked_other (g : Group) (ver : Ver) (t : Nat) (d : Dst) (val : Nat) {p : Place} (k : Nat)
    (hother : p ≠ .s (dstSreg d)) : newestAt (writeUni g .inter ver t d val) p k = newestAt g p k := by
  refine newestAt_interlocked_other g ver true t _ 0 _ p k ?_ fun h => hother (Prod.mk.inj h).1
  cases p with
  | s i =>
    have hne : i ≠ dstSreg d := fun h => hother (congrArg Place.s h)
    simp only [setBase, placeBase, cget_cset_other _ _ _ _ hne]
  | _ => rfl

/-! ### What an interlocked word leaves of its group -/

/-- Nothing of a group but its per-lane and uniform registers and its outstanding results differs. -/
def OnlyWords (g g' : Group) : Prop := g' = { g with v := g'.v, o := g'.o, s := g'.s, pend := g'.pend }

theorem OnlyWords.refl (g : Group) : OnlyWords g g := rfl

theorem OnlyWords.trans {a b c : Group} (h1 : OnlyWords a b) (h2 : OnlyWords b c) : OnlyWords a c := by
  unfold OnlyWords at *
  rw [h2, h1]

theorem writePlace_reg_onlyWords (g : Group) (ver : Ver) (t : Nat) {p : Place} (hreg : p.isReg = true) (lane val : Nat) :
    OnlyWords g (writePlace g .inter ver false t p lane val) := by
  cases p with
  | v i => rfl
  | o i => rfl
  | _ => cases hreg

theorem writeLane_word_onlyWords (g : Group) (ver : Ver) (t : Nat) (d : Dst) (lane val : Nat) :
    OnlyWords g (writeLane g .inter ver t d false lane val) := by
  rw [writeLane_word]
  refine OnlyWords.trans (List.foldlRecOn _ _ (OnlyWords.refl g) fun a ha p hp => ?_) rfl
  exact ha.trans (writePlace_reg_onlyWords a ver t (dstPlaces_word_isReg hp) lane _)

theorem writeLanes_word_onlyWords (ver : Ver) (lanes : List Nat) (now : Nat) (d : Dst) (val : Nat → Nat) (g : Group) :
    OnlyWords g (writeLanes .inter ver .w32 lanes now d false val g) :=
  List.foldlRecOn lanes _ (OnlyWords.refl g) fun a ha i _ => ha.trans (writeLane_word_onlyWords a ver _ d i (val i))

theorem writeUni_onlyWords (g : Group) (ver : Ver) (t : Nat) (d : Dst) (val : Nat) :
    OnlyWords g (writeUni g .inter ver t d val) := rfl

end Sys2Proof.Machine
end

section
/-! PROOFS. Batches of the matrix queue: MFENCE closes one, MWAITB waits for one, MWAITB_WAKE ends the wait. -/

namespace Sys2Proof.Machine

/-! ### MFENCE (R402) -/

/-- The group of an MFENCE that acts: its open batch is closed, and the batch's number is its result. -/
def closeBatch (h : Hdr) (d : Dst) (o : Group) (now : Nat) : Group :=
  let g := { o with nextBatch := o.nextBatch + 1 }
  if h.uni then writeUni g .inter h.ver now d (batchNumber o.nextBatch)
  else writeLanes .inter h.ver .w32 (takingPart o h .w32 now) now d false (fun _ => batchNumber o.nextBatch) g

/-- Places of lanes and uniform registers are read alike whatever batch is open. -/
theorem newestAt_nextBatch (o : Group) (n : Nat) (p : Place) (lane : Nat) :
    newestAt { o with nextBatch := n } p lane = newestAt o p lane := by
  cases p <;> rfl

theorem readPlace_nextBatch (o : Group) (n : Nat) (p : Place) (lane : Nat) (uni : Bool) (now : Nat) :
    readPlace { o with nextBatch := n } p lane uni now = readPlace o p lane uni now := by
  cases p <;> rfl

theorem beatsFrom_congr {g g' : Group} {h : Hdr} (henabled : enabledLanes g' = enabledLanes g)
    (hguard : laneGuard g' h = laneGuard g h) (w : Width) (n b now : Nat) : beatsFrom g' h w n b now = beatsFrom g h w n b now := by
  induction n generalizing b now with
  | zero => rfl
  | succ n ih =>
    unfold beatsFrom
    rw [henabled, hguard]
    simp only [ih]

/-- The lanes that take part do so whatever batch is open. -/
theorem takingPart_nextBatch (o : Group) (n : Nat) (h : Hdr) (w : Width) (now : Nat) :
    takingPart { o with nextBatch := n } h w now = takingPart o h w now :=
  beatsFrom_congr rfl (funext₂ fun _ _ => by simp only [laneGuard, readPlace_nextBatch]) w 4 0 now

section
variable (h : Hdr) (d : Dst) (o : Group) (now : Nat)

theorem closeBatch_uniform (huni : h.uni = true) : closeBatch h d o now =
    writeUni { o with nextBatch := o.nextBatch + 1 } .inter h.ver now d (batchNumber o.nextBatch) := if_pos huni

theorem closeBatch_lanes (huni : h.uni = false) : closeBatch h d o now =
    writeLanes .inter h.ver .w32 (takingPart o h .w32 now) now d false (fun _ => batchNumber o.nextBatch)
      { o with nextBatch := o.nextBatch + 1 } := if_neg (by simp [huni])

theorem closeBatch_onlyWords : OnlyWords { o with nextBatch := o.nextBatch + 1 } (closeBatch h d o now) := by
  cases huni : h.uni with
  | false => rw [closeBatch_lanes h d o now huni]; exact writeLanes_word_onlyWords _ _ _ _ _ _
  | true => rw [closeBatch_uniform h d o now huni]; exact writeUni_onlyWords _ _ _ _ _

theorem closeBatch_slice : (closeBatch h d o now).slice = o.slice := by rw [closeBatch_onlyWords]

theorem closeBatch_core : (closeBatch h d o now).core = o.core := by rw [closeBatch_onlyWords]

theorem closeBatch_holds (huni : h.uni = false) {lane : Nat} (hl : lane ∈ takingPart o h .w32 now) :
    LaneHolds o (closeBatch h d o now) .inter h.ver (now + beatOffset .w32 (takingPart o h .w32 now) lane) d false lane
      (batchNumber o.nextBatch) := by
  rw [closeBatch_lanes h d o now huni]
  obtain ⟨hdst, hzero, hone⟩ := writeLanes_word_holds { o with nextBatch := o.nextBatch + 1 } h.ver now d
    (fun _ => batchNumber o.nextBatch) (fun _ => takingPart_lt o h .w32 now) (takingPart_nodup o h .w32 now) hl
  exact ⟨hdst, hzero, hone.trans (newestAt_nextBatch _ _ _ _)⟩

theorem closeBatch_newest (huni : h.uni = true) :
    newestAt (closeBatch h d o now) (.s (dstSreg d)) 0 = (batchNumber o.nextBatch, some 0, none) := by
  have hnum : batchNumber o.nextBatch % 2 ^ 64 = batchNumber o.nextBatch := Nat.mod_eq_of_lt (by unfold batchNumber; omega)
  rw [closeBatch_uniform h d o now huni, writeUni_interlocked, hnum]

theorem closeBatch_newest_other {p : Place} {lane : Nat} (hlane : lane < 32)
    (hdst : h.uni = false → lane ∈ takingPart o h .w32 now → p ∉ Place.l 0 :: .l 1 :: dstPlaces false d)
    (hsreg : h.uni = true → p ≠ .s (dstSreg d)) : newestAt (closeBatch h d o now) p lane = newestAt o p lane := by
  refine Eq.trans ?_ (newestAt_nextBatch o (o.nextBatch + 1) p lane)
  cases huni : h.uni with
  | false =>
    rw [closeBatch_lanes h d o now huni]
    exact writeLanes_word_other _ _ now d _ (fun _ => takingPart_lt o h .w32 now) hlane (hdst huni)
  | true =>
    rw [closeBatch_uniform h d o now huni]
    exact writeUni_interlocked_other _ _ now d _ lane (hsreg huni)

end

theorem mfence_closes (h : Hdr) (d : Dst) : WhenIssued h fun s gid g o => dstInRole (roleOf s g) h.uni false d = true →
    let len := instrLen h false
    (actsIn o h s.cycle = none → exec (.mfence h d) s = Ends s gid o 1 (advance o len)) ∧
    (actsIn o h s.cycle ≠ none → exec (.mfence h d) s = Ends s gid o 1 (advance (closeBatch h d o s.cycle) len)) := by
  intro s gid g hissue hdst len
  have hrun : exec (.mfence h d) s = execMfence h d s := rfl
  rw [execMfence, issue_runs false _ hissue] at hrun
  simp only [roleOf_setGroup, roleOf_openIssue, hdst, setGroup_cycle, Bool.not_true, Bool.false_eq_true, if_false] at hrun
  refine ⟨fun hidle => ?idle, fun hacts => ?acts⟩
  case idle => simp only [hidle, finish_issued] at hrun; exact hrun
  case acts =>
    obtain ⟨i, hi⟩ := Option.ne_none_iff_exists'.mp hacts
    simp only [hi, takingPart_nextBatch] at hrun
    exact hrun.trans (congrArg Host.Outcome.next (finish_issued s gid 1 len (closeBatch_slice h d (openIssue s g h) s.cycle)
      (closeBatch_core h d (openIssue s g h) s.cycle)))

/-! ### MWAITB and MWAITB_WAKE (R391, R403) -/

theorem mwaitb_runs (h : Hdr) (a : Src) (all : Bool) : WhenIssued h fun s gid g o => srcInRole (roleOf s g) false a = true →
    let len := instrLen h false
    let target := fun i => if all then (if o.nextBatch = 0 then none else some (o.nextBatch - 1))
      else batchNumbered o.nextBatch (readSrc o h i s.cycle 32 a)
    (actsIn o h s.cycle = none → exec (.mwaitb h a all) s = Ends s gid o 1 (advance o len)) ∧
    (∀ i, actsIn o h s.cycle = some i →
      (target i = none → exec (.mwaitb h a all) s = Ends s gid o 1 (advance o len)) ∧
      (∀ b, target i = some b → outstanding (getCore s o.core) gid b = false →
        exec (.mwaitb h a all) s = Ends s gid o 1 (advance o len)) ∧
      (∀ b, target i = some b → outstanding (getCore s o.core) gid b = true → ∃ t g', exec (.mwaitb h a all) s = .next t ∧
        getGroup t gid = some g' ∧ g'.wait = .batch b ∧ g'.pc = g.pc)) := by
  intro s gid g hissue hsrc len target
  have hrun : exec (.mwaitb h a all) s = execMwaitb h a all s := rfl
  rw [execMwaitb, issue_runs false _ hissue] at hrun
  simp only [roleOf_setGroup, roleOf_openIssue, hsrc, setGroup_cycle, getCore_setGroup, Bool.not_true, Bool.false_eq_true,
    if_false] at hrun
  rw [hrun]
  have hmoves : finish (setGroup s gid (openIssue s g h)) gid (openIssue s g h) 1 len =
      setGroup (occupy s (openIssue s g h) 1) gid (advance (openIssue s g h) len) := finish_issued s gid 1 len rfl rfl
  refine ⟨fun hidle => ?idle, fun i hacts => ?acts⟩
  case idle => simp only [hidle]; exact congrArg Host.Outcome.next hmoves
  case acts =>
    simp only [target, hacts]
    refine ⟨fun hnone => ?none, fun b hb hretired => ?retired, fun b hb hwaits => ?waits⟩
    case none => simp only [hnone]; exact congrArg Host.Outcome.next hmoves
    case retired =>
      simp only [hb, hretired, Bool.false_eq_true, if_false]
      exact congrArg Host.Outcome.next hmoves
    case waits =>
      simp only [hb, hwaits, if_true]
      exact ⟨_, _, rfl, getGroup_setGroup _ _ _, rfl, openIssue_pc s g h⟩

theorem mwaitbWake_goesOn {s : State} {gid : Nat} {g : Group} {b : Nat} (hg : getGroup s gid = some g) (hwait : g.wait = .batch b)
    (hretired : outstanding (getCore s g.core) gid b = false) :
    ∃ t g', exec (.mwaitbWake gid) s = .next t ∧ getGroup t gid = some g' ∧ g'.wait = .none ∧
      g'.pc = g.pc + BitVec.ofNat 64 g.parkLen := by
  have hrun : exec (.mwaitbWake gid) s = execMwaitbWake gid s := rfl
  simp only [hrun, execMwaitbWake, wakeBatch, leaveWait, hg, hwait, hretired, Bool.false_eq_true, if_false]
  exact ⟨_, _, rfl, getGroup_setGroup _ _ _, rfl, rfl⟩

/-- Settles O34: MFENCE by the group whose batch it closes, MWAITB by the batch that it names, its wake by the queue. -/
theorem batches : Obligations.Batches := by
  unfold Obligations.Batches
  refine ⟨fun h d s gid g hissue hdst => ?mfence, mwaitb_runs, fun s gid g b => mwaitbWake_goesOn⟩
  case mfence =>
    intro len part
    obtain ⟨hidle, hacts⟩ := mfence_closes h d s gid g hissue hdst
    exact ⟨hidle, fun hact => ⟨_, hacts hact, closeBatch_onlyWords h d _ _, fun huni lane => closeBatch_holds h d _ _ huni,
      closeBatch_newest h d _ _, fun p lane => closeBatch_newest_other h d _ _⟩⟩

end Sys2Proof.Machine
end

section
/-! PROOFS. What reading by address leaves of the groups: all but the mark of one that watches what is recalled. -/

namespace Sys2Proof.Machine

/-! ### Homes and pages (R221, R224, R231) -/

theorem unpoked_homeRead (s : State) (σ : Nat) : unpoked (homeRead s σ).1 = unpoked s :=
  (unpoked_recallOwner _ σ).trans (unpoked_settle s σ)

theorem unpoked_walk (part : Nat) (va : DWord) (lvl : Nat) (s : State) (t : Nat) :
    unpoked (walk part va lvl s t).1 = unpoked s := by
  induction lvl generalizing s t with
  | zero => rfl
  | succ lvl ih =>
    have hread (pa : Nat) : unpoked (homeRead64 (rekeyFrame s (pa / 65536) (keyLoOf s part)) pa).1 = unpoked s :=
      (unpoked_homeRead _ _).trans (unpoked_rekeyFrame s _ _)
    simp only [walk]
    split
    · rfl
    · split
      · exact hread _
      · split
        · exact hread _
        · split
          · exact hread _
          · split
            · exact hread _
            · exact (ih _ _).trans (hread _)

theorem unpoked_walkRoot (s : State) (part : Nat) (va : DWord) (root : Nat) :
    unpoked (walkRoot s part va root).1 = unpoked s := by
  unfold walkRoot
  split
  · exact unpoked_walk part va 4 s root
  · rfl

theorem unpoked_checkLeaf (s : State) (part : Nat) (k : Kind) (l : Leaf) (va : DWord) :
    unpoked (checkLeaf s part k l va).1 = unpoked s := by
  unfold checkLeaf
  split
  · exact unpoked_rekeyFrame s _ _
  · rfl

theorem unpoked_installTlb (s : State) (core part ctx : Nat) (va : DWord) (l : Leaf) :
    unpoked (installTlb s core part ctx va l) = unpoked s := unpoked_ite rfl rfl

theorem unpoked_tlbLookup (l : List TlbEntry) (s : State) : unpoked (tlbLookup l s).1 = unpoked s := by
  induction l generalizing s with
  | nil => rfl
  | cons e r ih =>
    simp only [tlbLookup]
    split
    · rfl
    · exact ih (drawKeep s).1

theorem unpoked_translateLeaf (s : State) (w : Who) (va : DWord) (k : Kind) :
    unpoked (translateLeaf s w va k).1 = unpoked s := by
  unfold translateLeaf
  split
  · rfl
  · dsimp only
    generalize s.mem.tlbs.filter _ = hits
    have hlook := unpoked_tlbLookup hits s
    split
    · exact (unpoked_checkLeaf _ _ _ _ _).trans hlook
    · split
      · exact hlook
      · next c _ =>
        have hwalk := (unpoked_walkRoot (tlbLookup hits s).1 w.part va c.root).trans hlook
        split
        · exact hwalk
        · next l _ =>
          have hcheck := (unpoked_checkLeaf (walkRoot (tlbLookup hits s).1 w.part va c.root).1 w.part k l va).trans hwalk
          split
          · next hc => rw [hc] at hcheck; exact hcheck
          · next hc => rw [hc] at hcheck; exact (unpoked_installTlb _ _ _ _ _ _).trans hcheck

theorem unpoked_translatePages (w : Who) (k : Kind) (ps : List Nat) (s : State) (acc : PageMap) :
    unpoked (translatePages w k ps s acc).1 = unpoked s := by
  induction ps generalizing s acc with
  | nil => rfl
  | cons p r ih => exact (ih _ _).trans (unpoked_translateLeaf s w _ k)

/-! ### Reads by address (R346, R348) -/

theorem unpoked_physRead (s : State) (pa n : Nat) : unpoked (physRead s pa n).1 = unpoked s := by
  unfold physRead
  dsimp only
  split
  · rfl
  · generalize List.range _ = l
    refine foldl_read_other (read := fun acc : State × List Byte × Bool => unpoked acc.1) (fun acc i _ => ?_) (s, [], false)
    exact unpoked_homeRead acc.1 (pa / 64 + i)

theorem unpoked_homeExpanded (s : State) (line : Nat) : unpoked (homeExpanded s line).1 = unpoked s := by
  unfold homeExpanded
  split
  · rfl
  · dsimp only
    have hline := unpoked_homeLine s line
    generalize homeLine s line = read at hline ⊢
    split <;> exact hline

theorem unpoked_mappedReadWith (m : PageMap) (ps : List (DWord × Nat × Nat)) (lines : List (Nat × List Byte)) (s : State)
    (acc : List Byte) : unpoked (mappedReadWith m ps lines s acc).1 = unpoked s := by
  induction ps generalizing lines s acc with
  | nil => rfl
  | cons p r ih =>
    simp only [mappedReadWith]
    split
    · rfl
    · next l _ =>
      split
      · split
        · exact ih _ _ _
        · have hline := unpoked_homeExpanded s (leafPa l p.1 / 256)
          split
          · next hx => rw [hx] at hline; exact hline
          · next hx => rw [hx] at hline; exact (ih _ _ _).trans hline
      · split
        · rfl
        · exact (ih _ _ _).trans (unpoked_physRead s _ _)

theorem unpoked_virtRead (s : State) (w : Who) (va : DWord) (n : Nat) : unpoked (virtRead s w va n).1 = unpoked s := by
  have hpages := unpoked_translatePages w .read (pagesOf va n) s []
  unfold virtRead
  dsimp only
  split
  · exact hpages
  · split <;> exact (unpoked_mappedReadWith _ _ _ _ _).trans hpages

/-! ### Snapshots of storage writes (R276) -/

theorem unpoked_takeSnap (s : State) (core : Nat) (e : Entry) : unpoked (takeSnap s core e).1 = unpoked s := by
  have hpush : unpoked (pushForEntry s core e.team) = unpoked s :=
    (unpoked_flushWindows _ _ _ _ _).trans (unpoked_pushDirty false s core)
  have hrest (w : Who) (base n : Nat) : unpoked (snapRest (pushForEntry s core e.team) w base n e.snap).1 = unpoked s := by
    unfold snapRest
    dsimp only
    split
    · exact hpush
    · split <;> exact (unpoked_virtRead _ _ _ _).trans hpush
  unfold takeSnap
  split
  · split
    · dsimp only
      split <;> exact hrest _ _ _
    · rfl
  · rfl

end Sys2Proof.Machine
end

section
/-! PROOFS. What waking the groups that wait for a slot leaves alone: ring queues, rings, and all of a group that does not wait. -/

namespace Sys2Proof.Machine

/-- What taking one snapshot leaves, and replacing a core's storage queue leaves, is left by taking all. -/
theorem takeSnaps_keeps {β : Type} {read : State → β} {core : Nat} (hsnap : ∀ s e, read (takeSnap s core e).1 = read s)
    (hsto : ∀ s l, read (setCore s core { getCore s core with sto := l }) = read s) (s : State) :
    read (takeSnaps s core) = read s :=
  foldl_read_other (fun s e _ => (hsto _ _).trans (hsnap s e)) s

theorem ring_wakeSlots (s : State) (core : Nat) : (getCore (wakeSlots s core) core).ring = (getCore s core).ring :=
  takeSnaps_keeps (read := fun t => (getCore t core).ring) (fun s e => by rw [(takeSnap_memOnly s core e).getCore])
    (fun s l => by rw [getCore_setCore]) s

theorem wakeSlots_rings (s : State) (core : Nat) : (wakeSlots s core).rings = s.rings :=
  takeSnaps_keeps (read := State.rings) (fun s e => by rw [(takeSnap_memOnly s core e).rest]) (fun _ _ => rfl) s

theorem unpoked_takeSnaps (s : State) (core : Nat) : unpoked (takeSnaps s core) = unpoked s :=
  takeSnaps_keeps (fun s e => unpoked_takeSnap s core e) (fun _ _ => rfl) s

theorem wakeSlot_pend (s : State) (core : Nat) (g : Group) : (wakeSlot s core g).pend = g.pend := by
  unfold wakeSlot
  split <;> rfl

theorem wakeSlot_of_free (s : State) (core : Nat) {g : Group} (hfree : g.wait = .none) : wakeSlot s core g = g :=
  if_neg (by simp [hfree])

/-- A group keeps its outstanding results, and one that does not wait everything but the mark of a watcher. -/
theorem getGroup_wakeSlots {s : State} (core : Nat) {k : Nat} {g : Group} (hg : getGroup s k = some g) :
    ∃ g', getGroup (wakeSlots s core) k = some g' ∧ g'.pend = g.pend ∧ (g.wait = .none → g' = { g with poked := g'.poked }) := by
  have hk : (getGroup (takeSnaps s core) k).map (fun g => { g with poked := false }) = some { g with poked := false } :=
    (congrFun (unpoked_takeSnaps s core) k).trans (congrArg (Option.map _) hg)
  obtain ⟨g1, hg1, heq⟩ := Option.map_eq_some_iff.mp hk
  have hsame : g1 = { g with poked := g1.poked } := congrArg (fun x : Group => { x with poked := g1.poked }) heq
  have hget : getGroup (wakeSlots s core) k = some (wakeSlot (takeSnaps s core) core g1) := by
    rw [getGroup, wakeSlots, tget_tmap]
    exact congrArg (Option.map _) hg1
  refine ⟨_, hget, ?pend, fun hfree => ?free⟩
  case pend => rw [wakeSlot_pend, hsame]
  case free =>
    have hfree1 : g1.wait = .none := by rw [hsame]; exact hfree
    rw [wakeSlot_of_free _ _ hfree1]
    exact hsame

end Sys2Proof.Machine
end

section
/-! PROOFS. Rings: what a ring instruction enqueues, how the first entry of a ring queue asks, and what it performs. -/

namespace Sys2Proof.Machine

/-! ### Issue (R446, R451–R453) -/

theorem finish_cycle (s : State) (gid : Nat) (g : Group) (beats len : Nat) : (finish s gid g beats len).cycle = s.cycle :=
  occupy_cycle s g beats

theorem writeTicket_onlyPend_owed (g : Group) (id : Nat) (h : Hdr) (now : Nat) (d : Dst) (v : Nat) :
    OnlyPend g (writeTicket g (.owed id) h now d v) := by
  unfold writeTicket
  split
  · exact writePlace_onlyPend _ _ _ _ _ _ _ _ (by simp)
  · exact writeLanes_onlyPend _ _ _ _ _ _ _ _ _ (by simp)

/-- The entry that a ring instruction appends to its core's ring queue (R446, R452). -/
def ringEntryOf (id : Nat) (x : RingOp) (op : Nat) (word : DWord) (gid : Nat) (o : Group) (now : Nat) : RingEntry :=
  ⟨id, op, o.team, gid, o.pc, word, x.ring.toNat, readPlace o (.s x.sb.toNat) 0 x.h.uni now % 2 ^ 32, x.n1.toNat + 1, none⟩

/-- An instruction that is a `ringOp` does what R446 and R451 to R453 say. -/
theorem ringRuns_of {mk : RingOp → Instr} {op : Nat} {word : RingOp → DWord}
    (hexec : ∀ x s, exec (mk x) s = ringOp s x op (word x)) : RingRuns mk op := by
  intro x s gid g hissue hdst
  have hrun := hexec x s
  rw [ringOp, issue_runs _ _ hissue] at hrun
  simp only [roleOf_setGroup, roleOf_openIssue, hdst, setGroup_cycle, Bool.not_true, Bool.false_eq_true, if_false] at hrun
  rw [hrun]
  refine ⟨fun hidle => ?idle, fun hacts hroom => ?acts⟩
  case idle => simp only [hidle, finish_issued]; rfl
  case acts =>
    obtain ⟨lane, hlane⟩ := Option.ne_none_iff_exists'.mp hacts
    refine ⟨fun hok => ?enqueues, fun hbad => ?raises⟩
    case enqueues =>
      intro s1 s2
      simp only [hlane, withSlot, getCore_setGroup, hroom, hok, Bool.not_true, Bool.false_eq_true, if_false]
      refine ⟨_, _, ringEntryOf s2.nextId x op (word x) gid (openIssue s g x.h) s.cycle, rfl, getGroup_finish _ _ _ _ _,
        writeTicket_onlyPend_owed _ _ _ _ _ _, ?ticket, ?queue, rfl, rfl, rfl, rfl, rfl, rfl⟩
      case ticket => rw [finish_cycle]; rfl
      case queue => rw [getCore_finish, getCore_setCore]; rfl
    case raises => simp only [hlane, withSlot, getCore_setGroup, hroom, hbad, Bool.not_false, Bool.false_eq_true, if_false, if_true]

/-! ### Asking (R421) -/

/-- An entry that asks at its ring's slice is numbered, once, in the order of arrival. -/
theorem askRing_numbers {s s1 : State} {core : Nat} {e e1 : RingEntry} (h : askRing s core e = (s1, e1)) :
    ∃ n, e1 = { e with asked := some n } ∧ (∀ m, e.asked = some m → n = m) ∧ (e.asked = none → n = s.nextId) := by
  unfold askRing at h
  split at h
  · next hasked =>
    obtain ⟨m, hm⟩ := Option.isSome_iff_exists.mp hasked
    cases h
    exact ⟨m, by rw [← hm], fun m' h' => Option.some.inj (hm.symm.trans h'), fun hnone => nomatch hm.symm.trans hnone⟩
  · next hasked =>
    cases h
    exact ⟨s.nextId, rfl, fun m hm => absurd (by rw [hm]; rfl) hasked, fun _ => rfl⟩

/-- Asking changes the queue of its core and the count of numbers alone. -/
theorem askRing_state {s s1 : State} {core : Nat} {e e1 : RingEntry} (h : askRing s core e = (s1, e1)) :
    s1 = { s with cores := s1.cores, nextId := s1.nextId } := by
  unfold askRing at h
  split at h <;> cases h <;> rfl

theorem ringAct_asked (r : Ring) (e : RingEntry) (n : Option Nat) : ringAct r { e with asked := n } = ringAct r e := rfl

/-! ### Paying a result (R452, R472) -/

/-- Paying touches groups alone. -/
theorem payGroup_state (s : State) (e : RingEntry) (v : Nat) : payGroup s e v = { s with groups := (payGroup s e v).groups } := by
  unfold payGroup
  split
  · dsimp only
    split <;> rfl
  · rfl

/-- A group that does not wait with a fault has the result. -/
theorem payGroup_pays {s : State} {e : RingEntry} {g : Group} (v : Nat) (hg : getGroup s e.gid = some g) :
    ∃ g', getGroup (payGroup s e v) e.gid = some g' ∧ ((∀ r, g.wait ≠ .trap r) → g'.pend = (payRing g e.id v).pend) := by
  simp only [payGroup, hg]
  split
  · next r hwait _ => exact ⟨_, getGroup_setGroup _ _ _, fun hfree => absurd hwait (hfree r)⟩
  · refine ⟨_, getGroup_setGroup _ _ _, fun _ => ?_⟩
    split <;> rfl

/-- A group that waits with its fault enters its handler with the last result that it awaits of a ring entry. -/
theorem payGroup_enters {s : State} {e : RingEntry} {g : Group} (v : Nat) {x : Raise} (hg : getGroup s e.gid = some g)
    (hwait : g.wait = .trap x) (hlast : ringOwes s e.gid g = false) :
    payGroup s e v = enterHandler s e.gid (payRing g e.id v) g.parkLen x (handlerOf s g) := by
  simp only [payGroup, hg, hwait, hlast]

/-! ### Performing (R421, R452, R453) -/

/-- The device as an entry that performs leaves its ring: the entry is off the queue, the ring has its new counters and marks, and an
operation that takes slots has acquired. -/
def ringTaken (s : State) (core : Nat) (rest : List RingEntry) (r r' : Ring) (e : RingEntry) : State :=
  let s := setCore s core { getCore s core with ring := rest }
  let s := { s with rings := s.rings.map fun x => if x.lead == r.lead && x.num == r.num then r' else x }
  if e.op % 2 = 0 then acquireAt s core e.team .dev else s

/-- An acquire at .dev touches the memory alone. -/
theorem acquireAt_dev (s : State) (core team : Nat) : ∃ m, acquireAt s core team .dev = { s with mem := m } := by
  have hbough : scopeLe .bough .dev = true := rfl
  have hdev : scopeLe .dev .dev = true := rfl
  simp only [acquireAt, hbough, hdev, if_true, floorAdvance]
  split <;> exact ⟨_, rfl⟩

theorem ringTaken_state (s : State) (core : Nat) (rest : List RingEntry) (r r' : Ring) (e : RingEntry) :
    ∃ m, ringTaken s core rest r r' e = { setCore s core { getCore s core with ring := rest } with
      rings := s.rings.map (fun x => if x.lead == r.lead && x.num == r.num then r' else x), mem := m } := by
  unfold ringTaken
  dsimp only
  split
  · exact acquireAt_dev _ core e.team
  · exact ⟨s.mem, rfl⟩

section
variable {s s1 : State} {core : Nat} {e e1 : RingEntry} {rest : List RingEntry} {r : Ring}
  (hring : (getCore s core).ring = e :: rest) (hallow : fencesAllow (getCore s core) .ring e.id = true)
  (hentry : entryRing s e = some r) (hask : askRing s core e = (s1, e1))
include hring hallow hentry hask

theorem ringEntryPerform_later (hearlier : earlierAsk s1 e1 r = true) : exec (.ringEntryPerform core) s = .next s1 := by
  have hrun : exec (.ringEntryPerform core) s = execRingEntryPerform core s := rfl
  simp only [hrun, execRingEntryPerform, hring, hallow, hentry, hask, hearlier, Bool.not_true, Bool.false_eq_true, if_false, if_true]

theorem ringEntryPerform_waits (hfirst : earlierAsk s1 e1 r = false) (hact : ringAct r e1 = .wait) :
    exec (.ringEntryPerform core) s = .next s1 := by
  have hrun : exec (.ringEntryPerform core) s = execRingEntryPerform core s := rfl
  simp only [hrun, execRingEntryPerform, hring, hallow, hentry, hask, hfirst, hact, Bool.not_true, Bool.false_eq_true, if_false]

/-- A slot that is not held ends the entry's context with RING_STATE. -/
theorem ringEntryPerform_ends (hfirst : earlierAsk s1 e1 r = false) (hact : ringAct r e1 = .bad) :
    ∃ u rec, exec (.ringEntryPerform core) s = .next (endContext u rec) ∧ rec.cls = 13 ∧ (getCore u core).ring = rest := by
  have hrun : exec (.ringEntryPerform core) s = execRingEntryPerform core s := rfl
  simp only [execRingEntryPerform, hring, hallow, hentry, hask, hfirst, hact, Bool.not_true, Bool.false_eq_true, if_false] at hrun
  exact ⟨_, _, hrun, rfl, by rw [getCore_setCore]⟩

theorem ringEntryPerform_performs (hfirst : earlierAsk s1 e1 r = false) {r' : Ring} {v : Nat} (hact : ringAct r e1 = .done r' v) :
    exec (.ringEntryPerform core) s = .next (wakeSlots (payGroup (ringTaken s1 core rest r r' e1) e1 v) core) := by
  have hrun : exec (.ringEntryPerform core) s = execRingEntryPerform core s := rfl
  simp only [hrun, execRingEntryPerform, hring, hallow, hentry, hask, hfirst, hact, Bool.not_true, Bool.false_eq_true, if_false]
  rfl

end

theorem ring_wakeSlots_payGroup (s : State) (core : Nat) (e : RingEntry) (v : Nat) :
    (getCore (wakeSlots (payGroup s e v) core) core).ring = (getCore s core).ring := by
  rw [ring_wakeSlots, payGroup_state]; rfl

theorem wakeSlots_payGroup_rings (s : State) (core : Nat) (e : RingEntry) (v : Nat) :
    (wakeSlots (payGroup s e v) core).rings = s.rings := by
  rw [wakeSlots_rings, payGroup_state]

/-- The entry's group has its result, or enters its handler with it, also once the groups that wait for a slot are woken. -/
theorem getGroup_wakeSlots_payGroup {s : State} {core : Nat} {e : RingEntry} {g : Group} (v : Nat)
    (hg : getGroup s e.gid = some g) :
    ∃ g', getGroup (wakeSlots (payGroup s e v) core) e.gid = some g' ∧
      ((∀ r, g.wait ≠ .trap r) → g'.pend = (payRing g e.id v).pend) ∧
      (∀ x, g.wait = .trap x → ringOwes s e.gid g = false →
        g'.pend = (commitAll (payRing g e.id v) s.cycle).pend ∧ g'.v = (commitAll (payRing g e.id v) s.cycle).v ∧
        g'.s = (commitAll (payRing g e.id v) s.cycle).s ∧ g'.pc = handlerOf s g ∧ g'.trappc = g.pc ∧ g'.wait = .none) := by
  obtain ⟨gp, hgp, hpays⟩ := payGroup_pays v hg
  obtain ⟨g', hg', hpend, hkept⟩ := getGroup_wakeSlots core hgp
  refine ⟨g', hg', fun hfree => hpend.trans (hpays hfree), fun x hwait hlast => ?enters⟩
  case enters =>
    rw [payGroup_enters v hg hwait hlast, enterHandler, getGroup_setGroup] at hgp
    obtain rfl := Option.some.inj hgp
    rw [hkept rfl]
    exact ⟨rfl, rfl, rfl, rfl, rfl, rfl⟩

/-- Settles O36: the four instructions by what they share, an entry by whether another asked earlier and what its operation gives. -/
theorem rings : Obligations.Rings := by
  unfold Obligations.Rings
  refine ⟨ringRuns_of fun _ _ => rfl, ringRuns_of fun _ _ => rfl, ringRuns_of fun _ _ => rfl, ringRuns_of fun _ _ => rfl, ?performs⟩
  case performs =>
    intro s core e rest r hring hallow hentry s1 e1 hask
    obtain ⟨n, rfl, hagain, hnew⟩ := askRing_numbers hask
    have hstate := askRing_state hask
    rw [← ringAct_asked r e (some n)]
    refine ⟨⟨n, rfl, hagain, hnew⟩, ringEntryPerform_later hring hallow hentry hask, fun hfirst => ⟨?waits, ?done, ?bad⟩⟩
    case waits => exact ringEntryPerform_waits hring hallow hentry hask hfirst
    case done =>
      intro r' v hact
      have hrun := ringEntryPerform_performs hring hallow hentry hask hfirst hact
      obtain ⟨m, hm⟩ := ringTaken_state s1 core rest r r' { e with asked := some n }
      generalize ringTaken s1 core rest r r' { e with asked := some n } = u at hrun hm
      have hcycle : u.cycle = s.cycle := by rw [hm, hstate]; rfl
      have hhandler (g : Group) : handlerOf u g = handlerOf s g := by rw [hm, hstate]; rfl
      have hgroup : getGroup u e.gid = getGroup s e.gid := by rw [hm, hstate]; rfl
      have hqueue : (getCore u core).ring = rest := by rw [hm]; exact congrArg Core.ring (getCore_setCore _ _ _)
      refine ⟨_, hrun, (ring_wakeSlots_payGroup _ _ _ _).trans hqueue, ?rings, fun g hg => ?group⟩
      case rings => rw [wakeSlots_payGroup_rings, hm, hstate]
      case group =>
        obtain ⟨g', hg', hpays, henters⟩ := getGroup_wakeSlots_payGroup v (hgroup.trans hg)
        rw [hcycle, hhandler] at henters
        refine ⟨g', hg', hpays, fun x hwait hcore hlast => henters x hwait ?last⟩
        case last => simpa [ringOwes, hcore, hqueue] using hlast
    case bad =>
      intro hact
      obtain ⟨u, rec, hrun, hcls, hrest⟩ := ringEntryPerform_ends hring hallow hentry hask hfirst hact
      exact ⟨_, u, rec, hrun, rfl, hcls, hrest⟩

end Sys2Proof.Machine
end

section
/-! PROOFS. What an operation over memory leaves of the list of groups: everything that the mark of a watcher does not show in. Where
`unpoked` speaks of the group that a number names, this speaks of the whole list. -/

namespace Sys2Proof.Machine

/-- Poking the groups that watch a sector does not show in what `f` reads of the groups (R325). -/
def Markless {β : Type} (f : Tab Group → β) : Prop := ∀ l σ, f (tmap l fun _ g => pokeGroup σ g) = f l

section
variable {β : Type} {f : Tab Group → β}

theorem groups_ite {s a b : State} {p : Prop} [Decidable p] (ha : f a.groups = f s.groups) (hb : f b.groups = f s.groups) :
    f (if p then a else b).groups = f s.groups := by split <;> assumption

theorem groups_foldl {α : Type} {op : State → α → State} (hop : ∀ s x, f (op s x).groups = f s.groups) (l : List α) (s : State) :
    f (l.foldl op s).groups = f s.groups :=
  foldl_read_other (read := fun s => f s.groups) (fun s x _ => hop s x) s

theorem groups_rekeyFrame (s : State) (frame : Nat) (k : List Byte) : f (rekeyFrame s frame k).groups = f s.groups := groups_ite rfl rfl

theorem groups_noteOld (s : State) (σ : Nat) : f (noteOld s σ).groups = f s.groups := groups_ite rfl rfl

theorem groups_noteLost (s : State) (l : Lost) : f (noteLost s l).groups = f s.groups := rfl

theorem groups_underKey {op : State → State} (hop : ∀ s, f (op s).groups = f s.groups) (s : State) (σ : Nat) (k : List Byte) :
    f (underKey s σ k op).groups = f s.groups :=
  (groups_rekeyFrame _ _ _).trans ((hop _).trans (groups_rekeyFrame s _ _))

theorem groups_putCopy (s : State) (c : Copy) : f (putCopy s c).groups = f s.groups :=
  groups_ite (a := noteOld s c.sector) (b := s) (groups_noteOld s c.sector) rfl

theorem groups_installTlb (s : State) (core part ctx : Nat) (va : DWord) (l : Leaf) :
    f (installTlb s core part ctx va l).groups = f s.groups := groups_ite rfl rfl

theorem groups_checkLeaf (s : State) (part : Nat) (k : Kind) (l : Leaf) (va : DWord) :
    f (checkLeaf s part k l va).1.groups = f s.groups := by
  unfold checkLeaf
  split
  · exact groups_rekeyFrame s _ _
  · rfl

theorem groups_tlbLookup (l : List TlbEntry) (s : State) : f (tlbLookup l s).1.groups = f s.groups := by
  induction l generalizing s with
  | nil => rfl
  | cons e r ih =>
    simp only [tlbLookup]
    split
    · rfl
    · exact ih (drawKeep s).1

/-! ### Homes, copies and the lines of the codec -/

namespace Markless
variable (hf : Markless f)
include hf

theorem rawHome_keeps (s : State) (σ : Nat) (bm : BitVec 64) (d : BitVec 512) (tag : BitVec 16) (codec : Bool) :
    f (rawHome s σ bm d tag codec).groups = f s.groups :=
  (hf _ σ).trans (groups_noteOld s σ)

theorem backWhole_keeps (s : State) (c : Copy) : f (backWhole s c).groups = f s.groups :=
  groups_underKey (fun s => hf.rawHome_keeps (setPoison s c.sector false) _ _ _ _ _) s _ _

theorem recallOwner_keeps (s : State) (σ : Nat) : f (recallOwner s σ).groups = f s.groups := by
  unfold recallOwner
  split
  · rfl
  · exact groups_ite rfl (hf.backWhole_keeps (dropCopy s _ σ) _)

theorem homeWrite_keeps (s : State) (crown σ : Nat) (bm : BitVec 64) (d : BitVec 512) (tag : BitVec 16) (codec : Bool)
    (keep : Option (Nat × Nat)) : f (homeWrite s crown σ bm d tag codec keep).groups = f s.groups := by
  have hpass (t : State) : f (rdcPass t crown σ).groups = f t.groups := groups_ite rfl rfl
  exact groups_ite rfl (groups_ite rfl ((hf.rawHome_keeps _ _ _ _ _ _).trans ((hpass _).trans (hf.recallOwner_keeps s σ))))

theorem pushCopy_keeps (s : State) (c : Copy) : f (pushCopy s c).groups = f s.groups := by
  unfold pushCopy
  refine groups_ite rfl ?_
  split
  · exact groups_underKey (fun s => (hf.homeWrite_keeps _ _ _ _ _ _ _ _).trans (groups_putCopy s _)) s c.sector c.key
  · exact (hf.backWhole_keeps _ _).trans (groups_putCopy s _)

theorem evict_keeps (s : State) (agent σ : Nat) : f (evict s agent σ).groups = f s.groups := by
  unfold evict
  split
  · exact hf.pushCopy_keeps s _
  · rfl

theorem settle_keeps (s : State) (σ : Nat) : f (settle s σ).groups = f s.groups := by
  unfold settle
  exact groups_foldl (fun s (c : Copy) => groups_ite (a := (drawKeep s).1) rfl (hf.evict_keeps (drawKeep s).1 c.agent σ)) _ s

theorem homeRead_keeps (s : State) (σ : Nat) : f (homeRead s σ).1.groups = f s.groups :=
  (hf.recallOwner_keeps _ σ).trans (hf.settle_keeps s σ)

theorem homeLine_keeps (s : State) (line : Nat) : f (homeLine s line).1.groups = f s.groups := by
  unfold homeLine
  generalize lineSectors line = sectors
  exact (groups_foldl hf.recallOwner_keeps sectors _).trans (groups_foldl hf.settle_keeps sectors s)

theorem putLine_keeps (s : State) (crown line : Nat) (b : List Byte) (tag : BitVec 16) (codec : Bool) :
    f (putLine s crown line b tag codec).groups = f s.groups := by
  unfold putLine
  exact groups_foldl (fun s _ => hf.homeWrite_keeps s _ _ _ _ _ _ _) _ s

theorem homeExpanded_keeps (s : State) (line : Nat) : f (homeExpanded s line).1.groups = f s.groups := by
  unfold homeExpanded
  split
  · rfl
  · have hline := hf.homeLine_keeps s line
    generalize homeLine s line = read at hline ⊢
    dsimp only
    split <;> exact hline

/-! ### Windows -/

theorem expandedWrite_keeps (s : State) (core team σ : Nat) (words : BitVec 16) (d : BitVec 512) (tag : BitVec 16) :
    f (expandedWrite s core team σ words d tag).groups = f s.groups := by
  unfold expandedWrite
  split
  · rfl
  · generalize lineSectors (σ / 4) = sectors
    have hline : f (homeLine (sectors.foldl (fun s x => evict s core x) s) (σ / 4)).1.groups = f s.groups :=
      (hf.homeLine_keeps _ _).trans (groups_foldl (fun s x => hf.evict_keeps s core x) sectors s)
    dsimp only
    split
    · exact (hf.putLine_keeps _ _ _ _ _ _).trans hline
    · exact (groups_noteLost _ _).trans hline

theorem windowBackWords_keeps (spare : Bool) (s : State) (core index i : Nat) (wm : BitVec 16) :
    f (windowBackWords spare s core index i wm).groups = f s.groups := by
  unfold windowBackWords
  split
  · rfl
  · split
    · refine groups_ite rfl (groups_ite rfl ((groups_underKey (fun s => ?_) (metaPass (evict _ core _) core _) _ _).trans
        (hf.evict_keeps _ _ _)))
      exact groups_ite (hf.expandedWrite_keeps s _ _ _ _ _ _) (hf.homeWrite_keeps s _ _ _ _ _ _ _)
    · rfl

theorem windowFlush_keeps (spare : Bool) (s : State) (core index : Nat) : f (windowFlush spare s core index).groups = f s.groups := by
  unfold windowFlush
  split
  · rfl
  · exact groups_foldl (fun s i => hf.windowBackWords_keeps spare s core index i _) _ s

theorem pushForEntry_keeps (s : State) (core team : Nat) : f (pushForEntry s core team).groups = f s.groups := by
  have hdirty : f (pushDirty false s core).groups = f s.groups :=
    groups_foldl (fun s c => groups_ite (groups_putCopy s _) (hf.pushCopy_keeps s c)) _ s
  exact (groups_foldl (fun s (w : Window) => hf.windowFlush_keeps false s core w.index) _ _).trans hdirty

/-! ### Translation and reads by address -/

theorem walk_keeps (part : Nat) (va : DWord) (lvl : Nat) (s : State) (t : Nat) : f (walk part va lvl s t).1.groups = f s.groups := by
  induction lvl generalizing s t with
  | zero => rfl
  | succ lvl ih =>
    have hread (pa : Nat) : f (homeRead64 (rekeyFrame s (pa / 65536) (keyLoOf s part)) pa).1.groups = f s.groups :=
      (hf.homeRead_keeps _ _).trans (groups_rekeyFrame s _ _)
    simp only [walk]
    split
    · rfl
    · split
      · exact hread _
      · split
        · exact hread _
        · split
          · exact hread _
          · split
            · exact hread _
            · exact (ih _ _).trans (hread _)

theorem walkRoot_keeps (s : State) (part : Nat) (va : DWord) (root : Nat) : f (walkRoot s part va root).1.groups = f s.groups := by
  unfold walkRoot
  split
  · exact hf.walk_keeps part va 4 s root
  · rfl

theorem translateLeaf_keeps (s : State) (w : Who) (va : DWord) (k : Kind) : f (translateLeaf s w va k).1.groups = f s.groups := by
  unfold translateLeaf
  split
  · rfl
  · dsimp only
    generalize s.mem.tlbs.filter _ = hits
    have hlook : f (tlbLookup hits s).1.groups = f s.groups := groups_tlbLookup hits s
    split
    · exact (groups_checkLeaf _ _ _ _ _).trans hlook
    · split
      · exact hlook
      · next c _ =>
        have hwalk := (hf.walkRoot_keeps (tlbLookup hits s).1 w.part va c.root).trans hlook
        split
        · exact hwalk
        · next l _ =>
          have hcheck := (groups_checkLeaf (f := f) (walkRoot (tlbLookup hits s).1 w.part va c.root).1 w.part k l va).trans hwalk
          split
          · next hc => rw [hc] at hcheck; exact hcheck
          · next hc => rw [hc] at hcheck; exact (groups_installTlb _ _ _ _ _ _).trans hcheck

theorem translatePages_keeps (w : Who) (k : Kind) (ps : List Nat) (s : State) (acc : PageMap) :
    f (translatePages w k ps s acc).1.groups = f s.groups := by
  induction ps generalizing s acc with
  | nil => rfl
  | cons p r ih => exact (ih _ _).trans (hf.translateLeaf_keeps s w _ k)

theorem physRead_keeps (s : State) (pa n : Nat) : f (physRead s pa n).1.groups = f s.groups := by
  unfold physRead
  dsimp only
  split
  · rfl
  · exact foldl_read_other (read := fun acc : State × List Byte × Bool => f acc.1.groups)
      (fun acc i _ => hf.homeRead_keeps acc.1 (pa / 64 + i)) (s, [], false)

theorem mappedReadWith_keeps (m : PageMap) (ps : List (DWord × Nat × Nat)) (lines : List (Nat × List Byte)) (s : State)
    (acc : List Byte) : f (mappedReadWith m ps lines s acc).1.groups = f s.groups := by
  induction ps generalizing lines s acc with
  | nil => rfl
  | cons p r ih =>
    simp only [mappedReadWith]
    split
    · rfl
    · next l _ =>
      split
      · split
        · exact ih _ _ _
        · have hline := hf.homeExpanded_keeps s (leafPa l p.1 / 256)
          split
          · next hx => rw [hx] at hline; exact hline
          · next hx => rw [hx] at hline; exact (ih _ _ _).trans hline
      · split
        · rfl
        · exact (ih _ _ _).trans (hf.physRead_keeps s _ _)

theorem virtRead_keeps (s : State) (w : Who) (va : DWord) (n : Nat) : f (virtRead s w va n).1.groups = f s.groups := by
  have hpages := hf.translatePages_keeps w .read (pagesOf va n) s []
  unfold virtRead
  dsimp only
  split
  · exact hpages
  · split <;> exact (hf.mappedReadWith_keeps _ _ _ _ _).trans hpages

/-! ### Snapshots of storage writes (R276) -/

theorem takeSnap_keeps (s : State) (core : Nat) (e : Entry) : f (takeSnap s core e).1.groups = f s.groups := by
  have hpush := hf.pushForEntry_keeps s core e.team
  have hrest (w : Who) (base n : Nat) : f (snapRest (pushForEntry s core e.team) w base n e.snap).1.groups = f s.groups := by
    unfold snapRest
    dsimp only
    split
    · exact hpush
    · split <;> exact (hf.virtRead_keeps _ _ _ _).trans hpush
  unfold takeSnap
  split
  · split
    · dsimp only
      split <;> exact hrest _ _ _
    · rfl
  · rfl

theorem takeSnaps_keeps (s : State) (core : Nat) : f (takeSnaps s core).groups = f s.groups :=
  Machine.takeSnaps_keeps (read := fun s => f s.groups) (fun s e => hf.takeSnap_keeps s core e) (fun _ _ => rfl) s

end Markless
end

end Sys2Proof.Machine
end

section
/-! PROOFS. Stopping, saving and resuming a team: the point where it is asked, bins that freeze, a hard stop, what a save takes off its
core, and what a slot's header decides. -/

namespace Sys2Proof.Machine

/-! ### Stopping (R475 to R478) -/

theorem preemptRequest_asks {s : State} {tid : Nat} {t : Team} (ht : getTeam s tid = some t) (hruns : t.st = .running)
    (hmay : mayStop s t = true) :
    exec (.preemptRequest tid) s =
      .next (freezeBins ((stopsNow (setTeam s tid { t with st := .stopping s.cycle }) tid).foldl
        (fun s e => stopGroup s e.1 e.2 (pointMask e.2)) (setTeam s tid { t with st := .stopping s.cycle })) tid) := by
  have hrun : exec (.preemptRequest tid) s = execPreemptRequest tid s := rfl
  simp only [hrun, execPreemptRequest, ht, hruns, hmay, and_self, if_true]

/-- The bins of a team whose groups have all stopped keep the time they had left. -/
theorem freezeBins_freezes {s : State} {tid : Nat} {t : Team} {since : Nat} (ht : getTeam s tid = some t) (hasked : t.st = .stopping since)
    (hstopped : ∀ e ∈ s.groups, e.2.team = tid → ∃ m, e.2.wait = .stopped m) {n : Nat} {b : Bin}
    (hb : tget (getCore s t.core).bins n = some b) (hteam : b.team = tid) :
    tget (getCore (freezeBins s tid) t.core).bins n = some { b with left := some (b.remaining s.cycle) } := by
  simp only [freezeBins, ht]
  split
  · simp [tget_tmap, hb, hteam]
  · next hnot =>
    refine absurd (List.all_eq_true.mpr fun e he => ?_) (hnot since hasked)
    by_cases hmine : e.2.team = tid
    · obtain ⟨m, hm⟩ := hstopped e he hmine
      simp [hm]
    · simp [hmine]

theorem getGroup_freezeBins (s : State) (tid gid : Nat) : getGroup (freezeBins s tid) gid = getGroup s gid := by
  unfold freezeBins
  split
  · rfl
  · dsimp only
    split <;> rfl

theorem hardPreempt_stops {s : State} {gid : Nat} {g : Group} (hg : getGroup s gid = some g) (hstops : hardStops s g = true) :
    ∃ u g', exec (.hardPreempt gid) s = .next u ∧ getGroup u gid = some g' ∧ g'.wait = .stopped none ∧ g'.pc = g.pc := by
  have hrun : exec (.hardPreempt gid) s = execHardPreempt gid s := rfl
  simp only [hrun, execHardPreempt, hg, hstops, if_true]
  exact ⟨_, _, rfl, (getGroup_freezeBins _ _ _).trans (getGroup_setGroup _ _ _), rfl, (commitAll_onlyRegs g _).pc⟩

/-! ### Saving (R478) -/

/-- The teams of the groups, as they stand in the list, show no poke. -/
theorem markless_teams : Markless fun l => l.map fun e => e.2.team := by
  intro l σ
  have hteam (g : Group) : (pokeGroup σ g).team = g.team := by
    have hsame := congrArg Group.team (pokeGroup_unmarked σ g)
    exact hsame
  simp only [tmap, List.map_map, Function.comp_def, hteam]

theorem wakeSlots_teams (s : State) (core : Nat) :
    (wakeSlots s core).groups.map (fun e => e.2.team) = s.groups.map fun e => e.2.team := by
  have hteam (t : State) (g : Group) : (wakeSlot t core g).team = g.team := by
    unfold wakeSlot
    split <;> rfl
  refine Eq.trans ?_ (markless_teams.takeSnaps_keeps s core)
  simp only [wakeSlots, tmap, List.map_map, Function.comp_def, hteam]

/-- Waking the groups that wait for a slot brings no group of a team that has none. -/
theorem wakeSlots_without {s : State} {tid : Nat} (core : Nat) (hnone : ∀ e ∈ s.groups, e.2.team ≠ tid) :
    ∀ e ∈ (wakeSlots s core).groups, e.2.team ≠ tid := by
  intro e he
  have hteam : e.2.team ∈ s.groups.map fun e => e.2.team := wakeSlots_teams s core ▸ List.mem_map_of_mem he
  obtain ⟨e0, he0, heq⟩ := List.mem_map.mp hteam
  exact heq ▸ hnone e0 he0

theorem teamSave_saves {s : State} {tid : Nat} {t : Team} {g : Grid} (ht : getTeam s tid = some t) (hg : tget s.grids t.grid = some g)
    (hready : saveReady s tid t = true) :
    ∃ u t', exec (.teamSave tid) s = .next u ∧ getTeam u tid = some t' ∧ t'.st = .saved ∧ t'.slot = t.slot ∧ t'.index = t.index ∧
      ∀ e ∈ u.groups, e.2.team ≠ tid := by
  have hrun : exec (.teamSave tid) s = execTeamSave tid s := rfl
  simp only [hrun, execTeamSave, ht, hg, hready, Bool.not_true, Bool.false_eq_true, if_false]
  generalize releaseAt _ _ _ _ = released
  refine ⟨_, _, rfl, getTeam_setTeam _ _ _, rfl, rfl, rfl, ?_⟩
  rw [setTeam_groups]
  refine wakeSlots_without t.core fun e he => ?_
  simpa using (List.mem_filter.mp he).2

/-! ### Resuming (R479) -/

section
variable {s : State} {tid core : Nat} {t : Team} {g : Grid} {s1 : State} {h : List Byte} {bad : Bool}
variable (ht : getTeam s tid = some t) (hg : tget s.grids t.grid = some g) (hfits : resumeFits s t g core = true)
variable (hread : slotRead s g.part (slotBase s g.part t.slot).1 (slotBase s g.part t.slot).2 0 256 = (s1, h, bad))
include ht hg hfits hread

theorem teamResume_loads (hok : (!bad && slotHeaderOk h (slotBase s g.part t.slot).2) = true) :
    exec (.teamResume tid core) s = .next (loadTeam { s1 with turns := tset s1.turns g.queue s1.nextId } tid core t g
      (slotBase s g.part t.slot).1 (slotBase s g.part t.slot).2 h) := by
  have hrun : exec (.teamResume tid core) s = execTeamResume tid core s := rfl
  have hgood : (bad || !slotHeaderOk h (slotBase s g.part t.slot).2) = false := by simpa using hok
  simp only [hrun, execTeamResume, ht, hg, hfits, hread, hgood, Bool.not_true, Bool.false_eq_true, if_false]

theorem teamResume_ends (hbroken : (!bad && slotHeaderOk h (slotBase s g.part t.slot).2) = false) :
    ∃ r, exec (.teamResume tid core) s = .next (endContext s1 r) ∧ r.cls = 15 ∧ r.part = g.part ∧ r.ctx = g.ctx := by
  have hrun : exec (.teamResume tid core) s = execTeamResume tid core s := rfl
  have hlost : (bad || !slotHeaderOk h (slotBase s g.part t.slot).2) = true := by
    rw [← Bool.not_not bad, ← Bool.not_and, hbroken]; rfl
  simp only [hrun, execTeamResume, ht, hg, hfits, hread, hlost, Bool.not_true, Bool.false_eq_true, if_false, if_true]
  exact ⟨_, rfl, rfl, rfl, rfl⟩

end

/-- Settles O45: the request and the hard stop by the groups that they stop, the save by what waking leaves of the groups, the resume by
the slot's header. -/
theorem stoppingAndSaving : Obligations.StoppingAndSaving := by
  unfold Obligations.StoppingAndSaving
  exact ⟨fun s tid t ht hruns hmay => ⟨_, preemptRequest_asks ht hruns hmay, rfl⟩,
    fun s tid t since ht hasked hstopped n b => freezeBins_freezes ht hasked hstopped,
    fun s gid g => hardPreempt_stops,
    fun s tid t g => teamSave_saves,
    fun s tid core t g s1 h bad ht hg hfits hread => ⟨teamResume_loads ht hg hfits hread, teamResume_ends ht hg hfits hread⟩⟩

end Sys2Proof.Machine
end

section
/-! PROOFS. Seeds: when a partition freezes, what its image leaves, which checks a restore passes, and what moves a lineage. -/

namespace Sys2Proof.Machine

/-! ### Lineages and partitions (R497) -/

/-- What is written of a lineage is found. -/
theorem findLineage_putLineage (s : State) (l : Lineage) : findLineage (putLineage s l) l.id = some l := by
  cases hold : findLineage s l.id with
  | none =>
    have hnone : s.lineages.find? (fun x => x.id == l.id) = none := hold
    simp [findLineage, putLineage, hnone]
  | some old =>
    have hsome : s.lineages.find? (fun x => x.id == l.id) = some old := hold
    have hid : ((fun x => x.id == l.id) ∘ fun x : Lineage => if x.id == l.id then l else x) = fun x => x.id == l.id := by
      funext x
      by_cases hx : x.id = l.id <;> simp [hx]
    have holdId : (old.id == l.id) = true := by simpa using List.find?_some hsome
    simp only [findLineage, putLineage, hsome, Option.isSome_some, if_true, List.find?_map, hid, Option.map_some, holdId]

/-- A partition that thaws differs in nothing else. -/
theorem thaw_thaws {s : State} {part : Nat} {p : Partition} (hp : tget s.parts part = some p) :
    thaw s part = { s with parts := tset s.parts part { p with frozen := false } } := by
  simp only [thaw, hp]

/-! ### Making (R494 to R497) -/

theorem seedMake_freezes {s : State} {part : Nat} {lineage : BitVec 128} {buf : Option Nat} {endPart : Bool} {p : Partition}
    (hp : tget s.parts part = some p) (hlineage : lineageRefusal s part lineage = none) (hbuf : bufferOk s part p lineage buf = true)
    {src : ReqFrom} {tag : BitVec 16} (hhead : headRequest s = some (src, tag, true, .seedMake part lineage buf endPart))
    (hadmit : admitRequest src true (.seedMake part lineage buf endPart) = 0) :
    exec .seedMake s = .next { popArrival s with
      parts := tset s.parts part { p with frozen := true }, seed := some ⟨part, lineage, buf, endPart, tag⟩ } := by
  have hrun : exec .seedMake s = execSeedMake s := rfl
  simp only [hrun, execSeedMake, hhead, hadmit, hp, hlineage, hbuf, Bool.not_true, Bool.false_eq_true, if_false]

/-- CLEAN and INVAL over a partition's granules write back and drop copies, and nothing else. -/
theorem settlePartition_memOnly (s : State) (g : BitVec 64) : MemOnly s (settlePartition s g) :=
  (MemOnly.foldl (fun s (x : Nat × Nat) => evict_memOnly s x.1 x.2) _ s).setMem _

theorem physWrite_memOnly (s : State) (crown pa : Nat) (b : List Byte) (tag : BitVec 16) : MemOnly s (physWrite s crown pa b tag) :=
  .ite (.refl s) (.foldl (fun s _ => (homeWrite_memOnly s crown _ _ _ tag false none).setMem _) _ s)

theorem MemOnly.parts {s t : State} (h : MemOnly s t) : t.parts = s.parts := by rw [h.rest]

theorem MemOnly.replies {s t : State} (h : MemOnly s t) : t.replies = s.replies := by rw [h.rest]

theorem MemOnly.lineages {s t : State} (h : MemOnly s t) : t.lineages = s.lineages := by rw [h.rest]

section
variable {s : State} {j : SeedJob} {p : Partition}
variable (hjob : s.seed = some j) (hp : tget s.parts j.part = some p) (hready : seedReady s j = true)
include hjob hp hready

/-- An image that no longer fits its buffer is refused, which is the model's reading (log 36). -/
theorem seedImageWrite_refuses (hbuf : bufferOk (settlePartition s p.body.granules) j.part p j.lineage j.buf = false) :
    ∃ u, exec .seedImageWrite s = .next u ∧ u.seed = none ∧ u.replies = s.replies ++ [.response j.tag 3 []] ∧
      u.lineages = s.lineages ∧ tget u.parts j.part = some { p with frozen := false } := by
  have hrun : exec .seedImageWrite s = execSeedImageWrite s := rfl
  have hsettled := settlePartition_memOnly s p.body.granules
  simp only [hrun, execSeedImageWrite, hjob, hp, hready, hbuf, Bool.not_true, Bool.false_eq_true, if_false, Bool.not_false, if_true]
  generalize settlePartition s p.body.granules = v at hsettled
  have hpart : tget v.parts j.part = some p := hsettled.parts ▸ hp
  exact ⟨_, congrArg Host.Outcome.next (thaw_thaws (by exact hpart)), rfl, congrArg (· ++ _) hsettled.replies,
    hsettled.lineages, tget_tset_same _ _ _⟩

/-- An image that is written is answered with, its lineage advances, and then the partition ends or thaws. -/
theorem seedImageWrite_writes (hbuf : bufferOk (settlePartition s p.body.granules) j.part p j.lineage j.buf = true) :
    ∃ u data, exec .seedImageWrite s = .next (if j.endPart then endPartition u j.part 32 else thaw u j.part) ∧ u.seed = none ∧
      u.parts = s.parts ∧ u.replies = s.replies ++ [.response j.tag 0 data] ∧
      findLineage u j.lineage =
        some ⟨j.lineage, nextCounter s j.lineage, if j.endPart then .idle else .bound j.part, p.body.meas⟩ := by
  have hrun : exec .seedImageWrite s = execSeedImageWrite s := rfl
  have hsettled := settlePartition_memOnly s p.body.granules
  simp only [hrun, execSeedImageWrite, hjob, hp, hready, hbuf, Bool.not_true, Bool.false_eq_true, if_false]
  generalize settlePartition s p.body.granules = v at hsettled
  have hcounter : nextCounter v j.lineage = nextCounter s j.lineage := by
    simp only [nextCounter, findLineage, hsettled.lineages]
  rw [hcounter]
  generalize seedImage v j.part p j.lineage (nextCounter s j.lineage) = img
  cases j.buf with
  | none => exact ⟨_, _, rfl, rfl, hsettled.parts, congrArg (· ++ _) hsettled.replies, findLineage_putLineage _ _⟩
  | some a =>
    have hwritten := physWrite_memOnly { v with seed := none, fresh := v.fresh + 1 + p.keys.length } (a / 2 ^ 38) a img 0
    refine ⟨_, _, rfl, ?_, hwritten.parts.trans hsettled.parts, congrArg (· ++ _) (hwritten.replies.trans hsettled.replies),
      findLineage_putLineage _ _⟩
    exact congrArg State.seed hwritten.rest

end

/-! ### Restoring (R498, R500) -/

section
variable {s : State} {part : Nat} {img stm session : List Byte} {p : Partition}
variable (hp : tget s.parts part = some p) (hidle : partInUse s part = false)
include hp hidle

theorem seedRestore_refuses {st : Nat} (hchecks : restoreChecks s p img stm session = .error st) :
    Answers .seedRestore s (.seedRestore part img stm session) st [] s := by
  refine fun src tag hhead hadmit => ⟨rfl, ?_⟩
  show execSeedRestore s = _
  simp only [execSeedRestore, hhead, hadmit, hp, hidle, hchecks, Bool.false_eq_true, if_false]

variable {k : List Byte} (hchecks : restoreChecks s p img stm session = .ok k)
include hchecks

theorem seedRestore_restores {plain : List Byte}
    (hopen : gcmOpen k (((img.take 256).drop 0xE8).take 12) (img.take 256) (img.drop 6144) ((img.drop 0x100).take 16) = some plain) :
    Serves .seedRestore s (.seedRestore part img stm session) [] (putLineage (restoreInto s part p k plain)
      ⟨BitVec.ofNat 128 (field (img.take 256) 0x10 16), field (img.take 256) 0x20 8, .bound part, p.body.meas⟩) := by
  refine fun src tag hhead hadmit => ⟨rfl, ?_⟩
  show execSeedRestore s = _
  simp only [execSeedRestore, hhead, hadmit, hp, hidle, hchecks, hopen, Bool.false_eq_true, if_false]

theorem seedRestore_zeroes
    (hopen : gcmOpen k (((img.take 256).drop 0xE8).take 12) (img.take 256) (img.drop 6144) ((img.drop 0x100).take 16) = none) :
    Answers .seedRestore s (.seedRestore part img stm session) 0x106 []
      { s with mem := zeroGranules s.mem part fun g => decide (g < 64) && p.body.granules.getLsbD g } := by
  refine fun src tag hhead hadmit => ⟨rfl, ?_⟩
  show execSeedRestore s = _
  simp only [execSeedRestore, hhead, hadmit, hp, hidle, hchecks, hopen, Bool.false_eq_true, if_false]

end

/-! ### Moving a lineage (R499) -/

section
variable {s : State} {id : BitVec 128} {peer nonce session : List Byte} {l : Lineage}
variable (hl : findLineage s id = some l) (hidle : l.st = .idle)
include hl hidle

theorem counterStatement_withoutKey (hkey : sessionKey session = none) :
    Answers .counterStatement s (.counterStatement id peer nonce session) 0x10A [] s := by
  refine answers_of_request execCounterStatement rfl rfl rfl rfl ?_ (.inr rfl)
  simp only [hl, hidle, hkey]

variable {w : List Byte} (hkey : sessionKey session = some w)
include hkey

theorem counterStatement_unattested (hpeer : ¬attests (peer.take 64) (peer.drop 64) (challenge s) = true) :
    Answers .counterStatement s (.counterStatement id peer nonce session) 0x10A [] s := by
  refine answers_of_request execCounterStatement rfl rfl rfl rfl ?_ (.inr rfl)
  simp only [hl, hidle, hkey, hpeer, Bool.not_false, if_true]

theorem counterStatement_moves (hpeer : attests (peer.take 64) (peer.drop 64) (challenge s) = true) :
    Serves .counterStatement s (.counterStatement id peer nonce session) (statementData s id l (peer.take 64) nonce w)
      (putLineage { s with fresh := s.fresh + 1 } { l with st := .moved }) := by
  refine serves_of_request execCounterStatement rfl rfl rfl rfl ?_
  simp only [hl, hidle, hkey, hpeer, Bool.not_true, Bool.false_eq_true, if_false]

end

end Sys2Proof.Machine
end

section
/-! PROOFS. The board's signals: reset and its release, power, temperature. -/

namespace Sys2Proof.Machine

section
variable (s : State) (cores granules ports : List Nat) (share : Option (List Nat)) (timeout : Option Nat) (flash : Flash)

theorem resetRelease_passes (hnot : s.device ≠ .reset) :
    Receives .resetRelease s (.resetRelease cores granules ports share timeout flash) (popArrival s) := by
  refine receives_of_head execResetRelease rfl rfl fun hhead => ?_
  simp only [execResetRelease, hhead]
  exact if_pos hnot

theorem resetRelease_boots (hreset : s.device = .reset) :
    Receives .resetRelease s (.resetRelease cores granules ports share timeout flash)
      (if flashOk flash = false then { emptied { popArrival s with resetN := true } .reset with alertN := false }
      else publishMap { emptied { popArrival s with resetN := true } .ready with
        offCores := cores.filter (· < 256)
        offGranules := granules.filter (· < 64)
        offPorts := ports.filter fun n => decide (1 ≤ n) && decide (n ≤ 8)
        rdcShare := shareOf share granules
        agentTimeout := timeoutOf timeout
        fawaile := some (sha3 flash.image) }) := by
  refine receives_of_head execResetRelease rfl rfl fun hhead => ?_
  have hwaits : (popArrival s).device = .reset := hreset
  simp only [execResetRelease, hhead, hwaits, ne_eq, not_true_eq_false, if_false]
  cases flashOk flash <;> rfl

end

theorem resetAssert_resets (s : State) :
    Receives .resetAssert s .resetAssert { emptied (popArrival s) .reset with pwrok := true, resetN := false } :=
  receives_of_head execResetAssert rfl rfl fun hhead => by simp only [execResetAssert, hhead]

theorem i3c_held (s : State) (scl sda : Bool) :
    Receives .resetAssert s (.i3c scl sda) { popArrival s with i3cScl := scl, i3cSda := sda } :=
  receives_of_head execResetAssert rfl rfl fun hhead => by simp only [execResetAssert, hhead]

theorem powerLoss_empties (s : State) :
    Receives .powerLoss s .powerLoss { emptied (popArrival s) .off with pwrok := false, resetN := false } :=
  receives_of_head execPowerLoss rfl rfl fun hhead => by simp only [execPowerLoss, hhead]

theorem thermalWarning_alerts (s : State) : Receives .thermalWarning s .thermal { popArrival s with alertN := false, hot := true } :=
  receives_of_head execThermalWarning rfl rfl fun hhead => by simp only [execThermalWarning, hhead]

theorem thermtrip_trips (s : State) : Receives .thermtrip s .thermtrip { popArrival s with thermtripN := false } :=
  receives_of_head execThermtrip rfl rfl fun hhead => by simp only [execThermtrip, hhead]

/-- Settles O50: seeds by the checks that decide each answer, the board's signals by the arrival at the head. -/
theorem seedsAndBoard : Obligations.SeedsAndBoard := by
  unfold Obligations.SeedsAndBoard
  refine ⟨fun s part lineage buf endPart p hp hlineage hbuf src tag => seedMake_freezes hp hlineage hbuf,
    fun s j p hjob hp hready => seedImageWrite_refuses hjob hp hready, ?image, ?restore, ?statement, resetRelease_passes,
    resetRelease_boots, resetAssert_resets, i3c_held, powerLoss_empties, thermalWarning_alerts, thermtrip_trips⟩
  case image =>
    intro s j p hjob hp hready hbuf
    obtain ⟨u, data, hrun, hseed, hparts, hreplies, hlineage⟩ := seedImageWrite_writes hjob hp hready hbuf
    refine ⟨_, hrun, fun hgoesOn => ?thaws, fun hends => ?ends⟩
    case thaws =>
      rw [if_neg (by simp [hgoesOn]), thaw_thaws (hparts ▸ hp)]
      rw [if_neg (by simp [hgoesOn])] at hlineage
      exact ⟨hseed, hlineage, tget_tset_same _ _ _, data, hreplies⟩
    case ends =>
      rw [if_pos hends] at hlineage ⊢
      exact ⟨u, rfl, hseed, hlineage, data, hreplies⟩
  case restore =>
    intro s part img stm session p hp hidle
    cases hchecks : restoreChecks s p img stm session with
    | error st => exact seedRestore_refuses hp hidle hchecks
    | ok k =>
      dsimp only
      split
      · next plain hopen => exact seedRestore_restores hp hidle hchecks hopen
      · next hopen => exact seedRestore_zeroes hp hidle hchecks hopen
  case statement =>
    intro s id peer nonce session l hl hidle req
    cases hkey : sessionKey session with
    | none => exact counterStatement_withoutKey hl hidle hkey
    | some w =>
      dsimp only
      split
      · next hpeer => exact counterStatement_moves hl hidle hkey hpeer
      · next hpeer => exact counterStatement_unattested hl hidle hkey hpeer

end Sys2Proof.Machine
end

section
/-! PROOFS. The instructions of opcodes 0x00 to 0x6F that write a value or a predicate: each is a `dataOp` or a `predOp` with the value
that its statement names. -/

open Sys2Proof Sys2Proof.Machine

namespace Sys2Proof.Machine

/-! ### The shapes of the statements, from the model's own shared operations -/

theorem intPair_of {mk : Op2 → Instr} {latency : Nat} {sat : Bool} {f : Ty → BitVec 2 → Int → Int → Int}
    (hexec : ∀ x s, exec (mk x) s = intOp2 s x latency sat (f x.ty x.sub)) : IntPair mk latency sat f :=
  fun x => dataOp_runs _ _ _ _ _ _ _ _ _ (hexec x)

theorem intOne_of {mk : Op1 → Instr} {f : Int → Int} (hexec : ∀ x s, exec (mk x) s = intOp1 s x 4 f) : IntOne mk f :=
  fun x => dataOp_runs _ _ _ _ _ _ _ _ _ (hexec x)

theorem intThree_of {mk : Op3 → Instr} {latency : Nat} {f : Int → Int → Int → Int}
    (hexec : ∀ x s, exec (mk x) s = intOp3 s x latency f) : IntThree mk latency f :=
  fun x => dataOp_runs _ _ _ _ _ _ _ _ _ (hexec x)

theorem bitPair_of {mk : Op2 → Instr} {f : Nat → Nat → Nat → Nat}
    (hexec : ∀ x s, exec (mk x) s = bitOp2 s x (f x.ty.bits)) : BitPair mk f :=
  fun x => dataOp_runs _ _ _ _ _ _ _ _ _ (hexec x)

theorem counted_of {mk : Op2 → Instr} {latency : Nat} {f : Ty → Int → Nat → Int}
    (hexec : ∀ x s, exec (mk x) s = countOp s x latency (f x.ty)) : Counted mk latency f :=
  fun x => dataOp_runs _ _ _ _ _ _ _ _ _ (hexec x)

theorem bitsCounted_of {mk : Op1 → Instr} {f : Nat → Nat → Nat} (hexec : ∀ x s, exec (mk x) s = bitCount s x f) :
    BitsCounted mk f :=
  fun x => dataOp_runs _ _ _ _ _ _ _ _ _ (hexec x)

theorem bitsOne_of {mk : Op1 → Instr} {latency : Nat} {f : Nat → Nat → Nat}
    (hexec : ∀ x s, exec (mk x) s = dataOp s x.h false (widthOf x.ty.wide) latency [(x.a, x.ty.wide)] x.d x.ty.wide
      fun g _ i t => f x.ty.bits (readSrc g x.h i t x.ty.bits x.a)) : BitsOne mk latency f :=
  fun x => dataOp_runs _ _ _ _ _ _ _ _ _ (hexec x)

theorem floatPair_of {mk : FOp2 → Instr} {latency : Nat} {op : RM → FVal → FVal → FVal}
    (hexec : ∀ x s, exec (mk x) s = floatOp2 s x latency op) : FloatPair mk latency op :=
  fun x => dataOp_runs _ _ _ _ _ _ _ _ _ (hexec x)

theorem codeOne_of {mk : Op1 → Instr} {f : Ty → Nat → Nat}
    (hexec : ∀ x s, exec (mk x) s = dataOp s x.h false .w32 6 [(x.a, false)] x.d false
      fun g _ i t => f x.ty (readCode g x.h i t x.ty x.a)) : CodeOne mk f :=
  fun x => dataOp_runs _ _ _ _ _ _ _ _ _ (hexec x)

theorem extreme_of {mk : Op2 → Instr} {pickB : Ordering → Bool} (hexec : ∀ x s, exec (mk x) s = extremumOp s x pickB) :
    Extreme mk pickB :=
  fun x => dataOp_runs _ _ _ _ _ _ _ _ _ (hexec x)

/-! ### The statements -/

/-- Settles O1: each instruction is `intOp2` with the exact operation. -/
theorem integerPairsAddSubtractMultiplyDivide : Obligations.IntegerPairsAddSubtractMultiplyDivide := by
  unfold Obligations.IntegerPairsAddSubtractMultiplyDivide
  exact ⟨intPair_of fun _ _ => rfl, intPair_of fun _ _ => rfl, intPair_of fun _ _ => rfl, intPair_of fun _ _ => rfl,
    intPair_of fun _ _ => rfl, intPair_of fun _ _ => rfl, intPair_of fun _ _ => rfl, intPair_of fun _ _ => rfl⟩

/-- Settles O2: each instruction is `intOp1` or `intOp3` with the exact operation. -/
theorem integerOnesAndThrees : Obligations.IntegerOnesAndThrees := by
  unfold Obligations.IntegerOnesAndThrees
  exact ⟨intOne_of fun _ _ => rfl, intOne_of fun _ _ => rfl, intThree_of fun _ _ => rfl, intThree_of fun _ _ => rfl⟩

/-- Settles O3: the logic is `bitOp2`, the shifts are `countOp`. -/
theorem bitwiseAndShifts : Obligations.BitwiseAndShifts := by
  unfold Obligations.BitwiseAndShifts
  exact ⟨bitPair_of fun _ _ => rfl, bitPair_of fun _ _ => rfl, bitPair_of fun _ _ => rfl, bitPair_of fun _ _ => rfl,
    bitsOne_of fun _ _ => rfl, counted_of fun _ _ => rfl, counted_of fun _ _ => rfl, counted_of fun _ _ => rfl,
    counted_of fun _ _ => rfl⟩

/-- Settles O4: the counts are `bitCount`, BFX is `countOp`, the others `dataOp` itself. -/
theorem bitCountsAndFields : Obligations.BitCountsAndFields := by
  unfold Obligations.BitCountsAndFields
  exact ⟨bitsCounted_of fun _ _ => rfl, bitsCounted_of fun _ _ => rfl, bitsCounted_of fun _ _ => rfl, bitsOne_of fun _ _ => rfl,
    counted_of fun _ _ => rfl, fun x => dataOp_runs _ _ _ _ _ _ _ _ _ fun _ => rfl,
    fun x => dataOp_runs _ _ _ _ _ _ _ _ _ fun _ => rfl⟩

/-- Settles O5: each instruction is a `dataOp`. -/
theorem movesConstantsAndAddresses : Obligations.MovesConstantsAndAddresses := by
  unfold Obligations.MovesConstantsAndAddresses
  exact ⟨fun x => dataOp_runs _ _ _ _ _ _ _ _ _ fun _ => rfl, bitsOne_of fun _ _ => rfl,
    fun h d sub imm => dataOp_runs _ _ _ _ _ _ _ _ _ fun _ => rfl, fun h d sub imm => dataOp_runs _ _ _ _ _ _ _ _ _ fun _ => rfl,
    fun h d a dty sty sub => dataOp_runs _ _ _ _ _ _ _ _ _ fun _ => rfl,
    fun h d a b sel ty => dataOp_runs _ _ _ _ _ _ _ _ _ fun _ => rfl⟩

/-- Settles O6: each instruction is a `predOp`. -/
theorem comparisonsAndPredicates : Obligations.ComparisonsAndPredicates := by
  unfold Obligations.ComparisonsAndPredicates
  exact ⟨fun x => predOp_runs _ _ _ _ _ _ _ fun _ => rfl, fun x => predOp_runs _ _ _ _ _ _ _ fun _ => rfl,
    fun h op d a b => predOp_runs _ _ _ _ _ _ _ fun _ => rfl, fun h op d a => predOp_runs _ _ _ _ _ _ _ fun _ => rfl,
    fun h d => predOp_runs _ _ _ _ _ _ _ fun _ => rfl⟩

/-- Settles O7: each instruction is a `dataOp` whose value looks at the lanes that take part. -/
theorem lanesExchange : Obligations.LanesExchange := by
  unfold Obligations.LanesExchange
  exact ⟨fun h below d a => dataOp_runs _ _ _ _ _ _ _ _ _ fun _ => rfl,
    fun h op wrap ty d a b => dataOp_runs _ _ _ _ _ _ _ _ _ fun _ => rfl,
    fun h ty d a => dataOp_runs _ _ _ _ _ _ _ _ _ fun _ => rfl, fun h d => dataOp_runs _ _ _ _ _ _ _ _ _ fun _ => rfl,
    fun h d num => dataOp_runs _ _ _ _ _ _ _ _ _ fun _ => rfl⟩

/-- Settles O8: one rounding of the exact result under the effective mode. -/
theorem floatArithmetic : Obligations.FloatArithmetic := by
  unfold Obligations.FloatArithmetic
  exact ⟨floatPair_of fun _ _ => rfl, floatPair_of fun _ _ => rfl, floatPair_of fun _ _ => rfl, floatPair_of fun _ _ => rfl,
    fun x => dataOp_runs _ _ _ _ _ _ _ _ _ fun _ => rfl, fun x => dataOp_runs _ _ _ _ _ _ _ _ _ fun _ => rfl,
    fun x => dataOp_runs _ _ _ _ _ _ _ _ _ fun _ => rfl, fun x => dataOp_runs _ _ _ _ _ _ _ _ _ fun _ => rfl⟩

/-- Settles O9: the signs and the class are read from the code, the extremes from two flushed codes. -/
theorem floatSignsExtremesAndClasses : Obligations.FloatSignsExtremesAndClasses := by
  unfold Obligations.FloatSignsExtremesAndClasses
  exact ⟨codeOne_of fun _ _ => rfl, codeOne_of fun _ _ => rfl, extreme_of fun _ _ => rfl, extreme_of fun _ _ => rfl,
    codeOne_of fun _ _ => rfl⟩

/-- Settles O11: each instruction is a `dataOp` under its effective mode. -/
theorem conversionsPackedAndDot : Obligations.ConversionsPackedAndDot := by
  unfold Obligations.ConversionsPackedAndDot
  exact ⟨fun x => dataOp_runs _ _ _ _ _ _ _ _ _ fun _ => rfl, fun x => dataOp_runs _ _ _ _ _ _ _ _ _ fun _ => rfl,
    fun x => dataOp_runs _ _ _ _ _ _ _ _ _ fun _ => rfl, fun x => dataOp_runs _ _ _ _ _ _ _ _ _ fun _ => rfl,
    fun x => dataOp_runs _ _ _ _ _ _ _ _ _ fun _ => rfl, fun x => dataOp_runs _ _ _ _ _ _ _ _ _ fun _ => rfl,
    fun x => dataOp_runs _ _ _ _ _ _ _ _ _ fun _ => rfl⟩

end Sys2Proof.Machine
end

section
/-! PROOFS. Special functions (R197–R200): the FP32 value chosen lies in the bound of its function, the table's results are those of the
sources R199 names, and the mode has no bearing on a `.f32` result. -/

open Sys2Proof Sys2Proof.Machine

namespace Sys2Proof.Machine

/-! ### The free choice (log 6) -/

/-- A code asked for is taken when the set holds it, and else the fallback. -/
theorem pickIn_allowed (ok : Nat → Bool) (asked fallback : Nat) :
    ok (pickIn ok asked fallback) = true ∨ pickIn ok asked fallback = fallback := by
  unfold pickIn
  split
  · next h => exact .inl h
  · exact .inr rfl

theorem pickIn_holds {ok : Nat → Bool} (asked : Nat) {fallback : Nat} (hfallback : ok fallback = true) :
    ok (pickIn ok asked fallback) = true :=
  (pickIn_allowed ok asked fallback).elim id fun h => h.symm ▸ hfallback

theorem pickBracket_brackets (asked : Nat) (neg : Bool) (m : Nat) (e : Int) :
    Brackets (.fin neg m e) neg (pickBracket asked (.fin neg m e)) := by
  unfold pickBracket Brackets
  dsimp only
  split
  · exact .inr rfl
  · exact .inl rfl

/-! ### Each function's value lies in its bound -/

theorem rcp_allowed (asked : Nat) (neg : Bool) (m : Nat) (e : Int) :
    SpecAllowed .rcp (.fin neg m e) (specY .rcp asked (.fin neg m e)).1 := by
  simp only [SpecAllowed, specY]
  by_cases hm : m = 0
  · exact ⟨fun _ => by rw [if_pos hm], fun h => absurd hm h, fun h => absurd hm h⟩
  refine ⟨fun h => absurd h hm, fun _ hpow => by rw [if_neg hm, if_pos hpow], fun _ hpow => ?_⟩
  rw [if_neg hm, if_neg hpow]
  have hpick : ∀ q : FVal, pickBracket asked q = fround .f32 .rz false q ∨ pickBracket asked q =
      match q with | .fin n _ _ => fround .f32 (if n then .rdn else .rup) false q | _ => fround .f32 .rz false q := fun q => by
    unfold pickBracket
    dsimp only
    split
    · exact .inr rfl
    · exact .inl rfl
  dsimp only
  split
  · split
    · next hlow => exact .inr (.inr ⟨hlow, rfl⟩)
    · exact (hpick _).imp_right .inl
  · exact (hpick _).imp_right .inl

theorem rsq_allowed (asked : Nat) (neg : Bool) (m : Nat) (e : Int) :
    SpecAllowed .rsq (.fin neg m e) (specY .rsq asked (.fin neg m e)).1 := by
  simp only [SpecAllowed, specY]
  refine ⟨fun hm => by rw [if_pos hm], fun hm hneg => by rw [if_neg hm, if_pos hneg], fun hm hneg => ⟨_, rfl, ?_⟩⟩
  rw [if_neg hm, if_neg (show ¬neg = true by simp [hneg])]
  exact pickBracket_brackets _ _ _ _

theorem ex2_allowed (asked : Nat) (neg : Bool) (m : Nat) (e : Int) :
    SpecAllowed .ex2 (.fin neg m e) (specY .ex2 asked (.fin neg m e)).1 := by
  have hbig : (leadOf m e ≥ 8 ∨ (!neg && magCmp m e 128 0 != .lt) = true) ↔
      (leadOf m e ≥ 8 ∨ (neg = false ∧ magCmp m e 128 0 ≠ .lt)) := by simp
  have htiny : (neg && magCmp m e 150 0 == .gt) = true ↔ (neg = true ∧ magCmp m e 150 0 = .gt) := by simp
  simp only [SpecAllowed, specY, hbig, htiny]
  refine ⟨fun hm => by rw [if_pos hm], fun hm hb => by rw [if_neg hm, if_pos hb],
    fun hm hb ht => by rw [if_neg hm, if_neg hb, if_pos ht],
    fun hm hb ht hw => by rw [if_neg hm, if_neg hb, if_neg ht, if_pos hw], fun hm hb ht hw => ?_⟩
  rw [if_neg hm, if_neg hb, if_neg ht, if_neg hw]
  exact pickIn_allowed _ _ _

theorem lg2_allowed (asked : Nat) (neg : Bool) (m : Nat) (e : Int) :
    SpecAllowed .lg2 (.fin neg m e) (specY .lg2 asked (.fin neg m e)).1 := by
  have hmid : (magCmp m e 1 (-1) != .lt && magCmp m e 2 0 != .gt) = true ↔
      (magCmp m e 1 (-1) ≠ .lt ∧ magCmp m e 2 0 ≠ .gt) := by simp
  simp only [SpecAllowed, specY, hmid]
  refine ⟨fun hm => by rw [if_pos hm], fun hm hneg => by rw [if_neg hm, if_pos hneg],
    fun hm hneg hpow => by rw [if_neg hm, if_neg (by simp [hneg]), if_pos hpow], fun hm hneg hpow h => ?_, fun hm hneg hpow h => ?_⟩
  · rw [if_neg hm, if_neg (by simp [hneg]), if_neg hpow, if_pos h]
    exact pickIn_allowed _ _ _
  · rw [if_neg hm, if_neg (by simp [hneg]), if_neg hpow, if_neg h]
    exact pickIn_allowed _ _ _

/-- Sine and cosine beyond 2^20 are free within ±1. -/
theorem pickIn_unit (asked : Nat) : pickIn (fun y => decide (y % 2 ^ 31 ≤ 0x3F800000)) asked 0 % 2 ^ 31 ≤ 0x3F800000 :=
  of_decide_eq_true (pickIn_holds (ok := fun y => decide (y % 2 ^ 31 ≤ 0x3F800000)) asked (by decide))

theorem sin_allowed (asked : Nat) (neg : Bool) (m : Nat) (e : Int) :
    SpecAllowed .sin (.fin neg m e) (specY .sin asked (.fin neg m e)).1 := by
  simp only [SpecAllowed, specY, beq_iff_eq]
  refine ⟨fun hm => by rw [if_pos hm], fun hm hbig => ?_, fun hm hbig => ?_⟩
  · rw [if_neg hm, if_pos hbig]
    exact pickIn_unit asked
  · rw [if_neg hm, if_neg hbig]
    exact pickIn_allowed _ _ _

theorem cos_allowed (asked : Nat) (neg : Bool) (m : Nat) (e : Int) :
    SpecAllowed .cos (.fin neg m e) (specY .cos asked (.fin neg m e)).1 := by
  simp only [SpecAllowed, specY, beq_iff_eq]
  refine ⟨fun hm => by rw [if_pos hm], fun hm hbig => ?_, fun hm hbig => ?_⟩
  · rw [if_neg hm, if_pos hbig]
    exact pickIn_unit asked
  · rw [if_neg hm, if_neg hbig]
    exact pickIn_allowed _ _ _

theorem tanh_allowed (asked : Nat) (neg : Bool) (m : Nat) (e : Int) :
    SpecAllowed .tanh (.fin neg m e) (specY .tanh asked (.fin neg m e)).1 := by
  simp only [SpecAllowed, specY]
  refine ⟨fun hm => by rw [if_pos hm], fun hm => ?_⟩
  rw [if_neg hm]
  generalize (if leadOf m e < -28 then justInside neg m e else if leadOf m e ≥ 5 then justInside neg 1 0
    else fxVal (tanhFx (toFx neg m e))) = v
  refine (pickIn_allowed (fun y => withinAbs v (-21) y && decide (y % 2 ^ 31 ≤ 0x3F800000)) asked _).imp_left fun hboth => ?_
  rw [Bool.and_eq_true, decide_eq_true_eq] at hboth
  exact hboth

theorem specY_allowed (fn : SpecFn) (asked : Nat) (a : FVal) : SpecAllowed fn a (specY fn asked a).1 := by
  match a, fn with
  | .nan, fn => cases fn <;> exact rfl
  | .inf neg, fn => cases fn <;> cases neg <;> exact rfl
  | .fin neg m e, .rcp => exact rcp_allowed asked neg m e
  | .fin neg m e, .rsq => exact rsq_allowed asked neg m e
  | .fin neg m e, .ex2 => exact ex2_allowed asked neg m e
  | .fin neg m e, .lg2 => exact lg2_allowed asked neg m e
  | .fin neg m e, .sin => exact sin_allowed asked neg m e
  | .fin neg m e, .cos => exact cos_allowed asked neg m e
  | .fin neg m e, .tanh => exact tanh_allowed asked neg m e

/-! ### R199's table -/

theorem specY_table {fn : SpecFn} {asked : Nat} {a : FVal} (ha : tableInput a) : (specY fn asked a).2 = true := by
  match a, fn with
  | .nan, fn => cases fn <;> rfl
  | .inf neg, fn => cases fn <;> cases neg <;> rfl
  | .fin neg m e, fn =>
    have hm : m = 0 := ha
    cases fn <;> simp only [specY, if_pos hm]

theorem nan_not_infinity : ¬isInfCode (nanCode .f32) := by
  unfold isInfCode
  decide

/-- Of a finite source that is not zero the table gives no infinity. -/
theorem specY_computed {fn : SpecFn} {asked : Nat} {a : FVal} (ha : ¬tableInput a) (hinf : isInfCode (specY fn asked a).1) :
    (specY fn asked a).2 = false := by
  match a, fn with
  | .nan, _ => exact absurd trivial ha
  | .inf _, _ => exact absurd trivial ha
  | .fin neg m e, fn =>
    have hm : ¬m = 0 := ha
    revert hinf
    cases fn <;> simp only [specY, if_neg hm]
    case rcp => split <;> exact fun _ => rfl
    case rsq =>
      split
      · exact fun hnan => absurd hnan nan_not_infinity
      · exact fun _ => rfl
    case ex2 =>
      split
      · exact fun _ => rfl
      split
      · exact fun hzero => absurd (show 0 % 2 ^ 31 = 0x7F800000 from hzero) (by decide)
      split <;> exact fun _ => rfl
    case lg2 =>
      split
      · exact fun hnan => absurd hnan nan_not_infinity
      split <;> exact fun _ => rfl
    case sin => split <;> exact fun _ => rfl
    case cos => split <;> exact fun _ => rfl
    case tanh => exact fun _ => trivial

/-! ### From y to the result (R198) -/

/-- A special function's result, from y and whether the table gave it. -/
def narrowed (t : Ty) (m : RM) (s f : Bool) (y : Nat × Bool) : Nat :=
  if y.1 % 2 ^ 31 = 0x7F800000 ∧ y.2 = true then fround t .rne false (fdecode .f32 y.1)
  else
    let c := if y.1 % 2 ^ 31 = 0x7F800000 ∧ s = true then y.1 - 1 else y.1
    if t = .f32 then c else froundF t m s f (fdecode .f32 c)

theorem specResult_eq_narrowed (fn : SpecFn) (t : Ty) (m : RM) (s f : Bool) (src : Nat) :
    ∃ asked, specResult fn t m s f src = narrowed t m s f (specY fn asked (fread t f src)) := ⟨_, rfl⟩

theorem narrowed_of_table {t : Ty} {m : RM} {s f : Bool} {y : Nat × Bool} (hinf : isInfCode y.1) (htable : y.2 = true) :
    narrowed t m s f y = fround t .rne false (fdecode .f32 y.1) := if_pos ⟨hinf, htable⟩

theorem narrowed_of_finite {t : Ty} {m : RM} {s f : Bool} {y : Nat × Bool} (hfin : ¬isInfCode y.1) :
    narrowed t m s f y = if t = .f32 then y.1 else froundF t m s f (fdecode .f32 y.1) := by
  unfold isInfCode at hfin
  simp only [narrowed, hfin, false_and, if_false]

theorem narrowed_of_computed {t : Ty} {m : RM} {s f : Bool} {y : Nat × Bool} (hinf : isInfCode y.1) (hcomputed : y.2 = false) :
    narrowed t m s f y = if t = .f32 then (if s then y.1 - 1 else y.1)
      else froundF t m s f (fdecode .f32 (if s then y.1 - 1 else y.1)) := by
  unfold isInfCode at hinf
  simp only [narrowed, hinf, hcomputed, Bool.false_eq_true, and_false, if_false, true_and]

/-- For `.f32` the mode is not asked for, and y is not rounded. -/
theorem specResult_f32_mode (fn : SpecFn) (m m' : RM) (s f : Bool) (src : Nat) :
    specResult fn .f32 m s f src = specResult fn .f32 m' s f src := by
  simp only [specResult, if_true]

theorem specialOne_of {mk : FOp1 → Instr} {fn : SpecFn} (hexec : ∀ x s, exec (mk x) s = specOp s x fn) : SpecialOne mk fn :=
  fun x => dataOp_runs _ _ _ _ _ _ _ _ _ (hexec x)

/-- Settles O10: the allowed y is the one `specY` picks. -/
theorem floatSpecialFunctions : Obligations.FloatSpecialFunctions := by
  unfold Obligations.FloatSpecialFunctions
  refine ⟨specialOne_of fun _ _ => rfl, specialOne_of fun _ _ => rfl, specialOne_of fun _ _ => rfl, specialOne_of fun _ _ => rfl,
    specialOne_of fun _ _ => rfl, specialOne_of fun _ _ => rfl, specialOne_of fun _ _ => rfl, ?values, specResult_f32_mode⟩
  intro fn t m s f src
  obtain ⟨asked, hresult⟩ := specResult_eq_narrowed fn t m s f src
  refine ⟨_, specY_allowed fn asked (fread t f src), fun hfin ht => ?_, fun hfin ht => ?_, fun hinf htable => ?_,
    fun hinf hsource ht => ?_, fun hinf hsource ht => ?_⟩ <;> rw [hresult]
  · rw [narrowed_of_finite hfin, if_pos ht]
  · rw [narrowed_of_finite hfin, if_neg ht]
  · exact narrowed_of_table hinf (specY_table htable)
  · rw [narrowed_of_computed hinf (specY_computed hsource hinf), if_pos ht]
  · rw [narrowed_of_computed hinf (specY_computed hsource hinf), if_neg ht]

end Sys2Proof.Machine
end

section
/-! PROOFS. Branches and calls: a transfer writes the program counter, and the link register where it has one. -/

open Sys2Proof Sys2Proof.Machine

namespace Sys2Proof.Machine

theorem jump_eq (s : State) (gid : Nat) (x g : Group) (beats : Nat) (pc : DWord) :
    jump (setGroup s gid x) gid g beats pc = setGroup (occupy s g beats) gid { g with pc := pc } := by
  simp [jump, occupy_setGroup]

/-! ### The link register (R149) -/

theorem writeLink_onlyPend (g : Group) (h : Hdr) (now : Nat) (link : BitVec 7) (v : DWord) : OnlyPend g (writeLink g h now link v) :=
  writePlace_onlyPend _ _ _ _ _ _ _ _ (by simp)

theorem newestAt_writeLink (g : Group) (h : Hdr) (now : Nat) (link : BitVec 7) (v : DWord) :
    newestAt (writeLink g h now link v) (.s link.toNat) 0 = (v.toNat, (Cls.fixed 4).due h.ver now, none) :=
  writePlace_newest _ _ _ _ _ _ _ _ (by simp)

theorem keptBut_writeLink (g : Group) (h : Hdr) (now : Nat) (link : BitVec 7) (v : DWord) :
    KeptBut g (writeLink g h now link v) [0] [.s link.toNat] := fun p lane hout =>
  writePlace_newest_other _ _ _ _ _ _ _ _ _ _ (by simp) fun hsame => by
    obtain ⟨rfl, rfl⟩ := hsame
    exact hout (by simp) (by simp)

theorem readPlace_writeLink_lane (g : Group) (h : Hdr) (now : Nat) (link : BitVec 7) (v : DWord) (k lane t : Nat) :
    readPlace (writeLink g h now link v) (.p k) lane false t = readPlace g (.p k) lane false t := by
  unfold readPlace
  split
  · rfl
  · next hplace => cases hplace
  · rw [show (writeLink g h now link v).pend = _ :: g.pend from rfl, List.find?_cons_of_neg (by simp [Pend.at])]
    rfl

theorem beatsOf_writeLink (g : Group) (h : Hdr) (now : Nat) (link : BitVec 7) (v : DWord) (w : Width) (t : Nat) :
    beatsOf (writeLink g h now link v) h w t = beatsOf g h w t := by
  have hpart : takingPart (writeLink g h now link v) h w t = takingPart g h w t :=
    beatsFrom_congr rfl (funext₂ fun _ _ => by simp only [laneGuard, readPlace_writeLink_lane]) w 4 0 t
  simp only [beatsOf, hpart]

/-! ### Targets held in registers (R126) -/

theorem jumpTo_aligned {s : State} {gid : Nat} {o : Group} {h : Hdr} {t : DWord} (haligned : t.extractLsb' 0 3 = 0) :
    jumpTo (setGroup s gid o) gid o h t none = setGroup (occupy s o (beatsOf o h .w64 s.cycle)) gid { o with pc := t } := by
  simp only [jumpTo, haligned, ne_eq, not_true, if_false, setGroup_cycle, jump_eq]

theorem jumpTo_linked {s : State} {gid : Nat} {o : Group} {h : Hdr} {t : DWord} (link : BitVec 7) (haligned : t.extractLsb' 0 3 = 0) :
    jumpTo (setGroup s gid o) gid o h t (some link) =
      setGroup (occupy s o (beatsOf o h .w64 s.cycle)) gid
        { writeLink o h s.cycle link (o.pc + BitVec.ofNat 64 (instrLen h false)) with pc := t } := by
  simp only [jumpTo, haligned, ne_eq, not_true, if_false, setGroup_cycle, jump_eq, beatsOf_writeLink]
  exact congrArg (setGroup · gid _) (occupy_congr s _ rfl rfl)

theorem jumpTo_unaligned {s : State} {gid : Nat} {o : Group} {h : Hdr} {t : DWord} (link : Option (BitVec 7))
    (hodd : t.extractLsb' 0 3 ≠ 0) : jumpTo s gid o h t link = raiseIllegal s gid o (instrLen h false) := if_pos hodd

/-! ### Each instruction's end -/

/-- BRA's condition: some enabled lane takes part, or every one does (R148). -/
theorem braTaken_iff (any : Bool) (part enabled : List Nat) :
    (if any then !part.isEmpty else decide (part = enabled)) = true ↔ if any then part ≠ [] else part = enabled := by
  cases any <;> simp

section
variable {s : State} {gid : Nat} {g : Group} {h : Hdr} (hi : Issuing s gid g h)
include hi

theorem nop_ends : execNop h s = Ends s gid (openIssue s g h) (beatsOf (openIssue s g h) h .w32 s.cycle)
    (advance (openIssue s g h) (instrLen h false)) := by
  rw [execNop, issue_runs _ _ hi, finish_eq]
  rfl

theorem bra_ends (any : Bool) (off : BitVec 24) :
    execBra h any off s = Ends s gid (openIssue s g h) (beatCount .w32 (takingPart (openIssue s g h) h .w32 s.cycle))
      (if (if any then !(takingPart (openIssue s g h) h .w32 s.cycle).isEmpty
          else decide (takingPart (openIssue s g h) h .w32 s.cycle = enabledLanes (openIssue s g h))) = true
        then { openIssue s g h with pc := (openIssue s g h).pc + off.signExtend 64 * 8 }
        else advance (openIssue s g h) (instrLen h false)) := by
  rw [execBra, issue_runs _ _ hi]
  refine congrArg Host.Outcome.next ?_
  simp only [setGroup_cycle, jump_eq, finish_eq, relTarget]
  exact (apply_ite (setGroup _ gid) _ _ _).symm

theorem bru_ends (off : BitVec 24) :
    execBru h off s = Ends s gid (openIssue s g h) 1
      (if uniGuard (openIssue s g h) h s.cycle then { openIssue s g h with pc := (openIssue s g h).pc + off.signExtend 64 * 8 }
        else advance (openIssue s g h) (instrLen h false)) := by
  rw [execBru, issue_runs _ _ hi]
  refine congrArg Host.Outcome.next ?_
  simp only [setGroup_cycle, jump_eq, finish_eq, relTarget]
  exact (apply_ite (setGroup _ gid) _ _ _).symm

theorem call_ends (link : BitVec 7) (off : BitVec 24) :
    execCall h link off s = Ends s gid (openIssue s g h) (beatsOf (openIssue s g h) h .w64 s.cycle)
      { writeLink (openIssue s g h) h s.cycle link ((openIssue s g h).pc + BitVec.ofNat 64 (instrLen h false)) with
        pc := (openIssue s g h).pc + off.signExtend 64 * 8 } := by
  rw [execCall, issue_runs _ _ hi, jump_eq]
  exact congrArg (fun t => Host.Outcome.next (setGroup t gid _)) (occupy_congr s _ rfl rfl)

theorem brx_jumps {a : Src} (ha : srcInRole (roleOf s g) true a = true) :
    execBrx h a s = .next (jumpTo (setGroup s gid (openIssue s g h)) gid (openIssue s g h) h
      (readTarget (openIssue s g h) h s.cycle a) none) := by
  rw [execBrx, issue_runs _ _ hi, if_pos (by simpa using ha), setGroup_cycle]

theorem callx_jumps (link : BitVec 7) {a : Src} (ha : srcInRole (roleOf s g) true a = true) :
    execCallx h link a s = .next (jumpTo (setGroup s gid (openIssue s g h)) gid (openIssue s g h) h
      (readTarget (openIssue s g h) h s.cycle a) (some link)) := by
  rw [execCallx, issue_runs _ _ hi, if_pos (by simpa using ha), setGroup_cycle]

theorem ret_jumps (link : BitVec 7) :
    execRet h link s = .next (jumpTo (setGroup s gid (openIssue s g h)) gid (openIssue s g h) h
      (BitVec.ofNat 64 (readPlace (openIssue s g h) (.s link.toNat) 0 false s.cycle)) none) := by
  rw [execRet, issue_runs _ _ hi, setGroup_cycle]

end

/-- Settles O12: where the target is read or computed, and the link register's result. -/
theorem branchesAndCalls : Obligations.BranchesAndCalls := by
  unfold Obligations.BranchesAndCalls
  refine ⟨fun h s gid g hi => nop_ends hi, ?bra, fun h off s gid g hi => bru_ends hi off, ?call, ?brx, ?callx, ?ret⟩
  case bra =>
    exact fun h any off s gid g hi =>
      ⟨fun htaken => (bra_ends hi any off).trans (by rw [if_pos ((braTaken_iff _ _ _).mpr htaken)]),
        fun hnot => (bra_ends hi any off).trans (by rw [if_neg fun htaken => hnot ((braTaken_iff _ _ _).mp htaken)])⟩
  case call =>
    exact fun h link off s gid g hi =>
      ⟨_, writeLink_onlyPend _ _ _ _ _, call_ends hi link off, newestAt_writeLink _ _ _ _ _, keptBut_writeLink _ _ _ _ _⟩
  case brx =>
    exact fun h a s gid g hi ha =>
      ⟨fun haligned => (brx_jumps hi ha).trans (congrArg Host.Outcome.next (jumpTo_aligned haligned)),
        fun hodd => (brx_jumps hi ha).trans (congrArg Host.Outcome.next (jumpTo_unaligned none hodd))⟩
  case callx =>
    exact fun h link a s gid g hi ha =>
      ⟨fun haligned => ⟨_, writeLink_onlyPend _ _ _ _ _,
          (callx_jumps hi link ha).trans (congrArg Host.Outcome.next (jumpTo_linked link haligned)),
          newestAt_writeLink _ _ _ _ _, keptBut_writeLink _ _ _ _ _⟩,
        fun hodd => (callx_jumps hi link ha).trans (congrArg Host.Outcome.next (jumpTo_unaligned (some link) hodd))⟩
  case ret =>
    exact fun h link s gid g hi =>
      ⟨fun haligned => (ret_jumps hi link).trans (congrArg Host.Outcome.next (jumpTo_aligned haligned)),
        fun hodd => (ret_jumps hi link).trans (congrArg Host.Outcome.next (jumpTo_unaligned none hodd))⟩

end Sys2Proof.Machine
end

section
/-! PROOFS. The active and pending sets (R36–R39): an exchange writes two groups and nothing else. -/

open Sys2Proof Sys2Proof.Machine

namespace Sys2Proof.Machine

theorem stallExchange_exchanges {s : State} {gid : Nat} {g : Group} {i p : Nat} {gp : Group} (hg : getGroup s gid = some g)
    (hslice : g.slice = some i) (hready : pendingReady s g.core = some (p, gp)) (hstalled : stalled s gid g = true) :
    execStallExchange gid s = .next (enterSlice (enterPending s gid { g with lastStall := s.cycle }) p gp i) := by
  simp only [execStallExchange, hg, hslice, hready, hstalled, if_true]

theorem emptySlotFill_fills {s : State} {core i p : Nat} {gp : Group} (hready : pendingReady s core = some (p, gp))
    (hroom : sliceSize s core i < 8) (hi : i < 4) :
    execEmptySlotFill core i s = .next { enterSlice s p gp i with freed := s.freed.erase (core, i) } := by
  simp only [execEmptySlotFill, hready, hroom, hi, and_self, if_true]

theorem pendingAgeExpiry_exchanges {s : State} {gid : Nat} {g : Group} {v : Nat} {gv : Group} (hg : getGroup s gid = some g)
    (hold : pendingOld s gid g = true)
    (hfirst : firstBy (fun x => (if stalled s x.1 x.2 then s.cycle else x.2.lastStall) :: x.2.age :: issueKey s x.2)
      (s.groups.filter fun e => e.2.core == g.core && e.2.slice.isSome) = some (v, gv)) :
    execPendingAgeExpiry gid s = .next (enterSlice (enterPending s v gv) gid g (gv.slice.getD 0)) := by
  simp only [execPendingAgeExpiry, hg, hfirst, hold, if_true]

theorem getGroup_enterSlice (s : State) (gid : Nat) (g : Group) (i : Nat) :
    getGroup (enterSlice s gid g i) gid = some { g with slice := some i, age := s.cycle } := getGroup_setGroup _ _ _

theorem getGroup_enterSlice_other (s : State) {gid k : Nat} (g : Group) (i : Nat) (hk : k ≠ gid) :
    getGroup (enterSlice s gid g i) k = getGroup s k := getGroup_setGroup_other _ _ _ _ hk

theorem getGroup_enterPending (s : State) (gid : Nat) (g : Group) :
    getGroup (enterPending s gid g) gid = some { g with slice := none, pendSince := s.cycle } := getGroup_setGroup _ _ _

/-- Settles O42: the group that leaves and the one that enters are written one after the other. -/
theorem activeSets : Obligations.ActiveSets := by
  unfold Obligations.ActiveSets
  refine ⟨?exchange, ?fill, ?expiry⟩
  case exchange =>
    intro s gid g i p gp hg hslice hready hne hstalled
    exact ⟨_, stallExchange_exchanges hg hslice hready hstalled,
      (getGroup_enterSlice_other _ _ _ hne.symm).trans (getGroup_enterPending _ _ _), getGroup_enterSlice _ _ _ _, rfl, rfl⟩
  case fill =>
    intro s core i p gp hready hroom hi
    exact ⟨_, emptySlotFill_fills hready hroom hi, getGroup_enterSlice _ _ _ _, fun n hn => getGroup_enterSlice_other _ _ _ hn,
      rfl, rfl⟩
  case expiry =>
    intro s gid g v gv hg hold hne hfirst
    exact ⟨_, pendingAgeExpiry_exchanges hg hold hfirst,
      (getGroup_enterSlice_other _ _ _ hne.symm).trans (getGroup_enterPending _ _ _), getGroup_enterSlice _ _ _ _, rfl⟩

end Sys2Proof.Machine
end

section
/-! PROOFS. Ends of teams and grids, overruns, splits (R60, R61, R66, R67, R424). Ending a team takes no time: every part of it keeps the
cycle. -/

open Sys2Proof Sys2Proof.Machine

namespace Sys2Proof.Machine

/-! ### What ending a team leaves of the cycle (R465) -/

theorem MemOnly.cycle {s t : State} (h : MemOnly s t) : t.cycle = s.cycle := by rw [h.rest]

theorem leaveCopies_cycle (s : State) (core gid : Nat) : (leaveCopies s core gid).cycle = s.cycle := rfl

theorem dropWindows_memOnly (spare : Bool) (s : State) (tid : Nat) : MemOnly s (dropWindows spare s tid) :=
  (MemOnly.foldl (f := fun s (w : Window) => windowFlush spare s w.core w.index)
    (fun s w => windowFlush_memOnly spare s w.core w.index) _ s).setMem _

theorem reachKept_memOnly (s : State) (part : Nat) (l : Leaf) (pa : Nat) : MemOnly s (reachKept s part l pa) :=
  rekeyFrame_memOnly s _ _

theorem codecStore_memOnly (s : State) (crown pa : Nat) (b : List Byte) (tag : BitVec 16) :
    MemOnly s (codecStore s crown pa b tag).1 := by
  unfold codecStore
  extract_lets line
  split
  · exact noteLost_memOnly s _
  · have hline := homeLine_memOnly s line
    generalize homeLine s line = read at hline ⊢
    dsimp only
    split
    · exact hline
    · exact hline.trans (putLine_memOnly _ _ _ _ _ _)

theorem physStamp_memOnly (s : State) (crown part ctx : Nat) (p : Phys) (word : Nat) :
    MemOnly s (physStamp s crown part ctx p word) := by
  have hkept := reachKept_memOnly s part p.leaf p.pa
  have hstore := hkept.trans (codecStore_memOnly _ crown p.pa (leBytes 8 word) (BitVec.ofNat 16 (part * 1024 + ctx)))
  unfold physStamp
  dsimp only
  split
  · split
    · exact hstore
    · exact hstore.trans (noteLost_memOnly _ _)
  · exact hkept.trans (physWrite_memOnly _ _ _ _ _)

theorem stampEntry_memOnly (s : State) (core : Nat) (e : Entry) (status : BitVec 16) : MemOnly s (stampEntry s core e status) :=
  claim_memOnly (physStamp_memOnly s _ _ _ _ _) _ _ _

theorem noteEntry_cycle (s0 : State) (core : Nat) (q : Queue) (id : Nat) (s : State) : (noteEntry s0 core q id s).cycle = s.cycle := by
  unfold noteEntry
  dsimp only
  split <;> rfl

theorem takeSnaps_cycle (s : State) (core : Nat) : (takeSnaps s core).cycle = s.cycle :=
  foldl_read_other (read := State.cycle)
    (f := fun s e => setCore (takeSnap s core e).1 core { getCore (takeSnap s core e).1 core with
      sto := (getCore (takeSnap s core e).1 core).sto.map fun x => if x.id == e.id then (takeSnap s core e).2 else x })
    (fun s e _ => (takeSnap_memOnly s core e).cycle) s

theorem wakeSlots_cycle (s : State) (core : Nat) : (wakeSlots s core).cycle = s.cycle := takeSnaps_cycle s core

theorem drainDone_cycle (core : Nat) (q : Queue) (l : List Entry) (s : State) : (drainDone core q l s).1.cycle = s.cycle := by
  induction l generalizing s with
  | nil => rfl
  | cons e r ih =>
    unfold drainDone
    split
    · rw [ih, noteEntry_cycle, (stampEntry_memOnly s core e _).cycle]
    · rfl

theorem drainQueue_cycle (s : State) (core : Nat) (q : Queue) : (drainQueue s core q).cycle = s.cycle := by
  unfold drainQueue
  dsimp only
  split
  · exact drainDone_cycle core q _ s
  · rw [wakeSlots_cycle, setCore_cycle, drainDone_cycle]

theorem cancelCore_cycle (mine : Entry → Bool) (mineM : MatEntry → Bool) (mineR : RingEntry → Bool) (s : State) (k : Nat) :
    (cancelCore mine mineM mineR s k).cycle = s.cycle :=
  (foldl_read_other (read := State.cycle) (fun s q _ => drainQueue_cycle s k q) _).trans (setCore_cycle s k _)

theorem removeTeam_cycle (s : State) (tid : Nat) : (removeTeam s tid).cycle = s.cycle := by
  unfold removeTeam
  split
  · rfl
  · dsimp only
    split
    · split <;> rfl
    · rfl

theorem endTeam_cycle (s : State) (tid cls : Nat) : (endTeam s tid cls).cycle = s.cycle := by
  unfold endTeam
  split
  · rfl
  split
  · rfl
  dsimp only
  rw [record_cycle, removeTeam_cycle, cancelCore_cycle, (pushDirty_memOnly _ _ _).cycle, (dropWindows_memOnly _ _ _).cycle]
  exact foldl_read_other (read := State.cycle) (fun s gid _ => leaveCopies_cycle s _ gid) s

/-! ### The outcome of a launch (R424) -/

theorem befall_overruns (g : Grid) (time team : Nat) (st : BitVec 16) : (g.befall time team st).overruns = g.overruns := by
  unfold Grid.befall
  split
  · split <;> rfl
  · rfl

/-- The first overrun of a launch without an outcome decides it. -/
theorem befall_ending_of_none {g : Grid} (h : g.outcome = none) (time team : Nat) :
    (g.befall time team (statusOf 3 0)).ending = some (statusOf 3 g.overruns) := by
  have hcode : (statusOf 3 0).toNat / 4096 = 3 := by decide
  simp only [Grid.befall, h, Grid.ending, Option.map_some, hcode, if_true]

/-- What befell a launch before stands. -/
theorem befall_outcome_of_earlier {g : Grid} {o : Nat × Nat × BitVec 16} (h : g.outcome = some o) {time : Nat} (hearlier : o.1 < time)
    (team : Nat) (st : BitVec 16) : (g.befall time team st).outcome = g.outcome := by
  have hnot : ¬(time < o.1 ∨ (time = o.1 ∧ team < o.2.1)) := by omega
  simp only [Grid.befall, h, hnot, if_false]

/-! ### Each instruction -/

theorem teamEnd_ends {s : State} {tid : Nat} {t : Team} {g : Grid} (ht : getTeam s tid = some t) (hdone : teamDone s tid t = true)
    (hg : tget (removeTeam (dropWindows false s tid) tid).grids t.grid = some g) :
    execTeamEnd tid s = .next { removeTeam (dropWindows false s tid) tid with
      grids := tset (removeTeam (dropWindows false s tid) tid).grids t.grid { g with endedTeams := g.endedTeams + 1 } } := by
  simp only [execTeamEnd, ht, hdone, Bool.not_true, Bool.false_eq_true, if_false, hg]

theorem budgetOverrun_ends {s : State} {tid : Nat} {t : Team} {g l : Grid} (ht : getTeam s tid = some t)
    (hg : tget s.grids t.grid = some g) (htimed : g.deadline.isSome = true) (hused : t.placedAt + field g.block 0x70 4 ≤ s.cycle)
    (hl : tget (endTeam s tid 16).grids g.lead = some l) :
    execBudgetOverrun tid s = .next { endTeam s tid 16 with
      grids := tset (endTeam s tid 16).grids g.lead
        (Grid.befall { l with overruns := l.overruns + 1 } (timeOf s) t.index (statusOf 3 0)) } := by
  have htime : timeOf (endTeam s tid 16) = timeOf s := by rw [timeOf, endTeam_cycle, timeOf]
  simp only [execBudgetOverrun, ht, hg, htimed, hused, decide_true, Bool.and_self, if_true, hl, htime]

theorem splitReconfigure_forms {s : State} {core : Nat} {sp : Split} (hdrain : (getCore s core).drain = some sp)
    (hempty : coreEmpty s core = true) :
    ∃ u, execSplitReconfigure core s = .next (setCore u core { getCore s core with
      split := sp, drain := none, reconf := some (s.cycle + 4200) }) := by
  have hevict := MemOnly.foldl (f := fun s σ => evict s core σ) (fun s σ => evict_memOnly s core σ)
    ((s.mem.copies.filter fun x => x.agent == core).map (·.sector)) s
  simp only [execSplitReconfigure, hdrain, hempty, Bool.not_true, Bool.false_eq_true, if_false, hevict.getCore, hevict.cycle]
  exact ⟨_, rfl⟩

/-- Settles O44: each instruction's condition holds, and ending a team keeps the clock by which the overrun is dated. -/
theorem endsAndSplits : Obligations.EndsAndSplits := by
  unfold Obligations.EndsAndSplits
  refine ⟨fun s tid t g ht hdone hg => ⟨_, rfl, teamEnd_ends ht hdone hg⟩, ?grid, ?budget, ?drain, ?split⟩
  case grid =>
    intro s gid g hg hdone
    show execGridEnd gid s = _
    simp only [execGridEnd, hg, hdone, if_true]
  case budget =>
    intro s tid t g l ht hg htimed hused hl
    exact ⟨_, _, rfl, budgetOverrun_ends ht hg htimed hused hl, befall_overruns _ _ _ _,
      fun hnone => befall_ending_of_none (g := { l with overruns := l.overruns + 1 }) hnone _ _,
      fun o ho hearlier => befall_outcome_of_earlier (g := { l with overruns := l.overruns + 1 }) ho hearlier _ _⟩
  case drain =>
    intro s core gid g hg hok
    show execSplitDrain core gid s = _
    simp only [execSplitDrain, hg, hok, if_true]
  case split =>
    intro s core sp hdrain hempty
    obtain ⟨u, hrun⟩ := splitReconfigure_forms hdrain hempty
    exact ⟨_, hrun, by rw [getCore_setCore], by rw [getCore_setCore], by rw [getCore_setCore]⟩

end Sys2Proof.Machine
end

section
/-! PROOFS. Divergence, the end of a group, YIELD and SETFMT (R57–R60, R150, R153–R155, R169). -/

open Sys2Proof Sys2Proof.Machine

namespace Sys2Proof.Machine

/-! ### A retired group is gone (R155) -/

theorem tget_tdel_same {α : Type} (t : Tab α) (k : Nat) : tget (tdel t k) k = none := by
  have hout : ¬(tget (tdel t k) k).isSome = true := by
    rw [tget_isSome_iff]
    simp [tdel]
  simpa using hout

theorem getGroup_leaveWait_absent {s : State} {gid : Nat} (h : getGroup s gid = none) (k : Nat) :
    getGroup (leaveWait s k) gid = none := by
  by_cases hk : k = gid
  · subst hk
    simp only [leaveWait, h]
  · exact (leaveWait_departs.other s k gid fun he => hk he.symm).trans h

theorem getGroup_foldl_leaveWait_absent {gid : Nat} (l : List Nat) {s : State} (h : getGroup s gid = none) :
    getGroup (l.foldl (fun s k => leaveWait s k) s) gid = none := by
  induction l generalizing s with
  | nil => exact h
  | cons k r ih => exact ih (getGroup_leaveWait_absent h k)

/-- A barrier that completes moves resident groups alone. -/
theorem getGroup_settleBarrier_absent {s : State} {gid : Nat} (h : getGroup s gid = none) (tid key : Nat) :
    getGroup (settleBarrier s tid key) gid = none := by
  unfold settleBarrier
  split
  · exact h
  · split
    · exact (getGroup_acquireAt_team _ _ _ _).trans (getGroup_foldl_leaveWait_absent _ h)
    · exact h

theorem getGroup_foldl_settleBarrier_absent {gid : Nat} (tid : Nat) (l : List Nat) {s : State} (h : getGroup s gid = none) :
    getGroup (l.foldl (fun s k => settleBarrier s tid k) s) gid = none := by
  induction l generalizing s with
  | nil => exact h
  | cons k r ih => exact ih (getGroup_settleBarrier_absent h tid k)

theorem getGroup_leaveBarriers_absent {s : State} {gid : Nat} (h : getGroup s gid = none) (tid k : Nat) :
    getGroup (leaveBarriers s tid k) gid = none := by
  unfold leaveBarriers
  split
  · exact h
  · exact getGroup_foldl_settleBarrier_absent tid _ h

theorem getGroup_retireGroup (s : State) (gid : Nat) : getGroup (retireGroup s gid) gid = none := by
  unfold retireGroup
  split
  · assumption
  · next g _ =>
    dsimp only
    rw [getGroup_freezeBins]
    have hgone : getGroup { leaveCore s gid g with groups := tdel (leaveCore s gid g).groups gid } gid = none := tget_tdel_same _ _
    refine getGroup_leaveBarriers_absent ?_ g.team gid
    split
    · exact hgone
    · exact hgone

/-! ### Each instruction's end -/

theorem setGroup_occupy_issued (s : State) (gid : Nat) (o x : Group) (n : Nat) :
    setGroup (occupy (setGroup s gid o) o n) gid x = setGroup (occupy s o n) gid x := by
  rw [occupy_issued, setGroup_setGroup]

section
variable {s : State} {gid : Nat} {g : Group} {h : Hdr} (hi : Issuing s gid g h)
include hi

theorem dvg_reconverges {p : BitVec 3} {neg : Bool} (off : BitVec 24) (hroom : (openIssue s g h).stack.length < 32)
    (hnone : dvgLanes (openIssue s g h) h p neg s.cycle = []) :
    execDvg h p neg off s = Ends s gid (openIssue s g h) (beatsOf (openIssue s g h) h .w32 s.cycle)
      { openIssue s g h with pc := (openIssue s g h).pc + off.signExtend 64 * 8 } := by
  rw [execDvg, issue_runs _ _ hi, if_neg (Nat.not_le.mpr hroom)]
  simp only [setGroup_cycle, hnone, List.isEmpty_nil, if_true, jump_eq]
  rfl

theorem dvg_diverges {p : BitVec 3} {neg : Bool} (off : BitVec 24) (hroom : (openIssue s g h).stack.length < 32)
    (hsome : dvgLanes (openIssue s g h) h p neg s.cycle ≠ []) :
    execDvg h p neg off s = Ends s gid (openIssue s g h) (beatsOf (openIssue s g h) h .w32 s.cycle)
      (advance { openIssue s g h with
        stack := ⟨(openIssue s g h).pc + off.signExtend 64 * 8, (openIssue s g h).mask, (openIssue s g h).fmt⟩ ::
          (openIssue s g h).stack
        mask := maskOf (dvgLanes (openIssue s g h) h p neg s.cycle) } (instrLen h false)) := by
  rw [execDvg, issue_runs _ _ hi, if_neg (Nat.not_le.mpr hroom)]
  simp only [setGroup_cycle, List.isEmpty_iff, hsome, if_false]
  exact congrArg Host.Outcome.next (finish_issued s gid (o := openIssue s g h) _ _ rfl rfl)

theorem dvg_overflows {p : BitVec 3} {neg : Bool} (off : BitVec 24) (hfull : 32 ≤ (openIssue s g h).stack.length) :
    execDvg h p neg off s = .next (raiseStack (setGroup s gid (openIssue s g h)) gid (openIssue s g h) (instrLen h false)) := by
  rw [execDvg, issue_runs _ _ hi, if_pos hfull]

theorem cvg_pops (hstack : (openIssue s g h).stack ≠ []) :
    execCvg h s = Ends s gid (openIssue s g h) (beatsOf (openIssue s g h) h .w32 s.cycle)
      (clearActive (popFrames (openIssue s g h) (openIssue s g h).stack)) := by
  rw [execCvg, issue_runs _ _ hi, if_neg (by simpa using hstack), setGroup_cycle, occupy_issued, setGroup_setGroup]
  rfl

theorem cvg_overflows (hempty : (openIssue s g h).stack = []) :
    execCvg h s = .next (raiseStack (setGroup s gid (openIssue s g h)) gid (openIssue s g h) (instrLen h false)) := by
  rw [execCvg, issue_runs _ _ hi, if_pos (by simpa using hempty)]

/-- What EXIT leaves of a group whose lanes `out` end (R155). -/
def exited (o : Group) (out : Word) : Group :=
  { o with
    live := o.live &&& ~~~out
    mask := o.mask &&& ~~~out
    stack := o.stack.map fun e => ⟨e.pc, e.mask &&& ~~~out, e.fmt⟩ }

theorem exit_runs :
    execExit h s = .next
      (let o := openIssue s g h
       let part := takingPart o h .w32 s.cycle
       let e := exited o (maskOf part)
       let s1 := occupy (setGroup s gid o) o (beatCount .w32 part)
       if e.live = 0 then retireGroup (setGroup s1 gid e) gid
       else if e.mask = 0 ∧ !e.stack.isEmpty then setGroup s1 gid (clearActive (popFrames e e.stack))
       else setGroup s1 gid (advance e (instrLen h false))) := by
  rw [execExit, issue_runs _ _ hi]
  rfl

theorem yield_ends :
    execYield h s = Ends s gid (openIssue s g h) (beatsOf (openIssue s g h) h .w32 s.cycle)
      { advance (openIssue s g h) (instrLen h false) with
        slice := none, pendSince := s.cycle, readySince := s.cycle, lastStall := s.cycle } := by
  rw [execYield, issue_runs _ _ hi, setGroup_cycle, occupy_issued, setGroup_setGroup]
  rfl

theorem setfmtWith_runs (srcs : List (Src × Bool)) (val : Group → Nat → Nat → Word)
    (hsrcs : (srcs.all fun x => srcInRole (roleOf s g) x.2 x.1) = true) :
    let o := openIssue s g h
    let lane : Option Nat := if h.uni then (if uniGuard o h s.cycle then some 0 else none) else (takingPart o h .w32 s.cycle).head?
    (lane = none → setfmtWith s h srcs val = Ends s gid o 1 (advance o (instrLen h false))) ∧
    (∀ i, lane = some i →
      (fmtLegal (val o i s.cycle) = true → setfmtWith s h srcs val =
        Ends s gid o (beatsOf o h .w32 s.cycle) (advance { o with fmt := val o i s.cycle } (instrLen h false))) ∧
      (fmtLegal (val o i s.cycle) = false → setfmtWith s h srcs val =
        .next (raiseIllegal (setGroup s gid o) gid o (instrLen h false)))) := by
  intro o lane
  rw [setfmtWith, issue_runs _ _ hi]
  simp only [roleOf_setGroup, roleOf_openIssue, hsrcs, Bool.not_true, Bool.false_eq_true, if_false, setGroup_cycle]
  refine ⟨fun hnone => ?_, fun i hsome => ⟨fun hlegal => ?_, fun hbad => ?_⟩⟩
  all_goals
    change Host.Outcome.next (match lane with | none => _ | some i => _) = _
  · rw [hnone]
    exact congrArg Host.Outcome.next (finish_eq _ _ _ _ _ _)
  · rw [hsome]
    exact congrArg Host.Outcome.next ((if_pos hlegal).trans (finish_issued s gid (o := openIssue s g h) _ _ rfl rfl))
  · rw [hsome]
    exact congrArg Host.Outcome.next (if_neg (Bool.eq_false_iff.mp hbad))

end

/-- The lane in which SETFMT reads its value: none when the instruction does not run. -/
theorem setfmtLane_iff (uni guard : Bool) (part : List Nat) :
    ((if uni then guard else !part.isEmpty) = false →
      (if uni then (if guard then some 0 else none) else part.head? : Option Nat) = none) ∧
    ((if uni then guard else !part.isEmpty) = true →
      ∃ i, (if uni then (if guard then some 0 else none) else part.head? : Option Nat) = some i) := by
  cases uni <;> cases guard <;> cases part <;> simp

/-- Settles O13: where each branch of the four instructions of control leaves the group; SETFMT's two forms share one meaning. -/
theorem divergenceAndExit : Obligations.DivergenceAndExit := by
  unfold Obligations.DivergenceAndExit
  refine ⟨?dvg, ?cvg, ?exit, fun h s gid g hi => yield_ends hi, ?imm, ?reg⟩
  case dvg =>
    exact fun h p neg off s gid g hi => ⟨fun hroom hnone => dvg_reconverges hi off hroom hnone,
      fun hroom hsome => dvg_diverges hi off hroom hsome, fun hfull => dvg_overflows hi off hfull⟩
  case cvg => exact fun h s gid g hi => ⟨fun hstack => cvg_pops hi hstack, fun hempty => cvg_overflows hi hempty⟩
  case exit =>
    intro h s gid g hi out e
    refine ⟨fun hdead => ⟨_, exit_runs hi, ?_⟩, fun hlive hmask hstack => ?_, fun hlive hgoes => ?_⟩
    · exact (congrArg (getGroup · gid) (if_pos hdead)).trans (getGroup_retireGroup _ _)
    · refine (exit_runs hi).trans (congrArg Host.Outcome.next ?_)
      have hpops : (e).mask = 0 ∧ (!(e).stack.isEmpty) = true := ⟨hmask, by simpa [e] using hstack⟩
      exact (if_neg hlive).trans ((if_pos hpops).trans (setGroup_occupy_issued _ _ _ _ _))
    · refine (exit_runs hi).trans (congrArg Host.Outcome.next ?_)
      have hstays : ¬((e).mask = 0 ∧ (!(e).stack.isEmpty) = true) := fun hpops =>
        hgoes.elim (fun hmask => hmask hpops.1) fun hempty => absurd hpops.2 (by simp only [e, hempty]; exact Bool.false_ne_true)
      exact (if_neg hlive).trans ((if_neg hstays).trans (setGroup_occupy_issued _ _ _ _ _))
  case imm =>
    intro h imm s gid g hi v runs
    obtain ⟨hidle, hacts⟩ := setfmtWith_runs hi [] (fun _ _ _ => BitVec.ofNat 32 (imm.toNat * 256)) rfl
    obtain ⟨hnone, hsome⟩ := setfmtLane_iff h.uni (uniGuard (openIssue s g h) h s.cycle)
      (takingPart (openIssue s g h) h .w32 s.cycle)
    refine ⟨fun hruns => hidle (hnone hruns), fun hruns hlegal => ?_, fun hruns hbad => ?_⟩
    · obtain ⟨i, hlane⟩ := hsome hruns
      exact (hacts i hlane).1 hlegal
    · obtain ⟨i, hlane⟩ := hsome hruns
      exact (hacts i hlane).2 hbad
  case reg =>
    intro h a s gid g hi ha
    exact setfmtWith_runs hi [(a, false)] (fun g i t => BitVec.ofNat 32 (readSrc g h i t 32 a)) (by simpa using ha)

end Sys2Proof.Machine
end

section
/-! PROOFS. Loads and stores (R284, R290–R295): per-lane accesses share the fetch of their record and the checks before the access
itself. -/

open Sys2Proof Sys2Proof.Machine

namespace Sys2Proof.Machine

/-! ### What comes before a per-lane access under a record (R113, R217, R284, R337) -/

/-- A per-lane load or store: its operands and record, its addresses, then the access itself. -/
def recordAccess (x : MemOp) (spad store : Bool) (access : State → Nat → Group → Rec → List Nat → LaneLocs → State) (s : State)
    (gid : Nat) (g : Group) : State :=
  let len := instrLen x.h false
  let regs := (roleOf s g).regs
  let data := x.data.toNat
  if data ≥ regs ∨ 2 * x.addr.toNat + (if spad then 0 else 1) ≥ regs then raiseIllegal s gid g len
  else
    let part := takingPart g x.h .w32 s.cycle
    let (s, fr) := fetchRecord s g x.rcd.toNat (maskOf part)
    match fr with
    | .error t => if part.isEmpty then finish s gid g 1 len else takeTrouble (occupy s g (beatCount .w32 part)) gid g len t
    | .ok r =>
      if data + r.regs > regs ∧ r.enc ≤ 4 then raiseIllegal s gid g len
      else if part.isEmpty then finish s gid g 1 len
      else
        let s := occupy s g (beatCount .w32 part)
        if !r.usable store spad then raise s gid g len (badRecord part)
        else
          let locs := laneLocs g x.addr x.off spad part s.cycle
          let out := beyondAlloc s g.team locs r.span
          if !out.isEmpty then raise s gid g len (boundsRaise out) else access s gid g r part locs

/-- The access of a load, once its addresses are known. -/
def loadAccess (x : MemOp) (rt : Option Rt) (s : State) (gid : Nat) (g : Group) (r : Rec) (part : List Nat) (locs : LaneLocs) :
    State :=
  let nums := locs.map (numLoc s (whoOf s g))
  let (s, got) := loadRuns s g rt x.ord.isAcq (scLoad g x.ord x.scp) x.rcd.toNat r nums
  match got with
  | .error t => takeTrouble s gid g (instrLen x.h false) t
  | .ok (runs, secs) =>
    let g' := noteLoad (runs.foldl (writeRun x.h s.cycle part x.data.toNat r.regs) g) secs
    loadAcquire g x.ord x.scp (setGroup s gid (advance g' (instrLen x.h false)))

/-- The access of a store, once its addresses are known. -/
def storeAccess (x : MemOp) (rt : Option Rt) (s : State) (gid : Nat) (g : Group) (r : Rec) (part : List Nat) (locs : LaneLocs) :
    State :=
  let runs := part.map fun i => (i, packElems 32 ((List.range r.regs).map fun k =>
    readPlace g (.v (x.data.toNat + k)) i false (s.cycle + beatOffset .w32 part i)))
  storeRuns s gid g (instrLen x.h false) x rt r part runs (locs.map (numLoc s (whoOf s g)))

theorem loadOp_eq (s : State) (x : MemOp) (rt : Option Rt) (spad : Bool) :
    loadOp s x rt spad = issue s x.h false (recordAccess x spad false (loadAccess x rt)) := rfl

theorem storeOp_eq (s : State) (x : MemOp) (rt : Option Rt) (spad : Bool) :
    storeOp s x rt spad = issue s x.h false (recordAccess x spad true (storeAccess x rt)) := rfl

section
variable {x : MemOp} {spad store : Bool} {access : State → Nat → Group → Rec → List Nat → LaneLocs → State} {s s1 : State} {gid : Nat}
  {g : Group} {r : Rec}
  (hdata : x.data.toNat < (roleOf s g).regs) (haddr : 2 * x.addr.toNat + (if spad then 0 else 1) < (roleOf s g).regs)
  (hfetch : fetchRecord s g x.rcd.toNat (maskOf (takingPart g x.h .w32 s.cycle)) = (s1, .ok r))
  (hregs : x.data.toNat + r.regs ≤ (roleOf s g).regs)
include hdata haddr hfetch hregs

theorem recordAccess_idle (hpart : takingPart g x.h .w32 s.cycle = []) :
    recordAccess x spad store access s gid g = finish s1 gid g 1 (instrLen x.h false) := by
  rw [recordAccess, if_neg (by omega)]
  dsimp only
  rw [hfetch]
  exact (if_neg (by omega)).trans (if_pos (List.isEmpty_iff.mpr hpart))

theorem recordAccess_runs (hpart : takingPart g x.h .w32 s.cycle ≠ []) (husable : r.usable store spad = true) {s2 : State}
    (hs2 : s2 = occupy s1 g (beatCount .w32 (takingPart g x.h .w32 s.cycle)))
    (hbounds : beyondAlloc s2 g.team (laneLocs g x.addr x.off spad (takingPart g x.h .w32 s.cycle) s2.cycle) r.span = []) :
    recordAccess x spad store access s gid g = access s2 gid g r (takingPart g x.h .w32 s.cycle)
      (laneLocs g x.addr x.off spad (takingPart g x.h .w32 s.cycle) s2.cycle) := by
  subst hs2
  rw [recordAccess, if_neg (by omega)]
  dsimp only
  rw [hfetch]
  simp only [hbounds]
  exact (if_neg (by omega)).trans ((if_neg (by simpa using hpart)).trans ((if_neg (by simp [husable])).trans (if_neg (by simp))))

end

/-! ### Loads (R290) -/

theorem OnlyPend.foldl {α : Type} {f : Group → α → Group} (hf : ∀ g a, OnlyPend g (f g a)) (l : List α) (g : Group) :
    OnlyPend g (l.foldl f g) := by
  induction l generalizing g with
  | nil => exact .refl g
  | cons a r ih => exact (hf g a).trans (ih _)

/-- What a lane receives is outstanding results alone. -/
theorem writeRun_onlyPend (h : Hdr) (now : Nat) (part : List Nat) (data n : Nat) (g : Group) (x : Nat × Nat) :
    OnlyPend g (writeRun h now part data n g x) := by
  unfold writeRun
  exact (OnlyPend.foldl (fun g k => writePlace_onlyPend g .variable h.ver false _ _ _ _ nofun) (List.range (n - 1)) g).trans
    (writeLane_onlyPend _ .variable h.ver _ _ _ _ _ nofun)

theorem loadAccess_loads {x : MemOp} {rt : Option Rt} {s s3 : State} {gid : Nat} {g : Group} {r : Rec} {part : List Nat}
    {locs : LaneLocs} {runs : List (Nat × Nat)} {secs : Tab (List Nat)}
    (hload : loadRuns s g rt x.ord.isAcq (scLoad g x.ord x.scp) x.rcd.toNat r (locs.map (numLoc s (whoOf s g))) =
      (s3, .ok (runs, secs))) :
    loadAccess x rt s gid g r part locs = loadAcquire g x.ord x.scp (setGroup s3 gid
      (advance (noteLoad (runs.foldl (writeRun x.h s3.cycle part x.data.toNat r.regs) g) secs) (instrLen x.h false))) := by
  simp only [loadAccess, hload]

theorem loadRuns_of {mk : MemOp → Instr} {rt : Option Rt} {spad : Bool} (hexec : ∀ x s, exec (mk x) s = loadOp s x rt spad) :
    LoadRuns mk rt spad := by
  intro x s gid g hi len part regs hdata haddr s1 r hfetch hregs
  have hrun := (hexec x s).trans ((loadOp_eq s x rt spad).trans (issue_runs _ _ hi))
  have hrole : roleOf s g = roleOf (setGroup s gid (openIssue s g x.h)) (openIssue s g x.h) := by simp
  refine ⟨fun hidle => hrun.trans (congrArg _ ?idle), ?acts⟩
  case idle => exact recordAccess_idle (hrole ▸ hdata) (hrole ▸ haddr) hfetch (hrole ▸ hregs) hidle
  case acts =>
    intro hacts husable s2 locs hbounds s3 runs secs hload
    refine ⟨_, hrun.trans (congrArg _ ?_), rfl, OnlyPend.foldl (fun g y => writeRun_onlyPend _ _ _ _ _ g y) _ _⟩
    exact (recordAccess_runs (hrole ▸ hdata) (hrole ▸ haddr) hfetch (hrole ▸ hregs) hacts husable rfl hbounds).trans
      (loadAccess_loads hload)

/-! ### Uniform loads (R292) -/

theorem whoOf_occupied (s : State) (gid : Nat) (o x g : Group) (n : Nat) :
    whoOf (setGroup (occupy s o n) gid x) g = whoOf s g := by
  simp [whoOf, gridOf, getTeam]

/-- LDU's body, its guard true and its datum read. -/
theorem lduOp_loads {x : LduOp} {rt : Rt} {s s1 : State} {gid : Nat} {g : Group} {m : PageMap} {b : List (List Byte)}
    (hi : Issuing s gid g x.h) (hguard : uniGuard (openIssue s g x.h) x.h s.cycle = true)
    (hread : readChecked (setGroup (occupy s (openIssue s g x.h) 1) gid (openIssue s g x.h)) (whoOf s (openIssue s g x.h)) 15
      x.ord.isAcq (scLoad (openIssue s g x.h) x.ord x.scp)
      [⟨0, .glob (uniAddr (openIssue s g x.h) x.addr x.off s.cycle), lduBytes x.w, some rt, false⟩] = (s1, m, .ok b)) :
    lduOp s x rt = .next (loadAcquire (openIssue s g x.h) x.ord x.scp (setGroup s1 gid
      (advance (noteLoad (writePlace (openIssue s g x.h) .variable x.h.ver true s1.cycle (.s x.data.toNat) 0
          (lduValue x.w (leNat b.flatten)))
        ((liveLanes (openIssue s g x.h)).map fun i => (i, (laneSectors s1 (whoOf s1 (openIssue s g x.h)) m
          (piecesOf s1 (whoOf s1 (openIssue s g x.h))
            ⟨0, .glob (uniAddr (openIssue s g x.h) x.addr x.off s.cycle), lduBytes x.w, some rt, false⟩)).flatMap (·.2))))
        (instrLen x.h false)))) := by
  rw [lduOp, issue_runs _ _ hi]
  refine congrArg Host.Outcome.next ((if_neg (by simp [hguard])).trans ?_)
  simp only [occupy_issued, setGroup_cycle, occupy_cycle, whoOf_occupied, hread, List.flatMap_singleton]

theorem lduRuns_of {mk : LduOp → Instr} {rt : Rt} (hexec : ∀ x s, exec (mk x) s = lduOp s x rt) : UniformLoadRuns mk rt := by
  intro x s gid g hi len item
  have hrun := (hexec x s).trans (issue_runs _ _ hi)
  refine ⟨fun hfalse => hrun.trans (congrArg _ ((if_pos (by simp [hfalse])).trans (finish_eq _ _ _ _ _ _))), ?reads⟩
  case reads =>
    intro hguard s1 m b hread secs
    refine ⟨_, (hexec x s).trans (lduOp_loads hi hguard hread), writePlace_onlyPend _ _ _ _ _ _ _ _ nofun,
      writePlace_newest _ _ _ _ _ _ _ _ nofun, fun p lane hout => writePlace_newest_other _ _ _ _ _ _ _ _ _ _ nofun fun hsame => ?_⟩
    obtain ⟨rfl, rfl⟩ := hsame
    exact hout (by simp) (by simp)

/-- Settles O15: the five per-lane forms are one load with its type, the four uniform ones another. -/
theorem loadsComplete : Obligations.LoadsComplete := by
  unfold Obligations.LoadsComplete
  exact ⟨loadRuns_of fun _ _ => rfl, loadRuns_of fun _ _ => rfl, loadRuns_of fun _ _ => rfl, loadRuns_of fun _ _ => rfl,
    loadRuns_of fun _ _ => rfl, lduRuns_of fun _ _ => rfl, lduRuns_of fun _ _ => rfl, lduRuns_of fun _ _ => rfl,
    lduRuns_of fun _ _ => rfl⟩

/-! ### Stores (R291, R339) -/

/-- The scales that a store loads are remembered for a later FENCE; what it releases and writes is not their concern. -/
theorem storeReleases_noteLoad (g : Group) (l : Tab (List Nat)) (ord : Order) (scp : Scope) (lanes : List Nat) :
    storeReleases (noteLoad g l) ord scp lanes = storeReleases g ord scp lanes := rfl

theorem storeLanes_noteLoad (r : Rec) (g : Group) (l : Tab (List Nat)) (rt : Option Rt) :
    storeLanes r (noteLoad g l) rt = storeLanes r g rt := rfl

theorem scStore_noteLoad (g : Group) (l : Tab (List Nat)) (ord : Order) (scp : Scope) :
    scStore (noteLoad g l) ord scp = scStore g ord scp := rfl

theorem storeAccess_stores {x : MemOp} {rt : Option Rt} {s s3 s4 s5 : State} {gid : Nat} {g : Group} {r : Rec} {part : List Nat}
    {locs : LaneLocs} {runs : List (Nat × Nat)} {nums : NumLocs} {scales : List (List Item)} {split : List (List Item)}
    {dest : List Item} {kw kr : Checked} {bytes : List (List Byte)} {what : List (Item × List Byte) × Cells 32} {o1 : Group}
    (hruns : runs = part.map fun i => (i, packElems 32 ((List.range r.regs).map fun k =>
      readPlace g (.v (x.data.toNat + k)) i false (s.cycle + beatOffset .w32 part i))))
    (hnums : nums = locs.map (numLoc s (whoOf s g))) (hscales : scales = nums.map (scaleItems r))
    (hsplit : split = scales.flatten.map (piecesOf s (whoOf s g)))
    (hdest : dest = ((storeLanes r g rt runs (nums.map fun _ => []) nums).1.map (·.1)).flatMap (piecesOf s (whoOf s g)))
    (hcheck : checkStore s (whoOf s g) dest split.flatten = (s3, kw, kr, none))
    (hread : readMapped s3 (whoOf s g) kr.map r.rdc false split = (s4, .ok bytes))
    (ho1 : o1 = noteLoad g (laneSectors s4 (whoOf s g) kr.map split.flatten))
    (hwhat : what = storeLanes r g rt runs (chunks (scales.headD []).length nums.length bytes) nums)
    (hwrite : writeMapped s4 (whoOf s g) kw.map (storeReleases g x.ord x.scp part) (splitWrites s4 (whoOf s g) what.1) =
      (s5, .done)) :
    storeAccess x rt s gid g r part locs = scStore g x.ord x.scp
      (setGroup s5 gid (advance (payOwed { o1 with rng := what.2 } part) (instrLen x.h false))) := by
  subst hruns hnums hscales hsplit hdest ho1 hwhat
  simp only [storeAccess, storeRuns, hcheck, hread, storeReleases_noteLoad, storeLanes_noteLoad, scStore_noteLoad, hwrite]

theorem storeRuns_of {mk : MemOp → Instr} {rt : Option Rt} {spad : Bool} (hexec : ∀ x s, exec (mk x) s = storeOp s x rt spad) :
    StoreRuns mk rt spad := by
  intro x s gid g hi len part regs hdata haddr s1 r hfetch hregs
  have hrun := (hexec x s).trans ((storeOp_eq s x rt spad).trans (issue_runs _ _ hi))
  have hrole : roleOf s g = roleOf (setGroup s gid (openIssue s g x.h)) (openIssue s g x.h) := by simp
  refine ⟨fun hidle => hrun.trans (congrArg _ ?idle), ?acts⟩
  case idle => exact recordAccess_idle (hrole ▸ hdata) (hrole ▸ haddr) hfetch (hrole ▸ hregs) hidle
  case acts =>
    intro hacts husable s2 w locs hbounds runs nums scales split dest s3 kw kr hcheck s4 bytes hread o1 what s5 hwrite
    refine hrun.trans (congrArg _ ?_)
    exact (recordAccess_runs (hrole ▸ hdata) (hrole ▸ haddr) hfetch (hrole ▸ hregs) hacts husable rfl hbounds).trans
      (storeAccess_stores rfl rfl rfl rfl rfl hcheck hread rfl rfl hwrite)

/-- Settles O16: the five forms are one store with its type. -/
theorem storesComplete : Obligations.StoresComplete := by
  unfold Obligations.StoresComplete
  exact ⟨storeRuns_of fun _ _ => rfl, storeRuns_of fun _ _ => rfl, storeRuns_of fun _ _ => rfl, storeRuns_of fun _ _ => rfl,
    storeRuns_of fun _ _ => rfl⟩

end Sys2Proof.Machine
end

section
/-! PROOFS. Window instructions and cache maintenance (R301–R310): once-per-group instructions of the uniform side. -/

open Sys2Proof Sys2Proof.Machine

namespace Sys2Proof.Machine

/-! ### Once-per-group instructions of the uniform side (R34, R282) -/

/-- The uniform registers that a body names, written. -/
def uniWritten (o : Group) (h : Hdr) (now : Nat) (l : List (Nat × Nat)) : Group :=
  l.foldl (fun g x => writePlace g .variable h.ver true now (.s x.1) 0 x.2) o

theorem uniWritten_onlyPend (o : Group) (h : Hdr) (now : Nat) (l : List (Nat × Nat)) : OnlyPend o (uniWritten o h now l) :=
  OnlyPend.foldl (fun g _ => writePlace_onlyPend g .variable h.ver true now _ _ _ nofun) l o

theorem newestAt_uniWritten (o : Group) (h : Hdr) (now n v : Nat) :
    newestAt (uniWritten o h now [(n, v)]) (.s n) 0 = (v, none, none) := writePlace_newest _ .variable _ _ _ _ _ _ nofun

theorem keptBut_uniWritten (o : Group) (h : Hdr) (now n v : Nat) : KeptBut o (uniWritten o h now [(n, v)]) [0] [.s n] :=
  fun p lane hout => writePlace_newest_other _ .variable _ _ _ _ _ _ _ _ nofun fun hsame => by
    obtain ⟨rfl, rfl⟩ := hsame
    exact hout (by simp) (by simp)

section
variable {s : State} {gid : Nat} {g : Group} {h : Hdr} (hi : Issuing s gid g h)
  (body : State → Nat → Group → State × Option (List (Nat × Nat)))
include hi

theorem uniformOp_idle (hfalse : uniGuard (openIssue s g h) h s.cycle = false) :
    uniformOp s h body = Ends s gid (openIssue s g h) 1 (advance (openIssue s g h) (instrLen h false)) := by
  rw [uniformOp, issue_runs _ _ hi]
  exact congrArg Host.Outcome.next ((if_pos (by simp [hfalse])).trans (finish_eq _ _ _ _ _ _))

theorem uniformOp_acts (htrue : uniGuard (openIssue s g h) h s.cycle = true) {s1 : State} {l : List (Nat × Nat)}
    (hbody : body (setGroup (occupy s (openIssue s g h) 1) gid (openIssue s g h)) gid (openIssue s g h) = (s1, some l)) :
    uniformOp s h body =
      .next (setGroup s1 gid (advance (uniWritten (openIssue s g h) h s1.cycle l) (instrLen h false))) := by
  rw [uniformOp, issue_runs _ _ hi]
  refine congrArg Host.Outcome.next ((if_neg (by simp [htrue])).trans ?_)
  simp only [occupy_issued, hbody]
  rfl

end

theorem uniformRuns_of {i : Instr} {h : Hdr} {body : State → Nat → Group → State × Option (List (Nat × Nat))}
    (hexec : ∀ s, exec i s = uniformOp s h body) : UniformRuns i h body := by
  intro s gid g hi len
  refine ⟨fun hfalse => (hexec s).trans (uniformOp_idle hi body hfalse), fun htrue s1 l hbody =>
    ⟨_, (hexec s).trans (uniformOp_acts hi body htrue hbody), uniWritten_onlyPend _ _ _ _, ?_, ?_⟩⟩
  · rintro n v rfl
    exact ⟨newestAt_uniWritten _ _ _ _ _, keptBut_uniWritten _ _ _ _ _⟩
  · rintro rfl
    rfl

/-! ### A range whose pages all translate -/

/-- What is gathered of the pages that do not translate is nothing when all do. -/
theorem filterMap_ok_eq_nil {β : Type} {m : PageMap} {f : Nat × Except XErr Leaf → Option β} (hok : ∀ e ∈ m, ∃ l, e.2 = .ok l)
    (hf : ∀ va l, f (va, .ok l) = none) : m.filterMap f = [] :=
  List.filterMap_eq_nil_iff.mpr fun e he => by
    obtain ⟨l, hl⟩ := hok e he
    rw [show e = (e.1, .ok l) from Prod.ext rfl hl, hf]

theorem walkLost_eq_none {m : PageMap} (hok : ∀ e ∈ m, ∃ l, e.2 = .ok l) : walkLost m = none :=
  List.findSome?_eq_none_iff.mpr fun e he => by
    obtain ⟨l, hl⟩ := hok e he
    rw [hl]

/-! ### CLEAN and INVAL (R309, R310) -/

/-- One of the team's windows written back, and its clean words dropped by INVAL. -/
def cleanWindow (drop : Bool) (s : State) (b : Window) : State :=
  let s := windowFlush false s b.core b.index
  if drop then
    match windowOf s b.core b.index with
    | some b => putWindow s (windowClearClean b)
    | none => s
  else s

section
variable {s : State} {gid : Nat} {g : Group} {x : MaintOp} (drop : Bool) (hi : Issuing s gid g x.h)
  (htrue : uniGuard (openIssue s g x.h) x.h s.cycle = true)
include hi htrue

theorem maintOp_empty (hzero : readPlace (openIssue s g x.h) (.s (x.addr.toNat + 1)) 0 true s.cycle = 0) :
    maintOp s x drop = Ends s gid (openIssue s g x.h) 1 (advance (openIssue s g x.h) (instrLen x.h false)) := by
  rw [maintOp, uniformOp_acts hi _ htrue (if_pos (by simpa using hzero)), setGroup_setGroup]
  rfl

theorem maintOp_maintains {s1 : State} {m : PageMap} {lo n : Nat}
    (hn : readPlace (openIssue s g x.h) (.s (x.addr.toNat + 1)) 0 true s.cycle = n) (hnonzero : n ≠ 0)
    (hlo : (uniAddr (openIssue s g x.h) x.addr x.off s.cycle).toNat / 256 * 256 = lo) {hi' : Nat}
    (hhi : ((uniAddr (openIssue s g x.h) x.addr x.off s.cycle).toNat + n + 255) / 256 * 256 = hi')
    (hpages : translatePages (whoOf (setGroup (occupy s (openIssue s g x.h) 1) gid (openIssue s g x.h)) (openIssue s g x.h)) .read
      (pagesOf (BitVec.ofNat 64 lo) (hi' - lo)) (setGroup (occupy s (openIssue s g x.h) 1) gid (openIssue s g x.h)) [] = (s1, m))
    (hok : ∀ e ∈ m, ∃ l, e.2 = .ok l) {s2 : State}
    (hs2 : s2 = maintain s1 (openIssue s g x.h).core x.scp drop (sectorInRange m lo hi')) :
    maintOp s x drop = .next (setGroup ((s2.mem.windows.filter fun b =>
        b.core == (openIssue s g x.h).core && b.team == (openIssue s g x.h).team && overlaps lo (hi' - lo) b.base.toNat b.len).foldl
      (cleanWindow drop) s2) gid (advance (openIssue s g x.h) (instrLen x.h false))) := by
  subst hn hlo hhi hs2
  refine uniformOp_acts hi _ htrue (l := []) ?_
  simp only [setGroup_cycle, occupy_cycle, hnonzero, if_false, hpages, walkLost_eq_none hok]
  refine (if_neg fun hbad => ?_).trans rfl
  rw [filterMap_ok_eq_nil hok fun _ _ => ?_] at hbad
  · cases hbad
  · rfl

end

/-- Settles O19: the two instructions are one operation, which either has nothing to do or passes its checks. -/
theorem cacheMaintenance : Obligations.CacheMaintenance := by
  unfold Obligations.CacheMaintenance
  intro x drop s gid g hi i len base n lo hi' s0
  have hexec : exec i s = maintOp s x drop := by cases drop <;> rfl
  refine ⟨fun hidle => hexec.trans ?idle, ?acts⟩
  case idle =>
    cases hguard : uniGuard (openIssue s g x.h) x.h s.cycle with
    | false => exact uniformOp_idle hi _ hguard
    | true => exact maintOp_empty drop hi hguard (hidle.resolve_left (by simp [hguard]))
  case acts =>
    intro htrue hnonzero s1 m hpages hok s2 mine
    exact hexec.trans (maintOp_maintains drop hi htrue rfl hnonzero rfl rfl hpages hok rfl)

end Sys2Proof.Machine
end

section
/-! PROOFS. Window instructions (R301–R306): WMAP by the checks it passes, the others by their bodies. -/

open Sys2Proof Sys2Proof.Machine

namespace Sys2Proof.Machine

/-! ### WMAP (R235, R303) -/

/-- The binding that WMAP makes of pages found by their leaves. -/
def newWindow (s : State) (g : Group) (m : PageMap) (base : DWord) (so n : Nat) (zero : Bool) (ft : Rt) (scp : Scope) : Window :=
  ⟨g.core, (below 16 fun i => !((s.mem.windows.filter fun w => w.core == g.core).map (·.index)).contains i).headD 0, g.team, so, base,
    n, zero, ft, scp, m.filterMap fun e => match e.2 with | .ok l => some (e.1, l) | .error _ => none,
    if zero then allValid n else [], [], if zero then allValid n else []⟩

/-- A binding put in place: what the core's L1 holds of its range goes home, and its words read as zero where it asks for that. -/
def bindWindow (s : State) (g : Group) (b : Window) (zero : Bool) : State :=
  let s := (windowSpan b).foldl (fun s σ => evict s g.core σ) s
  let s := { s with mem := { s.mem with windows := s.mem.windows ++ [b] } }
  if zero then
    match getTeam s g.team with
    | some t => setTeam s g.team { t with scratch := ckeep t.scratch fun k => !(decide (b.off ≤ k) && decide (k < b.off + b.len)) }
    | none => s
  else s

theorem mem_bindWindow (s : State) (g : Group) (b : Window) (zero : Bool) : b ∈ (bindWindow s g b zero).mem.windows := by
  unfold bindWindow
  dsimp only
  split
  · split <;> simp
  · simp

/-- A leaf among those found has one of the two marks for which WMAP refuses a page, or none has. -/
theorem anyMarked_eq {m : PageMap} :
    ((m.filterMap fun e => match e.2 with | .ok l => some (e.1, l) | .error _ => none).any fun e => e.2.cmp || e.2.sa) = true ↔
      ∃ e ∈ m, ∃ l, e.2 = .ok l ∧ (l.cmp = true ∨ l.sa = true) := by
  simp only [List.any_eq_true, List.mem_filterMap, Bool.or_eq_true]
  constructor
  · rintro ⟨x, ⟨e, he, hx⟩, hmark⟩
    cases hl : e.2 with
    | error err => simp [hl] at hx
    | ok l =>
      simp only [hl, Option.some.injEq] at hx
      exact ⟨e, he, l, hl, by rw [← hx] at hmark; exact hmark⟩
  · rintro ⟨e, he, l, hl, hmark⟩
    exact ⟨(e.1, l), ⟨e, he, by rw [hl]⟩, hmark⟩

theorem wmap_idle {s : State} {gid : Nat} {g : Group} {h : Hdr} {data : BitVec 7} {addr : BitVec 6} {scp : Scope} {zero : Bool}
    {ft : Rt} {off : BitVec 16} (hi : Issuing s gid g h) (hfalse : uniGuard (openIssue s g h) h s.cycle = false) :
    execWmap h data addr scp zero ft off s =
      Ends s gid (openIssue s g h) 1 (advance (openIssue s g h) (instrLen h false)) := uniformOp_idle hi _ hfalse

section
variable {s : State} {gid : Nat} {g : Group} {h : Hdr} {data : BitVec 7} {addr : BitVec 6} {scp : Scope} {zero : Bool} {ft : Rt}
  {off : BitVec 16} (hi : Issuing s gid g h) (htrue : uniGuard (openIssue s g h) h s.cycle = true) {base : DWord} {arg refusal : Nat}
  (hbase : uniAddr (openIssue s g h) addr off s.cycle = base)
  (harg : readPlace (openIssue s g h) (.s (addr.toNat + 1)) 0 true s.cycle = arg)
  {s0 : State} (hs0 : s0 = setGroup (occupy s (openIssue s g h) 1) gid (openIssue s g h))
  (hrefusal : wmapRefusal s0 (openIssue s g h) ft base.toNat (arg % 2 ^ 32) (arg / 2 ^ 32 % 2 ^ 32) = refusal)
include hi htrue hbase harg hs0 hrefusal

theorem wmap_refuses (hrefused : refusal ≠ 0) :
    execWmap h data addr scp zero ft off s = Ends s gid (openIssue s g h) 1
      (advance (uniWritten (openIssue s g h) h s0.cycle [(data.toNat, winStatus refusal 0)]) (instrLen h false)) := by
  subst hbase harg hs0 hrefusal
  rw [execWmap, uniformOp_acts hi _ htrue (if_pos (by simpa using hrefused)), setGroup_setGroup]
  simp only [setGroup_cycle, occupy_cycle]
  rfl

variable (haccepted : refusal = 0) {s1 : State} {m : PageMap}
  (hpages : translatePages (whoOf s0 (openIssue s g h)) (if zero then .write else .read) (pagesOf base (arg / 2 ^ 32 % 2 ^ 32)) s0 [] =
    (s1, m)) (hok : ∀ e ∈ m, ∃ l, e.2 = .ok l)
include haccepted hpages hok

theorem wmap_refusesPage (hmarked : ∃ e ∈ m, ∃ l, e.2 = .ok l ∧ (l.cmp = true ∨ l.sa = true)) :
    execWmap h data addr scp zero ft off s = .next (setGroup s1 gid
      (advance (uniWritten (openIssue s g h) h s1.cycle [(data.toNat, winStatus 4 0)]) (instrLen h false))) := by
  subst hbase harg hs0 hrefusal
  refine uniformOp_acts hi _ htrue ?_
  simp only [setGroup_cycle, occupy_cycle, haccepted, ne_eq, not_true, if_false, hpages, walkLost_eq_none hok]
  refine (if_neg fun hbad => ?_).trans (if_pos (anyMarked_eq.mpr hmarked))
  rw [filterMap_ok_eq_nil hok fun _ _ => ?_] at hbad
  · cases hbad
  · rfl

theorem wmap_binds (hclear : ¬∃ e ∈ m, ∃ l, e.2 = .ok l ∧ (l.cmp = true ∨ l.sa = true)) {b : Window}
    (hb : b = newWindow s1 (openIssue s g h) m base (arg % 2 ^ 32) (arg / 2 ^ 32 % 2 ^ 32) zero ft scp) {s2 : State}
    (hs2 : s2 = bindWindow s1 (openIssue s g h) b zero) :
    execWmap h data addr scp zero ft off s = .next (setGroup s2 gid
      (advance (uniWritten (openIssue s g h) h s2.cycle [(data.toNat, winStatus 0 b.index)]) (instrLen h false))) := by
  subst hbase harg hs0 hrefusal hb hs2
  refine uniformOp_acts hi _ htrue ?_
  simp only [setGroup_cycle, occupy_cycle, haccepted, ne_eq, not_true, if_false, hpages, walkLost_eq_none hok]
  refine (if_neg fun hbad => ?_).trans (if_neg (mt anyMarked_eq.mp hclear))
  rw [filterMap_ok_eq_nil hok fun _ _ => ?_] at hbad
  · cases hbad
  · rfl

end

/-- Settles O18: WMAP's three answers; the others are once-per-group operations as they stand. -/
theorem windowInstructions : Obligations.WindowInstructions := by
  unfold Obligations.WindowInstructions
  refine ⟨?wmap, fun x => uniformRuns_of fun _ => rfl, fun x => uniformRuns_of fun _ => rfl,
    fun x discard => uniformRuns_of fun _ => rfl, fun x => uniformRuns_of fun _ => rfl⟩
  case wmap =>
    intro h data addr scp zero ft off s gid g hi base arg s0 refusal
    refine ⟨fun hfalse => wmap_idle hi hfalse, fun htrue hrefused => ?_, fun htrue haccepted s1 m hpages hclear => ?_,
      fun htrue haccepted s1 m hpages hok hmarked => ?_⟩
    · exact ⟨_, uniWritten_onlyPend _ _ _ _, wmap_refuses hi htrue rfl rfl rfl rfl hrefused, newestAt_uniWritten _ _ _ _ _,
        keptBut_uniWritten _ _ _ _ _⟩
    · have hok : ∀ e ∈ m, ∃ l, e.2 = .ok l := fun e he => (hclear e he).imp fun l hl => hl.1
      have hunmarked : ¬∃ e ∈ m, ∃ l, e.2 = .ok l ∧ (l.cmp = true ∨ l.sa = true) := by
        rintro ⟨e, he, l, hl, hmark⟩
        obtain ⟨l', hl', hcmp, hsa⟩ := hclear e he
        obtain rfl := Except.ok.inj (hl.symm.trans hl')
        simp [hcmp, hsa] at hmark
      exact ⟨_, _, _, wmap_binds hi htrue rfl rfl rfl rfl haccepted hpages hok hunmarked rfl rfl, getGroup_setGroup _ _ _,
        uniWritten_onlyPend _ _ _ _, newestAt_uniWritten _ _ _ _ _, keptBut_uniWritten _ _ _ _ _, _, mem_bindWindow _ _ _ _,
        rfl, rfl, rfl, rfl, rfl, rfl, rfl, rfl⟩
    · exact ⟨_, uniWritten_onlyPend _ _ _ _, wmap_refusesPage hi htrue rfl rfl rfl rfl haccepted hpages hok hmarked,
        newestAt_uniWritten _ _ _ _ _, keptBut_uniWritten _ _ _ _ _⟩

end Sys2Proof.Machine
end

section
/-! PROOFS. Atomics (R312–R316): the checks that let every lane's operation run, and what the lanes receive. -/

open Sys2Proof Sys2Proof.Machine

namespace Sys2Proof.Machine

/-- The operations of an atomic, its checks passed. -/
theorem atomAccess_performs {s s1 : State} {gid len : Nat} {g : Group} {sh : AtomShape} {ops : List (Nat × Loc × AtomAct)}
    {after : Group → List (Nat × Nat × Bool) → Group} {locs : LaneLocs} (hlocs : locs = ops.map fun x => (x.1, x.2.1))
    {items : List Item} (hitems : items = locs.map fun y => throughBinding s (whoOf s g) ⟨y.1, y.2, sh.ty.bits / 8, none, false⟩)
    (haligned : (locs.filter fun y => y.2.number.toNat % (sh.ty.bits / 8) != 0) = [])
    (hinside : beyondAlloc s g.team locs (sh.ty.bits / 8) = []) {k : Checked}
    (hcheck : checkAccess s (whoOf s g) .write items = (s1, k)) (hscope : scopeLanes s1 (whoOf s g) k sh.scp locs = [])
    (hstops : k.stops items = none)
    (hlost : (locs.filterMap fun y => (atomLost s1 (whoOf s g) k.map sh y).map fun pa => (y.1, BitVec.ofNat 64 pa)) = [])
    {r : State × List (Nat × Nat × Bool)}
    (hr : r = atomLanes (whoOf s g) k.map sh (fun i s => storeReleases g sh.ord sh.scp [i] s) ops (scLoad g sh.ord sh.scp s1) [])
    {t : State}
    (ht : t = loadAcquire g sh.ord sh.scp (setGroup r.1 gid (advance (noteLoad
      (payOwed (after g r.2) ((r.2.filter fun x => x.2.2).map (·.1))) (laneSectors r.1 (whoOf s g) k.map items)) len))) :
    atomAccess s gid g len sh ops after =
      if ((r.2.filter fun x => x.2.2).map (·.1)).isEmpty then t else scStore g sh.ord sh.scp t := by
  subst hlocs hitems hr ht
  simp only [atomAccess, haligned, hinside, hcheck, hscope, hstops, hlost, List.isEmpty_nil, Bool.not_true, Bool.false_eq_true, if_false]

/-- What the registers of the lanes receive: nothing for RED. -/
def atomWritten (x : AtomFields) (red : Bool) (at_ : Nat → Nat) (o : Group) (olds : List (Nat × Nat × Bool)) : Group :=
  if red then o else olds.foldl (fun g y => writeLane g .variable x.h.ver (at_ y.1) (.v x.data) x.ty.wide y.1 y.2.1) o

section
variable {s : State} {gid : Nat} {g : Group} {x : AtomFields} {regs : Nat} {red : Bool} {act : Group → Nat → Nat → AtomAct}
  (hi : Issuing s gid g x.h) (hdata : x.data.toNat + regs ≤ (roleOf s g).regs)
  (haddr : 2 * x.addr.toNat + (if x.spl then 0 else 1) < (roleOf s g).regs)
include hi hdata haddr

theorem atomOp_idle (hpart : takingPart (openIssue s g x.h) x.h .w32 s.cycle = []) :
    atomOp s x regs red act = Ends s gid (openIssue s g x.h) 1 (advance (openIssue s g x.h) (instrLen x.h false)) := by
  rw [atomOp, issue_runs _ _ hi]
  simp only [roleOf_setGroup, roleOf_openIssue, setGroup_cycle, hpart, List.isEmpty_nil, if_true, finish_eq]
  exact congrArg Host.Outcome.next (if_neg (by omega))

theorem atomOp_acts {part : List Nat} (hpart : takingPart (openIssue s g x.h) x.h .w32 s.cycle = part) (hacts : part ≠ []) :
    atomOp s x regs red act = .next (atomAccess (setGroup (occupy s (openIssue s g x.h) (beatCount .w32 part)) gid (openIssue s g x.h))
      gid (openIssue s g x.h) (instrLen x.h false) ⟨x.ty, x.ord, x.scp, red⟩
      (part.map fun i => (i,
        if x.spl then Loc.spad (laneOffset (openIssue s g x.h) x.addr x.off i (s.cycle + beatOffset .w32 part i))
        else .glob (laneAddr (openIssue s g x.h) x.addr x.off i (s.cycle + beatOffset .w32 part i)),
        act (openIssue s g x.h) i (s.cycle + beatOffset .w32 part i)))
      (atomWritten x red fun i => s.cycle + beatOffset .w32 part i)) := by
  rw [atomOp, issue_runs _ _ hi]
  simp only [roleOf_setGroup, roleOf_openIssue, setGroup_cycle, hpart, List.isEmpty_iff, hacts, if_false, occupy_issued]
  exact congrArg Host.Outcome.next (if_neg (by omega))

end

theorem atomicRuns_of {mk : AtomFields → Instr} {regsOf : AtomFields → Nat} {red : Bool} {act : AtomFields → Group → Nat → Nat → AtomAct}
    (hexec : ∀ x s, exec (mk x) s = atomOp s x (regsOf x) red (act x)) : AtomicRuns mk regsOf red act := by
  intro x s gid g hi len part hdata haddr
  refine ⟨fun hidle => (hexec x s).trans (atomOp_idle hi hdata haddr hidle), ?acts⟩
  case acts =>
    intro hacts at_ ops locs n s0 w items haligned hinside sh s1 k hcheck hscope hstops hlost r wrote g' t
    have hrun := ((hexec x s).trans (atomOp_acts hi hdata haddr rfl hacts)).trans (congrArg Host.Outcome.next
      (atomAccess_performs (s := s0) (sh := sh) (ops := ops) rfl rfl haligned hinside hcheck hscope hstops hlost rfl rfl))
    exact ⟨fun hwrote => hrun.trans (congrArg _ (if_neg fun hempty => hwrote (List.isEmpty_iff.mp hempty))),
      fun hnone => hrun.trans (congrArg _ (if_pos (List.isEmpty_iff.mpr hnone)))⟩

/-- Settles O20: the three instructions are one operation with its registers and its action. -/
theorem atomicsComplete : Obligations.AtomicsComplete := by
  unfold Obligations.AtomicsComplete
  exact ⟨atomicRuns_of fun _ _ => rfl, atomicRuns_of fun _ _ => rfl, atomicRuns_of fun _ _ => rfl⟩

end Sys2Proof.Machine
end

section
/-! PROOFS. Bins and the rendezvous (R46–R53): a launch makes one group of a bin, a migration fills the host's exited positions. -/

open Sys2Proof Sys2Proof.Machine

namespace Sys2Proof.Machine

/-! ### Bins (R46–R48) -/

theorem binTimerExpiry_tries {s : State} {core bin : Nat} {b : Bin} {t : Nat} (hb : tget (getCore s core).bins bin = some b)
    (htimer : b.till = some t) (hfree : b.left = none) (hover : t ≤ s.cycle) :
    execBinTimerExpiry core bin s = .next (if mayLaunch s core b then launchBin s core bin b
      else setCore s core { getCore s core with bins := tset (getCore s core).bins bin { b with till := none } }) := by
  have hexpired : b.expired s.cycle = true := by simp [Bin.expired, htimer, hfree, hover]
  simp only [execBinTimerExpiry, hb, hexpired, if_true, tryLaunch]

theorem binLaunchDeferred_launches {s : State} {core bin : Nat} {b : Bin} (hb : tget (getCore s core).bins bin = some b)
    (hclosed : b.till = none) (hfree : b.left = none) (hroom : mayLaunch s core b = true) :
    execBinLaunchDeferred core bin s = .next (launchBin s core bin b) := by
  have hdeferred : b.deferred = true := by simp [Bin.deferred, hclosed, hfree]
  simp only [execBinLaunchDeferred, hb, hdeferred, hroom, Bool.and_self, if_true]

/-- A launch takes the bin away and leaves a new group, before the acquire that precedes its first instruction. -/
theorem launchBin_launches {s : State} {core bin : Nat} {b : Bin} {t : Team} (ht : getTeam s b.team = some t) :
    ∃ u gid g, launchBin s core bin b = acquireAt u core b.team .team ∧ getGroup u gid = some g ∧ g.pc = b.entry ∧ g.role = b.role ∧
      g.team = b.team ∧ g.live = maskOf (b.lanes.map (·.pos)) ∧ tget (getCore u core).bins bin = none := by
  simp only [launchBin, ht]
  refine ⟨_, _, _, rfl, getGroup_setGroup _ _ _, rfl, rfl, rfl, rfl, ?_⟩
  rw [getCore_setGroup, getCore_takeId, getCore_setCore]
  exact tget_tdel_same _ _

/-! ### The predicate of REGROUP (R160) -/

theorem writeRegroup_onlyRegs (g : Group) (pd v : Nat) : OnlyRegs g (writeRegroup g pd v) :=
  foldl_onlyRegs (fun g i => setBase_onlyRegs g (.p pd) i v) _ g

theorem setBase_lane_v (g : Group) (pd lane val : Nat) : (setBase g (.p pd) lane val).v = g.v := by
  simp only [setBase]
  split <;> rfl

theorem setBase_lane_pend (g : Group) (pd lane val : Nat) : (setBase g (.p pd) lane val).pend = g.pend := by
  simp only [setBase]
  split <;> rfl

theorem writeRegroup_v (g : Group) (pd v : Nat) : (writeRegroup g pd v).v = g.v :=
  foldl_read_other (read := Group.v) (fun g i _ => setBase_lane_v g pd i v) g

theorem writeRegroup_pend (g : Group) (pd v : Nat) : (writeRegroup g pd v).pend = g.pend :=
  foldl_read_other (read := Group.pend) (fun g i _ => setBase_lane_pend g pd i v) g

theorem mem_below {n : Nat} {p : Nat → Bool} {i : Nat} : i ∈ below n p ↔ i < n ∧ p i = true := by
  simp [below]

theorem cget_writeRegroup {g : Group} {pd : Nat} (v : Nat) (hpd : pd < 7) {i : Nat} (hi : i < 32) (hlive : g.live.getLsbD i = true) :
    cget (writeRegroup g pd v).p (laneKey pd i) = BitVec.ofNat 1 v := by
  have hwrite (g : Group) (j : Nat) : (setBase g (.p pd) j v).p = cset g.p (laneKey pd j) (BitVec.ofNat 1 v) := by
    simp only [setBase, if_neg (show pd ≠ 7 by omega)]
  refine foldl_read_mem (read := fun g : Group => cget g.p (laneKey pd i)) (mem_below.mpr ⟨hi, hlive⟩)
    (fun g => by rw [hwrite, cget_cset_same]) (fun g j _ => ?_) g
  by_cases hj : laneKey pd i = laneKey pd j
  · exact .inr (by rw [hwrite, hj, cget_cset_same])
  · exact .inl (by rw [hwrite, cget_cset_other _ _ _ _ hj])

/-- With no result outstanding the predicate reads what was written, at once. -/
theorem newestAt_writeRegroup {g : Group} {pd v : Nat} (hpend : g.pend = []) (hpd : pd < 7) (hv : v < 2) {i : Nat} (hi : i < 32)
    (hlive : g.live.getLsbD i = true) : newestAt (writeRegroup g pd v) (.p pd) i = (v, some 0, none) := by
  have hval : (BitVec.ofNat 1 v).toNat = v := Nat.mod_eq_of_lt hv
  simp only [newestAt, newestPend, writeRegroup_pend, hpend, List.find?_nil, Option.getD_none, placeBase,
    cget_writeRegroup v hpd hi hlive, hval]

theorem commitAll_of_settled {g : Group} (now : Nat) (hpend : g.pend = []) : commitAll g now = g := by
  cases g
  cases hpend
  rfl

/-! ### Lanes moved into exited positions (R52) -/

theorem cget_moveLane {w : Nat} (src dst : Cells w) {frm dest : Nat} (hfrm : frm < 32) (hdest : dest < 32) (named : Nat → Bool) (k : Nat) :
    cget (moveLane src dst frm dest named) k =
      if k % 32 = dest then (if named (k / 32) then cget src (k / 32 * 32 + frm) else 0) else cget dst k := by
  induction src with
  | nil =>
    simp only [moveLane, List.filter_nil, List.foldr_nil, cget_ckeep, cget]
    by_cases hk : k % 32 = dest <;> simp [hk]
  | cons e r ih =>
    obtain ⟨a, b⟩ := e
    unfold moveLane at ih ⊢
    by_cases ha : (a % 32 == frm && named (a / 32)) = true
    · obtain ⟨hmod, hnamed⟩ := Bool.and_eq_true_iff.mp ha
      replace hmod := beq_iff_eq.mp hmod
      rw [List.filter_cons_of_pos (p := fun e : Nat × BitVec w => e.1 % 32 == frm && named (e.1 / 32)) ha, List.foldr_cons, cget_cset]
      by_cases hk : k = a / 32 * 32 + dest
      · have hdiv : k / 32 = a / 32 := by omega
        rw [if_pos hk, if_pos (by omega), if_pos (by rw [hdiv]; exact hnamed), hdiv]
        simp only [cget]
        rw [if_pos (by omega)]
      · rw [if_neg hk, ih]
        by_cases hkd : k % 32 = dest
        · rw [if_pos hkd, if_pos hkd]
          simp only [cget]
          rw [if_neg (show a ≠ k / 32 * 32 + frm by omega)]
        · rw [if_neg hkd, if_neg hkd]
    · rw [List.filter_cons_of_neg (p := fun e : Nat × BitVec w => e.1 % 32 == frm && named (e.1 / 32)) ha, ih]
      by_cases hkd : k % 32 = dest
      · rw [if_pos hkd, if_pos hkd]
        cases hnamed : named (k / 32) with
        | false => rfl
        | true =>
          have hother : a ≠ k / 32 * 32 + frm := by
            rintro rfl
            have hdiv : (k / 32 * 32 + frm) / 32 = k / 32 := by omega
            exact ha (by rw [hdiv, hnamed, show (k / 32 * 32 + frm) % 32 = frm by omega]; simp)
          simp only [cget, if_true]
          rw [if_neg hother]
      · rw [if_neg hkd, if_neg hkd]

/-- Pairs whose second numbers differ are told apart by them. -/
theorem eq_of_mem_zip {a b : List Nat} (hb : b.Nodup) {x y : Nat × Nat} (hx : x ∈ a.zip b) (hy : y ∈ a.zip b) (hsame : x.2 = y.2) :
    x = y := by
  induction a generalizing b with
  | nil => cases hx
  | cons i r ih =>
    cases b with
    | nil => cases hx
    | cons j l =>
      obtain ⟨hj, hl⟩ := List.nodup_cons.mp hb
      rcases List.mem_cons.mp hx with rfl | hx' <;> rcases List.mem_cons.mp hy with rfl | hy'
      · rfl
      · exact absurd ((show j = y.2 from hsame) ▸ (List.of_mem_zip hy').2) hj
      · exact absurd ((show x.2 = j from hsame) ▸ (List.of_mem_zip hx').2) hj
      · exact ih hl hx' hy'

/-- The lanes of a donor that move and the positions they take. -/
def movedLanes (host donor : Word) : List (Nat × Nat) := (below 32 donor.getLsbD).zip (below 32 fun i => !host.getLsbD i)

theorem movedLanes_lt {host donor : Word} {x : Nat × Nat} (hx : x ∈ movedLanes host donor) : x.1 < 32 ∧ x.2 < 32 :=
  ⟨(mem_below.mp (List.of_mem_zip hx).1).1, (mem_below.mp (List.of_mem_zip hx).2).1⟩

theorem movedLanes_eq {host donor : Word} {x y : Nat × Nat} (hx : x ∈ movedLanes host donor) (hy : y ∈ movedLanes host donor)
    (hsame : x.2 = y.2) : x = y := eq_of_mem_zip (List.nodup_range.filter _) hx hy hsame

theorem moveInto_v (mask : DWord) (donor host : Group) {x : Nat × Nat} (h1 : x.1 < 32) (h2 : x.2 < 32) (k : Nat) :
    cget (moveInto mask donor host x).v k =
      if k % 32 = x.2 then (if mask.getLsbD (k / 32 / 8) then cget donor.v (k / 32 * 32 + x.1) else 0) else cget host.v k := by
  simp only [moveInto, cget_moveLane _ _ h1 h2, Nat.zero_add]

/-- The vector registers of the positions taken are the donor's, those that the mask names, and zero. -/
theorem movedInto_v (mask : DWord) {host donor : Word} (gd g : Group) {x : Nat × Nat} (hx : x ∈ movedLanes host donor) (i : Nat) :
    cget ((movedLanes host donor).foldl (moveInto mask gd) g).v (laneKey i x.2) =
      if mask.getLsbD (i / 8) then cget gd.v (laneKey i x.1) else 0 := by
  obtain ⟨h1, h2⟩ := movedLanes_lt hx
  have hmod : laneKey i x.2 % 32 = x.2 := by unfold laneKey; omega
  have hdiv : laneKey i x.2 / 32 = i := by unfold laneKey; omega
  have hwrite (g : Group) : cget (moveInto mask gd g x).v (laneKey i x.2) =
      if mask.getLsbD (i / 8) then cget gd.v (laneKey i x.1) else 0 := by
    rw [moveInto_v mask gd g h1 h2, if_pos hmod, hdiv]
    rfl
  refine foldl_read_mem (read := fun g : Group => cget g.v (laneKey i x.2)) hx hwrite (fun g y hy => ?_) g
  by_cases hsame : y.2 = x.2
  · exact .inr (by rw [movedLanes_eq hy hx hsame]; exact hwrite g)
  · obtain ⟨hy1, hy2⟩ := movedLanes_lt hy
    exact .inl (by rw [moveInto_v mask gd g hy1 hy2, if_neg (by rw [hmod]; exact Ne.symm hsame)])

/-! ### The host after the migration (R52, R53) -/

theorem moveInto_pend (mask : DWord) (gd : Group) (l : List (Nat × Nat)) (g : Group) : (l.foldl (moveInto mask gd) g).pend = g.pend :=
  foldl_read_other (read := Group.pend) (f := moveInto mask gd) (fun _ _ _ => rfl) g

theorem moveInto_place (mask : DWord) (gd : Group) (l : List (Nat × Nat)) (g : Group) :
    ((l.foldl (moveInto mask gd) g).pc, (l.foldl (moveInto mask gd) g).parkLen) = (g.pc, g.parkLen) :=
  foldl_read_other (read := fun g : Group => (g.pc, g.parkLen)) (f := moveInto mask gd) (fun _ _ _ => rfl) g

/-- The positions that hold a lane once the donor's have moved. -/
def joinedLive (gh gd : Group) : Word := gh.live ||| maskOf ((movedLanes gh.live gd.live).map (·.2))

/-- The host with the donor's lanes, before REGROUP answers. -/
def joined (mask : DWord) (gh gd : Group) : Group :=
  { (movedLanes gh.live gd.live).foldl (moveInto mask gd) { gh with o := [], l := [] } with
    live := joinedLive gh gd, mask := joinedLive gh gd }

theorem takeLanes_eq (mask : DWord) (pd : Nat) (gh gd : Group) : takeLanes mask pd gh gd = writeRegroup (joined mask gh gd) pd 1 := rfl

section
variable (mask : DWord) (pd : Nat) (gh gd : Group)

theorem takeLanes_live : (takeLanes mask pd gh gd).live = joinedLive gh gd := (writeRegroup_onlyRegs _ pd 1).live

theorem takeLanes_mask : (takeLanes mask pd gh gd).mask = joinedLive gh gd := by
  rw [takeLanes_eq, writeRegroup_onlyRegs (joined mask gh gd) pd 1]
  rfl

theorem takeLanes_pc : (takeLanes mask pd gh gd).pc = gh.pc :=
  (writeRegroup_onlyRegs _ pd 1).pc.trans (congrArg Prod.fst (moveInto_place mask gd _ _))

theorem takeLanes_parkLen : (takeLanes mask pd gh gd).parkLen = gh.parkLen :=
  (writeRegroup_onlyRegs _ pd 1).parkLen.trans (congrArg Prod.snd (moveInto_place mask gd _ _))

theorem takeLanes_v {x : Nat × Nat} (hx : x ∈ movedLanes gh.live gd.live) (i : Nat) :
    cget (takeLanes mask pd gh gd).v (laneKey i x.2) = if mask.getLsbD (i / 8) then cget gd.v (laneKey i x.1) else 0 := by
  rw [takeLanes_eq, writeRegroup_v]
  exact movedInto_v mask gd _ hx i

theorem newestAt_takeLanes (hpend : gh.pend = []) (hpd : pd < 7) {i : Nat} (hi : i < 32)
    (hlive : (takeLanes mask pd gh gd).live.getLsbD i = true) : newestAt (takeLanes mask pd gh gd) (.p pd) i = (1, some 0, none) := by
  rw [takeLanes_live] at hlive
  exact newestAt_writeRegroup (g := joined mask gh gd) (v := 1) ((moveInto_pend mask gd _ _).trans hpend) hpd (by decide) hi hlive

end

theorem getGroup_leaveWait_setGroup (s : State) (gid : Nat) (g : Group) :
    getGroup (leaveWait (setGroup s gid g) gid) gid = some (advance (awake (setGroup s gid g) g) g.parkLen) := by
  simp only [leaveWait, getGroup_setGroup]

theorem regroupMigrate_migrates {s : State} {host donor : Nat} {gh gd : Group} {pd : Nat} {mask : DWord}
    (hh : getGroup s host = some gh) (hd : getGroup s donor = some gd) (hwait : gh.wait = .paired host donor pd mask)
    (hsame : gd.wait = gh.wait) (hready : pairReady s host donor = true) :
    execRegroupMigrate host donor s = .next (retireGroup
      (leaveWait (setGroup s host (takeLanes mask pd (commitAll gh s.cycle) (commitAll gd s.cycle))) host) donor) := by
  simp only [execRegroupMigrate, hh, hd, hsame, beq_self_eq_true, hready, Bool.and_self, if_true, hwait, and_self]

theorem regroupTimeout_answers {s : State} {gid : Nat} {g : Group} {pd : Nat} {mask : DWord} (hg : getGroup s gid = some g)
    (hwait : g.wait = .regroup pd mask) (hover : g.waitSince + 256 ≤ s.cycle) (hring : ringOwes s gid g = false) :
    execRegroupTimeout gid s = .next (leaveWait (setGroup s gid (writeRegroup (commitAll g s.cycle) pd 0)) gid) := by
  simp only [execRegroupTimeout, hg, hwait, regroupWindow, hover, hring, Bool.not_false, and_self, if_true]

/-- Settles O41: the bins by the launch, the rendezvous by the lanes moved and the predicate that answers. -/
theorem binsAndRendezvous : Obligations.BinsAndRendezvous := by
  unfold Obligations.BinsAndRendezvous
  refine ⟨fun s core bin b t hb htimer hfree hover => binTimerExpiry_tries hb htimer hfree hover, ?launch, ?migrate, ?timeout⟩
  case launch =>
    intro s core bin b t hb hclosed hfree hroom ht
    obtain ⟨u, gid, g, hlaunch, hmade⟩ := launchBin_launches (core := core) (bin := bin) ht
    exact ⟨u, gid, g, (binLaunchDeferred_launches hb hclosed hfree hroom).trans (congrArg _ hlaunch), hmade⟩
  case migrate =>
    intro s host donor gh gd pd mask hh hd _ hwait hsame hready
    have hhost := commitAll_onlyRegs gh s.cycle
    have hdonor := commitAll_onlyRegs gd s.cycle
    have hpairs : movedLanes (commitAll gh s.cycle).live (commitAll gd s.cycle).live = movedLanes gh.live gd.live := by
      rw [hhost.live, hdonor.live]
    refine ⟨_, _, regroupMigrate_migrates hh hd hwait hsame hready, getGroup_leaveWait_setGroup _ _ _, ?_, rfl, ?_, ?_, ?_, ?_⟩
    · show (takeLanes _ _ _ _).pc + BitVec.ofNat 64 (takeLanes _ _ _ _).parkLen = _
      rw [takeLanes_pc, takeLanes_parkLen, hhost.pc, hhost.parkLen]
    · exact (takeLanes_mask _ _ _ _).trans (takeLanes_live _ _ _ _).symm
    · refine (takeLanes_live _ _ _ _).trans ?_
      rw [joinedLive, hpairs, hhost.live]
      rfl
    · exact fun x hx i _ => takeLanes_v mask pd _ _ (hpairs ▸ hx) i
    · intro hpend hpd i hi hlive
      refine newestAt_takeLanes mask pd _ _ ?_ hpd hi hlive
      rw [commitAll_of_settled s.cycle hpend, hpend]
  case timeout =>
    intro s gid g pd mask hg hwait hover hring
    have hkept := commitAll_onlyRegs g s.cycle
    have hwritten := hkept.trans (writeRegroup_onlyRegs _ pd 0)
    refine ⟨_, _, regroupTimeout_answers hg hwait hover hring, getGroup_leaveWait_setGroup _ _ _, rfl, ?_, hwritten.live, ?_⟩
    · show (writeRegroup _ _ _).pc + BitVec.ofNat 64 (writeRegroup _ _ _).parkLen = _
      rw [hwritten.pc, hwritten.parkLen]
    · intro hpend hpd i hi hlive
      rw [← hkept.live] at hlive
      refine newestAt_writeRegroup ?_ hpd (by decide) hi hlive
      rw [commitAll_of_settled s.cycle hpend, hpend]

end Sys2Proof.Machine
end

section
/-! PROOFS. Launch queues, eligible blocks, aging and placing (R62, R408–R414): each step under the checks that let it through. -/

open Sys2Proof Sys2Proof.Machine

namespace Sys2Proof.Machine

/-! ### Reading blocks (R408, R410, R411) -/

theorem launchQueueTailWrite_reads {s s1 s2 : State} {q part ctx t h : Nat} {b : QueueBody} (hb : tget s.queues q = some b)
    (hctx : queueCtx s b = some (part, ctx)) (henabled : b.enabled = true) (hthawed : isFrozen s part = false)
    (htail : queueWord (tailRead s q) (scheduler part ctx) b.tailA = (s1, .ok t))
    (hhead : queueWord s1 (scheduler part ctx) b.headA = (s2, .ok h)) :
    execLaunchQueueTailWrite q s =
      if (t + 2 ^ 64 - h) % 2 ^ 64 = 0 then .next s2
      else if (t + 2 ^ 64 - h) % 2 ^ 64 > 2 ^ b.size then .next (dropQueue s2 q 18 0 0)
      else .next (readNext s2 q part ctx h ((t + 2 ^ 64 - h) % 2 ^ 64) b) := by
  simp only [execLaunchQueueTailWrite, hb, hctx, henabled, hthawed, Bool.not_true, Bool.or_self, Bool.false_eq_true, if_false, htail,
    hhead]

/-- What becomes of a block that was checked. -/
def launchAnswer (gid : Nat) (g : Grid) (x : Except Nat Launch × State) : Out :=
  match x.1 with
  | .error d => .next (refuseBlock x.2 gid g d)
  | .ok l => .next (acceptLaunch x.2 gid g l)

/-- A block of which nothing holds back the launch is checked. -/
theorem blockEligible_checks {s : State} {gid : Nat} {g : Grid} (hg : tget s.grids gid = some g) (hread : g.st = .read)
    (hfirst : heldBack s gid g = false) (hwaits : waitsMet s g = true) :
    execBlockEligible gid s = launchAnswer gid g ((lmLaunch gid g
      (match tget (testWaits g.waits s).1.queues g.queue with | some q => q.timed | none => false)
      (match tget (testWaits g.waits s).1.parts g.part with | some p => p.body.slotLog | none => 0)).run (testWaits g.waits s).1) := by
  have hgoes : ¬(g.st ≠ .read ∨ heldBack s gid g = true) := by simp [hread, hfirst]
  simp only [execBlockEligible, hg, if_neg hgoes, hwaits, Bool.not_true, Bool.false_eq_true, if_false]
  rfl

/-! ### Placing (R41, R62, R413) -/

theorem floorAdvance_mem (s : State) (core : Nat) : ∃ m, floorAdvance s core = { s with mem := m } := by
  unfold floorAdvance
  dsimp only
  split
  · exact ⟨_, rfl⟩
  · exact ⟨_, rfl⟩

/-- An acquire touches the memory alone, at every scope. -/
theorem acquireAt_mem (s : State) (core team : Nat) (sc : Scope) : ∃ m, acquireAt s core team sc = { s with mem := m } := by
  unfold acquireAt
  cases scopeLe .bough sc <;> cases scopeLe .dev sc
  · exact ⟨_, rfl⟩
  · exact floorAdvance_mem _ _
  · exact ⟨_, rfl⟩
  · exact floorAdvance_mem _ _

theorem acquireAt_teams (s : State) (core team : Nat) (sc : Scope) : (acquireAt s core team sc).teams = s.teams := by
  obtain ⟨m, hm⟩ := acquireAt_mem s core team sc
  rw [hm]

theorem acquireAt_grids (s : State) (core team : Nat) (sc : Scope) : (acquireAt s core team sc).grids = s.grids := by
  obtain ⟨m, hm⟩ := acquireAt_mem s core team sc
  rw [hm]

theorem startGroups_teams (tid index core : Nat) (entry block : DWord) (l : List (Nat × Nat)) (s : State) :
    (startGroups tid index core entry block l s).teams = s.teams := by
  induction l generalizing s with
  | nil => rfl
  | cons x r ih => exact ih _

/-- The team placed stands in its slot, and its grid counts it. -/
theorem placeTeam_places {s : State} {gid core : Nat} {g : Grid} {slot : Nat} (hg : tget s.grids gid = some g)
    (hslot : freeSlot s g.part = some slot) :
    ∃ tid t, getTeam (placeTeam s gid core) tid = some t ∧ t.grid = gid ∧ t.index = g.placed ∧ t.core = core ∧ t.slot = slot ∧
      t.st = .running ∧ tget (placeTeam s gid core).grids gid = some { g with placed := g.placed + 1 } := by
  have hteams : ∃ tid old t, (placeTeam s gid core).teams = tset old tid t ∧ t.grid = gid ∧ t.index = g.placed ∧ t.core = core ∧
      t.slot = slot ∧ t.st = .running := by
    simp only [placeTeam, hg, hslot, acquireAt_teams, startGroups_teams]
    exact ⟨_, _, _, rfl, rfl, rfl, rfl, rfl, rfl⟩
  have hgrids : ∃ old, (placeTeam s gid core).grids = tset old gid { g with placed := g.placed + 1 } := by
    simp only [placeTeam, hg, hslot, acquireAt_grids]
    exact ⟨_, rfl⟩
  obtain ⟨tid, old, t, hteam, hmade⟩ := hteams
  obtain ⟨grids, hgrid⟩ := hgrids
  refine ⟨tid, t, ?_, ?_⟩
  · rw [getTeam, hteam, tget_tset_same]
  · rw [hgrid, tget_tset_same]
    obtain ⟨h1, h2, h3, h4, h5⟩ := hmade
    exact ⟨h1, h2, h3, h4, h5, rfl⟩

theorem teamPlace_places {s : State} {gid core : Nat} {g : Grid} (hg : tget s.grids gid = some g) (hwants : wantsPlace s gid g = true)
    (hstage : g.stage = none) (hfits : teamFits s g core = true) : execTeamPlace gid core s = .next (placeTeam s gid core) := by
  simp only [execTeamPlace, hg, hwants, Bool.not_true, Bool.false_eq_true, if_false, hstage, hfits, if_true]

theorem teamPlace_placesStage {s : State} {gid n : Nat} (core : Nat) {g : Grid} (hg : tget s.grids gid = some g)
    (hwants : wantsPlace s gid g = true) (hstage : g.stage = some n) :
    execTeamPlace gid core s = .next (placePipeline s g.lead) := by
  simp only [execTeamPlace, hg, hwants, Bool.not_true, Bool.false_eq_true, if_false, hstage]

/-- Settles O43: the queue's words, the block's checks, the grid's age and the core that takes the team decide each step. -/
theorem launching : Obligations.Launching := by
  unfold Obligations.Launching
  refine ⟨?tail, ?eligible, ?aging, ?place, fun s gid core g n hg hwants hstage => teamPlace_placesStage core hg hwants hstage⟩
  case tail =>
    intro s q b part ctx t h s1 s2 hb hctx henabled hthawed htail hhead n
    have hrun := launchQueueTailWrite_reads hb hctx henabled hthawed htail hhead
    refine ⟨fun hnone => hrun.trans (if_pos hnone), fun hsome hfits => hrun.trans ((if_neg ?_).trans (if_neg ?_)),
      fun hfar => hrun.trans ((if_neg ?_).trans (if_pos hfar))⟩
    · exact hsome.ne'
    · exact Nat.not_lt.mpr hfits
    · exact (Nat.zero_lt_of_lt hfar).ne'
  case eligible =>
    intro s gid g hg hread hfirst hwaits u timed slot
    have hrun := blockEligible_checks hg hread hfirst hwaits
    exact ⟨fun s1 d hrefused => hrun.trans (congrArg (launchAnswer gid g) hrefused),
      fun s1 l haccepted => hrun.trans (congrArg (launchAnswer gid g) haccepted)⟩
  case aging =>
    intro s gid g hg heligible hbest hteams hold
    show execPriorityAging gid s = _
    simp only [execPriorityAging, hg, heligible, hbest, Option.isNone_none, hteams, agingCycles, hold, and_self, if_true]
  case place =>
    intro s gid core g hg hwants hstage hfits slot hslot
    obtain ⟨tid, t, hteam, hmade⟩ := placeTeam_places (core := core) hg hslot
    exact ⟨_, tid, t, teamPlace_places hg hwants hstage hfits, hteam, hmade⟩

end Sys2Proof.Machine
end

section
/-! PROOFS. Waiting on memory (R323–R330): the reads of a test leave the group that waits as it is, so that it completes with what they
gave, or goes on waiting. -/

open Sys2Proof Sys2Proof.Machine

namespace Sys2Proof.Machine

/-! ### What the reads of a test leave of every group (R265, R324) -/

theorem unpoked_publishHeld (s : State) (k : Nat) (h : HeldDirty) : unpoked (publishHeld s k h) = unpoked s := by
  unfold publishHeld
  refine (foldl_read_other (fun s x _ => ?wins) _).trans (foldl_read_other (fun s x _ => ?copies) s)
  case wins =>
    split
    · exact unpoked_ite (unpoked_windowBackWords _ _ _ _ _ _) rfl
    · rfl
  case copies =>
    split
    · exact unpoked_ite rfl (unpoked_ite (unpoked_pushWords _ _ _) (unpoked_pushCopy _ _))
    · rfl

theorem unpoked_forcePublish (s : State) (core team σ : Nat) : unpoked (forcePublish s core team σ) = unpoked s :=
  foldl_read_other (f := publishMark) (fun s m _ => unpoked_publishHeld s m.core m.dirty) s

theorem unpoked_clearWay (s : State) (core σ : Nat) : unpoked (clearWay s core σ) = unpoked s :=
  (unpoked_rdcPass _ _ _).trans ((unpoked_evict _ _ _).trans (unpoked_settle s σ))

theorem unpoked_fetchDatum (s : State) (core team pa : Nat) (cmp : Bool) :
    unpoked (fetchDatum s core team pa cmp).1 = unpoked s := by
  unfold fetchDatum
  split
  · refine (unpoked_homeExpanded _ _).trans ?_
    generalize lineSectors (pa / 256) = l
    exact foldl_read_other (fun s σ _ => (unpoked_clearWay _ core σ).trans (unpoked_forcePublish s core team σ)) s
  · dsimp only
    split
    · exact unpoked_forcePublish s core team _
    · exact (unpoked_homeRead _ _).trans ((unpoked_clearWay _ _ _).trans (unpoked_forcePublish s core team _))

theorem unpoked_readTest (core team n : Nat) (l : List (Nat × Nat × Bool × Nat)) (got : Fetched) (s : State)
    (acc : List (Nat × Nat × Nat)) : unpoked (readTest core team n l got s acc).1 = unpoked s := by
  induction l generalizing got s acc with
  | nil => rfl
  | cons x r ih =>
    obtain ⟨i, pa, cmp, want⟩ := x
    unfold readTest
    dsimp only
    split
    · exact ih _ _ _
    · have hfetch := unpoked_fetchDatum s core team pa cmp
      generalize fetchDatum s core team pa cmp = fetched at hfetch ⊢
      obtain ⟨s1, got1⟩ := fetched
      cases got1 with
      | error e => exact hfetch
      | ok b => exact (ih _ _ _).trans hfetch

/-- A group stands after the reads of a test as before them, but for the mark that a watched sector was written. -/
theorem getGroup_testRead {s s1 : State} {g : Group} {t : WatchTest} {r : Except (Nat × XErr) (List (Nat × Nat × Nat))}
    (hread : testRead s g t = (s1, r)) {k : Nat} {gk : Group} (hgk : getGroup s k = some gk) :
    ∃ g', getGroup s1 k = some g' ∧ { g' with poked := false } = { gk with poked := false } := by
  have hs1 : s1 = (testRead s g t).1 := by rw [hread]
  have hk : unpoked s1 k = unpoked s k := hs1 ▸ congrFun (unpoked_readTest _ _ _ _ _ _ _) k
  exact Option.map_eq_some_iff.mp (hk.trans (congrArg (Option.map _) hgk))

/-! ### Completing a wait (R324) -/

/-- The values that a completed wait read, before they are remembered as a load. -/
def testWritten (g : Group) (t : WatchTest) (now : Nat) (l : List (Nat × Nat × Nat)) : Group :=
  l.foldl (fun g x =>
    if t.uni then writePlace g .variable t.ver true now (.s t.data) 0 x.2.1
    else writeLane g .variable t.ver now (.v (BitVec.ofNat 8 t.data)) (t.w != .n32) x.1 x.2.1) g

theorem testWritten_onlyPend (g : Group) (t : WatchTest) (now : Nat) (l : List (Nat × Nat × Nat)) : OnlyPend g (testWritten g t now l) :=
  OnlyPend.foldl (fun g _ => by
    split
    · exact writePlace_onlyPend g .variable _ _ _ _ _ _ nofun
    · exact writeLane_onlyPend g .variable _ _ _ _ _ _ nofun) l g

theorem writeTest_place (g : Group) (t : WatchTest) (now : Nat) (l : List (Nat × Nat × Nat)) :
    (writeTest g t now l).pc = g.pc ∧ (writeTest g t now l).parkLen = g.parkLen := by
  have hkept := testWritten_onlyPend g t now l
  exact ⟨(congrArg Group.pc hkept :), (congrArg Group.parkLen hkept :)⟩

theorem newestAt_writeTest (g : Group) {t : WatchTest} (now : Nat) (huni : t.uni = true) (k v c : Nat) :
    newestAt (writeTest g t now [(k, v, c)]) (.s t.data) 0 = (v, none, none) := by
  have hwritten : testWritten g t now [(k, v, c)] = writePlace g .variable t.ver true now (.s t.data) 0 v := if_pos huni
  exact (congrArg (newestAt · _ _) hwritten).trans (writePlace_newest g .variable t.ver true now (.s t.data) 0 v nofun)

theorem getGroup_acquireAt (s : State) (core team : Nat) (sc : Scope) (k : Nat) : getGroup (acquireAt s core team sc) k = getGroup s k := by
  obtain ⟨m, hm⟩ := acquireAt_mem s core team sc
  rw [hm]
  rfl

theorem newestAt_awake (s : State) (g : Group) (n : Nat) (p : Place) (lane : Nat) :
    newestAt (advance (awake s g) n) p lane = newestAt g p lane := rfl

/-- A completed wait leaves its group after the instruction, with the values read. -/
theorem getGroup_completeWait (s : State) (gid : Nat) (g : Group) (t : WatchTest) (l : List (Nat × Nat × Nat)) (spurious : Bool) :
    ∃ g', getGroup (completeWait s gid g t l spurious) gid = some g' ∧ g'.wait = .none ∧ g'.pc = g.pc + BitVec.ofNat 64 g.parkLen ∧
      (t.uni = true → ∀ k v c, l = [(k, v, c)] → newestAt g' (.s t.data) 0 = (v, none, none)) := by
  obtain ⟨hpc, hlen⟩ := writeTest_place g t s.cycle l
  have hleaves : getGroup (leaveWait (setGroup s gid (writeTest g t s.cycle l)) gid) gid = some (advance
      (awake (setGroup s gid (writeTest g t s.cycle l)) (writeTest g t s.cycle l)) (writeTest g t s.cycle l).parkLen) := by
    simp only [leaveWait, getGroup_setGroup]
  refine ⟨advance (awake (setGroup s gid (writeTest g t s.cycle l)) (writeTest g t s.cycle l)) (writeTest g t s.cycle l).parkLen,
    ?_, rfl, ?_, ?_⟩
  · unfold completeWait
    dsimp only
    split
    · exact hleaves
    · exact (getGroup_acquireAt _ _ _ _ _).trans hleaves
  · show (writeTest g t s.cycle l).pc + BitVec.ofNat 64 (writeTest g t s.cycle l).parkLen = _
    rw [hpc, hlen]
  · rintro huni k v c rfl
    exact (newestAt_awake _ _ _ _ _).trans (newestAt_writeTest g s.cycle huni k v c)

/-- A wait that completes after the reads of its test moves past its instruction. -/
theorem getGroup_completeWait_read {s s1 : State} {gid : Nat} {g gk : Group} {t u : WatchTest}
    {r : Except (Nat × XErr) (List (Nat × Nat × Nat))} (hread : testRead s g t = (s1, r)) (hgk : getGroup s gid = some gk)
    (l : List (Nat × Nat × Nat)) (spurious : Bool) :
    ∃ g', getGroup (completeWait s1 gid ((getGroup s1 gid).getD g) u l spurious) gid = some g' ∧ g'.wait = .none ∧
      g'.pc = gk.pc + BitVec.ofNat 64 gk.parkLen ∧
      (u.uni = true → ∀ k v c, l = [(k, v, c)] → newestAt g' (.s u.data) 0 = (v, none, none)) := by
  obtain ⟨g1, hg1, hsame⟩ := getGroup_testRead hread hgk
  rw [hg1]
  obtain ⟨g2, hg2, hwait, hpc, hdata⟩ := getGroup_completeWait s1 gid g1 u l spurious
  exact ⟨g2, hg2, hwait, hpc.trans (congrArg₂ (· + BitVec.ofNat 64 ·) (congrArg Group.pc hsame :) (congrArg Group.parkLen hsame :)),
    hdata⟩

/-! ### A test of a group that watches (R324, R325) -/

section
variable {s s1 : State} {gid : Nat} {g : Group} {t : WatchTest} {l : List (Nat × Nat × Nat)}
  (hread : testRead (setGroup s gid { g with poked := false }) g t = (s1, .ok l))
include hread

theorem watchTest_eq :
    watchTest s gid g t = if testHolds t l then completeWait s1 gid ((getGroup s1 gid).getD g) t l false else s1 := by
  simp only [watchTest, hread]

/-- A test whose condition does not hold leaves the group waiting as it did. -/
theorem watchTest_waits (hfails : testHolds t l = false) :
    watchTest s gid g t = s1 ∧ ∃ g', getGroup s1 gid = some g' ∧ g'.wait = g.wait ∧ g'.pc = g.pc := by
  obtain ⟨g', hg', hsame⟩ := getGroup_testRead hread (getGroup_setGroup s gid { g with poked := false })
  exact ⟨(watchTest_eq hread).trans (if_neg (by simp [hfails])), g', hg', (congrArg Group.wait hsame :), (congrArg Group.pc hsame :)⟩

/-- A test whose condition holds completes the wait. -/
theorem watchTest_completes (hholds : testHolds t l = true) :
    watchTest s gid g t = completeWait s1 gid ((getGroup s1 gid).getD g) t l false ∧
      ∃ g', getGroup (completeWait s1 gid ((getGroup s1 gid).getD g) t l false) gid = some g' ∧ g'.wait = .none ∧
        g'.pc = g.pc + BitVec.ofNat 64 g.parkLen ∧
        (t.uni = true → ∀ k v c, l = [(k, v, c)] → newestAt g' (.s t.data) 0 = (v, none, none)) :=
  ⟨(watchTest_eq hread).trans (if_pos hholds),
    getGroup_completeWait_read hread (getGroup_setGroup s gid { g with poked := false }) l false⟩

end

/-! ### MWAIT_RETEST and MWAIT_OVERFLOW_EXPIRY (R324–R326) -/

theorem mwaitRetest_eq {s : State} {gid : Nat} {g : Group} {sectors : List Nat} {t : WatchTest} (hg : getGroup s gid = some g)
    (hwait : g.wait = .watch sectors t) : exec (.mwaitRetest gid) s = .next (watchTest s gid g t) := by
  show execMwaitRetest gid s = _
  simp only [execMwaitRetest, hg, hwait]

theorem mwaitOverflowExpiry_eq {s : State} {gid : Nat} {g : Group} {till : Nat} {t : WatchTest} (hg : getGroup s gid = some g)
    (hwait : g.wait = .overflow till t) :
    (s.cycle < till → exec (.mwaitOverflowExpiry gid) s = .next s) ∧
    (till ≤ s.cycle → ∀ s1 l, testRead s g t = (s1, .ok l) →
      exec (.mwaitOverflowExpiry gid) s = .next (completeWait s1 gid ((getGroup s1 gid).getD g) t l (!testHolds t l))) := by
  show (_ → execMwaitOverflowExpiry gid s = _) ∧ (_ → ∀ s1 l, _ → execMwaitOverflowExpiry gid s = _)
  constructor
  · intro htill
    simp only [execMwaitOverflowExpiry, hg, hwait, if_pos htill]
  · intro htill s1 l hread
    simp only [execMwaitOverflowExpiry, hg, hwait, if_neg (Nat.not_lt.mpr htill), hread]

/-! ### A wait's first test (R324–R326) -/

/-- A wait that starts watches its sectors while the core's monitor has room, and else tests once before it waits. -/
theorem startWait_waitRuns {i : Instr} {s s1 : State} {gid : Nat} {o : Group} {len : Nat} {t : WatchTest}
    (hexec : exec i s = .next (startWait s1 gid o len t)) : WaitRuns i s s1 gid o len t := by
  refine ⟨fun hroom g1 hg1 s2 l hread => ?watched, fun hfull s2 l hread => ?overflowed⟩
  case watched =>
    have hstart : startWait s1 gid o len t =
        watchTest (park s1 gid o len (.watch (distinct (t.lanes.map fun x => x.2.1 / 64)) t)) gid g1 t :=
      (if_neg (Nat.not_lt.mpr hroom)).trans (by rw [hg1]; rfl)
    have hparked := Option.some.inj ((getGroup_park s1 gid o len _).symm.trans hg1)
    rw [hexec, hstart]
    refine ⟨fun hholds => ?_, fun hfails => ?_⟩
    · obtain ⟨hdone, g', hg', hwait, hpc, hdata⟩ := watchTest_completes hread hholds
      refine ⟨_, g', rfl, hdone, hdone ▸ hg', hwait, ?_, hdata⟩
      rw [hpc, ← hparked]
    · obtain ⟨hwaits, g', hg', hwait, hpc⟩ := watchTest_waits hread hfails
      refine ⟨congrArg Host.Outcome.next hwaits, g', hg', ?_, ?_⟩
      · rw [hwait, ← hparked]
      · rw [hpc, ← hparked]
  case overflowed =>
    have hstart : startWait s1 gid o len t = if testHolds t l
        then acquireAt (setGroup s2 gid (advance (writeTest o t s2.cycle l) len)) o.core o.team t.scp
        else park s2 gid o len (.overflow (s2.cycle + overflowInterval s2 o) t) := by
      unfold startWait
      rw [hread]
      exact if_pos hfull
    rw [hexec, hstart]
    exact ⟨fun hholds => congrArg Host.Outcome.next (if_pos hholds), fun hfails => congrArg Host.Outcome.next (if_neg (by simp [hfails]))⟩

/-! ### MWAIT (R287, R323) -/

/-- Registers within the allocation are not refused. -/
theorem lanesAllocated {uni : Bool} {a b regs : Nat} (h : uni = false → a < regs ∧ b < regs) :
    ¬(!uni && (decide (a ≥ regs) || decide (b ≥ regs))) = true := by
  cases uni with
  | true => simp
  | false => simpa using h rfl

/-- Aligned addresses raise nothing. -/
theorem noneBent {eas : List (Nat × DWord)} {n : Nat} (h : ∀ e ∈ eas, e.2.toNat % n = 0) :
    ¬(!(eas.filter fun e => e.2.toNat % n != 0).isEmpty) = true := by
  have hnone : (eas.filter fun e => e.2.toNat % n != 0) = [] := List.filter_eq_nil_iff.mpr fun e he => by simp [h e he]
  simp [hnone]

section
variable {x : MwaitOp} {s : State} {gid : Nat} {g : Group}

/-- The lanes a wait concerns: those that take part, or lane 0 for a uniform one whose guard holds (R34). -/
def mwaitPart (x : MwaitOp) (o : Group) (now : Nat) : List Nat :=
  if x.h.uni then (if uniGuard o x.h now then [0] else []) else takingPart o x.h .w32 now

/-- Each of those lanes with its address. -/
def mwaitEas (x : MwaitOp) (o : Group) (now : Nat) : List (Nat × DWord) :=
  (mwaitPart x o now).map fun i => (i, if x.h.uni then uniAddr o x.addr x.off now
    else laneAddr o x.addr x.off i (now + beatOffset .w32 (mwaitPart x o now) i))

/-- The test of a wait, its pages translated as `m`. -/
def mwaitTest (x : MwaitOp) (o : Group) (now cycle : Nat) (m : PageMap) : WatchTest :=
  ⟨false, x.w, x.cond, x.scp, x.h.uni, x.h.ver, x.data.toNat, (mwaitEas x o now).filterMap fun e =>
    let want := if x.h.uni then readPlace o (.s x.data.toNat) 0 true cycle
      else dataValue o x.data.toNat e.1 (now + beatOffset .w32 (mwaitPart x o now) e.1) (x.w != .n32)
    match m.look e.2 with
    | .ok l => some (e.1, leafPa l e.2, l.cmp, want)
    | .error _ => none⟩

variable (hi : Issuing s gid g x.h)
  (hregs : x.h.uni = false → x.data.toNat + (if x.w != .n32 then 1 else 0) < (roleOf s g).regs ∧
    2 * x.addr.toNat + 1 < (roleOf s g).regs)
include hi hregs

theorem mwait_idle (hpart : mwaitPart x (openIssue s g x.h) s.cycle = []) :
    exec (.mwait x) s = Ends s gid (openIssue s g x.h) 1 (advance (openIssue s g x.h) (instrLen x.h false)) := by
  show execMwait x s = _
  rw [execMwait, issue_runs _ _ hi]
  refine congrArg Host.Outcome.next ((if_neg ?_).trans ((if_pos ?_).trans (finish_eq _ _ _ _ _ _)))
  · rw [roleOf_setGroup, roleOf_openIssue]
    exact lanesAllocated hregs
  · exact List.isEmpty_iff.mpr hpart

/-- With every address aligned and translated a wait starts its first test. -/
theorem mwait_starts (hpart : mwaitPart x (openIssue s g x.h) s.cycle ≠ [])
    (haligned : ∀ e ∈ mwaitEas x (openIssue s g x.h) s.cycle, e.2.toNat % mwBytes x.w = 0) {s1 : State} {m : PageMap}
    (hpages : translatePages
      (whoOf (setGroup (occupy s (openIssue s g x.h) (if x.h.uni then 1 else beatCount .w32 (mwaitPart x (openIssue s g x.h) s.cycle)))
        gid (openIssue s g x.h)) (openIssue s g x.h)) .read
      (distinct ((mwaitEas x (openIssue s g x.h) s.cycle).map fun e => e.2.toNat / 65536))
      (setGroup (occupy s (openIssue s g x.h) (if x.h.uni then 1 else beatCount .w32 (mwaitPart x (openIssue s g x.h) s.cycle)))
        gid (openIssue s g x.h)) [] = (s1, m))
    (hok : ∀ e ∈ m, ∃ l, e.2 = .ok l) :
    exec (.mwait x) s = .next (startWait s1 gid (openIssue s g x.h) (instrLen x.h false)
      (mwaitTest x (openIssue s g x.h) s.cycle s1.cycle m)) := by
  show execMwait x s = _
  rw [execMwait, issue_runs _ _ hi]
  refine congrArg Host.Outcome.next ((if_neg ?_).trans ((if_neg ?_).trans ?_))
  · rw [roleOf_setGroup, roleOf_openIssue]
    exact lanesAllocated hregs
  · exact fun hempty => hpart (List.isEmpty_iff.mp hempty)
  · dsimp only
    generalize hread : translatePages _ _ _ _ _ = pages
    rw [occupy_setGroup] at hread
    obtain rfl : pages = (s1, m) := hread.symm.trans hpages
    dsimp only
    refine (if_neg ?_).trans ((if_neg ?_).trans ?_)
    · exact noneBent haligned
    · rw [filterMap_ok_eq_nil hok fun _ _ => rfl]
      exact nofun
    · rw [walkLost_eq_none hok]
      rfl

end

/-- Settles O23: a wait's first test and each later one read their data and leave the waiting group as it was, so that it completes
with what they read when the condition holds, and waits on when it does not. -/
theorem waitingOnMemory : Obligations.WaitingOnMemory := by
  refine ⟨?mwait, ?retest, ?expiry⟩
  case mwait =>
    intro x s gid g hi len wide regs hregs part
    refine ⟨fun hpart => mwait_idle hi hregs hpart, ?_⟩
    intro hpart at_ eas s0 haligned s1 m hpages hok lanes
    exact startWait_waitRuns (mwait_starts hi hregs hpart haligned hpages hok)
  case retest =>
    intro s gid g sectors t s1 l hg hwait hread
    rw [mwaitRetest_eq hg hwait]
    refine ⟨fun hholds => ?_, fun hfails => ?_⟩
    · obtain ⟨hdone, g', hg', hready, hpc, -⟩ := watchTest_completes hread hholds
      exact ⟨congrArg Host.Outcome.next hdone, g', hg', hready, hpc⟩
    · obtain ⟨hwaits, hstays⟩ := watchTest_waits hread hfails
      exact ⟨congrArg Host.Outcome.next hwaits, hstays⟩
  case expiry =>
    intro s gid g till t hg hwait
    obtain ⟨hearly, hexpired⟩ := mwaitOverflowExpiry_eq hg hwait
    refine ⟨hearly, fun htill s1 l hread => ?_⟩
    obtain ⟨g', hg', hready, hpc, -⟩ := getGroup_completeWait_read hread hg l (!testHolds t l)
    exact ⟨hexpired htill s1 l hread, g', hg', hready, hpc⟩

/-! ### Transaction barriers (R249, R328–R330) -/

section
variable {x : TbOp} {s : State} {gid : Nat} {g : Group} (hi : Issuing s gid g x.h)
include hi

theorem tbOp_idle (act : State → Nat → Group → Nat → Leaf → State) (hguard : uniGuard (openIssue s g x.h) x.h s.cycle = false) :
    tbOp s x act = Ends s gid (openIssue s g x.h) 1 (advance (openIssue s g x.h) (instrLen x.h false)) := by
  rw [tbOp, issue_runs _ _ hi]
  exact congrArg Host.Outcome.next ((if_pos (by simp [hguard])).trans (finish_eq _ _ _ _ _ _))

/-- At an aligned address that is translated, allowed at its scope and not poisoned, the instruction acts on the barrier at its home. -/
theorem tbOp_acts (act : State → Nat → Group → Nat → Leaf → State) (hguard : uniGuard (openIssue s g x.h) x.h s.cycle = true)
    {s1 : State} {l : Leaf} {leaf : Option Leaf}
    (hpage : translateLeaf (setGroup (occupy s (openIssue s g x.h) 1) gid (openIssue s g x.h))
      (whoOf (setGroup (occupy s (openIssue s g x.h) 1) gid (openIssue s g x.h)) (openIssue s g x.h))
      (uniAddr (openIssue s g x.h) x.addr x.off s.cycle) .write = (s1, .ok l, leaf))
    (haligned : (uniAddr (openIssue s g x.h) x.addr x.off s.cycle).toNat % 16 = 0)
    (hscope : scopeBad s1 (whoOf (setGroup (occupy s (openIssue s g x.h) 1) gid (openIssue s g x.h)) (openIssue s g x.h)) (fun _ => leaf)
      x.scp (uniAddr (openIssue s g x.h) x.addr x.off s.cycle) = false)
    (hsound : s1.mem.poison.contains (leafPa l (uniAddr (openIssue s g x.h) x.addr x.off s.cycle) / 64) = false) :
    tbOp s x act = .next (act
      (clearWay s1 (openIssue s g x.h).core (leafPa l (uniAddr (openIssue s g x.h) x.addr x.off s.cycle) / 64)) gid
      (openIssue s g x.h) (leafPa l (uniAddr (openIssue s g x.h) x.addr x.off s.cycle)) l) := by
  rw [tbOp, issue_runs _ _ hi]
  refine congrArg Host.Outcome.next ((if_neg (by simp [hguard])).trans ?_)
  simp only [occupy_setGroup, setGroup_cycle, occupy_cycle]
  rw [hpage]
  refine (if_neg (not_not.mpr haligned)).trans ((if_neg (by simp [hscope])).trans ?_)
  exact if_neg fun hlost => Bool.false_ne_true (hsound.symm.trans hlost)

end

/-- Settles O24: the checks passed, each instruction acts on the barrier at its home; TBWAIT waits as every wait on memory does. -/
theorem transactionBarriers : Obligations.TransactionBarriers := by
  intro x s gid g hi len ea s0 w
  have hinit : exec (.tbinit x) s = execTbinit x s := rfl
  have harr : exec (.tbarr x) s = execTbarr x s := rfl
  have hwait : exec (.tbwait x) s = execTbwait x s := rfl
  refine ⟨fun hguard => ⟨hinit.trans (tbOp_idle hi _ hguard), harr.trans (tbOp_idle hi _ hguard), hwait.trans (tbOp_idle hi _ hguard)⟩, ?_⟩
  intro hguard s1 l leaf hpage haligned hscope hsound pa s2 n
  refine ⟨hinit.trans (tbOp_acts hi _ hguard hpage haligned hscope hsound), ?arrives,
    startWait_waitRuns (hwait.trans (tbOp_acts hi _ hguard hpage haligned hscope hsound))⟩
  case arrives =>
    intro s3 r
    refine ⟨_, harr.trans (tbOp_acts hi _ hguard hpage haligned hscope hsound), writePlace_onlyPend _ .variable _ _ _ _ _ _ nofun,
      writePlace_newest _ .variable _ _ _ _ _ _ nofun, fun p lane hp => ?_⟩
    exact writePlace_newest_other _ .variable _ _ _ _ _ _ _ _ nofun fun hsame =>
      hp (hsame.2 ▸ List.mem_singleton_self 0) (hsame.1 ▸ List.mem_singleton_self _)

end Sys2Proof.Machine
end

section
/-! PROOFS. Spawning and regrouping (R44–R52, R158–R160): the lanes of a SPAWN on a core without bins fill its first bin in order; a
REGROUP inside a divergence answers at once, and one outside waits at its rendezvous, where its partner waits with it. -/

open Sys2Proof Sys2Proof.Machine

namespace Sys2Proof.Machine

/-! ### SPAWN issued (R158, R159) -/

/-- What each spawning lane brings into its bin: its number and its arguments. -/
def spawnLanes (o : Group) (a : BitVec 8) (cnt : BitVec 3) (part : List Nat) (now : Nat) : List BinLane :=
  part.map fun i => ⟨i, (List.range cnt.toNat).map fun k =>
    BitVec.ofNat 32 (readPlace o (.v (a.toNat + k)) i false (now + beatOffset .w32 part i))⟩

section
variable {h : Hdr} {a : BitVec 8} {cnt : BitVec 3} {off : BitVec 24} {s : State} {gid : Nat} {g : Group}
  (hi : Issuing s gid g h) (hentry : binTimer (kernelOf s g.team) ((openIssue s g h).pc + off.signExtend 64 * 8) ≠ none)
  (hargs : cnt = 0 ∨ a.toNat + cnt.toNat ≤ (roleOf s g).regs)
include hentry hargs

/-- A declared entry and allocated arguments are not refused. -/
theorem spawn_allowed :
    ¬((binTimer (kernelOf (setGroup s gid (openIssue s g h)) (openIssue s g h).team) ((openIssue s g h).pc + off.signExtend 64 * 8)).isNone
      || (decide (cnt ≠ 0) && decide (a.toNat + cnt.toNat > (roleOf (setGroup s gid (openIssue s g h)) (openIssue s g h)).regs))) = true := by
  have hdeclared : (binTimer (kernelOf (setGroup s gid (openIssue s g h)) (openIssue s g h).team)
      ((openIssue s g h).pc + off.signExtend 64 * 8)).isNone = false := by
    rw [openIssue_team]
    exact Option.isNone_eq_false_iff.mpr (Option.isSome_iff_ne_none.mpr hentry)
  rw [hdeclared, Bool.false_or, roleOf_setGroup, roleOf_openIssue]
  rcases hargs with hnone | hfits
  · simp [hnone]
  · simp [hfits]

include hi

theorem spawn_idle (hpart : takingPart (openIssue s g h) h .w32 s.cycle = []) :
    exec (.spawn h a cnt off) s = Ends s gid (openIssue s g h) 1 (advance (openIssue s g h) (instrLen h false)) := by
  show execSpawn h a cnt off s = _
  rw [execSpawn, issue_runs _ _ hi]
  refine congrArg Host.Outcome.next ((if_neg (spawn_allowed hentry hargs)).trans ((if_pos ?_).trans (finish_eq _ _ _ _ _ _)))
  exact List.isEmpty_iff.mpr hpart

/-- The lanes of a SPAWN enter bins in order, after the core's expired bins and earlier SPAWNs and a release at .team. -/
theorem spawn_places (hpart : takingPart (openIssue s g h) h .w32 s.cycle ≠ []) {s1 : State} {x : State × List BinLane}
    (hs1 : s1 = releaseAt (resumeSpawns (setGroup s gid (openIssue s g h)) (openIssue s g h).core) (openIssue s g h).core
      (openIssue s g h).team .team)
    (hx : x = placeSpawns (openIssue s g h).core (openIssue s g h).team (openIssue s g h).role
      ((openIssue s g h).pc + off.signExtend 64 * 8) s1.nextId
      (spawnLanes (openIssue s g h) a cnt (takingPart (openIssue s g h) h .w32 s.cycle) s.cycle) s1) :
    exec (.spawn h a cnt off) s = .next (if x.2.isEmpty
      then finish x.1 gid (openIssue s g h) (beatCount .w32 (takingPart (openIssue s g h) h .w32 s.cycle)) (instrLen h false)
      else park (occupy x.1 (openIssue s g h) (beatCount .w32 (takingPart (openIssue s g h) h .w32 s.cycle))) gid
        { openIssue s g h with spawnLeft := x.2 } (instrLen h false) (.spawn ((openIssue s g h).pc + off.signExtend 64 * 8))) := by
  show execSpawn h a cnt off s = _
  subst hs1 hx
  rw [execSpawn, issue_runs _ _ hi]
  refine congrArg Host.Outcome.next ((if_neg (spawn_allowed hentry hargs)).trans ((if_neg ?_).trans rfl))
  exact fun hempty => hpart (List.isEmpty_iff.mp hempty)

end

/-! ### A core without bins or parked SPAWNs (R44, R45) -/

theorem mem_of_tget {α : Type} {t : Tab α} {k : Nat} {v : α} (hv : tget t k = some v) : (k, v) ∈ t := by
  induction t with
  | nil => exact nomatch hv
  | cons e r ih =>
    unfold tget at hv
    split at hv
    next heq => exact List.mem_cons.mpr (.inl (Prod.ext heq.symm (Option.some.inj hv).symm))
    next => exact List.mem_cons_of_mem _ (ih hv)

theorem mem_tset {α : Type} {t : Tab α} {k : Nat} {v : α} {e : Nat × α} (he : e ∈ tset t k v) : e = (k, v) ∨ e ∈ t := by
  induction t with
  | nil => exact .inl (List.mem_singleton.mp he)
  | cons x r ih =>
    unfold tset at he
    split at he
    · exact (List.mem_cons.mp he).imp id id
    · split at he
      · exact (List.mem_cons.mp he).imp id (List.mem_cons_of_mem _)
      · rcases List.mem_cons.mp he with rfl | hr
        · exact .inr List.mem_cons_self
        · exact (ih hr).imp id (List.mem_cons_of_mem _)

/-- A core has no parked SPAWN exactly when none of its groups waits in one. -/
theorem parkedSpawns_eq_nil {s : State} {core : Nat} :
    parkedSpawns s core = [] ↔ ∀ e ∈ s.groups, e.2.core = core → ∀ entry, e.2.wait ≠ .spawn entry := by
  rw [List.eq_nil_iff_forall_not_mem]
  refine forall_congr' fun e => ?_
  rw [parkedSpawns, mem_sortBy, List.mem_filter, not_and]
  refine imp_congr_right fun _ => ?_
  cases hwait : e.2.wait <;> simp

/-- A group that comes back with the wait it had parks no SPAWN. -/
theorem parkedSpawns_setGroup {s : State} {core gid : Nat} {g o : Group} (hg : getGroup s gid = some g) (hcore : o.core = g.core)
    (hwait : o.wait = g.wait) (hnone : parkedSpawns s core = []) : parkedSpawns (setGroup s gid o) core = [] := by
  rw [parkedSpawns_eq_nil] at hnone ⊢
  intro e he
  rcases mem_tset he with rfl | he
  · rw [hcore, hwait]
    exact hnone _ (mem_of_tget hg)
  · exact hnone e he

theorem expireBins_of_nil {s : State} {core : Nat} (hbins : (getCore s core).bins = []) : expireBins s core = s := by
  rw [expireBins, hbins]
  rfl

theorem resumeSpawns_of_nil {s : State} {core : Nat} (hbins : (getCore s core).bins = []) (hparked : parkedSpawns s core = []) :
    resumeSpawns s core = s := by
  rw [resumeSpawns, expireBins_of_nil hbins]
  rw [hparked]
  rfl

/-! ### Lanes that fill one bin (R44–R46) -/

/-- The least number free after `0 … n−1` is `n`. -/
theorem leastFree_range {n k m : Nat} (hm : m ≤ n) (hn : n ≤ m + k) : leastFree (List.range n) k m = n := by
  induction k generalizing m with
  | zero => exact Nat.le_antisymm hm hn
  | succ k ih =>
    unfold leastFree
    split
    next hused =>
      have hlt : m < n := List.mem_range.mp (List.contains_iff_mem.mp hused)
      exact ih hlt (by omega)
    next hfree =>
      have hge : ¬m < n := fun hlt => hfree (List.contains_iff_mem.mpr (List.mem_range.mpr hlt))
      omega

/-- A bin that lanes with some arguments have entered in order, position 0 first. -/
def filledBin (team role : Nat) (entry : DWord) (till : Nat) (args : List (List Word)) : Bin :=
  ⟨team, role, entry, args.zipIdx.map fun x => ⟨x.2, x.1⟩, some till, none⟩

theorem filledBin_args (team role : Nat) (entry : DWord) (till : Nat) (args : List (List Word)) :
    (filledBin team role entry till args).lanes.map (·.args) = args := by
  simp [filledBin, Function.comp_def]

theorem filledBin_pos (team role : Nat) (entry : DWord) (till : Nat) (args : List (List Word)) :
    (filledBin team role entry till args).lanes.map (·.pos) = List.range args.length := by
  simp [filledBin, Function.comp_def, List.range_eq_range']

/-- The next lane takes the next position. -/
theorem filledBin_append (team role : Nat) (entry : DWord) (till : Nat) (args : List (List Word)) (new : List Word)
    (hroom : args.length ≤ 32) :
    { filledBin team role entry till args with lanes := (filledBin team role entry till args).lanes ++
        [⟨leastFree ((filledBin team role entry till args).lanes.map (·.pos)) 32 0, new⟩] } =
      filledBin team role entry till (args ++ [new]) := by
  rw [filledBin_pos, leastFree_range (Nat.zero_le _) (by omega)]
  simp [filledBin, List.zipIdx_append]

section
variable {s : State} {core team role : Nat} {entry : DWord} {till : Nat} {args : List (List Word)}

/-- A lane enters the core's one bin, while it has room for another. -/
theorem placeSpawn_fills (hbins : (getCore s core).bins = [(0, filledBin team role entry till args)]) (hroom : args.length + 1 < 32)
    (new : List Word) : ∃ s', placeSpawn s core team role entry new = some s' ∧
      (getCore s' core).bins = [(0, filledBin team role entry till (args ++ [new]))] := by
  have hlen : (filledBin team role entry till args).lanes.length = args.length := by simp [filledBin]
  refine ⟨setCore s core { getCore s core with bins := [(0, filledBin team role entry till (args ++ [new]))] }, ?_, ?_⟩
  · have hfound : (getCore s core).bins.find? (fun b => b.2.team == team && b.2.role == role && b.2.entry == entry) =
        some (0, filledBin team role entry till args) := by
      rw [hbins]
      exact List.find?_cons_of_pos (by simp [filledBin])
    have hmore := filledBin_append team role entry till args new (by omega)
    simp only [placeSpawn, hfound, hlen, hmore]
    refine (if_neg (by omega)).trans (congrArg some ((if_neg (by omega)).trans ?_))
    rw [hbins]
    rfl
  · rw [getCore_setCore]

/-- Lanes that fit beside those of the core's one bin all enter it, in order. -/
theorem placeSpawns_fill (seq : Nat) (lanes : List BinLane) (hbins : (getCore s core).bins = [(0, filledBin team role entry till args)])
    (hroom : args.length + lanes.length < 32) :
    (placeSpawns core team role entry seq lanes s).2 = [] ∧
      (getCore (placeSpawns core team role entry seq lanes s).1 core).bins =
        [(0, filledBin team role entry till (args ++ lanes.map (·.args)))] := by
  induction lanes generalizing s args with
  | nil => exact ⟨rfl, hbins.trans (by simp)⟩
  | cons l r ih =>
    have hlen : args.length + (r.length + 1) < 32 := hroom
    obtain ⟨s', hplaced, hbins'⟩ := placeSpawn_fills hbins (by omega) l.args
    have hstep : placeSpawns core team role entry seq (l :: r) s = placeSpawns core team role entry seq r s' := by
      simp only [placeSpawns, hplaced, hbins, hbins', List.length_singleton, Nat.lt_irrefl, if_false]
    rw [hstep]
    have hrest := ih hbins' (by simp; omega)
    rwa [List.append_assoc] at hrest

/-- On a core without bins the first lane opens bin 0, whose timer starts. -/
theorem placeSpawn_opens (hbins : (getCore s core).bins = []) {timer : Nat} (htimer : binTimer (kernelOf s team) entry = some timer)
    (new : List Word) : ∃ s', placeSpawn s core team role entry new = some s' ∧
      (getCore s' core).bins = [(0, filledBin team role entry (s.cycle + timer) [new])] := by
  refine ⟨setCore s core { getCore s core with bins := [(0, filledBin team role entry (s.cycle + timer) [new])] }, ?_, ?_⟩
  · simp only [placeSpawn, hbins, htimer]
    rfl
  · rw [getCore_setCore]

/-- On a core without bins the lanes of a SPAWN that do not fill one enter bin 0. -/
theorem placeSpawns_open (seq : Nat) (hbins : (getCore s core).bins = []) {timer : Nat}
    (htimer : binTimer (kernelOf s team) entry = some timer) (lanes : List BinLane) (hsome : lanes ≠ []) (hroom : lanes.length < 32) :
    (placeSpawns core team role entry seq lanes s).2 = [] ∧
      (getCore (placeSpawns core team role entry seq lanes s).1 core).bins =
        [(0, filledBin team role entry (s.cycle + timer) (lanes.map (·.args)))] := by
  obtain ⟨l, r, rfl⟩ := List.exists_cons_of_ne_nil hsome
  obtain ⟨s', hplaced, hbins'⟩ := placeSpawn_opens (role := role) hbins htimer l.args
  have hstep : placeSpawns core team role entry seq (l :: r) s = placeSpawns core team role entry seq r s' := by
    simp only [placeSpawns, hplaced, hbins, hbins', List.length_nil, Nat.not_lt_zero, if_false]
  rw [hstep]
  exact placeSpawns_fill seq r hbins' (by simpa [Nat.add_comm] using hroom)

end

/-- Before an issued SPAWN's lanes enter, a core without bins or parked SPAWNs still has no bin, and its kernel and the time are the same. -/
theorem spawn_before {h : Hdr} {s : State} {gid : Nat} {g : Group} (hi : Issuing s gid g h) (hbins : (getCore s g.core).bins = [])
    (hparked : parkedSpawns s g.core = []) {s1 : State}
    (hs1 : s1 = releaseAt (resumeSpawns (setGroup s gid (openIssue s g h)) (openIssue s g h).core) (openIssue s g h).core
      (openIssue s g h).team .team) :
    (getCore s1 (openIssue s g h).core).bins = [] ∧ kernelOf s1 (openIssue s g h).team = kernelOf s g.team ∧ s1.cycle = s.cycle := by
  have hnone := parkedSpawns_setGroup (o := openIssue s g h) hi.group (openIssue_core s g h) (openIssue_wait s g h) hparked
  rw [openIssue_core, openIssue_team, resumeSpawns_of_nil (s := setGroup s gid (openIssue s g h)) hbins hnone] at hs1
  have hkept : MemOnly (setGroup s gid (openIssue s g h)) s1 := hs1 ▸ releaseAt_memOnly _ _ _ _
  refine ⟨?_, ?_, hkept.cycle⟩
  · rw [openIssue_core, hkept.getCore]
    exact hbins
  · rw [openIssue_team, hkept.rest]
    rfl

/-! ### Parked SPAWNs (R44, R45) -/

theorem spawnResume_eq {s : State} {gid : Nat} {g : Group} {entry : DWord} (hg : getGroup s gid = some g)
    (hwait : g.wait = .spawn entry) : exec (.spawnResume gid) s = .next (resumeSpawns s g.core) := by
  show execSpawnResume gid s = _
  simp only [execSpawnResume, hg, hwait]

theorem spawnResume_idle {s : State} {gid : Nat} (hnone : ∀ g entry, getGroup s gid = some g → g.wait ≠ .spawn entry) :
    exec (.spawnResume gid) s = .next s := by
  show execSpawnResume gid s = _
  unfold execSpawnResume
  split
  next => rfl
  next g hg =>
    split
    next entry hwait => exact absurd hwait (hnone g entry hg)
    next => rfl

theorem resumeSpawn_eq {s : State} {gid : Nat} {g : Group} {entry : DWord} (hg : getGroup s gid = some g)
    (hwait : g.wait = .spawn entry) {x : State × List BinLane}
    (hx : placeSpawns g.core g.team g.role entry g.waitSeq g.spawnLeft s = x) :
    resumeSpawn s gid = if x.2.isEmpty then leaveWait (setGroup x.1 gid { g with spawnLeft := x.2 }) gid
      else setGroup x.1 gid { g with spawnLeft := x.2 } := by
  simp only [resumeSpawn, hg, hwait, hx]

/-! ### REGROUP (R50–R53, R160) -/

/-- A group waits at its rendezvous, with its partner when one waits there (R51). -/
def rendezvous (s : State) (gid : Nat) (c : Group) (beats len pd : Nat) (mask : DWord) : State :=
  let p := park (occupy s c beats) gid c len (.regroup pd mask)
  match regroupPartner s gid c pd mask with
  | none => p
  | some (y, gy) =>
    let host := if popNat 32 c.live.toNat > popNat 32 gy.live.toNat then gid else y
    pairUp p host (if host = gid then y else gid) pd mask

section
variable {h : Hdr} {pd : BitVec 3} {mask : DWord} {s : State} {gid : Nat} {g : Group} (hi : Issuing s gid g h)
  (hmask : maskInRole (roleOf s g) mask = true) {c : Group} (hc : c = commitAll (openIssue s g h) s.cycle)
include hi hmask hc

theorem regroup_runs : exec (.regroup h pd mask) s = .next (if (!c.stack.isEmpty) = true
    then finish (setGroup s gid (openIssue s g h)) gid (writeRegroup c pd.toNat 0) (beatsOf c h .w32 s.cycle) (instrLen h true)
    else rendezvous (setGroup s gid (openIssue s g h)) gid c (beatsOf c h .w32 s.cycle) (instrLen h true) pd.toNat mask) := by
  show execRegroup h pd mask s = _
  subst hc
  rw [execRegroup, issue_runs _ _ hi]
  refine congrArg Host.Outcome.next ((if_neg ?_).trans rfl)
  simp [hmask]

end

section
variable {s : State} {gid y : Nat} {c gy : Group} {pd : Nat} {mask : DWord}

/-- A fold that keeps one of two elements picks an element of its list. -/
theorem foldl_pick_mem {α : Type} (better : α → α → Bool) (l : List α) (e : α) :
    l.foldl (fun b x => if better x b then x else b) e ∈ e :: l := by
  induction l generalizing e with
  | nil => exact List.mem_singleton_self e
  | cons x r ih =>
    rw [List.foldl_cons]
    split
    · exact List.mem_cons_of_mem _ (ih x)
    · rcases List.mem_cons.mp (ih e) with heq | hr
      · exact List.mem_cons.mpr (.inl heq)
      · exact List.mem_cons_of_mem _ (List.mem_cons_of_mem _ hr)

/-- A group is not its own partner. -/
theorem regroupPartner_ne (hpartner : regroupPartner s gid c pd mask = some (y, gy)) : y ≠ gid := by
  unfold regroupPartner at hpartner
  dsimp only at hpartner
  split at hpartner
  next => exact nomatch hpartner
  next e r hfits =>
    have hpicked := foldl_pick_mem (fun x b : Nat × Group => decide (x.2.waitSeq < b.2.waitSeq)) r e
    simp only [decide_eq_true_eq] at hpicked
    rw [Option.some.inj hpartner, ← hfits, List.mem_filter] at hpicked
    rintro rfl
    simp at hpicked

theorem pairUp_mem (s : State) (host donor pd : Nat) (mask : DWord) : (pairUp s host donor pd mask).mem = s.mem := by
  unfold pairUp
  split <;> rfl

theorem rendezvous_mem (beats len : Nat) : (rendezvous s gid c beats len pd mask).mem = s.mem := by
  unfold rendezvous
  dsimp only
  split
  · exact occupy_mem s c beats
  · exact (pairUp_mem _ _ _ _ _).trans (occupy_mem s c beats)

/-- Each of a pair waits for the results of both. -/
theorem getGroup_pairUp {host donor : Nat} {gh gd : Group} (hne : host ≠ donor) (hgh : getGroup s host = some gh)
    (hgd : getGroup s donor = some gd) :
    getGroup (pairUp s host donor pd mask) host = some { gh with wait := .paired host donor pd mask } ∧
      getGroup (pairUp s host donor pd mask) donor = some { gd with wait := .paired host donor pd mask } := by
  simp only [pairUp, hgh, hgd]
  exact ⟨(getGroup_setGroup_other _ _ _ _ hne).trans (getGroup_setGroup _ _ _), getGroup_setGroup _ _ _⟩

/-- Without a partner the group waits for one. -/
theorem rendezvous_alone (hnone : regroupPartner s gid c pd mask = none) (beats len : Nat) :
    rendezvous s gid c beats len pd mask = park (occupy s c beats) gid c len (.regroup pd mask) := by
  simp only [rendezvous, hnone]

/-- With a partner the side with more live lanes is the host (R51). -/
theorem rendezvous_pairs (hpartner : regroupPartner s gid c pd mask = some (y, gy)) (beats len : Nat) :
    rendezvous s gid c beats len pd mask = if popNat 32 gy.live.toNat < popNat 32 c.live.toNat
      then pairUp (park (occupy s c beats) gid c len (.regroup pd mask)) gid y pd mask
      else pairUp (park (occupy s c beats) gid c len (.regroup pd mask)) y gid pd mask := by
  simp only [rendezvous, hpartner]
  by_cases hmore : popNat 32 gy.live.toNat < popNat 32 c.live.toNat
  · simp only [gt_iff_lt, if_pos hmore, if_true]
  · simp only [gt_iff_lt, if_neg hmore, if_neg (regroupPartner_ne hpartner)]

/-- The group and its partner wait for the same, and nothing else of either differs but the time and place of the wait. -/
theorem getGroup_rendezvous_pairs (hpartner : regroupPartner s gid c pd mask = some (y, gy)) (hgy : getGroup s y = some gy)
    (beats len : Nat) {w : Wait}
    (hw : w = if popNat 32 gy.live.toNat < popNat 32 c.live.toNat then .paired gid y pd mask else .paired y gid pd mask) :
    getGroup (rendezvous s gid c beats len pd mask) gid =
        some { c with wait := w, waitSince := s.cycle, waitSeq := s.nextId, parkLen := len } ∧
      getGroup (rendezvous s gid c beats len pd mask) y = some { gy with wait := w } := by
  have hne := regroupPartner_ne hpartner
  have hgid := getGroup_park (occupy s c beats) gid c len (.regroup pd mask)
  rw [occupy_cycle, occupy_nextId] at hgid
  have hy : getGroup (park (occupy s c beats) gid c len (.regroup pd mask)) y = some gy :=
    (getGroup_park_other _ _ _ _ hne).trans ((getGroup_occupy _ _ _ _).trans hgy)
  rw [rendezvous_pairs hpartner, hw]
  split
  · exact getGroup_pairUp hne.symm hgid hy
  · exact (getGroup_pairUp hne hy hgid).symm

/-- A group stays as it is when it is paired, but for its wait. -/
theorem getGroup_pairUp_wait {p : State} {host donor k : Nat} {gk : Group} (hne : host ≠ donor) (hgk : getGroup p k = some gk)
    (hside : k = host ∨ k = donor) : ∃ w, getGroup (pairUp p host donor pd mask) k = some { gk with wait := w } := by
  unfold pairUp
  split
  next gh gd hgh hgd =>
    have hpaired := getGroup_pairUp (pd := pd) (mask := mask) hne hgh hgd
    simp only [pairUp, hgh, hgd] at hpaired
    rcases hside with rfl | rfl
    · obtain rfl := Option.some.inj (hgh.symm.trans hgk)
      exact ⟨_, hpaired.1⟩
    · obtain rfl := Option.some.inj (hgd.symm.trans hgk)
      exact ⟨_, hpaired.2⟩
  next => exact ⟨gk.wait, hgk⟩

/-- The group waits at its rendezvous, whoever waits there with it. -/
theorem getGroup_rendezvous (beats len : Nat) : ∃ w, getGroup (rendezvous s gid c beats len pd mask) gid =
    some { c with wait := w, waitSince := s.cycle, waitSeq := s.nextId, parkLen := len } := by
  have hgid := getGroup_park (occupy s c beats) gid c len (.regroup pd mask)
  rw [occupy_cycle, occupy_nextId] at hgid
  cases hpartner : regroupPartner s gid c pd mask with
  | none => exact ⟨.regroup pd mask, (congrArg (getGroup · gid) (rendezvous_alone hpartner beats len)).trans hgid⟩
  | some e =>
    obtain ⟨y, gy⟩ := e
    have hne := regroupPartner_ne hpartner
    rw [rendezvous_pairs hpartner]
    split
    · exact getGroup_pairUp_wait hne.symm hgid (.inl rfl)
    · exact getGroup_pairUp_wait hne hgid (.inr rfl)

end

/-- Settles O14: the lanes of a SPAWN fill bin 0 by induction on them; a REGROUP outside a divergence waits at its rendezvous, alone or
with its partner. -/
theorem spawnAndRegroup : Obligations.SpawnAndRegroup := by
  refine ⟨?spawn, ?resume, fun s gid hnone => spawnResume_idle hnone, ?parked, ?regroup⟩
  case spawn =>
    intro h a cnt off s gid g hi entry hentry hargs part
    refine ⟨fun hpart => spawn_idle hi hentry hargs hpart, ?_⟩
    intro hpart lanes s1 x
    have hexec := spawn_places hi hentry hargs hpart (s1 := s1) (x := x) rfl rfl
    have hmoves (hall : x.2 = []) : exec (.spawn h a cnt off) s =
        .next (finish x.1 gid (openIssue s g h) (beatCount .w32 part) (instrLen h false)) :=
      hexec.trans (congrArg Host.Outcome.next (if_pos (List.isEmpty_iff.mpr hall)))
    refine ⟨hmoves, ?_, ?_⟩
    · intro hleft
      refine ⟨_, _, hexec.trans (congrArg Host.Outcome.next (if_neg fun hempty => hleft (List.isEmpty_iff.mp hempty))),
        getGroup_park _ _ _ _ _, rfl, rfl, openIssue_pc s g h⟩
    · intro hbins hparked hfew
      obtain ⟨timer, htimer⟩ := Option.ne_none_iff_exists'.mp hentry
      obtain ⟨hempty, hkernel, hcycle⟩ := spawn_before (s1 := s1) hi hbins hparked rfl
      obtain ⟨hall, hfilled⟩ := placeSpawns_open (role := (openIssue s g h).role) s1.nextId hempty (hkernel ▸ htimer) lanes
        (fun hnil => hpart (List.map_eq_nil_iff.mp hnil)) (by simpa [lanes] using hfew)
      refine ⟨_, filledBin (openIssue s g h).team (openIssue s g h).role entry (s.cycle + timer) (lanes.map (·.args)),
        advance (openIssue s g h) (instrLen h false), hmoves hall, ?_, openIssue_team s g h, openIssue_role s g h, rfl,
        filledBin_args _ _ _ _ _, ?_, ?_, getGroup_setGroup _ _ _, openIssue_wait s g h, ?_⟩
      · rw [← openIssue_core s g h, getCore_finish]
        exact (congrArg (tget · 0) hfilled).trans (by rw [hcycle]; rfl)
      · rw [filledBin_pos]
        simp [lanes]
      · rw [htimer]
        rfl
      · exact congrArg (· + BitVec.ofNat 64 (instrLen h false)) (openIssue_pc s g h)
  case resume =>
    intro s gid g entry hg hwait
    exact spawnResume_eq hg hwait
  case parked =>
    intro s gid g entry hg hwait x
    have hresumed := resumeSpawn_eq hg hwait (x := x) rfl
    refine ⟨fun hall => ?_, fun hleft => ?_⟩
    · rw [hresumed, hall]
      rfl
    · exact hresumed.trans (if_neg fun hempty => hleft (List.isEmpty_iff.mp hempty))
  case regroup =>
    intro h pd mask s gid g hi hmask c n
    have hregs : OnlyRegs (openIssue s g h) c := commitAll_onlyRegs (openIssue s g h) s.cycle
    have hstack : c.stack = (openIssue s g h).stack := (congrArg Group.stack hregs :)
    have hlive : c.live = (openIssue s g h).live := (congrArg Group.live hregs :)
    have hpc : c.pc = g.pc := (congrArg Group.pc hregs :).trans (openIssue_pc s g h)
    have hexec := regroup_runs (pd := pd) hi hmask (c := c) rfl
    refine ⟨fun hinside => ?_, fun hout => ?_⟩
    · have hanswered := writeRegroup_onlyRegs c pd.toNat 0
      refine hexec.trans (congrArg Host.Outcome.next ((if_pos ?_).trans (finish_issued s gid n _ ?_ ?_)))
      · simpa [hstack] using hinside
      · exact (congrArg Group.slice hanswered :).trans (congrArg Group.slice hregs :)
      · exact (congrArg Group.core hanswered :).trans (congrArg Group.core hregs :)
    · obtain ⟨w, hwaits⟩ := getGroup_rendezvous (s := setGroup s gid (openIssue s g h)) (gid := gid) (c := c) (pd := pd.toNat)
        (mask := mask) n (instrLen h true)
      refine ⟨_, _, hexec.trans (congrArg Host.Outcome.next (if_neg ?_)), hwaits, hpc, rfl, rfl, rfl, ?_, ?_, ?_⟩
      · simpa [hstack] using hout
      · exact rendezvous_mem n _
      · intro hnone
        rw [rendezvous_alone hnone, getGroup_park] at hwaits
        exact (congrArg Group.wait (Option.some.inj hwaits) :).symm
      · intro y gy hpartner hgy
        have hgy' : getGroup (setGroup s gid (openIssue s g h)) y = some gy :=
          (getGroup_setGroup_other _ _ _ _ (regroupPartner_ne hpartner)).trans hgy
        obtain ⟨hgid, hy⟩ := getGroup_rendezvous_pairs hpartner hgy' n (instrLen h true) rfl
        have hw := (congrArg Group.wait (Option.some.inj (hwaits.symm.trans hgid)) :)
        refine ⟨_, hy, hw.symm, rfl, hw.trans ?_⟩
        rw [hlive]

end Sys2Proof.Machine
end
